-- ==== Sys2Proof/Word.lean ====
section
/-!
DEFINITION. The word types of the HV812 model and their plainest arithmetic (R4, R5): bytes, register words, the 128-bit ridge instruction word, and the bit-field reader used by every register layout.
-/

namespace Sys2Proof

/-- A byte of storage (R4). -/
abbrev Byte := BitVec 8
/-- A 16-bit field. -/
abbrev W16 := BitVec 16
/-- A 32-bit register or FP32 word. -/
abbrev W32 := BitVec 32
/-- A 64-bit register, entry or descriptor. -/
abbrev W64 := BitVec 64
/-- A ridge instruction (R186). -/
abbrev W128 := BitVec 128
/-- A digest, key or nonce. -/
abbrev W256 := BitVec 256
/-- A mask of the 48 ridges. -/
abbrev RMask := BitVec 48

/-- Bits [hi:lo] of a word as a number (R4: both ends included). -/
def bits {n : Nat} (w : BitVec n) (hi lo : Nat) : Nat := (w.toNat >>> lo) % 2 ^ (hi + 1 - lo)

/-- Bit i of a word. -/
def bitAt {n : Nat} (w : BitVec n) (i : Nat) : Bool := w.toNat.testBit i

/-- Reads an n-bit number as two's complement. -/
def asSigned (n x : Nat) : Int := if x < 2 ^ (n - 1) then (x : Int) else (x : Int) - (2 ^ n : Nat)

/-- The n-bit two's complement code of an integer. -/
def ofSigned (n : Nat) (x : Int) : Nat := (x % (2 ^ n : Nat)).toNat

/-- The positions of the set bits of a mask, in increasing order. -/
def bitList {n : Nat} (w : BitVec n) : List Nat := (List.range n).filter (fun i => w.toNat.testBit i)

/-- The mask with exactly the listed bits set. -/
def maskOf (n : Nat) (l : List Nat) : BitVec n :=
  BitVec.ofNat n (l.foldl (fun a i => a ||| 2 ^ i) 0)

/-- A sparse table in canonical form: keys strictly rising, no entry equal to what an unlisted key reads as. Its operations and its well-formedness stand in Machine/Tbl.lean. -/
abbrev Tbl (α : Type) := List (Nat × α)

/-- An exact fraction: the numbers of R93, R95, R100 and of every rounding are exact until a rule rounds them. Arithmetic stands in Machine/Num.lean. -/
structure Q where
  num : Int
  den : Nat
  deriving DecidableEq, Repr, Inhabited

end Sys2Proof
end

