-- ==== Sys2Proof/Syntax.lean ====
section
/-!
DEFINITION. The commands of the HV812 block: one constructor per row of spec/opcode_table.json, with the operands that the row's rule gives it. The table itself lists no operand fields; each operand here is a field the row's rule names, or the part of the outside (analogue, electrical, host, peer) world that the row reports (notes/assumptions/1, 4).
-/

namespace Sys2Proof

/-- The two host ports (R292). -/
inductive Port where
  | A | B
  deriving DecidableEq, Repr, Inhabited

/-- The two issue contexts of a ridge sequencer (R179). -/
inductive Ctx where
  | job | service
  deriving DecidableEq, Repr, Inhabited

/-- A submission ring: the admin queue of a port, or queue id 0 to 1,023 (R305). -/
inductive QId where
  | admin (p : Port)
  | io (q : Nat)
  deriving DecidableEq, Repr, Inhabited

abbrev Ridge := Fin 48
abbrev Pos := Fin 32
abbrev TileNo := Fin 34
abbrev PartNo := Fin 16
/-- 0 is PF0, n is VF n (R293). -/
abbrev Fn := Fin 17
/-- An Alelval port (R332). -/
abbrev Alv := Fin 8
/-- A rope engine entry (R284). -/
abbrev RopeNo := Fin 112

/-- One analogue deviation: the conversion it belongs to and how many LSBs its code lies from the nominal code of R75 (the outside, analogue world of R85; an unlisted conversion deviates by 0). -/
structure AdcDev where
  pos : Nat
  phase : Nat
  sub : Nat
  group : Nat
  pair : Nat
  dev : Int
  deriving DecidableEq, Repr, Inhabited

/-- A link frame (R336): header fields and payload bytes; crcOk says whether PCRC matches the payload as it arrived. -/
structure Frame where
  ty : Nat
  dst : Nat
  src : Nat
  spart : Nat
  tag : Nat
  bcast : Bool
  hops : Nat
  len : Nat
  op : Nat
  off64 : Nat
  reservedZero : Bool
  crcOk : Bool
  payload : List Byte
  deriving DecidableEq, Repr, Inhabited

/-- What a codeword looked like to the receiver after the FEC (R333). -/
structure Codeword where
  correctable : Bool
  corrected : Nat
  seq : Nat
  ack : Nat
  ctl : Nat
  deriving DecidableEq, Repr, Inhabited

/-- The commands: the rows of the opcode table in its order. -/
inductive Instr where
  -- ridge instructions (chapter 7): the ridge, the context and the 128-bit instruction word
  | nop (r : Ridge) (x : Ctx) (w : W128)
  | halt (r : Ridge) (x : Ctx) (w : W128)
  | vld (r : Ridge) (x : Ctx) (w : W128)
  /-- id: the window entry that completes. -/
  | vldComplete (r : Ridge) (id : Nat)
  | mvm (r : Ridge) (x : Ctx) (w : W128)
  | mvms (r : Ridge) (x : Ctx) (w : W128)
  /-- devs: the analogue deviations of the MVM's conversions (R85). -/
  | contributionCommit (r : Ridge) (id : Nat) (devs : List AdcDev)
  | pre (r : Ridge) (x : Ctx) (w : W128)
  | drn (r : Ridge) (x : Ctx) (w : W128)
  /-- ue: the slot entries whose ECC finds an uncorrectable error as they are read (R165). -/
  | drainComplete (r : Ridge) (id : Nat) (ue : List Nat)
  | spl (r : Ridge) (x : Ctx) (w : W128)
  | fil (r : Ridge) (x : Ctx) (w : W128)
  | aad (r : Ridge) (x : Ctx) (w : W128)
  /-- id: the message in flight that arrives. -/
  | aadArrival (id : Nat)
  /-- id: the memory atomic in flight that is applied next. -/
  | memoryAtomicApply (id : Nat)
  | dmm (r : Ridge) (x : Ctx) (w : W128)
  | vop (r : Ridge) (x : Ctx) (w : W128)
  | red (r : Ridge) (x : Ctx) (w : W128)
  | dmaCopy (r : Ridge) (x : Ctx) (w : W128)
  | dmaPrefetch (r : Ridge) (x : Ctx) (w : W128)
  | dmaInval (r : Ridge) (x : Ctx) (w : W128)
  | dmaFill (r : Ridge) (x : Ctx) (w : W128)
  /-- hostOk: the host accepts the access, where the segment reaches host memory (R260, code 0x07). -/
  | dmaSegment (cluster : Fin 4) (hostOk : Bool)
  | dmaCompletion (cluster : Fin 4) (id : Nat)
  /-- id: the pending walk. -/
  | pageWalk (id : Nat)
  /-- bad: how many of the read and its one retry mismatch the check word, 0 to 2 (R249). -/
  | moraineFill (part : PartNo) (pa : Nat) (bad : Nat)
  | ringPrefetchFill (r : Ridge) (k : Fin 4)
  | wait (r : Ridge) (x : Ctx) (w : W128)
  | waitSatisfied (r : Ridge) (x : Ctx)
  | sig (r : Ridge) (x : Ctx) (w : W128)
  | remoteSigArrival (id : Nat)
  | crn (r : Ridge) (x : Ctx) (w : W128)
  | cairnCommit (part : PartNo) (job : W32)
  | rbg (r : Ridge) (x : Ctx) (w : W128)
  | ren (r : Ridge) (x : Ctx) (w : W128)
  | ropeCommitGrant (e : RopeNo)
  | ropeTimeout (e : RopeNo)
  | pinHoldTimeout (e : RopeNo)
  | prb (r : Ridge) (x : Ctx) (w : W128)
  | srv (r : Ridge) (x : Ctx) (w : W128)
  | tmap (r : Ridge) (x : Ctx) (w : W128)
  | probeInsert (r : Ridge) (p : Pos)
  | probeCompare (r : Ridge) (id : Nat) (devs : List AdcDev)
  /-- m: the eight sums M_b of R93, each times 48. -/
  | surveyComplete (r : Ridge) (t : TileNo) (m : List Int)
  | surveySpanTimeout (r : Ridge) (t : TileNo)
  | surveyAgeTimer (r : Ridge) (t : TileNo)
  | surveyMvmCount (r : Ridge) (t : TileNo)
  | surveyIssue (r : Ridge) (t : TileNo)
  | driftFold (r : Ridge) (table : Fin 256)
  | refresh (r : Ridge) (p : Pos)
  | tileSwap (r : Ridge) (p : Pos) (t : TileNo)
  | programmingStart
  /-- fails: data and benchmark pairs whose row iterations fail; belayFail: assigned belay pairs with a failed cell after step 4; step5: the final check passes; base: the baseline M_b, each times 48. -/
  | programmingComplete (r : Ridge) (t : TileNo) (fails : List Nat) (belayFail : List Nat) (step5 : Bool) (base : List Int)
  /-- residue: the verify after the train finds a cell above level 0.5 (R413). -/
  | bulkResetTrain (r : Ridge) (t : TileNo) (residue : Bool)
  | loadCalibrationEnd (part : PartNo) (wset : W32)
  /-- bad: the converters that cannot be trimmed: row group, ADC, range. -/
  | converterCalibration (r : Ridge) (bad : List (Nat × Nat × Nat))
  /-- The frame of R108: input mV and mW, and the power in mW of the 212 domains. -/
  | powerFrame (mv : Nat) (mw : Nat) (dom : List Nat)
  | thermalModelStep
  /-- The input current in mA that the comparator sees (R117). -/
  | peakPowerHold (ma : Nat)
  | peakHoldHotTimer
  | estimateStale
  | noEstimateWindowEnd
  | inletStale
  | fwHeartbeat
  | heartbeatTimeout
  | fwStartTimeout
  | fwRunning
  | svnRaise
  | colGrant
  | windowMarker (kind : Fin 4)
  /-- reqs: the requesters whose REQ is raised in the decision cycle; save: the save class requests (R269). -/
  | arbiterGrant (cls : Fin 5) (inst : Nat) (reqs : List Nat) (save : Bool)
  | countTimeout (r : Ridge) (id : Nat)
  | jobEndOnFault (part : PartNo) (job : W32)
  | jobStart (part : PartNo) (job : W32)
  | jobCompletion (part : PartNo) (job : W32)
  | egressFenceRelease (part : PartNo) (job : W32)
  | jobTimeLimit (part : PartNo) (job : W32)
  | preemption (part : PartNo) (victim : W32) (incoming : W32)
  /-- saveOk: every CDU of the save area matches its check word (R266). -/
  | preemptionRestore (part : PartNo) (job : W32) (saveOk : Bool)
  | jobRestart (part : PartNo) (job : W32)
  | fieldTestDue (r : Ridge)
  | testGraceExpiry (r : Ridge)
  /-- failed: the mask of failed tests (R380); trim: converters that cannot be trimmed, by row group, ADC and range; bad: what fails in the sweep, by position, probe record, failing columns, first of them and its V; mv: CORE_MV. -/
  | fieldTestComplete (r : Ridge) (failed : BitVec 4) (trim : List (Nat × Nat × Nat)) (bad : List (Nat × Nat × Nat × Nat × Int)) (mv : Nat)
  -- host registers (chapter 10): port, function, value written
  | hbAttnAck (p : Port) (v : W32)
  | hbDbAdmin (p : Port) (v : W32)
  | sqDoorbell (p : Port) (f : Fn) (q : Fin 1024) (v : W32)
  | cqDoorbell (p : Port) (f : Fn) (q : Fin 1024) (v : W32)
  | commandFetch (q : QId)
  | hbCtrl (p : Port) (f : Fn) (v : W32)
  | hbAqCfg (p : Port) (v : W32)
  | hbEvtDrop (p : Port) (f : Fn)
  | hbColSeqLo (p : Port) (f : Fn)
  | hbColSeqHi (p : Port) (f : Fn)
  | registerWrite (p : Port) (f : Fn) (off : Nat) (v : W32)
  | rappelQueue (p : Port) (f : Fn) (v : W32)
  | rappelPartition (p : Port) (f : Fn) (v : W32)
  | rappelDevice (p : Port) (f : Fn) (v : W32)
  -- Ewesy commands (R312): the fetched command is named by its ring and CID
  | identify (q : QId) (cid : W16)
  | getCaps (q : QId) (cid : W16)
  | progPower (q : QId) (cid : W16)
  | surveyPolicy (q : QId) (cid : W16)
  | thermalPolicy (q : QId) (cid : W16)
  | arbWeight (q : QId) (cid : W16)
  | arbLimit (q : QId) (cid : W16)
  | arbStatus (q : QId) (cid : W16)
  | windowPolicy (q : QId) (cid : W16)
  | probePolicy (q : QId) (cid : W16)
  | partBind (q : QId) (cid : W16)
  | ridgeMap (q : QId) (cid : W16)
  | getFeature (q : QId) (cid : W16)
  | partCreate (q : QId) (cid : W16)
  | partDestroy (q : QId) (cid : W16)
  | partQuery (q : QId) (cid : W16)
  | queueCreate (q : QId) (cid : W16)
  | queueDestroy (q : QId) (cid : W16)
  | wsetLoad (q : QId) (cid : W16)
  | wsetUnload (q : QId) (cid : W16)
  /-- out: cells found outside their band, by ridge, position and count (R56). -/
  | wsetVerify (q : QId) (cid : W16) (out : List (Nat × Nat × Nat))
  | progLoad (q : QId) (cid : W16)
  | progUnload (q : QId) (cid : W16)
  | jobSubmit (q : QId) (cid : W16)
  | jobResume (q : QId) (cid : W16)
  | jobCairnExport (q : QId) (cid : W16)
  | calibrate (q : QId) (cid : W16)
  | testRun (q : QId) (cid : W16)
  | abort (q : QId) (cid : W16)
  | attest (q : QId) (cid : W16)
  | clayRead (q : QId) (cid : W16)
  | clayWrite (q : QId) (cid : W16)
  | clayUnlock (q : QId) (cid : W16)
  | clayProtect (q : QId) (cid : W16)
  | fwStage (q : QId) (cid : W16)
  | fwCommit (q : QId) (cid : W16)
  | eventConfig (q : QId) (cid : W16)
  | logExport (q : QId) (cid : W16)
  | peerTable (q : QId) (cid : W16)
  | routeSet (q : QId) (cid : W16)
  | powerCap (q : QId) (cid : W16)
  | thermalInlet (q : QId) (cid : W16)
  | tunnelDown (p : Port)
  | tunnelUp (p : Port)
  | vfFlr (p : Port) (n : Fin 16)
  | pf0Flr (p : Port)
  -- SPDM over DOE, IDE_KM and TDISP (R395 to R399)
  | getVersion (p : Port)
  | getCapabilities (p : Port)
  | negotiateAlgorithms (p : Port) (ecdsaP256 sha256 ecdhe aesGcm : Bool)
  | getDigests (p : Port)
  | getCertificate (p : Port) (slot off len : Nat)
  | challenge (p : Port) (slot : Nat) (nonce : W256)
  | getMeasurements (p : Port) (idx : Nat) (signed : Bool) (nonce : W256)
  | keyExchange (p : Port) (sid : Nat) (pub : List Byte)
  | finish (p : Port) (sid : Nat) (hmacOk : Bool)
  | heartbeat (p : Port) (sid : Nat)
  | keyUpdate (p : Port) (sid : Nat) (both : Bool)
  | endSession (p : Port) (sid : Nat)
  | keyProg (p : Port) (sid : Nat) (f : Fn) (dir set : Bool) (sub : Nat) (key : List Byte)
  | kSetGo (p : Port) (sid : Nat) (f : Fn) (dir set : Bool)
  | kSetStop (p : Port) (sid : Nat) (f : Fn) (dir set : Bool)
  | ideKmQuery (p : Port) (sid : Nat) (f : Fn)
  | ideFail (p : Port) (f : Fn)
  | lockInterface (p : Port) (sid : Nat) (n : Fin 16)
  | startInterface (p : Port) (sid : Nat) (n : Fin 16) (nonce : W256)
  | stopInterface (p : Port) (sid : Nat) (n : Fin 16)
  | getDeviceInterfaceReport (p : Port) (sid : Nat) (n : Fin 16)
  | debugAttach
  -- MCTP (R465, R466)
  | getStatus
  | getPower
  | getThermal
  | getIdentity
  | getLog (first : Nat)
  | mctpControlMessage (code : Nat) (data : List Byte)
  -- links (chapter 11)
  | codewordReceive (n : Alv) (cw : Codeword)
  | ackTimeout (n : Alv)
  | retrain (n : Alv)
  | linkTrainingComplete (n : Alv) (x2 : Bool)
  | trainingFail (n : Alv)
  | downRetry (n : Alv)
  | routeRecompute
  | hailSend
  | wr (n : Alv) (f : Frame)
  | rd (n : Alv) (f : Frame)
  | atom (n : Alv) (f : Frame)
  | msg (n : Alv) (f : Frame)
  | rsp (n : Alv) (f : Frame)
  | rdata (n : Alv) (f : Frame)
  | hail (n : Alv) (f : Frame)
  | report (n : Alv) (f : Frame)
  | requestTimeout (tag : Fin 4096)
  | busyRetry (tag : Fin 4096)
  | atomRecordExpiry (k : Nat)
  | peerSweep
  | duplicateIdClear
  -- power and bring-up (chapter 15)
  | pwrEnRise
  | pwrEnFall
  | sysRstNAssert
  /-- straps: the levels sampled at the rising edge (R464); fwOk: which QSPI slot Bedrock verifies as valid (R411). -/
  | sysRstNRelease (ids : BitVec 12) (dbg test : Bool) (slotAOk slotBOk : Bool)
  | refclkLoss
  | pllUnlock
  | inputLow (mv : Nat)
  | inputLoss
  | inputRestored
  | inputLossTimeout
  | railFault (rail : Fin 12) (mv : Nat)
  | vprogFault (r : Ridge) (mv : Nat)
  | domainPowerRequest (d : Fin 212) (on : Bool)
  | domainSequenceDone (d : Fin 212)
  | domainFault (d : Fin 212)
  | ridgeIdlePowerOff (r : Ridge)
  -- the Clay store (chapter 14)
  | clayGroupWriteDone
  /-- A record update of Prorvafort: class, record index, payload bytes. -/
  | clayRecordUpdate (cls : Nat) (idx : Nat) (data : List Byte)
  | clayRecordRead (cls : Nat) (idx : Nat)
  | failureLogWrite
  | linkLockLost (n : Alv)
  | refclkRestored
  | hrdyMinimumTime (p : Port)
  deriving DecidableEq, Repr

end Sys2Proof
end

