-- ==== Sys2Proof/Decode.lean ====
section
/-!
DEFINITION. The reading of a table word as a command. No row of spec/opcode_table.json gives bits: the rows are events and commands of the block, and the encodings that the spec does give (the 128-bit ridge instruction, the 64-byte submission entry, the 64-byte frame header) are read where the command that carries them is executed (DESIGN CHOICE, notes/assumptions/1).
-/

namespace Sys2Proof

/-- The command that a word spells by the table's bits: none, since no row gives bits. -/
def decodeTableWord (_nbits _w : Nat) : Option Instr := none

end Sys2Proof
end

