-- ==== Sys2Proof/Machine/Num.lean ====
section
/-!
DEFINITION. Exact numbers and the one rounding of the device: fractions (Q), rounding half to even (R6, R142), floor of a base-2 logarithm (R128), saturation.
-/

namespace Sys2Proof.Machine

/-- Round half to even of n / d. -/
def rheDiv (n : Int) (d : Nat) : Int :=
  let q := n / (d : Int)
  let r := n % (d : Int)
  if 2 * r < d then q else if 2 * r > d then q + 1 else if q % 2 = 0 then q else q + 1

/-- Limits x to lo … hi. -/
def clampI (lo hi x : Int) : Int := if x < lo then lo else if hi < x then hi else x

/-- A fraction in lowest terms. -/
def qMk (n : Int) (d : Nat) : Q :=
  let g := Nat.gcd n.natAbs d
  if g = 0 then ⟨0, 1⟩ else ⟨n / (g : Int), d / g⟩

def qOf (n : Int) : Q := ⟨n, 1⟩
def qAdd (a b : Q) : Q := qMk (a.num * b.den + b.num * a.den) (a.den * b.den)
def qNeg (a : Q) : Q := ⟨-a.num, a.den⟩
def qSub (a b : Q) : Q := qAdd a (qNeg b)
def qMul (a b : Q) : Q := qMk (a.num * b.num) (a.den * b.den)
/-- Quotient; a zero divisor gives 0 and is guarded where it can occur. -/
def qDiv (a b : Q) : Q :=
  if b.num = 0 then ⟨0, 1⟩
  else if b.num < 0 then qMk (-(a.num * b.den)) (a.den * b.num.natAbs)
  else qMk (a.num * b.den) (a.den * b.num.natAbs)
def qAbs (a : Q) : Q := ⟨a.num.natAbs, a.den⟩
def qLt (a b : Q) : Bool := decide (a.num * b.den < b.num * a.den)
def qLe (a b : Q) : Bool := decide (a.num * b.den ≤ b.num * a.den)
def qMax (a b : Q) : Q := if qLt a b then b else a
def qIsZero (a : Q) : Bool := decide (a.num = 0)
def qFloor (a : Q) : Int := a.num / (a.den : Int)
/-- Round half to even to an integer (R6). -/
def qRound (a : Q) : Int := rheDiv a.num a.den

/-- 2^e for any integer e. -/
def qPow2 (e : Int) : Q := if e ≥ 0 then ⟨(2 ^ e.toNat : Nat), 1⟩ else ⟨1, 2 ^ (-e).toNat⟩
/-- a × 2^e, exactly. -/
def qScale (a : Q) (e : Int) : Q := qMul a (qPow2 e)

/-- floor(log2 a) of a positive fraction (R128). -/
def qLog2 (a : Q) : Int :=
  let e := (Nat.log2 a.num.natAbs : Int) - (Nat.log2 a.den : Int)
  if qLe (qPow2 e) a then e else e - 1

/-- Sum of a list of fractions. -/
def qSum (l : List Q) : Q := l.foldl qAdd ⟨0, 1⟩

/-- Integer square root of n by digits: the largest k with k² ≤ n, for n below 4^fuel. -/
def isqrtAux (n : Nat) : Nat → Nat → Nat
  | 0, k => k
  | b + 1, k => let k' := k + 2 ^ b
                if k' * k' ≤ n then isqrtAux n b k' else isqrtAux n b k
def isqrt (n : Nat) : Nat := isqrtAux n (Nat.log2 n / 2 + 1) 0

end Sys2Proof.Machine
end

