-- ==== Sys2Proof/Machine/Fp.lean ====
section
/-!
DEFINITION. Floating-point formats (R122, R124, R125): codes to exact values and back, rounding half to even with saturation to the largest finite value (R6, R142), and the FP32 operations of the DMU, VOP, RED and of companions. The sign of a zero follows IEEE 754 (DEDUCED, notes/assumptions/12).
-/

namespace Sys2Proof.Machine

/-- A floating-point value as the device takes it: NaN, an infinity of a source, or a signed finite magnitude. -/
inductive FV where
  | nan
  | inf (neg : Bool)
  | fin (neg : Bool) (mag : Q)
  deriving DecidableEq, Repr, Inhabited

/-- A binary format: exponent bits, mantissa bits, bias, largest finite code, canonical NaN. -/
structure FFmt where
  eb : Nat
  mb : Nat
  bias : Nat
  maxCode : Nat
  nan : Nat
  deriving DecidableEq, Repr

def fE4M3 : FFmt := ⟨4, 3, 7, 0x7E, 0x7F⟩
def fE5M2 : FFmt := ⟨5, 2, 15, 0x7B, 0x7E⟩
def fFP16 : FFmt := ⟨5, 10, 15, 0x7BFF, 0x7E00⟩
def fBF16 : FFmt := ⟨8, 7, 127, 0x7F7F, 0x7FC0⟩
def fFP32 : FFmt := ⟨8, 23, 127, 0x7F7FFFFF, 0x7FC00000⟩
/-- E2M1 has no NaN code (R122). -/
def fE2M1 : FFmt := ⟨2, 1, 1, 0x7, 0x0⟩

/-- Value of a code (R122): above maxCode a magnitude is the infinity code or a NaN; E4M3 has no infinity and E2M1 neither. -/
def fDecode (f : FFmt) (code : Nat) : FV :=
  let neg := code.testBit (f.eb + f.mb)
  let m := code % 2 ^ (f.eb + f.mb)
  if f.maxCode < m then
    if f = fE4M3 then .nan else if m = f.maxCode + 1 then .inf neg else .nan
  else
    let ef := m / 2 ^ f.mb
    let fr := m % 2 ^ f.mb
    let e : Int := (if ef = 0 then 1 else (ef : Int)) - f.bias - f.mb
    let k := if ef = 0 then fr else fr + 2 ^ f.mb
    .fin neg (qMul (qOf k) (qPow2 e))

/-- The magnitude code nearest to a non-negative exact value, ties to even, saturating (R6); true when it saturated. -/
def fRoundMag (f : FFmt) (m : Q) : Nat × Bool :=
  if m.num = 0 then (0, false)
  else
    let emin : Int := 1 - (f.bias : Int)
    let e := max (qLog2 m) emin
    let k := (qRound (qScale m (f.mb - e))).toNat
    let code := ((e - emin).toNat) * 2 ^ f.mb + k
    if f.maxCode < code then (f.maxCode, true) else (code, false)

/-- A value's code in a format (R125, R142): a NaN is canonical, an infinity is taken as the largest finite value. -/
def fEncode (f : FFmt) (v : FV) : Nat × Bool :=
  match v with
  | .nan => (f.nan, false)
  | .inf neg => ((if neg then 2 ^ (f.eb + f.mb) else 0) + f.maxCode, false)
  | .fin neg m => let (c, s) := fRoundMag f m
                  ((if neg then 2 ^ (f.eb + f.mb) else 0) + c, s)

/-- Largest finite magnitude of a format. -/
def fMax (f : FFmt) : Q :=
  match fDecode f f.maxCode with
  | .fin _ m => m
  | _ => ⟨0, 1⟩

/-- An infinite input is the largest finite value of its format with the same sign (R125). -/
def fTame (f : FFmt) : FV → FV
  | .inf neg => .fin neg (fMax f)
  | v => v

/-- The exact signed value of a finite FV; a NaN counts 0 where a caller has excluded it. -/
def fVal : FV → Q
  | .fin neg m => if neg then qNeg m else m
  | _ => ⟨0, 1⟩

def fIsNan : FV → Bool
  | .nan => true
  | _ => false

/-- A signed exact value as an FV; zero takes the sign given. -/
def fOfQ (zneg : Bool) (q : Q) : FV :=
  if q.num = 0 then .fin zneg ⟨0, 1⟩ else .fin (decide (q.num < 0)) (qAbs q)

/-! ### FP32 operations (R124, R176, R199, R202) -/

def f32Dec (w : W32) : FV := fTame fFP32 (fDecode fFP32 w.toNat)
def f32Enc (v : FV) : W32 := BitVec.ofNat 32 (fEncode fFP32 v).1
def f32NaN : W32 := 0x7FC00000
def f32Max : W32 := 0x7F7FFFFF

def fNeg : FV → Bool
  | .fin neg _ => neg
  | _ => false

/-- Exact sum, then one rounding (DEDUCED, notes/assumptions/12). -/
def f32Add (a b : W32) : W32 :=
  match f32Dec a, f32Dec b with
  | .nan, _ => f32NaN
  | _, .nan => f32NaN
  | x, y => f32Enc (fOfQ (fNeg x && fNeg y) (qAdd (fVal x) (fVal y)))

def f32Neg (a : W32) : W32 := a ^^^ 0x80000000
def f32Sub (a b : W32) : W32 := f32Add a (f32Neg b)

def f32Mul (a b : W32) : W32 :=
  match f32Dec a, f32Dec b with
  | .nan, _ => f32NaN
  | _, .nan => f32NaN
  | x, y => f32Enc (fOfQ (fNeg x != fNeg y) (qMul (fVal x) (fVal y)))

/-- Quotient; a zero divisor saturates with the sign, and 0 / 0 is NaN (no infinity is created, R124). -/
def f32Div (a b : W32) : W32 :=
  match f32Dec a, f32Dec b with
  | .nan, _ => f32NaN
  | _, .nan => f32NaN
  | x, y =>
    if (fVal y).num = 0 then
      if (fVal x).num = 0 then f32NaN else if fNeg x != fNeg y then f32Max ||| 0x80000000 else f32Max
    else f32Enc (fOfQ (fNeg x != fNeg y) (qDiv (fVal x) (fVal y)))

/-- Fused multiply-add, one rounding. -/
def f32Fma (a b c : W32) : W32 :=
  match f32Dec a, f32Dec b, f32Dec c with
  | .nan, _, _ => f32NaN
  | _, .nan, _ => f32NaN
  | _, _, .nan => f32NaN
  | x, y, z => f32Enc (fOfQ ((fNeg x != fNeg y) && fNeg z) (qAdd (qMul (fVal x) (fVal y)) (fVal z)))

/-- An exact value rounded once to FP32. -/
def f32OfQ (q : Q) : W32 := f32Enc (fOfQ false q)
def f32OfInt (x : Int) : W32 := f32OfQ (qOf x)
def f32Val (w : W32) : Q := fVal (f32Dec w)
def f32IsNan (w : W32) : Bool := fIsNan (f32Dec w)
def f32IsInf (w : W32) : Bool :=
  match fDecode fFP32 w.toNat with
  | .inf _ => true
  | _ => false
def f32Finite (w : W32) : Bool := !f32IsNan w && !f32IsInf w

def f32Le (a b : W32) : Bool := qLe (f32Val a) (f32Val b)
def f32Lt (a b : W32) : Bool := qLt (f32Val a) (f32Val b)

/-- Balanced tree of R199 step 3 and R176: node i of a level combines nodes 2i and 2i + 1 of the level below; a node without a partner passes up unchanged. -/
def pairUp {α : Type} (f : α → α → α) : List α → List α
  | a :: b :: t => f a b :: pairUp f t
  | l => l

def treeLevels {α : Type} (f : α → α → α) : Nat → List α → List α
  | 0, l => l
  | n + 1, l => treeLevels f n (pairUp f l)

/-- The root of the tree; z for an empty list. -/
def treeSum {α : Type} (f : α → α → α) (z : α) (l : List α) : α :=
  (treeLevels f (Nat.log2 l.length + 1) l).headD z

/-! ### exp_dev (R202) -/

def log2e : W32 := 0x3FB8AA3B
def expC (k : Nat) : W32 :=
  match k with
  | 1 => 0x3F317218
  | 2 => 0x3E75FDF0
  | 3 => 0x3D635847
  | 4 => 0x3C1D955B
  | 5 => 0x3AAEC3FF
  | _ => 0x39218489

/-- x × 2^n with one rounding. -/
def f32Ldexp (x : W32) (n : Int) : W32 :=
  match f32Dec x with
  | .nan => f32NaN
  | v => f32Enc (fOfQ (fNeg v) (qScale (fVal v) n))

/-- exp_dev of R202, step by step. -/
def expDev (x : W32) : W32 :=
  if f32IsNan x then f32NaN else
  let t := f32Mul x log2e
  if qLt (f32Val t) (qOf (-150)) then 0
  else if qLt (qOf 127) (f32Val t) then f32Max
  else
    let n := qRound (f32Val t)
    let f := f32Sub t (f32OfInt n)
    let p := f32Fma (expC 6) f (expC 5)
    let p := f32Fma p f (expC 4)
    let p := f32Fma p f (expC 3)
    let p := f32Fma p f (expC 2)
    let p := f32Fma p f (expC 1)
    let p := f32Fma p f (f32OfInt 1)
    f32Ldexp p n

/-! ### 1 / sqrt rounded once (R203) -/

/-- The FP32 code nearest to 1 / sqrt(q) for a positive exact q: among codes, the candidate below and its successor are compared with the exact value through squares, ties to even. -/
def f32Rsqrt (q : Q) : W32 :=
  -- scale so that the root of den·2^(2s) / num carries more than 24 bits, exactly known to one unit
  let s : Nat := 256
  let root := isqrt (q.den * 2 ^ (2 * s) / q.num.natAbs)
  -- root = floor(2^s / sqrt q); a sticky half keeps a non-exact root off a tie
  let exact := decide (root * root * q.num.natAbs = q.den * 2 ^ (2 * s))
  f32OfQ (qMk (2 * root + (if exact then 0 else 1)) (2 * 2 ^ s))

end Sys2Proof.Machine
end

