-- ==== Sys2Proof/Machine/Bytes.lean ====
section
/-!
DEFINITION. Bytes in storage: little-endian packing and unpacking (R4), the CRC-32C of check words, containers and records (R357), and the SHA-256 of digests (R217, R228, R314, R330, R404 to R410).
-/

namespace Sys2Proof.Machine

/-- The n low bytes of a number, lowest address first (R4). -/
def leBytes : Nat → Nat → List Byte
  | 0, _ => []
  | n + 1, x => BitVec.ofNat 8 x :: leBytes n (x / 256)

/-- The number that bytes in storage spell (R4). -/
def leNat : List Byte → Nat
  | [] => 0
  | b :: t => b.toNat + 256 * leNat t

/-- The bytes [off, off + n) of a list; bytes past its end read 0. -/
def bytesAt (l : List Byte) (off n : Nat) : List Byte :=
  let t := (l.drop off).take n
  t ++ List.replicate (n - t.length) 0

/-- The n-byte number at an offset. -/
def fieldAt (l : List Byte) (off n : Nat) : Nat := leNat (bytesAt l off n)

/-- True when the bytes [off, off + n) are all zero. -/
def zeroAt (l : List Byte) (off n : Nat) : Bool := (bytesAt l off n).all (fun b => decide (b = 0))

/-- n zero bytes. -/
def zeros (n : Nat) : List Byte := List.replicate n 0

/-- Places fields (offset, size, value) into n zero bytes. -/
def layFields (n : Nat) (fs : List (Nat × Nat × Nat)) : List Byte :=
  fs.foldl (fun b (o, k, v) => b.take o ++ (leBytes k v).take (b.length - o) ++ b.drop (o + k)) (zeros n)

/-- Overwrites bytes at an offset of a list, within its length. -/
def overlay (b : List Byte) (o : Nat) (d : List Byte) : List Byte :=
  b.take o ++ d.take (b.length - o) ++ b.drop (o + d.length)

/-- A list of bytes in pieces of n. -/
def piecesAux (n : Nat) : Nat → List Byte → List (List Byte)
  | 0, _ => []
  | f + 1, l => if l.isEmpty then [] else l.take n :: piecesAux n f (l.drop n)
def pieces (n : Nat) (l : List Byte) : List (List Byte) := piecesAux n (l.length / max n 1 + 1) l

/-! ### CRC-32C (R357) -/

/-- One bit of the reflected division by 0x1EDC6F41. -/
def crcStep (c : Nat) : Nat := if c % 2 = 1 then (c / 2) ^^^ 0x82F63B78 else c / 2

def crcByte (c : Nat) (b : Byte) : Nat :=
  let x := c ^^^ b.toNat
  crcStep (crcStep (crcStep (crcStep (crcStep (crcStep (crcStep (crcStep x)))))))

/-- CRC-32C: initial value and final inversion all ones (R357). -/
def crc32c (l : List Byte) : W32 := BitVec.ofNat 32 ((l.foldl crcByte 0xFFFFFFFF) ^^^ 0xFFFFFFFF)

/-! ### SHA-256 -/

def shaK : List Nat :=
  [0x428a2f98,0x71374491,0xb5c0fbcf,0xe9b5dba5,0x3956c25b,0x59f111f1,0x923f82a4,0xab1c5ed5,0xd807aa98,0x12835b01,0x243185be,0x550c7dc3,0x72be5d74,0x80deb1fe,0x9bdc06a7,0xc19bf174] ++
  [0xe49b69c1,0xefbe4786,0x0fc19dc6,0x240ca1cc,0x2de92c6f,0x4a7484aa,0x5cb0a9dc,0x76f988da,0x983e5152,0xa831c66d,0xb00327c8,0xbf597fc7,0xc6e00bf3,0xd5a79147,0x06ca6351,0x14292967] ++
  [0x27b70a85,0x2e1b2138,0x4d2c6dfc,0x53380d13,0x650a7354,0x766a0abb,0x81c2c92e,0x92722c85,0xa2bfe8a1,0xa81a664b,0xc24b8b70,0xc76c51a3,0xd192e819,0xd6990624,0xf40e3585,0x106aa070] ++
  [0x19a4c116,0x1e376c08,0x2748774c,0x34b0bcb5,0x391c0cb3,0x4ed8aa4a,0x5b9cca4f,0x682e6ff3,0x748f82ee,0x78a5636f,0x84c87814,0x8cc70208,0x90befffa,0xa4506ceb,0xbef9a3f7,0xc67178f2]

def shaInit : List Nat :=
  [0x6a09e667,0xbb67ae85,0x3c6ef372,0xa54ff53a,0x510e527f,0x9b05688c,0x1f83d9ab,0x5be0cd19]

def w32 (x : Nat) : Nat := x % 2 ^ 32
def rotr (x n : Nat) : Nat := (x >>> n) ||| w32 (x <<< (32 - n))

/-- Big-endian number of a byte list. -/
def beNat (l : List Byte) : Nat := l.foldl (fun a b => a * 256 + b.toNat) 0

/-- Message schedule: the last sixteen words, newest first, extended k times; the list grows newest first. -/
def shaExtend : Nat → List Nat → List Nat
  | 0, l => l
  | k + 1, l =>
    let w15 := l.getD 14 0
    let w2 := l.getD 1 0
    let s0 := rotr w15 7 ^^^ rotr w15 18 ^^^ (w15 >>> 3)
    let s1 := rotr w2 17 ^^^ rotr w2 19 ^^^ (w2 >>> 10)
    shaExtend k (w32 (l.getD 15 0 + s0 + l.getD 6 0 + s1) :: l)

def shaRound (st : List Nat) (kw : Nat × Nat) : List Nat :=
  match st with
  | [a, b, c, d, e, f, g, h] =>
    let s1 := rotr e 6 ^^^ rotr e 11 ^^^ rotr e 25
    let ch := (e &&& f) ^^^ ((0xFFFFFFFF - e) &&& g)
    let t1 := h + s1 + ch + kw.1 + kw.2
    let s0 := rotr a 2 ^^^ rotr a 13 ^^^ rotr a 22
    let mj := (a &&& b) ^^^ (a &&& c) ^^^ (b &&& c)
    [w32 (t1 + s0 + mj), a, b, c, w32 (d + t1), e, f, g]
  | l => l

def shaBlock (st : List Nat) (blk : List Byte) : List Nat :=
  let w0 := ((pieces 4 blk).map beNat).reverse
  let ws := (shaExtend 48 w0).reverse
  let r := (shaK.zip ws).foldl shaRound st
  (st.zip r).map (fun p => w32 (p.1 + p.2))

def shaPad (l : List Byte) : List Byte :=
  let n := l.length
  l ++ [0x80] ++ zeros ((119 - n % 64) % 64) ++ (leBytes 8 (8 * n)).reverse

/-- SHA-256; byte i of the digest is bits [8i + 7 : 8i] of the result (R4). -/
def sha256 (l : List Byte) : W256 :=
  let st := (pieces 64 (shaPad l)).foldl shaBlock shaInit
  BitVec.ofNat 256 (leNat (st.flatMap (fun w => (leBytes 4 w).reverse)))

/-- The bytes of a digest or key. -/
def bytes256 (w : W256) : List Byte := leBytes 32 w.toNat

end Sys2Proof.Machine
end

