-- ==== Sys2Proof/Config.lean ====
section
/-!
DEFINITION. What the spec leaves open or one device fixes at production: opaque constants without a body, so that no proof can see a value (DESIGN CHOICE, notes/assumptions/7, 9, 10, 11, 16, 20). A counter in State makes each use fresh.
-/

namespace Sys2Proof.Config

/-- The 16-byte serial number, a fuse value (R312, R435). -/
opaque serial : Nat → Byte
/-- The variant and revision fuses of HB_ID [11:0] (R296). -/
opaque hbIdLow : BitVec 12
/-- FUSE_STATE [7:1]: production lock, variant and revision fuses as the attestation report packs them (R405). -/
opaque fuseBits : BitVec 7
/-- The DBG_PERMIT fuse (R404). -/
opaque dbgPermit : Bool
/-- The fused V_OP0 in mV (R449). -/
opaque vop0Mv : Nat
/-- Random words of the CSB's TRNG, by draw number (R394, R438). -/
opaque trng : Nat → W256
/-- The bytes of Clay store Q0 and Q1 records that production fixes (certificate, trims, thermal model), by class, record and byte (R435). -/
opaque prodByte : Nat → Nat → Nat → Byte
/-- A ridge's temperature coefficient per degree, recorded in Q0 at production (R91). -/
opaque alphaRidge : Nat → Q
/-- The thermal model's coefficients fitted at production (R109): A by row and column, B by row and column, c by row. -/
opaque thermalA : Nat → Nat → Q
opaque thermalB : Nat → Nat → Q
opaque thermalC : Nat → Q
/-- A byte of Loam that R188 leaves undefined at a job's start, by generation, ridge and offset (DESIGN CHOICE, notes/assumptions/15). -/
opaque loamJunk : Nat → Nat → Nat → Byte
/-- Whether a source can read its own clock count at a grant, and the count (R278, R281), by use (DESIGN CHOICE, notes/assumptions/9). -/
opaque lclkValid : Nat → Bool
/-- DESIGN CHOICE, notes/assumptions/9. -/
opaque lclk : Nat → W64
/-- A COPY whose extents overlap leaves the old byte or a byte of the source (R257): which one, by use. -/
opaque overlapPick : Nat → Nat → Nat
/-- Whether a read of a changed, still cached, translation or read-shared line uses the old copy (R242, R254), by use. -/
opaque keepOld : Nat → Bool
/-- ECDSA P-256 signature bytes with the Alias key over a digest (R394, R405), by digest (DESIGN CHOICE, notes/assumptions/11). -/
opaque aliasSign : W256 → Nat → Byte
/-- A signature that the firmware key's holder gives for a header digest (R410) (DESIGN CHOICE, notes/assumptions/11). -/
opaque fwKeySign : W256 → BitVec 512
/-- Which further signature bytes the fused key accepts for a header digest (R410) (DESIGN CHOICE, notes/assumptions/11). -/
opaque fwKeyVerify : W256 → List Byte → Bool
/-- The measured digests of Bedrock, and of the firmware components that shipped in slot A (R404, R405). -/
opaque digestBedrock : W256
opaque shippedDigest : Nat → W256
/-- The layer's certificates (R404), by certificate and byte, and their lengths less one. -/
opaque certByte : Nat → Nat → Byte
opaque certLen : Nat → Nat
/-- The key HKDF-Expand gives for a stream (R398): session secret, stream, direction, sub-stream, key set. -/
opaque hvideKey : W256 → Nat → Bool → Nat → Bool → W256
/-- The session secret an ECDHE exchange gives (R395): the device's ephemeral draw and the peer's public key. -/
opaque ecdheSecret : W256 → List Byte → W256
/-- A session's first traffic secrets, requests false and responses true, from its master secret (R395). -/
opaque trafficSecret : W256 → Bool → W256
/-- The next traffic secret after KEY_UPDATE (R395). -/
opaque keyUpdateSecret : W256 → W256
/-- The device's ephemeral ECDHE public key of a draw, by byte (R395). -/
opaque ecdhePublic : Nat → Nat → Byte
/-- The Basecamp core, 0 to 7 after reduction, that raises a report of Prorvafort (R274), by use (DESIGN CHOICE, notes/assumptions/20). -/
opaque core : Nat → Nat
/-- The PAYLOAD bytes of a COMPLETION event, which no rule lays out (R279), by use and offset (DESIGN CHOICE, notes/assumptions/20). -/
opaque cplPayload : Nat → Nat → Byte
/-- What a field too narrow for an exact result holds, where no rule says (COMBINE's COUNT and SUM, R178), by the exact result. -/
opaque wide : Int → Nat
/-- What a MSG payload says to Prorvafort, whose message layout no rule gives (R337): field 0 odd for an announcement, then partition, job, program ridge, counter and value (DESIGN CHOICE, notes/assumptions/32). -/
opaque msgField : List Byte → Nat → Nat
/-- The CID of an entry that a re-attached queue's unreachable old ring held (R328), by use. -/
opaque lostCid : Nat → W16
/-- Which of two permitted outcomes the device takes at a point the spec leaves open, by use. -/
opaque either : Nat → Bool

end Sys2Proof.Config
end

