-- ==== Sys2Proof/Machine/State.lean ====
section
/-!
DEFINITION. The state of the HV812 block as plain data: everything the spec gives the machine, group by group, with the rule that names each piece; State.reset is the machine in reset (R455, R456) on a device as production leaves it (DESIGN CHOICE, notes/assumptions/6, 7, 8). The operations stand in the other files of this folder.
-/

namespace Sys2Proof.Machine

/-- Why a step stops the machine. No command of the spec does: every row has an effect or none, and each meaning answers a next state (DESIGN CHOICE, notes/assumptions/3). -/
inductive Fault where
  /-- Raised by no command of this model; kept so that a later repair has a name for an access to storage that does not exist. Safe: the machine would stop where the hardware goes on. -/
  | noSuchStorage
  deriving DecidableEq, Repr

/-- Why a command has no meaning. -/
inductive Refusal where
  /-- Raised by an arm of exec that has no meaning yet, with the row's mnemonic. Safe: nothing is claimed of it. -/
  | notModelled (mnemonic : String)
  deriving DecidableEq, Repr

/-! ### Tiles and weights (chapter 2) -/

/-- Tile states (R48). -/
inductive TileSt where
  | blank | clean | dirty | retired | orphan
  deriving DecidableEq, Repr, Inhabited

/-- The payload of a program journal record (R58). -/
structure Journal where
  state : TileSt
  format : Nat
  position : Nat
  cause : Nat
  count : Nat
  wset : W32
  digest : BitVec 128
  deriving DecidableEq, Repr, Inhabited

/-- A journal record of a tile that has never been programmed (DESIGN CHOICE, notes/assumptions/8). -/
def Journal.fresh : Journal := ⟨.blank, 0, 0xFF, 0, 0, 0, 0⟩

/-- A survey under way: when its first segment issued (R92), the estimate then, and whether it has been discarded (R98). -/
structure Survey where
  start : Nat
  temp : Int
  discarded : Bool
  deriving DecidableEq, Repr, Inhabited

/-- A reference survey kept for the cross-check of R113: when, mean gain, estimate in 1/8 degree. -/
structure SurveyRef where
  time : Nat
  gain : Q
  est : Int
  deriving DecidableEq, Repr, Inhabited

/-- One weight scree entry (R33): row, logical column, FP16 VALUE. -/
structure Scree where
  row : Nat
  col : Nat
  value : W16
  deriving DecidableEq, Repr, Inhabited

/-- A probe record (R232), sparse. -/
structure ProbeRec where
  input : Tbl Int
  expect : Tbl Int
  tol : Tbl Nat
  deriving DecidableEq, Repr, Inhabited

/-- One position of a loaded weight set: its golden record (R51) with the scree list, and what its HVWS section says for probes and for attaching (R230, R54). -/
structure Golden where
  ridge : Nat
  pos : Nat
  format : Nat
  /-- golden level by row × 512 + logical column; a scree mark is 0 -/
  level : Tbl Int
  scree : List Scree
  rowUsed : BitVec 1024
  colUsed : BitVec 512
  probes : List ProbeRec
  digest : BitVec 128
  poisoned : Bool
  /-- tile-table order, for WSET_VERIFY's data (R312) -/
  order : Nat
  deriving DecidableEq, Repr, Inhabited

/-- Weight-set states (R53). -/
inductive WsetSt where
  | loading | resident | tilesOnly | incomplete
  deriving DecidableEq, Repr, Inhabited

/-- A weight set of a partition (R51 to R54). -/
structure Wset where
  id : W32
  st : WsetSt
  golden : List Golden
  digest : W256
  /-- positions still to be programmed, and still to be surveyed, before RESIDENT -/
  toProgram : List (Nat × Nat)
  toSurvey : List (Nat × Nat)
  /-- end of the last programming operation of the load; load calibration under way (R106) -/
  loadEnd : Nat
  calibrating : Bool
  degraded : Bool
  /-- the WSET_LOAD command that waits -/
  cmd : Option (QId × W16)
  /-- the window in which it became RESIDENT (R368) -/
  residentWin : Nat
  deriving DecidableEq, Repr, Inhabited

/-- A programming operation (R37, R39, R41): waiting, or running on a ridge's engine. rank is the order of cause in R41. -/
structure ProgOp where
  ridge : Nat
  tile : Nat
  rank : Nat
  cause : Nat
  belayOnly : Bool
  part : Nat
  pos : Nat
  wset : W32
  format : Nat
  level : Tbl Int
  digest : BitVec 128
  deriving DecidableEq, Repr, Inhabited

/-- A physical tile. -/
structure Tile where
  /-- stored signed level of each pair, by row × 1024 + physical pair index (R25 to R32, R42) -/
  cells : Tbl Int
  /-- the ridge's copy of the journal record (R48, R58) -/
  jr : Journal
  /-- TILE_RDCFG (R68) -/
  rdcfg : W32
  /-- the belay map (R43) -/
  belay : Tbl W16
  /-- column maxima, by row group × 512 + data pair (R52) -/
  colMax : Tbl Nat
  /-- fired MVMs since the last survey (R81, R96) -/
  fired : Nat
  /-- last survey: time and estimate at its start (R96) -/
  lastSurvey : Option Nat
  lastTemp : Int
  /-- end of the last programming operation, and how many age points have been surveyed (R96, item 4) -/
  progEnd : Option Nat
  agesDone : Nat
  /-- baseline M_b times 48 and its estimate in 1/8 degree (R93) -/
  base : List Int
  baseTemp : Int
  /-- benchmark gains of the last survey (R93) -/
  gains : List Q
  /-- one pending request (R98), and the survey under way -/
  surveyReq : Bool
  survey : Option Survey
  refs : List SurveyRef
  /-- the COALESCE window of the COMMIT that mapped it (R368) -/
  mapWin : Nat
  deriving DecidableEq, Repr, Inhabited

/-- A tile at reset: TILE_RDCFG has DGL_EN = 1 and SLEW_STEP = 1 (R68). -/
def Tile.reset : Tile :=
  { cells := [], jr := .fresh, rdcfg := 0x2100, belay := [], colMax := [], fired := 0, lastSurvey := none,
    lastTemp := 0, progEnd := none, agesDone := 0, base := [], baseTemp := 0, gains := [], surveyReq := false,
    survey := none, refs := [], mapWin := 0 }

/-! ### Positions and slots (chapters 5, 6) -/

/-- A position's tile input buffer, block exponents and input scree list (R62, R127, R133). -/
structure InBuf where
  fed : Bool
  /-- a 4-bit input has the single phase L (R62) -/
  fourBit : Bool
  codes : Tbl Int
  exps : Tbl Int
  scree : List (Nat × W32)
  clamped : Bool
  deriving DecidableEq, Repr, Inhabited

/-- Every row at digit 0 with an empty list (R188). -/
def InBuf.empty : InBuf := ⟨false, false, [], [], [], false⟩

/-- An active position: its buffer, fired-MVM count and next probe record (R207), the window of its last passed probe (R368), the time from which it has passed a probe (R373), and its service state. -/
structure PosSt where
  buf : InBuf
  fired : Nat
  nextRec : Nat
  passWin : Nat
  /-- one more than the window entry of its last passed probe (R373) -/
  passSeq : Nat
  probeDue : Bool
  deriving DecidableEq, Repr, Inhabited

def PosSt.reset : PosSt := ⟨.empty, 0, 0, 0, 0, false⟩

/-- A slot entry (R150); val is the INT40 VALUE. -/
structure Entry where
  val : Int
  sat : Bool
  clip : Bool
  scree : Bool
  cancel : Bool
  deriving DecidableEq, Repr, Inhabited

def Entry.zero : Entry := ⟨0, false, false, false, false⟩

/-- The contribution ledger (R369). -/
structure Ledger where
  ridges : RMask
  pos : W32
  fallback : W32
  relief : W32
  multi : Bool
  lo : Nat
  hi : Nat
  deriving DecidableEq, Repr, Inhabited

/-- PRE empties the ledger (R370). -/
def Ledger.empty : Ledger := ⟨0, 0, 0, 0, false, 2 ^ 64 - 1, 0⟩

/-- An accumulator slot: state word fields (R152), entries, companions (R151), ledger, and whether its own ridge has closed it to contributions (R159). -/
structure Slot where
  opened : Bool
  pin : Bool
  pinTable : Nat
  gen : Nat
  exp : Int
  len : Nat
  expect : Nat
  received : Nat
  entries : Tbl Entry
  comps : Tbl W32
  ledger : Ledger
  closing : Bool
  deriving DecidableEq, Repr, Inhabited

def Slot.reset : Slot := ⟨false, false, 0, 0, 0, 1, 0, 0, [], [], .empty, false⟩

/-! ### Ridge sequencer (chapter 7) -/

/-- A byte range of a ridge's Loam: physical ridge, offset, length (R181). -/
structure LRange where
  ridge : Nat
  off : Nat
  len : Nat
  deriving DecidableEq, Repr, Inhabited

/-- A lane of an issued MVM or probe: position, physical tile at issue, in fallback, fired (R49, R81), and what the operation runs under as issued: input codes (R181), TILE_RDCFG (R69) and belay map (R44). -/
structure Lane where
  pos : Nat
  tile : Nat
  fallback : Bool
  fired : Bool
  buf : InBuf
  rdcfg : W32
  belay : Tbl W16
  deriving DecidableEq, Repr, Inhabited

/-- What a DRN or SPL of a rope has staged (R166): Loam writes (ridge, offset, bytes, tag), writes to local memory (address, bytes), and the counts it adds at COMMIT. -/
structure Staged where
  loam : List (Nat × Nat × List Byte × W32)
  mem : List (Nat × List Byte)
  sat : Nat
  clip : Nat
  scree : Nat
  cancel : Nat
  outsat : Nat
  esc : Nat
  deriving DecidableEq, Repr, Inhabited

/-- What an issued, uncompleted instruction waits for. -/
inductive WinKind where
  | vld | mvm | drain | waitSlot | dma | aad | sig | probe | survey | halt | cairn | ropeEnd | memAtomic | remote | tmap
  deriving DecidableEq, Repr, Inhabited

/-- A window entry (R180): an instruction issued and not completed. -/
structure Win where
  id : Nat
  ctx : Ctx
  idx : Nat
  w : W128
  kind : WinKind
  lanes : List Lane
  /-- rescale half taken at issue (R101) -/
  half : Bool
  /-- probe epoch stamp at issue (R368) -/
  stamp : Nat
  reads : List LRange
  writes : List LRange
  /-- ridge cycles waited for contributions, in eighths (R161) -/
  waited : Nat
  /-- parts still outstanding at their destinations (AAD CDUs, remote accesses) -/
  parts : Nat
  rope : Option Nat
  /-- probe record index of a probe; physical tile of a survey -/
  aux : Nat
  staged : Option Staged
  deriving DecidableEq, Repr, Inhabited

/-- A rope that a job stream or the service context has open (R211, R212). -/
structure OpenRope where
  entry : Nat
  startIdx : Nat
  startTime : Nat
  timeout : Nat
  ended : Bool
  staged : Nat
  deriving DecidableEq, Repr, Inhabited

/-- An issue context (R179): running, next instruction index, a WAIT holding issue (R185), a fault that stopped it (R213: code and instruction index), HALT's CODE, an open rope and the attempts made at it (R212). -/
structure CtxSt where
  run : Bool
  pc : Nat
  waiting : Option W128
  fault : Option (Nat × Nat)
  halted : Option W32
  rope : Option OpenRope
  attempts : Nat
  deriving DecidableEq, Repr, Inhabited

def CtxSt.reset : CtxSt := ⟨false, 0, none, none, none, none, 0⟩

/-- A declared Loam region (R224). -/
structure Region where
  off : Nat
  size : Nat
  kind : Nat
  live : Bool
  initOff : Nat
  deriving DecidableEq, Repr, Inhabited

/-- One of a ridge's four stream prefetchers (R243, R244). -/
structure Prefetch where
  active : Bool
  ring : Bool
  desc : Nat
  src : Nat
  rowBytes : Nat
  rows : Nat
  stride : Int
  lookahead : Nat
  dst : Nat
  slots : Nat
  /-- rows filled; rows written and not yet consumed; when the stream was last demanded -/
  filled : Nat
  busy : List Nat
  demand : Nat
  faulted : Option Nat
  deriving DecidableEq, Repr, Inhabited

def Prefetch.free : Prefetch := ⟨false, false, 0, 0, 0, 0, 0, 0, 0, 0, 0, [], 0, none⟩

/-- A ridge's field margin test (R380, R381). -/
structure TestSt where
  nextDue : Nat
  due : Bool
  dueAt : Nat
  deferred : Bool
  running : Bool
  tests : Nat
  started : Nat
  job : W32
  /-- the deferring job has committed a cairn since (R381) -/
  atCairn : Bool
  /-- STRESS of R384 for the test that runs, and the tests that failed last -/
  stress : Nat
  failed : Nat
  deriving DecidableEq, Repr, Inhabited

def TestSt.reset : TestSt := ⟨2 ^ 45, false, 0, false, false, 0, 0, 0, false, 0, 0⟩

/-- A physical ridge (R14). -/
structure RidgeSt where
  tiles : Tbl Tile
  /-- tile map, 32 entries of 8 bits (R46) -/
  map : List Byte
  pos : Tbl PosSt
  slots : Tbl Slot
  cnt : Tbl W32
  /-- Loam: bytes written (R236), the areas R188 leaves undefined (offset, length, generation), poisoned CDUs (R235), probe tags (R371) -/
  loam : Tbl (Option Byte)
  junk : List (Nat × Nat × Nat)
  poison : Tbl Bool
  tags : Tbl W32
  /-- tables loaded from the image (R191, R198, R219, R256) -/
  feed : Tbl W32
  segs : Tbl W64
  dmu : Tbl W256
  dma : Tbl (BitVec 512)
  /-- rescale memory, two halves, and the table descriptors (R136, R137) -/
  half0 : Tbl W64
  half1 : Tbl W64
  rsc : Tbl W64
  /-- ACC_CFG (R153) -/
  accCfg : W32
  regions : List Region
  jobCtx : CtxSt
  svcCtx : CtxSt
  win : List Win
  nextId : Nat
  /-- the job placed here: partition and JOB (R263) -/
  job : Option (Nat × W32)
  /-- the tile its programming engine works on (R37) -/
  engine : Option ProgOp
  /-- issue held until (R105) -/
  calHold : Option Nat
  prefetch : Tbl Prefetch
  test : TestSt
  /-- recorded FAILED (R382) and reported degraded (R50) -/
  failed : Bool
  degraded : Bool
  /-- free since (R443) -/
  idleSince : Nat
  /-- positions queued for relief or refresh, with the cause order of R41 (R102, R103, R364) -/
  refreshQ : List (Nat × Nat)
  /-- the program whose tables the ridge holds: partition and handle (R222) -/
  tables : Option (Nat × Nat)
  deriving DecidableEq, Repr, Inhabited

/-- The identity tile map of a device that has never swapped a tile (R46). -/
def mapIdentity : List Byte := (List.range 32).map (fun p => BitVec.ofNat 8 p)

/-- DESIGN CHOICE, notes/assumptions/8. -/
def RidgeSt.reset : RidgeSt :=
  { tiles := [], map := mapIdentity, pos := [], slots := [], cnt := [], loam := [], junk := [], poison := [],
    tags := [], feed := [], segs := [], dmu := [], dma := [], half0 := [], half1 := [], rsc := [], accCfg := 8,
    regions := [], jobCtx := .reset, svcCtx := .reset, win := [], nextId := 0, job := none, engine := none,
    calHold := none, prefetch := [], test := .reset, failed := false, degraded := false, idleSince := 0,
    refreshQ := [], tables := none }

/-! ### Programs and jobs (chapters 7, 8, 10, 12) -/

/-- A program ridge of a loaded image (R219): its stream and the tables PROG_LOAD puts into the ridge. -/
structure ProgRidge where
  stream : List W128
  posUsed : W32
  cancelShift : Nat
  rsc : Tbl W64
  rescale : Tbl W64
  groups : List (Nat × List (Nat × Nat × Nat))
  feed : Tbl W32
  segs : Tbl W64
  dmu : Tbl W256
  dma : Tbl (BitVec 512)
  regions : List Region
  init : List Byte
  deriving DecidableEq, Repr, Inhabited

/-- A cairn entry of the image (R225): id, program ridge, live regions. -/
structure CairnDef where
  id : Nat
  ridge : Nat
  live : W64
  deriving DecidableEq, Repr, Inhabited

/-- A loaded program (R217). -/
structure Prog where
  handle : Nat
  progId : W32
  wset : W32
  digest : W256
  ridges : Nat
  parts : Tbl ProgRidge
  cairns : List CairnDef
  bindings : List (Nat × Nat)
  /-- firmware-part bytes of its streams -/
  bytes : Nat
  /-- by program ridge: STATE regions that another program's job displaced (R188), and the rescale tables as folded (descriptors and both halves) while another program's are in the ridge -/
  kept : Tbl (List (Nat × List Byte))
  tabs : Tbl (Tbl W64 × Tbl W64 × Tbl W64)
  deriving DecidableEq, Repr, Inhabited

/-- One ridge's copy of a cairn with its trailer (R374). -/
structure CairnCopy where
  ridge : Nat
  regions : List (Nat × List Byte)
  counters : Tbl W32
  resume : Nat
  tagEpoch : Nat
  tagRidges : RMask
  deriving DecidableEq, Repr, Inhabited

/-- One half of the A/B cairn buffer (R210). -/
structure CairnHalf where
  id : Nat
  valid : Bool
  copies : List CairnCopy
  /-- the job has since issued an AAD of FORM 1 to 3 or a remote write or atomic (R376) -/
  dirtySince : Bool
  deriving DecidableEq, Repr, Inhabited

def CairnHalf.empty : CairnHalf := ⟨0, false, [], false⟩

/-- A held egress write (R373): where it goes and its bytes; port none: a peer write or atomic (kind and op of R337, R340) by device and window offset. ridge and win, or cluster and dmaId, name what waits for it. -/
structure EgressWrite where
  port : Option Port
  dev : Nat
  addr : Nat
  data : List Byte
  /-- positions that had fired for the job before it was issued, each with the id the ridge's next window entry would take -/
  waits : List (Nat × Nat × Nat)
  kind : Nat
  op : Nat
  dva : Nat
  ridge : Nat
  win : Nat
  cluster : Option Nat
  dmaId : Nat
  deriving DecidableEq, Repr, Inhabited

/-- The state of one ridge of a saved job (R264). -/
structure SavedRidge where
  slots : Tbl Slot
  cnt : Tbl W32
  pos : Tbl InBuf
  win : List Win
  ctx : CtxSt
  prefetch : Tbl Prefetch
  loam : List (Nat × List Byte)
  deriving DecidableEq, Repr, Inhabited

inductive JobSt where
  | waiting | running | suspended | saved | restarting | egress
  deriving DecidableEq, Repr, Inhabited

/-- A job (R317) with the counts of its report (R318). -/
structure Job where
  part : Nat
  id : W32
  q : QId
  cid : W16
  prog : Nat
  st1 : Nat
  report : Nat
  timeLimit : Nat
  prio : Nat
  fence : Bool
  bindings : List (Nat × Nat)
  st : JobSt
  /-- waits for load calibration (R106) -/
  placement : List Byte
  accepted : Nat
  applied : List Nat
  fault : Nat
  faultRidge : Nat
  faultInstr : Nat
  mmuCause : Nat
  mmuPosted : Nat
  sat : Nat
  clip : Nat
  screeOvf : Nat
  cancel : Nat
  outsat : Nat
  esc : Nat
  fallback : Nat
  preempts : Nat
  resumes : Nat
  /-- program ridges whose part has ended (R206) -/
  ended : List Nat
  /-- job summary (R372) -/
  fired : RMask
  epLo : Nat
  epHi : Nat
  /-- positions that fired an MVM for it: ridge, position; and what its completion entry waits for (R373) -/
  firedPos : List (Nat × Nat)
  endWaits : Option (List (Nat × Nat × Nat))
  halfA : CairnHalf
  halfB : CairnHalf
  liveIsB : Bool
  /-- AAD FORM 1 to 3 or remote write issued since instruction 0 (R376) -/
  dirtySince : Bool
  held : List EgressWrite
  saved : Tbl SavedRidge
  /-- the state a saved job returns to (R262, R264) -/
  savedSt : JobSt
  inDoubt : Bool
  /-- positions suspected by the failures the job must restart from: ridge, position, W_PASS, W_FAIL -/
  suspects : List (Nat × Nat × Nat × Nat)
  pendingFault : List Nat
  deriving DecidableEq, Repr, Inhabited

/-- The summary of a completed job (R372). -/
structure Summary where
  job : W32
  ridges : RMask
  lo : Nat
  hi : Nat
  deriving DecidableEq, Repr, Inhabited

/-! ### Partitions (chapters 2, 8, 10, 13) -/

inductive PartSt where
  | free | active | scrubbing | initialising
  deriving DecidableEq, Repr, Inhabited

/-- TDISP interface states (R399, R406). -/
inductive Tdi where
  | none | unlocked | locked | run | error
  deriving DecidableEq, Repr, Inhabited

/-- A partition (R314, R391). -/
structure Part where
  st : PartSt
  port : Port
  ridges : RMask
  ranges : BitVec 94
  ways : W16
  pflags : Byte
  bcShare : Nat
  bindDigest : W256
  ridgeMap : List Byte
  survey : W32
  probeInterval : Nat
  tdi : Tdi
  tdiSession : Option Nat
  /-- nonce of the LOCK_INTERFACE response, which START_INTERFACE repeats (R395, R399) -/
  tdiNonce : Option W256
  /-- memory key, zeroised when none (R394) -/
  key : Option W256
  wsets : List Wset
  progs : List Prog
  nextHandle : Nat
  summaries : List Summary
  summaryDropped : Bool
  /-- a scrub's tiles still to be reset: ridge, tile, trains given (R412, R413); Clay quarters still to be zeroed -/
  scrubTiles : List (Nat × Nat × Nat)
  scrubClay : List Nat
  scrubCmd : Option (QId × W16)
  /-- the scrub is a STOP_INTERFACE: the partition stays (R399) -/
  stopping : Bool
  /-- cairns of jobs that ended with PROBE_FAIL, exportable until the JOB is used again (R376): job, program handle, DIGEST of the program, half with its copies in CAIRN-section order -/
  leftCairns : List (W32 × Nat × W256 × CairnHalf)
  deriving DecidableEq, Repr, Inhabited

def Part.free : Part :=
  { st := .free, port := .A, ridges := 0, ranges := 0, ways := 0, pflags := 0, bcShare := 0, bindDigest := 0,
    ridgeMap := List.replicate 48 0xFF, survey := 0, probeInterval := 0, tdi := .none, tdiSession := none, tdiNonce := none,
    key := none, wsets := [], progs := [], nextHandle := 1, summaries := [], summaryDropped := false,
    scrubTiles := [], scrubClay := [], scrubCmd := none, stopping := false, leftCairns := [] }

/-! ### Host side (chapter 10) -/

/-- The registers that each function holds on each port (R295). -/
structure FnRegs where
  ctrl : W32
  evtBase : W64
  evtCfg : W32
  evtDrop : W32
  evtHead : W32
  evtTail : W32
  /-- latched high half of col_seq (R302) -/
  seqLatch : Option W32
  /-- EVENT_CONFIG MASK and PMASK (R320) -/
  evtMask : W32
  pmask : W16
  rapLast : Byte
  rapDone : Byte
  rapState : Nat
  deriving DecidableEq, Repr, Inhabited

/-- Reset values of R295; the mask excludes COMPLETION alone (R320). -/
def FnRegs.reset : FnRegs := ⟨0, 0, 0, 0, 0, 0, none, 0xFFFFFFFD, 0, 0, 0, 0⟩

/-- A port: its PF0-only registers (R295), tunnel (R328) and HRDY pin with the time of its last edge (R303, R304). -/
structure PortSt where
  attn : W32
  rdyMask : W32
  aqSqBase : W64
  aqCqBase : W64
  aqCfg : W32
  tunnel : Bool
  hrdy : Bool
  hrdySince : Nat
  deriving DecidableEq, Repr, Inhabited

def PortSt.reset : PortSt := ⟨0, 0, 0, 0, 0, true, false, 0⟩

/-- A completion entry (R308), not yet written. -/
structure Cqe where
  q : QId
  cid : W16
  status : Nat
  /-- the job report written before the entry: address and bytes (R318) -/
  report : Option (Nat × List Byte)
  result : W64
  result2 : W64
  sqHead : Nat
  colSeq : Nat
  part : Nat
  deriving DecidableEq, Repr, Inhabited

inductive QueueSt where
  | absent | live | detached
  deriving DecidableEq, Repr, Inhabited

/-- A queue pair (R305, R316); admin queues have the same shape. -/
structure Queue where
  st : QueueSt
  part : Nat
  port : Port
  sqExp : Nat
  cqExp : Nat
  sqPool : Bool
  cqPool : Bool
  sqBase : Nat
  cqBase : Nat
  vec : Nat
  tail : Nat
  fetch : Nat
  cqHead : Nat
  cqTail : Nat
  phase : Bool
  held : List Cqe
  /-- fetching is stopped by a Rappel in progress (R325, R326) -/
  stopped : Bool
  /-- ring indexes of an admin queue that a partition's Rappel has aborted before their fetch (R324) -/
  skip : List Nat
  deriving DecidableEq, Repr, Inhabited

def Queue.absent : Queue :=
  ⟨.absent, 0xFF, .A, 4, 4, false, false, 0, 0, 0xFF, 0, 0, 0, 0, true, [], false, []⟩

/-- A fetched command (R307): its 64-byte entry and where it came from; started once ORDERED permits. -/
structure Cmd where
  q : QId
  cid : W16
  entry : List Byte
  port : Port
  fn : Nat
  part : Nat
  seqNo : Nat
  /-- the command has begun and waits for later steps (WSET_LOAD, CALIBRATE, scrubs, jobs), and when it did -/
  busy : Bool
  began : Nat
  deriving DecidableEq, Repr, Inhabited

/-- The host side: host memories, the ring pool, queues, commands, registers, and what the last register read returned. -/
structure HostSide where
  memA : Tbl Byte
  memB : Tbl Byte
  pool : Tbl Byte
  /-- owner of each 4 KiB pool page: 0 none, else queue + 1 (R305) -/
  poolOwner : Tbl Nat
  queues : Tbl Queue
  adminA : Queue
  adminB : Queue
  cmds : List Cmd
  nextCmd : Nat
  fns : Tbl FnRegs
  portA : PortSt
  portB : PortSt
  readData : W32
  /-- MSI-X messages sent, newest first: time, port, function, vector -/
  msix : List (Nat × Port × Nat × Nat)
  bindFails : Tbl Nat
  deriving DecidableEq, Repr

/-! ### The Col and windows (chapter 9) -/

/-- An event as a source raises it (R278): before its col_seq stamp. -/
structure Ev where
  ty : Nat
  cause : Nat
  source : Nat
  part : Nat
  coalesced : Bool
  count : Nat
  payload : List Byte
  deriving DecidableEq, Repr, Inhabited

/-- What a source asks the Col to grant. -/
inductive Req where
  | event (e : Ev)
  /-- the coalesced report of this subject (type, cause, source, key) -/
  | coalesced (key : Nat)
  /-- a WINDOW marker: its kind and the length exponent of the window it closes -/
  | marker (kind exp : Nat)
  | commit (entry : Nat)
  | completion (c : Cqe)
  /-- BEGIN or DONE of the Rappel with this key -/
  | rapBegin (key : Nat)
  | rapDone (key : Nat)
  deriving DecidableEq, Repr, Inhabited

/-- A coalescing subject (R283). kind is the window kind; queued: its report waits for a grant; count: occurrences in that report; held: occurrences since the grant. -/
structure Coal where
  kind : Nat
  ev : Ev
  queued : Bool
  count : Nat
  held : Nat
  /-- what the payload adds up, or keeps the largest of, over the same occurrences -/
  sum : Nat
  heldSum : Nat
  deriving DecidableEq, Repr, Inhabited

/-- A window kind (R282): exponent in force, exponent of later windows, when its marker is due, number of the open window. -/
structure Window where
  exp : Nat
  next : Nat
  due : Nat
  num : Nat
  deriving DecidableEq, Repr, Inhabited

/-- Why a Rappel runs, and so what follows its DONE: a host's write (R323), a stall (R18), a partition's scrub (R412), a queue's destruction (R312), a VF's FLR (R329), a TDI's error (R399). -/
inductive RapWhy where
  | host | stall | scrub (part : Nat) | queueGone (q : Nat) | flr (part : Nat) | tdi
  deriving DecidableEq, Repr, Inhabited

/-- A Rappel in progress (R323 to R325). scope: 0 queue, 1 partition, 2 device. -/
structure Rappel where
  key : Nat
  scope : Nat
  id : Nat
  tag : Nat
  port : Option Port
  fn : Nat
  begun : Bool
  cmds : Nat
  jobs : Nat
  why : RapWhy
  deriving DecidableEq, Repr, Inhabited

structure Col where
  seq : Nat
  last : Nat
  queues : Tbl (List Req)
  rappels : List Rappel
  nextRap : Nat
  coal : Tbl Coal
  nextCoal : Nat
  win0 : Window
  win1 : Window
  win2 : Window
  win3 : Window
  restarted : Tbl Bool
  grants : Nat
  deriving DecidableEq, Repr

def Col.reset : Col :=
  { seq := 0, last := 87, queues := [], rappels := [], nextRap := 0, coal := [], nextCoal := 0, win0 := ⟨30, 30, 2 ^ 30, 0⟩,
    win1 := ⟨20, 20, 2 ^ 20, 0⟩, win2 := ⟨18, 18, 2 ^ 18, 0⟩, win3 := ⟨20, 20, 2 ^ 20, 0⟩, restarted := [],
    grants := 0 }

/-! ### Arbiters (R267 to R273) -/

structure Arb where
  /-- weights set by ARB_WEIGHT, plus 1; 0: the reset weight (R271) -/
  weight : Tbl Nat
  /-- weights that take effect at the next new round -/
  newWeight : Tbl Nat
  credit : Tbl Nat
  ptr : Nat
  waits : Tbl Nat
  flags : Tbl Bool
  /-- the last 32 grants, newest first: true for the save class (R270) -/
  saves : List Bool
  deriving DecidableEq, Repr, Inhabited

def Arb.reset : Arb := ⟨[], [], [], 0, [], [], []⟩

/-! ### Ropes (R284 to R291) -/

/-- A staged action (R285). -/
inductive Action where
  | tileMap (r p phys : Nat) (fenced : Bool)
  | rescaleHalf (r table : Nat)
  | belayMap (r t : Nat) (m : Tbl W16)
  | drain (r slot win : Nat)
  | spill (r slot win : Nat)
  | signal (r : Nat) (cnt : Nat) (v : W32)
  | cairnCommit (part : Nat) (job : W32)
  | fwCommit
  | layout (part : Nat) (p : Part)
  deriving DecidableEq, Repr, Inhabited

inductive RopeSt where
  | free | opened | staged | locked | committed | aborted
  deriving DecidableEq, Repr, Inhabited

/-- Why Prorvafort staged a service rope: what follows its outcome. -/
inductive RopeWhy where
  | none | swap (r p t : Nat) | fold (r table : Nat) | create (q : QId) (cid : W16) (part : Nat)
  | bind (q : QId) (cid : W16) (part : Nat) | destroy (part : Nat) | cairn (part : Nat) (job : W32) | firmware (q : QId) (cid : W16)
  deriving DecidableEq, Repr, Inhabited

structure Rope where
  st : RopeSt
  actions : List Action
  parts : List Nat
  job : W32
  ridge : Nat
  queue : Option QId
  attempt : Nat
  /-- opened at (rclk), and its timeout in units of 1,024 ridge cycles (R284); stagedAt in CMC cycles -/
  opened : Nat
  timeout : Nat
  stagedAt : Nat
  why : RopeWhy
  cause : Nat
  fault : Nat
  holder : Nat
  deriving DecidableEq, Repr, Inhabited

def Rope.free : Rope := ⟨.free, [], [], 0, 0xFF, none, 1, 0, 4095, 0, .none, 0, 0, 0⟩

/-! ### Memory path (chapter 8) -/

/-- A cached CDU (R239 to R242): the partition that holds it, a local PA or a remote address, its bytes as filled. -/
structure MLine where
  part : Nat
  remote : Bool
  addr : Nat
  data : List Byte
  /-- an uncached remote read (R241): it serves the one agent that asked and goes when used -/
  once : Bool
  agent : Nat
  /-- the peer answered POISONED (R338) -/
  bad : Bool
  deriving DecidableEq, Repr, Inhabited

/-- A translation (R252, R253): stage-1 page and its combined result. -/
structure Tlb where
  part : Nat
  job : W32
  /-- agent: ridge 0 to 47, or 48 + cluster -/
  agent : Nat
  base : Nat
  size : Nat
  ia : Nat
  w : Bool
  rs : Bool
  na : Bool
  deriving DecidableEq, Repr, Inhabited

/-- A pending walk (R253): who asked and how the access is to be reported (R259). -/
structure Walk where
  id : Nat
  part : Nat
  job : W32
  agent : Nat
  dva : Nat
  access : Nat
  source : Nat
  srcRidge : Nat
  desc : Nat
  instr : Nat
  resume : Nat
  deriving DecidableEq, Repr, Inhabited

/-- An AAD from slot to slot on its way (R160, R170). -/
structure AadMsg where
  id : Nat
  srcRidge : Nat
  win : Nat
  part : Nat
  job : W32
  tgtRidge : Nat
  tgtSlot : Nat
  gen : Nat
  off : Nat
  len : Nat
  exp : Int
  entries : Tbl Entry
  comps : Tbl W32
  ledger : Ledger
  idx : Nat
  deriving DecidableEq, Repr, Inhabited

/-- What a memory atomic adds to one CDU (R170, R171, R340). -/
inductive AtomOp where
  | int32 | fp32 | entry40 | header
  deriving DecidableEq, Repr, Inhabited

/-- The place of a CDU: a ridge's Loam, local memory by PA, or a peer window by device and offset. -/
inductive Place where
  | loam (r off : Nat)
  | local (pa : Nat)
  | remote (dev off : Nat)
  deriving DecidableEq, Repr, Inhabited

/-- A memory atomic waiting to be applied to one CDU. -/
structure MemAtomic where
  id : Nat
  op : AtomOp
  place : Place
  /-- header of the image that an entry belongs to, where it is local -/
  hdr : Option Place
  data : List Byte
  /-- the DVA of its first byte, 0 for Loam -/
  dva : Nat
  part : Nat
  job : W32
  ridge : Nat
  win : Nat
  deriving DecidableEq, Repr, Inhabited

/-- A SIG on its way to a ridge's counter (R184). -/
structure SigMsg where
  id : Nat
  tgt : Nat
  cnt : Nat
  v : W32
  part : Nat
  job : W32
  /-- the sending ridge and its window entry, which completes when the SIG lands -/
  src : Nat
  win : Nat
  deriving DecidableEq, Repr, Inhabited

/-- A DMA descriptor in flight (R255 to R258). -/
structure Dma where
  id : Nat
  ridge : Nat
  ctx : Ctx
  win : Nat
  part : Nat
  job : W32
  op : Nat
  desc : Nat
  idx : Nat
  srcKind : Nat
  dstKind : Nat
  srcAddr : Nat
  dstAddr : Nat
  rowBytes : Nat
  rows : Nat
  srcStride : Int
  dstStride : Int
  fill : W32
  flags : Nat
  /-- the resume point: every segment below it has been applied (R258) -/
  next : Nat
  /-- writes posted to a peer and not yet acknowledged (R250) -/
  posted : Nat
  bad : Bool
  signal : Option Nat
  deriving DecidableEq, Repr, Inhabited

structure MemSys where
  dram : Tbl Byte
  poison : Tbl Bool
  /-- which ranges hold initialised data with valid check words (R392) -/
  lines : List MLine
  tlb : List Tlb
  walks : List Walk
  aads : List AadMsg
  atomics : List MemAtomic
  sigs : List SigMsg
  dma : Tbl (List Dma)
  next : Nat
  deriving DecidableEq, Repr

def MemSys.reset : MemSys := ⟨[], [], [], [], [], [], [], [], [], 0⟩

/-! ### Links (chapter 11) -/

inductive PortLink where
  | disabled | training | up | upX2 | down
  deriving DecidableEq, Repr, Inhabited

structure LinkSt where
  st : PortLink
  enabled : Bool
  /-- width that training reached; both hails exchanged (R335) -/
  trained : Option Bool
  hailSent : Bool
  hailHeard : Bool
  fails : Nat
  downAt : Nat
  /-- next SEQ to send, next SEQ expected, oldest unacknowledged (R334) -/
  txSeq : Nat
  rxSeq : Nat
  acked : Nat
  replays : Nat
  lastAck : Nat
  nak : Option Nat
  replayed : Nat
  corrected : Nat
  dropped : Nat
  bucket : Nat
  bucketAt : Nat
  mgmt : Nat
  partner : Nat
  deriving DecidableEq, Repr, Inhabited

def LinkSt.reset : LinkSt :=
  ⟨.training, true, none, false, false, 0, 0, 0, 0, 0, 0, 0, none, 0, 0, 0, 4096, 0, 0, 0⟩

inductive PeerSt where
  | absent | up | lost | conflict
  deriving DecidableEq, Repr, Inhabited

/-- A peer table entry (R346); by port: when a hail was last heard on it, and how many forwarding elements that hail had crossed (R345). -/
structure Peer where
  st : PeerSt
  heardAt : Tbl Nat
  hopsAt : Tbl Nat
  pinned : Bool
  importMask : W16
  unavail : W16
  boot : W32
  serialCrc : W32
  lastAt : Nat
  deriving DecidableEq, Repr, Inhabited

def Peer.absent : Peer := ⟨.absent, [], [], false, 0, 0, 0, 0, 0⟩

/-- An export entry (R342). -/
structure Export where
  flags : Byte
  part : Nat
  srcDev : Nat
  srcPart : Nat
  base : Nat
  size : Nat
  deriving DecidableEq, Repr, Inhabited

def Export.none : Export := ⟨0, 0, 0, 0, 0, 0⟩

/-- An outstanding request (R341). kind: 1 WR, 2 RD, 3 ATOM, 4 MSG. -/
structure Outstanding where
  kind : Nat
  dst : Nat
  part : Nat
  job : W32
  ridge : Nat
  win : Nat
  cluster : Option Nat
  dmaId : Nat
  off : Nat
  op : Nat
  data : List Byte
  /-- the DVA of the access -/
  dva : Nat
  sentAt : Nat
  resent : Bool
  busyAt : Option Nat
  abandoned : Bool
  deriving DecidableEq, Repr, Inhabited

/-- A record of an applied atomic or message (R341). -/
structure AtomRec where
  src : Nat
  tag : Nat
  boot : W32
  answer : Nat
  time : Nat
  deriving DecidableEq, Repr, Inhabited

/-- A peer coalescing entry (R352, R353). -/
structure PeerCoal where
  subject : Nat
  cause : Nat
  coal : Nat
  localSeen : Bool
  ports : Byte
  firstReporter : Nat
  boot : W32
  deriving DecidableEq, Repr, Inhabited

/-- An episode (R355): the cause that began it, its occurrences, whether its record has been written, whether it is over. -/
structure Episode where
  subject : Nat
  cause : Nat
  count : Nat
  logged : Bool
  ended : Bool
  deriving DecidableEq, Repr, Inhabited

structure Links where
  ports : Tbl LinkSt
  devId : Nat
  idValid : Bool
  boot : W32
  lastHail : Nat
  lastSweep : Nat
  peers : Tbl Peer
  routes : Tbl W16
  exports : Tbl Export
  outstanding : Tbl (Option Outstanding)
  records : List AtomRec
  coal : List PeerCoal
  coalDropped : Nat
  rateDropped : Nat
  episodes : List Episode
  /-- last hail with this device's own id and another SERIAL (R348) -/
  conflictAt : Option Nat
  /-- frames this device has sent and that wait for their port, oldest first -/
  sent : List (Nat × Frame)
  deriving DecidableEq, Repr

def Links.reset : Links :=
  { ports := [], devId := 0, idValid := false, boot := 0, lastHail := 0, lastSweep := 0, peers := [], routes := [],
    exports := [], outstanding := [], records := [], coal := [], coalDropped := 0, rateDropped := 0,
    episodes := [], conflictAt := none, sent := [] }

/-! ### Integrity, policies, failure log (chapter 12) -/

/-- A failure-log record waiting or written (R385, R437, R388). -/
structure LogRec where
  seq : Nat
  severity : Nat
  ev : Ev
  colFirst : Nat
  colLast : Nat
  boot : W32
  /-- the vendor section (R388), as built when the event was granted -/
  sect : List Byte
  bad : Bool
  deriving DecidableEq, Repr, Inhabited

structure Integ where
  /-- corrected errors of the ERROR_RATE window, by unit (R360), and whether the event has been raised -/
  corrected : Tbl Nat
  raised : Tbl Bool
  /-- positions with a failed probe in the window, by ridge -/
  failedPos : Tbl W32
  /-- PROBE_POLICY: value for new partitions and the device-wide test fields (R362) -/
  probePolicy : W32
  surveyPolicy : W32
  waitingLog : List LogRec
  log : List LogRec
  nextLog : Nat
  deriving DecidableEq, Repr

/-- Reset values: TEST_PERIOD_EXP 45, TEST_GRACE_EXP 30, PROBE_INTERVAL 2,048 (R362); SRV_CONC 7, SRV_DT 16, SRV_AGE_EXP 35, SRV_INT_EXP 20 (R97). -/
def Integ.reset : Integ :=
  { corrected := [], raised := [], failedPos := [],
    probePolicy := BitVec.ofNat 32 (45 * 2 ^ 24 + 30 * 2 ^ 18 + 2048),
    surveyPolicy := BitVec.ofNat 32 (7 * 2 ^ 24 + 16 * 2 ^ 16 + 35 * 2 ^ 8 + 20),
    waitingLog := [], log := [], nextLog := 0 }

/-! ### Security (chapter 13) -/

/-- A firmware image as a slot of the QSPI flash holds it (R409, R410). -/
structure FwImage where
  major : Nat
  minor : Nat
  svn : Nat
  digest : W256
  dPror : W256
  dPmu : W256
  dUcode : W256
  deriving DecidableEq, Repr

/-- An SPDM session (R395). -/
structure Sess where
  established : Bool
  /-- the export master secret, and the secrets of requests and responses that KEY_UPDATE renews -/
  secret : W256
  reqSecret : W256
  rspSecret : W256
  deriving DecidableEq, Repr

structure Spdm where
  version : Bool
  caps : Bool
  algs : Bool
  sessions : Tbl (Option Sess)
  deriving DecidableEq, Repr

def Spdm.reset : Spdm := ⟨false, false, false, []⟩

/-- An IDE key slot (R394, R398). -/
structure IdeSlot where
  key : Option W256
  going : Bool
  /-- the session whose KEY_PROG derived it -/
  sess : Nat
  deriving DecidableEq, Repr

def IdeSlot.empty : IdeSlot := ⟨none, false, 0⟩

structure Sec where
  spdmA : Spdm
  spdmB : Spdm
  /-- IDE key slots by port, function, direction, key set; streams marked insecure -/
  ide : Tbl IdeSlot
  insecure : Tbl Bool
  /-- SPDM / DOE response bytes of the last request -/
  doe : List Byte
  deviceKey : W256
  draws : Nat
  layoutSeq : Nat
  jtagSince : Bool
  slotA : Option FwImage
  slotB : Option FwImage
  /-- the selected slot is B; the slot the running image came from is B -/
  selB : Bool
  runB : Bool
  staged : Option FwImage
  running : FwImage
  svnMin : Nat
  debugBoot : Bool
  deriving DecidableEq, Repr

/-- The image that shipped in slot A. -/
def FwImage.shipped : FwImage :=
  ⟨1, 0, 1, Config.shippedDigest 0, Config.shippedDigest 1, Config.shippedDigest 2, Config.shippedDigest 3⟩

def Sec.reset : Sec :=
  { spdmA := .reset, spdmB := .reset, ide := [], insecure := [], doe := [], deviceKey := 0, draws := 0,
    layoutSeq := 0, jtagSince := false, slotA := some .shipped, slotB := none, selB := false, runB := false,
    staged := none, running := .shipped, svnMin := 1, debugBoot := false }

/-! ### The Clay store (chapter 14) -/

/-- One copy of a record (R432). data none: the content production wrote. -/
structure Copy where
  seq : W32
  committed : Bool
  ue : Bool
  crcOk : Bool
  data : Option (List Byte)
  deriving DecidableEq, Repr, Inhabited

/-- DESIGN CHOICE, notes/assumptions/8. -/
def Copy.prod : Copy := ⟨0, true, false, true, none⟩

/-- A two-copy record (R432). -/
structure Rec where
  c0 : Copy
  c1 : Copy
  deriving DecidableEq, Repr, Inhabited

def Rec.prod : Rec := ⟨.prod, .prod⟩

/-- A writer of the Clay controller (R421), with the group writes it has done. rank: 1 journal, 2 other record, 3 scrub zeroing, 4 host. -/
inductive Writer where
  | record (cls idx : Nat) (data : List Byte) (done : Nat)
  | zero (quarter : Nat) (page done : Nat)
  | host (q : QId) (cid : W16) (page pages : Nat) (data : List Byte) (done : Nat)
  deriving DecidableEq, Repr, Inhabited

structure Clay where
  /-- records by class × 4096 + index -/
  recs : Tbl Rec
  /-- bytes of Q2 and Q3 by store byte address; groups that read UE by group number -/
  bytes : Tbl Byte
  ue : Tbl Bool
  writers : List Writer
  /-- guard block: passwords and protect value (R425, R428) -/
  readPw : W64
  writePw : W64
  protect : Byte
  readOpen : Bool
  writeOpen : Bool
  mismatches : Nat
  locked : Bool
  /-- the guard block's record is absent (R438) -/
  guardLost : Bool
  inhibit : Bool
  deriving DecidableEq, Repr

/-- DESIGN CHOICE, notes/assumptions/8. -/
def Clay.prod : Clay :=
  ⟨[], [], [], [], 0, 0, 0, false, false, 0, false, false, false⟩

/-! ### Power, thermal, control processor, pins (chapters 1, 4, 15, 16) -/

inductive DomSt where
  | off | poweringUp | on | poweringDown | fault
  deriving DecidableEq, Repr, Inhabited

/-- A power domain: state and target (R446). -/
structure Dom where
  st : DomSt
  target : Bool
  since : Nat
  deriving DecidableEq, Repr, Inhabited

def Dom.reset : Dom := ⟨.on, true, 0⟩

/-- The MODEL_MISMATCH check of a ridge (R113). -/
structure Bench where
  misses : Nat
  agrees : Nat
  active : Bool
  tBench : Int
  deriving DecidableEq, Repr, Inhabited

def Bench.reset : Bench := ⟨0, 0, false, 0⟩

structure Thermal where
  /-- node temperatures in degrees (R109), by node -/
  temps : Tbl Q
  /-- ridge estimates in 1/8 degree as last written to the PMU (R109) -/
  est : Tbl Int
  lastEst : Option Nat
  modelStart : Nat
  modelOn : Bool
  windowOpen : Bool
  lastStep : Nat
  /-- trims: last estimate each ridge's compensation was applied at (R114), 1/8 degree -/
  trimAt : Tbl Int
  /-- THERMAL_INLET values received: time and value in 1/16 degree, newest first (R110) -/
  inlets : List (Nat × Int)
  staleSaid : Bool
  bench : Tbl Bench
  /-- THERMAL_POLICY (R115) -/
  policy : W32
  duty : Tbl Nat
  at4 : Tbl Nat
  calm : Nat
  hot : Bool
  hotCalm : Nat
  stale : Bool
  confEst : Tbl Int
  confAt : Nat
  deriving DecidableEq, Repr

/-- T_HOT 99, T_THROTTLE 93 (R115). -/
def Thermal.reset : Thermal :=
  { temps := [], est := [], lastEst := none, modelStart := 0, modelOn := false, windowOpen := true, lastStep := 0,
    trimAt := [], inlets := [], staleSaid := false, bench := [], policy := BitVec.ofNat 32 (99 * 2 ^ 8 + 93),
    duty := [], at4 := [], calm := 0, hot := false, hotCalm := 0, stale := false, confEst := [], confAt := 0 }

structure Pmu where
  on : Bool
  resetCause : Nat
  cap : Nat
  op : Nat
  dom : Tbl Dom
  /-- last frame's input mV, the last 1,000 frame powers in mW newest first, the ten frames of a model step -/
  mv : Nat
  frames : List Nat
  step10 : List (List Nat)
  /-- duties lost to each PMU limit, by ridge (R117): 16 minus the PMU's duty -/
  cut : Tbl Nat
  /-- rows of R117 in force -/
  sustained : Bool
  ridgeOver : Tbl Bool
  peak : Option Nat
  peakHot : Bool
  crit : Tbl Bool
  inputLow : Bool
  lossAt : Option Nat
  /-- confidential readings latched at the last POWER_REPORT marker (R402) -/
  confMw : Nat
  /-- clock reference lost, and PWR_EN rising again latched (R454, R458) -/
  refLost : Bool
  rcClock : Bool
  progPower : Nat
  deriving DecidableEq, Repr

/-- Every reset sets the cap to 300 W, the point to 0 and the programming budget to 40 W (R41, R451, R456). -/
def Pmu.reset : Pmu :=
  { on := true, resetCause := 0, cap := 300, op := 0, dom := [], mv := 12000, frames := [], step10 := [], cut := [],
    sustained := false, ridgeOver := [], peak := none, peakHot := false, crit := [], inputLow := false,
    lossAt := none, confMw := 0, refLost := false, rcClock := true, progPower := 40 }

/-- HB_FW_STATE STATE codes (R300). -/
inductive FwSt where
  | bedrock | starting | running | stalled | fault | authFail
  deriving DecidableEq, Repr, Inhabited

structure Cmc where
  fw : FwSt
  restarts : Nat
  busyReset : Bool
  lastBeat : Nat
  watchdog : Bool
  /-- when step 4 of R18 reset Basecamp; when RUNNING came after a restart -/
  resetAt : Option Nat
  restartedAt : Option Nat
  runningAt : Nat
  mctpEid : Byte
  mctp : List Byte
  /-- scrubs that a restart or a power loss interrupted: ridges held back (R415) -/
  scrubPending : RMask
  wholeScrub : Option (QId × W16)
  /-- free ridges' tiles under a scrub: ridge, tile, trains given -/
  scrubTiles : List (Nat × Nat × Nat)
  deriving DecidableEq, Repr

def Cmc.reset : Cmc :=
  { fw := .bedrock, restarts := 0, busyReset := true, lastBeat := 0, watchdog := false, resetAt := none,
    restartedAt := none, runningAt := 0, mctpEid := 0, mctp := [], scrubPending := 0, wholeScrub := none,
    scrubTiles := [] }

/-- Control pins (R463, R464): inputs as last driven, straps as last sampled. -/
structure Pins where
  pwrEn : Bool
  sysRstN : Bool
  ids : BitVec 12
  strapDbg : Bool
  strapTest : Bool
  deriving DecidableEq, Repr

structure State where
  /-- commands waiting, first in first out -/
  pending : List Instr
  /-- CMC cycles that have passed (the model's own clock, DESIGN CHOICE, notes/assumptions/2) -/
  now : Nat
  /-- ridge-clock cycles that have passed, in eighths: n_k of R449 for every CMC cycle (DESIGN CHOICE, notes/assumptions/2) -/
  rclk : Nat
  /-- the model's own counter of free values used (DESIGN CHOICE, notes/assumptions/7) -/
  free : Nat
  host : HostSide
  parts : Tbl Part
  jobs : List Job
  ridges : Tbl RidgeSt
  progQueue : List ProgOp
  mem : MemSys
  arbs : Tbl Arb
  starveLimit : Nat
  col : Col
  ropes : Tbl Rope
  links : Links
  integ : Integ
  sec : Sec
  clay : Clay
  thermal : Thermal
  pmu : Pmu
  cmc : Cmc
  pins : Pins
  deriving DecidableEq, Repr

def HostSide.reset : HostSide :=
  { memA := [], memB := [], pool := [], poolOwner := [], queues := [], adminA := .absent,
    adminB := { Queue.absent with port := .B }, cmds := [], nextCmd := 0, fns := [], portA := .reset,
    portB := .reset, readData := 0, msix := [], bindFails := [] }

/-- The machine right after reset: PWR_EN high and SYS_RST_N held low (R455, R456), every register at its reset value, on a device as it leaves production. The next step of a run is the release of SYS_RST_N (R457) (DESIGN CHOICE, notes/assumptions/6). -/
def State.reset : State :=
  { pending := [], now := 0, rclk := 0, free := 0, host := .reset, parts := [], jobs := [], ridges := [], progQueue := [],
    mem := .reset, arbs := [], starveLimit := 4096, col := .reset, ropes := [], links := .reset, integ := .reset,
    sec := .reset, clay := .prod, thermal := .reset, pmu := .reset, cmc := .reset,
    pins := { pwrEn := true, sysRstN := false, ids := 0, strapDbg := false, strapTest := false } }

end Sys2Proof.Machine
end

