-- ==== Sys2Proof/Machine/Tbl.lean ====
section
/-!
DEFINITION. The operations on sparse tables (Tbl): reading with a default, writing that keeps the canonical form, and the test of that form. Every register file, memory and list of numbered things of the block goes through them.
-/

namespace Sys2Proof.Machine

/-- The listed value at a key, if there is one. -/
def tfind {α : Type} : Tbl α → Nat → Option α
  | [], _ => none
  | (j, v) :: t, k => if j = k then some v else tfind t k

/-- Reads a key: the listed value, or d. -/
def tget {α : Type} (d : α) (t : Tbl α) (k : Nat) : α := (tfind t k).getD d

/-- Removes a key. -/
def terase {α : Type} : Tbl α → Nat → Tbl α
  | [], _ => []
  | (j, v) :: t, k => if j = k then terase t k else (j, v) :: terase t k

/-- Puts a value at a key, keeping keys in rising order. -/
def tput {α : Type} : Tbl α → Nat → α → Tbl α
  | [], k, v => [(k, v)]
  | (j, u) :: t, k, v =>
    if k < j then (k, v) :: (j, u) :: t else if k = j then (k, v) :: t else (j, u) :: tput t k v

/-- Writes a key; writing what an unlisted key reads as removes the entry. -/
def tset {α : Type} [DecidableEq α] (d : α) (t : Tbl α) (k : Nat) (v : α) : Tbl α :=
  if v = d then terase t k else tput t k v

/-- Updates a key in place. -/
def tupd {α : Type} [DecidableEq α] (d : α) (t : Tbl α) (k : Nat) (f : α → α) : Tbl α :=
  tset d t k (f (tget d t k))

/-- Keys strictly above lo, strictly rising, and no entry equal to d. -/
def twfFrom {α : Type} [DecidableEq α] (d : α) : Option Nat → Tbl α → Bool
  | _, [] => true
  | lo, (k, v) :: t =>
    (match lo with
      | none => true
      | some l => decide (l < k)) && !decide (v = d) && twfFrom d (some k) t

/-- The canonical form. -/
def twf {α : Type} [DecidableEq α] (d : α) (t : Tbl α) : Bool := twfFrom d none t

/-- Writes a run of values from a key on. -/
def tsetRun {α : Type} [DecidableEq α] (d : α) (t : Tbl α) (k : Nat) : List α → Tbl α
  | [] => t
  | v :: vs => tsetRun d (tset d t k v) (k + 1) vs

/-- Reads a run of n values from a key on. -/
def tgetRun {α : Type} (d : α) (t : Tbl α) (k n : Nat) : List α :=
  (List.range n).map (fun i => tget d t (k + i))

/-- A table from a list of values, key 0 first. -/
def tOfList {α : Type} [DecidableEq α] (d : α) (l : List α) : Tbl α := tsetRun d [] 0 l

/-- Puts a value into a list that stands in order, before the first entry it is not above. -/
def insertBy {α : Type} (le : α → α → Bool) (a : α) : List α → List α
  | [] => [a]
  | b :: l => if le a b then a :: b :: l else b :: insertBy le a l

/-- A list put in order; entries that compare alike keep their places. -/
def sortBy {α : Type} (le : α → α → Bool) : List α → List α
  | [] => []
  | a :: l => insertBy le a (sortBy le l)

/-- The canonical form of a memory of bytes whose unlisted bytes read as 0. -/
abbrev Memory.wf (m : Tbl Byte) : Bool := twf 0 m

end Sys2Proof.Machine
end

