-- ==== Sys2Proof/Machine/Ops.lean ====
section
/-!
DEFINITION. The named operations over the state that every family of commands shares: reading and updating one numbered thing, raising events and posting completions (R274, R283, R308), host memory, Loam and LPDDR5X with their check words, poison and probe tags (R235, R371), the layout of a partition's memory (R247), the host-ready pins (R303, R304), attention (R299), and jobs (R213, R259, R263).
-/

namespace Sys2Proof.Machine

/-- The answer of a meaning. -/
abbrev Out := Host.Outcome State Fault Refusal

/-! ### Reading and updating one numbered thing -/

def getR (s : State) (r : Nat) : RidgeSt := tget .reset s.ridges r
def setR (s : State) (r : Nat) (v : RidgeSt) : State := { s with ridges := tset .reset s.ridges r v }
def updR (s : State) (r : Nat) (f : RidgeSt → RidgeSt) : State := setR s r (f (getR s r))

def tileOf (rd : RidgeSt) (t : Nat) : Tile := tget .reset rd.tiles t
def getTile (s : State) (r t : Nat) : Tile := tileOf (getR s r) t
def updTile (s : State) (r t : Nat) (f : Tile → Tile) : State :=
  updR s r (fun rd => { rd with tiles := tupd .reset rd.tiles t f })

def posOf (rd : RidgeSt) (p : Nat) : PosSt := tget .reset rd.pos p
def updPos (s : State) (r p : Nat) (f : PosSt → PosSt) : State :=
  updR s r (fun rd => { rd with pos := tupd .reset rd.pos p f })

def slotOf (rd : RidgeSt) (k : Nat) : Slot := tget .reset rd.slots k
def getSlot (s : State) (r k : Nat) : Slot := slotOf (getR s r) k
def setSlot (s : State) (r k : Nat) (v : Slot) : State :=
  updR s r (fun rd => { rd with slots := tset .reset rd.slots k v })

/-- Tile-map entry of a position (R46): the physical tile, and FENCED. -/
def mapEntry (rd : RidgeSt) (p : Nat) : Byte := rd.map.getD p 0
def physOf (rd : RidgeSt) (p : Nat) : Nat := (mapEntry rd p).toNat % 64
def fencedAt (rd : RidgeSt) (p : Nat) : Bool := (mapEntry rd p).toNat.testBit 7
def setMap (s : State) (r p phys : Nat) (fenced : Bool) : State :=
  updR s r (fun rd => { rd with map := rd.map.set p (BitVec.ofNat 8 (phys + (if fenced then 128 else 0))) })
/-- The position that a physical tile serves, if one maps to it. -/
def posOfTile (rd : RidgeSt) (t : Nat) : Option Nat := (List.range 32).find? (fun p => physOf rd p = t)

def ctxOf (rd : RidgeSt) (x : Ctx) : CtxSt :=
  match x with
  | .job => rd.jobCtx
  | .service => rd.svcCtx
def setCtx (rd : RidgeSt) (x : Ctx) (c : CtxSt) : RidgeSt :=
  match x with
  | .job => { rd with jobCtx := c }
  | .service => { rd with svcCtx := c }
def updCtx (s : State) (r : Nat) (x : Ctx) (f : CtxSt → CtxSt) : State :=
  updR s r (fun rd => setCtx rd x (f (ctxOf rd x)))

def getP (s : State) (p : Nat) : Part := tget .free s.parts p
def setP (s : State) (p : Nat) (v : Part) : State := { s with parts := tset .free s.parts p v }
def updP (s : State) (p : Nat) (f : Part → Part) : State := setP s p (f (getP s p))

def getRope (s : State) (e : Nat) : Rope := tget .free s.ropes e
def setRope (s : State) (e : Nat) (v : Rope) : State := { s with ropes := tset .free s.ropes e v }

def fnKey (p : Port) (f : Nat) : Nat := match p with | .A => f | .B => 32 + f
def getFn (s : State) (p : Port) (f : Nat) : FnRegs := tget .reset s.host.fns (fnKey p f)
def updFn (s : State) (p : Port) (f : Nat) (g : FnRegs → FnRegs) : State :=
  { s with host := { s.host with fns := tupd .reset s.host.fns (fnKey p f) g } }

def getPort (s : State) (p : Port) : PortSt := match p with | .A => s.host.portA | .B => s.host.portB
def updPort (s : State) (p : Port) (g : PortSt → PortSt) : State :=
  match p with
  | .A => { s with host := { s.host with portA := g s.host.portA } }
  | .B => { s with host := { s.host with portB := g s.host.portB } }
def otherPort (p : Port) : Port := match p with | .A => .B | .B => .A

def getQ (s : State) (q : QId) : Queue :=
  match q with
  | .admin .A => s.host.adminA
  | .admin .B => s.host.adminB
  | .io n => tget .absent s.host.queues n
def setQ (s : State) (q : QId) (v : Queue) : State :=
  match q with
  | .admin .A => { s with host := { s.host with adminA := v } }
  | .admin .B => { s with host := { s.host with adminB := v } }
  | .io n => { s with host := { s.host with queues := tset .absent s.host.queues n v } }
def updQ (s : State) (q : QId) (f : Queue → Queue) : State := setQ s q (f (getQ s q))

def isAdmin (q : QId) : Bool := match q with | .admin _ => true | .io _ => false
/-- SQ_ID of a completion entry (R308). -/
def sqId (q : QId) : Nat := match q with | .admin _ => 0xFFFF | .io n => n

def findJob (s : State) (p : Nat) (id : W32) : Option Job :=
  s.jobs.find? (fun j => j.part = p && j.id = id)
def updJob (s : State) (p : Nat) (id : W32) (f : Job → Job) : State :=
  { s with jobs := s.jobs.map (fun j => if j.part = p && j.id = id then f j else j) }
def dropJob (s : State) (p : Nat) (id : W32) : State :=
  { s with jobs := s.jobs.filter (fun j => !(j.part = p && j.id = id)) }

def findWset (s : State) (p : Nat) (id : W32) : Option Wset := (getP s p).wsets.find? (fun w => w.id = id)
def updWset (s : State) (p : Nat) (id : W32) (f : Wset → Wset) : State :=
  updP s p (fun t => { t with wsets := t.wsets.map (fun w => if w.id = id then f w else w) })
def findProg (s : State) (p h : Nat) : Option Prog := (getP s p).progs.find? (fun g => g.handle = h)

/-- The partition that owns a physical ridge. -/
def ownerOf (s : State) (r : Nat) : Option Nat :=
  (List.range 16).find? (fun p => (getP s p).st ≠ .free && (getP s p).ridges.toNat.testBit r)
/-- PARTITION of an event about a ridge (R213): its owner, or 0xFF. -/
def partByte (s : State) (r : Nat) : Nat := (ownerOf s r).getD 0xFF

/-- The partition of a function (R294): VF n serves partition n − 1. -/
def partOfFn (f : Nat) : Nat := f - 1
/-- A VF is live on the port its partition is bound to (R294); PF0 is live on both. -/
def liveFn (s : State) (p : Port) (f : Nat) : Bool :=
  f = 0 || ((getP s (partOfFn f)).st ≠ .free && (getP s (partOfFn f)).port = p)

def confidential (t : Part) : Bool := t.pflags.toNat.testBit 0
def debugMode (t : Part) : Bool := t.pflags.toNat.testBit 1

/-! ### Free values -/

/-- A fresh index for a value that the spec leaves open (DESIGN CHOICE, notes/assumptions/7). -/
def useFree (s : State) : State := { s with free := s.free + 1 }

/-! ### The Col: raising events and posting completions -/

def srcCluster (c : Nat) : Nat := 48 + c
def srcWalker : Nat := 52
/-- Moraine source of a slice group, 0 to 3. -/
def srcMoraine (g : Nat) : Nat := 53 + g
def srcDram (pair : Nat) : Nat := 57 + pair
def srcLink (n : Nat) : Nat := 63 + n
def srcHost (p : Port) : Nat := match p with | .A => 71 | .B => 72
def srcPmu : Nat := 81
def srcCsb : Nat := 82
def srcCmc : Nat := 83
def srcQuiesce : Nat := 84
def srcRope : Nat := 85
def srcWindow : Nat := 86
def srcClay : Nat := 87

def srcQueue (s : State) (k : Nat) : List Req := tget [] s.col.queues k
/-- A source asks the Col for a grant; its requests stay in the order raised (R276). -/
def enq (s : State) (k : Nat) (q : Req) : State :=
  { s with col := { s.col with queues := tset [] s.col.queues k (srcQueue s k ++ [q]) } }
/-- A source of this capacity has room for one more request (R277) (DESIGN CHOICE, notes/assumptions/58). -/
def srcRoom (s : State) (k : Nat) : Bool := decide ((srcQueue s k).length < 32)
/-- The Basecamp core that raises a report of Prorvafort: free among 73 to 80 (R274) (DESIGN CHOICE, notes/assumptions/20). -/
def srcCore (s : State) : Nat := 73 + Config.core s.free % 8
def enqCore (s : State) (q : Req) : State := enq (useFree s) (srcCore s) q

def mkEv (ty cause src part : Nat) (payload : List Byte) : Ev :=
  { ty := ty, cause := cause, source := src, part := part, coalesced := false, count := 1,
    payload := bytesAt payload 0 32 }
def raise (s : State) (src ty cause part : Nat) (payload : List Byte) : State :=
  enq s src (.event (mkEv ty cause src part payload))
def raiseCore (s : State) (ty cause part : Nat) (payload : List Byte) : State :=
  enq (useFree s) (srcCore s) (.event (mkEv ty cause (srcCore s) part payload))

/-- Two occurrences are of one subject when type, cause, source, partition and the first n payload bytes agree (R283). -/
def sameSubject (n : Nat) (a b : Ev) : Bool :=
  a.ty = b.ty && a.cause = b.cause && a.source = b.source && a.part = b.part && a.payload.take n = b.payload.take n
def findCoal (s : State) (kind n : Nat) (e : Ev) : Option (Nat × Coal) :=
  s.col.coal.find? (fun c => c.2.kind = kind && sameSubject n c.2.ev e)
def setCoal (s : State) (k : Nat) (c : Coal) : State :=
  { s with col := { s.col with coal := tput s.col.coal k c } }
/-- What a report's payload field becomes with one more occurrence: POWER_LIMIT keeps the peak, every other sums. -/
def coalAdd (e : Ev) (a v : Nat) : Nat := if e.ty = 0x07 then max a v else a + v
/-- An occurrence of a coalesced subject (R283), with the amount v it adds to the report's payload: it joins the pending report, or is held until the next marker once the report has been granted, or starts a report. -/
def raiseCoal (s : State) (kind n v : Nat) (e : Ev) : State :=
  match findCoal s kind n e with
  | some (k, c) =>
    if c.queued then
      setCoal s k { c with ev := { e with coalesced := true }, count := c.count + 1, sum := coalAdd e c.sum v }
    else
      setCoal s k { c with ev := { e with coalesced := true }, held := c.held + 1, heldSum := coalAdd e c.heldSum v }
  | none =>
    let k := s.col.nextCoal
    let s1 := setCoal s k { kind := kind, ev := { e with coalesced := true }, queued := true, count := 1, held := 0, sum := v, heldSum := 0 }
    enq { s1 with col := { s1.col with nextCoal := k + 1 } } e.source (.coalesced k)

/-- Posts a command's completion (R308) and ends the command. -/
def postCqe (s : State) (c : Cqe) : State := enqCore s (.completion c)
def mkCqe (q : QId) (cid : W16) (status part : Nat) (res res2 : Nat) (rep : Option (Nat × List Byte)) : Cqe :=
  { q := q, cid := cid, status := status, report := rep, result := BitVec.ofNat 64 res,
    result2 := BitVec.ofNat 64 res2, sqHead := 0, colSeq := 0, part := part }

/-! ### Host memory and MSI-X -/

def hostMem (s : State) (p : Port) : Tbl Byte := match p with | .A => s.host.memA | .B => s.host.memB
def setHostMem (s : State) (p : Port) (m : Tbl Byte) : State :=
  match p with
  | .A => { s with host := { s.host with memA := m } }
  | .B => { s with host := { s.host with memB := m } }
/-- DESIGN CHOICE, notes/assumptions/5. -/
def hostRead (s : State) (p : Port) (a n : Nat) : List Byte := tgetRun 0 (hostMem s p) a n
/-- DESIGN CHOICE, notes/assumptions/5. -/
def hostWrite (s : State) (p : Port) (a : Nat) (d : List Byte) : State :=
  setHostMem s p (tsetRun 0 (hostMem s p) a d)
/-- DESIGN CHOICE, notes/assumptions/5. -/
def poolRead (s : State) (a n : Nat) : List Byte := tgetRun 0 s.host.pool a n
def poolWrite (s : State) (a : Nat) (d : List Byte) : State :=
  { s with host := { s.host with pool := tsetRun 0 s.host.pool a d } }

/-- An MSI-X message; one message serves the entries written within 1 µs, 600 CMC cycles (R308). Vector 0xFF is none (DESIGN CHOICE, notes/assumptions/62). -/
def sendMsix (s : State) (p : Port) (f vec : Nat) : State :=
  if vec = 0xFF then s
  else if s.host.msix.any (fun (t, q, g, v) => q = p && g = f && v = vec && decide (s.now < t + 600)) then s
  else { s with host := { s.host with msix := (s.now, p, f, vec) :: s.host.msix } }

/-! ### Host-ready pins and attention (R299, R301, R303, R304) -/

/-- Admin commands of a port in progress. -/
def adminInFlight (s : State) (p : Port) : Nat := (s.host.cmds.filter (fun c => c.q = .admin p)).length
/-- BUSY_ADMIN_FULL (R303). -/
def busyAdminFull (s : State) (p : Port) : Bool :=
  let q := getQ s (.admin p)
  (q.st = .live && decide ((q.tail + 1) % 2 ^ q.sqExp = q.fetch)) || decide (64 ≤ adminInFlight s p)
/-- BUSY_RAPPEL (R297). -/
def busyRappel (s : State) (p : Port) : Bool := s.col.rappels.any (fun r => r.port = some p)
/-- BUSY_ATTN (R297). -/
def busyAttn (s : State) (p : Port) : Bool := decide ((getPort s p).attn ≠ 0)
/-- An unmasked cause holds HRDY low (R303); BUSY_RESET cannot be masked (R301). -/
def hrdyCause (s : State) (p : Port) : Bool :=
  let m := (getPort s p).rdyMask
  s.cmc.busyReset || (busyAdminFull s p && !bitAt m 0) || (busyAttn s p && !bitAt m 1) ||
    (busyRappel s p && !bitAt m 2)
/-- The pin follows its causes; a low period lasts at least 600 and a high period at least 300 CMC cycles (R304). -/
def hrdySync (s : State) (p : Port) : State :=
  let t := getPort s p
  if t.hrdy && hrdyCause s p && decide (t.hrdySince + 300 ≤ s.now) then
    updPort s p (fun t => { t with hrdy := false, hrdySince := s.now })
  else if !t.hrdy && !hrdyCause s p && decide (t.hrdySince + 600 ≤ s.now) then
    updPort s p (fun t => { t with hrdy := true, hrdySince := s.now })
  else s
def pinSync (s : State) : State := hrdySync (hrdySync s .A) .B

/-- Sets HB_ATTN bits of a port; with ATTN_MSIX set, vector 0 follows (R298). -/
def setAttn (s : State) (p : Port) (i : Nat) : State :=
  let s1 := updPort s p (fun t => { t with attn := t.attn ||| BitVec.ofNat 32 (2 ^ i) })
  let s2 := if bitAt (getFn s1 p 0).ctrl 1 then sendMsix s1 p 0 0 else s1
  hrdySync s2 p
def attnBoth (s : State) (i : Nat) : State := setAttn (setAttn s .A i) .B i

/-! ### Commands in flight -/

def findCmd (s : State) (q : QId) (cid : W16) : Option Cmd :=
  s.host.cmds.find? (fun c => c.q = q && c.cid = cid)
def dropCmd (s : State) (n : Nat) : State :=
  { s with host := { s.host with cmds := s.host.cmds.filter (fun c => c.seqNo ≠ n) } }
def busyCmd (s : State) (n : Nat) : State :=
  { s with host := { s.host with cmds := s.host.cmds.map (fun c => if c.seqNo = n && !c.busy then { c with busy := true, began := s.now } else c) } }
/-- Completes a fetched command with a status and two results. -/
def complete2 (s : State) (c : Cmd) (status res res2 : Nat) : State :=
  pinSync (dropCmd (postCqe s (mkCqe c.q c.cid status c.part res res2 none)) c.seqNo)
def complete (s : State) (c : Cmd) (status res : Nat) : State := complete2 s c status res 0
/-- Completes the command of a ring and CID, if it is still in flight. -/
def completeAt (s : State) (q : QId) (cid : W16) (status res : Nat) : State :=
  match findCmd s q cid with
  | some c => complete s c status res
  | none => s

/-! ### A partition's memory (R247) -/

def gib : Nat := 2 ^ 30
/-- The ranges of a partition, in increasing physical order. -/
def rangeList (t : Part) : List Nat := (List.range 94).filter (fun k => t.ranges.toNat.testBit k)
def ridgeCount (m : RMask) : Nat := ((List.range 48).filter (fun r => m.toNat.testBit r)).length
/-- F: the size of the firmware part. Both terms are whole multiples of 2 MiB, so that rounding up to 2 MiB changes neither (DESIGN CHOICE, notes/assumptions/61). -/
def fwSizeOf (ridges ranges : Nat) : Nat := min (2 ^ 26 * ridges) (2 ^ 29 * ranges)
def fwSize (t : Part) : Nat := fwSizeOf (ridgeCount t.ridges) (rangeList t).length
def userSize (t : Part) : Nat := gib * (rangeList t).length - fwSize t
/-- The physical address of a local intermediate address. -/
def iaToPa (t : Part) (ia : Nat) : Option Nat :=
  if ia < userSize t then some ((rangeList t).getD (ia / gib) 0 * gib + ia % gib) else none

/-- Firmware-part bytes in use: golden records, streams, cairn buffers and save areas (DESIGN CHOICE, notes/assumptions/61). -/
def largestCairn (g : Prog) : Nat :=
  let bytesOf (c : CairnDef) : Nat :=
    let regs := ((tfind g.parts c.ridge).map (fun x => x.regions)).getD []
    256 + ((List.range regs.length).filter (fun i => bitAt c.live i)).foldl
      (fun a i => a + ((regs[i]?).map (fun x => x.size)).getD 0) 0
  (g.cairns.map (fun c => ((g.cairns.filter (fun d => d.id = c.id)).map bytesOf).foldl (· + ·) 0)).foldl max 0
/-- DESIGN CHOICE, notes/assumptions/61. -/
def jobRoom (g : Prog) : Nat := 2 * largestCairn g + 2 ^ 21 * g.ridges
/-- DESIGN CHOICE, notes/assumptions/61. -/
def fwUsed (s : State) (p : Nat) : Nat :=
  let t := getP s p
  (t.wsets.map (fun w => w.golden.length * 532480)).foldl (· + ·) 0 +
    (t.progs.map (fun g => g.bytes)).foldl (· + ·) 0 +
    ((s.jobs.filter (fun j => j.part = p)).map (fun j => ((findProg s p j.prog).map jobRoom).getD 0)).foldl (· + ·) 0
def fwFree (s : State) (p : Nat) : Nat := fwSize (getP s p) - fwUsed s p

/-! ### CDUs: check words, poison and tags (R235, R371)

A check word is right unless its CDU is poisoned (DESIGN CHOICE, notes/assumptions/10). -/

/-- The pieces of [a, a + len) cut at CDU boundaries: address and length. -/
def cduCutsAux : Nat → Nat → Nat → List (Nat × Nat)
  | 0, _, _ => []
  | f + 1, a, len =>
    if len = 0 then [] else
      let n := min len (256 - a % 256)
      (a, n) :: cduCutsAux f (a + n) (len - n)
def cduCuts (a len : Nat) : List (Nat × Nat) := cduCutsAux (len / 256 + 2) a len
/-- The CDU indexes that a range touches. -/
def cdusOf (a len : Nat) : List Nat := (cduCuts a len).map (fun c => c.1 / 256)

/-- A Loam byte: what was written, else what R188 leaves undefined, else the zero of power-up (R447) (DESIGN CHOICE, notes/assumptions/15). -/
def loamByte (rd : RidgeSt) (r o : Nat) : Byte :=
  match tget none rd.loam o with
  | some b => b
  | none =>
    match rd.junk.find? (fun j => decide (j.1 ≤ o) && decide (o < j.1 + j.2.1)) with
    | some j => Config.loamJunk j.2.2 r o
    | none => 0
def loamBytes (rd : RidgeSt) (r o n : Nat) : List Byte := (List.range n).map (fun i => loamByte rd r (o + i))
/-- The bytes of a range become ones that the spec leaves open, of a fresh generation (R188) (DESIGN CHOICE, notes/assumptions/15). -/
def loamJunk (rd : RidgeSt) (o n gen : Nat) : RidgeSt :=
  { rd with loam := rd.loam.filter (fun x => !(decide (o ≤ x.1) && decide (x.1 < o + n))), junk := (o, n, gen) :: rd.junk }
/-- A poisoned CDU lies in the range. -/
def loamBad (rd : RidgeSt) (o n : Nat) : Bool := (cdusOf o n).any (fun c => tget false rd.poison c)
/-- Writes without checks: bytes and the tag of every CDU touched. -/
def loamPut (rd : RidgeSt) (o : Nat) (d : List Byte) (tag : W32) : RidgeSt :=
  { rd with loam := tsetRun none rd.loam o (d.map some), tags := (cdusOf o d.length).foldl (fun t c => tset 0 t c tag) rd.tags }
/-- One write under R235: a poisoned CDU covered in part keeps its bytes and fails; one covered whole is clean again. Answers the ridge and the offsets of CDUs that failed (DESIGN CHOICE, notes/assumptions/10). -/
def loamWrite (rd : RidgeSt) (o : Nat) (d : List Byte) (tag : W32) : RidgeSt × List Nat :=
  (cduCuts o d.length).foldl (fun (acc : RidgeSt × List Nat) (c : Nat × Nat) =>
    let piece := (d.drop (c.1 - o)).take c.2
    if c.2 = 256 then
      (loamPut { acc.1 with poison := tset false acc.1.poison (c.1 / 256) false } c.1 piece tag, acc.2)
    else if tget false acc.1.poison (c.1 / 256) then (acc.1, acc.2 ++ [c.1 / 256 * 256])
    else (loamPut acc.1 c.1 piece tag, acc.2)) (rd, [])

/-- DESIGN CHOICE, notes/assumptions/5. -/
def dramBytes (s : State) (pa n : Nat) : List Byte := tgetRun 0 s.mem.dram pa n
def dramBad (s : State) (pa n : Nat) : Bool := (cdusOf pa n).any (fun c => tget false s.mem.poison c)
/-- DESIGN CHOICE, notes/assumptions/57. -/
def dramPoison (s : State) (pa : Nat) (v : Bool) : State :=
  { s with mem := { s.mem with poison := tset false s.mem.poison (pa / 256) v } }
def dramPut (s : State) (pa : Nat) (d : List Byte) : State :=
  { s with mem := { s.mem with dram := tsetRun 0 s.mem.dram pa d } }
/-- As loamWrite, in local memory (DESIGN CHOICE, notes/assumptions/10). -/
def dramWrite (s : State) (pa : Nat) (d : List Byte) : State × List Nat :=
  (cduCuts pa d.length).foldl (fun (acc : State × List Nat) (c : Nat × Nat) =>
    let piece := (d.drop (c.1 - pa)).take c.2
    if c.2 = 256 then (dramPut (dramPoison acc.1 c.1 false) c.1 piece, acc.2)
    else if tget false acc.1.mem.poison (c.1 / 256) then (acc.1, acc.2 ++ [c.1 / 256 * 256])
    else (dramPut acc.1 c.1 piece, acc.2)) (s, [])

/-- COALESCE window number, the probe epoch of every ridge's view (R368). -/
def epochNow (s : State) : Nat := s.col.win2.num

/-- A probe tag (R371). -/
def mkTag (epoch ridge : Nat) (multi analogue : Bool) : W32 :=
  BitVec.ofNat 32 ((epoch % 65536) * 65536 + (if multi then 0 else ridge % 64) * 1024 + (if multi then 512 else 0) +
    (if analogue then 256 else 0) + 1)
def tagPlain : W32 := mkTag 0 0 false false
def tagValid (t : W32) : Bool := bitAt t 0
def tagAnalogue (t : W32) : Bool := bitAt t 8
def tagMulti (t : W32) : Bool := bitAt t 9
def tagRidge (t : W32) : Nat := bits t 15 10
/-- The extended epoch: the largest value not above the current window number with these low 16 bits. -/
def tagEpoch (s : State) (t : W32) : Nat :=
  let e := bits t 31 16
  let n := epochNow s
  if e ≤ n % 65536 then n / 65536 * 65536 + e else (n / 65536 - 1) * 65536 + e
/-- The merge of tags read (R371): highest epoch, ANALOGUE ORed, MULTI when the ridges differ. -/
def mergeTags (s : State) (l : List W32) : W32 :=
  let v := l.filter tagValid
  let ep := (v.map (tagEpoch s)).foldl max 0
  let an := v.any tagAnalogue
  let r0 := ((v.filter (fun t => !tagMulti t)).map tagRidge).headD 0
  let multi := v.any tagMulti || (v.filter (fun t => !tagMulti t)).any (fun t => tagRidge t ≠ r0)
  mkTag ep r0 multi an
def tagsAt (rd : RidgeSt) (o n : Nat) : List W32 := (cdusOf o n).map (fun c => tget 0 rd.tags c)

/-! ### Jobs -/

/-- The job placed on a ridge. -/
def jobOn (s : State) (r : Nat) : Option Job :=
  match (getR s r).job with
  | some (p, id) => findJob s p id
  | none => none
/-- The physical ridges of a job, in program-ridge order. -/
def jobRidges (j : Job) : List Nat := (j.placement.map (fun b => b.toNat)).filter (fun r => r < 48)
/-- The physical ridge of a program ridge. -/
def physRidge (j : Job) (k : Nat) : Option Nat :=
  match j.placement[k]? with
  | some b => if b.toNat < 48 then some b.toNat else none
  | none => none
/-- The program ridge placed on a physical ridge. -/
def progRidge (j : Job) (r : Nat) : Option Nat :=
  (List.range j.placement.length).find? (fun k => (j.placement.getD k 0xFF).toNat = r)
/-- The image's part for a physical ridge of a job. -/
def progPart (s : State) (j : Job) (r : Nat) : Option ProgRidge :=
  match findProg s j.part j.prog, progRidge j r with
  | some g, some k => tfind g.parts k
  | _, _ => none

/-- The tag of a job's write into Loam from local or peer memory (R371) (DESIGN CHOICE, notes/assumptions/46). -/
def tagFromMemory (s : State) (j : Job) (r : Nat) : W32 :=
  if j.fired = 0 then tagPlain else mkTag (epochNow s) r true true

/-- An INTEGRITY event's payload (R361). -/
def integPayload (loc unit pos : Nat) (job : W32) (addr count w : Nat) : List Byte :=
  layFields 32 [(0, 1, loc), (1, 1, unit), (2, 1, pos), (4, 4, job.toNat), (8, 8, addr), (16, 4, count), (24, 8, w)]
/-- Corrections counted in the current ERROR_RATE window for a unit key (R360). -/
def corrected (s : State) (k : Nat) : Nat := tget 0 s.integ.corrected k
/-- DESIGN CHOICE, notes/assumptions/27. -/
def raiseInteg (s : State) (src cause part loc unit pos : Nat) (job : W32) (addr w : Nat) : State :=
  raise s src 0x04 cause part (integPayload loc unit pos job addr (corrected s unit) w)

/-- STREAM_FAULT (R213): the stream stops, the fault is reported, and a job remembers it until Prorvafort ends the job (R216). -/
def streamFault (s : State) (r : Nat) (x : Ctx) (code idx : Nat) : State :=
  let j := match x with | .job => jobOn s r | .service => none
  let pr := match j with | some j => (progRidge j r).getD 0xFF | none => 0xFF
  let jid := match j with | some j => j.id.toNat | none => 0
  let s1 := updCtx s r x (fun c => { c with run := false, fault := some (code, idx) })
  let s2 := match j with
    | some j => updJob s1 j.part j.id (fun j =>
        if j.pendingFault.isEmpty || (j.pendingFault.all (fun c => c = 0x12) && code ≠ 0x12) then
          { j with pendingFault := j.pendingFault ++ [code], fault := code, faultRidge := pr, faultInstr := idx }
        else { j with pendingFault := j.pendingFault ++ [code] })
    | none => s1
  raise s2 r 0x02 code (partByte s r)
    (layFields 32 [(0, 1, r), (1, 1, pr), (2, 1, (match x with | .job => 0 | .service => 1)), (4, 4, idx % 2 ^ 20), (8, 4, jid)])

/-- Completion status of a stream fault (R213). -/
def faultStatus (code : Nat) : Nat :=
  match code with
  | 0x01 => 0x03 | 0x02 => 0x05 | 0x03 => 0x05 | 0x04 => 0x06 | 0x05 => 0x03 | 0x06 => 0x03 | 0x07 => 0x03
  | 0x08 => 0x03 | 0x09 => 0x03 | 0x0A => 0x05 | 0x0B => 0x03 | 0x0C => 0x03 | 0x0D => 0x0F | 0x0E => 0x03
  | 0x0F => 0x0C | 0x10 => 0x0C | 0x11 => 0x09 | _ => 0x08

/-- Adds an occurrence to the last pending event of a type, partition and leading payload bytes (R261, step 3). -/
def bumpEv (ty part : Nat) (key : List Byte) : List Req → List Req
  | [] => []
  | .event e :: t =>
    if e.ty = ty && e.part = part && e.payload.take key.length = key && bumpEv ty part key t = t then
      .event { e with count := e.count + 1, coalesced := true } :: t
    else .event e :: bumpEv ty part key t
  | q :: t => q :: bumpEv ty part key t

/-- MMU_FAULT (R259, R261): the job is suspended; at most 16 events a job are posted. -/
def mmuFault (s : State) (src p : Nat) (id : W32) (source srcRidge cause addr access level desc instr resume : Nat) : State :=
  match findJob s p id with
  | none => s
  | some j =>
    let s1 := updJob s p id (fun j =>
      { j with st := (if j.st = .running then .suspended else j.st), mmuCause := cause, mmuPosted := j.mmuPosted + 1 })
    if 16 ≤ j.mmuPosted then
      { s1 with col := { s1.col with queues := s1.col.queues.map (fun q => (q.1, bumpEv 0x03 p (leBytes 4 id.toNat) q.2)) } }
    else
      raise s1 src 0x03 cause p
        (layFields 32 [(0, 4, id.toNat), (4, 1, p), (5, 1, source), (6, 1, srcRidge), (7, 1, cause), (8, 8, addr), (16, 1, access),
          (17, 1, level), (18, 2, desc), (20, 4, instr % 2 ^ 20), (24, 4, resume)])

/-! ### Timing constants, in CMC cycles (600 MHz, R5) -/

/-- 400 µs of a pin hold (R156, R289). -/
def pinHoldCycles : Nat := 240000
/-- Ridge cycles that pass in n CMC cycles at operating point 0, rounded down (1.2 GHz against 600 MHz). -/
def ridgeCycles (n : Nat) : Nat := 2 * n

end Sys2Proof.Machine
end

