-- ==== Sys2Proof/Machine/Operands.lean ====
section
/-!
DEFINITION. The operand forms of the ridge instructions: the fields of each encoding (R186 to R211), which of them are reserved (R11, R478), number formats in storage (R122, R123, R126), LADDR operands (R187), feeds (R191), the block conversion of VLD (R127 to R133), narrowing (R142), rescale entries and activation (R136 to R141), the descriptors of DMU and DMA (R198, R256), and spill images (R167).
-/

namespace Sys2Proof.Machine

/-! ### Instruction fields -/

def opOf (w : W128) : Nat := bits w 127 120
def fenceOf (w : W128) : Bool := bitAt w 119
/-- A signed field. -/
def sbits {n : Nat} (w : BitVec n) (hi lo : Nat) : Int := asSigned (hi + 1 - lo) (bits w hi lo)
def zeroBits {n : Nat} (w : BitVec n) (hi lo : Nat) : Bool := decide (bits w hi lo = 0)

/-- A LADDR (R187): program ridge, 63 for the issuing ridge, and byte offset. -/
def laRidge (a : Nat) : Nat := a / 2 ^ 21
def laOff (a : Nat) : Nat := a % 2 ^ 21

/-! ### Formats (R122, R123, R126) -/

def fmtBits (f : Nat) : Nat :=
  match f with
  | 0 => 4 | 1 => 4 | 2 => 8 | 3 => 8 | 4 => 16 | 5 => 32 | 6 => 64 | 7 => 8 | 8 => 8 | 9 => 16 | 10 => 16
  | 11 => 32 | 12 => 8 | 13 => 8 | 14 => 4 | _ => 0
def fmtMX (f : Nat) : Bool := f = 12 || f = 13 || f = 14
def fmtInt (f : Nat) : Bool := decide (f ≤ 6)
/-- Bytes of a vector of n elements. -/
def vecBytes (f n : Nat) : Nat := (n * fmtBits f + 7) / 8 + (if fmtMX f then n / 32 else 0)
/-- Alignment of an operand (R187). -/
def fmtAlign (f : Nat) : Nat := if fmtMX f then 32 else max 1 (fmtBits f / 8)

def vldSource (f : Nat) : Bool := [0, 1, 2, 3, 7, 8, 9, 10, 11, 12, 13, 14].contains f
def drnOutput (f : Nat) : Bool := [0, 1, 2, 3, 4, 5, 7, 8, 9, 10, 11, 12, 13].contains f && f ≠ 11
def vopFmt (f : Nat) : Bool := [2, 3, 4, 5, 9, 10, 11].contains f
def dmuIntOp (f : Nat) : Bool := f = 0 || f = 2
def dmuFpOp (f : Nat) : Bool := [7, 8, 9, 10].contains f
def preFmt (mode f : Nat) : Bool :=
  match mode with
  | 0 => f = 0
  | 1 => f = 5 || f = 6
  | 2 => [2, 4, 5, 9, 10, 11].contains f
  | _ => false

/-- The floating-point format behind a code; MX element formats included. -/
def fpFmt (f : Nat) : FFmt :=
  match f with
  | 7 => fE4M3 | 8 => fE5M2 | 9 => fFP16 | 10 => fBF16 | 13 => fE4M3 | 14 => fE2M1 | _ => fFP32

/-- An element as storage holds it: an integer, or a floating-point value. -/
inductive Elt where
  | int (v : Int)
  | fp (v : FV)
  deriving DecidableEq, Repr, Inhabited

/-- The raw code of element i. -/
def rawAt (f : Nat) (b : List Byte) (i : Nat) : Nat :=
  match fmtBits f with
  | 4 => let x := (b.getD (i / 2) 0).toNat
         if i % 2 = 0 then x % 16 else x / 16
  | 8 => (b.getD i 0).toNat
  | 16 => fieldAt b (2 * i) 2
  | 32 => fieldAt b (4 * i) 4
  | 64 => fieldAt b (8 * i) 8
  | _ => 0

/-- Element i of a vector of n elements (R122, R123). -/
def eltAt (f n : Nat) (b : List Byte) (i : Nat) : Elt :=
  let c := rawAt f b i
  match f with
  | 0 => .int (asSigned 4 c)
  | 1 => .int c
  | 2 => .int (asSigned 8 c)
  | 3 => .int c
  | 4 => .int (asSigned 16 c)
  | 5 => .int (asSigned 32 c)
  | 6 => .int (asSigned 40 (c % 2 ^ 40))
  | 12 | 13 | 14 =>
    let sc := (b.getD ((n * fmtBits f + 7) / 8 + i / 32) 0).toNat
    if sc = 255 then .fp .nan
    else
      let e : Int := (sc : Int) - 127
      if f = 12 then .fp (fOfQ false (qScale (qOf (asSigned 8 c)) (e - 6)))
      else match fDecode (fpFmt f) c with
        | .fin neg m => .fp (.fin neg (qScale m e))
        | v => .fp v
  | _ => .fp (fDecode (fpFmt f) c)

def eltsOf (f n : Nat) (b : List Byte) : List Elt := (List.range n).map (eltAt f n b)

/-- An element as the DMU, VOP and RED take it: infinities tamed (R125). -/
def eltFV (f : Nat) : Elt → FV
  | .int v => fOfQ false (qOf v)
  | .fp v => fTame (fpFmt f) v
def eltInt : Elt → Int
  | .int v => v
  | .fp _ => 0
/-- An element taken to FP32 (R202). -/
def eltF32 (f : Nat) (e : Elt) : W32 :=
  match e with
  | .int v => f32OfInt v
  | .fp v => f32Enc (fTame (fpFmt f) v)

/-! ### Narrowing (R131, R142) -/

/-- Range of ordinary codes; esc selects the ranges of R131. -/
def intRange (f : Nat) (esc : Bool) : Int × Int :=
  match f with
  | 0 => (if esc then -7 else -8, 7)
  | 1 => (0, if esc then 14 else 15)
  | 2 => (if esc then -127 else -128, 127)
  | 3 => (0, if esc then 254 else 255)
  | 4 => (-32768, 32767)
  | 5 => (-(2 ^ 31), 2 ^ 31 - 1)
  | _ => (-(2 ^ 39), 2 ^ 39 - 1)
/-- Escape code of an integer format (R131). -/
def escCode (f : Nat) : Option Nat :=
  match f with
  | 0 => some 0x8
  | 1 => some 0xF
  | 2 => some 0x80
  | 3 => some 0xFF
  | _ => none

/-- An exact value narrowed to a format: its code, and whether it saturated. -/
def narrowFV (f : Nat) (esc : Bool) (v : FV) : Nat × Bool :=
  if fmtInt f then
    match v with
    | .nan => (0, true)
    | .inf neg => let (lo, hi) := intRange f esc
                  (ofSigned (fmtBits f) (if neg then lo else hi), true)
    | .fin _ _ =>
      let (lo, hi) := intRange f esc
      let x := qRound (fVal v)
      (ofSigned (fmtBits f) (clampI lo hi x), decide (x < lo) || decide (hi < x))
  else fEncode (fpFmt f) v
def narrowQ (f : Nat) (esc : Bool) (q : Q) : Nat × Bool := narrowFV f esc (fOfQ false q)

/-- Codes packed as a vector of one element width (R123). -/
def packCodes (f : Nat) (cs : List Nat) : List Byte :=
  match fmtBits f with
  | 4 => (pieces2 cs).map (fun p => BitVec.ofNat 8 (p.1 % 16 + 16 * (p.2 % 16)))
  | 8 => cs.map (BitVec.ofNat 8)
  | n => cs.flatMap (leBytes (n / 8))
where
  pieces2 : List Nat → List (Nat × Nat)
    | a :: b :: t => (a, b) :: pieces2 t
    | [a] => [(a, 0)]
    | [] => []

/-! ### Which bits of an instruction are reserved (R11, R186, R478) -/

/-- A MADDR with SPACE = 0 has [47:27] zero (R187). -/
def maddrBad (m : Nat) : Bool := decide (m < 2 ^ 48) && decide (2 ^ 27 ≤ m)
/-- MADDR in bits [hi:hi−48]. -/
def maddrAt (w : W128) (lo : Nat) : Nat := bits w (lo + 48) lo

/-- A reserved opcode, a non-zero reserved field, a reserved code, or a format that its operand does not allow: what depends on the instruction's own bits alone. job marks a job stream. -/
def reservedBad (job : Bool) (w : W128) : Bool :=
  match opOf w with
  | 0x00 => !zeroBits w 118 0
  | 0x01 => !(zeroBits w 118 112 && zeroBits w 79 0)
  | 0x08 =>
    let f := bits w 84 80
    !(zeroBits w 115 112 && zeroBits w 18 0) || bits w 117 116 = 3 || !vldSource f ||
      (!(fmtInt f && bitAt w 118) && !zeroBits w 45 19)
  | 0x10 => !(zeroBits w 116 112 && zeroBits w 73 0) || zeroBits w 111 80
  | 0x11 => !(zeroBits w 116 112 && zeroBits w 73 0) || zeroBits w 111 80
  | 0x18 =>
    let m := bits w 118 117
    let e := sbits w 96 88
    !(zeroBits w 116 112 && zeroBits w 13 0) || m = 3 || !preFmt m (bits w 40 36) || (m = 0 && !zeroBits w 67 41) ||
      (m ≠ 2 && !(zeroBits w 35 28 && zeroBits w 27 14)) || decide (e < -160) || decide (135 < e)
  | 0x19 =>
    !(zeroBits w 116 112 && zeroBits w 2 0) || (!bitAt w 117 && !zeroBits w 56 30) || (!bitAt w 118 && !zeroBits w 29 3)
  | 0x1A => !(zeroBits w 118 112 && zeroBits w 56 0) || maddrBad (maddrAt w 57)
  | 0x1B => !(zeroBits w 118 112 && zeroBits w 56 0) || maddrBad (maddrAt w 57)
  | 0x1C =>
    !zeroBits w 116 112 ||
      (match bits w 118 117 with
        | 0 => !zeroBits w 76 0
        | 1 => !zeroBits w 56 0 || maddrBad (maddrAt w 57)
        | _ => !zeroBits w 19 0 || maddrBad (maddrAt w 36))
  | 0x20 => !zeroBits w 117 112 || maddrBad (maddrAt w 0)
  | 0x21 =>
    let o := bits w 111 108
    !zeroBits w 118 112 || decide (8 < o) || !vopFmt (bits w 26 22) || !vopFmt (bits w 21 17) ||
      (o = 5 && !zeroBits w 80 54) || (o = 7 && !zeroBits w 80 70)
  | 0x22 =>
    let o := bits w 113 112
    !(zeroBits w 118 114 && zeroBits w 15 0) ||
      (if o = 3 then !zeroBits w 57 53 else !vopFmt (bits w 57 53)) ||
      (if o = 0 || o = 1 then !vopFmt (bits w 52 48) else !zeroBits w 52 48)
  | 0x28 => !(zeroBits w 117 112 && zeroBits w 40 0)
  | 0x30 => !(zeroBits w 118 114 && zeroBits w 73 0) || bits w 113 112 = 3
  | 0x31 => !(zeroBits w 118 113 && zeroBits w 67 0) || decide (56 ≤ bits w 111 106)
  | 0x32 => !(zeroBits w 118 112 && zeroBits w 95 0)
  | 0x34 => !(zeroBits w 118 112 && zeroBits w 93 0) || zeroBits w 111 100 || (job && !zeroBits w 99 94)
  | 0x35 => !zeroBits w 118 0
  | 0x38 => !(zeroBits w 118 112 && zeroBits w 103 0)
  | 0x39 => !(zeroBits w 118 112 && zeroBits w 105 0) || decide (34 ≤ bits w 111 106)
  | 0x3A => !(zeroBits w 118 112 && zeroBits w 99 0) || decide (34 ≤ bits w 106 101)
  | _ => true

/-! ### LADDR operands (R187, R224, R237) -/

/-- An operand resolved to a physical ridge's Loam. -/
structure LOp where
  ridge : Nat
  off : Nat
  deriving DecidableEq, Repr, Inhabited

/-- The regions that hold a whole range, writable when asked. -/
def inRegion (regs : List Region) (off len : Nat) (write : Bool) : Bool :=
  regs.any (fun g => decide (g.off ≤ off) && decide (off + len ≤ g.off + g.size) && !(write && g.kind = 3))

/-- Resolves a LADDR for a job's ridge: the placement table names the physical ridge (R237). -/
def laPhys (s : State) (r a : Nat) : Option Nat :=
  if laRidge a = 63 then some r
  else match jobOn s r with
    | some j => match physRidge j (laRidge a) with
      | some q => if (getP s j.part).ridges.toNat.testBit q then some q else none
      | none => none
    | none => none

/-- A LADDR operand of len bytes, checked: in a declared region, aligned, writable when asked; none is the fault ACCESS. -/
def laOp (s : State) (r a len align : Nat) (write : Bool) : Option LOp :=
  match laPhys s r a with
  | none => none
  | some q =>
    if inRegion (getR s q).regions (laOff a) len write && decide (laOff a % align = 0) then some ⟨q, laOff a⟩ else none

/-- Reads a resolved Loam operand; true when a poisoned CDU lies in it. -/
def ldLoam (s : State) (o : LOp) (n : Nat) : List Byte × Bool :=
  (loamBytes (getR s o.ridge) o.ridge o.off n, loamBad (getR s o.ridge) o.off n)
/-- Writes a resolved Loam operand under R235, raising CHECK_MISMATCH for each CDU that fails; true when one failed. -/
def stLoam (s : State) (src : Nat) (o : LOp) (d : List Byte) (tag : W32) : State × Bool :=
  let (rd, bad) := loamWrite (getR s o.ridge) o.off d tag
  let s1 := setR s o.ridge rd
  (bad.foldl (fun s a => raiseInteg s src 0x01 (partByte s o.ridge) 0 o.ridge 0xFF
      (match jobOn s o.ridge with | some j => j.id | none => 0) a 0) s1, !bad.isEmpty)

/-! ### Feeds (R191) -/

structure Seg where
  mask : Nat
  row0 : Nat
  count : Nat
  start : Nat
  deriving DecidableEq, Repr, Inhabited

def segOf (w : W64) : Seg := ⟨bits w 63 32, bits w 31 22, bits w 21 12 + 1, 8 * bits w 11 0⟩
/-- The segments of a feed descriptor, when it is VALID. -/
def feedSegs (feed : Tbl W32) (segs : Tbl W64) (k : Nat) : Option (List Seg) :=
  let d := tget 0 feed k
  if bitAt d 31 then
    some ((List.range (bits d 16 12 + 1)).map (fun i => segOf (tget 0 segs (bits d 11 0 + i))))
  else none
/-- The feed names no element at or past vlen. -/
def feedFits (l : List Seg) (vlen : Nat) : Bool := l.all (fun g => decide (g.start + g.count ≤ vlen))
/-- Row and element index of every row a feed drives at position p, in row order. -/
def feedRows (l : List Seg) (p : Nat) : List (Nat × Nat) :=
  sortBy (fun a b => decide (a.1 ≤ b.1)) ((l.filter (fun g => g.mask.testBit p)).flatMap (fun g =>
    (List.range g.count).map (fun i => (g.row0 + i, g.start + i))))
def feedPositions (l : List Seg) : List Nat := (List.range 32).filter (fun p => l.any (fun g => g.mask.testBit p))

/-! ### Escape side lists (R132) -/

/-- The entries of a side list (index, FP32 value); none when a check of R132 fails. -/
def sideList (b : List Byte) : Option (List (Nat × W32)) :=
  let n := fieldAt b 0 4
  if 1024 < n || fieldAt b 4 4 ≠ 0 then none
  else
    let es := (List.range n).map (fun i => (fieldAt b (8 + 8 * i) 2, fieldAt b (10 + 8 * i) 2, BitVec.ofNat 32 (fieldAt b (12 + 8 * i) 4)))
    if es.all (fun e => e.2.1 = 0 && f32Finite e.2.2) &&
        (List.range (n - 1)).all (fun i => decide ((es.getD i (0, 0, 0)).1 < (es.getD (i + 1) (0, 0, 0)).1)) then
      some (es.map (fun e => (e.1, e.2.2)))
    else none

/-! ### Block conversion (R127 to R133) -/

/-- Magnitudes of the finite elements, largest first. -/
def finiteMags (l : List FV) : List Q :=
  sortBy (fun a b => qLe b a) (l.filterMap (fun v => match v with | .fin _ m => some m | _ => none))
/-- E_g of a block (R128). -/
def blockExp (mode : Nat) (fix : Int) (l : List FV) : Int :=
  let ms := finiteMags l
  let top := ms.headD ⟨0, 1⟩
  if qIsZero top then -160
  else if mode = 2 then clampI (-160) 135 fix
  else
    let ref := if mode = 1 && decide (17 ≤ (ms.filter (fun m => !qIsZero m)).length) then ms.getD 16 top else top
    clampI (-160) 135 (qLog2 ref - 6)

/-- What one row of a row group becomes: its code, an escape value, and whether it marks the vector CLAMPED. -/
structure RowCode where
  row : Nat
  code : Int
  escape : Option W32
  clamped : Bool
  deriving DecidableEq, Repr, Inhabited

/-- First pass over a floating-point or MX row group (R129): escapes are marked, not yet limited to 16. -/
def fpRow (esc : Bool) (mode : Nat) (e : Int) (row : Nat) (v : FV) : RowCode :=
  match v with
  | .nan => ⟨row, 0, none, true⟩
  | .inf neg => ⟨row, if neg then -127 else 127, none, true⟩
  | .fin neg m =>
    let x := qScale m (-e)
    let q := qRound x
    if q ≤ 127 then ⟨row, if neg then -q else q, none, false⟩
    else
      let lim : Int := if neg then -127 else 127
      let val := f32Enc (fOfQ neg (if neg then qNeg x else x))
      if esc && qLe x (f32Val f32Max) then ⟨row, lim, some val, false⟩
      else ⟨row, lim, none, esc || mode ≠ 0⟩

/-- Keeps the 16 escapes of lowest row; the rest are driven as their clamped codes and mark the vector (R133). -/
def limitEscapes : Nat → List RowCode → List RowCode
  | _, [] => []
  | n, c :: t =>
    match c.escape with
    | none => c :: limitEscapes n t
    | some _ => if n = 0 then { c with escape := none, clamped := true } :: limitEscapes 0 t
                else { c with code := 0 } :: limitEscapes (n - 1) t

/-- The buffer that a list of row codes makes, with the exponents of its groups. -/
def bufOf (four : Bool) (exps : Tbl Int) (l : List RowCode) : InBuf :=
  { fed := true, fourBit := four, codes := l.foldl (fun t c => if c.escape.isSome then t else tset 0 t c.row c.code) [],
    exps := exps, scree := l.filterMap (fun c => c.escape.map (fun v => (c.row, v))), clamped := l.any (fun c => c.clamped) }

/-- One position's buffer from a floating-point or MX vector. -/
def convFp (esc : Bool) (mode : Nat) (fix : Int) (els : List Elt) (rows : List (Nat × Nat)) : InBuf :=
  let grp (g : Nat) := rows.filter (fun x => x.1 / 256 = g)
  let val (i : Nat) : FV := match els.getD i (.int 0) with | .fp v => v | .int v => fOfQ false (qOf v)
  let one (g : Nat) : Int × List RowCode :=
    let e := blockExp mode fix ((grp g).map (fun x => val x.2))
    (e, limitEscapes 16 ((grp g).map (fun x => fpRow esc mode e x.1 (val x.2))))
  let gs := (List.range 4).map one
  bufOf false (tOfList 0 (gs.map (fun x => x.1))) (gs.flatMap (fun x => x.2))

/-- One row from an integer vector (R131, R132): an escape code takes the side list's value for its index. -/
def intRow (f : Nat) (esc : Bool) (els : List Elt) (side : List (Nat × W32)) (raw : Nat → Nat) (x : Nat × Nat) : RowCode :=
  let v := eltInt (els.getD x.2 (.int 0))
  let isEsc := esc && escCode f = some (raw x.2)
  if isEsc then
    match side.find? (fun e => e.1 = x.2) with
    | some e =>
      let (lo, hi) := intRange f true
      ⟨x.1, if fNeg (f32Dec e.2) then lo else hi, some e.2, false⟩
    | none => ⟨x.1, 0, none, true⟩
  else if side.any (fun e => e.1 = x.2) then ⟨x.1, 0, none, true⟩
  else ⟨x.1, v, none, false⟩

def convInt (f : Nat) (esc : Bool) (els : List Elt) (side : List (Nat × W32)) (raw : Nat → Nat) (extra : Bool)
    (rows : List (Nat × Nat)) : InBuf :=
  let one (g : Nat) := limitEscapes 16 ((rows.filter (fun x => x.1 / 256 = g)).map (intRow f esc els side raw))
  let b := bufOf (f = 0 || f = 1) [] ((List.range 4).flatMap one)
  { b with clamped := b.clamped || extra }

/-! ### Rescale memory and drain arithmetic (R136 to R141) -/

def rscDesc (rd : RidgeSt) (t : Nat) : W64 := tget 0 rd.rsc t
def descBase (d : W64) : Nat := bits d 13 0
def descCount (d : W64) : Nat := bits d 30 16
def descHalf (d : W64) : Bool := bitAt d 31
def descActs (d : W64) : Nat := bits d 37 32
def halfEntry (rd : RidgeSt) (half : Bool) (i : Nat) : W64 := tget 0 (if half then rd.half1 else rd.half0) i
/-- The channel entry of a table. -/
def chanEntry (rd : RidgeSt) (half : Bool) (t ch : Nat) : W64 := halfEntry rd half (descBase (rscDesc rd t) + ch)
def entMant (e : W64) : Nat := bits e 15 0
def entShift (e : W64) : Nat := bits e 21 16
def entFmt (e : W64) : Nat := bits e 27 23
def entAct (e : W64) : Nat := bits e 31 28
def entBias (e : W64) : Int := sbits e 63 32

/-- Index of the first entry of the activation table of id k (R137). -/
def actBase (d : W64) (k : Nat) : Nat :=
  descBase d + descCount d + 257 * ((List.range (k - 2)).filter (fun i => (descActs d).testBit i)).length

/-- Limits to the signed 64-bit range. -/
def sat64 (x : Int) : Int := clampI (-(2 ^ 63)) (2 ^ 63 - 1) x

/-- Activation of A (R140). -/
def activate (rd : RidgeSt) (half : Bool) (d : W64) (id : Nat) (a : Int) : Int :=
  if id = 0 then a
  else if id = 1 then max a 0
  else
    let b := actBase d id
    let h := halfEntry rd half b
    let x := f32OfQ (qScale (qOf a) (-16))
    let step := sbits h 31 24
    let i := clampI 0 255 (qFloor (qScale (qSub (f32Val x) (f32Val (BitVec.ofNat 32 (bits h 63 32)))) (-step)))
    let sg := halfEntry rd half (b + 1 + i.toNat)
    let y := f32Fma (BitVec.ofNat 32 (bits sg 63 32)) x (BitVec.ofNat 32 (bits sg 31 0))
    sat64 (qRound (qScale (f32Val y) 16))

/-- Drain steps 1 to 4 (R139): the value B of an entry, with 16 fraction bits. -/
def drainB (rd : RidgeSt) (half : Bool) (t ch : Nat) (v : Int) : Int :=
  let e := chanEntry rd half t ch
  let a := qRound (qScale (qOf (v * entMant e)) (1 - (entShift e : Int))) + entBias e * 65536
  activate rd half (rscDesc rd t) (entAct e) a

/-- What a drain writes: codes or escapes, and what it counts. -/
structure DrainOut where
  data : List Byte
  escapes : List (Nat × W32)
  outsat : Nat
  deriving DecidableEq, Repr, Inhabited

/-- One element of a non-MX drain. -/
def drainElt (f : Nat) (esc : Bool) (acc : List Nat × List (Nat × W32) × Nat) (ib : Nat × Int) : List Nat × List (Nat × W32) × Nat :=
  let escOn := esc && (escCode f).isSome
  let q := if fmtInt f then qScale (qOf ib.2) (-16) else qScale (qOf ib.2) (-32)
  let (c, sat) := narrowQ f escOn q
  if sat && escOn && decide (acc.2.1.length < 64) then
    (acc.1 ++ [(escCode f).getD 0], acc.2.1 ++ [(ib.1, f32OfQ q)], acc.2.2)
  else (acc.1 ++ [c], acc.2.1, if sat then acc.2.2 + 1 else acc.2.2)

/-- One MX block (R141): scale byte, codes, saturations. -/
def drainBlock (f : Nat) (bs : List Int) : Nat × List Nat × Nat :=
  let vs := bs.map (fun b => qScale (qOf b) (-32))
  let top := (vs.map qAbs).foldl qMax ⟨0, 1⟩
  let x : Int := if qIsZero top then -127 else clampI (-127) 127 (qLog2 top - (if f = 13 then 8 else 0))
  let cs := vs.map (fun v =>
    if f = 13 then narrowFV 7 false (fOfQ false (qScale v (-x)))
    else let q := qRound (qScale v (6 - x))
         (ofSigned 8 (clampI (-128) 127 q), decide (q < -128) || decide (127 < q)))
  ((x + 127).toNat, cs.map (fun c => c.1), (cs.filter (fun c => c.2)).length)

/-- Drain step 5 over all entries: bs holds B of entries 0 to LEN − 1. -/
def drainOut (f : Nat) (esc : Bool) (bs : List Int) : DrainOut :=
  if fmtMX f then
    let blks := (blocks (bs.length / 32 + 1) bs).map (drainBlock f)
    { data := packCodes 2 (blks.flatMap (fun b => b.2.1)) ++ blks.map (fun b => BitVec.ofNat 8 b.1), escapes := [],
      outsat := (blks.map (fun b => b.2.2)).foldl (· + ·) 0 }
  else
    let (cs, es, n) := (List.range bs.length |>.zip bs).foldl (drainElt f esc) ([], [], 0)
    { data := packCodes f cs, escapes := es, outsat := n }
where
  blocks : Nat → List Int → List (List Int)
    | 0, _ => []
    | k + 1, l => if l.isEmpty then [] else l.take 32 :: blocks k (l.drop 32)

/-- An escape side list as DRN writes it (R132, R135). -/
def sideBytes (es : List (Nat × W32)) : List Byte :=
  leBytes 4 es.length ++ zeros 4 ++ es.flatMap (fun e => leBytes 2 e.1 ++ zeros 2 ++ leBytes 4 e.2.toNat)

/-! ### DMU descriptors (R198) -/

structure DmuDesc where
  kind : Nat
  fa : Nat
  fb : Nat
  fc : Nat
  m : Nat
  n : Nat
  k : Nat
  trans : Nat
  sa : Nat
  sb : Nat
  sc : Nat
  scale : W32
  bad : Bool
  deriving DecidableEq, Repr, Inhabited

def dmuOf (w : W256) : DmuDesc :=
  let f (o n : Nat) := bits w (8 * (o + n) - 1) (8 * o)
  { kind := f 0 1, fa := f 1 1, fb := f 2 1, fc := f 3 1, m := f 4 2, n := f 6 2, k := f 8 2, trans := f 10 1,
    sa := f 12 4, sb := f 16 4, sc := f 20 4, scale := BitVec.ofNat 32 (f 24 4), bad := f 11 1 ≠ 0 || f 28 4 ≠ 0 }

/-- A descriptor that R197 and R198 allow for an instruction with this ACC. -/
def dmuOk (d : DmuDesc) (acc : Bool) : Bool :=
  let isInt := dmuIntOp d.fa && dmuIntOp d.fb
  let isFp := dmuFpOp d.fa && dmuFpOp d.fb
  !d.bad && decide (d.kind ≤ 1) && (isInt || isFp) &&
    (if isInt then d.fc = 0 || d.fc = 2 || d.fc = 5 else d.fc = 7 || d.fc = 8 || d.fc = 9 || d.fc = 10 || d.fc = 11) &&
    (!acc || d.fc = (if isInt then 5 else 11)) &&
    decide (1 ≤ d.m) && decide (d.m ≤ 4096) && decide (1 ≤ d.n) && decide (d.n ≤ 4096) &&
    decide (1 ≤ d.k) && (if d.kind = 1 then decide (d.k ≤ 64) && d.trans = 0 else decide (d.trans ≤ 1)) && f32Finite d.scale

/-- Bytes from the first to past the last byte of rows spaced by a stride. -/
def spanOf (rows stride rowBytes : Nat) : Nat := (rows - 1) * stride + rowBytes
def dmuRowsA (d : DmuDesc) : Nat := if d.kind = 1 then d.m + d.k - 1 else d.m
def dmuColsA (d : DmuDesc) : Nat := if d.kind = 1 then d.n else d.k
def dmuRowsB (d : DmuDesc) : Nat := if d.trans = 1 then d.n else d.k
def dmuColsB (d : DmuDesc) : Nat := if d.trans = 1 then d.k else d.n
def spanA (d : DmuDesc) : Nat := spanOf (dmuRowsA d) d.sa (vecBytes d.fa (dmuColsA d))
def spanB (d : DmuDesc) : Nat := spanOf (dmuRowsB d) d.sb (vecBytes d.fb (dmuColsB d))
def spanC (d : DmuDesc) : Nat := spanOf d.m d.sc (vecBytes d.fc d.n)

/-! ### DMA descriptors (R256, R257) -/

structure DmaDesc where
  op : Nat
  sk : Nat
  dk : Nat
  flags : Nat
  look : Nat
  slots : Nat
  src : Nat
  dst : Nat
  rowBytes : Nat
  rows : Nat
  ss : Int
  ds : Int
  fill : W32
  resv : Bool
  deriving DecidableEq, Repr, Inhabited

def dmaOf (w : BitVec 512) : DmaDesc :=
  let f (o n : Nat) := bits w (8 * (o + n) - 1) (8 * o)
  { op := f 0 1, sk := f 1 1, dk := f 2 1, flags := f 3 1, look := f 4 1, slots := f 5 1, src := f 8 8, dst := f 16 8,
    rowBytes := f 24 4, rows := f 28 4, ss := asSigned 32 (f 32 4), ds := asSigned 32 (f 36 4),
    fill := BitVec.ofNat 32 (f 40 4), resv := f 6 2 ≠ 0 || f 44 20 ≠ 0 }

/-! ### Spill images (R150, R167, R369) -/

/-- A slot entry word (R150). -/
def entryWord (e : Entry) : Nat :=
  ofSigned 40 e.val + (if e.sat then 2 ^ 40 else 0) + (if e.clip then 2 ^ 41 else 0) + (if e.scree then 2 ^ 42 else 0) +
    (if e.cancel then 2 ^ 43 else 0)
def entryOf (x : Nat) : Entry :=
  { val := asSigned 40 (x % 2 ^ 40), sat := x.testBit 40, clip := x.testBit 41, scree := x.testBit 42, cancel := x.testBit 43 }
/-- A ledger's 48 bytes (R369). -/
def ledgerBytes (l : Ledger) : List Byte :=
  leBytes 8 l.ridges.toNat ++ leBytes 4 l.pos.toNat ++ leBytes 4 l.fallback.toNat ++ leBytes 4 l.relief.toNat ++
    leBytes 4 (if l.multi then 1 else 0) ++ leBytes 8 l.lo ++ leBytes 8 l.hi ++ zeros 8
def ledgerOf (b : List Byte) : Ledger :=
  { ridges := BitVec.ofNat 48 (fieldAt b 0 8), pos := BitVec.ofNat 32 (fieldAt b 8 4),
    fallback := BitVec.ofNat 32 (fieldAt b 12 4), relief := BitVec.ofNat 32 (fieldAt b 16 4),
    multi := (fieldAt b 20 4).testBit 0, lo := fieldAt b 24 8, hi := fieldAt b 32 8 }

/-- A spill image taken apart. -/
structure Image where
  len : Nat
  exp : Int
  ledger : Ledger
  entries : List Nat
  comps : List W32
  flags : Nat
  deriving DecidableEq, Repr, Inhabited

def imageOf (b : List Byte) : Image :=
  let len := fieldAt b 4 2
  { len := len, exp := asSigned 16 (fieldAt b 6 2), ledger := ledgerOf (bytesAt b 0x10 48),
    entries := (List.range (min len 512)).map (fun i => fieldAt b (0x100 + 8 * i) 8),
    comps := (List.range (min len 512)).map (fun i => BitVec.ofNat 32 (fieldAt b (0x1100 + 4 * i) 4)),
    flags := fieldAt b 8 4 }
def imageSigOk (b : List Byte) : Bool := fieldAt b 0 4 = 0x50535648
/-- A companion FIL accepts: not negative, infinite or NaN (R169). -/
def compOk (w : W32) : Bool := f32Finite w && !(bitAt w 31 && decide (w ≠ 0x80000000))

def imageBytes (len : Nat) (exp : Int) (fl : Nat) (led : Ledger) (es : Nat → Entry) (cs : Nat → W32) : List Byte :=
  leBytes 4 0x50535648 ++ leBytes 2 len ++ leBytes 2 (ofSigned 16 exp) ++ leBytes 4 fl ++ zeros 4 ++ ledgerBytes led ++ zeros 192 ++
    (List.range 512).flatMap (fun i => leBytes 8 (if i < len then entryWord (es i) else 0)) ++
    (List.range 512).flatMap (fun i => leBytes 4 (if i < len then (cs i).toNat else 0))

end Sys2Proof.Machine
end

