-- ==== Sys2Proof/Machine/Flags.lean ====
section
/-!
DEFINITION. Every flag and status computation of the block: the flags of slot entries and their summary bits (R150, R152, R158, R162), the merge of ledgers (R370), the order of completion statuses (R311), and the registers that only report state (HB_STATUS R297, HB_FW_STATE R300).
-/

namespace Sys2Proof.Machine

/-! ### Slot entries -/

def int40Max : Int := 2 ^ 39 - 1
def int40Min : Int := -(2 ^ 39)
/-- A value limited to INT40; true when it saturated. -/
def sat40 (x : Int) : Int × Bool := (clampI int40Min int40Max x, decide (x < int40Min) || decide (int40Max < x))

/-- What a contribution brings to one entry: value, flags, companion. -/
structure Contrib where
  t : Int
  sat : Bool
  clip : Bool
  scree : Bool
  comp : W32
  deriving DecidableEq, Repr, Inhabited

def Contrib.zero : Contrib := ⟨0, false, false, false, 0⟩

/-- The commit of a contribution into an entry (R158). -/
def commitEntry (e : Entry) (c : Contrib) : Entry :=
  if e.sat then { e with clip := e.clip || c.clip, scree := e.scree || c.scree }
  else if c.sat then { e with val := c.t, sat := true, clip := e.clip || c.clip, scree := e.scree || c.scree }
  else
    let (v, o) := sat40 (e.val + c.t)
    { e with val := v, sat := o, clip := e.clip || c.clip, scree := e.scree || c.scree }

def slotEntry (k : Slot) (i : Nat) : Entry := tget .zero k.entries i
def slotComp (k : Slot) (i : Nat) : W32 := tget 0 k.comps i
def putEntry (k : Slot) (i : Nat) (e : Entry) (c : W32) : Slot :=
  { k with entries := tset .zero k.entries i e, comps := tset 0 k.comps i c }
/-- One entry of a commit, with its companion added in FP32. -/
def commitAt (k : Slot) (i : Nat) (c : Contrib) : Slot :=
  putEntry k i (commitEntry (slotEntry k i) c) (f32Add (slotComp k i) c.comp)

/-- Summary bits over entries 0 to LEN − 1 (R152). -/
def anySat (k : Slot) : Bool := (List.range k.len).any (fun i => (slotEntry k i).sat)
def anyClip (k : Slot) : Bool := (List.range k.len).any (fun i => (slotEntry k i).clip)
def anyScree (k : Slot) : Bool := (List.range k.len).any (fun i => (slotEntry k i).scree)
def flagsAny (k : Slot) : Nat :=
  (if anySat k then 1 else 0) + (if anyClip k then 2 else 0) + (if anyScree k then 4 else 0)

/-- ACC_SLOT_STATE (R152). -/
def slotState (k : Slot) : W64 :=
  BitVec.ofNat 64 (k.received + k.expect * 2 ^ 12 + (k.len - 1) * 2 ^ 25 + ofSigned 9 k.exp * 2 ^ 34 + k.gen * 2 ^ 43 +
    k.pinTable * 2 ^ 51 + (if anyScree k then 2 ^ 59 else 0) + (if anyClip k then 2 ^ 60 else 0) +
    (if anySat k then 2 ^ 61 else 0) + (if k.pin then 2 ^ 62 else 0) + (if k.opened then 2 ^ 63 else 0))

/-- CANCEL at the drain (R162): compared exactly. -/
def cancels (shift : Nat) (e : Entry) (c : W32) : Bool :=
  decide (shift ≠ 0) && !e.sat && qLt (qOf (e.val.natAbs * 2 ^ shift : Nat)) (f32Val c)
/-- The four flag bits of an entry in the flag map (R164). -/
def flagNibble (e : Entry) : Nat :=
  (if e.sat then 1 else 0) + (if e.clip then 2 else 0) + (if e.scree then 4 else 0) + (if e.cancel then 8 else 0)

/-! ### Ledgers (R369, R370) -/

def manyRidges (m : RMask) : Bool := decide (1 < ridgeCount m)
def mergeLedger (a b : Ledger) : Ledger :=
  let r := a.ridges ||| b.ridges
  { ridges := r, pos := a.pos ||| b.pos, fallback := a.fallback ||| b.fallback, relief := a.relief ||| b.relief,
    multi := a.multi || b.multi || manyRidges r, lo := min a.lo b.lo, hi := max a.hi b.hi }
/-- The tag of a slot's drained bytes (R371). -/
def ledgerTag (l : Ledger) : W32 :=
  mkTag l.hi (((List.range 48).find? (fun r => l.ridges.toNat.testBit r)).getD 0) l.multi (decide (l.pos ≠ 0))
/-- A failure of position p on ridge r in epochs lo to hi touches a ledger (R372). -/
def ledgerTouched (l : Ledger) (r p wp wf : Nat) : Bool :=
  l.ridges.toNat.testBit r && l.pos.toNat.testBit p && decide (l.lo ≤ wf) && decide (wp ≤ l.hi)

/-! ### Completion statuses -/

/-- Place of a status in the order of R311; smaller comes first. -/
def statusRank (c : Nat) : Nat :=
  match c with
  | 0x10 => 1 | 0x07 => 2 | 0x0E => 3 | 0x09 => 4 | 0x08 => 5 | 0x0F => 6 | 0x0C => 7 | 0x0D => 8 | 0x05 => 9
  | 0x02 => 10 | 0x03 => 11 | 0x06 => 12 | 0x04 => 13 | 0x01 => 14 | 0x0B => 15 | 0x0A => 16 | 0x11 => 17 | _ => 18
/-- The status a completion carries when these apply (R311); SUCCESS when none does. -/
def firstStatus (l : List Nat) : Nat := l.foldl (fun a b => if statusRank b < statusRank a then b else a) 0
/-- The status of a list of conditions: those that hold apply. -/
def failStatus (l : List (Bool × Nat)) : Nat := firstStatus ((l.filter (fun c => c.1)).map (fun c => c.2))
/-- The first of checks made in a stated order that fails (R311). -/
def firstFail (l : List (Bool × Nat)) : Option Nat := (l.find? (fun c => c.1)).map (fun c => c.2)

def stSuccess : Nat := 0x00
def stBusy : Nat := 0x01
def stOpcode : Nat := 0x02
def stField : Nat := 0x03
def stResource : Nat := 0x04
def stPermit : Nat := 0x05
def stState : Nat := 0x06
def stAborted : Nat := 0x07
def stPageFault : Nat := 0x08
def stIntegrity : Nat := 0x09
def stSaturated : Nat := 0x0A
def stProbe : Nat := 0x0B
def stRope : Nat := 0x0C
def stAuth : Nat := 0x0D
def stScrub : Nat := 0x0E
def stTimeout : Nat := 0x0F
def stDevice : Nat := 0x10
def stDegraded : Nat := 0x11

/-! ### Status registers -/

def boolBit (b : Bool) (i : Nat) : Nat := if b then 2 ^ i else 0

/-- HB_STATUS as a function on a port reads it (R297). -/
def hbStatus (s : State) (p : Port) (f : Nat) : W32 :=
  let t := getP s (partOfFn f)
  let anyP (g : Part → Bool) := (List.range 16).any (fun k => (getP s k).st ≠ .free && g (getP s k))
  let conf := if f = 0 then false else t.st ≠ .free && confidential t
  let dbg := if f = 0 then anyP debugMode else t.st ≠ .free && debugMode t
  BitVec.ofNat 32 (boolBit (p = .B) 31 + f * 2 ^ 24 + boolBit dbg 9 + boolBit conf 8 +
    boolBit (getPort s (otherPort p)).tunnel 7 + boolBit (liveFn s p f) 6 + boolBit ((getFn s p f).evtDrop ≠ 0) 5 +
    boolBit (busyRappel s p) 4 + boolBit (busyAttn s p) 3 + boolBit (busyAdminFull s p) 2 + boolBit s.cmc.busyReset 1 +
    boolBit (getPort s p).hrdy 0)

/-- STATE codes of HB_FW_STATE (R300). -/
def fwCode : FwSt → Nat
  | .bedrock => 0
  | .starting => 1
  | .running => 2
  | .stalled => 3
  | .fault => 4
  | .authFail => 5
/-- HB_FW_STATE (R300) (DESIGN CHOICE, notes/assumptions/49). -/
def hbFwState (s : State) : W32 :=
  let v (x : Nat) : Nat := match s.cmc.fw with
    | .bedrock => 0
    | _ => x
  BitVec.ofNat 32 (v s.sec.running.major * 2 ^ 24 + v s.sec.running.minor * 2 ^ 16 + (min s.cmc.restarts 255) * 2 ^ 8 +
    boolBit s.sec.staged.isSome 4 + fwCode s.cmc.fw)

end Sys2Proof.Machine
end

