-- ==== Sys2Proof/Machine/Issue.lean ====
section
/-!
DEFINITION. Issue and completion on a ridge sequencer: when a context can issue (R118, R179 to R182, R212, R214, R287), the fault and rope checks every instruction meets, the window (R180), the completions that follow one another inside a step (SIG, HALT: R184, R206), and the aborting of ropes (R289).
-/

namespace Sys2Proof.Machine

/-! ### Holds (R105, R116 to R118, R380, R442) -/

/-- A ridge's effective issue duty in sixteenths: the lower of Prorvafort's and the PMU's (R117) (DESIGN CHOICE, notes/assumptions/45). -/
def dutyOf (s : State) (r : Nat) : Nat := 16 - max (tget 0 s.thermal.duty r) (tget 0 s.pmu.cut r)
/-- Issue is held at duty 0: a peak, critical, input or calibration hold (R118, R161). -/
def held (s : State) (r : Nat) : Bool :=
  s.pmu.peak.isSome || tget false s.pmu.crit r || s.pmu.inputLow || s.pmu.refLost || decide (dutyOf s r = 0) ||
    (match (getR s r).calHold with
      | some t => decide (s.now < t)
      | none => false)
/-- A power domain (R446). -/
def domOn (s : State) (d : Nat) : Bool := (tget Dom.reset s.pmu.dom d).st = .on
/-- The four domains of a ridge: ids 4n to 4n + 3 (R443). -/
def ridgeUp (s : State) (r : Nat) : Bool := (List.range 4).all (fun k => domOn s (4 * r + k))

/-! ### Ropes: claims, events and aborts (R285 to R290) -/

/-- The resources an action claims (R285): kind and two indexes. -/
def claimsOf : Action → List (Nat × Nat × Nat)
  | .tileMap r p _ _ => [(1, r, p)]
  | .rescaleHalf r t => [(2, r, t)]
  | .belayMap r t _ => [(3, r, t)]
  | .drain r k _ => [(4, r, k)]
  | .spill r k _ => [(4, r, k)]
  | .signal _ _ _ => []
  | .cairnCommit p j => [(7, p, j.toNat)]
  | .fwCommit => [(8, 0, 0)]
  | .layout p _ => [(9, p, 0)]
/-- Action code (R285). -/
def actionCode : Action → Nat
  | .tileMap _ _ _ _ => 1
  | .rescaleHalf _ _ => 2
  | .belayMap _ _ _ => 3
  | .drain _ _ _ => 4
  | .spill _ _ _ => 5
  | .signal _ _ _ => 6
  | .cairnCommit _ _ => 7
  | .fwCommit => 8
  | .layout _ _ => 9

def ropeUndecided (e : Rope) : Bool := e.st = .opened || e.st = .staged || e.st = .locked
/-- The undecided rope, other than e, that holds one of these claims. -/
def claimHolder (s : State) (e : Nat) (cl : List (Nat × Nat × Nat)) : Option Nat :=
  (s.ropes.find? (fun x => x.1 ≠ e && ropeUndecided x.2 && x.2.actions.any (fun a => (claimsOf a).any cl.contains))).map
    (fun x => x.1)
/-- A resource is locked: work that reads or writes it is held at issue (R287, step 2). -/
def lockedClaim (s : State) (c : Nat × Nat × Nat) : Bool :=
  s.ropes.any (fun x => x.2.st = .locked && x.2.actions.any (fun a => (claimsOf a).contains c))
/-- A resource is claimed by an undecided rope. -/
def claimed (s : State) (c : Nat × Nat × Nat) : Bool :=
  s.ropes.any (fun x => ropeUndecided x.2 && x.2.actions.any (fun a => (claimsOf a).contains c))

/-- Payload of a ROPE event (R290). -/
def ropePayload (e : Nat) (q : Rope) : List Byte :=
  layFields 32 [(0, 1, e), (1, 1, q.ridge), (2, 1, q.actions.length), (3, 1, q.attempt),
    (4, 2, q.actions.foldl (fun m a => m ||| 2 ^ actionCode a) 0), (6, 2, q.parts.foldl (fun m p => m ||| 2 ^ p) 0),
    (8, 4, q.job.toNat), (12, 1, q.fault), (13, 1, q.holder)]
/-- PARTITION of a ROPE event (R290). -/
def ropePart (q : Rope) : Nat := match q.parts with
  | [p] => p
  | _ => 0xFF

/-- The command that a service rope serves ends with ROPE_FAILED. -/
def ropeWhyFailed (s : State) (w : RopeWhy) : State :=
  match w with
  | .create q cid _ => completeAt s q cid stRope 0
  | .bind q cid _ => completeAt s q cid stRope 0
  | .firmware q cid => completeAt s q cid stRope 0
  | _ => s

/-- A job rope's ridge after an abort (R166, R212): drained slots are open again, the rope's window entries are gone, and the stream issues again from RBG, or stops. count: the abort counts towards the retries. again: the stream issues again at all. -/
def ropeUnwind (s : State) (r : Nat) (x : Ctx) (e : Nat) (again count : Bool) : State :=
  let rd := getR s r
  let mine := rd.win.filter (fun w => w.rope = some e)
  let rd1 := { rd with win := rd.win.filter (fun w => w.rope ≠ some e) }
  let rd2 := mine.foldl (fun (rd : RidgeSt) w =>
    if w.kind = .drain || w.kind = .waitSlot then
      let k := bits w.w 111 106
      { rd with slots := tset .reset rd.slots k { slotOf rd k with closing := false } }
    else rd) rd1
  let c := ctxOf rd2 x
  let c1 : CtxSt := match c.rope with
    | some o => if again then { c with rope := none, pc := o.startIdx, attempts := (if count then c.attempts + 1 else c.attempts) }
                else { c with rope := none }
    | none => c
  setR s r (setCtx rd2 x c1)

/-- Index of the REN that closes the rope opened at an index of the job stream (R213: ROPE_ABORTED is raised at REN). -/
def renIndex (s : State) (r start : Nat) : Nat :=
  match jobOn s r with
  | some j => match progPart s j r with
    | some g => start + ((g.stream.drop start).findIdx? (fun w => opOf w = 0x35)).getD 0
    | none => start
  | none => start

/-- Aborts an undecided rope with a cause (R289): claims, locks and shadow state go, a ROPE event is requested, a job stream issues again or stops, and a service rope's purpose fails. -/
def ropeAbort (s : State) (e cause fault holder : Nat) : State :=
  let q := getRope s e
  if !ropeUndecided q then s
  else
    let q1 := { q with st := .aborted, cause := cause, fault := fault, holder := holder }
    let s1 := setRope s e q1
    let s2 := raise s1 srcRope 0x0C cause (ropePart q) (ropePayload e q1)
    if e < 48 then
      let again := (cause ≠ 0x01 && cause ≠ 0x02 && cause ≠ 0x08) || (cause = 0x01 && fault = 0x12)
      let count := again && cause ≠ 0x05 && cause ≠ 0x01
      let start := (match (getR s e).jobCtx.rope with
        | some o => o.startIdx
        | none => 0)
      let s3 := ropeUnwind s2 e .job e again count
      if count && decide (4 ≤ (getR s3 e).jobCtx.attempts) then streamFault s3 e .job 0x10 (renIndex s e start) else s3
    else
      let s3 := (List.range 48).foldl (fun s r =>
        if (getR s r).win.any (fun w => w.rope = some e) || (match (getR s r).svcCtx.rope with
            | some o => o.entry = e
            | none => false) then ropeUnwind s r .service e false false else s) s2
      ropeWhyFailed s3 q.why

/-- A stream fault; an open rope of the context aborts with it (R212, R214, R289). -/
def faultAt (s : State) (r : Nat) (x : Ctx) (code idx : Nat) : State :=
  let s1 := match (ctxOf (getR s r) x).rope with
    | some o => ropeAbort s o.entry (if code = 0x0F then 0x08 else 0x01) code 0
    | none => s
  streamFault s1 r x code idx

/-! ### The window -/

/-- An issued instruction's entry. -/
def mkWin (rd : RidgeSt) (x : Ctx) (w : W128) (k : WinKind) : Win :=
  { id := rd.nextId, ctx := x, idx := (ctxOf rd x).pc, w := w, kind := k, lanes := [], half := false, stamp := 0, reads := [],
    writes := [], waited := 0, parts := 0, rope := none, aux := 0, staged := none }
def pushWin (s : State) (r : Nat) (w : Win) : State :=
  updR s r (fun rd => { rd with win := rd.win ++ [w], nextId := rd.nextId + 1 })
def findWin (s : State) (r id : Nat) : Option Win := (getR s r).win.find? (fun w => w.id = id)
def dropWin (s : State) (r id : Nat) : State :=
  updR s r (fun rd => { rd with win := rd.win.filter (fun w => w.id ≠ id) })
def updWin (s : State) (r id : Nat) (f : Win → Win) : State :=
  updR s r (fun rd => { rd with win := rd.win.map (fun w => if w.id = id then f w else w) })
/-- A probe that the sequencer inserted: no instruction of the stream (R207) (DESIGN CHOICE, notes/assumptions/56). -/
def insertedProbe (w : Win) : Bool := w.kind = .probe && opOf w.w ≠ 0x38
/-- Instructions of a context issued and not completed. -/
def ctxWin (rd : RidgeSt) (x : Ctx) : List Win := rd.win.filter (fun w => w.ctx = x && !insertedProbe w)

def overlaps (a b : LRange) : Bool :=
  a.ridge = b.ridge && decide (a.len ≠ 0) && decide (b.len ≠ 0) && decide (a.off / 32 * 32 < b.off + b.len) && decide (b.off / 32 * 32 < a.off + a.len) &&
    decide (a.off / 32 < (b.off + b.len + 31) / 32) && decide (b.off / 32 < (a.off + a.len + 31) / 32)
/-- The scoreboard admits these Loam ranges (R181). -/
def loamFree (s : State) (r : Nat) (reads writes : List LRange) : Bool :=
  (getR s r).win.all (fun e =>
    !(reads.any (fun a => e.writes.any (overlaps a))) && !(writes.any (fun a => e.writes.any (overlaps a) || e.reads.any (overlaps a))))
def rangeOf (o : LOp) (n : Nat) : LRange := ⟨o.ridge, o.off, n⟩

/-- A fault in execution of an issued instruction (R214): raised once; the instruction stays uncompleted. -/
def execFault (s : State) (r : Nat) (e : Win) (code : Nat) : State :=
  if (ctxOf (getR s r) e.ctx).fault = some (code, e.idx) then s else faultAt s r e.ctx code e.idx

/-! ### Completions inside a step -/

/-- Adds to a counter of a job's ridge, or of the saved job (R183, R184). -/
def addCounter (s : State) (p : Nat) (job : W32) (r cnt : Nat) (v : W32) : State :=
  if (getR s r).job = some (p, job) then updR s r (fun rd => { rd with cnt := tset 0 rd.cnt cnt (tget 0 rd.cnt cnt + v) })
  else updJob s p job (fun j =>
    match tfind j.saved r with
    | some sv => { j with saved := tput j.saved r { sv with cnt := tset 0 sv.cnt cnt (tget 0 sv.cnt cnt + v) } }
    | none => j)

/-- The ridge's part of a job ends when HALT completes (R206): its prefetchers are released (R243). -/
def endPart (s : State) (r : Nat) (code : W32) : State :=
  let s1 := updR s r (fun rd =>
    { rd with jobCtx := { rd.jobCtx with run := false, halted := some code }, prefetch := [] })
  match (getR s r).job with
  | some (p, id) => updJob s1 p id (fun j =>
      match progRidge j r with
      | some k => if j.ended.contains k then j else { j with ended := j.ended ++ [k] }
      | none => j)
  | none => s1

/-- Sends a SIG to a ridge of a job (R184): the own ridge's counter at once, another ridge's by a message, for the window entry win. -/
def sendSig (s : State) (p : Nat) (id : W32) (r q cnt : Nat) (v : W32) (win : Nat) : State :=
  if q = r then addCounter s p id r cnt v
  else { s with mem := { s.mem with next := s.mem.next + 1, sigs := s.mem.sigs ++ [⟨s.mem.next, q, cnt, v, p, id, r, win⟩] } }
/-- The physical ridge that a SIG names (R184). -/
def sigRidge (j : Job) (r tgt : Nat) : Option Nat := if tgt = 63 then some r else physRidge j tgt

/-- A SIG whose turn has come: its entry goes, or stays until the message lands. -/
def fireSig (s : State) (r : Nat) (w : Win) : State :=
  let cnt := bits w.w 111 106
  let v : W32 := BitVec.ofNat 32 (bits w.w 99 68)
  match (getR s r).job with
  | none => updR (dropWin s r w.id) r (fun rd => { rd with cnt := tset 0 rd.cnt cnt (tget 0 rd.cnt cnt + v) })
  | some (p, id) =>
    match findJob s p id with
    | none => dropWin s r w.id
    | some j =>
      match sigRidge j r (bits w.w 105 100) with
      | none => dropWin s r w.id
      | some q =>
        if q = r then sendSig (dropWin s r w.id) p id r q cnt v w.id
        else updWin (sendSig s p id r q cnt v w.id) r w.id (fun w => { w with kind := .remote })

/-- Settles a context: in order, a SIG with nothing earlier uncompleted is made, and a HALT with nothing earlier uncompleted completes. -/
def settleCtxAux : Nat → State → Nat → Ctx → State
  | 0, s, _, _ => s
  | n + 1, s, r, x =>
    match ctxWin (getR s r) x with
    | [] => s
    | w :: _ =>
      if w.kind = .sig then settleCtxAux n (fireSig s r w) r x
      else if w.kind = .halt then
        match x with
        | .job => endPart (dropWin s r w.id) r (BitVec.ofNat 32 (bits w.w 111 80))
        | .service => updCtx (dropWin s r w.id) r .service (fun c => { c with halted := some (BitVec.ofNat 32 (bits w.w 111 80)) })
      else s
def settleCtx (s : State) (r : Nat) (x : Ctx) : State := settleCtxAux ((getR s r).win.length + 1) s r x
/-- An instruction completes: its entry goes, and what waited for it follows. -/
def retire (s : State) (r id : Nat) : State :=
  match findWin s r id with
  | some w => settleCtx (dropWin s r id) r w.ctx
  | none => s

/-! ### Issue -/

/-- What an instruction does when it reaches issue: waits, stops the stream, or goes on in a next state. -/
inductive Iss where
  | wait
  | fault (code : Nat)
  | next (s : State)
  /-- a next state in which the instruction has not issued -/
  | stay (s : State)
  deriving DecidableEq, Repr

/-- The instruction at the head of a job context: the image's stream at the next index (R180, R188). -/
def streamHead (s : State) (r : Nat) : Option W128 :=
  match jobOn s r with
  | some j => match progPart s j r with
    | some g => g.stream[(getR s r).jobCtx.pc]?
    | none => none
  | none => none

/-- A context can issue this word now: running, not held, not stopped, no WAIT before it, a rope's outcome not awaited, room in the window and in the ridge's Col queue (R118, R179, R180, R185, R212, R213, R277). -/
def canIssue (s : State) (r : Nat) (x : Ctx) (w : W128) : Bool :=
  let rd := getR s r
  let c := ctxOf rd x
  ridgeUp s r && !held s r && !rd.test.running && !rd.failed && srcRoom s r && c.waiting.isNone &&
    (match c.rope with | some o => !o.ended | none => true) && decide (rd.win.length < 1024) &&
    !(fenceOf w && !(ctxWin rd x).isEmpty) &&
    (match x with
      | .job => c.run && c.fault.isNone && c.halted.isNone && (match jobOn s r with | some j => j.st = .running | none => false) &&
          streamHead s r = some w
      | .service => s.cmc.fw = .running && decide ((ctxWin rd .service).length < 32))

/-- Opcodes that are legal inside a rope (R212, items 1 and 2). -/
def ropeLegal (x : Ctx) (w : W128) : Bool :=
  let o := opOf w
  o = 0x19 || o = 0x1A || o = 0x31 || o = 0x35 || (x = .service && o = 0x3A)

/-- The fault an instruction meets whatever it names: a reserved opcode, field or code (R11), a privileged opcode in a job stream (R179), or an opcode not allowed in the open rope (R212). -/
def issueFault (s : State) (r : Nat) (x : Ctx) (w : W128) : Option Nat :=
  if x = .job && (opOf w = 0x38 || opOf w = 0x39 || opOf w = 0x3A) then some 0x02
  else if reservedBad (x = .job) w then some 0x01
  else if (ctxOf (getR s r) x).rope.isSome && !ropeLegal x w then some 0x0F
  else if (ctxOf (getR s r) x).rope.isNone && opOf w = 0x35 then some 0x0F
  else none

/-- The next instruction of the context. -/
def advance (s : State) (r : Nat) (x : Ctx) : State := updCtx s r x (fun c => { c with pc := c.pc + 1 })

/-- One instruction at issue: nothing when the row's opcode is another one or the context cannot issue; a fault stops the stream precisely (R214); otherwise the body decides. -/
def issue (s : State) (r : Nat) (x : Ctx) (w : W128) (op : Nat) (body : State → Iss) : Out :=
  if opOf w = op && canIssue s r x w then
    match issueFault s r x w with
    | some code => .next (faultAt s r x code (ctxOf (getR s r) x).pc)
    | none =>
      match body s with
      | .wait => .next s
      | .fault code => .next (faultAt s r x code (ctxOf (getR s r) x).pc)
      | .next t => .next (settleCtx (advance t r x) r x)
      | .stay t => .next t
  else .next s

/-- Issues by taking a window entry. -/
def issueWin (s : State) (r : Nat) (w : Win) : Iss := .next (pushWin s r w)

end Sys2Proof.Machine
end

