-- ==== Sys2Proof/Machine/Analog.lean ====
section
/-!
DEFINITION. What a tile makes of its input: digits (R62), the headroom guard (R77 to R79), conversions (R75, R76, R81, R83), the tile tree with its magnitude companion (R144 to R146), scree corrections (R35, R134), and the ridge tree (R147). An analogue deviation of a conversion is an operand of the completing command (R85, DESIGN CHOICE, notes/assumptions/4).
-/

namespace Sys2Proof.Machine

/-! ### Digits and the guard -/

/-- Digit of a code in phase 0 (H) or 1 (L) (R62). -/
def digit (four : Bool) (phase : Nat) (x : Int) : Int :=
  let m : Int := if phase = 0 then (x.natAbs / 16 : Nat) else (x.natAbs % 16 : Nat)
  if four then (if phase = 0 then 0 else x) else if x < 0 then -m else m
/-- The phases an input drives, before skipping (R62). -/
def phasesOf (four : Bool) : List Nat := if four then [1] else [0, 1]
/-- Rows of a row group, or of one of its sub-groups of 64, with their non-zero digits. -/
def digitsIn (b : InBuf) (phase lo n : Nat) : List (Nat × Int) :=
  (b.codes.filter (fun x => decide (lo ≤ x.1) && decide (x.1 < lo + n))).filterMap (fun x =>
    let d := digit b.fourBit phase x.2
    if d = 0 then none else some (x.1, d))
/-- L1 over rows (R77). -/
def l1 (ds : List (Nat × Int)) : Nat := ds.foldl (fun a x => a + x.2.natAbs) 0
/-- A tile fires when some phase has a non-zero digit (R81). -/
def fires (b : InBuf) : Bool :=
  b.fed && (phasesOf b.fourBit).any (fun ph => !(digitsIn b ph 0 1024).isEmpty)

/-- LSB of a range (R75). -/
def lsb (r : Nat) : Nat := 8 * 4 ^ r
/-- Guard threshold T_r (R75). -/
def thr (r : Nat) : Nat := 119 * lsb r

def rdMode (c : W32) : Bool := bitAt c 14
def rdFix (c : W32) : Nat := bits c 16 15
/-- Largest absolute level of data pair j in row group g (R52, R77). -/
def maxLevel (t : Tile) (g j : Nat) : Nat := tget 0 t.colMax (g * 512 + j)
def maxOfGroup (t : Tile) (g : Nat) : Nat :=
  (t.colMax.filter (fun x => x.1 / 512 = g)).foldl (fun a x => max a x.2) 0
/-- Row group g is split in a phase (R78). -/
def splits (mvms : Bool) (k : Nat) (cfg : W32) (t : Tile) (b : InBuf) (g phase : Nat) : Bool :=
  let l := l1 (digitsIn b phase (256 * g) 256)
  mvms || l = 3840 || (!rdMode cfg && decide (thr 3 * 4 ^ k < maxOfGroup t g * l))
/-- Range of a conversion whose bound is B (R79). -/
def rangeFor (cfg : W32) (k bound : Nat) : Nat :=
  if rdMode cfg then rdFix cfg
  else ((List.range 4).find? (fun r => decide (bound ≤ thr r * 4 ^ k))).getD 3

/-- The physical pair that serves data pair j under a belay map (R27, R43). -/
def servedPair (belay : Tbl W16) (j : Nat) : Nat :=
  match belay.find? (fun e => bitAt e.2 15 && bits e.2 9 0 = j) with
  | some e => 512 + e.1
  | none => j

/-! ### One conversion -/

/-- What a conversion hands to the tree: value, magnitude, clipped; none when nothing is converted. -/
structure Conv where
  v : Int
  clip : Bool
  on : Bool
  deriving DecidableEq, Repr, Inhabited

def Conv.off : Conv := ⟨0, false, false⟩

def devAt (devs : List AdcDev) (pos phase sub group pair : Nat) : Int :=
  match devs.find? (fun d => d.pos = pos && d.phase = phase && d.sub = sub && d.group = group && d.pair = pair) with
  | some d => d.dev
  | none => 0

/-- Code of a column signal (R75): the nearest integer, moved by the analogue deviation, limited (DESIGN CHOICE, notes/assumptions/4). -/
def adcCode (sgn : Int) (r : Nat) (dev : Int) : Int := clampI (-128) 127 (rheDiv sgn (lsb r) + dev)

/-- Converts pair j over the driven rows (R63, R75, R79, R83). -/
def convert (t : Tile) (cfg : W32) (belay : Tbl W16) (k j : Nat) (bound : Nat) (ds : List (Nat × Int)) (dev : Int) : Conv :=
  if ds.isEmpty then .off
  else
    let pp := servedPair belay j
    let sgn := ds.foldl (fun a x => a + x.2 * tget 0 t.cells (x.1 * 1024 + pp)) 0
    let r := rangeFor cfg k bound
    let c := adcCode sgn r dev
    ⟨c * (lsb r : Int), c = 127 || c = -128, true⟩

/-! ### The tile tree (R145, R146) -/

/-- A tree value: exact sum, companion, clips met, conversions clipped. -/
structure TV where
  v : Int
  comp : W32
  clip : Bool
  nclip : Nat
  deriving DecidableEq, Repr, Inhabited

def TV.zero : TV := ⟨0, 0, false, 0⟩
def tvAdd (a b : TV) : TV := ⟨a.v + b.v, f32Add a.comp b.comp, a.clip || b.clip, a.nclip + b.nclip⟩
/-- A conversion at weight w of levels 2 and 3; its value is weighted where those levels add. -/
def tvOf (w : Nat) (c : Conv) : TV :=
  if c.on then ⟨c.v, f32OfInt (c.v.natAbs * w : Nat), c.clip, if c.clip then 1 else 0⟩ else .zero

/-- Level 1: a phase of one pair in one row group. -/
def phaseSum (mvms : Bool) (k : Nat) (cfg : W32) (t : Tile) (belay : Tbl W16) (b : InBuf) (devs : List AdcDev)
    (pos g j phase w : Nat) : TV :=
  let all := digitsIn b phase (256 * g) 256
  if splits mvms k cfg t b g phase then
    let kk := if l1 all = 3840 then 0 else k
    let sub (q : Nat) : TV :=
      let ds := digitsIn b phase (256 * g + 64 * q) 64
      tvOf w (convert t cfg belay kk j (maxLevel t g j * l1 ds) ds (devAt devs pos phase q g j))
    tvAdd (tvAdd (sub 0) (sub 1)) (tvAdd (sub 2) (sub 3))
  else tvOf w (convert t cfg belay k j (maxLevel t g j * l1 all) all (devAt devs pos phase 0 g j))

/-- Level 2 of one pair: 16 × H + L, or L alone. -/
def pairSum (mvms : Bool) (k : Nat) (cfg : W32) (t : Tile) (belay : Tbl W16) (b : InBuf) (devs : List AdcDev)
    (pos g j w : Nat) : TV :=
  let l := phaseSum mvms k cfg t belay b devs pos g j 1 w
  if b.fourBit then l
  else
    let h := phaseSum mvms k cfg t belay b devs pos g j 0 (16 * w)
    tvAdd { h with v := 16 * h.v } l

/-- Level 3: the column's conversions in row group g; W11D joins its high and low pairs (R30). -/
def colSum (fmt : Nat) (mvms : Bool) (k : Nat) (cfg : W32) (t : Tile) (belay : Tbl W16) (b : InBuf) (devs : List AdcDev)
    (pos g c : Nat) : TV :=
  if fmt = 0x11 then
    let lo := pairSum mvms k cfg t belay b devs pos g (2 * c) 1
    let hi := pairSum mvms k cfg t belay b devs pos g (2 * c + 1) 16
    tvAdd { hi with v := 16 * hi.v } lo
  else pairSum mvms k cfg t belay b devs pos g c 1

/-! ### Scree corrections (R35, R134) -/

def f16Val (w : W16) : W32 := f32Enc (fTame fFP16 (fDecode fFP16 w.toNat))
/-- An FP32 product as an integer, limited to INT40 (R142). -/
def screeInt (a b : W32) : Int := clampI int40Min int40Max (qRound (f32Val (f32Mul a b)))
/-- Weight scree correction of column c in row group g: rows with a non-zero code. -/
def weightScree (gd : Golden) (b : InBuf) (g c : Nat) : Int :=
  (gd.scree.filter (fun e => e.col = c && e.row / 256 = g)).foldl (fun a e =>
    let x := tget 0 b.codes e.row
    if x = 0 then a else a + screeInt (f32OfInt x) (f16Val e.value)) 0
/-- The weight an escape meets: the golden level, or the scree value where the golden value holds a mark. -/
def goldenWeight (gd : Golden) (row c : Nat) : W32 :=
  match gd.scree.find? (fun e => e.row = row && e.col = c) with
  | some e => f16Val e.value
  | none => f32OfInt (tget 0 gd.level (row * 512 + c))
/-- Input scree correction of column c in row group g. -/
def inputScree (gd : Golden) (b : InBuf) (g c : Nat) : Int :=
  (b.scree.filter (fun e => e.1 / 256 = g)).foldl (fun a e => a + screeInt e.2 (goldenWeight gd e.1 c)) 0

/-- Levels 1 to 3 of a fenced position: the exact sum of code × golden level (R145). -/
def exactSum (gd : Golden) (b : InBuf) (g c : Nat) : Int :=
  (b.codes.filter (fun x => x.1 / 256 = g)).foldl (fun a x => a + x.2 * tget 0 gd.level (x.1 * 512 + c)) 0

/-! ### Alignment and the tile's result -/

/-- Alignment of a leaf (R144): value, and whether it saturated. -/
def alignLeaf (eg es x : Int) : Int × Bool :=
  let sh := eg - es
  if sh ≥ 0 then
    let y := x * 2 ^ sh.toNat
    let lim := clampI (-(2 ^ 47)) (2 ^ 47 - 1) y
    (lim, decide (lim ≠ y))
  else if sh < -62 then (0, false)
  else (rheDiv x (2 ^ (-sh).toNat), false)
/-- Companion at level 5: × 2^s; below the smallest subnormal it becomes 0 (R146). -/
def alignComp (eg es : Int) (c : W32) : W32 :=
  let q := qScale (f32Val c) (eg - es)
  if qLt q (qPow2 (-149)) then 0 else f32OfQ q

/-- A tile's result for one column: value, companion, leaf saturated, clipped, conversions clipped. -/
structure TileOut where
  v : Int
  comp : W32
  sat : Bool
  clip : Bool
  nclip : Nat
  deriving DecidableEq, Repr, Inhabited

def TileOut.zero : TileOut := ⟨0, 0, false, false, 0⟩
def toAdd (a b : TileOut) : TileOut :=
  ⟨a.v + b.v, f32Add a.comp b.comp, a.sat || b.sat, a.clip || b.clip, a.nclip + b.nclip⟩

/-- Levels 1 to 5 of one row group of a lane's column. -/
def groupOut (fmt : Nat) (mvms : Bool) (k : Nat) (es : Int) (t : Tile) (gd : Option Golden) (ln : Lane) (devs : List AdcDev)
    (eg : Int) (c g : Nat) : TileOut :=
  let b := ln.buf
  let base : TV :=
    if ln.fallback then
      match gd with
      | some gd => ⟨exactSum gd b g c, 0, false, 0⟩
      | none => .zero
    else if ln.fired then colSum fmt mvms k ln.rdcfg t ln.belay b devs ln.pos g c
    else .zero
  let scree := match gd with
    | some gd => weightScree gd b g c + inputScree gd b g c
    | none => 0
  let (v, sat) := alignLeaf eg es (base.v + scree)
  ⟨v, alignComp eg es base.comp, sat, base.clip, base.nclip⟩

/-- The tile tree's level 6 for a logical column (R145); W11D has columns 0 to 255 only (R149). -/
def tileCol (fmt : Nat) (mvms : Bool) (k : Nat) (es : Int) (t : Tile) (gd : Option Golden) (ln : Lane) (devs : List AdcDev)
    (c : Nat) : TileOut :=
  if fmt = 0x11 && decide (256 ≤ c) then .zero
  else
    let o (g : Nat) := groupOut fmt mvms k es t gd ln devs (tget 0 ln.buf.exps g) c g
    toAdd (toAdd (o 0) (o 1)) (toAdd (o 2) (o 3))

/-- The format behind a lane: its golden record's, else its tile's journal. -/
def laneFmt (t : Tile) (gd : Option Golden) : Nat := match gd with
  | some g => g.format
  | none => t.jr.format

/-! ### The ridge tree (R147) -/

/-- The root over 32 leaves in active-position order. -/
def ridgeTree (leaves : List TileOut) : TileOut := treeSum toAdd .zero leaves

end Sys2Proof.Machine
end

