-- ==== Sys2Proof/Machine/Vector.lean ====
section
/-!
DEFINITION. Stream control and vector loads: NOP and HALT (R189, R206), VLD and its completion (R190, R191, R127 to R134, R245).
-/

namespace Sys2Proof.Machine

/-- NOP completes at issue (R189). -/
def execNop (r : Ridge) (x : Ctx) (w : W128) (s : State) : Out := issue s r x w 0x00 (fun s => .next s)

/-- HALT takes a window entry and completes once every earlier instruction of its context has (R189, R206). -/
def execHalt (r : Ridge) (x : Ctx) (w : W128) (s : State) : Out :=
  issue s r x w 0x01 (fun s => issueWin s r (mkWin (getR s r) x w .halt))

/-! ### VLD -/

def vldEsc (w : W128) : Bool := bitAt w 118
def vldMode (w : W128) : Nat := bits w 117 116
def vldSrc (w : W128) : Nat := bits w 111 85
def vldFmt (w : W128) : Nat := bits w 84 80
def vldLen (w : W128) : Nat := bits w 79 65 + 1
def vldFeed (w : W128) : Nat := bits w 64 55
def vldFix (w : W128) : Int := sbits w 54 46
def vldList (w : W128) : Nat := bits w 45 19
/-- The VLD reads an escape side list (R132). -/
def vldSide (w : W128) : Bool := fmtInt (vldFmt w) && vldEsc w

/-- Bytes of the side list at an operand, by the COUNT it holds now (DESIGN CHOICE, notes/assumptions/60). -/
def sideLen (s : State) (o : LOp) : Nat :=
  let n := leNat (loamBytes (getR s o.ridge) o.ridge o.off 4)
  if 1024 < n then 8 else 8 + 8 * n

/-- The slot of an active RING prefetcher in which an offset of the own Loam lies: prefetcher and slot number (R245). -/
def ringSlot (rd : RidgeSt) (off : Nat) : Option (Nat × Nat) :=
  (rd.prefetch.find? (fun k => k.2.active && k.2.ring && decide (k.2.dst ≤ off) &&
      decide (off < k.2.dst + k.2.slots * ((k.2.rowBytes + 255) / 256 * 256)))).map
    (fun k => (k.1, (off - k.2.dst) / ((k.2.rowBytes + 255) / 256 * 256)))
/-- The row due in a slot has been written. -/
def ringReady (f : Prefetch) (slot : Nat) : Bool := f.busy.any (fun row => row % f.slots = slot)
/-- A VLD whose SRC begins in a slot of a RING prefetcher must wait (R245). -/
def ringWait (rd : RidgeSt) (off : Nat) : Bool :=
  match ringSlot rd off with
  | some (k, slot) =>
    let f := tget .free rd.prefetch k
    !ringReady f slot && decide (f.filled < f.rows)
  | none => false
/-- A RING prefetcher that stopped on a fault reports it when a VLD waits on the unfilled slot (R245, R262). -/
def ringFault (rd : RidgeSt) (off : Nat) : Option Nat :=
  match ringSlot rd off with
  | some (k, slot) =>
    let f := tget .free rd.prefetch k
    if ringReady f slot then none else f.faulted
  | none => none
/-- Frees the slot that a completed VLD consumed; the prefetcher is released with its last row (R244). -/
def ringConsume (rd : RidgeSt) (off : Nat) : RidgeSt :=
  match ringSlot rd off with
  | some (k, slot) =>
    let f := tget .free rd.prefetch k
    match f.busy.find? (fun row => row % f.slots = slot) with
    | some row =>
      let f1 := { f with busy := f.busy.filter (fun x => x ≠ row) }
      let f2 := if f1.filled = f1.rows && f1.busy.isEmpty then Prefetch.free else f1
      { rd with prefetch := tset .free rd.prefetch k f2 }
    | none => rd
  | none => rd

/-- What a VLD reads: source bytes and, for an escaped integer source, the side list. -/
def vldReads (s : State) (r : Nat) (w : W128) : Option (LOp × Option LOp) :=
  match laOp s r (vldSrc w) (vecBytes (vldFmt w) (vldLen w)) (fmtAlign (vldFmt w)) false with
  | none => none
  | some o =>
    if vldSide w then
      match laOp s r (vldList w) 8 8 false with
      | none => none
      | some l => match laOp s r (vldList w) (sideLen s l) 8 false with
        | none => none
        | some l => some (o, some l)
    else some (o, none)

/-- The Loam ranges that a VLD reads (R181). -/
def vldRanges (s : State) (w : W128) (o : LOp) (l : Option LOp) : List LRange :=
  rangeOf o (vecBytes (vldFmt w) (vldLen w)) :: (match l with
    | some l => [rangeOf l (sideLen s l)]
    | none => [])

/-- VLD at issue (R181, R190, R191, R245). -/
def execVld (r : Ridge) (x : Ctx) (w : W128) (s : State) : Out :=
  issue s r x w 0x08 (fun s =>
    let rd := getR s r
    match feedSegs rd.feed rd.segs (vldFeed w) with
    | none => .fault 0x05
    | some fs =>
      if !feedFits fs (vldLen w) || (fmtMX (vldFmt w) && decide (vldLen w % 32 ≠ 0)) then .fault 0x05
      else match vldReads s r w with
        | none => .fault 0x03
        | some (o, l) =>
          let reads := vldRanges s w o l
          if !loamFree s r reads [] then .wait
          else if o.ridge = r.val && (ringFault rd o.off).isSome then
            -- the ring's fault is posted now (R262) and the VLD waits
            match (ringSlot rd o.off), jobOn s r with
            | some (k, _), some j =>
              let f := tget .free rd.prefetch k
              let s1 := mmuFault s r j.part j.id 2 ((progRidge j r).getD 0xFF) ((f.faulted.getD 0) / 2 ^ 8) ((f.src : Int) + f.filled * f.stride).toNat 0
                ((f.faulted.getD 0) % 2 ^ 8) f.desc (ctxOf rd x).pc 0
              .stay (updR s1 r (fun rd => { rd with prefetch := tset .free rd.prefetch k { f with faulted := none } }))
            | _, _ => .wait
          else if o.ridge = r.val && ringWait rd o.off then .wait
          else issueWin s r { mkWin rd x w .vld with reads := reads, aux := vldFeed w })

/-- Reads and converts a VLD's vector for every position of its feed (R127 to R133); none when a check of R132 fails. -/
def vldConvert (w : W128) (fs : List Seg) (data side : List Byte) : Option (List (Nat × InBuf)) :=
  let f := vldFmt w
  let els := eltsOf f (vldLen w) data
  if fmtInt f then
    let sl := if vldEsc w && (escCode f).isSome then sideList side else some []
    match sl with
    | none => none
    | some sl =>
      let extra := vldEsc w &&
        (sl.any (fun e => !(decide (e.1 < vldLen w) && escCode f = some (rawAt f data e.1))) ||
          (List.range (vldLen w)).any (fun i => escCode f = some (rawAt f data i) && !(sl.any (fun e => e.1 = i))))
      some ((feedPositions fs).map (fun p => (p, convInt f (vldEsc w) els sl (rawAt f data) extra (feedRows fs p))))
  else some ((feedPositions fs).map (fun p => (p, convFp (vldEsc w) (vldMode w) (vldFix w) els (feedRows fs p))))

/-- The golden record behind a position of a ridge (R51). -/
def goldenOf (s : State) (r p : Nat) : Option Golden :=
  match ownerOf s r with
  | some q => ((getP s q).wsets.flatMap (fun x => x.golden)).find? (fun g => g.ridge = r && g.pos = p)
  | none => none

/-- What a VLD reads as it completes: its bytes, its side list, and whether a CDU of either is poisoned. -/
def vldBytes (s : State) (w : W128) (o : LOp) (l : Option LOp) : List Byte × List Byte × Bool :=
  let data := ldLoam s o (vecBytes (vldFmt w) (vldLen w))
  match l with
  | some l =>
    let side := ldLoam s l (sideLen s l)
    (data.1, side.1, data.2 || side.2)
  | none => (data.1, [], data.2)
/-- An escape of these buffers would need a poisoned golden record (R51). -/
def escapesPoisoned (s : State) (r : Nat) (bufs : List (Nat × InBuf)) : Bool :=
  bufs.any (fun b => !b.2.scree.isEmpty) && bufs.any (fun b => match goldenOf s r b.1 with
    | some g => g.poisoned
    | none => false)
/-- How an uncompleted VLD ends when its turn comes: with a fault, or with the buffers of its positions, read from o. -/
inductive VldEnd where
  | fault (code : Nat)
  | buffers (o : LOp) (bufs : List (Nat × InBuf))
  deriving DecidableEq, Repr
/-- The end of the VLD of a window entry, once every earlier VLD of the ridge has completed (R189, R191). -/
def vldEnd (s : State) (r : Nat) (e : Win) : Option VldEnd :=
  let rd := getR s r
  if e.kind ≠ .vld || rd.win.any (fun v => v.kind = .vld && decide (v.id < e.id)) then none
  else match feedSegs rd.feed rd.segs (vldFeed e.w), vldReads s r e.w with
    | some fs, some (o, l) =>
      let b := vldBytes s e.w o l
      if b.2.2 then some (.fault 0x11)
      else match vldConvert e.w fs b.1 b.2.1 with
        | none => some (.fault 0x05)
        | some bufs => if escapesPoisoned s r bufs then some (.fault 0x11) else some (.buffers o bufs)
    | _, _ => none
/-- The positions of a feed take their buffers, exponents and scree lists; CLAMPED is the whole vector's (R127 to R133). -/
def putBuffers (s : State) (r : Nat) (bufs : List (Nat × InBuf)) : State :=
  let clamped := bufs.any (fun b => b.2.clamped)
  bufs.foldl (fun s b => updPos s r b.1 (fun q => { q with buf := { b.2 with clamped := clamped } })) s
/-- Golden rows for escapes are staged: the staging region's bytes become ones the spec leaves open (R134) (DESIGN CHOICE, notes/assumptions/60). -/
def stageGolden (s : State) (r : Nat) (bufs : List (Nat × InBuf)) : State :=
  if bufs.any (fun b => !b.2.scree.isEmpty) then
    match (getR s r).regions.find? (fun g => g.kind = 4) with
    | some g => useFree (updR s r (fun rd => loamJunk rd g.off g.size s.free))
    | none => s
  else s
/-- A VLD's effect: buffers replaced, golden rows staged, and a ring slot it read from its own ridge freed (R244). -/
def vldEffect (s : State) (r : Nat) (o : LOp) (bufs : List (Nat × InBuf)) : State :=
  let s1 := stageGolden (putBuffers s r bufs) r bufs
  if o.ridge = r then updR s1 r (fun rd => ringConsume rd o.off) else s1

/-- VLD completes (R189): buffers, exponents and scree lists replaced, golden rows staged (R134), a ring slot freed (R244). -/
def execVldComplete (r : Ridge) (id : Nat) (s : State) : Out :=
  match findWin s r id with
  | none => .next s
  | some e => match vldEnd s r e with
    | none => .next s
    | some (.fault code) => .next (execFault s r e code)
    | some (.buffers o bufs) => .next (retire (vldEffect s r o bufs) r id)

end Sys2Proof.Machine
end

