-- ==== Sys2Proof/Machine/Mvm.lean ====
section
/-!
DEFINITION. Matrix-vector products: MVM and MVMS at issue (R192, R207, R368) and the commit of their contribution (R147, R157 to R159, R370, R84).
-/

namespace Sys2Proof.Machine

def mvmMask (w : W128) : Nat := bits w 111 80
def mvmSlot (w : W128) : Nat := bits w 79 74
def mvmRelax (w : W128) : Nat := bits w 118 117
def mvmPositions (w : W128) : List Nat := (List.range 32).filter (fun p => (mvmMask w).testBit p)

/-- The weight set of a partition that holds a position of a ridge. -/
def wsetOf (s : State) (r p : Nat) : Option Wset :=
  match ownerOf s r with
  | some q => (getP s q).wsets.find? (fun x => x.golden.any (fun g => g.ridge = r && g.pos = p))
  | none => none

/-- An engine works on a tile (R40). -/
def engineOn (rd : RidgeSt) (t : Nat) : Bool := match rd.engine with
  | some o => o.tile = t
  | none => false

/-- A position serves an MVM: of the RESIDENT weight set (bound to the job, for a job stream), and CLEAN or FENCED (R192). -/
def serviceable (s : State) (r : Nat) (x : Ctx) (p : Nat) : Bool :=
  let rd := getR s r
  match wsetOf s r p with
  | none => false
  | some ws =>
    ws.st = .resident &&
      (match x with
        | .service => true
        | .job => match jobOn s r with
          | some j => match findProg s j.part j.prog with
            | some g => g.wset = ws.id
            | none => false
          | none => false) &&
      (fencedAt rd p || ((tileOf rd (physOf rd p)).jr.state = .clean && !engineOn rd (physOf rd p)))

/-- The probe interval of the partition that owns a ridge (R362). -/
def probeInterval (s : State) (r : Nat) : Nat := match ownerOf s r with
  | some q => (getP s q).probeInterval
  | none => 2048
/-- A probe of p must be inserted before the next MVM that names it, or before the next instruction for an egress fence (R207, R373). -/
def probeNeeded (s : State) (r p : Nat) : Bool :=
  let q := posOf (getR s r) p
  !fencedAt (getR s r) p && (decide (probeInterval s r ≤ q.fired) || q.probeDue)

/-- A position's VLD has issued and not completed (R181). -/
def vldPending (rd : RidgeSt) (p : Nat) : Bool :=
  rd.win.any (fun e => e.kind = .vld && (match feedSegs rd.feed rd.segs e.aux with
    | some fs => fs.any (fun g => g.mask.testBit p)
    | none => false))

/-- DESIGN CHOICE, notes/assumptions/56. -/
def laneOf (rd : RidgeSt) (p : Nat) : Lane :=
  let t := physOf rd p
  let b := (posOf rd p).buf
  let fb := fencedAt rd p
  { pos := p, tile := t, fallback := fb, fired := !fb && fires b, buf := b, rdcfg := (tileOf rd t).rdcfg, belay := (tileOf rd t).belay }

/-- Counts a fired lane on its position and its tile (R81, R96, R207). -/
def countFired (s : State) (r : Nat) (l : Lane) : State :=
  if l.fired then
    updTile (updPos s r l.pos (fun q => { q with fired := q.fired + 1 })) r l.tile (fun t => { t with fired := t.fired + 1 })
  else s

/-- The job summary takes a fired MVM of a ridge at an epoch (R372). -/
def summarise (j : Job) (r ep : Nat) (ps : List Nat) : Job :=
  { j with fired := j.fired ||| BitVec.ofNat 48 (2 ^ r), epLo := min j.epLo ep, epHi := max j.epHi ep, firedPos := ps.foldl (fun l p => if l.contains (r, p) then l else l ++ [(r, p)]) j.firedPos }

/-- An MVM's effect at issue: its window entry with the lanes it runs and its epoch stamp, the fired counts, and the job's summary (R81, R180, R207, R368, R372) (DESIGN CHOICE, notes/assumptions/56). -/
def mvmIssue (s : State) (r : Nat) (x : Ctx) (w : W128) : State :=
  let rd := getR s r
  let lanes := (mvmPositions w).map (laneOf rd)
  let s1 := pushWin s r { mkWin rd x w .mvm with lanes := lanes, stamp := epochNow s }
  let s2 := lanes.foldl (fun s l => countFired s r l) s1
  match x with
  | .job => (match rd.job with
    | some (p, id) => if lanes.any (fun l => l.fired) then updJob s2 p id (fun j => summarise j r (epochNow s) ((lanes.filter (fun l => l.fired)).map (fun l => l.pos))) else s2
    | none => s2)
  | .service => s2
/-- Nothing holds an MVM back: no lock of a rope on its positions or slot, every VLD of them completed, no probe due first (R181, R207, R287). -/
def mvmFree (s : State) (r : Nat) (x : Ctx) (w : W128) : Bool :=
  !((mvmPositions w).any (fun p => lockedClaim s (1, r, p)) || lockedClaim s (4, r, mvmSlot w)) &&
    !(mvmPositions w).any (vldPending (getR s r)) && !(x = .job && (mvmPositions w).any (probeNeeded s r))

/-- MVM and MVMS at issue. -/
def mvmBody (r : Ridge) (x : Ctx) (w : W128) (s : State) : Iss :=
  let rd := getR s r
  let ps := mvmPositions w
  let k := mvmSlot w
  if ps.any (fun p => lockedClaim s (1, r, p)) || lockedClaim s (4, r, k) then .wait
  else if ps.any (fun p => !serviceable s r x p) then .fault 0x04
  else if !(slotOf rd k).opened || (slotOf rd k).closing then .fault 0x08
  else if !mvmFree s r x w then .wait
  else .next (mvmIssue s r x w)

/-- MVM (R192). -/
def execMvm (r : Ridge) (x : Ctx) (w : W128) (s : State) : Out := issue s r x w 0x10 (mvmBody r x w)
/-- MVMS (R192): as MVM, with every row group split (R78). -/
def execMvms (r : Ridge) (x : Ctx) (w : W128) (s : State) : Out := issue s r x w 0x11 (mvmBody r x w)

/-! ### The commit -/

/-- The contribution of an MVM to one entry: the ridge tree over the lanes' tiles (R147). -/
def mvmEntry (s : State) (r : Nat) (e : Win) (es : Int) (devs : List AdcDev) (c : Nat) : TileOut :=
  let rd := getR s r
  let leaf (p : Nat) : TileOut :=
    match e.lanes.find? (fun l => l.pos = p) with
    | some l =>
      let gd := goldenOf s r p
      tileCol (laneFmt (tileOf rd l.tile) gd) (opOf e.w = 0x11) (mvmRelax e.w) es (tileOf rd l.tile) gd l devs c
    | none => .zero
  ridgeTree ((List.range 32).map leaf)

/-- A lane sets SCREE_OVF on column c: its vector was CLAMPED (R129), and the tile has that column (R149). -/
def laneScree (s : State) (r : Nat) (l : Lane) (c : Nat) : Bool :=
  l.buf.clamped && !(laneFmt (getTile s r l.tile) (goldenOf s r l.pos) = 0x11 && decide (256 ≤ c))

/-- Adds a contribution entry by entry (R158); an entry that a saturated leaf reaches carries SAT (R144) (DESIGN CHOICE, notes/assumptions/56). -/
def commitMvm (k : Slot) (outs : List (TileOut × Bool)) : Slot :=
  ((List.range outs.length).zip outs).foldl (fun (k : Slot) (io : Nat × TileOut × Bool) =>
    let o := io.2.1
    let e := slotEntry k io.1
    let n := commitEntry e ⟨o.v, false, o.clip, io.2.2, o.comp⟩
    putEntry k io.1 { n with sat := n.sat || o.sat } (f32Add (slotComp k io.1) o.comp)) k

/-- What an MVM enters in the ledger (R369, R370). -/
def mvmLedger (r : Nat) (e : Win) : Ledger :=
  let act := e.lanes.filter (fun l => l.fired || l.fallback)
  let fired := e.lanes.filter (fun l => l.fired)
  { ridges := if act.isEmpty then 0 else BitVec.ofNat 48 (2 ^ r), pos := maskOf 32 (fired.map (fun l => l.pos)),
    fallback := maskOf 32 ((e.lanes.filter (fun l => l.fallback)).map (fun l => l.pos)),
    relief := maskOf 32 ((fired.filter (fun l => l.tile ≠ l.pos)).map (fun l => l.pos)), multi := false,
    lo := if fired.isEmpty then 2 ^ 64 - 1 else e.stamp, hi := if fired.isEmpty then 0 else e.stamp }

/-- Conversions of one lane that clip, over every logical column (R84). -/
def laneClips (s : State) (r : Nat) (e : Win) (devs : List AdcDev) (l : Lane) : Nat :=
  let t := getTile s r l.tile
  let gd := goldenOf s r l.pos
  ((List.range 512).map (fun c => (tileCol (laneFmt t gd) (opOf e.w = 0x11) (mvmRelax e.w) 0 t gd l devs c).nclip)).foldl (· + ·) 0

/-- GUARD_CLIP of a job MVM at HG_RELAX = 0 under the guard, one coalesced subject per tile (R84, R477). -/
def guardClips (s : State) (r : Nat) (e : Win) (devs : List AdcDev) : State :=
  if e.ctx = .job && mvmRelax e.w = 0 then
    e.lanes.foldl (fun s l =>
      let n := if l.fired && !rdMode l.rdcfg then laneClips s r e devs l else 0
      if n = 0 then s
      else raiseCoal s 2 2 n (mkEv 0x06 0x05 r (partByte s r) (layFields 32 [(0, 1, r), (1, 1, l.tile), (2, 1, l.pos)]))) s
  else s

/-- An entry is an AAD of FORM 0 into a slot of its own ridge; its aux field holds the target's physical ridge. -/
def aadInto (r : Nat) (v : Win) (k : Nat) : Bool :=
  opOf v.w = 0x1C && bits v.w 118 117 = 0 && v.aux = r && bits v.w 99 94 = k
/-- An earlier contribution of this ridge into the same slot has not committed (R159) (DESIGN CHOICE, notes/assumptions/57). -/
def earlierInto (r : Nat) (rd : RidgeSt) (id k : Nat) : Bool :=
  rd.win.any (fun v => ((v.kind = .mvm && mvmSlot v.w = k) || aadInto r v k) && decide (v.id < id))

/-- The contribution commits into its slot (DEDUCED, notes/assumptions/64). -/
def commitEffect (s : State) (r : Nat) (e : Win) (devs : List AdcDev) : State :=
  let k := mvmSlot e.w
  let sl := getSlot s r k
  let outs := (List.range sl.len).map (fun c => (mvmEntry s r e sl.exp devs c, e.lanes.any (fun l => laneScree s r l c)))
  let k1 := commitMvm sl outs
  let s1 := setSlot s r k { k1 with received := sl.received + 1, ledger := mergeLedger sl.ledger (mvmLedger r e) }
  let s2 := guardClips s1 r e devs
  if e.ctx = .job && e.lanes.any (fun l => l.fallback) then
    match (getR s r).job with
    | some (p, id) => updJob s2 p id (fun j => { j with fallback := j.fallback + 1 })
    | none => s2
  else s2

end Sys2Proof.Machine
end

