-- ==== Sys2Proof/Machine/Memory.lean ====
section
/-!
DEFINITION. The memory path: requests to peers (R250, R336, R341, R343, R347, R348), the stage-1 walk and the TLBs (R251 to R254), accesses by device virtual address (R241, R242, R259), and the two rows PAGE_WALK and MORAINE_FILL (R253, R239, R249).
-/

namespace Sys2Proof.Machine

/-! ### Requests to peers -/

def linkOf (s : State) (n : Nat) : LinkSt := tget .reset s.links.ports n
def setLink (s : State) (n : Nat) (l : LinkSt) : State :=
  { s with links := { s.links with ports := tset .reset s.links.ports n l } }
def linkUp (s : State) (n : Nat) : Bool := (linkOf s n).st = .up || (linkOf s n).st = .upX2
def peerOf (s : State) (d : Nat) : Peer := tget .absent s.links.peers d
def setPeer (s : State) (d : Nat) (q : Peer) : State :=
  { s with links := { s.links with peers := tset .absent s.links.peers d q } }
def routeOf (s : State) (d : Nat) : W16 := tget 0 s.links.routes d

/-- 6.99 ms of R348, in CMC cycles. -/
def hearCycles : Nat := 2 ^ 22
/-- The device's own id was heard with another SERIAL within 6.99 ms: it originates only HAIL and REPORT (R348). -/
def idConflict (s : State) : Bool := match s.links.conflictAt with
  | some t => decide (s.now < t + hearCycles)
  | none => false

/-- The port a frame to a device leaves by: PRIMARY, or ALT when PRIMARY is not up (R347). -/
def routePort (s : State) (d : Nat) : Option Nat :=
  let e := routeOf s d
  if !bitAt e 15 then none
  else if linkUp s (bits e 2 0) then some (bits e 2 0)
  else if bitAt e 7 && linkUp s (bits e 6 4) then some (bits e 6 4)
  else none

/-- Why a partition may not reach a device now: REMOTE_DENIED or REMOTE_UNREACHABLE (R260, R343, R348). -/
def remoteBar (s : State) (p d : Nat) : Option Nat :=
  let q := peerOf s d
  if q.st = .lost || q.st = .conflict then some 0x06
  else if q.st ≠ .up || !bitAt q.importMask p then some 0x05
  else if !s.links.idValid || idConflict s then some 0x06
  else if (routePort s d).isNone then some 0x06
  else none

def mkFrame (s : State) (ty dst part tag op off len : Nat) (bcast : Bool) (d : List Byte) : Frame :=
  { ty := ty, dst := dst, src := s.links.devId, spart := part, tag := tag, bcast := bcast, hops := 15, len := len, op := op,
    off64 := off / 64, reservedZero := true, crcOk := true, payload := d }
/-- Frames of a port that are not yet acknowledged; each takes one codeword, and at most 128 are in flight (R334). -/
def portSent (s : State) (n : Nat) : Nat := (s.links.sent.filter (fun x => x.1 = n)).length
def unacked (s : State) (n : Nat) : Nat := min 128 (portSent s n)
/-- Hands a frame to a port: it takes the next SEQ when the replay buffer has room (DESIGN CHOICE, notes/assumptions/28). -/
def sendFrame (s : State) (n : Nat) (f : Frame) : State :=
  let s1 := { s with links := { s.links with sent := s.links.sent ++ [(n, f)] } }
  let l := linkOf s n
  setLink s1 n { l with txSeq := (l.acked + unacked s1 n) % 256, lastAck := if portSent s n = 0 then s.now else l.lastAck }
/-- The lowest free transaction tag (R336). -/
def freeTag (s : State) : Option Nat :=
  (List.range 4096).find? (fun t => (tget none s.links.outstanding t).isNone)
def setTag (s : State) (t : Nat) (o : Option Outstanding) : State :=
  { s with links := { s.links with outstanding := tset none s.links.outstanding t o } }
/-- What fills a request's extent beyond its own bytes up to multiples of 64 (R336): zeros, and in an FP32 atomic −0, the element that changes no sum. -/
def padByte (o : Outstanding) (i : Nat) : Byte := if o.kind = 3 && o.op = 1 && i % 4 = 3 then 0x80 else 0
/-- A request's payload. -/
def reqPayload (o : Outstanding) : List Byte :=
  let front := o.off % 64
  let n := (front + o.data.length + 63) / 64 * 64
  (List.range front).map (padByte o) ++ o.data ++ (List.range (n - front - o.data.length)).map (fun i => padByte o (front + o.data.length + i))
/-- The frame of an outstanding request. -/
def reqFrame (s : State) (t : Nat) (o : Outstanding) : Frame :=
  if o.kind = 2 then mkFrame s 2 o.dst o.part t 0 o.off 16 false []
  else mkFrame s o.kind o.dst o.part t o.op o.off ((reqPayload o).length / 16) false (reqPayload o)
/-- Sends a request on the route then valid; nothing where no tag or route is free. -/
def sendReq (s : State) (o : Outstanding) : Option State :=
  match freeTag s, routePort s o.dst with
  | some t, some n => some (sendFrame (setTag s t (some { o with sentAt := s.now })) n (reqFrame s t o))
  | _, _ => none

/-- Agent number of a DMA cluster; a ridge is its own number. -/
def agentCluster (c : Nat) : Nat := 48 + c
def mkReq (kind dst part : Nat) (job : W32) (ridge win off op : Nat) (d : List Byte) (dva : Nat) : Outstanding :=
  { kind := kind, dst := dst, part := part, job := job, ridge := ridge, win := win, cluster := none, dmaId := 0, off := off,
    op := op, data := d, dva := dva, sentAt := 0, resent := false, busyAt := none, abandoned := false }

/-! ### Translation (R251 to R254) -/

/-- A completed walk. -/
structure Page where
  base : Nat
  size : Nat
  ia : Nat
  w : Bool
  rs : Bool
  na : Bool
  deriving DecidableEq, Repr, Inhabited

inductive WalkRes where
  | ok (p : Page)
  /-- cause and LEVEL byte (R259, R260) -/
  | fault (cause level : Nat)
  deriving DecidableEq, Repr, Inhabited

/-- A stage-1 entry as memory holds it. -/
def pteAt (s : State) (t : Part) (ia : Nat) : Option (W64 × Bool) :=
  match iaToPa t ia with
  | some pa => some (BitVec.ofNat 64 (leNat (dramBytes s pa 8)), dramBad s pa 8)
  | none => none

def pteAddr (e : W64) : Nat := bits e 47 12 * 4096
/-- Malformed at a level (R252), C64 groups apart. -/
def pteBad (lvl : Nat) (e : W64) : Bool :=
  !(bits e 63 48 = 0 && bits e 11 6 = 0) || (decide (lvl ≤ 1) && bitAt e 1) || (lvl = 3 && !bitAt e 1) ||
    (lvl = 2 && bitAt e 1 && decide (pteAddr e % 2 ^ 21 ≠ 0)) || (bitAt e 3 && bitAt e 2) || (lvl ≠ 3 && bitAt e 4)
/-- A C64 entry's group of 16 agrees, and each entry's ADDR[15:12] is its place (R252). -/
def c64Ok (s : State) (t : Part) (tab idx : Nat) (e : W64) : Bool :=
  let g := idx / 16 * 16
  (List.range 16).all (fun i =>
    match pteAt s t (tab + 8 * (g + i)) with
    | some (f, _) => f.toNat - bits f 15 12 * 4096 = e.toNat - bits e 15 12 * 4096 && bits f 15 12 = i
    | none => false)

/-- Stage 1 from the table at tab, at a level: structural on the levels left. -/
def walkFrom (s : State) (t : Part) : Nat → Nat → Nat → WalkRes
  | 0, _, _ => .fault 0x03 0x13
  | n + 1, tab, dva =>
    let lvl := 3 - n
    let idx := dva / 2 ^ (12 + 9 * n) % 512
    if userSize t < tab + 4096 then .fault 0x04 (16 + lvl)
    else match pteAt s t (tab + 8 * idx) with
      | none => .fault 0x04 (16 + lvl)
      | some (e, bad) =>
        if bad then .fault 0x08 (16 + lvl)
        else if !bitAt e 0 then .fault 0x01 (16 + lvl)
        else if pteBad lvl e then .fault 0x03 (16 + lvl)
        else if lvl = 3 then
          if bitAt e 4 then
            if c64Ok s t tab idx e then
              .ok ⟨dva / 65536 * 65536, 65536, pteAddr e / 65536 * 65536, bitAt e 2, bitAt e 3, bitAt e 5⟩
            else .fault 0x03 0x13
          else .ok ⟨dva / 4096 * 4096, 4096, pteAddr e, bitAt e 2, bitAt e 3, bitAt e 5⟩
        else if lvl = 2 && bitAt e 1 then .ok ⟨dva / 2 ^ 21 * 2 ^ 21, 2 ^ 21, pteAddr e, bitAt e 2, bitAt e 3, bitAt e 5⟩
        else walkFrom s t n (pteAddr e) dva

def iaRemote (ia : Nat) : Bool := ia.testBit 47
def iaDev (ia : Nat) : Nat := ia / 2 ^ 35 % 4096
def iaOff (ia : Nat) : Nat := ia % 2 ^ 35

/-- Both stages for one address and one kind of access, 0 read, 1 write, 2 atomic (R251, R260). -/
def walkDva (s : State) (p : Nat) (j : Job) (dva acc : Nat) : WalkRes :=
  let t := getP s p
  match walkFrom s t 4 j.st1 dva with
  | .fault c l => .fault c l
  | .ok g =>
    if acc ≠ 0 && !g.w then .fault 0x02 (16 + (if g.size = 2 ^ 21 then 2 else 3))
    else
      let ia := g.ia + (dva - g.base)
      if iaRemote ia then
        match remoteBar s p (iaDev ia) with
        | some c => .fault c 0x20
        | none => .ok g
      else if ia < userSize t then .ok g else .fault 0x04 0x20

/-- Where a byte range lies after translation. -/
inductive Loc where
  | mem (pa : Nat)
  | peer (dev off : Nat) (rs : Bool)
  deriving DecidableEq, Repr, Inhabited

structure Piece where
  dva : Nat
  len : Nat
  loc : Loc
  deriving DecidableEq, Repr, Inhabited

inductive TRes where
  | ok (ps : List Piece)
  | miss (pages : List Nat)
  | fault (cause level dva : Nat)
  deriving DecidableEq, Repr, Inhabited

/-- The TLB entry of an agent for an address. -/
def tlbHit (s : State) (p : Nat) (job : W32) (agent dva : Nat) : Option Tlb :=
  s.mem.tlb.find? (fun e => e.part = p && e.job = job && e.agent = agent && decide (e.base ≤ dva) && decide (dva < e.base + e.size))
/-- A cached entry still serves: it agrees with the tables, or the device keeps the old one (R254). -/
def tlbLive (s : State) (p : Nat) (j : Job) (e : Tlb) (dva : Nat) : Bool :=
  match walkFrom s (getP s p) 4 j.st1 dva with
  | .ok g => decide (g = ⟨e.base, e.size, e.ia, e.w, e.rs, e.na⟩) || Config.keepOld s.free
  | .fault _ _ => Config.keepOld s.free

/-- One page's piece of an access. -/
def transPiece (s : State) (p : Nat) (j : Job) (agent acc : Nat) (c : Nat × Nat) : TRes :=
  match tlbHit s p j.id agent c.1 with
  | none => .miss [c.1 / 4096 * 4096]
  | some e =>
    if !tlbLive s p j e c.1 then .miss [c.1 / 4096 * 4096]
    else if acc ≠ 0 && !e.w then .fault 0x02 (16 + (if e.size = 2 ^ 21 then 2 else 3)) c.1
    else
      let ia := e.ia + (c.1 - e.base)
      if iaRemote ia then
        match remoteBar s p (iaDev ia) with
        | some k => .fault k 0x20 c.1
        | none => .ok [⟨c.1, c.2, .peer (iaDev ia) (iaOff ia) e.rs⟩]
      else match iaToPa (getP s p) ia with
        | some pa => .ok [⟨c.1, c.2, .mem pa⟩]
        | none => .fault 0x04 0x20 c.1

def joinT (a b : TRes) : TRes :=
  match a, b with
  | .fault c l d, _ => .fault c l d
  | _, .fault c l d => .fault c l d
  | .miss x, .miss y => .miss (x ++ y)
  | .miss x, _ => .miss x
  | _, .miss y => .miss y
  | .ok x, .ok y => .ok (x ++ y)

/-- An access of len bytes at a DVA, cut at CDU boundaries (R253). -/
def translate (s : State) (p : Nat) (j : Job) (agent dva len acc : Nat) : TRes :=
  ((cduCuts dva len).map (transPiece s p j agent acc)).foldl joinT (.ok [])

/-- Asks the page walker for pages that miss; at most 64 walks are in flight (R253). -/
def askWalks (s : State) (pages : List Nat) (mk : Nat → Walk) : State :=
  pages.foldl (fun s pg =>
    let w := mk pg
    if s.mem.walks.any (fun v => v.part = w.part && v.job = w.job && v.agent = w.agent && v.dva = w.dva) || decide (64 ≤ s.mem.walks.length) then s
    else { s with mem := { s.mem with walks := s.mem.walks ++ [{ w with id := s.mem.next }], next := s.mem.next + 1 } }) s

/-! ### Bytes at a peer (R241, R242, R250) -/

/-- The CDU of a peer that an agent of a partition holds. -/
def peerLine (s : State) (p agent dev off : Nat) : Option MLine :=
  s.mem.lines.find? (fun l => l.remote && l.part = p && l.addr = dev * 2 ^ 35 + off / 256 * 256 && (!l.once || l.agent = agent))
/-- Drops the lines that served one agent's read. -/
def dropOnce (s : State) (p agent : Nat) : State :=
  { s with mem := { s.mem with lines := s.mem.lines.filter (fun l => !(l.once && l.part = p && l.agent = agent)) } }
/-- A read of this CDU is on its way for this agent. -/
def readPending (s : State) (p agent dev off : Nat) : Bool :=
  s.links.outstanding.any (fun t => match t.2 with
    | some o => o.kind = 2 && o.dst = dev && o.part = p && o.off = off / 256 * 256 && o.ridge = agent && !o.abandoned
    | none => false)
/-- Sends an RD for a CDU (its OP slot in the model's record tells a read-shared page, R241) that an agent needs and nothing brings yet. -/
def askPeer (s : State) (p : Nat) (job : W32) (agent win dev off : Nat) (rs : Bool) (dva : Nat) : State :=
  if (peerLine s p agent dev off).isSome || readPending s p agent dev off then s
  else (sendReq s (mkReq 2 dev p job agent win (off / 256 * 256) (if rs then 1 else 0) [] dva)).getD s

/-- The bytes of translated pieces; none while a peer's CDU has not arrived. True when a poisoned CDU lies in them. -/
def readPieces (s : State) (p agent : Nat) (ps : List Piece) : Option (List Byte × Bool) :=
  ps.foldl (fun acc c =>
    match acc with
    | none => none
    | some (d, bad) =>
      match c.loc with
      | .mem pa => some (d ++ dramBytes s pa c.len, bad || dramBad s pa c.len)
      | .peer dev off _ =>
        match peerLine s p agent dev off with
        | some l => some (d ++ bytesAt l.data (off % 256) c.len, bad || l.bad)
        | none => none) (some ([], false))
/-- Asks peers for what readPieces waits for. -/
def askPieces (s : State) (p : Nat) (job : W32) (agent win : Nat) (ps : List Piece) : State :=
  ps.foldl (fun s c => match c.loc with
    | .peer dev off rs => askPeer s p job agent win dev off rs c.dva
    | .mem _ => s) s

/-- What a ridge operand at a DVA gives at issue: its bytes, or a state in which it is being fetched, or a fault that suspends the job. -/
inductive DvaRes where
  | bytes (d : List Byte) (bad : Bool)
  | places (ps : List Piece)
  | wait (s : State)
  deriving DecidableEq, Repr

/-- The walk that a ridge operand asks for (R259: SOURCE 0). -/
def ridgeWalk (p : Nat) (j : Job) (r idx acc dva : Nat) : Walk :=
  { id := 0, part := p, job := j.id, agent := r, dva := dva, access := acc, source := 0, srcRidge := (progRidge j r).getD 0xFF,
    desc := 0xFFFF, instr := idx, resume := 0 }

/-- An operand of a ridge instruction that fails translation: the job is suspended (R259) and its stream stops with PAGE_FAULT (R187, R213). -/
def ridgeMmu (s : State) (src p : Nat) (j : Job) (r idx c d acc l : Nat) : State :=
  let s1 := mmuFault s src p j.id 0 ((progRidge j r).getD 0xFF) c d acc l 0xFFFF idx 0
  if (getR s1 r).job = some (p, j.id) && (getR s1 r).jobCtx.fault.isNone then streamFault s1 r .job 0x12 idx else s1
/-- Translates a ridge operand; a miss asks for walks, a fault suspends the job (R259, R261) (DESIGN CHOICE, notes/assumptions/57). -/
def ridgePlaces (s : State) (p : Nat) (j : Job) (r dva len acc idx : Nat) : DvaRes :=
  match translate s p j r dva len acc with
  | .ok ps => .places ps
  | .miss pages => .wait (useFree (askWalks s pages (ridgeWalk p j r idx acc)))
  | .fault c l d => .wait (ridgeMmu (useFree s) r p j r idx c d acc l)

/-- Reads a ridge operand at a DVA. -/
def ridgeRead (s : State) (p : Nat) (j : Job) (r dva len idx : Nat) : DvaRes :=
  match ridgePlaces s p j r dva len 0 idx with
  | .places ps =>
    match readPieces s p r ps with
    | some (d, bad) => .bytes d bad
    | none => .wait (askPieces s p j.id r 0 ps)
  | x => x

/-- Writes bytes to the local pieces of an access under R235, raising CHECK_MISMATCH where a CDU fails; answers what must go to peers (device, offset, bytes, DVA) and whether a CDU failed. -/
def writePieces (s : State) (src p : Nat) (job : W32) (ps : List Piece) (d : List Byte) :
    State × List (Nat × Nat × List Byte × Nat) × Bool :=
  let r := ps.foldl (fun (acc : State × List (Nat × Nat × List Byte × Nat) × Bool × List Byte) c =>
    let piece := acc.2.2.2.take c.len
    let rest := acc.2.2.2.drop c.len
    match c.loc with
    | .mem pa =>
      let (s1, bad) := dramWrite acc.1 pa piece
      let s2 := bad.foldl (fun s a => raiseInteg s src 0x01 p 2 (a / 4096 % 12) 0xFF job a 0) s1
      (s2, acc.2.1, acc.2.2.1 || !bad.isEmpty, rest)
    | .peer dev off _ => (acc.1, acc.2.1 ++ [(dev, off, piece, c.dva)], acc.2.2.1, rest)) (s, [], false, d)
  (r.1, r.2.1, r.2.2.1)

/-! ### Rows -/

/-- A completed walk's page in the asking agent's TLB, in place of what overlaps it (R253, R254). -/
def fillTlb (s : State) (w : Walk) (g : Page) : State :=
  let e : Tlb := { part := w.part, job := w.job, agent := w.agent, base := g.base, size := g.size, ia := g.ia, w := g.w, rs := g.rs, na := g.na }
  let old := s.mem.tlb.filter (fun v =>
    !(v.part = w.part && v.job = w.job && v.agent = w.agent && decide (v.base < g.base + g.size) && decide (g.base < v.base + v.size)))
  { s with mem := { s.mem with tlb := e :: old } }

/-- One pending walk ends (R253). A success fills the asking agent's TLB; a failure is never cached and suspends the job (R259 to R261). -/
def pageWalk (id : Nat) (s : State) : State :=
  match s.mem.walks.find? (fun w => w.id = id) with
  | none => s
  | some w =>
    let s1 := { s with mem := { s.mem with walks := s.mem.walks.filter (fun v => v.id ≠ id) } }
    match findJob s w.part w.job with
    | none => s1
    | some j =>
      match walkDva s w.part j w.dva w.access with
      | .ok g =>
        fillTlb s1 w g
      | .fault c l =>
        if w.source = 3 then s1
        else if w.source = 0 && decide (w.agent < 48) then ridgeMmu s1 srcWalker w.part j w.agent w.instr c w.dva w.access l
        else mmuFault s1 srcWalker w.part w.job w.source w.srcRidge c w.dva w.access l w.desc w.instr w.resume

/-- Corrections counted for a unit in the current ERROR_RATE window, with its one CORRECTED_RATE event (R360). Unit keys: ridge n; 64 + slice group; 128 + channel. -/
def countCorrected (s : State) (unit src thrsh loc no : Nat) : State :=
  let n := corrected s unit + 1
  let s1 := { s with integ := { s.integ with corrected := tset 0 s.integ.corrected unit n } }
  if n = thrsh && !tget false s.integ.raised unit then
    raise { s1 with integ := { s1.integ with raised := tset false s1.integ.raised unit true } } src 0x04 0x08 0xFF
      (integPayload loc no 0xFF 0 0 n s.col.win0.num)
  else s1

/-- The golden record of a partition that holds a firmware-part offset (R51, R247; placement in load order is the model's choice, DESIGN CHOICE, notes/assumptions/14). -/
def goldenAt (t : Part) (off : Nat) : Option (W32 × Nat × Nat) :=
  let all := t.wsets.flatMap (fun w => w.golden.map (fun g => (w.id, g.ridge, g.pos)))
  all[off / 532480]?

/-- Offset of a physical address inside a partition's ranges. -/
def paOffset (t : Part) (pa : Nat) : Option Nat :=
  ((rangeList t).findIdx? (fun k => k = pa / gib)).map (fun i => i * gib + pa % gib)

/-- A golden record that fails its check word (R51, R53): INTEGRITY GOLDEN, and the set is marked for reattachment. -/
def goldenFails (s : State) (p : Nat) (ws : W32) (r pos : Nat) (pa : Nat) : State :=
  let s1 := updWset s p ws (fun w =>
    { w with st := (if w.st = .resident then .tilesOnly else w.st),
             golden := w.golden.map (fun g => if g.ridge = r && g.pos = pos then { g with poisoned := true } else g) })
  raiseInteg s1 (srcMoraine (pa / 256 % 4)) 0x04 p 7 r pos 0 pa 0

/-- A CDU of local memory in a partition's ways. -/
def fillLine (s : State) (part pa : Nat) : State :=
  let l : MLine := { part := part, remote := false, addr := pa, data := [], once := false, agent := 0, bad := false }
  { s with mem := { s.mem with lines := l :: s.mem.lines.filter (fun v => !(v.part = part && !v.remote && v.addr = pa)) } }

/-- MORAINE_FILL: a CDU comes from LPDDR5X into a partition's ways (R239, R240). A mismatch is retried once and counted if the retry matches; if not, the CDU is poisoned (R235, R249) (DESIGN CHOICE, notes/assumptions/10; DESIGN CHOICE, notes/assumptions/13). -/
def execMoraineFill (part : PartNo) (pa : Nat) (bad : Nat) (s : State) : Out :=
  let t := getP s part
  if t.st = .free || pa % 256 ≠ 0 || (paOffset t pa).isNone then .next s
  else
    let ch := pa / 4096 % 12
    let s1 := fillLine s part pa
    if bad = 0 then .next s1
    else if bad = 1 then .next (countCorrected s1 (128 + ch) (srcDram (ch / 2)) 4096 2 ch)
    else match paOffset t pa with
      | some off =>
        if userSize t ≤ off then
          match goldenAt t (off - userSize t) with
          | some (ws, r, pos) => .next (goldenFails s1 part ws r pos pa)
          | none => .next (raiseInteg (dramPoison s1 pa true) (srcDram (ch / 2)) 0x01 part 2 ch 0xFF 0 pa 0)
        else .next (raiseInteg (dramPoison s1 pa true) (srcDram (ch / 2)) 0x01 part 2 ch 0xFF 0 off 0)
      | none => .next s1

end Sys2Proof.Machine
end

