-- ==== Sys2Proof/Machine/RopeLock.lean ====
section
/-!
DEFINITION. Staging and locking of ropes: claims (R285, R286), the conditions that the owners of claimed resources evaluate (R44, R46, R49, R70), the hold of a pinned slot (R156), and the step from STAGED to LOCKED (R287).
-/

namespace Sys2Proof.Machine

/-! ### Conditions of step 2 (R287) -/

/-- A belay map that a rope may make live on a tile (R44). -/
def belayMapOk (rd : RidgeSt) (t : Nat) (m : Tbl W16) : Bool :=
  let v := m.filter (fun e => bitAt e.2 15)
  let tg := v.map (fun e => bits e.2 9 0)
  tg.Nodup && tg.all (fun j => decide (j < 512) || (decide (528 ≤ j) && decide (j ≤ 535))) &&
    m.all (fun e => !(bitAt e.2 15 && bitAt e.2 14)) &&
    (match posOfTile rd t with
      | some p => fencedAt rd p
      | none => true)

/-- The tile map of a ridge as a rope would leave it. -/
def mapAfter (r : Nat) (m : List Byte) (l : List Action) : List Byte :=
  l.foldl (fun m a => match a with
    | .tileMap q p phys f => if q = r then m.set p (BitVec.ofNat 8 (phys + (if f then 128 else 0))) else m
    | _ => m) m

/-- No two positions share a physical tile (R46). -/
def mapDistinct (m : List Byte) : Bool := (m.map (fun b => b.toNat % 64)).Nodup

/-- A tile can come in at a position (R49, R70): CLEAN, with the position's weights, the weight set RESIDENT (or LOADING), and TILE_RDCFG in its service modes (DESIGN CHOICE, notes/assumptions/60). -/
def swapOk (s : State) (r p phys : Nat) : Bool :=
  let t := getTile s r phys
  let cfg := t.rdcfg
  match ownerOf s r with
  | none => false
  | some q =>
    match (getP s q).wsets.find? (fun x => x.golden.any (fun g => g.ridge = r && g.pos = p)) with
    | none => false
    | some ws =>
      (ws.st = .resident || ws.st = .loading) && t.jr.state = .clean && t.jr.position = p &&
        ws.golden.any (fun g => g.ridge = r && g.pos = p && g.digest = t.jr.digest) &&
        !bitAt cfg 0 && !bitAt cfg 14 && bitAt cfg 13

/-- The condition of one action. -/
def actionOk (s : State) (l : List Action) : Action → Bool
  | .tileMap r p phys f =>
    let rd := getR s r
    mapDistinct (mapAfter r rd.map l) && (f || phys = physOf rd p || swapOk s r p phys)
  | .belayMap r t m => belayMapOk (getR s r) t m
  | _ => true

/-- A slot of the ridge pinned to a table is open (R156). -/
def pinnedOpen (s : State) (r t : Nat) : Bool :=
  (getR s r).slots.any (fun k => k.2.opened && k.2.pin && k.2.pinTable = t)
def ropeHeld (s : State) (l : List Action) : Bool :=
  l.any (fun a => match a with
    | .rescaleHalf r t => pinnedOpen s r t
    | _ => false)

/-- A staged rope goes on to LOCKED and asks the Col for its COMMIT, waits for a pinned slot, or aborts with CHECK (R287, R289). -/
def tryLock (s : State) (e : Nat) : State :=
  let q := getRope s e
  if q.st ≠ .staged then s
  else if !q.actions.all (actionOk s q.actions) then ropeAbort s e 0x07 0 0
  else if ropeHeld s q.actions then s
  else enq (setRope s e { q with st := .locked }) srcRope (.commit e)

/-- Every staged rope tries again: called where a pinned slot has closed. -/
def ropeWake (s : State) : State := (s.ropes.map (fun x => x.1)).foldl tryLock s

/-- A rope's commit is requested: OPEN becomes STAGED (R287, step 1). -/
def ropeStage (s : State) (e : Nat) : State :=
  let q := getRope s e
  if q.st = .opened then tryLock (setRope s e { q with st := .staged, stagedAt := s.now }) e else s

/-- Adds an action to an open rope; a claim that an undecided rope holds aborts this one with CONFLICT (R286). The answer says whether the action is staged. -/
def ropeAdd (s : State) (e : Nat) (a : Action) : State × Bool :=
  match claimHolder s e (claimsOf a) with
  | some h => (ropeAbort s e 0x03 0 h, false)
  | none =>
    let q := getRope s e
    (setRope s e { q with actions := q.actions ++ [a] }, true)

/-- A free service entry (48 to 111). -/
def freeService (s : State) : Option Nat :=
  ((List.range 64).map (fun k => 48 + k)).find? (fun e => (getRope s e).st = .free)

/-- Prorvafort stages a whole service rope and asks for its commit (R284, R285): the largest timeout, its actions claimed in order, then tryLock. -/
def serviceRope (s : State) (parts : List Nat) (job : W32) (why : RopeWhy) (l : List Action) : State :=
  match freeService s with
  | none => s
  | some e =>
    let s1 := setRope s e { Rope.free with st := .opened, parts := parts, job := job, why := why, opened := s.rclk }
    let s2 := l.foldl (fun s a => if (getRope s e).st = .opened then (ropeAdd s e a).1 else s) s1
    ropeStage s2 e

end Sys2Proof.Machine
end

