-- ==== Sys2Proof/Machine/Slots.lean ====
section
/-!
DEFINITION. Accumulator slots: the commit of an MVM (R157 to R159), PRE (R155, R156, R193), DRN and its completion (R139, R162 to R166, R194), SPL and FIL (R167 to R169, R195), AAD in its four forms with its arrivals and memory atomics (R160, R170, R171, R196, R340), and PAGE_WALK, which lets an instruction that waits for a translation go on (R253).
-/

namespace Sys2Proof.Machine

/-! ### Shared pieces -/

/-- The instruction of an entry has stopped its stream (R214): it stays uncompleted. -/
def faultedWin (rd : RidgeSt) (w : Win) : Bool := match (ctxOf rd w.ctx).fault with
  | some (_, i) => i = w.idx
  | none => false

/-- The slot that a DRN, SPL, FIL, PRE or source-side AAD names. -/
def slotNo (w : W128) : Nat := bits w 111 106
/-- Marks a slot closed to contributions of its own ridge (R159), or open to them again. -/
def setClosing (s : State) (r k : Nat) (b : Bool) : State := setSlot s r k { getSlot s r k with closing := b }
/-- The slot has been read and is free (R163): staged ropes held by its pin go on. -/
def freeSlot (s : State) (r k : Nat) : State :=
  ropeWake (setSlot s r k { getSlot s r k with opened := false, closing := false, pin := false })
/-- Every contribution an instruction that reads a slot waits for has committed (R159). -/
def slotReady (s : State) (r : Nat) (w : Win) : Bool :=
  let sl := getSlot s r (slotNo w.w)
  sl.received = sl.expect && !earlierInto r (getR s r) w.id (slotNo w.w)

/-- The probes that a write of the job issued now waits for under its egress fence (R373): one of every position in service that has fired for it, issued from now on. -/
def fenceWaits (s : State) (j : Job) : List (Nat × Nat × Nat) :=
  (j.firedPos.filter (fun x => !fencedAt (getR s x.1) x.2)).map (fun x => (x.1, x.2, (getR s x.1).nextId))
/-- Each of those positions gets its probe ahead of its ridge's next instruction. -/
def askProbes (s : State) (l : List (Nat × Nat × Nat)) : State := l.foldl (fun s x => updPos s x.1 x.2.1 (fun q => { q with probeDue := true })) s
/-- A write is held (R373). -/
def holdWrite (s : State) (j : Job) (w : EgressWrite) : State :=
  askProbes (updJob s j.part j.id (fun j => { j with held := j.held ++ [w] })) w.waits
/-- The probes have passed, or the position runs in fallback. -/
def waitsOver (s : State) (l : List (Nat × Nat × Nat)) : Bool :=
  l.all (fun x => fencedAt (getR s x.1) x.2.1 || decide (x.2.2 < (posOf (getR s x.1) x.2.1).passSeq))

/-- A peer write or atomic of a job: held under its egress fence (R373), or sent. -/
def peerSend (s : State) (j : Job) (o : Outstanding) : Option State :=
  if j.fence && (o.kind = 1 || o.kind = 3) then
    some (holdWrite s j
      { port := none, dev := o.dst, addr := o.off, data := o.data, waits := fenceWaits s j, kind := o.kind, op := o.op, dva := o.dva,
        ridge := o.ridge, win := o.win, cluster := o.cluster, dmaId := o.dmaId })
  else sendReq s o
/-- Sends requests, all or none. -/
def peerSendAll (s : State) (j : Job) (l : List Outstanding) : Option State :=
  l.foldl (fun acc o => match acc with
    | some s => peerSend s j o
    | none => none) (some s)

/-- The job has changed memory that a restart cannot restore (R376). -/
def markDirty (s : State) (r : Nat) : State :=
  match (getR s r).job with
  | some (p, id) => updJob s p id (fun j =>
      { j with dirtySince := true, halfA := { j.halfA with dirtySince := true }, halfB := { j.halfB with dirtySince := true } })
  | none => s

/-! ### Staging in a rope (R166, R212, R286) -/

inductive Stg where
  /-- no rope is open: the instruction acts directly -/
  | plain
  | fault
  /-- the claim failed and the rope is gone -/
  | gone (s : State)
  | staged (s : State) (e : Nat)
  deriving DecidableEq, Repr

def ropeStageSize (rd : RidgeSt) : Nat := match rd.regions.find? (fun g => g.kind = 5) with
  | some g => g.size
  | none => 0
/-- Stages an action of so many bytes in the context's open rope, if it has one. -/
def stageAs (s : State) (r : Nat) (x : Ctx) (bytes : Nat) (a : Action) : Stg :=
  match (ctxOf (getR s r) x).rope with
  | none => .plain
  | some o =>
    if 16 ≤ (getRope s o.entry).actions.length || (x = .job && decide (ropeStageSize (getR s r) < o.staged + bytes)) then .fault
    else
      let t := ropeAdd s o.entry a
      if t.2 then
        .staged (updCtx t.1 r x (fun c => { c with rope := some { o with staged := o.staged + bytes } })) o.entry
      else .gone t.1

/-! ### The commit of an MVM -/

/-- The spill image of a slot (R167). -/
def splImage (sl : Slot) : List Byte :=
  imageBytes sl.len sl.exp (flagsAny sl) sl.ledger (slotEntry sl) (slotComp sl)

/-- MADDR of SPL, FIL and AAD FORM 1, and of AAD FORM 2 and 3. -/
def imageMaddr (w : W128) : Nat := maddrAt w 57
def vecMaddr (w : W128) : Nat := maddrAt w 36
def maddrSpace (m : Nat) : Bool := m.testBit 48
def maddrDva (m : Nat) : Nat := m % 2 ^ 48
def maddrLaddr (m : Nat) : Nat := m % 2 ^ 27
def aadForm (w : W128) : Nat := bits w 118 117

/-- SPL completes: the image is written, or staged in its rope (R166, R168). -/
def splDone (s : State) (r : Nat) (w : Win) : State :=
  let k := slotNo w.w
  let sl := getSlot s r k
  let img := splImage sl
  let m := imageMaddr w.w
  if maddrSpace m then
    match (getR s r).job with
    | none => s
    | some (p, id) =>
      match findJob s p id with
      | none => s
      | some j =>
        match ridgePlaces s p j r (maddrDva m) 6400 1 w.idx with
        | .places ps =>
          match w.rope with
          | some _ =>
            let locals := ps.foldl (fun (acc : List (Nat × List Byte) × List Byte) c => match c.loc with
              | .mem pa => (acc.1 ++ [(pa, acc.2.take c.len)], acc.2.drop c.len)
              | .peer _ _ _ => (acc.1, acc.2.drop c.len)) ([], img)
            updWin s r w.id (fun w => { w with staged := some ⟨[], locals.1, 0, 0, 0, 0, 0, 0⟩ })
          | none =>
            let (s1, remote, bad) := writePieces s r p id ps img
            if bad then execFault s1 r w 0x11
            else if remote.isEmpty then retire (freeSlot s1 r k) r w.id
            else match peerSendAll s1 j (remote.map (fun x => mkReq 1 x.1 p id r w.id x.2.1 0 x.2.2.1 x.2.2.2)) with
              | some s2 => updWin (freeSlot s2 r k) r w.id (fun w => { w with kind := .remote, parts := remote.length })
              | none => s
        | .wait t => t
        | .bytes _ _ => s
  else match laPhys s r (maddrLaddr m) with
    | none => s
    | some q =>
      match w.rope with
      | some _ => updWin s r w.id (fun w => { w with staged := some ⟨[(q, laOff (maddrLaddr m), img, ledgerTag sl.ledger)], [], 0, 0, 0, 0, 0, 0⟩ })
      | none =>
        let (s1, bad) := stLoam s r ⟨q, laOff (maddrLaddr m)⟩ img (ledgerTag sl.ledger)
        if bad then execFault s1 r w 0x11 else retire (freeSlot s1 r k) r w.id

/-! ### Memory atomics (R171, R340) -/

/-- What one atomic does to the bytes of its CDU. -/
structure AtomAns where
  data : List Byte
  sat : Bool
  range : Bool
  deriving DecidableEq, Repr

/-- The header of an image takes another header (R170, R340). -/
def headerMerge (old d : List Byte) : AtomAns :=
  if imageSigOk old && fieldAt old 4 2 = fieldAt d 4 2 && fieldAt old 6 2 = fieldAt d 6 2 then
    ⟨old.take 8 ++ leBytes 4 ((fieldAt old 8 4) ||| (fieldAt d 8 4)) ++ bytesAt old 12 4 ++
      ledgerBytes (mergeLedger (ledgerOf (bytesAt old 16 48)) (ledgerOf (bytesAt d 16 48))), false, false⟩
  else ⟨old, false, true⟩
def atomApply (op : AtomOp) (old d : List Byte) : AtomAns :=
  match op with
  | .int32 =>
    let l := (List.range (d.length / 4)).map (fun i =>
      let x := asSigned 32 (fieldAt old (4 * i) 4) + asSigned 32 (fieldAt d (4 * i) 4)
      let c := clampI (-(2 ^ 31)) (2 ^ 31 - 1) x
      (leBytes 4 (ofSigned 32 c), decide (c ≠ x)))
    ⟨l.flatMap (fun x => x.1), l.any (fun x => x.2), false⟩
  | .fp32 =>
    ⟨(List.range (d.length / 4)).flatMap (fun i =>
      leBytes 4 (f32Add (BitVec.ofNat 32 (fieldAt old (4 * i) 4)) (BitVec.ofNat 32 (fieldAt d (4 * i) 4))).toNat), false, false⟩
  | .entry40 =>
    let l := (List.range (d.length / 8)).map (fun i =>
      let e := entryOf (fieldAt old (8 * i) 8)
      let c := entryOf (fieldAt d (8 * i) 8)
      let n := commitEntry e ⟨c.val, c.sat, c.clip, c.scree, 0⟩
      (leBytes 8 (entryWord n), n.sat && !e.sat && !c.sat))
    ⟨l.flatMap (fun x => x.1), l.any (fun x => x.2), false⟩
  | .header => headerMerge old d
def atomCode : AtomOp → Nat
  | .int32 => 0
  | .fp32 => 1
  | .entry40 => 2
  | .header => 3
def atomOf (c : Nat) : Option AtomOp :=
  match c with
  | 0 => some .int32
  | 1 => some .fp32
  | 2 => some .entry40
  | 3 => some .header
  | _ => none

/-- Queues one atomic: local ones wait for MEMORY_ATOMIC_APPLY, remote ones are sent, or wait for a tag. -/
def addAtomic (s : State) (j : Job) (r win : Nat) (op : AtomOp) (pl : Place) (hdr : Option Place) (d : List Byte) (dva : Nat) : State :=
  let m : MemAtomic := { id := s.mem.next, op := op, place := pl, hdr := hdr, data := d, dva := dva, part := j.part, job := j.id, ridge := r, win := win }
  let wait := { s with mem := { s.mem with atomics := s.mem.atomics ++ [m], next := s.mem.next + 1 } }
  match pl with
  | .remote dev off => (peerSend s j (mkReq 3 dev j.part j.id r win off (atomCode op) d dva)).getD wait
  | _ => wait

/-- The CDU pieces of a MADDR target: place and length. -/
def loamPlaces (q off len : Nat) : List (Place × Nat) := (cduCuts off len).map (fun c => (.loam q c.1, c.2))
def piecePlaces (ps : List Piece) : List (Place × Nat) :=
  ps.map (fun c => match c.loc with
    | .mem pa => (.local pa, c.len)
    | .peer d o _ => (.remote d o, c.len))
/-- Where a MADDR range lies: its pieces, or a state in which it is being translated. -/
inductive Where where
  | found (l : List (Place × Nat))
  | wait (s : State)
  deriving DecidableEq, Repr
def maddrPlaces (s : State) (r : Nat) (j : Job) (m len acc idx : Nat) : Where :=
  if maddrSpace m then
    match ridgePlaces s j.part j r (maddrDva m) len acc idx with
    | .places ps => .found (piecePlaces ps)
    | .wait t => .wait t
    | .bytes _ _ => .wait s
  else match laPhys s r (maddrLaddr m) with
    | some q => .found (loamPlaces q (laOff (maddrLaddr m)) len)
    | none => .wait s
/-- The piece of a range that begins so many bytes into it. -/
def placeAt (l : List (Place × Nat)) (off : Nat) : Option Place :=
  (l.foldl (fun (acc : Nat × Option Place) x => (acc.1 + x.2, if acc.1 = off then some x.1 else acc.2)) (0, none)).2

/-- AAD of FORM 1: the header goes first, the entries and companions below LEN after it (R340). -/
def aadImage (s : State) (r : Nat) (j : Job) (w : Win) : State :=
  let k := slotNo w.w
  let sl := getSlot s r k
  let img := splImage sl
  match maddrPlaces s r j (imageMaddr w.w) 6400 2 w.idx with
  | .wait t => t
  | .found l =>
    let hdr := placeAt l 0
    let one (s : State) (op : AtomOp) (off n : Nat) : State :=
      match placeAt l off with
      | some pl => addAtomic s j r w.id op pl (match hdr with
          | some (.remote _ _) => none
          | h => h) (bytesAt img off n) (if maddrSpace (imageMaddr w.w) then maddrDva (imageMaddr w.w) + off else 0)
      | none => s
    if w.aux = 0 then
      one (updWin s r w.id (fun w => { w with kind := .memAtomic, parts := 1 })) .header 0 64
    else
      let es := (List.range 16).filter (fun c => decide (32 * c < sl.len))
      let cs := (List.range 8).filter (fun c => decide (64 * c < sl.len))
      let s1 := updWin s r w.id (fun w => { w with kind := .memAtomic, parts := es.length + cs.length })
      let s2 := es.foldl (fun s c => one s .entry40 (0x100 + 256 * c) (8 * min 32 (sl.len - 32 * c))) s1
      let s3 := cs.foldl (fun s c => one s .fp32 (0x1100 + 256 * c) (4 * min 64 (sl.len - 64 * c))) s2
      freeSlot s3 r k

/-- A source-side AAD whose slot is complete: FORM 0 sends its message, FORM 1 its atomics. -/
def aadReady (s : State) (r : Nat) (w : Win) : State :=
  match (getR s r).job with
  | none => s
  | some (p, id) =>
    if aadForm w.w = 0 then
      let k := slotNo w.w
      let sl := getSlot s r k
      let m := s.mem.next
      let msg : AadMsg :=
        { id := m, srcRidge := r, win := w.id, part := p, job := id, tgtRidge := w.aux, tgtSlot := bits w.w 99 94,
          gen := bits w.w 93 86, off := bits w.w 85 77, len := sl.len, exp := sl.exp, entries := sl.entries, comps := sl.comps,
          ledger := sl.ledger, idx := w.idx }
      freeSlot (updWin { s with mem := { s.mem with aads := s.mem.aads ++ [msg], next := m + 1 } } r w.id (fun w => { w with kind := .aad })) r k
    else match findJob s p id with
      | some j => aadImage s r j w
      | none => s

/-- One waiting SPL or AAD goes on when its slot is complete. -/
def settleWin (r : Nat) (s : State) (id : Nat) : State :=
  match findWin s r id with
  | none => s
  | some w =>
    if w.kind ≠ .waitSlot || w.staged.isSome || faultedWin (getR s r) w then s
    else if opOf w.w = 0x1C && aadForm w.w = 1 && w.aux = 1 then aadReady s r w
    else if !slotReady s r w then s
    else if opOf w.w = 0x1A then splDone s r w
    else aadReady s r w
/-- What waits on a ridge's slots goes on, in issue order. -/
def settleRidge (s : State) (r : Nat) : State := ((getR s r).win.map (fun w => w.id)).foldl (settleWin r) s

/-- One atomic of an AAD has been applied. -/
def atomDone (s : State) (r win : Nat) : State :=
  match findWin s r win with
  | none => s
  | some w =>
    if w.kind ≠ .memAtomic then s
    else if opOf w.w = 0x1C && aadForm w.w = 1 && w.aux = 0 then
      settleWin r (updWin s r win (fun w => { w with kind := .waitSlot, aux := 1 })) win
    else if w.parts ≤ 1 then retire s r win
    else updWin s r win (fun w => { w with parts := w.parts - 1 })
/-- An atomic failed with a stream fault. -/
def atomFault (s : State) (r win code : Nat) : State :=
  match findWin s r win with
  | some w => execFault s r w code
  | none => s

/-- CONTRIBUTION_COMMIT: an MVM's conversions end and its contribution commits in issue order (R157 to R159); an excess one stops the stream and adds nothing. -/
def execContributionCommit (r : Ridge) (id : Nat) (devs : List AdcDev) (s : State) : Out :=
  match findWin s r id with
  | none => .next s
  | some e =>
    let k := mvmSlot e.w
    if e.kind ≠ .mvm || earlierInto r (getR s r) id k || faultedWin (getR s r) e then .next s
    else
      let sl := getSlot s r k
      if sl.received = sl.expect then .next (execFault s r e 0x09)
      else .next (settleRidge (retire (commitEffect s r e devs) r id) r)

/-! ### PRE -/

def preMode (w : W128) : Nat := bits w 118 117
def preLen (w : W128) : Nat := bits w 105 97 + 1
def preSrc (w : W128) : Nat := bits w 67 41
def preFmtOf (w : W128) : Nat := bits w 40 36
def preTable (w : W128) : Nat := bits w 35 28
def preChan (w : W128) : Nat := bits w 27 14

/-- An INT40 element as a slot entry (R155): value and flag bits. -/
def biasEntry (f : Nat) (b : List Byte) (i : Nat) : Entry :=
  if f = 6 then { entryOf (fieldAt b (8 * i) 8) with cancel := false }
  else ⟨asSigned 32 (fieldAt b (4 * i) 4), false, false, false, false⟩
/-- A RESIDUAL element as a slot entry (R155). -/
def residualEntry (f : Nat) (ce : W64) (e : Elt) : Entry :=
  let odd := match e with
    | .fp .nan => true
    | .fp (.inf _) => true
    | _ => false
  let x : Q := match e with
    | .int v => qOf v
    | .fp .nan => ⟨0, 1⟩
    | .fp (.inf neg) => if neg then qNeg (fMax (fpFmt f)) else fMax (fpFmt f)
    | .fp v => fVal v
  let lim : Int := if x.num < 0 then int40Min else int40Max
  if entMant ce = 0 then
    if qIsZero x then ⟨0, false, false, odd, false⟩ else ⟨lim, true, false, odd, false⟩
  else
    let unit : Int := if fmtInt (entFmt ce) then 0 else -16
    let (v, o) := sat40 (qRound (qDiv (qScale x (15 + (entShift ce : Int) - unit)) (qOf (entMant ce))))
    ⟨v, o, false, odd, false⟩

/-- The slot that PRE opens. -/
def preSlot (rd : RidgeSt) (w : W128) (b : List Byte) : Slot :=
  let f := preFmtOf w
  let n := preLen w
  let t := preTable w
  let half := descHalf (rscDesc rd t)
  let ent (i : Nat) : Entry := match preMode w with
    | 1 => biasEntry f b i
    | 2 => residualEntry f (chanEntry rd half t (preChan w + i)) (eltAt f n b i)
    | _ => .zero
  let base := slotOf rd (slotNo w)
  { opened := true, pin := preMode w = 2, pinTable := if preMode w = 2 then t else 0, gen := bits w 87 80, exp := sbits w 96 88,
    len := n, expect := bits w 79 68, received := 0,
    entries := (List.range n).foldl (fun t i => tset .zero t i (ent i)) base.entries,
    comps := (List.range n).foldl (fun t i => tset 0 t i 0) base.comps, ledger := .empty, closing := false }

/-- PRE opens a slot (R155, R156, R159, R193). -/
def execPre (r : Ridge) (x : Ctx) (w : W128) (s : State) : Out :=
  issue s r x w 0x18 (fun s =>
    let rd := getR s r
    let k := slotNo w
    let sl := slotOf rd k
    let t := preTable w
    if lockedClaim s (4, r, k) || sl.closing || (preMode w = 2 && claimed s (2, r, t)) then .wait
    else if sl.opened then .fault 0x07
    else if preMode w = 2 && decide (descCount (rscDesc rd t) < preChan w + preLen w) then .fault 0x01
    else if preMode w = 0 then .next (setSlot s r k (preSlot rd w []))
    else match laOp s r (preSrc w) (vecBytes (preFmtOf w) (preLen w)) (fmtAlign (preFmtOf w)) false with
      | none => .fault 0x03
      | some o =>
        if !loamFree s r [rangeOf o (vecBytes (preFmtOf w) (preLen w))] [] then .wait
        else
          let (b, bad) := ldLoam s o (vecBytes (preFmtOf w) (preLen w))
          if bad then .fault 0x11 else .next (setSlot s r k (preSlot rd w b)))

/-! ### DRN -/

def drnTable (w : W128) : Nat := bits w 105 98
def drnChan (w : W128) : Nat := bits w 97 84
def drnEsc (w : W128) : Bool := bitAt w 118
def drnMap (w : W128) : Bool := bitAt w 117

/-- OUT_FMT of a drain, when its channel entries agree and lie in the table (R141, R194). -/
def drnFmt (rd : RidgeSt) (w : W128) (len : Nat) : Option Nat :=
  let t := drnTable w
  let half := descHalf (rscDesc rd t)
  let f := entFmt (chanEntry rd half t (drnChan w))
  if decide (drnChan w + len ≤ descCount (rscDesc rd t)) && drnOutput f &&
      (List.range len).all (fun i => entFmt (chanEntry rd half t (drnChan w + i)) = f) &&
      !(fmtMX f && decide (len % 32 ≠ 0 ∨ drnChan w % 32 ≠ 0)) then some f else none

/-- Bytes that a drain's side list may take. -/
def drnListLen (f len : Nat) : Nat := if (escCode f).isSome then 8 + 8 * min 64 len else 8
/-- Operands a drain writes: address, bytes, alignment. -/
def drnOps (w : W128) (f len : Nat) : List (Nat × Nat × Nat) :=
  [(bits w 83 57, vecBytes f len, fmtAlign f)] ++ (if drnMap w then [(bits w 56 30, (len + 1) / 2, 1)] else []) ++
    (if drnEsc w then [(bits w 29 3, drnListLen f len, 8)] else [])

/-- The Loam ranges that a drain writes; none when one of them is not accessible. -/
def drnWrites (s : State) (r : Nat) (w : W128) (f len : Nat) : Option (List LRange) :=
  let locs := (drnOps w f len).map (fun o => (laOp s r o.1 o.2.1 o.2.2 true).map (fun l => rangeOf l o.2.1))
  if locs.any (fun l => l.isNone) then none else some (locs.filterMap id)
/-- Bytes that a drain stages in a rope. -/
def drnSize (w : W128) (f len : Nat) : Nat := ((drnOps w f len).map (fun o => o.2.1)).foldl (· + ·) 0
/-- A drain's window entry. -/
def drnWin (rd : RidgeSt) (x : Ctx) (w : W128) (writes : List LRange) : Win :=
  { mkWin rd x w .drain with half := descHalf (rscDesc rd (drnTable w)), writes := writes }
/-- The slot that a drain may take: open, not closing, its pin on the drain's table (R156, R194) (DESIGN CHOICE, notes/assumptions/57). -/
def drnSlotFault (sl : Slot) (w : W128) : Option Nat :=
  if !sl.opened || sl.closing then some 0x08 else if sl.pin && sl.pinTable ≠ drnTable w then some 0x0C else none

/-- DRN at issue: the slot closes and the drain waits (R159, R194). -/
def execDrn (r : Ridge) (x : Ctx) (w : W128) (s : State) : Out :=
  issue s r x w 0x19 (fun s =>
    let rd := getR s r
    let k := slotNo w
    let sl := slotOf rd k
    if lockedClaim s (4, r, k) || lockedClaim s (2, r, drnTable w) then .wait
    else match drnSlotFault sl w, drnFmt rd w sl.len with
      | some code, _ => .fault code
      | none, none => .fault 0x01
      | none, some f => match drnWrites s r w f sl.len with
        | none => .fault 0x03
        | some writes =>
          if !loamFree s r [] writes then .wait
          else
            let e := drnWin rd x w writes
            match stageAs s r x (drnSize w f sl.len) (.drain r k e.id) with
            | .plain => issueWin (setClosing s r k true) r e
            | .fault => .fault 0x0F
            | .gone t => .stay t
            | .staged t n => issueWin (setClosing t r k true) r { e with rope := some n })

/-- What a drain produces: Loam writes (ridge, offset, bytes, tag) and the counts it adds. -/
def drainStaged (s : State) (r : Nat) (w : Win) : Staged :=
  let rd := getR s r
  let k := slotNo w.w
  let sl := slotOf rd k
  let t := drnTable w.w
  let f := entFmt (chanEntry rd w.half t (drnChan w.w))
  let bs := (List.range sl.len).map (fun i => drainB rd w.half t (drnChan w.w + i) (slotEntry sl i).val)
  let out := drainOut f (drnEsc w.w) bs
  let shift := rd.accCfg.toNat % 16
  let ents := (List.range sl.len).map (fun i =>
    let e := slotEntry sl i
    { e with cancel := cancels shift e (slotComp sl i) })
  let tag := ledgerTag sl.ledger
  let put (a : Nat) (d : List Byte) : List (Nat × Nat × List Byte × W32) := match laPhys s r a with
    | some q => [(q, laOff a, d, tag)]
    | none => []
  let n (g : Entry → Bool) : Nat := (ents.filter g).length
  { loam := put (bits w.w 83 57) out.data ++ (if drnMap w.w then put (bits w.w 56 30) (packCodes 0 (ents.map flagNibble)) else []) ++
      (if drnEsc w.w then put (bits w.w 29 3) (sideBytes out.escapes) else []),
    mem := [], sat := n (fun e => e.sat), clip := n (fun e => e.clip), scree := n (fun e => e.scree), cancel := n (fun e => e.cancel),
    outsat := out.outsat, esc := out.escapes.length }

/-- A drain's counts enter the job's report (R164). -/
def addCounts (s : State) (r : Nat) (x : Ctx) (g : Staged) : State :=
  match x, (getR s r).job with
  | .job, some (p, id) => updJob s p id (fun j =>
      { j with sat := j.sat + g.sat, clip := j.clip + g.clip, screeOvf := j.screeOvf + g.scree, cancel := j.cancel + g.cancel,
               outsat := j.outsat + g.outsat, esc := j.esc + g.esc })
  | _, _ => s
/-- Writes what was drained or spilled; true when a CDU of it failed (R235). -/
def writeStaged (s : State) (r : Nat) (g : Staged) : State × Bool :=
  let a := g.loam.foldl (fun (acc : State × Bool) w =>
    let t := stLoam acc.1 r ⟨w.1, w.2.1⟩ w.2.2.1 w.2.2.2
    (t.1, acc.2 || t.2)) (s, false)
  g.mem.foldl (fun (acc : State × Bool) w =>
    let t := dramWrite acc.1 w.1 w.2
    (t.2.foldl (fun s p => raiseInteg s r 0x01 (partByte s r) 2 (p / 4096 % 12) 0xFF 0 p 0) t.1, acc.2 || !t.2.isEmpty)) a

/-- CDUs of a drain's output that a slot entry reaches: the first write, at the entry's bits (DESIGN CHOICE, notes/assumptions/59). -/
def ueCdus (f : Nat) (g : Staged) (ue : List Nat) : List (Nat × Nat) :=
  match g.loam with
  | w :: rest =>
    (ue.flatMap (fun i => (cdusOf (w.2.1 + i * fmtBits f / 8) (max 1 (fmtBits f / 8))).map (fun c => (w.1, c)))) ++
      rest.flatMap (fun v => ue.flatMap (fun i => (cdusOf (v.2.1 + i / 2) 1).map (fun c => (v.1, c))))
  | [] => []
/-- An uncorrectable error in a slot entry poisons the CDUs it reaches and is reported (R165). -/
def slotUe (s : State) (r : Nat) (cd : List (Nat × Nat)) : State :=
  let s1 := cd.foldl (fun s c => updR s c.1 (fun rd => { rd with poison := tset false rd.poison c.2 true })) s
  if cd.isEmpty then s1
  else raiseInteg s1 r 0x03 (partByte s1 r) 3 r 0xFF (match jobOn s r with
    | some j => j.id
    | none => 0) 0 0

/-- DRAIN_COMPLETE: the drain's last output CDU is written and the slot is free (R163 to R166); a drain of a rope stays staged until COMMIT. -/
def execDrainComplete (r : Ridge) (id : Nat) (ue : List Nat) (s : State) : Out :=
  match findWin s r id with
  | none => .next s
  | some w =>
    if w.kind ≠ .drain || w.staged.isSome || faultedWin (getR s r) w || !slotReady s r w then .next s
    else
      let g := drainStaged s r w
      if w.rope.isSome then .next (updWin s r id (fun w => { w with staged := some g }))
      else
        let k := slotNo w.w
        let f := entFmt (chanEntry (getR s r) w.half (drnTable w.w) (drnChan w.w))
        let (s1, bad) := writeStaged s r g
        let s2 := slotUe s1 r (ueCdus f g ue)
        let s3 := freeSlot (addCounts s2 r w.ctx g) r k
        .next (if bad then execFault s3 r w 0x11 else retire s3 r id)

/-! ### SPL and FIL -/

/-- A spill that may go on takes its window entry, closes its slot, and completes at once where the slot is complete; in an open rope it is staged (R159, R166, R168). -/
def splGo (s : State) (r : Nat) (x : Ctx) (w : W128) (ws : List LRange) : Iss :=
  let k := slotNo w
  let e := { mkWin (getR s r) x w .waitSlot with writes := ws }
  match stageAs s r x 6400 (.spill r k e.id) with
  | .plain => .next (settleRidge (pushWin (setClosing s r k true) r e) r)
  | .fault => .fault 0x0F
  | .gone t => .stay t
  | .staged t n => .next (settleRidge (pushWin (setClosing t r k true) r { e with rope := some n }) r)
/-- Some piece of a range is in a peer's window. -/
def anyPeer (ps : List Piece) : Bool := ps.any (fun c => match c.loc with
  | .peer _ _ _ => true
  | .mem _ => false)
/-- The job whose DVAs an instruction may name: the context's own (R196). -/
def dvaJob (s : State) (r : Nat) (x : Ctx) : Option Job := match x with
  | .job => jobOn s r
  | .service => none

/-- SPL at issue (R168, R195): it waits for its slot, and may complete at once. -/
def execSpl (r : Ridge) (x : Ctx) (w : W128) (s : State) : Out :=
  issue s r x w 0x1A (fun s =>
    let rd := getR s r
    let k := slotNo w
    let sl := slotOf rd k
    let m := imageMaddr w
    if lockedClaim s (4, r, k) then .wait
    else if !sl.opened || sl.closing then .fault 0x08
    else if sl.pin then .fault 0x0C
    else if maddrSpace m then
      match dvaJob s r x with
      | none => .fault 0x03
      | some j =>
        if maddrDva m % 256 ≠ 0 then .fault 0x03
        else match ridgePlaces s j.part j r (maddrDva m) 6400 1 (ctxOf rd x).pc with
          | .places ps =>
            if anyPeer ps && (ctxOf rd x).rope.isSome then .fault 0x0F
            else splGo (if anyPeer ps then markDirty s r else s) r x w []
          | .wait t => .stay t
          | .bytes _ _ => .wait
    else match laOp s r (maddrLaddr m) 6400 256 true with
      | none => .fault 0x03
      | some o => if !loamFree s r [] [rangeOf o 6400] then .wait else splGo s r x w [rangeOf o 6400])

/-- Checks of FIL, and its contribution, over the header and what lies below LEN (R169). -/
def imageOk (sl : Slot) (b : List Byte) : Bool :=
  let im := imageOf b
  imageSigOk b && im.len = sl.len && im.exp = sl.exp &&
    (List.range sl.len).all (fun i => decide (im.entries.getD i 0 / 2 ^ 43 = 0) && compOk (im.comps.getD i 0))
def filSlot (sl : Slot) (b : List Byte) : Slot :=
  let im := imageOf b
  let k := (List.range sl.len).foldl (fun k i =>
    let e := entryOf (im.entries.getD i 0)
    commitAt k i ⟨e.val, e.sat, e.clip, e.scree, im.comps.getD i 0⟩) sl
  { k with received := sl.received + 1, ledger := mergeLedger sl.ledger im.ledger }

/-- Poison in the parts of an image that FIL reads: header, entries and companions below LEN. -/
def imageParts (len : Nat) : List (Nat × Nat) := [(0, 64), (0x100, 8 * len), (0x1100, 4 * len)]

/-- The image read by a FIL is checked and committed (R169). -/
def filGo (s : State) (r : Nat) (w : W128) (b : List Byte) (bad : Bool) : Iss :=
  let k := slotNo w
  let sl := getSlot s r k
  if bad then .fault 0x11
  else if sl.received = sl.expect then .fault 0x09
  else if !imageOk sl b then .fault 0x0B
  else .next (settleRidge (setSlot s r k (filSlot sl b)) r)

/-- FIL commits an image into an open slot (R169, R195) (DESIGN CHOICE, notes/assumptions/57). -/
def execFil (r : Ridge) (x : Ctx) (w : W128) (s : State) : Out :=
  issue s r x w 0x1B (fun s =>
    let rd := getR s r
    let k := slotNo w
    let sl := slotOf rd k
    let m := imageMaddr w
    if lockedClaim s (4, r, k) then .wait
    else if !sl.opened || sl.closing then .fault 0x08
    else if earlierInto r rd rd.nextId k then .wait
    else if maddrSpace m then
      match dvaJob s r x with
      | none => .fault 0x03
      | some j =>
        if maddrDva m % 256 ≠ 0 then .fault 0x03
        else
          let rds := (imageParts sl.len).map (fun q => ridgeRead s j.part j r (maddrDva m + q.1) q.2 (ctxOf rd x).pc)
          match rds with
          | [.bytes h hb, .bytes e eb, .bytes c cb] =>
            filGo (dropOnce s j.part r) r w (bytesAt h 0 256 ++ bytesAt e 0 4096 ++ bytesAt c 0 2048) (hb || eb || cb)
          | _ => match rds.find? (fun d => match d with
              | .wait _ => true
              | _ => false) with
            | some (.wait t) => .stay t
            | _ => .wait
    else match laOp s r (maddrLaddr m) 6400 256 false with
      | none => .fault 0x03
      | some o =>
        if !loamFree s r [rangeOf o 6400] [] then .wait
        else filGo s r w (ldLoam s o 6400).1 ((imageParts sl.len).any (fun q => (ldLoam s ⟨o.ridge, o.off + q.1⟩ q.2).2)))

/-! ### AAD -/

/-- An AAD of FORM 1 that may go on: the job is marked, the source slot closes, and the entry waits for it (R170, R376). -/
def aadImageGo (s : State) (r : Nat) (x : Ctx) (w : W128) (ws : List LRange) : Iss :=
  .next (settleRidge (pushWin (setClosing (markDirty s r) r (slotNo w) true) r { mkWin (getR s r) x w .waitSlot with writes := ws }) r)

/-- AAD of FORM 0 and 1 at issue: the source slot closes and is waited for. -/
def aadSlotBody (r : Ridge) (x : Ctx) (w : W128) (s : State) : Iss :=
  let rd := getR s r
  let k := slotNo w
  let sl := slotOf rd k
  let m := imageMaddr w
  if lockedClaim s (4, r, k) then .wait
  else if !sl.opened || sl.closing then .fault 0x08
  else if sl.pin then .fault 0x0C
  else if aadForm w = 0 then
    match jobOn s r with
    | none => .fault 0x03
    | some j => match (if x = .job then physRidge j (bits w 105 100) else none) with
      | none => .fault 0x03
      | some q =>
        let tk := slotOf rd (bits w 99 94)
        if q = r.val && (!tk.opened || tk.closing || bits w 99 94 = k) then .fault 0x08
        else .next (settleRidge (pushWin (setClosing s r k true) r { mkWin rd x w .waitSlot with aux := q }) r)
  else match dvaJob s r x with
    | none => .fault 0x03
    | some j =>
      if maddrSpace m then
        if maddrDva m % 256 ≠ 0 then .fault 0x03
        else match ridgePlaces s j.part j r (maddrDva m) 6400 2 (ctxOf rd x).pc with
          | .places _ => aadImageGo s r x w []
          | .wait t => .stay t
          | .bytes _ _ => .wait
      else match laOp s r (maddrLaddr m) 6400 256 true with
        | none => .fault 0x03
        | some o => if !loamFree s r [] [rangeOf o 6400] then .wait else aadImageGo s r x w [rangeOf o 6400]

/-- The Loam range that an AAD of FORM 2 or 3 writes, with the target's alignment checked; none when it is not accessible. -/
def vecTarget (s : State) (r : Nat) (m n : Nat) : Option (List LRange) :=
  if maddrSpace m then (if maddrDva m % 4 = 0 then some [] else none) else (laOp s r (maddrLaddr m) n 4 true).map (fun t => [rangeOf t n])
/-- The atomics of a vector, one for each CDU piece of its target. -/
def vecAtomics (s : State) (j : Job) (r : Nat) (w : W128) (id : Nat) (l : List (Place × Nat)) (d : List Byte) : State :=
  let n := d.length
  let m := vecMaddr w
  let op : AtomOp := if aadForm w = 2 then .int32 else .fp32
  (l.foldl (fun (acc : State × List Byte) c =>
    (addAtomic acc.1 j r id op c.1 none (acc.2.take c.2) (if maddrSpace m then maddrDva m + (n - acc.2.length) else 0), acc.2.drop c.2)) (s, d)).1

/-- AAD of FORM 2 and 3 at issue: the vector is read and becomes one atomic for each CDU. -/
def aadVecBody (r : Ridge) (x : Ctx) (w : W128) (s : State) : Iss :=
  let rd := getR s r
  let n := 4 * (bits w 35 20 + 1)
  let m := vecMaddr w
  match dvaJob s r x, laOp s r (bits w 111 85) n 4 false, vecTarget s r m n with
  | some j, some o, some ws =>
    if !loamFree s r [rangeOf o n] ws then .wait
    else
      let (d, bad) := ldLoam s o n
      if bad then .fault 0x11
      else match maddrPlaces s r j m n 2 (ctxOf rd x).pc with
        | .wait t => .stay t
        | .found l =>
          let e := { mkWin rd x w .memAtomic with writes := ws, parts := l.length, aux := 1 }
          .next (vecAtomics (pushWin (markDirty s r) r e) j r w e.id l d)
  | _, _, _ => .fault 0x03

/-- AAD (R170, R196). -/
def execAad (r : Ridge) (x : Ctx) (w : W128) (s : State) : Out :=
  issue s r x w 0x1C (if decide (aadForm w ≤ 1) then aadSlotBody r x w else aadVecBody r x w)

/-- What the target says to an arriving AAD (R160). -/
def aadCheck (s : State) (m : AadMsg) : Option Nat :=
  let sl := getSlot s m.tgtRidge m.tgtSlot
  if !(getP s m.part).ridges.toNat.testBit m.tgtRidge then some 0x0A
  else if !sl.opened || sl.gen ≠ m.gen then some 0x08
  else if sl.received = sl.expect then some 0x09
  else if sl.len < m.off + m.len || sl.exp ≠ m.exp then some 0x0B
  else none
/-- The target slot after the commit of an AAD (R158, R170). -/
def aadSlot (sl : Slot) (m : AadMsg) : Slot :=
  let k := (List.range m.len).foldl (fun k i =>
    let e := tget .zero m.entries i
    commitAt k (m.off + i) ⟨e.val, e.sat, e.clip, e.scree, tget 0 m.comps i⟩) sl
  { k with received := sl.received + 1, ledger := mergeLedger sl.ledger m.ledger }

/-- AAD_ARRIVAL: the message is checked and committed, or rejected with a fault at the sending stream (R160). An AAD into a slot of its own ridge keeps issue order (R159). -/
def execAadArrival (id : Nat) (s : State) : Out :=
  match s.mem.aads.find? (fun m => m.id = id) with
  | none => .next s
  | some m =>
    if m.srcRidge = m.tgtRidge && earlierInto m.srcRidge (getR s m.srcRidge) m.win m.tgtSlot then .next s
    else
      let s1 := { s with mem := { s.mem with aads := s.mem.aads.filter (fun v => v.id ≠ id) } }
      match aadCheck s m with
      | some code =>
        match findWin s1 m.srcRidge m.win with
        | some w => .next (execFault s1 m.srcRidge w code)
        | none => .next s1
      | none =>
        let s2 := setSlot s1 m.tgtRidge m.tgtSlot (aadSlot (getSlot s1 m.tgtRidge m.tgtSlot) m)
        .next (settleRidge (settleRidge (retire s2 m.srcRidge m.win) m.srcRidge) m.tgtRidge)

/-! ### MEMORY_ATOMIC_APPLY -/

/-- Sets SAT_ANY in the header of a local image when a merge set SAT (R170) (DESIGN CHOICE, notes/assumptions/59). -/
def markImage (s : State) (h : Option Place) : State :=
  match h with
  | some (.loam q o) =>
    updR s q (fun rd => { rd with loam := tset none rd.loam (o + 8) (some (loamByte rd q (o + 8) ||| 1)) })
  | some (.local pa) => dramPut s (pa + 8) [(dramBytes s (pa + 8) 1).headD 0 ||| 1]
  | _ => s

/-- The tag of bytes an atomic leaves in Loam (R371). -/
def atomTag (s : State) (m : MemAtomic) : W32 := match findJob s m.part m.job with
  | some j => tagFromMemory s j m.ridge
  | none => tagPlain

/-- What a saturated result adds (R170, R171): an INT32 sum counts for the job, an entry marks its image (DESIGN CHOICE, notes/assumptions/56). -/
def atomSat (s : State) (m : MemAtomic) (sat : Bool) : State :=
  let s1 := if sat && m.op = .int32 then updJob s m.part m.job (fun j => { j with outsat := j.outsat + 1 }) else s
  if sat && m.op = .entry40 then markImage s1 m.hdr else s1

/-- A local atomic is applied to its CDU (R171): a poisoned CDU or a wrong header fails at the sending stream; a saturated INT32 sum is counted for the job. -/
def atomLocal (s : State) (m : MemAtomic) (old : List Byte) (bad : Bool) (put : State → List Byte → State) (loc unit : Nat) (addr : Nat) : State :=
  if bad then atomFault (raiseInteg s m.ridge 0x01 m.part loc unit 0xFF m.job addr 0) m.ridge m.win 0x11
  else
    let a := atomApply m.op old m.data
    if a.range then atomFault s m.ridge m.win 0x0B
    else
      atomDone (atomSat (put s a.data) m a.sat) m.ridge m.win

/-- MEMORY_ATOMIC_APPLY: one atomic is applied, or, for a peer's memory, sent (R171, R340). -/
def execMemoryAtomicApply (id : Nat) (s : State) : Out :=
  match s.mem.atomics.find? (fun m => m.id = id) with
  | none => .next s
  | some m =>
    let s1 := { s with mem := { s.mem with atomics := s.mem.atomics.filter (fun v => v.id ≠ id) } }
    let n := m.data.length
    match m.place with
    | .loam q o =>
      .next (atomLocal s1 m (loamBytes (getR s q) q o n) (loamBad (getR s q) o n)
        (fun s d => updR s q (fun rd => loamPut rd o d (atomTag s m))) 0 q o)
    | .local pa => .next (atomLocal s1 m (dramBytes s pa n) (dramBad s pa n) (fun s d => dramPut s pa d) 2 (pa / 4096 % 12) pa)
    | .remote dev off =>
      match findJob s m.part m.job with
      | none => .next s1
      | some j =>
        if j.st = .suspended || j.st = .saved then .next s
        else match remoteBar s m.part dev with
          | some c => .next (mmuFault s m.ridge m.part m.job 0 ((progRidge j m.ridge).getD 0xFF) c m.dva 2 0x20 0xFFFF
              (((findWin s m.ridge m.win).map (fun w => w.idx)).getD 0) 0)
          | none => .next ((peerSend s1 j (mkReq 3 dev m.part m.job m.ridge m.win off (atomCode m.op) m.data m.dva)).getD s)

/-! ### PAGE_WALK -/

/-- PAGE_WALK: a walk ends (R253). A fault of an instruction in an open rope aborts the rope (R262). -/
def execPageWalk (id : Nat) (s : State) : Out :=
  match s.mem.walks.find? (fun w => w.id = id) with
  | none => .next s
  | some w =>
    let s1 := pageWalk id s
    let failed : Bool := match findJob s w.part w.job with
      | some j => (match walkDva s w.part j w.dva w.access with
        | .ok _ => false
        | .fault _ _ => true)
      | none => false
    if w.source = 0 && decide (w.agent < 48) then
      if failed then
        match (getR s1 w.agent).jobCtx.rope with
        | some o => .next (ropeAbort s1 o.entry 0x01 0x12 0)
        | none => .next s1
      else .next (settleRidge s1 w.agent)
    else .next s1

end Sys2Proof.Machine
end

