-- ==== Sys2Proof/Machine/Dmu.lean ====
section
/-!
DEFINITION. The DMU and its vector lanes: DMM (R197 to R200), VOP (R201 to R203) and RED (R174 to R178, R204). Each has no completion row and takes its whole effect at issue.
-/

namespace Sys2Proof.Machine

/-! ### Shared pieces -/

/-- A list in chunks of 32 (R199, step 3). -/
def chunksAux {α : Type} : Nat → List α → List (List α)
  | 0, _ => []
  | n + 1, l => if l.isEmpty then [] else l.take 32 :: chunksAux n (l.drop 32)
def chunks {α : Type} (l : List α) : List (List α) := chunksAux (l.length / 32 + 1) l

def sat32 (x : Int) : Int := clampI (-(2 ^ 31)) (2 ^ 31 - 1) x
/-- Accumulation of integer products (R199): exact chunks, each accumulator addition saturated. -/
def accInt (a : Int) (l : List Int) : Int := (chunks l).foldl (fun a c => sat32 (a + c.foldl (· + ·) 0)) a
/-- Accumulation of FP32 products (R199): a balanced tree for each chunk, chunk sums in order. -/
def accFp (a : W32) (l : List W32) : W32 := (chunks l).foldl (fun a c => f32Add a (treeSum f32Add 0 c)) a

/-- An FP32 result narrowed to an output format. -/
def narrow32 (f : Nat) (x : W32) : Nat × Bool := narrowFV f false (f32Dec x)

/-- Adds output saturations to the job's count (R164). -/
def addOutsat (s : State) (r : Nat) (x : Ctx) (n : Nat) : State := addCounts s r x ⟨[], [], 0, 0, 0, 0, n, 0⟩

/-- Writes a result; a CDU that fails its old check word stops the stream (R235) (DESIGN CHOICE, notes/assumptions/56). -/
def dmuWrite (s : State) (r : Nat) (x : Ctx) (l : List (LOp × List Byte)) (tag : W32) (outsat : Nat) : Iss :=
  let t := l.foldl (fun (acc : State × Bool) w =>
    let u := stLoam acc.1 r w.1 w.2 tag
    (u.1, acc.2 || u.2)) (addOutsat s r x outsat, false)
  if t.2 then .stay (faultAt t.1 r x 0x11 (ctxOf (getR s r) x).pc) else .next t.1

/-- The tags of a Loam operand's CDUs. -/
def opTags (s : State) (o : LOp) (n : Nat) : List W32 := tagsAt (getR s o.ridge) o.off n

/-! ### DMM -/

/-- An element of a matrix row-major in bytes, rows spaced by a stride. -/
def matElt (f cols stride : Nat) (b : List Byte) (i j : Nat) : Elt :=
  eltAt f cols ((b.drop (i * stride)).take (vecBytes f cols)) j

/-- The terms of c[m][n], as pairs of operands in order of k (R198). -/
def dmmTerms (d : DmuDesc) (a b : List Byte) (m n : Nat) : List (Elt × Elt) :=
  (List.range d.k).map (fun k =>
    if d.kind = 1 then (matElt d.fa d.n d.sa a (m + k) n, matElt d.fb d.n d.sb b k n)
    else (matElt d.fa d.k d.sa a m k,
      if d.trans = 1 then matElt d.fb d.k d.sb b n k else matElt d.fb d.n d.sb b k n))

/-- One output element: code and whether it saturated (R199). c0 is C's own code under ACC. -/
def dmmElt (d : DmuDesc) (acc : Bool) (c0 : Nat) (ts : List (Elt × Elt)) : Nat × Bool :=
  if dmuIntOp d.fa then
    let v := accInt (if acc then asSigned 32 c0 else 0) (ts.map (fun t => eltInt t.1 * eltInt t.2))
    if d.fc = 5 then (ofSigned 32 v, false) else narrow32 d.fc (f32Mul (f32OfInt v) d.scale)
  else
    let v := accFp (if acc then BitVec.ofNat 32 c0 else 0) (ts.map (fun t => f32Mul (eltF32 d.fa t.1) (eltF32 d.fb t.2)))
    let y := f32Mul v d.scale
    if d.fc = 11 then (y.toNat, false) else narrow32 d.fc y

/-- The rows of C: for each, its codes and saturations. -/
def dmmRow (d : DmuDesc) (acc : Bool) (a b c : List Byte) (m : Nat) : List (Nat × Bool) :=
  (List.range d.n).map (fun n =>
    dmmElt d acc (rawAt d.fc ((c.drop (m * d.sc)).take (vecBytes d.fc d.n)) n) (dmmTerms d a b m n))

/-- Operand B by address space: bytes and poison, or what stops it. -/
inductive BRes where
  | ok (b : List Byte) (bad : Bool) (tags : List W32) (reads : List LRange)
  | fault
  | wait
  | stay (s : State)
  deriving DecidableEq, Repr
def dmmB (s : State) (r : Nat) (x : Ctx) (w : W128) (d : DmuDesc) : BRes :=
  let m := maddrAt w 0
  if maddrSpace m then
    match dvaJob s r x with
    | none => .fault
    | some j =>
      if maddrDva m % fmtAlign d.fb ≠ 0 then .fault
      else match ridgeRead s j.part j r (maddrDva m) (spanB d) (ctxOf (getR s r) x).pc with
        | .bytes b bad => .ok b bad [] []
        | .wait t => .stay t
        | .places _ => .wait
  else match laOp s r (maddrLaddr m) (spanB d) (fmtAlign d.fb) false with
    | none => .fault
    | some o => .ok (ldLoam s o (spanB d)).1 (ldLoam s o (spanB d)).2 (opTags s o (spanB d)) [rangeOf o (spanB d)]

/-- The descriptor a DMM names. -/
def dmuAt (rd : RidgeSt) (w : W128) : DmuDesc := dmuOf (tget 0 rd.dmu (bits w 111 103))
/-- What a DMM writes: the rows of C at their places, the tag of what it read (R371) and its output saturations (DESIGN CHOICE, notes/assumptions/59). -/
def dmmResult (s : State) (d : DmuDesc) (acc : Bool) (a c : LOp) (ab b cb : List Byte) (btags : List W32) : List (LOp × List Byte) × W32 × Nat :=
  let rows := (List.range d.m).map (dmmRow d acc ab b cb)
  (((List.range d.m).zip rows).map (fun y => ((⟨c.ridge, c.off + y.1 * d.sc⟩ : LOp), packCodes d.fc (y.2.map (fun e => e.1)))),
    mergeTags s (opTags s a (spanA d) ++ btags ++ (if acc then opTags s c (spanC d) else [])),
    (rows.map (fun l => (l.filter (fun e => e.2)).length)).foldl (· + ·) 0)
/-- The peer lines read for one operand are used up with it. -/
def dmmBase (s : State) (r : Nat) (x : Ctx) : State := match dvaJob s r x with
  | some j => dropOnce s j.part r
  | none => s

/-- DMM (R197 to R199). -/
def execDmm (r : Ridge) (x : Ctx) (w : W128) (s : State) : Out :=
  issue s r x w 0x20 (fun s =>
    let d := dmuAt (getR s r) w
    let acc := bitAt w 118
    if !dmuOk d acc then .fault 0x06
    else match laOp s r (bits w 102 76) (spanA d) (fmtAlign d.fa) false, laOp s r (bits w 75 49) (spanC d) (fmtAlign d.fc) true with
      | some a, some c =>
        match dmmB s r x w d with
        | .fault => .fault 0x03
        | .wait => .wait
        | .stay t => .stay t
        | .ok b bbad btags breads =>
          if !loamFree s r ([rangeOf a (spanA d)] ++ breads) [rangeOf c (spanC d)] then .wait
          else
            let (ab, abad) := ldLoam s a (spanA d)
            let (cb, cbad) := if acc then ldLoam s c (spanC d) else ([], false)
            if abad || bbad || cbad then .fault 0x11
            else
              let y := dmmResult s d acc a c ab b cb btags
              dmuWrite (dmmBase s r x) r x y.1 y.2.1 y.2.2
      | _, _ => .fault 0x03)

/-! ### VOP -/

def vopOp (w : W128) : Nat := bits w 111 108
def vopLen (w : W128) : Nat := bits w 16 0 + 1
def vopF (w : W128) : Nat := bits w 26 22
def vopOut (w : W128) : Nat := bits w 21 17

/-- Operations 0x0 to 0x5 on integers, exact in 64 bits (R202). -/
def vopInt (op : Nat) (a b : Int) : Int :=
  match op with
  | 0 => a + b
  | 1 => a - b
  | 2 => a * b
  | 3 => max a b
  | 4 => min a b
  | _ => a
/-- The element operations in FP32 (R202). A NaN operand gives a NaN (R125). -/
def vopFp (op : Nat) (a b : W32) : W32 :=
  match op with
  | 0 => f32Add a b
  | 1 => f32Sub a b
  | 2 => f32Mul a b
  | 3 => if f32IsNan a || f32IsNan b then f32NaN else if f32Le a b then b else a
  | 4 => if f32IsNan a || f32IsNan b then f32NaN else if f32Le a b then a else b
  | 8 => f32Mul a (f32Div (f32OfInt 1) (f32Add (f32OfInt 1) (expDev (f32Neg b))))
  | _ => a
/-- SOFTMAX of one row (R202). -/
def softRow (l : List W32) : List W32 :=
  let m := l.foldl (fun a b => if f32IsNan a || f32IsNan b then f32NaN else if f32Le a b then b else a) (l.headD 0)
  let es := l.map (fun a => expDev (f32Sub a m))
  let t := treeSum f32Add 0 es
  es.map (fun e => f32Div e t)
/-- The rows of a list, of n elements each. -/
def rowsAux {α : Type} (n : Nat) : Nat → List α → List (List α)
  | 0, _ => []
  | k + 1, l => if l.isEmpty then [] else l.take n :: rowsAux n k (l.drop n)
def rowsOf {α : Type} (n : Nat) (l : List α) : List (List α) := rowsAux n (l.length / max n 1 + 1) l

/-- A RED record as NORM and COMBINE read it (R177). -/
structure RedRec where
  count : Nat
  kind : Nat
  flags : Nat
  sum : Nat
  sumsq : Nat
  mean : W32
  var : W32
  deriving DecidableEq, Repr, Inhabited
def redOf (b : List Byte) : RedRec :=
  { count := fieldAt b 0 4, kind := fieldAt b 4 1, flags := fieldAt b 5 1, sum := fieldAt b 8 8, sumsq := fieldAt b 16 8,
    mean := BitVec.ofNat 32 (fieldAt b 24 4), var := BitVec.ofNat 32 (fieldAt b 28 4) }
def redBytes (g : RedRec) : List Byte :=
  layFields 32 [(0, 4, g.count), (4, 1, g.kind), (5, 1, g.flags), (8, 8, g.sum), (16, 8, g.sumsq), (24, 4, g.mean.toNat), (28, 4, g.var.toNat)]

/-- The NORM parameter block (R203). -/
structure NormBlk where
  records : Nat
  gamma : Nat
  beta : Nat
  eps : W32
  pfmt : Nat
  plain : Bool
  bad : Bool
  deriving DecidableEq, Repr
def normOf (b : List Byte) : NormBlk :=
  let eps : W32 := BitVec.ofNat 32 (fieldAt b 12 4)
  { records := fieldAt b 0 4 % 2 ^ 27, gamma := fieldAt b 4 4 % 2 ^ 27, beta := fieldAt b 8 4 % 2 ^ 27, eps := eps,
    pfmt := fieldAt b 16 1, plain := (fieldAt b 17 1).testBit 0,
    bad := decide (2 ^ 27 ≤ fieldAt b 0 4) || decide (2 ^ 27 ≤ fieldAt b 4 4) || decide (2 ^ 27 ≤ fieldAt b 8 4) || decide (2 ≤ fieldAt b 17 1) ||
      !zeroAt b 18 14 || !List.contains [9, 10, 11] (fieldAt b 16 1) || !f32Finite eps || qLt (f32Val eps) ⟨0, 1⟩ }

/-- What a vector operation gives: results in FP32 and what it read besides A and B, or a fault. -/
inductive VRes where
  | ok (l : List W32) (tags : List W32)
  | fault (code : Nat)
  deriving DecidableEq, Repr

/-- Reads records until their COUNTs sum to LEN (R203). -/
def normRecords (s : State) (r : Nat) : Nat → Nat → Nat → Except Nat (List RedRec)
  | 0, _, _ => .error 0x05
  | n + 1, a, left =>
    match laOp s r a 32 4 false with
    | none => .error 0x03
    | some o =>
      let (b, bad) := ldLoam s o 32
      let g := redOf b
      if bad then .error 0x11
      else if g.count = 0 || left < g.count then .error 0x05
      else if g.count = left then .ok [g]
      else match normRecords s r n (a + 32) (left - g.count) with
        | .ok l => .ok (g :: l)
        | .error c => .error c

/-- One row of NORM (R203). -/
def normRow (eps : W32) (gb : Option (List W32 × List W32)) (g : RedRec) (xs : List W32) : List W32 :=
  if g.flags.testBit 1 || f32IsNan g.mean || f32IsNan g.var then xs.map (fun _ => f32NaN)
  else
    let v := qAdd (f32Val g.var) (f32Val eps)
    if qLt v ⟨0, 1⟩ then xs.map (fun _ => f32NaN)
    else
      let rs := if qIsZero v then f32Max else f32Rsqrt v
      ((List.range xs.length).zip xs).map (fun ix =>
        let y := f32Mul (f32Sub ix.2 g.mean) rs
        match gb with
        | some (ga, be) => f32Add (f32Mul y (ga.getD ix.1 0)) (be.getD ix.1 0)
        | none => y)
/-- Rows of xs, as long as the records say. -/
def normRows (eps : W32) (gb : Option (List W32 × List W32)) : List RedRec → List W32 → List W32
  | [], _ => []
  | g :: t, xs => normRow eps gb g (xs.take g.count) ++ normRows eps gb t (xs.drop g.count)

/-- NORM over elements already taken to FP32 (R203). -/
def vopNorm (s : State) (r : Nat) (blk : List Byte) (xs : List W32) : VRes :=
  let p := normOf blk
  if p.bad then .fault 0x05
  else match normRecords s r (xs.length + 1) p.records xs.length with
    | .error c => .fault c
    | .ok recs =>
      let recTags (a : Nat) (n : Nat) : List W32 := match laPhys s r a with
        | some q => opTags s ⟨q, laOff a⟩ n
        | none => []
      if p.plain then .ok (normRows p.eps none recs xs) (recTags p.records (32 * recs.length))
      else
        let n := (recs.map (fun g => g.count)).foldl max 0
        let len := vecBytes p.pfmt n
        match laOp s r p.gamma len (fmtAlign p.pfmt) false, laOp s r p.beta len (fmtAlign p.pfmt) false with
        | some ga, some be =>
          let (gb, b1) := ldLoam s ga len
          let (bb, b2) := ldLoam s be len
          if b1 || b2 then .fault 0x11
          else
            let f32s (b : List Byte) : List W32 := (eltsOf p.pfmt n b).map (eltF32 p.pfmt)
            .ok (normRows p.eps (some (f32s gb, f32s bb)) recs xs)
              (recTags p.records (32 * recs.length) ++ opTags s ga len ++ opTags s be len)
        | _, _ => .fault 0x03

/-- The results of a VOP as output codes with saturation marks. -/
def vopCodes (s : State) (r : Nat) (w : W128) (ab bb : List Byte) : Except Nat (List (Nat × Bool) × List W32) :=
  let f := vopF w
  let o := vopOut w
  let n := vopLen w
  let as := eltsOf f n ab
  let op := vopOp w
  if decide (op ≤ 5) && fmtInt f && fmtInt o then
    let bs := if op = 5 then as else eltsOf f n bb
    .ok (List.zipWith (fun a b => narrowQ o false (qOf (vopInt op (eltInt a) (eltInt b)))) as bs, [])
  else
    let xs := as.map (eltF32 f)
    if op = 6 then match vopNorm s r bb xs with
      | .ok l t => .ok (l.map (narrow32 o), t)
      | .fault c => .error c
    else if op = 7 then .ok (((rowsOf (bits w 69 54 + 1) xs).flatMap softRow).map (narrow32 o), [])
    else
      let ys := if op = 5 then xs else (eltsOf f n bb).map (eltF32 f)
      .ok ((List.zipWith (vopFp op) xs ys).map (narrow32 o), [])

/-- Operand B of a VOP: its length, whether the operation has one, and where it lies. -/
def vopLenB (w : W128) : Nat := if vopOp w = 6 then 32 else vecBytes (vopF w) (vopLen w)
def vopB (s : State) (r : Nat) (w : W128) : Option (Option LOp) :=
  if vopOp w ≠ 5 && vopOp w ≠ 7 then
    (laOp s r (bits w 80 54) (vopLenB w) (if vopOp w = 6 then 4 else fmtAlign (vopF w)) false).map some
  else some none
/-- The Loam ranges a VOP reads. -/
def vopReads (w : W128) (a : LOp) (b : Option LOp) : List LRange :=
  [rangeOf a (vecBytes (vopF w) (vopLen w))] ++ (match b with
    | some b => [rangeOf b (vopLenB w)]
    | none => [])
/-- Operand B's bytes and poison. -/
def vopBytesB (s : State) (w : W128) (b : Option LOp) : List Byte × Bool := match b with
  | some b => ldLoam s b (vopLenB w)
  | none => ([], false)
/-- The tag of a VOP's result (R371). -/
def vopTag (s : State) (w : W128) (a : LOp) (b : Option LOp) (tags : List W32) : W32 :=
  mergeTags s (opTags s a (vecBytes (vopF w) (vopLen w)) ++ tags ++ (match b with
    | some b => opTags s b (vopLenB w)
    | none => []))

/-- VOP (R201 to R203). -/
def execVop (r : Ridge) (x : Ctx) (w : W128) (s : State) : Out :=
  issue s r x w 0x21 (fun s =>
    let n := vopLen w
    let la := vecBytes (vopF w) n
    let lc := vecBytes (vopOut w) n
    match laOp s r (bits w 107 81) la (fmtAlign (vopF w)) false, vopB s r w, laOp s r (bits w 53 27) lc (fmtAlign (vopOut w)) true with
    | some a, some b, some c =>
      if vopOp w = 7 && n % (bits w 69 54 + 1) ≠ 0 then .fault 0x05
      else if !loamFree s r (vopReads w a b) [rangeOf c lc] then .wait
      else if (ldLoam s a la).2 || (vopBytesB s w b).2 then .fault 0x11
      else match vopCodes s r w (ldLoam s a la).1 (vopBytesB s w b).1 with
        | .error code => .fault code
        | .ok (cs, tags) =>
          dmuWrite s r x [(c, packCodes (vopOut w) (cs.map (fun e => e.1)))] (vopTag s w a b tags) (cs.filter (fun e => e.2)).length
    | _, _, _ => .fault 0x03)

/-! ### RED -/

def redOp (w : W128) : Nat := bits w 113 112
def redLen (w : W128) : Nat := bits w 47 32 + 1
def redRows (w : W128) : Nat := bits w 31 16 + 1

/-- MEAN and VAR of an integer record (R175). -/
def intStats (count : Nat) (sum : Int) (sumsq : Nat) (past : Bool) : W32 × W32 :=
  (f32OfQ (qMk sum count),
    if past then f32Max else f32OfQ (qMk ((count : Int) * sumsq - sum * sum) (count * count)))
/-- A 64-bit field holding an exact value; one it cannot hold is open (Config.wide). -/
def field64 (v : Int) : Nat :=
  if decide (-(2 ^ 63) ≤ v) && decide (v < 2 ^ 63) then ofSigned 64 v else Config.wide v
def field32 (v : Nat) : Nat := if v < 2 ^ 32 then v else Config.wide v
/-- A record of exact integer totals (R175, R177). over: FLAGS bit 0. -/
def intRecord (count : Nat) (sum : Int) (sq : Nat) (flags : Nat) : RedRec :=
  let past := decide (2 ^ 64 ≤ sq) || flags.testBit 0
  let sq1 := min sq (2 ^ 64 - 1)
  let st := intStats count sum sq1 past
  { count := field32 count, kind := 0, flags := flags ||| (if past then 1 else 0), sum := field64 sum, sumsq := sq1, mean := st.1, var := st.2 }

/-- A node of the floating-point tree (R176): n, mean, M2, sum, sum of squares. -/
structure FNode where
  n : Nat
  m : W32
  m2 : W32
  sum : W32
  sq : W32
  deriving DecidableEq, Repr, Inhabited
def nodeAdd (a b : FNode) : FNode :=
  let n := a.n + b.n
  let delta := f32Sub b.m a.m
  let r := f32Div (f32OfInt b.n) (f32OfInt n)
  let w := f32Mul (f32OfInt a.n) r
  { n := n, m := f32Add a.m (f32Mul delta r), m2 := f32Add (f32Add a.m2 b.m2) (f32Mul (f32Mul delta delta) w),
    sum := f32Add a.sum b.sum, sq := f32Add a.sq b.sq }
def fpLeaf (x : W32) : FNode := ⟨1, x, 0, x, f32Mul x x⟩
/-- A record of a floating-point tree's root. -/
def fpRecord (t : FNode) (flags : Nat) : RedRec :=
  { count := field32 t.n, kind := 1, flags := flags, sum := t.sum.toNat, sumsq := t.sq.toNat + 2 ^ 32 * t.m2.toNat, mean := t.m,
    var := f32Div t.m2 (f32OfInt t.n) }
/-- FLAGS of floating-point elements: bit 1 NaN, bit 2 infinity. -/
def fpFlags (l : List Elt) : Nat :=
  (if l.any (fun e => match e with
      | .fp .nan => true
      | _ => false) then 2 else 0) + (if l.any (fun e => match e with
      | .fp (.inf _) => true
      | _ => false) then 4 else 0)

/-- One row of SUM, SUMSQ or MEANVAR: its bytes and its output saturations (R174 to R177). -/
def redRow (op f o : Nat) (l : List Elt) : List Byte × Nat :=
  if fmtInt f then
    let xs := l.map eltInt
    let sum := xs.foldl (· + ·) 0
    let sq := (xs.map (fun v => (v * v).toNat)).foldl (· + ·) 0
    let past := if 2 ^ 64 ≤ sq then 1 else 0
    match op with
    | 0 => let c := narrowQ o false (qOf sum)
           (packCodes o [c.1], if c.2 then 1 else 0)
    | 1 => let c := narrowQ o false (qOf (min sq (2 ^ 64 - 1) : Nat))
           (packCodes o [c.1], (if c.2 then 1 else 0) + past)
    | _ => (redBytes (intRecord xs.length sum sq 0), past)
  else
    let t := treeSum nodeAdd default (l.map (fun e => fpLeaf (eltF32 f e)))
    match op with
    | 0 => let c := narrow32 o t.sum
           (packCodes o [c.1], if c.2 then 1 else 0)
    | 1 => let c := narrow32 o t.sq
           (packCodes o [c.1], if c.2 then 1 else 0)
    | _ => (redBytes (fpRecord t (fpFlags l)), 0)

/-- COMBINE of one list of records; none when it mixes kinds or holds a COUNT of 0 (R178) (DESIGN CHOICE, notes/assumptions/59). -/
def redCombine (l : List RedRec) : Option (RedRec × Nat) :=
  let fl := l.foldl (fun a g => a ||| g.flags) 0
  if l.any (fun g => g.count = 0) then none
  else if l.all (fun g => g.kind = 0) then
    let n := (l.map (fun g => g.count)).foldl (· + ·) 0
    let sum := (l.map (fun g => asSigned 64 g.sum)).foldl (· + ·) 0
    let sq := (l.map (fun g => g.sumsq)).foldl (· + ·) 0
    some (intRecord n sum sq fl, if 2 ^ 64 ≤ sq then 1 else 0)
  else if l.all (fun g => g.kind = 1) then
    some (fpRecord (treeSum nodeAdd default (l.map (fun g =>
      ⟨g.count, g.mean, BitVec.ofNat 32 (g.sumsq / 2 ^ 32), BitVec.ofNat 32 g.sum, BitVec.ofNat 32 g.sumsq⟩))) fl, 0)
  else none

/-- The output rows of a RED; none stops the stream with VLD_SHAPE. -/
def redOut (w : W128) (b : List Byte) : Option (List (List Byte × Nat)) :=
  let n := redLen w
  let f := bits w 57 53
  if redOp w = 3 then
    (List.range (redRows w)).foldl (fun acc i => match acc, redCombine ((List.range n).map (fun k => redOf (bytesAt b (32 * (i * n + k)) 32))) with
      | some l, some g => some (l ++ [(redBytes g.1, g.2)])
      | _, _ => none) (some [])
  else
    some ((rowsOf n (eltsOf f (n * redRows w) b)).map (redRow (redOp w) f (bits w 52 48)))

/-- Bytes that a RED reads and writes, and their alignments. -/
def redSrcLen (w : W128) : Nat := if redOp w = 3 then 32 * (redLen w * redRows w) else vecBytes (bits w 57 53) (redLen w * redRows w)
def redDstLen (w : W128) : Nat := if decide (2 ≤ redOp w) then 32 * redRows w else vecBytes (bits w 52 48) (redRows w)
def redSrc (s : State) (r : Nat) (w : W128) : Option LOp := laOp s r (bits w 111 85) (redSrcLen w) (if redOp w = 3 then 4 else fmtAlign (bits w 57 53)) false
def redDst (s : State) (r : Nat) (w : W128) : Option LOp := laOp s r (bits w 84 58) (redDstLen w) (if decide (2 ≤ redOp w) then 4 else fmtAlign (bits w 52 48)) true

/-- RED (R174 to R178, R204). -/
def execRed (r : Ridge) (x : Ctx) (w : W128) (s : State) : Out :=
  issue s r x w 0x22 (fun s =>
    match redSrc s r w, redDst s r w with
    | some a, some c =>
      if !loamFree s r [rangeOf a (redSrcLen w)] [rangeOf c (redDstLen w)] then .wait
      else if (ldLoam s a (redSrcLen w)).2 then .fault 0x11
      else match redOut w (ldLoam s a (redSrcLen w)).1 with
        | none => .fault 0x05
        | some rows =>
          dmuWrite s r x [(c, rows.flatMap (fun y => y.1))] (mergeTags s (opTags s a (redSrcLen w))) ((rows.map (fun y => y.2)).foldl (· + ·) 0)
    | _, _ => .fault 0x03)

end Sys2Proof.Machine
end

