-- ==== Sys2Proof/Machine/Dma.lean ====
section
/-!
DEFINITION. DMA: the four operations at issue (R205, R255 to R257), segments and completions (R258, R479, R235), and the stream prefetchers (R243 to R245). Segments of one descriptor are applied in order (DESIGN CHOICE, notes/assumptions/17).
-/

namespace Sys2Proof.Machine

def clusterOf (r : Nat) : Nat := r / 12
def getDma (s : State) (c : Nat) : List Dma := tget [] s.mem.dma c
def setDma (s : State) (c : Nat) (l : List Dma) : State := { s with mem := { s.mem with dma := tset [] s.mem.dma c l } }

/-! ### A descriptor at issue (R256, R257) -/

/-- Kinds that an operation permits (R256). -/
def dmaKinds (d : DmaDesc) : Bool :=
  match d.op with
  | 0 => decide (d.sk < 3) && decide (d.dk < 3)
  | 1 => d.sk = 1 && (if d.flags.testBit 1 then d.dk = 0 else d.dk = 3)
  | 2 => d.sk = 3 && d.dk = 1
  | 3 => d.sk = 3 && decide (d.dk < 3)
  | _ => false
/-- Reserved bits of an endpoint address (R257). -/
def endpointBad (k a : Nat) : Bool :=
  match k with
  | 0 => decide (2 ^ 27 ≤ a)
  | 1 => decide (2 ^ 48 ≤ a)
  | 2 => decide (a / 2 ^ 48 % 2 ^ 10 ≠ 0)
  | _ => decide (a ≠ 0)
/-- A reserved code or field, or a value outside its stated range (R256, R257). -/
def dmaBad (d : DmaDesc) : Bool :=
  let ring := d.op = 1 && d.flags.testBit 1
  let cache := d.op = 1 && !d.flags.testBit 1
  d.resv || decide (4 ≤ d.flags) || !dmaKinds d || endpointBad d.sk d.src || endpointBad d.dk d.dst ||
    (if cache then d.look = 0 else d.look ≠ 0) || (if ring then d.slots = 0 else d.slots ≠ 0) ||
    decide (d.rowBytes < 64) || decide (16777216 < d.rowBytes) || decide (d.rowBytes % 64 ≠ 0) || d.rows = 0 || decide (65536 < d.rows) ||
    decide (d.ss % 64 ≠ 0) || decide (d.ds % 64 ≠ 0)
/-- An endpoint with the instruction's offsets added (R257). -/
def endpoint (w : W128) (k a : Nat) : Int :=
  match k with
  | 0 => (a : Int) + bits w 61 41
  | 3 => 0
  | _ => (a : Int) + sbits w 93 62
/-- The address of row n. -/
def rowAddr (base : Nat) (stride : Int) (n : Nat) : Nat := ((base : Int) + n * stride).toNat
/-- Lowest address and one past the highest of all rows. -/
def dmaExtent (base : Int) (stride : Int) (rows rowBytes : Nat) : Int × Int :=
  let last := base + ((rows : Int) - 1) * stride
  (min base last, max base last + rowBytes)
/-- The checks of R257 on one endpoint; the Loam range it covers, when it has one. -/
def endpointOk (s : State) (r : Nat) (j : Option Job) (k : Nat) (base stride : Int) (rows rowBytes : Nat) (write : Bool) : Option (List LRange) :=
  let (lo, hi) := dmaExtent base stride rows rowBytes
  if k = 3 then some []
  else if base < 0 || lo < 0 || base % 64 ≠ 0 then none
  else match k with
    | 0 =>
      let off := laOff base.toNat
      let down := (base - lo).toNat
      if off < down then none
      else match laPhys s r base.toNat with
        | some q =>
          if inRegion (getR s q).regions (off - down) (hi - lo).toNat write then some [⟨q, off - down, (hi - lo).toNat⟩] else none
        | none => none
    | 1 => if j.isSome && decide (hi ≤ 2 ^ 48) then some [] else none
    | _ => match j with
      | some j => match j.bindings[base.toNat / 2 ^ 58]? with
        | some b => if lo / 2 ^ 58 = base / 2 ^ 58 && decide ((hi - base / 2 ^ 58 * 2 ^ 58) ≤ b.2) then some [] else none
        | none => none
      | none => none

/-- The job whose DMA a context issues. -/
def ctxJob (s : State) (r : Nat) (x : Ctx) : Option Job := match x with
  | .job => jobOn s r
  | .service => none

def dmaTable (w : W128) : Nat := bits w 111 100
/-- The descriptor a DMA names. -/
def dmaAt (rd : RidgeSt) (w : W128) : DmaDesc := dmaOf (tget 0 rd.dma (dmaTable w))
def dmaSignal (w : W128) : Option Nat := if bitAt w 118 then some (bits w 99 94) else none

/-- The descriptor that an issued DMA puts in flight (R255, R257). -/
def dmaNew (s : State) (r : Nat) (x : Ctx) (w : W128) (op : Nat) (d : DmaDesc) (src dst : Nat) : Dma :=
  { id := s.mem.next, ridge := r, ctx := x, win := (getR s r).nextId, part := (ownerOf s r).getD 0xFF,
    job := (match ctxJob s r x with
      | some j => j.id
      | none => 0), op := op, desc := dmaTable w, idx := (ctxOf (getR s r) x).pc, srcKind := d.sk,
    dstKind := d.dk, srcAddr := src, dstAddr := dst, rowBytes := d.rowBytes, rows := d.rows,
    srcStride := d.ss, dstStride := d.ds, fill := d.fill, flags := d.flags, next := 0, posted := 0, bad := false,
    signal := dmaSignal w }

/-- COPY, INVAL and FILL at issue: a descriptor in flight (R255). -/
def dmaBody (op : Nat) (r : Ridge) (x : Ctx) (w : W128) (s : State) : Iss :=
  let rd := getR s r
  let d := dmaAt rd w
  if d.op ≠ op && !(op = 0 && decide (4 ≤ d.op)) then .wait
  else if dmaBad d then .fault 0x01
  else
    let j := ctxJob s r x
    let src := endpoint w d.sk d.src
    let dst := endpoint w d.dk d.dst
    match endpointOk s r j d.sk src d.ss d.rows d.rowBytes false, endpointOk s r j d.dk dst d.ds d.rows d.rowBytes true with
    | some rs, some ws =>
      let c := clusterOf r
      if 128 ≤ ((getDma s c).filter (fun e => e.ridge = r.val)).length || !loamFree s r rs ws then .wait
      else
        let e := dmaNew s r x w op d src.toNat dst.toNat
        let s1 := setDma { s with mem := { s.mem with next := s.mem.next + 1 } } c (getDma s c ++ [e])
        .next (pushWin s1 r { mkWin rd x w .dma with reads := rs, writes := ws })
    | _, _ => .fault 0x03

/-- DMA of operation COPY (R256, R258). -/
def execDmaCopy (r : Ridge) (x : Ctx) (w : W128) (s : State) : Out := issue s r x w 0x28 (dmaBody 0 r x w)
/-- DMA of operation INVAL (R242, R258). -/
def execDmaInval (r : Ridge) (x : Ctx) (w : W128) (s : State) : Out := issue s r x w 0x28 (dmaBody 2 r x w)
/-- DMA of operation FILL (R256). -/
def execDmaFill (r : Ridge) (x : Ctx) (w : W128) (s : State) : Out := issue s r x w 0x28 (dmaBody 3 r x w)

/-! ### PREFETCH (R244) -/

/-- The prefetcher a set-up takes: a free one, or, for CACHE, the CACHE one least recently demanded. -/
def prefetchPick (rd : RidgeSt) (ring : Bool) : Option Nat :=
  match (List.range 4).find? (fun k => !(tget Prefetch.free rd.prefetch k).active) with
  | some k => some k
  | none =>
    if ring then none
    else
      let cs := (List.range 4).filter (fun k => !(tget Prefetch.free rd.prefetch k).ring)
      let t (k : Nat) : Nat := (tget Prefetch.free rd.prefetch k).demand
      cs.find? (fun k => cs.all (fun i => decide (t k ≤ t i)))

/-- A prefetcher just set up: no row fetched yet (R244). -/
def prefetchNew (w : W128) (ring : Bool) (d : DmaDesc) (src dst now : Nat) : Prefetch :=
  { active := true, ring := ring, desc := dmaTable w, src := src, rowBytes := d.rowBytes, rows := d.rows, stride := d.ss,
    lookahead := d.look, dst := dst, slots := d.slots, filled := 0, busy := [], demand := now, faulted := none }

/-- DMA of operation PREFETCH completes at once; a CACHE set-up with four RING prefetchers in use is dropped (R244). -/
def execDmaPrefetch (r : Ridge) (x : Ctx) (w : W128) (s : State) : Out :=
  issue s r x w 0x28 (fun s =>
    let rd := getR s r
    let d := dmaAt rd w
    if d.op ≠ 1 then .wait
    else if dmaBad d then .fault 0x01
    else
      let j := ctxJob s r x
      let ring := d.flags.testBit 1
      let slotBytes := (d.rowBytes + 255) / 256 * 256
      let src := endpoint w d.sk d.src
      let dst := endpoint w d.dk d.dst
      match endpointOk s r j 1 src d.ss d.rows d.rowBytes false, endpointOk s r j d.dk dst slotBytes d.slots slotBytes true with
      | some _, some ws =>
        let own := ws.all (fun q => q.ridge = r.val)
        if !own then .fault 0x03
        else match prefetchPick rd ring with
          | none => if ring then .wait else .next s
          | some k =>
            let f := prefetchNew w ring d src.toNat ((ws.head?.map (fun q => q.off)).getD 0) s.now
            let s1 := updR s r (fun rd => { rd with prefetch := tset .free rd.prefetch k f })
            match dmaSignal w, j with
            | some c, some j => .next (addCounter s1 j.part j.id r c 1)
            | _, _ => .next s1
      | _, _ => .fault 0x03)

/-- The walk that a RING prefetcher asks for: its failure is kept in the prefetcher, not posted (R245). -/
def ringWalk (j : Job) (agent dva : Nat) : Walk :=
  { id := 0, part := j.part, job := j.id, agent := agent, dva := dva, access := 0, source := 3, srcRidge := 0xFF, desc := 0xFFFF,
    instr := 0, resume := 0 }

/-- RING_PREFETCH_FILL: the next row goes into its slot when the slot is free (R244); a translation fault stops the ring (R245). -/
def execRingPrefetchFill (r : Ridge) (k : Fin 4) (s : State) : Out :=
  let rd := getR s r
  let f := tget Prefetch.free rd.prefetch k
  match jobOn s r with
  | none => .next s
  | some j =>
    if !(f.active && f.ring) || f.faulted.isSome || f.rows ≤ f.filled || f.busy.any (fun b => b % f.slots = f.filled % f.slots) ||
        j.st ≠ .running then .next s
    else
      let a := rowAddr f.src f.stride f.filled
      let agent := agentCluster (clusterOf r)
      let set (s : State) (g : Prefetch) : State := updR s r (fun rd => { rd with prefetch := tset .free rd.prefetch k g })
      match translate s j.part j agent a f.rowBytes 0 with
      | .fault c l _ => .next (set (useFree s) { f with faulted := some (c * 256 + l) })
      | .miss pages =>
        match pages.findSome? (fun pg => match walkDva s j.part j pg 0 with
            | .fault c l => some (c * 256 + l)
            | .ok _ => none) with
        | some c => .next (set s { f with faulted := some c })
        | none => .next (useFree (askWalks s pages (ringWalk j agent)))
      | .ok ps =>
        match readPieces s j.part agent ps with
        | none => .next (askPieces s j.part j.id agent 0 ps)
        | some (d, bad) =>
          if bad then .next (set s { f with faulted := some (8 * 256) })
          else
            let o : LOp := ⟨r, f.dst + (f.filled % f.slots) * ((f.rowBytes + 255) / 256 * 256)⟩
            let (s1, _) := stLoam (dropOnce s j.part agent) r o d (tagFromMemory s j r)
            .next (set s1 { f with filled := f.filled + 1, busy := f.busy ++ [f.filled] })

/-! ### Segments (R258, R479) -/

/-- Row, offset in the row and length of a segment (R258). -/
def segAtAux (d : Dma) : Nat → Nat → Nat → Option (Nat × Nat × Nat)
  | 0, _, _ => none
  | n + 1, row, k =>
    let a := rowAddr d.dstAddr d.dstStride row
    let cuts := cduCuts a d.rowBytes
    match cuts[k]? with
    | some c => some (row, c.1 - a, c.2)
    | none => segAtAux d n (row + 1) (k - cuts.length)
def segAt (d : Dma) (k : Nat) : Option (Nat × Nat × Nat) := segAtAux d d.rows 0 k

/-- What a segment does, or why it does not. -/
inductive SegRes where
  | done (s : State) (bad : Bool) (posted : Nat)
  /-- nothing applied now -/
  | wait (s : State)
  deriving DecidableEq, Repr
/-- A segment's source: bytes, poison, tag. -/
inductive DSrc where
  | ok (b : List Byte) (bad : Bool) (tag : W32)
  | wait (s : State)
  deriving DecidableEq, Repr

/-- A binding's host address for an endpoint. -/
def bindAddr (j : Job) (a : Nat) : Nat := ((j.bindings.getD (a / 2 ^ 58) (0, 0)).1) + a % 2 ^ 48
/-- The partition's host port answers (R260, code 0x07). -/
def hostUp (s : State) (p : Nat) : Bool := (getPort s (getP s p).port).tunnel
def dmaWalk (j : Job) (d : Dma) (c acc dva : Nat) : Walk :=
  { id := 0, part := j.part, job := j.id, agent := agentCluster c, dva := dva, access := acc, source := 1,
    srcRidge := (progRidge j d.ridge).getD 0xFF, desc := d.desc, instr := d.idx, resume := d.next }
/-- Reports a fault of a descriptor (R259). -/
def dmaFault (s : State) (j : Job) (d : Dma) (c cause addr acc level : Nat) : State :=
  mmuFault (useFree s) (srcCluster c) j.part j.id 1 ((progRidge j d.ridge).getD 0xFF) cause addr acc level d.desc d.idx d.next
/-- Translates a segment's DVA. -/
def dmaPlaces (s : State) (j : Job) (d : Dma) (c a len acc : Nat) : DvaRes :=
  match translate s j.part j (agentCluster c) a len acc with
  | .ok ps => .places ps
  | .miss pages => .wait (useFree (askWalks s pages (dmaWalk j d c acc)))
  | .fault k l v => .wait (dmaFault s j d c k v acc l)

/-- The source bytes of a range of a descriptor. -/
def dmaRead (s : State) (j : Option Job) (d : Dma) (c : Nat) (hostOk : Bool) (a len : Nat) : DSrc :=
  if d.op = 3 then .ok ((List.range len).map (fun i => BitVec.ofNat 8 (d.fill.toNat / 256 ^ (i % 4)))) false tagPlain
  else match d.srcKind, j with
    | 0, _ => match laPhys s d.ridge a with
      | some q => .ok (ldLoam s ⟨q, laOff a⟩ len).1 (ldLoam s ⟨q, laOff a⟩ len).2 (mergeTags s (opTags s ⟨q, laOff a⟩ len))
      | none => .wait s
    | 1, some j => match dmaPlaces s j d c a len 0 with
      | .places ps => match readPieces s j.part (agentCluster c) ps with
        | some (b, bad) => .ok b bad (tagFromMemory s j d.ridge)
        | none => .wait (askPieces s j.part j.id (agentCluster c) d.win ps)
      | .wait t => .wait t
      | .bytes _ _ => .wait s
    | _, some j =>
      if hostUp s j.part && hostOk then .ok (hostRead s (getP s j.part).port (bindAddr j a) len) false tagPlain
      else .wait (dmaFault s j d c 0x07 a 0 0)
    | _, none => .wait s

/-- One byte of a descriptor's source extent, where it can be read now. -/
def extentByte (s : State) (j : Option Job) (d : Dma) (c k : Nat) : Option Byte :=
  match dmaRead s j d c true (rowAddr d.srcAddr d.srcStride (k / d.rowBytes) + k % d.rowBytes) 1 with
  | .ok [b] _ _ => some b
  | _ => none
/-- Source and destination extents overlap (R257). -/
def dmaOverlaps (d : Dma) : Bool :=
  let a := dmaExtent d.srcAddr d.srcStride d.rows d.rowBytes
  let b := dmaExtent d.dstAddr d.dstStride d.rows d.rowBytes
  d.op = 0 && d.srcKind = d.dstKind && decide (a.1 < b.2) && decide (b.1 < a.2)
/-- What a segment of an overlapping COPY writes: each byte stays, or becomes some byte of the source extent; which is open (Config.overlapPick) (DESIGN CHOICE, notes/assumptions/17). -/
def overlapBytes (s : State) (j : Option Job) (d : Dma) (c : Nat) (old : List Byte) : List Byte :=
  (List.range old.length).map (fun i =>
    let k := Config.overlapPick s.free i % (d.rows * d.rowBytes + 1)
    let o := old.getD i 0
    if k = 0 then o else (extentByte s j d c (k - 1)).getD o)

/-- Writes a segment's bytes to its destination. -/
def dmaStore (s : State) (j : Option Job) (d : Dma) (c : Nat) (hostOk : Bool) (a : Nat) (b : List Byte) (tag : W32) : SegRes :=
  match d.dstKind, j with
  | 0, _ => match laPhys s d.ridge a with
    | some q =>
      let b1 := if dmaOverlaps d then overlapBytes s j d c (ldLoam s ⟨q, laOff a⟩ b.length).1 else b
      let t := stLoam (useFree s) (srcCluster c) ⟨q, laOff a⟩ b1 tag
      .done t.1 t.2 0
    | none => .wait s
  | 1, some j => match dmaPlaces s j d c a b.length 1 with
    | .places ps =>
      let old := (readPieces s j.part (agentCluster c) ps).map (fun x => x.1)
      let b1 := match dmaOverlaps d, old with
        | true, some o => overlapBytes s (some j) d c o
        | _, _ => b
      let (s1, remote, bad) := writePieces (useFree s) (srcCluster c) j.part j.id ps b1
      (match peerSendAll s1 j (remote.map (fun x => { mkReq 1 x.1 j.part j.id d.ridge d.win x.2.1 0 x.2.2.1 x.2.2.2 with cluster := some c, dmaId := d.id })) with
        | some s2 => .done (if remote.isEmpty then s2 else markDirty s2 d.ridge) bad remote.length
        | none => .wait s)
    | .wait t => .wait t
    | .bytes _ _ => .wait s
  | _, some j =>
    if !(hostUp s j.part && hostOk) then .wait (dmaFault s j d c 0x07 a 1 0)
    else if j.fence then
      .done (holdWrite s j
        { port := some (getP s j.part).port, dev := 0, addr := bindAddr j a, data := b, waits := fenceWaits s j, kind := 0, op := 0, dva := 0,
          ridge := d.ridge, win := d.win, cluster := some c, dmaId := d.id }) false 1
    else .done (hostWrite s (getP s j.part).port (bindAddr j a) b) false 0
  | _, none => .wait s

/-- INVAL of one CDU (R258): a read-shared peer line goes; a local line is written back, which changes no byte. -/
def dmaInvalSeg (s : State) (j : Option Job) (d : Dma) (c a len : Nat) : SegRes :=
  match j with
  | none => .wait s
  | some j => match dmaPlaces s j d c a len 0 with
    | .places ps =>
      .done (ps.foldl (fun s q => match q.loc with
        | .peer dev off _ =>
          { s with mem := { s.mem with lines := s.mem.lines.filter (fun l => !(l.remote && l.part = j.part && l.addr = dev * 2 ^ 35 + off / 256 * 256)) } }
        | .mem pa =>
          { s with mem := { s.mem with lines := s.mem.lines.filter (fun l => !(!l.remote && l.part = j.part && l.addr = pa / 256 * 256)) } }) s) false 0
    | .wait t => .wait t
    | .bytes _ _ => .wait s

/-- UNIT and ADDRESS of a refused egress: the source ridge and the Loam offset of its first poisoned CDU; for another source, 0 and the CDU's address (R361). -/
def egressPlace (s : State) (d : Dma) (src len : Nat) : Nat × Nat :=
  let cdus := (List.range (len / 256 + 2)).map (fun i => src / 256 * 256 + 256 * i)
  match d.srcKind, laPhys s d.ridge src with
  | 0, some q =>
    (q, laOff ((cdus.find? (fun c => decide (c < src + len) && (ldLoam s ⟨q, laOff c⟩ 1).2)).getD (src / 256 * 256)))
  | _, _ => (0, src / 256 * 256)

/-- One segment. A poisoned source is not applied: the descriptor ends with INTEGRITY, and at egress EGRESS_REFUSED is raised (R19, R235) (DESIGN CHOICE, notes/assumptions/27). -/
def dmaSeg (s : State) (j : Option Job) (d : Dma) (c : Nat) (hostOk : Bool) (row off len : Nat) : SegRes :=
  let dst := rowAddr d.dstAddr d.dstStride row + off
  let src := rowAddr d.srcAddr d.srcStride row + off
  if d.op = 2 then dmaInvalSeg s j d c dst len
  else match dmaRead s j d c hostOk src len with
    | .wait t => .wait t
    | .ok b bad tag =>
      if bad then
        let place := egressPlace s d src len
        .done (if d.dstKind = 2 then raiseInteg s (srcCluster c) 0x07 d.part 4 place.1 0xFF d.job place.2 0 else s) true 0
      else dmaStore (dropOnce s d.part (agentCluster c)) j d c hostOk dst b tag

/-- DMA_SEGMENT: the descriptor at the front of the cluster's rotation has one segment served and goes to the back (R479). Descriptors of a suspended or saved job are passed over (DESIGN CHOICE, notes/assumptions/17). -/
def execDmaSegment (cluster : Fin 4) (hostOk : Bool) (s : State) : Out :=
  match getDma s cluster with
  | [] => .next s
  | d :: rest =>
    let j := findJob s d.part d.job
    let run := d.ctx = .service || (match j with
      | some j => j.st = .running
      | none => false)
    let back (s : State) (d : Dma) : State := setDma s cluster ((getDma s cluster).filter (fun e => e.id ≠ d.id) ++ [d])
    if !run || !srcRoom s (srcCluster cluster) then .next (setDma s cluster (rest ++ [d]))
    else match segAt d d.next with
      | none => .next (setDma s cluster (rest ++ [d]))
      | some (row, off, len) =>
        match dmaSeg s j d cluster hostOk row off len with
        | .done t bad n => .next (back t { d with next := d.next + 1, bad := d.bad || bad, posted := d.posted + n })
        | .wait t => .next (back t d)

/-- DMA_COMPLETION: every segment applied and every write acknowledged (R205, R250). A failed one raises INTEGRITY at the issuing stream (R235). -/
def execDmaCompletion (cluster : Fin 4) (id : Nat) (s : State) : Out :=
  match (getDma s cluster).find? (fun d => d.id = id) with
  | none => .next s
  | some d =>
    if (segAt d d.next).isSome || decide (0 < d.posted) || (match findJob s d.part d.job with
        | some j => j.st = .saved
        | none => false) then .next s
    else
      let s1 := setDma s cluster ((getDma s cluster).filter (fun e => e.id ≠ id))
      match findWin s1 d.ridge d.win with
      | none => .next s1
      | some w =>
        if d.bad then .next (execFault s1 d.ridge w 0x11)
        else
          let s2 := match d.signal with
            | some c => if d.ctx = .job then addCounter s1 d.part d.job d.ridge c 1
                        else updR s1 d.ridge (fun rd => { rd with cnt := tset 0 rd.cnt c (tget 0 rd.cnt c + 1) })
            | none => s1
          .next (retire s2 d.ridge d.win)

end Sys2Proof.Machine
end

