-- ==== Sys2Proof/Machine/Store.lean ====
section
/-!
DEFINITION. The record layer's shared pieces (R432 to R436): record keys and payloads, the resolution of two copies (R434), and the queue of the Clay controller's writers (R421). Also the TILE event that tile families share (R477).
-/

namespace Sys2Proof.Machine

def clsSerial : Nat := 1
def clsBoot : Nat := 2
def clsSelf : Nat := 3
def clsSlot : Nat := 4
def clsFailed : Nat := 5
def clsLock : Nat := 6
def clsTests : Nat := 7
def clsMaps : Nat := 0x0B
def clsJournal : Nat := 0x10
def clsScrub : Nat := 0x11
/-- The guard block's record (R426), kept beside the others. -/
def clsGuard : Nat := 0x12

/-- Payload bytes of a class (R435, R436; the guard block: two passwords and the protect value, R425, R428) (DESIGN CHOICE, notes/assumptions/53). -/
def recLen (cls : Nat) : Nat :=
  match cls with
  | 8 => 2032
  | 9 => 576
  | 10 => 24560
  | 11 => 1120
  | 16 => 32
  | _ => 64
/-- Records of a class. -/
def recCount (cls : Nat) : Nat :=
  match cls with
  | 9 => 48
  | 11 => 48
  | 16 => 1632
  | _ => 1
def recKey (cls idx : Nat) : Nat := cls * 4096 + idx
def getRec (s : State) (cls idx : Nat) : Rec := tget .prod s.clay.recs (recKey cls idx)
def setRec (s : State) (cls idx : Nat) (v : Rec) : State :=
  { s with clay := { s.clay with recs := tset .prod s.clay.recs (recKey cls idx) v } }

/-- A copy that may be taken (R432). -/
def copyValid (c : Copy) : Bool := !c.ue && c.committed && c.crcOk
/-- b is newer than a in serial arithmetic (R434). -/
def seqNewer (a b : W32) : Bool := decide (1 ≤ (b - a).toNat) && decide ((b - a).toNat ≤ 2 ^ 31 - 1)
/-- The copy read, the repaired record, and the event (0 none, else its cause) of R434. -/
def resolveRec (v : Rec) : Option Copy × Rec × Nat :=
  match copyValid v.c0, copyValid v.c1 with
  | true, true =>
    if v.c0.seq = v.c1.seq then
      if v.c0.data = v.c1.data then (some v.c0, v, 0) else (some v.c0, ⟨v.c0, v.c0⟩, 0x01)
    else if seqNewer v.c0.seq v.c1.seq then (some v.c1, ⟨v.c1, v.c1⟩, 0) else (some v.c0, ⟨v.c0, v.c0⟩, 0)
  | true, false => (some v.c0, ⟨v.c0, v.c0⟩, 0x02)
  | false, true => (some v.c1, ⟨v.c1, v.c1⟩, 0x02)
  | false, false => (none, v, 0x03)

/-- A record update waits for the Clay controller (R421, R433). -/
def queueRec (s : State) (cls idx : Nat) (data : List Byte) : State :=
  { s with clay := { s.clay with writers := s.clay.writers ++ [.record cls idx data 0] } }

/-- A writer has begun a page or an update and not ended it. -/
def writerMid : Writer → Bool
  | .record _ _ _ n => decide (n ≠ 0)
  | .zero _ _ n => decide (n ≠ 0)
  | .host _ _ _ _ _ n => decide (n % 4 ≠ 0)
/-- A journal update could begin at once (R422). -/
def journalFree (s : State) : Bool :=
  s.clay.writers.all (fun w => !writerMid w && (match w with
    | .record _ _ _ _ => false
    | _ => true))

/-! ### Payloads -/

def tileCode : TileSt → Nat
  | .blank => 0
  | .clean => 1
  | .dirty => 2
  | .retired => 3
  | .orphan => 4
def tileOfCode (n : Nat) : TileSt :=
  match n with
  | 0 => .blank
  | 1 => .clean
  | 3 => .retired
  | 4 => .orphan
  | _ => .dirty
/-- The journal payload (R58). -/
def journalBytes (j : Journal) : List Byte :=
  layFields 32 [(0, 1, tileCode j.state), (1, 1, j.format), (2, 1, j.position), (3, 1, j.cause), (4, 4, j.count), (8, 4, j.wset.toNat),
    (16, 16, j.digest.toNat)]
def journalOf (b : List Byte) : Journal :=
  { state := tileOfCode (fieldAt b 0 1), format := fieldAt b 1 1, position := fieldAt b 2 1, cause := fieldAt b 3 1, count := fieldAt b 4 4,
    wset := BitVec.ofNat 32 (fieldAt b 8 4), digest := BitVec.ofNat 128 (fieldAt b 16 16) }
/-- A ridge's maps (R435): the tile map, then the belay maps of physical tiles 0 to 33. -/
def mapsBytes (rd : RidgeSt) : List Byte :=
  rd.map ++ (List.range 34).flatMap (fun t => (List.range 16).flatMap (fun i => leBytes 2 (tget 0 (tileOf rd t).belay i).toNat))
def belayOf (b : List Byte) (t : Nat) : Tbl W16 :=
  tOfList 0 ((List.range 16).map (fun i => BitVec.ofNat 16 (fieldAt b (32 + 32 * t + 2 * i) 2)))

/-- Commits a tile's journal record as the ridge holds it. -/
def commitJournal (s : State) (r t : Nat) : State := queueRec s clsJournal (34 * r + t) (journalBytes (getTile s r t).jr)
/-- Commits a ridge's maps. -/
def commitMaps (s : State) (r : Nat) : State := queueRec s clsMaps r (mapsBytes (getR s r))
/-- Changes a tile's journal record and commits it. -/
def setJournal (s : State) (r t : Nat) (f : Journal → Journal) : State :=
  commitJournal (updTile s r t (fun x => { x with jr := f x.jr })) r t

/-! ### TILE events (R477) -/

/-- Payload of a TILE event; extra holds the cause fields (offset, size, value). -/
def tilePayload (s : State) (r phys : Nat) (extra : List (Nat × Nat × Nat)) : List Byte :=
  layFields 32 ([(0, 1, r), (1, 1, phys), (2, 1, if phys = 0xFF then 0xFF else (posOfTile (getR s r) phys).getD 0xFF)] ++ extra)
/-- PRESUMED, notes/assumptions/18. -/
def tileEvent (s : State) (r phys cause : Nat) (extra : List (Nat × Nat × Nat)) : State :=
  raiseCore s 0x06 cause (partByte s r) (tilePayload s r phys extra)
/-- A CLAY event (R439). -/
def clayPayload (page mask cls idx : Nat) (s0 s1 : W32) : List Byte :=
  layFields 32 [(0, 2, page), (2, 1, mask), (4, 2, cls), (6, 2, idx), (8, 4, s0.toNat), (12, 4, s1.toNat)]

/-- Belay pairs of a tile neither VALID nor SPENT. -/
def belaysFree (t : Tile) : Nat := ((List.range 16).filter (fun i => !bitAt (tget 0 t.belay i) 15 && !bitAt (tget 0 t.belay i) 14)).length

end Sys2Proof.Machine
end

