-- ==== Sys2Proof/Machine/Sync.lean ====
section
/-!
DEFINITION. Stream control: WAIT and its release (R185), SIG and its arrival (R184), cairns (R209, R210, R374), and the rope instructions RBG, REN and TMAP (R208, R211, R212).
-/

namespace Sys2Proof.Machine

/-! ### WAIT -/

def waitMode (w : W128) : Nat := bits w 113 112
def waitCnt (w : W128) : Nat := bits w 111 106
def waitThresh (w : W128) : W32 := BitVec.ofNat 32 (bits w 105 74)
/-- The condition of a WAIT (R185). -/
def waitMet (rd : RidgeSt) (w : W128) : Bool :=
  let c := tget 0 rd.cnt (waitCnt w)
  if waitMode w = 1 then c = waitThresh w else !bitAt (c - waitThresh w) 31
/-- Its effect when met: mode 2 subtracts THRESH. -/
def waitTake (s : State) (r : Nat) (w : W128) : State :=
  if waitMode w = 2 then updR s r (fun rd => { rd with cnt := tset 0 rd.cnt (waitCnt w) (tget 0 rd.cnt (waitCnt w) - waitThresh w) }) else s

/-- WAIT lets its context go on at once when its condition holds, else holds it (R185). -/
def execWait (r : Ridge) (x : Ctx) (w : W128) (s : State) : Out :=
  issue s r x w 0x30 (fun s =>
    if waitMet (getR s r) w then .next (waitTake s r w)
    else .next (updCtx s r x (fun c => { c with waiting := some w })))

/-- A context that may act now: a job's while the job runs. -/
def ctxLive (s : State) (r : Nat) (x : Ctx) : Bool := match x with
  | .service => true
  | .job => (ctxOf (getR s r) x).run && (match jobOn s r with
    | some j => j.st = .running
    | none => false)

/-- WAIT_SATISFIED: a waiting WAIT finds its condition met (R185). -/
def execWaitSatisfied (r : Ridge) (x : Ctx) (s : State) : Out :=
  match (ctxOf (getR s r) x).waiting with
  | none => .next s
  | some w =>
    if waitMet (getR s r) w && ctxLive s r x then .next (updCtx (waitTake s r w) r x (fun c => { c with waiting := none })) else .next s

/-! ### SIG -/

def sigValue (w : W128) : W32 := BitVec.ofNat 32 (bits w 99 68)

/-- SIG (R184): a fault for a ridge outside the job; at issue under EARLY, else in its turn; in a rope, staged for COMMIT (R212). -/
def execSig (r : Ridge) (x : Ctx) (w : W128) (s : State) : Out :=
  issue s r x w 0x31 (fun s =>
    let rd := getR s r
    let tgt := bits w 105 100
    let cnt := bits w 111 106
    let q : Option Nat := if tgt = 63 then some r.val else (jobOn s r).bind (fun j => physRidge j tgt)
    match q with
    | none => .fault 0x03
    | some q =>
      match stageAs s r x 0 (.signal q cnt (sigValue w)) with
      | .fault => .fault 0x0F
      | .gone t => .stay t
      | .staged t _ => .next t
      | .plain =>
        if bitAt w 112 then
          match rd.job with
          | some (p, id) => .next (sendSig s p id r q cnt (sigValue w) rd.nextId)
          | none => .next (updR s r (fun rd => { rd with cnt := tset 0 rd.cnt cnt (tget 0 rd.cnt cnt + sigValue w) }))
        else issueWin s r (mkWin rd x w .sig))

/-- REMOTE_SIG_ARRIVAL: a SIG lands at the counter of its target, or on the saved value (R183, R184). -/
def execRemoteSigArrival (id : Nat) (s : State) : Out :=
  match s.mem.sigs.find? (fun m => m.id = id) with
  | none => .next s
  | some m =>
    let s1 := { s with mem := { s.mem with sigs := s.mem.sigs.filter (fun v => v.id ≠ id) } }
    let s2 := addCounter s1 m.part m.job m.tgt m.cnt m.v
    match findWin s2 m.src m.win with
    | some w => if w.kind = .remote && opOf w.w = 0x31 then .next (retire s2 m.src m.win) else .next s2
    | none => .next s2

/-! ### Cairns -/

/-- The half a CRN writes, and the live one. -/
def coldHalf (j : Job) : CairnHalf := if j.liveIsB then j.halfA else j.halfB
def liveHalf (j : Job) : CairnHalf := if j.liveIsB then j.halfB else j.halfA
def setCold (j : Job) (h : CairnHalf) : Job := if j.liveIsB then { j with halfA := h } else { j with halfB := h }
/-- The live regions of a cairn entry, with their bytes. -/
def cairnRegions (g : ProgRidge) (live : W64) : List (Nat × Region) :=
  ((List.range g.regions.length).zip g.regions).filter (fun x => bitAt live x.1)
/-- One ridge's copy with its trailer (R374). -/
def cairnCopy (s : State) (j : Job) (k r : Nat) (g : ProgRidge) (live : W64) (resume : Nat) : CairnCopy :=
  let rd := getR s r
  let regs := cairnRegions g live
  let tags := (regs.flatMap (fun x => tagsAt rd x.2.off x.2.size)).filter (fun t => tagValid t && tagAnalogue t)
  { ridge := k, regions := regs.map (fun x => (x.1, loamBytes rd r x.2.off x.2.size)), counters := rd.cnt.filter (fun c => c.1 < 56), resume := resume,
    tagEpoch := (tags.map (tagEpoch s)).foldl max 0,
    tagRidges := if tags.any tagMulti then maskOf 48 (jobRidges j) else maskOf 48 (tags.map tagRidge) }
/-- Adds a copy to the half being written; a half that holds a committed cairn, or another id, is begun afresh. -/
def addCopy (h : CairnHalf) (id : Nat) (c : CairnCopy) : CairnHalf :=
  if h.valid || h.id ≠ id then { id := id, valid := false, copies := [c], dirtySince := false }
  else { h with copies := h.copies.filter (fun v => v.ridge ≠ c.ridge) ++ [c] }

/-- CRN (R209, R210). -/
def execCrn (r : Ridge) (x : Ctx) (w : W128) (s : State) : Out :=
  issue s r x w 0x32 (fun s =>
    let rd := getR s r
    if !(ctxWin rd .job).isEmpty || !(ctxWin rd x).isEmpty then .wait
    else if rd.slots.any (fun k => k.2.opened) then .fault 0x0E
    else match jobOn s r with
      | none => .fault 0x01
      | some j =>
        match progPart s j r, progRidge j r, findProg s j.part j.prog with
        | some g, some k, some pg =>
          (match pg.cairns.find? (fun c => c.id = bits w 111 96 && c.ridge = k) with
          | none => .fault 0x01
          | some c =>
            if (cairnRegions g c.live).any (fun v => loamBad rd v.2.off v.2.size) then .fault 0x11
            else
              let copy := cairnCopy s j k r g c.live ((ctxOf rd x).pc + 1)
              .next (updJob s j.part j.id (fun j => setCold j (addCopy (coldHalf j) c.id copy))))
        | _, _, _ => .fault 0x01)

/-- Every program ridge with an entry of the id has written its copy (R210). -/
def cairnReady (s : State) (j : Job) : Bool :=
  let h := coldHalf j
  !h.valid && !h.copies.isEmpty && (match findProg s j.part j.prog with
    | some g => (g.cairns.filter (fun c => c.id = h.id)).all (fun c => h.copies.any (fun v => v.ridge = c.ridge))
    | none => false)
/-- CAIRN_COMMIT: Prorvafort stages the rope that makes the new cairn valid (R210, R285). -/
def execCairnCommit (part : PartNo) (job : W32) (s : State) : Out :=
  match findJob s part job with
  | none => .next s
  | some j =>
    if cairnReady s j && s.cmc.fw = .running && !claimed s (7, part.val, job.toNat) && j.st = .running then
      .next (serviceRope s [part.val] job (.cairn part job) [.cairnCommit part job])
    else .next s
/-- The cairn becomes the valid one. -/
def cairnValid (j : Job) : Job :=
  let k := setCold j { coldHalf j with valid := true, dirtySince := false }
  { k with liveIsB := !k.liveIsB }

/-! ### RBG, REN, TMAP -/

/-- The context's open rope after RBG. -/
def enterRope (s : State) (r : Nat) (x : Ctx) (e timeout : Nat) : State :=
  updCtx s r x (fun c =>
    let o : OpenRope := { entry := e, startIdx := c.pc, startTime := s.now, timeout := timeout, ended := false, staged := 0 }
    { c with rope := some o })
/-- A rope entry as RBG opens it. -/
def newRope (s : State) (parts : List Nat) (timeout : Nat) : Rope :=
  { Rope.free with st := .opened, parts := parts, opened := s.rclk, timeout := timeout }

/-- RBG opens a rope (R211, R212, R284): the ridge's own entry for a job, the named service entry for the service context. It waits while the entry's last rope is not yet granted (DESIGN CHOICE, notes/assumptions/58). -/
def execRbg (r : Ridge) (x : Ctx) (w : W128) (s : State) : Out :=
  issue s r x w 0x34 (fun s =>
    let c := ctxOf (getR s r) x
    let e := match x with
      | .job => r.val
      | .service => 48 + bits w 99 94
    let q := getRope s e
    let t := bits w 111 100
    match x with
    | .job =>
      if q.st ≠ .free then .wait
      else match jobOn s r with
        | some j =>
          let n := { newRope s [j.part] t with job := j.id, ridge := r, queue := some j.q, attempt := c.attempts + 1 }
          .next (enterRope (setRope s e n) r x e t)
        | none => .fault 0x01
    | .service =>
      if q.st = .opened then .next (enterRope s r x e t)
      else if q.st ≠ .free then .wait
      else .next (enterRope (setRope s e (newRope s (ownerOf s r).toList t)) r x e t))

/-- REN requests commit once every staged action has finished staging (R212). -/
def execRen (r : Ridge) (x : Ctx) (w : W128) (s : State) : Out :=
  issue s r x w 0x35 (fun s =>
    match (ctxOf (getR s r) x).rope with
    | none => .fault 0x0F
    | some o =>
      if (getR s r).win.any (fun v => v.rope = some o.entry && v.staged.isNone) then .wait
      else
        let s1 := ropeStage (updCtx s r x (fun c => { c with rope := some { o with ended := true } })) o.entry
        if (ctxOf (getR s1 r) x).rope.isNone then .stay s1 else .next s1)

/-- TMAP stages a tile-map entry inside a service rope (R208). -/
def execTmap (r : Ridge) (x : Ctx) (w : W128) (s : State) : Out :=
  issue s r x w 0x3A (fun s =>
    if (ctxOf (getR s r) x).rope.isNone then .fault 0x0F
    else match stageAs s r x 0 (.tileMap r (bits w 111 107) (bits w 106 101) (bitAt w 100)) with
      | .staged t _ => .next t
      | .gone t => .stay t
      | _ => .fault 0x0F)

end Sys2Proof.Machine
end

