-- ==== Sys2Proof/Machine/Probes.lean ====
section
/-!
DEFINITION. Probes (R207, R208, R362 to R368): PRB, the inserted probe and the comparison; what a failure does at the ridge (R364) and the results it makes suspect (R372).
-/

namespace Sys2Proof.Machine

/-! ### Starting a probe -/

/-- TILE_RDCFG as a probe runs under it: ladder mode, guard (R69). -/
def probeCfg (c : W32) : W32 := c &&& 0xFFFFBFFE
/-- The lane of a probe: its record's INPUT, from a buffer of its own (R207). -/
def probeLane (rd : RidgeSt) (p : Nat) (g : Golden) (k : Nat) : Lane :=
  let t := physOf rd p
  let b : InBuf := { fed := true, fourBit := false, codes := (g.probes.getD k default).input, exps := [], scree := [], clamped := false }
  { pos := p, tile := t, fallback := false, fired := fires b, buf := b, rdcfg := probeCfg (tileOf rd t).rdcfg, belay := (tileOf rd t).belay }
/-- A probe's window entry, stamped with the epoch (R368). -/
def startProbe (s : State) (r : Nat) (x : Ctx) (w : W128) (p : Nat) (g : Golden) (k : Nat) : State :=
  let rd := getR s r
  pushWin s r { mkWin rd x w .probe with lanes := [probeLane rd p g k], stamp := epochNow s, aux := k }

/-- PRB (R208): a named record of a position, FENCED positions included. -/
def execPrb (r : Ridge) (x : Ctx) (w : W128) (s : State) : Out :=
  issue s r x w 0x38 (fun s =>
    let p := bits w 111 107
    let k := bits w 106 104
    let rd := getR s r
    match goldenOf s r p with
    | none => .fault 0x04
    | some g =>
      if g.probes.length ≤ k || engineOn rd (physOf rd p) then .fault 0x04
      else if lockedClaim s (1, r.val, p) || lockedClaim s (3, r.val, physOf rd p) then .wait
      else .next (startProbe s r x w p g k))

/-- The job context's next instruction is an MVM or MVMS that names p. -/
def nextNames (s : State) (r p : Nat) : Bool := match streamHead s r with
  | some w => (opOf w = 0x10 || opOf w = 0x11) && (mvmMask w).testBit p
  | none => false

/-- PROBE_INSERT: a position's count has reached PROBE_INTERVAL and an MVM that names it is next, or an egress fence asks for its probe (R207, R373). Records are taken in turn. -/
def execProbeInsert (r : Ridge) (p : Pos) (s : State) : Out :=
  let rd := getR s r
  let q := posOf rd p
  match goldenOf s r p with
  | none => .next s
  | some g =>
    let free := !held s r && ridgeUp s r && !rd.test.running && (rd.jobCtx.run || q.probeDue) && !engineOn rd (physOf rd p) && decide (rd.win.length < 1024)
    if !probeNeeded s r p || !(nextNames s r p || q.probeDue) || !free || g.probes.isEmpty || (tileOf rd (physOf rd p)).jr.state ≠ .clean ||
        lockedClaim s (1, r.val, p.val) then .next s
    else
      let k := q.nextRec % g.probes.length
      let s1 := updPos s r p (fun q => { q with fired := 0, nextRec := (k + 1) % g.probes.length, probeDue := false })
      .next (startProbe s1 r .job 0 p g k)

/-! ### Suspect results (R372) -/

/-- A job summary is touched by a failure. -/
def summaryTouched (m : Summary) (r wp wf : Nat) : Bool := m.ridges.toNat.testBit r && decide (m.lo ≤ wf) && decide (wp ≤ m.hi)
def jobTouched (j : Job) (r wp wf : Nat) : Bool := j.fired.toNat.testBit r && decide (j.epLo ≤ wf) && decide (wp ≤ j.epHi)
def suspectEvent (s : State) (part r p wp wf : Nat) (job : W32) : State :=
  raiseCore s 0x04 0x09 part (layFields 32 [(0, 1, 0), (1, 1, r), (2, 1, p), (4, 4, job.toNat), (8, 8, wp), (16, 4, corrected s r), (24, 8, wf)])
/-- SUSPECT_RESULT for every completed job of the partition that a failure touches, and one more with JOB 0 when W_PASS is older than the oldest summary kept. -/
def suspectEvents (s : State) (part r p wp wf : Nat) : State :=
  let t := getP s part
  let s1 := (t.summaries.filter (fun m => summaryTouched m r wp wf)).foldl (fun s m => suspectEvent s part r p wp wf m.job) s
  match t.summaries.head? with
  | some o => if t.summaryDropped && decide (wp < o.lo) then suspectEvent s1 part r p wp wf 0 else s1
  | none => s1

/-! ### The comparison (R363, R364) -/

/-- Limit of a column: TOL + ⌊|EXPECT| / 16⌋. -/
def probeLimit (e : Int) (tol : Nat) : Nat := tol + e.natAbs / 16
def probeValue (s : State) (r : Nat) (g : Golden) (l : Lane) (devs : List AdcDev) (c : Nat) : TileOut :=
  tileCol g.format false 0 0 (getTile s r l.tile) (some g) l devs c
/-- The columns that fail. -/
def probeFails (s : State) (r : Nat) (g : Golden) (k : Nat) (l : Lane) (devs : List AdcDev) : List Nat :=
  let rec1 := g.probes.getD k default
  (List.range 512).filter (fun c =>
    g.colUsed.toNat.testBit c && !(g.format = 0x11 && decide (256 ≤ c)) &&
      decide (probeLimit (tget 0 rec1.expect c) (tget 0 rec1.tol c) < ((probeValue s r g l devs c).v - tget 0 rec1.expect c).natAbs))
/-- A conversion clips in some logical column of the position. -/
def probeClips (s : State) (r : Nat) (g : Golden) (l : Lane) (devs : List AdcDev) : Bool :=
  (List.range 512).any (fun c => (probeValue s r g l devs c).clip)

/-- W_PASS of a position (R368). -/
def wPass (s : State) (r p : Nat) : Nat :=
  let rd := getR s r
  max (posOf rd p).passWin (max (tileOf rd (physOf rd p)).mapWin (match wsetOf s r p with
    | some ws => ws.residentWin
    | none => 0))

def probePayload (r p phys k n first : Nat) (v e : Int) (wp wf : Nat) : List Byte :=
  layFields 32 [(0, 1, r), (1, 1, p), (2, 1, phys), (3, 1, k), (4, 2, n), (6, 2, first), (8, 4, ofSigned 32 v), (12, 4, ofSigned 32 e), (16, 8, wp), (24, 8, wf)]

/-- Failed probes on distinct positions count towards the ridge's rate; at the third the field test falls due at once (R360). -/
def countFailed (s : State) (r p : Nat) : State :=
  let m := tget 0 s.integ.failedPos r
  let m1 : W32 := m ||| BitVec.ofNat 32 (2 ^ p)
  let s1 := { s with integ := { s.integ with failedPos := tset 0 s.integ.failedPos r m1 } }
  let n := (bitList m1).length
  if m1 ≠ m && n = 3 then
    updR (raise s1 r 0x04 0x08 0xFF (integPayload 0 r 0xFF 0 0 n s.col.win0.num)) r
      (fun rd => { rd with test := { rd.test with nextDue := min rd.test.nextDue s.now } })
  else s1

/-- Queues a position for relief or refresh; a lower rank stands. -/
def queueRefresh (s : State) (r p rank : Nat) : State :=
  updR s r (fun rd =>
    match rd.refreshQ.find? (fun q => q.1 = p) with
    | some q => { rd with refreshQ := rd.refreshQ.map (fun v => if v.1 = p then (p, min rank q.2) else v) }
    | none => { rd with refreshQ := rd.refreshQ ++ [(p, rank)] })

/-- Every running job that a failure touches, and the job that prompted the probe, must restart (R372, R377). -/
def markSuspects (s : State) (r p wp wf : Nat) (prompt : Option (Nat × W32)) : State :=
  { s with jobs := s.jobs.map (fun j =>
      if prompt = some (j.part, j.id) || (jobTouched j r wp wf && j.st ≠ .waiting) then { j with suspects := j.suspects ++ [(r, p, wp, wf)], held := [] } else j) }

/-- What the ridge and Prorvafort do on a failed probe (R364, R377 step 1): the fence, the stop of the job context, the event, the relief. -/
def probeFailed (s : State) (r : Nat) (e : Win) (l : Lane) (pay : List Byte) (wp wf : Nat) : State :=
  let p := l.pos
  let rd := getR s r
  let prompt := if insertedProbe e then rd.job else none
  let s1 := setMap s r p (physOf rd p) true
  let s2 := updTile s1 r l.tile (fun t => { t with survey := none })
  let s3 := if insertedProbe e then updCtx s2 r .job (fun c => { c with run := false }) else s2
  let s4 := countFailed (raise s3 r 0x05 0x01 (partByte s r) pay) r p
  let s5 := queueRefresh (markSuspects s4 r p wp wf prompt) r p 1
  let anyJob := s5.jobs.any (fun j => j.suspects.contains (r, p, wp, wf))
  match anyJob, ownerOf s r with
  | false, some part => suspectEvents s5 part r p wp wf
  | _, _ => s5

/-- PROBE_COMPARE: the comparison ends; the position passes, or is fenced (R363, R364). -/
def execProbeCompare (r : Ridge) (id : Nat) (devs : List AdcDev) (s : State) : Out :=
  match findWin s r id with
  | none => .next s
  | some e =>
    match e.lanes with
    | [l] =>
      if e.kind ≠ .probe then .next s
      else match goldenOf s r l.pos with
        | none => .next (retire s r id)
        | some g =>
          let bad := probeFails s r g e.aux l devs
          let s1 := retire s r id
          let wp := wPass s r l.pos
          if bad.isEmpty && !probeClips s r g l devs then
            let s2 := updPos s1 r l.pos (fun q => { q with passWin := e.stamp, passSeq := e.id + 1 })
            if opOf e.w = 0x38 then
              .next (raise s2 r 0x05 0x02 (partByte s r) (probePayload r l.pos l.tile e.aux 0 0xFFFF 0 0 wp e.stamp))
            else .next s2
          else
            let c := bad.headD 0xFFFF
            let v := if bad.isEmpty then 0 else (probeValue s r g l devs c).v
            let x := if bad.isEmpty then 0 else tget 0 (g.probes.getD e.aux default).expect c
            .next (probeFailed s1 r e l (probePayload r l.pos l.tile e.aux bad.length c v x wp e.stamp) wp e.stamp)
    | _ => .next s

end Sys2Proof.Machine
end

