-- ==== Sys2Proof/Machine/Tiles.lean ====
section
/-!
DEFINITION. The tiles' life: surveys and their triggers (R92 to R99), the cross-check of the thermal estimate (R113), the drift fold (R95, R100, R101), refresh and swap (R49, R50, R102 to R104), programming (R36 to R45, R58, R59), and calibration (R105, R106).
-/

namespace Sys2Proof.Machine

/-- CMC cycles in n seconds. -/
def seconds (n : Nat) : Nat := n * 600000000
/-- The ages at which a tile is surveyed, in seconds (R96, item 4). -/
def surveyAges : List Nat := [1, 3, 10, 30, 100, 180]
/-- SURVEY_POLICY in force for a ridge (R97). -/
def surveyPolicy (s : State) (r : Nat) : W32 := match ownerOf s r with
  | some p => (getP s p).survey
  | none => s.integ.surveyPolicy
def srvConc (w : W32) : Nat := bits w 26 24 + 1
def srvDt (w : W32) : Nat := bits w 23 16
def srvAge (w : W32) : Nat := 2 ^ bits w 13 8
def srvInt (w : W32) : Nat := 2 ^ bits w 4 0
def estOf (s : State) (r : Nat) : Int := tget 0 s.thermal.est r

/-- The tile is mapped to a position of a RESIDENT weight set. -/
def mappedResident (s : State) (r t : Nat) : Option Nat :=
  match posOfTile (getR s r) t with
  | some p => match wsetOf s r p with
    | some ws => if ws.st = .resident then some p else none
    | none => none
  | none => none
def isRelief (rd : RidgeSt) (t : Nat) : Bool := (posOfTile rd t).isNone
/-- A survey may be issued to the tile at all (R96). -/
def surveyable (s : State) (r t : Nat) : Bool :=
  let rd := getR s r
  !engineOn rd t && (tileOf rd t).jr.state ≠ .orphan && (match posOfTile rd t with
    | some p => !fencedAt rd p
    | none => (tileOf rd t).jr.state = .clean)

/-! ### Survey triggers and issue -/

def requestSurvey (s : State) (r t : Nat) : State := updTile s r t (fun x => { x with surveyReq := true })

/-- SURVEY_AGE_TIMER: the age trigger, or an age point (R96, items 3 and 4). -/
def execSurveyAgeTimer (r : Ridge) (t : TileNo) (s : State) : Out :=
  let x := getTile s r t
  let who := (mappedResident s r t).isSome || (isRelief (getR s r) t && x.jr.state = .clean)
  let age := match x.lastSurvey with
    | some l => decide (l + srvAge (surveyPolicy s r) ≤ s.now)
    | none => false
  let point := match x.progEnd, surveyAges[x.agesDone]? with
    | some e, some a => decide (e + seconds a ≤ s.now)
    | _, _ => false
  if !who || !surveyable s r t then .next s
  else if point then .next (requestSurvey (updTile s r t (fun y => { y with agesDone := y.agesDone + 1 })) r t)
  else if age then .next (requestSurvey s r t)
  else .next s

/-- SURVEY_MVM_COUNT: 2^SRV_INT_EXP fired MVMs since the last survey (R96, item 1). -/
def execSurveyMvmCount (r : Ridge) (t : TileNo) (s : State) : Out :=
  if (mappedResident s r t).isSome && decide (srvInt (surveyPolicy s r) ≤ (getTile s r t).fired) && surveyable s r t then .next (requestSurvey s r t)
  else .next s

/-- The first segment issues: one survey of the tile is under way (R92, R98). -/
def startSurvey (s : State) (r t : Nat) (w : W128) : State :=
  let s1 := pushWin s r { mkWin (getR s r) .service w .survey with aux := t }
  updTile s1 r t (fun x => { x with survey := some ⟨s.rclk, estOf s r, false⟩, surveyReq := false })
/-- The survey's window entry. -/
def surveyWin (rd : RidgeSt) (t : Nat) : Option Win := rd.win.find? (fun e => e.kind = .survey && e.aux = t)
def endSurvey (s : State) (r t : Nat) : State :=
  let s1 := updTile s r t (fun x => { x with survey := none })
  match surveyWin (getR s1 r) t with
  | some e => retire s1 r e.id
  | none => s1

/-- SRV (R208): the sequencer refuses a tile being programmed (R40). -/
def execSrv (r : Ridge) (x : Ctx) (w : W128) (s : State) : Out :=
  issue s r x w 0x39 (fun s =>
    let t := bits w 111 106
    if engineOn (getR s r) t then .fault 0x04
    else if (getTile s r t).survey.isSome || lockedClaim s (3, r.val, t) then .wait
    else .next (startSurvey s r t w))

/-- SURVEY_ISSUE: Prorvafort issues a requested survey when concurrency and the tile permit (R92, R96, R98). -/
def execSurveyIssue (r : Ridge) (t : TileNo) (s : State) : Out :=
  let rd := getR s r
  let n := (rd.tiles.filter (fun x => x.2.survey.isSome)).length
  if (getTile s r t).surveyReq && (getTile s r t).survey.isNone && surveyable s r t && decide (n < srvConc (surveyPolicy s r)) && !held s r &&
      ridgeUp s r && !rd.test.running && s.cmc.fw = .running && !lockedClaim s (3, r.val, t.val) then
    .next (startSurvey s r t (BitVec.ofNat 128 (0x39 * 2 ^ 120 + t.val * 2 ^ 106)))
  else .next s

/-- SURVEY_SPAN_TIMEOUT: the 24 segments have not all issued within 2^17 ridge cycles; the survey is discarded and requeued (R92). -/
def execSurveySpanTimeout (r : Ridge) (t : TileNo) (s : State) : Out :=
  match (getTile s r t).survey with
  | some v => if v.start + 2 ^ 20 < s.rclk then .next (requestSurvey (endSurvey s r t) r t) else .next s
  | none => .next s

/-- The CALIBRATE command of a partition that waits. -/
def calibrating (s : State) (part : Nat) : Option Cmd :=
  s.host.cmds.find? (fun c => c.busy && c.part = part && fieldAt c.entry 0 1 = 0x38)
/-- Completes a waiting CALIBRATE once no ridge of its partition is held for it and its surveys have been taken (R105, R106). -/
def calibrateSettle (s : State) (part : Nat) : State :=
  match calibrating s part with
  | none => s
  | some c =>
    let rs := (List.range 48).filter (fun r => (getP s part).ridges.toNat.testBit r)
    let pend := rs.any (fun r => (getR s r).calHold.isSome || (List.range 32).any (fun p =>
      let x := getTile s r (physOf (getR s r) p)
      (mappedResident s r (physOf (getR s r) p)).isSome && (x.surveyReq || x.survey.isSome)))
    if pend then s else complete s c stSuccess 0

/-- As calibrateSettle, for the partition of a ridge. -/
def calibrateRidge (s : State) (r : Nat) : State := match ownerOf s r with
  | some p => calibrateSettle s p
  | none => s

/-! ### Evaluation -/

/-- Benchmark gains of a survey (R93): m and the baseline are M_b times 48. -/
def benchGains (r : Nat) (t : Tile) (m : List Int) : List Q :=
  let k := qAdd ⟨1, 1⟩ (qMul (Config.alphaRidge r) (qSub (qMk t.baseTemp 8) (qOf 60)))
  (List.range 8).map (fun b => qMul (qDiv (qOf (m.getD b 0)) (qOf (t.base.getD b 0))) k)
def meanGain (g : List Q) : Q := qDiv (qSum g) (qOf g.length)
/-- d of R102. -/
def driftOf (g : List Q) : Q := (g.map (fun x => qAbs (qSub x ⟨1, 1⟩))).foldl qMax ⟨0, 1⟩
def implausible (g : Q) : Bool := qLt g ⟨85, 100⟩ || qLt ⟨115, 100⟩ g

/-- A THERMAL event (R120); its payload lays the fields the table names in order (PRESUMED, notes/assumptions/18). -/
def thermalEvent (s : State) (src cause part : Nat) (fs : List (Nat × Nat × Nat)) : State := raise s src 0x07 cause part (layFields 32 fs)
def thermalCore (s : State) (cause part : Nat) (fs : List (Nat × Nat × Nat)) : State := raiseCore s 0x07 cause part (layFields 32 fs)

/-- The estimate used for a ridge: raised to T_bench while a mismatch stands (R113) (DESIGN CHOICE, notes/assumptions/45). -/
def estUsed (s : State) (r : Nat) : Int :=
  let b := tget Bench.reset s.thermal.bench r
  if b.active then max (estOf s r) b.tBench else estOf s r

/-- The cross-check of one survey (R113). -/
def crossCheck (s : State) (r t : Nat) (g : Q) : State :=
  let x := getTile s r t
  let old := match x.progEnd with
    | some e => decide (e + 2 ^ 40 ≤ s.now)
    | none => false
  let ref := x.refs.find? (fun v => decide (v.time + 2 ^ 34 ≤ s.now) && decide (s.now ≤ v.time + 2 ^ 36))
  match old && decide (s.cmc.runningAt + 2 ^ 40 ≤ s.now), ref with
  | true, some v =>
    let tb := qAdd (qMk v.est 8) (qDiv (qSub (qDiv g v.gain) ⟨1, 1⟩) (Config.alphaRidge r))
    let diff := qAbs (qSub tb (qMk (estOf s r) 8))
    let b := tget Bench.reset s.thermal.bench r
    let miss := qLt (qOf 5) diff
    let b1 : Bench := { b with misses := (if miss then b.misses + 1 else 0), agrees := (if qLe diff (qOf 2) then b.agrees + 1 else 0), tBench := qRound (qScale tb 3) }
    let trip := !b1.active && decide (2 ≤ b1.misses)
    let b2 : Bench := if trip then { b1 with active := true, agrees := 0 } else if b1.active && decide (16 ≤ b1.agrees) then { b1 with active := false } else b1
    let s1 := { s with thermal := { s.thermal with bench := tset .reset s.thermal.bench r b2 } }
    if trip then thermalCore s1 0x01 (partByte s r) [(0, 1, r), (2, 2, ofSigned 16 (estOf s r)), (4, 2, ofSigned 16 b2.tBench)] else s1
  | _, _ => s

/-- A load or take-over whose positions are programmed and surveyed makes its weight set RESIDENT and completes its command (R53, R54, R106, R310). -/
def wsetSettle (s : State) (part : Nat) (id : W32) : State :=
  match findWset s part id with
  | none => s
  | some ws =>
    if ws.st = .loading && ws.toProgram.isEmpty && ws.toSurvey.isEmpty then
      let s1 := updWset s part id (fun w => { w with st := .resident, residentWin := epochNow s, cmd := none, calibrating := decide (0 < w.loadEnd) })
      match ws.cmd with
      | some (q, cid) => completeAt s1 q cid (if ws.degraded then stDegraded else stSuccess) id.toNat
      | none => s1
    else s
def wsetSurveyed (s : State) (r p : Nat) : State :=
  match ownerOf s r, wsetOf s r p with
  | some part, some ws => wsetSettle (updWset s part ws.id (fun w => { w with toSurvey := w.toSurvey.filter (fun x => x ≠ (r, p)) })) part ws.id
  | _, _ => s
def wsetProgrammed (s : State) (r p : Nat) : State :=
  match ownerOf s r, wsetOf s r p with
  | some part, some ws => wsetSettle (updWset s part ws.id (fun w => { w with toProgram := w.toProgram.filter (fun x => x ≠ (r, p)) })) part ws.id
  | _, _ => s

/-- DRIFT_WARN and DRIFT_LIMIT of a mapped tile (R102). -/
def driftCheck (s : State) (r t p : Nat) (g : List Q) : State :=
  let d := driftOf g
  let f := (f32OfQ d).toNat
  let s1 := if qLt ⟨45, 1000⟩ d then queueRefresh (tileEvent s r t 0x07 [(4, 4, f)]) r p 2 else s
  if qLt ⟨60, 1000⟩ d then queueRefresh (tileEvent s1 r t 0x08 [(4, 4, f)]) r p 1 else s1

/-- Prorvafort's probe of a tile (R84, R99): its position's record 0, from the service context (DESIGN CHOICE, notes/assumptions/25). -/
def probeTile (s : State) (r t : Nat) : State :=
  match posOfTile (getR s r) t with
  | some p => match goldenOf s r p with
    | some g => if g.probes.isEmpty || engineOn (getR s r) t then s
                else startProbe s r .service (BitVec.ofNat 128 (0x38 * 2 ^ 120 + p * 2 ^ 107)) p g 0
    | none => s
  | none => s
/-- Prorvafort's answer to a GUARD_CLIP event: a probe and a survey of the tile (R84). -/
def answerClip (s : State) (r t : Nat) : State :=
  if s.cmc.fw = .running then
    let s1 := probeTile s r t
    if surveyable s1 r t then requestSurvey s1 r t else s1
  else s

/-- A plausible survey is taken: it ends, its mean gain is cross-checked, and the tile's gains, time, temperature and references are its own (R93, R98, R113). -/
def surveyTaken (s : State) (r t : Nat) (v : Survey) (g : List Q) : State :=
  let gm := meanGain g
  updTile (crossCheck (endSurvey s r t) r t gm) r t (fun y => { y with
    gains := g, lastSurvey := some s.now, lastTemp := v.temp, fired := 0, refs := (y.refs.filter (fun k => decide (s.now ≤ k.time + 2 ^ 36))) ++ [⟨s.now, gm, estOf s r⟩] })

/-- SURVEY_COMPLETE: the survey's evaluation (R93, R99, R102, R113). An implausible one is discarded and a probe of the tile follows. -/
def execSurveyComplete (r : Ridge) (t : TileNo) (m : List Int) (s : State) : Out :=
  let x := getTile s r t
  match x.survey with
  | none => .next s
  | some v =>
    if v.start + 2 ^ 20 < s.rclk || held s r then .next s
    else
      let g := benchGains r x m
      let s1 := endSurvey s r t
      match g.findIdx? implausible with
      | some b =>
        .next (calibrateRidge (probeTile (tileEvent s1 r t 0x06 [(4, 1, b), (8, 4, (f32OfQ (g.getD b ⟨1, 1⟩)).toNat)]) r t) r)
      | none =>
        let s3 := surveyTaken s r t v g
        match posOfTile (getR s r) t with
        | some p => .next (calibrateRidge (wsetSurveyed (driftCheck s3 r t p g) r p) r)
        | none => .next s3

/-! ### The drift fold (R95, R100, R101) -/

/-- Level mass of a column by benchmark bin (R95). -/
def levelMass (g : Golden) (c : Nat) : List Nat :=
  let add (l : List Nat) (b n : Nat) : List Nat := l.set b (l.getD b 0 + n)
  (g.level.filter (fun e => e.1 % 512 = c)).foldl (fun l e =>
    let a := e.2.natAbs
    if g.format = 0x12 then add l 7 a
    else if g.format = 0x11 then add (add l (a / 16 / 8) (a / 16 * 16)) (a % 16 / 8) (a % 16)
    else add l (a / 8) a) (List.replicate 8 0)
def massOf (g : Golden) (c : Nat) : Nat := (levelMass g c).foldl (· + ·) 0
/-- g_j (R95). -/
def columnGain (g : Golden) (gains : List Q) (c : Nat) : Q :=
  let m := levelMass g c
  let tot := m.foldl (· + ·) 0
  if tot = 0 then ⟨1, 1⟩
  else if g.format = 0x12 then gains.getD 7 ⟨1, 1⟩
  else qSum ((List.range 8).map (fun b => qMul (qMk (m.getD b 0) tot) (gains.getD b ⟨1, 1⟩)))

/-- One member of a rescale group resolved: physical ridge, position, column, gain, mass. -/
structure Member where
  ridge : Nat
  pos : Nat
  col : Nat
  gain : Q
  mass : Nat
  deriving DecidableEq, Repr, Inhabited
/-- A member under the partition's ridge map; past names a ridge, a position and the tile that stands in for the position's (R49). -/
def memberOf (s : State) (part : Nat) (past : Option (Nat × Nat × Nat)) (m : Nat × Nat × Nat) : Option Member :=
  let r := ((getP s part).ridgeMap.getD m.1 0xFF).toNat
  match goldenOf s r m.2.1 with
  | none => none
  | some g =>
    let t := match past with
      | some (a, p, t) => if a = r && p = m.2.1 then t else physOf (getR s r) m.2.1
      | none => physOf (getR s r) m.2.1
    some ⟨r, m.2.1, m.2.2, columnGain g (getTile s r t).gains m.2.2, massOf g m.2.2⟩
/-- G_e (R100, step 1). -/
def groupGain (l : List Member) : Q :=
  let tot := (l.map (fun m => m.mass)).foldl (· + ·) 0
  if tot = 0 then ⟨1, 1⟩ else qSum (l.map (fun m => qMul (qMk m.mass tot) m.gain))
/-- Mantissa, shift, and whether the mantissa saturated (R100, steps 2 to 4). -/
def foldMant (base shift : Nat) (ge : Q) : Nat × Nat × Bool :=
  let m := (qRound (qDiv (qOf base) ge)).toNat
  if m < 0x10000 then (m, shift, false)
  else if 0 < shift then ((rheDiv m 2).toNat % 0x20000, shift - 1, false)
  else (0xFFFF, shift, true)
/-- An entry with another mantissa and shift. -/
def entryWith (e : W64) (m sh : Nat) : W64 := BitVec.ofNat 64 (e.toNat / 2 ^ 22 * 2 ^ 22 + sh % 64 * 2 ^ 16 + min m 0xFFFF)

/-- The part of the image behind a ridge's tables. -/
def tablesPart (s : State) (r : Nat) : Option (Nat × ProgRidge) :=
  match (getR s r).tables with
  | some (p, h) => match findProg s p h with
    | some g => ((g.parts.find? (fun x => ((getP s p).ridgeMap.getD x.1 0xFF).toNat = r)).map (fun x => (p, x.2)))
    | none => none
  | none => none
/-- Entries of a table, channel entries and activations. -/
def tableLen (d : W64) : Nat := descCount d + 257 * ((List.range 6).filter (fun k => (descActs d).testBit k)).length

/-- What a fold writes and reports for one channel entry. -/
structure FoldEnt where
  idx : Nat
  mant : Nat
  shift : Nat
  sat : Bool
  spread : List Member
  ge : Q
  deriving DecidableEq, Repr
def foldEntries (s : State) (part : Nat) (g : ProgRidge) (d : W64) (past : Option (Nat × Nat × Nat)) : List FoldEnt :=
  (g.groups.filter (fun x => decide (descBase d ≤ x.1) && decide (x.1 < descBase d + descCount d))).map (fun x =>
    let ms := x.2.filterMap (memberOf s part past)
    let ge := groupGain ms
    let base := tget 0 g.rescale x.1
    let f := foldMant (entMant base) (entShift base) ge
    { idx := x.1, mant := f.1, shift := f.2.1, sat := f.2.2,
      spread := ms.filter (fun m => qLt ⟨1, 100⟩ (qAbs (qSub (qDiv m.gain ge) ⟨1, 1⟩))), ge := ge })

/-- Fills the inactive half of a table (R101, R138): every entry copied, the folded ones with new mantissa and shift. -/
def writeInactive (rd : RidgeSt) (t : Nat) (fs : List FoldEnt) : RidgeSt :=
  let d := rscDesc rd t
  let half := descHalf d
  let idxs := (List.range (tableLen d)).map (fun i => descBase d + i)
  let val (i : Nat) : W64 := match fs.find? (fun f => f.idx = i) with
    | some f => entryWith (halfEntry rd half i) f.mant f.shift
    | none => halfEntry rd half i
  if half then { rd with half0 := idxs.foldl (fun h i => tset 0 h i (val i)) rd.half0 }
  else { rd with half1 := idxs.foldl (fun h i => tset 0 h i (val i)) rd.half1 }

/-- SPREAD and RESCALE_SAT reports of a fold, and the refreshes they queue (R100). -/
def foldReports (s : State) (r t : Nat) (fs : List FoldEnt) : State :=
  fs.foldl (fun s f =>
    let s1 := if f.sat then tileEvent s r 0xFF 0x0A [(4, 1, t), (6, 2, f.idx)] else s
    f.spread.foldl (fun s m =>
      queueRefresh (tileEvent s m.ridge (physOf (getR s m.ridge) m.pos) 0x09
        [(4, 2, m.col), (6, 1, t), (8, 4, (f32OfQ (qSub (qDiv m.gain f.ge) ⟨1, 1⟩)).toNat), (12, 2, f.idx)]) m.ridge m.pos 2) s1) s

/-- DRIFT_FOLD: the latest gains go into the inactive half of one table, and a rope switches it (R100, R101). -/
def execDriftFold (r : Ridge) (table : Fin 256) (s : State) : Out :=
  let d := rscDesc (getR s r) table
  match tablesPart s r with
  | none => .next s
  | some (part, g) =>
    if descCount d = 0 || claimed s (2, r.val, table.val) || s.cmc.fw ≠ .running then .next s
    else
      let fs := foldEntries s part g d none
      let s1 := foldReports (updR s r (fun rd => writeInactive rd table fs)) r table fs
      .next (serviceRope s1 [part] 0 (.fold r table) [.rescaleHalf r table])

/-! ### Refresh and swap -/

/-- The tiles of a ridge that can be programmed as relief, best first (R103 step 1; a DIRTY one last, R48) (DESIGN CHOICE, notes/assumptions/60). -/
def reliefTiles (rd : RidgeSt) : List Nat :=
  let ok (st : TileSt) : List Nat := (List.range 34).filter (fun t => isRelief rd t && (tileOf rd t).jr.state = st && (tileOf rd t).jr.count < 100000 && !engineOn rd t)
  ok .blank ++ ok .clean ++ ok .orphan ++ ok .dirty
/-- A tile holds a position's weights. -/
def holdsPos (s : State) (r t p : Nat) : Bool := match goldenOf s r p with
  | some g => (getTile s r t).jr.state = .clean && (getTile s r t).jr.position = p && (getTile s r t).jr.digest = g.digest
  | none => false
/-- A ready copy (R104). -/
def readyCopy (s : State) (r t p : Nat) : Bool :=
  let x := getTile s r t
  holdsPos s r t p && isRelief (getR s r) t &&
    (match x.progEnd with
      | some e => decide (e + seconds 180 ≤ s.now)
      | none => false) &&
    (match x.lastSurvey with
      | some l => decide (s.now ≤ l + srvAge (surveyPolicy s r))
      | none => false) && qLe (driftOf x.gains) ⟨1, 100⟩
def opFor (s : State) (r p : Nat) : Bool :=
  (s.progQueue.any (fun o => o.ridge = r && o.pos = p && !o.belayOnly)) || (match (getR s r).engine with
    | some o => o.pos = p && !o.belayOnly
    | none => false)
/-- A programming operation with a position's weights. -/
def reliefOp (r t p rank cause part : Nat) (ws : Wset) (g : Golden) : ProgOp :=
  { ridge := r, tile := t, rank := rank, cause := cause, belayOnly := false, part := part, pos := p, wset := ws.id, format := g.format, level := g.level, digest := g.digest }
/-- A position that cannot be relieved stays FENCED (R50). -/
def exhausted (s : State) (r p : Nat) : State :=
  let s1 := updR (setMap s r p (physOf (getR s r) p) true) r (fun rd => { rd with degraded := true, refreshQ := rd.refreshQ.filter (fun q => q.1 ≠ p) })
  let s2 := tileEvent s1 r (physOf (getR s r) p) 0x04 []
  match ownerOf s2 r, wsetOf s2 r p with
  | some part, some ws => wsetProgrammed (updWset s2 part ws.id (fun w => if w.st = .loading then { w with degraded := true } else w)) r p
  | _, _ => s2

/-- REFRESH: a queued position's relief tile is chosen and its programming queued (R103, R364, R54); with none left, a fenced position stays fenced (R50). -/
def execRefresh (r : Ridge) (p : Pos) (s : State) : Out :=
  let rd := getR s r
  match rd.refreshQ.find? (fun q => q.1 = p.val), ownerOf s r, wsetOf s r p, goldenOf s r p with
  | some q, some part, some ws, some g =>
    if opFor s r p || (List.range 34).any (fun t => isRelief rd t && holdsPos s r t p) || s.cmc.fw ≠ .running then .next s
    else match reliefTiles rd with
      | t :: _ =>
        .next { s with progQueue := s.progQueue ++ [reliefOp r t p q.2 (if q.2 = 1 then 0x02 else 0x03) part ws g] }
      | [] => if fencedAt rd p then .next (exhausted s r p) else .next (updR s r (fun rd => { rd with refreshQ := rd.refreshQ.filter (fun v => v.1 ≠ p.val) }))
  | _, _, _, _ => .next s

/-- The rescale tables that a position's columns feed, on every ridge of the partition: ridge and table. -/
def tablesFed (s : State) (part r p : Nat) : List (Nat × Nat) :=
  ((List.range 48).filter (fun a => (getP s part).ridges.toNat.testBit a)).flatMap (fun a =>
    match tablesPart s a with
    | some (_, g) =>
      (List.range 256).filterMap (fun t =>
        let d := rscDesc (getR s a) t
        if descCount d ≠ 0 && g.groups.any (fun x => decide (descBase d ≤ x.1) && decide (x.1 < descBase d + descCount d) &&
            x.2.any (fun m => ((getP s part).ridgeMap.getD m.1 0xFF).toNat = r && m.2.1 = p)) then some (a, t) else none)
    | none => [])

/-- The inactive halves of the tables a swap concerns, folded as with the new tile in place (R49). -/
def swapTables (s : State) (part r p t : Nat) (tabs : List (Nat × Nat)) : State :=
  tabs.foldl (fun s a =>
    match tablesPart s a.1 with
    | some (_, g) => updR s a.1 (fun rd => writeInactive rd a.2 (foldEntries s part g (rscDesc rd a.2) (some (r, p, t))))
    | none => s) s

/-- TILE_SWAP: Prorvafort stages the swap rope of a position whose relief tile is ready (R49, R103 step 4). -/
def execTileSwap (r : Ridge) (p : Pos) (t : TileNo) (s : State) : Out :=
  let rd := getR s r
  match rd.refreshQ.find? (fun q => q.1 = p.val), ownerOf s r with
  | some q, some part =>
    let tabs := tablesFed s part r p
    let free := !claimed s (1, r.val, p.val) && tabs.all (fun a => !claimed s (2, a.1, a.2)) && decide (tabs.length < 16)
    if !isRelief rd t || !holdsPos s r t p || !(q.2 = 1 || readyCopy s r t p) || !free || s.cmc.fw ≠ .running then .next s
    else
      .next (serviceRope (swapTables s part r p t tabs) [part] 0 (.swap r p t) ([.tileMap r p t false] ++ tabs.map (fun a => .rescaleHalf a.1 a.2)))
  | _, _ => .next s

/-- What follows a swap's COMMIT (R49, R291, R368): the leaving tile's state, the window of the mapping, the records. -/
def swapDone (s : State) (r p t : Nat) (old : Nat) (wasFenced : Bool) : State :=
  let s1 := updTile s r t (fun x => { x with mapWin := epochNow s })
  let s2 := updR s1 r (fun rd => { rd with refreshQ := rd.refreshQ.filter (fun q => q.1 ≠ p) })
  let x := getTile s2 r old
  let st : TileSt := if 100000 ≤ x.jr.count || x.jr.state = .retired then .retired else if wasFenced || x.jr.state ≠ .clean then .dirty else .clean
  let s3 := commitMaps s2 r
  let s4 := if st = x.jr.state then s3 else setJournal s3 r old (fun j => { j with state := st })
  wsetProgrammed s4 r p

/-! ### Programming (R37 to R45) -/

/-- Pairs and levels of a logical level (R29 to R31, R42): physical pair and signed level. -/
def pairsOf (fmt c : Nat) (v : Int) : List (Nat × Int) :=
  if fmt = 0x11 then
    let sg : Int := if v < 0 then -1 else 1
    [(2 * c, sg * (v.natAbs % 16 : Nat)), (2 * c + 1, sg * (v.natAbs / 16 : Nat))]
  else [(c, v)]
/-- The cells of a tile programmed with these levels (row × 512 + logical column), benchmark pairs included. -/
def cellsOf (fmt : Nat) (level : Tbl Int) : Tbl Int :=
  let w := level.foldl (fun t e => (pairsOf fmt (e.1 % 512) e.2).foldl (fun t x => tset 0 t (e.1 / 512 * 1024 + x.1) x.2) t) []
  (List.range 1024).foldl (fun t row => (List.range 8).foldl (fun t b => tset 0 t (row * 1024 + 528 + b) ((8 * b + 7 : Nat) : Int)) t) w
/-- Column maxima (R52). -/
def colMaxOf (fmt : Nat) (level : Tbl Int) : Tbl Nat :=
  level.foldl (fun t e => (pairsOf fmt (e.1 % 512) e.2).foldl (fun t x =>
    let k := e.1 / 512 / 256 * 512 + x.1
    tset 0 t k (max (tget 0 t k) x.2.natAbs)) t) []

/-- Programming operations running, and the number that may run (R41). -/
def enginesBusy (s : State) : Nat := (s.ridges.filter (fun x => x.2.engine.isSome)).length
def engineCap (s : State) : Nat := min 24 (s.pmu.progPower * 100 / 165)
/-- Programming is paused by a peak hold or the input (R117, R442), or on a critical ridge. -/
def engineHeld (s : State) (r : Nat) : Bool := s.pmu.peak.isSome || s.pmu.inputLow || tget false s.pmu.crit r || s.pmu.refLost
/-- A tile may be programmed now (R40, R48). -/
def programmable (s : State) (o : ProgOp) : Bool :=
  let rd := getR s o.ridge
  rd.engine.isNone && ridgeUp s o.ridge && !rd.test.running && !engineHeld s o.ridge && (tileOf rd o.tile).jr.state ≠ .retired && (tileOf rd o.tile).survey.isNone &&
    (match posOfTile rd o.tile with
      | none => true
      | some p => match wsetOf s o.ridge p with
        | some ws => ws.st = .loading
        | none => true)
/-- The next waiting operation in the order of R41. -/
def nextOp (s : State) : Option ProgOp :=
  let l := s.progQueue.filter (programmable s)
  l.find? (fun o => l.all (fun v => decide (o.rank ≤ v.rank)))

/-- Removes the first operation equal to one. -/
def dropOp (s : State) (o : ProgOp) : State := { s with progQueue := s.progQueue.erase o }
/-- The DIRTY record with the incremented count is committed before the first pulse (R26, R59). -/
def markDirtyTile (s : State) (r t : Nat) (st : TileSt) (f : Journal → Journal) : State :=
  let n := (getTile s r t).jr.count + 1
  let s1 := setJournal s r t (fun j => { f j with state := st, count := n })
  if n = 90000 then tileEvent s1 r t 0x01 [(4, 4, n)] else s1

/-- PROGRAMMING_START: the next waiting operation starts within the budget, when the Clay controller can begin its journal update at once (R37, R41, R422). -/
def execProgrammingStart (s : State) : Out :=
  match nextOp s with
  | none => .next s
  | some o =>
    if engineCap s ≤ enginesBusy s || !journalFree s || s.clay.inhibit || s.cmc.fw ≠ .running then .next s
    else
      let s1 := updR (dropOp s o) o.ridge (fun rd => { rd with engine := some o })
      .next (markDirtyTile s1 o.ridge o.tile .dirty (fun j =>
        if o.belayOnly then { j with cause := o.cause }
        else { j with format := o.format, position := o.pos, cause := o.cause, wset := o.wset, digest := o.digest }))

/-- Belay assignment (R45): for each failed pair the lowest belay neither VALID nor SPENT; one with a failed cell is SPENT and its pair stays uncovered. Answers the map, the changes (belay, spent, target) and the uncovered pairs. -/
def assignBelays (m : Tbl W16) (fails belayFail : List Nat) : Tbl W16 × List (Nat × Bool × Nat) × List Nat :=
  fails.foldl (fun acc j =>
    match (List.range 16).find? (fun i => !bitAt (tget 0 acc.1 i) 15 && !bitAt (tget 0 acc.1 i) 14) with
    | none => (acc.1, acc.2.1, acc.2.2 ++ [j])
    | some i =>
      if belayFail.contains i then (tset 0 acc.1 i (BitVec.ofNat 16 (2 ^ 14 + j)), acc.2.1 ++ [(i, true, j)], acc.2.2 ++ [j])
      else (tset 0 acc.1 i (BitVec.ofNat 16 (2 ^ 15 + j)), acc.2.1 ++ [(i, false, j)], acc.2.2)) (m, [], [])

/-- A tile that failed under R38 inside a load, or as relief: its position is queued for relief and fenced when a load left it so (R50, R54). -/
def programFailed (s : State) (o : ProgOp) (uncovered free : Nat) : State :=
  let s1 := tileEvent s o.ridge o.tile 0x02 [(4, 2, uncovered), (6, 1, free), (7, 1, o.cause)]
  let s2 := setJournal s1 o.ridge o.tile (fun j => { j with state := .retired })
  if o.belayOnly then s2
  else if o.rank = 4 then queueRefresh (setMap s2 o.ridge o.pos (physOf (getR s2 o.ridge) o.pos) true) o.ridge o.pos 1
  else s2

/-- The engine is free and the failed pairs have their belays, each change reported and committed (R45); the pairs left uncovered. -/
def belaysDone (s : State) (r t : Nat) (fails belayFail : List Nat) : State × List Nat :=
  let a := assignBelays (getTile s r t).belay fails belayFail
  let s2 := updTile (updR s r (fun rd => { rd with engine := none })) r t (fun y => { y with belay := a.1 })
  let s3 := a.2.1.foldl (fun s c => tileEvent s r t 0x03 [(4, 1, c.1), (5, 1, if c.2.1 then 1 else 0), (6, 2, c.2.2), (8, 1, belaysFree (getTile s2 r t))]) s2
  (if a.2.1.isEmpty then s3 else commitMaps s3 r, a.2.2)
/-- A programmed tile: its cells and column maxima (R42, R52), its new baseline, its age from now, and its CLEAN record (R59); a belay-only operation renews the baseline alone (R44). -/
def tileClean (s : State) (r t : Nat) (o : ProgOp) (base : List Int) : State :=
  setJournal (updTile s r t (fun y =>
    if o.belayOnly then { y with base := base, baseTemp := estOf s r }
    else { y with cells := cellsOf o.format o.level, colMax := colMaxOf o.format o.level, base := base, baseTemp := estOf s r, progEnd := some s.now,
                  agesDone := 0, gains := List.replicate 8 ⟨1, 1⟩, lastSurvey := some s.now, lastTemp := estOf s r, fired := 0, refs := [] })) r t
    (fun j => { j with state := .clean })

/-- PROGRAMMING_COMPLETE: the final check ends (R37 step 5); the tile is CLEAN with its new baseline, belay map and maxima, or RETIRED (R38). -/
def execProgrammingComplete (r : Ridge) (t : TileNo) (fails belayFail : List Nat) (step5 : Bool) (base : List Int) (s : State) : Out :=
  match (getR s r).engine with
  | none => .next s
  | some o =>
    if o.tile ≠ t.val || engineHeld s r || (getR s r).test.running then .next s
    else
      let b := belaysDone s r t fails belayFail
      if !b.2.isEmpty || !step5 then .next (programFailed b.1 o b.2.length (belaysFree (getTile b.1 r t)))
      else
        let s6 := tileClean b.1 r t o base
        if o.rank = 4 then
          match ownerOf s r, wsetOf s r o.pos with
          | some part, some ws =>
            let s7 := if fencedAt (getR s6 r) o.pos && physOf (getR s6 r) o.pos = t.val then serviceRope s6 [part] 0 .none [.tileMap r o.pos t false] else s6
            .next (wsetProgrammed (updWset s7 part ws.id (fun w => { w with loadEnd := s.now })) r o.pos)
          | _, _ => .next s6
        else .next s6

/-! ### Calibration -/

/-- LOAD_CALIBRATION_END: the 180 s surveys of the load's tiles are taken, and waiting jobs may start (R106). -/
def execLoadCalibrationEnd (part : PartNo) (wset : W32) (s : State) : Out :=
  match findWset s part wset with
  | none => .next s
  | some ws =>
    let done := ws.golden.all (fun g =>
      let rd := getR s g.ridge
      let x := tileOf rd (physOf rd g.pos)
      fencedAt rd g.pos || x.progEnd.isNone || (decide (6 ≤ x.agesDone) && !x.surveyReq && x.survey.isNone))
    if ws.calibrating && decide (ws.loadEnd + seconds 180 ≤ s.now) && done then .next (updWset s part wset (fun w => { w with calibrating := false }))
    else .next s

/-- Probes every mapped tile of a ridge from the service context. -/
def probeAll (s : State) (r : Nat) : State :=
  (List.range 32).foldl (fun s p => match goldenOf s r p with
    | some g => if g.probes.isEmpty then s else startProbe s r .service (BitVec.ofNat 128 (0x38 * 2 ^ 120 + p * 2 ^ 107)) p g 0
    | none => s) s

/-- CONVERTER_CALIBRATION: a ridge's 40 ms are over (R105); a converter that cannot be trimmed is reported and every tile of its ridge probed. -/
def execConverterCalibration (r : Ridge) (bad : List (Nat × Nat × Nat)) (s : State) : Out :=
  match (getR s r).calHold with
  | none => .next s
  | some t =>
    if s.now < t then .next s
    else
      let s1 := updR s r (fun rd => { rd with calHold := none })
      let s2 := bad.foldl (fun s b => tileEvent s r 0xFF 0x0B [(4, 1, b.1), (5, 1, b.2.1), (6, 1, b.2.2)]) s1
      let s3 := if bad.isEmpty then s2 else probeAll s2 r
      match ownerOf s r with
      | some p => .next (calibrateSettle s3 p)
      | none => .next s3

/-! ### Scrub trains -/

/-- The scrub list a tile is on: a partition's, or the whole-device scrub's free ridges (R412, R416). -/
def scrubList (s : State) (r t : Nat) : Option (Option Nat × Nat) :=
  match (List.range 16).findSome? (fun p => ((getP s p).scrubTiles.find? (fun x => x.1 = r && x.2.1 = t)).map (fun x => (some p, x.2.2))) with
  | some v => some v
  | none => (s.cmc.scrubTiles.find? (fun x => x.1 = r && x.2.1 = t)).map (fun x => (none, x.2.2))
def setScrub (s : State) (who : Option Nat) (f : List (Nat × Nat × Nat) → List (Nat × Nat × Nat)) : State :=
  match who with
  | some p => updP s p (fun t => { t with scrubTiles := f t.scrubTiles })
  | none => { s with cmc := { s.cmc with scrubTiles := f s.cmc.scrubTiles } }

/-- A SECURITY event (R417) from a Basecamp core. -/
def securityEvent (s : State) (cause part port fn tile id : Nat) : State :=
  raiseCore s 0x0D cause part (layFields 32 [(0, 1, port), (1, 1, fn), (2, 2, tile), (4, 4, id)])

/-- The tile after a train: every cell at level 0, BLANK unless RETIRED (R59, R413). -/
def trainTile (s : State) (r t : Nat) : State :=
  let ret := (getTile s r t).jr.state = .retired
  let s1 := markDirtyTile s r t (if ret then .retired else .dirty) (fun j => { j with cause := 0x05 })
  let s2 := updTile s1 r t (fun x => { x with cells := [], colMax := [], base := [], gains := [], progEnd := none, lastSurvey := none, surveyReq := false, survey := none, refs := [] })
  setJournal s2 r t (fun j => { j with state := if ret then .retired else .blank, format := 0, position := 0xFF, wset := 0, digest := 0 })

/-- BULK_RESET_TRAIN: one train on a tile of a scrub, and its verify (R413). A residue gets one more train; then the tile is RETIRED and reported. -/
def bulkReset (s : State) (r t : Nat) (residue : Bool) : Option (State × Option Nat) :=
  match scrubList s r t with
  | none => none
  | some (who, n) =>
    if (getR s r).engine.isSome || !ridgeUp s r || engineHeld s r || engineCap s ≤ enginesBusy s then none
    else
      let s1 := trainTile s r t
      if !residue then some (setScrub s1 who (fun l => l.filter (fun x => !(x.1 = r && x.2.1 = t))), who)
      else if n = 0 then some (setScrub s1 who (fun l => l.map (fun x => if x.1 = r && x.2.1 = t then (r, t, 1) else x)), who)
      else
        let s2 := setJournal s1 r t (fun j => { j with state := .retired })
        let s3 := securityEvent s2 0x0A (who.getD 0xFF) 0 0 t r
        some (setScrub s3 who (fun l => l.filter (fun x => !(x.1 = r && x.2.1 = t))), who)

end Sys2Proof.Machine
end

