-- ==== Sys2Proof/Machine/Heat.lean ====
section
/-!
DEFINITION. Power frames, the thermal model and what hangs on its estimates: the limits of the PMU (R108, R117), the model step (R109 to R111), trims (R114), throttling and the operating point (R115, R116), HOT_N (R119) and the reports of R120.
-/

namespace Sys2Proof.Machine

/-- T_anchor in 1/16 degree (R110): the highest inlet value of the last 2^33 cycles; without one, 45 degrees or the last value received if that is higher. -/
def anchorOf (s : State) : Int :=
  match (s.thermal.inlets.filter (fun v => decide (s.now ≤ v.1 + 2 ^ 33))).map (fun v => v.2) with
  | x :: l => l.foldl max x
  | [] => match s.thermal.inlets with
    | v :: _ => max 720 v.2
    | [] => 720
def inletStale (s : State) : Bool := !s.thermal.inlets.any (fun v => decide (s.now ≤ v.1 + 2 ^ 33))

/-- The PMU received estimates within its last 2^19 cycles (R117). -/
def estFresh (s : State) : Bool := match s.thermal.lastEst with
  | some t => decide (s.now ≤ t + 2 ^ 19)
  | none => false
/-- The limits with an estimate apply: outside the window of R111. -/
def estLimits (s : State) : Bool := estFresh s && !s.thermal.windowOpen

def tThrottle (s : State) : Int := bits s.thermal.policy 7 0
def tHot (s : State) : Int := bits s.thermal.policy 15 8
/-- The highest estimate of the device, 1/8 degree (R109). -/
def hottest (s : State) : Int := (List.range 48).foldl (fun a r => max a (estUsed s r)) (estUsed s 0)

/-- The core that runs the thermal model (R109), fixed and free. -/
def srcModel : Nat := 73 + Config.core 0 % 8
/-- A coalesced THERMAL report (R120); its subject is the first payload bytes (PRESUMED, notes/assumptions/18). -/
def thermalCoal (s : State) (src cause part v : Nat) (fs : List (Nat × Nat × Nat)) : State := raiseCoal s 2 2 v (mkEv 0x07 cause src part (layFields 32 fs))
/-- POWER_LIMIT (R120): the row of R117, 1 peak, 2 sustained, 3 ridge, the ridge or 0xFF, and the peak frame power in mW (PRESUMED, notes/assumptions/18). -/
def powerLimit (s : State) (row r mw : Nat) : State := thermalCoal s srcPmu 0x0B (if r < 48 then partByte s r else 0xFF) mw [(0, 1, row), (1, 1, r), (4, 4, mw)]

/-- HOT_N goes low and attention is posted (R119, R299): condition 1 estimate, 2 peak hold, 3 no estimate. -/
def hotAssert (s : State) (cond : Nat) : State :=
  if s.thermal.hot then { s with thermal := { s.thermal with hotCalm := 0 } }
  else attnBoth (thermalEvent { s with thermal := { s.thermal with hot := true, hotCalm := 0 } } srcPmu 0x06 0xFF [(0, 1, cond)]) 5

/-! ### Power frames -/

/-- Sustained threshold and release in mW (R117, R451). -/
def sustainedLimits (s : State) : Nat × Nat :=
  let c := s.pmu.cap * 1000
  if estLimits s then (c - 3000, c - 10000) else (min 198000 (c - 3000), min 190000 (c - 10000))
/-- Ridge threshold and release in mW (R117). -/
def ridgeLimits (s : State) : Nat × Nat := if estLimits s then (6000, 5500) else (4000, 3600)
/-- A limit with its hysteresis: in force from above its threshold until below its release (DESIGN CHOICE, notes/assumptions/45). -/
def limitNext (on : Bool) (x thr rel : Nat) : Bool := if on then decide (rel ≤ x) else decide (thr < x)
/-- Mean of the frames held, in mW (DESIGN CHOICE, notes/assumptions/45). -/
def meanMw (l : List Nat) : Nat := l.foldl (· + ·) 0 / max l.length 1
def domPower (dom : List Nat) (r : Nat) : Nat := ((List.range 4).map (fun k => dom.getD (4 * r + k) 0)).foldl (· + ·) 0

/-- One ridge at a frame: its own limit, and its PMU duty a step down while a limit is in force, else a step up. -/
def frameRidge (dom : List Nat) (s : State) (r : Nat) : State :=
  let l := ridgeLimits s
  let x := domPower dom r
  let past := limitNext (tget false s.pmu.ridgeOver r) x l.1 l.2
  let c := tget 0 s.pmu.cut r
  let c1 := if past || s.pmu.sustained then min 16 (c + 1) else c - 1
  let s1 := { s with pmu := { s.pmu with ridgeOver := tset false s.pmu.ridgeOver r past, cut := tset 0 s.pmu.cut r c1 } }
  if past then powerLimit s1 3 r x else s1

/-- A frame is stored: the board's power, and each domain's with the conversion loss as the last (R108). -/
def frameStore (s : State) (mv mw : Nat) (d : List Nat) : State :=
  { s with pmu := { s.pmu with mv := mv, frames := (mw :: s.pmu.frames).take 1000, step10 := ((d ++ [mw - d.foldl (· + ·) 0]) :: s.pmu.step10).take 10 } }
/-- The sustained limit over the frames held (R117). -/
def frameBoard (s : State) (mw : Nat) : State :=
  let l := sustainedLimits s
  let sus := limitNext s.pmu.sustained (s.pmu.frames.foldl (· + ·) 0) (l.1 * s.pmu.frames.length) (l.2 * s.pmu.frames.length)
  let s2 := { s with pmu := { s.pmu with sustained := sus } }
  if sus then powerLimit s2 2 0xFF mw else s2
/-- A frame below the release ends a peak hold, and one of good voltage an input low that was no loss (R117, R442). -/
def frameEnd (s : State) (mv mw : Nat) : State :=
  let s5 := if s.pmu.peak.isSome && decide (mw < 334800) then { s with pmu := { s.pmu with peak := none, peakHot := false } } else s
  if s5.pmu.inputLow && s5.pmu.lossAt.isNone && decide (10800 ≤ mv) then { s5 with pmu := { s5.pmu with inputLow := false } } else s5

/-- POWER_FRAME: the frame is stored with its conversion loss, and the limits of R117 and R451 are enforced; an input low that was no loss is over at a frame of at least 10.8 V (R442) (DESIGN CHOICE, notes/assumptions/45). -/
def execPowerFrame (mv mw : Nat) (dom : List Nat) (s : State) : Out :=
  if !s.pmu.on then .next s
  else
    let d := (List.range 212).map (fun k => dom.getD k 0)
    .next (frameEnd ((List.range 48).foldl (frameRidge d) (frameBoard (frameStore s mv mw d) mw)) mv mw)

/-- PEAK_POWER_HOLD: the input current exceeds 360 W over the frame's input voltage (R117). -/
def execPeakPowerHold (ma : Nat) (s : State) : Out :=
  if s.pmu.on && s.pmu.peak.isNone && decide (360000000 < ma * s.pmu.mv) then
    .next (powerLimit { s with pmu := { s.pmu with peak := some s.now } } 1 0xFF (ma * s.pmu.mv / 1000))
  else .next s

/-- PEAK_HOLD_HOT_TIMER: a peak hold longer than 1 ms asserts HOT_N (R119). -/
def execPeakHoldHotTimer (s : State) : Out :=
  match s.pmu.peak with
  | some t => if t + 600000 < s.now && !s.pmu.peakHot then .next (hotAssert { s with pmu := { s.pmu with peakHot := true } } 2) else .next s
  | none => .next s

/-! ### The model -/

/-- The model starts with every node at T_anchor, and the window of R111 opens. -/
def startModel (s : State) : State :=
  let t := qMk (anchorOf s) 16
  { s with thermal := { s.thermal with
      temps := (List.range 96).map (fun n => (n, t)), modelStart := s.now, modelOn := true, windowOpen := true, lastStep := s.now } }

/-- Mean power of term j over the frames of the step, in W. -/
def meanPower (l : List (List Nat)) (j : Nat) : Q := qMk ((l.map (fun f => f.getD j 0)).foldl (· + ·) 0 : Nat) (1000 * max l.length 1)
/-- T[n + 1] = A T[n] + B P[n] + c T_anchor (R109). -/
def modelNext (s : State) : Tbl Q :=
  let t (k : Nat) : Q := tget ⟨0, 1⟩ s.thermal.temps k
  let p := (List.range 213).map (meanPower s.pmu.step10)
  let anchor := qMk (anchorOf s) 16
  (List.range 96).map (fun n =>
    (n, qAdd (qAdd (qSum ((List.range 96).map (fun k => qMul (Config.thermalA n k) (t k))))
      (qSum ((List.range 213).map (fun k => qMul (Config.thermalB n k) (p.getD k ⟨0, 1⟩))))) (qMul (Config.thermalC n) anchor)))

/-- The compensation values of R114 follow an estimate that has moved by 0.25 degree; key 48 is the device's. -/
def applyTrims (s : State) : State :=
  let val (k : Nat) : Int := if k = 48 then hottest s else estUsed s k
  { s with thermal := { s.thermal with
      trimAt := (List.range 49).foldl (fun t k => if 2 ≤ (val k - tget 0 t k).natAbs then tset 0 t k (val k) else t) s.thermal.trimAt } }

/-- The critical row of R117 on one ridge. -/
def critRidge (s : State) (r : Nat) : State :=
  let on := tget false s.pmu.crit r
  let now := if on then decide (99 * 8 ≤ estUsed s r) else decide (101 * 8 ≤ estUsed s r)
  let s1 := { s with pmu := { s.pmu with crit := tset false s.pmu.crit r now } }
  if now && !on then thermalCoal s1 srcPmu 0x08 (partByte s r) 0 [(0, 1, r)] else s1

/-- Issue throttling of one ridge (R116); lost sixteenths are stored. -/
def throttleRidge (s : State) (r : Nat) : State :=
  let c := tget 0 s.thermal.duty r
  let e := estUsed s r
  let c1 := if tThrottle s * 8 < e then min 12 (c + 1) else if e < (tThrottle s - 1) * 8 then c - 1 else c
  let s1 := { s with thermal := { s.thermal with
      duty := tset 0 s.thermal.duty r c1, at4 := tset 0 s.thermal.at4 r (if c1 = 12 then tget 0 s.thermal.at4 r + 1 else 0) } }
  if c < c1 then thermalCoal s1 srcModel 0x03 (partByte s r) 0 [(0, 1, r), (2, 1, 16 - c1)]
  else if c1 = 0 && c ≠ 0 then thermalCoal s1 srcModel 0x04 (partByte s r) 0 [(0, 1, r)] else s1

/-- A new operating point (R116, R450). -/
def setOp (s : State) (k : Nat) : State :=
  thermalCore { s with pmu := { s.pmu with op := k }, thermal := { s.thermal with calm := 0, at4 := [] } } 0x05 0xFF [(0, 1, k)]
/-- The core rail moves one point at a time (R116) (DESIGN CHOICE, notes/assumptions/45). -/
def dvfsStep (s : State) : State :=
  let allCalm := (List.range 48).all (fun r => tget 0 s.thermal.duty r = 0 && decide (estUsed s r < (tThrottle s - 3) * 8))
  let s1 := { s with thermal := { s.thermal with calm := if allCalm then s.thermal.calm + 1 else 0 } }
  if (List.range 48).any (fun r => decide (10 ≤ tget 0 s.thermal.at4 r) && decide ((tThrottle s + 3) * 8 < estUsed s r)) then
    if s.pmu.op < 5 then setOp s1 (s.pmu.op + 1) else s1
  else if 100 ≤ s1.thermal.calm && 0 < s.pmu.op then setOp s1 (s.pmu.op - 1)
  else s1

/-- HOT_N at a model step (R119). -/
def hotStep (s : State) : State :=
  if (List.range 48).any (fun r => decide (tHot s * 8 ≤ estUsed s r)) then hotAssert s 1
  else if s.pmu.peakHot || s.thermal.stale then { s with thermal := { s.thermal with hotCalm := 0 } }
  else
    let n := s.thermal.hotCalm + 1
    if s.thermal.hot && decide (10 ≤ n) && (List.range 48).all (fun r => decide (estUsed s r < (tHot s - 2) * 8)) then
      thermalCore { s with thermal := { s.thermal with hot := false, hotCalm := 0 } } 0x07 0xFF []
    else { s with thermal := { s.thermal with hotCalm := n } }

/-- The thermal trigger of surveys (R96, item 2). -/
def surveyTemps (s : State) : State :=
  (List.range 48).foldl (fun s r =>
    ((getR s r).tiles.map (fun x => x.1)).foldl (fun s t =>
      let x := getTile s r t
      if (mappedResident s r t).isSome && surveyable s r t && x.lastSurvey.isSome && decide (srvDt (surveyPolicy s r) ≤ (estUsed s r - x.lastTemp).natAbs) then
        requestSurvey s r t
      else s) s) s

/-- The new temperatures and the estimates made of them reach the PMU, which was without one no longer (R109, R112, R117). -/
def estimated (s : State) : State :=
  let t := modelNext s
  let s1 := { s with thermal := { s.thermal with
      temps := t, lastStep := s.now, lastEst := some s.now, est := (List.range 48).foldl (fun e r => tset 0 e r (qRound (qScale (tget ⟨0, 1⟩ t r) 3))) [] } }
  if s.thermal.stale then thermalEvent { s1 with thermal := { s1.thermal with stale := false } } srcPmu 0x0A 0xFF [] else s1

/-- THERMAL_MODEL_STEP: one step every 61,440 cycles; the estimates go to the PMU, and throttling, the operating point, HOT_N, trims and surveys follow (R96, R109, R113 to R119). -/
def execThermalModelStep (s : State) : Out :=
  if !s.thermal.modelOn || s.now < s.thermal.lastStep + 61440 || !(s.cmc.fw = .running || s.cmc.fw = .starting) then .next s
  else
    let s1 := estimated s
    let s3 := (List.range 48).foldl critRidge s1
    let s4 := (List.range 48).foldl throttleRidge s3
    .next (surveyTemps (applyTrims (hotStep (dvfsStep s4))))

/-- ESTIMATE_STALE: no estimate for 2^19 PMU cycles (R117, R119, R120). -/
def execEstimateStale (s : State) : Out :=
  match s.thermal.lastEst with
  | some t =>
    if s.pmu.on && t + 2 ^ 19 < s.now && !s.thermal.stale then
      let s1 := thermalEvent { s with thermal := { s.thermal with stale := true } } srcPmu 0x09 0xFF [(0, 8, s.now - t)]
      .next (if s.thermal.windowOpen then s1 else hotAssert s1 3)
    else .next s
  | none => .next s

/-- NO_ESTIMATE_WINDOW_END: 2^32 cycles after the model's start (R111). -/
def execNoEstimateWindowEnd (s : State) : Out :=
  if s.thermal.modelOn && s.thermal.windowOpen && decide (s.thermal.modelStart + 2 ^ 32 ≤ s.now) then
    let s1 := { s with thermal := { s.thermal with windowOpen := false } }
    .next (if s.thermal.stale then hotAssert s1 3 else s1)
  else .next s

/-- INLET_STALE: no inlet value within 2^33 cycles (R110); once a stale period. -/
def execInletStale (s : State) : Out :=
  if s.cmc.fw = .running && inletStale s && !s.thermal.staleSaid then
    .next (thermalCore { s with thermal := { s.thermal with staleSaid := true } } 0x02 0xFF [(0, 2, ofSigned 16 (anchorOf s))])
  else .next s

end Sys2Proof.Machine
end

