-- ==== Sys2Proof/Machine/Jobs.lean ====
section
/-!
DEFINITION. The life of a job: starting its streams (R188, R317), ending it with its report and completion (R19, R216, R311, R318, R372), time limits (R261), the egress fence (R373), pre-emption and restore (R263 to R266), and restart after a failed probe (R374 to R379).
-/

namespace Sys2Proof.Machine

def updProg (s : State) (p h : Nat) (f : Prog → Prog) : State :=
  updP s p (fun t => { t with progs := t.progs.map (fun g => if g.handle = h then f g else g) })
/-- The program ridge that a partition's ridge map puts on a physical ridge. -/
def mapRidge (t : Part) (r : Nat) : Option Nat := (List.range 48).find? (fun k => (t.ridgeMap.getD k 0xFF).toNat = r)

/-! ### A ridge's tables and regions -/

/-- The rescale tables as folded go aside for the program that owns them (DESIGN CHOICE, notes/assumptions/46). -/
def stashTables (s : State) (r : Nat) : State :=
  match (getR s r).tables with
  | some (p, h) => match mapRidge (getP s p) r with
    | some k => updProg s p h (fun g => { g with tabs := tput g.tabs k ((getR s r).rsc, (getR s r).half0, (getR s r).half1) })
    | none => s
  | none => s
/-- Puts a program's tables into a ridge (R222, R138); those it had when it was last there come back as they were (DESIGN CHOICE, notes/assumptions/46). -/
def loadTables (s : State) (r p h k : Nat) : State :=
  if (getR s r).tables = some (p, h) then s
  else
    let s1 := stashTables s r
    match (findProg s1 p h).bind (fun g => (tfind g.parts k).map (fun x => (g, x))) with
    | none => s1
    | some (g, x) =>
      let t := (tfind g.tabs k).getD (x.rsc, x.rescale, x.rescale)
      updR s1 r (fun rd => { rd with
        feed := x.feed, segs := x.segs, dmu := x.dmu, dma := x.dma, rsc := t.1, half0 := t.2.1, half1 := t.2.2,
        accCfg := BitVec.ofNat 32 x.cancelShift, regions := x.regions, tables := some (p, h) })

def regionsMeet (a b : Region) : Bool := decide (a.off < b.off + b.size) && decide (b.off < a.off + a.size)
/-- STATE regions of other loaded programs that this one's regions would overwrite are kept aside (R188) (DESIGN CHOICE, notes/assumptions/46). -/
def keepStates (s : State) (r p h : Nat) (regs : List Region) : State :=
  match mapRidge (getP s p) r with
  | none => s
  | some k =>
    (getP s p).progs.foldl (fun s g =>
      if g.handle = h then s
      else match tfind g.parts k with
        | none => s
        | some x =>
          let old := tget [] g.kept k
          let more := (x.regions.filter (fun q => q.kind = 6 && regs.any (regionsMeet q) && !old.any (fun o => o.1 = q.off))).map
            (fun q => (q.off, loamBytes (getR s r) r q.off q.size))
          if more.isEmpty then s else updProg s p g.handle (fun g => { g with kept := tset [] g.kept k (old ++ more) })) s
/-- A job's regions as R188 gives them: CONST with LOAM_INIT, STATE as left, every other undefined. -/
def startRegions (s : State) (r p h k : Nat) (x : ProgRidge) : State :=
  let s1 := keepStates s r p h x.regions
  let kept := ((findProg s1 p h).map (fun g => tget [] g.kept k)).getD []
  let s2 := x.regions.foldl (fun s q =>
    if q.kind = 3 then updR s r (fun rd => (loamWrite rd q.off (bytesAt x.init q.initOff q.size) tagPlain).1)
    else if q.kind = 6 then
      (match kept.find? (fun o => o.1 = q.off) with
        | some o => updR s r (fun rd => (loamWrite rd q.off o.2 tagPlain).1)
        | none => s)
    else updR (useFree s) r (fun rd => loamJunk rd q.off q.size s.free)) s1
  updProg s2 p h (fun g => { g with kept := tset [] g.kept k [] })

/-! ### Starting -/

/-- What a ridge keeps of its window when a job leaves or starts: service work and inserted probes. -/
def keepWin (rd : RidgeSt) : List Win := rd.win.filter (fun w => w.ctx = .service || insertedProbe w)
def clearBufs (rd : RidgeSt) : Tbl PosSt :=
  (List.range 32).foldl (fun t p => tset .reset t p { tget .reset rd.pos p with buf := .empty }) []
/-- Counters at a job's start: CNT0 to CNT55 zero (R183). -/
def clearCnt (c : Tbl W32) : Tbl W32 := c.filter (fun x => decide (56 ≤ x.1))
/-- A ridge with the state of R188 and its stream at an index. -/
def freshRidge (rd : RidgeSt) (p : Nat) (id : W32) (pc : Nat) : RidgeSt :=
  { rd with slots := [], cnt := clearCnt rd.cnt, pos := clearBufs rd, prefetch := [], win := keepWin rd,
            jobCtx := { CtxSt.reset with run := true, pc := pc }, job := some (p, id) }
/-- A ridge that a job has left. -/
def leaveRidge (rd : RidgeSt) : RidgeSt :=
  { rd with slots := [], pos := clearBufs rd, prefetch := [], win := keepWin rd, jobCtx := .reset, job := none }

/-- The physical ridges a job needs: the first RIDGES entries of its placement (R55, R237). -/
def needs (s : State) (j : Job) : List Nat :=
  let n := ((findProg s j.part j.prog).map (fun g => g.ridges)).getD 0
  ((j.placement.take n).map (fun b => b.toNat)).filter (fun r => r < 48)
def shareRidge (s : State) (a b : Job) : Bool := (needs s a).any (fun r => (needs s b).contains r)
/-- A waiting or saved job of the partition that goes before j on a ridge they share: a higher priority, or the same and saved, or the same and submitted earlier (R263). -/
def goesBefore (s : State) (j k : Job) : Bool :=
  k.part = j.part && k.id ≠ j.id && shareRidge s j k && (k.st = .waiting || k.st = .saved) &&
    (decide (j.prio < k.prio) || (k.prio = j.prio && j.st = .waiting && (k.st = .saved || decide (k.accepted < j.accepted))))
/-- The weight set of a job's program is RESIDENT and past its load calibration (R106, R317). -/
def wsetOk (s : State) (j : Job) : Bool :=
  match findProg s j.part j.prog with
  | some g => g.wset = 0 || (match findWset s j.part g.wset with
    | some w => w.st = .resident && !w.calibrating
    | none => false)
  | none => false
/-- Every ridge of a job is free and can serve. -/
def ridgesFree (s : State) (j : Job) : Bool :=
  (needs s j).all (fun r => (getR s r).job.isNone && ridgeUp s r && !(getR s r).failed && !(getR s r).test.running && !(getR s r).test.due)
def startable (s : State) (j : Job) : Bool :=
  j.st = .waiting && s.cmc.fw = .running && wsetOk s j && ridgesFree s j && !s.jobs.any (goesBefore s j)

/-- Copies a cairn's regions back and sets counters and the stream (R374, R377 step 5) (DESIGN CHOICE, notes/assumptions/46). -/
def restoreCopy (s : State) (j : Job) (r : Nat) (c : CairnCopy) : State :=
  let regs := ((progPart s j r).map (fun x => x.regions)).getD []
  let s1 := c.regions.foldl (fun s x => match regs[x.1]? with
    | some q => updR s r (fun rd => (loamWrite rd q.off x.2 (tagFromMemory s j r)).1)
    | none => s) s
  updR s1 r (fun rd =>
    let f := freshRidge rd j.part j.id c.resume
    { f with cnt := c.counters.foldl (fun t x => tput t x.1 x.2) f.cnt })
/-- Starts one ridge of a job: from a cairn copy where the half has one, else from instruction 0 (DESIGN CHOICE, notes/assumptions/46). -/
def startRidge (s : State) (j : Job) (h : Option CairnHalf) (k r : Nat) : State :=
  match (findProg s j.part j.prog).bind (fun g => tfind g.parts k) with
  | none => s
  | some x =>
    let s1 := startRegions (loadTables s r j.part j.prog k) r j.part j.prog k x
    match h.bind (fun h => h.copies.find? (fun c => c.ridge = k)) with
    | some c => restoreCopy (updR s1 r (fun rd => freshRidge rd j.part j.id 0)) j r c
    | none => updR s1 r (fun rd => freshRidge rd j.part j.id 0)
/-- Program ridge and physical ridge of each part of a job. -/
def jobParts (s : State) (j : Job) : List (Nat × Nat) := (List.range (needs s j).length).zip (needs s j)
/-- A job starts on all its ridges (R317): at instruction 0, or from the cairn it was submitted with (R321). -/
def startJob (s : State) (j : Job) : State :=
  let h := if (liveHalf j).valid then some (liveHalf j) else none
  let s1 := updJob s j.part j.id (fun j => { j with st := .running })
  (jobParts s j).foldl (fun s x => startRidge s j h x.1 x.2) s1

/-- JOB_START: an accepted job whose ridges are free starts (R106, R263, R317). -/
def execJobStart (part : PartNo) (job : W32) (s : State) : Out :=
  match findJob s part job with
  | some j => if startable s j then .next (startJob s j) else .next s
  | none => .next s

/-! ### Ending -/

/-- A rope of the job is locked; only a Rappel ends it (R289) (DESIGN CHOICE, notes/assumptions/47). -/
def jobLocked (s : State) (j : Job) : Bool := (jobRidges j).any (fun r => (getR s r).job = some (j.part, j.id) && (getRope s r).st = .locked)
/-- A locked rope loses to a Rappel: it holds no lock any more, and its grant will be the ROPE event with cause RAPPEL (R290). -/
def ropeDrop (s : State) (e : Nat) : State :=
  let q := getRope s e
  if q.st = .locked then setRope s e { q with st := .aborted, cause := 0x02, fault := 0, holder := 0 } else s
/-- Ends a rope in whatever state it is undecided (DESIGN CHOICE, notes/assumptions/47). -/
def ropeKill (s : State) (e cause : Nat) : State := if (getRope s e).st = .locked then ropeDrop s e else ropeAbort s e cause 0 0

/-- Work of a job under way in the memory system, the fabric and the links ends (R173, R325 steps 3 and 4): DMA, messages, atomics and walks go; requests to peers are abandoned (DESIGN CHOICE, notes/assumptions/47). -/
def dropWork (s : State) (p : Nat) (id : W32) : State :=
  let mine (a : Nat) (b : W32) : Bool := a = p && b = id
  { s with
    mem := { s.mem with
      walks := s.mem.walks.filter (fun x => !mine x.part x.job), aads := s.mem.aads.filter (fun x => !mine x.part x.job),
      atomics := s.mem.atomics.filter (fun x => !mine x.part x.job), sigs := s.mem.sigs.filter (fun x => !mine x.part x.job),
      dma := (List.range 4).foldl (fun t c => tset [] t c ((getDma s c).filter (fun d => !(d.ctx = .job && mine d.part d.job)))) [] }
    links := { s.links with
      outstanding := s.links.outstanding.map (fun x => (x.1, x.2.map (fun o => if mine o.part o.job then { o with abandoned := true } else o))) } }
/-- A job leaves its ridges and everything of it under way ends. -/
def clearJob (s : State) (j : Job) : State :=
  let on := (jobRidges j).filter (fun r => (getR s r).job = some (j.part, j.id))
  let s1 := on.foldl (fun s r => ropeKill s r 0x02) s
  let s2 := on.foldl (fun s r => updR s r leaveRidge) s1
  let s3 := dropWork s2 j.part j.id
  ropeWake { s3 with mem := { s3.mem with tlb := s3.mem.tlb.filter (fun t => !(t.part = j.part && t.job = j.id)) } }

/-- The job report (R318). -/
def jobReport (s : State) (j : Job) (status : Nat) (applied : List Nat) : List Byte :=
  layFields 128 [(0x00, 4, j.id.toNat), (0x04, 1, status), (0x05, 1, j.fault), (0x06, 1, j.faultRidge), (0x07, 1, j.mmuCause),
    (0x08, 4, j.faultInstr % 2 ^ 20), (0x0C, 4, (applied.eraseDups.map (fun a => 2 ^ a)).foldl (· + ·) 0), (0x10, 8, j.sat), (0x18, 8, j.clip),
    (0x20, 8, j.screeOvf), (0x28, 8, j.cancel), (0x30, 8, j.outsat), (0x38, 8, j.esc), (0x40, 8, j.fallback),
    (0x48, 8, s.now - j.accepted), (0x50, 4, j.preempts), (0x54, 4, j.resumes)]
/-- Every status that applies to a job that ends with these (R310, R311). -/
def jobStatuses (j : Job) (extra : List Nat) : List Nat :=
  let l := extra ++ j.applied ++ (if 0 < j.sat then [stSaturated] else []) ++ (if 0 < j.fallback then [stDegraded] else [])
  if l.isEmpty then [stSuccess] else l
/-- The completion of a job: report, entry, summary (R308, R317, R318, R372). -/
def finishJob (s : State) (j : Job) (extra : List Nat) : State :=
  let l := jobStatuses j extra
  let st := firstStatus l
  let rep := if j.report = 0 then none else some (j.report, jobReport s j st l)
  let s1 := postCqe s (mkCqe j.q j.cid st j.part (j.id.toNat + j.fault * 2 ^ 32) 0 rep)
  let s2 := match findCmd s1 j.q j.cid with
    | some c => dropCmd s1 c.seqNo
    | none => s1
  let s3 := updP s2 j.part (fun t => { t with
    summaries := ((t.summaries ++ [Summary.mk j.id j.fired j.epLo j.epHi]).drop (t.summaries.length - 63)),
    summaryDropped := t.summaryDropped || decide (64 ≤ t.summaries.length) })
  pinSync (dropJob s3 j.part j.id)
/-- Ends a job now with these statuses. -/
def endJob (s : State) (j : Job) (extra : List Nat) : State :=
  let s1 := clearJob s j
  match findJob s1 j.part j.id with
  | some k => finishJob s1 k extra
  | none => s1

/-- JOB_END_ON_FAULT: a job with a stream fault other than PAGE_FAULT ends (R213, R216). -/
def execJobEndOnFault (part : PartNo) (job : W32) (s : State) : Out :=
  match findJob s part job with
  | some j =>
    let codes := j.pendingFault.filter (fun c => c ≠ 0x12)
    if codes.isEmpty || jobLocked s j || s.cmc.fw ≠ .running then .next s else .next (endJob s j (codes.map faultStatus))
  | none => .next s

/-- Every program ridge has halted and nothing of the job is under way. -/
def jobDone (s : State) (j : Job) : Bool :=
  let ps := jobParts s j
  (j.st = .running || j.st = .egress) && j.pendingFault.isEmpty && j.suspects.isEmpty && j.held.isEmpty &&
    ps.all (fun x => j.ended.contains x.1) &&
    (List.range 4).all (fun c => (getDma s c).all (fun d => !(d.ctx = .job && d.part = j.part && d.job = j.id))) &&
    !s.mem.atomics.any (fun a => a.part = j.part && a.job = j.id) && !s.mem.aads.any (fun a => a.part = j.part && a.job = j.id)

/-- JOB_COMPLETION: the report and the entry (R19); under the egress fence the entry waits for its own probes (R373). -/
def execJobCompletion (part : PartNo) (job : W32) (s : State) : Out :=
  match findJob s part job with
  | none => .next s
  | some j =>
    if !jobDone s j || s.cmc.fw ≠ .running then .next s
    else if !j.fence then .next (endJob s j [])
    else match j.endWaits with
      | none =>
        let l := fenceWaits s j
        .next (askProbes (updJob s part job (fun j => { j with st := .egress, endWaits := some l })) l)
      | some l => if waitsOver s l then .next (endJob s j []) else .next s

/-! ### The egress fence (R373) -/

/-- A descriptor's posted write has been answered. -/
def dmaAnswered (s : State) (c id : Nat) (bad : Bool) : State :=
  setDma s c ((getDma s c).map (fun d => if d.id = id then { d with posted := d.posted - 1, bad := d.bad || bad } else d))
/-- Sends one held write to where it goes; none while it cannot be sent. -/
def releaseOne (s : State) (j : Job) (w : EgressWrite) : Option State :=
  match w.port with
  | some p =>
    if (getPort s p).tunnel then
      let s1 := hostWrite s p w.addr w.data
      some (match w.cluster with
        | some c => dmaAnswered s1 c w.dmaId false
        | none => s1)
    else none
  | none =>
    (sendReq s { mkReq w.kind w.dev j.part j.id w.ridge w.win w.addr w.op w.data w.dva with cluster := w.cluster, dmaId := w.dmaId })
/-- Held writes whose probes have passed go, oldest first; so does a posted write that a peer fault sent back (R261). -/
def releaseHeld (s : State) (j : Job) : State :=
  j.held.foldl (fun s w =>
    if waitsOver s w.waits then
      match releaseOne s j w with
      | some t => updJob t j.part j.id (fun k => { k with held := k.held.erase w })
      | none => match w.port with
        | some _ => mmuFault s (srcCluster (w.cluster.getD 0)) j.part j.id 1 ((progRidge j w.ridge).getD 0xFF) 0x07 w.addr 1 0 0 0 0
        | none => s
    else s) s
/-- EGRESS_FENCE_RELEASE. -/
def execEgressFenceRelease (part : PartNo) (job : W32) (s : State) : Out :=
  match findJob s part job with
  | some j => if j.suspects.isEmpty && (j.st = .running || j.st = .egress) then .next (releaseHeld s j) else .next s
  | none => .next s

/-- JOB_TIME_LIMIT: counted from acceptance, suspended and saved time included (R261, R317). -/
def execJobTimeLimit (part : PartNo) (job : W32) (s : State) : Out :=
  match findJob s part job with
  | some j =>
    if j.timeLimit = 0 || s.now < j.accepted + j.timeLimit * 2 ^ 16 || jobLocked s j || s.cmc.fw ≠ .running then .next s
    else .next (endJob s j [stTimeout])
  | none => .next s

/-! ### Pre-emption (R263 to R266) -/

/-- Nothing of the job is in a state that a save waits for: an MVM on a tile, an AAD or atomic on its way, a locked rope (R265 steps 1 to 3). -/
def quietJob (s : State) (j : Job) : Bool :=
  let on := (jobRidges j).filter (fun r => (getR s r).job = some (j.part, j.id))
  !jobLocked s j && on.all (fun r =>
    (getR s r).win.all (fun w => !(w.ctx = .job && w.kind = .mvm && w.lanes.any (fun l => l.fired)) || (getR s r).jobCtx.fault.any (fun f => f.1 ≠ 0x12))) &&
    !s.mem.aads.any (fun a => a.part = j.part && a.job = j.id) && !s.mem.atomics.any (fun a => a.part = j.part && a.job = j.id && (match a.place with
      | .remote _ _ => false
      | _ => true))
/-- What the save area takes of one ridge (R264); regs: the incoming program's regions there, none for a field test, which saves them all. -/
def savedOf (s : State) (r : Nat) (same : Bool) (regs : Option (List Region)) : SavedRidge :=
  let rd := getR s r
  { slots := rd.slots, cnt := rd.cnt, pos := (List.range 32).map (fun p => (p, (posOf rd p).buf)), win := rd.win.filter (fun w => w.ctx = .job && !insertedProbe w),
    ctx := rd.jobCtx, prefetch := rd.prefetch,
    loam := (rd.regions.filter (fun q => (match regs with
      | some l => l.any (regionsMeet q) && !(same && q.kind = 3)
      | none => true))).map (fun q => (q.off, loamBytes rd r q.off q.size)) }
/-- Saves a job off its ridges (R265): open ropes abort with PREEMPT, the state goes to the save area. -/
def saveJob (s : State) (j : Job) (inc : Option Job) : State :=
  let on := (jobRidges j).filter (fun r => (getR s r).job = some (j.part, j.id))
  let s1 := on.foldl (fun s r => ropeAbort s r 0x05 0 0) s
  let regsOn (r : Nat) : Option (List Region) := match inc with
    | some i => some (((jobParts s1 i).find? (fun x => x.2 = r)).bind (fun x => (findProg s1 i.part i.prog).bind (fun g => (tfind g.parts x.1).map (fun y => y.regions))) |>.getD [])
    | none => none
  let same := match inc with
    | some i => i.prog = j.prog
    | none => false
  let sv : Tbl SavedRidge := on.foldl (fun t r => tput t r (savedOf s1 r same (regsOn r))) []
  let s2 := updJob s1 j.part j.id (fun k => { k with st := .saved, savedSt := k.st, saved := sv, preempts := k.preempts + 1 })
  on.foldl (fun s r => updR s r leaveRidge) s2
/-- A job may be pre-empted now (R263, R265, R379) (DESIGN CHOICE, notes/assumptions/47). -/
def savable (s : State) (j : Job) : Bool :=
  (j.st = .running || j.st = .suspended || j.st = .egress) && j.suspects.isEmpty && quietJob s j

/-- PREEMPTION: a strictly higher priority of the same partition that needs a ridge of the victim (R263). The incoming job starts once all its ridges are free. -/
def execPreemption (part : PartNo) (victim incoming : W32) (s : State) : Out :=
  match findJob s part victim, findJob s part incoming with
  | some v, some i =>
    if savable s v && i.st = .waiting && decide (v.prio < i.prio) && shareRidge s v i && wsetOk s i && s.cmc.fw = .running then
      let s1 := saveJob s v (some i)
      .next (if startable s1 i then startJob s1 i else s1)
    else .next s
  | _, _ => .next s

/-- Puts one ridge of a saved job back. -/
def restoreRidge (s : State) (j : Job) (k r : Nat) : State :=
  match tfind j.saved r with
  | none => s
  | some v =>
    let s1 := loadTables s r j.part j.prog k
    let s2 := v.loam.foldl (fun s x => updR s r (fun rd => (loamWrite rd x.1 x.2 (tagFromMemory s j r)).1)) s1
    updR s2 r (fun rd => { rd with
      slots := v.slots, cnt := v.cnt, prefetch := v.prefetch, jobCtx := v.ctx, job := some (j.part, j.id),
      win := keepWin rd ++ v.win, pos := v.pos.foldl (fun t x => tset .reset t x.1 { tget .reset t x.1 with buf := x.2 }) rd.pos })
/-- The saved job returns to its ridges (R215, R265). -/
def restoreJob (s : State) (j : Job) : State :=
  let s1 := (jobParts s j).foldl (fun s x => restoreRidge s j x.1 x.2) s
  updJob s1 j.part j.id (fun k => { k with st := (if k.suspects.isEmpty then k.savedSt else .restarting), saved := [] })

/-- PREEMPTION_RESTORE: the saved job comes back when no higher priority wants its ridges (R265); a save area that fails its check words ends it with INTEGRITY (R266). -/
def execPreemptionRestore (part : PartNo) (job : W32) (saveOk : Bool) (s : State) : Out :=
  match findJob s part job with
  | some j =>
    if j.st ≠ .saved || !ridgesFree s j || s.jobs.any (goesBefore s j) || s.cmc.fw ≠ .running then .next s
    else if saveOk then
      let s1 := restoreJob s j
      .next ((needs s1 j).foldl settleRidge s1)
    else .next (endJob (raiseCore s 0x04 0x06 part (integPayload 6 0 0xFF job 0 0 0)) j [stIntegrity])
  | none => .next s

/-! ### Restart (R376, R377) -/

/-- A cairn half is touched by a failure (R374). -/
def cairnTouched (h : CairnHalf) (l : List (Nat × Nat × Nat × Nat)) : Bool :=
  l.any (fun f => h.copies.any (fun c => c.tagRidges.toNat.testBit f.1 && decide (f.2.2.1 ≤ c.tagEpoch)))
inductive RestartPoint where
  | live | cold | zero | none
  deriving DecidableEq, Repr
/-- The first point of R376 that applies. -/
def restartPoint (s : State) (j : Job) : RestartPoint :=
  let ok (h : CairnHalf) : Bool := h.valid && !cairnTouched h j.suspects && !h.dirtySince
  let stateful := match findProg s j.part j.prog with
    | some g => g.parts.any (fun x => x.2.regions.any (fun q => q.kind = 6))
    | none => false
  if ok (liveHalf j) then .live
  else if ok (coldHalf j) then .cold
  else if !stateful && !j.dirtySince then .zero
  else .none
/-- A half with its copies in CAIRN-section order (R321). -/
def cairnOrder (g : Prog) (h : CairnHalf) : CairnHalf :=
  { h with copies := (g.cairns.filter (fun c => c.id = h.id)).filterMap (fun c => h.copies.find? (fun v => v.ridge = c.ridge)) }
/-- SUSPECT_RESULT for the completed jobs of each failure that no other job still answers for (R372, R377 step 4). -/
def restartEvents (s : State) (j : Job) : State :=
  j.suspects.foldl (fun s f =>
    if s.jobs.any (fun k => k.suspects.contains f) then s else suspectEvents s j.part f.1 f.2.1 f.2.2.1 f.2.2.2) s

/-- The job off its ridges, its failures answered and forgotten (R377 steps 1 to 4). -/
def restartCleared (s : State) (part : Nat) (job : W32) (j : Job) : State :=
  restartEvents (updJob (clearJob s j) part job (fun k => { k with
    suspects := [], held := [], endWaits := none, ended := [], pendingFault := [], fault := 0, faultRidge := 0xFF, faultInstr := 0 })) j
/-- JOB_RESTART: after a failed probe a touched job goes back to a restart point, or ends with PROBE_FAIL, its valid cairn left exportable (R376, R377). -/
def execJobRestart (part : PartNo) (job : W32) (s : State) : Out :=
  match findJob s part job with
  | none => .next s
  | some j =>
    if j.suspects.isEmpty || j.st = .saved || j.st = .waiting || jobLocked s j || s.cmc.fw ≠ .running then .next s
    else
      let s2 := restartCleared s part job j
      match findJob s2 part job, restartPoint s j with
      | none, _ => .next s2
      | some k, .none =>
        let s3 := if (liveHalf k).valid then
            (match findProg s2 part k.prog with
              | some g => updP s2 part (fun t => { t with leftCairns := t.leftCairns ++ [(job, k.prog, g.digest, cairnOrder g (liveHalf k))] })
              | none => s2)
          else s2
        .next (finishJob s3 k [stProbe])
      | some k, .live => .next (startJob (updJob s2 part job (fun _ => k)) k)
      | some k, .cold =>
        let k1 := { setCold k (coldHalf k) with liveIsB := !k.liveIsB }
        let k2 := setCold k1 { coldHalf k1 with valid := false }
        .next (startJob (updJob s2 part job (fun _ => k2)) k2)
      | some k, .zero =>
        let k1 := { k with halfA := .empty, halfB := .empty }
        .next (startJob (updJob s2 part job (fun _ => k1)) k1)

end Sys2Proof.Machine
end

