-- ==== Sys2Proof/Machine/Quiesce.lean ====
section
/-!
DEFINITION. The quiesce engine: Rappels, their scopes, and what BEGIN does to work in scope (R61, R98, R173, R290, R323 to R327). What follows DONE stands in Machine/Layout.lean.
-/

namespace Sys2Proof.Machine

/-! ### Scopes (R324) -/

/-- The partition of a queue; 0xFF for an admin queue. -/
def queuePart (s : State) (q : QId) : Nat := match q with
  | .admin _ => 0xFF
  | .io _ => (getQ s q).part
/-- A queue lies in scope. -/
def inScopeQ (s : State) (k : Rappel) (q : QId) : Bool :=
  match k.scope with
  | 0 => q = .io k.id
  | 1 => queuePart s q = k.id
  | _ => true
/-- A command lies in scope; scrubs never, and a queue's own destruction not (R324). -/
def inScopeCmd (s : State) (k : Rappel) (c : Cmd) : Bool :=
  let op := fieldAt c.entry 0 1
  op ≠ 0x11 && !(op = 0x19 && k.why ≠ .host) && (inScopeQ s k c.q || (k.scope = 1 && isAdmin c.q && c.part = k.id))
def inScopeJob (k : Rappel) (j : Job) : Bool :=
  match k.scope with
  | 0 => j.q = .io k.id
  | 1 => j.part = k.id
  | _ => true
/-- A service rope lies in scope (R290). -/
def inScopeRope (k : Rappel) (q : Rope) : Bool :=
  match k.scope with
  | 0 => q.queue = some (.io k.id)
  | 1 => q.parts.contains k.id
  | _ => true
/-- The scope lies inside another's (R326) (DESIGN CHOICE, notes/assumptions/48). -/
def scopeInside (s : State) (a b : Rappel) : Bool :=
  (b.scope = 2 && a.scope ≠ 2) || (b.scope = 1 && a.scope = 0 && queuePart s (.io a.id) = b.id)

/-! ### Starting one -/

/-- RAPPEL event payload (R325), its fields one after another. -/
def rapPayload (k : Rappel) : List Byte :=
  layFields 32 [(0, 1, k.scope), (1, 2, k.id), (3, 1, k.tag), (4, 1, (match k.port with
    | some .A => 0
    | some .B => 1
    | none => 0xFF)), (5, 4, k.cmds), (9, 4, k.jobs)]
/-- PARTITION of a RAPPEL event. -/
def rapPart (s : State) (k : Rappel) : Nat :=
  match k.scope with
  | 0 => queuePart s (.io k.id)
  | 1 => k.id
  | _ => 0xFF
def findRap (s : State) (key : Nat) : Option Rappel := s.col.rappels.find? (fun k => k.key = key)
def updRap (s : State) (key : Nat) (f : Rappel → Rappel) : State :=
  { s with col := { s.col with rappels := s.col.rappels.map (fun k => if k.key = key then f k else k) } }
/-- The quiesce engine requests BEGIN (R325 step 1). -/
def startRap (s : State) (scope id tag : Nat) (port : Option Port) (fn : Nat) (why : RapWhy) : State :=
  let n := s.col.nextRap
  let k : Rappel := { key := n, scope := scope, id := id, tag := tag, port := port, fn := fn, begun := false, cmds := 0, jobs := 0, why := why }
  enq { s with col := { s.col with rappels := s.col.rappels ++ [k], nextRap := n + 1 } } srcQuiesce (.rapBegin n)

/-! ### BEGIN (R325 steps 2 to 5) -/

/-- The bytes of a submission ring. -/
def ringRead (s : State) (q : Queue) (off n : Nat) : List Byte :=
  if q.sqPool then poolRead s (q.sqBase + off) n else hostRead s q.port (q.sqBase + off) n
/-- The entry at an index of a submission ring. -/
def sqEntry (s : State) (q : Queue) (i : Nat) : List Byte := ringRead s q (64 * i) 64
/-- Ring indexes from the fetch position up to the tail. -/
def unfetchedAux (size : Nat) : Nat → Nat → Nat → List Nat
  | 0, _, _ => []
  | n + 1, i, tail => if i = tail then [] else i :: unfetchedAux size n ((i + 1) % size) tail
/-- DESIGN CHOICE, notes/assumptions/48. -/
def unfetched (q : Queue) : List Nat := unfetchedAux (2 ^ q.sqExp) (2 ^ q.sqExp) q.fetch q.tail
/-- An ABORTED completion for an entry never fetched. -/
def abortEntry (s : State) (id : QId) (b : List Byte) : State :=
  postCqe s (mkCqe id (BitVec.ofNat 16 (fieldAt b 2 2)) stAborted (match id with
    | .admin _ => fieldAt b 4 1
    | .io _ => (getQ s id).part) 0 0 none)
/-- Every queue id that exists. -/
def allQueues (s : State) : List QId :=
  (if s.host.adminA.st = .live then [QId.admin .A] else []) ++ (if s.host.adminB.st = .live then [QId.admin .B] else []) ++
    (s.host.queues.map (fun x => QId.io x.1))
/-- A queue in scope stops fetching, and what lay before its tail is aborted; an admin queue under partition scope goes on, less its entries that name the partition. -/
def quiesceQueue (k : Rappel) (a : State × Nat) (id : QId) : State × Nat :=
  let q := getQ a.1 id
  if inScopeQ a.1 k id then
    let l := (unfetched q).filter (fun i => !q.skip.contains i)
    let s1 := l.foldl (fun s i => abortEntry s id (sqEntry s q i)) a.1
    (updQ s1 id (fun q => { q with fetch := q.tail, stopped := true, skip := [] }), a.2 + l.length)
  else if k.scope = 1 && isAdmin id then
    let l := (unfetched q).filter (fun i => !q.skip.contains i && fieldAt (sqEntry a.1 q i) 4 1 = k.id && fieldAt (sqEntry a.1 q i) 0 1 ≠ 0x11)
    let s1 := l.foldl (fun s i => abortEntry s id (sqEntry s q i)) a.1
    (updQ s1 id (fun q => { q with skip := q.skip ++ l }), a.2 + l.length)
  else a

/-- A load's command lies in scope. -/
def loadInScope (s : State) (k : Rappel) (w : Wset) : Bool :=
  match w.cmd with
  | some (q, cid) => (match findCmd s q cid with
    | some c => inScopeCmd s k c
    | none => false)
  | none => false
/-- A programming operation lies in scope: a load's with its command, any under device scope (R61, R324). -/
def opInScope (s : State) (k : Rappel) (o : ProgOp) : Bool :=
  k.scope = 2 || (o.rank = 4 && (match findWset s o.part o.wset with
    | some w => loadInScope s k w
    | none => false))
/-- Programming stops before the next pulse; a tile with its DIRTY record stays DIRTY (R61). -/
def quiesceEngines (s : State) (k : Rappel) : State :=
  let s1 := { s with progQueue := s.progQueue.filter (fun o => !opInScope s k o) }
  (List.range 48).foldl (fun t r => match (getR t r).engine with
    | some o => if opInScope s k o then updR t r (fun rd => { rd with engine := none }) else t
    | none => t) s1
/-- Surveys in progress in scope are discarded; requests are kept (R98). -/
def quiesceSurveys (s : State) (k : Rappel) : State :=
  (List.range 48).foldl (fun t r =>
    let here : Bool := match k.scope with
      | 0 => false
      | 1 => ownerOf s r = some k.id
      | _ => true
    (((getR t r).tiles.filter (fun x => x.2.survey.isSome)).map (fun x => x.1)).foldl (fun t n =>
      let load : Bool := match (posOfTile (getR s r) n).bind (fun p => wsetOf s r p) with
        | some w => loadInScope s k w
        | none => false
      if here || load then requestSurvey (endSurvey t r n) r n else t) t) s
/-- Weight sets whose load is in scope are INCOMPLETE (R61). -/
def quiesceLoads (s : State) (k : Rappel) : State :=
  (List.range 16).foldl (fun t p => updP t p (fun q => { q with wsets := q.wsets.map (fun w =>
    if w.st = .loading && loadInScope s k w then
      { w with st := .incomplete, cmd := none, calibrating := false, toProgram := [], toSurvey := [] }
    else w) })) s
/-- The converter holds of CALIBRATE commands in scope end. -/
def quiesceCal (s : State) (k : Rappel) : State :=
  (List.range 16).foldl (fun t p => match calibrating s p with
    | some c => if inScopeCmd s k c then
        (bitList (getP s p).ridges).foldl (fun t r => updR t r (fun rd => { rd with calHold := none })) t
      else t
    | none => t) s
/-- Clay writes of commands in scope end (R324). -/
def quiesceClay (s : State) (k : Rappel) : State :=
  { s with clay := { s.clay with writers := s.clay.writers.filter (fun w => match w with
    | .host q cid _ _ _ _ => (match findCmd s q cid with
      | some c => !inScopeCmd s k c
      | none => true)
    | _ => true) } }

/-- A partition whose PART_CREATE has been aborted survives (R324): its initialisation runs to its end (DESIGN CHOICE, notes/assumptions/43). -/
def initSettle (s : State) : State :=
  (List.range 16).foldl (fun s p =>
    if (getP s p).st = .initialising && !s.host.cmds.any (fun c => c.busy && c.part = p && fieldAt c.entry 0 1 = 0x10) then
      updP s p (fun t => { t with st := .active })
    else s) s
/-- The BEGIN grant: fetching stops, jobs in scope end ABORTED, programming, surveys, calibration and Clay writes in scope stop, commands in scope are aborted, ropes in scope abort, and DONE is requested (DESIGN CHOICE, notes/assumptions/48). -/
def quiesceBegin (s : State) (key : Nat) : State :=
  match findRap s key with
  | none => s
  | some k =>
    let (s1, n1) := (allQueues s).foldl (quiesceQueue k) (updRap s key (fun k => { k with begun := true }), 0)
    let s2 := quiesceClay (quiesceCal (quiesceLoads (quiesceSurveys (quiesceEngines s1 k) k) k) k) k
    let js := s2.jobs.filter (inScopeJob k)
    let s3 := js.foldl (fun s j => endJob s j [stAborted]) s2
    let cs := s3.host.cmds.filter (inScopeCmd s1 k)
    let s4 := cs.foldl (fun s c => complete s c stAborted 0) s3
    let s5 := (s4.ropes.filter (fun x => decide (48 ≤ x.1) && ropeUndecided x.2 && inScopeRope k x.2)).foldl (fun s x => ropeKill s x.1 0x02) (initSettle s4)
    enq (updRap s5 key (fun k => { k with cmds := n1 + cs.length + js.length, jobs := js.length })) srcQuiesce (.rapDone key)

/-- A COMMIT falls inside a held scope (R290). -/
def commitHeld (s : State) (e : Nat) : Bool :=
  let q := getRope s e
  s.col.rappels.any (fun k => k.begun && (inScopeRope k q || (k.scope = 0 && (match q.queue with
    | some i => inScopeQ s k i
    | none => false))))
/-- DONE waits for a Rappel in progress whose scope it lies inside, unless the same function wrote that one later (R323, R326) (DESIGN CHOICE, notes/assumptions/48). -/
def doneHeld (s : State) (key : Nat) : Bool :=
  match findRap s key with
  | none => false
  | some a => s.col.rappels.any (fun b => b.key ≠ key && scopeInside s a b && !(a.port.isSome && a.port = b.port && a.fn = b.fn && decide (key < b.key)))

end Sys2Proof.Machine
end

