-- ==== Sys2Proof/Machine/Layout.lean ====
section
/-!
DEFINITION. Partitions coming and going: what a PARTITION_LAYOUT commit does (R247, R285, R314, R330, R392), the scrub between users (R412 to R416), the destruction of queues (R312, R329), TDI errors (R399, R400), the restart of Basecamp (R18, R57), and what follows a Rappel's DONE (R325).
-/

namespace Sys2Proof.Machine

/-! ### Queues -/

/-- Pool pages of a queue are freed. -/
def freePool (s : State) (n : Nat) : State :=
  { s with host := { s.host with poolOwner := s.host.poolOwner.filter (fun x => x.2 ≠ n + 1) } }
/-- A queue is freed (R312). -/
def removeQueue (s : State) (n : Nat) : State := setQ (freePool s n) (.io n) .absent
def queuesOf (s : State) (p : Nat) : List Nat :=
  (s.host.queues.filter (fun x => x.2.st ≠ .absent && x.2.part = p)).map (fun x => x.1)
/-- Every queue of a partition is freed. -/
def removeQueues (s : State) (p : Nat) : State := (queuesOf s p).foldl removeQueue s
/-- A port's host-memory queues of a partition become DETACHED (R328, R330). -/
def detachQueues (s : State) (p : Nat) (port : Port) : State :=
  (queuesOf s p).foldl (fun s n => updQ s (.io n) (fun q =>
    if q.port = port && !(q.sqPool && q.cqPool) then { q with st := .detached } else q)) s

/-- Queues whose rings both lie in the pool move with their partition (R330). -/
def movePool (s : State) (p : Nat) (port : Port) : State :=
  (queuesOf s p).foldl (fun s n => updQ s (.io n) (fun q => if q.sqPool && q.cqPool then { q with port := port } else q)) s

/-! ### Clay pending record -/

/-- Ridges of every partition under a scrub, and of a whole-device scrub's free ridges. -/
def scrubRidges (s : State) : RMask :=
  ((List.range 16).filter (fun p => (getP s p).st = .scrubbing)).foldl (fun m p => m ||| (getP s p).ridges)
    (maskOf 48 (s.cmc.scrubTiles.map (fun x => x.1)) ||| s.cmc.scrubPending)
/-- The SCRUB_PENDING record (R415) names them. -/
def writePending (s : State) : State := queueRec s clsScrub 0 (layFields 64 [(0, 8, (scrubRidges s).toNat)])

/-! ### Layout commits -/

/-- Zero data with valid check words over a partition's ranges, none of its lines cached (R392). -/
def initRanges (s : State) (t : Part) : State :=
  let own (pa : Nat) : Bool := t.ranges.toNat.testBit (pa / gib) && decide (pa / gib < 94)
  { s with mem := { s.mem with
      dram := s.mem.dram.filter (fun x => !own x.1), poison := s.mem.poison.filter (fun x => !own (x.1 * 256)) } }
/-- Lines and translations of a partition go (R240, R254, R412). -/
def dropPart (s : State) (p : Nat) : State :=
  { s with mem := { s.mem with
      lines := s.mem.lines.filter (fun l => l.part ≠ p), tlb := s.mem.tlb.filter (fun t => t.part ≠ p),
      walks := s.mem.walks.filter (fun w => w.part ≠ p) } }
/-- The registers of a partition's VF on both ports return to their reset values (DESIGN CHOICE, notes/assumptions/49). -/
def resetFn (s : State) (p : Nat) : State := updFn (updFn s .A (p + 1) (fun _ => .reset)) .B (p + 1) (fun _ => .reset)
/-- A fresh key of the CSB's TRNG (R394). -/
def newKey (s : State) : W256 × State := (Config.trng s.sec.draws, { s with sec := { s.sec with draws := s.sec.draws + 1 } })
/-- IDE keys of a function on both ports are zeroised (R394). -/
def dropIde (s : State) (f : Nat) : State :=
  { s with sec := { s.sec with ide := s.sec.ide.filter (fun x => x.1 / 4 % 32 ≠ f), insecure := s.sec.insecure.filter (fun x => x.1 % 32 ≠ f) } }
/-- Exports of a partition go and its bit leaves every IMPORT_MASK (R356) (DESIGN CHOICE, notes/assumptions/34). -/
def dropExports (s : State) (p : Nat) : State :=
  { s with links := { s.links with
      exports := s.links.exports.filter (fun x => x.2.part ≠ p)
      peers := s.links.peers.map (fun x => (x.1, { x.2 with importMask := x.2.importMask &&& ~~~ (BitVec.ofNat 16 (2 ^ p)) })) } }

/-- A TDI goes to ERROR: its event, and a Rappel of its partition (R399). -/
def tdiFail (s : State) (p : Nat) : State :=
  let t := getP s p
  if t.tdi = .none || t.tdi = .error then s
  else
    let s1 := updP s p (fun t => { t with tdi := .error })
    let s2 := securityEvent s1 0x01 p (match t.port with
      | .A => 0
      | .B => 1) (p + 1) 0 0
    startRap s2 1 p 0 none 0 .tdi
/-- A change of R400 moves a locked or running TDI to ERROR (PRESUMED, notes/assumptions/23). -/
def tdiError (s : State) (p : Nat) : State := if (getP s p).tdi = .locked || (getP s p).tdi = .run then tdiFail s p else s

/-- A partition's entry of a PARTITION_LAYOUT becomes live (R285). seq: the col_seq of the COMMIT. -/
def layoutLive (s : State) (p : Nat) (t : Part) (seq : Nat) : State :=
  let old := getP s p
  let s0 := { s with sec := { s.sec with layoutSeq := seq } }
  let s1 := if old.st = .free || t.st = .free then setP s0 p t else movePool (updP s0 p (fun o => { o with port := t.port })) p t.port
  if old.st = .free then resetFn (initRanges s1 t) p
  else if t.st = .free then
    let s2 := resetFn (dropExports (dropPart s1 p) p) p
    (bitList old.ridges).foldl (fun s r => updR s r (fun rd => { rd with idleSince := s.now })) s2
  else if old.port ≠ t.port then tdiError (detachQueues s1 p old.port) p
  else tdiError s1 p

/-! ### Scrubs (R412 to R416) -/

/-- Loam, slots, tables, buffers and counters of a ridge zeroed; tiles, maps, tests and faults stay (R412 step 3). -/
def zeroRidge (rd : RidgeSt) : RidgeSt :=
  { RidgeSt.reset with tiles := rd.tiles, map := rd.map, test := rd.test, failed := rd.failed, degraded := rd.degraded,
                       idleSince := rd.idleSince, nextId := rd.nextId, calHold := rd.calHold }
/-- Programming for a partition ends, its surveys too. -/
def stopEngines (s : State) (ridges : RMask) : State :=
  let s1 := { s with progQueue := s.progQueue.filter (fun o => !ridges.toNat.testBit o.ridge) }
  (bitList ridges).foldl (fun s r => updR s r (fun rd => { rd with
    engine := none, refreshQ := [], tiles := rd.tiles.map (fun x => (x.1, { x.2 with survey := none, surveyReq := false })) })) s1
def ridgeTiles (r : Nat) : List (Nat × Nat × Nat) := (List.range 34).map (fun t => (r, t, 0))
/-- Quarters that PFLAGS grant. -/
def quartersOf (t : Part) : List Nat := (if t.pflags.toNat.testBit 2 then [2] else []) ++ (if t.pflags.toNat.testBit 3 then [3] else [])

/-- Steps 2 to 5 of a partition's scrub begin: keys go, memory is zero-filled, ridges zeroed, lines dropped, trains and Clay zeroing queued. -/
def scrubBegin (s : State) (p : Nat) : State :=
  let t := getP s p
  if t.st ≠ .scrubbing then s
  else
    let s1 := writePending (removeQueues s p)
    let s2 := dropPart (initRanges (dropIde s1 (p + 1)) t) p
    let s3 := stopEngines s2 t.ridges
    let s4 := (bitList t.ridges).foldl (fun s r => updR s r zeroRidge) s3
    let s5 := updP s4 p (fun t => { t with
      key := none, wsets := [], progs := [], summaries := [], summaryDropped := false, leftCairns := [], scrubTiles := (bitList t.ridges).flatMap ridgeTiles,
      scrubClay := quartersOf t })
    { s5 with clay := { s5.clay with writers := s5.clay.writers ++ (quartersOf t).map (fun q => .zero q 0 0) } }
/-- PART_DESTROY or STOP_INTERFACE begins: the layout entry shows SCRUBBING and a Rappel of the partition runs (R412 step 1). -/
def scrubStart (s : State) (p : Nat) (stop : Bool) (cmd : Option (QId × W16)) : State :=
  startRap (updP s p (fun t => { t with st := .scrubbing, stopping := stop, scrubCmd := cmd, tdiSession := none, tdiNonce := none })) 1 p 0 none 0 (.scrub p)

/-- The whole-device scrub is over when no partition and no free ridge is left in it (R416). -/
def wholeSettle (s : State) : State :=
  match s.cmc.wholeScrub with
  | none => s
  | some (q, cid) =>
    if (List.range 16).any (fun p => (getP s p).st ≠ .free) || !s.cmc.scrubTiles.isEmpty || s.clay.writers.any (fun w => match w with
        | .zero _ _ _ => true
        | _ => false) then s
    else pinSync (completeAt { s with cmc := { s.cmc with wholeScrub := none, busyReset := false } } q cid stSuccess 0)
/-- The free ridges of a whole-device scrub, or those a SCRUB_PENDING record held back, are done when their trains are. -/
def ridgesSettle (s : State) : State :=
  if s.cmc.scrubTiles.isEmpty && s.cmc.scrubPending ≠ 0 then writePending { s with cmc := { s.cmc with scrubPending := 0 } } else s

/-- A partition's scrub whose trains and zeroing are over goes on: to the layout rope that frees it (R412 step 7), or back to CONFIG_UNLOCKED with a new key (R399). -/
def scrubSettle (s : State) (p : Nat) : State :=
  let t := getP s p
  if t.st ≠ .scrubbing || t.key.isSome || !t.scrubTiles.isEmpty || !t.scrubClay.isEmpty then s
  else if t.stopping then
    let (k, s1) := newKey s
    writePending (updP (initRanges s1 t) p (fun t => { t with st := .active, stopping := false, key := some k, tdi := .unlocked }))
  else if claimed s (9, p, 0) || (freeService s).isNone then s
  else serviceRope s [p] 0 (.destroy p) [.layout p .free]

/-- BULK_RESET_TRAIN: one train and its verify on a tile of a scrub (R413). -/
def execBulkResetTrain (r : Ridge) (t : TileNo) (residue : Bool) (s : State) : Out :=
  match bulkReset s r t residue with
  | none => .next s
  | some (s1, some p) => .next (scrubSettle s1 p)
  | some (s1, none) => .next (wholeSettle (ridgesSettle s1))

/-- A partition is gone: SCRUB_DONE and the completion (R412 step 7). -/
def scrubDone (s : State) (p : Nat) (port : Port) (cmd : Option (QId × W16)) : State :=
  let s1 := securityEvent (writePending s) 0x09 0xFF (match port with
    | .A => 0
    | .B => 1) (p + 1) 0 0
  wholeSettle (match cmd with
    | some (q, cid) => completeAt s1 q cid stSuccess 0
    | none => s1)

/-! ### The restart of Basecamp (R18) -/

/-- CLEAN tiles whose weight set no longer exists become ORPHAN (R57). -/
def orphanTiles (s : State) : State :=
  (List.range 48).foldl (fun s r =>
    (((getR s r).tiles.filter (fun x => x.2.jr.state = .clean)).map (fun x => x.1)).foldl (fun s t =>
      let held : Bool := match posOfTile (getR s r) t with
        | some p => holdsPos s r t p
        | none => (ownerOf s r).any (fun q => (getP s q).wsets.any (fun w => w.golden.any (fun g => g.ridge = r && g.digest = (getTile s r t).jr.digest)))
      if held then s else setJournal s r t (fun j => { j with state := .orphan })) s) s

/-- Step 4 of R18: Basecamp alone is reset. Partitions, I/O queues, programs and weight sets' bindings go; scrubs stay to be started again (R415); tiles, maps and the Clay store are untouched (DESIGN CHOICE, notes/assumptions/49). -/
def basecampReset (s : State) : State :=
  let s1 := (List.range 16).foldl (fun s p =>
    let t := getP s p
    if t.st = .free then s
    else if t.st = .scrubbing then removeQueues (updP s p (fun t => { t with wsets := [], progs := [], stopping := false })) p
    else dropExports (dropPart (setP (removeQueues s p) p .free) p) p) s
  let s2 := (List.range 48).foldl (fun s r => updR s r (fun rd0 =>
    let rd := leaveRidge rd0
    { rd with svcCtx := .reset, win := [], tables := none, engine := none, refreshQ := [], calHold := none })) s1
  { s2 with
    jobs := [], progQueue := [], ropes := s2.ropes.filter (fun x => !ropeUndecided x.2)
    thermal := { s2.thermal with modelOn := false }
    cmc := { s2.cmc with resetAt := some s.now, watchdog := false, restarts := min 255 (s2.cmc.restarts + 1) } }

/-! ### DONE (R325 step 6) -/

/-- HB_RAPPEL_STATUS after a DONE. -/
def rapStatusDone (s : State) (k : Rappel) : State :=
  match k.port with
  | none => s
  | some p => updFn s p k.fn (fun f => { f with
      rapDone := BitVec.ofNat 8 k.tag, rapState := if f.rapState = 3 then 3 else if f.rapLast.toNat = k.tag then 2 else 1 })
/-- Queues that no other Rappel in progress covers fetch again (R326). -/
def resumeQueues (s : State) : State :=
  (allQueues s).foldl (fun s q =>
    if s.col.rappels.any (fun k => k.begun && inScopeQ s k q) then s else updQ s q (fun q => { q with stopped := false })) s
/-- What the owner of a Rappel does next. -/
def rapAfter (s : State) (w : RapWhy) : State :=
  match w with
  | .stall => basecampReset s
  | .scrub p => scrubBegin s p
  | .queueGone n =>
    let s1 := removeQueue s n
    (match s1.host.cmds.find? (fun c => c.busy && fieldAt c.entry 0 1 = 0x19 && fieldAt c.entry 0x18 2 = n) with
      | some c => complete s1 c stSuccess 0
      | none => s1)
  | .flr p => removeQueues s p
  | _ => s
/-- The DONE grant. -/
def quiesceDone (s : State) (key : Nat) : State :=
  match findRap s key with
  | none => s
  | some k =>
    let s1 := { s with col := { s.col with rappels := s.col.rappels.filter (fun r => r.key ≠ key) } }
    let s2 := rapAfter (resumeQueues (rapStatusDone s1 k)) k.why
    pinSync ((List.range 16).foldl scrubSettle s2)

end Sys2Proof.Machine
end

