-- ==== Sys2Proof/Machine/Ropes.lean ====
section
/-!
DEFINITION. The COMMIT of a rope and its timers (R156, R284 to R291): every staged action becomes live in the grant, and what follows a commit.
-/

namespace Sys2Proof.Machine

/-- A drain or spill whose staged bytes are copied out: they are written, the counts enter the report, the slot is free and the instruction completes (R166, R287 step 5). -/
def commitWrite (s : State) (r k win : Nat) : State :=
  match findWin s r win with
  | none => s
  | some w => match w.staged with
    | none => s
    | some g =>
      let (s1, bad) := writeStaged s r g
      let s2 := freeSlot (addCounts s1 r w.ctx g) r k
      if bad then execFault s2 r w 0x11 else retire s2 r win

/-- A field test that waits for this job's next cairn may begin (R381). -/
def testAtCairn (s : State) (p : Nat) (id : W32) : State :=
  (List.range 48).foldl (fun s r =>
    if (getR s r).job = some (p, id) && (getR s r).test.deferred then updR s r (fun rd => { rd with test := { rd.test with atCairn := true } }) else s) s
/-- The image of a QSPI slot (R409), and the identifier that SECURITY events give an image: the low four bytes of its digest. -/
def slotImage (s : State) (b : Bool) : Option FwImage := if b then s.sec.slotB else s.sec.slotA
/-- DESIGN CHOICE, notes/assumptions/39. -/
def imageId (i : Option FwImage) : Nat := match i with
  | some i => i.digest.toNat % 2 ^ 32
  | none => 0
/-- One action at the grant (R285). -/
def commitAction (seq : Nat) (s : State) (a : Action) : State :=
  match a with
  | .tileMap r p phys f =>
    let old := physOf (getR s r) p
    let was := fencedAt (getR s r) p
    let s1 := setMap s r p phys f
    if old = phys then commitMaps s1 r else swapDone s1 r p phys old was
  | .rescaleHalf r t => updR s r (fun rd => { rd with rsc := tset 0 rd.rsc t (rscDesc rd t ^^^ BitVec.ofNat 64 (2 ^ 31)) })
  | .belayMap r t m => commitMaps (updTile s r t (fun x => { x with belay := m })) r
  | .drain r k w => commitWrite s r k w
  | .spill r k w => commitWrite s r k w
  | .signal _ _ _ => s
  | .cairnCommit p j => testAtCairn (updJob s p j cairnValid) p j
  | .fwCommit =>
    let s1 := { s with sec := { s.sec with selB := !s.sec.selB, staged := none } }
    securityEvent (queueRec s1 clsSlot 0 (layFields 64 [(0, 1, if s1.sec.selB then 1 else 0)])) 0x07 0xFF 0 0 0 (imageId (slotImage s1 s1.sec.selB))
  | .layout p t => layoutLive s p t seq
/-- SIGNAL actions follow the copy-out (R287 step 5). -/
def commitSignal (q : Rope) (s : State) (a : Action) : State :=
  match a with
  | .signal r c v => addCounter s (q.parts.headD 0xFF) q.job r c v
  | _ => s

/-- The rope's context goes on: no rope is open, and the attempts start again (R212). -/
def leaveRope (s : State) (e : Nat) : State :=
  (List.range 48).foldl (fun s r =>
    let go (s : State) (x : Ctx) : State := match (ctxOf (getR s r) x).rope with
      | some o => if o.entry = e then settleCtx (updCtx s r x (fun c => { c with rope := none, attempts := 0 })) r x else s
      | none => s
    go (go s .job) .service) s

/-- What the owner of a service rope does once it is committed. -/
def commitAfter (s : State) (q : Rope) : State :=
  match q.why with
  | .bind c cid _ => completeAt (attnBoth s 3) c cid stSuccess 0
  | .firmware c cid => completeAt s c cid stSuccess 0
  | _ => s

/-- COMMIT (R287 steps 4 and 5): every action live, claims released, the entry free. -/
def ropeCommit (s : State) (e seq : Nat) : State :=
  let q := getRope s e
  let s1 := setRope s e { q with st := .committed }
  let s2 := q.actions.foldl (commitAction seq) s1
  let s3 := q.actions.foldl (commitSignal q) s2
  let s4 := leaveRope s3 e
  let s5 := match q.why with
    | .destroy p => scrubDone s4 p (getP s p).port (getP s p).scrubCmd
    | _ => commitAfter s4 q
  setRope s5 e .free

/-- ROPE_TIMEOUT: a rope not yet locked whose timer, in units of 1,024 ridge cycles, has run out (R212, R284, R289). -/
def execRopeTimeout (e : RopeNo) (s : State) : Out :=
  let q := getRope s e
  if (q.st = .opened || q.st = .staged) && decide (q.opened + q.timeout * 8192 ≤ s.rclk) then .next (ropeAbort s e 0x04 0 0) else .next s

/-- PIN_HOLD_TIMEOUT: a staged rope held 400 µs by a pinned slot (R156, R289). -/
def execPinHoldTimeout (e : RopeNo) (s : State) : Out :=
  let q := getRope s e
  if q.st = .staged && ropeHeld s q.actions && decide (q.stagedAt + pinHoldCycles ≤ s.now) then .next (ropeAbort s e 0x06 0 0) else .next s

end Sys2Proof.Machine
end

