-- ==== Sys2Proof/Machine/Rings.lean ====
section
/-!
DEFINITION. What the Col's ring writer does (R278 to R281, R308, R320, R322): event records into event rings, completion entries and job reports into completion rings.
-/

namespace Sys2Proof.Machine

/-- LCLK_ID of a source (R278). -/
def lclkId (src : Nat) : Nat :=
  if src < 48 then 0 else if src < 63 then 1 else if src < 71 then 6 else if src < 73 then 7 else if src < 81 then 4
  else if src = 81 then 5 else if src = 84 || src = 85 || src = 86 then 1 else 3
/-- An event record (R278). LCLK is the source's own clock, a free value, and LCLK_VALID says whether it can be read (R281) (DESIGN CHOICE, notes/assumptions/9). -/
def evRecord (s : State) (e : Ev) (seq : Nat) : List Byte :=
  let valid := Config.lclkValid s.free
  let restart := tget false s.col.restarted e.source
  layFields 32 [(0, 8, seq), (8, 1, e.ty), (9, 1, e.cause), (0x0A, 1, e.source), (0x0B, 1, e.part),
    (0x0C, 2, (if valid then 1 else 0) + (if e.coalesced then 2 else 0) + (if restart then 4 else 0)), (0x0E, 1, lclkId e.source),
    (0x10, 8, if valid then (Config.lclk s.free).toNat else 0), (0x18, 4, e.count)] ++ bytesAt e.payload 0 32

/-- A record cannot be written: it is counted, and PF0's attention is posted (R322). -/
def dropRecord (s : State) (p : Port) (f : Nat) : State :=
  let s1 := updFn s p f (fun r => { r with evtDrop := r.evtDrop + 1 })
  if f = 0 then setAttn s1 p 4 else s1
/-- Writes a record to a function's ring (R320): nothing for a masked type or a ring that is not enabled; a full ring or a down port drops it (R322) (DESIGN CHOICE, notes/assumptions/49). -/
def ringWrite (s : State) (p : Port) (f ty : Nat) (b : List Byte) : State :=
  let r := getFn s p f
  if !bitAt r.evtMask ty then s
  else if !(getPort s p).tunnel then dropRecord s p f
  else if !bitAt r.ctrl 0 then s
  else
    let size := 2 ^ bits r.evtCfg 4 0
    if (r.evtTail.toNat + 1) % size = r.evtHead.toNat % size then dropRecord s p f
    else
      let s1 := hostWrite s p (r.evtBase.toNat + 64 * (r.evtTail.toNat % size)) b
      let s2 := updFn s1 p f (fun r => { r with evtTail := BitVec.ofNat 32 ((r.evtTail.toNat + 1) % size) })
      sendMsix s2 p f (bits r.evtCfg 21 16)
/-- The rings an event goes to (R320). -/
def routeEvent (s : State) (e : Ev) (b : List Byte) : State :=
  if e.part < 16 then
    let t := getP s e.part
    if t.st = .free then s
    else
      let s1 := ringWrite s t.port (e.part + 1) e.ty b
      if bitAt (getFn s t.port 0).pmask e.part && !confidential t then ringWrite s1 t.port 0 e.ty b else s1
  else
    let go (s : State) (p : Port) : State := if (getPort s p).tunnel then ringWrite s p 0 e.ty b else s
    go (go s .A) .B

/-! ### The failure log's intake (R385) -/

/-- SEVERITY of an event that the log keeps (R385, R437, R439): 0 corrected, 1 recoverable, 2 fatal, 3 informational. -/
def logSeverity (e : Ev) : Option Nat :=
  let cls := fieldAt e.payload 4 2
  match e.ty, e.cause with
  | 0x04, 0x08 => some 0
  | 0x04, 0x09 => none
  | 0x04, _ => some 1
  | 0x05, 0x01 => some 1
  | 0x06, 0x01 => some 3
  | 0x06, 0x02 => some 1
  | 0x06, 0x04 => some 1
  | 0x06, 0x05 => some 1
  | 0x06, 0x08 => some 1
  | 0x06, 0x0B => some 1
  | 0x07, 0x01 => some 1
  | 0x07, 0x06 => some 1
  | 0x07, 0x08 => some 1
  | 0x07, 0x09 => some 1
  | 0x09, 0x02 => some 1
  | 0x09, 0x05 => some 1
  | 0x0E, 0x03 => some 3
  | 0x0E, 0x04 => some 1
  | 0x0F, 0x02 => some 0
  | 0x0F, 0x03 => if cls = 8 || cls = 9 || cls = 10 || cls = clsGuard then some 2 else some 1
  | 0x0F, 0x05 => some 3
  | 0x0F, 0x07 => some 3
  | 0x0F, 0x08 => some 3
  | 0x0F, _ => some 1
  | 0x11, _ => some 2
  | _, _ => none
/-- VCORE in mV at a point (R449). -/
def vcoreMv (k : Nat) : Nat := max 600 (Config.vop0Mv - 30 * k)
/-- Ridge, tile, position, column and stress that an event's payload names (R361, R367, R384, R388, R477). -/
def evPlace (e : Ev) : Nat × Nat × Nat × Nat × Nat :=
  let b (i : Nat) : Nat := fieldAt e.payload i 1
  match e.ty with
  | 0x04 => (if b 0 = 0 || b 0 = 3 || b 0 = 7 || b 0 = 8 then b 1 else 0xFF, 0xFF, b 2, 0xFFFF, 0)
  | 0x05 => (b 0, b 2, b 1, fieldAt e.payload 6 2, 0)
  | 0x06 => (b 0, b 1, b 2, 0xFFFF, 0)
  | 0x07 => (if e.cause = 1 || e.cause = 8 then b 0 else 0xFF, 0xFF, 0xFF, 0xFFFF, 0)
  | 0x0E => (b 0, 0xFF, 0xFF, 0xFFFF, b 3)
  | 0x11 => (if e.cause = 2 then b 0 else 0xFF, 0xFF, 0xFF, 0xFFFF, 0)
  | _ => (0xFF, 0xFF, 0xFF, 0xFFFF, 0)
/-- Ready relief tiles of a ridge (R104). -/
def reliefReady (s : State) (r : Nat) : Nat :=
  ((List.range 34).filter (fun t => isRelief (getR s r) t && readyCopy s r t (getTile s r t).jr.position)).length
/-- The vendor section of a CPER record (R388) (PRESUMED, notes/assumptions/54). -/
def cperSection (s : State) (e : Ev) (first last : Nat) : List Byte :=
  let (r, t, p, col, stress) := evPlace e
  let hide := decide (e.part < 16) && confidential (getP s e.part)
  let onR := decide (r < 48)
  let onT := onR && decide (t < 34)
  overlay (layFields 96 ([(0x00, 4, 0x53465648), (0x04, 2, 0x0100), (0x06, 1, e.ty), (0x07, 1, e.cause), (0x08, 1, e.source), (0x09, 1, e.part), (0x0C, 4, e.count),
      (0x10, 8, first), (0x18, 8, last), (0x20, 4, s.links.boot.toNat), (0x24, 1, r), (0x25, 1, t), (0x26, 1, p), (0x27, 1, stress), (0x28, 2, col)] ++
    [(0x2A, 2, if onR then ofSigned 16 (estUsed s r) else 0), (0x2C, 4, if onT then (getTile s r t).jr.count else 0), (0x30, 2, vcoreMv s.pmu.op),
      (0x32, 1, if onT then belaysFree (getTile s r t) else 0xFF), (0x33, 1, if onR then reliefReady s r else 0xFF),
      (0x38, 8, if e.ty = 0x04 && !hide then fieldAt e.payload 8 8 else 0)]))
    0x40 (if hide then zeros 32 else bytesAt e.payload 0 32)
/-- A logged event waits for the Clay controller, at most 32 of them. -/
def logIntake (s : State) (e : Ev) (seq first severity : Nat) : State :=
  if 32 ≤ s.integ.waitingLog.length then s
  else
    let n := s.integ.nextLog
    { s with integ := { s.integ with nextLog := n + 1, waitingLog := s.integ.waitingLog ++
        [{ seq := n, severity := severity, ev := e, colFirst := first, colLast := seq, boot := s.links.boot, sect := cperSection s e first seq, bad := false }] } }

/-! ### Completion entries (R308) -/

/-- A completion entry's 32 bytes. -/
def cqeBytes (c : Cqe) (phase : Bool) : List Byte :=
  layFields 32 [(0, 2, c.cid.toNat), (2, 2, sqId c.q), (4, 2, c.sqHead), (6, 1, c.status), (7, 1, (if phase then 1 else 0) + (if c.report.isSome then 2 else 0)),
    (8, 8, c.result.toNat), (0x10, 8, c.colSeq), (0x18, 8, c.result2.toNat)]
/-- The pair's completion ring takes an entry now: a live pair with room, and its host reachable where host memory is written. -/
def cqReady (s : State) (q : Queue) (c : Cqe) : Bool :=
  q.st = .live && (q.cqTail + 1) % 2 ^ q.cqExp ≠ q.cqHead && ((q.cqPool && c.report.isNone) || (getPort s q.port).tunnel)
/-- Writes one entry, its report first and its message after it. -/
def cqWrite (s : State) (c : Cqe) : State :=
  let q := getQ s c.q
  let s1 := match c.report with
    | some (a, b) => hostWrite s q.port a b
    | none => s
  let b := cqeBytes { c with sqHead := q.fetch } q.phase
  let s2 := if q.cqPool then poolWrite s1 (q.cqBase + 32 * q.cqTail) b else hostWrite s1 q.port (q.cqBase + 32 * q.cqTail) b
  let n := (q.cqTail + 1) % 2 ^ q.cqExp
  let s3 := updQ s2 c.q (fun q => { q with cqTail := n, phase := if n = 0 then !q.phase else q.phase })
  if (getPort s q.port).tunnel then sendMsix s3 q.port (match c.q with
    | .admin _ => 0
    | .io _ => q.part + 1) q.vec
  else s3
/-- A granted completion: written, or held behind others for a full or detached ring (R308, R328). One of a pair that is gone is discarded. -/
def cqPost (s : State) (c : Cqe) : State :=
  let q := getQ s c.q
  if q.st = .absent then s
  else if q.held.isEmpty && cqReady s q c then cqWrite s c
  else updQ s c.q (fun q => { q with held := q.held ++ [c] })
/-- Held entries go as far as the ring has room. -/
def cqFlushAux : Nat → State → QId → State
  | 0, s, _ => s
  | n + 1, s, i =>
    let q := getQ s i
    match q.held with
    | [] => s
    | c :: t => if cqReady s q c then cqFlushAux n (cqWrite (updQ s i (fun q => { q with held := t })) c) i else s
def cqFlush (s : State) (i : QId) : State := cqFlushAux ((getQ s i).held.length) s i

end Sys2Proof.Machine
end

