-- ==== Sys2Proof/Machine/Col.lean ====
section
/-!
DEFINITION. The Col (R275 to R283, R290), the windows (R282), the arbiters (R267 to R273), and the count timeout of slots (R161).
-/

namespace Sys2Proof.Machine

/-! ### Windows -/

def winOf (s : State) (k : Nat) : Window :=
  match k with
  | 0 => s.col.win0
  | 1 => s.col.win1
  | 2 => s.col.win2
  | _ => s.col.win3
def setWin (s : State) (k : Nat) (w : Window) : State :=
  match k with
  | 0 => { s with col := { s.col with win0 := w } }
  | 1 => { s with col := { s.col with win1 := w } }
  | 2 => { s with col := { s.col with win2 := w } }
  | _ => { s with col := { s.col with win3 := w } }

/-- WINDOW_MARKER: the generator requests a kind's marker when it is due, the lower kind first (R282). A changed length applies from this marker on. -/
def execWindowMarker (kind : Fin 4) (s : State) : Out :=
  let w := winOf s kind
  let first := (List.range 4).all (fun k => decide (w.due < (winOf s k).due) || ((winOf s k).due = w.due && decide (kind.val ≤ k)))
  if w.due ≤ s.now && first then
    .next (enq (setWin s kind { w with exp := w.next, due := w.due + 2 ^ w.next }) srcWindow (.marker kind w.exp))
  else .next s

/-- A subject at its kind's marker (R283): a held count is requested now; a subject without occurrences goes. -/
def coalMarker (kind : Nat) (s : State) (x : Nat × Coal) : State :=
  let c := x.2
  if c.kind ≠ kind || c.queued then s
  else if c.held = 0 then { s with col := { s.col with coal := terase s.col.coal x.1 } }
  else enq (setCoal s x.1 { c with queued := true, count := c.held, held := 0, sum := c.heldSum, heldSum := 0 }) c.ev.source (.coalesced x.1)
/-- Estimates as a confidential device reports them: rounded to 2 degrees (R121). -/
def round2 (e : Int) : Int := qRound (qMk e 16) * 16
/-- An episode's failure record at the first ERROR_RATE marker after it begins (R355) (DESIGN CHOICE, notes/assumptions/30). -/
def logEpisodes (s : State) (seq : Nat) : State :=
  let s1 := (s.links.episodes.filter (fun e => !e.logged)).foldl (fun s e =>
    logIntake s { mkEv 0x0A e.cause (srcLink 0) 0xFF (layFields 32 [(0, 2, e.subject)]) with coalesced := true, count := e.count } seq seq 1) s
  { s1 with links := { s1.links with episodes := (s1.links.episodes.filter (fun e => !e.ended)).map (fun e => { e with logged := true }) } }
/-- What the close of a window does (R121, R272, R282, R283, R352, R355, R360, R402). -/
def windowClosed (s : State) (kind seq : Nat) : State :=
  let w := winOf s kind
  let s1 := setWin s kind { w with num := w.num + 1 }
  let live := s1.col.coal.map (fun x => x.1)
  let s2 := s1.col.coal.foldl (coalMarker kind) s1
  match kind with
  | 0 =>
    let s3 := { s2 with
      integ := { s2.integ with corrected := [], raised := [], failedPos := [] }
      links := { s2.links with ports := s2.links.ports.map (fun x => (x.1, { x.2 with replayed := 0 })) } }
    logEpisodes s3 seq
  | 2 => { s2 with links := { s2.links with coal := s2.links.coal.filter (fun c => live.contains c.coal) } }
  | 3 => { s2 with
      pmu := { s2.pmu with confMw := meanMw s2.pmu.frames }
      thermal := { s2.thermal with confEst := s2.thermal.est.map (fun x => (x.1, round2 x.2)), confAt := s2.now } }
  | _ => s2

/-! ### A grant -/

/-- The payload of a coalesced report at its grant. -/
def coalPayload (s : State) (k : Nat) (c : Coal) : List Byte :=
  let b := bytesAt c.ev.payload 0 32
  match c.ev.ty with
  | 0x06 => overlay (overlay b 4 (leBytes 4 c.sum)) 8 (leBytes 4 c.count)
  | 0x07 => if c.ev.cause = 0x0B then overlay b 4 (leBytes 4 c.sum) else b
  | 0x09 => overlay b 16 (leBytes 4 (tget LinkSt.reset s.links.ports (fieldAt b 0 1)).dropped)
  | 0x0B => overlay b 4 (leBytes 4 c.count)
  | 0x0A => match s.links.coal.find? (fun x => x.coal = k) with
    | some p =>
      layFields 32 [(0, 2, p.subject), (2, 1, if p.localSeen then 1 else 0), (3, 1, p.ports.toNat), (4, 2, p.firstReporter),
        (8, 4, s.links.coalDropped), (0x0C, 4, s.links.rateDropped), (0x10, 4, p.boot.toNat)]
    | none => b
  | _ => b

/-- Writes the record of an event at a col_seq: rings and failure log. -/
def grantEvent (s : State) (e : Ev) (seq : Nat) : State :=
  let b := evRecord s e seq
  let s1 := routeEvent { useFree s with col := { s.col with restarted := tset false s.col.restarted e.source false } } e b
  match logSeverity e with
  | some v => logIntake s1 e seq seq v
  | none => s1

/-- A rope whose COMMIT falls in a held scope ends here (R290). -/
def ropeHeldAbort (s : State) (e : Nat) : State :=
  let q := getRope s e
  let s1 := setRope s e .free
  if e < 48 then ropeUnwind s1 e .job e false false
  else
    let s2 := (List.range 48).foldl (fun s r => match (getR s r).svcCtx.rope with
      | some o => if o.entry = e then ropeUnwind s r .service e false false else s
      | none => if (getR s r).win.any (fun w => w.rope = some e) then ropeUnwind s r .service e false false else s) s1
    ropeWhyFailed s2 q.why

/-- A ROPE event granted frees its entry (R284). -/
def freeGranted (s : State) (e : Ev) : State :=
  let k := fieldAt e.payload 0 1
  if e.ty = 0x0C && (getRope s k).st = .aborted then setRope s k .free else s

/-- The rope's own COMMIT event is routed by the layout that the rope makes live: a partition that comes to be or moves to another port (DESIGN CHOICE, notes/assumptions/26). -/
def commitFirst (q : Rope) : Bool :=
  match q.why with
  | .create _ _ _ => true
  | .bind _ _ _ => true
  | _ => false

/-- What one granted request does (R276 item 5, R283, R287, R290, R308, R325) (DESIGN CHOICE, notes/assumptions/26). -/
def grantReq (s : State) (q : Req) (seq : Nat) : State :=
  match q with
  | .event e => freeGranted (grantEvent s e seq) e
  | .coalesced k =>
    (match tfind s.col.coal k with
    | none => s
    | some c =>
      let s1 := grantEvent s { c.ev with count := c.count, payload := coalPayload s k c } seq
      let s2 := setCoal s1 k { c with queued := false }
      if c.ev.ty = 0x0A then
        { s2 with links := { s2.links with coalDropped := 0, rateDropped := 0, coal := s2.links.coal.map (fun x =>
            if x.coal = k then { x with localSeen := false, ports := 0 } else x) } }
      else if c.ev.ty = 0x09 then
        { s2 with links := { s2.links with ports := tupd LinkSt.reset s2.links.ports (fieldAt c.ev.payload 0 1) (fun l => { l with dropped := 0 }) } }
      else if c.ev.ty = 0x06 && c.ev.cause = 0x05 then answerClip s2 (fieldAt c.ev.payload 0 1) (fieldAt c.ev.payload 1 1)
      else s2)
  | .marker kind exp =>
    let s1 := grantEvent s (mkEv 0x10 0 srcWindow 0xFF (layFields 32 [(0, 1, kind), (1, 1, exp), (8, 8, (winOf s kind).num)])) seq
    windowClosed s1 kind seq
  | .commit e =>
    let r := getRope s e
    if r.st = .locked && !commitHeld s e then
      let ev := mkEv 0x0C 0 srcRope (ropePart r) (ropePayload e r)
      -- the grant cycle makes the new layout live, so its rings are the ones the event is routed by (R287, R320)
      if commitFirst r then grantEvent (ropeCommit s e seq) ev seq else ropeCommit (grantEvent s ev seq) e seq
    else if r.st = .free then s
    else ropeHeldAbort (grantEvent s (mkEv 0x0C 0x02 srcRope (ropePart r) (ropePayload e r)) seq) e
  | .completion c =>
    let e := mkEv 0x01 0 (srcCore s) c.part ((List.range 32).map (fun i => Config.cplPayload s.free i))
    cqPost (grantEvent s e seq) { c with colSeq := seq }
  | .rapBegin k =>
    (match findRap s k with
    | some r => quiesceBegin (grantEvent s (mkEv 0x12 0x01 srcQuiesce (rapPart s r) (rapPayload { r with cmds := 0, jobs := 0 })) seq) k
    | none => s)
  | .rapDone k =>
    (match findRap s k with
    | some r => quiesceDone (grantEvent s (mkEv 0x12 0x02 srcQuiesce (rapPart s r) (rapPayload r)) seq) k
    | none => s)

/-- DONE requests that must wait go behind the others of the quiesce engine (R326). -/
def rotateDone : Nat → State → List Req → List Req
  | 0, _, l => l
  | n + 1, s, l => match l with
    | .rapDone k :: t => if doneHeld s k then rotateDone n s (t ++ [.rapDone k]) else l
    | _ => l
/-- The queue a source presents. -/
def presented (s : State) (k : Nat) : List Req :=
  if k = srcQuiesce then rotateDone (srcQueue s k).length s (srcQueue s k) else srcQueue s k
/-- The next source with a request, in rotating order after the last one granted (R276). -/
def nextSource (s : State) : Option Nat :=
  ((List.range 88).map (fun i => (s.col.last + 1 + i) % 88)).find? (fun k => !(srcQueue s k).isEmpty)
def nextReq (s : State) : Option (Nat × Req) :=
  match nextSource s with
  | some k => ((presented s k).head?).map (fun q => (k, q))
  | none => none

/-! ### Arbiters -/

def arbKey (cls inst : Nat) : Nat := cls * 64 + inst
def arbOf (s : State) (cls inst : Nat) : Arb := tget .reset s.arbs (arbKey cls inst)
def setArb (s : State) (cls inst : Nat) (a : Arb) : State := { s with arbs := tset .reset s.arbs (arbKey cls inst) a }
/-- Requesters and instances of a class (R267). -/
def arbReqs (cls : Nat) : Nat :=
  match cls with
  | 0 => 62
  | 1 => 64
  | 2 => 58
  | 3 => 54
  | _ => 88
def arbInsts (cls : Nat) : Nat :=
  match cls with
  | 0 => 64
  | 1 => 12
  | 2 => 8
  | 3 => 48
  | _ => 1
/-- A weight: what was set, else 1, the page walker's 4 (R271). -/
def weightOf (t : Tbl Nat) (cls i : Nat) : Nat :=
  match tfind t i with
  | some w => w - 1
  | none => if cls = 0 && i = 52 then 4 else 1
/-- The Col source of an arbiter's STARVE event (DESIGN CHOICE, notes/assumptions/58). -/
def starveSrc (cls inst : Nat) : Nat :=
  match cls with
  | 0 => srcMoraine (inst / 16)
  | 1 => srcDram (inst / 2)
  | 2 => srcLink inst
  | 3 => inst
  | _ => srcWindow
/-- Reports about this requester are withheld: a ridge of a confidential partition (R402). -/
def starveHidden (s : State) (cls i : Nat) : Bool :=
  (cls = 0 || cls = 2 || cls = 3 || cls = 4) && decide (i < 48) && (match ownerOf s i with
    | some p => confidential (getP s p)
    | none => false)
/-- A requester's limit is reached (R272) (DESIGN CHOICE, notes/assumptions/58). -/
def starve (s : State) (cls inst i w : Nat) : State :=
  let a := arbOf s cls inst
  let s1 := setArb s cls inst { a with flags := tset false a.flags i true }
  if starveHidden s cls i then s1
  else raiseCoal s1 1 3 0 (mkEv 0x0B 0 (starveSrc cls inst) 0xFF (layFields 32 [(0, 1, cls), (1, 1, inst), (2, 1, i), (3, 1, w)]))
/-- Waits after a grant to one requester (none: the save class), and the limits reached. -/
def arbWait (s : State) (cls inst : Nat) (reqs : List Nat) (won : Option Nat) : State :=
  let a := arbOf s cls inst
  let next : Tbl Nat := reqs.foldl (fun t i => if won = some i then t else tset 0 t i (tget 0 a.waits i + 1)) []
  let s1 := setArb s cls inst { a with waits := next }
  (reqs.filter (fun i => won ≠ some i && tget 0 next i = s.starveLimit)).foldl (fun s i => starve s cls inst i (weightOf a.weight cls i)) s1

/-- The arbiter before a decision among a mask of requesters: with no credit left among them, changed weights take effect and every requester gets its weight in credits, at least 1 (R270). -/
def arbRenew (a : Arb) (cls n : Nat) (mask : List Nat) : Arb :=
  if mask.all (fun i => tget 0 a.credit i = 0) then
    let b := { a with weight := a.newWeight.foldl (fun (t : Tbl Nat) (x : Nat × Nat) => tput t x.1 x.2) a.weight, newWeight := [] }
    { b with credit := (List.range n).map (fun i => (i, max (weightOf b.weight cls i) 1)) }
  else a

/-- One decision (R269, R270): the winner, none for the save class. -/
def arbDecide (a : Arb) (cls n : Nat) (reqs : List Nat) (save : Bool) : Arb × Option (Option Nat) :=
  if save && cls = 1 && decide ((a.saves.filter id).length < 30) then ({ a with saves := (true :: a.saves).take 32 }, some none)
  else
    let w (a : Arb) (i : Nat) : Nat := weightOf a.weight cls i
    let heavy := reqs.filter (fun i => w a i ≠ 0)
    let mask := if heavy.isEmpty then reqs else heavy
    if mask.isEmpty then (a, none)
    else
      let a1 := arbRenew a cls n mask
      match ((List.range n).map (fun k => (a1.ptr + k + 1) % n)).find? (fun i => mask.contains i && decide (0 < tget 0 a1.credit i)) with
      | some i => ({ a1 with credit := tset 0 a1.credit i (tget 0 a1.credit i - 1), ptr := i, saves := if cls = 1 then (false :: a1.saves).take 32 else a1.saves }, some (some i))
      | none => (a1, none)

/-- The Col in the cycle of a grant to source k, whose queue keeps the rest (R276): col_seq and the grant count go up, and the waits of the other sources count. -/
def granting (s : State) (k : Nat) (rest : List Req) : State :=
  let others := (List.range 88).filter (fun i => !(srcQueue s i).isEmpty)
  arbWait { s with col := { s.col with queues := tset [] s.col.queues k rest, last := k, seq := s.col.seq + 1, grants := s.col.grants + 1 } } 4 0 others (some k)

/-- COL_GRANT: the next request in rotating order is granted and stamped (R275, R276); the waits of the other sources count (R272). -/
def colGrant (s : State) : State :=
  match nextSource s with
  | none => s
  | some k =>
    match presented s k with
    | [] => s
    | q :: t =>
      grantReq (granting s k t) q s.col.seq
def execColGrant (s : State) : Out := if s.pmu.on && s.pins.sysRstN then .next (colGrant s) else .next s

/-- ROPE_COMMIT_GRANT: the grant whose turn it is is this entry's COMMIT (R287, step 4). -/
def execRopeCommitGrant (e : RopeNo) (s : State) : Out :=
  match nextReq s with
  | some (_, .commit n) => if n = e.val && s.pmu.on && s.pins.sysRstN then .next (colGrant s) else .next s
  | _ => .next s

/-- ARBITER_GRANT: one decision cycle of an arbiter with these REQ wires raised (R268 to R272). The Col is an arbiter whose requests are its sources' queues. -/
def execArbiterGrant (cls : Fin 5) (inst : Nat) (reqs : List Nat) (save : Bool) (s : State) : Out :=
  if cls.val = 4 then execColGrant s
  else if arbInsts cls ≤ inst then .next s
  else
    let n := arbReqs cls
    let rs := (List.range n).filter (fun i => reqs.contains i && !(cls.val = 3 && i = inst))
    let d := arbDecide (arbOf s cls inst) cls n rs save
    let s1 := setArb s cls inst d.1
    match d.2 with
    | none => .next s1
    | some won => .next (arbWait s1 cls inst rs won)

/-! ### COUNT_TIMEOUT -/

/-- The instruction waits for contributions to its slot (R161). -/
def countWaits (s : State) (r : Nat) (w : Win) : Bool :=
  ((w.kind = .drain && w.staged.isNone) || w.kind = .waitSlot) && !faultedWin (getR s r) w &&
    (let sl := getSlot s r (slotNo w.w)
     sl.received ≠ sl.expect)
/-- COUNT_TIMEOUT: 2^20 ridge cycles have been counted; the stream stops and the slot stays open (R161). -/
def execCountTimeout (r : Ridge) (id : Nat) (s : State) : Out :=
  match findWin s r id with
  | some w =>
    if countWaits s r w && decide (2 ^ 23 ≤ w.waited) then .next (execFault (setClosing s r (slotNo w.w) false) r w 0x0D) else .next s
  | none => .next s

end Sys2Proof.Machine
end

