-- ==== Sys2Proof/Machine/Clock.lean ====
section
/-!
DEFINITION. The tick: what one CMC cycle does when no command waits (DESIGN CHOICE, notes/assumptions/2). Time passes, the ridge clock passes its n_k of 16 pulses (R449), slot waits count (R161), and the host-ready pins follow their causes (R304).
-/

namespace Sys2Proof.Machine

/-- n_k of R449: eighths of a ridge cycle in one CMC cycle (DESIGN CHOICE, notes/assumptions/2). -/
def pulses (op : Nat) : Nat := 16 - 2 * min op 5
/-- The wait of one window entry (R161): not while the ridge is held at duty 0, and not while its job is suspended. -/
def tickWin (s : State) (r n : Nat) (w : Win) : Win :=
  let paused : Bool := held s r || (w.ctx = .job && (match jobOn s r with
    | some j => decide (j.st ≠ .running)
    | none => false))
  if countWaits s r w && !paused then { w with waited := w.waited + n } else w
/-- One CMC cycle (DESIGN CHOICE, notes/assumptions/2; DESIGN CHOICE, notes/assumptions/63). -/
def tick (s : State) : State :=
  let n := pulses s.pmu.op
  let s1 := { s with
    now := s.now + 1, rclk := s.rclk + n,
    ridges := s.ridges.map (fun x => (x.1, { x.2 with win := x.2.win.map (tickWin s x.1 n) })) }
  pinSync s1

end Sys2Proof.Machine
end

