-- ==== Sys2Proof/Machine/Regs.lean ====
section
/-!
DEFINITION. Accesses to the registers of BAR0 (R292 to R306, R320, R323), the fetching of submission entries (R307, R309), and the timing of the host-ready pins (R304).
-/

namespace Sys2Proof.Machine

/-- The device is powered, out of reset, on its reference clock, and not waiting for its input after a reset that the input caused (R442, R454, R455). -/
def awake (s : State) : Bool := s.pmu.on && s.pins.sysRstN && !s.pmu.refLost && !(s.pmu.lossAt.isSome && s.cmc.fw = .bedrock)
/-- An access through a function's BARs arrives and the function is live there (R294, R328). -/
def barLive (s : State) (p : Port) (f : Nat) : Bool := awake s && (getPort s p).tunnel && liveFn s p f

/-! ### Attention, control and plain registers -/

/-- HB_ATTN_ACK: each 1 clears its HB_ATTN bit (R7, R299); the pin may rise. -/
def execHbAttnAck (p : Port) (v : W32) (s : State) : Out :=
  if barLive s p 0 then .next (hrdySync (updPort s p (fun t => { t with attn := t.attn &&& ~~~ v })) p) else .next s

/-- EVT_EN after a write: it goes on only with SIZE_EXP 6 to 16 (R298) (DESIGN CHOICE, notes/assumptions/49). -/
def evtEnable (r : FnRegs) (v : W32) : Bool :=
  bitAt v 0 && (bitAt r.ctrl 0 || (decide (6 ≤ bits r.evtCfg 4 0) && decide (bits r.evtCfg 4 0 ≤ 16)))
/-- HB_CTRL (R298): ATTN_MSIX in PF0 alone; setting EVT_EN starts the ring at index 0. -/
def execHbCtrl (p : Port) (f : Fn) (v : W32) (s : State) : Out :=
  if barLive s p f then
    .next (updFn s p f (fun r =>
      let en := evtEnable r v
      let start := en && !bitAt r.ctrl 0
      { r with
        ctrl := BitVec.ofNat 32 (boolBit en 0 + boolBit (bitAt v 1 && f.val = 0) 1)
        evtHead := if start then 0 else r.evtHead
        evtTail := if start then 0 else r.evtTail }))
  else .next s

/-- The admin queue that HB_AQ_CFG describes. -/
def adminQueue (t : PortSt) (p : Port) (v : W32) : Queue :=
  { Queue.absent with
    st := .live, port := p, sqExp := bits v 3 0, cqExp := bits v 11 8, sqBase := t.aqSqBase.toNat, cqBase := t.aqCqBase.toNat,
    vec := bits v 21 16 }
/-- Both exponents lie in 4 to 12 (R298). -/
def aqExpsOk (v : W32) : Bool :=
  decide (4 ≤ bits v 3 0) && decide (bits v 3 0 ≤ 12) && decide (4 ≤ bits v 11 8) && decide (bits v 11 8 ≤ 12)
/-- The admin queue after a write of HB_AQ_CFG (R298). -/
def aqQueue (s : State) (p : Port) (v : W32) : Queue :=
  let old := getQ s (.admin p)
  if !bitAt v 31 then Queue.absent
  else if old.st = .live then { old with vec := bits v 21 16 }
  else if aqExpsOk v then adminQueue (getPort s p) p v
  else Queue.absent
/-- What HB_AQ_CFG reads as: ACTIVE shows that the device has taken the configuration (R298). -/
def aqWord (live : Bool) (v : W32) : W32 :=
  BitVec.ofNat 32 (boolBit (bitAt v 31) 31 + boolBit live 30 + bits v 21 16 * 2 ^ 16 + bits v 11 8 * 2 ^ 8 + bits v 3 0)
/-- DESIGN CHOICE, notes/assumptions/49. -/
def aqConfigure (s : State) (p : Port) (v : W32) : State :=
  pinSync (updPort (setQ s (.admin p) { aqQueue s p v with port := p }) p (fun t => { t with aqCfg := aqWord ((aqQueue s p v).st = .live) v }))
def execHbAqCfg (p : Port) (v : W32) (s : State) : Out :=
  if barLive s p 0 then .next (aqConfigure s p v) else .next s

/-- Replaces the low or the high half of a 64-bit register. -/
def putHalf (w : W64) (hi : Bool) (v : W32) : W64 :=
  if hi then BitVec.ofNat 64 (v.toNat * 2 ^ 32 + w.toNat % 2 ^ 32) else BitVec.ofNat 64 (w.toNat / 2 ^ 32 * 2 ^ 32 + v.toNat)
/-- A 4 KiB-aligned base keeps its low twelve bits zero (DESIGN CHOICE, notes/assumptions/49). -/
def putBase (w : W64) (hi : Bool) (v : W32) : W64 := putHalf w hi (if hi then v else BitVec.ofNat 32 (v.toNat / 4096 * 4096))
/-- A write of a register without behaviour of its own (R7, R295, R298, R301); every other offset ignores it. -/
def regWrite (s : State) (p : Port) (f off : Nat) (v : W32) : State :=
  let ring (g : FnRegs → FnRegs) : State := updFn s p f (fun r => if bitAt r.ctrl 0 then r else g r)
  let pf0 (g : PortSt → PortSt) : State := if f = 0 then updPort s p g else s
  match off with
  | 0x18 => if f = 0 then pinSync (updPort s p (fun t => { t with rdyMask := v &&& 7 })) else s
  | 0x30 => ring (fun r => { r with evtBase := putBase r.evtBase false v })
  | 0x34 => ring (fun r => { r with evtBase := putBase r.evtBase true v })
  | 0x38 => ring (fun r => { r with evtCfg := v &&& 0x003F001F })
  | 0x40 => updFn s p f (fun r => { r with evtHead := v })
  | 0x48 => pf0 (fun t => { t with aqSqBase := putBase t.aqSqBase false v })
  | 0x4C => pf0 (fun t => { t with aqSqBase := putBase t.aqSqBase true v })
  | 0x50 => pf0 (fun t => { t with aqCqBase := putBase t.aqCqBase false v })
  | 0x54 => pf0 (fun t => { t with aqCqBase := putBase t.aqCqBase true v })
  | _ => s
def execRegisterWrite (p : Port) (f : Fn) (off : Nat) (v : W32) (s : State) : Out :=
  if barLive s p f then .next (regWrite s p f off v) else .next s

/-! ### Reads with an effect -/

/-- What a read through a function returns: zero in an inert VF (R294). -/
def readBack (s : State) (v : W32) : State := { s with host := { s.host with readData := v } }
/-- HB_EVT_DROP clears as it is read (R7, R322). -/
def execHbEvtDrop (p : Port) (f : Fn) (s : State) : Out :=
  if barLive s p f then .next (updFn (readBack s (getFn s p f).evtDrop) p f (fun r => { r with evtDrop := 0 }))
  else if awake s && (getPort s p).tunnel then .next (readBack s 0)
  else .next s
/-- col_seq of the most recent event granted (R302). -/
def lastSeq (s : State) : Nat := s.col.seq - 1
/-- HB_COL_SEQ_LO: the low half; the high half is latched for the function (R302). -/
def execHbColSeqLo (p : Port) (f : Fn) (s : State) : Out :=
  if barLive s p f then
    .next (updFn (readBack s (BitVec.ofNat 32 (lastSeq s))) p f (fun r => { r with seqLatch := some (BitVec.ofNat 32 (lastSeq s / 2 ^ 32)) }))
  else if awake s && (getPort s p).tunnel then .next (readBack s 0)
  else .next s
/-- HB_COL_SEQ_HI: the latched half, else the current one (R302). -/
def execHbColSeqHi (p : Port) (f : Fn) (s : State) : Out :=
  if barLive s p f then
    .next (updFn (readBack s ((getFn s p f).seqLatch.getD (BitVec.ofNat 32 (lastSeq s / 2 ^ 32)))) p f (fun r => { r with seqLatch := none }))
  else if awake s && (getPort s p).tunnel then .next (readBack s 0)
  else .next s

/-! ### Doorbells (R305, R306) -/

/-- The completion that answers a bad doorbell value (DEDUCED, notes/assumptions/50). -/
def badDoorbell (s : State) (q : QId) : State := postCqe s (mkCqe q 0xFFFF stField (queuePart s q) 0 0 none)
/-- A tail is below the ring's size and does not overrun the fetch position (DEDUCED, notes/assumptions/50). -/
def tailOk (q : Queue) (v : Nat) : Bool :=
  let n := 2 ^ q.sqExp
  decide (v < n) && decide ((q.tail + n - q.fetch) % n ≤ (v + n - q.fetch) % n)
/-- A new SQ tail (DEDUCED, notes/assumptions/50). -/
def ringTail (s : State) (q : QId) (v : Nat) : State :=
  if tailOk (getQ s q) v then updQ s q (fun k => { k with tail := v }) else badDoorbell s q
/-- A new CQ head: entries are free, and held completions follow (R308) (DEDUCED, notes/assumptions/50). -/
def ringHead (s : State) (q : QId) (v : Nat) : State :=
  if v < 2 ^ (getQ s q).cqExp then cqFlush (updQ s q (fun k => { k with cqHead := v })) q else badDoorbell s q
/-- The queue is being destroyed, and its doorbells are ignored (R331). -/
def beingDestroyed (s : State) (n : Nat) : Bool :=
  s.col.rappels.any (fun k => k.why = .queueGone n) ||
    s.host.cmds.any (fun c => c.busy && fieldAt c.entry 0 1 = 0x19 && fieldAt c.entry 0x18 2 = n) ||
    (getP s (getQ s (.io n)).part).st = .scrubbing
/-- A queue's doorbells are live in PF0 and in its own partition's VF (R306). -/
def doorbellLive (s : State) (p : Port) (f n : Nat) : Bool :=
  barLive s p f && (getQ s (.io n)).st ≠ .absent && (f = 0 || (getQ s (.io n)).part = partOfFn f) && !beingDestroyed s n
def execHbDbAdmin (p : Port) (v : W32) (s : State) : Out :=
  if barLive s p 0 && (getQ s (.admin p)).st = .live then
    .next (pinSync (ringHead (ringTail s (.admin p) (bits v 15 0)) (.admin p) (bits v 31 16)))
  else .next s
def execSqDoorbell (p : Port) (f : Fn) (q : Fin 1024) (v : W32) (s : State) : Out :=
  if doorbellLive s p f q then .next (ringTail s (.io q) (bits v 15 0)) else .next s
def execCqDoorbell (p : Port) (f : Fn) (q : Fin 1024) (v : W32) (s : State) : Out :=
  if doorbellLive s p f q then .next (ringHead s (.io q) (bits v 15 0)) else .next s

/-! ### Fetching (R307, R309) -/

/-- Earlier commands of the ring have started, and, for an ORDERED one, completed (DESIGN CHOICE, notes/assumptions/51). -/
def cmdTurn (s : State) (c : Cmd) : Bool :=
  let ordered := (fieldAt c.entry 1 1) % 2 = 1
  !c.busy && s.host.cmds.all (fun d => !(d.q = c.q && decide (d.seqNo < c.seqNo) && (ordered || !d.busy)))
/-- The opcodes of R312. -/
def opcodes : List Nat :=
  [0x01, 0x02, 0x03, 0x04, 0x10, 0x11, 0x12, 0x18, 0x19, 0x20, 0x21, 0x22, 0x28, 0x29, 0x30, 0x31, 0x32, 0x38, 0x39, 0x3F, 0x40] ++
    [0x48, 0x49, 0x4A, 0x4B, 0x50, 0x51, 0x58, 0x59, 0x60, 0x61, 0x70, 0x71]
/-- The status of an entry that no command of R312 or R313 answers: a reserved opcode (R11), an unlisted feature or a set of a read-only one (R313). -/
def rejected (c : Cmd) : Option Nat :=
  let op := fieldAt c.entry 0 1
  let fid := fieldAt c.entry 0x18 2
  if !opcodes.contains op then some stOpcode
  else if op = 0x03 && (fid = 0 || fid = 4 || decide (0x0B < fid)) then some stField
  else none
/-- Completes the ring's next entry to start where it is one that is rejected (DESIGN CHOICE, notes/assumptions/51). -/
def rejectTurn (s : State) (q : QId) : State :=
  match s.host.cmds.find? (fun c => c.q = q && cmdTurn s c && (rejected c).isSome) with
  | some c => complete s c ((rejected c).getD stOpcode) 0
  | none => s
/-- One entry is taken from a ring; one that a partition's Rappel has aborted is passed over. -/
def fetchOne (s : State) (id : QId) : State :=
  let q := getQ s id
  let i := q.fetch
  let s1 := updQ s id (fun q => { q with fetch := (i + 1) % 2 ^ q.sqExp, skip := q.skip.erase i })
  if q.skip.contains i then s1
  else
    let e := sqEntry s q i
    let c : Cmd :=
      { q := id, cid := BitVec.ofNat 16 (fieldAt e 2 2), entry := e, port := q.port, fn := (match id with
          | .admin _ => 0
          | .io _ => q.part + 1)
        part := (match id with
          | .admin _ => fieldAt e 4 1
          | .io _ => q.part)
        seqNo := s.host.nextCmd, busy := false, began := 0 }
    { s1 with host := { s1.host with cmds := s1.host.cmds ++ [c], nextCmd := s.host.nextCmd + 1 } }
/-- COMMAND_FETCH: the next entry of a ring, while fewer than 4,096 commands are in flight (R309). -/
def execCommandFetch (q : QId) (s : State) : Out :=
  let k := getQ s q
  if !awake s || s.cmc.fw ≠ .running then .next s
  else
    let s1 := rejectTurn s q
    if k.st = .live && !k.stopped && k.fetch ≠ k.tail && decide (s1.host.cmds.length < 4096) && (k.sqPool || (getPort s k.port).tunnel) then
      .next (pinSync (rejectTurn (fetchOne s1 q) q))
    else .next s1

/-! ### HB_RAPPEL (R323) -/

/-- A write of HB_RAPPEL is accepted. -/
def rappelOk (s : State) (f : Nat) (v : W32) : Bool :=
  let id := bits v 9 0
  bits v 29 10 = 0 && (match bits v 31 30 with
    | 0 => f = 0 || ((getQ s (.io id)).st ≠ .absent && (getQ s (.io id)).part = partOfFn f)
    | 1 => decide (id < 16) && (f = 0 || id = partOfFn f)
    | 2 => f = 0 && id = 0
    | _ => false)
/-- HB_RAPPEL: the next TAG is taken and the quiesce engine begins, or the write is rejected. -/
def rappelWrite (s : State) (p : Port) (f scope : Nat) (v : W32) : State :=
  if !barLive s p f || !(bits v 31 30 = scope || bits v 31 30 = 3) then s
  else if rappelOk s f v then
    let tag := ((getFn s p f).rapLast.toNat + 1) % 256
    pinSync (startRap (updFn s p f (fun r => { r with rapLast := BitVec.ofNat 8 tag, rapState := 1 })) scope (bits v 9 0) tag (some p) f .host)
  else updFn s p f (fun r => { r with rapState := 3 })
def execRappelQueue (p : Port) (f : Fn) (v : W32) (s : State) : Out := .next (rappelWrite s p f 0 v)
def execRappelPartition (p : Port) (f : Fn) (v : W32) (s : State) : Out := .next (rappelWrite s p f 1 v)
def execRappelDevice (p : Port) (f : Fn) (v : W32) (s : State) : Out := .next (rappelWrite s p f 2 v)

/-! ### Host-ready pins -/

/-- HRDY_MINIMUM_TIME: the pin takes the level its causes call for (R304). -/
def execHrdyMinimumTime (p : Port) (s : State) : Out := if awake s then .next (hrdySync s p) else .next s

/-! ### Losing and regaining a host (R328, R329) -/

/-- A function's event ring is disabled. -/
def ringOff (s : State) (p : Port) (f : Nat) : State := updFn s p f (fun r => { r with ctrl := r.ctrl &&& ~~~ 1 })
/-- A port's admin queue stops: nothing is fetched, and entries still to be written are discarded. -/
def adminOff (s : State) (p : Port) : State := setQ s (.admin p) { Queue.absent with port := p }
/-- IDE keys of a port are zeroised (R394). -/
def dropPortIde (s : State) (p : Port) : State :=
  let n := match p with
    | .A => 0
    | .B => 1
  { s with sec := { s.sec with ide := s.sec.ide.filter (fun x => x.1 / 128 ≠ n), insecure := s.sec.insecure.filter (fun x => x.1 / 32 ≠ n) } }
/-- TUNNEL_DOWN (R328, R399). -/
def tunnelDown (s : State) (p : Port) : State :=
  if !(getPort s p).tunnel then s
  else
    let s1 := updPort (adminOff s p) p (fun t => { t with tunnel := false, aqCfg := 0 })
    let s2 := (List.range 17).foldl (fun s f => ringOff s p f) s1
    let mine := (List.range 16).filter (fun k => (getP s2 k).st ≠ .free && (getP s2 k).port = p)
    let s3 := mine.foldl (fun s k => tdiFail (detachQueues s k p) k) s2
    pinSync (setAttn (dropPortIde s3 p) (otherPort p) 2)
def execTunnelDown (p : Port) (s : State) : Out := if awake s then .next (tunnelDown s p) else .next s
/-- TUNNEL_UP (R328): the host enumerates the endpoint afresh, so what PCIe functions hold themselves is at reset again. -/
def execTunnelUp (p : Port) (s : State) : Out :=
  if awake s && !(getPort s p).tunnel then .next (setAttn (updPort s p (fun t => { t with tunnel := true })) (otherPort p) 2) else .next s
/-- VF_FLR (R329, R394, R400). -/
def execVfFlr (p : Port) (n : Fin 16) (s : State) : Out :=
  if barLive s p (n.val + 1) then
    .next (pinSync (startRap (tdiError (dropIde (ringOff s p (n.val + 1)) (n.val + 1)) n) 1 n 0 none 0 (.flr n)))
  else .next s
/-- PF0_FLR (R329, R394). -/
def execPf0Flr (p : Port) (s : State) : Out :=
  if barLive s p 0 then
    let n := match p with
      | .A => 0
      | .B => 1
    let s1 := { s with sec := { s.sec with
      ide := s.sec.ide.filter (fun x => x.1 / 4 ≠ n * 32), insecure := s.sec.insecure.filter (fun x => x.1 ≠ n * 32) } }
    .next (pinSync (updPort (ringOff (adminOff s1 p) p 0) p (fun t => { t with aqCfg := 0 })))
  else .next s

end Sys2Proof.Machine
end

