-- ==== Sys2Proof/Machine/Gate.lean ====
section
/-!
DEFINITION. What every Ewesy command shares (R307, R309 to R312, R392, R399, R401): finding the fetched command, the checks of queue, function, port, partition and mode, its data buffer, and its completion with the first status that applies.
-/

namespace Sys2Proof.Machine

/-! ### A command's fields -/

def cmdOp (c : Cmd) : Nat := fieldAt c.entry 0 1
def cmdPart (c : Cmd) : Nat := fieldAt c.entry 4 1
def cmdPtr (c : Cmd) : Nat := fieldAt c.entry 8 8
def cmdLen (c : Cmd) : Nat := fieldAt c.entry 0x10 8
/-- A command-specific field. -/
def cmdFld (c : Cmd) (off n : Nat) : Nat := fieldAt c.entry off n
/-- The command came through PF0. -/
def viaPf0 (c : Cmd) : Bool := isAdmin c.q
/-- The first n bytes of the data buffer (DESIGN CHOICE, notes/assumptions/51). -/
def dataIn (s : State) (c : Cmd) (n : Nat) : List Byte := hostRead s c.port (cmdPtr c) n
/-- The data buffer holds fewer than n bytes, or there is none. -/
def dataShort (c : Cmd) (n : Nat) : Bool := cmdPtr c = 0 || decide (cmdLen c < n)
/-- Completes with output: too small a buffer is NO_RESOURCE with the length needed in RESULT (R312). -/
def completeOut (s : State) (c : Cmd) (d : List Byte) (res : Nat) : State :=
  if !d.isEmpty && dataShort c d.length then complete s c stResource d.length
  else complete (hostWrite s c.port (cmdPtr c) d) c stSuccess res

/-! ### What a command kind asks for -/

/-- Opcode and feature, the queues it may come on, its fields (offset, size), whether it needs an ACTIVE partition, whether a VF answers it before START_INTERFACE and in ERROR (R399), and whether PF0 is barred from it on a confidential partition (R401). -/
structure CmdKind where
  op : Nat
  fid : Option Nat
  onAdmin : Bool
  onIo : Bool
  fields : List (Nat × Nat)
  needPart : Bool
  unlocked : Bool
  inError : Bool
  pf0Barred : Bool
  deriving DecidableEq, Repr

/-- A kind on both queues, without more. -/
def kindOf (op : Nat) (fields : List (Nat × Nat)) : CmdKind :=
  { op := op, fid := none, onAdmin := true, onIo := true, fields := fields, needPart := false, unlocked := false, inError := false, pf0Barred := false }
def adminKind (op : Nat) (fields : List (Nat × Nat)) : CmdKind := { kindOf op fields with onIo := false }
def partKind (op : Nat) (fields : List (Nat × Nat)) : CmdKind := { kindOf op fields with needPart := true }
/-- SET_FEATURE of a feature (R313); vf: it may come through a VF. -/
def setKind (fid : Nat) (vf : Bool) : CmdKind := { kindOf 0x03 [(0x18, 2), (0x1C, 4)] with fid := some fid, onIo := vf }

/-- The fetched command of a ring and CID whose turn it is and that this kind answers (DESIGN CHOICE, notes/assumptions/51). -/
def readyCmd (s : State) (q : QId) (cid : W16) (k : CmdKind) : Option Cmd :=
  if !awake s || s.cmc.fw ≠ .running then none
  else s.host.cmds.find? (fun c => c.q = q && c.cid = cid && cmdTurn s c && cmdOp c = k.op && (match k.fid with
    | some f => cmdFld c 0x18 2 = f
    | none => true))

/-- A byte of the entry belongs to no field (R307, R312) (DESIGN CHOICE, notes/assumptions/51). -/
def reservedByte (k : CmdKind) (i : Nat) : Bool :=
  if i < 5 then false else if i < 8 then true else if i < 0x18 then false
  else !k.fields.any (fun f => decide (f.1 ≤ i) && decide (i < f.1 + f.2))
/-- A reserved field of the entry is not zero, or DPTR is not aligned (R11, R307) (DESIGN CHOICE, notes/assumptions/51). -/
def badEntry (c : Cmd) (k : CmdKind) : Bool :=
  decide (fieldAt c.entry 1 1 / 2 ≠ 0) || cmdPtr c % 64 ≠ 0 ||
    (List.range 64).any (fun i => reservedByte k i && fieldAt c.entry i 1 ≠ 0)
/-- The partition a command works on. -/
def partOf (c : Cmd) : Nat := c.part
/-- Statuses of the partition's state (R310, R312, R392) (DESIGN CHOICE, notes/assumptions/51). -/
def partChecks (s : State) (c : Cmd) (k : CmdKind) : List (Bool × Nat) :=
  if viaPf0 c then
    if k.needPart then
      [(decide (16 ≤ c.part), stField), (decide (c.part < 16) && (getP s c.part).st = .scrubbing, stScrub),
        (decide (c.part < 16) && (getP s c.part).st ≠ .active, stState)]
    else [(c.part ≠ 0xFF && decide (16 ≤ c.part), stField)]
  else
    [(cmdPart c ≠ c.part, stField), ((getP s c.part).st = .scrubbing, stScrub), ((getP s c.part).st ≠ .active, stState)]
/-- Statuses of the queue, function, port and mode (R312, R399, R401). -/
def permitChecks (s : State) (c : Cmd) (k : CmdKind) : List (Bool × Nat) :=
  let t := getP s c.part
  if viaPf0 c then
    [(!k.onAdmin, stPermit),
      (decide (c.part < 16) && t.st ≠ .free && t.port ≠ c.port && k.op ≠ 0x12 && k.fid ≠ some 0x0A, stPermit),
      (decide (c.part < 16) && t.st ≠ .free && confidential t && k.pf0Barred, stPermit)]
  else
    [(!k.onIo, stPermit), ((t.tdi = .unlocked || t.tdi = .locked) && !k.unlocked, stPermit), (t.tdi = .error && !k.inError, stPermit)]
/-- The checks that every command passes. -/
def gateChecks (s : State) (c : Cmd) (k : CmdKind) : List (Bool × Nat) :=
  permitChecks s c k ++ partChecks s c k ++ [(badEntry c k, stField)]

/-- A command starts: it completes with the first status that applies, or runs (R311). -/
def withCmd (s : State) (q : QId) (cid : W16) (k : CmdKind) (checks : Cmd → List (Bool × Nat)) (body : Cmd → State) : Out :=
  match readyCmd s q cid k with
  | none => .next s
  | some c =>
    let g := gateChecks s c k
    let l := if g.any (fun x => x.1 && x.2 = stPermit) then g else g ++ checks c
    .next (if l.any (fun x => x.1) then complete s c (failStatus l) 0 else body c)
/-- As withCmd, with checks in a stated order after those (R311). -/
def withOrdered (s : State) (q : QId) (cid : W16) (k : CmdKind) (checks : Cmd → List (Bool × Nat)) (body : Cmd → State) : Out :=
  match readyCmd s q cid k with
  | none => .next s
  | some c =>
    let g := gateChecks s c k
    .next (if g.any (fun x => x.1) then complete s c (failStatus g) 0
      else match firstFail (checks c) with
        | some st => complete s c st 0
        | none => body c)
/-- Marks a command as started; it completes in a later step. -/
def startCmd (s : State) (c : Cmd) : State := busyCmd s c.seqNo

end Sys2Proof.Machine
end

