-- ==== Sys2Proof/Machine/Features.lean ====
section
/-!
DEFINITION. Ewesy commands that read the device or set a policy: IDENTIFY, GET_CAPS, PART_QUERY (R20, R296, R312, R315), SET_FEATURE and GET_FEATURE (R41, R97, R115, R121, R271, R273, R282, R313, R362), EVENT_CONFIG (R320), THERMAL_INLET (R110) and POWER_CAP (R451).
-/

namespace Sys2Proof.Machine

/-! ### Identity and resources -/

/-- HB_ID (R296). -/
def hbId : W32 := BitVec.ofNat 32 (0x0812 * 2 ^ 16 + Config.hbIdLow.toNat)
/-- The capability record (R20). -/
def capRecord : List Byte :=
  layFields 128 ([(0x00, 4, 0x50435648), (0x04, 4, 0x00800100), (0x08, 4, 0x100), (0x0C, 4, 0x30), (0x10, 4, 0x20), (0x14, 4, 2), (0x18, 4, 0x400), (0x1C, 4, 0x200),
      (0x20, 4, 0x100), (0x24, 4, 0x10), (0x28, 4, 8), (0x2C, 4, 0x40), (0x30, 4, 0x200), (0x34, 4, 0x4000), (0x38, 4, 0x400), (0x3C, 4, 0x600)] ++
    [(0x40, 4, 0x8000), (0x44, 4, 0x60), (0x48, 4, 0x00077FFF), (0x4C, 4, 0x00040802), (0x50, 4, 0x04001010), (0x54, 4, 0x2000), (0x58, 4, 0x1000), (0x5C, 4, 0x1000),
      (0x60, 4, 0x400), (0x64, 4, 0x1000), (0x68, 4, 0x04000800), (0x6C, 4, 0x0168012C), (0x70, 4, 0x04004010)])
def serialBytes : List Byte := (List.range 16).map Config.serial

/-- HB_RAPPEL_STATUS (R323). -/
def hbRappelStatus (r : FnRegs) : W32 := BitVec.ofNat 32 (r.rapLast.toNat * 2 ^ 24 + r.rapDone.toNat * 2 ^ 16 + r.rapState)
/-- What a read of BAR0 at an offset shows (R294, R295, R323), apart from the registers whose read has an effect: those are rows of their own (DESIGN CHOICE, notes/assumptions/65: no row of the table reads a register without effect). -/
def regValue (s : State) (p : Port) (f off : Nat) : W32 :=
  let r := getFn s p f
  let t := getPort s p
  let own (v : W32) : W32 := if liveFn s p f then v else 0
  let pf0 (v : W32) : W32 := if f = 0 then v else 0
  match off with
  | 0x00 => hbId
  | 0x04 => 0x100
  | 0x08 => hbStatus s p f
  | 0x0C => own r.ctrl
  | 0x10 => pf0 t.attn
  | 0x18 => pf0 t.rdyMask
  | 0x1C => own (hbFwState s)
  | 0x24 => own (hbRappelStatus r)
  | 0x30 => own (r.evtBase.extractLsb' 0 32)
  | 0x34 => own (r.evtBase.extractLsb' 32 32)
  | 0x38 => own r.evtCfg
  | 0x40 => own r.evtHead
  | 0x44 => own r.evtTail
  | 0x48 => pf0 (t.aqSqBase.extractLsb' 0 32)
  | 0x4C => pf0 (t.aqSqBase.extractLsb' 32 32)
  | 0x50 => pf0 (t.aqCqBase.extractLsb' 0 32)
  | 0x54 => pf0 (t.aqCqBase.extractLsb' 32 32)
  | 0x58 => pf0 t.aqCfg
  | _ => if 0x100 ≤ off && off < 0x180 then BitVec.ofNat 32 (fieldAt capRecord (off - 0x100) 4) else 0

def identifyBytes (s : State) : List Byte :=
  overlay (overlay (layFields 4096 [(0, 4, hbId.toNat), (4, 4, (hbFwState s).toNat), (0x18, 2, s.links.devId)]) 8 serialBytes) 0x80 capRecord
/-- What IDENTIFY asks for. -/
def identifyKind : CmdKind := { kindOf 0x01 [] with unlocked := true }
/-- IDENTIFY (R312). -/
def execIdentify (q : QId) (cid : W16) (s : State) : Out :=
  withCmd s q cid identifyKind (fun _ => []) (fun c => completeOut s c (identifyBytes s) 0)

/-- The live partitions. -/
def liveParts (s : State) : List Part := ((List.range 16).map (getP s)).filter (fun t => t.st ≠ .free)
def takenRidges (s : State) : RMask := (liveParts s).foldl (fun m t => m ||| t.ridges) 0
def takenRanges (s : State) : BitVec 94 := (liveParts s).foldl (fun m t => m ||| t.ranges) 0
def takenWays (s : State) : W16 := (liveParts s).foldl (fun m t => m ||| t.ways) 0
/-- Granted Clay quarters, bit 0 Q2 and bit 1 Q3. -/
def takenQuarters (s : State) : Nat := (liveParts s).foldl (fun m t => m ||| (t.pflags.toNat / 4 % 4)) 0
/-- Ridges that cannot be granted: FAILED (R382), or held back until they are scrubbed (R415, R416). -/
def heldRidges (s : State) : RMask :=
  maskOf 48 ((List.range 48).filter (fun r => (getR s r).failed) ++ s.cmc.scrubTiles.map (fun x => x.1)) ||| s.cmc.scrubPending
def ridgeMask (s : State) (f : RidgeSt → Bool) : RMask := maskOf 48 ((List.range 48).filter (fun r => f (getR s r)))
/-- FENCED positions on the ridges of a mask. -/
def fencedOn (s : State) (m : RMask) : Nat :=
  ((bitList m).map (fun r => ((List.range 32).filter (fencedAt (getR s r))).length)).foldl (· + ·) 0
/-- The data of GET_CAPS; only names the ridges, ranges, ways, VFs and quarters that a VF's partition owns, none of which is free (DESIGN CHOICE, notes/assumptions/52). -/
def capsBytes (s : State) (only : Option Part) : List Byte :=
  let ids := 1024 - (s.host.queues.filter (fun x => x.2.st ≠ .absent)).length
  let deg := ridgeMask s (fun rd => rd.degraded)
  match only with
  | some t => layFields 256 [(0x1C, 2, ids), (0x20, 8, (deg &&& t.ridges).toNat), (0x28, 4, fencedOn s t.ridges)]
  | none =>
    layFields 256 [(0x00, 8, (~~~ (takenRidges s ||| heldRidges s)).toNat), (0x08, 16, (~~~ takenRanges s).toNat), (0x18, 2, (~~~ takenWays s).toNat),
      (0x1A, 2, (maskOf 16 ((List.range 16).filter (fun p => (getP s p).st = .free))).toNat), (0x1C, 2, ids), (0x1E, 1, 3 - takenQuarters s),
      (0x20, 8, deg.toNat), (0x28, 4, fencedOn s (maskOf 48 (List.range 48)))]
/-- What GET_CAPS asks for. -/
def getCapsKind : CmdKind := { kindOf 0x02 [] with unlocked := true }
/-- GET_CAPS (R312). -/
def execGetCaps (q : QId) (cid : W16) (s : State) : Out :=
  withCmd s q cid getCapsKind (fun _ => []) (fun c => completeOut s c (capsBytes s (if viaPf0 c then none else some (getP s c.part))) 0)

def partCode : PartSt → Nat
  | .free => 0
  | .active => 1
  | .scrubbing => 2
  | .initialising => 3
def portCode : Port → Nat
  | .A => 0
  | .B => 1
def wsetCode : WsetSt → Nat
  | .loading => 0
  | .resident => 1
  | .tilesOnly => 2
  | .incomplete => 3
/-- A weight-set record of PART_QUERY. -/
def wsetRecord (s : State) (w : Wset) : List Byte :=
  layFields 16 [(0, 4, w.id.toNat), (4, 1, wsetCode w.st), (8, 4, w.golden.length), (12, 4, (w.golden.filter (fun g => fencedAt (getR s g.ridge) g.pos)).length)]
/-- The PART_QUERY report (R315). -/
def queryBytes (s : State) (p : Nat) : List Byte :=
  let t := getP s p
  if t.st = .free then zeros 512
  else
    (List.range 28).foldl (fun b i => match t.wsets[i]? with
        | some w => overlay b (0x40 + 16 * i) (wsetRecord s w)
        | none => b)
      (layFields 512 [(0, 1, partCode t.st), (1, 1, portCode t.port), (2, 1, t.pflags.toNat), (3, 1, t.bcShare), (0x08, 8, t.ridges.toNat),
        (0x10, 8, (ridgeMask s (fun rd => rd.degraded) &&& t.ridges).toNat), (0x18, 16, t.ranges.toNat), (0x28, 2, t.ways.toNat), (0x2A, 2, (queuesOf s p).length),
        (0x30, 8, userSize t), (0x38, 2, t.progs.length), (0x3A, 2, t.wsets.length)])
/-- What PART_QUERY asks for. -/
def partQueryKind : CmdKind := { kindOf 0x12 [] with unlocked := true, inError := true }
/-- Checks of PART_QUERY. -/
def partQueryChecks (_ : State) (c : Cmd) : List (Bool × Nat) := [(decide (16 ≤ c.part), stField)]
/-- PART_QUERY (R315). -/
def execPartQuery (q : QId) (cid : W16) (s : State) : Out :=
  withCmd s q cid partQueryKind (partQueryChecks s) (fun c => completeOut s c (queryBytes s c.part) 0)

/-! ### SET_FEATURE -/

def cmdValue (c : Cmd) : W32 := BitVec.ofNat 32 (cmdFld c 0x1C 4)
def inRange (v lo hi : Nat) : Bool := decide (lo ≤ v) && decide (v ≤ hi)

/-- What PROG_POWER asks for. -/
def progPowerKind : CmdKind := setKind 1 false
/-- Checks of PROG_POWER. -/
def progPowerChecks (_ : State) (c : Cmd) : List (Bool × Nat) := [(!inRange (cmdValue c).toNat 2 40, stField)]
/-- PROG_POWER, 2 to 40 W (R41). -/
def execProgPower (q : QId) (cid : W16) (s : State) : Out :=
  withCmd s q cid progPowerKind (progPowerChecks s) (fun c => complete { s with pmu := { s.pmu with progPower := (cmdValue c).toNat } } c stSuccess 0)

/-- A SURVEY_POLICY value is in range (R97). -/
def surveyOk (v : W32) : Bool :=
  (v &&& 0xF800C0E0) = 0 && inRange (bits v 23 16) 4 64 && inRange (bits v 13 8) 30 36 && inRange (bits v 4 0) 16 24
/-- What SURVEY_POLICY asks for. -/
def surveyPolicyKind : CmdKind := setKind 2 true
/-- Checks of SURVEY_POLICY. -/
def surveyPolicyChecks (_ : State) (c : Cmd) : List (Bool × Nat) := [(!surveyOk (cmdValue c), stField)]
/-- SURVEY_POLICY, admitted. -/
def surveyPolicyDo (s : State) (c : Cmd) : State :=
  complete (if viaPf0 c then { s with integ := { s.integ with surveyPolicy := cmdValue c } } else updP s c.part (fun t => { t with survey := cmdValue c }))
  c stSuccess 0
/-- SURVEY_POLICY: a VF sets its partition's, PF0 the value of partitions created afterwards (R97). -/
def execSurveyPolicy (q : QId) (cid : W16) (s : State) : Out :=
  withCmd s q cid surveyPolicyKind (surveyPolicyChecks s) (surveyPolicyDo s)

/-- A THERMAL_POLICY value is in range (R115). -/
def thermalOk (v : W32) : Bool :=
  bits v 31 16 = 0 && inRange (bits v 15 8) 60 99 && inRange (bits v 7 0) 50 96 && decide (bits v 7 0 + 2 ≤ bits v 15 8)
/-- What THERMAL_POLICY asks for. -/
def thermalPolicyKind : CmdKind := setKind 3 false
/-- Checks of THERMAL_POLICY. -/
def thermalPolicyChecks (_ : State) (c : Cmd) : List (Bool × Nat) := [(!thermalOk (cmdValue c), stField)]
/-- THERMAL_POLICY (R115). -/
def execThermalPolicy (q : QId) (cid : W16) (s : State) : Out :=
  withCmd s q cid thermalPolicyKind (thermalPolicyChecks s) (fun c => complete { s with thermal := { s.thermal with policy := cmdValue c } } c stSuccess 0)

/-- CLASS, INSTANCE and REQUESTER of R271 name a weighted requester. -/
def arbNamed (v : W32) : Bool :=
  decide (bits v 31 29 ≤ 3) && (bits v 28 21 = 0xFF || decide (bits v 28 21 < arbInsts (bits v 31 29))) && decide (bits v 20 14 < arbReqs (bits v 31 29)) && bits v 9 0 = 0
/-- The instances that a value names. -/
def arbNames (v : W32) : List Nat := if bits v 28 21 = 0xFF then List.range (arbInsts (bits v 31 29)) else [bits v 28 21]
/-- A new weight waits for the arbiter's next new round (R271). -/
def setWeight (s : State) (v : W32) : State :=
  (arbNames v).foldl (fun s i =>
    let a := arbOf s (bits v 31 29) i
    setArb s (bits v 31 29) i { a with newWeight := tput a.newWeight (bits v 20 14) (bits v 13 10 + 1) }) s
/-- What ARB_WEIGHT asks for. -/
def arbWeightKind : CmdKind := setKind 5 false
/-- Checks of ARB_WEIGHT. -/
def arbWeightChecks (_ : State) (c : Cmd) : List (Bool × Nat) := [(!arbNamed (cmdValue c), stField)]
/-- ARB_WEIGHT (R271). -/
def execArbWeight (q : QId) (cid : W16) (s : State) : Out :=
  withCmd s q cid arbWeightKind (arbWeightChecks s) (fun c => complete (setWeight s (cmdValue c)) c stSuccess 0)
/-- What ARB_LIMIT asks for. -/
def arbLimitKind : CmdKind := setKind 6 false
/-- Checks of ARB_LIMIT. -/
def arbLimitChecks (_ : State) (c : Cmd) : List (Bool × Nat) := [(!inRange (cmdValue c).toNat 64 65535, stField)]
/-- ARB_LIMIT (R273). -/
def execArbLimit (q : QId) (cid : W16) (s : State) : Out :=
  withCmd s q cid arbLimitKind (arbLimitChecks s) (fun c => complete { s with starveLimit := (cmdValue c).toNat } c stSuccess 0)
/-- CLASS and INSTANCE name an arbiter, the Col included (R273). -/
def arbPlace (v : W32) : Bool := decide (bits v 31 29 ≤ 4) && decide (bits v 28 21 < arbInsts (bits v 31 29)) && bits v 20 0 = 0
/-- Clears the starvation flags whose bits are 1 in a vector (DESIGN CHOICE, notes/assumptions/52). -/
def clearFlags (s : State) (cls inst : Nat) (vec : Nat) : State :=
  let a := arbOf s cls inst
  setArb s cls inst { a with flags := a.flags.filter (fun x => !vec.testBit x.1) }
/-- What ARB_STATUS asks for. -/
def arbStatusKind : CmdKind := setKind 7 false
/-- Checks of ARB_STATUS. -/
def arbStatusChecks (_ : State) (c : Cmd) : List (Bool × Nat) := [(!arbPlace (cmdValue c) || dataShort c 16, stField)]
/-- SET_FEATURE ARB_STATUS: the value names the arbiter, the data the vector (R273). -/
def execArbStatus (q : QId) (cid : W16) (s : State) : Out :=
  withCmd s q cid arbStatusKind (arbStatusChecks s) (fun c => complete (clearFlags s (bits (cmdValue c) 31 29) (bits (cmdValue c) 28 21) (leNat (dataIn s c 16))) c stSuccess 0)

/-- A WINDOW_POLICY value is in range (R282). -/
def windowOk (v : W32) : Bool :=
  (v &&& 0xC0E0E0FF) = 0 && inRange (bits v 29 24) 24 36 && inRange (bits v 20 16) 16 30 && inRange (bits v 12 8) 12 24
/-- WINDOW_POLICY: a new length applies after the kind's next marker (R282). -/
def setWindows (s : State) (v : W32) : State :=
  { s with col := { s.col with
      win0 := { s.col.win0 with next := bits v 29 24 }
      win1 := { s.col.win1 with next := bits v 20 16 }
      win2 := { s.col.win2 with next := bits v 12 8 } } }
/-- What WINDOW_POLICY asks for. -/
def windowPolicyKind : CmdKind := setKind 8 false
/-- Checks of WINDOW_POLICY. -/
def windowPolicyChecks (_ : State) (c : Cmd) : List (Bool × Nat) := [(!windowOk (cmdValue c), stField)]
def execWindowPolicy (q : QId) (cid : W16) (s : State) : Out :=
  withCmd s q cid windowPolicyKind (windowPolicyChecks s) (fun c => complete (setWindows s (cmdValue c)) c stSuccess 0)

/-- A PROBE_POLICY value is in range (R362). -/
def probeOk (v : W32) : Bool :=
  (v &&& 0xC0020000) = 0 && inRange (bits v 29 24) 40 48 && inRange (bits v 23 18) 24 34 && inRange (bits v 16 0) 256 65536
/-- What PROBE_POLICY asks for. -/
def probePolicyKind : CmdKind := setKind 9 true
/-- Checks of PROBE_POLICY. -/
def probePolicyChecks (s : State) (c : Cmd) : List (Bool × Nat) := [(!probeOk (cmdValue c), stField), (!viaPf0 c && decide (bits (cmdValue c) 29 18 ≠ bits s.integ.probePolicy 29 18), stPermit)]
/-- PROBE_POLICY, admitted. -/
def probePolicyDo (s : State) (c : Cmd) : State :=
  complete (if viaPf0 c then { s with integ := { s.integ with probePolicy := cmdValue c } }
  else updP s c.part (fun t => { t with probeInterval := bits (cmdValue c) 16 0 })) c stSuccess 0
/-- PROBE_POLICY: a VF sets its partition's interval and leaves the test fields; PF0 sets the device's (R362). -/
def execProbePolicy (q : QId) (cid : W16) (s : State) : Out :=
  withCmd s q cid probePolicyKind (probePolicyChecks s) (probePolicyDo s)

/-- Program ridges that a loaded weight set or program of a partition names (R55). -/
def mapUsed (t : Part) : List Nat :=
  (List.range 48).filter (fun k =>
    t.progs.any (fun g => decide (k < g.ridges)) || t.wsets.any (fun w => w.golden.any (fun g => g.ridge = (t.ridgeMap.getD k 0xFF).toNat)))
/-- A map names only owned ridges, none twice (R55). -/
def mapOk (t : Part) (m : List Byte) : Bool :=
  let named := (m.filter (fun b => b ≠ 0xFF)).map (fun b => b.toNat)
  named.all (fun r => decide (r < 48) && t.ridges.toNat.testBit r) && named.Nodup
/-- What RIDGE_MAP asks for. -/
def ridgeMapKind : CmdKind := { setKind 0x0B true with needPart := true }
/-- Checks of RIDGE_MAP. -/
def ridgeMapChecks (s : State) (c : Cmd) : List (Bool × Nat) :=
  let t := getP s c.part
  let m := dataIn s c 48
  [(dataShort c 48 || !mapOk t m, stField), ((mapUsed t).any (fun k => m.getD k 0xFF ≠ t.ridgeMap.getD k 0xFF), stBusy)]
/-- RIDGE_MAP (R55). -/
def execRidgeMap (q : QId) (cid : W16) (s : State) : Out :=
  withCmd s q cid ridgeMapKind (ridgeMapChecks s) (fun c => complete (updP s c.part (fun t => { t with ridgeMap := dataIn s c 48 })) c stSuccess 0)

/-! ### GET_FEATURE -/

/-- A partition in confidential mode exists (R402). -/
def confidentialState (s : State) : Bool := (liveParts s).any confidential
def debugState (s : State) : Bool := (liveParts s).any debugMode
/-- THERMAL_STATE (R121). -/
def thermalBytes (s : State) (shown : RMask) : List Byte :=
  let conf := confidentialState s
  let est (r : Nat) : Int := if conf then tget 0 s.thermal.confEst r else estUsed s r
  let rs := bitList shown
  let entry (r : Nat) : Nat :=
    let duty := if s.pmu.peak.isSome || tget false s.pmu.crit r || s.pmu.inputLow then 0 else dutyOf s r
    ofSigned 16 (est r) + duty * 2 ^ 16 + boolBit true 24 + boolBit (tget false s.pmu.crit r) 25 + boolBit (tget Bench.reset s.thermal.bench r).active 26
  layFields 256 ([(0, 2, ofSigned 16 (anchorOf s)), (2, 1, boolBit (!estFresh s) 0 + boolBit conf 1 + boolBit (inletStale s) 2), (3, 1, s.pmu.op),
      (4, 2, ofSigned 16 (match rs with
        | [] => 0
        | r :: l => l.foldl (fun a k => max a (est k)) (est r)))] ++ rs.map (fun r => (0x10 + 4 * r, 4, entry r)))
/-- The starvation flag vector as the host reads it (R273, R402). -/
def flagVector (s : State) (cls inst : Nat) : Nat :=
  (((arbOf s cls inst).flags.filter (fun x => x.2 && !starveHidden s cls x.1)).map (fun x => 2 ^ x.1)).foldl (· + ·) 0
/-- A weight as last set (R271). -/
def weightSet (s : State) (cls inst i : Nat) : Nat :=
  match tfind (arbOf s cls inst).newWeight i with
  | some w => w - 1
  | none => weightOf (arbOf s cls inst).weight cls i
/-- The statuses of GET_FEATURE for a feature and SELECT (R313). -/
def getChecks (s : State) (c : Cmd) : List (Bool × Nat) :=
  let fid := cmdFld c 0x18 2
  let v := cmdValue c
  let vf := !viaPf0 c
  [(fid = 0 || decide (0x0B < fid), stField), (vf && (fid = 1 || fid = 3 || (decide (5 ≤ fid) && decide (fid ≤ 8)) || fid = 0x0A), stPermit),
    (fid = 5 && !arbNamed v, stField), (fid = 7 && !arbPlace v, stField),
    (fid = 0x0A && (v &&& ~~~ 0xF00) ≠ 0, stField), (fid = 0x0A && (getP s (bits v 11 8)).st = .free, stState),
    (fid = 0x0B && decide (16 ≤ c.part), stField), (fid = 0x0B && decide (c.part < 16) && (getP s c.part).st ≠ .active, stState)]
/-- What GET_FEATURE answers: RESULT, and data (DESIGN CHOICE, notes/assumptions/52). -/
def getAnswer (s : State) (c : Cmd) : Nat × List Byte :=
  let v := cmdValue c
  match cmdFld c 0x18 2 with
  | 1 => (s.pmu.progPower, [])
  | 2 => (if viaPf0 c then s.integ.surveyPolicy.toNat else (getP s c.part).survey.toNat, [])
  | 3 => (s.thermal.policy.toNat, [])
  | 4 => (0, thermalBytes s (if viaPf0 c then maskOf 48 (List.range 48) else (getP s c.part).ridges))
  | 5 => ((bits v 31 14) * 2 ^ 14 + weightSet s (bits v 31 29) (if bits v 28 21 = 0xFF then 0 else bits v 28 21) (bits v 20 14) * 2 ^ 10, [])
  | 6 => (s.starveLimit, [])
  | 7 => (0, leBytes 16 (flagVector s (bits v 31 29) (bits v 28 21)))
  | 8 => (s.col.win0.next * 2 ^ 24 + s.col.win1.next * 2 ^ 16 + s.col.win2.next * 2 ^ 8, [])
  | 9 => (if viaPf0 c then s.integ.probePolicy.toNat else s.integ.probePolicy.toNat / 2 ^ 17 * 2 ^ 17 + (getP s c.part).probeInterval, [])
  | 0x0A => (bits v 11 8 * 2 ^ 8 + portCode (getP s (bits v 11 8)).port, [])
  | 0x0B => (0, (getP s c.part).ridgeMap)
  | _ => (0, [])
/-- What GET_FEATURE asks for. -/
def getFeatureKind : CmdKind := kindOf 0x04 [(0x18, 2), (0x1C, 4)]
/-- GET_FEATURE (R313). -/
def execGetFeature (q : QId) (cid : W16) (s : State) : Out :=
  withCmd s q cid getFeatureKind (getChecks s) (fun c => completeOut s c (getAnswer s c).2 (getAnswer s c).1)

/-! ### Event masks, inlet temperature, power cap -/

/-- What EVENT_CONFIG asks for. -/
def eventConfigKind : CmdKind := kindOf 0x58 [(0x18, 4), (0x1C, 2)]
/-- Checks of EVENT_CONFIG (DESIGN CHOICE, notes/assumptions/52). -/
def eventConfigChecks (_ : State) (c : Cmd) : List (Bool × Nat) := [(!viaPf0 c && cmdFld c 0x1C 2 ≠ 0, stPermit)]
/-- EVENT_CONFIG, admitted. -/
def eventConfigDo (s : State) (c : Cmd) : State :=
  complete (updFn s c.port c.fn (fun r => { r with
  evtMask := BitVec.ofNat 32 (cmdFld c 0x18 4), pmask := if viaPf0 c then BitVec.ofNat 16 (cmdFld c 0x1C 2) else r.pmask })) c stSuccess 0
/-- EVENT_CONFIG: a function's mask on its port; PMASK through PF0 alone (R312, R320). -/
def execEventConfig (q : QId) (cid : W16) (s : State) : Out :=
  withCmd s q cid eventConfigKind (eventConfigChecks s) (eventConfigDo s)

/-- What THERMAL_INLET asks for. -/
def thermalInletKind : CmdKind := adminKind 0x71 [(0x18, 2)]
/-- Checks of THERMAL_INLET. -/
def thermalInletChecks (_ : State) (c : Cmd) : List (Bool × Nat) := [(decide (960 < cmdFld c 0x18 2), stField)]
/-- THERMAL_INLET, admitted. -/
def thermalInletDo (s : State) (c : Cmd) : State :=
  complete { s with thermal := { s.thermal with
  inlets := (s.now, (cmdFld c 0x18 2 : Int)) :: s.thermal.inlets.filter (fun v => decide (s.now ≤ v.1 + 2 ^ 33)), staleSaid := false } } c stSuccess 0
/-- THERMAL_INLET: 0 to 60 degrees in 1/16 degree (R110). -/
def execThermalInlet (q : QId) (cid : W16) (s : State) : Out :=
  withCmd s q cid thermalInletKind (thermalInletChecks s) (thermalInletDo s)

/-- A POWER event of the PMU (R460). -/
def powerEvent (s : State) (cause dom rail mv : Nat) : State :=
  raise s srcPmu 0x08 cause 0xFF
    (layFields 32 [(0, 1, dom), (1, 1, rail), (4, 2, mv), (6, 1, s.pmu.resetCause), (8, 2, s.pmu.cap)])
/-- Status of a power domain (R446, R448). -/
def domCode (d : Dom) : Nat :=
  match d.st with
  | .fault => 6
  | .off => if d.target then 4 else 0
  | .poweringUp => if d.target then 1 else 5
  | .on => if d.target then 2 else 5
  | .poweringDown => if d.target then 4 else 3
/-- Input power as reported: in confidential state a multiple of 4 W, refreshed at POWER_REPORT markers (R402, R451) (DESIGN CHOICE, notes/assumptions/45). -/
def powerShown (s : State) : Nat := if confidentialState s then (s.pmu.confMw + 2000) / 4000 * 4000 else meanMw s.pmu.frames
/-- The POWER_CAP report (R451). -/
def capBytes (s : State) : List Byte :=
  layFields 512 ([(0, 2, s.pmu.cap), (2, 2, s.pmu.mv), (4, 4, powerShown s), (8, 1, s.pmu.op), (9, 1, s.pmu.resetCause), (0x0A, 2, vcoreMv s.pmu.op), (0x0C, 2, Config.vop0Mv)] ++
    (List.range 212).map (fun d => (0x40 + d, 1, domCode (tget .reset s.pmu.dom d))))
/-- What POWER_CAP asks for. -/
def powerCapKind : CmdKind := adminKind 0x70 [(0x18, 2)]
/-- Checks of POWER_CAP. -/
def powerCapChecks (_ : State) (c : Cmd) : List (Bool × Nat) := [(cmdFld c 0x18 2 ≠ 0 && !inRange (cmdFld c 0x18 2) 60 300, stField)]
/-- POWER_CAP, admitted. -/
def powerCapDo (s : State) (c : Cmd) : State :=
  let w := cmdFld c 0x18 2
  let s1 := if w = 0 then s else powerEvent { s with pmu := { s.pmu with cap := w } } 0x05 0xFF 0xFF s.pmu.mv
  let s2 := if dataShort c 512 then s1 else hostWrite s1 c.port (cmdPtr c) (capBytes s1)
  complete s2 c stSuccess s1.pmu.cap
/-- POWER_CAP (R451). -/
def execPowerCap (q : QId) (cid : W16) (s : State) : Out :=
  withCmd s q cid powerCapKind (powerCapChecks s) (powerCapDo s)

end Sys2Proof.Machine
end

