-- ==== Sys2Proof/Machine/Clay.lean ====
section
/-!
DEFINITION. The Clay store (R418 to R439): its layout, the controller's group writes and their order, the record layer's updates and reads with their repairs and replacements, host access under passwords and block protect, the failure log and its export as CPER records (R385 to R388).
-/

namespace Sys2Proof.Machine

/-! ### Where records lie (R418, R435 to R437) -/

/-- First store byte of a class's table, and the distance from copy 0 to copy 1; the guard block lies outside the map (DESIGN CHOICE, notes/assumptions/53). -/
def clsPlace (cls : Nat) : Nat × Nat :=
  match cls with
  | 0x08 => (64 * 64, 2048)
  | 0x09 => (128 * 64, 28672)
  | 0x0A => (1024 * 64, 24576)
  | 0x0B => (1792 * 64, 57344)
  | 0x10 => (4096 * 64, 78336)
  | 0x11 => (6544 * 64, 512)
  | 0x12 => (16384 * 64, 128)
  | _ => (80 * (cls - 1), 2048)
/-- Payload groups of a class. -/
def recGroups (cls : Nat) : Nat := (recLen cls + 15) / 16
def copySize (cls : Nat) : Nat := 16 * (recGroups cls + 1)
/-- First store byte of a copy. -/
def copyAddr (cls idx k : Nat) : Nat := (clsPlace cls).1 + (clsPlace cls).2 * k + (if 8 ≤ cls then copySize cls * idx else 0)
/-- A record's payload as a copy holds it, padded to whole groups. -/
def copyData (cls idx : Nat) (c : Copy) : List Byte :=
  bytesAt (c.data.getD ((List.range (recLen cls)).map (Config.prodByte cls idx))) 0 (16 * recGroups cls)
/-- A copy's bytes, trailer last (R432). -/
def copyBytes (cls idx : Nat) (c : Copy) : List Byte :=
  let d := copyData cls idx c
  let t := layFields 16 [(0, 4, c.seq.toNat), (8, 2, recLen cls), (0x0A, 2, cls), (0x0F, 1, if c.committed then 0xC3 else 0)]
  let crc := (crc32c (d ++ bytesAt t 0 4 ++ bytesAt t 8 4)).toNat
  d ++ overlay t 4 (leBytes 4 (if c.crcOk then crc else crc ^^^ 1))
/-- A failure-log entry's 128 bytes (R437). -/
def logBytes (r : LogRec) : List Byte :=
  let a := layFields 16 [(0, 8, r.seq), (8, 1, r.severity)]
  let b := bytesAt r.sect 0 96 ++ zeros 16
  let crc := (crc32c (bytesAt a 0 12 ++ b)).toNat
  overlay a 12 (leBytes 4 (if r.bad then crc ^^^ 1 else crc)) ++ b
/-- Class and index of the copy that holds a byte of Q0 or Q1, and which copy. -/
def recAt (a : Nat) : Option (Nat × Nat × Nat) :=
  ([1, 2, 3, 4, 5, 6, 7, 8, 9, 10, 11, 0x10, 0x11] : List Nat).findSome? (fun cls =>
    [0, 1].findSome? (fun k =>
      let b := copyAddr cls 0 k
      let n := copySize cls * recCount cls
      if b ≤ a && a < b + n then some (cls, (a - b) / copySize cls, k) else none))
/-- A byte of the store (R418, R435 to R437); what no record covers in Q0 and Q1 reads 0. -/
def storeByte (s : State) (a : Nat) : Byte :=
  if 8192 * 64 ≤ a then tget 0 s.clay.bytes a
  else if 6560 * 64 ≤ a then
    match s.integ.log.find? (fun r => r.seq % 816 = (a - 6560 * 64) / 128) with
    | some r => (logBytes r).getD ((a - 6560 * 64) % 128) 0
    | none => 0
  else
    match recAt a with
    | some (cls, idx, k) =>
      let v := getRec s cls idx
      (copyBytes cls idx (if k = 0 then v.c0 else v.c1)).getD (a - copyAddr cls idx k) 0
    | none => 0
def storeBytes (s : State) (a n : Nat) : List Byte := (List.range n).map (fun i => storeByte s (a + i))
/-- A group reads UE (R419). -/
def groupUe (s : State) (a : Nat) : Bool := tget false s.clay.ue (a / 16)
def setUe (s : State) (a : Nat) (v : Bool) : State := { s with clay := { s.clay with ue := tset false s.clay.ue (a / 16) v } }
/-- No group of a range reads UE any more. -/
def clearUe (s : State) (a n : Nat) : State :=
  { s with clay := { s.clay with ue := s.clay.ue.filter (fun x => !(decide (a / 16 ≤ x.1) && decide (x.1 < (a + n) / 16))) } }

/-! ### Events (R439) -/

def clayEvent (s : State) (cause page mask cls idx : Nat) (s0 s1 : W32) : State :=
  raise s srcClay 0x0F cause 0xFF (clayPayload page mask cls idx s0 s1)
/-- A coalesced CLAY event. -/
def clayCoal (s : State) (cause page mask cls idx : Nat) (s0 s1 : W32) : State :=
  raiseCoal s 2 8 0 (mkEv 0x0F cause srcClay 0xFF (clayPayload page mask cls idx s0 s1))

/-! ### Group writes (R421, R433) -/

/-- A writer's place in the controller's order. -/
def writerRank : Writer → Nat
  | .record 0x10 _ _ _ => 1
  | .record _ _ _ _ => 2
  | .zero _ _ _ => 3
  | .host _ _ _ _ _ _ => 4
/-- The writer whose group is written next: the one that has begun, else the first of the lowest rank. -/
def nextWriter (s : State) : Option Writer :=
  match s.clay.writers.find? writerMid with
  | some w => some w
  | none => s.clay.writers.find? (fun w => s.clay.writers.all (fun v => decide (writerRank w ≤ writerRank v)))
/-- Puts a writer in the place of one that has done a group; none removes it. -/
def replaceWriter (s : State) (w : Writer) (v : Option Writer) : State :=
  let rec go : List Writer → List Writer
    | [] => []
    | x :: t => if x = w then (match v with
        | some y => y :: t
        | none => t) else x :: go t
  { s with clay := { s.clay with writers := go s.clay.writers } }

/-- SEQ of a record's next update (R433): one above the SEQ resolved. -/
def nextSeq (v : Rec) : W32 := ((resolveRec v).1.map (fun c => c.seq)).getD 0 + 1
/-- The n-th group write of an update, on one copy (R433): open trailer, payload groups, committed trailer. -/
def writeCopy (cls idx : Nat) (data : List Byte) (seq : W32) (n : Nat) (c : Copy) : Copy :=
  if n = 0 then { c with seq := seq, committed := false, ue := false, crcOk := false }
  else if n ≤ recGroups cls then
    { c with data := some (overlay (copyData cls idx c) (16 * (n - 1)) ((bytesAt data 0 (16 * recGroups cls)).drop (16 * (n - 1)) |>.take 16)) }
  else { seq := seq, committed := true, ue := false, crcOk := true, data := some (bytesAt data 0 (recLen cls)) }
/-- The store byte of a record update's n-th group. -/
def recordGroup (cls idx n : Nat) : Nat :=
  let m := recGroups cls + 2
  let k := n % m
  copyAddr cls idx (n / m) + 16 * (if k = 0 || k = m - 1 then recGroups cls else k - 1)
/-- One group of a record update. -/
def recordStep (s : State) (cls idx : Nat) (data : List Byte) (n : Nat) : State :=
  let m := recGroups cls + 2
  let v := getRec s cls idx
  let s1 := setUe s (recordGroup cls idx n) false
  if n < m then setRec s1 cls idx { v with c0 := writeCopy cls idx data (if n = 0 then nextSeq v else v.c0.seq) n v.c0 }
  else setRec s1 cls idx { v with c1 := writeCopy cls idx data v.c0.seq (n - m) v.c1 }
/-- Store byte of the group that a writer writes next. -/
def writerGroup : Writer → Nat
  | .record cls idx _ n => recordGroup cls idx n
  | .zero q page n => (q * 4096 + page) * 64 + 16 * n
  | .host _ _ page _ _ n => page * 64 + 16 * n
/-- A quarter has been zeroed: the scrub that waited for it goes on. -/
def quarterDone (s : State) (q : Nat) : State :=
  (List.range 16).foldl (fun s p =>
    if (getP s p).st = .scrubbing && (getP s p).scrubClay.contains q then scrubSettle (updP s p (fun t => { t with scrubClay := t.scrubClay.filter (· ≠ q) })) p
    else s) s
/-- One group write has verified (R421). -/
def groupWritten (s : State) (w : Writer) : State :=
  match w with
  | .record cls idx data n =>
    let s1 := recordStep s cls idx data n
    replaceWriter s1 w (if n + 1 = 2 * (recGroups cls + 2) then none else some (.record cls idx data (n + 1)))
  | .zero q page n =>
    let a := writerGroup w
    let s1 := setUe { s with clay := { s.clay with bytes := tsetRun 0 s.clay.bytes a (zeros 16) } } a false
    if n < 3 then replaceWriter s1 w (some (.zero q page (n + 1)))
    else if page < 4095 then replaceWriter s1 w (some (.zero q (page + 1) 0))
    else wholeSettle (quarterDone (replaceWriter s1 w none) q)
  | .host q cid page pages data n =>
    let a := writerGroup w
    let s1 := setUe { s with clay := { s.clay with bytes := tsetRun 0 s.clay.bytes a (bytesAt data (16 * n) 16) } } a false
    if n + 1 = 4 * pages then completeAt (replaceWriter s1 w none) q cid stSuccess 0
    else replaceWriter s1 w (some (.host q cid page pages data (n + 1)))
/-- The store can write: powered, not inhibited, out of reset. -/
def clayLive (s : State) : Bool := awake s && !s.clay.inhibit
/-- CLAY_GROUP_WRITE_DONE. -/
def execClayGroupWriteDone (s : State) : Out :=
  match nextWriter s with
  | some w => if clayLive s then .next (groupWritten s w) else .next s
  | none => .next s

/-- What a power loss makes of the group in flight, and of every writer (R430, R431): all old, all new, or UE; which is open. -/
def clayCut (s : State) : State :=
  let s1 := match nextWriter s with
    | none => s
    | some w =>
      if Config.either s.free then groupWritten s w
      else if Config.either (s.free + 1) then
        let s2 := setUe s (writerGroup w) true
        (match w with
          | .record cls idx _ n =>
            let v := getRec s2 cls idx
            if n < recGroups cls + 2 then setRec s2 cls idx { v with c0 := { v.c0 with ue := true } } else setRec s2 cls idx { v with c1 := { v.c1 with ue := true } }
          | _ => s2)
      else s
  let s3 := { s1 with free := s.free + 2 }
  { s3 with clay := { s3.clay with writers := [] } }

/-! ### Records (R433, R434, R438) -/

/-- Prorvafort is up far enough to keep records. -/
def fwUp (s : State) : Bool := awake s && (s.cmc.fw = .running || s.cmc.fw = .starting)
/-- CLAY_RECORD_UPDATE (R433): the update joins the controller's queue. -/
def execClayRecordUpdate (cls idx : Nat) (data : List Byte) (s : State) : Out :=
  if fwUp s && (decide (1 ≤ cls) && decide (cls ≤ 0x0B) || cls = 0x10 || cls = 0x11) && decide (idx < recCount cls) && decide (data.length ≤ recLen cls) then
    .next (queueRec s cls idx data)
  else .next s

/-- Every ridge's field margin test is due at once (R438). -/
def allTestsDue (s : State) : State :=
  (List.range 48).foldl (fun s r => updR s r (fun rd => { rd with test := { rd.test with nextDue := s.now } })) s
/-- The highest program count among a ridge's other tiles. -/
def maxCount (s : State) (r t : Nat) : Nat :=
  ((getR s r).tiles.filter (fun x => x.1 ≠ t)).foldl (fun a x => max a x.2.jr.count) 0
/-- FAILED ridges as a record payload (R382, R435). -/
def failedBytes (s : State) : List Byte := layFields 64 [(0, 8, (ridgeMask s (fun rd => rd.failed)).toNat)]
/-- The replacement of an absent record (R438). -/
def replaceRec (s : State) (cls idx : Nat) : State :=
  match cls with
  | 0x01 => queueRec s cls idx (serialBytes ++ zeros 48)
  | 0x02 =>
    let b := BitVec.ofNat 32 (Config.trng s.sec.draws).toNat
    queueRec { s with links := { s.links with boot := b }, sec := { s.sec with draws := s.sec.draws + 1 } } cls idx (layFields 64 [(0, 4, b.toNat)])
  | 0x03 => queueRec s cls idx (layFields 64 [(0, 2, s.pins.ids.toNat)])
  | 0x04 => queueRec { s with sec := { s.sec with selB := false } } cls idx (zeros 64)
  | 0x05 => queueRec (allTestsDue s) cls idx (failedBytes s)
  | 0x06 => queueRec s cls idx (layFields 64 [(0, 1, 1)])
  | 0x07 => queueRec (allTestsDue s) cls idx (zeros 64)
  | 0x09 =>
    let s1 := updR s idx (fun rd => { rd with failed := true })
    queueRec s1 clsFailed 0 (failedBytes s1)
  | 0x0A => { s with thermal := { s.thermal with modelOn := false, hot := true } }
  | 0x0B =>
    let s1 := updR s idx (fun rd => { rd with map := mapIdentity, tiles := rd.tiles.map (fun x => (x.1, { x.2 with belay := [] })) })
    commitMaps ((List.range 34).foldl (fun s t => setJournal s idx t (fun j => { j with state := .dirty })) s1) idx
  | 0x10 =>
    let n := maxCount s (idx / 34) (idx % 34)
    setJournal s (idx / 34) (idx % 34) (fun j => { j with state := .dirty, count := n })
  | 0x11 =>
    let all := maskOf 48 (List.range 48)
    queueRec { s with cmc := { s.cmc with scrubPending := all, scrubTiles := (List.range 48).flatMap ridgeTiles } } cls idx (layFields 64 [(0, 8, all.toNat)])
  | 0x12 => { s with clay := { s.clay with guardLost := true } }
  | _ => s
/-- A record is read: its copies are resolved and repaired, an absent one replaced (R434, R438). -/
def readRec (s : State) (cls idx : Nat) : State :=
  let v := getRec s cls idx
  let (c, v1, ev) := resolveRec v
  let page := copyAddr cls idx 0 / 64
  match c with
  | none => replaceRec (clayEvent s 0x03 page 0 cls idx v.c0.seq v.c1.seq) cls idx
  | some _ =>
    let s1 := if v1 = v then s else clearUe (clearUe (setRec s cls idx v1) (copyAddr cls idx 0) (copySize cls)) (copyAddr cls idx 1) (copySize cls)
    match ev with
    | 1 => clayEvent s1 0x01 page 0 cls idx v.c0.seq v.c1.seq
    | 2 => clayCoal s1 0x02 page 0 cls idx v.c0.seq v.c1.seq
    | _ => s1
/-- An update of this record is under way. -/
def recBusy (s : State) (cls idx : Nat) : Bool := s.clay.writers.any (fun w => match w with
  | .record c i _ _ => c = cls && i = idx
  | _ => false)
/-- CLAY_RECORD_READ (R434). -/
def execClayRecordRead (cls idx : Nat) (s : State) : Out :=
  if fwUp s && (decide (1 ≤ cls) && decide (cls ≤ 0x0B) || cls = 0x10 || cls = 0x11 || cls = clsGuard) && decide (idx < recCount cls) && !recBusy s cls idx then
    .next (readRec s cls idx)
  else .next s
/-- The payload that a record holds, as resolved; none where production's bytes or nothing stand there. -/
def recPayload (s : State) (cls idx : Nat) : Option (List Byte) := ((resolveRec (getRec s cls idx)).1).bind (fun c => c.data)

/-! ### The failure log (R385, R437) -/

/-- FAILURE_LOG_WRITE: the oldest waiting entry takes its slot of 816 when no update is under way and no journal update waits (DESIGN CHOICE, notes/assumptions/53). -/
def execFailureLogWrite (s : State) : Out :=
  match s.integ.waitingLog with
  | [] => .next s
  | r :: t =>
    if clayLive s && !s.clay.writers.any writerMid && !s.clay.writers.any (fun w => writerRank w = 1) then
      let s1 := clearUe s ((6560 + 2 * (r.seq % 816)) * 64) 128
      .next { s1 with integ := { s1.integ with waitingLog := t, log := s1.integ.log.filter (fun x => x.seq % 816 ≠ r.seq % 816) ++ [r] } }
    else .next s

/-- CPER severity codes of Appendix N for those of R437 (PRESUMED, notes/assumptions/54). -/
def cperSeverity (v : Nat) : Nat :=
  match v with
  | 0 => 2
  | 1 => 0
  | 2 => 1
  | _ => 3
def cperCreator : List Byte := [0x70, 0x4C, 0x9B, 0x2E, 0xFA, 0x61, 0x38, 0x4D, 0x8B, 0x52, 0xC0, 0x3A, 0x97, 0xE1, 0xD4, 0xF5]
def cperSectionType : List Byte := [0x87, 0x2A, 0x1C, 0x5F, 0xD4, 0x93, 0x6E, 0x4B, 0xA0, 0xC2, 0x7E, 0x8D, 0x14, 0xB9, 0x5A, 0x36]
/-- "HV812-S" or "HV812-E" by the VARIANT fuse (R296). -/
def fruString : List Byte := [0x48, 0x56, 0x38, 0x31, 0x32, 0x2D, if bits Config.hbIdLow 11 8 = 1 then 0x45 else 0x53]
/-- A CPER record of 296 bytes (R387) (PRESUMED, notes/assumptions/54). -/
def cperBytes (r : LogRec) : List Byte :=
  let sev := cperSeverity r.severity
  let h := overlay (overlay (overlay (layFields 128 [(10, 2, 1), (12, 4, sev), (16, 4, 1), (20, 4, 296), (96, 8, r.seq)]) 32 serialBytes) 64 cperCreator) 80 cperCreator
  let d := overlay (overlay (overlay (layFields 72 [(0, 4, 200), (4, 4, 96), (10, 1, 3), (48, 4, sev)]) 16 cperSectionType) 32 serialBytes) 52 fruString
  h ++ d ++ bytesAt r.sect 0 96
/-- Valid entries from a LOG_SEQ on, in order. -/
def logFrom (s : State) (n : Nat) : List LogRec :=
  let ok := s.integ.log.filter (fun r => decide (n ≤ r.seq) && !r.bad && !(List.range 8).any (fun g => groupUe s ((6560 + 2 * (r.seq % 816)) * 64 + 16 * g)))
  sortBy (fun a b => decide (a.seq ≤ b.seq)) ok
/-- The oldest LOG_SEQ still held. -/
def logOldest (s : State) : Nat := match logFrom s 0 with
  | r :: _ => r.seq
  | [] => s.integ.nextLog
/-- What LOG_EXPORT asks for. -/
def logExportKind : CmdKind := adminKind 0x59 [(0x18, 8)]
/-- LOG_EXPORT, admitted. -/
def logExportDo (s : State) (c : Cmd) : State :=
  let start := max (cmdFld c 0x18 8) (logOldest s)
  let l := (logFrom s start).take (if cmdPtr c = 0 then 0 else cmdLen c / 296)
  let next := match l.getLast? with
    | some r => r.seq + 1
    | none => start
  complete2 (hostWrite s c.port (cmdPtr c) (l.flatMap cperBytes)) c stSuccess next (logOldest s)
/-- LOG_EXPORT (R386). -/
def execLogExport (q : QId) (cid : W16) (s : State) : Out :=
  withCmd s q cid logExportKind (fun _ => []) (logExportDo s)

/-! ### Host access (R423 to R431) -/

/-- The partition that a quarter is granted to. -/
def quarterOwner (s : State) (q : Nat) : Option Nat :=
  (List.range 16).find? (fun p => (getP s p).st ≠ .free && (getP s p).pflags.toNat.testBit q)
/-- R423: the function may reach the quarter. -/
def quarterPermits (s : State) (c : Cmd) (q : Nat) (write : Bool) : Bool :=
  if q < 2 then !write && viaPf0 c && !confidentialState s
  else match quarterOwner s q with
    | some p => !viaPf0 c && c.part = p
    | none => viaPf0 c
/-- A page is protected against host writes (R429). -/
def pageProtected (v : Byte) (page : Nat) : Bool :=
  let q := page / 4096
  match v.toNat % 4 with
  | 0 => false
  | 1 => if v.toNat.testBit 2 then q = 0 else q = 3
  | 2 => if v.toNat.testBit 2 then decide (q < 2) else decide (2 ≤ q)
  | _ => true
def readGate (s : State) : Bool := s.clay.readPw = 0 || s.clay.readOpen
def writeGate (s : State) : Bool := s.clay.writePw = 0 || s.clay.writeOpen
/-- The store answers hosts (R427, R438). -/
def storeBarred (s : State) : Bool := s.clay.locked || s.clay.guardLost
/-- The checks of R424 but the last, in order. -/
def clayChecks (s : State) (c : Cmd) (write : Bool) : List (Bool × Nat) :=
  let page := cmdFld c 0x18 2
  let n := cmdFld c 0x1A 2
  [(!inRange n 1 256 || decide (16384 ≤ page) || decide (page / 4096 ≠ (page + n - 1) / 4096), stField), (!quarterPermits s c (page / 4096) write, stPermit),
    (storeBarred s || !(if write then writeGate s else readGate s), stAuth), (write && (List.range n).any (fun i => pageProtected s.clay.protect (page + i)), stPermit)]
def clayKind (op : Nat) : CmdKind := kindOf op [(0x18, 2), (0x1A, 2)]
/-- The first page of a range with a group that reads UE. -/
def uePage (s : State) (page n : Nat) : Option Nat :=
  ((List.range n).map (fun i => page + i)).find? (fun p => (List.range 4).any (fun g => groupUe s (64 * p + 16 * g)))
/-- What CLAY_READ asks for. -/
def clayReadKind : CmdKind := clayKind 0x48
/-- Checks of CLAY_READ. -/
def clayReadChecks (s : State) (c : Cmd) : List (Bool × Nat) := clayChecks s c false
/-- CLAY_READ, admitted. -/
def clayReadDo (s : State) (c : Cmd) : State :=
  let page := cmdFld c 0x18 2
  let n := cmdFld c 0x1A 2
  if dataShort c (64 * n) then complete s c stResource (64 * n)
  else match uePage s page n with
    | none => completeOut s c (storeBytes s (64 * page) (64 * n)) 0
    | some p =>
      let m := (maskOf 4 ((List.range 4).filter (fun g => groupUe s (64 * p + 16 * g)))).toNat
      complete (clayCoal (hostWrite s c.port (cmdPtr c) (storeBytes s (64 * page) (64 * (p - page)))) 0x04 p m 0 0 0 0) c stIntegrity (p + m * 2 ^ 16)
/-- CLAY_READ (R419, R424). -/
def execClayRead (q : QId) (cid : W16) (s : State) : Out :=
  withOrdered s q cid clayReadKind (clayReadChecks s) (clayReadDo s)
/-- What CLAY_WRITE asks for. -/
def clayWriteKind : CmdKind := clayKind 0x49
/-- Checks of CLAY_WRITE. -/
def clayWriteChecks (s : State) (c : Cmd) : List (Bool × Nat) := clayChecks s c true
/-- CLAY_WRITE, admitted. -/
def clayWriteDo (s : State) (c : Cmd) : State :=
  let n := cmdFld c 0x1A 2
  if dataShort c (64 * n) then complete s c stResource 0
  else
    let s1 := startCmd s c
    { s1 with clay := { s1.clay with writers := s1.clay.writers ++ [.host c.q c.cid (cmdFld c 0x18 2) n (dataIn s c (64 * n)) 0] } }
/-- CLAY_WRITE: the command waits for its groups (R421, R424). -/
def execClayWrite (q : QId) (cid : W16) (s : State) : Out :=
  withOrdered s q cid clayWriteKind (clayWriteChecks s) (clayWriteDo s)

/-- The guard block as a record (R425, R428). -/
def guardBytes (s : State) : List Byte := layFields 64 [(0, 8, s.clay.readPw.toNat), (8, 8, s.clay.writePw.toNat), (16, 1, s.clay.protect.toNat)]
def saveGuard (s : State) : State := queueRec s clsGuard 0 (guardBytes s)
/-- A wrong password (R426, R427). -/
def passwordFail (s : State) : State :=
  let n := s.clay.mismatches + 1
  let s1 := clayCoal { s with clay := { s.clay with mismatches := n } } 0x05 0 0 0 0 0 0
  if n = 8 then clayEvent { s1 with clay := { s1.clay with locked := true, readOpen := false, writeOpen := false } } 0x06 0 0 0 0 0 0 else s1
/-- The password that a KIND compares. -/
def unlockPw (s : State) (kind : Nat) : W64 := if kind = 0 then s.clay.readPw else s.clay.writePw
/-- What a right password does (R426). -/
def unlockDo (s : State) (kind : Nat) (new : W64) : State :=
  let s1 := { s with clay := { s.clay with mismatches := 0 } }
  match kind with
  | 0 => { s1 with clay := { s1.clay with readOpen := true } }
  | 1 => { s1 with clay := { s1.clay with writeOpen := true } }
  | 2 => clayEvent (saveGuard { s1 with clay := { s1.clay with readPw := new, readOpen := false, writeOpen := false } }) 0x08 0 0 0 0 0 0
  | _ => clayEvent (saveGuard { s1 with clay := { s1.clay with writePw := new, readOpen := false, writeOpen := false } }) 0x08 0 0 0 0 0 0
/-- What CLAY_UNLOCK asks for. -/
def clayUnlockKind : CmdKind := adminKind 0x4A [(0x18, 1), (0x20, 8), (0x28, 8)]
/-- Checks of CLAY_UNLOCK. -/
def clayUnlockChecks (s : State) (c : Cmd) : List (Bool × Nat) :=
  let k := cmdFld c 0x18 1
  [(decide (4 < k), stField), (k ≠ 2 && k ≠ 3 && cmdFld c 0x28 8 ≠ 0, stField), (storeBarred s, stAuth)]
/-- CLAY_UNLOCK, admitted. -/
def clayUnlockDo (s : State) (c : Cmd) : State :=
  let k := cmdFld c 0x18 1
  if k = 4 then complete { s with clay := { s.clay with readOpen := false, writeOpen := false } } c stSuccess 0
  else if cmdFld c 0x20 8 = (unlockPw s k).toNat then complete (unlockDo s k (BitVec.ofNat 64 (cmdFld c 0x28 8))) c stSuccess 0
  else complete (passwordFail s) c stAuth 0
/-- CLAY_UNLOCK (R426). -/
def execClayUnlock (q : QId) (cid : W16) (s : State) : Out :=
  withCmd s q cid clayUnlockKind (clayUnlockChecks s) (clayUnlockDo s)
/-- What CLAY_PROTECT asks for. -/
def clayProtectKind : CmdKind := adminKind 0x4B [(0x18, 1)]
/-- Checks of CLAY_PROTECT. -/
def clayProtectChecks (s : State) (c : Cmd) : List (Bool × Nat) :=
  let v := cmdFld c 0x18 1
  [(decide (v < 128) && decide (8 ≤ v), stField), (storeBarred s || (decide (v < 128) && !writeGate s), stAuth)]
/-- CLAY_PROTECT, admitted. -/
def clayProtectDo (s : State) (c : Cmd) : State :=
  let v := BitVec.ofNat 8 (cmdFld c 0x18 1)
  if 128 ≤ v.toNat || v = s.clay.protect then complete s c stSuccess s.clay.protect.toNat
  else complete (clayEvent (saveGuard { s with clay := { s.clay with protect := v } }) 0x07 0 0 0 0 0 0) c stSuccess v.toNat
/-- CLAY_PROTECT (R428). -/
def execClayProtect (q : QId) (cid : W16) (s : State) : Out :=
  withCmd s q cid clayProtectKind (clayProtectChecks s) (clayProtectDo s)

end Sys2Proof.Machine
end

