-- ==== Sys2Proof/Machine/Domains.lean ====
section
/-!
DEFINITION. Power domains (R443 to R448): their targets, sequences and order, and what a domain loses when it goes down.
-/

namespace Sys2Proof.Machine

def getDom (s : State) (d : Nat) : Dom := tget .reset s.pmu.dom d
def setDom (s : State) (d : Nat) (v : Dom) : State := { s with pmu := { s.pmu with dom := tset .reset s.pmu.dom d v } }
/-- Domains that must be ON before this one powers up (R445). -/
def earlierDoms (d : Nat) : List Nat := if d < 192 && decide (d % 4 < 2) then [d / 4 * 4 + 2, d / 4 * 4 + 3] else []
/-- Domains that must be OFF before this one powers down (R445). -/
def laterDoms (d : Nat) : List Nat := if d < 192 && decide (2 ≤ d % 4) then [d / 4 * 4, d / 4 * 4 + 1] else []
/-- A domain whose target differs from its state starts its sequence when the order permits (R445, R446). -/
def domStart (s : State) (d : Nat) : State :=
  let x := getDom s d
  if x.st = .off && x.target && (earlierDoms d).all (domOn s) then setDom s d { x with st := .poweringUp, since := s.now }
  else if x.st = .on && !x.target && (laterDoms d).all (fun e => (getDom s e).st = .off) then setDom s d { x with st := .poweringDown, since := s.now }
  else s
/-- A request: the target is the last one received (R446). -/
def powerRequest (s : State) (d : Nat) (on : Bool) : State := domStart (setDom s d { getDom s d with target := on }) d
/-- The four domains of a ridge, in power-up order. -/
def ridgeDoms (r : Nat) : List Nat := [4 * r + 2, 4 * r + 3, 4 * r + 1, 4 * r]
def ridgePower (s : State) (r : Nat) (on : Bool) : State := (ridgeDoms r).foldl (fun s d => powerRequest s d on) s
/-- Switches on the ridges of a mask that are not ON. -/
def powerRidges (s : State) (l : List Nat) : State := l.foldl (fun s r => if ridgeUp s r then s else ridgePower s r true) s

/-- A ridge whose Loam domain has powered up: zero bytes, zero tags (R447). -/
def freshLoam (rd : RidgeSt) : RidgeSt := { rd with loam := [], junk := [], poison := [], tags := [] }
/-- A ridge whose digital domain has powered up: every register and table at reset; what Prorvafort reloads, from its records, stays (R447). -/
def freshDigital (rd : RidgeSt) : RidgeSt :=
  { RidgeSt.reset with
    tiles := rd.tiles, map := rd.map, loam := rd.loam, junk := rd.junk, poison := rd.poison, tags := rd.tags, nextId := rd.nextId,
    test := rd.test, failed := rd.failed, degraded := rd.degraded, idleSince := rd.idleSince, refreshQ := rd.refreshQ }
/-- LCLK_RESTART marks the next event of a source (R281, R453). -/
def clockRestart (s : State) (src : Nat) : State := { s with col := { s.col with restarted := tset false s.col.restarted src true } }
/-- What a domain brings with it as it comes out of reset (R447, R453). -/
def domFresh (s : State) (d : Nat) : State :=
  if d < 192 then
    if d % 4 = 3 then updR s (d / 4) freshLoam
    else if d % 4 = 2 then clockRestart (updR s (d / 4) freshDigital) (d / 4)
    else s
  else if 202 ≤ d && d ≤ 205 then
    [2 * (d - 202), 2 * (d - 202) + 1].foldl (fun s n =>
      let e := (linkOf s n).enabled
      clockRestart (setLink s n { LinkSt.reset with enabled := e, st := if e then .training else .disabled }) (srcLink n)) s
  else s
/-- A sequence ends: the state is reached, and what waited for it starts (R444 to R446). -/
def domDone (s : State) (d : Nat) : State :=
  let x := getDom s d
  let s1 := match x.st with
    | .poweringUp => domFresh (setDom s d { x with st := .on, since := s.now }) d
    | .poweringDown => setDom s d { x with st := .off, since := s.now }
    | _ => s
  (if d < 192 then ridgeDoms (d / 4) else [d]).foldl domStart s1

end Sys2Proof.Machine
end

