-- ==== Sys2Proof/Machine/FieldTests.lean ====
section
/-!
DEFINITION. Field margin tests (R380 to R384) and FAILED ridges (R382).
-/

namespace Sys2Proof.Machine

/-- The jobs whose placement uses a ridge and that are on it, or saved off it. -/
def jobsOn (s : State) (r : Nat) : List Job :=
  s.jobs.filter (fun j => (getR s r).job = some (j.part, j.id) || (j.st = .saved && (needs s j).contains r))
/-- A ridge is FAILED (R382): recorded, switched off, its job ended with DEVICE_FAULT, every summary that names it reported (PRESUMED, notes/assumptions/54). -/
def failRidge (s : State) (r : Nat) : State :=
  if (getR s r).failed then s
  else
    let part := partByte s r
    let s1 := updR s r (fun rd => { rd with failed := true, degraded := true })
    let s2 := raiseCore (queueRec s1 clsFailed 0 (failedBytes s1)) 0x11 0x02 part (layFields 32 [(0, 1, r)])
    let s3 := (jobsOn s2 r).foldl (fun s j => match findJob s j.part j.id with
      | some k => endJob s k [stDevice]
      | none => s) s2
    let s4 := match ownerOf s3 r with
      | some p => ((getP s3 p).summaries.filter (fun m => m.ridges.toNat.testBit r)).foldl (fun s m => suspectEvent s p r 0xFF 0 (epochNow s) m.job) s3
      | none => s3
    ridgePower s4 r false

/-! ### Scheduling (R380, R381) -/

def testPeriod (s : State) : Nat := 2 ^ bits s.integ.probePolicy 29 24
def testGrace (s : State) : Nat := 2 ^ bits s.integ.probePolicy 23 18
/-- The ridge's estimate lies within 3 degrees of the highest (R380). -/
def testHot (s : State) (r : Nat) : Bool := decide (hottest s - estUsed s r ≤ 24)
/-- A TEST event (R384). -/
def testEvent (s : State) (r cause tests failed stress mv : Nat) (job : W32) (dur late : Nat) : State :=
  raiseCore s 0x0E cause (partByte s r)
    (layFields 32 [(0, 1, r), (1, 1, tests), (2, 1, failed), (3, 1, stress), (4, 2, ofSigned 16 (estUsed s r)), (6, 2, mv), (8, 4, job.toNat),
      (12, 4, dur / 1024), (16, 8, late)])
def updTest (s : State) (r : Nat) (f : TestSt → TestSt) : State := updR s r (fun rd => { rd with test := f rd.test })
/-- The test begins: the ridge is isolated, and surveys under way are requested again (R381). -/
def startTest (s : State) (r tests stress : Nat) (job : W32) : State :=
  let s1 := (((getR s r).tiles.filter (fun x => x.2.survey.isSome)).map (fun x => x.1)).foldl (fun s t => requestSurvey (endSurvey s r t) r t) s
  updTest s1 r (fun t => { t with running := true, tests := tests, started := s.now, job := job, stress := stress })
/-- A job is placed on the ridge. -/
def testJob (s : State) (r : Nat) : Option Job := jobOn s r
/-- The stress that a due test meets: rail and clock, and the hot point. -/
def testStress (s : State) (r : Nat) : Nat := if testHot s r then 7 else 3
/-- Starts a due test on a ridge without a job; a ridge that is off is switched on first. -/
def startDue (s : State) (r : Nat) (job : W32) : State :=
  if ridgeUp s r then startTest s r 15 (testStress s r) job else ridgePower s r true
/-- Pre-empts the job of a ridge and starts its test. -/
def preemptForTest (s : State) (r : Nat) (j : Job) : State := startDue (saveJob s j none) r j.id

/-- FIELD_TEST_DUE: the test falls due, and starts as soon as R380 and R381 let it. -/
def execFieldTestDue (r : Ridge) (s : State) : Out :=
  let t := (getR s r).test
  if !awake s || s.cmc.fw ≠ .running || (getR s r).failed || t.running || (!t.due && decide (s.now < t.nextDue)) then .next s
  else
    let s1 := if t.due then s else updTest s r (fun t => { t with due := true, dueAt := s.now, nextDue := s.now + testPeriod s, deferred := false, atCairn := false })
    match testJob s1 r with
    | none => .next (if testHot s1 r then startDue s1 r 0 else s1)
    | some j =>
      if t.atCairn && savable s1 j then .next (preemptForTest s1 r j)
      else if t.due && t.deferred then .next s1
      else .next (testEvent (updTest s1 r (fun t => { t with deferred := true })) r 0x01 15 0 0 (vcoreMv s.pmu.op) j.id 0 (s.now - (getR s1 r).test.dueAt))

/-- TEST_GRACE_EXPIRY: the job is pre-empted at an instruction boundary, or the free ridge's test runs at its own estimate. -/
def execTestGraceExpiry (r : Ridge) (s : State) : Out :=
  let t := (getR s r).test
  if !awake s || s.cmc.fw ≠ .running || !t.due || t.running || (getR s r).failed || s.now < t.dueAt + testGrace s then .next s
  else match testJob s r with
    | none => .next (startDue s r 0)
    | some j =>
      if savable s j then
        .next (preemptForTest (testEvent s r 0x02 15 0 0 (vcoreMv s.pmu.op) j.id 0 (s.now - t.dueAt)) r j)
      else .next s

/-! ### Outcomes (R382, R383) -/

/-- The positions that fail the sweep are fenced, reported and queued for relief (R364, R382) (DESIGN CHOICE, notes/assumptions/55). -/
def sweepFails (s : State) (r : Nat) (bad : List (Nat × Nat × Nat × Nat × Int)) : State :=
  bad.foldl (fun s b => match goldenOf s r b.1 with
    | some g =>
      let rd := getR s r
      let e := mkWin rd .service (BitVec.ofNat 128 (0x38 * 2 ^ 120)) .probe
      let l : Lane := { pos := b.1, tile := physOf rd b.1, fallback := false, fired := false, buf := .empty, rdcfg := 0, belay := [] }
      let c := b.2.2.2.1
      let wp := wPass s r b.1
      probeFailed s r e l (probePayload r b.1 l.tile b.2.1 b.2.2.1 c b.2.2.2.2 (tget 0 (g.probes.getD b.2.1 default).expect c) wp (epochNow s)) wp (epochNow s)
    | none => s) s
/-- The status and masks of a TEST_RUN whose ridges are done (R383) (DESIGN CHOICE, notes/assumptions/55). -/
def testRunSettle (s : State) : State :=
  (s.host.cmds.filter (fun c => c.busy && cmdOp c = 0x39)).foldl (fun s c =>
    let rs := bitList (BitVec.ofNat 48 (cmdFld c 0x18 8))
    if rs.any (fun r => (getR s r).test.running) then s
    else
      let bad := rs.filter (fun r => (getR s r).test.failed ≠ 0)
      let good := rs.filter (fun r => (getR s r).test.failed = 0)
      let st := if bad.any (fun r => (getR s r).failed) then stDevice else if bad.isEmpty then stSuccess else stProbe
      complete2 s c st (maskOf 48 good).toNat (maskOf 48 bad).toNat) s
/-- A test ends: Loam and slots are what it left, its outcomes follow, and the ridge returns to service (R380, R382) (DESIGN CHOICE, notes/assumptions/55). -/
def testDone (s : State) (r : Nat) (failed : Nat) (trim : List (Nat × Nat × Nat)) (bad : List (Nat × Nat × Nat × Nat × Int)) (mv : Nat) : State :=
  let t := (getR s r).test
  let f := failed &&& t.tests
  let late := if t.due then t.started - t.dueAt else 0
  let s1 := updR (useFree s) r (fun rd => { loamJunk { rd with poison := [], tags := [] } 0 (1536 * 1024) s.free with slots := [] })
  let s2 := updTest s1 r (fun t => { t with running := false, due := false, deferred := false, atCairn := false, failed := f })
  let s3 := testEvent s2 r (if f = 0 then 0x03 else 0x04) t.tests f t.stress mv t.job (s.now - t.started) late
  let s4 := if f.testBit 2 then probeAll (trim.foldl (fun s b => tileEvent s r 0xFF 0x0B [(4, 1, b.1), (5, 1, b.2.1), (6, 1, b.2.2)]) s3) r else s3
  let s5 := if f.testBit 3 then sweepFails s4 r bad else s4
  testRunSettle (if f.testBit 0 || f.testBit 1 then failRidge s5 r else s5)
/-- FIELD_TEST_COMPLETE. -/
def execFieldTestComplete (r : Ridge) (failed : BitVec 4) (trim : List (Nat × Nat × Nat)) (bad : List (Nat × Nat × Nat × Nat × Int)) (mv : Nat) (s : State) : Out :=
  if awake s && s.cmc.fw = .running && (getR s r).test.running then .next (testDone s r failed.toNat trim bad mv) else .next s

/-- What TEST_RUN asks for. -/
def testRunKind : CmdKind := adminKind 0x39 [(0x18, 8), (0x20, 4)]
/-- Checks of TEST_RUN. -/
def testRunChecks (_ : State) (c : Cmd) : List (Bool × Nat) := [(decide (2 ^ 48 ≤ cmdFld c 0x18 8), stField), (decide (32 ≤ cmdFld c 0x20 4), stField)]
/-- TEST_RUN, admitted. -/
def testRunDo (s : State) (c : Cmd) : State :=
  let rs := bitList (BitVec.ofNat 48 (cmdFld c 0x18 8))
  let live := rs.filter (fun r => !(getR s r).failed)
  let js := (live.filterMap (testJob s)).eraseDups
  if live.any (fun r => (getR s r).test.running) || !js.all (savable s) then s
  else if live.any (fun r => !ridgeUp s r) then powerRidges s live
  else
    let s1 := js.foldl (fun s j => match findJob s j.part j.id with
      | some k => if k.st = .saved then s else saveJob s k none
      | none => s) s
    let stress (r : Nat) : Nat := if (cmdFld c 0x20 4).testBit 4 then 0 else testStress s r
    let s2 := live.foldl (fun t r => startTest t r (cmdFld c 0x20 4 % 16) (stress r) (match testJob s r with
      | some j => j.id
      | none => 0)) s1
    let s3 := (rs.filter (fun r => (getR s r).failed)).foldl (fun s r => updTest s r (fun t => { t with failed := 1 })) s2
    let s4 := if live.isEmpty then testRunSettle (startCmd s3 c) else startCmd s3 c
    s4
/-- TEST_RUN (R383): the tests start at once on every named ridge, its job pre-empted at an instruction boundary; the command waits while one cannot be, or while a ridge powers up. -/
def execTestRun (q : QId) (cid : W16) (s : State) : Out :=
  withCmd s q cid testRunKind (testRunChecks s) (testRunDo s)

end Sys2Proof.Machine
end

