-- ==== Sys2Proof/Machine/Boot.lean ====
section
/-!
DEFINITION. Reset, boot and power (R430, R431, R440 to R460), and Prorvafort's heartbeat, restart and version floor (R18, R57, R411, R415). A boot is one step from its start to RUNNING (DESIGN CHOICE, notes/assumptions/21).
-/

namespace Sys2Proof.Machine

/-! ### What a reset leaves -/

/-- A port at reset: the pin low, the tunnel as the host has it (R455, R456) (DESIGN CHOICE, notes/assumptions/40). -/
def resetPort (s : State) (p : Port) : PortSt :=
  let t := getPort s p
  { PortSt.reset with tunnel := t.tunnel, hrdySince := if t.hrdy then s.now else t.hrdySince }
/-- The windows at reset, counted from now. -/
def resetCol (s : State) : Col :=
  let w (e : Nat) : Window := ⟨e, e, s.now + 2 ^ e, 0⟩
  { Col.reset with win0 := w 30, win1 := w 20, win2 := w 18, win3 := w 20 }
/-- A tile through a reset: its cells, and what Prorvafort's records say of it (DESIGN CHOICE, notes/assumptions/40). -/
def resetTile (x : Tile) : Tile := { Tile.reset with cells := x.cells, base := x.base, baseTemp := x.baseTemp, jr := x.jr, belay := x.belay }
/-- A ridge through a reset: tiles, maps and what is recorded of it stay; a test begins anew. -/
def resetRidge (s : State) (rd : RidgeSt) : RidgeSt :=
  { RidgeSt.reset with
    tiles := rd.tiles.map (fun x => (x.1, resetTile x.2)), map := rd.map, nextId := rd.nextId, failed := rd.failed, idleSince := s.now
    test := { TestSt.reset with nextDue := rd.test.nextDue, due := rd.test.due || rd.test.running, dueAt := rd.test.dueAt } }
/-- The Clay controller: records and bytes stay, its queue and unlocks go; the lockout goes with power alone (R427, R431). -/
def resetClay (c : Clay) (off : Bool) : Clay :=
  { c with
    writers := [], readOpen := false, writeOpen := false, mismatches := if c.locked && !off then c.mismatches else 0, locked := c.locked && !off
    guardLost := false, inhibit := false }
/-- The PMU through a reset that it survives: cap, point and budget at their reset values (R451, R455, R456). -/
def resetPmu (p : Pmu) (cause : Nat) : Pmu := { p with resetCause := cause, cap := 300, op := 0, progPower := 40, peak := none, peakHot := false, crit := [] }
/-- What is left of the security part: slots, fuses, and the attach flag until power goes (R403, R409). -/
def resetSec (c : Sec) (off : Bool) : Sec :=
  { Sec.reset with
    draws := c.draws, slotA := c.slotA, slotB := c.slotB, selB := c.selB, runB := c.runB, running := c.running, svnMin := c.svnMin
    jtagSince := c.jtagSince && !off }
/-- All logic is reset (R455): tiles and the Clay store stay, the count of R330 until power goes; the host's memories are its own (DESIGN CHOICE, notes/assumptions/40). -/
def resetLogic (s : State) (cause : Nat) (off : Bool) : State :=
  { State.reset with
    pending := s.pending, now := s.now, rclk := s.rclk, free := s.free
    host := { HostSide.reset with memA := s.host.memA, memB := s.host.memB, portA := resetPort s .A, portB := resetPort s .B,
                                   bindFails := if off then [] else s.host.bindFails }
    ridges := s.ridges.map (fun x => (x.1, resetRidge s x.2))
    col := resetCol s
    integ := { Integ.reset with log := s.integ.log, nextLog := s.integ.nextLog }
    sec := resetSec s.sec off, clay := resetClay s.clay off
    pmu := if off then { Pmu.reset with resetCause := cause } else resetPmu s.pmu cause
    pins := s.pins }
/-- The Clay group in flight completes (R431, R454, R456, R458) (DESIGN CHOICE, notes/assumptions/53). -/
def clayFinish (s : State) : State := match nextWriter s with
  | some w => if s.clay.inhibit then s else groupWritten s w
  | none => s
/-- A reset with the store's supply standing. -/
def logicReset (s : State) (cause : Nat) : State := resetLogic (clayFinish s) cause false

/-! ### Boot (R457) -/

/-- Bedrock's choice (R411): the selected slot, else the other one, reselected and reported; none when neither is valid. -/
def bedrock (s : State) (aOk bOk : Bool) : Option State :=
  let ok (b : Bool) : Bool := (if b then bOk else aOk) && (slotImage s b).isSome
  let run (s : State) (b : Bool) : State := { s with sec := { s.sec with runB := b, running := (slotImage s b).getD s.sec.running } }
  if ok s.sec.selB then some (run s s.sec.selB)
  else if ok (!s.sec.selB) then
    let bad := imageId (slotImage s s.sec.selB)
    let s1 := run { s with sec := { s.sec with selB := !s.sec.selB } } (!s.sec.selB)
    some (securityEvent (queueRec s1 clsSlot 0 (layFields 64 [(0, 1, if s1.sec.selB then 1 else 0)])) 0x06 0xFF 0 0 0 bad)
  else none
/-- A tile as its journal record and its ridge's maps give it. -/
def bootTile (s : State) (r t : Nat) (x : Tile) : Tile :=
  { x with
    jr := match recPayload s clsJournal (34 * r + t) with
      | some b => journalOf b
      | none => .fresh
    belay := match recPayload s clsMaps r with
      | some b => belayOf b t
      | none => [] }
/-- A ridge as the records give it (R447) (DESIGN CHOICE, notes/assumptions/40). -/
def bootRidge (s : State) (r : Nat) (rd : RidgeSt) : RidgeSt :=
  let m := match recPayload s clsMaps r with
    | some b => bytesAt b 0 32
    | none => mapIdentity
  let failed := match recPayload s clsFailed 0 with
    | some b => (fieldAt b 0 8).testBit r
    | none => false
  { rd with
    tiles := (List.range 34).foldl (fun (tb : Tbl Tile) t => tset .reset tb t (bootTile s r t (tileOf rd t))) []
    map := m, failed := failed, degraded := failed || m.any (fun b => b.toNat.testBit 7), idleSince := s.now }
/-- The SCRUB_PENDING ridges are held back until their steps have run (R415) (DESIGN CHOICE, notes/assumptions/42). -/
def bootPending (s : State) : State :=
  let m := match recPayload s clsScrub 0 with
    | some b => BitVec.ofNat 48 (fieldAt b 0 8)
    | none => 0
  { s with cmc := { s.cmc with scrubPending := m, scrubTiles := (bitList m).flatMap ridgeTiles } }
/-- The device id (R344): a SELF record's, else the straps'. -/
def bootIds (s : State) : State :=
  let id := match recPayload s clsSelf 0 with
    | some b => if bitAt (BitVec.ofNat 16 (fieldAt b 0 2)) 15 then fieldAt b 0 2 % 4096 else s.pins.ids.toNat
    | none => s.pins.ids.toNat
  { s with links := { s.links with devId := id, idValid := true } }
/-- The guard block's passwords and protect value (R425, R428) (DESIGN CHOICE, notes/assumptions/40). -/
def bootGuard (s : State) : State := match recPayload s clsGuard 0 with
  | some b => { s with clay := { s.clay with
      readPw := BitVec.ofNat 64 (fieldAt b 0 8), writePw := BitVec.ofNat 64 (fieldAt b 8 8), protect := BitVec.ofNat 8 (fieldAt b 16 1) } }
  | none => s
/-- BOOT counts this boot (R344). -/
def bootCount (s : State) : State :=
  match (resolveRec (getRec s clsBoot 0)).1 with
  | none => s
  | some _ =>
    let n := BitVec.ofNat 32 (((recPayload s clsBoot 0).map (fun b => fieldAt b 0 4)).getD 0 + 1)
    queueRec { s with links := { s.links with boot := n } } clsBoot 0 (layFields 64 [(0, 4, n.toNat)])
/-- LOG_SEQ goes on after the largest valid one (R437). -/
def bootLog (s : State) : State :=
  { s with integ := { s.integ with nextLog := ((s.integ.log.filter (fun r => !r.bad)).map (fun r => r.seq + 1)).foldl max 0 } }
/-- Every record is read, repaired or replaced (R434, R438). -/
def repairRecs (s : State) : State := (s.clay.recs.map (fun x => x.1)).foldl (fun s k => readRec s (k / 4096) (k % 4096)) s
/-- Prorvafort's part of a boot, steps 4 and 5 of R457: records, ridges, the model, the journal check. -/
def bootLoad (s : State) : State :=
  let s1 := bootGuard (bootIds (bootPending (bootLog s)))
  let s2 := (List.range 48).foldl (fun t r => updR t r (bootRidge s r)) s1
  let s3 := repairRecs (bootCount s2)
  let doms := (List.range 212).foldl (fun (t : Tbl Dom) d =>
    let old := tget .reset s.pmu.dom d
    let up := !(decide (d < 192) && (getR s3 (d / 4)).failed)
    tset .reset t d (if old.st = .fault then old else if up then .reset else ⟨.off, false, s.now⟩)) []
  orphanTiles (startModel { s3 with pmu := { s3.pmu with dom := doms, rcClock := false } })
/-- Step 6: RUNNING, the watchdog runs, BUSY_RESET clears unless a whole-device scrub holds it, and each pin may rise. -/
def bootEnd (s : State) : State :=
  pinSync { s with cmc := { s.cmc with
    fw := .running, busyReset := s.cmc.wholeScrub.isSome, lastBeat := s.now, watchdog := true, resetAt := none, runningAt := s.now } }
/-- What a boot needs: power, reset released, its clock and its input, and the test strap low (R442, R454, R457, R464). -/
def bootable (s : State) : Bool := s.pmu.on && s.pins.sysRstN && !s.pmu.refLost && s.pmu.lossAt.isNone && !s.pins.strapTest
/-- The boot of a device in reset (R457) (DESIGN CHOICE, notes/assumptions/21). -/
def boot (s : State) (aOk bOk : Bool) : State :=
  if !bootable s then s
  else
    let sel := match recPayload s clsSlot 0 with
      | some b => fieldAt b 0 1 = 1
      | none => false
    let s1 := { s with sec := { s.sec with selB := sel, debugBoot := Config.dbgPermit && s.pins.strapDbg, deviceKey := Config.trng s.sec.draws, draws := s.sec.draws + 1 } }
    match bedrock s1 aOk bOk with
    | none => { s1 with cmc := { s1.cmc with fw := .authFail } }
    | some s2 =>
      let s3 := bootEnd (bootLoad s2)
      powerEvent s3 0x01 0xFF 0xFF s3.pmu.mv

/-! ### Pins (R456 to R458) -/

/-- PWR_EN_RISE: power-on. With SYS_RST_N low the device waits in reset. -/
def execPwrEnRise (s : State) : Out :=
  if s.pmu.on then .next s
  else .next (boot (resetLogic { s with pins := { s.pins with pwrEn := true } } 0 true) true true)
/-- PWR_EN_FALL: the orderly shutdown; only tiles and the Clay store keep anything. -/
def execPwrEnFall (s : State) : Out :=
  if s.pmu.on then
    let s1 := resetLogic (clayFinish s) 0 true
    .next { s1 with pmu := { s1.pmu with on := false }, pins := { s1.pins with pwrEn := false } }
  else .next s
/-- SYS_RST_N_ASSERT. -/
def execSysRstNAssert (s : State) : Out :=
  if !s.pins.sysRstN then .next s
  else
    let low (s : State) : State := { s with pins := { s.pins with sysRstN := false } }
    .next (if s.pmu.on then low (logicReset s 0x01) else low s)
/-- SYS_RST_N_RELEASE: straps are sampled, and the device boots (R457, R464). -/
def execSysRstNRelease (ids : BitVec 12) (dbg test : Bool) (slotAOk slotBOk : Bool) (s : State) : Out :=
  if s.pins.sysRstN then .next s
  else .next (boot { s with pins := { s.pins with sysRstN := true, ids := ids, strapDbg := dbg, strapTest := test } } slotAOk slotBOk)

/-! ### Clocks (R454) -/

/-- REFCLK_LOSS: the internal reset; the boot waits for the clock. -/
def execRefclkLoss (s : State) : Out :=
  if s.pmu.on && !s.pmu.refLost then
    let s1 := logicReset s 0x02
    .next { s1 with pmu := { s1.pmu with refLost := true, rcClock := true } }
  else .next s
/-- PLL_UNLOCK: the internal reset; with REFCLK valid the boot follows (DESIGN CHOICE, notes/assumptions/41). -/
def execPllUnlock (s : State) : Out :=
  if s.pmu.on && !s.pmu.refLost then .next (boot (logicReset s 0x03) true true) else .next s
/-- REFCLK_RESTORED: the boot resumes at step 2. -/
def execRefclkRestored (s : State) : Out :=
  if s.pmu.on && s.pmu.refLost then .next (boot { s with pmu := { s.pmu with refLost := false } } true true) else .next s

/-! ### The 12 V input (R442) -/

/-- Stops a programming engine: the tile stays DIRTY and the operation waits again (R59) (DESIGN CHOICE, notes/assumptions/41). -/
def stopEngine (s : State) (r : Nat) : State := match (getR s r).engine with
  | some o => { updR s r (fun rd => { rd with engine := none }) with progQueue := s.progQueue ++ [o] }
  | none => s
/-- INPUT_LOW: below 10.8 V for a frame; ridges are held and programming pauses. -/
def execInputLow (mv : Nat) (s : State) : Out :=
  if s.pmu.on && decide (mv < 10800) then
    .next (raiseCoal { s with pmu := { s.pmu with mv := mv, inputLow := true } } 2 0 0
      (mkEv 0x08 0x03 srcPmu 0xFF (layFields 32 [(0, 1, 0xFF), (1, 1, 0xFF), (4, 2, mv), (6, 1, s.pmu.resetCause), (8, 2, s.pmu.cap)])))
  else .next s
/-- INPUT_LOSS: below 10.2 V; Clay writes are inhibited, ridges held, engines stopped. -/
def execInputLoss (s : State) : Out :=
  if s.pmu.on && s.pmu.lossAt.isNone then
    let s1 := (List.range 48).foldl stopEngine s
    .next { s1 with pmu := { s1.pmu with inputLow := true, lossAt := some s.now }, clay := { s1.clay with inhibit := true } }
  else .next s
/-- INPUT_RESTORED: within 1 ms everything goes on; after an INPUT_LOW reset the device boots. -/
def execInputRestored (s : State) : Out :=
  match s.pmu.lossAt with
  | none => .next s
  | some t =>
    let s1 := { s with pmu := { s.pmu with inputLow := false, lossAt := none }, clay := { s.clay with inhibit := false } }
    if s.cmc.fw = .bedrock then .next (boot s1 true true)
    else if s.now ≤ t + 600000 then .next (powerEvent s1 0x04 0xFF 0xFF s1.pmu.mv)
    else .next s
/-- The reset of an input loss (R430, R442): it boots once the input is back. -/
def inputReset (s : State) : State := resetLogic (clayCut s) 0x05 false
/-- INPUT_LOSS_TIMEOUT: a loss of more than 1 ms. -/
def execInputLossTimeout (s : State) : Out :=
  match s.pmu.lossAt with
  | some t => if t + 600000 < s.now && s.cmc.fw ≠ .bedrock then .next (inputReset s) else .next s
  | none => .next s

/-! ### Rails (R441) -/

/-- The reset of a rail fault: rails go down and up, and the device boots. -/
def railReset (s : State) : State := boot (logicReset s 0x04) true true
/-- RAIL_FAULT, of any rail but VPROG; during an input loss its cause is INPUT_LOW (R442) (DESIGN CHOICE, notes/assumptions/41). -/
def execRailFault (rail : Fin 12) (mv : Nat) (s : State) : Out :=
  let _ := mv
  if !s.pmu.on || rail.val = 5 then .next s
  else if s.pmu.lossAt.isSome then .next (inputReset s)
  else .next (railReset s)
/-- VPROG_FAULT: the ridge's programming engine stops (R441) (DESIGN CHOICE, notes/assumptions/41). -/
def execVprogFault (r : Ridge) (mv : Nat) (s : State) : Out :=
  if awake s then .next (powerEvent (stopEngine s r) 0x02 (4 * r.val) 5 mv) else .next s

/-! ### Domains (R443 to R448) -/

/-- A ridge is free, and nothing is due on it (R443). -/
def ridgeIdle (s : State) (r : Nat) : Bool :=
  let rd := getR s r
  (ownerOf s r).isNone && !rd.test.running && !rd.test.due && rd.engine.isNone && !s.progQueue.any (fun o => o.ridge = r) &&
    !s.cmc.scrubTiles.any (fun x => x.1 = r) && !s.cmc.scrubPending.toNat.testBit r
/-- A request that the domain's owner may make (R443). -/
def domAllowed (s : State) (d : Nat) (on : Bool) : Bool :=
  if d < 192 then if on then !(getR s (d / 4)).failed else (getR s (d / 4)).failed || ridgeIdle s (d / 4)
  else if d = 200 || d = 201 then on || takenRanges s = 0
  else if decide (202 ≤ d) && decide (d ≤ 205) then
    on || [2 * (d - 202), 2 * (d - 202) + 1].all (fun n => !(tget LinkSt.reset s.links.ports n).enabled)
  else on
/-- DOMAIN_POWER_REQUEST. -/
def execDomainPowerRequest (d : Fin 212) (on : Bool) (s : State) : Out :=
  if awake s && domAllowed s d on && (on || s.cmc.fw = .running) then .next (powerRequest s d on) else .next s
/-- DOMAIN_SEQUENCE_DONE. -/
def execDomainSequenceDone (d : Fin 212) (s : State) : Out := if s.pmu.on then .next (domDone s d) else .next s
/-- DOMAIN_FAULT (R448): of a sequence under way. -/
def execDomainFault (d : Fin 212) (s : State) : Out :=
  let x := getDom s d
  if s.pmu.on && (x.st = .poweringUp || x.st = .poweringDown) then
    let s1 := setDom s d { x with st := .fault, since := s.now }
    .next (if d.val < 192 then powerEvent (failRidge s1 (d.val / 4)) 0x02 d 0xFF 0 else railReset s1)
  else .next s
/-- RIDGE_IDLE_POWER_OFF (R443): free for 2^20 CMC cycles. -/
def execRidgeIdlePowerOff (r : Ridge) (s : State) : Out :=
  if awake s && s.cmc.fw = .running && ridgeIdle s r && decide ((getR s r).idleSince + 2 ^ 20 ≤ s.now) && ridgeUp s r then .next (ridgePower s r false)
  else .next s

/-! ### Prorvafort (R18, R411) -/

/-- FW_HEARTBEAT. -/
def execFwHeartbeat (s : State) : Out :=
  if awake s && s.cmc.fw = .running then .next { s with cmc := { s.cmc with lastBeat := s.now } } else .next s
/-- Steps 1 to 3 of R18: the state shown, DEVICE_FAULT, a device Rappel, both pins low. -/
def stall (s : State) (st : FwSt) (why : RapWhy) : State :=
  let s1 := raise { s with cmc := { s.cmc with fw := st, busyReset := true } } srcCmc 0x11 0x01 0xFF []
  pinSync (startRap s1 2 0 0 none 0 why)
/-- A second stall (R18, R299) (DESIGN CHOICE, notes/assumptions/41). -/
def secondStall (s : State) : State := attnBoth (stall { s with cmc := { s.cmc with watchdog := false, resetAt := none } } .fault .tdi) 1
/-- HEARTBEAT_TIMEOUT: 2^20 CMC cycles without one. -/
def execHeartbeatTimeout (s : State) : Out :=
  if awake s && s.cmc.fw = .running && s.cmc.watchdog && decide (s.cmc.lastBeat + 2 ^ 20 ≤ s.now) then
    match s.cmc.restartedAt with
    | some t => .next (if s.now < t + 2 ^ 30 then secondStall s else stall s .stalled .stall)
    | none => .next (stall s .stalled .stall)
  else .next s
/-- FW_START_TIMEOUT: not RUNNING 2^32 CMC cycles after the reset of Basecamp. -/
def execFwStartTimeout (s : State) : Out :=
  match s.cmc.resetAt with
  | some t => if awake s && s.cmc.fw = .stalled && decide (t + 2 ^ 32 ≤ s.now) then .next (secondStall s) else .next s
  | none => .next s
/-- Scrubs that the restart interrupted start again at step 1 (R415) (DESIGN CHOICE, notes/assumptions/42). -/
def restartScrubs (s : State) : State :=
  (List.range 16).foldl (fun s p =>
    if (getP s p).st = .scrubbing && !s.col.rappels.any (fun k => k.why = .scrub p) then scrubStart s p false (getP s p).scrubCmd else s) s
/-- FW_RUNNING: Prorvafort runs again after a restart (R18, R57, R299). -/
def execFwRunning (s : State) : Out :=
  if awake s && s.cmc.fw = .stalled && s.cmc.resetAt.isSome then
    match bedrock s true true with
    | none => .next { s with cmc := { s.cmc with fw := .authFail, resetAt := none } }
    | some s1 =>
      let s2 := bootEnd (restartScrubs (orphanTiles (startModel s1)))
      .next (attnBoth { s2 with cmc := { s2.cmc with restartedAt := some s2.now } } 0)
  else .next s
/-- SVN_RAISE: after 2^32 CMC cycles without a restart (R411). -/
def execSvnRaise (s : State) : Out :=
  if awake s && s.cmc.fw = .running && decide (s.cmc.runningAt + 2 ^ 32 ≤ s.now) && decide (s.sec.svnMin < s.sec.running.svn) then
    .next (securityEvent { s with sec := { s.sec with svnMin := s.sec.running.svn } } 0x08 0xFF 0 0 0 (imageId (some s.sec.running)))
  else .next s

end Sys2Proof.Machine
end

