-- ==== Sys2Proof/Machine/Parts.lean ====
section
/-!
DEFINITION. Ewesy commands on partitions and queues: PART_CREATE (R314, R392 to R394), PART_DESTROY (R412, R415, R416), PART_BIND (R330), QUEUE_CREATE and QUEUE_DESTROY (R305, R312, R316, R328, R331).
-/

namespace Sys2Proof.Machine

/-! ### PART_CREATE -/

def createRidges (c : Cmd) : RMask := BitVec.ofNat 48 (cmdFld c 0x18 8)
def createRanges (c : Cmd) : BitVec 94 := BitVec.ofNat 94 (cmdFld c 0x20 16)
def createWays (c : Cmd) : W16 := BitVec.ofNat 16 (cmdFld c 0x30 2)
def createFlags (c : Cmd) : Nat := cmdFld c 0x33 1
/-- PART_CREATE commands whose rope is under way. -/
def creating (s : State) : List Cmd := s.host.cmds.filter (fun c => c.busy && cmdOp c = 0x10 && (getP s c.part).st = .free)
/-- A resource that the command names is owned, held back, FAILED, or named by another creation (R314, R382, R415). -/
def createTaken (s : State) (c : Cmd) : Bool :=
  let l := creating s
  let rid := l.foldl (fun m d => m ||| createRidges d) (takenRidges s ||| heldRidges s)
  let ran := l.foldl (fun m d => m ||| createRanges d) (takenRanges s)
  let way := l.foldl (fun m d => m ||| createWays d) (takenWays s)
  let qua := l.foldl (fun m d => m ||| (createFlags d / 4 % 4)) (takenQuarters s)
  (createRidges c &&& rid) ≠ 0 || (createRanges c &&& ran) ≠ 0 || (createWays c &&& way) ≠ 0 || ((createFlags c / 4 % 4) &&& qua) ≠ 0
/-- The Basecamp share of every partition. -/
def shareSum (s : State) : Nat := ((liveParts s).map (fun t => t.bcShare) ++ (creating s).map (fun d => cmdFld d 0x34 1)).foldl (· + ·) 0
/-- A field of R314 is out of its range (DESIGN CHOICE, notes/assumptions/43). -/
def createBad (s : State) (c : Cmd) : Bool :=
  cmdFld c 0x18 8 = 0 || decide (2 ^ 48 ≤ cmdFld c 0x18 8) || cmdFld c 0x20 16 = 0 || decide (2 ^ 94 ≤ cmdFld c 0x20 16) || cmdFld c 0x30 2 = 0 ||
    decide (1 < cmdFld c 0x32 1) || decide (16 ≤ createFlags c) || createFlags c % 4 = 3 || !inRange (cmdFld c 0x34 1) 1 12 || dataShort c 32 ||
    decide (12 < shareSum s + cmdFld c 0x34 1)
def createChecks (s : State) (c : Cmd) : List (Bool × Nat) :=
  let t := getP s c.part
  let other (f : Nat) : Bool := (creating s).any (fun d => (createFlags d).testBit f)
  [(decide (16 ≤ c.part), stField), (decide (c.part < 16) && t.st = .scrubbing, stScrub),
    (decide (c.part < 16) && ((t.st ≠ .free && t.st ≠ .scrubbing) || (creating s).any (fun d => d.part = c.part)), stState),
    ((createFlags c).testBit 1 && (confidentialState s || other 0), stPermit), ((createFlags c).testBit 0 && (debugState s || other 1), stPermit),
    (createBad s c, stField), (createTaken s c, stResource)]
/-- The i-th owned ridge at entry i (R55). -/
def defaultMap (m : RMask) : List Byte :=
  let l := bitList m
  (List.range 48).map (fun i => BitVec.ofNat 8 (l.getD i 0xFF))
/-- The partition that PART_CREATE stages. -/
def createdPart (s : State) (c : Cmd) (key : W256) : Part :=
  { Part.free with
    st := .initialising, port := if cmdFld c 0x32 1 = 0 then .A else .B, ridges := createRidges c, ranges := createRanges c, ways := createWays c
    pflags := BitVec.ofNat 8 (createFlags c), bcShare := cmdFld c 0x34 1, bindDigest := BitVec.ofNat 256 (leNat (dataIn s c 32)), ridgeMap := defaultMap (createRidges c)
    survey := s.integ.surveyPolicy, probeInterval := bits s.integ.probePolicy 16 0, tdi := if (createFlags c).testBit 0 then .unlocked else .none, key := some key }
/-- The ranges are initialised and the ridges up: the partition is ACTIVE (R392, R443). -/
def createEnd (s : State) (c : Cmd) : State :=
  if (getP s c.part).st = .initialising && (bitList (getP s c.part).ridges).all (ridgeUp s) then
    complete (updP s c.part (fun t => { t with st := .active })) c stSuccess (userSize (getP s c.part))
  else s
/-- What PART_CREATE asks for. -/
def partCreateKind : CmdKind := adminKind 0x10 [(0x18, 8), (0x20, 16), (0x30, 2), (0x32, 1), (0x33, 1), (0x34, 1)]
/-- PART_CREATE, admitted. -/
def partCreateDo (s : State) (q : QId) (cid : W16) (c : Cmd) : State :=
  if (freeService s).isNone || claimed s (9, c.part, 0) then s
  else
    let k := newKey s
    let s1 := powerRidges (startCmd k.2 c) (bitList (createRidges c))
    serviceRope s1 [c.part] 0 (.create q cid c.part) [.layout c.part (createdPart s c k.1)]
/-- PART_CREATE: checks, power to the ridges, a memory key and the layout rope; delivered again once the rope has committed, it ends (R314, R392 to R394, R443) (DESIGN CHOICE, notes/assumptions/43). -/
def execPartCreate (q : QId) (cid : W16) (s : State) : Out :=
  match s.host.cmds.find? (fun c => c.q = q && c.cid = cid && c.busy && cmdOp c = 0x10) with
  | some c => if awake s && s.cmc.fw = .running then .next (createEnd s c) else .next s
  | none =>
    withCmd s q cid partCreateKind (createChecks s) (partCreateDo s q cid)

/-! ### PART_DESTROY -/

/-- A whole-device scrub begins (R416) (DESIGN CHOICE, notes/assumptions/42). -/
def wholeStart (s : State) (c : Cmd) : State :=
  let free := (List.range 48).filter (fun r => (ownerOf s r).isNone && !(getR s r).failed)
  let qs := ([2, 3] : List Nat).filter (fun q => !(takenQuarters s).testBit (q - 2))
  let s1 := stopEngines s (maskOf 48 free)
  let s2 := free.foldl (fun s r => updR s r zeroRidge) s1
  let s3 := { s2 with
    cmc := { s2.cmc with wholeScrub := some (c.q, c.cid), busyReset := true, scrubTiles := free.flatMap ridgeTiles }
    clay := { s2.clay with
      readPw := 0, writePw := 0, protect := 0, readOpen := false, writeOpen := false, guardLost := false
      writers := s2.clay.writers ++ qs.map (fun q => .zero q 0 0) } }
  let s4 := (List.range 16).foldl (fun s p => if (getP s p).st = .active then scrubStart s p false none else s) s3
  pinSync (powerRidges (writePending (saveGuard s4)) free)
/-- What PART_DESTROY asks for. -/
def partDestroyKind : CmdKind := adminKind 0x11 []
/-- Checks of PART_DESTROY. -/
def partDestroyChecks (s : State) (c : Cmd) : List (Bool × Nat) :=
  let t := getP s c.part
  [(decide (c.part < 16) && t.st = .scrubbing, stScrub), (decide (c.part < 16) && t.st ≠ .active && t.st ≠ .scrubbing, stState),
    (c.part = 0xFF && s.cmc.wholeScrub.isSome, stScrub)]
/-- PART_DESTROY, admitted. -/
def partDestroyDo (s : State) (q : QId) (cid : W16) (c : Cmd) : State :=
  if c.part = 0xFF then
    if !(creating s).isEmpty || (List.range 16).any (fun p => (getP s p).st = .initialising) then s else wholeStart (startCmd s c) c
  else scrubStart (startCmd s c) c.part false (some (q, cid))
/-- PART_DESTROY: one partition, or with PART = 0xFF the whole device; it completes when the scrub ends. -/
def execPartDestroy (q : QId) (cid : W16) (s : State) : Out :=
  withCmd s q cid partDestroyKind (partDestroyChecks s) (partDestroyDo s q cid)

/-! ### PART_BIND -/

def bindPart (c : Cmd) : Nat := bits (cmdValue c) 11 8
def bindPort (c : Cmd) : Port := if bits (cmdValue c) 0 0 = 0 then .A else .B
/-- Eight consecutive failures bar a partition's binding until power is cycled. -/
def bindBarred (s : State) (p : Nat) : Bool := decide (8 ≤ tget 0 s.host.bindFails p)
def bindOk (s : State) (c : Cmd) : Bool := (sha256 (dataIn s c 32)) = (getP s (bindPart c)).bindDigest
def setFails (s : State) (p n : Nat) : State := { s with host := { s.host with bindFails := tset 0 s.host.bindFails p n } }
/-- What PART_BIND asks for. -/
def partBindKind : CmdKind := setKind 0x0A false
/-- Checks of PART_BIND. -/
def partBindChecks (s : State) (c : Cmd) : List (Bool × Nat) :=
  let t := getP s (bindPart c)
  [((cmdValue c &&& ~~~ 0xF01) ≠ 0 || dataShort c 32, stField), (c.port ≠ bindPort c, stPermit), (t.st = .scrubbing, stScrub),
    (t.st ≠ .active && t.st ≠ .scrubbing, stState), (bindBarred s (bindPart c), stAuth)]
/-- PART_BIND, admitted. -/
def partBindDo (s : State) (q : QId) (cid : W16) (c : Cmd) : State :=
  let p := bindPart c
  if !bindOk s c then
    let s1 := setFails s p (tget 0 s.host.bindFails p + 1)
    complete (securityEvent s1 0x03 p (portCode c.port) 0 0 0) c stAuth 0
  else
    let s1 := setFails s p 0
    if (getP s p).port = bindPort c then complete s1 c stSuccess 0
    else if (freeService s).isNone || claimed s (9, p, 0) then s
    else serviceRope (startCmd s1 c) [p] 0 (.bind q cid p) [.layout p { getP s p with port := bindPort c }]
/-- PART_BIND (R330): a right credential moves the binding by a rope; the same port is no change (DESIGN CHOICE, notes/assumptions/43). -/
def execPartBind (q : QId) (cid : W16) (s : State) : Out :=
  withCmd s q cid partBindKind (partBindChecks s) (partBindDo s q cid)

/-! ### Queues -/

/-- Pages of a ring of n bytes. -/
def ringPages (n : Nat) : Nat := (n + 4095) / 4096
/-- The first run of free pages of the ring pool (R305). -/
def poolFind (s : State) (n : Nat) : Option Nat :=
  (List.range (257 - n)).find? (fun p => (List.range n).all (fun i => tget 0 s.host.poolOwner (p + i) = 0))
/-- Takes pages for a queue: the state and the ring's pool offset. -/
def poolTake (s : State) (id n : Nat) : Option (State × Nat) :=
  (poolFind s n).map (fun p =>
    ({ s with host := { s.host with poolOwner := (List.range n).foldl (fun t i => tset 0 t (p + i) (id + 1)) s.host.poolOwner } }, p * 4096))
/-- Both rings' places: in the pool where LOC says so, else at their host addresses. -/
def placeRings (s : State) (c : Cmd) : Option (State × Nat × Nat) :=
  let id := cmdFld c 0x18 2
  let loc := cmdFld c 0x1C 1
  let sq := if loc.testBit 0 then poolTake s id (ringPages (64 * 2 ^ cmdFld c 0x1A 1)) else some (s, cmdFld c 0x20 8)
  sq.bind (fun a =>
    let cq := if loc.testBit 1 then poolTake a.1 id (ringPages (32 * 2 ^ cmdFld c 0x1B 1)) else some (a.1, cmdFld c 0x28 8)
    cq.map (fun b => (b.1, a.2, b.2)))
/-- A field of R316 is out of its range. -/
def queueBad (c : Cmd) : Bool :=
  decide (1024 ≤ cmdFld c 0x18 2) || !inRange (cmdFld c 0x1A 1) 4 12 || !inRange (cmdFld c 0x1B 1) 4 12 || decide (3 < cmdFld c 0x1C 1) ||
    (decide (63 < cmdFld c 0x1D 1) && cmdFld c 0x1D 1 ≠ 0xFF) || (!(cmdFld c 0x1C 1).testBit 0 && cmdFld c 0x20 8 % 4096 ≠ 0) ||
    (!(cmdFld c 0x1C 1).testBit 1 && cmdFld c 0x28 8 % 4096 ≠ 0)
/-- The QID belongs to a live queue, or to another partition's DETACHED one. -/
def queueUsed (s : State) (c : Cmd) : Bool :=
  let q := getQ s (.io (cmdFld c 0x18 2))
  q.st = .live || (q.st = .detached && q.part ≠ c.part)
/-- The queue is being torn down (R331) (DESIGN CHOICE, notes/assumptions/43). -/
def queueGoing (s : State) (n : Nat) : Bool :=
  s.col.rappels.any (fun k => k.why = .queueGone n || ((getQ s (.io n)).st ≠ .absent && k.why = .flr (getQ s (.io n)).part))
/-- Entries that a DETACHED queue had not fetched complete ABORTED; the CID of one that cannot be read any more is open. Its ring is read as it was in s0. -/
def abortOld (s0 s : State) (id : QId) (old : Queue) : State :=
  (unfetched old).foldl (fun s i =>
    if old.sqPool || (getPort s0 old.port).tunnel then abortEntry s id (sqEntry s0 old i)
    else postCqe (useFree s) (mkCqe id (Config.lostCid s.free) stAborted old.part 0 0 none)) s
/-- The queue pair is made, or made again over a DETACHED one whose held entries come first (R328). -/
def makeQueue (s : State) (c : Cmd) : State :=
  let id := cmdFld c 0x18 2
  let old := getQ s (.io id)
  match placeRings (freePool s id) c with
  | none => complete s c stResource 0
  | some (s1, sq, cq) =>
    let loc := cmdFld c 0x1C 1
    let k : Queue := { Queue.absent with
      st := .live, part := c.part, port := (getP s c.part).port, sqExp := cmdFld c 0x1A 1, cqExp := cmdFld c 0x1B 1, sqPool := loc.testBit 0, cqPool := loc.testBit 1
      sqBase := sq, cqBase := cq, vec := cmdFld c 0x1D 1, held := old.held, stopped := old.stopped }
    let s2 := cqFlush (setQ s1 (.io id) k) (.io id)
    let s3 := if old.st = .detached then abortOld s s2 (.io id) old else s2
    complete s3 c stSuccess ((if loc.testBit 0 then sq else 0) + (if loc.testBit 1 then cq else 0) * 2 ^ 32)
/-- What QUEUE_CREATE asks for. -/
def queueCreateKind : CmdKind := { partKind 0x18 [(0x18, 2), (0x1A, 1), (0x1B, 1), (0x1C, 1), (0x1D, 1), (0x20, 8), (0x28, 8)] with unlocked := true }
/-- Checks of QUEUE_CREATE. -/
def queueCreateChecks (s : State) (c : Cmd) : List (Bool × Nat) := [(queueBad c, stField), (!queueGoing s (cmdFld c 0x18 2) && queueUsed s c, stResource)]
/-- QUEUE_CREATE (R316): held while its QID is being destroyed (R331). -/
def execQueueCreate (q : QId) (cid : W16) (s : State) : Out :=
  withCmd s q cid queueCreateKind (queueCreateChecks s) (fun c => if queueGoing s (cmdFld c 0x18 2) then s else makeQueue s c)
/-- What QUEUE_DESTROY asks for. -/
def queueDestroyKind : CmdKind := kindOf 0x19 [(0x18, 2)]
/-- Checks of QUEUE_DESTROY (DESIGN CHOICE, notes/assumptions/43). -/
def queueDestroyChecks (s : State) (c : Cmd) : List (Bool × Nat) :=
  let n := cmdFld c 0x18 2
  let k := getQ s (.io n)
  [(decide (1024 ≤ n) || (!queueGoing s n && (k.st = .absent || (c.part ≠ 0xFF && k.part ≠ c.part))), stField)]
/-- QUEUE_DESTROY, admitted. -/
def queueDestroyDo (s : State) (c : Cmd) : State :=
  let n := cmdFld c 0x18 2
  if queueGoing s n then s else startRap (startCmd s c) 0 n 0 none 0 (.queueGone n)
/-- QUEUE_DESTROY (R312): a Rappel of queue scope, and the queue is freed. -/
def execQueueDestroy (q : QId) (cid : W16) (s : State) : Out :=
  withCmd s q cid queueDestroyKind (queueDestroyChecks s) (queueDestroyDo s)

end Sys2Proof.Machine
end

