-- ==== Sys2Proof/Machine/Weights.lean ====
section
/-!
DEFINITION. Weight sets: the HVWS container and its checks (R28, R33, R34, R228 to R233), WSET_LOAD (R54, R106), WSET_UNLOAD and WSET_VERIFY (R56, R57), and CALIBRATE (R105, R106).
-/

namespace Sys2Proof.Machine

/-! ### The container -/

/-- A tile-table entry (R229). -/
structure TileEnt where
  ridge : Nat
  pos : Nat
  format : Nat
  crc : Nat
  off : Nat
  size : Nat
  resv : Bool
  deriving DecidableEq, Repr, Inhabited

def wsLength (b : List Byte) : Nat := fieldAt b 8 8
def wsTiles (b : List Byte) : Nat := fieldAt b 0x16 2
def wsTable (b : List Byte) : Nat := fieldAt b 0x18 8
def wsEntry (b : List Byte) (i : Nat) : TileEnt :=
  let o := wsTable b + 32 * i
  { ridge := fieldAt b o 2, pos := fieldAt b (o + 2) 1, format := fieldAt b (o + 3) 1, crc := fieldAt b (o + 4) 4, off := fieldAt b (o + 8) 8,
    size := fieldAt b (o + 0x10) 8, resv := !zeroAt b (o + 0x18) 8 }
def wsEntries (b : List Byte) : List TileEnt := (List.range (wsTiles b)).map (wsEntry b)
/-- A section's bytes. -/
def wsSection (b : List Byte) (e : TileEnt) : List Byte := bytesAt b e.off e.size
/-- A container's DIGEST, over the container with that field read as zero (R217, R228). -/
def digestOk (b : List Byte) : Bool := sha256 (overlay b 0x40 (zeros 32)) = BitVec.ofNat 256 (fieldAt b 0x40 32)

/-- Logical columns of an encoding (R28). -/
def wCols (f : Nat) : Nat := if f = 0x11 then 256 else 512
/-- W of R231. -/
def wBytes (f : Nat) : Nat := if f = 0x12 then 131072 else 524288
/-- The code of a weight, unsigned (R231). -/
def wRaw (f : Nat) (b : List Byte) (row col : Nat) : Nat :=
  match f with
  | 0x10 => fieldAt b (0x100 + row * 512 + col) 1
  | 0x11 => fieldAt b (0x100 + row * 512 + 2 * col) 2
  | _ => fieldAt b (0x100 + row * 128 + col / 4) 1 / 4 ^ (col % 4) % 4
/-- The scree mark of R28. -/
def wMark (f raw : Nat) : Bool := (f = 0x10 && raw = 0xC0) || (f = 0x11 && raw = 0xFC00)
/-- The level of a code, 0 at a scree mark; none for a value outside the code set. -/
def wLevel (f raw : Nat) : Option Int :=
  if wMark f raw then some 0
  else match f with
    | 0x10 => if (asSigned 8 raw).natAbs ≤ 63 then some (asSigned 8 raw) else none
    | 0x11 => if (asSigned 16 raw).natAbs ≤ 1023 then some (asSigned 16 raw) else none
    | _ => match raw with
      | 0 => some 0
      | 1 => some 63
      | 3 => some (-63)
      | _ => none
def secScreeCount (b : List Byte) : Nat := fieldAt b 2 2
def secProbes (b : List Byte) : Nat := fieldAt b 1 1
/-- A scree entry word (R33). -/
def secScreeWord (f : Nat) (b : List Byte) (i : Nat) : W64 := BitVec.ofNat 64 (fieldAt b (0x100 + wBytes f + 8 * i) 8)
def screeOf (w : W64) : Scree := ⟨bits w 25 16, bits w 8 0, BitVec.ofNat 16 (bits w 47 32)⟩
def secScree (f : Nat) (b : List Byte) : List Scree := (List.range (secScreeCount b)).map (fun i => screeOf (secScreeWord f b i))
/-- Offset of the first probe record. -/
def secProbeOff (f : Nat) (b : List Byte) : Nat := (0x100 + wBytes f + 8 * secScreeCount b + 255) / 256 * 256
def secRowUsed (b : List Byte) : BitVec 1024 := BitVec.ofNat 1024 (fieldAt b 0x40 128)
def secColUsed (b : List Byte) : BitVec 512 := BitVec.ofNat 512 (fieldAt b 0xC0 64)
/-- Levels by row × 512 + logical column. -/
def secLevels (f : Nat) (b : List Byte) : Tbl Int :=
  (List.range 1024).foldl (fun t row => (List.range (wCols f)).foldl (fun t col =>
    tset 0 t (row * 512 + col) ((wLevel f (wRaw f b row col)).getD 0)) t) []
/-- A probe record (R232). -/
def secProbe (f : Nat) (b : List Byte) (k : Nat) : ProbeRec :=
  let o := secProbeOff f b + 5120 * k
  { input := tOfList 0 ((List.range 1024).map (fun r => asSigned 8 (fieldAt b (o + r) 1)))
    expect := tOfList 0 ((List.range 512).map (fun c => asSigned 32 (fieldAt b (o + 0x400 + 4 * c) 4)))
    tol := tOfList 0 ((List.range 512).map (fun c => fieldAt b (o + 0xC00 + 4 * c) 4)) }
/-- What the codes and scree list define for a column of a probe (R35, R232). -/
def probeSum (level : Tbl Int) (scree : List Scree) (p : ProbeRec) (c : Nat) : Int :=
  let a := ((List.range 1024).map (fun r => tget 0 p.input r * tget 0 level (r * 512 + c))).foldl (· + ·) 0
  (scree.filter (fun e => e.col = c && tget 0 p.input e.row ≠ 0)).foldl (fun a e => a + screeInt (f32OfInt (tget 0 p.input e.row)) (f16Val e.value)) a

/-- The rules of a section's scree list (R33, R34). -/
def screeOk (f : Nat) (b : List Byte) : Bool :=
  let l := secScree f b
  let key (e : Scree) : Nat := e.row * 512 + e.col
  decide (secScreeCount b ≤ 1024) &&
    (List.range l.length).all (fun i =>
      let w := secScreeWord f b i
      let e := l.getD i default
      bits w 63 48 = 0 && bits w 31 26 = 0 && bits w 15 9 = 0 && decide (e.col < wCols f) && wMark f (wRaw f b e.row e.col) && decide (bits w 46 42 ≠ 31) &&
        (i = 0 || decide (key (l.getD (i - 1) default) < key e))) &&
    (List.range 1024).all (fun r => (List.range (wCols f)).all (fun c => !wMark f (wRaw f b r c) || l.any (fun e => e.row = r && e.col = c)))
/-- The rules of a section's codes (R28, R231, R233). -/
def codesOk (f : Nat) (b : List Byte) : Bool :=
  let ru := secRowUsed b
  let cu := secColUsed b
  (List.range 1024).all (fun r => (List.range (wCols f)).all (fun c =>
    (wLevel f (wRaw f b r c)).isSome && (wRaw f b r c = 0 || (ru.toNat.testBit r && cu.toNat.testBit c))))
/-- The rules of a section's probe records (R232, R233). -/
def probesOk (f : Nat) (b : List Byte) : Bool :=
  let lv := secLevels f b
  let sc := secScree f b
  (List.range (secProbes b)).all (fun k =>
    let p := secProbe f b k
    (List.range 1024).all (fun r => tget 0 p.input r ≠ -128 && (tget 0 p.input r = 0 || (secRowUsed b).toNat.testBit r)) &&
      (List.range 512).all (fun c => tget 0 p.expect c = if c < wCols f then probeSum lv sc p c else 0))
/-- A tile section that R230 to R233 accept. -/
def sectionOk (e : TileEnt) (b : List Byte) : Bool :=
  fieldAt b 0 1 = e.format && inRange (secProbes b) 1 8 && e.size = secProbeOff e.format b + 5120 * secProbes b && zeroAt b 4 60 &&
    (e.format ≠ 0x11 || secColUsed b >>> 256 = 0) && codesOk e.format b && screeOk e.format b && probesOk e.format b
def formatOk (f : Nat) : Bool := f = 0x10 || f = 0x11 || f = 0x12
/-- Two byte ranges have no byte in common. -/
def apart (a n b m : Nat) : Bool := n = 0 || m = 0 || decide (a + n ≤ b) || decide (b + m ≤ a)

/-- Step 1 of R233 (DESIGN CHOICE, notes/assumptions/44). -/
def wsFrame (b : List Byte) : Bool :=
  fieldAt b 0 4 = 0x53575648 && fieldAt b 4 2 = 1 && inRange (wsLength b) 256 b.length && decide (wsTable b + 32 * wsTiles b ≤ wsLength b) &&
    (wsEntries b).all (fun e => decide (e.off + e.size ≤ wsLength b))
/-- Step 3 of R233. -/
def wsRules (b : List Byte) : Bool :=
  let es := wsEntries b
  fieldAt b 0x10 4 ≠ 0 && inRange (fieldAt b 0x14 2) 1 48 && inRange (wsTiles b) 1 1536 && wsTable b % 64 = 0 && zeroAt b 0x20 32 && zeroAt b 0x60 160 &&
    es.all (fun e => decide (e.ridge < fieldAt b 0x14 2) && decide (e.pos < 32) && formatOk e.format && e.off % 256 = 0 && !e.resv) &&
    (es.map (fun e => (e.ridge, e.pos))).Nodup &&
    (List.range es.length).all (fun i => (List.range i).all (fun j =>
      apart (es.getD i default).off (es.getD i default).size (es.getD j default).off (es.getD j default).size)) &&
    es.all (fun e => sectionOk e (wsSection b e))

/-! ### WSET_LOAD (R54) -/

/-- The physical ridge that a partition's map gives a program ridge. -/
def mapPhys (t : Part) (k : Nat) : Option Nat :=
  let r := (t.ridgeMap.getD k 0xFF).toNat
  if r < 48 then some r else none
/-- A golden record (R51) of a tile-table entry. -/
def goldenFrom (t : Part) (b : List Byte) (i : Nat) : Golden :=
  let e := wsEntry b i
  let sec := wsSection b e
  { ridge := (mapPhys t e.ridge).getD 0, pos := e.pos, format := e.format, level := secLevels e.format sec, scree := secScree e.format sec
    rowUsed := secRowUsed sec, colUsed := secColUsed sec, probes := (List.range (secProbes sec)).map (secProbe e.format sec)
    digest := BitVec.ofNat 128 (sha256 sec).toNat, poisoned := false, order := i }
/-- The weight set that the load takes over (R54 step 2). -/
def takenOver (s : State) (p : Nat) (id : W32) : Option Wset :=
  (findWset s p id).bind (fun w => if w.st = .incomplete || w.st = .tilesOnly then some w else none)
/-- Golden records of a partition less those of a weight set. -/
def otherGolden (s : State) (p : Nat) (id : W32) : List Golden := ((getP s p).wsets.filter (fun w => w.id ≠ id)).flatMap (fun w => w.golden)
/-- The container as the command's buffer holds it. -/
def loadBytes (s : State) (c : Cmd) : List Byte :=
  let b := if cmdPtr c = 0 then [] else dataIn s c (cmdLen c)
  if wsLength b ≤ b.length then b.take (wsLength b) else b
def wsId (b : List Byte) : W32 := BitVec.ofNat 32 (fieldAt b 0x10 4)
/-- The checks of R233, R34, R54 and R55 in order. -/
def loadChecks (s : State) (c : Cmd) : List (Bool × Nat) :=
  let b := loadBytes s c
  let t := getP s c.part
  let es := wsEntries b
  let old := otherGolden s c.part (wsId b)
  let free := fwFree s c.part + ((takenOver s c.part (wsId b)).map (fun w => w.golden.length * 532480)).getD 0
  [(!wsFrame b, stField), (!digestOk b, stIntegrity), (es.any (fun e => (crc32c (wsSection b e)).toNat ≠ e.crc), stIntegrity), (!wsRules b, stField),
    (es.any (fun e => (mapPhys t e.ridge).isNone), stResource),
    (es.any (fun e => match mapPhys t e.ridge with
      | some r => decide (6144 < ((old.filter (fun g => g.ridge = r)).map (fun g => g.scree.length)).foldl (· + ·) 0 +
          ((es.filter (fun f => f.ridge = e.ridge)).map (fun f => secScreeCount (wsSection b f))).foldl (· + ·) 0)
      | none => false), stResource),
    ((findWset s c.part (wsId b)).isSome && (takenOver s c.part (wsId b)).isNone, stResource),
    (es.any (fun e => old.any (fun g => some g.ridge = mapPhys t e.ridge && g.pos = e.pos)), stResource), (decide (free < 532480 * es.length), stResource)]

/-- A position loses its weights: CLEAN tiles that hold them become ORPHAN, and what was under way for it ends (R56, R57). -/
def releasePos (s : State) (id : W32) (g : Golden) : State :=
  let r := g.ridge
  let rd := getR s r
  let mine (t : Nat) : Bool := (tileOf rd t).jr.state = .clean && (physOf rd g.pos = t || (isRelief rd t && (tileOf rd t).jr.position = g.pos && (tileOf rd t).jr.digest = g.digest))
  let s1 := ((List.range 34).filter mine).foldl (fun s t => setJournal (updTile (endSurvey s r t) r t (fun x => { x with colMax := [], surveyReq := false })) r t (fun j => { j with state := .orphan })) s
  let s2 := updR s1 r (fun rd => { rd with
    refreshQ := rd.refreshQ.filter (fun q => q.1 ≠ g.pos), pos := tset .reset rd.pos g.pos .reset
    engine := match rd.engine with
      | some o => if o.pos = g.pos && o.wset = id then none else some o
      | none => none })
  { s2 with progQueue := s2.progQueue.filter (fun o => !(o.ridge = r && o.pos = g.pos && o.wset = id)) }
/-- A weight set is released. -/
def releaseWset (s : State) (p : Nat) (w : Wset) : State :=
  let s1 := updP s p (fun t => { t with wsets := t.wsets.filter (fun v => v.id ≠ w.id) })
  w.golden.foldl (fun s g => releasePos s w.id g) s1

/-- The tile mapped at a golden record's position is attached without programming (R54 step 3). -/
def attachable (s : State) (g : Golden) : Bool :=
  let x := getTile s g.ridge (physOf (getR s g.ridge) g.pos)
  (x.jr.state = .clean || x.jr.state = .orphan) && x.jr.digest = g.digest && x.jr.format = g.format
/-- An attached tile: CLEAN, its maxima built, a survey requested (R54 steps 4 and 5) (DESIGN CHOICE, notes/assumptions/44). -/
def attachTile (s : State) (id : W32) (g : Golden) : State :=
  let t := physOf (getR s g.ridge) g.pos
  let s1 := setJournal s g.ridge t (fun j => { j with state := .clean, position := g.pos, wset := id })
  requestSurvey (updTile s1 g.ridge t (fun x => { x with colMax := colMaxOf g.format g.level })) g.ridge t
/-- A position to be programmed: its mapped tile, or relief where that is RETIRED (R48, R54). -/
def queueProgram (s : State) (part : Nat) (w : Wset) (g : Golden) : State :=
  let t := physOf (getR s g.ridge) g.pos
  if (getTile s g.ridge t).jr.state = .retired then
    queueRefresh (commitMaps (setMap s g.ridge g.pos t true) g.ridge) g.ridge g.pos 1
  else { s with progQueue := s.progQueue ++ [reliefOp g.ridge t g.pos 4 0x01 part w g] }
/-- The load begins (R54). -/
def loadStart (s : State) (c : Cmd) : State :=
  let b := loadBytes s c
  let p := c.part
  let id := wsId b
  let s1 := match takenOver s p id with
    | some w => releaseWset s p w
    | none => s
  let gs := (List.range (wsTiles b)).map (goldenFrom (getP s p) b)
  let att := gs.filter (attachable s1)
  let prog := gs.filter (fun g => !attachable s1 g)
  let w : Wset :=
    { id := id, st := .loading, golden := gs, digest := BitVec.ofNat 256 (fieldAt b 0x40 32), toProgram := prog.map (fun g => (g.ridge, g.pos))
      toSurvey := att.map (fun g => (g.ridge, g.pos)), loadEnd := 0, calibrating := false, degraded := false, cmd := some (c.q, c.cid), residentWin := 0 }
  let s2 := updP (startCmd s1 c) p (fun t => { t with wsets := t.wsets ++ [w] })
  let s3 := gs.foldl (fun s g => updR s g.ridge (fun rd => { rd with pos := tset .reset rd.pos g.pos .reset })) s2
  let s4 := prog.foldl (fun s g => queueProgram s p w g) (att.foldl (fun s g => attachTile s id g) s3)
  let fenced := att.filter (fun g => fencedAt (getR s4 g.ridge) g.pos)
  if fenced.isEmpty then s4
  else serviceRope s4 [p] 0 .none (fenced.map (fun g => .tileMap g.ridge g.pos (physOf (getR s4 g.ridge) g.pos) false))
/-- What WSET_LOAD asks for. -/
def wsetLoadKind : CmdKind := { partKind 0x20 [] with pf0Barred := true }
/-- WSET_LOAD: the command waits until the weight set is RESIDENT; RESULT is its id. -/
def execWsetLoad (q : QId) (cid : W16) (s : State) : Out :=
  withOrdered s q cid wsetLoadKind (loadChecks s) (fun c => if (freeService s).isNone then s else wsetSettle (loadStart s c) c.part (wsId (loadBytes s c)))

/-! ### WSET_UNLOAD, WSET_VERIFY -/

def cmdWset (c : Cmd) : W32 := BitVec.ofNat 32 (cmdFld c 0x18 4)
/-- A program or a job uses the weight set, or its load is under way (R56) (DESIGN CHOICE, notes/assumptions/44). -/
def wsetBusy (s : State) (p : Nat) (id : W32) : Bool :=
  (getP s p).progs.any (fun g => g.wset = id) || (match findWset s p id with
    | some w => w.st = .loading
    | none => false)
/-- What WSET_UNLOAD asks for. -/
def wsetUnloadKind : CmdKind := { partKind 0x21 [(0x18, 4)] with pf0Barred := true }
/-- Checks of WSET_UNLOAD. -/
def wsetUnloadChecks (s : State) (c : Cmd) : List (Bool × Nat) := [((findWset s c.part (cmdWset c)).isNone, stField), (wsetBusy s c.part (cmdWset c), stBusy)]
/-- WSET_UNLOAD, admitted. -/
def wsetUnloadDo (s : State) (c : Cmd) : State :=
  match findWset s c.part (cmdWset c) with
  | some w => complete (releaseWset s c.part w) c stSuccess 0
  | none => s
/-- WSET_UNLOAD (R56). -/
def execWsetUnload (q : QId) (cid : W16) (s : State) : Out :=
  withCmd s q cid wsetUnloadKind (wsetUnloadChecks s) (wsetUnloadDo s)
/-- Cells out of their band at a position. -/
def outAt (out : List (Nat × Nat × Nat)) (g : Golden) : Nat := ((out.filter (fun o => o.1 = g.ridge && o.2.1 = g.pos)).map (fun o => o.2.2)).foldl (· + ·) 0
/-- What WSET_VERIFY asks for. -/
def wsetVerifyKind : CmdKind := { partKind 0x22 [(0x18, 4)] with pf0Barred := true }
/-- Checks of WSET_VERIFY. -/
def wsetVerifyChecks (s : State) (c : Cmd) : List (Bool × Nat) := [((findWset s c.part (cmdWset c)).isNone, stField)]
/-- WSET_VERIFY, admitted. -/
def wsetVerifyDo (s : State) (out : List (Nat × Nat × Nat)) (c : Cmd) : State :=
  match findWset s c.part (cmdWset c) with
  | some w =>
    let ns := (sortBy (fun a b => decide (a.order ≤ b.order)) w.golden).map (outAt out)
    let d := ns.flatMap (leBytes 4)
    if dataShort c d.length then complete s c stResource d.length
    else complete (hostWrite s c.port (cmdPtr c) d) c (if ns.all (fun n => n = 0) then stSuccess else stProbe) 0
  | none => s
/-- WSET_VERIFY (R56, R312): counts in container order. -/
def execWsetVerify (q : QId) (cid : W16) (out : List (Nat × Nat × Nat)) (s : State) : Out :=
  withCmd s q cid wsetVerifyKind (wsetVerifyChecks s) (wsetVerifyDo s out)

/-! ### CALIBRATE -/

/-- Every mapped tile of a partition that can be surveyed is (R106). -/
def surveyAll (s : State) (p : Nat) : State :=
  (bitList (getP s p).ridges).foldl (fun s r => (List.range 32).foldl (fun s k =>
    let t := physOf (getR s r) k
    if (mappedResident s r t).isSome && surveyable s r t then requestSurvey s r t else s) s) s
/-- Every ridge's issue is held for 40 ms of converter calibration (R105). -/
def holdAll (s : State) (p : Nat) : State :=
  (bitList (getP s p).ridges).foldl (fun s r => updR s r (fun rd => { rd with calHold := some (s.now + 24000000) })) s
/-- What CALIBRATE asks for. -/
def calibrateKind : CmdKind := { partKind 0x38 [(0x18, 1)] with pf0Barred := true }
/-- Checks of CALIBRATE. -/
def calibrateChecks (_ : State) (c : Cmd) : List (Bool × Nat) := [(decide (2 < cmdFld c 0x18 1), stField)]
/-- CALIBRATE, admitted. -/
def calibrateDo (s : State) (c : Cmd) : State :=
  if (calibrating s c.part).isSome then s
  else
    let m := cmdFld c 0x18 1
    let s1 := startCmd s c
    let s2 := if m = 1 then s1 else holdAll s1 c.part
    calibrateSettle (if m = 0 then s2 else surveyAll s2 c.part) c.part
/-- CALIBRATE: 0 CONVERTER, 1 SURVEY, 2 FULL. A second one of a partition waits for the first (DESIGN CHOICE, notes/assumptions/44). -/
def execCalibrate (q : QId) (cid : W16) (s : State) : Out :=
  withCmd s q cid calibrateKind (calibrateChecks s) (calibrateDo s)

end Sys2Proof.Machine
end

