-- ==== Sys2Proof/Machine/Images.lean ====
section
/-!
DEFINITION. Program images: the HVPI container, its section rules and the static conditions on its streams (R136, R137, R140, R191, R198, R217 to R227, R478), the requirement record (R22), PROG_LOAD and PROG_UNLOAD (R312). A LADDR of another program ridge is checked at load against RIDGES alone; alignment and CONST writes are checked at issue (DEDUCED, notes/assumptions/22).
-/

namespace Sys2Proof.Machine

/-! ### Header and sections (R217 to R219) -/

/-- A section-table entry (R218). -/
structure Sect where
  ty : Nat
  ridge : Nat
  off : Nat
  size : Nat
  crc : Nat
  resv : Bool
  deriving DecidableEq, Repr, Inhabited

def piRidges (b : List Byte) : Nat := fieldAt b 0x18 2
def piCount (b : List Byte) : Nat := fieldAt b 0x1A 2
def piTable (b : List Byte) : Nat := fieldAt b 0x20 8
def piWset (b : List Byte) : W32 := BitVec.ofNat 32 (fieldAt b 0x14 4)
def piEntry (b : List Byte) (i : Nat) : Sect :=
  let o := piTable b + 32 * i
  { ty := fieldAt b o 2, ridge := fieldAt b (o + 2) 2, off := fieldAt b (o + 8) 8, size := fieldAt b (o + 0x10) 8, crc := fieldAt b (o + 0x18) 4
    resv := !zeroAt b (o + 4) 4 || !zeroAt b (o + 0x1C) 4 }
def piSects (b : List Byte) : List Sect := (List.range (piCount b)).map (piEntry b)
/-- DEDUCED, notes/assumptions/22. -/
def sectBytes (b : List Byte) (e : Sect) : List Byte := bytesAt b e.off e.size
/-- The section of a type and program ridge (0xFFFF: the whole image). -/
def sectOf (b : List Byte) (ty k : Nat) : Option (List Byte) := ((piSects b).find? (fun e => e.ty = ty && e.ridge = k)).map (sectBytes b)
def sectOr (b : List Byte) (ty k : Nat) : List Byte := (sectOf b ty k).getD []

/-- Step 1 of R227. -/
def piFrame (b : List Byte) : Bool :=
  let es := piSects b
  fieldAt b 0 4 = 0x49505648 && fieldAt b 4 2 = 1 && inRange (fieldAt b 8 8) 256 b.length && decide (piTable b + 32 * piCount b ≤ fieldAt b 8 8) &&
    es.all (fun e => decide (e.off + e.size ≤ fieldAt b 8 8)) &&
    (List.range es.length).all (fun i => (List.range i).all (fun j =>
      apart (es.getD i default).off (es.getD i default).size (es.getD j default).off (es.getD j default).size))

/-- Header and section-table rules (R217 to R219) (DESIGN CHOICE, notes/assumptions/44). -/
def headerOk (b : List Byte) : Bool :=
  let es := piSects b
  let n := piRidges b
  inRange n 1 48 && piTable b % 64 = 0 && zeroAt b 0x1C 4 && zeroAt b 0x28 24 && zeroAt b 0x60 32 &&
    fieldAt b (0x80 + 0x0C) 4 = n && zeroAt b (0x80 + 0x0A) 2 && zeroAt b (0x80 + 0x4F) 1 && zeroAt b (0x80 + 0x74) 12 &&
    es.all (fun e => inRange e.ty 1 12 && !e.resv && e.off % 64 = 0 && (if 11 ≤ e.ty then e.ridge = 0xFFFF else decide (e.ridge < n))) &&
    (es.map (fun e => (e.ty, e.ridge))).Nodup &&
    (List.range n).all (fun k => [1, 2, 9].all (fun t => (sectOf b t k).isSome)) && (sectOf b 12 0xFFFF).isSome

/-! ### Table sections of a ridge -/

/-- A table of words of n bytes from a section; absent words are 0. -/
def wordsOf (n w : Nat) (b : List Byte) : Tbl (BitVec w) := tOfList 0 ((List.range (b.length / n)).map (fun i => BitVec.ofNat w (fieldAt b (n * i) n)))
def cfgPos (b : List Byte) (k : Nat) : W32 := BitVec.ofNat 32 (fieldAt (sectOr b 2 k) 0 4)
def imgRsc (b : List Byte) (k : Nat) : Tbl W64 := wordsOf 8 64 (sectOr b 3 k)
def imgRescale (b : List Byte) (k : Nat) : Tbl W64 := wordsOf 8 64 (sectOr b 4 k)
def imgFeed (b : List Byte) (k : Nat) : Tbl W32 := wordsOf 4 32 ((sectOr b 6 k).take 4096)
def imgSegs (b : List Byte) (k : Nat) : Tbl W64 := wordsOf 8 64 ((sectOr b 6 k).drop 4096)
def imgDmu (b : List Byte) (k : Nat) : List W256 := (List.range ((sectOr b 7 k).length / 32)).map (fun i => BitVec.ofNat 256 (fieldAt (sectOr b 7 k) (32 * i) 32))
def imgDma (b : List Byte) (k : Nat) : List (BitVec 512) :=
  (List.range ((sectOr b 8 k).length / 64)).map (fun i => BitVec.ofNat 512 (fieldAt (sectOr b 8 k) (64 * i) 64))
/-- A region entry (R224). -/
def imgRegions (b : List Byte) (k : Nat) : List Region :=
  let l := sectOr b 9 k
  (List.range (l.length / 16)).map (fun i =>
    { off := fieldAt l (16 * i) 4, size := fieldAt l (16 * i + 4) 4, kind := fieldAt l (16 * i + 8) 1, live := (fieldAt l (16 * i + 9) 1).testBit 0
      initOff := fieldAt l (16 * i + 12) 4 })
def imgStream (b : List Byte) (k : Nat) : List W128 :=
  let l := sectOr b 1 k
  (List.range (l.length / 16)).map (fun i => BitVec.ofNat 128 (fieldAt l (16 * i) 16))

/-- RIDGE_CFG (R221). -/
def cfgOk (b : List Byte) (k : Nat) : Bool :=
  let l := sectOr b 2 k
  l.length = 16 && decide (fieldAt l 4 1 ≤ 15) && zeroAt l 5 11

/-- Entries that a table descriptor spans (R137). -/
def tableSpan (d : W64) : Nat := descCount d + 257 * (bitList (BitVec.ofNat 6 (descActs d))).length
/-- An activation table (R140). -/
def actOk (t : Tbl W64) (i : Nat) : Bool :=
  let h := tget 0 t i
  f32Finite (BitVec.ofNat 32 (bits h 63 32)) && decide (-24 ≤ sbits h 31 24) && decide (sbits h 31 24 ≤ 24) && zeroBits h 23 0 &&
    (List.range 256).all (fun k =>
      let g := tget 0 t (i + 1 + k)
      f32Finite (BitVec.ofNat 32 (bits g 63 32)) && f32Finite (BitVec.ofNat 32 (bits g 31 0)))
/-- A channel entry (R136, R137). -/
def entryOk (d e : W64) : Bool :=
  !bitAt e 22 && (decide (entAct e ≤ 1) || (decide (entAct e ≤ 7) && (descActs d).testBit (entAct e - 2))) && drnOutput (entFmt e) &&
    (!fmtMX (entFmt e) || descCount d % 32 = 0)
/-- A used table descriptor with its entries (R137). -/
def tableOk (t : Tbl W64) (d : W64) : Bool :=
  zeroBits d 63 38 && zeroBits d 15 14 && !descHalf d && decide (descBase d + tableSpan d ≤ 16384) &&
    (List.range (descCount d)).all (fun i => entryOk d (tget 0 t (descBase d + i))) &&
    (List.range (bitList (BitVec.ofNat 6 (descActs d))).length).all (fun i => actOk t (descBase d + descCount d + 257 * i))
/-- RSC_DESC and RESCALE (R137, R219). -/
def rescaleOk (b : List Byte) (k : Nat) : Bool :=
  let ds := imgRsc b k
  let t := imgRescale b k
  let used := ds.filter (fun d => descCount d.2 ≠ 0)
  (match sectOf b 3 k with
    | some l => l.length = 2048
    | none => true) &&
  (match sectOf b 4 k with
    | some l => l.length = 131072
    | none => true) &&
    ds.all (fun d => descCount d.2 ≠ 0 || d.2 = 0) && used.all (fun d => tableOk t d.2) &&
    used.all (fun d => used.all (fun e => d.1 = e.1 || apart (descBase d.2) (tableSpan d.2) (descBase e.2) (tableSpan e.2))) &&
    t.all (fun x => used.any (fun d => decide (descBase d.2 ≤ x.1) && decide (x.1 < descBase d.2 + tableSpan d.2)))

/-- Rescale groups (R223): entry and members. -/
def grpCount (b : List Byte) : Nat := fieldAt b 0 4
def grpMember (b : List Byte) (i : Nat) : W32 := BitVec.ofNat 32 (fieldAt b (4 + 8 * grpCount b + 4 * i) 4)
def imgGroups (b : List Byte) (k : Nat) : List (Nat × List (Nat × Nat × Nat)) :=
  let l := sectOr b 5 k
  (List.range (grpCount l)).map (fun g =>
    let h := BitVec.ofNat 64 (fieldAt l (4 + 8 * g) 8)
    (bits h 15 0, (List.range (bits h 31 16)).map (fun i =>
      let m := grpMember l (bits h 63 32 + i)
      (bits m 31 26, bits m 25 21, bits m 8 0))))
def groupsOk (b : List Byte) (k : Nat) : Bool :=
  match sectOf b 5 k with
  | none => true
  | some l =>
    let top := 4 + 8 * grpCount l
    decide (4 ≤ l.length) && decide (top ≤ l.length) && (l.length - top) % 4 = 0 &&
      (List.range (grpCount l)).all (fun g =>
        let h := BitVec.ofNat 64 (fieldAt l (4 + 8 * g) 8)
        decide (bits h 15 0 < 16384) && inRange (bits h 31 16) 1 4096 && decide (bits h 63 32 + bits h 31 16 ≤ (l.length - top) / 4)) &&
      (List.range ((l.length - top) / 4)).all (fun i => zeroBits (grpMember l i) 20 9) &&
      (imgGroups b k).all (fun g => g.2.all (fun m => decide (m.1 < piRidges b) && (cfgPos b m.1).toNat.testBit m.2.1))

/-- Two segments drive a row of one position (R191). -/
def segsMeet (a c : Seg) : Bool := (a.mask &&& c.mask) ≠ 0 && decide (a.row0 < c.row0 + c.count) && decide (c.row0 < a.row0 + a.count)
/-- FEED (R191). -/
def feedOk (b : List Byte) (k : Nat) : Bool :=
  match sectOf b 6 k with
  | none => true
  | some l =>
    l.length = 36864 && (imgFeed b k).all (fun d =>
      !bitAt d.2 31 || (zeroBits d.2 30 17 && decide (bits d.2 11 0 + bits d.2 16 12 < 4096) &&
        (match feedSegs (imgFeed b k) (imgSegs b k) d.1 with
          | some fs => fs.all (fun g => decide (g.row0 + g.count ≤ 1024)) &&
              (List.range fs.length).all (fun i => (List.range i).all (fun j => !segsMeet (fs.getD i default) (fs.getD j default)))
          | none => true)))

/-- A descriptor's own rules (R198). -/
def dmuRules (d : DmuDesc) : Bool :=
  !d.bad && decide (d.kind ≤ 1) && decide (d.fa < 15) && decide (d.fb < 15) && decide (d.fc < 15) && inRange d.m 1 4096 && inRange d.n 1 4096 && decide (1 ≤ d.k) &&
    (if d.kind = 1 then decide (d.k ≤ 64) && d.trans = 0 else decide (d.trans ≤ 1)) && f32Finite d.scale
/-- DMU_DESC and DMA_DESC (R198, R219). -/
def descsOk (b : List Byte) (k : Nat) : Bool :=
  (sectOr b 7 k).length % 32 = 0 && decide ((sectOr b 7 k).length ≤ 32 * 512) && (imgDmu b k).all (fun w => dmuRules (dmuOf w)) &&
    (sectOr b 8 k).length % 64 = 0 && decide ((sectOr b 8 k).length ≤ 64 * 4096)

/-- LOAM_LAYOUT and LOAM_INIT (R224). -/
def layoutOk (b : List Byte) (k : Nat) : Bool :=
  let l := sectOr b 9 k
  let rs := imgRegions b k
  l.length % 16 = 0 && decide (rs.length ≤ 64) &&
    (List.range rs.length).all (fun i =>
      let g := rs.getD i default
      g.off % 256 = 0 && g.size % 256 = 0 && decide (g.off + g.size ≤ 1572864) && decide (g.kind ≤ 6) && decide (fieldAt l (16 * i + 9) 1 ≤ 1) &&
        zeroAt l (16 * i + 10) 2 && (if g.kind = 3 then decide (g.initOff + g.size ≤ (sectOr b 10 k).length) else g.initOff = 0) &&
        (List.range i).all (fun j => apart g.off g.size (rs.getD j default).off (rs.getD j default).size))

/-! ### Image-wide sections -/

/-- CAIRN (R225). -/
def imgCairns (b : List Byte) : List CairnDef :=
  let l := sectOr b 11 0xFFFF
  (List.range (l.length / 16)).map (fun i => ⟨fieldAt l (16 * i) 2, fieldAt l (16 * i + 2) 2, BitVec.ofNat 64 (fieldAt l (16 * i + 8) 8)⟩)
def cairnsOk (b : List Byte) : Bool :=
  let l := sectOr b 11 0xFFFF
  let cs := imgCairns b
  l.length % 16 = 0 && decide (cs.length ≤ 4096) && (List.range cs.length).all (fun i => zeroAt l (16 * i + 4) 4) &&
    cs.all (fun c => decide (c.ridge < piRidges b) && c.live.toNat / 2 ^ (imgRegions b c.ridge).length = 0) && (cs.map (fun c => (c.id, c.ridge))).Nodup
/-- BINDINGS (R226): MIN_SIZE and DIR. -/
def imgBindings (b : List Byte) : List (Nat × Nat) :=
  let l := sectOr b 12 0xFFFF
  (List.range (fieldAt l 0 4)).map (fun i => (fieldAt l (4 + 16 * i) 8, fieldAt l (12 + 16 * i) 1))
def bindingsOk (b : List Byte) : Bool :=
  let l := sectOr b 12 0xFFFF
  let n := fieldAt l 0 4
  inRange n 1 64 && l.length = 4 + 16 * n && (List.range n).all (fun i => decide (fieldAt l (12 + 16 * i) 1 ≤ 2) && zeroAt l (13 + 16 * i) 7)

/-! ### The static conditions on an instruction (R478) -/

/-- A LADDR operand of len bytes: an own address lies whole in a declared region, another names a program ridge of the image (DEDUCED, notes/assumptions/22). -/
def laStatic (b : List Byte) (k a len : Nat) : Bool :=
  if laRidge a = 63 || laRidge a = k then inRegion (imgRegions b k) (laOff a) len false else decide (laRidge a < piRidges b)
/-- As laStatic for a MADDR; a virtual address is not checked here (DEDUCED, notes/assumptions/22). -/
def maStatic (b : List Byte) (k m len : Nat) : Bool := decide (2 ^ 48 ≤ m) || laStatic b k (m % 2 ^ 27) len
/-- The table that a DRN or PRE names is in use. -/
def rscUsed (b : List Byte) (k t : Nat) : Bool := descCount (tget 0 (imgRsc b k) t) ≠ 0
def vldStatic (b : List Byte) (k : Nat) (w : W128) : Bool :=
  laStatic b k (vldSrc w) (vecBytes (vldFmt w) (vldLen w)) && (!vldSide w || laStatic b k (vldList w) 8) &&
    (match feedSegs (imgFeed b k) (imgSegs b k) (vldFeed w) with
      | some fs => feedFits fs (vldLen w) && (!fmtMX (vldFmt w) || fs.all (fun g => g.start % 32 = 0))
      | none => false)
def preStatic (b : List Byte) (k : Nat) (w : W128) : Bool :=
  let m := bits w 118 117
  let n := bits w 105 97 + 1
  (m = 0 || laStatic b k (bits w 67 41) (vecBytes (bits w 40 36) n)) &&
    (m ≠ 2 || (rscUsed b k (bits w 35 28) && decide (bits w 27 14 + n ≤ descCount (tget 0 (imgRsc b k) (bits w 35 28)))))
def drnStatic (b : List Byte) (k : Nat) (w : W128) : Bool :=
  let d := tget 0 (imgRsc b k) (bits w 105 98)
  let ch := bits w 97 84
  rscUsed b k (bits w 105 98) &&
    !(decide (ch < descCount d) && fmtMX (entFmt (tget 0 (imgRescale b k) (descBase d + ch))) && ch % 32 ≠ 0) &&
    laStatic b k (bits w 83 57) 1 && (!bitAt w 117 || laStatic b k (bits w 56 30) 1) && (!bitAt w 118 || laStatic b k (bits w 29 3) 8)
def aadStatic (b : List Byte) (k : Nat) (w : W128) : Bool :=
  let n := 4 * (bits w 35 20 + 1)
  match bits w 118 117 with
  | 0 => decide (bits w 105 100 < piRidges b)
  | 1 => maStatic b k (maddrAt w 57) 6400
  | _ => laStatic b k (bits w 111 85) n && maStatic b k (maddrAt w 36) n
def dmmStatic (b : List Byte) (k : Nat) (w : W128) : Bool :=
  match (imgDmu b k)[bits w 111 103]? with
  | none => false
  | some x =>
    let d := dmuOf x
    dmuOk d (bitAt w 118) && laStatic b k (bits w 102 76) (spanA d) && laStatic b k (bits w 75 49) (spanC d) && maStatic b k (maddrAt w 0) (spanB d)
def vopStatic (b : List Byte) (k : Nat) (w : W128) : Bool :=
  let o := bits w 111 108
  let n := bits w 16 0 + 1
  laStatic b k (bits w 107 81) (vecBytes (bits w 26 22) n) && laStatic b k (bits w 53 27) (vecBytes (bits w 21 17) n) &&
    (o = 5 || o = 7 || laStatic b k (bits w 80 54) (if o = 6 then 32 else vecBytes (bits w 26 22) n))
/-- Bytes that RED reads and writes (R174, R177). -/
def redSpans (w : W128) : Nat × Nat :=
  let n := redLen w * redRows w
  (if redOp w = 3 then 32 * n else vecBytes (bits w 57 53) n, if decide (2 ≤ redOp w) then 32 * redRows w else vecBytes (bits w 52 48) (redRows w))
/-- Instructions whose static conditions depend on the image (DEDUCED, notes/assumptions/22). -/
def opStatic (b : List Byte) (k : Nat) (w : W128) : Bool :=
  match opOf w with
  | 0x08 => vldStatic b k w
  | 0x10 => bits w 111 80 &&& (2 ^ 32 - 1 - (cfgPos b k).toNat) = 0
  | 0x11 => bits w 111 80 &&& (2 ^ 32 - 1 - (cfgPos b k).toNat) = 0
  | 0x18 => preStatic b k w
  | 0x19 => drnStatic b k w
  | 0x1A => maStatic b k (maddrAt w 57) 6400
  | 0x1B => maStatic b k (maddrAt w 57) 6400
  | 0x1C => aadStatic b k w
  | 0x20 => dmmStatic b k w
  | 0x21 => vopStatic b k w
  | 0x22 => let z := redSpans w
            laStatic b k (bits w 111 85) z.1 && laStatic b k (bits w 84 58) z.2
  | 0x28 => decide (bits w 111 100 < (sectOr b 8 k).length / 64)
  | 0x31 => bits w 105 100 = 63 || decide (bits w 105 100 < piRidges b)
  | 0x32 => (imgCairns b).any (fun c => c.id = bits w 111 96 && c.ridge = k)
  | _ => true
/-- RBG and REN pair up (R220): true while a rope is open. -/
def ropesPair : Bool → List W128 → Bool
  | o, [] => !o
  | o, w :: t => if opOf w = 0x34 then !o && ropesPair true t else if opOf w = 0x35 then o && ropesPair false t else ropesPair o t
/-- A stream and what its ridge must declare for it (R220, R224, R478). -/
def streamOk (b : List Byte) (k : Nat) : Bool :=
  let l := imgStream b k
  let kinds (n : Nat) : Nat := ((imgRegions b k).filter (fun g => g.kind = n)).length
  (sectOr b 1 k).length % 16 = 0 && inRange l.length 1 1048576 && l.getLast?.any (fun w => opOf w = 0x01) && l.dropLast.all (fun w => opOf w ≠ 0x01) &&
    ropesPair false l && l.all (fun w => !(opOf w = 0x38 || opOf w = 0x39 || opOf w = 0x3A) && !reservedBad true w && opStatic b k w) &&
    (!l.any (fun w => opOf w = 0x08 && bitAt w 118) || kinds 4 = 1) && (!l.any (fun w => opOf w = 0x34) || kinds 5 = 1)

/-- POS_USED names positions of the weight set on its program ridge (R221), where the weight set is loaded (DESIGN CHOICE, notes/assumptions/44). -/
def posUsedOk (s : State) (p : Nat) (b : List Byte) (k : Nat) : Bool :=
  if piWset b = 0 then cfgPos b k = 0
  else match findWset s p (piWset b) with
    | none => true
    | some w => (bitList (cfgPos b k)).all (fun q => w.golden.any (fun g => some g.ridge = mapPhys (getP s p) k && g.pos = q))
/-- Step 3 of R227 (DEDUCED, notes/assumptions/22). -/
def piRules (s : State) (p : Nat) (b : List Byte) : Bool :=
  headerOk b && cairnsOk b && bindingsOk b &&
    (List.range (piRidges b)).all (fun k =>
      cfgOk b k && rescaleOk b k && groupsOk b k && feedOk b k && descsOk b k && layoutOk b k && streamOk b k && posUsedOk s p b k)

/-! ### The requirement record (R22) -/

def reqAt (b : List Byte) (o : Nat) : Nat := fieldAt b (0x80 + o) 4
def capAt (o : Nat) : Nat := fieldAt capRecord o 4
/-- Rows of R22 that answer INVALID_FIELD. -/
def reqFieldOk (b : List Byte) : Bool :=
  reqAt b 8 / 256 % 256 = capAt 8 / 256 % 256 && decide (reqAt b 8 % 256 ≤ capAt 8 % 256) && reqAt b 0x20 = capAt 0x20 &&
    (reqAt b 0x48 &&& (2 ^ 32 - 1 - capAt 0x48)) = 0
/-- Fields and subfields (offset, high bit, low bit) compared by size. -/
def reqSizes : List (Nat × Nat × Nat) :=
  [(0x10, 31, 0), (0x14, 31, 0), (0x18, 31, 0), (0x1C, 31, 0), (0x24, 31, 0), (0x28, 31, 0), (0x2C, 31, 0), (0x30, 31, 0), (0x34, 31, 0), (0x38, 31, 0),
    (0x3C, 31, 0), (0x40, 31, 0), (0x54, 31, 0), (0x70, 31, 16), (0x70, 15, 8), (0x70, 7, 0), (0x68, 31, 16), (0x68, 15, 0)]
/-- Rows of R22 that answer NO_RESOURCE. -/
def reqSizeOk (s : State) (p : Nat) (b : List Byte) : Bool :=
  decide (reqAt b 0x0C ≤ ridgeCount (getP s p).ridges) &&
    reqSizes.all (fun f => decide (bits (BitVec.ofNat 32 (reqAt b f.1)) f.2.1 f.2.2 ≤ bits (BitVec.ofNat 32 (capAt f.1)) f.2.1 f.2.2))

/-! ### PROG_LOAD and PROG_UNLOAD -/

def imgRidge (b : List Byte) (k : Nat) : ProgRidge :=
  { stream := imgStream b k, posUsed := cfgPos b k, cancelShift := fieldAt (sectOr b 2 k) 4 1, rsc := imgRsc b k, rescale := imgRescale b k
    groups := imgGroups b k, feed := imgFeed b k, segs := imgSegs b k, dmu := tOfList 0 (imgDmu b k), dma := tOfList 0 (imgDma b k)
    regions := imgRegions b k, init := sectOr b 10 k }
/-- Stream bytes that a load puts into the firmware part (R247). -/
def streamBytes (b : List Byte) : Nat := ((List.range (piRidges b)).map (fun k => (sectOr b 1 k).length)).foldl (· + ·) 0
def imgProg (b : List Byte) (h : Nat) : Prog :=
  { handle := h, progId := BitVec.ofNat 32 (fieldAt b 0x10 4), wset := piWset b, digest := BitVec.ofNat 256 (fieldAt b 0x40 32), ridges := piRidges b
    parts := (List.range (piRidges b)).map (fun k => (k, imgRidge b k)), cairns := imgCairns b, bindings := imgBindings b, bytes := streamBytes b
    kept := [], tabs := [] }
/-- The five steps of R227, as the container of the command's buffer meets them (DEDUCED, notes/assumptions/22). -/
def progChecks (s : State) (c : Cmd) : List (Bool × Nat) :=
  let b := loadBytes s c
  let t := getP s c.part
  [(!piFrame b, stField), (!digestOk b, stIntegrity), ((piSects b).any (fun e => (crc32c (sectBytes b e)).toNat ≠ e.crc), stIntegrity),
    (!piRules s c.part b, stField), (!reqFieldOk b, stField), (!reqSizeOk s c.part b, stResource),
    ((List.range (piRidges b)).any (fun k => (mapPhys t k).isNone), stResource),
    (piWset b ≠ 0 && (findWset s c.part (piWset b)).isNone, stResource), (decide (fwFree s c.part < streamBytes b), stResource)]
/-- A loaded program's tables go into its ridges where no job runs (R219, R222); another's wait for its next job (DESIGN CHOICE, notes/assumptions/46). -/
def loadProg (s : State) (p : Nat) (g : Prog) : State :=
  let s1 := updP s p (fun t => { t with progs := t.progs ++ [g], nextHandle := t.nextHandle + 1 })
  (List.range g.ridges).foldl (fun s k => match mapPhys (getP s p) k with
    | some r => if (getR s r).job.isNone then loadTables s r p g.handle k else s
    | none => s) s1
/-- What PROG_LOAD asks for. -/
def progLoadKind : CmdKind := { partKind 0x28 [] with pf0Barred := true }
/-- PROG_LOAD, admitted. -/
def progLoadDo (s : State) (c : Cmd) : State :=
  let h := (getP s c.part).nextHandle
  complete (loadProg s c.part (imgProg (loadBytes s c) h)) c stSuccess h
/-- PROG_LOAD: RESULT is the program handle. -/
def execProgLoad (q : QId) (cid : W16) (s : State) : Out :=
  withOrdered s q cid progLoadKind (progChecks s) (progLoadDo s)

/-- A program goes; what a ridge holds of its tables stays as unowned bits (DESIGN CHOICE, notes/assumptions/37). -/
def unloadProg (s : State) (p h : Nat) : State :=
  let s1 := updP s p (fun t => { t with progs := t.progs.filter (fun g => g.handle ≠ h) })
  { s1 with ridges := s1.ridges.map (fun x => (x.1, if x.2.tables = some (p, h) then { x.2 with tables := none } else x.2)) }
/-- What PROG_UNLOAD asks for. -/
def progUnloadKind : CmdKind := { partKind 0x29 [(0x18, 4)] with pf0Barred := true }
/-- Checks of PROG_UNLOAD. -/
def progUnloadChecks (s : State) (c : Cmd) : List (Bool × Nat) := [((findProg s c.part (cmdFld c 0x18 4)).isNone, stField), (s.jobs.any (fun j => j.part = c.part && j.prog = cmdFld c 0x18 4), stBusy)]
/-- PROG_UNLOAD (R312): BUSY while a job of the program has not completed. -/
def execProgUnload (q : QId) (cid : W16) (s : State) : Out :=
  withCmd s q cid progUnloadKind (progUnloadChecks s) (fun c => complete (unloadProg s c.part (cmdFld c 0x18 4)) c stSuccess 0)

end Sys2Proof.Machine
end

