-- ==== Sys2Proof/Machine/Submit.lean ====
section
/-!
DEFINITION. The job commands: JOB_SUBMIT (R264, R317), JOB_RESUME (R254, R261, R262, R319), JOB_CAIRN_EXPORT (R321, R374, R376) and ABORT (R327).
-/

namespace Sys2Proof.Machine

/-! ### Binding tables -/

/-- The n entries of a binding table: host bus address and size. -/
def bindTable (s : State) (c : Cmd) (n : Nat) : List (Nat × Nat) :=
  let b := dataIn s c (16 * n)
  (List.range n).map (fun i => (fieldAt b (16 * i) 8, fieldAt b (16 * i + 8) 8))
/-- A binding table of n entries does not serve a program: too short, misaligned, or a buffer below its MIN_SIZE. -/
def bindsBad (s : State) (c : Cmd) (g : Prog) (n : Nat) : Bool :=
  let l := bindTable s c n
  dataShort c (16 * n) || l.any (fun x => x.1 % 64 ≠ 0) || (l.zip g.bindings).any (fun x => decide (x.1.2 < x.2.1))

/-! ### Exported cairns (R321, R374) -/

/-- A copy's trailer (R374). -/
def trailerBytes (c : CairnCopy) : List Byte :=
  (List.range 56).flatMap (fun i => leBytes 4 (tget 0 c.counters i).toNat) ++ leBytes 4 (c.resume % 2 ^ 20) ++ zeros 4 ++ leBytes 8 c.tagEpoch ++
    leBytes 8 c.tagRidges.toNat ++ zeros 8
def cairnBytes (c : CairnCopy) : List Byte := c.regions.flatMap (fun x => x.2) ++ trailerBytes c
/-- The export: header, then each ridge's live regions and trailer. -/
def exportBytes (job : W32) (handle : Nat) (digest : W256) (h : CairnHalf) : List Byte :=
  leBytes 4 job.toNat ++ leBytes 4 handle ++ leBytes 2 h.id ++ zeros 22 ++ bytes256 digest ++ h.copies.flatMap cairnBytes
/-- The cairn that a JOB's export reads: its valid one, or one that a PROBE_FAIL left (DESIGN CHOICE, notes/assumptions/37). -/
def exportOf (s : State) (p : Nat) (job : W32) : Option (List Byte) :=
  match findJob s p job with
  | some j => match findProg s p j.prog with
    | some g => if (liveHalf j).valid then some (exportBytes job j.prog g.digest (cairnOrder g (liveHalf j))) else none
    | none => none
  | none => ((getP s p).leftCairns.find? (fun x => x.1 = job)).map (fun x => exportBytes job x.2.1 x.2.2.1 x.2.2.2)
/-- What JOB_CAIRN_EXPORT asks for. -/
def jobCairnExportKind : CmdKind := { partKind 0x32 [(0x18, 4)] with onAdmin := false }
/-- Checks of JOB_CAIRN_EXPORT. -/
def jobCairnExportChecks (s : State) (c : Cmd) : List (Bool × Nat) := [((exportOf s c.part (BitVec.ofNat 32 (cmdFld c 0x18 4))).isNone, stState)]
/-- JOB_CAIRN_EXPORT, admitted. -/
def jobCairnExportDo (s : State) (c : Cmd) : State :=
  match exportOf s c.part (BitVec.ofNat 32 (cmdFld c 0x18 4)) with
  | some b => completeOut s c b b.length
  | none => s
/-- JOB_CAIRN_EXPORT: RESULT is the length. -/
def execJobCairnExport (q : QId) (cid : W16) (s : State) : Out :=
  withCmd s q cid jobCairnExportKind (jobCairnExportChecks s) (jobCairnExportDo s)

/-- Region sizes of a cairn entry. -/
def liveSizes (g : Prog) (c : CairnDef) : List (Nat × Nat) :=
  ((tfind g.parts c.ridge).map (fun x => (cairnRegions x c.live).map (fun r => (r.1, r.2.size)))).getD []
/-- Takes the pieces of a copy off the front of exported bytes. -/
def readRegions : List (Nat × Nat) → List Byte → List (Nat × List Byte)
  | [], _ => []
  | (i, n) :: t, b => (i, b.take n) :: readRegions t (b.drop n)
def readCopy (c : CairnDef) (sizes : List (Nat × Nat)) (b : List Byte) : CairnCopy :=
  let n := (sizes.map (fun x => x.2)).foldl (· + ·) 0
  let t := b.drop n
  { ridge := c.ridge, regions := readRegions sizes b, counters := tOfList 0 ((List.range 56).map (fun i => BitVec.ofNat 32 (fieldAt t (4 * i) 4)))
    resume := fieldAt t 0xE0 4 % 2 ^ 20, tagEpoch := fieldAt t 0xE8 8, tagRidges := BitVec.ofNat 48 (fieldAt t 0xF0 8) }
def readCopies (g : Prog) : List CairnDef → List Byte → List CairnCopy
  | [], _ => []
  | c :: t, b =>
    let z := liveSizes g c
    readCopy c z b :: readCopies g t (b.drop ((z.map (fun x => x.2)).foldl (· + ·) 0 + 256))
/-- The exported cairn of a RESTORE, when its header names this program and a cairn of it, and its size is the export's. -/
def readExport (g : Prog) (b : List Byte) : Option CairnHalf :=
  let id := fieldAt b 8 2
  let cs := g.cairns.filter (fun c => c.id = id)
  let n := 64 + (cs.map (fun c => ((liveSizes g c).map (fun x => x.2)).foldl (· + ·) 0 + 256)).foldl (· + ·) 0
  if cs.isEmpty || BitVec.ofNat 256 (fieldAt b 0x20 32) ≠ g.digest || !zeroAt b 0x0A 22 || decide (b.length < n) then none
  else some { id := id, valid := true, copies := readCopies g cs (b.drop 64), dirtySince := false }
/-- The RESTORE entry of a JOB_SUBMIT: the bytes it names. -/
def restoreBytes (s : State) (c : Cmd) (n : Nat) : List Byte :=
  let e := (bindTable s c (n + 1)).getD n (0, 0)
  hostRead s c.port e.1 e.2

/-! ### JOB_SUBMIT -/

def jobProg (s : State) (c : Cmd) : Option Prog := findProg s c.part (cmdFld c 0x18 4)
/-- DESIGN CHOICE, notes/assumptions/35. -/
def jobRestore (c : Cmd) : Bool := (cmdFld c 0x35 1).testBit 1
/-- INVALID_FIELD conditions of R317 once the program is known (DESIGN CHOICE, notes/assumptions/35). -/
def submitBad (s : State) (c : Cmd) (g : Prog) : Bool :=
  let n := cmdFld c 0x36 1
  n ≠ g.bindings.length || bindsBad s c g (n + (if jobRestore c then 1 else 0)) ||
    (jobRestore c && (readExport g (restoreBytes s c n)).isNone)
def wsetResident (s : State) (p : Nat) (g : Prog) : Bool :=
  g.wset = 0 || (findWset s p g.wset).any (fun w => w.st = .resident)
def submitChecks (s : State) (c : Cmd) : List (Bool × Nat) :=
  let id := BitVec.ofNat 32 (cmdFld c 0x1C 4)
  [((jobProg s c).isNone || id = 0 || (findJob s c.part id).isSome || decide (3 < cmdFld c 0x34 1) || decide (3 < cmdFld c 0x35 1) || cmdFld c 0x28 8 % 128 ≠ 0, stField),
    ((jobProg s c).any (submitBad s c), stField), (!(jobProg s c).any (wsetResident s c.part), stState),
    ((jobProg s c).any (fun g => decide (fwFree s c.part < jobRoom g) || (List.range g.ridges).any (fun k => (mapPhys (getP s c.part) k).isNone)), stResource)]
/-- An accepted job: its placement is the ridge map now in force (R55), its restart point the restored cairn when it has one. -/
def newJob (s : State) (c : Cmd) (g : Prog) : Job :=
  let n := cmdFld c 0x36 1
  { part := c.part, id := BitVec.ofNat 32 (cmdFld c 0x1C 4), q := c.q, cid := c.cid, prog := g.handle, st1 := cmdFld c 0x20 8, report := cmdFld c 0x28 8
    timeLimit := cmdFld c 0x30 4, prio := cmdFld c 0x34 1, fence := (cmdFld c 0x35 1).testBit 0, bindings := bindTable s c n, st := .waiting
    placement := (getP s c.part).ridgeMap.take g.ridges, accepted := s.now, applied := [], fault := 0, faultRidge := 0xFF, faultInstr := 0, mmuCause := 0, mmuPosted := 0
    sat := 0, clip := 0, screeOvf := 0, cancel := 0, outsat := 0, esc := 0, fallback := 0, preempts := 0, resumes := 0, ended := []
    fired := 0, epLo := 2 ^ 64 - 1, epHi := 0, firedPos := [], endWaits := none
    halfA := if jobRestore c then (readExport g (restoreBytes s c n)).getD .empty else .empty
    halfB := .empty, liveIsB := false, dirtySince := false, held := [], saved := [], savedSt := .waiting, inDoubt := false, suspects := [], pendingFault := [] }
/-- What JOB_SUBMIT asks for. -/
def jobSubmitKind : CmdKind := { partKind 0x30 [(0x18, 4), (0x1C, 4), (0x20, 8), (0x28, 8), (0x30, 4), (0x34, 1), (0x35, 1), (0x36, 1)] with onAdmin := false }
/-- JOB_SUBMIT, admitted. -/
def jobSubmitDo (s : State) (c : Cmd) : State :=
  match jobProg s c with
  | some g =>
    let s1 := updP (startCmd s c) c.part (fun t => { t with leftCairns := t.leftCairns.filter (fun x => x.1 ≠ BitVec.ofNat 32 (cmdFld c 0x1C 4)) })
    { s1 with jobs := s1.jobs ++ [newJob s c g] }
  | none => s
/-- JOB_SUBMIT: the command waits for the job's end; JOB_START begins it. -/
def execJobSubmit (q : QId) (cid : W16) (s : State) : Out :=
  withOrdered s q cid jobSubmitKind (submitChecks s) (jobSubmitDo s)

/-! ### JOB_RESUME -/

/-- The job is suspended, also while it is saved. -/
def isSuspended (j : Job) : Bool := j.st = .suspended || (j.st = .saved && j.savedSt = .suspended)
/-- A stream stopped by PAGE_FAULT goes on. -/
def unfault (c : CtxSt) : CtxSt := if c.fault.any (fun f => f.1 = 0x12) then { c with fault := none, run := true } else c
/-- TLB entries of a job in a range of DVAs go (R254); all ones names the whole space. -/
def dropTlb (s : State) (p : Nat) (id : W32) (base len : Nat) : State :=
  { s with mem := { s.mem with tlb := s.mem.tlb.filter (fun e =>
      !(e.part = p && e.job = id && (len = 2 ^ 64 - 1 || (decide (e.base < base + len) && decide (base < e.base + e.size))))) } }
/-- The suspended job's streams issue again (R215, R261 step 5); a saved one at its restore (R262) (DESIGN CHOICE, notes/assumptions/35). -/
def resumeJob (s : State) (j : Job) : State :=
  let on := (jobRidges j).filter (fun r => (getR s r).job = some (j.part, j.id))
  let s1 := on.foldl (fun s r => updCtx s r .job unfault) s
  let s2 := updJob s1 j.part j.id (fun k => { k with
    st := (if k.st = .suspended then .running else k.st), savedSt := (if k.savedSt = .suspended then .running else k.savedSt)
    saved := k.saved.map (fun x => (x.1, { x.2 with ctx := unfault x.2.ctx })), pendingFault := k.pendingFault.filter (fun f => f ≠ 0x12), mmuPosted := 0
    fault := (if k.fault = 0x12 then 0 else k.fault), faultRidge := (if k.fault = 0x12 then 0xFF else k.faultRidge)
    faultInstr := (if k.fault = 0x12 then 0 else k.faultInstr) })
  let s3 := on.foldl settleRidge s2
  match findJob s3 j.part j.id with
  | some k => if k.st = .running && k.suspects.isEmpty then releaseHeld s3 k else s3
  | none => s3
/-- REBIND: new addresses, and the job's completion moves to the queue of this command (R319). -/
def rebind (s : State) (c : Cmd) (j : Job) (l : List (Nat × Nat)) : State :=
  let s1 := { s with host := { s.host with cmds := s.host.cmds.map (fun d =>
    if d.q = j.q && d.cid = j.cid && fieldAt d.entry 0 1 = 0x30 then { d with q := c.q, port := c.port, fn := c.fn } else d) } }
  updJob s1 j.part j.id (fun k => { k with bindings := l, q := c.q })
/-- DESIGN CHOICE, notes/assumptions/35. -/
def resumeBad (s : State) (c : Cmd) : Bool :=
  let n := cmdFld c 0x28 8
  decide (1 < cmdFld c 0x1C 1) || cmdFld c 0x20 8 % 4096 ≠ 0 || (n ≠ 2 ^ 64 - 1 && n % 4096 ≠ 0) || cmdFld c 0x30 8 % 128 ≠ 0 ||
    (match findJob s c.part (BitVec.ofNat 32 (cmdFld c 0x18 4)) with
      | none => true
      | some j => (cmdFld c 0x1C 1).testBit 0 && (findProg s c.part j.prog).any (fun g => bindsBad s c g g.bindings.length))
/-- What JOB_RESUME asks for. -/
def jobResumeKind : CmdKind := { partKind 0x31 [(0x18, 4), (0x1C, 1), (0x20, 8), (0x28, 8), (0x30, 8)] with onAdmin := false }
/-- Checks of JOB_RESUME. -/
def jobResumeChecks (s : State) (c : Cmd) : List (Bool × Nat) :=
  [(resumeBad s c, stField),
  ((findJob s c.part (BitVec.ofNat 32 (cmdFld c 0x18 4))).any (fun j => s.col.rappels.any (fun k => inScopeJob k j)), stAborted)]
/-- JOB_RESUME, admitted. -/
def jobResumeDo (s : State) (c : Cmd) : State :=
  match findJob s c.part (BitVec.ofNat 32 (cmdFld c 0x18 4)) with
  | none => s
  | some j =>
    let s1 := dropTlb s j.part j.id (cmdFld c 0x20 8) (cmdFld c 0x28 8)
    let s2 := if (cmdFld c 0x1C 1).testBit 0 then rebind s1 c j (bindTable s c (((findProg s c.part j.prog).map (fun g => g.bindings.length)).getD 0)) else s1
    let s3 := updJob s2 j.part j.id (fun k => { k with report := (if cmdFld c 0x30 8 = 0 then k.report else cmdFld c 0x30 8), resumes := k.resumes + 1 })
    complete (if !isSuspended j then s3
      else if j.inDoubt then endJob (updJob s3 j.part j.id (fun k => { k with mmuCause := 0x06 })) j [stIntegrity]
      else resumeJob s3 j) c stSuccess 0
/-- JOB_RESUME. -/
def execJobResume (q : QId) (cid : W16) (s : State) : Out :=
  withCmd s q cid jobResumeKind (jobResumeChecks s) (jobResumeDo s)

/-! ### ABORT -/

/-- The jobs an ABORT names (R327) (DEDUCED, notes/assumptions/36). -/
def abortJobs (s : State) (c : Cmd) : List Job :=
  s.jobs.filter (fun j => j.part = c.part && (if cmdFld c 0x18 1 = 0 then j.id.toNat = cmdFld c 0x1C 4 else j.q = .io (cmdFld c 0x1C 2)))
/-- What ABORT asks for. -/
def abortKind : CmdKind := partKind 0x3F [(0x18, 1), (0x1C, 4)]
/-- Checks of ABORT. -/
def abortChecks (_ : State) (c : Cmd) : List (Bool × Nat) := [(decide (1 < cmdFld c 0x18 1) || (cmdFld c 0x18 1 = 1 && cmdFld c 0x1E 2 ≠ 0), stField)]
/-- ABORT, admitted. -/
def abortDo (s : State) (c : Cmd) : State :=
  let l := abortJobs s c
  if l.any (jobLocked s) then s
  else complete (l.foldl (fun s j => endJob s j [if isSuspended j then stPageFault else stAborted]) s) c stSuccess l.length
/-- ABORT: RESULT is the number of jobs ended. It waits for a locked rope of one of them (DEDUCED, notes/assumptions/36). -/
def execAbort (q : QId) (cid : W16) (s : State) : Out :=
  withCmd s q cid abortKind (abortChecks s) (abortDo s)

end Sys2Proof.Machine
end

