-- ==== Sys2Proof/Machine/Attest.lean ====
section
/-!
DEFINITION. Attestation reports (R405 to R408) and firmware update (R409 to R411).
-/

namespace Sys2Proof.Machine

/-! ### What a report shows -/

def tdiCode : Tdi → Nat
  | .none => 0
  | .unlocked => 1
  | .locked => 2
  | .run => 3
  | .error => 4
/-- A layout entry (R406). -/
def layoutEntry (t : Part) : List Byte :=
  if t.st = .free then zeros 48
  else layFields 48 [(0, 1, partCode t.st), (1, 1, t.pflags.toNat), (2, 1, portCode t.port), (3, 1, t.bcShare), (4, 2, t.ways.toNat), (8, 8, t.ridges.toNat),
    (0x10, 16, t.ranges.toNat), (0x20, 1, tdiCode t.tdi)]
def layoutBytes (s : State) : List Byte := (List.range 16).flatMap (fun p => layoutEntry (getP s p))
/-- JTAG reaches the internal TAP: in debug state, never in confidential state (R402, R403). -/
def jtagOn (s : State) : Bool := debugState s && !confidentialState s
/-! ### The debug aperture (R154, R238, R403) (DESIGN CHOICE, notes/assumptions/65: no row of the table accesses it) -/

/-- A ridge whose Loam and slots BAR4 shows: the owner is a debug partition, and no confidential partition exists (R402, R403). -/
def apertureRidge (s : State) (r : Nat) : Bool := jtagOn s && match ownerOf s r with
  | some p => debugMode (getP s p)
  | none => false
/-- A slot's window: entries, companions, ACC_SLOT_STATE, ledger (R150 to R152, R238, R369). -/
def slotWindow (k : Slot) : List Byte :=
  (List.range 512).flatMap (fun i => leBytes 8 (entryWord (slotEntry k i))) ++ (List.range 512).flatMap (fun i => leBytes 4 (slotComp k i).toNat) ++
    leBytes 8 (slotState k).toNat ++ ledgerBytes k.ledger
/-- What PF0 reads at a byte of BAR4 (R238); a poisoned CDU reads as all ones. -/
def apertureByte (s : State) (a : Nat) : Byte :=
  if a < 0x6000000 then
    let r := a / 0x200000
    let o := a % 0x200000
    if apertureRidge s r && decide (o < 0x180000) then (if loamBad (getR s r) o 1 then 0xFF else loamByte (getR s r) r o) else 0
  else if a < 0x7800000 then
    let r := (a - 0x6000000) / 0x80000
    if apertureRidge s r then (slotWindow (getSlot s r ((a - 0x6000000) % 0x80000 / 0x2000))).getD (a % 0x2000) 0 else 0
  else 0
/-- A write through BAR4 of bytes that lie in one Loam window; anywhere else it is ignored (R238, R371). -/
def apertureWrite (s : State) (p : Port) (a : Nat) (d : List Byte) : State :=
  let r := a / 0x200000
  let o := a % 0x200000
  if decide (a < 0x6000000) && apertureRidge s r && decide (o + d.length ≤ 0x180000) then (stLoam s (srcHost p) ⟨r, o⟩ d tagPlain).1 else s

/-! ### The report's fields -/

/-- FUSE_STATE (R405) (DESIGN CHOICE, notes/assumptions/38). -/
def fuseState (s : State) : List Byte :=
  leBytes 32 ((if Config.dbgPermit then 1 else 0) + Config.fuseBits.toNat * 2 + (2 ^ s.sec.svnMin - 1) * 2 ^ 8)
/-- DEBUG_STATE (R405). -/
def debugBytes (s : State) : List Byte :=
  leBytes 16 ((if debugState s then 1 else 0) + (if s.sec.debugBoot then 2 else 0) + (if jtagOn s then 4 else 0) +
    (maskOf 16 ((List.range 16).filter (fun p => (getP s p).st ≠ .free && debugMode (getP s p)))).toNat * 8)
/-- A committed image has not started yet (R411). -/
def commitPending (s : State) : Bool := s.sec.selB != s.sec.runB
/-- DIGEST_STAGED: of the staged image, or of the committed one that waits for its start (DESIGN CHOICE, notes/assumptions/38). -/
def stagedDigest (s : State) : List Byte :=
  match s.sec.staged with
  | some i => bytes256 i.digest
  | none => if commitPending s then (match slotImage s s.sec.selB with
      | some i => bytes256 i.digest
      | none => zeros 32) else zeros 32
/-- Bytes 0x000 to 0x42F of a report (R405). len: LENGTH; who: REQUESTER (DESIGN CHOICE, notes/assumptions/38). -/
def reportHead (s : State) (ty len who : Nat) (nonce : List Byte) : List Byte :=
  let fl := (if s.sec.staged.isSome then 1 else 0) + (if commitPending s then 2 else 0) + (if debugState s then 4 else 0) +
    (if confidentialState s then 8 else 0) + (if s.sec.jtagSince then 16 else 0)
  layFields 16 [(0, 4, 0x54415648), (4, 2, 0x0100), (6, 1, ty), (7, 1, fl), (8, 4, len), (12, 1, who)] ++ bytesAt nonce 0 32 ++ serialBytes ++
    leBytes 4 hbId.toNat ++ leBytes 4 s.links.boot.toNat ++ leBytes 8 s.sec.layoutSeq ++ leBytes 8 (lastSeq s) ++ leBytes 4 s.sec.running.svn ++ leBytes 4 s.sec.svnMin ++
    bytes256 Config.digestBedrock ++ bytes256 s.sec.running.dPror ++ bytes256 s.sec.running.dPmu ++ bytes256 s.sec.running.dUcode ++ stagedDigest s ++
    fuseState s ++ debugBytes s ++ layoutBytes s
/-- An Alias-key signature over bytes (R405). -/
def signed (b : List Byte) : List Byte := (List.range 64).map (Config.aliasSign (sha256 b))
/-- The entries of a forerunner-compatible report (R407); hide: a confidential partition's digests are zero (R401). -/
def reportEntries (s : State) (ps : List Nat) (hide : Bool) : List (List Byte) :=
  (ps.flatMap (fun p =>
    let t := getP s p
    let dg (d : W256) : List Byte := if hide && confidential t then zeros 32 else bytes256 d
    (t.progs.map (fun g => layFields 8 [(1, 1, p), (4, 4, g.handle)] ++ dg g.digest)) ++
      (t.wsets.map (fun w => layFields 8 [(0, 1, 1), (1, 1, p), (4, 4, w.id.toNat)] ++ dg w.digest)))).take 448
/-- The length of a certificate: none is empty (R404). -/
def certSize (k : Nat) : Nat := Config.certLen k + 1
/-- The DeviceID and Alias certificates (R404, R405). -/
def certChain : List Byte :=
  ([0, 1] : List Nat).flatMap (fun k => leBytes 4 (certSize k) ++ (List.range (certSize k)).map (Config.certByte k))

/-! ### ATTEST -/

/-- A function's FLR is in progress. -/
def flrRunning (s : State) (p : Nat) : Bool := s.col.rappels.any (fun k => k.why = .flr p)
/-- A PARTITION_LAYOUT rope is staged. -/
def layoutStaged (s : State) : Bool :=
  s.ropes.any (fun x => (x.2.st = .staged || x.2.st = .locked) && x.2.actions.any (fun a => actionCode a = 9))
/-- The instant of a report is not yet there (R408) (DESIGN CHOICE, notes/assumptions/38). -/
def attestWaits (s : State) (c : Cmd) : Bool :=
  layoutStaged s ||
    (if viaPf0 c then cmdFld c 0x18 1 = 1 && (List.range 16).any (fun p => (getP s p).st = .scrubbing || (getP s p).st = .initialising || flrRunning s p)
     else flrRunning s c.part)
def attestBytes (s : State) (c : Cmd) : List Byte :=
  let nonce := bytesAt c.entry 0x20 32
  let who := if viaPf0 c then 0xFF else c.part
  match cmdFld c 0x18 1 with
  | 0 => let b := reportHead s 0 1136 who nonce
         b ++ signed b
  | 1 => let es := reportEntries s (if viaPf0 c then List.range 16 else [c.part]) (viaPf0 c)
         let b := reportHead s 1 (1140 + 40 * es.length) who nonce ++ leBytes 4 es.length ++ es.flatten
         b ++ signed b
  | _ => certChain
/-- What ATTEST asks for. -/
def attestKind : CmdKind := { kindOf 0x40 [(0x18, 1), (0x20, 32)] with unlocked := true, inError := true }
/-- Checks of ATTEST. -/
def attestChecks (_ : State) (c : Cmd) : List (Bool × Nat) := [(decide (2 < cmdFld c 0x18 1), stField)]
/-- ATTEST, admitted. -/
def attestDo (s : State) (c : Cmd) : State :=
  if attestWaits s c then (if c.busy && decide (c.began + 3000000 < s.now) then complete s c stState 0 else startCmd s c)
  else completeOut s c (attestBytes s c) 0
/-- ATTEST: one that waits is looked at again; a wait beyond 5 ms ends it with PARTITION_STATE (DESIGN CHOICE, notes/assumptions/38). -/
def execAttest (q : QId) (cid : W16) (s : State) : Out :=
  match s.host.cmds.find? (fun c => c.q = q && c.cid = cid && c.busy && cmdOp c = 0x40) with
  | some c => if awake s && s.cmc.fw = .running then .next (attestDo s c) else .next s
  | none => withCmd s q cid attestKind (attestChecks s) (attestDo s)

/-! ### Firmware update -/

def fwLength (b : List Byte) : Nat := fieldAt b 8 8
/-- The image of the command's buffer. -/
def fwBytes (s : State) (c : Cmd) : List Byte :=
  let b := if cmdPtr c = 0 then [] else dataIn s c (min (cmdLen c) (2 ^ 24))
  if fwLength b ≤ b.length then b.take (fwLength b) else b
def fwComponent (b : List Byte) (k : Nat) : Nat × Nat := (fieldAt b (0x80 + 16 * k) 8, fieldAt b (0x88 + 16 * k) 8)
/-- The header of R410 is malformed. -/
def fwMalformed (b : List Byte) : Bool :=
  fieldAt b 0 4 ≠ 0x57465648 || fieldAt b 4 2 ≠ 0x0100 || !zeroAt b 6 2 || !inRange (fwLength b) 256 b.length || !inRange (fieldAt b 0x10 4) 1 32 || !zeroAt b 0x16 10 ||
    !zeroAt b 0xB0 16 || (List.range 3).any (fun k => decide (b.length < (fwComponent b k).1 + (fwComponent b k).2))
/-- The fused key verifies a signature of a header digest: it accepts the one that the key's holder gives (R410) (DESIGN CHOICE, notes/assumptions/11). -/
def fwSigned (d : W256) (sig : List Byte) : Bool := decide (sig = leBytes 64 (Config.fwKeySign d).toNat) || Config.fwKeyVerify d sig
/-- What the fused key, the component digests or the minimum SVN reject (R410). -/
def fwRejected (s : State) (b : List Byte) : Bool :=
  !fwSigned (sha256 (bytesAt b 0 0xC0)) (bytesAt b 0xC0 64) || decide (fieldAt b 0x10 4 < s.sec.svnMin) ||
    (List.range 3).any (fun k =>
      let x := fwComponent b k
      decide (x.1 + x.2 ≤ b.length) && sha256 (bytesAt b x.1 x.2) ≠ BitVec.ofNat 256 (fieldAt b (0x20 + 32 * k) 32))
def fwImage (b : List Byte) : FwImage :=
  { major := fieldAt b 0x14 1, minor := fieldAt b 0x15 1, svn := fieldAt b 0x10 4, digest := sha256 b
    dPror := BitVec.ofNat 256 (fieldAt b 0x20 32), dPmu := BitVec.ofNat 256 (fieldAt b 0x40 32), dUcode := BitVec.ofNat 256 (fieldAt b 0x60 32) }
/-- The slot not selected holds this image. -/
def putSlot (s : State) (i : Option FwImage) : State :=
  { s with sec := (if s.sec.selB then { s.sec with slotA := i, staged := i } else { s.sec with slotB := i, staged := i }) }
/-- What FW_STAGE asks for. -/
def fwStageKind : CmdKind := adminKind 0x50 []
/-- FW_STAGE, admitted (DESIGN CHOICE, notes/assumptions/39). -/
def fwStageDo (s : State) (c : Cmd) : State :=
  let b := fwBytes s c
  let l := [(fwMalformed b, stField), (fwRejected s b, stAuth)]
  let i := fwImage b
  if l.any (fun x => x.1) then complete (securityEvent (putSlot s none) 0x06 0xFF 0 0 0 (imageId (some i))) c (failStatus l) 0
  else complete (securityEvent (putSlot s (some i)) 0x05 0xFF 0 0 0 (imageId (some i))) c stSuccess 0
/-- FW_STAGE: writes the slot not selected, and verifies it as Bedrock would; a rejected image is no valid one (R409) (DESIGN CHOICE, notes/assumptions/39). -/
def execFwStage (q : QId) (cid : W16) (s : State) : Out :=
  withCmd s q cid fwStageKind (fun _ => []) (fwStageDo s)
/-- What FW_COMMIT asks for. -/
def fwCommitKind : CmdKind := adminKind 0x51 []
/-- Checks of FW_COMMIT. -/
def fwCommitChecks (s : State) (_ : Cmd) : List (Bool × Nat) := [(s.sec.staged.isNone, stState)]
/-- FW_COMMIT: a rope selects the staged slot (R285, R411). -/
def execFwCommit (q : QId) (cid : W16) (s : State) : Out :=
  withCmd s q cid fwCommitKind (fwCommitChecks s) (fun c => if (freeService s).isNone || claimed s (8, 0, 0) then s else serviceRope (startCmd s c) [] 0 (.firmware q cid) [.fwCommit])

end Sys2Proof.Machine
end

