-- ==== Sys2Proof/Machine/Links.lean ====
section
/-!
DEFINITION. The Alelval ports: the link layer and its states (R332 to R335, R354), management frames and their limits (R345, R351), hails, peers and their states (R344 to R348), routes (R347), reports and their coalescing (R352, R353, R355). Frames a port sends stand in Links.sent until the partner acknowledges them.
-/

namespace Sys2Proof.Machine

/-! ### LINK events (R354) -/

/-- Negotiated width: 4, 2, or 0 before training ends. -/
def linkWidth (l : LinkSt) : Nat := match l.trained with
  | some true => 2
  | some false => 4
  | none => 0
def linkPayload (n : Nat) (l : LinkSt) : List Byte :=
  layFields 32 [(0, 1, n), (1, 1, linkWidth l), (2, 2, l.partner), (4, 4, l.replayed), (8, 8, l.corrected), (16, 4, l.dropped)]
/-- RETRAIN, MGMT_DROP, MISROUTE and MALFORMED are coalesced by port. -/
def linkCoalesced (cause : Nat) : Bool := cause = 4 || cause = 6 || cause = 7 || cause = 8
/-- A LINK event of a port; one that is not coalesced restarts the count of dropped frames. -/
def linkEvent (s : State) (n cause : Nat) : State :=
  let l := linkOf s n
  if linkCoalesced cause then raiseCoal s 2 1 0 (mkEv 0x09 cause (srcLink n) 0xFF (linkPayload n l))
  else setLink (raise s (srcLink n) 0x09 cause 0xFF (linkPayload n l)) n { l with dropped := 0 }
/-- A frame is dropped and counted; cause 0 raises nothing. -/
def dropFrame (s : State) (n cause : Nat) : State :=
  let l := linkOf s n
  let s1 := setLink s n { l with dropped := l.dropped + 1 }
  if cause = 0 then s1 else linkEvent s1 n cause

/-! ### Management frames (R351) -/

/-- 2^7 CMC cycles. -/
def mgmtCycles : Nat := 128
/-- A management frame dropped under R351. -/
def mgmtDrop (s : State) (n : Nat) : State :=
  dropFrame { s with links := { s.links with rateDropped := s.links.rateDropped + 1 } } n 6
/-- Sends a management frame: one per 2^7 cycles, 256 queued. -/
def sendMgmt (s : State) (n : Nat) (f : Frame) : State :=
  let l := linkOf s n
  let t := max l.mgmt s.now
  if s.now + 256 * mgmtCycles ≤ t then mgmtDrop s n else sendFrame (setLink s n { l with mgmt := t + mgmtCycles }) n f
/-- The bucket as time has refilled it: frames, and when the last one was gained. -/
def bucketNow (s : State) (l : LinkSt) : Nat × Nat :=
  let k := (s.now - l.bucketAt) / mgmtCycles
  if 4096 ≤ l.bucket + k then (4096, s.now) else (l.bucket + k, l.bucketAt + k * mgmtCycles)
/-- Admits a channel-2 frame, or none when the bucket is empty. -/
def admitMgmt (s : State) (n : Nat) : Option State :=
  let l := linkOf s n
  let b := bucketNow s l
  if b.1 = 0 then none else some (setLink s n { l with bucket := b.1 - 1, bucketAt := b.2 })

/-! ### Hails (R344, R345) -/

/-- Bit p: partition p is absent or being scrubbed. -/
def unavailMask (s : State) : W16 :=
  maskOf 16 ((List.range 16).filter (fun p => (getP s p).st = .free || (getP s p).st = .scrubbing))
/-- The identity record as a port sends it. -/
def identityRecord (s : State) (n : Nat) : List Byte :=
  overlay (layFields 64 [(0, 4, 0x44494C41), (4, 2, s.links.devId + (if s.links.idValid then 0x8000 else 0)), (6, 2, 0x0100), (8, 4, hbId.toNat),
    (0x0C, 4, s.links.boot.toNat), (0x20, 1, n), (0x21, 1, linkWidth (linkOf s n)), (0x22, 2, (unavailMask s).toNat)]) 0x10 serialBytes
def sendHail (s : State) (n : Nat) : State := sendMgmt s n (mkFrame s 0xC s.links.devId 0 0 0 0 4 true (identityRecord s n))
def upPorts (s : State) : List Nat := (List.range 8).filter (linkUp s)
/-- HAIL_SEND: every 2^20 CMC cycles on every UP or UP_X2 port (DESIGN CHOICE, notes/assumptions/29). -/
def execHailSend (s : State) : Out :=
  if awake s && decide (s.links.lastHail + 2 ^ 20 ≤ s.now) then
    .next ((upPorts s).foldl sendHail { s with links := { s.links with lastHail := s.now } })
  else .next s

/-! ### Link states (R334, R335) -/

/-- A port's power and clock domain is on. -/
def portOn (s : State) (n : Nat) : Bool := domOn s (202 + n / 2)
/-- Replayed codewords are counted; past 65,536 in the ERROR_RATE window REPLAY_RATE is raised once. -/
def countReplays (s : State) (n k : Nat) : State :=
  let l := linkOf s n
  let s1 := setLink s n { l with replayed := l.replayed + k, replays := if k = 0 then l.replays else l.replays + 1 }
  if l.replayed ≤ 65536 && decide (65536 < l.replayed + k) then linkEvent s1 n 5 else s1
/-- The port trains (again); its replay buffer is kept (DESIGN CHOICE, notes/assumptions/28). -/
def startTraining (s : State) (n : Nat) : State :=
  let l := linkOf s n
  linkEvent (setLink s n { l with st := .training, trained := none, hailSent := false, hailHeard := false, replays := 0, nak := none }) n 4
/-- Training is over and both hails are exchanged: the port carries frames, and what it has not had acknowledged is resent (DESIGN CHOICE, notes/assumptions/28). -/
def goUp (s : State) (n : Nat) : State :=
  let l := linkOf s n
  match l.st, l.trained with
  | .training, some x2 =>
    if l.hailSent && l.hailHeard then
      linkEvent (countReplays (setLink s n { l with st := (if x2 then .upX2 else .up), lastAck := s.now }) n (unacked s n)) n (if x2 then 3 else 1)
    else s
  | _, _ => s
/-- LINK_TRAINING_COMPLETE: at x4 or x2; the port hails, and is up once it has heard a hail (R345). -/
def execLinkTrainingComplete (n : Alv) (x2 : Bool) (s : State) : Out :=
  let l := linkOf s n
  if awake s && portOn s n && l.st = .training && l.trained.isNone then
    let s1 := sendHail (setLink s n { l with trained := some x2, fails := 0 }) n
    .next (goUp (setLink s1 n { linkOf s1 n with hailSent := true }) n)
  else .next s
/-- RETRAIN: a port that carries frames begins a retrain. -/
def execRetrain (n : Alv) (s : State) : Out :=
  if awake s && linkUp s n then .next (startTraining s n) else .next s
/-- LINK_LOCK_LOST. -/
def execLinkLockLost (n : Alv) (s : State) : Out :=
  if awake s && linkUp s n then .next (startTraining s n) else .next s
/-- ACK_TIMEOUT: a codeword replayed 8 times, or 2^12 CMC cycles without any ACK, while codewords are unacknowledged. -/
def execAckTimeout (n : Alv) (s : State) : Out :=
  let l := linkOf s n
  if awake s && linkUp s n && decide (0 < unacked s n) && (decide (8 ≤ l.replays) || decide (l.lastAck + 2 ^ 12 ≤ s.now)) then
    .next (startTraining s n)
  else .next s

/-- Drops the first k frames of a port. -/
def dropSent (n : Nat) : Nat → List (Nat × Frame) → List (Nat × Frame)
  | _, [] => []
  | 0, l => l
  | k + 1, x :: t => if x.1 = n then dropSent n k t else x :: dropSent n (k + 1) t
/-- An ACK naming the next SEQ the partner expects; one that names no codeword in flight is ignored. -/
def takeAck (s : State) (n a : Nat) : State :=
  let l := linkOf s n
  let k := (a + 256 - l.acked) % 256
  if unacked s n < k then s
  else
    let s1 := { s with links := { s.links with sent := dropSent n k s.links.sent } }
    setLink s1 n { l with acked := a % 256, txSeq := (a + unacked s1 n) % 256, replays := (if k = 0 then l.replays else 0), lastAck := s.now }
/-- CODEWORD_RECEIVE (R333, R334): discarded when uncorrectable or of a reserved CTL; accepted only in SEQ order; a NAK has the codewords from ACK onward replayed (DESIGN CHOICE, notes/assumptions/28). -/
def execCodewordReceive (n : Alv) (cw : Codeword) (s : State) : Out :=
  let l := linkOf s n
  if !awake s || !(linkUp s n || (l.st = .training && l.trained.isSome)) then .next s
  else if !cw.correctable || decide (4 ≤ cw.ctl) then .next (setLink s n { l with nak := some l.rxSeq })
  else
    let s1 := takeAck (setLink s n { l with corrected := l.corrected + cw.corrected }) n cw.ack
    let s2 := if cw.ctl = 1 then countReplays s1 n (unacked s1 n) else s1
    let l2 := linkOf s2 n
    if cw.ctl = 0 || cw.ctl = 3 then
      .next (setLink s2 n (if cw.seq = l.rxSeq then { l2 with rxSeq := (l.rxSeq + 1) % 256, nak := none } else { l2 with nak := some l.rxSeq }))
    else .next s2

/-! ### Peer events, reports and episodes (R351 to R353, R355) -/

/-- LOST and DUPLICATE_ID begin or continue an episode; RETURNED ends it (DESIGN CHOICE, notes/assumptions/30). -/
def episodeOcc (s : State) (subject cause : Nat) : State :=
  let live (e : Episode) : Bool := e.subject = subject && !e.ended
  let old := s.links.episodes
  let begun := if old.any live then old.map (fun e => if live e then { e with count := e.count + 1 } else e) else old ++ [⟨subject, cause, 1, false, false⟩]
  let past := (old.filter (fun e => !(live e && e.logged))).map (fun e => if live e then { e with ended := true } else e)
  { s with links := { s.links with episodes := if cause = 2 || cause = 4 then begun else if cause = 3 then past else old } }
def peerEv (subject cause : Nat) : Ev := mkEv 0x0A cause (srcLink 0) 0xFF (layFields 32 [(0, 2, subject)])
/-- One occurrence in the coalescing table of 256 entries: a report on a port, or this device's own detection. -/
def peerOcc (s : State) (subject cause : Nat) (port : Option Nat) (reporter : Nat) (boot : W32) : State :=
  let old := s.links.coal.find? (fun c => c.subject = subject && c.cause = cause)
  if old.isNone && decide (256 ≤ s.links.coal.length) then { s with links := { s.links with coalDropped := s.links.coalDropped + 1 } }
  else
    let s1 := raiseCoal (episodeOcc s subject cause) 2 2 0 (peerEv subject cause)
    let k := ((findCoal s1 2 2 (peerEv subject cause)).map (fun x => x.1)).getD 0
    let c := old.getD { subject := subject, cause := cause, coal := k, localSeen := false, ports := 0, firstReporter := reporter, boot := boot }
    let fresh := !c.localSeen && c.ports = 0
    let c1 : PeerCoal := { c with
      coal := k, localSeen := c.localSeen || port.isNone, boot := boot, firstReporter := if fresh then reporter else c.firstReporter
      ports := c.ports ||| (match port with
        | some n => BitVec.ofNat 8 (2 ^ n)
        | none => 0) }
    { s1 with links := { s1.links with coal := s1.links.coal.filter (fun x => !(x.subject = subject && x.cause = cause)) ++ [c1] } }
/-- A REPORT on every port that carries frames. -/
def sendReports (s : State) (subject cause : Nat) (boot : W32) : State :=
  if !s.links.idValid then s
  else (upPorts s).foldl (fun s n =>
    sendMgmt s n (mkFrame s 0xD s.links.devId 0 0 0 0 1 true (layFields 16 [(0, 2, subject), (2, 1, cause), (4, 4, boot.toNat)]))) s
/-- A change of R348 on this device. -/
def peerChange (s : State) (subject cause : Nat) (boot : W32) : State :=
  let s1 := peerOcc s subject cause none s.links.devId boot
  if cause = 2 || cause = 3 || cause = 4 then sendReports s1 subject cause boot else s1

/-! ### Routes (R347) -/

/-- HEARD bit n: a hail was heard on the port within the last 2^22 CMC cycles. -/
def heardOn (s : State) (q : Peer) (n : Nat) : Bool := match tfind q.heardAt n with
  | some t => decide (s.now < t + hearCycles)
  | none => false
def heardPorts (s : State) (q : Peer) : List Nat := (List.range 8).filter (heardOn s q)
def portHops (q : Peer) (n : Nat) : Nat := tget 15 q.hopsAt n
/-- The first of the ports with the fewest hops. -/
def bestPort (q : Peer) (l : List Nat) : Option Nat := l.find? (fun n => l.all (fun m => decide (portHops q n ≤ portHops q m)))
/-- The entry as Prorvafort computes it: PRIMARY by fewest hops and lowest number, ALT the next after it (DESIGN CHOICE, notes/assumptions/29). -/
def routeEntry (s : State) (d : Nat) : W16 :=
  let q := peerOf s d
  let l := (heardPorts s q).filter (linkUp s)
  if q.st ≠ .up then 0
  else match bestPort q l with
    | none => 0
    | some n => match bestPort q (l.filter (fun m => m ≠ n)) with
      | some m => BitVec.ofNat 16 (0x8000 + 0x80 + 16 * m + n)
      | none => BitVec.ofNat 16 (0x8000 + n)
/-- Sets a route entry; a change of PRIMARY or VALID is a ROUTE_CHANGE (R348). -/
def setRoute (s : State) (d : Nat) (e : W16) : State :=
  let old := routeOf s d
  let s1 := { s with links := { s.links with routes := tset 0 s.links.routes d e } }
  if bitAt old 15 ≠ bitAt e 15 || bits old 2 0 ≠ bits e 2 0 then peerChange s1 d 5 (peerOf s d).boot else s1
/-- Prorvafort computes an entry again, unless it is pinned (DESIGN CHOICE, notes/assumptions/29). -/
def recompute (s : State) (d : Nat) : State := if bitAt (routeOf s d) 14 then s else setRoute s d (routeEntry s d)
/-- ROUTE_RECOMPUTE. -/
def execRouteRecompute (s : State) : Out :=
  if awake s && s.cmc.fw = .running then .next ((s.links.peers.map (fun x => x.1)).foldl recompute s) else .next s
/-- VALID goes (R347, R348) (DESIGN CHOICE, notes/assumptions/29). -/
def clearValid (s : State) (d : Nat) : State := if bitAt (routeOf s d) 15 then setRoute s d (routeOf s d &&& 0x7FFF) else s

/-! ### Peer states (R348) -/

/-- DESIGN CHOICE, notes/assumptions/29. -/
def peerLost (s : State) (d : Nat) : State :=
  let q := peerOf s d
  let s1 := peerChange (setPeer s d { q with st := .lost }) d 2 q.boot
  if bitAt (routeOf s1 d) 14 then s1 else clearValid s1 d
/-- PEER_SWEEP: every 2^16 CMC cycles, each UP or CONFLICT peer unheard for 2^22 is LOST. -/
def execPeerSweep (s : State) : Out :=
  if awake s && s.cmc.fw = .running && decide (s.links.lastSweep + 2 ^ 16 ≤ s.now) then
    let l := (s.links.peers.filter (fun x => (x.2.st = .up || x.2.st = .conflict) && (heardPorts s x.2).isEmpty)).map (fun x => x.1)
    .next (l.foldl peerLost { s with links := { s.links with lastSweep := s.now } })
  else .next s
/-- DUPLICATE_ID_CLEAR: no conflicting hail for 6.99 ms. -/
def execDuplicateIdClear (s : State) : Out :=
  match s.links.conflictAt with
  | some t => if t + hearCycles ≤ s.now then .next { s with links := { s.links with conflictAt := none } } else .next s
  | none => .next s

/-! ### Training failures and DOWN -/

/-- The replay buffer of a port is discarded; sequence numbers start again. A request lost with the link is sent once more on the route then valid (R341). -/
def loseFrames (s : State) (n : Nat) : State :=
  let lost := s.links.sent.filter (fun x => x.1 = n && decide (x.2.ty ≤ 4))
  let s1 := { s with links := { s.links with sent := s.links.sent.filter (fun x => x.1 ≠ n) } }
  let s2 := setLink s1 n { linkOf s1 n with txSeq := 0, rxSeq := 0, acked := 0, replays := 0, nak := none }
  lost.foldl (fun s x =>
    match tget none s.links.outstanding x.2.tag with
    | some o => match routePort s o.dst with
      | some m => if o.resent || o.abandoned then s
                  else sendFrame (setTag s x.2.tag (some { o with resent := true, sentAt := s.now })) m (reqFrame s x.2.tag o)
      | none => s
    | none => s) s2
/-- Peers heard only on a direct link that goes DOWN are LOST at once. -/
def loseDirect (s : State) (n : Nat) : State :=
  if s.cmc.fw ≠ .running then s
  else ((s.links.peers.filter (fun x => x.2.st = .up && heardPorts s x.2 = [n] && portHops x.2 n = 0)).map (fun x => x.1)).foldl peerLost s
/-- DESIGN CHOICE, notes/assumptions/28. -/
def goDown (s : State) (n : Nat) : State :=
  let l := linkOf s n
  let s1 := linkEvent (setLink s n { l with st := .down, trained := none, downAt := s.now }) n 2
  loseDirect (loseFrames s1 n) n
/-- TRAINING_FAIL: three in a row and the port is DOWN (DESIGN CHOICE, notes/assumptions/28). -/
def execTrainingFail (n : Alv) (s : State) : Out :=
  let l := linkOf s n
  if awake s && l.st = .training && l.trained.isNone then
    let s1 := setLink s n { l with fails := l.fails + 1 }
    .next (if 3 ≤ l.fails + 1 then goDown s1 n else s1)
  else .next s
/-- DOWN_RETRY: training again every 2^24 CMC cycles. -/
def execDownRetry (n : Alv) (s : State) : Out :=
  let l := linkOf s n
  if awake s && l.st = .down && decide (l.downAt + 2 ^ 24 ≤ s.now) then .next (startTraining s n) else .next s
/-- A port disabled through ROUTE_SET. -/
def disablePort (s : State) (n : Nat) : State :=
  let l := linkOf s n
  if l.st = .disabled then setLink s n { l with enabled := false }
  else loseDirect (loseFrames (linkEvent (setLink s n { l with enabled := false, st := .disabled, trained := none, fails := 0 }) n 2) n) n
/-- A port enabled through ROUTE_SET: it trains once its domain is on. -/
def enablePort (s : State) (n : Nat) : State :=
  let l := linkOf s n
  if l.enabled then s
  else if portOn s n then startTraining (setLink s n { l with enabled := true, fails := 0 }) n
  else setLink s n { l with enabled := true }

/-! ### Frames that arrive (R336, R337, R345) -/

/-- TYPE is one of R337. -/
def knownType (t : Nat) : Bool := t = 1 || t = 2 || t = 3 || t = 4 || t = 8 || t = 9 || t = 0xC || t = 0xD
def mgmtType (t : Nat) : Bool := t = 0xC || t = 0xD
/-- The port carries a frame of this TYPE now: before both hails are exchanged, a HAIL alone. -/
def carries (s : State) (n ty : Nat) : Bool :=
  awake s && (linkUp s n || (ty = 0xC && (linkOf s n).st = .training && (linkOf s n).trained.isSome))
/-- What the port hardware does with an arriving frame before its TYPE is looked at: none where the port is not carrying frames or the frame is of another row; else the state, and whether the frame is consumed. -/
def arrive (s : State) (n : Nat) (ty : Nat) (f : Frame) : Option (State × Bool) :=
  if !carries s n f.ty then none
  else if !knownType f.ty then some (dropFrame s n 8, false)
  else if f.ty ≠ ty then none
  else if f.bcast && !mgmtType ty then some (dropFrame s n 0, false)
  else if !f.bcast && f.dst ≠ s.links.devId then some (dropFrame s n 7, false)
  else if mgmtType ty then match admitMgmt s n with
    | some t => some (t, true)
    | none => some (mgmtDrop s n, false)
  else some (s, true)
/-- A management frame's header and payload are as R336, R344 and R351 lay them down. -/
def mgmtOk (f : Frame) (grains : Nat) : Bool :=
  f.bcast && f.reservedZero && f.crcOk && f.len = grains && f.payload.length = 16 * grains && f.hops ≤ 15 && f.op = 0 && f.spart = 0

/-! ### HAIL (R348) -/

/-- Outstanding atomics to a device whose BOOT changed are in doubt: their jobs are suspended (R341). -/
def doubt (s : State) (t : Nat) (o : Outstanding) : State :=
  match (if o.abandoned then none else findJob s o.part o.job) with
  | none => setTag s t none
  | some j =>
    let s1 := updJob (setTag s t none) o.part o.job (fun k => { k with inDoubt := true })
    mmuFault s1 o.ridge o.part o.job 0 ((progRidge j o.ridge).getD 0xFF) 0x06 o.dva 2 0x20 0xFFFF (((findWin s1 o.ridge o.win).map (fun w => w.idx)).getD 0) 0
def doubtAll (s : State) (d : Nat) : State :=
  s.links.outstanding.foldl (fun s x => match x.2 with
    | some o => if o.kind = 3 && o.dst = d then doubt s x.1 o else s
    | none => s) s
/-- The record of a hail. -/
structure Hail where
  dev : Nat
  valid : Bool
  boot : W32
  serial : List Byte
  unavail : W16
  deriving DecidableEq, Repr
def hailOf (f : Frame) : Option Hail :=
  let b := f.payload
  if mgmtOk f 4 && fieldAt b 0 4 = 0x44494C41 && fieldAt b 4 2 / 4096 % 8 = 0 && zeroAt b 0x24 28 then
    some { dev := fieldAt b 4 2 % 4096, valid := (fieldAt b 4 2).testBit 15, boot := BitVec.ofNat 32 (fieldAt b 0x0C 4), serial := bytesAt b 0x10 16,
           unavail := BitVec.ofNat 16 (fieldAt b 0x22 2) }
  else none
/-- Port hardware stamps when a hail was heard, and over how many elements. -/
def stamp (s : State) (d n hops : Nat) : State :=
  let q := peerOf s d
  setPeer s d { q with heardAt := tput q.heardAt n s.now, hopsAt := tput q.hopsAt n hops }
/-- What the last hail said goes into the entry. -/
def fillPeer (s : State) (h : Hail) (st : PeerSt) : State :=
  setPeer s h.dev { peerOf s h.dev with st := st, boot := h.boot, serialCrc := crc32c h.serial, unavail := h.unavail, lastAt := s.now }
/-- A hail from another device (R348). before: the entry as it stood (DESIGN CHOICE, notes/assumptions/29). -/
def hailPeer (s : State) (h : Hail) (before : Peer) : State :=
  let crc := crc32c h.serial
  match before.st with
  | .absent => peerChange (fillPeer s h .up) h.dev 1 h.boot
  | .conflict => setPeer s h.dev { peerOf s h.dev with unavail := h.unavail, serialCrc := crc, lastAt := s.now }
  | .lost => peerChange (doubtAll (fillPeer s h .up) h.dev) h.dev 3 h.boot
  | .up =>
    if crc ≠ before.serialCrc && decide (s.now < before.lastAt + hearCycles) then clearValid (peerChange (fillPeer s h .conflict) h.dev 4 h.boot) h.dev
    else if h.boot ≠ before.boot then peerChange (doubtAll (fillPeer s h .up) h.dev) h.dev 3 h.boot
    else fillPeer s h .up
/-- HAIL (DESIGN CHOICE, notes/assumptions/29). -/
def execHail (n : Alv) (f : Frame) (s : State) : Out :=
  match arrive s n 0xC f with
  | none => .next s
  | some (t, false) => .next t
  | some (s0, true) => match hailOf f with
    | none => .next (dropFrame s0 n 8)
    | some h =>
      let l := linkOf s0 n
      let s1 := goUp (setLink s0 n { l with hailHeard := l.hailHeard || l.trained.isSome, partner := if f.hops = 15 then h.dev else l.partner }) n
      if !h.valid then .next s1
      else if h.dev = s.links.devId then
        if h.serial = serialBytes then .next s1
        else
          let s2 := { s1 with links := { s1.links with conflictAt := some s.now } }
          .next (if idConflict s || s.cmc.fw ≠ .running then s2 else peerChange s2 h.dev 4 h.boot)
      else
        let s2 := stamp s1 h.dev n (15 - f.hops)
        .next (if s.cmc.fw = .running then hailPeer s2 h (peerOf s1 h.dev) else s2)
/-- REPORT: an occurrence, counted for the port it came on. -/
def execReport (n : Alv) (f : Frame) (s : State) : Out :=
  match arrive s n 0xD f with
  | none => .next s
  | some (t, false) => .next t
  | some (s0, true) =>
    let b := f.payload
    let c := fieldAt b 2 1
    if mgmtOk f 1 && decide (fieldAt b 0 2 < 4096) && (c = 2 || c = 3 || c = 4) && zeroAt b 3 1 && zeroAt b 8 8 then
      .next (peerOcc s0 (fieldAt b 0 2) c (some n.val) f.src (BitVec.ofNat 32 (fieldAt b 4 4)))
    else .next (dropFrame s0 n 8)

end Sys2Proof.Machine
end

