-- ==== Sys2Proof/Machine/Spdm.lean ====
section
/-!
DEFINITION. Confidential hosts: SPDM over DOE (R395 to R397), IDE stream keys (R394, R398), TDISP interfaces (R399, R400), and JTAG attaches (R403). A response is modelled as the values it carries, without the DMTF and PCIe message headers (PRESUMED, notes/assumptions/23).
-/

namespace Sys2Proof.Machine

/-! ### Connections, sessions, responses -/

def getSpdm (s : State) (p : Port) : Spdm := match p with
  | .A => s.sec.spdmA
  | .B => s.sec.spdmB
def updSpdm (s : State) (p : Port) (f : Spdm → Spdm) : State :=
  match p with
  | .A => { s with sec := { s.sec with spdmA := f s.sec.spdmA } }
  | .B => { s with sec := { s.sec with spdmB := f s.sec.spdmB } }
/-- Prorvafort answers on PF0 of a port whose tunnel is up. -/
def doeUp (s : State) (p : Port) : Bool := awake s && s.cmc.fw = .running && (getPort s p).tunnel
def answer (s : State) (b : List Byte) : State := { s with sec := { s.sec with doe := b } }
/-- An ERROR response with its code (PRESUMED, notes/assumptions/23). -/
def refuse (s : State) (code : Nat) : State := answer s [0x7F, BitVec.ofNat 8 code]
def errRequest : Nat := 0x01
def errOrder : Nat := 0x04
def errSessions : Nat := 0x0A
/-- A request: answered when DOE is up. -/
def doeReq (s : State) (p : Port) (f : State → State) : Out := if doeUp s p then .next (f s) else .next s
def findSess (s : State) (p : Port) (sid : Nat) : Option Sess := (tfind (getSpdm s p).sessions sid).bind id
def setSess (s : State) (p : Port) (sid : Nat) (v : Option Sess) : State := updSpdm s p (fun c => { c with sessions := tset none c.sessions sid v })
/-- A request inside an established session. -/
def inSession (s : State) (p : Port) (sid : Nat) (f : Sess → State) : Out :=
  doeReq s p (fun s => match findSess s p sid with
    | some v => if v.established then f v else refuse s errOrder
    | none => refuse s errRequest)
/-- A fresh value of the TRNG. -/
def drawn (s : State) : W256 × State := newKey s

/-- GET_VERSION starts a connection afresh: version 1.2 alone (PRESUMED, notes/assumptions/23). -/
def execGetVersion (p : Port) (s : State) : Out :=
  doeReq s p (fun s => answer (updSpdm s p (fun c => { c with version := true, caps := false, algs := false })) [0x12])
/-- CERT, CHAL, MEAS with signatures, ENCRYPT, MAC, KEY_EX, HBEAT and KEY_UPD (R395) (PRESUMED, notes/assumptions/23). -/
def spdmFlags : Nat := 0x62D6
/-- GET_CAPABILITIES. -/
def execGetCapabilities (p : Port) (s : State) : Out :=
  doeReq s p (fun s =>
    if (getSpdm s p).version then answer (updSpdm s p (fun c => { c with caps := true, algs := false })) (leBytes 4 spdmFlags) else refuse s errOrder)
/-- NEGOTIATE_ALGORITHMS: the four algorithms of R395, each of which the host must offer. -/
def execNegotiateAlgorithms (p : Port) (ecdsa sha ecdhe gcm : Bool) (s : State) : Out :=
  doeReq s p (fun s =>
    if !(getSpdm s p).caps then refuse s errOrder
    else if ecdsa && sha && ecdhe && gcm then answer (updSpdm s p (fun c => { c with algs := true })) [1, 1, 1, 1]
    else refuse s errRequest)
/-- A request that needs the negotiated algorithms. -/
def negotiated (s : State) (p : Port) (f : State → State) : Out := doeReq s p (fun s => if (getSpdm s p).algs then f s else refuse s errOrder)

/-- The slot-0 chain: DeviceID, then Alias certificate (R397, R404) (PRESUMED, notes/assumptions/23). -/
def chainBytes : List Byte := ([0, 1] : List Nat).flatMap (fun k => (List.range (certSize k)).map (Config.certByte k))
/-- GET_DIGESTS: slot 0 alone. -/
def execGetDigests (p : Port) (s : State) : Out := negotiated s p (fun s => answer s (0x01 :: bytes256 (sha256 chainBytes)))
/-- GET_CERTIFICATE: a portion of the chain, its length and what remains. -/
def execGetCertificate (p : Port) (slot off len : Nat) (s : State) : Out :=
  negotiated s p (fun s =>
    let d := (chainBytes.drop off).take len
    if slot ≠ 0 || decide (chainBytes.length ≤ off) then refuse s errRequest
    else answer s (leBytes 2 d.length ++ leBytes 2 (chainBytes.length - off - d.length) ++ d))
/-- CHALLENGE: the chain's digest, a fresh nonce, and an Alias signature over both nonces. -/
def execChallenge (p : Port) (slot : Nat) (nonce : W256) (s : State) : Out :=
  negotiated s p (fun s =>
    if slot ≠ 0 then refuse s errRequest
    else
      let (n, s1) := drawn s
      let b := bytes256 (sha256 chainBytes) ++ bytes256 n
      answer s1 (b ++ signed (b ++ bytes256 nonce)))

/-! ### Measurements (R396) -/

/-- Type and value of block i in the DMTF format: ROM, firmware, hardware and firmware configuration (PRESUMED, notes/assumptions/23). -/
def measureValue (s : State) (i : Nat) : Nat × List Byte :=
  match i with
  | 1 => (0, bytes256 Config.digestBedrock)
  | 2 => (1, bytes256 s.sec.running.dPror)
  | 3 => (1, bytes256 s.sec.running.dPmu)
  | 4 => (1, bytes256 s.sec.running.dUcode)
  | 5 => (2, fuseState s)
  | 6 => (2, debugBytes s)
  | _ => (3, bytes256 (sha256 (layoutBytes s)))
def measureBlock (s : State) (i : Nat) : List Byte :=
  let v := measureValue s i
  [BitVec.ofNat 8 i, 1] ++ leBytes 2 (3 + v.2.length) ++ [BitVec.ofNat 8 v.1] ++ leBytes 2 v.2.length ++ v.2
/-- Index 0 answers the number of blocks, 0xFF all of them. -/
def measureBytes (s : State) (idx : Nat) : Option (List Byte) :=
  if idx = 0 then some [7]
  else if idx = 0xFF then some ((List.range 7).flatMap (fun i => measureBlock s (i + 1)))
  else if idx ≤ 7 then some (measureBlock s idx)
  else none
/-- GET_MEASUREMENTS, signed on request. -/
def execGetMeasurements (p : Port) (idx : Nat) (sign : Bool) (nonce : W256) (s : State) : Out :=
  negotiated s p (fun s => match measureBytes s idx with
    | none => refuse s errRequest
    | some b =>
      if sign then
        let (n, s1) := drawn s
        answer s1 (b ++ bytes256 n ++ signed (b ++ bytes256 n ++ bytes256 nonce))
      else answer s b)

/-! ### Sessions -/

/-- KEY_EXCHANGE: at most four sessions of a port. -/
def execKeyExchange (p : Port) (sid : Nat) (pub : List Byte) (s : State) : Out :=
  negotiated s p (fun s =>
    if (findSess s p sid).isSome then refuse s errRequest
    else if 4 ≤ (getSpdm s p).sessions.length then refuse s errSessions
    else
      let k := Config.ecdheSecret s.sec.draws pub
      let mine := (List.range 64).map (Config.ecdhePublic s.sec.draws)
      let s1 := { s with sec := { s.sec with draws := s.sec.draws + 1 } }
      answer (setSess s1 p sid (some ⟨false, k, Config.trafficSecret k false, Config.trafficSecret k true⟩)) (mine ++ signed (mine ++ pub)))
/-- IDE keys that a session gave are zeroised (R394). -/
def dropSessIde (s : State) (p : Port) (sid : Nat) : State :=
  { s with sec := { s.sec with ide := s.sec.ide.filter (fun x => !(x.1 / 128 = portCode p && x.2.sess = sid)) } }
/-- FINISH: the host's proof that it holds the session's keys. -/
def execFinish (p : Port) (sid : Nat) (hmacOk : Bool) (s : State) : Out :=
  doeReq s p (fun s => match findSess s p sid with
    | some v =>
      if v.established then refuse s errOrder
      else if hmacOk then answer (setSess s p sid (some { v with established := true })) []
      else refuse (setSess s p sid none) errRequest
    | none => refuse s errRequest)
/-- HEARTBEAT. -/
def execHeartbeat (p : Port) (sid : Nat) (s : State) : Out := inSession s p sid (fun _ => answer s [])
/-- KEY_UPDATE: the request secret, or both, are renewed (PRESUMED, notes/assumptions/23). -/
def execKeyUpdate (p : Port) (sid : Nat) (both : Bool) (s : State) : Out :=
  inSession s p sid (fun v => answer (setSess s p sid (some { v with
    reqSecret := Config.keyUpdateSecret v.reqSecret, rspSecret := if both then Config.keyUpdateSecret v.rspSecret else v.rspSecret })) [])
/-- END_SESSION. -/
def execEndSession (p : Port) (sid : Nat) (s : State) : Out := inSession s p sid (fun _ => answer (dropSessIde (setSess s p sid none) p sid) [])

/-! ### IDE keys (R394, R398) -/

def ideKey (p : Port) (f : Nat) (dir set : Bool) : Nat := portCode p * 128 + f * 4 + (if dir then 2 else 0) + (if set then 1 else 0)
def getIde (s : State) (k : Nat) : IdeSlot := tget .empty s.sec.ide k
def setIde (s : State) (k : Nat) (v : IdeSlot) : State := { s with sec := { s.sec with ide := tset .empty s.sec.ide k v } }
def insecureAt (s : State) (p : Port) (f : Nat) : Bool := tget false s.sec.insecure (portCode p * 32 + f)
def setInsecure (s : State) (p : Port) (f : Nat) (v : Bool) : State :=
  { s with sec := { s.sec with insecure := tset false s.sec.insecure (portCode p * 32 + f) v } }
/-- A function's selective stream is in the secure state: a key set goes in each direction. -/
def streamSecure (s : State) (p : Port) (f : Nat) : Bool :=
  !insecureAt s p f && [false, true].all (fun d => [false, true].any (fun k => (getIde s (ideKey p f d k)).going))
/-- KEY_PROG: an all-zero key makes the CSB derive one; any other is an error and leaves the slot empty (R398). -/
def execKeyProg (p : Port) (sid : Nat) (f : Fn) (dir set : Bool) (sub : Nat) (key : List Byte) (s : State) : Out :=
  inSession s p sid (fun v =>
    let k := ideKey p f dir set
    if key.all (fun b => decide (b = 0)) then answer (setIde s k ⟨some (Config.hvideKey v.secret f dir sub set), false, sid⟩) []
    else refuse (setIde s k .empty) errRequest)
/-- K_SET_GO: a programmed key set goes; a stream that goes again is no longer insecure (PRESUMED, notes/assumptions/23). -/
def execKSetGo (p : Port) (sid : Nat) (f : Fn) (dir set : Bool) (s : State) : Out :=
  inSession s p sid (fun _ =>
    let k := ideKey p f dir set
    if (getIde s k).key.isNone then refuse s errRequest
    else answer (setInsecure (setIde s k { getIde s k with going := true }) p f false) [])
/-- K_SET_STOP: the key set stops and its key goes (PRESUMED, notes/assumptions/23). -/
def execKSetStop (p : Port) (sid : Nat) (f : Fn) (dir set : Bool) (s : State) : Out :=
  inSession s p sid (fun _ => answer (setIde s (ideKey p f dir set) .empty) [])
/-- QUERY: which key sets of a function go, and whether its stream is secure. -/
def execIdeKmQuery (p : Port) (sid : Nat) (f : Fn) (s : State) : Out :=
  inSession s p sid (fun _ =>
    let b (d k : Bool) (i : Nat) : Nat := boolBit (getIde s (ideKey p f d k)).going i
    answer s [BitVec.ofNat 8 (portCode p), BitVec.ofNat 8 f.val, BitVec.ofNat 8 (b false false 0 + b false true 1 + b true false 2 + b true true 3 + boolBit (streamSecure s p f) 4)])
/-- IDE_FAIL: the stream is insecure, the TLP is discarded, and a TDI of it goes to ERROR (R398, R399). -/
def execIdeFail (p : Port) (f : Fn) (s : State) : Out :=
  if doeUp s p && streamSecure s p f then
    let who := if f.val = 0 then 0xFF else if liveFn s p f then f.val - 1 else 0xFF
    let s1 := securityEvent (setInsecure s p f true) 0x02 who (portCode p) f f 0
    .next (if f.val ≠ 0 && liveFn s p f then tdiFail s1 (f.val - 1) else s1)
  else .next s

/-! ### TDISP (R399) -/

/-- A TDISP request for an interface of this port: the VF of a confidential partition (R399). -/
def tdiReq (s : State) (p : Port) (sid n : Nat) (f : Part → State) : Out :=
  inSession s p sid (fun _ =>
    let t := getP s n
    if t.st = .free || t.port ≠ p || t.tdi = .none then refuse s errRequest else f t)
/-- LOCK_INTERFACE. -/
def execLockInterface (p : Port) (sid : Nat) (n : Fin 16) (s : State) : Out :=
  tdiReq s p sid n (fun t =>
    if t.tdi = .unlocked && t.st = .active && streamSecure s p (n.val + 1) then
      let (k, s1) := drawn s
      answer (updP s1 n (fun t => { t with tdi := .locked, tdiSession := some sid, tdiNonce := some k })) (bytes256 k)
    else refuse s errRequest)
/-- START_INTERFACE repeats the nonce of the lock (PRESUMED, notes/assumptions/23). -/
def execStartInterface (p : Port) (sid : Nat) (n : Fin 16) (nonce : W256) (s : State) : Out :=
  tdiReq s p sid n (fun t =>
    if t.tdi = .locked && t.st = .active && t.tdiNonce = some nonce then answer (updP s n (fun t => { t with tdi := .run, tdiNonce := none })) []
    else refuse s errRequest)
/-- STOP_INTERFACE: steps 1 to 6 of the scrub, and the partition stays. -/
def execStopInterface (p : Port) (sid : Nat) (n : Fin 16) (s : State) : Out :=
  tdiReq s p sid n (fun t => if t.st = .active then answer (scrubStart s n true none) [] else refuse s errRequest)
/-- GET_DEVICE_INTERFACE_REPORT: BAR0 and BAR2 of the VF, and the partition's layout entry (R399, R406). -/
def execGetDeviceInterfaceReport (p : Port) (sid : Nat) (n : Fin 16) (s : State) : Out :=
  tdiReq s p sid n (fun t => if t.tdi = .locked || t.tdi = .run then answer s ([0, 2] ++ layoutEntry t) else refuse s errRequest)

/-! ### JTAG -/

/-- DEBUG_ATTACH (R402, R403). -/
def execDebugAttach (s : State) : Out :=
  if awake s && jtagOn s then .next (securityEvent { s with sec := { s.sec with jtagSince := true } } 0x04 0xFF 0 0 0 0) else .next s

end Sys2Proof.Machine
end

