-- ==== Sys2Proof/Machine/Mctp.lean ====
section
/-!
DEFINITION. The management bus: MCTP control messages (R465) and the vendor-defined commands (R466). The last response's payload stands in cmc.mctp.
-/

namespace Sys2Proof.Machine

/-- The CMC answers: powered and out of reset. -/
def mctpUp (s : State) : Bool := s.pmu.on && s.pins.sysRstN
def mctpReply (s : State) (b : List Byte) : Out := if mctpUp s then .next { s with cmc := { s.cmc with mctp := b } } else .next s

/-- GET_STATUS. -/
def execGetStatus (s : State) : Out :=
  mctpReply s (0x00 :: (leBytes 4 (hbFwState s).toNat ++ leBytes 1 s.pmu.resetCause ++ leBytes 1 s.pmu.op ++
    leBytes 1 (boolBit s.thermal.hot 0 + boolBit s.host.portA.hrdy 1 + boolBit s.host.portB.hrdy 2)))
/-- GET_POWER. -/
def execGetPower (s : State) : Out := mctpReply s (0x00 :: (leBytes 4 (powerShown s) ++ leBytes 2 s.pmu.mv ++ leBytes 2 s.pmu.cap))
/-- The highest ridge estimate, rounded in confidential state (R121). -/
def hottestShown (s : State) : Int :=
  let est (r : Nat) : Int := if confidentialState s then tget 0 s.thermal.confEst r else estUsed s r
  (List.range 48).foldl (fun a r => max a (est r)) (est 0)
/-- GET_THERMAL. -/
def execGetThermal (s : State) : Out :=
  mctpReply s (0x00 :: (leBytes 2 (ofSigned 16 (hottestShown s)) ++ leBytes 2 (ofSigned 16 (anchorOf s)) ++ leBytes 1 (boolBit (!estFresh s) 0)))
/-- GET_IDENTITY. -/
def execGetIdentity (s : State) : Out := mctpReply s (0x00 :: (leBytes 4 hbId.toNat ++ serialBytes ++ leBytes 2 s.links.devId))
/-- GET_LOG: the first record from a LOG_SEQ on, and the one after it; with none, the number to ask for next alone (PRESUMED, notes/assumptions/24). -/
def execGetLog (first : Nat) (s : State) : Out :=
  mctpReply s (if s.cmc.fw ≠ .running then [0x02]
    else match logFrom s first with
      | r :: _ => 0x00 :: (cperBytes r ++ leBytes 8 (r.seq + 1))
      | [] => 0x00 :: leBytes 8 (max first s.integ.nextLog))

/-- Set Endpoint ID: the operations that set one, with an id that is neither null nor broadcast. -/
def setEid (data : List Byte) : Option Byte :=
  match data with
  | [op, eid] => if (op = 0 || op = 1) && eid ≠ 0 && eid ≠ 0xFF then some eid else none
  | _ => none
/-- MCTP_CONTROL_MESSAGE: Set and Get Endpoint ID, version and message type support; any other is unsupported (R465) (PRESUMED, notes/assumptions/24). -/
def execMctpControlMessage (code : Nat) (data : List Byte) (s : State) : Out :=
  match code with
  | 1 => (match setEid data with
      | some e => mctpReply { s with cmc := { s.cmc with mctpEid := if mctpUp s then e else s.cmc.mctpEid } } [0x00, 0x00, e, 0x00]
      | none => mctpReply s [0x02])
  | 2 => mctpReply s [0x00, s.cmc.mctpEid, 0x00, 0x00]
  | 4 => mctpReply s [0x00, 0x01, 0xF1, 0xF3, 0xFF, 0x00]
  | 5 => mctpReply s [0x00, 0x01, 0x7F]
  | _ => mctpReply s [0x05]

end Sys2Proof.Machine
end

