-- ==== Sys2Proof/Machine/Remote.lean ====
section
/-!
DEFINITION. Transactions between devices (R336 to R343, R356): the target's checks and effects of WR, RD, ATOM and MSG, the requester's handling of RSP and RDATA, timeouts, retries and the records of applied atomics.
-/

namespace Sys2Proof.Machine

/-! ### The target -/

/-- Answers a request on the route back; a device without a valid id, or in conflict, originates none (R344, R348) (DESIGN CHOICE, notes/assumptions/31). -/
def reply (s : State) (f : Frame) (ty status : Nat) (d : List Byte) : State :=
  if !s.links.idValid || idConflict s then s
  else match routePort s f.src with
    | some n => sendFrame s n (mkFrame s ty f.src 0 f.tag status 0 (d.length / 16) false d)
    | none => s
def extent (f : Frame) : Nat := 16 * f.len
def windowOff (f : Frame) : Nat := 64 * f.off64
/-- Header and extent of a WR, RD or ATOM (R336, R340): whole 64-byte units inside one 256-byte unit, no reserved code. -/
def requestOk (f : Frame) : Bool :=
  f.reservedZero && decide (f.tag < 4096) && decide (f.src < 4096) && decide (f.spart < 16) && decide (f.hops ≤ 15) && decide (f.off64 < 2 ^ 29) &&
    (f.len = 4 || f.len = 8 || f.len = 12 || f.len = 16) && f.payload.length = (if f.ty = 2 then 0 else extent f) &&
    (if f.ty = 3 then decide (f.op ≤ 3) && (f.op ≠ 3 || f.len = 4) else f.op = 0) && decide (windowOff f % 256 + extent f ≤ 256)
/-- The VALID export entry for a source device and partition. -/
def exportFor (s : State) (f : Frame) : Option Export :=
  (s.links.exports.find? (fun x => x.2.flags.toNat.testBit 0 && x.2.srcDev = f.src && x.2.srcPart = f.spart)).map (fun x => x.2)
/-- EFLAGS bit of an access kind. -/
def kindBit (ty : Nat) : Nat := match ty with
  | 1 => 2
  | 2 => 1
  | _ => 3
/-- Checks 2 to 5 of R343: the physical address, or the status of the first that fails. -/
def exportCheck (s : State) (f : Frame) : Except Nat (Nat × Nat) :=
  match exportFor s f with
  | none => .error 2
  | some e =>
    let t := getP s e.part
    if t.st = .free || t.st = .scrubbing || s.cmc.fw ≠ .running then .error 3
    else if !e.flags.toNat.testBit (kindBit f.ty) then .error 2
    else if e.size < windowOff f + extent f then .error 2
    else match iaToPa t (e.base + windowOff f) with
      | some pa => .ok (e.part, pa)
      | none => .error 2
/-- Check 1 of R343 fails: MALFORMED, and an INTEGRITY event for a PCRC mismatch (DESIGN CHOICE, notes/assumptions/31). -/
def malformed (s : State) (n : Nat) (f : Frame) (ty : Nat) : State :=
  let s1 := if f.crcOk then s else raiseInteg s (srcLink n) 0x05 0xFF 5 n 0xFF 0 0 0
  reply s1 f ty 6 []
/-- INTEGRITY events of CDUs that took no bytes of a peer's access (R235). -/
def cduEvents (s : State) (n p : Nat) (l : List Nat) : State :=
  l.foldl (fun s a => raiseInteg s (srcLink n) 0x01 p 2 (a / 4096 % 12) 0xFF 0 a 0) s

/-- WR (R343): applied through the export at the target's Moraine, then answered (DESIGN CHOICE, notes/assumptions/31). -/
def execWr (n : Alv) (f : Frame) (s : State) : Out :=
  match arrive s n 1 f with
  | none => .next s
  | some (t, false) => .next t
  | some (s0, true) =>
    if !requestOk f || !f.crcOk then .next (malformed s0 n f 8)
    else match exportCheck s0 f with
      | .error c => .next (reply s0 f 8 c [])
      | .ok (p, pa) =>
        let (s1, bad) := dramWrite s0 pa f.payload
        .next (reply (cduEvents s1 n p bad) f 8 (if bad.isEmpty then 0 else 4) [])
/-- RD (R339, R343): answered with the bytes, or with POISONED. -/
def execRd (n : Alv) (f : Frame) (s : State) : Out :=
  match arrive s n 2 f with
  | none => .next s
  | some (t, false) => .next t
  | some (s0, true) =>
    if !requestOk f || !f.crcOk then .next (malformed s0 n f 9)
    else match exportCheck s0 f with
      | .error c => .next (reply s0 f 9 c [])
      | .ok (_, pa) =>
        if dramBad s0 pa (extent f) then .next (reply s0 f 9 4 []) else .next (reply s0 f 9 0 (dramBytes s0 pa (extent f)))

/-- The record of an applied atomic or message with this SRC, TAG and BOOT of the source (R341). -/
def recordOf (s : State) (f : Frame) : Option AtomRec :=
  s.links.records.find? (fun r => r.src = f.src && r.tag = f.tag && r.boot = (peerOf s f.src).boot)
/-- DESIGN CHOICE, notes/assumptions/31. -/
def keepRecord (s : State) (f : Frame) (status : Nat) : State :=
  { s with links := { s.links with records := s.links.records ++ [⟨f.src, f.tag, (peerOf s f.src).boot, status, s.now⟩] } }
def recordsFull (s : State) : Bool := decide (8192 ≤ s.links.records.length)
/-- Applies an atomic to its CDU: the status, and the state. -/
def atomAt (s : State) (n p pa : Nat) (f : Frame) : Nat × State :=
  let k := f.payload.length
  match atomOf f.op with
  | none => (6, s)
  | some op =>
    if dramBad s pa k then (4, cduEvents s n p [pa / 256 * 256])
    else
      let a := atomApply op (dramBytes s pa k) f.payload
      if a.range then (7, s)
      else
        let st := if a.sat && op = .int32 then 1 else 0
        (st, keepRecord (dramPut s pa a.data) f st)
/-- ATOM (R340, R341, R343): applied once; a duplicate receives the recorded answer, and without a free record it is BUSY (DESIGN CHOICE, notes/assumptions/31). -/
def execAtom (n : Alv) (f : Frame) (s : State) : Out :=
  match arrive s n 3 f with
  | none => .next s
  | some (t, false) => .next t
  | some (s0, true) =>
    if !requestOk f || !f.crcOk then .next (malformed s0 n f 8)
    else match recordOf s0 f with
      | some r => .next (reply s0 f 8 r.answer [])
      | none => match exportCheck s0 f with
        | .error c => .next (reply s0 f 8 c [])
        | .ok (p, pa) =>
          if recordsFull s0 then .next (reply s0 f 8 5 [])
          else
            let (st, s1) := atomAt s0 n p pa f
            .next (reply s1 f 8 st [])

/-- A message's header: 16 to 256 bytes for Prorvafort. -/
def messageOk (f : Frame) : Bool :=
  f.reservedZero && decide (f.tag < 4096) && decide (f.src < 4096) && f.spart = 0 && decide (f.hops ≤ 15) && decide (1 ≤ f.len) && decide (f.len ≤ 16) &&
    f.payload.length = extent f && f.op = 0
/-- An announcement is applied as a SIG on one of CNT56 to CNT63 of the named job; which one, and what else a message says, Config.msgField tells (DESIGN CHOICE, notes/assumptions/32). -/
def announce (s : State) (d : List Byte) : State :=
  let v := Config.msgField d
  if v 0 % 2 = 0 then s
  else match findJob s (v 1) (BitVec.ofNat 32 (v 2)) with
    | none => s
    | some j => match physRidge j (v 3) with
      | some r => addCounter s j.part j.id r (56 + v 4 % 8) (BitVec.ofNat 32 (v 5))
      | none => s
/-- MSG (R337, R341). -/
def execMsg (n : Alv) (f : Frame) (s : State) : Out :=
  match arrive s n 4 f with
  | none => .next s
  | some (t, false) => .next t
  | some (s0, true) =>
    if !messageOk f || !f.crcOk then .next (malformed s0 n f 8)
    else match recordOf s0 f with
      | some r => .next (reply s0 f 8 r.answer [])
      | none =>
        if s0.cmc.fw ≠ .running then .next (reply s0 f 8 3 [])
        else if recordsFull s0 then .next (reply s0 f 8 5 [])
        else .next (reply (keepRecord (announce s0 f.payload) f 0) f 8 0 [])
/-- ATOM_RECORD_EXPIRY: 2^18 CMC cycles after the answer. -/
def execAtomRecordExpiry (k : Nat) (s : State) : Out :=
  match s.links.records[k]? with
  | some r => if r.time + 2 ^ 18 ≤ s.now then .next { s with links := { s.links with records := s.links.records.eraseIdx k } } else .next s
  | none => .next s

/-! ### The requester (R338, R341) -/

/-- A remote access of an instruction that the save area holds is answered. -/
def savedDone (s : State) (o : Outstanding) : State :=
  updJob s o.part o.job (fun j => match tfind j.saved o.ridge with
    | none => j
    | some v =>
      let step (w : Win) : Option Win :=
        if w.id ≠ o.win then some w
        else if opOf w.w = 0x1C && aadForm w.w = 1 && w.aux = 0 then some { w with kind := .waitSlot, aux := 1 }
        else if w.parts ≤ 1 then none
        else some { w with parts := w.parts - 1 }
      { j with saved := tput j.saved o.ridge { v with win := v.win.filterMap step } })
/-- One remote write of an instruction has been acknowledged (R250). -/
def writeDone (s : State) (r win : Nat) : State :=
  match findWin s r win with
  | none => s
  | some w =>
    if w.kind ≠ .remote then s
    else if w.parts ≤ 1 then retire s r win
    else updWin s r win (fun w => { w with parts := w.parts - 1 })
/-- An access is complete. -/
def accessDone (s : State) (j : Job) (o : Outstanding) : State :=
  match o.cluster with
  | some c => dmaAnswered s c o.dmaId false
  | none =>
    if j.st = .saved then savedDone s o
    else settleRidge (if o.kind = 3 then atomDone s o.ridge o.win else writeDone s o.ridge o.win) o.ridge
/-- An access fails with a stream fault (R338). -/
def accessFault (s : State) (j : Job) (o : Outstanding) (code : Nat) : State :=
  match o.cluster with
  | some c => dmaAnswered s c o.dmaId true
  | none =>
    if j.st = .saved then
      updJob s o.part o.job (fun k => { k with
        pendingFault := k.pendingFault ++ [code], fault := code, faultRidge := (progRidge j o.ridge).getD 0xFF
        faultInstr := (((tfind k.saved o.ridge).bind (fun v => v.win.find? (fun w => w.id = o.win))).map (fun w => w.idx)).getD 0 })
    else atomFault s o.ridge o.win code
/-- The descriptor that an access of a cluster belongs to. -/
def accessDma (s : State) (o : Outstanding) : Option (Nat × Dma) :=
  match o.cluster with
  | some c => ((getDma s c).find? (fun d => d.id = o.dmaId)).map (fun d => (c, d))
  | none => if 48 ≤ o.ridge && o.ridge < 52 then ((getDma s (o.ridge - 48)).find? (fun d => d.part = o.part && d.job = o.job && d.win = o.win)).map (fun d => (o.ridge - 48, d)) else none
/-- A ring prefetcher whose next row needs a CDU that the peer refuses stops; its fault is posted when a VLD waits on it (R245). -/
def ringRefused (s : State) (j : Job) (c cause : Nat) (o : Outstanding) : State :=
  ((jobRidges j).filter (fun r => clusterOf r = c)).foldl (fun s r => updR s r (fun rd => { rd with
    prefetch := rd.prefetch.map (fun x =>
      let f := x.2
      let a := rowAddr f.src f.stride f.filled
      (x.1, if f.active && f.ring && f.faulted.isNone && decide (f.filled < f.rows) && decide (a < o.dva + 256) && decide (o.dva < a + f.rowBytes) then
        { f with faulted := some (cause * 256 + 0x20) } else f)) })) s
/-- An access fails with MMU_FAULT (R259): the job is suspended. A posted write, or an atomic known not to be applied, is sent again when the job goes on (R171, R261). -/
def accessRefused (s : State) (j : Job) (o : Outstanding) (cause : Nat) : State :=
  let acc := if o.kind = 2 then 0 else if o.kind = 1 then 1 else 2
  let id := (progRidge j (match accessDma s o with
    | some x => x.2.ridge
    | none => o.ridge)).getD 0xFF
  let s1 := if o.kind = 1 then
      updJob s j.part j.id (fun k => { k with held := k.held ++
        [{ port := none, dev := o.dst, addr := o.off, data := o.data, waits := [], kind := 1, op := 0, dva := o.dva, ridge := o.ridge, win := o.win,
           cluster := o.cluster, dmaId := o.dmaId }] })
    else if o.kind = 3 then
      let m : MemAtomic := { id := s.mem.next, op := (atomOf o.op).getD .int32, place := .remote o.dst o.off, hdr := none, data := o.data, dva := o.dva,
                             part := o.part, job := o.job, ridge := o.ridge, win := o.win }
      { s with mem := { s.mem with atomics := s.mem.atomics ++ [m], next := s.mem.next + 1 } }
    else s
  match accessDma s o with
  | some (c, d) => mmuFault s1 (srcCluster c) j.part j.id 1 id cause o.dva acc 0x20 d.desc d.idx d.next
  | none =>
    if 48 ≤ o.ridge then ringRefused s1 j (o.ridge - 48) cause o
    else if o.kind = 2 then ridgeMmu s1 o.ridge j.part j o.ridge (getR s1 o.ridge).jobCtx.pc cause o.dva 0 0x20
    else mmuFault s1 o.ridge j.part j.id 0 id cause o.dva acc 0x20 0xFFFF (((findWin s1 o.ridge o.win).map (fun w => w.idx)).getD 0) 0
/-- What a status does at the requester (R338), the TAG apart. -/
def statusDone (s : State) (n : Nat) (j : Job) (o : Outstanding) (c : Nat) : State :=
  match c with
  | 0 => accessDone s j o
  | 1 => accessDone (updJob s j.part j.id (fun k => { k with outsat := k.outsat + 1 })) j o
  | 2 => accessRefused s j o 0x05
  | 3 => accessRefused s j o 0x06
  | 4 => accessFault s j o 0x11
  | 6 => accessRefused (linkEvent s n 8) j o 0x05
  | _ => accessFault s j o 0x0B
/-- The outstanding request that an answer names. -/
def asked (s : State) (f : Frame) : Option Outstanding :=
  match tget none s.links.outstanding f.tag with
  | some o => if o.dst = f.src then some o else none
  | none => none
/-- The live job of a request; none where its answer is discarded (R325). -/
def askedJob (s : State) (o : Outstanding) : Option Job := if o.abandoned then none else findJob s o.part o.job
/-- RSP. -/
def execRsp (n : Alv) (f : Frame) (s : State) : Out :=
  match arrive s n 8 f with
  | none => .next s
  | some (t, false) => .next t
  | some (s0, true) =>
    if !f.reservedZero || decide (8 ≤ f.op) || f.len ≠ 0 || !f.payload.isEmpty then .next (dropFrame s0 n 8)
    else match asked s0 f with
      | none => .next s0
      | some o =>
        if o.kind = 2 then .next s0
        else match askedJob s0 o with
          | none => .next (setTag s0 f.tag none)
          | some j =>
            if f.op = 5 then .next (setTag s0 f.tag (some { o with busyAt := some s.now }))
            else .next (statusDone (setTag s0 f.tag none) n j o f.op)
/-- A CDU that a read brought (R241): cached read-only where the page has RS, else for the one agent that asked. -/
def bringLine (s : State) (o : Outstanding) (d : List Byte) (bad : Bool) : State :=
  let a := o.dst * 2 ^ 35 + o.off
  let l : MLine := { part := o.part, remote := true, addr := a, data := d, once := bad || o.op ≠ 1, agent := o.ridge, bad := bad }
  { s with mem := { s.mem with lines := l :: s.mem.lines.filter (fun v => !(v.remote && v.part = o.part && v.addr = a && v.once = l.once && v.agent = l.agent)) } }
/-- RDATA. A payload whose PCRC mismatches is dropped with an INTEGRITY event (DESIGN CHOICE, notes/assumptions/31). -/
def execRdata (n : Alv) (f : Frame) (s : State) : Out :=
  match arrive s n 9 f with
  | none => .next s
  | some (t, false) => .next t
  | some (s0, true) =>
    if !f.crcOk then .next (dropFrame (raiseInteg s0 (srcLink n) 0x05 0xFF 5 n 0xFF 0 0 0) n 8)
    else match asked s0 f with
      | none => .next s0
      | some o =>
        if o.kind ≠ 2 then .next s0
        else if !f.reservedZero || decide (8 ≤ f.op) || f.op = 1 || f.op = 7 || f.payload.length ≠ (if f.op = 0 then 256 else 0) || f.payload.length ≠ 16 * f.len then
          .next (dropFrame s0 n 8)
        else match askedJob s0 o with
          | none => .next (setTag s0 f.tag none)
          | some j =>
            if f.op = 5 then .next (setTag s0 f.tag (some { o with busyAt := some s.now }))
            else
              let s1 := setTag s0 f.tag none
              if f.op = 0 then .next (settleRidge (bringLine s1 o f.payload false) o.ridge)
              else if f.op = 4 then .next (bringLine s1 o (zeros 256) true)
              else .next (statusDone s1 n j o f.op)

/-- A request fails with REMOTE_UNREACHABLE: an ATOM that was sent is in doubt (R341). -/
def unreachable (s : State) (t : Nat) (j : Job) (o : Outstanding) : State :=
  if o.kind = 3 then doubt s t o else accessRefused (setTag s t none) j o 0x06
/-- Sends a request again with the same TAG on the route then valid (DESIGN CHOICE, notes/assumptions/31). -/
def again (s : State) (t : Nat) (j : Job) (o : Outstanding) : State :=
  match (if !s.links.idValid || idConflict s then none else routePort s o.dst) with
  | some n => sendFrame (setTag s t (some o)) n (reqFrame s t o)
  | none => unreachable s t j o
/-- REQUEST_TIMEOUT: unanswered for 2^16 CMC cycles; once it is sent again, then it fails. -/
def execRequestTimeout (tag : Fin 4096) (s : State) : Out :=
  match tget none s.links.outstanding tag with
  | none => .next s
  | some o =>
    if !awake s || o.busyAt.isSome || s.now < o.sentAt + 2 ^ 16 then .next s
    else match askedJob s o with
      | none => .next (setTag s tag none)
      | some j => .next (if o.resent then unreachable s tag j o else again s tag j { o with resent := true, sentAt := s.now })
/-- BUSY_RETRY: 2^10 CMC cycles after BUSY. -/
def execBusyRetry (tag : Fin 4096) (s : State) : Out :=
  match tget none s.links.outstanding tag with
  | none => .next s
  | some o => match o.busyAt with
    | none => .next s
    | some t =>
      if !awake s || s.now < t + 2 ^ 10 then .next s
      else match askedJob s o with
        | none => .next (setTag s tag none)
        | some j => .next (again s tag j { o with busyAt := none, sentAt := s.now })

/-! ### PEER_TABLE and ROUTE_SET (R349, R350) -/

def peerCode : PeerSt → Nat
  | .absent => 0
  | .up => 1
  | .lost => 2
  | .conflict => 3
/-- A peer entry (R346). -/
def peerBytes (s : State) (d : Nat) : List Byte :=
  let q := peerOf s d
  let h := heardPorts s q
  layFields 16 [(0, 1, peerCode q.st), (1, 1, (h.map (fun n => 2 ^ n)).foldl (· + ·) 0), (2, 1, (h.map (portHops q)).foldl min (if h.isEmpty then 0 else 15)),
    (3, 1, if q.pinned then 1 else 0), (4, 2, q.importMask.toNat), (6, 2, q.unavail.toNat), (8, 4, q.boot.toNat), (0x0C, 4, q.serialCrc.toNat)]
/-- An export entry (R342). -/
def windowBytes (e : Export) : List Byte :=
  layFields 32 [(0, 1, e.flags.toNat), (1, 1, e.part), (2, 2, e.srcDev), (4, 1, e.srcPart), (8, 8, e.base), (0x10, 8, e.size)]
def getExport (s : State) (k : Nat) : Export := tget .none s.links.exports k
/-- DESIGN CHOICE, notes/assumptions/33. -/
def peerTableBytes (s : State) : List Byte :=
  identityRecord s 0 ++ (List.range 4096).flatMap (peerBytes s) ++ (List.range 64).flatMap (fun k => windowBytes (getExport s k))

def windowOf (b : List Byte) : Export :=
  { flags := BitVec.ofNat 8 (fieldAt b 0 1), part := fieldAt b 1 1, srcDev := fieldAt b 2 2, srcPart := fieldAt b 4 1, base := fieldAt b 8 8, size := fieldAt b 0x10 8 }
def exportValid (e : Export) : Bool := e.flags.toNat.testBit 0
/-- A partition that a table may name: present, and not in confidential mode. -/
def linkPart (s : State) (p : Nat) : Bool := (getP s p).st ≠ .free && !confidential (getP s p)
/-- An export entry is well formed; a VALID one names a partition that may be named and lies within its user part (DESIGN CHOICE, notes/assumptions/33). -/
def exportOk (s : State) (b : List Byte) : Bool :=
  let e := windowOf b
  decide (e.flags.toNat < 16) && decide (e.part < 16) && decide (e.srcDev < 4096) && decide (e.srcPart < 16) && zeroAt b 5 3 && zeroAt b 0x18 8 &&
    decide (e.base % 2 ^ 21 = 0) && decide (e.size % 2 ^ 21 = 0) && decide (e.size ≤ 2 ^ 35) &&
    (!exportValid e || (linkPart s e.part && decide (e.base + e.size ≤ userSize (getP s e.part))))
/-- One override record is well formed (R349) (DESIGN CHOICE, notes/assumptions/33). -/
def overrideOk (s : State) (b : List Byte) : Bool :=
  let dev := fieldAt b 2 2
  zeroAt b 8 8 && (match fieldAt b 0 1 with
    | 0 => decide (dev < 4096) && decide (fieldAt b 6 2 ≤ 1) && (bitList (BitVec.ofNat 48 (fieldAt b 4 2))).all (linkPart s)
    | 1 => decide (fieldAt b 1 1 < 64) && exportOk s (bytesAt b 0x10 32)
    | 2 => decide (dev / 4096 % 8 = 0)
    | _ => false)
/-- One record is applied. -/
def applyOverride (s : State) (b : List Byte) : State :=
  let dev := fieldAt b 2 2
  match fieldAt b 0 1 with
  | 0 =>
    if fieldAt b 6 2 % 2 = 1 then
      let s1 := setPeer s dev { Peer.absent with pinned := (peerOf s dev).pinned }
      let s2 := { s1 with links := { s1.links with episodes := (episodeOcc s1 dev 3).links.episodes } }
      if bitAt (routeOf s2 dev) 14 then s2 else clearValid s2 dev
    else setPeer s dev { peerOf s dev with importMask := BitVec.ofNat 16 (fieldAt b 4 2) }
  | 1 => { s with links := { s.links with exports := tset .none s.links.exports (fieldAt b 1 1) (windowOf (bytesAt b 0x10 32)) } }
  | _ => queueRec s clsSelf 0 (layFields 64 [(0, 2, dev)])
/-- Two VALID exports share SRC_DEV and SRC_PART. -/
def exportsClash (s : State) : Bool :=
  let l := s.links.exports.filter (fun x => exportValid x.2)
  l.any (fun x => l.any (fun y => x.1 ≠ y.1 && x.2.srcDev = y.2.srcDev && x.2.srcPart = y.2.srcPart))
def overrides (s : State) (c : Cmd) : List (List Byte) :=
  let n := fieldAt (dataIn s c 8) 0 4
  (List.range n).map (fun i => hostRead s c.port (cmdPtr c + 8 + 48 * i) 48)
/-- A list that PEER_TABLE rejects whole. -/
def overridesBad (s : State) (c : Cmd) : Bool :=
  dataShort c 8 || dataShort c (8 + 48 * fieldAt (dataIn s c 8) 0 4) || fieldAt (dataIn s c 8) 4 4 ≠ 0 || !(overrides s c).all (overrideOk s) ||
    exportsClash ((overrides s c).foldl applyOverride s)
/-- What PEER_TABLE asks for. -/
def peerTableKind : CmdKind := adminKind 0x60 [(0x18, 1)]
/-- Checks of PEER_TABLE. -/
def peerTableChecks (s : State) (c : Cmd) : List (Bool × Nat) := [(decide (1 < cmdFld c 0x18 1) || (cmdFld c 0x18 1 = 1 && overridesBad s c), stField)]
/-- PEER_TABLE. -/
def execPeerTable (q : QId) (cid : W16) (s : State) : Out :=
  withCmd s q cid peerTableKind (peerTableChecks s) (fun c => if cmdFld c 0x18 1 = 0 then completeOut s c (peerTableBytes s) 0 else complete ((overrides s c).foldl applyOverride s) c stSuccess 0)

/-- A route entry of ROUTE_SET is well formed. -/
def routeOk (e : W16) : Bool := bits e 13 8 = 0 && !bitAt e 3 && (bitAt e 7 || bits e 6 4 = 0)
def routeSets (s : State) (c : Cmd) : List (List Byte) :=
  let n := fieldAt (dataIn s c 8) 4 2
  (List.range n).map (fun i => hostRead s c.port (cmdPtr c + 8 + 4 * i) 4)
def routesBad (s : State) (c : Cmd) : Bool :=
  dataShort c 8 || dataShort c (8 + 4 * fieldAt (dataIn s c 8) 4 2) || !zeroAt (dataIn s c 8) 2 2 || !zeroAt (dataIn s c 8) 6 2 ||
    (routeSets s c).any (fun b => decide (4096 ≤ fieldAt b 0 2) || !routeOk (BitVec.ofNat 16 (fieldAt b 2 2)))
/-- One route is pinned, or returns to computation (DESIGN CHOICE, notes/assumptions/29). -/
def applyRoute (s : State) (b : List Byte) : State :=
  let d := fieldAt b 0 2
  let e : W16 := BitVec.ofNat 16 (fieldAt b 2 2)
  let pin := bitAt e 14
  let s1 := setPeer s d { peerOf s d with pinned := pin }
  if pin then setRoute s1 d e else setRoute s1 d (routeEntry s1 d)
/-- Ports are enabled and disabled, then the domains of pairs follow (R350) (DESIGN CHOICE, notes/assumptions/34). -/
def applyPorts (s : State) (en valid : Nat) : State :=
  let s1 := (List.range 8).foldl (fun s n => if valid.testBit n then (if en.testBit n then enablePort s n else disablePort s n) else s) s
  (List.range 4).foldl (fun s k =>
    let used := (linkOf s (2 * k)).enabled || (linkOf s (2 * k + 1)).enabled
    if (valid / 4 ^ k) % 4 = 0 then s else powerRequest s (202 + k) used) s1
/-- What ROUTE_SET asks for. -/
def routeSetKind : CmdKind := adminKind 0x61 []
/-- Checks of ROUTE_SET. -/
def routeSetChecks (s : State) (c : Cmd) : List (Bool × Nat) := [(routesBad s c, stField)]
/-- ROUTE_SET, admitted. -/
def routeSetDo (s : State) (c : Cmd) : State :=
  let h := dataIn s c 8
  complete ((routeSets s c).foldl applyRoute (applyPorts s (fieldAt h 0 1) (fieldAt h 1 1))) c stSuccess 0
/-- ROUTE_SET. -/
def execRouteSet (q : QId) (cid : W16) (s : State) : Out :=
  withCmd s q cid routeSetKind (routeSetChecks s) (routeSetDo s)

end Sys2Proof.Machine
end

