-- ==== Sys2Proof/Machine/Dispatch.lean ====
section
/-!
DEFINITION. One arm for every row of the opcode table: the command's meaning.
-/

namespace Sys2Proof.Machine

def exec (i : Instr) (s : State) : Host.Outcome State Fault Refusal :=
  match i with
  | .nop r x w => Sys2Proof.Machine.execNop r x w s
  | .halt r x w => Sys2Proof.Machine.execHalt r x w s
  | .vld r x w => Sys2Proof.Machine.execVld r x w s
  | .vldComplete r id => Sys2Proof.Machine.execVldComplete r id s
  | .mvm r x w => Sys2Proof.Machine.execMvm r x w s
  | .mvms r x w => Sys2Proof.Machine.execMvms r x w s
  | .contributionCommit r id devs => Sys2Proof.Machine.execContributionCommit r id devs s
  | .pre r x w => Sys2Proof.Machine.execPre r x w s
  | .drn r x w => Sys2Proof.Machine.execDrn r x w s
  | .drainComplete r id ue => Sys2Proof.Machine.execDrainComplete r id ue s
  | .spl r x w => Sys2Proof.Machine.execSpl r x w s
  | .fil r x w => Sys2Proof.Machine.execFil r x w s
  | .aad r x w => Sys2Proof.Machine.execAad r x w s
  | .aadArrival id => Sys2Proof.Machine.execAadArrival id s
  | .memoryAtomicApply id => Sys2Proof.Machine.execMemoryAtomicApply id s
  | .dmm r x w => Sys2Proof.Machine.execDmm r x w s
  | .vop r x w => Sys2Proof.Machine.execVop r x w s
  | .red r x w => Sys2Proof.Machine.execRed r x w s
  | .dmaCopy r x w => Sys2Proof.Machine.execDmaCopy r x w s
  | .dmaPrefetch r x w => Sys2Proof.Machine.execDmaPrefetch r x w s
  | .dmaInval r x w => Sys2Proof.Machine.execDmaInval r x w s
  | .dmaFill r x w => Sys2Proof.Machine.execDmaFill r x w s
  | .dmaSegment cluster hostOk => Sys2Proof.Machine.execDmaSegment cluster hostOk s
  | .dmaCompletion cluster id => Sys2Proof.Machine.execDmaCompletion cluster id s
  | .pageWalk id => Sys2Proof.Machine.execPageWalk id s
  | .moraineFill part pa bad => Sys2Proof.Machine.execMoraineFill part pa bad s
  | .ringPrefetchFill r k => Sys2Proof.Machine.execRingPrefetchFill r k s
  | .wait r x w => Sys2Proof.Machine.execWait r x w s
  | .waitSatisfied r x => Sys2Proof.Machine.execWaitSatisfied r x s
  | .sig r x w => Sys2Proof.Machine.execSig r x w s
  | .remoteSigArrival id => Sys2Proof.Machine.execRemoteSigArrival id s
  | .crn r x w => Sys2Proof.Machine.execCrn r x w s
  | .cairnCommit part job => Sys2Proof.Machine.execCairnCommit part job s
  | .rbg r x w => Sys2Proof.Machine.execRbg r x w s
  | .ren r x w => Sys2Proof.Machine.execRen r x w s
  | .ropeCommitGrant e => Sys2Proof.Machine.execRopeCommitGrant e s
  | .ropeTimeout e => Sys2Proof.Machine.execRopeTimeout e s
  | .pinHoldTimeout e => Sys2Proof.Machine.execPinHoldTimeout e s
  | .prb r x w => Sys2Proof.Machine.execPrb r x w s
  | .srv r x w => Sys2Proof.Machine.execSrv r x w s
  | .tmap r x w => Sys2Proof.Machine.execTmap r x w s
  | .probeInsert r p => Sys2Proof.Machine.execProbeInsert r p s
  | .probeCompare r id devs => Sys2Proof.Machine.execProbeCompare r id devs s
  | .surveyComplete r t m => Sys2Proof.Machine.execSurveyComplete r t m s
  | .surveySpanTimeout r t => Sys2Proof.Machine.execSurveySpanTimeout r t s
  | .surveyAgeTimer r t => Sys2Proof.Machine.execSurveyAgeTimer r t s
  | .surveyMvmCount r t => Sys2Proof.Machine.execSurveyMvmCount r t s
  | .surveyIssue r t => Sys2Proof.Machine.execSurveyIssue r t s
  | .driftFold r table => Sys2Proof.Machine.execDriftFold r table s
  | .refresh r p => Sys2Proof.Machine.execRefresh r p s
  | .tileSwap r p t => Sys2Proof.Machine.execTileSwap r p t s
  | .programmingStart => Sys2Proof.Machine.execProgrammingStart s
  | .programmingComplete r t fails belayFail step5 base => Sys2Proof.Machine.execProgrammingComplete r t fails belayFail step5 base s
  | .bulkResetTrain r t residue => Sys2Proof.Machine.execBulkResetTrain r t residue s
  | .loadCalibrationEnd part wset => Sys2Proof.Machine.execLoadCalibrationEnd part wset s
  | .converterCalibration r bad => Sys2Proof.Machine.execConverterCalibration r bad s
  | .powerFrame mv mw dom => Sys2Proof.Machine.execPowerFrame mv mw dom s
  | .thermalModelStep => Sys2Proof.Machine.execThermalModelStep s
  | .peakPowerHold ma => Sys2Proof.Machine.execPeakPowerHold ma s
  | .peakHoldHotTimer => Sys2Proof.Machine.execPeakHoldHotTimer s
  | .estimateStale => Sys2Proof.Machine.execEstimateStale s
  | .noEstimateWindowEnd => Sys2Proof.Machine.execNoEstimateWindowEnd s
  | .inletStale => Sys2Proof.Machine.execInletStale s
  | .fwHeartbeat => Sys2Proof.Machine.execFwHeartbeat s
  | .heartbeatTimeout => Sys2Proof.Machine.execHeartbeatTimeout s
  | .fwStartTimeout => Sys2Proof.Machine.execFwStartTimeout s
  | .fwRunning => Sys2Proof.Machine.execFwRunning s
  | .svnRaise => Sys2Proof.Machine.execSvnRaise s
  | .colGrant => Sys2Proof.Machine.execColGrant s
  | .windowMarker kind => Sys2Proof.Machine.execWindowMarker kind s
  | .arbiterGrant cls inst reqs save => Sys2Proof.Machine.execArbiterGrant cls inst reqs save s
  | .countTimeout r id => Sys2Proof.Machine.execCountTimeout r id s
  | .jobEndOnFault part job => Sys2Proof.Machine.execJobEndOnFault part job s
  | .jobStart part job => Sys2Proof.Machine.execJobStart part job s
  | .jobCompletion part job => Sys2Proof.Machine.execJobCompletion part job s
  | .egressFenceRelease part job => Sys2Proof.Machine.execEgressFenceRelease part job s
  | .jobTimeLimit part job => Sys2Proof.Machine.execJobTimeLimit part job s
  | .preemption part victim incoming => Sys2Proof.Machine.execPreemption part victim incoming s
  | .preemptionRestore part job saveOk => Sys2Proof.Machine.execPreemptionRestore part job saveOk s
  | .jobRestart part job => Sys2Proof.Machine.execJobRestart part job s
  | .fieldTestDue r => Sys2Proof.Machine.execFieldTestDue r s
  | .testGraceExpiry r => Sys2Proof.Machine.execTestGraceExpiry r s
  | .fieldTestComplete r failed trim bad mv => Sys2Proof.Machine.execFieldTestComplete r failed trim bad mv s
  | .hbAttnAck p v => Sys2Proof.Machine.execHbAttnAck p v s
  | .hbDbAdmin p v => Sys2Proof.Machine.execHbDbAdmin p v s
  | .sqDoorbell p f q v => Sys2Proof.Machine.execSqDoorbell p f q v s
  | .cqDoorbell p f q v => Sys2Proof.Machine.execCqDoorbell p f q v s
  | .commandFetch q => Sys2Proof.Machine.execCommandFetch q s
  | .hbCtrl p f v => Sys2Proof.Machine.execHbCtrl p f v s
  | .hbAqCfg p v => Sys2Proof.Machine.execHbAqCfg p v s
  | .hbEvtDrop p f => Sys2Proof.Machine.execHbEvtDrop p f s
  | .hbColSeqLo p f => Sys2Proof.Machine.execHbColSeqLo p f s
  | .hbColSeqHi p f => Sys2Proof.Machine.execHbColSeqHi p f s
  | .registerWrite p f off v => Sys2Proof.Machine.execRegisterWrite p f off v s
  | .rappelQueue p f v => Sys2Proof.Machine.execRappelQueue p f v s
  | .rappelPartition p f v => Sys2Proof.Machine.execRappelPartition p f v s
  | .rappelDevice p f v => Sys2Proof.Machine.execRappelDevice p f v s
  | .identify q cid => Sys2Proof.Machine.execIdentify q cid s
  | .getCaps q cid => Sys2Proof.Machine.execGetCaps q cid s
  | .progPower q cid => Sys2Proof.Machine.execProgPower q cid s
  | .surveyPolicy q cid => Sys2Proof.Machine.execSurveyPolicy q cid s
  | .thermalPolicy q cid => Sys2Proof.Machine.execThermalPolicy q cid s
  | .arbWeight q cid => Sys2Proof.Machine.execArbWeight q cid s
  | .arbLimit q cid => Sys2Proof.Machine.execArbLimit q cid s
  | .arbStatus q cid => Sys2Proof.Machine.execArbStatus q cid s
  | .windowPolicy q cid => Sys2Proof.Machine.execWindowPolicy q cid s
  | .probePolicy q cid => Sys2Proof.Machine.execProbePolicy q cid s
  | .partBind q cid => Sys2Proof.Machine.execPartBind q cid s
  | .ridgeMap q cid => Sys2Proof.Machine.execRidgeMap q cid s
  | .getFeature q cid => Sys2Proof.Machine.execGetFeature q cid s
  | .partCreate q cid => Sys2Proof.Machine.execPartCreate q cid s
  | .partDestroy q cid => Sys2Proof.Machine.execPartDestroy q cid s
  | .partQuery q cid => Sys2Proof.Machine.execPartQuery q cid s
  | .queueCreate q cid => Sys2Proof.Machine.execQueueCreate q cid s
  | .queueDestroy q cid => Sys2Proof.Machine.execQueueDestroy q cid s
  | .wsetLoad q cid => Sys2Proof.Machine.execWsetLoad q cid s
  | .wsetUnload q cid => Sys2Proof.Machine.execWsetUnload q cid s
  | .wsetVerify q cid out => Sys2Proof.Machine.execWsetVerify q cid out s
  | .progLoad q cid => Sys2Proof.Machine.execProgLoad q cid s
  | .progUnload q cid => Sys2Proof.Machine.execProgUnload q cid s
  | .jobSubmit q cid => Sys2Proof.Machine.execJobSubmit q cid s
  | .jobResume q cid => Sys2Proof.Machine.execJobResume q cid s
  | .jobCairnExport q cid => Sys2Proof.Machine.execJobCairnExport q cid s
  | .calibrate q cid => Sys2Proof.Machine.execCalibrate q cid s
  | .testRun q cid => Sys2Proof.Machine.execTestRun q cid s
  | .abort q cid => Sys2Proof.Machine.execAbort q cid s
  | .attest q cid => Sys2Proof.Machine.execAttest q cid s
  | .clayRead q cid => Sys2Proof.Machine.execClayRead q cid s
  | .clayWrite q cid => Sys2Proof.Machine.execClayWrite q cid s
  | .clayUnlock q cid => Sys2Proof.Machine.execClayUnlock q cid s
  | .clayProtect q cid => Sys2Proof.Machine.execClayProtect q cid s
  | .fwStage q cid => Sys2Proof.Machine.execFwStage q cid s
  | .fwCommit q cid => Sys2Proof.Machine.execFwCommit q cid s
  | .eventConfig q cid => Sys2Proof.Machine.execEventConfig q cid s
  | .logExport q cid => Sys2Proof.Machine.execLogExport q cid s
  | .peerTable q cid => Sys2Proof.Machine.execPeerTable q cid s
  | .routeSet q cid => Sys2Proof.Machine.execRouteSet q cid s
  | .powerCap q cid => Sys2Proof.Machine.execPowerCap q cid s
  | .thermalInlet q cid => Sys2Proof.Machine.execThermalInlet q cid s
  | .tunnelDown p => Sys2Proof.Machine.execTunnelDown p s
  | .tunnelUp p => Sys2Proof.Machine.execTunnelUp p s
  | .vfFlr p n => Sys2Proof.Machine.execVfFlr p n s
  | .pf0Flr p => Sys2Proof.Machine.execPf0Flr p s
  | .getVersion p => Sys2Proof.Machine.execGetVersion p s
  | .getCapabilities p => Sys2Proof.Machine.execGetCapabilities p s
  | .negotiateAlgorithms p ecdsaP256 sha256 ecdhe aesGcm => Sys2Proof.Machine.execNegotiateAlgorithms p ecdsaP256 sha256 ecdhe aesGcm s
  | .getDigests p => Sys2Proof.Machine.execGetDigests p s
  | .getCertificate p slot off len => Sys2Proof.Machine.execGetCertificate p slot off len s
  | .challenge p slot nonce => Sys2Proof.Machine.execChallenge p slot nonce s
  | .getMeasurements p idx signed nonce => Sys2Proof.Machine.execGetMeasurements p idx signed nonce s
  | .keyExchange p sid pub => Sys2Proof.Machine.execKeyExchange p sid pub s
  | .finish p sid hmacOk => Sys2Proof.Machine.execFinish p sid hmacOk s
  | .heartbeat p sid => Sys2Proof.Machine.execHeartbeat p sid s
  | .keyUpdate p sid both => Sys2Proof.Machine.execKeyUpdate p sid both s
  | .endSession p sid => Sys2Proof.Machine.execEndSession p sid s
  | .keyProg p sid f dir set' sub key => Sys2Proof.Machine.execKeyProg p sid f dir set' sub key s
  | .kSetGo p sid f dir set' => Sys2Proof.Machine.execKSetGo p sid f dir set' s
  | .kSetStop p sid f dir set' => Sys2Proof.Machine.execKSetStop p sid f dir set' s
  | .ideKmQuery p sid f => Sys2Proof.Machine.execIdeKmQuery p sid f s
  | .ideFail p f => Sys2Proof.Machine.execIdeFail p f s
  | .lockInterface p sid n => Sys2Proof.Machine.execLockInterface p sid n s
  | .startInterface p sid n nonce => Sys2Proof.Machine.execStartInterface p sid n nonce s
  | .stopInterface p sid n => Sys2Proof.Machine.execStopInterface p sid n s
  | .getDeviceInterfaceReport p sid n => Sys2Proof.Machine.execGetDeviceInterfaceReport p sid n s
  | .debugAttach => Sys2Proof.Machine.execDebugAttach s
  | .getStatus => Sys2Proof.Machine.execGetStatus s
  | .getPower => Sys2Proof.Machine.execGetPower s
  | .getThermal => Sys2Proof.Machine.execGetThermal s
  | .getIdentity => Sys2Proof.Machine.execGetIdentity s
  | .getLog first => Sys2Proof.Machine.execGetLog first s
  | .mctpControlMessage code data => Sys2Proof.Machine.execMctpControlMessage code data s
  | .codewordReceive n cw => Sys2Proof.Machine.execCodewordReceive n cw s
  | .ackTimeout n => Sys2Proof.Machine.execAckTimeout n s
  | .retrain n => Sys2Proof.Machine.execRetrain n s
  | .linkTrainingComplete n x2 => Sys2Proof.Machine.execLinkTrainingComplete n x2 s
  | .trainingFail n => Sys2Proof.Machine.execTrainingFail n s
  | .downRetry n => Sys2Proof.Machine.execDownRetry n s
  | .routeRecompute => Sys2Proof.Machine.execRouteRecompute s
  | .hailSend => Sys2Proof.Machine.execHailSend s
  | .wr n f => Sys2Proof.Machine.execWr n f s
  | .rd n f => Sys2Proof.Machine.execRd n f s
  | .atom n f => Sys2Proof.Machine.execAtom n f s
  | .msg n f => Sys2Proof.Machine.execMsg n f s
  | .rsp n f => Sys2Proof.Machine.execRsp n f s
  | .rdata n f => Sys2Proof.Machine.execRdata n f s
  | .hail n f => Sys2Proof.Machine.execHail n f s
  | .report n f => Sys2Proof.Machine.execReport n f s
  | .requestTimeout tag => Sys2Proof.Machine.execRequestTimeout tag s
  | .busyRetry tag => Sys2Proof.Machine.execBusyRetry tag s
  | .atomRecordExpiry k => Sys2Proof.Machine.execAtomRecordExpiry k s
  | .peerSweep => Sys2Proof.Machine.execPeerSweep s
  | .duplicateIdClear => Sys2Proof.Machine.execDuplicateIdClear s
  | .pwrEnRise => Sys2Proof.Machine.execPwrEnRise s
  | .pwrEnFall => Sys2Proof.Machine.execPwrEnFall s
  | .sysRstNAssert => Sys2Proof.Machine.execSysRstNAssert s
  | .sysRstNRelease ids dbg test slotAOk slotBOk => Sys2Proof.Machine.execSysRstNRelease ids dbg test slotAOk slotBOk s
  | .refclkLoss => Sys2Proof.Machine.execRefclkLoss s
  | .pllUnlock => Sys2Proof.Machine.execPllUnlock s
  | .inputLow mv => Sys2Proof.Machine.execInputLow mv s
  | .inputLoss => Sys2Proof.Machine.execInputLoss s
  | .inputRestored => Sys2Proof.Machine.execInputRestored s
  | .inputLossTimeout => Sys2Proof.Machine.execInputLossTimeout s
  | .railFault rail mv => Sys2Proof.Machine.execRailFault rail mv s
  | .vprogFault r mv => Sys2Proof.Machine.execVprogFault r mv s
  | .domainPowerRequest d on => Sys2Proof.Machine.execDomainPowerRequest d on s
  | .domainSequenceDone d => Sys2Proof.Machine.execDomainSequenceDone d s
  | .domainFault d => Sys2Proof.Machine.execDomainFault d s
  | .ridgeIdlePowerOff r => Sys2Proof.Machine.execRidgeIdlePowerOff r s
  | .clayGroupWriteDone => Sys2Proof.Machine.execClayGroupWriteDone s
  | .clayRecordUpdate cls idx data => Sys2Proof.Machine.execClayRecordUpdate cls idx data s
  | .clayRecordRead cls idx => Sys2Proof.Machine.execClayRecordRead cls idx s
  | .failureLogWrite => Sys2Proof.Machine.execFailureLogWrite s
  | .linkLockLost n => Sys2Proof.Machine.execLinkLockLost n s
  | .refclkRestored => Sys2Proof.Machine.execRefclkRestored s
  | .hrdyMinimumTime p => Sys2Proof.Machine.execHrdyMinimumTime p s

end Sys2Proof.Machine
end

