-- ==== Sys2Proof/Machine/Step.lean ====
section
/-!
DEFINITION. The step of the block: the command at the front of the queue is taken and executed with the queue's rest; on an empty queue one CMC cycle passes (DESIGN CHOICE, notes/assumptions/2).
-/

namespace Sys2Proof.Machine

/-- One step (DESIGN CHOICE, notes/assumptions/2; DESIGN CHOICE, notes/assumptions/19; DESIGN CHOICE, notes/assumptions/63). -/
def step (s : State) : Host.Outcome State Fault Refusal :=
  match s.pending with
  | [] => .next (tick s)
  | c :: rest => exec c { s with pending := rest }

/-- s with the command that a word of the opcode table spells put at the front of its queue; s itself where the word spells none. No row of this table gives bits (DESIGN CHOICE, notes/assumptions/1). -/
def State.withFetchWord (s : State) (nbits w : Nat) : State :=
  match decodeTableWord nbits w with
  | some c => { s with pending := c :: s.pending }
  | none => s

end Sys2Proof.Machine
end

