-- ==== Sys2Proof/Safety.lean ====
section
/-!
DEFINITION. What counts as a safe run, in the terms that statements use: a command that runs answers a next state, no command but the passing of a cycle moves the clocks, no command touches the queue of waiting commands, and every byte memory keeps its canonical form.
-/

namespace Sys2Proof.Safety

open Sys2Proof.Machine

/-- A meaning runs: it answers a next state, and neither stops with a fault nor is refused. -/
def Runs (o : Out) : Prop := ∃ t, o = .next t

/-- The queue of waiting commands and both clocks are as they were. -/
structure SameClock (s t : State) : Prop where
  pending : t.pending = s.pending
  now : t.now = s.now
  rclk : t.rclk = s.rclk

/-- Every byte memory of the block and of its hosts is in canonical form: every ridge's Loam, both host memories, the ring pool, local memory and the Clay store's host quarters. -/
structure MemoriesOk (s : State) : Prop where
  loam : ∀ r, twf none (getR s r).loam = true
  memA : Memory.wf s.host.memA = true
  memB : Memory.wf s.host.memB = true
  pool : Memory.wf s.host.pool = true
  dram : Memory.wf s.mem.dram = true
  clay : Memory.wf s.clay.bytes = true

/-- The parts of the state that a frame names. -/
inductive Area where
  | hostMemory | pool | host | parts | jobs | tiles | loam | slots | ridges | programming | localMemory | path | arbiters | col | ropes | links
  | integrity | security | clayBytes | clay | thermal | pmu | cmc | pins
  deriving DecidableEq, Repr

/-- A ridge without its tiles, its Loam and its slots and positions. -/
def ridgeRest (rd : RidgeSt) : RidgeSt := { rd with tiles := [], loam := [], junk := [], poison := [], tags := [], slots := [], pos := [] }

/-- t has this part of the state as s has it. A byte memory that is the same reads the same at every address. -/
def Same (s t : State) : Area → Prop
  | .hostMemory => t.host.memA = s.host.memA ∧ t.host.memB = s.host.memB
  | .pool => t.host.pool = s.host.pool
  | .host => { t.host with memA := [], memB := [], pool := [] } = { s.host with memA := [], memB := [], pool := [] }
  | .parts => t.parts = s.parts
  | .jobs => t.jobs = s.jobs
  | .tiles => ∀ r, (getR t r).tiles = (getR s r).tiles
  | .loam => ∀ r, (getR t r).loam = (getR s r).loam ∧ (getR t r).junk = (getR s r).junk ∧ (getR t r).poison = (getR s r).poison ∧ (getR t r).tags = (getR s r).tags
  | .slots => ∀ r, (getR t r).slots = (getR s r).slots ∧ (getR t r).pos = (getR s r).pos
  | .ridges => ∀ r, ridgeRest (getR t r) = ridgeRest (getR s r)
  | .programming => t.progQueue = s.progQueue
  | .localMemory => t.mem.dram = s.mem.dram ∧ t.mem.poison = s.mem.poison
  | .path => { t.mem with dram := [], poison := [] } = { s.mem with dram := [], poison := [] }
  | .arbiters => t.arbs = s.arbs ∧ t.starveLimit = s.starveLimit
  | .col => t.col = s.col
  | .ropes => t.ropes = s.ropes
  | .links => t.links = s.links
  | .integrity => t.integ = s.integ
  | .security => t.sec = s.sec
  | .clayBytes => t.clay.bytes = s.clay.bytes ∧ t.clay.ue = s.clay.ue
  | .clay => { t.clay with bytes := [], ue := [] } = { s.clay with bytes := [], ue := [] }
  | .thermal => t.thermal = s.thermal
  | .pmu => t.pmu = s.pmu
  | .cmc => t.cmc = s.cmc
  | .pins => t.pins = s.pins

/-- The parts of the state that a command may change. Every other part is as it was, whatever the command and the state. -/
def mayChange : Instr → List Area
  | .nop _ _ _ => [.host, .jobs, .slots, .ridges, .path, .col, .ropes]
  | .halt _ _ _ => [.host, .jobs, .slots, .ridges, .path, .col, .ropes]
  | .vld _ _ _ => [.host, .jobs, .slots, .ridges, .path, .col, .ropes]
  | .vldComplete _ _ => [.host, .jobs, .loam, .slots, .ridges, .path, .col, .ropes]
  | .mvm _ _ _ => [.host, .jobs, .tiles, .slots, .ridges, .path, .col, .ropes]
  | .mvms _ _ _ => [.host, .jobs, .tiles, .slots, .ridges, .path, .col, .ropes]
  | .contributionCommit _ _ _ => [.host, .jobs, .loam, .slots, .ridges, .localMemory, .path, .col, .ropes, .links]
  | .pre _ _ _ => [.host, .jobs, .slots, .ridges, .path, .col, .ropes]
  | .drn _ _ _ => [.host, .jobs, .slots, .ridges, .path, .col, .ropes]
  | .drainComplete _ _ _ => [.host, .jobs, .loam, .slots, .ridges, .localMemory, .path, .col, .ropes]
  | .spl _ _ _ => [.host, .jobs, .loam, .slots, .ridges, .localMemory, .path, .col, .ropes, .links]
  | .fil _ _ _ => [.host, .jobs, .loam, .slots, .ridges, .localMemory, .path, .col, .ropes, .links]
  | .aad _ _ _ => [.host, .jobs, .loam, .slots, .ridges, .localMemory, .path, .col, .ropes, .links]
  | .aadArrival _ => [.host, .jobs, .loam, .slots, .ridges, .localMemory, .path, .col, .ropes, .links]
  | .memoryAtomicApply _ => [.host, .jobs, .loam, .slots, .ridges, .localMemory, .path, .col, .ropes, .links]
  | .dmm _ _ _ => [.host, .jobs, .loam, .slots, .ridges, .path, .col, .ropes, .links]
  | .vop _ _ _ => [.host, .jobs, .loam, .slots, .ridges, .path, .col, .ropes]
  | .red _ _ _ => [.host, .jobs, .loam, .slots, .ridges, .path, .col, .ropes]
  | .dmaCopy _ _ _ => [.host, .jobs, .slots, .ridges, .path, .col, .ropes]
  | .dmaPrefetch _ _ _ => [.host, .jobs, .slots, .ridges, .path, .col, .ropes]
  | .dmaInval _ _ _ => [.host, .jobs, .slots, .ridges, .path, .col, .ropes]
  | .dmaFill _ _ _ => [.host, .jobs, .slots, .ridges, .path, .col, .ropes]
  | .dmaSegment _ _ => [.hostMemory, .jobs, .loam, .slots, .localMemory, .path, .col, .links]
  | .dmaCompletion _ _ => [.host, .jobs, .slots, .ridges, .path, .col, .ropes]
  | .pageWalk _ => [.host, .jobs, .loam, .slots, .ridges, .localMemory, .path, .col, .ropes, .links]
  | .moraineFill _ _ _ => [.parts, .localMemory, .path, .col, .integrity]
  | .ringPrefetchFill _ _ => [.loam, .ridges, .path, .col, .links]
  | .wait _ _ _ => [.host, .jobs, .slots, .ridges, .path, .col, .ropes]
  | .waitSatisfied _ _ => [.ridges]
  | .sig _ _ _ => [.host, .jobs, .slots, .ridges, .path, .col, .ropes]
  | .remoteSigArrival _ => [.jobs, .ridges, .path]
  | .crn _ _ _ => [.host, .jobs, .slots, .ridges, .path, .col, .ropes]
  | .cairnCommit _ _ => [.host, .jobs, .slots, .ridges, .col, .ropes]
  | .rbg _ _ _ => [.host, .jobs, .slots, .ridges, .path, .col, .ropes]
  | .ren _ _ _ => [.host, .jobs, .slots, .ridges, .path, .col, .ropes]
  | .ropeCommitGrant _ => [.hostMemory, .pool, .host, .parts, .jobs, .tiles, .loam, .slots, .ridges, .programming, .localMemory, .path, .arbiters, .col, .ropes, .links, .integrity, .security, .clay, .thermal, .pmu, .cmc]
  | .ropeTimeout _ => [.host, .jobs, .slots, .ridges, .col, .ropes]
  | .pinHoldTimeout _ => [.host, .jobs, .slots, .ridges, .col, .ropes]
  | .prb _ _ _ => [.host, .jobs, .slots, .ridges, .path, .col, .ropes]
  | .srv _ _ _ => [.host, .jobs, .tiles, .slots, .ridges, .path, .col, .ropes]
  | .tmap _ _ _ => [.host, .jobs, .slots, .ridges, .path, .col, .ropes]
  | .probeInsert _ _ => [.slots, .ridges]
  | .probeCompare _ _ _ => [.jobs, .tiles, .slots, .ridges, .path, .col, .integrity]
  | .surveyComplete _ _ _ => [.host, .parts, .jobs, .tiles, .ridges, .path, .col, .thermal]
  | .surveySpanTimeout _ _ => [.jobs, .tiles, .ridges, .path]
  | .surveyAgeTimer _ _ => [.tiles]
  | .surveyMvmCount _ _ => [.tiles]
  | .surveyIssue _ _ => [.tiles, .ridges]
  | .driftFold _ _ => [.host, .jobs, .slots, .ridges, .col, .ropes]
  | .refresh _ _ => [.host, .parts, .ridges, .programming, .col]
  | .tileSwap _ _ _ => [.host, .jobs, .slots, .ridges, .col, .ropes]
  | .programmingStart => [.tiles, .ridges, .programming, .col, .clay]
  | .programmingComplete _ _ _ _ _ _ => [.host, .parts, .jobs, .tiles, .slots, .ridges, .col, .ropes, .clay]
  | .bulkResetTrain _ _ _ => [.host, .parts, .jobs, .tiles, .slots, .ridges, .localMemory, .col, .ropes, .security, .clay, .cmc]
  | .loadCalibrationEnd _ _ => [.parts]
  | .converterCalibration _ _ => [.host, .ridges, .col]
  | .powerFrame _ _ _ => [.col, .pmu]
  | .thermalModelStep => [.host, .tiles, .col, .thermal, .pmu]
  | .peakPowerHold _ => [.col, .pmu]
  | .peakHoldHotTimer => [.host, .col, .thermal, .pmu]
  | .estimateStale => [.host, .col, .thermal]
  | .noEstimateWindowEnd => [.host, .col, .thermal]
  | .inletStale => [.col, .thermal]
  | .fwHeartbeat => [.cmc]
  | .heartbeatTimeout => [.host, .col, .cmc]
  | .fwStartTimeout => [.host, .col, .cmc]
  | .fwRunning => [.host, .parts, .tiles, .col, .security, .clay, .thermal, .cmc]
  | .svnRaise => [.col, .security]
  | .colGrant => [.hostMemory, .pool, .host, .parts, .jobs, .tiles, .loam, .slots, .ridges, .programming, .localMemory, .path, .arbiters, .col, .ropes, .links, .integrity, .security, .clay, .thermal, .pmu, .cmc]
  | .windowMarker _ => [.col]
  | .arbiterGrant _ _ _ _ => [.hostMemory, .pool, .host, .parts, .jobs, .tiles, .loam, .slots, .ridges, .programming, .localMemory, .path, .arbiters, .col, .ropes, .links, .integrity, .security, .clay, .thermal, .pmu, .cmc]
  | .countTimeout _ _ => [.host, .jobs, .slots, .ridges, .col, .ropes]
  | .jobEndOnFault _ _ => [.host, .parts, .jobs, .slots, .ridges, .path, .col, .ropes, .links]
  | .jobStart _ _ => [.parts, .jobs, .loam, .slots, .ridges]
  | .jobCompletion _ _ => [.host, .parts, .jobs, .slots, .ridges, .path, .col, .ropes, .links]
  | .egressFenceRelease _ _ => [.hostMemory, .jobs, .path, .col, .links]
  | .jobTimeLimit _ _ => [.host, .parts, .jobs, .slots, .ridges, .path, .col, .ropes, .links]
  | .preemption _ _ _ => [.host, .parts, .jobs, .loam, .slots, .ridges, .col, .ropes]
  | .preemptionRestore _ _ _ => [.host, .parts, .jobs, .loam, .slots, .ridges, .localMemory, .path, .col, .ropes, .links]
  | .jobRestart _ _ => [.host, .parts, .jobs, .loam, .slots, .ridges, .path, .col, .ropes, .links]
  | .fieldTestDue _ => [.host, .jobs, .tiles, .slots, .ridges, .path, .col, .ropes, .pmu]
  | .testGraceExpiry _ => [.host, .jobs, .tiles, .slots, .ridges, .path, .col, .ropes, .pmu]
  | .fieldTestComplete _ _ _ _ _ => [.host, .parts, .jobs, .tiles, .loam, .slots, .ridges, .path, .col, .ropes, .links, .integrity, .clay, .pmu]
  | .hbAttnAck _ _ => [.host]
  | .hbDbAdmin _ _ => [.hostMemory, .pool, .host, .col]
  | .sqDoorbell _ _ _ _ => [.host, .col]
  | .cqDoorbell _ _ _ _ => [.hostMemory, .pool, .host, .col]
  | .commandFetch _ => [.host, .col]
  | .hbCtrl _ _ _ => [.host]
  | .hbAqCfg _ _ => [.host]
  | .hbEvtDrop _ _ => [.host]
  | .hbColSeqLo _ _ => [.host]
  | .hbColSeqHi _ _ => [.host]
  | .registerWrite _ _ _ _ => [.host]
  | .rappelQueue _ _ _ => [.host, .col]
  | .rappelPartition _ _ _ => [.host, .col]
  | .rappelDevice _ _ _ => [.host, .col]
  | .identify _ _ => [.hostMemory, .host, .col]
  | .getCaps _ _ => [.hostMemory, .host, .col]
  | .progPower _ _ => [.host, .col, .pmu]
  | .surveyPolicy _ _ => [.host, .parts, .col, .integrity]
  | .thermalPolicy _ _ => [.host, .col, .thermal]
  | .arbWeight _ _ => [.host, .arbiters, .col]
  | .arbLimit _ _ => [.host, .arbiters, .col]
  | .arbStatus _ _ => [.host, .arbiters, .col]
  | .windowPolicy _ _ => [.host, .col]
  | .probePolicy _ _ => [.host, .parts, .col, .integrity]
  | .partBind _ _ => [.host, .jobs, .slots, .ridges, .col, .ropes]
  | .ridgeMap _ _ => [.host, .parts, .col]
  | .getFeature _ _ => [.hostMemory, .host, .col]
  | .partCreate _ _ => [.host, .parts, .jobs, .slots, .ridges, .col, .ropes, .security, .pmu]
  | .partDestroy _ _ => [.host, .parts, .tiles, .loam, .slots, .ridges, .programming, .col, .clay, .pmu, .cmc]
  | .partQuery _ _ => [.hostMemory, .host, .col]
  | .queueCreate _ _ => [.hostMemory, .pool, .host, .col]
  | .queueDestroy _ _ => [.host, .col]
  | .wsetLoad _ _ => [.host, .parts, .jobs, .tiles, .slots, .ridges, .programming, .path, .col, .ropes, .clay]
  | .wsetUnload _ _ => [.host, .parts, .jobs, .tiles, .slots, .ridges, .programming, .path, .col, .clay]
  | .wsetVerify _ _ _ => [.hostMemory, .host, .col]
  | .progLoad _ _ => [.host, .parts, .ridges, .col]
  | .progUnload _ _ => [.host, .parts, .ridges, .col]
  | .jobSubmit _ _ => [.host, .parts, .jobs, .col]
  | .jobResume _ _ => [.hostMemory, .host, .parts, .jobs, .loam, .slots, .ridges, .localMemory, .path, .col, .ropes, .links]
  | .jobCairnExport _ _ => [.hostMemory, .host, .col]
  | .calibrate _ _ => [.host, .tiles, .ridges, .col]
  | .testRun _ _ => [.host, .jobs, .tiles, .slots, .ridges, .path, .col, .ropes, .pmu]
  | .abort _ _ => [.host, .parts, .jobs, .slots, .ridges, .path, .col, .ropes, .links]
  | .attest _ _ => [.hostMemory, .host, .col]
  | .clayRead _ _ => [.hostMemory, .host, .col]
  | .clayWrite _ _ => [.host, .col, .clay]
  | .clayUnlock _ _ => [.host, .col, .clay]
  | .clayProtect _ _ => [.host, .col, .clay]
  | .fwStage _ _ => [.host, .col, .security]
  | .fwCommit _ _ => [.host, .jobs, .slots, .ridges, .col, .ropes]
  | .eventConfig _ _ => [.host, .col]
  | .logExport _ _ => [.hostMemory, .host, .col]
  | .peerTable _ _ => [.hostMemory, .host, .col, .links, .clay]
  | .routeSet _ _ => [.host, .col, .links, .pmu]
  | .powerCap _ _ => [.hostMemory, .host, .col, .pmu]
  | .thermalInlet _ _ => [.host, .col, .thermal]
  | .tunnelDown _ => [.host, .parts, .col, .security]
  | .tunnelUp _ => [.host]
  | .vfFlr _ _ => [.host, .parts, .col, .security]
  | .pf0Flr _ => [.host, .security]
  | .getVersion _ => [.security]
  | .getCapabilities _ => [.security]
  | .negotiateAlgorithms _ _ _ _ _ => [.security]
  | .getDigests _ => [.security]
  | .getCertificate _ _ _ _ => [.security]
  | .challenge _ _ _ => [.security]
  | .getMeasurements _ _ _ _ => [.security]
  | .keyExchange _ _ _ => [.security]
  | .finish _ _ _ => [.security]
  | .heartbeat _ _ => [.security]
  | .keyUpdate _ _ _ => [.security]
  | .endSession _ _ => [.security]
  | .keyProg _ _ _ _ _ _ _ => [.security]
  | .kSetGo _ _ _ _ _ => [.security]
  | .kSetStop _ _ _ _ _ => [.security]
  | .ideKmQuery _ _ _ => [.security]
  | .ideFail _ _ => [.parts, .col, .security]
  | .lockInterface _ _ _ => [.parts, .security]
  | .startInterface _ _ _ _ => [.parts, .security]
  | .stopInterface _ _ _ => [.parts, .col, .security]
  | .getDeviceInterfaceReport _ _ _ => [.security]
  | .debugAttach => [.col, .security]
  | .getStatus => [.cmc]
  | .getPower => [.cmc]
  | .getThermal => [.cmc]
  | .getIdentity => [.cmc]
  | .getLog _ => [.cmc]
  | .mctpControlMessage _ _ => [.cmc]
  | .codewordReceive _ _ => [.col, .links]
  | .ackTimeout _ => [.col, .links]
  | .retrain _ => [.col, .links]
  | .linkTrainingComplete _ _ => [.col, .links]
  | .trainingFail _ => [.col, .links]
  | .downRetry _ => [.col, .links]
  | .routeRecompute => [.col, .links]
  | .hailSend => [.col, .links]
  | .wr _ _ => [.localMemory, .col, .links]
  | .rd _ _ => [.col, .links]
  | .atom _ _ => [.localMemory, .col, .links]
  | .msg _ _ => [.jobs, .ridges, .col, .links]
  | .rsp _ _ => [.host, .jobs, .loam, .slots, .ridges, .localMemory, .path, .col, .ropes, .links]
  | .rdata _ _ => [.host, .jobs, .loam, .slots, .ridges, .localMemory, .path, .col, .ropes, .links]
  | .hail _ _ => [.jobs, .col, .links]
  | .report _ _ => [.col, .links]
  | .requestTimeout _ => [.jobs, .ridges, .path, .col, .links]
  | .busyRetry _ => [.jobs, .ridges, .path, .col, .links]
  | .atomRecordExpiry _ => [.links]
  | .peerSweep => [.col, .links]
  | .duplicateIdClear => [.links]
  | .pwrEnRise => [.pool, .host, .parts, .jobs, .tiles, .loam, .slots, .ridges, .programming, .localMemory, .path, .arbiters, .col, .ropes, .links, .integrity, .security, .clayBytes, .clay, .thermal, .pmu, .cmc, .pins]
  | .pwrEnFall => [.pool, .host, .parts, .jobs, .tiles, .loam, .slots, .ridges, .programming, .localMemory, .path, .arbiters, .col, .ropes, .links, .integrity, .security, .clayBytes, .clay, .thermal, .pmu, .cmc, .pins]
  | .sysRstNAssert => [.pool, .host, .parts, .jobs, .tiles, .loam, .slots, .ridges, .programming, .localMemory, .path, .arbiters, .col, .ropes, .links, .integrity, .security, .clayBytes, .clay, .thermal, .pmu, .cmc, .pins]
  | .sysRstNRelease _ _ _ _ _ => [.host, .tiles, .ridges, .col, .links, .integrity, .security, .clayBytes, .clay, .thermal, .pmu, .cmc, .pins]
  | .refclkLoss => [.pool, .host, .parts, .jobs, .tiles, .loam, .slots, .ridges, .programming, .localMemory, .path, .arbiters, .col, .ropes, .links, .integrity, .security, .clayBytes, .clay, .thermal, .pmu, .cmc]
  | .pllUnlock => [.pool, .host, .parts, .jobs, .tiles, .loam, .slots, .ridges, .programming, .localMemory, .path, .arbiters, .col, .ropes, .links, .integrity, .security, .clayBytes, .clay, .thermal, .pmu, .cmc]
  | .inputLow _ => [.col, .pmu]
  | .inputLoss => [.ridges, .programming, .clay, .pmu]
  | .inputRestored => [.host, .tiles, .ridges, .col, .links, .integrity, .security, .clayBytes, .clay, .thermal, .pmu, .cmc]
  | .inputLossTimeout => [.pool, .host, .parts, .jobs, .tiles, .loam, .slots, .ridges, .programming, .localMemory, .path, .arbiters, .col, .ropes, .links, .integrity, .security, .clayBytes, .clay, .thermal, .pmu, .cmc]
  | .railFault _ _ => [.pool, .host, .parts, .jobs, .tiles, .loam, .slots, .ridges, .programming, .localMemory, .path, .arbiters, .col, .ropes, .links, .integrity, .security, .clayBytes, .clay, .thermal, .pmu, .cmc]
  | .vprogFault _ _ => [.ridges, .programming, .col]
  | .domainPowerRequest _ _ => [.pmu]
  | .domainSequenceDone _ => [.loam, .slots, .ridges, .col, .links, .pmu]
  | .domainFault _ => [.pool, .host, .parts, .jobs, .tiles, .loam, .slots, .ridges, .programming, .localMemory, .path, .arbiters, .col, .ropes, .links, .integrity, .security, .clayBytes, .clay, .thermal, .pmu, .cmc]
  | .ridgeIdlePowerOff _ => [.pmu]
  | .clayGroupWriteDone => [.host, .parts, .jobs, .slots, .ridges, .localMemory, .col, .ropes, .security, .clayBytes, .clay, .cmc]
  | .clayRecordUpdate _ _ _ => [.clay]
  | .clayRecordRead _ _ => [.tiles, .ridges, .col, .links, .security, .clayBytes, .clay, .thermal, .cmc]
  | .failureLogWrite => [.integrity, .clayBytes]
  | .linkLockLost _ => [.col, .links]
  | .refclkRestored => [.host, .tiles, .ridges, .col, .links, .integrity, .security, .clayBytes, .clay, .thermal, .pmu, .cmc]
  | .hrdyMinimumTime _ => [.host]

/-- A ridge instruction with the row's OPCODE that its context can issue now and that meets no fault at issue (R179 to R182, R185, R212). -/
def issuable (s : State) (r : Nat) (x : Ctx) (w : W128) (op : Nat) : Bool :=
  decide (opOf w = op) && canIssue s r x w && (issueFault s r x w).isNone

/-- What issuing an instruction on ridge r leaves alone: every other ridge, and everything else but jobs and SIGs on their way; in the ridge everything but its window, window numbers, counters, contexts and prefetchers. No byte of memory changes. -/
structure IssueFrame (r : Nat) (s t : State) : Prop where
  state : t = { s with ridges := t.ridges, jobs := t.jobs, mem := { s.mem with sigs := t.mem.sigs, next := t.mem.next } }
  other : ∀ q, q ≠ r → getR t q = getR s q
  ridge : getR t r = { getR s r with win := (getR t r).win, nextId := (getR t r).nextId, cnt := (getR t r).cnt, jobCtx := (getR t r).jobCtx, svcCtx := (getR t r).svcCtx, prefetch := (getR t r).prefetch }

/-- How an action of so many bytes meets the context's open rope (R212, R286): with none open the instruction acts directly, in s itself and with no rope entry; with one open that has room, the action is staged in it. -/
def Joins (s : State) (r : Nat) (x : Ctx) (bytes : Nat) (a : Action) (u : State) (o : Option Nat) : Prop :=
  ((ctxOf (getR s r) x).rope = none ∧ u = s ∧ o = none) ∨ ∃ k, stageAs s r x bytes a = .staged u k ∧ o = some k

/-- The Loam byte a of ridge q lies outside every range that a list of writes covers. -/
def Outside (l : List (LOp × List Byte)) (q a : Nat) : Prop := ∀ w ∈ l, w.1.ridge = q → a < w.1.off ∨ w.1.off + w.2.length ≤ a

/-- The command c of ring q with this CID has been fetched, its turn has come, and neither the checks that every command passes nor those of its kind find anything (R309 to R312). -/
def Admitted (s : State) (q : QId) (cid : W16) (k : CmdKind) (checks : Cmd → List (Bool × Nat)) (c : Cmd) : Prop :=
  readyCmd s q cid k = some c ∧ (gateChecks s c k ++ checks c).all (fun x => !x.1) = true

/-- The command c of ring q with this CID has been fetched, its turn has come, and some check finds it wanting. -/
def Refused (s : State) (q : QId) (cid : W16) (k : CmdKind) (checks : Cmd → List (Bool × Nat)) (c : Cmd) : Prop :=
  readyCmd s q cid k = some c ∧ (gateChecks s c k ++ checks c).any (fun x => x.1) = true

/-- A frame of this TYPE reaches a port that carries it, is no broadcast, and is for this device (R336, R337, R345). -/
def Arrives (s : State) (n ty : Nat) (f : Frame) : Prop := carries s n ty = true ∧ f.ty = ty ∧ f.bcast = false ∧ f.dst = s.links.devId

end Sys2Proof.Safety
end

