-- ==== Sys2Proof/Certificates/Slice0/Obligations.lean ====
section
/-!
DEFINITION. The statements about the block, family by family: the ridge instructions and their completions; DMA, translation, signals and ropes; probes, surveys, programming, power and boot; jobs, registers and Ewesy commands; confidential hosts, links and remote accesses; the step, the frames of all commands, the invariant and reset.
-/

open Sys2Proof Sys2Proof.Machine Sys2Proof.Safety

/-- Issuing moves the context on (R180): after an instruction without a window entry, and after one that takes the entry e, the context's instruction index is one higher, the window number advances by the entries taken, and nothing outside the issue frame changes: no byte of memory, no other ridge, no tile, slot or buffer. -/
def Obligations.IssuingMovesTheContextOn : Prop :=
  ∀ (s : State) (r : Nat) (x : Ctx) (e : Win),
    (let t := settleCtx (advance s r x) r x
     IssueFrame r s t ∧ (ctxOf (getR t r) x).pc = (ctxOf (getR s r) x).pc + 1 ∧ (getR t r).nextId = (getR s r).nextId) ∧
    (let t := settleCtx (advance (pushWin s r e) r x) r x
     IssueFrame r s t ∧ (ctxOf (getR t r) x).pc = (ctxOf (getR s r) x).pc + 1 ∧ (getR t r).nextId = (getR s r).nextId + 1)

/-- NOP completes at issue, and HALT takes a window entry (R189, R206). A HALT whose context has no earlier instruction uncompleted ends the ridge's part of the job at once: the job context stops, keeps CODE, and the ridge's prefetchers are released (R206, R243). -/
def Obligations.NopAndHaltIssue : Prop :=
  (∀ (s : State) (r : Ridge) (x : Ctx) (w : W128),
    (issuable s r x w 0x00 = true → exec (.nop r x w) s = .next (settleCtx (advance s r x) r x)) ∧
    (issuable s r x w 0x01 = true → exec (.halt r x w) s = .next (settleCtx (advance (pushWin s r (mkWin (getR s r) x w .halt)) r x) r x))) ∧
  (∀ (s : State) (r : Ridge) (w : W128), issuable s r .job w 0x01 = true → ctxWin (getR s r) .job = [] →
    ∃ t, exec (.halt r .job w) s = .next t ∧ (getR t r).jobCtx.run = false ∧ (getR t r).jobCtx.halted = some (BitVec.ofNat 32 (bits w 111 80)) ∧
      (getR t r).prefetch = [])

/-- VLD at issue takes a window entry with the ranges it reads and its feed (R181, R190), and VLD_COMPLETE, once every earlier VLD of the ridge has completed and its operands read well, gives the positions of its feed their buffers and retires the instruction (R127 to R134, R189). The model's own choices and readings enter here through notes/assumptions/57. -/
def Obligations.VectorLoadIssuesAndCompletes : Prop :=
  (∀ (s : State) (r : Ridge) (x : Ctx) (w : W128) (fs : List Seg) (o : LOp) (l : Option LOp),
    issuable s r x w 0x08 = true → feedSegs (getR s r).feed (getR s r).segs (vldFeed w) = some fs → feedFits fs (vldLen w) = true →
    (fmtMX (vldFmt w) = true → vldLen w % 32 = 0) → vldReads s r w = some (o, l) →
    loamFree s r (vldRanges s w o l) [] = true → (o.ridge = r.val → ringFault (getR s r) o.off = none ∧ ringWait (getR s r) o.off = false) →
    exec (.vld r x w) s =
      .next (settleCtx (advance (pushWin s r { mkWin (getR s r) x w .vld with reads := vldRanges s w o l, aux := vldFeed w }) r x) r x)) ∧
  (∀ (s : State) (r : Ridge) (id : Nat) (e : Win) (o : LOp) (bufs : List (Nat × InBuf)),
    findWin s r id = some e → vldEnd s r e = some (.buffers o bufs) →
    exec (.vldComplete r id) s = .next (retire (vldEffect s r o bufs) r id))

/-- MVM and MVMS at issue (R192): when every named position serves the product, the slot is open to contributions and nothing holds the product back, it takes its window entry with the lanes it runs. Issuing a product enters one window entry that carries the probe epoch's stamp of that moment and a lane for every named position (R180, R368). The model's own choices and readings enter here through notes/assumptions/56. -/
def Obligations.MatrixProductsIssue : Prop :=
  (∀ (s : State) (r : Ridge) (x : Ctx) (w : W128),
    (mvmPositions w).all (fun p => serviceable s r x p) = true → (getSlot s r (mvmSlot w)).opened = true → (getSlot s r (mvmSlot w)).closing = false →
    mvmFree s r x w = true →
    (issuable s r x w 0x10 = true → exec (.mvm r x w) s = .next (settleCtx (advance (mvmIssue s r x w) r x) r x)) ∧
    (issuable s r x w 0x11 = true → exec (.mvms r x w) s = .next (settleCtx (advance (mvmIssue s r x w) r x) r x))) ∧
  (∀ (s : State) (r : Ridge) (x : Ctx) (w : W128), ∃ e, (getR (mvmIssue s r x w) r).win = (getR s r).win ++ [e] ∧
    e.id = (getR s r).nextId ∧ e.kind = .mvm ∧ e.w = w ∧ e.stamp = epochNow s ∧ e.lanes.map (fun l => l.pos) = mvmPositions w ∧
    (getR (mvmIssue s r x w) r).nextId = (getR s r).nextId + 1)

/-- The headroom guard (R79): with RANGE_MODE 0 a conversion uses the smallest range whose threshold, relaxed by 4^k, admits the bound of the rows it covers, and range 3 when none does; with RANGE_MODE 1 it uses RANGE_FIX. Each conversion's value is a code from -128 to 127 times the LSB of that range. A row group that is not split converts once, over all its rows; a split one converts its four sub-groups of 64 rows, each under its own bound, with k = 0 when every row of the group stands at digit 15. The split itself follows R78. The model's own choices and readings enter here through notes/assumptions/4. -/
def Obligations.GuardChoosesRanges : Prop :=
  (∀ (cfg : W32) (k b : Nat), let r := rangeFor cfg k b
    (rdMode cfg = false → (∃ q, q < 4 ∧ b ≤ thr q * 4 ^ k) → r < 4 ∧ b ≤ thr r * 4 ^ k ∧ ∀ q, q < r → thr q * 4 ^ k < b) ∧
    (rdMode cfg = false → (∀ q, q < 4 → thr q * 4 ^ k < b) → r = 3) ∧
    (rdMode cfg = true → r = rdFix cfg)) ∧
  (thr 0 = 952 ∧ thr 1 = 3808 ∧ thr 2 = 15232 ∧ thr 3 = 60928) ∧
  (∀ (t : Tile) (cfg : W32) (belay : Tbl W16) (k j b : Nat) (ds : List (Nat × Int)) (dev : Int), ds ≠ [] →
    ∃ n : Int, -128 ≤ n ∧ n ≤ 127 ∧ (convert t cfg belay k j b ds dev).v = n * (lsb (rangeFor cfg k b) : Int)) ∧
  (∀ (mvms : Bool) (k : Nat) (cfg : W32) (t : Tile) (belay : Tbl W16) (b : InBuf) (devs : List AdcDev) (pos g j ph w : Nat),
    let all := digitsIn b ph (256 * g) 256
    let kk := if l1 all = 3840 then 0 else k
    let sub := fun (q : Nat) => let ds := digitsIn b ph (256 * g + 64 * q) 64
      tvOf w (convert t cfg belay kk j (maxLevel t g j * l1 ds) ds (devAt devs pos ph q g j))
    (splits mvms k cfg t b g ph = false →
      phaseSum mvms k cfg t belay b devs pos g j ph w = tvOf w (convert t cfg belay k j (maxLevel t g j * l1 all) all (devAt devs pos ph 0 g j))) ∧
    (splits mvms k cfg t b g ph = true →
      phaseSum mvms k cfg t belay b devs pos g j ph w = tvAdd (tvAdd (sub 0) (sub 1)) (tvAdd (sub 2) (sub 3))) ∧
    (splits mvms k cfg t b g ph = true ↔ mvms = true ∨ l1 all = 3840 ∨ (rdMode cfg = false ∧ thr 3 * 4 ^ k < maxOfGroup t g * l1 all)) ∧
    (j < 512 → maxLevel t g j ≤ maxOfGroup t g))

/-- CONTRIBUTION_COMMIT of the oldest uncommitted contribution of its ridge into an incomplete slot adds it to the slot, counts it in RECEIVED, retires the product and lets what waits on the ridge's slots go on (R157 to R159); with RECEIVED already at EXPECT it stops the stream with SLOT_EXCESS and adds nothing (R159). The model's own choices and readings enter here through notes/assumptions/4. -/
def Obligations.ContributionsCommitOnce : Prop :=
  ∀ (s : State) (r : Ridge) (id : Nat) (devs : List AdcDev) (e : Win),
    findWin s r id = some e → e.kind = .mvm → earlierInto r (getR s r) id (mvmSlot e.w) = false → faultedWin (getR s r) e = false →
    ((getSlot s r (mvmSlot e.w)).received ≠ (getSlot s r (mvmSlot e.w)).expect →
      exec (.contributionCommit r id devs) s = .next (settleRidge (retire (commitEffect s r e devs) r id) r) ∧
      (getSlot (commitEffect s r e devs) r (mvmSlot e.w)).received = (getSlot s r (mvmSlot e.w)).received + 1) ∧
    ((getSlot s r (mvmSlot e.w)).received = (getSlot s r (mvmSlot e.w)).expect →
      exec (.contributionCommit r id devs) s = .next (execFault s r e 0x09))

/-- PRE opens a slot that is neither open nor closing nor locked (R155, R156, R193): the zero form at once, the forms that read Loam once their operand is accessible, free of earlier writes and of good integrity. The slot is then open with its generation, exponent, length and EXPECT, has received nothing, and its ledger is empty (R370). -/
def Obligations.PreOpensItsSlot : Prop :=
  ∀ (s : State) (r : Ridge) (x : Ctx) (w : W128),
    issuable s r x w 0x18 = true → (getSlot s r (slotNo w)).opened = false → (getSlot s r (slotNo w)).closing = false → lockedClaim s (4, r, slotNo w) = false →
    (preMode w = 2 → claimed s (2, r, preTable w) = false ∧ preChan w + preLen w ≤ descCount (rscDesc (getR s r) (preTable w))) →
    (preMode w = 0 → exec (.pre r x w) s = .next (settleCtx (advance (setSlot s r (slotNo w) (preSlot (getR s r) w [])) r x) r x)) ∧
    (∀ o b, preMode w ≠ 0 → laOp s r (preSrc w) (vecBytes (preFmtOf w) (preLen w)) (fmtAlign (preFmtOf w)) false = some o →
      loamFree s r [rangeOf o (vecBytes (preFmtOf w) (preLen w))] [] = true → ldLoam s o (vecBytes (preFmtOf w) (preLen w)) = (b, false) →
      exec (.pre r x w) s = .next (settleCtx (advance (setSlot s r (slotNo w) (preSlot (getR s r) w b)) r x) r x)) ∧
    (∀ b, let k := preSlot (getR s r) w b
      k.opened = true ∧ k.closing = false ∧ k.gen = bits w 87 80 ∧ k.exp = sbits w 96 88 ∧ k.len = preLen w ∧ k.expect = bits w 79 68 ∧ k.received = 0 ∧
      k.ledger = .empty)

/-- DRN at issue closes its slot to the ridge's contributions and takes a window entry; inside an open rope it is staged there as well (R159, R194, R212). DRAIN_COMPLETE of a drain whose slot has every contribution: outside a rope its output is written, its counts enter the job's report, the slot is freed and the instruction retires; inside a rope the output is staged until COMMIT (R162 to R166). The model's own choices and readings enter here through notes/assumptions/57, notes/assumptions/59. -/
def Obligations.DrainsIssueAndComplete : Prop :=
  (∀ (s : State) (r : Ridge) (x : Ctx) (w : W128) (f : Nat) (ws : List LRange),
    issuable s r x w 0x19 = true → lockedClaim s (4, r, slotNo w) = false → lockedClaim s (2, r, drnTable w) = false →
    drnSlotFault (getSlot s r (slotNo w)) w = none → drnFmt (getR s r) w (getSlot s r (slotNo w)).len = some f →
    drnWrites s r w f (getSlot s r (slotNo w)).len = some ws → loamFree s r [] ws = true →
    ((ctxOf (getR s r) x).rope = none →
      exec (.drn r x w) s = .next (settleCtx (advance (pushWin (setClosing s r (slotNo w) true) r (drnWin (getR s r) x w ws)) r x) r x)) ∧
    (∀ t n, stageAs s r x (drnSize w f (getSlot s r (slotNo w)).len) (.drain r (slotNo w) (getR s r).nextId) = .staged t n →
      exec (.drn r x w) s =
        .next (settleCtx (advance (pushWin (setClosing t r (slotNo w) true) r { drnWin (getR s r) x w ws with rope := some n }) r x) r x))) ∧
  (∀ (s : State) (r : Ridge) (id : Nat) (ue : List Nat) (e : Win),
    findWin s r id = some e → e.kind = .drain → e.staged = none → faultedWin (getR s r) e = false → slotReady s r e = true →
    (e.rope = none → (writeStaged s r (drainStaged s r e)).2 = false →
      exec (.drainComplete r id ue) s = .next (retire (freeSlot (addCounts (slotUe (writeStaged s r (drainStaged s r e)).1 r
        (ueCdus (entFmt (chanEntry (getR s r) e.half (drnTable e.w) (drnChan e.w))) (drainStaged s r e) ue)) r e.ctx (drainStaged s r e)) r (slotNo e.w)) r id)) ∧
    (e.rope ≠ none → exec (.drainComplete r id ue) s = .next (updWin s r id (fun w => { w with staged := some (drainStaged s r e) }))))

/-- CANCEL (R162): at the drain an entry is flagged exactly when CANCEL_SHIFT is not 0, SAT is clear, and |VALUE| × 2^CANCEL_SHIFT lies below the companion, compared exactly; so an entry of VALUE 0 is flagged for a companion above 0 and for no other. The drain counts the flagged entries, and its flag map, where it has one, shows them. SPL and AAD carry entries and companions onward as they stand. -/
def Obligations.CancelIsDecidedAtTheDrain : Prop :=
  (∀ (shift : Nat) (e : Entry) (c : W32),
    (cancels shift e c = true ↔ shift ≠ 0 ∧ e.sat = false ∧ ((e.val.natAbs * 2 ^ shift : Nat) : Int) * ((f32Val c).den : Int) < (f32Val c).num) ∧
    (shift ≠ 0 → e.sat = false → e.val = 0 → (cancels shift e c = true ↔ 0 < (f32Val c).num)) ∧
    (e.val = 0 → c = 0 → cancels shift e c = false)) ∧
  (∀ (s : State) (r : Nat) (w : Win),
    let sl := getSlot s r (slotNo w.w)
    let shift := (getR s r).accCfg.toNat % 16
    let g := drainStaged s r w
    g.cancel = ((List.range sl.len).filter (fun i => cancels shift (slotEntry sl i) (slotComp sl i))).length ∧
    (∀ q, drnMap w.w = true → laPhys s r (bits w.w 56 30) = some q →
      (q, laOff (bits w.w 56 30), packCodes 0 ((List.range sl.len).map (fun i =>
        flagNibble { slotEntry sl i with cancel := cancels shift (slotEntry sl i) (slotComp sl i) })), ledgerTag sl.ledger) ∈ g.loam)) ∧
  (∀ (sl : Slot) (i : Nat), i < sl.len → sl.len ≤ 512 →
    fieldAt (splImage sl) (0x100 + 8 * i) 8 = entryWord (slotEntry sl i) ∧ fieldAt (splImage sl) (0x1100 + 4 * i) 4 = (slotComp sl i).toNat) ∧
  (∀ (s : State) (r p : Nat) (id : W32) (w : Win), (getR s r).job = some (p, id) → aadForm w.w = 0 →
    ∃ m, (aadReady s r w).mem.aads = s.mem.aads ++ [m] ∧ m.entries = (getSlot s r (slotNo w.w)).entries ∧ m.comps = (getSlot s r (slotNo w.w)).comps)

/-- SPL at issue (R168, R195): with its slot open and unpinned and its image place accessible, in Loam or in the job's memory, the slot closes to contributions and the instruction takes a window entry that waits for them; inside a rope it is staged there (R212). FIL of a sound image commits it into its open slot at issue (R169, R195), from Loam or from the job's memory: the slot counts one contribution more, its ledger takes the image's (R370), and its generation, length, exponent, EXPECT and pin stay. The model's own choices and readings enter here through notes/assumptions/57. -/
def Obligations.SpillsAndFillsIssue : Prop :=
  (∀ (s : State) (r : Ridge) (x : Ctx) (w : W128),
    issuable s r x w 0x1A = true → lockedClaim s (4, r, slotNo w) = false → (getSlot s r (slotNo w)).opened = true →
    (getSlot s r (slotNo w)).closing = false → (getSlot s r (slotNo w)).pin = false →
    let goes := fun (v : State) (ws : List LRange) => ∀ u o, Joins v r x 6400 (.spill r (slotNo w) (getR v r).nextId) u o →
      exec (.spl r x w) s = .next (settleCtx (advance (settleRidge (pushWin (setClosing u r (slotNo w) true) r
        { mkWin (getR v r) x w .waitSlot with writes := ws, rope := o }) r) r x) r x)
    (∀ o, maddrSpace (imageMaddr w) = false → laOp s r (maddrLaddr (imageMaddr w)) 6400 256 true = some o →
      loamFree s r [] [rangeOf o 6400] = true → goes s [rangeOf o 6400]) ∧
    (∀ j ps, maddrSpace (imageMaddr w) = true → dvaJob s r x = some j → maddrDva (imageMaddr w) % 256 = 0 →
      ridgePlaces s j.part j r (maddrDva (imageMaddr w)) 6400 1 (ctxOf (getR s r) x).pc = .places ps →
      (anyPeer ps = true → (ctxOf (getR s r) x).rope = none) → goes (if anyPeer ps then markDirty s r else s) [])) ∧
  ((∀ (s : State) (r : Ridge) (x : Ctx) (w : W128) (b : List Byte),
    issuable s r x w 0x1B = true → lockedClaim s (4, r, slotNo w) = false → (getSlot s r (slotNo w)).opened = true →
    (getSlot s r (slotNo w)).closing = false → earlierInto r (getR s r) (getR s r).nextId (slotNo w) = false →
    (getSlot s r (slotNo w)).received ≠ (getSlot s r (slotNo w)).expect → imageOk (getSlot s r (slotNo w)) b = true →
    let goes := fun (v : State) => exec (.fil r x w) s =
      .next (settleCtx (advance (settleRidge (setSlot v r (slotNo w) (filSlot (getSlot s r (slotNo w)) b)) r) r x) r x)
    (∀ o, maddrSpace (imageMaddr w) = false → laOp s r (maddrLaddr (imageMaddr w)) 6400 256 false = some o →
      loamFree s r [rangeOf o 6400] [] = true → (ldLoam s o 6400).1 = b →
      (imageParts (getSlot s r (slotNo w)).len).any (fun q => (ldLoam s ⟨o.ridge, o.off + q.1⟩ q.2).2) = false → goes s) ∧
    (∀ j h e c, maddrSpace (imageMaddr w) = true → dvaJob s r x = some j → maddrDva (imageMaddr w) % 256 = 0 →
      (imageParts (getSlot s r (slotNo w)).len).map (fun q => ridgeRead s j.part j r (maddrDva (imageMaddr w) + q.1) q.2 (ctxOf (getR s r) x).pc) =
        [.bytes h false, .bytes e false, .bytes c false] → b = bytesAt h 0 256 ++ bytesAt e 0 4096 ++ bytesAt c 0 2048 → goes (dropOnce s j.part r))) ∧
  (∀ (sl : Slot) (b : List Byte), let k := filSlot sl b
    k.received = sl.received + 1 ∧ k.ledger = mergeLedger sl.ledger (imageOf b).ledger ∧ k.opened = sl.opened ∧ k.closing = sl.closing ∧
    k.pin = sl.pin ∧ k.gen = sl.gen ∧ k.len = sl.len ∧ k.exp = sl.exp ∧ k.expect = sl.expect))

/-- Spill images read back (R150, R167, R369): an entry's word, a ledger's 48 bytes and a whole image of 6,400 bytes hold every field at its place, at every value that the field admits, and taking them apart gives it back; the reserved bytes, and the entries and companions at or above LEN, are zero. -/
def Obligations.SpillImagesReadBack : Prop :=
  (∀ e : Entry, -(2 ^ 39) ≤ e.val → e.val < 2 ^ 39 → entryWord e < 2 ^ 44 ∧ entryOf (entryWord e) = e) ∧
  (∀ l : Ledger, l.lo < 2 ^ 64 → l.hi < 2 ^ 64 → let b := ledgerBytes l
    b.length = 48 ∧ ledgerOf b = l ∧ fieldAt b 0 8 = l.ridges.toNat ∧ fieldAt b 0x08 4 = l.pos.toNat ∧ fieldAt b 0x0C 4 = l.fallback.toNat ∧
      fieldAt b 0x10 4 = l.relief.toNat ∧ fieldAt b 0x14 4 = (if l.multi then 1 else 0) ∧ fieldAt b 0x18 8 = l.lo ∧ fieldAt b 0x20 8 = l.hi ∧ fieldAt b 0x28 8 = 0) ∧
  (∀ (len : Nat) (exp : Int) (fl : Nat) (led : Ledger) (es : Nat → Entry) (cs : Nat → W32),
    len ≤ 512 → -(2 ^ 15) ≤ exp → exp < 2 ^ 15 → fl < 2 ^ 32 → led.lo < 2 ^ 64 → led.hi < 2 ^ 64 → (∀ i, i < len → -(2 ^ 39) ≤ (es i).val ∧ (es i).val < 2 ^ 39) →
    let b := imageBytes len exp fl led es cs
    b.length = 6400 ∧ fieldAt b 0 4 = 0x50535648 ∧ fieldAt b 4 2 = len ∧ asSigned 16 (fieldAt b 6 2) = exp ∧ fieldAt b 8 4 = fl ∧ zeroAt b 0x0C 4 = true ∧
      bytesAt b 0x10 48 = ledgerBytes led ∧ zeroAt b 0x40 192 = true ∧
      (∀ i, i < 512 → fieldAt b (0x100 + 8 * i) 8 = (if i < len then entryWord (es i) else 0) ∧ fieldAt b (0x1100 + 4 * i) 4 = (if i < len then (cs i).toNat else 0)) ∧
      imageOf b = { len := len, exp := exp, ledger := led, entries := (List.range len).map (fun i => entryWord (es i)), comps := (List.range len).map cs, flags := fl })

/-- AAD at issue (R170, R196). FORM 0 and FORM 1 close their source slot and wait for it in the window, FORM 1 marking the job dirty (R376); FORM 2 and FORM 3 read their vector and send one atomic for each CDU piece of the target. -/
def Obligations.AtomicAddsIssue : Prop :=
  ∀ (s : State) (r : Ridge) (x : Ctx) (w : W128), issuable s r x w 0x1C = true →
    (aadForm w ≤ 1 → lockedClaim s (4, r, slotNo w) = false → (getSlot s r (slotNo w)).opened = true →
      (getSlot s r (slotNo w)).closing = false → (getSlot s r (slotNo w)).pin = false →
      (∀ j q, aadForm w = 0 → x = .job → jobOn s r = some j → physRidge j (bits w 105 100) = some q →
        (q = r.val → (getSlot s r (bits w 99 94)).opened = true ∧ (getSlot s r (bits w 99 94)).closing = false ∧ bits w 99 94 ≠ slotNo w) →
        exec (.aad r x w) s = .next (settleCtx (advance (settleRidge (pushWin (setClosing s r (slotNo w) true) r
          { mkWin (getR s r) x w .waitSlot with aux := q }) r) r x) r x)) ∧
      (∀ j ws, aadForm w = 1 → dvaJob s r x = some j →
        ((maddrSpace (imageMaddr w) = true ∧ maddrDva (imageMaddr w) % 256 = 0 ∧ ws = [] ∧
            ∃ ps, ridgePlaces s j.part j r (maddrDva (imageMaddr w)) 6400 2 (ctxOf (getR s r) x).pc = .places ps) ∨
          (maddrSpace (imageMaddr w) = false ∧ ∃ o, laOp s r (maddrLaddr (imageMaddr w)) 6400 256 true = some o ∧
            loamFree s r [] [rangeOf o 6400] = true ∧ ws = [rangeOf o 6400])) →
        exec (.aad r x w) s = .next (settleCtx (advance (settleRidge (pushWin (setClosing (markDirty s r) r (slotNo w) true) r
          { mkWin (getR s r) x w .waitSlot with writes := ws }) r) r x) r x))) ∧
    (∀ j o ws l d, 2 ≤ aadForm w → dvaJob s r x = some j → laOp s r (bits w 111 85) (4 * (bits w 35 20 + 1)) 4 false = some o →
      vecTarget s r (vecMaddr w) (4 * (bits w 35 20 + 1)) = some ws → loamFree s r [rangeOf o (4 * (bits w 35 20 + 1))] ws = true →
      ldLoam s o (4 * (bits w 35 20 + 1)) = (d, false) →
      maddrPlaces s r j (vecMaddr w) (4 * (bits w 35 20 + 1)) 2 (ctxOf (getR s r) x).pc = .found l →
      exec (.aad r x w) s = .next (settleCtx (advance (vecAtomics (pushWin (markDirty s r) r
        { mkWin (getR s r) x w .memAtomic with writes := ws, parts := l.length, aux := 1 }) j r w (getR s r).nextId l d) r x) r x))

/-- AAD_ARRIVAL (R158 to R160, R170): a message whose target slot accepts it is committed once — RECEIVED goes up by one and the ledgers merge — and the sending AAD retires; a target of another partition, a slot not open or of another generation, a full slot and a wrong shape make the fault 0x0A, 0x08, 0x09 or 0x0B at the sender. -/
def Obligations.ArrivingAadsCommitOrFault : Prop :=
  (∀ (s : State) (id : Nat) (m : AadMsg), s.mem.aads.find? (fun m => m.id = id) = some m →
    (m.srcRidge = m.tgtRidge → earlierInto m.srcRidge (getR s m.srcRidge) m.win m.tgtSlot = false) →
    let s1 := { s with mem := { s.mem with aads := s.mem.aads.filter (fun v => v.id ≠ id) } }
    (aadCheck s m = none →
      exec (.aadArrival id) s = .next (settleRidge (settleRidge (retire (setSlot s1 m.tgtRidge m.tgtSlot (aadSlot (getSlot s m.tgtRidge m.tgtSlot) m))
        m.srcRidge m.win) m.srcRidge) m.tgtRidge)) ∧
    (∀ code w, aadCheck s m = some code → findWin s1 m.srcRidge m.win = some w → exec (.aadArrival id) s = .next (execFault s1 m.srcRidge w code))) ∧
  (∀ (s : State) (m : AadMsg), let sl := getSlot s m.tgtRidge m.tgtSlot
    (aadCheck s m = none ↔ (getP s m.part).ridges.toNat.testBit m.tgtRidge = true ∧ sl.opened = true ∧ sl.gen = m.gen ∧ sl.received ≠ sl.expect ∧
      m.off + m.len ≤ sl.len ∧ sl.exp = m.exp) ∧
    (aadSlot sl m).received = sl.received + 1 ∧ (aadSlot sl m).ledger = mergeLedger sl.ledger m.ledger)

/-- MEMORY_ATOMIC_APPLY (R171, R340): an atomic on Loam or local memory leaves the queue, reads its CDU, adds, and writes it back; one on a peer's memory becomes a link request. An entry out of its range stops the sender with 0x0B and a poisoned CDU with 0x11, and neither is written. The model's own choices and readings enter here through notes/assumptions/56, notes/assumptions/59. -/
def Obligations.MemoryAtomicsApply : Prop :=
  ∀ (s : State) (id : Nat) (m : MemAtomic), s.mem.atomics.find? (fun m => m.id = id) = some m →
    let s1 := { s with mem := { s.mem with atomics := s.mem.atomics.filter (fun v => v.id ≠ id) } }
    let n := m.data.length
    (∀ q o, m.place = .loam q o → loamBad (getR s q) o n = false →
      let a := atomApply m.op (loamBytes (getR s q) q o n) m.data
      a.range = false → exec (.memoryAtomicApply id) s =
        .next (atomDone (atomSat (updR s1 q (fun rd => loamPut rd o a.data (atomTag s1 m))) m a.sat) m.ridge m.win)) ∧
    (∀ pa, m.place = .local pa → dramBad s pa n = false →
      let a := atomApply m.op (dramBytes s pa n) m.data
      a.range = false → exec (.memoryAtomicApply id) s = .next (atomDone (atomSat (dramPut s1 pa a.data) m a.sat) m.ridge m.win)) ∧
    ((∃ q o, m.place = .loam q o ∧ loamBad (getR s q) o n = false ∧ (atomApply m.op (loamBytes (getR s q) q o n) m.data).range = true) ∨
      (∃ pa, m.place = .local pa ∧ dramBad s pa n = false ∧ (atomApply m.op (dramBytes s pa n) m.data).range = true) →
      exec (.memoryAtomicApply id) s = .next (atomFault s1 m.ridge m.win 0x0B)) ∧
    (∀ q o, m.place = .loam q o → loamBad (getR s q) o n = true →
      exec (.memoryAtomicApply id) s = .next (atomFault (raiseInteg s1 m.ridge 0x01 m.part 0 q 0xFF m.job o 0) m.ridge m.win 0x11)) ∧
    (∀ a, m.place = .local a → dramBad s a n = true →
      exec (.memoryAtomicApply id) s =
        .next (atomFault (raiseInteg s1 m.ridge 0x01 m.part 2 (a / 4096 % 12) 0xFF m.job a 0) m.ridge m.win 0x11)) ∧
    (∀ dev off j t, m.place = .remote dev off → findJob s m.part m.job = some j → j.st ≠ .suspended → j.st ≠ .saved → remoteBar s m.part dev = none →
      peerSend s1 j (mkReq 3 dev m.part m.job m.ridge m.win off (atomCode m.op) m.data m.dva) = some t →
      exec (.memoryAtomicApply id) s = .next t)

/-- DMM, VOP and RED read their operands, work and write their result at issue (R197, R201, R204, R174): when each descriptor and operand is accessible, the scoreboard admits the ranges, no operand is poisoned and the shape is legal, the result's codes are written and the context goes on. Frame of DMM, VOP and RED: once the result lists the writes l, every byte of Loam outside their ranges reads as before, and no host memory, local memory or special register changes; only ridges' stores and the job's counts do. The model's own choices and readings enter here through notes/assumptions/56, notes/assumptions/59. -/
def Obligations.VectorUnitsIssueAndComplete : Prop :=
  (∀ (s : State) (r : Ridge) (x : Ctx) (w : W128),
    (issuable s r x w 0x20 = true →
      let d := dmuAt (getR s r) w
      let acc := bitAt w 118
      ∀ a c b bt br ab cb t, dmuOk d acc = true → laOp s r (bits w 102 76) (spanA d) (fmtAlign d.fa) false = some a →
        laOp s r (bits w 75 49) (spanC d) (fmtAlign d.fc) true = some c → dmmB s r x w d = .ok b false bt br →
        loamFree s r ([rangeOf a (spanA d)] ++ br) [rangeOf c (spanC d)] = true → ldLoam s a (spanA d) = (ab, false) →
        (if acc then ldLoam s c (spanC d) else ([], false)) = (cb, false) →
        dmuWrite (dmmBase s r x) r x (dmmResult s d acc a c ab b cb bt).1 (dmmResult s d acc a c ab b cb bt).2.1 (dmmResult s d acc a c ab b cb bt).2.2 = .next t →
        exec (.dmm r x w) s = .next (settleCtx (advance t r x) r x)) ∧
    (issuable s r x w 0x21 = true →
      ∀ a b c cs tags t, laOp s r (bits w 107 81) (vecBytes (vopF w) (vopLen w)) (fmtAlign (vopF w)) false = some a → vopB s r w = some b →
        laOp s r (bits w 53 27) (vecBytes (vopOut w) (vopLen w)) (fmtAlign (vopOut w)) true = some c →
        (vopOp w = 7 → vopLen w % (bits w 69 54 + 1) = 0) →
        loamFree s r (vopReads w a b) [rangeOf c (vecBytes (vopOut w) (vopLen w))] = true →
        (ldLoam s a (vecBytes (vopF w) (vopLen w))).2 = false → (vopBytesB s w b).2 = false →
        vopCodes s r w (ldLoam s a (vecBytes (vopF w) (vopLen w))).1 (vopBytesB s w b).1 = .ok (cs, tags) →
        dmuWrite s r x [(c, packCodes (vopOut w) (cs.map (fun e => e.1)))] (vopTag s w a b tags) (cs.filter (fun e => e.2)).length = .next t →
        exec (.vop r x w) s = .next (settleCtx (advance t r x) r x)) ∧
    (issuable s r x w 0x22 = true →
      ∀ a c rows t, redSrc s r w = some a → redDst s r w = some c →
        loamFree s r [rangeOf a (redSrcLen w)] [rangeOf c (redDstLen w)] = true → (ldLoam s a (redSrcLen w)).2 = false →
        redOut w (ldLoam s a (redSrcLen w)).1 = some rows →
        dmuWrite s r x [(c, rows.flatMap (fun y => y.1))] (mergeTags s (opTags s a (redSrcLen w))) ((rows.map (fun y => y.2)).foldl (· + ·) 0) = .next t →
        exec (.red r x w) s = .next (settleCtx (advance t r x) r x))) ∧
  (∀ (s : State) (r : Nat) (x : Ctx) (l : List (LOp × List Byte)) (tag : W32) (n : Nat) (t : State), dmuWrite s r x l tag n = .next t →
    let u := settleCtx (advance t r x) r x
    (∀ q a, Outside l q a → loamByte (getR u q) q a = loamByte (getR s q) q a) ∧
    u = { s with ridges := u.ridges, jobs := u.jobs, mem := { s.mem with sigs := u.mem.sigs, next := u.mem.next } })

/-- A DMA of operation COPY, INVAL or FILL whose descriptor is legal and whose endpoints are accessible takes a window entry with the ranges it covers and puts one descriptor in flight at its cluster's engine (R205, R255 to R257). -/
def Obligations.DmaDescriptorsIssue : Prop :=
  ∀ (s : State) (r : Ridge) (x : Ctx) (w : W128) (rs ws : List LRange), issuable s r x w 0x28 = true →
    let d := dmaAt (getR s r) w
    let src := endpoint w d.sk d.src
    let dst := endpoint w d.dk d.dst
    dmaBad d = false → endpointOk s r (ctxJob s r x) d.sk src d.ss d.rows d.rowBytes false = some rs →
    endpointOk s r (ctxJob s r x) d.dk dst d.ds d.rows d.rowBytes true = some ws →
    ((getDma s (clusterOf r)).filter (fun e => e.ridge = r.val)).length < 128 → loamFree s r rs ws = true →
    let goes := fun (c : Instr) => exec c s = .next (settleCtx (advance (pushWin
      (setDma { s with mem := { s.mem with next := s.mem.next + 1 } } (clusterOf r) (getDma s (clusterOf r) ++ [dmaNew s r x w d.op d src.toNat dst.toNat]))
      r { mkWin (getR s r) x w .dma with reads := rs, writes := ws }) r x) r x)
    (d.op = 0 → goes (.dmaCopy r x w)) ∧ (d.op = 2 → goes (.dmaInval r x w)) ∧ (d.op = 3 → goes (.dmaFill r x w))

/-- DMA_SEGMENT serves the descriptor at the front of its cluster's rotation and moves it to the back with one segment more applied (R479); a segment of poisoned bytes is not applied and marks the descriptor bad (R235). DMA_COMPLETION of a descriptor with every segment applied and acknowledged retires its instruction, signals its counter, or, bad, stops the stream with 0x11 (R205, R235). The model's own choices and readings enter here through notes/assumptions/17, notes/assumptions/27. -/
def Obligations.DmaRunsAndCompletes : Prop :=
  (∀ (s : State) (c : Fin 4) (hostOk : Bool) (d : Dma) (rest : List Dma) (row off len : Nat),
    getDma s c = d :: rest → (d.ctx = .service ∨ ∃ j, findJob s d.part d.job = some j ∧ j.st = .running) → srcRoom s (srcCluster c) = true →
    segAt d d.next = some (row, off, len) →
    let src := rowAddr d.srcAddr d.srcStride row + off
    (∀ t bad n, dmaSeg s (findJob s d.part d.job) d c hostOk row off len = .done t bad n →
      exec (.dmaSegment c hostOk) s = .next (setDma t c ((getDma t c).filter (fun e => e.id ≠ d.id) ++
        [{ d with next := d.next + 1, bad := d.bad || bad, posted := d.posted + n }]))) ∧
    (∀ b tag, d.op ≠ 2 → d.dstKind ≠ 2 → dmaRead s (findJob s d.part d.job) d c hostOk src len = .ok b true tag →
      dmaSeg s (findJob s d.part d.job) d c hostOk row off len = .done s true 0)) ∧
  (∀ (s : State) (c : Fin 4) (id : Nat) (d : Dma) (e : Win),
    (getDma s c).find? (fun d => d.id = id) = some d → segAt d d.next = none → d.posted = 0 →
    (∀ j, findJob s d.part d.job = some j → j.st ≠ .saved) →
    let s1 := setDma s c ((getDma s c).filter (fun e => e.id ≠ id))
    findWin s1 d.ridge d.win = some e →
    (d.bad = true → exec (.dmaCompletion c id) s = .next (execFault s1 d.ridge e 0x11)) ∧
    (d.bad = false → d.signal = none → exec (.dmaCompletion c id) s = .next (retire s1 d.ridge d.win)) ∧
    (∀ k, d.bad = false → d.signal = some k → d.ctx = .job →
      exec (.dmaCompletion c id) s = .next (retire (addCounter s1 d.part d.job d.ridge k 1) d.ridge d.win)) ∧
    (∀ k, d.bad = false → d.signal = some k → d.ctx = .service →
      exec (.dmaCompletion c id) s =
        .next (retire (updR s1 d.ridge (fun rd => { rd with cnt := tset 0 rd.cnt k (tget 0 rd.cnt k + 1) })) d.ridge d.win)))

/-- PREFETCH completes at issue: it takes a free prefetcher (a CACHE one takes, with none free, the CACHE prefetcher demanded least recently), which has fetched no row yet, and signals its counter (R244). RING_PREFETCH_FILL then brings the next row of a running job's ring into its slot, and counts it filled. -/
def Obligations.PrefetchersSetUpAndFill : Prop :=
  (∀ (s : State) (r : Ridge) (x : Ctx) (w : W128) (ss ws : List LRange) (k : Nat), issuable s r x w 0x28 = true →
    let d := dmaAt (getR s r) w
    let ring := d.flags.testBit 1
    let slotBytes := (d.rowBytes + 255) / 256 * 256
    let s1 := updR s r (fun rd => { rd with prefetch := tset .free rd.prefetch k (prefetchNew w ring d (endpoint w d.sk d.src).toNat ((ws.head?.map (fun q => q.off)).getD 0) s.now) })
    d.op = 1 → dmaBad d = false → endpointOk s r (ctxJob s r x) 1 (endpoint w d.sk d.src) d.ss d.rows d.rowBytes false = some ss →
    endpointOk s r (ctxJob s r x) d.dk (endpoint w d.dk d.dst) slotBytes d.slots slotBytes true = some ws → ws.all (fun q => q.ridge = r.val) = true →
    prefetchPick (getR s r) ring = some k →
    (∀ c j, dmaSignal w = some c → ctxJob s r x = some j →
      exec (.dmaPrefetch r x w) s = .next (settleCtx (advance (addCounter s1 j.part j.id r c 1) r x) r x)) ∧
    (dmaSignal w = none ∨ ctxJob s r x = none → exec (.dmaPrefetch r x w) s = .next (settleCtx (advance s1 r x) r x))) ∧
  (∀ (s : State) (r : Ridge) (k : Fin 4) (j : Job) (ps : List Piece) (b : List Byte),
    let f := tget Prefetch.free (getR s r).prefetch k
    let agent := agentCluster (clusterOf r)
    jobOn s r = some j → j.st = .running → f.active = true → f.ring = true → f.faulted = none → f.filled < f.rows →
    f.busy.any (fun b => b % f.slots = f.filled % f.slots) = false → translate s j.part j agent (rowAddr f.src f.stride f.filled) f.rowBytes 0 = .ok ps →
    readPieces s j.part agent ps = some (b, false) →
    let t := (stLoam (dropOnce s j.part agent) r ⟨r, f.dst + (f.filled % f.slots) * ((f.rowBytes + 255) / 256 * 256)⟩ b (tagFromMemory s j r)).1
    exec (.ringPrefetchFill r k) s =
      .next (updR t r (fun rd => { rd with prefetch := tset .free rd.prefetch k { f with filled := f.filled + 1, busy := f.busy ++ [f.filled] } })))

/-- PAGE_WALK of a job's pending walk ends it (R253): a success puts the page into the asking agent's TLB and lets a ridge's window go on; a failure is cached nowhere (R259), is kept by a RING prefetcher's own row (R245), suspends the job by its ridge or its agent otherwise, and aborts the ridge's open rope with FAULT (R262). The model's own choices and readings enter here through notes/assumptions/57. -/
def Obligations.PageWalksEnd : Prop :=
  ∀ (s : State) (id : Nat) (w : Walk) (j : Job), s.mem.walks.find? (fun w => w.id = id) = some w → findJob s w.part w.job = some j →
    let s1 := { s with mem := { s.mem with walks := s.mem.walks.filter (fun v => v.id ≠ id) } }
    (∀ g, walkDva s w.part j w.dva w.access = .ok g →
      (w.source = 0 → w.agent < 48 → exec (.pageWalk id) s = .next (settleRidge (fillTlb s1 w g) w.agent)) ∧
      (w.source ≠ 0 ∨ 48 ≤ w.agent → exec (.pageWalk id) s = .next (fillTlb s1 w g)) ∧
      (∃ e ∈ (fillTlb s1 w g).mem.tlb, e.part = w.part ∧ e.job = w.job ∧ e.agent = w.agent ∧ e.base = g.base ∧ e.size = g.size ∧ e.ia = g.ia ∧ e.w = g.w)) ∧
    (∀ c l, walkDva s w.part j w.dva w.access = .fault c l →
      (w.source = 3 → exec (.pageWalk id) s = .next s1) ∧
      (w.source = 0 → w.agent < 48 →
        let t := ridgeMmu s1 srcWalker w.part j w.agent w.instr c w.dva w.access l
        ((getR t w.agent).jobCtx.rope = none → exec (.pageWalk id) s = .next t) ∧
        (∀ o, (getR t w.agent).jobCtx.rope = some o → exec (.pageWalk id) s = .next (ropeAbort t o.entry 0x01 0x12 0))) ∧
      (w.source ≠ 3 → (w.source ≠ 0 ∨ 48 ≤ w.agent) →
        exec (.pageWalk id) s = .next (mmuFault s1 srcWalker w.part w.job w.source w.srcRidge c w.dva w.access l w.desc w.instr w.resume)))

/-- MORAINE_FILL of a CDU inside a partition's ranges puts it into the partition's ways (R239): a first mismatch that the retry mends is counted and delivers the CDU (R249); a second one poisons the CDU with an INTEGRITY event, or, in a golden record, fails that record instead (R51, R235). Filling changes no byte of memory. The model's own choices and readings enter here through notes/assumptions/10, notes/assumptions/14. -/
def Obligations.MoraineFillsCdus : Prop :=
  ∀ (s : State) (p : PartNo) (pa off : Nat), (getP s p).st ≠ .free → pa % 256 = 0 → paOffset (getP s p) pa = some off →
    let s1 := fillLine s p pa
    let ch := pa / 4096 % 12
    exec (.moraineFill p pa 0) s = .next s1 ∧
    exec (.moraineFill p pa 1) s = .next (countCorrected s1 (128 + ch) (srcDram (ch / 2)) 4096 2 ch) ∧
    (∀ bad, 2 ≤ bad → off < userSize (getP s p) →
      exec (.moraineFill p pa bad) s = .next (raiseInteg (dramPoison s1 pa true) (srcDram (ch / 2)) 0x01 p 2 ch 0xFF 0 off 0)) ∧
    (∀ bad ws r pos, 2 ≤ bad → userSize (getP s p) ≤ off → goldenAt (getP s p) (off - userSize (getP s p)) = some (ws, r, pos) →
      exec (.moraineFill p pa bad) s = .next (goldenFails s1 p ws r pos pa)) ∧
    (∀ bad, 2 ≤ bad → userSize (getP s p) ≤ off → goldenAt (getP s p) (off - userSize (getP s p)) = none →
      exec (.moraineFill p pa bad) s = .next (raiseInteg (dramPoison s1 pa true) (srcDram (ch / 2)) 0x01 p 2 ch 0xFF 0 pa 0)) ∧
    s1.mem.dram = s.mem.dram ∧ (dramPoison s1 pa true).mem.dram = s.mem.dram

/-- WAIT (R185): with its condition met the context goes on, and mode 2 subtracts THRESH from the counter; otherwise the WAIT holds its context, in which nothing issues, until WAIT_SATISFIED finds the condition met. Mode 1 asks for equality; modes 0 and 2 for a difference in [0, 2^31), which is a signed difference of at least 0; mode 3 is reserved and stops the stream with RESERVED_FIELD (0x01). -/
def Obligations.WaitsHoldAndRelease : Prop :=
  (∀ (s : State) (r : Ridge) (x : Ctx) (w : W128), issuable s r x w 0x30 = true →
    (waitMet (getR s r) w = true → exec (.wait r x w) s = .next (settleCtx (advance (waitTake s r w) r x) r x)) ∧
    (waitMet (getR s r) w = false →
      exec (.wait r x w) s = .next (settleCtx (advance (updCtx s r x (fun c => { c with waiting := some w })) r x) r x))) ∧
  (∀ (s : State) (r : Ridge) (x : Ctx) (w : W128), opOf w = 0x30 → canIssue s r x w = true → waitMode w = 3 →
    exec (.wait r x w) s = .next (faultAt s r x 0x01 (ctxOf (getR s r) x).pc)) ∧
  (∀ (s : State) (r : Nat) (x : Ctx) (w v : W128), (ctxOf (getR s r) x).waiting = some w → canIssue s r x v = false) ∧
  (∀ (s : State) (r : Ridge) (x : Ctx) (w : W128), (ctxOf (getR s r) x).waiting = some w → waitMet (getR s r) w = true → ctxLive s r x = true →
    ∃ t, exec (.waitSatisfied r x) s = .next t ∧ (ctxOf (getR t r) x).waiting = none ∧
      tget 0 (getR t r).cnt (waitCnt w) = (if waitMode w = 2 then tget 0 (getR s r).cnt (waitCnt w) - waitThresh w else tget 0 (getR s r).cnt (waitCnt w))) ∧
  (∀ (rd : RidgeSt) (w : W128), waitMet rd w = true ↔
    (if waitMode w = 1 then tget 0 rd.cnt (waitCnt w) = waitThresh w else (tget 0 rd.cnt (waitCnt w) - waitThresh w).toNat < 2 ^ 31))

/-- SIG (R184): outside a rope it takes effect at issue under EARLY — at the ridge's own counter at once, or as a message to the other ridge — and else enters the window to take effect in its turn; inside a rope it is staged for COMMIT (R212). REMOTE_SIG_ARRIVAL adds the message's value to the counter of its target's job and retires the SIG that waits for it. -/
def Obligations.SignalsAddToCounters : Prop :=
  (∀ (s : State) (r : Ridge) (x : Ctx) (w : W128) (q : Nat), issuable s r x w 0x31 = true →
    (if bits w 105 100 = 63 then some r.val else (jobOn s r).bind (fun j => physRidge j (bits w 105 100))) = some q →
    ((ctxOf (getR s r) x).rope = none → bitAt w 112 = false →
      exec (.sig r x w) s = .next (settleCtx (advance (pushWin s r (mkWin (getR s r) x w .sig)) r x) r x)) ∧
    (∀ p id, (ctxOf (getR s r) x).rope = none → bitAt w 112 = true → (getR s r).job = some (p, id) →
      exec (.sig r x w) s = .next (settleCtx (advance (sendSig s p id r q (bits w 111 106) (sigValue w) (getR s r).nextId) r x) r x)) ∧
    ((ctxOf (getR s r) x).rope = none → bitAt w 112 = true → (getR s r).job = none →
      exec (.sig r x w) s = .next (settleCtx (advance (updR s r (fun rd =>
        { rd with cnt := tset 0 rd.cnt (bits w 111 106) (tget 0 rd.cnt (bits w 111 106) + sigValue w) })) r x) r x)) ∧
    (∀ t n, stageAs s r x 0 (.signal q (bits w 111 106) (sigValue w)) = .staged t n →
      exec (.sig r x w) s = .next (settleCtx (advance t r x) r x))) ∧
  (∀ (s : State) (p : Nat) (id : W32) (r cnt : Nat) (v : W32) (win q : Nat), (getR s r).job = some (p, id) →
    tget 0 (getR (sendSig s p id r r cnt v win) r).cnt cnt = tget 0 (getR s r).cnt cnt + v ∧
    (q ≠ r → (sendSig s p id r q cnt v win).ridges = s.ridges ∧ (sendSig s p id r q cnt v win).mem.sigs.length = s.mem.sigs.length + 1)) ∧
  (∀ (s : State) (id : Nat) (m : SigMsg), s.mem.sigs.find? (fun m => m.id = id) = some m →
    let s2 := addCounter { s with mem := { s.mem with sigs := s.mem.sigs.filter (fun v => v.id ≠ id) } } m.part m.job m.tgt m.cnt m.v
    (∀ w, findWin s2 m.src m.win = some w → w.kind = .remote → opOf w.w = 0x31 → exec (.remoteSigArrival id) s = .next (retire s2 m.src m.win)) ∧
    (findWin s2 m.src m.win = none → exec (.remoteSigArrival id) s = .next s2))

/-- CRN of an entry of the program's cairn table copies the entry's live regions, the counters and the resume index of its ridge into the half that is not live, once nothing earlier is uncompleted and no slot is open (R209, R374). CAIRN_COMMIT, with every copy of the id written, stages the rope that validates the cairn (R210, R285), and the live half does not change until that rope's COMMIT exchanges the halves. -/
def Obligations.CairnsAreWrittenThenCommitted : Prop :=
  (∀ (s : State) (r : Ridge) (x : Ctx) (w : W128) (j : Job) (g : ProgRidge) (k : Nat) (pg : Prog) (c : CairnDef), issuable s r x w 0x32 = true →
    ctxWin (getR s r) .job = [] → ctxWin (getR s r) x = [] → (getR s r).slots.any (fun k => k.2.opened) = false → jobOn s r = some j → progPart s j r = some g →
    progRidge j r = some k → findProg s j.part j.prog = some pg → pg.cairns.find? (fun c => c.id = bits w 111 96 && c.ridge = k) = some c →
    (cairnRegions g c.live).any (fun v => loamBad (getR s r) v.2.off v.2.size) = false →
    exec (.crn r x w) s = .next (settleCtx (advance (updJob s j.part j.id (fun v =>
      setCold v (addCopy (coldHalf v) c.id (cairnCopy s j k r g c.live ((ctxOf (getR s r) x).pc + 1))))) r x) r x)) ∧
  (∀ (s : State) (p : PartNo) (id : W32) (j : Job), findJob s p id = some j → cairnReady s j = true → s.cmc.fw = .running →
    claimed s (7, p.val, id.toNat) = false → j.st = .running →
    exec (.cairnCommit p id) s = .next (serviceRope s [p.val] id (.cairn p id) [.cairnCommit p id])) ∧
  (∀ (j : Job) (h : CairnHalf), liveHalf (setCold j h) = liveHalf j ∧
    (liveHalf (cairnValid j)).valid = true ∧ (liveHalf (cairnValid j)).id = (coldHalf j).id ∧ (liveHalf (cairnValid j)).copies = (coldHalf j).copies ∧
    coldHalf (cairnValid j) = liveHalf j)

/-- RBG opens a rope (R211, R212): in a job stream its ridge's own free entry, for the job, with the next attempt number; in the service context the service entry it names, already open or free. REN ends a rope whose actions have all finished staging and asks for its COMMIT; TMAP inside a service rope stages a tile-map entry (R208). ROPE_COMMIT_GRANT makes every staged action live in the one grant (R287): with its COMMIT next at the Col and its rope locked and not held, the rope commits at the grant's col_seq, its ROPE event is routed, and the commit frees its entry; a RESCALE_HALF action then shows in its descriptor's active half, a TILE_MAP action in the map. The model's own choices and readings enter here through notes/assumptions/26, notes/assumptions/58. -/
def Obligations.RopesOpenStageAndCommit : Prop :=
  (∀ (s : State) (r : Ridge) (w : W128),
    (∀ j, issuable s r .job w 0x34 = true → (getRope s r).st = .free → jobOn s r = some j →
      exec (.rbg r .job w) s = .next (settleCtx (advance (enterRope (setRope s r
        { newRope s [j.part] (bits w 111 100) with job := j.id, ridge := r, queue := some j.q, attempt := (getR s r).jobCtx.attempts + 1 })
        r .job r (bits w 111 100)) r .job) r .job)) ∧
    (issuable s r .service w 0x34 = true →
      let e := 48 + bits w 99 94
      ((getRope s e).st = .opened →
        exec (.rbg r .service w) s = .next (settleCtx (advance (enterRope s r .service e (bits w 111 100)) r .service) r .service)) ∧
      ((getRope s e).st = .free → exec (.rbg r .service w) s = .next (settleCtx (advance (enterRope
        (setRope s e (newRope s (ownerOf s r).toList (bits w 111 100))) r .service e (bits w 111 100)) r .service) r .service))) ∧
    (∀ x o, issuable s r x w 0x35 = true → (ctxOf (getR s r) x).rope = some o →
      (getR s r).win.any (fun v => v.rope = some o.entry && v.staged.isNone) = false →
      let s1 := ropeStage (updCtx s r x (fun c => { c with rope := some { o with ended := true } })) o.entry
      ((ctxOf (getR s1 r) x).rope.isSome = true → exec (.ren r x w) s = .next (settleCtx (advance s1 r x) r x)) ∧
      ((ctxOf (getR s1 r) x).rope = none → exec (.ren r x w) s = .next s1)) ∧
    (∀ x t n, issuable s r x w 0x3A = true → stageAs s r x 0 (.tileMap r (bits w 111 107) (bits w 106 101) (bitAt w 100)) = .staged t n →
      exec (.tmap r x w) s = .next (settleCtx (advance t r x) r x))) ∧
  ((∀ (s : State) (e : RopeNo) (k : Nat) (rest : List Req), s.pmu.on = true → s.pins.sysRstN = true →
    nextSource s = some k → presented s k = .commit e :: rest →
    let u := granting s k rest
    let q := getRope u e
    let ev := mkEv 0x0C 0 srcRope (ropePart q) (ropePayload e q)
    q.st = .locked → commitHeld u e = false →
    ∃ t, exec (.ropeCommitGrant e) s = .next t ∧
      t = if commitFirst q then grantEvent (ropeCommit u e s.col.seq) ev s.col.seq else ropeCommit (grantEvent u ev s.col.seq) e s.col.seq) ∧
  (∀ (s : State) (e seq : Nat), getRope (ropeCommit s e seq) e = .free) ∧
  (∀ (s : State) (seq : Nat) (r t : Nat), rscDesc (getR (commitAction seq s (.rescaleHalf r t)) r) t = rscDesc (getR s r) t ^^^ BitVec.ofNat 64 (2 ^ 31)) ∧
  (∀ (s : State) (r p phys : Nat) (f : Bool), p < (getR s r).map.length → phys < 64 →
    physOf (getR (setMap s r p phys f) r) p = phys ∧ fencedAt (getR (setMap s r p phys f) r) p = f))

/-- A rope that is not locked when its timer has run out aborts with TIMEOUT (R289), and one staged and held 400 µs by a pinned slot with PIN (R156); COUNT_TIMEOUT of a drain or a slot wait that has counted 2^20 ridge cycles opens its slot again and stops the stream with 0x0D (R161). -/
def Obligations.TimersEndWaits : Prop :=
  (∀ (s : State) (e : RopeNo), let q := getRope s e
    ((q.st = .opened ∨ q.st = .staged) → q.opened + q.timeout * 8192 ≤ s.rclk → exec (.ropeTimeout e) s = .next (ropeAbort s e 0x04 0 0)) ∧
    (q.st = .staged → ropeHeld s q.actions = true → q.stagedAt + pinHoldCycles ≤ s.now → exec (.pinHoldTimeout e) s = .next (ropeAbort s e 0x06 0 0)) ∧
    (q.st = .locked → exec (.ropeTimeout e) s = .next s ∧ exec (.pinHoldTimeout e) s = .next s)) ∧
  (∀ (s : State) (r : Ridge) (id : Nat) (e : Win), findWin s r id = some e → countWaits s r e = true → 2 ^ 23 ≤ e.waited →
    exec (.countTimeout r id) s = .next (execFault (setClosing s r (slotNo e.w) false) r e 0x0D) ∧
    (getSlot (setClosing s r (slotNo e.w) false) r (slotNo e.w)).opened = (getSlot s r (slotNo e.w)).opened ∧
    (getSlot (setClosing s r (slotNo e.w) false) r (slotNo e.w)).closing = false)

/-- COL_GRANT takes the next source with a request in rotating order, grants its first request at col_seq and moves col_seq on by one (R275, R276): no source between the last one granted and this one has a request. WINDOW_MARKER, due and first among the kinds, requests its marker and starts the next window (R282). ARBITER_GRANT (R268 to R272): one decision of the arbiter, after which the waits of the requesters that did not win count. A decision among requesters always has a winner, one of the requesters; the pointer stands on it, and it pays a credit. The model's own choices and readings enter here through notes/assumptions/58. -/
def Obligations.GrantsRotateAndArbitrate : Prop :=
  ((∀ (s : State) (k : Nat) (q : Req) (rest : List Req), s.pmu.on = true → s.pins.sysRstN = true → nextSource s = some k → presented s k = q :: rest →
    exec .colGrant s = .next (grantReq (granting s k rest) q s.col.seq) ∧ (granting s k rest).col.seq = s.col.seq + 1 ∧
    (granting s k rest).col.last = k) ∧
  (∀ (s : State) (k i j : Nat), nextSource s = some k → i < 88 → (s.col.last + 1 + i) % 88 = k → j < i →
    srcQueue s k ≠ [] ∧ srcQueue s ((s.col.last + 1 + j) % 88) = []) ∧
  (∀ (s : State) (kind : Fin 4), (winOf s kind).due ≤ s.now →
    (∀ k, k < 4 → (winOf s kind).due < (winOf s k).due ∨ ((winOf s k).due = (winOf s kind).due ∧ kind.val ≤ k)) →
    exec (.windowMarker kind) s = .next (enq (setWin s kind { winOf s kind with exp := (winOf s kind).next, due := (winOf s kind).due + 2 ^ (winOf s kind).next })
      srcWindow (.marker kind (winOf s kind).exp)))) ∧
  ((∀ (s : State) (cls : Fin 5) (inst : Nat) (reqs : List Nat) (save : Bool), cls.val ≠ 4 → inst < arbInsts cls →
    let rs := (List.range (arbReqs cls)).filter (fun i => reqs.contains i && !(cls.val = 3 && i = inst))
    let d := arbDecide (arbOf s cls inst) cls (arbReqs cls) rs save
    (d.2 = none → exec (.arbiterGrant cls inst reqs save) s = .next (setArb s cls inst d.1)) ∧
    (∀ won, d.2 = some won → exec (.arbiterGrant cls inst reqs save) s = .next (arbWait (setArb s cls inst d.1) cls inst rs won))) ∧
  (∀ (s : State) (reqs : List Nat) (save : Bool), exec (.arbiterGrant 4 0 reqs save) s = exec .colGrant s) ∧
  (∀ (a : Arb) (cls n : Nat) (reqs : List Nat), reqs ≠ [] → (∀ i ∈ reqs, i < n) →
    ∃ i, (arbDecide a cls n reqs false).2 = some (some i) ∧ i ∈ reqs ∧ (arbDecide a cls n reqs false).1.ptr = i))

/-- PRB and SRV at issue (R208): PRB of a record its position has, on a tile not being programmed, takes a window entry stamped with the probe epoch; SRV of a tile without a survey under way starts one. PROBE_INSERT of a position whose probe is due and whose use comes next does the same for the job stream, resets its count and moves on to its next record (R207). The model's own choices and readings enter here through notes/assumptions/56. -/
def Obligations.ProbesAndSurveysIssue : Prop :=
  (∀ (s : State) (r : Ridge) (x : Ctx) (w : W128) (g : Golden), issuable s r x w 0x38 = true →
    let p := bits w 111 107
    goldenOf s r p = some g → bits w 106 104 < g.probes.length → engineOn (getR s r) (physOf (getR s r) p) = false →
    lockedClaim s (1, r.val, p) = false → lockedClaim s (3, r.val, physOf (getR s r) p) = false →
    exec (.prb r x w) s = .next (settleCtx (advance (startProbe s r x w p g (bits w 106 104)) r x) r x)) ∧
  (∀ (s : State) (r : Ridge) (x : Ctx) (w : W128), issuable s r x w 0x39 = true →
    let t := bits w 111 106
    engineOn (getR s r) t = false → (getTile s r t).survey = none → lockedClaim s (3, r.val, t) = false →
    exec (.srv r x w) s = .next (settleCtx (advance (startSurvey s r t w) r x) r x)) ∧
  (∀ (s : State) (r : Ridge) (p : Pos) (g : Golden), goldenOf s r p = some g → g.probes ≠ [] → probeNeeded s r p = true →
    (nextNames s r p = true ∨ (posOf (getR s r) p).probeDue = true) → held s r = false → ridgeUp s r = true → (getR s r).test.running = false →
    ((getR s r).jobCtx.run = true ∨ (posOf (getR s r) p).probeDue = true) → engineOn (getR s r) (physOf (getR s r) p) = false →
    (getR s r).win.length < 1024 → (tileOf (getR s r) (physOf (getR s r) p)).jr.state = .clean → lockedClaim s (1, r.val, p.val) = false →
    let k := (posOf (getR s r) p).nextRec % g.probes.length
    ∃ t e, exec (.probeInsert r p) s = .next t ∧ (getR t r).win = (getR s r).win ++ [e] ∧ e.kind = .probe ∧ e.stamp = epochNow s ∧ e.aux = k ∧
      (posOf (getR t r) p).fired = 0 ∧ (posOf (getR t r) p).probeDue = false ∧ (posOf (getR t r) p).nextRec = (k + 1) % g.probes.length)

/-- PROBE_COMPARE (R363, R364): a probe passes when every used column lies within TOL + ⌊|EXPECT|/16⌋ and nothing clips; the position then passes at the probe's epoch, and a PRB reports it. Otherwise the probe fails, and its position is fenced. The model's own choices and readings enter here through notes/assumptions/4. -/
def Obligations.ProbesPassOrFence : Prop :=
  (∀ (s : State) (r : Ridge) (id : Nat) (devs : List AdcDev) (e : Win) (l : Lane) (g : Golden),
    findWin s r id = some e → e.kind = .probe → e.lanes = [l] → goldenOf s r l.pos = some g →
    let bad := probeFails s r g e.aux l devs
    let s2 := updPos (retire s r id) r l.pos (fun q => { q with passWin := e.stamp, passSeq := e.id + 1 })
    (bad = [] → probeClips s r g l devs = false → opOf e.w = 0x38 → exec (.probeCompare r id devs) s =
      .next (raise s2 r 0x05 0x02 (partByte s r) (probePayload r l.pos l.tile e.aux 0 0xFFFF 0 0 (wPass s r l.pos) e.stamp))) ∧
    (bad = [] → probeClips s r g l devs = false → opOf e.w ≠ 0x38 → exec (.probeCompare r id devs) s = .next s2) ∧
    (bad ≠ [] ∨ probeClips s r g l devs = true →
      ∃ pay, exec (.probeCompare r id devs) s = .next (probeFailed (retire s r id) r e l pay (wPass s r l.pos) e.stamp))) ∧
  (∀ (s : State) (r : Nat) (g : Golden) (k : Nat) (l : Lane) (devs : List AdcDev) (c : Nat), c ∈ probeFails s r g k l devs →
    let x := tget 0 (g.probes.getD k default).expect c
    c < 512 ∧ g.colUsed.toNat.testBit c = true ∧
      tget 0 (g.probes.getD k default).tol c + x.natAbs / 16 < ((probeValue s r g l devs c).v - x).natAbs) ∧
  (∀ (s : State) (r : Nat) (e : Win) (l : Lane) (pay : List Byte) (wp wf : Nat), l.pos < (getR s r).map.length →
    fencedAt (getR (probeFailed s r e l pay wp wf) r) l.pos = true ∧ physOf (getR (probeFailed s r e l pay wp wf) r) l.pos = physOf (getR s r) l.pos)

/-- Survey triggers (R96): an age point, an age, or a count of fired MVMs requests a survey of a tile that can be surveyed; SURVEY_ISSUE starts a requested one within the ridge's concurrency, and SURVEY_SPAN_TIMEOUT discards one that has not issued its 24 segments within 2^17 ridge cycles and requests it again (R92). SURVEY_COMPLETE of a survey in time on a ridge not held (R93, R98, R99, R102): a plausible one gives the tile its gains, the time and the temperature of the survey, and starts its MVM count again; one with a gain outside 0.85 to 1.15 is discarded with a TILE event, and a probe of the tile follows. The model's own choices and readings enter here through notes/assumptions/4, notes/assumptions/25. -/
def Obligations.SurveysRunAndGiveGains : Prop :=
  (∀ (s : State) (r : Ridge) (t : TileNo),
    let x := getTile s r t
    let who := (mappedResident s r t).isSome = true ∨ (isRelief (getR s r) t = true ∧ x.jr.state = .clean)
    (∀ e a, who → surveyable s r t = true → x.progEnd = some e → surveyAges[x.agesDone]? = some a → e + seconds a ≤ s.now →
      exec (.surveyAgeTimer r t) s = .next (requestSurvey (updTile s r t (fun y => { y with agesDone := y.agesDone + 1 })) r t)) ∧
    (∀ l, who → surveyable s r t = true → x.lastSurvey = some l → l + srvAge (surveyPolicy s r) ≤ s.now → x.progEnd = none →
      exec (.surveyAgeTimer r t) s = .next (requestSurvey s r t)) ∧
    ((mappedResident s r t).isSome = true → srvInt (surveyPolicy s r) ≤ x.fired → surveyable s r t = true →
      exec (.surveyMvmCount r t) s = .next (requestSurvey s r t)) ∧
    (x.surveyReq = true → x.survey = none → surveyable s r t = true →
      ((getR s r).tiles.filter (fun x => x.2.survey.isSome)).length < srvConc (surveyPolicy s r) → held s r = false → ridgeUp s r = true →
      (getR s r).test.running = false → s.cmc.fw = .running → lockedClaim s (3, r.val, t.val) = false →
      ∃ u, exec (.surveyIssue r t) s = .next u ∧ (getTile u r t).survey = some ⟨s.rclk, estOf s r, false⟩ ∧ (getTile u r t).surveyReq = false) ∧
    (∀ v, x.survey = some v → v.start + 2 ^ 20 < s.rclk → exec (.surveySpanTimeout r t) s = .next (requestSurvey (endSurvey s r t) r t)) ∧
    (getTile (requestSurvey s r t) r t).surveyReq = true) ∧
  ((∀ (s : State) (r : Ridge) (t : TileNo) (m : List Int) (v : Survey), (getTile s r t).survey = some v → s.rclk ≤ v.start + 2 ^ 20 → held s r = false →
    let g := benchGains r (getTile s r t) m
    (∀ p, g.findIdx? implausible = none → posOfTile (getR s r) t = some p →
      exec (.surveyComplete r t m) s = .next (calibrateRidge (wsetSurveyed (driftCheck (surveyTaken s r t v g) r t p g) r p) r)) ∧
    (g.findIdx? implausible = none → posOfTile (getR s r) t = none → exec (.surveyComplete r t m) s = .next (surveyTaken s r t v g)) ∧
    (∀ b, g.findIdx? implausible = some b → exec (.surveyComplete r t m) s = .next (calibrateRidge (probeTile
      (tileEvent (endSurvey s r t) r t 0x06 [(4, 1, b), (8, 4, (f32OfQ (g.getD b ⟨1, 1⟩)).toNat)]) r t) r))) ∧
  (∀ (s : State) (r t : Nat) (v : Survey) (g : List Q), let x := getTile (surveyTaken s r t v g) r t
    x.gains = g ∧ x.lastSurvey = some s.now ∧ x.lastTemp = v.temp ∧ x.fired = 0))

/-- DRIFT_FOLD writes the entries that the latest gains give into the inactive half of one table, reports spread and saturation, and stages the rope that switches the halves (R100, R101, R138); TILE_SWAP stages the swap of a position for its ready relief tile, with the tables its columns feed (R49, R103). A folded entry keeps everything but MANT and SHIFT, and the active half keeps every entry. -/
def Obligations.FoldsAndSwapsAreStaged : Prop :=
  (∀ (s : State) (r : Ridge) (table : Fin 256) (part : Nat) (g : ProgRidge), tablesPart s r = some (part, g) →
    descCount (rscDesc (getR s r) table) ≠ 0 → claimed s (2, r.val, table.val) = false → s.cmc.fw = .running →
    let fs := foldEntries s part g (rscDesc (getR s r) table) none
    exec (.driftFold r table) s = .next (serviceRope (foldReports (updR s r (fun rd => writeInactive rd table fs)) r table fs)
      [part] 0 (.fold r table) [.rescaleHalf r table])) ∧
  (∀ (s : State) (r : Ridge) (p : Pos) (t : TileNo) (q : Nat × Nat) (part : Nat), (getR s r).refreshQ.find? (fun q => q.1 = p.val) = some q →
    ownerOf s r = some part → isRelief (getR s r) t = true → holdsPos s r t p = true → (q.2 = 1 ∨ readyCopy s r t p = true) →
    let tabs := tablesFed s part r p
    claimed s (1, r.val, p.val) = false → tabs.all (fun a => !claimed s (2, a.1, a.2)) = true → tabs.length < 16 → s.cmc.fw = .running →
    exec (.tileSwap r p t) s = .next (serviceRope (swapTables s part r p t tabs) [part] 0 (.swap r p t)
      ([.tileMap r p t false] ++ tabs.map (fun a => .rescaleHalf a.1 a.2)))) ∧
  (∀ (e : W64) (m sh : Nat), (entryWith e m sh).toNat / 2 ^ 22 = e.toNat / 2 ^ 22 ∧ entMant (entryWith e m sh) = min m 0xFFFF ∧ entShift (entryWith e m sh) = sh % 64) ∧
  (∀ (rd : RidgeSt) (t : Nat) (fs : List FoldEnt) (i : Nat), let d := rscDesc rd t
    halfEntry (writeInactive rd t fs) (descHalf d) i = halfEntry rd (descHalf d) i)

/-- REFRESH (R50, R103, R364) of a queued position chooses the best relief tile of its ridge and queues its programming; a fenced position without one stays fenced and its ridge is degraded, and an unfenced one leaves the queue. PROGRAMMING_START (R37, R41, R59): the next waiting operation that may run takes its ridge's engine, and its tile's record becomes DIRTY with one programming operation more before the first pulse. The model's own choices and readings enter here through notes/assumptions/60. -/
def Obligations.RefreshesQueueAndStart : Prop :=
  (∀ (s : State) (r : Ridge) (p : Pos) (q : Nat × Nat) (part : Nat) (ws : Wset) (g : Golden), (getR s r).refreshQ.find? (fun q => q.1 = p.val) = some q →
    ownerOf s r = some part → wsetOf s r p = some ws → goldenOf s r p = some g → opFor s r p = false →
    (List.range 34).any (fun t => isRelief (getR s r) t && holdsPos s r t p) = false → s.cmc.fw = .running →
    (∀ t l, reliefTiles (getR s r) = t :: l → exec (.refresh r p) s =
      .next { s with progQueue := s.progQueue ++ [reliefOp r t p q.2 (if q.2 = 1 then 0x02 else 0x03) part ws g] }) ∧
    (reliefTiles (getR s r) = [] → fencedAt (getR s r) p = true → exec (.refresh r p) s = .next (exhausted s r p)) ∧
    (reliefTiles (getR s r) = [] → fencedAt (getR s r) p = false →
      exec (.refresh r p) s = .next (updR s r (fun rd => { rd with refreshQ := rd.refreshQ.filter (fun v => v.1 ≠ p.val) }))) ∧
    (∀ t, t ∈ reliefTiles (getR s r) → isRelief (getR s r) t = true ∧ (tileOf (getR s r) t).jr.state ≠ .retired ∧ engineOn (getR s r) t = false)) ∧
  (∀ (s : State) (o : ProgOp), nextOp s = some o → enginesBusy s < engineCap s → journalFree s = true → s.clay.inhibit = false → s.cmc.fw = .running →
    ∃ t, exec .programmingStart s = .next t ∧ (getR t o.ridge).engine = some o ∧ (getTile t o.ridge o.tile).jr.state = .dirty ∧
      (getTile t o.ridge o.tile).jr.count = (getTile s o.ridge o.tile).jr.count + 1 ∧ t.progQueue = s.progQueue.erase o)

/-- PROGRAMMING_COMPLETE (R37, R38, R45): with every failed pair covered and the final check passed the tile is CLEAN with the operation's levels and a new baseline, and a load's position counts as programmed; otherwise the tile is RETIRED. The model's own choices and readings enter here through notes/assumptions/4, notes/assumptions/44. -/
def Obligations.ProgrammingCompletes : Prop :=
  (∀ (s : State) (r : Ridge) (t : TileNo) (fails bf : List Nat) (ok : Bool) (base : List Int) (o : ProgOp), (getR s r).engine = some o → o.tile = t.val →
    engineHeld s r = false → (getR s r).test.running = false →
    let b := belaysDone s r t fails bf
    (b.2 ≠ [] ∨ ok = false → exec (.programmingComplete r t fails bf ok base) s = .next (programFailed b.1 o b.2.length (belaysFree (getTile b.1 r t)))) ∧
    (b.2 = [] → ok = true → o.rank ≠ 4 → exec (.programmingComplete r t fails bf ok base) s = .next (tileClean b.1 r t o base)) ∧
    (∀ part ws, b.2 = [] → ok = true → o.rank = 4 → ownerOf s r = some part → wsetOf s r o.pos = some ws →
      let u := tileClean b.1 r t o base
      let v := if fencedAt (getR u r) o.pos && physOf (getR u r) o.pos = t.val then serviceRope u [part] 0 .none [.tileMap r o.pos t false] else u
      exec (.programmingComplete r t fails bf ok base) s = .next (wsetProgrammed (updWset v part ws.id (fun w => { w with loadEnd := s.now })) r o.pos))) ∧
  (∀ (s : State) (r t : Nat) (o : ProgOp) (base : List Int), let x := getTile (tileClean s r t o base) r t
    x.jr.state = .clean ∧ x.base = base ∧ x.baseTemp = estOf s r ∧
      (o.belayOnly = false → x.cells = cellsOf o.format o.level ∧ x.colMax = colMaxOf o.format o.level ∧ x.progEnd = some s.now ∧ x.agesDone = 0)) ∧
  (∀ (s : State) (o : ProgOp) (u f : Nat), (getTile (programFailed s o u f) o.ridge o.tile).jr.state = .retired)

/-- BULK_RESET_TRAIN of a tile on a scrub list (R413) leaves it BLANK with every cell at level 0, or RETIRED if it was; LOAD_CALIBRATION_END lets the load's jobs start once its surveys are taken (R106), and CONVERTER_CALIBRATION ends a ridge's hold, reports each converter that cannot be trimmed and, with one, probes the ridge (R105). The model's own choices and readings enter here through notes/assumptions/4, notes/assumptions/42. -/
def Obligations.TrainsAndCalibrationsEnd : Prop :=
  (∀ (s : State) (r : Ridge) (t : TileNo) (residue : Bool),
    (∀ u p, bulkReset s r t residue = some (u, some p) → exec (.bulkResetTrain r t residue) s = .next (scrubSettle u p)) ∧
    (∀ u, bulkReset s r t residue = some (u, none) → exec (.bulkResetTrain r t residue) s = .next (wholeSettle (ridgesSettle u))) ∧
    (scrubList s r t ≠ none → (getR s r).engine = none → ridgeUp s r = true → engineHeld s r = false → enginesBusy s < engineCap s →
      ∃ u, bulkReset s r t residue = some u) ∧
    (getTile (trainTile s r t) r t).cells = [] ∧
    (getTile (trainTile s r t) r t).jr.state = (if (getTile s r t).jr.state = .retired then .retired else .blank)) ∧
  (∀ (s : State) (part : PartNo) (id : W32) (ws : Wset), findWset s part id = some ws → ws.calibrating = true → ws.loadEnd + seconds 180 ≤ s.now →
    (∀ g ∈ ws.golden, let x := tileOf (getR s g.ridge) (physOf (getR s g.ridge) g.pos)
      fencedAt (getR s g.ridge) g.pos = true ∨ x.progEnd = none ∨ (6 ≤ x.agesDone ∧ x.surveyReq = false ∧ x.survey = none)) →
    exec (.loadCalibrationEnd part id) s = .next (updWset s part id (fun w => { w with calibrating := false }))) ∧
  (∀ (s : State) (r : Ridge) (bad : List (Nat × Nat × Nat)) (h : Nat), (getR s r).calHold = some h → h ≤ s.now →
    let u := bad.foldl (fun s b => tileEvent s r 0xFF 0x0B [(4, 1, b.1), (5, 1, b.2.1), (6, 1, b.2.2)]) (updR s r (fun rd => { rd with calHold := none }))
    let v := if bad.isEmpty then u else probeAll u r
    (∀ p, ownerOf s r = some p → exec (.converterCalibration r bad) s = .next (calibrateSettle v p)) ∧
    (ownerOf s r = none → exec (.converterCalibration r bad) s = .next v))

/-- POWER_FRAME (R108, R117, R451): the frame is stored; the sustained limit holds from above its threshold until below its release, and so does each ridge's; a ridge under a limit loses a sixteenth of its duty, at most sixteen, and another gets one back; a frame below 334.8 W ends a peak hold. The model's own choices and readings enter here through notes/assumptions/4, notes/assumptions/45. -/
def Obligations.PowerFramesApplyLimits : Prop :=
  ∀ (s : State) (mv mw : Nat) (dom : List Nat), s.pmu.on = true →
    let d := (List.range 212).map (fun k => dom.getD k 0)
    let fr := (mw :: s.pmu.frames).take 1000
    let l := sustainedLimits s
    let sus := limitNext s.pmu.sustained (fr.foldl (· + ·) 0) (l.1 * fr.length) (l.2 * fr.length)
    ∃ t, exec (.powerFrame mv mw dom) s = .next t ∧ t.pmu.mv = mv ∧ t.pmu.frames = fr ∧ t.pmu.sustained = sus ∧
      (∀ r, r < 48 →
        let past := limitNext (tget false s.pmu.ridgeOver r) (domPower d r) (ridgeLimits s).1 (ridgeLimits s).2
        tget false t.pmu.ridgeOver r = past ∧
        tget 0 t.pmu.cut r = (if past || sus then min 16 (tget 0 s.pmu.cut r + 1) else tget 0 s.pmu.cut r - 1)) ∧
      t.pmu.peak = (if mw < 334800 then none else s.pmu.peak) ∧ t.ridges = s.ridges ∧ t.mem = s.mem ∧ t.host = s.host

/-- The holds and HOT_N (R110, R111, R117, R119, R120): an input above 360 W holds every ridge and reports it; a hold longer than 1 ms, and 2^19 cycles without an estimate outside the first window, assert HOT_N; the window ends 2^32 cycles after the model's start; an inlet without a value for 2^33 cycles is reported once. The model's own choices and readings enter here through notes/assumptions/4. -/
def Obligations.HoldsAndReportsOfHeat : Prop :=
  (∀ (s : State) (ma r : Nat), s.pmu.on = true → s.pmu.peak = none → 360000000 < ma * s.pmu.mv →
    let t := powerLimit { s with pmu := { s.pmu with peak := some s.now } } 1 0xFF (ma * s.pmu.mv / 1000)
    exec (.peakPowerHold ma) s = .next t ∧ held t r = true) ∧
  (∀ (s : State) (a : Nat), s.pmu.peak = some a → a + 600000 < s.now → s.pmu.peakHot = false →
    let t := hotAssert { s with pmu := { s.pmu with peakHot := true } } 2
    exec .peakHoldHotTimer s = .next t ∧ t.thermal.hot = true) ∧
  (∀ (s : State) (a : Nat), s.thermal.lastEst = some a → s.pmu.on = true → a + 2 ^ 19 < s.now → s.thermal.stale = false →
    let s1 := thermalEvent { s with thermal := { s.thermal with stale := true } } srcPmu 0x09 0xFF [(0, 8, s.now - a)]
    (s.thermal.windowOpen = true → exec .estimateStale s = .next s1) ∧
    (s.thermal.windowOpen = false → exec .estimateStale s = .next (hotAssert s1 3) ∧ (hotAssert s1 3).thermal.hot = true)) ∧
  (∀ (s : State), s.thermal.modelOn = true → s.thermal.windowOpen = true → s.thermal.modelStart + 2 ^ 32 ≤ s.now →
    let s1 := { s with thermal := { s.thermal with windowOpen := false } }
    exec .noEstimateWindowEnd s = .next (if s.thermal.stale then hotAssert s1 3 else s1)) ∧
  (∀ (s : State), s.cmc.fw = .running → inletStale s = true → s.thermal.staleSaid = false →
    exec .inletStale s = .next (thermalCore { s with thermal := { s.thermal with staleSaid := true } } 0x02 0xFF [(0, 2, ofSigned 16 (anchorOf s))]))

/-- THERMAL_MODEL_STEP (R109, R113 to R119): 61,440 cycles after the last step, while Prorvafort runs or starts, the model moves on by one step, its estimates reach the PMU, and the critical holds, the throttles, the operating point, HOT_N, the trims and the surveys follow in this order. A critical hold begins at 101 degrees and ends below 99, a throttle moves by one sixteenth, and the operating point by one. The model's own choices and readings enter here through notes/assumptions/16, notes/assumptions/45. -/
def Obligations.ThermalStepsThrottle : Prop :=
  (∀ (s : State), s.thermal.modelOn = true → s.thermal.lastStep + 61440 ≤ s.now → (s.cmc.fw = .running ∨ s.cmc.fw = .starting) →
    exec .thermalModelStep s = .next (surveyTemps (applyTrims (hotStep (dvfsStep
      ((List.range 48).foldl throttleRidge ((List.range 48).foldl critRidge (estimated s))))))) ∧
    (estimated s).thermal.temps = modelNext s ∧ (estimated s).thermal.lastEst = some s.now ∧ (estimated s).thermal.stale = false) ∧
  (∀ (s : State) (r : Nat), let on := tget false s.pmu.crit r
    tget false (critRidge s r).pmu.crit r = (if on then decide (792 ≤ estUsed s r) else decide (808 ≤ estUsed s r))) ∧
  (∀ (s : State) (r : Nat), let c := tget 0 s.thermal.duty r
    tget 0 (throttleRidge s r).thermal.duty r = (if tThrottle s * 8 < estUsed s r then min 12 (c + 1) else if estUsed s r < (tThrottle s - 1) * 8 then c - 1 else c)) ∧
  (∀ (s : State), (dvfsStep s).pmu.op = s.pmu.op ∨ ((dvfsStep s).pmu.op = s.pmu.op + 1 ∧ (dvfsStep s).pmu.op ≤ 5) ∨ (dvfsStep s).pmu.op + 1 = s.pmu.op)

/-- Power, reset, clock and input events (R430, R441, R442, R454 to R458, R464): what resets the logic and with which cause, when the device boots, and what each pin event changes. A boot ends RUNNING with the watchdog on when a slot holds a valid image, and in AUTH_FAIL when none does; a device that may not boot stays as the reset left it. The model's own choices and readings enter here through notes/assumptions/6, notes/assumptions/21, notes/assumptions/41, notes/assumptions/53. -/
def Obligations.PowerAndClockEventsReset : Prop :=
  (∀ (s : State), s.pmu.on = false → exec .pwrEnRise s = .next (boot (resetLogic { s with pins := { s.pins with pwrEn := true } } 0 true) true true)) ∧
  (∀ (s : State), s.pmu.on = true → ∃ t, exec .pwrEnFall s = .next t ∧ t.pmu.on = false ∧ t.pins.pwrEn = false ∧ t.mem = MemSys.reset ∧ t.jobs = [] ∧ t.ropes = [] ∧ t.clay.recs = (clayFinish s).clay.recs ∧ t.clay.bytes = (clayFinish s).clay.bytes) ∧
  (∀ (s : State), s.pins.sysRstN = true → ∃ t, exec .sysRstNAssert s = .next t ∧ t.pins.sysRstN = false ∧ (s.pmu.on = true → t.pmu.resetCause = 0x01 ∧ t.jobs = [] ∧ t.cmc.fw = Cmc.reset.fw)) ∧
  (∀ (s : State) (ids : BitVec 12) (dbg test a b : Bool), s.pins.sysRstN = false →
    exec (.sysRstNRelease ids dbg test a b) s = .next (boot { s with pins := { s.pins with sysRstN := true, ids := ids, strapDbg := dbg, strapTest := test } } a b)) ∧
  (∀ (s : State), s.pmu.on = true → s.pmu.refLost = false → ∃ t, exec .refclkLoss s = .next t ∧ t.pmu.resetCause = 0x02 ∧ t.pmu.refLost = true ∧ t.pmu.rcClock = true ∧ t.jobs = []) ∧
  (∀ (s : State), s.pmu.on = true → s.pmu.refLost = false → exec .pllUnlock s = .next (boot (logicReset s 0x03) true true) ∧ (logicReset s 0x03).pmu.resetCause = 0x03) ∧
  (∀ (s : State), s.pmu.on = true → s.pmu.refLost = true → exec .refclkRestored s = .next (boot { s with pmu := { s.pmu with refLost := false } } true true)) ∧
  (∀ (s : State) (mv : Nat), s.pmu.on = true → mv < 10800 → ∃ t, exec (.inputLow mv) s = .next t ∧ t.pmu = { s.pmu with mv := mv, inputLow := true } ∧ t = { s with pmu := t.pmu, col := t.col } ∧ ∀ r, held t r = true) ∧
  (∀ (s : State), s.pmu.on = true → s.pmu.lossAt = none → ∃ t, exec .inputLoss s = .next t ∧ t.pmu.lossAt = some s.now ∧ t.pmu.inputLow = true ∧ t.clay = { s.clay with inhibit := true } ∧ (∀ r, r < 48 → (getR t r).engine = none) ∧ ∀ r, held t r = true) ∧
  (∀ (s : State) (a : Nat), s.pmu.lossAt = some a →
    let s1 := { s with pmu := { s.pmu with inputLow := false, lossAt := none }, clay := { s.clay with inhibit := false } }
    (s.cmc.fw = .bedrock → exec .inputRestored s = .next (boot s1 true true)) ∧
    (s.cmc.fw ≠ .bedrock → s.now ≤ a + 600000 → exec .inputRestored s = .next (powerEvent s1 0x04 0xFF 0xFF s1.pmu.mv)) ∧
    (s.cmc.fw ≠ .bedrock → a + 600000 < s.now → exec .inputLossTimeout s = .next (inputReset s) ∧ (inputReset s).pmu.resetCause = 0x05 ∧ (inputReset s).clay.writers = [])) ∧
  (∀ (s : State) (rail : Fin 12) (mv : Nat), s.pmu.on = true → rail.val ≠ 5 → exec (.railFault rail mv) s = .next (if s.pmu.lossAt.isSome then inputReset s else boot (logicReset s 0x04) true true)) ∧
  (∀ (s : State) (a b : Bool), (bootable s = false → boot s a b = s) ∧
    (bootable s = true → let ok := (a && (slotImage s false).isSome) || (b && (slotImage s true).isSome)
      (boot s a b).cmc.fw = (if ok then .running else .authFail) ∧ (ok = true → (boot s a b).cmc.watchdog = true ∧ (boot s a b).cmc.resetAt = none ∧ (boot s a b).cmc.lastBeat = (boot s a b).cmc.runningAt)))

/-- What a reset keeps (R447, R455, R456): tiles keep their cells; jobs, ropes, windows, contexts, Loam, slots, TLB, local memory and the links' state are at reset; the records of the Clay store stay, its passwords' unlocks go; the record that the time of this model keeps goes on. The model's own choices and readings enter here through notes/assumptions/40. -/
def Obligations.ResetsKeepCellsAndRecords : Prop :=
  ∀ (s : State) (cause : Nat) (off : Bool), let t := resetLogic s cause off
    (∀ r k, (getTile t r k).cells = (getTile s r k).cells) ∧
    (∀ r, (getR t r).map = (getR s r).map ∧ (getR t r).failed = (getR s r).failed ∧ (getR t r).nextId = (getR s r).nextId) ∧
    (∀ r, (getR t r).win = [] ∧ (getR t r).loam = [] ∧ (getR t r).slots = [] ∧ (getR t r).job = none) ∧
    t.jobs = [] ∧ t.ropes = [] ∧ t.mem = MemSys.reset ∧ t.progQueue = [] ∧ t.parts = State.reset.parts ∧ t.links = State.reset.links ∧ t.arbs = State.reset.arbs ∧ t.thermal = State.reset.thermal ∧ t.cmc = Cmc.reset ∧
    t.clay.recs = s.clay.recs ∧ t.clay.bytes = s.clay.bytes ∧ t.clay.writePw = s.clay.writePw ∧ t.clay.readOpen = false ∧ t.clay.writeOpen = false ∧ (s.clay.locked = true → t.clay.locked = !off) ∧
    t.sec.slotA = s.sec.slotA ∧ t.sec.slotB = s.sec.slotB ∧ t.sec.svnMin = s.sec.svnMin ∧ t.integ.log = s.integ.log ∧
    t.now = s.now ∧ t.pending = s.pending ∧ t.host.memA = s.host.memA ∧ t.host.memB = s.host.memB

/-- Power domains (R441, R443 to R448): the last request is the target; a domain powers up after those that its ridge needs first and down after those that need it; a sequence that ends reaches its state; a fault of a sequence fails the ridge or resets the device; a VPROG fault stops the engine and its operation waits again; a ridge that is idle for 2^20 cycles is switched off. The model's own choices and readings enter here through notes/assumptions/41. -/
def Obligations.DomainsFollowTheirTargets : Prop :=
  (∀ (s : State) (d : Fin 212) (on : Bool), awake s = true → domAllowed s d on = true → (on = false → s.cmc.fw = .running) →
    ∃ t, exec (.domainPowerRequest d on) s = .next t ∧ t = { s with pmu := { s.pmu with dom := t.pmu.dom } } ∧ (getDom t d).target = on ∧ (∀ e, e ≠ d.val → getDom t e = getDom s e) ∧
      ((getDom s d).st = .off → (getDom t d).st = (if on && (earlierDoms d).all (domOn s) then .poweringUp else .off)) ∧
      ((getDom s d).st = .on → (getDom t d).st = (if !on && (laterDoms d).all (fun e => (getDom s e).st = .off) then .poweringDown else .on)) ∧
      ((getDom s d).st ≠ .off → (getDom s d).st ≠ .on → (getDom t d).st = (getDom s d).st)) ∧
  (∀ (s : State) (d : Fin 212), s.pmu.on = true → ∃ t, exec (.domainSequenceDone d) s = .next t ∧
      ((getDom s d).st = .poweringUp → (getDom s d).target = true → getDom t d = ⟨.on, true, s.now⟩) ∧
      ((getDom s d).st = .poweringDown → (getDom s d).target = false → getDom t d = ⟨.off, false, s.now⟩) ∧
      ((getDom s d).st = .poweringUp → d.val < 192 → d.val % 4 = 3 → (getR t (d.val / 4)).loam = [] ∧ (getR t (d.val / 4)).tags = []) ∧
      ((getDom s d).st = .poweringUp → d.val < 192 → d.val % 4 = 2 → getR t (d.val / 4) = freshDigital (getR s (d.val / 4)))) ∧
  (∀ (s : State) (d : Fin 212), s.pmu.on = true → ((getDom s d).st = .poweringUp ∨ (getDom s d).st = .poweringDown) →
    let s1 := setDom s d { getDom s d with st := .fault, since := s.now }
    exec (.domainFault d) s = .next (if d.val < 192 then powerEvent (failRidge s1 (d.val / 4)) 0x02 d 0xFF 0 else boot (logicReset s1 0x04) true true)) ∧
  (∀ (s : State) (r : Ridge) (mv : Nat) (o : ProgOp), awake s = true → (getR s r).engine = some o →
    ∃ t, exec (.vprogFault r mv) s = .next t ∧ (getR t r).engine = none ∧ t.progQueue = s.progQueue ++ [o] ∧ ∀ q, q ≠ r.val → getR t q = getR s q) ∧
  (∀ (s : State) (r : Ridge), awake s = true → s.cmc.fw = .running → ridgeIdle s r = true → (getR s r).idleSince + 2 ^ 20 ≤ s.now → ridgeUp s r = true →
    ∃ t, exec (.ridgeIdlePowerOff r) s = .next t ∧ t = { s with pmu := { s.pmu with dom := t.pmu.dom } } ∧ ∀ k, k < 4 → (getDom t (4 * r.val + k)).target = false ∧ (getDom t (4 * r.val + k)).st = (if k < 2 then .poweringDown else .on))

/-- Prorvafort's life (R7, R18, R299, R411): a heartbeat restarts the watchdog's count; 2^20 cycles without one stall the firmware, with BUSY_RESET set and a device Rappel begun; a stall within 2^30 cycles of a restart, or a restart that is not RUNNING after 2^32, leaves it in FAULT without a watchdog; a restart that authenticates runs; a version that has run for 2^32 cycles becomes the floor. HRDY_N moves when its cause and its minimum time permit. The model's own choices and readings enter here through notes/assumptions/41, notes/assumptions/49. -/
def Obligations.FirmwareLivesByHeartbeats : Prop :=
  (∀ (s : State), awake s = true → s.cmc.fw = .running → exec .fwHeartbeat s = .next { s with cmc := { s.cmc with lastBeat := s.now } }) ∧
  (∀ (s : State), awake s = true → s.cmc.fw = .running → s.cmc.watchdog = true → s.cmc.lastBeat + 2 ^ 20 ≤ s.now → ∃ t, exec .heartbeatTimeout s = .next t ∧ t.cmc.busyReset = true ∧
      t.col.rappels.length = s.col.rappels.length + 1 ∧
      (let again := match s.cmc.restartedAt with | some a => decide (s.now < a + 2 ^ 30) | none => false
       t.cmc.fw = (if again then .fault else .stalled) ∧ t.cmc.watchdog = !again)) ∧
  (∀ (s : State) (a : Nat), s.cmc.resetAt = some a → awake s = true → s.cmc.fw = .stalled → a + 2 ^ 32 ≤ s.now →
    ∃ t, exec .fwStartTimeout s = .next t ∧ t.cmc.fw = .fault ∧ t.cmc.watchdog = false ∧ t.cmc.busyReset = true ∧ t.cmc.resetAt = none) ∧
  (∀ (s : State), awake s = true → s.cmc.fw = .stalled → s.cmc.resetAt.isSome = true → ∃ t, exec .fwRunning s = .next t ∧
      t.cmc.fw = (if (slotImage s false).isSome || (slotImage s true).isSome then .running else .authFail) ∧ t.cmc.resetAt = none ∧
      ((slotImage s s.sec.selB).isSome = true → t.cmc.restartedAt = some t.cmc.runningAt ∧ t.cmc.watchdog = true)) ∧
  (∀ (s : State), awake s = true → s.cmc.fw = .running → s.cmc.runningAt + 2 ^ 32 ≤ s.now → s.sec.svnMin < s.sec.running.svn →
    ∃ t, exec .svnRaise s = .next t ∧ t.sec = { s.sec with svnMin := s.sec.running.svn } ∧ t = { s with sec := t.sec, col := t.col, free := t.free }) ∧
  (∀ (s : State) (p : Port), awake s = true → let x := getPort s p
    ∃ t, exec (.hrdyMinimumTime p) s = .next t ∧ t = { s with host := t.host } ∧
      (getPort t p).hrdy = (if x.hrdy && hrdyCause s p && decide (x.hrdySince + 300 ≤ s.now) then false else if !x.hrdy && !hrdyCause s p && decide (x.hrdySince + 600 ≤ s.now) then true else x.hrdy))

/-- Jobs start, end and come back (R106, R188, R213, R216, R261, R263 to R266, R317, R372 to R377): a startable job runs; a job with a stream fault, past its time limit, or complete outside the fence, ends and is gone; under the fence completion first asks for its probes and ends when they have passed; held writes go when their probes have passed; a job of higher priority saves the victim; a saved job returns, or ends when its save area fails; a job touched by a failed probe restarts at the point that R376 gives, or ends. The model's own choices and readings enter here through notes/assumptions/35, notes/assumptions/37, notes/assumptions/46, notes/assumptions/47. -/
def Obligations.JobsStartEndAndMove : Prop :=
  ∀ (s : State) (part : PartNo) (job : W32) (j : Job), findJob s part job = some j →
    (startable s j = true → exec (.jobStart part job) s = .next (startJob s j) ∧ (startJob s j).jobs = (updJob s j.part j.id (fun k => { k with st := .running })).jobs) ∧
    (∀ extra, findJob (endJob s j extra) part job = none) ∧
    (s.cmc.fw = .running →
      let codes := j.pendingFault.filter (fun c => c ≠ 0x12)
      (codes ≠ [] → jobLocked s j = false → exec (.jobEndOnFault part job) s = .next (endJob s j (codes.map faultStatus))) ∧
      (j.timeLimit ≠ 0 → j.accepted + j.timeLimit * 2 ^ 16 ≤ s.now → jobLocked s j = false → exec (.jobTimeLimit part job) s = .next (endJob s j [stTimeout])) ∧
      (jobDone s j = true → j.fence = false → exec (.jobCompletion part job) s = .next (endJob s j [])) ∧
      (jobDone s j = true → j.fence = true → j.endWaits = none →
        exec (.jobCompletion part job) s = .next (askProbes (updJob s part job (fun k => { k with st := .egress, endWaits := some (fenceWaits s j) })) (fenceWaits s j))) ∧
      (∀ l, jobDone s j = true → j.fence = true → j.endWaits = some l → waitsOver s l = true → exec (.jobCompletion part job) s = .next (endJob s j [])) ∧
      (∀ (inc : W32) (i : Job), findJob s part inc = some i → savable s j = true → i.st = .waiting → j.prio < i.prio → shareRidge s j i = true → wsetOk s i = true →
        let u := saveJob s j (some i)
        exec (.preemption part job inc) s = .next (if startable u i then startJob u i else u) ∧ ∀ r, r ∈ (jobRidges j).filter (fun r => (getR s r).job = some (j.part, j.id)) → (getR u r).job = none) ∧
      (j.st = .saved → ridgesFree s j = true → s.jobs.any (goesBefore s j) = false →
        exec (.preemptionRestore part job true) s = .next ((needs (restoreJob s j) j).foldl settleRidge (restoreJob s j)) ∧
        exec (.preemptionRestore part job false) s = .next (endJob (raiseCore s 0x04 0x06 part (integPayload 6 0 0xFF job 0 0 0)) j [stIntegrity])) ∧
      (∀ k, j.suspects ≠ [] → j.st ≠ .saved → j.st ≠ .waiting → jobLocked s j = false → let u := restartCleared s part job j
        findJob u part job = some k →
        (restartPoint s j = .none → ∃ t, exec (.jobRestart part job) s = .next t ∧ findJob t part job = none) ∧
        (restartPoint s j = .live → exec (.jobRestart part job) s = .next (startJob (updJob u part job (fun _ => k)) k)) ∧
        (restartPoint s j = .cold → ∃ k2, exec (.jobRestart part job) s = .next (startJob (updJob u part job (fun _ => k2)) k2) ∧ liveHalf k2 = coldHalf k ∧ (coldHalf k2).valid = false) ∧
        (restartPoint s j = .zero → exec (.jobRestart part job) s = .next
          (startJob (updJob u part job (fun _ => { k with halfA := .empty, halfB := .empty })) { k with halfA := .empty, halfB := .empty })))) ∧
    (j.suspects = [] → (j.st = .running ∨ j.st = .egress) → exec (.egressFenceRelease part job) s = .next (releaseHeld s j)) ∧
    ((∀ w, w ∈ j.held → waitsOver s w.waits = false) → releaseHeld s j = s)

/-- Registers of BAR0 (R7, R294, R295, R298 to R302, R322): what a write through a live function changes, and what a read that has an effect returns and does. In an inert VF, through a tunnel that is up, those reads return zero. The model's own choices and readings enter here through notes/assumptions/49. -/
def Obligations.RegistersAnswerTheHost : Prop :=
  ∀ (s : State) (p : Port),
    (∀ v, barLive s p 0 = true → ∃ t, exec (.hbAttnAck p v) s = .next t ∧ t = { s with host := t.host } ∧ (getPort t p).attn = (getPort s p).attn &&& ~~~ v) ∧
    (∀ v, barLive s p 0 = true → ∃ t, exec (.hbAqCfg p v) s = .next t ∧ t = { s with host := t.host } ∧ (getQ t (.admin p)).st = (if bitAt v 31 && (decide ((getQ s (.admin p)).st = .live) || aqExpsOk v) then .live else .absent) ∧
      bitAt (getPort t p).aqCfg 30 = decide ((getQ t (.admin p)).st = .live)) ∧
    (∀ (f : Fn) (v : W32), barLive s p f = true → let r := getFn s p f
      ∃ t, exec (.hbCtrl p f v) s = .next t ∧ t = { s with host := { s.host with fns := t.host.fns } } ∧ bitAt (getFn t p f).ctrl 0 = evtEnable r v ∧ bitAt (getFn t p f).ctrl 1 = (bitAt v 1 && decide (f.val = 0)) ∧
        (evtEnable r v = true → bitAt r.ctrl 0 = false → (getFn t p f).evtHead = 0 ∧ (getFn t p f).evtTail = 0)) ∧
    (∀ (f : Fn), barLive s p f = true → ∃ t, exec (.hbEvtDrop p f) s = .next t ∧ t.host.readData = (getFn s p f).evtDrop ∧ (getFn t p f).evtDrop = 0 ∧ ∀ g, g ≠ f.val → g < 32 → getFn t p g = getFn s p g) ∧
    (∀ (f : Fn), barLive s p f = true → ∃ t, exec (.hbColSeqLo p f) s = .next t ∧ t.host.readData = BitVec.ofNat 32 (s.col.seq - 1) ∧
      ∀ (k : State), getFn k p f = getFn t p f → barLive k p f = true → ∃ u, exec (.hbColSeqHi p f) k = .next u ∧ u.host.readData = BitVec.ofNat 32 ((s.col.seq - 1) / 2 ^ 32) ∧ (getFn u p f).seqLatch = none) ∧
    (∀ (f : Fn), barLive s p f = true → (getFn s p f).seqLatch = none → ∃ u, exec (.hbColSeqHi p f) s = .next u ∧ u.host.readData = BitVec.ofNat 32 ((s.col.seq - 1) / 2 ^ 32)) ∧
    (∀ (f : Fn) (c : Instr), (c = .hbEvtDrop p f ∨ c = .hbColSeqLo p f ∨ c = .hbColSeqHi p f) → barLive s p f = false → awake s = true → (getPort s p).tunnel = true → exec c s = .next { s with host := { s.host with readData := 0 } }) ∧
    (∀ (f : Fn) (off : Nat) (v : W32), barLive s p f = true → ∃ t, exec (.registerWrite p f off v) s = .next t ∧ t = { s with host := t.host } ∧
      (off = 0x40 → (getFn t p f).evtHead = v) ∧
      (bitAt (getFn s p f).ctrl 0 = false → (off = 0x38 → (getFn t p f).evtCfg = v &&& 0x003F001F) ∧ (off = 0x30 → (getFn t p f).evtBase = putBase (getFn s p f).evtBase false v) ∧ (off = 0x34 → (getFn t p f).evtBase = putBase (getFn s p f).evtBase true v)) ∧
      (bitAt (getFn s p f).ctrl 0 = true → (off = 0x30 ∨ off = 0x34 ∨ off = 0x38) → getFn t p f = getFn s p f) ∧
      (f.val = 0 → (off = 0x18 → (getPort t p).rdyMask = v &&& 7) ∧ (off = 0x48 → (getPort t p).aqSqBase = putBase (getPort s p).aqSqBase false v) ∧ (off = 0x4C → (getPort t p).aqSqBase = putBase (getPort s p).aqSqBase true v) ∧
        (off = 0x50 → (getPort t p).aqCqBase = putBase (getPort s p).aqCqBase false v) ∧ (off = 0x54 → (getPort t p).aqCqBase = putBase (getPort s p).aqCqBase true v)) ∧
      (f.val ≠ 0 → (off = 0x18 ∨ off = 0x48 ∨ off = 0x4C ∨ off = 0x50 ∨ off = 0x54) → t = s))

/-- Doorbells and fetching (R305 to R309): a doorbell value inside the ring moves its index, any other is answered by a completion with CID 0xFFFF and INVALID_FIELD; a fetch takes the ring's next entry, in order, as a command, and passes over one that a partition's Rappel aborted. The model's own choices and readings enter here through notes/assumptions/50, notes/assumptions/51. -/
def Obligations.DoorbellsMoveIndexes : Prop :=
  (∀ (s : State) (p : Port) (f : Fn) (q : Fin 1024) (v : W32), doorbellLive s p f q = true →
    (tailOk (getQ s (.io q)) (bits v 15 0) = true → exec (.sqDoorbell p f q v) s = .next (updQ s (.io q) (fun k => { k with tail := bits v 15 0 }))) ∧
    (tailOk (getQ s (.io q)) (bits v 15 0) = false → exec (.sqDoorbell p f q v) s = .next (postCqe s (mkCqe (.io q) 0xFFFF stField (queuePart s (.io q)) 0 0 none))) ∧
    (bits v 15 0 < 2 ^ (getQ s (.io q)).cqExp → exec (.cqDoorbell p f q v) s = .next (cqFlush (updQ s (.io q) (fun k => { k with cqHead := bits v 15 0 })) (.io q))) ∧
    (2 ^ (getQ s (.io q)).cqExp ≤ bits v 15 0 → exec (.cqDoorbell p f q v) s = .next (postCqe s (mkCqe (.io q) 0xFFFF stField (queuePart s (.io q)) 0 0 none)))) ∧
  (∀ (s : State) (p : Port) (v : W32), barLive s p 0 = true → (getQ s (.admin p)).st = .live →
    exec (.hbDbAdmin p v) s = .next (pinSync (ringHead (ringTail s (.admin p) (bits v 15 0)) (.admin p) (bits v 31 16)))) ∧
  (∀ (s : State) (q : QId), let k := getQ s q
    awake s = true → s.cmc.fw = .running → (∀ c, c ∈ s.host.cmds → (rejected c).isSome = false) → k.st = .live → k.stopped = false → k.fetch ≠ k.tail → s.host.cmds.length < 4096 → (k.sqPool = true ∨ (getPort s k.port).tunnel = true) →
    let u := fetchOne s q
    exec (.commandFetch q) s = .next (pinSync (rejectTurn u q)) ∧ (getQ u q).fetch = (k.fetch + 1) % 2 ^ k.sqExp ∧
      (k.skip.contains k.fetch = true → u.host.cmds = s.host.cmds) ∧
      (k.skip.contains k.fetch = false → ∃ c, u.host.cmds = s.host.cmds ++ [c] ∧ c.q = q ∧ c.entry = sqEntry s k k.fetch ∧ c.busy = false ∧ c.seqNo = s.host.nextCmd ∧ u.host.nextCmd = s.host.nextCmd + 1))

/-- HB_RAPPEL, tunnels and function resets (R323, R328, R329, R394, R399, R400): an accepted Rappel takes the function's next tag, shows IN PROGRESS and begins; another value shows REJECTED; a write with another SCOPE than the row's is not that row's. A tunnel that goes down takes the port's admin queue, event rings and IDE keys; one that comes up tells the other port; a VF's reset begins a Rappel of its partition. The model's own choices and readings enter here through notes/assumptions/23, notes/assumptions/48. -/
def Obligations.RappelsTunnelsAndResetsBegin : Prop :=
  (∀ (s : State) (p : Port) (f : Fn) (v : W32) (n : Nat) (c : Instr), ((n = 0 ∧ c = .rappelQueue p f v) ∨ (n = 1 ∧ c = .rappelPartition p f v) ∨ (n = 2 ∧ c = .rappelDevice p f v)) →
    (bits v 31 30 = n → barLive s p f = true → rappelOk s f v = true → let tag := ((getFn s p f).rapLast.toNat + 1) % 256
      ∃ t, exec c s = .next t ∧ (getFn t p f).rapLast = BitVec.ofNat 8 tag ∧ (getFn t p f).rapState = 1 ∧ t.col.nextRap = s.col.nextRap + 1 ∧
        ∃ k, t.col.rappels = s.col.rappels ++ [k] ∧ k.key = s.col.nextRap ∧ k.scope = n ∧ k.id = bits v 9 0 ∧ k.tag = tag ∧ k.port = some p ∧ k.fn = f.val ∧ k.begun = false ∧ k.why = .host) ∧
    ((bits v 31 30 = n ∨ bits v 31 30 = 3) → barLive s p f = true → rappelOk s f v = false → exec c s = .next (updFn s p f (fun r => { r with rapState := 3 }))) ∧
    (bits v 31 30 ≠ n → bits v 31 30 ≠ 3 → exec c s = .next s)) ∧
  (∀ (s : State) (p : Port), awake s = true → (getPort s p).tunnel = true → ∃ t, exec (.tunnelDown p) s = .next t ∧ (getPort t p).tunnel = false ∧ (getPort t p).aqCfg = 0 ∧
    (getQ t (.admin p)).st = .absent ∧ bitAt (getPort t (otherPort p)).attn 2 = true) ∧
  (∀ (s : State) (p : Port), awake s = true → (getPort s p).tunnel = false → ∃ t, exec (.tunnelUp p) s = .next t ∧ (getPort t p).tunnel = true ∧ bitAt (getPort t (otherPort p)).attn 2 = true ∧ t = { s with host := t.host }) ∧
  (∀ (s : State) (p : Port) (n : Fin 16), barLive s p (n.val + 1) = true → ∃ t, exec (.vfFlr p n) s = .next t ∧ bitAt (getFn t p (n.val + 1)).ctrl 0 = false ∧
    ∃ k, k ∈ t.col.rappels ∧ k.scope = 1 ∧ k.id = n.val ∧ k.why = .flr n.val) ∧
  (∀ (s : State) (p : Port), barLive s p 0 = true → ∃ t, exec (.pf0Flr p) s = .next t ∧ (getPort t p).aqCfg = 0 ∧ (getQ t (.admin p)).st = .absent ∧ bitAt (getFn t p 0).ctrl 0 = false ∧ t.col = s.col ∧ t.jobs = s.jobs ∧ t.parts = s.parts)

/-- Field margin tests (R380 to R384): a due test starts on a free ridge whose estimate is near the highest; where a job runs it waits for a cairn, says so once, or runs by pre-emption when its grace has passed; a test ends with its event, Loam and slots undefined, and fails the ridge when tests 0 or 1 failed. The model's own choices and readings enter here through notes/assumptions/4, notes/assumptions/55. -/
def Obligations.FieldTestsRunAndEnd : Prop :=
  (∀ (s : State) (r : Ridge), awake s = true → s.cmc.fw = .running → (getR s r).failed = false → (getR s r).test.running = false → (getR s r).test.due = true ∨ (getR s r).test.nextDue ≤ s.now →
    let u := if (getR s r).test.due then s else updTest s r (fun t => { t with due := true, dueAt := s.now, nextDue := s.now + testPeriod s, deferred := false, atCairn := false })
    (testJob u r = none → exec (.fieldTestDue r) s = .next (if testHot u r then startDue u r 0 else u)) ∧
    (∀ j, testJob u r = some j → (getR s r).test.atCairn = true → savable u j = true → exec (.fieldTestDue r) s = .next (preemptForTest u r j))) ∧
  (∀ (s : State) (r : Ridge), awake s = true → s.cmc.fw = .running → (getR s r).failed = false → (getR s r).test.running = false → (getR s r).test.due = true → (getR s r).test.dueAt + testGrace s ≤ s.now →
    (testJob s r = none → exec (.testGraceExpiry r) s = .next (startDue s r 0)) ∧
    (∀ j, testJob s r = some j → savable s j = true → exec (.testGraceExpiry r) s = .next (preemptForTest (testEvent s r 0x02 15 0 0 (vcoreMv s.pmu.op) j.id 0 (s.now - (getR s r).test.dueAt)) r j))) ∧
  (∀ (s : State) (r : Nat) (id : W32), (ridgeUp s r = true → (getR (startDue s r id) r).test.running = true ∧ (getR (startDue s r id) r).test.tests = 15 ∧ (getR (startDue s r id) r).test.started = s.now) ∧
    (ridgeUp s r = false → startDue s r id = ridgePower s r true)) ∧
  (∀ (s : State) (r : Ridge) (failed : BitVec 4) (trim : List (Nat × Nat × Nat)) (bad : List (Nat × Nat × Nat × Nat × Int)) (mv : Nat), awake s = true → s.cmc.fw = .running → (getR s r).test.running = true →
    exec (.fieldTestComplete r failed trim bad mv) s = .next (testDone s r failed.toNat trim bad mv) ∧
    ∀ (f : Nat), (getR s r).test.tests &&& f = 0 → f = failed.toNat → let t := testDone s r f trim bad mv
      t = testRunSettle (testEvent (updTest (updR (useFree s) r (fun rd => { loamJunk { rd with poison := [], tags := [] } 0 (1536 * 1024) s.free with slots := [] })) r
        (fun t => { t with running := false, due := false, deferred := false, atCairn := false, failed := 0 })) r 0x03 (getR s r).test.tests 0 (getR s r).test.stress mv (getR s r).test.job (s.now - (getR s r).test.started)
        (if (getR s r).test.due then (getR s r).test.started - (getR s r).test.dueAt else 0)))

/-- The Clay store (R418 to R421, R430 to R438): the writer that goes next writes one group; an update of the record layer joins the controller's queue; a read resolves, repairs or replaces the record; a failure-log entry takes its slot of 816 when no update is under way. The model's own choices and readings enter here through notes/assumptions/53. -/
def Obligations.ClayRecordsAreKept : Prop :=
  (∀ (s : State) (w : Writer), nextWriter s = some w → clayLive s = true → exec .clayGroupWriteDone s = .next (groupWritten s w)) ∧
  (∀ (s : State) (cls idx : Nat) (data : List Byte), fwUp s = true → ((1 ≤ cls ∧ cls ≤ 0x0B) ∨ cls = 0x10 ∨ cls = 0x11) → idx < recCount cls → data.length ≤ recLen cls →
    exec (.clayRecordUpdate cls idx data) s = .next { s with clay := { s.clay with writers := s.clay.writers ++ [.record cls idx data 0] } }) ∧
  (∀ (s : State) (cls idx : Nat), fwUp s = true → ((1 ≤ cls ∧ cls ≤ 0x0B) ∨ cls = 0x10 ∨ cls = 0x11 ∨ cls = clsGuard) → idx < recCount cls → recBusy s cls idx = false →
    exec (.clayRecordRead cls idx) s = .next (readRec s cls idx) ∧
    (∀ c, (resolveRec (getRec s cls idx)).1 = some c → (recPayload (readRec s cls idx) cls idx) = c.data)) ∧
  (∀ (s : State) (e : LogRec) (l : List LogRec), s.integ.waitingLog = e :: l → clayLive s = true → s.clay.writers.any writerMid = false → s.clay.writers.any (fun w => writerRank w = 1) = false →
    ∃ t, exec .failureLogWrite s = .next t ∧ t.integ.waitingLog = l ∧ e ∈ t.integ.log ∧ (∀ x, x ∈ t.integ.log → x ≠ e → x ∈ s.integ.log ∧ x.seq % 816 ≠ e.seq % 816))

/-- How Ewesy commands are answered (R308 to R312): one that is not fetched, whose turn has not come, or while Prorvafort does not run, changes nothing; one that a check finds wanting completes with the status that R310 and R311 choose and does nothing else; a completion takes the command out of flight and goes to the Col with its CID, status, partition and results. The model's own choices and readings enter here through notes/assumptions/3, notes/assumptions/51. -/
def Obligations.CommandsAreAnswered : Prop :=
  (∀ (s : State) (q : QId) (cid : W16) (k : CmdKind) (checks : Cmd → List (Bool × Nat)) (body : Cmd → State),
    (readyCmd s q cid k = none → withCmd s q cid k checks body = .next s ∧ withOrdered s q cid k checks body = .next s) ∧
    (∀ c, Admitted s q cid k checks c → withCmd s q cid k checks body = .next (body c) ∧ withOrdered s q cid k checks body = .next (body c)) ∧
    (∀ c, Refused s q cid k checks c → let g := gateChecks s c k
      let l := if g.any (fun x => x.1 && x.2 = stPermit) then g else g ++ checks c
      withCmd s q cid k checks body = .next (complete s c (failStatus l) 0) ∧
      withOrdered s q cid k checks body = .next (complete s c (if g.any (fun x => x.1) then failStatus g else (firstFail (checks c)).getD stSuccess) 0))) ∧
  (∀ (s : State) (q : QId) (cid : W16) (k : CmdKind) (c : Cmd), readyCmd s q cid k = some c →
    awake s = true ∧ s.cmc.fw = .running ∧ c ∈ s.host.cmds ∧ c.q = q ∧ c.cid = cid ∧ c.busy = false ∧ cmdOp c = k.op ∧
    ∀ d, d ∈ s.host.cmds → d.q = q → d.seqNo < c.seqNo → d.busy = true ∧ fieldAt c.entry 1 1 % 2 = 0) ∧
  (∀ (s : State) (c : Cmd) (st res : Nat), let t := complete s c st res
    t.host.cmds = s.host.cmds.filter (fun d => d.seqNo ≠ c.seqNo) ∧
    srcQueue t (srcCore s) = srcQueue s (srcCore s) ++ [.completion { q := c.q, cid := c.cid, status := st, report := none, result := BitVec.ofNat 64 res, result2 := 0, sqHead := 0, colSeq := 0, part := c.part }] ∧
    t = { s with host := t.host, col := t.col, free := s.free + 1 })

/-- Commands that tell and set (R312, R313, R320, R386, R394 to R396, R402, R411, R424 to R429): what each admitted command does before its completion. Every answer of data that does not fit its buffer is NO_RESOURCE with the length needed. The model's own choices and readings enter here through notes/assumptions/38, notes/assumptions/39, notes/assumptions/52. -/
def Obligations.EwesySettingsApply : Prop :=
  ∀ (s : State) (q : QId) (cid : W16) (c : Cmd),
    (Admitted s q cid identifyKind (fun _ => []) c → exec (.identify q cid) s = .next (completeOut s c (identifyBytes s) 0)) ∧
    (Admitted s q cid getCapsKind (fun _ => []) c → exec (.getCaps q cid) s = .next (completeOut s c (capsBytes s (if viaPf0 c then none else some (getP s c.part))) 0)) ∧
    (Admitted s q cid partQueryKind (partQueryChecks s) c → exec (.partQuery q cid) s = .next (completeOut s c (queryBytes s c.part) 0) ∧ c.part < 16) ∧
    (Admitted s q cid progPowerKind (progPowerChecks s) c → exec (.progPower q cid) s = .next (complete { s with pmu := { s.pmu with progPower := (cmdValue c).toNat } } c stSuccess 0) ∧ 2 ≤ (cmdValue c).toNat ∧ (cmdValue c).toNat ≤ 40) ∧
    (Admitted s q cid surveyPolicyKind (surveyPolicyChecks s) c → exec (.surveyPolicy q cid) s = .next (complete (if viaPf0 c then { s with integ := { s.integ with surveyPolicy := cmdValue c } } else updP s c.part (fun t => { t with survey := cmdValue c })) c stSuccess 0)) ∧
    (Admitted s q cid thermalPolicyKind (thermalPolicyChecks s) c → exec (.thermalPolicy q cid) s = .next (complete { s with thermal := { s.thermal with policy := cmdValue c } } c stSuccess 0)) ∧
    (Admitted s q cid arbWeightKind (arbWeightChecks s) c → exec (.arbWeight q cid) s = .next (complete (setWeight s (cmdValue c)) c stSuccess 0)) ∧
    (Admitted s q cid arbLimitKind (arbLimitChecks s) c → exec (.arbLimit q cid) s = .next (complete { s with starveLimit := (cmdValue c).toNat } c stSuccess 0) ∧ 64 ≤ (cmdValue c).toNat) ∧
    (Admitted s q cid arbStatusKind (arbStatusChecks s) c → exec (.arbStatus q cid) s = .next (complete (clearFlags s (bits (cmdValue c) 31 29) (bits (cmdValue c) 28 21) (leNat (dataIn s c 16))) c stSuccess 0)) ∧
    (Admitted s q cid windowPolicyKind (windowPolicyChecks s) c → exec (.windowPolicy q cid) s = .next (complete (setWindows s (cmdValue c)) c stSuccess 0)) ∧
    (Admitted s q cid probePolicyKind (probePolicyChecks s) c → exec (.probePolicy q cid) s = .next (complete (if viaPf0 c then { s with integ := { s.integ with probePolicy := cmdValue c } } else updP s c.part (fun t => { t with probeInterval := bits (cmdValue c) 16 0 })) c stSuccess 0)) ∧
    (Admitted s q cid ridgeMapKind (ridgeMapChecks s) c → exec (.ridgeMap q cid) s = .next (complete (updP s c.part (fun t => { t with ridgeMap := dataIn s c 48 })) c stSuccess 0)) ∧
    (Admitted s q cid getFeatureKind (getChecks s) c → exec (.getFeature q cid) s = .next (completeOut s c (getAnswer s c).2 (getAnswer s c).1)) ∧
    (Admitted s q cid eventConfigKind (eventConfigChecks s) c → ∃ u, exec (.eventConfig q cid) s = .next (complete u c stSuccess 0) ∧
      (getFn u c.port c.fn).evtMask = BitVec.ofNat 32 (cmdFld c 0x18 4) ∧ (getFn u c.port c.fn).pmask = (if viaPf0 c then BitVec.ofNat 16 (cmdFld c 0x1C 2) else (getFn s c.port c.fn).pmask)) ∧
    (Admitted s q cid thermalInletKind (thermalInletChecks s) c → ∃ u, exec (.thermalInlet q cid) s = .next (complete u c stSuccess 0) ∧ u.thermal.inlets.head? = some (s.now, (cmdFld c 0x18 2 : Int)) ∧ u.thermal.staleSaid = false) ∧
    (Admitted s q cid powerCapKind (powerCapChecks s) c → ∃ u, exec (.powerCap q cid) s = .next (complete u c stSuccess (if cmdFld c 0x18 2 = 0 then s.pmu.cap else cmdFld c 0x18 2)) ∧ u.pmu.cap = (if cmdFld c 0x18 2 = 0 then s.pmu.cap else cmdFld c 0x18 2)) ∧
    (Admitted s q cid logExportKind (fun _ => []) c → let l := (logFrom s (max (cmdFld c 0x18 8) (logOldest s))).take (if cmdPtr c = 0 then 0 else cmdLen c / 296)
      ∃ n, exec (.logExport q cid) s = .next (complete2 (hostWrite s c.port (cmdPtr c) (l.flatMap cperBytes)) c stSuccess n (logOldest s))) ∧
    (Admitted s q cid (clayKind 0x48) (clayReadChecks s) c → dataShort c (64 * cmdFld c 0x1A 2) = false → uePage s (cmdFld c 0x18 2) (cmdFld c 0x1A 2) = none →
      exec (.clayRead q cid) s = .next (completeOut s c (storeBytes s (64 * cmdFld c 0x18 2) (64 * cmdFld c 0x1A 2)) 0)) ∧
    (Admitted s q cid (clayKind 0x49) (clayWriteChecks s) c → dataShort c (64 * cmdFld c 0x1A 2) = false →
      ∃ u, exec (.clayWrite q cid) s = .next u ∧ u.clay.writers = s.clay.writers ++ [.host c.q c.cid (cmdFld c 0x18 2) (cmdFld c 0x1A 2) (dataIn s c (64 * cmdFld c 0x1A 2)) 0] ∧ u.clay.bytes = s.clay.bytes) ∧
    (Admitted s q cid clayUnlockKind (clayUnlockChecks s) c → let k := cmdFld c 0x18 1
      (k = 4 → exec (.clayUnlock q cid) s = .next (complete { s with clay := { s.clay with readOpen := false, writeOpen := false } } c stSuccess 0)) ∧
      (k ≠ 4 → cmdFld c 0x20 8 = (unlockPw s k).toNat → exec (.clayUnlock q cid) s = .next (complete (unlockDo s k (BitVec.ofNat 64 (cmdFld c 0x28 8))) c stSuccess 0)) ∧
      (k ≠ 4 → cmdFld c 0x20 8 ≠ (unlockPw s k).toNat → exec (.clayUnlock q cid) s = .next (complete (passwordFail s) c stAuth 0) ∧
        (passwordFail s).clay.mismatches = s.clay.mismatches + 1 ∧ (s.clay.mismatches = 7 → (passwordFail s).clay.locked = true))) ∧
    (Admitted s q cid clayProtectKind (clayProtectChecks s) c → ∃ u, exec (.clayProtect q cid) s = .next (complete u c stSuccess u.clay.protect.toNat) ∧
      u.clay.protect = (if 128 ≤ cmdFld c 0x18 1 then s.clay.protect else BitVec.ofNat 8 (cmdFld c 0x18 1))) ∧
    (s.host.cmds.find? (fun c => c.q = q && c.cid = cid && c.busy && cmdOp c = 0x40) = some c → awake s = true → s.cmc.fw = .running →
      (attestWaits s c = false → exec (.attest q cid) s = .next (completeOut s c (attestBytes s c) 0)) ∧ (attestWaits s c = true → c.began + 3000000 < s.now → exec (.attest q cid) s = .next (complete s c stState 0))) ∧
    (s.host.cmds.find? (fun c => c.q = q && c.cid = cid && c.busy && cmdOp c = 0x40) = none → Admitted s q cid attestKind (attestChecks s) c → (attestWaits s c = false → exec (.attest q cid) s = .next (completeOut s c (attestBytes s c) 0)) ∧ (attestWaits s c = true → c.busy = false → exec (.attest q cid) s = .next (startCmd s c))) ∧
    (Admitted s q cid fwStageKind (fun _ => []) c → let i := fwImage (fwBytes s c)
      (fwMalformed (fwBytes s c) = false → fwRejected s (fwBytes s c) = false → ∃ u, exec (.fwStage q cid) s = .next (complete u c stSuccess 0) ∧ u.sec.staged = some i ∧ slotImage u (!s.sec.selB) = some i ∧ slotImage u s.sec.selB = slotImage s s.sec.selB) ∧
      ((fwMalformed (fwBytes s c) = true ∨ fwRejected s (fwBytes s c) = true) → ∃ u st, exec (.fwStage q cid) s = .next (complete u c st 0) ∧ u.sec.staged = none ∧ slotImage u s.sec.selB = slotImage s s.sec.selB)) ∧
    (Admitted s q cid fwCommitKind (fwCommitChecks s) c → freeService s ≠ none → claimed s (8, 0, 0) = false → exec (.fwCommit q cid) s = .next (serviceRope (startCmd s c) [] 0 (.firmware q cid) [.fwCommit]) ∧ s.sec.staged ≠ none)

/-- Commands that manage partitions, queues, weight sets, programs, jobs, tests, and peers (R54, R237, R247, R254, R261, R263, R311, R317, R321, R331, R350, R383, R415): what each admitted command does. The model's own choices and readings enter here through notes/assumptions/33, notes/assumptions/36, notes/assumptions/43, notes/assumptions/44. -/
def Obligations.EwesyResourcesAreManaged : Prop :=
  ∀ (s : State) (q : QId) (cid : W16) (c : Cmd),
    (s.host.cmds.find? (fun c => c.q = q && c.cid = cid && c.busy && cmdOp c = 0x10) = none → Admitted s q cid partCreateKind (createChecks s) c → freeService s ≠ none → claimed s (9, c.part, 0) = false →
      exec (.partCreate q cid) s = .next (serviceRope (powerRidges (startCmd (newKey s).2 c) (bitList (createRidges c))) [c.part] 0 (.create q cid c.part) [.layout c.part (createdPart s c (newKey s).1)])) ∧
    (s.host.cmds.find? (fun c => c.q = q && c.cid = cid && c.busy && cmdOp c = 0x10) = some c → awake s = true → s.cmc.fw = .running → (getP s c.part).st = .initialising → (bitList (getP s c.part).ridges).all (ridgeUp s) = true →
      exec (.partCreate q cid) s = .next (complete (updP s c.part (fun t => { t with st := .active })) c stSuccess (userSize (getP s c.part)))) ∧
    (Admitted s q cid partDestroyKind (partDestroyChecks s) c → (c.part ≠ 0xFF → exec (.partDestroy q cid) s = .next (scrubStart (startCmd s c) c.part false (some (q, cid)))) ∧
      (c.part = 0xFF → creating s = [] → (∀ p, p < 16 → (getP s p).st ≠ .initialising) → exec (.partDestroy q cid) s = .next (wholeStart (startCmd s c) c))) ∧
    (Admitted s q cid partBindKind (partBindChecks s) c → let p := bindPart c
      (bindOk s c = false → ∃ u, exec (.partBind q cid) s = .next (complete u c stAuth 0) ∧ tget 0 u.host.bindFails p = tget 0 s.host.bindFails p + 1) ∧
      (bindOk s c = true → (getP s p).port = bindPort c → exec (.partBind q cid) s = .next (complete (setFails s p 0) c stSuccess 0)) ∧
      (bindOk s c = true → (getP s p).port ≠ bindPort c → freeService s ≠ none → claimed s (9, p, 0) = false →
        exec (.partBind q cid) s = .next (serviceRope (startCmd (setFails s p 0) c) [p] 0 (.bind q cid p) [.layout p { getP s p with port := bindPort c }]))) ∧
    (Admitted s q cid queueCreateKind (queueCreateChecks s) c → queueGoing s (cmdFld c 0x18 2) = false → exec (.queueCreate q cid) s = .next (makeQueue s c)) ∧
    (Admitted s q cid queueDestroyKind (queueDestroyChecks s) c → queueGoing s (cmdFld c 0x18 2) = false → exec (.queueDestroy q cid) s = .next (startRap (startCmd s c) 0 (cmdFld c 0x18 2) 0 none 0 (.queueGone (cmdFld c 0x18 2)))) ∧
    (Admitted s q cid wsetLoadKind (loadChecks s) c → freeService s ≠ none → exec (.wsetLoad q cid) s = .next (wsetSettle (loadStart s c) c.part (wsId (loadBytes s c)))) ∧
    (∀ w, Admitted s q cid wsetUnloadKind (wsetUnloadChecks s) c → findWset s c.part (cmdWset c) = some w → exec (.wsetUnload q cid) s = .next (complete (releaseWset s c.part w) c stSuccess 0)) ∧
    (∀ w out, Admitted s q cid wsetVerifyKind (wsetVerifyChecks s) c → findWset s c.part (cmdWset c) = some w →
      let ns := (sortBy (fun a b => decide (a.order ≤ b.order)) w.golden).map (outAt out)
      dataShort c (ns.flatMap (leBytes 4)).length = false →
      exec (.wsetVerify q cid out) s = .next (complete (hostWrite s c.port (cmdPtr c) (ns.flatMap (leBytes 4))) c (if ns.all (fun n => n = 0) then stSuccess else stProbe) 0)) ∧
    (Admitted s q cid calibrateKind (calibrateChecks s) c → calibrating s c.part = none → ∃ u, exec (.calibrate q cid) s = .next (calibrateSettle u c.part) ∧
      (cmdFld c 0x18 1 = 1 → u = surveyAll (startCmd s c) c.part) ∧ (cmdFld c 0x18 1 = 0 → u = holdAll (startCmd s c) c.part) ∧ (cmdFld c 0x18 1 = 2 → u = surveyAll (holdAll (startCmd s c) c.part) c.part)) ∧
    (Admitted s q cid progLoadKind (progChecks s) c → let h := (getP s c.part).nextHandle
      ∃ u, exec (.progLoad q cid) s = .next (complete u c stSuccess h) ∧ u = loadProg s c.part (imgProg (loadBytes s c) h)) ∧
    (Admitted s q cid progUnloadKind (progUnloadChecks s) c → let h := cmdFld c 0x18 4
      exec (.progUnload q cid) s = .next (complete (unloadProg s c.part h) c stSuccess 0) ∧ (findProg s c.part h).isSome = true ∧ findProg (unloadProg s c.part h) c.part h = none) ∧
    (∀ b, Admitted s q cid jobCairnExportKind (jobCairnExportChecks s) c → exportOf s c.part (BitVec.ofNat 32 (cmdFld c 0x18 4)) = some b → exec (.jobCairnExport q cid) s = .next (completeOut s c b b.length)) ∧
    (∀ g, Admitted s q cid jobSubmitKind (submitChecks s) c → jobProg s c = some g → ∃ u, exec (.jobSubmit q cid) s = .next u ∧ u.jobs = s.jobs ++ [newJob s c g] ∧ u.ridges = s.ridges) ∧
    (∀ j, Admitted s q cid jobResumeKind (jobResumeChecks s) c → findJob s c.part (BitVec.ofNat 32 (cmdFld c 0x18 4)) = some j → (cmdFld c 0x1C 1).testBit 0 = false →
      let u := updJob (dropTlb s j.part j.id (cmdFld c 0x20 8) (cmdFld c 0x28 8)) j.part j.id (fun k => { k with report := (if cmdFld c 0x30 8 = 0 then k.report else cmdFld c 0x30 8), resumes := k.resumes + 1 })
      exec (.jobResume q cid) s = .next (complete (if isSuspended j then (if j.inDoubt then endJob (updJob u j.part j.id (fun k => { k with mmuCause := 0x06 })) j [stIntegrity] else resumeJob u j) else u) c stSuccess 0)) ∧
    (Admitted s q cid abortKind (abortChecks s) c → (abortJobs s c).any (jobLocked s) = false →
      exec (.abort q cid) s = .next (complete ((abortJobs s c).foldl (fun s j => endJob s j [if isSuspended j then stPageFault else stAborted]) s) c stSuccess (abortJobs s c).length)) ∧
    (Admitted s q cid testRunKind (testRunChecks s) c → let rs := bitList (BitVec.ofNat 48 (cmdFld c 0x18 8))
      (∀ r, r ∈ rs → (getR s r).failed = false ∧ (getR s r).test.running = false ∧ testJob s r = none ∧ ridgeUp s r = true) → rs ≠ [] →
        exec (.testRun q cid) s = .next (startCmd (rs.foldl (fun t r => startTest t r (cmdFld c 0x20 4 % 16) (if (cmdFld c 0x20 4).testBit 4 then 0 else testStress s r) 0) s) c)) ∧
    (Admitted s q cid peerTableKind (peerTableChecks s) c → exec (.peerTable q cid) s = .next (if cmdFld c 0x18 1 = 0 then completeOut s c (peerTableBytes s) 0 else complete ((overrides s c).foldl applyOverride s) c stSuccess 0)) ∧
    (Admitted s q cid routeSetKind (routeSetChecks s) c → exec (.routeSet q cid) s = .next
      (complete ((routeSets s c).foldl applyRoute (applyPorts s (fieldAt (dataIn s c 8) 0 1) (fieldAt (dataIn s c 8) 1 1))) c stSuccess 0))

/-- Confidential hosts and the management bus (R121, R394 to R400, R402, R403, R465, R466): what each SPDM, IDE and TDISP request does when DOE answers, with the refusals that the order of requests, the session and the slot bring; what a debug attach does; and what the CMC answers over MCTP. The model's own choices and readings enter here through notes/assumptions/23, notes/assumptions/24. -/
def Obligations.HostsAreAttestedAndAnswered : Prop :=
  (∀ (s : State) (p : Port), doeUp s p = true → let c := getSpdm s p
    exec (.getVersion p) s = .next (answer (updSpdm s p (fun c => { c with version := true, caps := false, algs := false })) [0x12]) ∧
    exec (.getCapabilities p) s = .next (if c.version then answer (updSpdm s p (fun c => { c with caps := true, algs := false })) (leBytes 4 spdmFlags) else refuse s errOrder) ∧
    (∀ e h d g, exec (.negotiateAlgorithms p e h d g) s = .next (if !c.caps then refuse s errOrder else if e && h && d && g then answer (updSpdm s p (fun c => { c with algs := true })) [1, 1, 1, 1] else refuse s errRequest)) ∧
    (c.algs = true →
      exec (.getDigests p) s = .next (answer s (0x01 :: bytes256 (sha256 chainBytes))) ∧
      (∀ off len, off < chainBytes.length → let d := (chainBytes.drop off).take len
        exec (.getCertificate p 0 off len) s = .next (answer s (leBytes 2 d.length ++ leBytes 2 (chainBytes.length - off - d.length) ++ d))) ∧
      (∀ nonce, let b := bytes256 (sha256 chainBytes) ++ bytes256 (newKey s).1
        exec (.challenge p 0 nonce) s = .next (answer (newKey s).2 (b ++ signed (b ++ bytes256 nonce)))) ∧
      (∀ idx b nonce, measureBytes s idx = some b → exec (.getMeasurements p idx false nonce) s = .next (answer s b) ∧
        let n := bytes256 (newKey s).1
        exec (.getMeasurements p idx true nonce) s = .next (answer (newKey s).2 (b ++ n ++ signed (b ++ n ++ bytes256 nonce)))) ∧
      (∀ sid pub, findSess s p sid = none → c.sessions.length < 4 → ∃ t v, exec (.keyExchange p sid pub) s = .next t ∧ findSess t p sid = some v ∧ v.established = false ∧ v.secret = Config.ecdheSecret s.sec.draws pub)) ∧
    (∀ sid v, findSess s p sid = some v → v.established = false →
      (∃ t, exec (.finish p sid true) s = .next t ∧ findSess t p sid = some { v with established := true } ∧ t.sec.doe = []) ∧
      (∃ t, exec (.finish p sid false) s = .next t ∧ findSess t p sid = none))) ∧
  (∀ (s : State) (p : Port) (sid : Nat) (v : Sess), doeUp s p = true → findSess s p sid = some v → v.established = true →
    exec (.heartbeat p sid) s = .next (answer s []) ∧
    (∀ both, ∃ t, exec (.keyUpdate p sid both) s = .next t ∧ findSess t p sid = some { v with reqSecret := Config.keyUpdateSecret v.reqSecret, rspSecret := if both then Config.keyUpdateSecret v.rspSecret else v.rspSecret }) ∧
    (∃ t, exec (.endSession p sid) s = .next t ∧ findSess t p sid = none ∧ ∀ x, x ∈ t.sec.ide → ¬(x.1 / 128 = portCode p ∧ x.2.sess = sid)) ∧
    (∀ (f : Fn) dir set sub key, let k := ideKey p f dir set
      (key.all (fun b => decide (b = 0)) = true → exec (.keyProg p sid f dir set sub key) s = .next (answer (setIde s k ⟨some (Config.hvideKey v.secret f dir sub set), false, sid⟩) [])) ∧
      (key.all (fun b => decide (b = 0)) = false → exec (.keyProg p sid f dir set sub key) s = .next (refuse (setIde s k .empty) errRequest)) ∧
      ((getIde s k).key.isSome = true → ∃ t, exec (.kSetGo p sid f dir set) s = .next t ∧ (getIde t k).going = true ∧ (getIde t k).key = (getIde s k).key ∧ insecureAt t p f = false) ∧
      (∃ t, exec (.kSetStop p sid f dir set) s = .next t ∧ getIde t k = .empty ∧ t.sec.doe = [])) ∧
    (∀ (f : Fn), ∃ b, exec (.ideKmQuery p sid f) s = .next (answer s [BitVec.ofNat 8 (portCode p), BitVec.ofNat 8 f.val, b]) ∧ (b.toNat.testBit 4 = streamSecure s p f)) ∧
    (∀ (n : Fin 16), (getP s n).st = .active → (getP s n).port = p →
      ((getP s n).tdi = .unlocked → streamSecure s p (n.val + 1) = true → ∃ t, exec (.lockInterface p sid n) s = .next t ∧ (getP t n).tdi = .locked ∧ (getP t n).tdiSession = some sid ∧ (getP t n).tdiNonce = some (newKey s).1 ∧ t.sec.doe = bytes256 (newKey s).1) ∧
      (∀ nonce, (getP s n).tdi = .locked → (getP s n).tdiNonce = some nonce → ∃ t, exec (.startInterface p sid n nonce) s = .next t ∧ (getP t n).tdi = .run ∧ (getP t n).tdiNonce = none) ∧
      (∀ nonce, (getP s n).tdi = .locked → (getP s n).tdiNonce ≠ some nonce → exec (.startInterface p sid n nonce) s = .next (refuse s errRequest)) ∧
      ((getP s n).tdi ≠ .none → exec (.stopInterface p sid n) s = .next (answer (scrubStart s n true none) [])) ∧
      (((getP s n).tdi = .locked ∨ (getP s n).tdi = .run) → exec (.getDeviceInterfaceReport p sid n) s = .next (answer s ([0, 2] ++ layoutEntry (getP s n)))))) ∧
  (∀ (s : State) (p : Port) (f : Fn), doeUp s p = true → streamSecure s p f = true → ∃ t, exec (.ideFail p f) s = .next t ∧ insecureAt t p f = true ∧
    (f.val ≠ 0 → liveFn s p f = true → (getP s (f.val - 1)).tdi ≠ .none → (getP t (f.val - 1)).tdi = .error)) ∧
  (∀ (s : State), awake s = true → jtagOn s = true → ∃ t, exec .debugAttach s = .next t ∧ t.sec = { s.sec with jtagSince := true } ∧ t = { s with sec := t.sec, col := t.col, free := t.free }) ∧
  (∀ (s : State), mctpUp s = true → let said (b : List Byte) : Out := .next { s with cmc := { s.cmc with mctp := b } }
    exec .getStatus s = said (0x00 :: (leBytes 4 (hbFwState s).toNat ++ leBytes 1 s.pmu.resetCause ++ leBytes 1 s.pmu.op ++ leBytes 1 (boolBit s.thermal.hot 0 + boolBit s.host.portA.hrdy 1 + boolBit s.host.portB.hrdy 2))) ∧
    exec .getPower s = said (0x00 :: (leBytes 4 (powerShown s) ++ leBytes 2 s.pmu.mv ++ leBytes 2 s.pmu.cap)) ∧
    exec .getThermal s = said (0x00 :: (leBytes 2 (ofSigned 16 (hottestShown s)) ++ leBytes 2 (ofSigned 16 (anchorOf s)) ++ leBytes 1 (boolBit (!estFresh s) 0))) ∧
    exec .getIdentity s = said (0x00 :: (leBytes 4 hbId.toNat ++ serialBytes ++ leBytes 2 s.links.devId)) ∧
    (∀ first, s.cmc.fw = .running → (∀ r l, logFrom s first = r :: l → exec (.getLog first) s = said (0x00 :: (cperBytes r ++ leBytes 8 (r.seq + 1)))) ∧
      (logFrom s first = [] → exec (.getLog first) s = said (0x00 :: leBytes 8 (max first s.integ.nextLog)))) ∧
    (∀ e, e ≠ 0 → e ≠ 0xFF → ∃ t, exec (.mctpControlMessage 1 [0, e]) s = .next t ∧ t.cmc.mctpEid = e ∧ t.cmc.mctp = [0x00, 0x00, e, 0x00]) ∧
    exec (.mctpControlMessage 2 []) s = said [0x00, s.cmc.mctpEid, 0x00, 0x00] ∧
    (∀ code data, code ≠ 1 → code ≠ 2 → code ≠ 4 → code ≠ 5 → exec (.mctpControlMessage code data) s = said [0x05]))

/-- Links (R332 to R335, R344 to R348, R352 to R355): when a port trains, goes up, retrains and goes down; what a codeword does to the sequence numbers; the hails and sweeps that time brings; what a HAIL and a REPORT do; and that a frame for another device, of an unknown TYPE, or broken, is dropped and counted. The model's own choices and readings enter here through notes/assumptions/28, notes/assumptions/29, notes/assumptions/30. -/
def Obligations.LinksTrainAndHeal : Prop :=
  (∀ (s : State) (n : Nat), (linkOf (startTraining s n) n).st = .training ∧ (linkOf (startTraining s n) n).trained = none ∧ (startTraining s n).links.sent = s.links.sent) ∧
  (∀ (s : State) (n : Alv), awake s = true →
    (linkUp s n = true → exec (.retrain n) s = .next (startTraining s n) ∧ exec (.linkLockLost n) s = .next (startTraining s n) ∧
      (0 < unacked s n → (8 ≤ (linkOf s n).replays ∨ (linkOf s n).lastAck + 2 ^ 12 ≤ s.now) → exec (.ackTimeout n) s = .next (startTraining s n))) ∧
    ((linkOf s n).st = .down → (linkOf s n).downAt + 2 ^ 24 ≤ s.now → exec (.downRetry n) s = .next (startTraining s n)) ∧
    ((linkOf s n).st = .training → (linkOf s n).trained = none →
      (∀ x2, portOn s n = true → let u := sendHail (setLink s n { linkOf s n with trained := some x2, fails := 0 }) n
        exec (.linkTrainingComplete n x2) s = .next (goUp (setLink u n { linkOf u n with hailSent := true }) n)) ∧
      ((linkOf s n).fails < 2 → exec (.trainingFail n) s = .next (setLink s n { linkOf s n with fails := (linkOf s n).fails + 1 })) ∧
      (2 ≤ (linkOf s n).fails → exec (.trainingFail n) s = .next (goDown (setLink s n { linkOf s n with fails := (linkOf s n).fails + 1 }) n)))) ∧
  (∀ (s : State) (n : Nat) (x2 : Bool), (linkOf s n).st = .training → (linkOf s n).trained = some x2 → (linkOf s n).hailSent = true → (linkOf s n).hailHeard = true →
    (linkOf (goUp s n) n).st = (if x2 then .upX2 else .up) ∧ (goUp s n).links.sent = s.links.sent) ∧
  (∀ (s : State) (n : Alv) (cw : Codeword), awake s = true → linkUp s n = true → let l := linkOf s n
    ((cw.correctable = false ∨ 4 ≤ cw.ctl) → exec (.codewordReceive n cw) s = .next (setLink s n { l with nak := some l.rxSeq })) ∧
    (cw.correctable = true → cw.ctl < 4 → ∃ t, exec (.codewordReceive n cw) s = .next t ∧
      ((cw.ctl = 0 ∨ cw.ctl = 3) → cw.seq = l.rxSeq → (linkOf t n).rxSeq = (l.rxSeq + 1) % 256 ∧ (linkOf t n).nak = none) ∧
      ((cw.ctl = 0 ∨ cw.ctl = 3) → cw.seq ≠ l.rxSeq → (linkOf t n).rxSeq = l.rxSeq ∧ (linkOf t n).nak = some l.rxSeq) ∧
      ((cw.ctl = 1 ∨ cw.ctl = 2) → (linkOf t n).rxSeq = l.rxSeq) ∧ (linkOf t n).corrected = l.corrected + cw.corrected)) ∧
  (∀ (s : State), awake s = true → s.links.lastHail + 2 ^ 20 ≤ s.now →
    exec .hailSend s = .next ((upPorts s).foldl sendHail { s with links := { s.links with lastHail := s.now } })) ∧
  (∀ (s : State), awake s = true → s.cmc.fw = .running → exec .routeRecompute s = .next ((s.links.peers.map (fun x => x.1)).foldl recompute s) ∧
    (s.links.lastSweep + 2 ^ 16 ≤ s.now → exec .peerSweep s = .next
      (((s.links.peers.filter (fun x => (x.2.st = .up || x.2.st = .conflict) && (heardPorts s x.2).isEmpty)).map (fun x => x.1)).foldl peerLost { s with links := { s.links with lastSweep := s.now } }))) ∧
  (∀ (s : State) (a : Nat), s.links.conflictAt = some a → a + hearCycles ≤ s.now → exec .duplicateIdClear s = .next { s with links := { s.links with conflictAt := none } }) ∧
  (∀ (s u : State) (n : Alv) (f : Frame), arrive s n 0xC f = some (u, true) → let l := linkOf u n
    (hailOf f = none → exec (.hail n f) s = .next (dropFrame u n 8)) ∧
    (∀ h, hailOf f = some h →
      let t := goUp (setLink u n { l with hailHeard := l.hailHeard || l.trained.isSome, partner := if f.hops = 15 then h.dev else l.partner }) n
      (h.valid = false → exec (.hail n f) s = .next t) ∧
      (h.valid = true → h.dev = s.links.devId → h.serial = serialBytes → exec (.hail n f) s = .next t) ∧
      (h.valid = true → h.dev = s.links.devId → h.serial ≠ serialBytes → ∃ v, exec (.hail n f) s = .next v ∧
        (idConflict s = true → v = { t with links := { t.links with conflictAt := some s.now } })) ∧
      (h.valid = true → h.dev ≠ s.links.devId → s.cmc.fw = .running → exec (.hail n f) s = .next (hailPeer (stamp t h.dev n (15 - f.hops)) h (peerOf t h.dev))) ∧
      (h.valid = true → h.dev ≠ s.links.devId → s.cmc.fw ≠ .running → exec (.hail n f) s = .next (stamp t h.dev n (15 - f.hops))))) ∧
  (∀ (s u : State) (n : Alv) (f : Frame), arrive s n 0xD f = some (u, true) → let b := f.payload
    let ok := mgmtOk f 1 && decide (fieldAt b 0 2 < 4096) && (fieldAt b 2 1 = 2 || fieldAt b 2 1 = 3 || fieldAt b 2 1 = 4) && zeroAt b 3 1 && zeroAt b 8 8
    exec (.report n f) s = .next (if ok then peerOcc u (fieldAt b 0 2) (fieldAt b 2 1) (some n.val) f.src (BitVec.ofNat 32 (fieldAt b 4 4)) else dropFrame u n 8)) ∧
  (∀ (s : State) (n : Alv) (f : Frame) (c : Instr), (c = .wr n f ∨ c = .rd n f ∨ c = .atom n f ∨ c = .msg n f ∨ c = .rsp n f ∨ c = .rdata n f ∨ c = .hail n f ∨ c = .report n f) → carries s n f.ty = true →
    (knownType f.ty = false → exec c s = .next (dropFrame s n 8)) ∧
    (∀ ty, (ty, c) ∈ [(1, Instr.wr n f), (2, .rd n f), (3, .atom n f), (4, .msg n f), (8, .rsp n f), (9, .rdata n f), (0xC, .hail n f), (0xD, .report n f)] → f.ty = ty → f.bcast = false → f.dst ≠ s.links.devId → exec c s = .next (dropFrame s n 7)))

/-- Transactions between devices (R336 to R343, R356): what the target does with each request after the checks of R343 in their order, that an atomic or message known by its record is only answered again, and what the requester does with each answer, a time-out, and a retry after BUSY. The model's own choices and readings enter here through notes/assumptions/31, notes/assumptions/32. -/
def Obligations.RemoteAccessesAreAnswered : Prop :=
  (∀ (s : State) (n : Alv) (f : Frame),
    (Arrives s n 1 f → ((requestOk f && f.crcOk) = false → exec (.wr n f) s = .next (malformed s n f 8)) ∧
      (requestOk f = true → f.crcOk = true → (∀ c, exportCheck s f = .error c → exec (.wr n f) s = .next (reply s f 8 c [])) ∧
        (∀ p pa, exportCheck s f = .ok (p, pa) → let w := dramWrite s pa f.payload
          exec (.wr n f) s = .next (reply (cduEvents w.1 n p w.2) f 8 (if w.2.isEmpty then 0 else 4) [])))) ∧
    (Arrives s n 2 f → ((requestOk f && f.crcOk) = false → exec (.rd n f) s = .next (malformed s n f 9)) ∧
      (requestOk f = true → f.crcOk = true → (∀ c, exportCheck s f = .error c → exec (.rd n f) s = .next (reply s f 9 c [])) ∧
        (∀ p pa, exportCheck s f = .ok (p, pa) →
          exec (.rd n f) s = .next (if dramBad s pa (extent f) then reply s f 9 4 [] else reply s f 9 0 (dramBytes s pa (extent f)))))) ∧
    (Arrives s n 3 f → ((requestOk f && f.crcOk) = false → exec (.atom n f) s = .next (malformed s n f 8)) ∧
      (requestOk f = true → f.crcOk = true → (∀ r, recordOf s f = some r → exec (.atom n f) s = .next (reply s f 8 r.answer [])) ∧
        (recordOf s f = none → (∀ c, exportCheck s f = .error c → exec (.atom n f) s = .next (reply s f 8 c [])) ∧
          (∀ p pa, exportCheck s f = .ok (p, pa) → (recordsFull s = true → exec (.atom n f) s = .next (reply s f 8 5 [])) ∧
            (recordsFull s = false → let a := atomAt s n p pa f
              exec (.atom n f) s = .next (reply a.2 f 8 a.1 []) ∧ (a.1 ≤ 1 → recordOf a.2 f = some ⟨f.src, f.tag, (peerOf s f.src).boot, a.1, s.now⟩)))))) ∧
    (Arrives s n 4 f → ((messageOk f && f.crcOk) = false → exec (.msg n f) s = .next (malformed s n f 8)) ∧
      (messageOk f = true → f.crcOk = true → (∀ r, recordOf s f = some r → exec (.msg n f) s = .next (reply s f 8 r.answer [])) ∧
        (recordOf s f = none → s.cmc.fw ≠ .running → exec (.msg n f) s = .next (reply s f 8 3 [])) ∧
        (recordOf s f = none → s.cmc.fw = .running → exec (.msg n f) s = .next
          (if recordsFull s then reply s f 8 5 [] else reply (keepRecord (announce s f.payload) f 0) f 8 0 []))))) ∧
  (∀ (s : State) (n : Alv) (f : Frame) (o : Outstanding) (j : Job), tget none s.links.outstanding f.tag = some o → o.dst = f.src → askedJob s o = some j → f.reservedZero = true →
    (Arrives s n 8 f → f.op < 8 → f.len = 0 → f.payload = [] → o.kind ≠ 2 → let u := setTag s f.tag none
      (f.op = 0 → exec (.rsp n f) s = .next (accessDone u j o)) ∧
      (f.op = 1 → exec (.rsp n f) s = .next (accessDone (updJob u j.part j.id (fun k => { k with outsat := k.outsat + 1 })) j o)) ∧
      (f.op = 2 → exec (.rsp n f) s = .next (accessRefused u j o 0x05)) ∧ (f.op = 3 → exec (.rsp n f) s = .next (accessRefused u j o 0x06)) ∧
      (f.op = 4 → exec (.rsp n f) s = .next (accessFault u j o 0x11)) ∧
      (f.op = 5 → exec (.rsp n f) s = .next (setTag s f.tag (some { o with busyAt := some s.now }))) ∧
      (f.op = 6 → exec (.rsp n f) s = .next (accessRefused (linkEvent u n 8) j o 0x05)) ∧
      (f.op = 7 → exec (.rsp n f) s = .next (accessFault u j o 0x0B))) ∧
    (Arrives s n 9 f → f.crcOk = true → o.kind = 2 → let u := setTag s f.tag none
      (f.op = 0 → f.payload.length = 256 → f.len = 16 → exec (.rdata n f) s = .next (settleRidge (bringLine u o f.payload false) o.ridge)) ∧
      (f.op = 4 → f.payload = [] → f.len = 0 → exec (.rdata n f) s = .next (bringLine u o (zeros 256) true)) ∧
      (f.op = 5 → f.payload = [] → f.len = 0 → exec (.rdata n f) s = .next (setTag s f.tag (some { o with busyAt := some s.now }))) ∧
      ((f.op = 2 ∨ f.op = 3) → f.payload = [] → f.len = 0 → exec (.rdata n f) s = .next (accessRefused u j o (f.op + 3))))) ∧
  (∀ (s : State) (tag : Fin 4096) (o : Outstanding) (j : Job), tget none s.links.outstanding tag = some o → awake s = true → askedJob s o = some j →
    (o.busyAt = none → o.sentAt + 2 ^ 16 ≤ s.now → exec (.requestTimeout tag) s = .next (if o.resent then unreachable s tag j o else again s tag j { o with resent := true, sentAt := s.now })) ∧
    (∀ a, o.busyAt = some a → a + 2 ^ 10 ≤ s.now → exec (.busyRetry tag) s = .next (again s tag j { o with busyAt := none, sentAt := s.now }))) ∧
  (∀ (s : State) (k : Nat) (r : AtomRec), s.links.records[k]? = some r → r.time + 2 ^ 18 ≤ s.now → ∃ t, exec (.atomRecordExpiry k) s = .next t ∧ t.links.records.length + 1 = s.links.records.length ∧ t = { s with links := { s.links with records := t.links.records } })

/-- A step runs the command in front of the queue: it is that command's meaning on the state with the queue's rest, whatever the command and the state. With the queue empty the step is the passing of one CMC cycle (the model's choice, notes/assumptions/2). The model's own choices and readings enter here through notes/assumptions/2, notes/assumptions/63. -/
def Obligations.StepsRunTheFrontCommand : Prop :=
  (∀ (c : Instr) (s : State), step { s with pending := c :: s.pending } = exec c s) ∧
  (∀ (c : Instr) (s : State) (rest : List Instr), s.pending = c :: rest → step s = exec c { s with pending := rest }) ∧
  (∀ s : State, s.pending = [] → step s = .next (tick s))

/-- The passing of one CMC cycle moves the ridge clock by the pulses of the operating point (R449), and leaves every memory, job, partition, link and record as it was; of a ridge only the counts of its waits move. The model's own choices and readings enter here through notes/assumptions/2, notes/assumptions/63. -/
def Obligations.ACyclePasses : Prop :=
  ∀ s : State, (tick s).now = s.now + 1 ∧ (tick s).rclk = s.rclk + pulses s.pmu.op ∧
    (tick s).mem = s.mem ∧ (tick s).parts = s.parts ∧ (tick s).jobs = s.jobs ∧ (tick s).links = s.links ∧ (tick s).clay = s.clay ∧ (tick s).col = s.col ∧
    (tick s).host = { s.host with portA := (tick s).host.portA, portB := (tick s).host.portB } ∧
    ∀ r, getR (tick s) r = { getR s r with win := (getR (tick s) r).win } ∧ (getR (tick s) r).win.map (fun w => { w with waited := 0 }) = (getR s r).win.map (fun w => { w with waited := 0 })

/-- Every command answers a next state in every state, and touches neither the queue of waiting commands nor the clocks, which pass with the tick alone. The model's own choices and readings enter here through notes/assumptions/2, notes/assumptions/3. -/
def Obligations.CommandsRunAndLeaveTheClocks : Prop :=
  ∀ (c : Instr) (s : State), ∃ t, exec c s = .next t ∧ SameClock s t

/-- What each command may touch, whatever the state: wherever a command answers a next state, every part of the state that mayChange does not list for it is as it was, to the last byte of memory and the last register. So a ridge instruction reaches no weight set, no Clay record and no power register, a register access reaches the host side alone, and so on through the 24 parts of the state that Area names. The model's own choices and readings enter here through notes/assumptions/3. -/
def Obligations.CommandsChangeOnlyTheirAreas : Prop :=
  ∀ (c : Instr) (s t : State) (a : Area), exec c s = .next t → a ∉ mayChange c → Same s t a

/-- Stores reach the bytes they name and no other (R235): a write to Loam or to local memory gives every byte of its range its value unless a poisoned unit lies in the range, and leaves every byte outside the range, of every ridge, as it read before; writes to host memory and to the ring pool likewise, each in its own memory. The model's own choices and readings enter here through notes/assumptions/10. -/
def Obligations.StoresReachTheirBytesAlone : Prop :=
  (∀ (s : State) (src : Nat) (o : LOp) (d : List Byte) (tag : W32), let t := (stLoam s src o d tag).1
    (∀ q a, (q = o.ridge → a < o.off ∨ o.off + d.length ≤ a) → loamByte (getR t q) q a = loamByte (getR s q) q a) ∧
    (loamBad (getR s o.ridge) o.off d.length = false → loamBytes (getR t o.ridge) o.ridge o.off d.length = d)) ∧
  (∀ (s : State) (pa : Nat) (d : List Byte), let t := (dramWrite s pa d).1
    (∀ a, (a < pa ∨ pa + d.length ≤ a) → dramBytes t a 1 = dramBytes s a 1) ∧ (dramBad s pa d.length = false → dramBytes t pa d.length = d)) ∧
  (∀ (s : State) (p : Port) (pa : Nat) (d : List Byte), let t := hostWrite s p pa d
    (∀ q a, (q = p → a < pa ∨ pa + d.length ≤ a) → hostRead t q a 1 = hostRead s q a 1) ∧ hostRead t p pa d.length = d) ∧
  (∀ (s : State) (pa : Nat) (d : List Byte), let t := poolWrite s pa d
    (∀ a, (a < pa ∨ pa + d.length ≤ a) → poolRead t a 1 = poolRead s a 1) ∧ poolRead t pa d.length = d)

/-- Whatever a step does, every byte memory that was in canonical form stays so: each ridge's Loam, both host memories, the ring pool, local memory and the Clay store. Two states whose memories read alike therefore hold equal memories. The model's own choices and readings enter here through notes/assumptions/5. -/
def Obligations.EveryStepKeepsMemoriesCanonical : Prop :=
  ∀ s t : State, MemoriesOk s → step s = .next t → MemoriesOk t

/-- Out of reset every byte memory is in canonical form. The model's own choices and readings enter here through notes/assumptions/5. -/
def Obligations.ResetMemoriesAreCanonical : Prop := MemoriesOk State.reset

/-- What the spec says stands after reset: the programming budget is 40 W (R41), the power cap 300 W (R451), every tile map the identity (R46), every Loam byte 0 (R447), no slot open, no partition in use, no queue live, no rope, no command waiting; every requester has weight 1, the page walker 4 at every Moraine slice (R271), and the starvation limit is 4,096 (R273); the device starts held in reset with its cells as production left them. The model's own choices and readings enter here through notes/assumptions/6. -/
def Obligations.ResetHoldsTheSpecsValues : Prop :=
  let s := State.reset
  s.pending = [] ∧ s.pmu.progPower = 40 ∧ s.pmu.cap = 300 ∧ s.pins.sysRstN = false ∧
    s.starveLimit = 4096 ∧ (∀ cls inst i, weightOf (arbOf s cls inst).weight cls i = if cls = 0 ∧ i = 52 then 4 else 1) ∧
    (∀ r p, p < 32 → physOf (getR s r) p = p) ∧ (∀ r a, loamByte (getR s r) r a = 0) ∧ (∀ r k, (getSlot s r k).opened = false) ∧
    (∀ p, (getP s p).st = .free) ∧ (∀ q, (getQ s q).st ≠ .live) ∧ (∀ e, (getRope s e).st = .free) ∧ (∀ r t, (getTile s r t).cells = [])
end

