-- ==== Sys2Proof/Laws/Bytes.lean ====
section
/-!
SUPPORT. Byte lists, their fields, and the layouts of R150, R167 and R369.
-/

namespace Sys2Proof.Laws

open Sys2Proof.Machine

theorem leBytes_length : ∀ n x, (leBytes n x).length = n
  | 0, _ => rfl
  | n + 1, x => by simp [leBytes, leBytes_length n]
theorem leNat_leBytes : ∀ n x, leNat (leBytes n x) = x % 256 ^ n
  | 0, x => by simp [leBytes, leNat, Nat.mod_one]
  | n + 1, x => by
    simp only [leBytes, leNat, leNat_leBytes n, BitVec.toNat_ofNat]
    have e : 256 ^ (n + 1) = 256 * 256 ^ n := by rw [Nat.pow_succ, Nat.mul_comm]
    rw [e, Nat.mod_mul]
theorem le8 (x : Nat) (h : x < 2 ^ 64) : leNat (leBytes 8 x) = x := by rw [leNat_leBytes]; exact Nat.mod_eq_of_lt (by omega)
theorem le4 (x : Nat) (h : x < 2 ^ 32) : leNat (leBytes 4 x) = x := by rw [leNat_leBytes]; exact Nat.mod_eq_of_lt (by omega)
theorem le2 (x : Nat) (h : x < 2 ^ 16) : leNat (leBytes 2 x) = x := by rw [leNat_leBytes]; exact Nat.mod_eq_of_lt (by omega)
theorem bytesAt_app_right (a b : List Byte) (o n : Nat) (h : a.length ≤ o) : bytesAt (a ++ b) o n = bytesAt b (o - a.length) n := by
  unfold bytesAt
  have : (a ++ b).drop o = b.drop (o - a.length) := by
    rw [List.drop_append, List.drop_eq_nil_of_le h]; rfl
  rw [this]
theorem bytesAt_app_left (a b : List Byte) (o n : Nat) (h : o + n ≤ a.length) : bytesAt (a ++ b) o n = bytesAt a o n := by
  unfold bytesAt
  have : ((a ++ b).drop o).take n = (a.drop o).take n := by
    rw [List.drop_append_of_le_length (by omega), List.take_append_of_le_length (by simp; omega)]
  rw [this]
theorem bytesAt_full (a : List Byte) (n : Nat) (h : a.length = n) : bytesAt a 0 n = a := by
  unfold bytesAt
  simp [← h]
theorem field_le (n x : Nat) (h : x < 256 ^ n) : leNat (bytesAt (leBytes n x) 0 n) = x := by
  rw [bytesAt_full _ _ (leBytes_length n x), leNat_leBytes, Nat.mod_eq_of_lt h]
theorem signed40 (x : Int) (h1 : -(2 ^ 39) ≤ x) (h2 : x < 2 ^ 39) : asSigned 40 (ofSigned 40 x) = x ∧ ofSigned 40 x < 2 ^ 40 := by
  unfold asSigned ofSigned
  constructor
  · split <;> omega
  · omega
theorem signed16 (x : Int) (h1 : -(2 ^ 15) ≤ x) (h2 : x < 2 ^ 15) : asSigned 16 (ofSigned 16 x) = x ∧ ofSigned 16 x < 2 ^ 16 := by
  unfold asSigned ofSigned
  constructor
  · split <;> omega
  · omega
theorem entry_ok (e : Entry) (h1 : -(2 ^ 39) ≤ e.val) (h2 : e.val < 2 ^ 39) : entryWord e < 2 ^ 44 ∧ entryOf (entryWord e) = e := by
  obtain ⟨v, a, b, c, d⟩ := e
  obtain ⟨h3, h4⟩ := signed40 v h1 h2
  dsimp only at *
  unfold entryWord entryOf
  dsimp only
  generalize ofSigned 40 v = y at *
  have key : ∀ a b c d : Bool, ∃ m, (if a then 2 ^ 40 else 0) + (if b then 2 ^ 41 else 0) + (if c then 2 ^ 42 else 0) + (if d then 2 ^ 43 else 0) = 2 ^ 40 * m ∧ m < 16 ∧
      m.testBit 0 = a ∧ m.testBit 1 = b ∧ m.testBit 2 = c ∧ m.testBit 3 = d := by
    intro a b c d
    refine ⟨(if a then 1 else 0) + (if b then 2 else 0) + (if c then 4 else 0) + (if d then 8 else 0), ?_, ?_, ?_, ?_, ?_, ?_⟩ <;>
      cases a <;> cases b <;> cases c <;> cases d <;> decide
  obtain ⟨m, hm, hl, ha, hb, hc, hd⟩ := key a b c d
  have e : y + (if a then 2 ^ 40 else 0) + (if b then 2 ^ 41 else 0) + (if c then 2 ^ 42 else 0) + (if d then 2 ^ 43 else 0) = y + 2 ^ 40 * m := by rw [← hm]; omega
  rw [e]
  clear e hm key
  have tb : ∀ (k : Nat), (y + 2 ^ 40 * m).testBit (40 + k) = m.testBit k := by
    intro k
    rw [Nat.add_comm y, Nat.testBit_two_pow_mul_add _ h4, if_neg (by omega)]
    simp
  refine ⟨by omega, ?_⟩
  have q : (y + 2 ^ 40 * m) % 2 ^ 40 = y := by rw [Nat.add_mul_mod_self_left, Nat.mod_eq_of_lt h4]
  have b0 := tb 0; have b1 := tb 1; have b2 := tb 2; have b3 := tb 3
  rw [ha] at b0; rw [hb] at b1; rw [hc] at b2; rw [hd] at b3
  generalize y + 2 ^ 40 * m = w at *
  rw [q, h3, show w.testBit 40 = a from b0, show w.testBit 41 = b from b1, show w.testBit 42 = c from b2, show w.testBit 43 = d from b3]
theorem zeros_length (n : Nat) : (zeros n).length = n := by simp [zeros]
theorem ledger_length (l : Ledger) : (ledgerBytes l).length = 48 := by simp [ledgerBytes, leBytes_length, zeros_length]
theorem ledger_ok (l : Ledger) (h1 : l.lo < 2 ^ 64) (h2 : l.hi < 2 ^ 64) : ledgerOf (ledgerBytes l) = l := by
  have z : ∀ (n x : Nat) (t : List Byte) , bytesAt (leBytes n x ++ t) 0 n = leBytes n x := fun n x t => by
    rw [bytesAt_app_left _ _ _ _ (by simp [leBytes_length]), bytesAt_full _ _ (leBytes_length n x)]
  have sh : ∀ (n x o k : Nat) (t : List Byte), n ≤ o → bytesAt (leBytes n x ++ t) o k = bytesAt t (o - n) k := fun n x o k t h => by
    rw [bytesAt_app_right _ _ _ _ (by rw [leBytes_length]; exact h), leBytes_length]
  have hr : leNat (leBytes 8 l.ridges.toNat) = l.ridges.toNat := le8 _ (Nat.lt_trans l.ridges.isLt (by omega))
  have hp := le4 _ l.pos.isLt
  have hf := le4 _ l.fallback.isLt
  have he := le4 _ l.relief.isLt
  have hm : leNat (leBytes 4 (if l.multi then 1 else 0)) = if l.multi then 1 else 0 := by cases l.multi <;> rfl
  have hlo := le8 _ h1
  have hhi := le8 _ h2
  unfold ledgerOf ledgerBytes fieldAt
  simp only [List.append_assoc]
  rw [z, sh _ _ _ _ _ (by omega), z, sh _ _ _ _ _ (by omega), sh _ _ _ _ _ (by omega), z, sh _ _ _ _ _ (by omega), sh _ _ _ _ _ (by omega), sh _ _ _ _ _ (by omega), z]
  rw [sh _ _ _ _ _ (by omega), sh _ _ _ _ _ (by omega), sh _ _ _ _ _ (by omega), sh _ _ _ _ _ (by omega), z]
  rw [sh _ _ _ _ _ (by omega), sh _ _ _ _ _ (by omega), sh _ _ _ _ _ (by omega), sh _ _ _ _ _ (by omega), sh _ _ _ _ _ (by omega), z]
  rw [sh _ _ _ _ _ (by omega), sh _ _ _ _ _ (by omega), sh _ _ _ _ _ (by omega), sh _ _ _ _ _ (by omega), sh _ _ _ _ _ (by omega), sh _ _ _ _ _ (by omega), z]
  rw [hr, hp, hf, he, hm, hlo, hhi]
  clear hr hp hf he hm hlo hhi z sh h1 h2
  obtain ⟨r, p, f, e, m, lo, hi⟩ := l
  simp only [BitVec.ofNat_toNat, BitVec.setWidth_eq]
  cases m <;> simp
theorem bytesAt_le_head (n x : Nat) (t : List Byte) : bytesAt (leBytes n x ++ t) 0 n = leBytes n x := by
  rw [bytesAt_app_left _ _ _ _ (by simp [leBytes_length]), bytesAt_full _ _ (leBytes_length n x)]
theorem bytesAt_le_tail (n x o k : Nat) (t : List Byte) (h : n ≤ o) : bytesAt (leBytes n x ++ t) o k = bytesAt t (o - n) k := by
  rw [bytesAt_app_right _ _ _ _ (by rw [leBytes_length]; exact h), leBytes_length]
theorem bytesAt_zeros_head (n : Nat) (t : List Byte) : bytesAt (zeros n ++ t) 0 n = zeros n := by
  rw [bytesAt_app_left _ _ _ _ (by simp [zeros_length]), bytesAt_full _ _ (zeros_length n)]
theorem bytesAt_zeros_tail (n o k : Nat) (t : List Byte) (h : n ≤ o) : bytesAt (zeros n ++ t) o k = bytesAt t (o - n) k := by
  rw [bytesAt_app_right _ _ _ _ (by rw [zeros_length]; exact h), zeros_length]
/-- The fields of a ledger stand at the offsets of R369. -/
theorem ledger_fields (l : Ledger) (h1 : l.lo < 2 ^ 64) (h2 : l.hi < 2 ^ 64) :
    fieldAt (ledgerBytes l) 0 8 = l.ridges.toNat ∧ fieldAt (ledgerBytes l) 0x08 4 = l.pos.toNat ∧ fieldAt (ledgerBytes l) 0x0C 4 = l.fallback.toNat ∧
      fieldAt (ledgerBytes l) 0x10 4 = l.relief.toNat ∧ fieldAt (ledgerBytes l) 0x14 4 = (if l.multi then 1 else 0) ∧ fieldAt (ledgerBytes l) 0x18 8 = l.lo ∧
      fieldAt (ledgerBytes l) 0x20 8 = l.hi ∧ fieldAt (ledgerBytes l) 0x28 8 = 0 := by
  have hr : leNat (leBytes 8 l.ridges.toNat) = l.ridges.toNat := le8 _ (Nat.lt_trans l.ridges.isLt (by omega))
  have hm : leNat (leBytes 4 (if l.multi then 1 else 0)) = if l.multi then 1 else 0 := by cases l.multi <;> rfl
  unfold ledgerBytes fieldAt
  simp only [List.append_assoc]
  refine ⟨?_, ?_, ?_, ?_, ?_, ?_, ?_, ?_⟩
  · rw [bytesAt_le_head, hr]
  · rw [bytesAt_le_tail _ _ _ _ _ (by omega), bytesAt_le_head, le4 _ l.pos.isLt]
  · rw [bytesAt_le_tail _ _ _ _ _ (by omega), bytesAt_le_tail _ _ _ _ _ (by omega), bytesAt_le_head, le4 _ l.fallback.isLt]
  · rw [bytesAt_le_tail _ _ _ _ _ (by omega), bytesAt_le_tail _ _ _ _ _ (by omega), bytesAt_le_tail _ _ _ _ _ (by omega), bytesAt_le_head, le4 _ l.relief.isLt]
  · rw [bytesAt_le_tail _ _ _ _ _ (by omega), bytesAt_le_tail _ _ _ _ _ (by omega), bytesAt_le_tail _ _ _ _ _ (by omega), bytesAt_le_tail _ _ _ _ _ (by omega), bytesAt_le_head, hm]
  · rw [bytesAt_le_tail _ _ _ _ _ (by omega), bytesAt_le_tail _ _ _ _ _ (by omega), bytesAt_le_tail _ _ _ _ _ (by omega), bytesAt_le_tail _ _ _ _ _ (by omega),
      bytesAt_le_tail _ _ _ _ _ (by omega), bytesAt_le_head, le8 _ h1]
  · rw [bytesAt_le_tail _ _ _ _ _ (by omega), bytesAt_le_tail _ _ _ _ _ (by omega), bytesAt_le_tail _ _ _ _ _ (by omega), bytesAt_le_tail _ _ _ _ _ (by omega),
      bytesAt_le_tail _ _ _ _ _ (by omega), bytesAt_le_tail _ _ _ _ _ (by omega), bytesAt_le_head, le8 _ h2]
  · rw [bytesAt_le_tail _ _ _ _ _ (by omega), bytesAt_le_tail _ _ _ _ _ (by omega), bytesAt_le_tail _ _ _ _ _ (by omega), bytesAt_le_tail _ _ _ _ _ (by omega),
      bytesAt_le_tail _ _ _ _ _ (by omega), bytesAt_le_tail _ _ _ _ _ (by omega), bytesAt_le_tail _ _ _ _ _ (by omega)]
    decide

theorem flatMap_len {f : Nat → List Byte} {k : Nat} (hf : ∀ i, (f i).length = k) (l : List Nat) : (l.flatMap f).length = k * l.length := by
  induction l with
  | nil => simp
  | cons x l ih => simp [ih, hf, Nat.mul_succ]; omega
theorem flatMap_at {f : Nat → List Byte} {k : Nat} (hf : ∀ i, (f i).length = k) : ∀ (l : List Nat) (i : Nat) (h : i < l.length), bytesAt (l.flatMap f) (k * i) k = f l[i]
  | [], i, h => by simp at h
  | x :: l, 0, _ => by
    rw [List.flatMap_cons, Nat.mul_zero, bytesAt_app_left _ _ _ _ (by rw [hf]; omega), bytesAt_full _ _ (hf x)]; rfl
  | x :: l, i + 1, h => by
    rw [List.flatMap_cons, bytesAt_app_right _ _ _ _ (by rw [hf, Nat.mul_succ]; omega), hf, Nat.mul_succ, Nat.add_sub_cancel, flatMap_at hf l i (by simpa using h)]
    rfl
theorem range_len {f : Nat → List Byte} {k : Nat} (hf : ∀ i, (f i).length = k) (n : Nat) : ((List.range n).flatMap f).length = k * n := by
  rw [flatMap_len hf, List.length_range]
theorem range_at {f : Nat → List Byte} {k : Nat} (hf : ∀ i, (f i).length = k) (n i : Nat) (h : i < n) : bytesAt ((List.range n).flatMap f) (k * i) k = f i := by
  rw [flatMap_at hf _ i (by rw [List.length_range]; exact h), List.getElem_range]

/-- A spill image as its header, its entries and its companions (R167). -/
theorem image_parts (len : Nat) (exp : Int) (fl : Nat) (led : Ledger) (es : Nat → Entry) (cs : Nat → W32) :
    ∃ h, imageBytes len exp fl led es cs = h ++ ((List.range 512).flatMap (fun i => leBytes 8 (if i < len then entryWord (es i) else 0)) ++
        (List.range 512).flatMap (fun i => leBytes 4 (if i < len then (cs i).toNat else 0))) ∧
      h = leBytes 4 0x50535648 ++ (leBytes 2 len ++ (leBytes 2 (ofSigned 16 exp) ++ (leBytes 4 fl ++ (zeros 4 ++ (ledgerBytes led ++ zeros 192))))) ∧ h.length = 256 := by
  refine ⟨_, ?_, rfl, ?_⟩
  · simp only [imageBytes, List.append_assoc]
  · simp only [List.length_append, leBytes_length, zeros_length, ledger_length]
theorem entryWord_lt (e : Entry) : entryWord e < 2 ^ 64 := by
  have : ofSigned 40 e.val < 2 ^ 40 := by unfold ofSigned; omega
  unfold entryWord
  cases e.sat <;> cases e.clip <;> cases e.scree <;> cases e.cancel <;> simp only [if_true, if_false, Bool.false_eq_true] <;> omega
/-- Entries and companions of an image, zero at and above LEN (R167). -/
theorem image_at (len : Nat) (exp : Int) (fl : Nat) (led : Ledger) (es : Nat → Entry) (cs : Nat → W32) (i : Nat) (hi : i < 512) :
    fieldAt (imageBytes len exp fl led es cs) (0x100 + 8 * i) 8 = (if i < len then entryWord (es i) else 0) ∧
      fieldAt (imageBytes len exp fl led es cs) (0x1100 + 4 * i) 4 = (if i < len then (cs i).toNat else 0) := by
  obtain ⟨h, h1, -, h3⟩ := image_parts len exp fl led es cs
  rw [h1]
  have lf8 : ∀ i, (leBytes 8 (if i < len then entryWord (es i) else 0)).length = 8 := fun i => leBytes_length ..
  have lf4 : ∀ i, (leBytes 4 (if i < len then (cs i).toNat else 0)).length = 4 := fun i => leBytes_length ..
  have L8 := range_len lf8 512
  have A8 := range_at lf8 512
  have A4 := range_at lf4 512
  constructor
  · unfold fieldAt
    rw [bytesAt_app_right _ _ _ _ (by omega), bytesAt_app_left _ _ _ _ (by rw [L8]; omega), show 0x100 + 8 * i - h.length = 8 * i by omega, A8 i hi]
    split
    · exact le8 _ (entryWord_lt _)
    · rfl
  · unfold fieldAt
    rw [bytesAt_app_right _ _ _ _ (by omega), bytesAt_app_right _ _ _ _ (by rw [L8]; omega), L8, show 0x1100 + 4 * i - h.length - 8 * 512 = 4 * i by omega, A4 i hi]
    split
    · exact le4 _ (cs i).isLt
    · rfl
/-- The header of an image (R167). -/
theorem image_header (len : Nat) (exp : Int) (fl : Nat) (led : Ledger) (es : Nat → Entry) (cs : Nat → W32)
    (hl : len ≤ 512) (e1 : -(2 ^ 15) ≤ exp) (e2 : exp < 2 ^ 15) (hf : fl < 2 ^ 32) :
    fieldAt (imageBytes len exp fl led es cs) 0 4 = 0x50535648 ∧ fieldAt (imageBytes len exp fl led es cs) 4 2 = len ∧
      asSigned 16 (fieldAt (imageBytes len exp fl led es cs) 6 2) = exp ∧ fieldAt (imageBytes len exp fl led es cs) 8 4 = fl ∧
      zeroAt (imageBytes len exp fl led es cs) 0x0C 4 = true ∧ bytesAt (imageBytes len exp fl led es cs) 0x10 48 = ledgerBytes led ∧
      zeroAt (imageBytes len exp fl led es cs) 0x40 192 = true := by
  obtain ⟨h, h1, h2, h3⟩ := image_parts len exp fl led es cs
  obtain ⟨x1, x2⟩ := signed16 exp e1 e2
  have az : ∀ n, (zeros n).all (fun b => decide (b = 0)) = true := by intro n; simp [zeros]
  rw [h1]
  have lead : ∀ o n, o + n ≤ 256 → ∀ u, bytesAt (h ++ u) o n = bytesAt h o n := fun o n hn u => bytesAt_app_left _ _ _ _ (by omega)
  unfold fieldAt zeroAt
  rw [lead 0 4 (by omega), lead 4 2 (by omega), lead 6 2 (by omega), lead 8 4 (by omega), lead 0x0C 4 (by omega), lead 0x10 48 (by omega), lead 0x40 192 (by omega), h2]
  refine ⟨?_, ?_, ?_, ?_, ?_, ?_, ?_⟩
  · rw [bytesAt_le_head]; rfl
  · rw [bytesAt_le_tail _ _ _ _ _ (by omega), bytesAt_le_head, le2 _ (by omega)]
  · rw [bytesAt_le_tail _ _ _ _ _ (by omega), bytesAt_le_tail _ _ _ _ _ (by omega), bytesAt_le_head, le2 _ x2, x1]
  · rw [bytesAt_le_tail _ _ _ _ _ (by omega), bytesAt_le_tail _ _ _ _ _ (by omega), bytesAt_le_tail _ _ _ _ _ (by omega), bytesAt_le_head, le4 _ hf]
  · rw [bytesAt_le_tail _ _ _ _ _ (by omega), bytesAt_le_tail _ _ _ _ _ (by omega), bytesAt_le_tail _ _ _ _ _ (by omega), bytesAt_le_tail _ _ _ _ _ (by omega), bytesAt_zeros_head]
    exact az 4
  · rw [bytesAt_le_tail _ _ _ _ _ (by omega), bytesAt_le_tail _ _ _ _ _ (by omega), bytesAt_le_tail _ _ _ _ _ (by omega), bytesAt_le_tail _ _ _ _ _ (by omega),
      bytesAt_zeros_tail _ _ _ _ (by omega), bytesAt_app_left _ _ _ _ (by rw [ledger_length] <;> omega), bytesAt_full _ _ (ledger_length led)]
  · rw [bytesAt_le_tail _ _ _ _ _ (by omega), bytesAt_le_tail _ _ _ _ _ (by omega), bytesAt_le_tail _ _ _ _ _ (by omega), bytesAt_le_tail _ _ _ _ _ (by omega),
      bytesAt_zeros_tail _ _ _ _ (by omega), bytesAt_app_right _ _ _ _ (by rw [ledger_length] <;> omega), ledger_length, bytesAt_full _ _ (zeros_length 192)]
    exact az 192

end Sys2Proof.Laws
end

