-- ==== Sys2Proof/Laws/Tbl.lean ====
section
/-!
SUPPORT. The laws of sparse tables: a read after a write to the same key gives the value written, a write leaves every other key alone, and every operation keeps the canonical form.
-/

namespace Sys2Proof.Machine

/-! ### Reading after writing -/

section reads
variable {α : Type}

@[simp] theorem tfind_nil (k : Nat) : tfind ([] : Tbl α) k = none := rfl

@[simp] theorem tget_nil (d : α) (k : Nat) : tget d [] k = d := rfl

theorem tfind_terase_self (t : Tbl α) (k : Nat) : tfind (terase t k) k = none := by
  induction t with
  | nil => rfl
  | cons x t ih =>
    obtain ⟨j, v⟩ := x
    by_cases h : j = k <;> simp [terase, tfind, h, ih]

theorem tfind_terase_ne (t : Tbl α) (j k : Nat) (h : j ≠ k) : tfind (terase t j) k = tfind t k := by
  induction t with
  | nil => rfl
  | cons x t ih =>
    obtain ⟨i, v⟩ := x
    by_cases hj : i = j
    · have : i ≠ k := hj ▸ h
      simp only [terase, hj, if_true, ih, tfind]
      rw [if_neg h]
    · simp only [terase, hj, if_false, tfind, ih]

theorem tfind_tput_self (t : Tbl α) (k : Nat) (v : α) : tfind (tput t k v) k = some v := by
  induction t with
  | nil => simp [tput, tfind]
  | cons x t ih =>
    obtain ⟨j, u⟩ := x
    simp only [tput]
    split
    · simp [tfind]
    · split
      · simp [tfind]
      · next h => simp [tfind, Ne.symm h, ih]

theorem tfind_tput_ne (t : Tbl α) (j k : Nat) (v : α) (h : j ≠ k) : tfind (tput t j v) k = tfind t k := by
  induction t with
  | nil => simp [tput, tfind, h]
  | cons x t ih =>
    obtain ⟨i, u⟩ := x
    simp only [tput]
    split
    · simp [tfind, h]
    · split
      · next hj => subst hj; simp [tfind, h]
      · by_cases hk : i = k <;> simp [tfind, hk, ih]

variable [DecidableEq α]

/-- A read after a write to the same key. -/
@[simp] theorem tget_tset_self (d : α) (t : Tbl α) (k : Nat) (v : α) : tget d (tset d t k v) k = v := by
  by_cases h : v = d <;> simp [tget, tset, h, tfind_terase_self, tfind_tput_self]

/-- A write leaves every other key alone. -/
theorem tget_tset_ne (d : α) (t : Tbl α) (j k : Nat) (v : α) (h : j ≠ k) : tget d (tset d t j v) k = tget d t k := by
  by_cases hv : v = d <;> simp [tget, tset, hv, tfind_terase_ne _ _ _ h, tfind_tput_ne _ _ _ _ h]

theorem tget_tset (d : α) (t : Tbl α) (j k : Nat) (v : α) : tget d (tset d t j v) k = if j = k then v else tget d t k := by
  by_cases h : j = k
  · subst h; simp
  · simp [h, tget_tset_ne]

@[simp] theorem tget_tupd_self (d : α) (t : Tbl α) (k : Nat) (f : α → α) : tget d (tupd d t k f) k = f (tget d t k) := by
  simp [tupd]

theorem tget_tupd_ne (d : α) (t : Tbl α) (j k : Nat) (f : α → α) (h : j ≠ k) : tget d (tupd d t j f) k = tget d t k := by
  simp [tupd, tget_tset_ne _ _ _ _ _ h]

/-- A run of writes: the keys of the run read as the run, every other key as before. -/
theorem tget_tsetRun (d : α) (l : List α) : ∀ (t : Tbl α) (k i : Nat),
    tget d (tsetRun d t k l) i = if k ≤ i ∧ i < k + l.length then l.getD (i - k) d else tget d t i := by
  induction l with
  | nil => intro t k i; simp [tsetRun]; all_goals (intro h1 h2; omega)
  | cons v vs ih =>
    intro t k i
    simp only [tsetRun, ih, tget_tset, List.length_cons]
    by_cases hi : k = i
    · subst hi
      rw [if_neg (by omega), if_pos rfl, if_pos (by omega)]
      simp
    · by_cases h2 : k + 1 ≤ i ∧ i < k + 1 + vs.length
      · rw [if_pos h2, if_pos (by omega)]
        have : i - k = (i - (k + 1)) + 1 := by omega
        rw [this, List.getD_cons_succ]
      · rw [if_neg h2, if_neg hi, if_neg (by omega)]

/-- Every key outside a run of writes reads as before. -/
theorem tget_tsetRun_outside (d : α) (t : Tbl α) (k i : Nat) (l : List α) (h : i < k ∨ k + l.length ≤ i) :
    tget d (tsetRun d t k l) i = tget d t i := by
  rw [tget_tsetRun, if_neg (by omega)]

/-- Reading back a run just written. -/
theorem tgetRun_tsetRun (d : α) (t : Tbl α) (k : Nat) (l : List α) : tgetRun d (tsetRun d t k l) k l.length = l := by
  apply List.ext_getElem
  · simp [tgetRun]
  · intro i h1 h2
    simp only [tgetRun, List.getElem_map, List.getElem_range, tget_tsetRun]
    rw [if_pos (by omega)]
    simp [h2]

end reads

/-! ### The canonical form -/

section canonical
variable {α : Type} [DecidableEq α]

theorem twfFrom_weaken (d : α) (t : Tbl α) : ∀ (a : Option Nat) (b : Nat), (∀ x, a = some x → x ≤ b) → twfFrom d (some b) t = true → twfFrom d a t = true := by
  cases t with
  | nil => intros; rfl
  | cons x t =>
    obtain ⟨j, v⟩ := x
    intro a b h hw
    simp only [twfFrom, Bool.and_eq_true, Bool.not_eq_true', decide_eq_false_iff_not, decide_eq_true_eq] at hw ⊢
    refine ⟨⟨?_, hw.1.2⟩, hw.2⟩
    cases a with
    | none => rfl
    | some c => have := h c rfl; simp; omega

theorem twfFrom_terase (d : α) (k : Nat) (t : Tbl α) : ∀ lo, twfFrom d lo t = true → twfFrom d lo (terase t k) = true := by
  induction t with
  | nil => intro lo h; exact h
  | cons x t ih =>
    obtain ⟨j, v⟩ := x
    intro lo h
    simp only [twfFrom, Bool.and_eq_true] at h
    obtain ⟨⟨h1, h2⟩, h3⟩ := h
    by_cases hj : j = k
    · simp only [terase, hj, if_true]
      cases lo with
      | none => exact ih none (twfFrom_weaken d t none j (by simp) h3)
      | some l =>
        refine ih (some l) (twfFrom_weaken d t (some l) j ?_ h3)
        intro x hx
        simp at h1 hx
        omega
    · simp only [terase, hj, if_false, twfFrom, Bool.and_eq_true]
      exact ⟨⟨h1, h2⟩, ih _ h3⟩

theorem twfFrom_tput (d : α) (k : Nat) (v : α) (hv : v ≠ d) (t : Tbl α) : ∀ lo, (∀ x, lo = some x → x < k) → twfFrom d lo t = true → twfFrom d lo (tput t k v) = true := by
  induction t with
  | nil =>
    intro lo h _
    cases lo with
    | none => simp [tput, twfFrom, hv]
    | some l => simp [tput, twfFrom, hv, h l rfl]
  | cons x t ih =>
    obtain ⟨j, u⟩ := x
    intro lo h hw
    simp only [twfFrom, Bool.and_eq_true, Bool.not_eq_true', decide_eq_false_iff_not] at hw
    obtain ⟨⟨h1, h2⟩, h3⟩ := hw
    simp only [tput]
    split
    · next hlt =>
      cases lo with
      | none => simp [twfFrom, hv, hlt, h2, h3]
      | some l => simp [twfFrom, hv, hlt, h2, h3, h l rfl]
    · split
      · next heq =>
        subst heq
        cases lo with
        | none => simp [twfFrom, hv, h3]
        | some l => simp [twfFrom, hv, h3, h l rfl]
      · next hlt hne =>
        simp only [twfFrom, Bool.and_eq_true, Bool.not_eq_true', decide_eq_false_iff_not]
        refine ⟨⟨h1, h2⟩, ih (some j) ?_ h3⟩
        intro x hx
        simp at hx
        omega

@[simp] theorem twf_nil (d : α) : twf d [] = true := rfl

/-- A write keeps the canonical form. -/
theorem twf_tset (d : α) (t : Tbl α) (k : Nat) (v : α) (h : twf d t = true) : twf d (tset d t k v) = true := by
  unfold tset
  split
  · exact twfFrom_terase d k t none h
  · next hv => exact twfFrom_tput d k v hv t none (by simp) h

theorem twf_tupd (d : α) (t : Tbl α) (k : Nat) (f : α → α) (h : twf d t = true) : twf d (tupd d t k f) = true :=
  twf_tset d t k _ h

theorem twf_tsetRun (d : α) (l : List α) : ∀ (t : Tbl α) (k : Nat), twf d t = true → twf d (tsetRun d t k l) = true := by
  induction l with
  | nil => intro t k h; exact h
  | cons v vs ih => intro t k h; exact ih _ _ (twf_tset d t k v h)

theorem twfFrom_filter (d : α) (f : Nat × α → Bool) (t : Tbl α) : ∀ lo, twfFrom d lo t = true → twfFrom d lo (t.filter f) = true := by
  induction t with
  | nil => intro lo h; exact h
  | cons x t ih =>
    obtain ⟨j, v⟩ := x
    intro lo h
    simp only [twfFrom, Bool.and_eq_true] at h
    obtain ⟨⟨h1, h2⟩, h3⟩ := h
    simp only [List.filter_cons]
    split
    · simp only [twfFrom, Bool.and_eq_true]
      exact ⟨⟨h1, h2⟩, ih _ h3⟩
    · cases lo with
      | none => exact ih none (twfFrom_weaken d t none j (by simp) h3)
      | some l =>
        refine ih (some l) (twfFrom_weaken d t (some l) j ?_ h3)
        intro x hx
        simp at h1 hx
        omega

/-- Dropping entries keeps the canonical form. -/
theorem twf_filter (d : α) (f : Nat × α → Bool) (t : Tbl α) (h : twf d t = true) : twf d (t.filter f) = true :=
  twfFrom_filter d f t none h

theorem twf_tOfList (d : α) (l : List α) : twf d (tOfList d l) = true := twf_tsetRun d l [] 0 rfl

end canonical

/-! ### Lists put in order -/

theorem mem_insertBy {α : Type} (le : α → α → Bool) (a x : α) (l : List α) : x ∈ insertBy le a l ↔ x = a ∨ x ∈ l := by
  induction l with
  | nil => simp [insertBy]
  | cons b l ih =>
    unfold insertBy
    split
    · simp
    · simp only [List.mem_cons, ih]
      constructor
      · rintro (h | h | h)
        · exact .inr (.inl h)
        · exact .inl h
        · exact .inr (.inr h)
      · rintro (h | h | h)
        · exact .inr (.inl h)
        · exact .inl h
        · exact .inr (.inr h)

@[simp] theorem mem_sortBy {α : Type} (le : α → α → Bool) (x : α) (l : List α) : x ∈ sortBy le l ↔ x ∈ l := by
  induction l with
  | nil => simp [sortBy]
  | cons a l ih => simp [sortBy, mem_insertBy, ih]

end Sys2Proof.Machine
end

