-- ==== Sys2Proof/Laws/State.lean ====
section
/-!
SUPPORT. What each named update of the state leaves alone, field by field, and what its own reader gives after it. Every lemma about an untouched field is true by computation; a later proof cites these and unfolds no record update.
-/

namespace Sys2Proof.Machine

/-! ### Untouched fields -/

section
variable (s : State) (r : Nat) (v : RidgeSt)
@[simp] theorem setR_pending : (setR s r v).pending = s.pending := rfl
@[simp] theorem setR_now : (setR s r v).now = s.now := rfl
@[simp] theorem setR_rclk : (setR s r v).rclk = s.rclk := rfl
@[simp] theorem setR_free : (setR s r v).free = s.free := rfl
@[simp] theorem setR_host : (setR s r v).host = s.host := rfl
@[simp] theorem setR_parts : (setR s r v).parts = s.parts := rfl
@[simp] theorem setR_jobs : (setR s r v).jobs = s.jobs := rfl
@[simp] theorem setR_progQueue : (setR s r v).progQueue = s.progQueue := rfl
@[simp] theorem setR_mem : (setR s r v).mem = s.mem := rfl
@[simp] theorem setR_arbs : (setR s r v).arbs = s.arbs := rfl
@[simp] theorem setR_starveLimit : (setR s r v).starveLimit = s.starveLimit := rfl
@[simp] theorem setR_col : (setR s r v).col = s.col := rfl
@[simp] theorem setR_ropes : (setR s r v).ropes = s.ropes := rfl
@[simp] theorem setR_links : (setR s r v).links = s.links := rfl
@[simp] theorem setR_integ : (setR s r v).integ = s.integ := rfl
@[simp] theorem setR_sec : (setR s r v).sec = s.sec := rfl
@[simp] theorem setR_clay : (setR s r v).clay = s.clay := rfl
@[simp] theorem setR_thermal : (setR s r v).thermal = s.thermal := rfl
@[simp] theorem setR_pmu : (setR s r v).pmu = s.pmu := rfl
@[simp] theorem setR_cmc : (setR s r v).cmc = s.cmc := rfl
@[simp] theorem setR_pins : (setR s r v).pins = s.pins := rfl
end

section
variable (s : State) (r : Nat) (f : RidgeSt → RidgeSt)
@[simp] theorem updR_pending : (updR s r f).pending = s.pending := rfl
@[simp] theorem updR_now : (updR s r f).now = s.now := rfl
@[simp] theorem updR_rclk : (updR s r f).rclk = s.rclk := rfl
@[simp] theorem updR_free : (updR s r f).free = s.free := rfl
@[simp] theorem updR_host : (updR s r f).host = s.host := rfl
@[simp] theorem updR_parts : (updR s r f).parts = s.parts := rfl
@[simp] theorem updR_jobs : (updR s r f).jobs = s.jobs := rfl
@[simp] theorem updR_progQueue : (updR s r f).progQueue = s.progQueue := rfl
@[simp] theorem updR_mem : (updR s r f).mem = s.mem := rfl
@[simp] theorem updR_arbs : (updR s r f).arbs = s.arbs := rfl
@[simp] theorem updR_starveLimit : (updR s r f).starveLimit = s.starveLimit := rfl
@[simp] theorem updR_col : (updR s r f).col = s.col := rfl
@[simp] theorem updR_ropes : (updR s r f).ropes = s.ropes := rfl
@[simp] theorem updR_links : (updR s r f).links = s.links := rfl
@[simp] theorem updR_integ : (updR s r f).integ = s.integ := rfl
@[simp] theorem updR_sec : (updR s r f).sec = s.sec := rfl
@[simp] theorem updR_clay : (updR s r f).clay = s.clay := rfl
@[simp] theorem updR_thermal : (updR s r f).thermal = s.thermal := rfl
@[simp] theorem updR_pmu : (updR s r f).pmu = s.pmu := rfl
@[simp] theorem updR_cmc : (updR s r f).cmc = s.cmc := rfl
@[simp] theorem updR_pins : (updR s r f).pins = s.pins := rfl
end

section
variable (s : State) (r t : Nat) (f : Tile → Tile)
@[simp] theorem updTile_pending : (updTile s r t f).pending = s.pending := rfl
@[simp] theorem updTile_now : (updTile s r t f).now = s.now := rfl
@[simp] theorem updTile_rclk : (updTile s r t f).rclk = s.rclk := rfl
@[simp] theorem updTile_free : (updTile s r t f).free = s.free := rfl
@[simp] theorem updTile_host : (updTile s r t f).host = s.host := rfl
@[simp] theorem updTile_parts : (updTile s r t f).parts = s.parts := rfl
@[simp] theorem updTile_jobs : (updTile s r t f).jobs = s.jobs := rfl
@[simp] theorem updTile_progQueue : (updTile s r t f).progQueue = s.progQueue := rfl
@[simp] theorem updTile_mem : (updTile s r t f).mem = s.mem := rfl
@[simp] theorem updTile_arbs : (updTile s r t f).arbs = s.arbs := rfl
@[simp] theorem updTile_starveLimit : (updTile s r t f).starveLimit = s.starveLimit := rfl
@[simp] theorem updTile_col : (updTile s r t f).col = s.col := rfl
@[simp] theorem updTile_ropes : (updTile s r t f).ropes = s.ropes := rfl
@[simp] theorem updTile_links : (updTile s r t f).links = s.links := rfl
@[simp] theorem updTile_integ : (updTile s r t f).integ = s.integ := rfl
@[simp] theorem updTile_sec : (updTile s r t f).sec = s.sec := rfl
@[simp] theorem updTile_clay : (updTile s r t f).clay = s.clay := rfl
@[simp] theorem updTile_thermal : (updTile s r t f).thermal = s.thermal := rfl
@[simp] theorem updTile_pmu : (updTile s r t f).pmu = s.pmu := rfl
@[simp] theorem updTile_cmc : (updTile s r t f).cmc = s.cmc := rfl
@[simp] theorem updTile_pins : (updTile s r t f).pins = s.pins := rfl
end

section
variable (s : State) (r p : Nat) (f : PosSt → PosSt)
@[simp] theorem updPos_pending : (updPos s r p f).pending = s.pending := rfl
@[simp] theorem updPos_now : (updPos s r p f).now = s.now := rfl
@[simp] theorem updPos_rclk : (updPos s r p f).rclk = s.rclk := rfl
@[simp] theorem updPos_free : (updPos s r p f).free = s.free := rfl
@[simp] theorem updPos_host : (updPos s r p f).host = s.host := rfl
@[simp] theorem updPos_parts : (updPos s r p f).parts = s.parts := rfl
@[simp] theorem updPos_jobs : (updPos s r p f).jobs = s.jobs := rfl
@[simp] theorem updPos_progQueue : (updPos s r p f).progQueue = s.progQueue := rfl
@[simp] theorem updPos_mem : (updPos s r p f).mem = s.mem := rfl
@[simp] theorem updPos_arbs : (updPos s r p f).arbs = s.arbs := rfl
@[simp] theorem updPos_starveLimit : (updPos s r p f).starveLimit = s.starveLimit := rfl
@[simp] theorem updPos_col : (updPos s r p f).col = s.col := rfl
@[simp] theorem updPos_ropes : (updPos s r p f).ropes = s.ropes := rfl
@[simp] theorem updPos_links : (updPos s r p f).links = s.links := rfl
@[simp] theorem updPos_integ : (updPos s r p f).integ = s.integ := rfl
@[simp] theorem updPos_sec : (updPos s r p f).sec = s.sec := rfl
@[simp] theorem updPos_clay : (updPos s r p f).clay = s.clay := rfl
@[simp] theorem updPos_thermal : (updPos s r p f).thermal = s.thermal := rfl
@[simp] theorem updPos_pmu : (updPos s r p f).pmu = s.pmu := rfl
@[simp] theorem updPos_cmc : (updPos s r p f).cmc = s.cmc := rfl
@[simp] theorem updPos_pins : (updPos s r p f).pins = s.pins := rfl
end

section
variable (s : State) (r k : Nat) (v : Slot)
@[simp] theorem setSlot_pending : (setSlot s r k v).pending = s.pending := rfl
@[simp] theorem setSlot_now : (setSlot s r k v).now = s.now := rfl
@[simp] theorem setSlot_rclk : (setSlot s r k v).rclk = s.rclk := rfl
@[simp] theorem setSlot_free : (setSlot s r k v).free = s.free := rfl
@[simp] theorem setSlot_host : (setSlot s r k v).host = s.host := rfl
@[simp] theorem setSlot_parts : (setSlot s r k v).parts = s.parts := rfl
@[simp] theorem setSlot_jobs : (setSlot s r k v).jobs = s.jobs := rfl
@[simp] theorem setSlot_progQueue : (setSlot s r k v).progQueue = s.progQueue := rfl
@[simp] theorem setSlot_mem : (setSlot s r k v).mem = s.mem := rfl
@[simp] theorem setSlot_arbs : (setSlot s r k v).arbs = s.arbs := rfl
@[simp] theorem setSlot_starveLimit : (setSlot s r k v).starveLimit = s.starveLimit := rfl
@[simp] theorem setSlot_col : (setSlot s r k v).col = s.col := rfl
@[simp] theorem setSlot_ropes : (setSlot s r k v).ropes = s.ropes := rfl
@[simp] theorem setSlot_links : (setSlot s r k v).links = s.links := rfl
@[simp] theorem setSlot_integ : (setSlot s r k v).integ = s.integ := rfl
@[simp] theorem setSlot_sec : (setSlot s r k v).sec = s.sec := rfl
@[simp] theorem setSlot_clay : (setSlot s r k v).clay = s.clay := rfl
@[simp] theorem setSlot_thermal : (setSlot s r k v).thermal = s.thermal := rfl
@[simp] theorem setSlot_pmu : (setSlot s r k v).pmu = s.pmu := rfl
@[simp] theorem setSlot_cmc : (setSlot s r k v).cmc = s.cmc := rfl
@[simp] theorem setSlot_pins : (setSlot s r k v).pins = s.pins := rfl
end

section
variable (s : State) (r p phys : Nat) (fenced : Bool)
@[simp] theorem setMap_pending : (setMap s r p phys fenced).pending = s.pending := rfl
@[simp] theorem setMap_now : (setMap s r p phys fenced).now = s.now := rfl
@[simp] theorem setMap_rclk : (setMap s r p phys fenced).rclk = s.rclk := rfl
@[simp] theorem setMap_free : (setMap s r p phys fenced).free = s.free := rfl
@[simp] theorem setMap_host : (setMap s r p phys fenced).host = s.host := rfl
@[simp] theorem setMap_parts : (setMap s r p phys fenced).parts = s.parts := rfl
@[simp] theorem setMap_jobs : (setMap s r p phys fenced).jobs = s.jobs := rfl
@[simp] theorem setMap_progQueue : (setMap s r p phys fenced).progQueue = s.progQueue := rfl
@[simp] theorem setMap_mem : (setMap s r p phys fenced).mem = s.mem := rfl
@[simp] theorem setMap_arbs : (setMap s r p phys fenced).arbs = s.arbs := rfl
@[simp] theorem setMap_starveLimit : (setMap s r p phys fenced).starveLimit = s.starveLimit := rfl
@[simp] theorem setMap_col : (setMap s r p phys fenced).col = s.col := rfl
@[simp] theorem setMap_ropes : (setMap s r p phys fenced).ropes = s.ropes := rfl
@[simp] theorem setMap_links : (setMap s r p phys fenced).links = s.links := rfl
@[simp] theorem setMap_integ : (setMap s r p phys fenced).integ = s.integ := rfl
@[simp] theorem setMap_sec : (setMap s r p phys fenced).sec = s.sec := rfl
@[simp] theorem setMap_clay : (setMap s r p phys fenced).clay = s.clay := rfl
@[simp] theorem setMap_thermal : (setMap s r p phys fenced).thermal = s.thermal := rfl
@[simp] theorem setMap_pmu : (setMap s r p phys fenced).pmu = s.pmu := rfl
@[simp] theorem setMap_cmc : (setMap s r p phys fenced).cmc = s.cmc := rfl
@[simp] theorem setMap_pins : (setMap s r p phys fenced).pins = s.pins := rfl
end

section
variable (s : State) (r : Nat) (x : Ctx) (f : CtxSt → CtxSt)
@[simp] theorem updCtx_pending : (updCtx s r x f).pending = s.pending := rfl
@[simp] theorem updCtx_now : (updCtx s r x f).now = s.now := rfl
@[simp] theorem updCtx_rclk : (updCtx s r x f).rclk = s.rclk := rfl
@[simp] theorem updCtx_free : (updCtx s r x f).free = s.free := rfl
@[simp] theorem updCtx_host : (updCtx s r x f).host = s.host := rfl
@[simp] theorem updCtx_parts : (updCtx s r x f).parts = s.parts := rfl
@[simp] theorem updCtx_jobs : (updCtx s r x f).jobs = s.jobs := rfl
@[simp] theorem updCtx_progQueue : (updCtx s r x f).progQueue = s.progQueue := rfl
@[simp] theorem updCtx_mem : (updCtx s r x f).mem = s.mem := rfl
@[simp] theorem updCtx_arbs : (updCtx s r x f).arbs = s.arbs := rfl
@[simp] theorem updCtx_starveLimit : (updCtx s r x f).starveLimit = s.starveLimit := rfl
@[simp] theorem updCtx_col : (updCtx s r x f).col = s.col := rfl
@[simp] theorem updCtx_ropes : (updCtx s r x f).ropes = s.ropes := rfl
@[simp] theorem updCtx_links : (updCtx s r x f).links = s.links := rfl
@[simp] theorem updCtx_integ : (updCtx s r x f).integ = s.integ := rfl
@[simp] theorem updCtx_sec : (updCtx s r x f).sec = s.sec := rfl
@[simp] theorem updCtx_clay : (updCtx s r x f).clay = s.clay := rfl
@[simp] theorem updCtx_thermal : (updCtx s r x f).thermal = s.thermal := rfl
@[simp] theorem updCtx_pmu : (updCtx s r x f).pmu = s.pmu := rfl
@[simp] theorem updCtx_cmc : (updCtx s r x f).cmc = s.cmc := rfl
@[simp] theorem updCtx_pins : (updCtx s r x f).pins = s.pins := rfl
end

section
variable (s : State) (p : Nat) (v : Part)
@[simp] theorem setP_pending : (setP s p v).pending = s.pending := rfl
@[simp] theorem setP_now : (setP s p v).now = s.now := rfl
@[simp] theorem setP_rclk : (setP s p v).rclk = s.rclk := rfl
@[simp] theorem setP_free : (setP s p v).free = s.free := rfl
@[simp] theorem setP_host : (setP s p v).host = s.host := rfl
@[simp] theorem setP_jobs : (setP s p v).jobs = s.jobs := rfl
@[simp] theorem setP_ridges : (setP s p v).ridges = s.ridges := rfl
@[simp] theorem setP_progQueue : (setP s p v).progQueue = s.progQueue := rfl
@[simp] theorem setP_mem : (setP s p v).mem = s.mem := rfl
@[simp] theorem setP_arbs : (setP s p v).arbs = s.arbs := rfl
@[simp] theorem setP_starveLimit : (setP s p v).starveLimit = s.starveLimit := rfl
@[simp] theorem setP_col : (setP s p v).col = s.col := rfl
@[simp] theorem setP_ropes : (setP s p v).ropes = s.ropes := rfl
@[simp] theorem setP_links : (setP s p v).links = s.links := rfl
@[simp] theorem setP_integ : (setP s p v).integ = s.integ := rfl
@[simp] theorem setP_sec : (setP s p v).sec = s.sec := rfl
@[simp] theorem setP_clay : (setP s p v).clay = s.clay := rfl
@[simp] theorem setP_thermal : (setP s p v).thermal = s.thermal := rfl
@[simp] theorem setP_pmu : (setP s p v).pmu = s.pmu := rfl
@[simp] theorem setP_cmc : (setP s p v).cmc = s.cmc := rfl
@[simp] theorem setP_pins : (setP s p v).pins = s.pins := rfl
end

section
variable (s : State) (p : Nat) (f : Part → Part)
@[simp] theorem updP_pending : (updP s p f).pending = s.pending := rfl
@[simp] theorem updP_now : (updP s p f).now = s.now := rfl
@[simp] theorem updP_rclk : (updP s p f).rclk = s.rclk := rfl
@[simp] theorem updP_free : (updP s p f).free = s.free := rfl
@[simp] theorem updP_host : (updP s p f).host = s.host := rfl
@[simp] theorem updP_jobs : (updP s p f).jobs = s.jobs := rfl
@[simp] theorem updP_ridges : (updP s p f).ridges = s.ridges := rfl
@[simp] theorem updP_progQueue : (updP s p f).progQueue = s.progQueue := rfl
@[simp] theorem updP_mem : (updP s p f).mem = s.mem := rfl
@[simp] theorem updP_arbs : (updP s p f).arbs = s.arbs := rfl
@[simp] theorem updP_starveLimit : (updP s p f).starveLimit = s.starveLimit := rfl
@[simp] theorem updP_col : (updP s p f).col = s.col := rfl
@[simp] theorem updP_ropes : (updP s p f).ropes = s.ropes := rfl
@[simp] theorem updP_links : (updP s p f).links = s.links := rfl
@[simp] theorem updP_integ : (updP s p f).integ = s.integ := rfl
@[simp] theorem updP_sec : (updP s p f).sec = s.sec := rfl
@[simp] theorem updP_clay : (updP s p f).clay = s.clay := rfl
@[simp] theorem updP_thermal : (updP s p f).thermal = s.thermal := rfl
@[simp] theorem updP_pmu : (updP s p f).pmu = s.pmu := rfl
@[simp] theorem updP_cmc : (updP s p f).cmc = s.cmc := rfl
@[simp] theorem updP_pins : (updP s p f).pins = s.pins := rfl
end

section
variable (s : State) (p : Nat) (id : W32) (f : Wset → Wset)
@[simp] theorem updWset_pending : (updWset s p id f).pending = s.pending := rfl
@[simp] theorem updWset_now : (updWset s p id f).now = s.now := rfl
@[simp] theorem updWset_rclk : (updWset s p id f).rclk = s.rclk := rfl
@[simp] theorem updWset_free : (updWset s p id f).free = s.free := rfl
@[simp] theorem updWset_host : (updWset s p id f).host = s.host := rfl
@[simp] theorem updWset_jobs : (updWset s p id f).jobs = s.jobs := rfl
@[simp] theorem updWset_ridges : (updWset s p id f).ridges = s.ridges := rfl
@[simp] theorem updWset_progQueue : (updWset s p id f).progQueue = s.progQueue := rfl
@[simp] theorem updWset_mem : (updWset s p id f).mem = s.mem := rfl
@[simp] theorem updWset_arbs : (updWset s p id f).arbs = s.arbs := rfl
@[simp] theorem updWset_starveLimit : (updWset s p id f).starveLimit = s.starveLimit := rfl
@[simp] theorem updWset_col : (updWset s p id f).col = s.col := rfl
@[simp] theorem updWset_ropes : (updWset s p id f).ropes = s.ropes := rfl
@[simp] theorem updWset_links : (updWset s p id f).links = s.links := rfl
@[simp] theorem updWset_integ : (updWset s p id f).integ = s.integ := rfl
@[simp] theorem updWset_sec : (updWset s p id f).sec = s.sec := rfl
@[simp] theorem updWset_clay : (updWset s p id f).clay = s.clay := rfl
@[simp] theorem updWset_thermal : (updWset s p id f).thermal = s.thermal := rfl
@[simp] theorem updWset_pmu : (updWset s p id f).pmu = s.pmu := rfl
@[simp] theorem updWset_cmc : (updWset s p id f).cmc = s.cmc := rfl
@[simp] theorem updWset_pins : (updWset s p id f).pins = s.pins := rfl
end

section
variable (s : State) (e : Nat) (v : Rope)
@[simp] theorem setRope_pending : (setRope s e v).pending = s.pending := rfl
@[simp] theorem setRope_now : (setRope s e v).now = s.now := rfl
@[simp] theorem setRope_rclk : (setRope s e v).rclk = s.rclk := rfl
@[simp] theorem setRope_free : (setRope s e v).free = s.free := rfl
@[simp] theorem setRope_host : (setRope s e v).host = s.host := rfl
@[simp] theorem setRope_parts : (setRope s e v).parts = s.parts := rfl
@[simp] theorem setRope_jobs : (setRope s e v).jobs = s.jobs := rfl
@[simp] theorem setRope_ridges : (setRope s e v).ridges = s.ridges := rfl
@[simp] theorem setRope_progQueue : (setRope s e v).progQueue = s.progQueue := rfl
@[simp] theorem setRope_mem : (setRope s e v).mem = s.mem := rfl
@[simp] theorem setRope_arbs : (setRope s e v).arbs = s.arbs := rfl
@[simp] theorem setRope_starveLimit : (setRope s e v).starveLimit = s.starveLimit := rfl
@[simp] theorem setRope_col : (setRope s e v).col = s.col := rfl
@[simp] theorem setRope_links : (setRope s e v).links = s.links := rfl
@[simp] theorem setRope_integ : (setRope s e v).integ = s.integ := rfl
@[simp] theorem setRope_sec : (setRope s e v).sec = s.sec := rfl
@[simp] theorem setRope_clay : (setRope s e v).clay = s.clay := rfl
@[simp] theorem setRope_thermal : (setRope s e v).thermal = s.thermal := rfl
@[simp] theorem setRope_pmu : (setRope s e v).pmu = s.pmu := rfl
@[simp] theorem setRope_cmc : (setRope s e v).cmc = s.cmc := rfl
@[simp] theorem setRope_pins : (setRope s e v).pins = s.pins := rfl
end

section
variable (s : State) (p : Port) (n : Nat) (f : FnRegs → FnRegs)
@[simp] theorem updFn_pending : (updFn s p n f).pending = s.pending := rfl
@[simp] theorem updFn_now : (updFn s p n f).now = s.now := rfl
@[simp] theorem updFn_rclk : (updFn s p n f).rclk = s.rclk := rfl
@[simp] theorem updFn_free : (updFn s p n f).free = s.free := rfl
@[simp] theorem updFn_parts : (updFn s p n f).parts = s.parts := rfl
@[simp] theorem updFn_jobs : (updFn s p n f).jobs = s.jobs := rfl
@[simp] theorem updFn_ridges : (updFn s p n f).ridges = s.ridges := rfl
@[simp] theorem updFn_progQueue : (updFn s p n f).progQueue = s.progQueue := rfl
@[simp] theorem updFn_mem : (updFn s p n f).mem = s.mem := rfl
@[simp] theorem updFn_arbs : (updFn s p n f).arbs = s.arbs := rfl
@[simp] theorem updFn_starveLimit : (updFn s p n f).starveLimit = s.starveLimit := rfl
@[simp] theorem updFn_col : (updFn s p n f).col = s.col := rfl
@[simp] theorem updFn_ropes : (updFn s p n f).ropes = s.ropes := rfl
@[simp] theorem updFn_links : (updFn s p n f).links = s.links := rfl
@[simp] theorem updFn_integ : (updFn s p n f).integ = s.integ := rfl
@[simp] theorem updFn_sec : (updFn s p n f).sec = s.sec := rfl
@[simp] theorem updFn_clay : (updFn s p n f).clay = s.clay := rfl
@[simp] theorem updFn_thermal : (updFn s p n f).thermal = s.thermal := rfl
@[simp] theorem updFn_pmu : (updFn s p n f).pmu = s.pmu := rfl
@[simp] theorem updFn_cmc : (updFn s p n f).cmc = s.cmc := rfl
@[simp] theorem updFn_pins : (updFn s p n f).pins = s.pins := rfl
end

section
variable (s : State) (p : Port) (f : PortSt → PortSt)
@[simp] theorem updPort_pending : (updPort s p f).pending = s.pending := by cases p <;> rfl
@[simp] theorem updPort_now : (updPort s p f).now = s.now := by cases p <;> rfl
@[simp] theorem updPort_rclk : (updPort s p f).rclk = s.rclk := by cases p <;> rfl
@[simp] theorem updPort_free : (updPort s p f).free = s.free := by cases p <;> rfl
@[simp] theorem updPort_parts : (updPort s p f).parts = s.parts := by cases p <;> rfl
@[simp] theorem updPort_jobs : (updPort s p f).jobs = s.jobs := by cases p <;> rfl
@[simp] theorem updPort_ridges : (updPort s p f).ridges = s.ridges := by cases p <;> rfl
@[simp] theorem updPort_progQueue : (updPort s p f).progQueue = s.progQueue := by cases p <;> rfl
@[simp] theorem updPort_mem : (updPort s p f).mem = s.mem := by cases p <;> rfl
@[simp] theorem updPort_arbs : (updPort s p f).arbs = s.arbs := by cases p <;> rfl
@[simp] theorem updPort_starveLimit : (updPort s p f).starveLimit = s.starveLimit := by cases p <;> rfl
@[simp] theorem updPort_col : (updPort s p f).col = s.col := by cases p <;> rfl
@[simp] theorem updPort_ropes : (updPort s p f).ropes = s.ropes := by cases p <;> rfl
@[simp] theorem updPort_links : (updPort s p f).links = s.links := by cases p <;> rfl
@[simp] theorem updPort_integ : (updPort s p f).integ = s.integ := by cases p <;> rfl
@[simp] theorem updPort_sec : (updPort s p f).sec = s.sec := by cases p <;> rfl
@[simp] theorem updPort_clay : (updPort s p f).clay = s.clay := by cases p <;> rfl
@[simp] theorem updPort_thermal : (updPort s p f).thermal = s.thermal := by cases p <;> rfl
@[simp] theorem updPort_pmu : (updPort s p f).pmu = s.pmu := by cases p <;> rfl
@[simp] theorem updPort_cmc : (updPort s p f).cmc = s.cmc := by cases p <;> rfl
@[simp] theorem updPort_pins : (updPort s p f).pins = s.pins := by cases p <;> rfl
end

section
variable (s : State) (q : QId) (v : Queue)
@[simp] theorem setQ_pending : (setQ s q v).pending = s.pending := by rcases q with (_ | _) | _ <;> rfl
@[simp] theorem setQ_now : (setQ s q v).now = s.now := by rcases q with (_ | _) | _ <;> rfl
@[simp] theorem setQ_rclk : (setQ s q v).rclk = s.rclk := by rcases q with (_ | _) | _ <;> rfl
@[simp] theorem setQ_free : (setQ s q v).free = s.free := by rcases q with (_ | _) | _ <;> rfl
@[simp] theorem setQ_parts : (setQ s q v).parts = s.parts := by rcases q with (_ | _) | _ <;> rfl
@[simp] theorem setQ_jobs : (setQ s q v).jobs = s.jobs := by rcases q with (_ | _) | _ <;> rfl
@[simp] theorem setQ_ridges : (setQ s q v).ridges = s.ridges := by rcases q with (_ | _) | _ <;> rfl
@[simp] theorem setQ_progQueue : (setQ s q v).progQueue = s.progQueue := by rcases q with (_ | _) | _ <;> rfl
@[simp] theorem setQ_mem : (setQ s q v).mem = s.mem := by rcases q with (_ | _) | _ <;> rfl
@[simp] theorem setQ_arbs : (setQ s q v).arbs = s.arbs := by rcases q with (_ | _) | _ <;> rfl
@[simp] theorem setQ_starveLimit : (setQ s q v).starveLimit = s.starveLimit := by rcases q with (_ | _) | _ <;> rfl
@[simp] theorem setQ_col : (setQ s q v).col = s.col := by rcases q with (_ | _) | _ <;> rfl
@[simp] theorem setQ_ropes : (setQ s q v).ropes = s.ropes := by rcases q with (_ | _) | _ <;> rfl
@[simp] theorem setQ_links : (setQ s q v).links = s.links := by rcases q with (_ | _) | _ <;> rfl
@[simp] theorem setQ_integ : (setQ s q v).integ = s.integ := by rcases q with (_ | _) | _ <;> rfl
@[simp] theorem setQ_sec : (setQ s q v).sec = s.sec := by rcases q with (_ | _) | _ <;> rfl
@[simp] theorem setQ_clay : (setQ s q v).clay = s.clay := by rcases q with (_ | _) | _ <;> rfl
@[simp] theorem setQ_thermal : (setQ s q v).thermal = s.thermal := by rcases q with (_ | _) | _ <;> rfl
@[simp] theorem setQ_pmu : (setQ s q v).pmu = s.pmu := by rcases q with (_ | _) | _ <;> rfl
@[simp] theorem setQ_cmc : (setQ s q v).cmc = s.cmc := by rcases q with (_ | _) | _ <;> rfl
@[simp] theorem setQ_pins : (setQ s q v).pins = s.pins := by rcases q with (_ | _) | _ <;> rfl
end

section
variable (s : State) (q : QId) (f : Queue → Queue)
@[simp] theorem updQ_pending : (updQ s q f).pending = s.pending := by rcases q with (_ | _) | _ <;> rfl
@[simp] theorem updQ_now : (updQ s q f).now = s.now := by rcases q with (_ | _) | _ <;> rfl
@[simp] theorem updQ_rclk : (updQ s q f).rclk = s.rclk := by rcases q with (_ | _) | _ <;> rfl
@[simp] theorem updQ_free : (updQ s q f).free = s.free := by rcases q with (_ | _) | _ <;> rfl
@[simp] theorem updQ_parts : (updQ s q f).parts = s.parts := by rcases q with (_ | _) | _ <;> rfl
@[simp] theorem updQ_jobs : (updQ s q f).jobs = s.jobs := by rcases q with (_ | _) | _ <;> rfl
@[simp] theorem updQ_ridges : (updQ s q f).ridges = s.ridges := by rcases q with (_ | _) | _ <;> rfl
@[simp] theorem updQ_progQueue : (updQ s q f).progQueue = s.progQueue := by rcases q with (_ | _) | _ <;> rfl
@[simp] theorem updQ_mem : (updQ s q f).mem = s.mem := by rcases q with (_ | _) | _ <;> rfl
@[simp] theorem updQ_arbs : (updQ s q f).arbs = s.arbs := by rcases q with (_ | _) | _ <;> rfl
@[simp] theorem updQ_starveLimit : (updQ s q f).starveLimit = s.starveLimit := by rcases q with (_ | _) | _ <;> rfl
@[simp] theorem updQ_col : (updQ s q f).col = s.col := by rcases q with (_ | _) | _ <;> rfl
@[simp] theorem updQ_ropes : (updQ s q f).ropes = s.ropes := by rcases q with (_ | _) | _ <;> rfl
@[simp] theorem updQ_links : (updQ s q f).links = s.links := by rcases q with (_ | _) | _ <;> rfl
@[simp] theorem updQ_integ : (updQ s q f).integ = s.integ := by rcases q with (_ | _) | _ <;> rfl
@[simp] theorem updQ_sec : (updQ s q f).sec = s.sec := by rcases q with (_ | _) | _ <;> rfl
@[simp] theorem updQ_clay : (updQ s q f).clay = s.clay := by rcases q with (_ | _) | _ <;> rfl
@[simp] theorem updQ_thermal : (updQ s q f).thermal = s.thermal := by rcases q with (_ | _) | _ <;> rfl
@[simp] theorem updQ_pmu : (updQ s q f).pmu = s.pmu := by rcases q with (_ | _) | _ <;> rfl
@[simp] theorem updQ_cmc : (updQ s q f).cmc = s.cmc := by rcases q with (_ | _) | _ <;> rfl
@[simp] theorem updQ_pins : (updQ s q f).pins = s.pins := by rcases q with (_ | _) | _ <;> rfl
end

section
variable (s : State) (p : Nat) (id : W32) (f : Job → Job)
@[simp] theorem updJob_pending : (updJob s p id f).pending = s.pending := rfl
@[simp] theorem updJob_now : (updJob s p id f).now = s.now := rfl
@[simp] theorem updJob_rclk : (updJob s p id f).rclk = s.rclk := rfl
@[simp] theorem updJob_free : (updJob s p id f).free = s.free := rfl
@[simp] theorem updJob_host : (updJob s p id f).host = s.host := rfl
@[simp] theorem updJob_parts : (updJob s p id f).parts = s.parts := rfl
@[simp] theorem updJob_ridges : (updJob s p id f).ridges = s.ridges := rfl
@[simp] theorem updJob_progQueue : (updJob s p id f).progQueue = s.progQueue := rfl
@[simp] theorem updJob_mem : (updJob s p id f).mem = s.mem := rfl
@[simp] theorem updJob_arbs : (updJob s p id f).arbs = s.arbs := rfl
@[simp] theorem updJob_starveLimit : (updJob s p id f).starveLimit = s.starveLimit := rfl
@[simp] theorem updJob_col : (updJob s p id f).col = s.col := rfl
@[simp] theorem updJob_ropes : (updJob s p id f).ropes = s.ropes := rfl
@[simp] theorem updJob_links : (updJob s p id f).links = s.links := rfl
@[simp] theorem updJob_integ : (updJob s p id f).integ = s.integ := rfl
@[simp] theorem updJob_sec : (updJob s p id f).sec = s.sec := rfl
@[simp] theorem updJob_clay : (updJob s p id f).clay = s.clay := rfl
@[simp] theorem updJob_thermal : (updJob s p id f).thermal = s.thermal := rfl
@[simp] theorem updJob_pmu : (updJob s p id f).pmu = s.pmu := rfl
@[simp] theorem updJob_cmc : (updJob s p id f).cmc = s.cmc := rfl
@[simp] theorem updJob_pins : (updJob s p id f).pins = s.pins := rfl
end

section
variable (s : State) (p : Nat) (id : W32)
@[simp] theorem dropJob_pending : (dropJob s p id).pending = s.pending := rfl
@[simp] theorem dropJob_now : (dropJob s p id).now = s.now := rfl
@[simp] theorem dropJob_rclk : (dropJob s p id).rclk = s.rclk := rfl
@[simp] theorem dropJob_free : (dropJob s p id).free = s.free := rfl
@[simp] theorem dropJob_host : (dropJob s p id).host = s.host := rfl
@[simp] theorem dropJob_parts : (dropJob s p id).parts = s.parts := rfl
@[simp] theorem dropJob_ridges : (dropJob s p id).ridges = s.ridges := rfl
@[simp] theorem dropJob_progQueue : (dropJob s p id).progQueue = s.progQueue := rfl
@[simp] theorem dropJob_mem : (dropJob s p id).mem = s.mem := rfl
@[simp] theorem dropJob_arbs : (dropJob s p id).arbs = s.arbs := rfl
@[simp] theorem dropJob_starveLimit : (dropJob s p id).starveLimit = s.starveLimit := rfl
@[simp] theorem dropJob_col : (dropJob s p id).col = s.col := rfl
@[simp] theorem dropJob_ropes : (dropJob s p id).ropes = s.ropes := rfl
@[simp] theorem dropJob_links : (dropJob s p id).links = s.links := rfl
@[simp] theorem dropJob_integ : (dropJob s p id).integ = s.integ := rfl
@[simp] theorem dropJob_sec : (dropJob s p id).sec = s.sec := rfl
@[simp] theorem dropJob_clay : (dropJob s p id).clay = s.clay := rfl
@[simp] theorem dropJob_thermal : (dropJob s p id).thermal = s.thermal := rfl
@[simp] theorem dropJob_pmu : (dropJob s p id).pmu = s.pmu := rfl
@[simp] theorem dropJob_cmc : (dropJob s p id).cmc = s.cmc := rfl
@[simp] theorem dropJob_pins : (dropJob s p id).pins = s.pins := rfl
end

section
variable (s : State)
@[simp] theorem useFree_pending : (useFree s).pending = s.pending := rfl
@[simp] theorem useFree_now : (useFree s).now = s.now := rfl
@[simp] theorem useFree_rclk : (useFree s).rclk = s.rclk := rfl
@[simp] theorem useFree_host : (useFree s).host = s.host := rfl
@[simp] theorem useFree_parts : (useFree s).parts = s.parts := rfl
@[simp] theorem useFree_jobs : (useFree s).jobs = s.jobs := rfl
@[simp] theorem useFree_ridges : (useFree s).ridges = s.ridges := rfl
@[simp] theorem useFree_progQueue : (useFree s).progQueue = s.progQueue := rfl
@[simp] theorem useFree_mem : (useFree s).mem = s.mem := rfl
@[simp] theorem useFree_arbs : (useFree s).arbs = s.arbs := rfl
@[simp] theorem useFree_starveLimit : (useFree s).starveLimit = s.starveLimit := rfl
@[simp] theorem useFree_col : (useFree s).col = s.col := rfl
@[simp] theorem useFree_ropes : (useFree s).ropes = s.ropes := rfl
@[simp] theorem useFree_links : (useFree s).links = s.links := rfl
@[simp] theorem useFree_integ : (useFree s).integ = s.integ := rfl
@[simp] theorem useFree_sec : (useFree s).sec = s.sec := rfl
@[simp] theorem useFree_clay : (useFree s).clay = s.clay := rfl
@[simp] theorem useFree_thermal : (useFree s).thermal = s.thermal := rfl
@[simp] theorem useFree_pmu : (useFree s).pmu = s.pmu := rfl
@[simp] theorem useFree_cmc : (useFree s).cmc = s.cmc := rfl
@[simp] theorem useFree_pins : (useFree s).pins = s.pins := rfl
end

section
variable (s : State) (k : Nat) (q : Req)
@[simp] theorem enq_pending : (enq s k q).pending = s.pending := rfl
@[simp] theorem enq_now : (enq s k q).now = s.now := rfl
@[simp] theorem enq_rclk : (enq s k q).rclk = s.rclk := rfl
@[simp] theorem enq_free : (enq s k q).free = s.free := rfl
@[simp] theorem enq_host : (enq s k q).host = s.host := rfl
@[simp] theorem enq_parts : (enq s k q).parts = s.parts := rfl
@[simp] theorem enq_jobs : (enq s k q).jobs = s.jobs := rfl
@[simp] theorem enq_ridges : (enq s k q).ridges = s.ridges := rfl
@[simp] theorem enq_progQueue : (enq s k q).progQueue = s.progQueue := rfl
@[simp] theorem enq_mem : (enq s k q).mem = s.mem := rfl
@[simp] theorem enq_arbs : (enq s k q).arbs = s.arbs := rfl
@[simp] theorem enq_starveLimit : (enq s k q).starveLimit = s.starveLimit := rfl
@[simp] theorem enq_ropes : (enq s k q).ropes = s.ropes := rfl
@[simp] theorem enq_links : (enq s k q).links = s.links := rfl
@[simp] theorem enq_integ : (enq s k q).integ = s.integ := rfl
@[simp] theorem enq_sec : (enq s k q).sec = s.sec := rfl
@[simp] theorem enq_clay : (enq s k q).clay = s.clay := rfl
@[simp] theorem enq_thermal : (enq s k q).thermal = s.thermal := rfl
@[simp] theorem enq_pmu : (enq s k q).pmu = s.pmu := rfl
@[simp] theorem enq_cmc : (enq s k q).cmc = s.cmc := rfl
@[simp] theorem enq_pins : (enq s k q).pins = s.pins := rfl
end

section
variable (s : State) (q : Req)
@[simp] theorem enqCore_pending : (enqCore s q).pending = s.pending := rfl
@[simp] theorem enqCore_now : (enqCore s q).now = s.now := rfl
@[simp] theorem enqCore_rclk : (enqCore s q).rclk = s.rclk := rfl
@[simp] theorem enqCore_host : (enqCore s q).host = s.host := rfl
@[simp] theorem enqCore_parts : (enqCore s q).parts = s.parts := rfl
@[simp] theorem enqCore_jobs : (enqCore s q).jobs = s.jobs := rfl
@[simp] theorem enqCore_ridges : (enqCore s q).ridges = s.ridges := rfl
@[simp] theorem enqCore_progQueue : (enqCore s q).progQueue = s.progQueue := rfl
@[simp] theorem enqCore_mem : (enqCore s q).mem = s.mem := rfl
@[simp] theorem enqCore_arbs : (enqCore s q).arbs = s.arbs := rfl
@[simp] theorem enqCore_starveLimit : (enqCore s q).starveLimit = s.starveLimit := rfl
@[simp] theorem enqCore_ropes : (enqCore s q).ropes = s.ropes := rfl
@[simp] theorem enqCore_links : (enqCore s q).links = s.links := rfl
@[simp] theorem enqCore_integ : (enqCore s q).integ = s.integ := rfl
@[simp] theorem enqCore_sec : (enqCore s q).sec = s.sec := rfl
@[simp] theorem enqCore_clay : (enqCore s q).clay = s.clay := rfl
@[simp] theorem enqCore_thermal : (enqCore s q).thermal = s.thermal := rfl
@[simp] theorem enqCore_pmu : (enqCore s q).pmu = s.pmu := rfl
@[simp] theorem enqCore_cmc : (enqCore s q).cmc = s.cmc := rfl
@[simp] theorem enqCore_pins : (enqCore s q).pins = s.pins := rfl
end

section
variable (s : State) (src ty cause part : Nat) (b : List Byte)
@[simp] theorem raise_pending : (raise s src ty cause part b).pending = s.pending := rfl
@[simp] theorem raise_now : (raise s src ty cause part b).now = s.now := rfl
@[simp] theorem raise_rclk : (raise s src ty cause part b).rclk = s.rclk := rfl
@[simp] theorem raise_free : (raise s src ty cause part b).free = s.free := rfl
@[simp] theorem raise_host : (raise s src ty cause part b).host = s.host := rfl
@[simp] theorem raise_parts : (raise s src ty cause part b).parts = s.parts := rfl
@[simp] theorem raise_jobs : (raise s src ty cause part b).jobs = s.jobs := rfl
@[simp] theorem raise_ridges : (raise s src ty cause part b).ridges = s.ridges := rfl
@[simp] theorem raise_progQueue : (raise s src ty cause part b).progQueue = s.progQueue := rfl
@[simp] theorem raise_mem : (raise s src ty cause part b).mem = s.mem := rfl
@[simp] theorem raise_arbs : (raise s src ty cause part b).arbs = s.arbs := rfl
@[simp] theorem raise_starveLimit : (raise s src ty cause part b).starveLimit = s.starveLimit := rfl
@[simp] theorem raise_ropes : (raise s src ty cause part b).ropes = s.ropes := rfl
@[simp] theorem raise_links : (raise s src ty cause part b).links = s.links := rfl
@[simp] theorem raise_integ : (raise s src ty cause part b).integ = s.integ := rfl
@[simp] theorem raise_sec : (raise s src ty cause part b).sec = s.sec := rfl
@[simp] theorem raise_clay : (raise s src ty cause part b).clay = s.clay := rfl
@[simp] theorem raise_thermal : (raise s src ty cause part b).thermal = s.thermal := rfl
@[simp] theorem raise_pmu : (raise s src ty cause part b).pmu = s.pmu := rfl
@[simp] theorem raise_cmc : (raise s src ty cause part b).cmc = s.cmc := rfl
@[simp] theorem raise_pins : (raise s src ty cause part b).pins = s.pins := rfl
end

section
variable (s : State) (ty cause part : Nat) (b : List Byte)
@[simp] theorem raiseCore_pending : (raiseCore s ty cause part b).pending = s.pending := rfl
@[simp] theorem raiseCore_now : (raiseCore s ty cause part b).now = s.now := rfl
@[simp] theorem raiseCore_rclk : (raiseCore s ty cause part b).rclk = s.rclk := rfl
@[simp] theorem raiseCore_host : (raiseCore s ty cause part b).host = s.host := rfl
@[simp] theorem raiseCore_parts : (raiseCore s ty cause part b).parts = s.parts := rfl
@[simp] theorem raiseCore_jobs : (raiseCore s ty cause part b).jobs = s.jobs := rfl
@[simp] theorem raiseCore_ridges : (raiseCore s ty cause part b).ridges = s.ridges := rfl
@[simp] theorem raiseCore_progQueue : (raiseCore s ty cause part b).progQueue = s.progQueue := rfl
@[simp] theorem raiseCore_mem : (raiseCore s ty cause part b).mem = s.mem := rfl
@[simp] theorem raiseCore_arbs : (raiseCore s ty cause part b).arbs = s.arbs := rfl
@[simp] theorem raiseCore_starveLimit : (raiseCore s ty cause part b).starveLimit = s.starveLimit := rfl
@[simp] theorem raiseCore_ropes : (raiseCore s ty cause part b).ropes = s.ropes := rfl
@[simp] theorem raiseCore_links : (raiseCore s ty cause part b).links = s.links := rfl
@[simp] theorem raiseCore_integ : (raiseCore s ty cause part b).integ = s.integ := rfl
@[simp] theorem raiseCore_sec : (raiseCore s ty cause part b).sec = s.sec := rfl
@[simp] theorem raiseCore_clay : (raiseCore s ty cause part b).clay = s.clay := rfl
@[simp] theorem raiseCore_thermal : (raiseCore s ty cause part b).thermal = s.thermal := rfl
@[simp] theorem raiseCore_pmu : (raiseCore s ty cause part b).pmu = s.pmu := rfl
@[simp] theorem raiseCore_cmc : (raiseCore s ty cause part b).cmc = s.cmc := rfl
@[simp] theorem raiseCore_pins : (raiseCore s ty cause part b).pins = s.pins := rfl
end

section
variable (s : State) (k : Nat) (c : Coal)
@[simp] theorem setCoal_pending : (setCoal s k c).pending = s.pending := rfl
@[simp] theorem setCoal_now : (setCoal s k c).now = s.now := rfl
@[simp] theorem setCoal_rclk : (setCoal s k c).rclk = s.rclk := rfl
@[simp] theorem setCoal_free : (setCoal s k c).free = s.free := rfl
@[simp] theorem setCoal_host : (setCoal s k c).host = s.host := rfl
@[simp] theorem setCoal_parts : (setCoal s k c).parts = s.parts := rfl
@[simp] theorem setCoal_jobs : (setCoal s k c).jobs = s.jobs := rfl
@[simp] theorem setCoal_ridges : (setCoal s k c).ridges = s.ridges := rfl
@[simp] theorem setCoal_progQueue : (setCoal s k c).progQueue = s.progQueue := rfl
@[simp] theorem setCoal_mem : (setCoal s k c).mem = s.mem := rfl
@[simp] theorem setCoal_arbs : (setCoal s k c).arbs = s.arbs := rfl
@[simp] theorem setCoal_starveLimit : (setCoal s k c).starveLimit = s.starveLimit := rfl
@[simp] theorem setCoal_ropes : (setCoal s k c).ropes = s.ropes := rfl
@[simp] theorem setCoal_links : (setCoal s k c).links = s.links := rfl
@[simp] theorem setCoal_integ : (setCoal s k c).integ = s.integ := rfl
@[simp] theorem setCoal_sec : (setCoal s k c).sec = s.sec := rfl
@[simp] theorem setCoal_clay : (setCoal s k c).clay = s.clay := rfl
@[simp] theorem setCoal_thermal : (setCoal s k c).thermal = s.thermal := rfl
@[simp] theorem setCoal_pmu : (setCoal s k c).pmu = s.pmu := rfl
@[simp] theorem setCoal_cmc : (setCoal s k c).cmc = s.cmc := rfl
@[simp] theorem setCoal_pins : (setCoal s k c).pins = s.pins := rfl
end

section
variable (s : State) (c : Cqe)
@[simp] theorem postCqe_pending : (postCqe s c).pending = s.pending := rfl
@[simp] theorem postCqe_now : (postCqe s c).now = s.now := rfl
@[simp] theorem postCqe_rclk : (postCqe s c).rclk = s.rclk := rfl
@[simp] theorem postCqe_host : (postCqe s c).host = s.host := rfl
@[simp] theorem postCqe_parts : (postCqe s c).parts = s.parts := rfl
@[simp] theorem postCqe_jobs : (postCqe s c).jobs = s.jobs := rfl
@[simp] theorem postCqe_ridges : (postCqe s c).ridges = s.ridges := rfl
@[simp] theorem postCqe_progQueue : (postCqe s c).progQueue = s.progQueue := rfl
@[simp] theorem postCqe_mem : (postCqe s c).mem = s.mem := rfl
@[simp] theorem postCqe_arbs : (postCqe s c).arbs = s.arbs := rfl
@[simp] theorem postCqe_starveLimit : (postCqe s c).starveLimit = s.starveLimit := rfl
@[simp] theorem postCqe_ropes : (postCqe s c).ropes = s.ropes := rfl
@[simp] theorem postCqe_links : (postCqe s c).links = s.links := rfl
@[simp] theorem postCqe_integ : (postCqe s c).integ = s.integ := rfl
@[simp] theorem postCqe_sec : (postCqe s c).sec = s.sec := rfl
@[simp] theorem postCqe_clay : (postCqe s c).clay = s.clay := rfl
@[simp] theorem postCqe_thermal : (postCqe s c).thermal = s.thermal := rfl
@[simp] theorem postCqe_pmu : (postCqe s c).pmu = s.pmu := rfl
@[simp] theorem postCqe_cmc : (postCqe s c).cmc = s.cmc := rfl
@[simp] theorem postCqe_pins : (postCqe s c).pins = s.pins := rfl
end

section
variable (s : State) (p : Port) (m : Tbl Byte)
@[simp] theorem setHostMem_pending : (setHostMem s p m).pending = s.pending := by cases p <;> rfl
@[simp] theorem setHostMem_now : (setHostMem s p m).now = s.now := by cases p <;> rfl
@[simp] theorem setHostMem_rclk : (setHostMem s p m).rclk = s.rclk := by cases p <;> rfl
@[simp] theorem setHostMem_free : (setHostMem s p m).free = s.free := by cases p <;> rfl
@[simp] theorem setHostMem_parts : (setHostMem s p m).parts = s.parts := by cases p <;> rfl
@[simp] theorem setHostMem_jobs : (setHostMem s p m).jobs = s.jobs := by cases p <;> rfl
@[simp] theorem setHostMem_ridges : (setHostMem s p m).ridges = s.ridges := by cases p <;> rfl
@[simp] theorem setHostMem_progQueue : (setHostMem s p m).progQueue = s.progQueue := by cases p <;> rfl
@[simp] theorem setHostMem_mem : (setHostMem s p m).mem = s.mem := by cases p <;> rfl
@[simp] theorem setHostMem_arbs : (setHostMem s p m).arbs = s.arbs := by cases p <;> rfl
@[simp] theorem setHostMem_starveLimit : (setHostMem s p m).starveLimit = s.starveLimit := by cases p <;> rfl
@[simp] theorem setHostMem_col : (setHostMem s p m).col = s.col := by cases p <;> rfl
@[simp] theorem setHostMem_ropes : (setHostMem s p m).ropes = s.ropes := by cases p <;> rfl
@[simp] theorem setHostMem_links : (setHostMem s p m).links = s.links := by cases p <;> rfl
@[simp] theorem setHostMem_integ : (setHostMem s p m).integ = s.integ := by cases p <;> rfl
@[simp] theorem setHostMem_sec : (setHostMem s p m).sec = s.sec := by cases p <;> rfl
@[simp] theorem setHostMem_clay : (setHostMem s p m).clay = s.clay := by cases p <;> rfl
@[simp] theorem setHostMem_thermal : (setHostMem s p m).thermal = s.thermal := by cases p <;> rfl
@[simp] theorem setHostMem_pmu : (setHostMem s p m).pmu = s.pmu := by cases p <;> rfl
@[simp] theorem setHostMem_cmc : (setHostMem s p m).cmc = s.cmc := by cases p <;> rfl
@[simp] theorem setHostMem_pins : (setHostMem s p m).pins = s.pins := by cases p <;> rfl
end

section
variable (s : State) (p : Port) (a : Nat) (d : List Byte)
@[simp] theorem hostWrite_pending : (hostWrite s p a d).pending = s.pending := by cases p <;> rfl
@[simp] theorem hostWrite_now : (hostWrite s p a d).now = s.now := by cases p <;> rfl
@[simp] theorem hostWrite_rclk : (hostWrite s p a d).rclk = s.rclk := by cases p <;> rfl
@[simp] theorem hostWrite_free : (hostWrite s p a d).free = s.free := by cases p <;> rfl
@[simp] theorem hostWrite_parts : (hostWrite s p a d).parts = s.parts := by cases p <;> rfl
@[simp] theorem hostWrite_jobs : (hostWrite s p a d).jobs = s.jobs := by cases p <;> rfl
@[simp] theorem hostWrite_ridges : (hostWrite s p a d).ridges = s.ridges := by cases p <;> rfl
@[simp] theorem hostWrite_progQueue : (hostWrite s p a d).progQueue = s.progQueue := by cases p <;> rfl
@[simp] theorem hostWrite_mem : (hostWrite s p a d).mem = s.mem := by cases p <;> rfl
@[simp] theorem hostWrite_arbs : (hostWrite s p a d).arbs = s.arbs := by cases p <;> rfl
@[simp] theorem hostWrite_starveLimit : (hostWrite s p a d).starveLimit = s.starveLimit := by cases p <;> rfl
@[simp] theorem hostWrite_col : (hostWrite s p a d).col = s.col := by cases p <;> rfl
@[simp] theorem hostWrite_ropes : (hostWrite s p a d).ropes = s.ropes := by cases p <;> rfl
@[simp] theorem hostWrite_links : (hostWrite s p a d).links = s.links := by cases p <;> rfl
@[simp] theorem hostWrite_integ : (hostWrite s p a d).integ = s.integ := by cases p <;> rfl
@[simp] theorem hostWrite_sec : (hostWrite s p a d).sec = s.sec := by cases p <;> rfl
@[simp] theorem hostWrite_clay : (hostWrite s p a d).clay = s.clay := by cases p <;> rfl
@[simp] theorem hostWrite_thermal : (hostWrite s p a d).thermal = s.thermal := by cases p <;> rfl
@[simp] theorem hostWrite_pmu : (hostWrite s p a d).pmu = s.pmu := by cases p <;> rfl
@[simp] theorem hostWrite_cmc : (hostWrite s p a d).cmc = s.cmc := by cases p <;> rfl
@[simp] theorem hostWrite_pins : (hostWrite s p a d).pins = s.pins := by cases p <;> rfl
end

section
variable (s : State) (a : Nat) (d : List Byte)
@[simp] theorem poolWrite_pending : (poolWrite s a d).pending = s.pending := rfl
@[simp] theorem poolWrite_now : (poolWrite s a d).now = s.now := rfl
@[simp] theorem poolWrite_rclk : (poolWrite s a d).rclk = s.rclk := rfl
@[simp] theorem poolWrite_free : (poolWrite s a d).free = s.free := rfl
@[simp] theorem poolWrite_parts : (poolWrite s a d).parts = s.parts := rfl
@[simp] theorem poolWrite_jobs : (poolWrite s a d).jobs = s.jobs := rfl
@[simp] theorem poolWrite_ridges : (poolWrite s a d).ridges = s.ridges := rfl
@[simp] theorem poolWrite_progQueue : (poolWrite s a d).progQueue = s.progQueue := rfl
@[simp] theorem poolWrite_mem : (poolWrite s a d).mem = s.mem := rfl
@[simp] theorem poolWrite_arbs : (poolWrite s a d).arbs = s.arbs := rfl
@[simp] theorem poolWrite_starveLimit : (poolWrite s a d).starveLimit = s.starveLimit := rfl
@[simp] theorem poolWrite_col : (poolWrite s a d).col = s.col := rfl
@[simp] theorem poolWrite_ropes : (poolWrite s a d).ropes = s.ropes := rfl
@[simp] theorem poolWrite_links : (poolWrite s a d).links = s.links := rfl
@[simp] theorem poolWrite_integ : (poolWrite s a d).integ = s.integ := rfl
@[simp] theorem poolWrite_sec : (poolWrite s a d).sec = s.sec := rfl
@[simp] theorem poolWrite_clay : (poolWrite s a d).clay = s.clay := rfl
@[simp] theorem poolWrite_thermal : (poolWrite s a d).thermal = s.thermal := rfl
@[simp] theorem poolWrite_pmu : (poolWrite s a d).pmu = s.pmu := rfl
@[simp] theorem poolWrite_cmc : (poolWrite s a d).cmc = s.cmc := rfl
@[simp] theorem poolWrite_pins : (poolWrite s a d).pins = s.pins := rfl
end

section
variable (s : State) (n : Nat)
@[simp] theorem dropCmd_pending : (dropCmd s n).pending = s.pending := rfl
@[simp] theorem dropCmd_now : (dropCmd s n).now = s.now := rfl
@[simp] theorem dropCmd_rclk : (dropCmd s n).rclk = s.rclk := rfl
@[simp] theorem dropCmd_free : (dropCmd s n).free = s.free := rfl
@[simp] theorem dropCmd_parts : (dropCmd s n).parts = s.parts := rfl
@[simp] theorem dropCmd_jobs : (dropCmd s n).jobs = s.jobs := rfl
@[simp] theorem dropCmd_ridges : (dropCmd s n).ridges = s.ridges := rfl
@[simp] theorem dropCmd_progQueue : (dropCmd s n).progQueue = s.progQueue := rfl
@[simp] theorem dropCmd_mem : (dropCmd s n).mem = s.mem := rfl
@[simp] theorem dropCmd_arbs : (dropCmd s n).arbs = s.arbs := rfl
@[simp] theorem dropCmd_starveLimit : (dropCmd s n).starveLimit = s.starveLimit := rfl
@[simp] theorem dropCmd_col : (dropCmd s n).col = s.col := rfl
@[simp] theorem dropCmd_ropes : (dropCmd s n).ropes = s.ropes := rfl
@[simp] theorem dropCmd_links : (dropCmd s n).links = s.links := rfl
@[simp] theorem dropCmd_integ : (dropCmd s n).integ = s.integ := rfl
@[simp] theorem dropCmd_sec : (dropCmd s n).sec = s.sec := rfl
@[simp] theorem dropCmd_clay : (dropCmd s n).clay = s.clay := rfl
@[simp] theorem dropCmd_thermal : (dropCmd s n).thermal = s.thermal := rfl
@[simp] theorem dropCmd_pmu : (dropCmd s n).pmu = s.pmu := rfl
@[simp] theorem dropCmd_cmc : (dropCmd s n).cmc = s.cmc := rfl
@[simp] theorem dropCmd_pins : (dropCmd s n).pins = s.pins := rfl
end

section
variable (s : State) (n : Nat)
@[simp] theorem busyCmd_pending : (busyCmd s n).pending = s.pending := rfl
@[simp] theorem busyCmd_now : (busyCmd s n).now = s.now := rfl
@[simp] theorem busyCmd_rclk : (busyCmd s n).rclk = s.rclk := rfl
@[simp] theorem busyCmd_free : (busyCmd s n).free = s.free := rfl
@[simp] theorem busyCmd_parts : (busyCmd s n).parts = s.parts := rfl
@[simp] theorem busyCmd_jobs : (busyCmd s n).jobs = s.jobs := rfl
@[simp] theorem busyCmd_ridges : (busyCmd s n).ridges = s.ridges := rfl
@[simp] theorem busyCmd_progQueue : (busyCmd s n).progQueue = s.progQueue := rfl
@[simp] theorem busyCmd_mem : (busyCmd s n).mem = s.mem := rfl
@[simp] theorem busyCmd_arbs : (busyCmd s n).arbs = s.arbs := rfl
@[simp] theorem busyCmd_starveLimit : (busyCmd s n).starveLimit = s.starveLimit := rfl
@[simp] theorem busyCmd_col : (busyCmd s n).col = s.col := rfl
@[simp] theorem busyCmd_ropes : (busyCmd s n).ropes = s.ropes := rfl
@[simp] theorem busyCmd_links : (busyCmd s n).links = s.links := rfl
@[simp] theorem busyCmd_integ : (busyCmd s n).integ = s.integ := rfl
@[simp] theorem busyCmd_sec : (busyCmd s n).sec = s.sec := rfl
@[simp] theorem busyCmd_clay : (busyCmd s n).clay = s.clay := rfl
@[simp] theorem busyCmd_thermal : (busyCmd s n).thermal = s.thermal := rfl
@[simp] theorem busyCmd_pmu : (busyCmd s n).pmu = s.pmu := rfl
@[simp] theorem busyCmd_cmc : (busyCmd s n).cmc = s.cmc := rfl
@[simp] theorem busyCmd_pins : (busyCmd s n).pins = s.pins := rfl
end

section
variable (s : State) (pa : Nat) (v : Bool)
@[simp] theorem dramPoison_pending : (dramPoison s pa v).pending = s.pending := rfl
@[simp] theorem dramPoison_now : (dramPoison s pa v).now = s.now := rfl
@[simp] theorem dramPoison_rclk : (dramPoison s pa v).rclk = s.rclk := rfl
@[simp] theorem dramPoison_free : (dramPoison s pa v).free = s.free := rfl
@[simp] theorem dramPoison_host : (dramPoison s pa v).host = s.host := rfl
@[simp] theorem dramPoison_parts : (dramPoison s pa v).parts = s.parts := rfl
@[simp] theorem dramPoison_jobs : (dramPoison s pa v).jobs = s.jobs := rfl
@[simp] theorem dramPoison_ridges : (dramPoison s pa v).ridges = s.ridges := rfl
@[simp] theorem dramPoison_progQueue : (dramPoison s pa v).progQueue = s.progQueue := rfl
@[simp] theorem dramPoison_arbs : (dramPoison s pa v).arbs = s.arbs := rfl
@[simp] theorem dramPoison_starveLimit : (dramPoison s pa v).starveLimit = s.starveLimit := rfl
@[simp] theorem dramPoison_col : (dramPoison s pa v).col = s.col := rfl
@[simp] theorem dramPoison_ropes : (dramPoison s pa v).ropes = s.ropes := rfl
@[simp] theorem dramPoison_links : (dramPoison s pa v).links = s.links := rfl
@[simp] theorem dramPoison_integ : (dramPoison s pa v).integ = s.integ := rfl
@[simp] theorem dramPoison_sec : (dramPoison s pa v).sec = s.sec := rfl
@[simp] theorem dramPoison_clay : (dramPoison s pa v).clay = s.clay := rfl
@[simp] theorem dramPoison_thermal : (dramPoison s pa v).thermal = s.thermal := rfl
@[simp] theorem dramPoison_pmu : (dramPoison s pa v).pmu = s.pmu := rfl
@[simp] theorem dramPoison_cmc : (dramPoison s pa v).cmc = s.cmc := rfl
@[simp] theorem dramPoison_pins : (dramPoison s pa v).pins = s.pins := rfl
end

section
variable (s : State) (pa : Nat) (d : List Byte)
@[simp] theorem dramPut_pending : (dramPut s pa d).pending = s.pending := rfl
@[simp] theorem dramPut_now : (dramPut s pa d).now = s.now := rfl
@[simp] theorem dramPut_rclk : (dramPut s pa d).rclk = s.rclk := rfl
@[simp] theorem dramPut_free : (dramPut s pa d).free = s.free := rfl
@[simp] theorem dramPut_host : (dramPut s pa d).host = s.host := rfl
@[simp] theorem dramPut_parts : (dramPut s pa d).parts = s.parts := rfl
@[simp] theorem dramPut_jobs : (dramPut s pa d).jobs = s.jobs := rfl
@[simp] theorem dramPut_ridges : (dramPut s pa d).ridges = s.ridges := rfl
@[simp] theorem dramPut_progQueue : (dramPut s pa d).progQueue = s.progQueue := rfl
@[simp] theorem dramPut_arbs : (dramPut s pa d).arbs = s.arbs := rfl
@[simp] theorem dramPut_starveLimit : (dramPut s pa d).starveLimit = s.starveLimit := rfl
@[simp] theorem dramPut_col : (dramPut s pa d).col = s.col := rfl
@[simp] theorem dramPut_ropes : (dramPut s pa d).ropes = s.ropes := rfl
@[simp] theorem dramPut_links : (dramPut s pa d).links = s.links := rfl
@[simp] theorem dramPut_integ : (dramPut s pa d).integ = s.integ := rfl
@[simp] theorem dramPut_sec : (dramPut s pa d).sec = s.sec := rfl
@[simp] theorem dramPut_clay : (dramPut s pa d).clay = s.clay := rfl
@[simp] theorem dramPut_thermal : (dramPut s pa d).thermal = s.thermal := rfl
@[simp] theorem dramPut_pmu : (dramPut s pa d).pmu = s.pmu := rfl
@[simp] theorem dramPut_cmc : (dramPut s pa d).cmc = s.cmc := rfl
@[simp] theorem dramPut_pins : (dramPut s pa d).pins = s.pins := rfl
end

/-! ### Reading what was written -/

section readers
variable (s : State)

@[simp] theorem getR_setR_self (r : Nat) (v : RidgeSt) : getR (setR s r v) r = v := by simp [getR, setR]
theorem getR_setR_ne (r q : Nat) (v : RidgeSt) (h : r ≠ q) : getR (setR s r v) q = getR s q := by simp [getR, setR, tget_tset_ne _ _ _ _ _ h]
@[simp] theorem getR_updR_self (r : Nat) (f : RidgeSt → RidgeSt) : getR (updR s r f) r = f (getR s r) := by simp [updR]
theorem getR_updR_ne (r q : Nat) (f : RidgeSt → RidgeSt) (h : r ≠ q) : getR (updR s r f) q = getR s q := getR_setR_ne s r q _ h
theorem getR_updR (r q : Nat) (f : RidgeSt → RidgeSt) : getR (updR s r f) q = if r = q then f (getR s r) else getR s q := by
  by_cases h : r = q
  · subst h; simp
  · simp [h, getR_updR_ne]

@[simp] theorem ctxOf_setCtx_self (rd : RidgeSt) (x : Ctx) (c : CtxSt) : ctxOf (setCtx rd x c) x = c := by cases x <;> rfl
theorem ctxOf_setCtx_ne (rd : RidgeSt) (x y : Ctx) (c : CtxSt) (h : x ≠ y) : ctxOf (setCtx rd x c) y = ctxOf rd y := by
  cases x <;> cases y <;> first | rfl | exact absurd rfl h
@[simp] theorem getR_updCtx_self (r : Nat) (x : Ctx) (f : CtxSt → CtxSt) : getR (updCtx s r x f) r = setCtx (getR s r) x (f (ctxOf (getR s r) x)) := by
  simp [updCtx]
theorem getR_updCtx_ne (r q : Nat) (x : Ctx) (f : CtxSt → CtxSt) (h : r ≠ q) : getR (updCtx s r x f) q = getR s q := getR_updR_ne s r q _ h

@[simp] theorem getTile_updTile_self (r t : Nat) (f : Tile → Tile) : getTile (updTile s r t f) r t = f (getTile s r t) := by
  simp [getTile, updTile, tileOf]
theorem getTile_updTile_ne (r t u : Nat) (f : Tile → Tile) (h : t ≠ u) : getTile (updTile s r t f) r u = getTile s r u := by
  simp [getTile, updTile, tileOf, tget_tupd_ne _ _ _ _ _ h]
theorem getTile_updR (r t : Nat) (f : RidgeSt → RidgeSt) (h : ∀ d, (f d).tiles = d.tiles) (q : Nat) : getTile (updR s r f) q t = getTile s q t := by
  by_cases hq : r = q
  · subst hq; simp [getTile, tileOf, h]
  · simp [getTile, getR_updR_ne _ _ _ _ hq]

@[simp] theorem getP_setP_self (p : Nat) (v : Part) : getP (setP s p v) p = v := by simp [getP, setP]
theorem getP_setP_ne (p q : Nat) (v : Part) (h : p ≠ q) : getP (setP s p v) q = getP s q := by simp [getP, setP, tget_tset_ne _ _ _ _ _ h]
@[simp] theorem getP_updP_self (p : Nat) (f : Part → Part) : getP (updP s p f) p = f (getP s p) := by simp [updP]
theorem getP_updP_ne (p q : Nat) (f : Part → Part) (h : p ≠ q) : getP (updP s p f) q = getP s q := getP_setP_ne s p q _ h

@[simp] theorem getRope_setRope_self (e : Nat) (v : Rope) : getRope (setRope s e v) e = v := by simp [getRope, setRope]
theorem getRope_setRope_ne (e g : Nat) (v : Rope) (h : e ≠ g) : getRope (setRope s e v) g = getRope s g := by
  simp [getRope, setRope, tget_tset_ne _ _ _ _ _ h]

@[simp] theorem getPort_updPort_self (p : Port) (f : PortSt → PortSt) : getPort (updPort s p f) p = f (getPort s p) := by cases p <;> rfl
theorem getPort_updPort_ne (p q : Port) (f : PortSt → PortSt) (h : p ≠ q) : getPort (updPort s p f) q = getPort s q := by
  cases p <;> cases q <;> first | rfl | exact absurd rfl h

@[simp] theorem getFn_updFn_self (p : Port) (n : Nat) (f : FnRegs → FnRegs) : getFn (updFn s p n f) p n = f (getFn s p n) := by
  simp [getFn, updFn]
theorem getFn_updFn_ne (p q : Port) (n m : Nat) (f : FnRegs → FnRegs) (h : fnKey p n ≠ fnKey q m) : getFn (updFn s p n f) q m = getFn s q m := by
  simp [getFn, updFn, tget_tupd_ne _ _ _ _ _ h]

@[simp] theorem getQ_setQ_self (q : QId) (v : Queue) : getQ (setQ s q v) q = v := by
  rcases q with (_ | _) | n <;> simp [getQ, setQ]
theorem getQ_setQ_ne (q u : QId) (v : Queue) (h : q ≠ u) : getQ (setQ s q v) u = getQ s u := by
  rcases q with (_ | _) | n <;> rcases u with (_ | _) | m <;> first | rfl | (exfalso; exact h rfl) | skip
  have : n ≠ m := fun e => h (by rw [e])
  simp [getQ, setQ, tget_tset_ne _ _ _ _ _ this]

/-- What a host writes is what a later read of the same bytes gives. -/
theorem hostRead_hostWrite (p : Port) (a : Nat) (d : List Byte) : hostRead (hostWrite s p a d) p a d.length = d := by
  cases p <;> simp [hostRead, hostWrite, hostMem, setHostMem, tgetRun_tsetRun]

/-- A source's requests stay in the order raised: a new one goes last. -/
@[simp] theorem srcQueue_enq_self (k : Nat) (q : Req) : srcQueue (enq s k q) k = srcQueue s k ++ [q] := by simp [srcQueue, enq]
theorem srcQueue_enq_ne (k m : Nat) (q : Req) (h : k ≠ m) : srcQueue (enq s k q) m = srcQueue s m := by
  simp [srcQueue, enq, tget_tset_ne _ _ _ _ _ h]

end readers

end Sys2Proof.Machine
end

