-- ==== Sys2Proof/Laws/Frames.lean ====
section
/-!
SUPPORT. Everything that the shared operations on the Col, the host pins and the completions can change, each as one equation: an event or a coalesced report changes the Col alone, attention and the pins the host's side alone, a completion these two and the counter of free values.
-/

namespace Sys2Proof.Machine

theorem raiseCoal_eq (s : State) (kind n v : Nat) (e : Ev) : raiseCoal s kind n v e = { s with col := (raiseCoal s kind n v e).col } := by
  unfold raiseCoal
  simp only
  split
  · split <;> rfl
  · rfl
theorem raise_eq (s : State) (src ty cause part : Nat) (d : List Byte) : raise s src ty cause part d = { s with col := (raise s src ty cause part d).col } := rfl
theorem raiseCore_eq (s : State) (ty cause part : Nat) (d : List Byte) :
    raiseCore s ty cause part d = { s with col := (raiseCore s ty cause part d).col, free := s.free + 1 } := rfl
theorem thermalCoal_eq (s : State) (src cause part v : Nat) (fs : List (Nat × Nat × Nat)) :
    thermalCoal s src cause part v fs = { s with col := (thermalCoal s src cause part v fs).col } := raiseCoal_eq ..
theorem powerLimit_eq (s : State) (row r mw : Nat) : powerLimit s row r mw = { s with col := (powerLimit s row r mw).col } := raiseCoal_eq ..

theorem updPort_eq (s : State) (p : Port) (f : PortSt → PortSt) : updPort s p f = { s with host := (updPort s p f).host } := by cases p <;> rfl
theorem sendMsix_eq (s : State) (p : Port) (f vec : Nat) : sendMsix s p f vec = { s with host := (sendMsix s p f vec).host } := by
  unfold sendMsix
  split
  · rfl
  · split <;> rfl
theorem hrdySync_eq (s : State) (p : Port) : hrdySync s p = { s with host := (hrdySync s p).host } := by
  unfold hrdySync
  simp only
  split
  · exact updPort_eq ..
  · split
    · exact updPort_eq ..
    · rfl
theorem pinSync_eq (s : State) : pinSync s = { s with host := (pinSync s).host } := by
  unfold pinSync
  rw [hrdySync_eq (hrdySync s .A), hrdySync_eq s]
theorem setAttn_eq (s : State) (p : Port) (i : Nat) : setAttn s p i = { s with host := (setAttn s p i).host } := by
  unfold setAttn
  simp only
  rw [hrdySync_eq]
  split
  · rw [sendMsix_eq, updPort_eq]
  · rw [updPort_eq]
theorem attnBoth_eq (s : State) (i : Nat) : attnBoth s i = { s with host := (attnBoth s i).host } := by
  unfold attnBoth
  rw [setAttn_eq (setAttn s .A i), setAttn_eq s]

/-- A completion posts a request to a core's source, drops the command and may move the pins. -/
theorem complete2_eq (s : State) (c : Cmd) (status res res2 : Nat) :
    complete2 s c status res res2 = { s with col := (complete2 s c status res res2).col, host := (complete2 s c status res res2).host, free := s.free + 1 } := by
  unfold complete2
  rw [pinSync_eq]
  rfl
theorem complete_eq (s : State) (c : Cmd) (status res : Nat) :
    complete s c status res = { s with col := (complete s c status res).col, host := (complete s c status res).host, free := s.free + 1 } := complete2_eq ..
theorem completeAt_eq (s : State) (q : QId) (cid : W16) (status res : Nat) :
    completeAt s q cid status res =
      { s with col := (completeAt s q cid status res).col, host := (completeAt s q cid status res).host, free := (completeAt s q cid status res).free } := by
  unfold completeAt
  split
  · rw [complete_eq]
  · rfl

theorem hotAssert_hot (s : State) (c : Nat) : (hotAssert s c).thermal.hot = true := by
  unfold hotAssert
  split
  · assumption
  · rw [attnBoth_eq]; rfl

end Sys2Proof.Machine
end

