-- ==== Sys2Proof/Laws/Issue.lean ====
section
/-!
SUPPORT. What issuing an instruction can do: the next state of an instruction that issues, and the frame of settling a context (SIGs fire, a HALT completes).
-/

namespace Sys2Proof.Machine

/-- An instruction that can issue, meets no fault at issue and has a next state goes on there, and its context settles. -/
theorem issue_next (s t : State) (r : Nat) (x : Ctx) (w : W128) (op : Nat) (body : State → Iss) (h1 : opOf w = op) (h2 : canIssue s r x w = true)
    (h3 : issueFault s r x w = none) (h4 : body s = .next t) : issue s r x w op body = .next (settleCtx (advance t r x) r x) := by
  simp [issue, h1, h2, h3, h4]

/-- An instruction that meets a fault at issue stops its stream there. -/
theorem issue_fault (s : State) (r : Nat) (x : Ctx) (w : W128) (op code : Nat) (body : State → Iss) (h1 : opOf w = op) (h2 : canIssue s r x w = true)
    (h3 : issueFault s r x w = some code) : issue s r x w op body = .next (faultAt s r x code (ctxOf (getR s r) x).pc) := by
  simp [issue, h1, h2, h3]

/-- Every meaning that goes through issue answers a next state. -/
theorem issue_runs (s : State) (r : Nat) (x : Ctx) (w : W128) (op : Nat) (body : State → Iss) : ∃ t, issue s r x w op body = .next t := by
  unfold issue
  split
  · split
    · exact ⟨_, rfl⟩
    · split <;> exact ⟨_, rfl⟩
  · exact ⟨_, rfl⟩

/-- What settling a context of ridge r leaves alone: everything but that ridge's window, counters, contexts and prefetchers, the jobs, and the SIGs on their way; the instruction indexes stay. -/
structure Settles (r : Nat) (s t : State) : Prop where
  state : t = { s with ridges := t.ridges, jobs := t.jobs, mem := { s.mem with sigs := t.mem.sigs, next := t.mem.next } }
  other : ∀ q, q ≠ r → getR t q = getR s q
  ridge : getR t r = { getR s r with win := (getR t r).win, cnt := (getR t r).cnt, jobCtx := (getR t r).jobCtx, svcCtx := (getR t r).svcCtx, prefetch := (getR t r).prefetch }
  pc : ∀ x, (ctxOf (getR t r) x).pc = (ctxOf (getR s r) x).pc

theorem Settles.refl (r : Nat) (s : State) : Settles r s s := ⟨rfl, fun _ _ => rfl, rfl, fun _ => rfl⟩

theorem Settles.trans {r : Nat} {s t u : State} (h : Settles r s t) (k : Settles r t u) : Settles r s u := by
  refine ⟨?_, fun q hq => (k.other q hq).trans (h.other q hq), ?_, fun x => (k.pc x).trans (h.pc x)⟩
  · have h1 := h.state
    have k1 := k.state
    rw [k1]
    rw [h1]
  · have h1 := h.ridge
    have k1 := k.ridge
    rw [k1]
    rw [h1]

/-- An update of ridge r's own settled fields. -/
theorem settles_updR (r : Nat) (s : State) (f : RidgeSt → RidgeSt)
    (h1 : f (getR s r) = { getR s r with win := (f (getR s r)).win, cnt := (f (getR s r)).cnt, jobCtx := (f (getR s r)).jobCtx, svcCtx := (f (getR s r)).svcCtx, prefetch := (f (getR s r)).prefetch })
    (h2 : ∀ x, (ctxOf (f (getR s r)) x).pc = (ctxOf (getR s r) x).pc) : Settles r s (updR s r f) := by
  refine ⟨rfl, fun q hq => getR_updR_ne s r q f (Ne.symm hq), ?_, ?_⟩ <;> simp only [getR_updR_self] <;> assumption

theorem settles_updJob (r : Nat) (s : State) (p : Nat) (id : W32) (f : Job → Job) : Settles r s (updJob s p id f) :=
  ⟨rfl, fun _ _ => rfl, rfl, fun _ => rfl⟩

theorem settles_sigs (r : Nat) (s : State) (l : List SigMsg) (n : Nat) : Settles r s { s with mem := { s.mem with sigs := l, next := n } } :=
  ⟨rfl, fun _ _ => rfl, rfl, fun _ => rfl⟩

theorem settles_cnt (r : Nat) (s : State) (c : RidgeSt → Tbl W32) : Settles r s (updR s r (fun rd => { rd with cnt := c rd })) :=
  settles_updR r s (fun rd => { rd with cnt := c rd }) rfl (fun x => by cases x <;> rfl)

theorem settles_win (r : Nat) (s : State) (c : RidgeSt → List Win) : Settles r s (updR s r (fun rd => { rd with win := c rd })) :=
  settles_updR r s (fun rd => { rd with win := c rd }) rfl (fun x => by cases x <;> rfl)

theorem settles_addCounter (r : Nat) (s : State) (p : Nat) (job : W32) (cnt : Nat) (v : W32) : Settles r s (addCounter s p job r cnt v) := by
  unfold addCounter
  split
  · exact settles_cnt r s (fun rd => tset 0 rd.cnt cnt (tget 0 rd.cnt cnt + v))
  · exact settles_updJob ..

theorem settles_sendSig (r : Nat) (s : State) (p : Nat) (id : W32) (q cnt : Nat) (v : W32) (win : Nat) : Settles r s (sendSig s p id r q cnt v win) := by
  unfold sendSig
  split
  · next h => subst h; exact settles_addCounter ..
  · exact settles_sigs ..

theorem settles_dropWin (r : Nat) (s : State) (id : Nat) : Settles r s (dropWin s r id) :=
  settles_win r s (fun rd => rd.win.filter (fun w => w.id ≠ id))

theorem settles_updWin (r : Nat) (s : State) (id : Nat) (f : Win → Win) : Settles r s (updWin s r id f) :=
  settles_win r s (fun rd => rd.win.map (fun w : Win => if w.id = id then f w else w))

theorem settles_fireSig (r : Nat) (s : State) (w : Win) : Settles r s (fireSig s r w) := by
  unfold fireSig
  simp only
  split
  · exact (settles_dropWin r s w.id).trans (settles_cnt r _ (fun rd => tset 0 rd.cnt (bits w.w 111 106) (tget 0 rd.cnt (bits w.w 111 106) + BitVec.ofNat 32 (bits w.w 99 68))))
  · split
    · exact settles_dropWin r s w.id
    · split
      · exact settles_dropWin r s w.id
      · split
        · exact (settles_dropWin r s w.id).trans (settles_sendSig ..)
        · exact (settles_sendSig ..).trans (settles_updWin ..)

theorem settles_endPart (r : Nat) (s : State) (code : W32) : Settles r s (endPart s r code) := by
  have h : Settles r s (updR s r (fun rd => { rd with jobCtx := { rd.jobCtx with run := false, halted := some code }, prefetch := [] })) :=
    settles_updR r s (fun rd => { rd with jobCtx := { rd.jobCtx with run := false, halted := some code }, prefetch := [] }) rfl (fun x => by cases x <;> rfl)
  unfold endPart
  simp only
  split
  · exact h.trans (settles_updJob ..)
  · exact h

theorem settles_haltService (r : Nat) (s : State) (code : W32) : Settles r s (updCtx s r .service (fun c => { c with halted := some code })) :=
  settles_updR r s (fun rd => setCtx rd .service { ctxOf rd .service with halted := some code }) rfl (fun x => by cases x <;> rfl)

theorem settles_aux (r : Nat) (x : Ctx) : ∀ (n : Nat) (s : State), Settles r s (settleCtxAux n s r x) := by
  intro n
  induction n with
  | zero => intro s; exact .refl r s
  | succ n ih =>
    intro s
    unfold settleCtxAux
    split
    · exact .refl r s
    · split
      · exact (settles_fireSig ..).trans (ih _)
      · split
        · cases x
          · exact (settles_dropWin ..).trans (settles_endPart ..)
          · exact (settles_dropWin ..).trans (settles_haltService ..)
        · exact .refl r s

/-- Settling a context. -/
theorem settles_settleCtx (s : State) (r : Nat) (x : Ctx) : Settles r s (settleCtx s r x) := settles_aux r x _ s

/-- With no instruction of the context issued and uncompleted there is nothing to settle. -/
theorem settleCtx_idle (s : State) (r : Nat) (x : Ctx) (h : ctxWin (getR s r) x = []) : settleCtx s r x = s := by
  unfold settleCtx settleCtxAux
  simp [h]

/-- A context whose first uncompleted instruction is neither SIG nor HALT has nothing to settle. -/
theorem settleCtx_waits (s : State) (r : Nat) (x : Ctx) (w : Win) (l : List Win) (h : ctxWin (getR s r) x = w :: l) (h1 : w.kind ≠ .sig) (h2 : w.kind ≠ .halt) :
    settleCtx s r x = s := by
  unfold settleCtx settleCtxAux
  simp [h, h1, h2]

/-- The next instruction: only the context's instruction index moves. -/
theorem advance_eq (s : State) (r : Nat) (x : Ctx) : advance s r x = { s with ridges := (advance s r x).ridges } := rfl

end Sys2Proof.Machine
end

