-- ==== Sys2Proof/Laws/Kept.lean ====
section
/-!
SUPPORT. What every operation of the block keeps, said once for each: run from a state t that agrees with s on the queue and the clocks and whose byte memories are canonical where those of s are, the operation answers a state of which the same holds. The lemmas of Laws/Kept*.lean go through the operations in the order of their definitions.
-/

namespace Sys2Proof.Machine

open Sys2Proof.Safety

/-- s and t have the same queue and clocks, and if the byte memories of s are canonical so are those of t. -/
structure Kept (s t : State) : Prop where
  clock : SameClock s t
  mems : MemoriesOk s → MemoriesOk t

/-- The same of an outcome: it holds of the next state, if that is the answer. -/
def KeptOut (s : State) (o : Out) : Prop := ∀ t, o = .next t → Kept s t

/-- The host's byte memories are canonical. -/
def HostOk (h : HostSide) : Prop := twf 0 h.memA = true ∧ twf 0 h.memB = true ∧ twf 0 h.pool = true

/-- A ridge's Loam is canonical. -/
def LoamOk (rd : RidgeSt) : Prop := twf none rd.loam = true

/-- Every ridge of a table has canonical Loam. -/
def RidgesOk (t : Tbl RidgeSt) : Prop := ∀ r, LoamOk (tget .reset t r)

theorem Kept.refl (s : State) : Kept s s := ⟨⟨rfl, rfl, rfl⟩, id⟩

theorem Kept.trans {s t u : State} (h : Kept s t) (g : Kept t u) : Kept s u :=
  ⟨⟨g.clock.pending.trans h.clock.pending, g.clock.now.trans h.clock.now, g.clock.rclk.trans h.clock.rclk⟩, fun m => g.mems (h.mems m)⟩

/-- Kept of a state written field by field, so that an update of a record is told from the state it updates. -/
def KeptFields (s : State) (pending : List Instr) (now rclk free : Nat) (host : HostSide) (parts : Tbl Part) (jobs : List Job) (ridges : Tbl RidgeSt)
    (progQueue : List ProgOp) (mem : MemSys) (arbs : Tbl Arb) (starveLimit : Nat) (col : Col) (ropes : Tbl Rope) (links : Links) (integ : Integ) (sec : Sec)
    (clay : Clay) (thermal : Thermal) (pmu : Pmu) (cmc : Cmc) (pins : Pins) : Prop :=
  Kept s (State.mk pending now rclk free host parts jobs ridges progQueue mem arbs starveLimit col ropes links integ sec clay thermal pmu cmc pins)

theorem Kept.fields {s : State} {pending : List Instr} {now rclk free : Nat} {host : HostSide} {parts : Tbl Part} {jobs : List Job} {ridges : Tbl RidgeSt}
    {progQueue : List ProgOp} {mem : MemSys} {arbs : Tbl Arb} {starveLimit : Nat} {col : Col} {ropes : Tbl Rope} {links : Links} {integ : Integ} {sec : Sec}
    {clay : Clay} {thermal : Thermal} {pmu : Pmu} {cmc : Cmc} {pins : Pins} :
    Kept s (State.mk pending now rclk free host parts jobs ridges progQueue mem arbs starveLimit col ropes links integ sec clay thermal pmu cmc pins) =
      KeptFields s pending now rclk free host parts jobs ridges progQueue mem arbs starveLimit col ropes links integ sec clay thermal pmu cmc pins := rfl

/-- Every update of a record that leaves the queue and the clocks, and keeps each byte memory canonical. -/
theorem Kept.upd {s t : State} {free : Nat} {host : HostSide} {parts : Tbl Part} {jobs : List Job} {ridges : Tbl RidgeSt} {progQueue : List ProgOp}
    {mem : MemSys} {arbs : Tbl Arb} {starveLimit : Nat} {col : Col} {ropes : Tbl Rope} {links : Links} {integ : Integ} {sec : Sec} {clay : Clay}
    {thermal : Thermal} {pmu : Pmu} {cmc : Cmc} {pins : Pins} (h : Kept s t) (hh : HostOk t.host → HostOk host) (hr : RidgesOk t.ridges → RidgesOk ridges)
    (hm : twf 0 t.mem.dram = true → twf 0 mem.dram = true) (hc : twf 0 t.clay.bytes = true → twf 0 clay.bytes = true) :
    KeptFields s t.pending t.now t.rclk free host parts jobs ridges progQueue mem arbs starveLimit col ropes links integ sec clay thermal pmu cmc pins :=
  ⟨⟨h.clock.pending, h.clock.now, h.clock.rclk⟩, fun m => by
    obtain ⟨l, a, b, p, d, c⟩ := h.mems m
    obtain ⟨a', b', p'⟩ := hh ⟨a, b, p⟩
    exact ⟨hr l, a', b', p', hm d, hc c⟩⟩

theorem Kept.foldl {α : Type} {s : State} {f : State → α → State} (hf : ∀ t x, Kept s t → Kept s (f t x)) :
    ∀ (l : List α) (t : State), Kept s t → Kept s (l.foldl f t)
  | [], _, h => h
  | x :: l, _, h => Kept.foldl hf l _ (hf _ x h)

theorem Kept.foldl_fst {α β : Type} {s : State} {f : State × β → α → State × β} (hf : ∀ t x, Kept s t.1 → Kept s (f t x).1) :
    ∀ (l : List α) (t : State × β), Kept s t.1 → Kept s (l.foldl f t).1
  | [], _, h => h
  | x :: l, _, h => Kept.foldl_fst hf l _ (hf _ x h)

theorem Kept.ite {s t u : State} {c : Prop} [Decidable c] (ht : Kept s t) (hu : Kept s u) : Kept s (if c then t else u) := by
  split
  · exact ht
  · exact hu

theorem Kept.of_fst {β : Type} {s t : State} {b : β} {p : State × β} (h : Kept s p.1) (e : p = (t, b)) : Kept s t := by
  subst e; exact h

theorem LoamOk.tset {rd : RidgeSt} {k : Nat} {v : Option Byte} (h : LoamOk rd) : twf none (Machine.tset none rd.loam k v) = true := twf_tset _ _ _ _ h

theorem RidgesOk.tset {t : Tbl RidgeSt} {k : Nat} {v : RidgeSt} (h : RidgesOk t) (hv : LoamOk v) : RidgesOk (tset .reset t k v) := by
  intro r
  rw [tget_tset]
  split
  · exact hv
  · exact h r

theorem LoamOk.reset : LoamOk .reset := rfl

theorem setR_kept {s t : State} {r : Nat} {v : RidgeSt} (h : Kept s t) (hv : RidgesOk t.ridges → LoamOk v) : Kept s (setR t r v) :=
  Kept.upd (t := t) h id (fun g => g.tset (hv g)) id id

theorem updR_kept {s t : State} {r : Nat} {f : RidgeSt → RidgeSt} (h : Kept s t) (hf : ∀ rd, LoamOk rd → LoamOk (f rd)) : Kept s (updR t r f) :=
  setR_kept h (fun g => hf _ (g r))

theorem RidgesOk.map {t : Tbl RidgeSt} {f : RidgeSt → RidgeSt} (hf : ∀ rd, LoamOk rd → LoamOk (f rd)) (h : RidgesOk t) : RidgesOk (t.map (fun x => (x.1, f x.2))) := by
  intro r
  have hr := h r
  unfold tget at hr ⊢
  have e : tfind (t.map (fun x => (x.1, f x.2))) r = (tfind t r).map f := by
    clear h hr
    induction t with
    | nil => rfl
    | cons x t ih =>
      obtain ⟨j, v⟩ := x
      simp only [List.map_cons, tfind]
      split
      · rfl
      · exact ih
  rw [e]
  cases h' : tfind t r with
  | none => exact LoamOk.reset
  | some v => rw [h'] at hr; exact hf v hr

theorem LoamOk.setCtx {rd : RidgeSt} {x : Ctx} {c : CtxSt} (h : LoamOk rd) : LoamOk (Machine.setCtx rd x c) := by
  cases x <;> exact h

theorem LoamOk.foldl {α : Type} {f : RidgeSt → α → RidgeSt} (hf : ∀ rd x, LoamOk rd → LoamOk (f rd x)) :
    ∀ (l : List α) (rd : RidgeSt), LoamOk rd → LoamOk (l.foldl f rd)
  | [], _, h => h
  | x :: l, _, h => LoamOk.foldl hf l _ (hf _ x h)

theorem LoamOk.loamPut {rd : RidgeSt} {o : Nat} {d : List Byte} {tag : W32} (h : LoamOk rd) : LoamOk (Machine.loamPut rd o d tag) := twf_tsetRun none _ _ _ h

theorem LoamOk.loamJunk {rd : RidgeSt} {o n gen : Nat} (h : LoamOk rd) : LoamOk (Machine.loamJunk rd o n gen) := twf_filter none _ _ h

theorem LoamOk.loamWrite {rd : RidgeSt} {o : Nat} {d : List Byte} {tag : W32} (h : LoamOk rd) : LoamOk (Machine.loamWrite rd o d tag).1 := by
  unfold Machine.loamWrite
  suffices ∀ (l : List (Nat × Nat)) (acc : RidgeSt × List Nat), LoamOk acc.1 → LoamOk (l.foldl _ acc).1 from this _ _ h
  intro l
  induction l with
  | nil => exact fun _ h => h
  | cons c l ih =>
    intro acc h
    refine ih _ ?_
    dsimp only
    split
    · exact LoamOk.loamPut h
    · split
      · exact h
      · exact LoamOk.loamPut h

/-! ### Answers that may carry a state: what holds of the state, if there is one -/

variable {P : State → Prop}

def OptAll (P : State → Prop) : Option State → Prop
  | some t => P t
  | none => True
def OptAllFst {α : Type} (P : State → Prop) : Option (State × α) → Prop
  | some t => P t.1
  | none => True
def DvaAll (P : State → Prop) : DvaRes → Prop
  | .wait t => P t
  | _ => True
def WhereAll (P : State → Prop) : Where → Prop
  | .wait t => P t
  | _ => True
def StgAll (P : State → Prop) : Stg → Prop
  | .gone t => P t
  | .staged t _ => P t
  | _ => True
def SegAll (P : State → Prop) : SegRes → Prop
  | .done t _ _ => P t
  | .wait t => P t
def DSrcAll (P : State → Prop) : DSrc → Prop
  | .wait t => P t
  | _ => True
def BResAll (P : State → Prop) : BRes → Prop
  | .stay t => P t
  | _ => True
def IssAll (P : State → Prop) : Iss → Prop
  | .next t => P t
  | .stay t => P t
  | _ => True

theorem OptAll.of_some {t : State} {o : Option State} (h : OptAll P o) (e : o = some t) : P t := by
  subst e; exact h
theorem OptAll.intro {t : State} (h : P t) : OptAll P (some t) := h
theorem OptAllFst.of_some {α : Type} {t : State} {a : α} {o : Option (State × α)} (h : OptAllFst P o) (e : o = some (t, a)) : P t := by
  subst e; exact h
theorem OptAllFst.intro {α : Type} {p : State × α} (h : P p.1) : OptAllFst P (some p) := h
theorem OptAll.getD {t : State} {o : Option State} (h : OptAll P o) (ht : P t) : P (o.getD t) := by
  cases o with
  | none => exact ht
  | some u => exact h
theorem DvaAll.wait {t : State} {o : DvaRes} (h : DvaAll P o) (e : o = .wait t) : P t := by
  subst e; exact h
theorem DvaAll.intro_wait {t : State} (h : P t) : DvaAll P (.wait t) := h
theorem WhereAll.wait {t : State} {o : Where} (h : WhereAll P o) (e : o = .wait t) : P t := by
  subst e; exact h
theorem WhereAll.intro_wait {t : State} (h : P t) : WhereAll P (.wait t) := h
theorem StgAll.gone {t : State} {o : Stg} (h : StgAll P o) (e : o = .gone t) : P t := by
  subst e; exact h
theorem StgAll.intro_gone {t : State} (h : P t) : StgAll P (.gone t) := h
theorem StgAll.staged {t : State} {e : Nat} {o : Stg} (h : StgAll P o) (e : o = .staged t e) : P t := by
  subst e; exact h
theorem StgAll.intro_staged {t : State} {e : Nat} (h : P t) : StgAll P (.staged t e) := h
theorem SegAll.done {t : State} {b : Bool} {n : Nat} {o : SegRes} (h : SegAll P o) (e : o = .done t b n) : P t := by
  subst e; exact h
theorem SegAll.intro_done {t : State} {b : Bool} {n : Nat} (h : P t) : SegAll P (.done t b n) := h
theorem SegAll.wait {t : State} {o : SegRes} (h : SegAll P o) (e : o = .wait t) : P t := by
  subst e; exact h
theorem SegAll.intro_wait {t : State} (h : P t) : SegAll P (.wait t) := h
theorem DSrcAll.wait {t : State} {o : DSrc} (h : DSrcAll P o) (e : o = .wait t) : P t := by
  subst e; exact h
theorem DSrcAll.intro_wait {t : State} (h : P t) : DSrcAll P (.wait t) := h
theorem BResAll.stay {t : State} {o : BRes} (h : BResAll P o) (e : o = .stay t) : P t := by
  subst e; exact h
theorem BResAll.intro_stay {t : State} (h : P t) : BResAll P (.stay t) := h
theorem IssAll.next {t : State} {o : Iss} (h : IssAll P o) (e : o = .next t) : P t := by
  subst e; exact h
theorem IssAll.intro_next {t : State} (h : P t) : IssAll P (.next t) := h
theorem IssAll.stay {t : State} {o : Iss} (h : IssAll P o) (e : o = .stay t) : P t := by
  subst e; exact h
theorem IssAll.intro_stay {t : State} (h : P t) : IssAll P (.stay t) := h

theorem KeptOut.next {s t : State} (h : Kept s t) : KeptOut s (.next t) := by
  intro u e
  injection e with e
  exact e ▸ h

end Sys2Proof.Machine
end

