-- ==== Sys2Proof/Laws/Only.lean ====
section
/-!
SUPPORT. Which parts of the state an operation may change, said once for each: run from a state t that agrees with s outside a list of areas, an operation whose own areas lie in that list answers a state of which the same holds. The lemmas of Laws/OnlyOps.lean and Laws/OnlyCommands.lean go through the operations in the order of their definitions.
-/

namespace Sys2Proof.Machine

open Sys2Proof.Safety

/-- t agrees with s on every area that S does not list. -/
def Only (S : List Area) (s t : State) : Prop := ∀ a, a ∉ S → Same s t a

/-- The same of an outcome: it holds of the next state, if that is the answer. -/
def OnlyOut (S : List Area) (s : State) (o : Out) : Prop := ∀ t, o = .next t → Only S s t

/-- S lists every area of l. -/
def Covers (S l : List Area) : Prop := ∀ a, a ∈ l → a ∈ S

theorem Covers.self (l : List Area) : Covers l l := fun _ h => h

theorem Covers.mono {S l k : List Area} (h : Covers S l) (e : k.all (fun a => l.contains a) = true) : Covers S k := fun a ha =>
  h a (List.contains_iff_mem.mp (List.all_eq_true.mp e a ha))

theorem Covers.mem {S l : List Area} {a : Area} (h : Covers S l) (e : l.contains a = true) : a ∈ S := h a (List.contains_iff_mem.mp e)

/-- A ridge agrees with another on the areas of a ridge that S does not list. -/
structure RidgeOnly (S : List Area) (a b : RidgeSt) : Prop where
  tiles : .tiles ∈ S ∨ b.tiles = a.tiles
  loam : .loam ∈ S ∨ (b.loam = a.loam ∧ b.junk = a.junk ∧ b.poison = a.poison ∧ b.tags = a.tags)
  slots : .slots ∈ S ∨ (b.slots = a.slots ∧ b.pos = a.pos)
  rest : .ridges ∈ S ∨ ridgeRest b = ridgeRest a

theorem RidgeOnly.refl {S : List Area} (a : RidgeSt) : RidgeOnly S a a := ⟨.inr rfl, .inr ⟨rfl, rfl, rfl, rfl⟩, .inr ⟨rfl, rfl⟩, .inr rfl⟩

theorem RidgeOnly.trans {S : List Area} {a b c : RidgeSt} (h : RidgeOnly S a b) (g : RidgeOnly S b c) : RidgeOnly S a c := by
  refine ⟨?_, ?_, ?_, ?_⟩
  · exact h.tiles.elim .inl (fun x => g.tiles.imp_right (fun y => y.trans x))
  · exact h.loam.elim .inl (fun x => g.loam.imp_right (fun y => ⟨y.1.trans x.1, y.2.1.trans x.2.1, y.2.2.1.trans x.2.2.1, y.2.2.2.trans x.2.2.2⟩))
  · exact h.slots.elim .inl (fun x => g.slots.imp_right (fun y => ⟨y.1.trans x.1, y.2.trans x.2⟩))
  · exact h.rest.elim .inl (fun x => g.rest.imp_right (fun y => y.trans x))

/-- Every update of a ridge's record. -/
theorem RidgeOnly.upd {S : List Area} {a b c : RidgeSt} (h : RidgeOnly S a b) (ht : .tiles ∈ S ∨ c.tiles = b.tiles)
    (hl : .loam ∈ S ∨ (c.loam = b.loam ∧ c.junk = b.junk ∧ c.poison = b.poison ∧ c.tags = b.tags)) (hs : .slots ∈ S ∨ (c.slots = b.slots ∧ c.pos = b.pos))
    (hr : .ridges ∈ S ∨ ridgeRest c = ridgeRest b) : RidgeOnly S a c := h.trans ⟨ht, hl, hs, hr⟩

theorem RidgeOnly.foldl {α : Type} {S : List Area} {a : RidgeSt} {f : RidgeSt → α → RidgeSt} (hf : ∀ rd x, RidgeOnly S a rd → RidgeOnly S a (f rd x)) :
    ∀ (l : List α) (rd : RidgeSt), RidgeOnly S a rd → RidgeOnly S a (l.foldl f rd)
  | [], _, h => h
  | x :: l, _, h => RidgeOnly.foldl hf l _ (hf _ x h)

theorem Only.refl {S : List Area} (s : State) : Only S s s := by
  intro a _
  cases a <;> simp [Same]

/-- An agreement on tables of ridges, one ridge at a time. -/
def RidgesOnly (S : List Area) (t u : Tbl RidgeSt) : Prop := ∀ r, RidgeOnly S (tget .reset t r) (tget .reset u r)

/-- Only of a state written field by field, so that an update of a record is told from the state it updates. -/
def OnlyFields (S : List Area) (s : State) (pending : List Instr) (now rclk free : Nat) (host : HostSide) (parts : Tbl Part) (jobs : List Job) (ridges : Tbl RidgeSt)
    (progQueue : List ProgOp) (mem : MemSys) (arbs : Tbl Arb) (starveLimit : Nat) (col : Col) (ropes : Tbl Rope) (links : Links) (integ : Integ) (sec : Sec)
    (clay : Clay) (thermal : Thermal) (pmu : Pmu) (cmc : Cmc) (pins : Pins) : Prop :=
  Only S s (State.mk pending now rclk free host parts jobs ridges progQueue mem arbs starveLimit col ropes links integ sec clay thermal pmu cmc pins)

theorem Only.fields {S : List Area} {s : State} {pending : List Instr} {now rclk free : Nat} {host : HostSide} {parts : Tbl Part} {jobs : List Job} {ridges : Tbl RidgeSt}
    {progQueue : List ProgOp} {mem : MemSys} {arbs : Tbl Arb} {starveLimit : Nat} {col : Col} {ropes : Tbl Rope} {links : Links} {integ : Integ} {sec : Sec}
    {clay : Clay} {thermal : Thermal} {pmu : Pmu} {cmc : Cmc} {pins : Pins} :
    Only S s (State.mk pending now rclk free host parts jobs ridges progQueue mem arbs starveLimit col ropes links integ sec clay thermal pmu cmc pins) =
      OnlyFields S s pending now rclk free host parts jobs ridges progQueue mem arbs starveLimit col ropes links integ sec clay thermal pmu cmc pins := rfl

/-- Every update of a record: each area it touches is listed. -/
theorem Only.upd {S : List Area} {s t : State} {free : Nat} {host : HostSide} {parts : Tbl Part} {jobs : List Job} {ridges : Tbl RidgeSt}
    {progQueue : List ProgOp} {mem : MemSys} {arbs : Tbl Arb} {starveLimit : Nat} {col : Col} {ropes : Tbl Rope} {links : Links} {integ : Integ} {sec : Sec} {clay : Clay}
    {thermal : Thermal} {pmu : Pmu} {cmc : Cmc} {pins : Pins} (h : Only S s t)
    (h1 : .hostMemory ∈ S ∨ (host.memA = t.host.memA ∧ host.memB = t.host.memB)) (h2 : .pool ∈ S ∨ host.pool = t.host.pool)
    (h3 : .host ∈ S ∨ ({ host with memA := [], memB := [], pool := [] } : HostSide) = { t.host with memA := [], memB := [], pool := [] })
    (h4 : .parts ∈ S ∨ parts = t.parts) (h5 : .jobs ∈ S ∨ jobs = t.jobs) (h6 : RidgesOnly S t.ridges ridges) (h7 : .programming ∈ S ∨ progQueue = t.progQueue)
    (h8 : .localMemory ∈ S ∨ (mem.dram = t.mem.dram ∧ mem.poison = t.mem.poison))
    (h9 : .path ∈ S ∨ ({ mem with dram := [], poison := [] } : MemSys) = { t.mem with dram := [], poison := [] })
    (h10 : .arbiters ∈ S ∨ (arbs = t.arbs ∧ starveLimit = t.starveLimit)) (h11 : .col ∈ S ∨ col = t.col) (h12 : .ropes ∈ S ∨ ropes = t.ropes)
    (h13 : .links ∈ S ∨ links = t.links) (h14 : .integrity ∈ S ∨ integ = t.integ) (h15 : .security ∈ S ∨ sec = t.sec)
    (h16 : .clayBytes ∈ S ∨ (clay.bytes = t.clay.bytes ∧ clay.ue = t.clay.ue))
    (h17 : .clay ∈ S ∨ ({ clay with bytes := [], ue := [] } : Clay) = { t.clay with bytes := [], ue := [] })
    (h18 : .thermal ∈ S ∨ thermal = t.thermal) (h19 : .pmu ∈ S ∨ pmu = t.pmu) (h20 : .cmc ∈ S ∨ cmc = t.cmc) (h21 : .pins ∈ S ∨ pins = t.pins) :
    OnlyFields S s t.pending t.now t.rclk free host parts jobs ridges progQueue mem arbs starveLimit col ropes links integ sec clay thermal pmu cmc pins := by
  intro a ha
  have k := h a ha
  cases a with
  | hostMemory => obtain ⟨x, y⟩ := h1.resolve_left ha; exact ⟨x.trans k.1, y.trans k.2⟩
  | pool => exact (h2.resolve_left ha).trans k
  | host => exact (h3.resolve_left ha).trans k
  | parts => exact (h4.resolve_left ha).trans k
  | jobs => exact (h5.resolve_left ha).trans k
  | tiles => exact fun r => ((h6 r).tiles.resolve_left ha).trans (k r)
  | loam =>
    intro r
    obtain ⟨x, y, z, w⟩ := (h6 r).loam.resolve_left ha
    exact ⟨x.trans (k r).1, y.trans (k r).2.1, z.trans (k r).2.2.1, w.trans (k r).2.2.2⟩
  | slots => intro r; obtain ⟨x, y⟩ := (h6 r).slots.resolve_left ha; exact ⟨x.trans (k r).1, y.trans (k r).2⟩
  | ridges => exact fun r => ((h6 r).rest.resolve_left ha).trans (k r)
  | programming => exact (h7.resolve_left ha).trans k
  | localMemory => obtain ⟨x, y⟩ := h8.resolve_left ha; exact ⟨x.trans k.1, y.trans k.2⟩
  | path => exact (h9.resolve_left ha).trans k
  | arbiters => obtain ⟨x, y⟩ := h10.resolve_left ha; exact ⟨x.trans k.1, y.trans k.2⟩
  | col => exact (h11.resolve_left ha).trans k
  | ropes => exact (h12.resolve_left ha).trans k
  | links => exact (h13.resolve_left ha).trans k
  | integrity => exact (h14.resolve_left ha).trans k
  | security => exact (h15.resolve_left ha).trans k
  | clayBytes => obtain ⟨x, y⟩ := h16.resolve_left ha; exact ⟨x.trans k.1, y.trans k.2⟩
  | clay => exact (h17.resolve_left ha).trans k
  | thermal => exact (h18.resolve_left ha).trans k
  | pmu => exact (h19.resolve_left ha).trans k
  | cmc => exact (h20.resolve_left ha).trans k
  | pins => exact (h21.resolve_left ha).trans k

theorem RidgesOnly.refl {S : List Area} (t : Tbl RidgeSt) : RidgesOnly S t t := fun _ => .refl _

theorem RidgesOnly.tset {S : List Area} {t : Tbl RidgeSt} {k : Nat} {v : RidgeSt} (hv : RidgeOnly S (tget .reset t k) v) : RidgesOnly S t (tset .reset t k v) := by
  intro r
  rw [tget_tset]
  split
  · next h => subst h; exact hv
  · exact .refl _

theorem RidgesOnly.map {S : List Area} {t : Tbl RidgeSt} {f : RidgeSt → RidgeSt} (hf : ∀ rd, RidgeOnly S rd (f rd)) : RidgesOnly S t (t.map (fun x => (x.1, f x.2))) := by
  intro r
  unfold tget
  have e : tfind (t.map (fun x => (x.1, f x.2))) r = (tfind t r).map f := by
    induction t with
    | nil => rfl
    | cons x t ih =>
      obtain ⟨j, v⟩ := x
      simp only [List.map_cons, tfind]
      split
      · rfl
      · exact ih
  rw [e]
  cases tfind t r with
  | none => exact .refl _
  | some v => exact hf v

theorem setR_only {S : List Area} {s t : State} {r : Nat} {v : RidgeSt} (h : Only S s t) (hv : RidgeOnly S (getR t r) v) : Only S s (setR t r v) :=
  Only.upd (t := t) h (.inr ⟨rfl, rfl⟩) (.inr rfl) (.inr rfl) (.inr rfl) (.inr rfl) (RidgesOnly.tset hv) (.inr rfl) (.inr ⟨rfl, rfl⟩) (.inr rfl) (.inr ⟨rfl, rfl⟩) (.inr rfl) (.inr rfl)
    (.inr rfl) (.inr rfl) (.inr rfl) (.inr ⟨rfl, rfl⟩) (.inr rfl) (.inr rfl) (.inr rfl) (.inr rfl) (.inr rfl)

theorem updR_only {S : List Area} {s t : State} {r : Nat} {f : RidgeSt → RidgeSt} (h : Only S s t) (hf : ∀ rd, RidgeOnly S rd (f rd)) : Only S s (updR t r f) :=
  setR_only h (hf _)

theorem Only.ite {S : List Area} {s t u : State} {c : Prop} [Decidable c] (ht : Only S s t) (hu : Only S s u) : Only S s (if c then t else u) := by
  split
  · exact ht
  · exact hu

theorem Only.foldl {α : Type} {S : List Area} {s : State} {f : State → α → State} (hf : ∀ t x, Only S s t → Only S s (f t x)) :
    ∀ (l : List α) (t : State), Only S s t → Only S s (l.foldl f t)
  | [], _, h => h
  | x :: l, _, h => Only.foldl hf l _ (hf _ x h)

theorem Only.foldl_fst {α β : Type} {S : List Area} {s : State} {f : State × β → α → State × β} (hf : ∀ t x, Only S s t.1 → Only S s (f t x).1) :
    ∀ (l : List α) (t : State × β), Only S s t.1 → Only S s (l.foldl f t).1
  | [], _, h => h
  | x :: l, _, h => Only.foldl_fst hf l _ (hf _ x h)

theorem Only.of_fst {β : Type} {S : List Area} {s t : State} {b : β} {p : State × β} (h : Only S s p.1) (e : p = (t, b)) : Only S s t := by
  subst e; exact h

theorem OnlyOut.next {S : List Area} {s t : State} (h : Only S s t) : OnlyOut S s (.next t) := by
  intro u e
  injection e with e
  exact e ▸ h

end Sys2Proof.Machine
end

