-- ==== Sys2Proof/Laws/OnlyOps.lean ====
section
/-!
SUPPORT. For every operation of the block that answers a state, the areas of the state it may change (Only of Laws/Only.lean), each from the lemmas of the operations it calls.
-/

namespace Sys2Proof.Machine

open Sys2Proof.Safety

variable {S : List Area} {b0 : State}

theorem bootRidge_ronly {a : RidgeSt} {s : State} {r : Nat} {rd : RidgeSt} (h : RidgeOnly S a rd) (hS : Covers S [.tiles, .ridges]) : RidgeOnly S a (bootRidge s r rd) := by
  refine h.trans ?_
  unfold bootRidge
  try dsimp only
  repeat' (first
    | with_reducible exact RidgeOnly.refl _
    | split
    | exact ⟨by first | exact .inl (hS.mem rfl) | (with_reducible exact .inr rfl) | (with_reducible exact .inr ⟨rfl, rfl⟩) | (with_reducible exact .inr ⟨rfl, rfl, rfl, rfl⟩) | exact .inr rfl, by first | exact .inl (hS.mem rfl) | (with_reducible exact .inr rfl) | (with_reducible exact .inr ⟨rfl, rfl⟩) | (with_reducible exact .inr ⟨rfl, rfl, rfl, rfl⟩) | exact .inr rfl, by first | exact .inl (hS.mem rfl) | (with_reducible exact .inr rfl) | (with_reducible exact .inr ⟨rfl, rfl⟩) | (with_reducible exact .inr ⟨rfl, rfl, rfl, rfl⟩) | exact .inr rfl, by first | exact .inl (hS.mem rfl) | (with_reducible exact .inr rfl) | (with_reducible exact .inr ⟨rfl, rfl⟩) | (with_reducible exact .inr ⟨rfl, rfl, rfl, rfl⟩) | exact .inr rfl⟩)
theorem freshDigital_ronly {a : RidgeSt} {rd : RidgeSt} (h : RidgeOnly S a rd) (hS : Covers S [.slots, .ridges]) : RidgeOnly S a (freshDigital rd) := by
  refine h.trans ?_
  unfold freshDigital
  try dsimp only
  repeat' (first
    | with_reducible exact RidgeOnly.refl _
    | split
    | exact ⟨by first | exact .inl (hS.mem rfl) | (with_reducible exact .inr rfl) | (with_reducible exact .inr ⟨rfl, rfl⟩) | (with_reducible exact .inr ⟨rfl, rfl, rfl, rfl⟩) | exact .inr rfl, by first | exact .inl (hS.mem rfl) | (with_reducible exact .inr rfl) | (with_reducible exact .inr ⟨rfl, rfl⟩) | (with_reducible exact .inr ⟨rfl, rfl, rfl, rfl⟩) | exact .inr rfl, by first | exact .inl (hS.mem rfl) | (with_reducible exact .inr rfl) | (with_reducible exact .inr ⟨rfl, rfl⟩) | (with_reducible exact .inr ⟨rfl, rfl, rfl, rfl⟩) | exact .inr rfl, by first | exact .inl (hS.mem rfl) | (with_reducible exact .inr rfl) | (with_reducible exact .inr ⟨rfl, rfl⟩) | (with_reducible exact .inr ⟨rfl, rfl, rfl, rfl⟩) | exact .inr rfl⟩)
theorem freshLoam_ronly {a : RidgeSt} {rd : RidgeSt} (h : RidgeOnly S a rd) (hS : Covers S [.loam]) : RidgeOnly S a (freshLoam rd) := by
  refine h.trans ?_
  unfold freshLoam
  try dsimp only
  repeat' (first
    | with_reducible exact RidgeOnly.refl _
    | split
    | exact ⟨by first | exact .inl (hS.mem rfl) | (with_reducible exact .inr rfl) | (with_reducible exact .inr ⟨rfl, rfl⟩) | (with_reducible exact .inr ⟨rfl, rfl, rfl, rfl⟩) | exact .inr rfl, by first | exact .inl (hS.mem rfl) | (with_reducible exact .inr rfl) | (with_reducible exact .inr ⟨rfl, rfl⟩) | (with_reducible exact .inr ⟨rfl, rfl, rfl, rfl⟩) | exact .inr rfl, by first | exact .inl (hS.mem rfl) | (with_reducible exact .inr rfl) | (with_reducible exact .inr ⟨rfl, rfl⟩) | (with_reducible exact .inr ⟨rfl, rfl, rfl, rfl⟩) | exact .inr rfl, by first | exact .inl (hS.mem rfl) | (with_reducible exact .inr rfl) | (with_reducible exact .inr ⟨rfl, rfl⟩) | (with_reducible exact .inr ⟨rfl, rfl, rfl, rfl⟩) | exact .inr rfl⟩)
theorem freshRidge_ronly {a : RidgeSt} {rd : RidgeSt} {p : Nat} {id : W32} {pc : Nat} (h : RidgeOnly S a rd) (hS : Covers S [.slots, .ridges]) : RidgeOnly S a (freshRidge rd p id pc) := by
  refine h.trans ?_
  unfold freshRidge
  try dsimp only
  repeat' (first
    | with_reducible exact RidgeOnly.refl _
    | split
    | exact ⟨by first | exact .inl (hS.mem rfl) | (with_reducible exact .inr rfl) | (with_reducible exact .inr ⟨rfl, rfl⟩) | (with_reducible exact .inr ⟨rfl, rfl, rfl, rfl⟩) | exact .inr rfl, by first | exact .inl (hS.mem rfl) | (with_reducible exact .inr rfl) | (with_reducible exact .inr ⟨rfl, rfl⟩) | (with_reducible exact .inr ⟨rfl, rfl, rfl, rfl⟩) | exact .inr rfl, by first | exact .inl (hS.mem rfl) | (with_reducible exact .inr rfl) | (with_reducible exact .inr ⟨rfl, rfl⟩) | (with_reducible exact .inr ⟨rfl, rfl, rfl, rfl⟩) | exact .inr rfl, by first | exact .inl (hS.mem rfl) | (with_reducible exact .inr rfl) | (with_reducible exact .inr ⟨rfl, rfl⟩) | (with_reducible exact .inr ⟨rfl, rfl, rfl, rfl⟩) | exact .inr rfl⟩)
theorem leaveRidge_ronly {a : RidgeSt} {rd : RidgeSt} (h : RidgeOnly S a rd) (hS : Covers S [.slots, .ridges]) : RidgeOnly S a (leaveRidge rd) := by
  refine h.trans ?_
  unfold leaveRidge
  try dsimp only
  repeat' (first
    | with_reducible exact RidgeOnly.refl _
    | split
    | exact ⟨by first | exact .inl (hS.mem rfl) | (with_reducible exact .inr rfl) | (with_reducible exact .inr ⟨rfl, rfl⟩) | (with_reducible exact .inr ⟨rfl, rfl, rfl, rfl⟩) | exact .inr rfl, by first | exact .inl (hS.mem rfl) | (with_reducible exact .inr rfl) | (with_reducible exact .inr ⟨rfl, rfl⟩) | (with_reducible exact .inr ⟨rfl, rfl, rfl, rfl⟩) | exact .inr rfl, by first | exact .inl (hS.mem rfl) | (with_reducible exact .inr rfl) | (with_reducible exact .inr ⟨rfl, rfl⟩) | (with_reducible exact .inr ⟨rfl, rfl, rfl, rfl⟩) | exact .inr rfl, by first | exact .inl (hS.mem rfl) | (with_reducible exact .inr rfl) | (with_reducible exact .inr ⟨rfl, rfl⟩) | (with_reducible exact .inr ⟨rfl, rfl, rfl, rfl⟩) | exact .inr rfl⟩)
theorem loamJunk_ronly {a : RidgeSt} {rd : RidgeSt} {o : Nat} {n : Nat} {gen : Nat} (h : RidgeOnly S a rd) (hS : Covers S [.loam]) : RidgeOnly S a (loamJunk rd o n gen) := by
  refine h.trans ?_
  unfold loamJunk
  try dsimp only
  repeat' (first
    | with_reducible exact RidgeOnly.refl _
    | split
    | exact ⟨by first | exact .inl (hS.mem rfl) | (with_reducible exact .inr rfl) | (with_reducible exact .inr ⟨rfl, rfl⟩) | (with_reducible exact .inr ⟨rfl, rfl, rfl, rfl⟩) | exact .inr rfl, by first | exact .inl (hS.mem rfl) | (with_reducible exact .inr rfl) | (with_reducible exact .inr ⟨rfl, rfl⟩) | (with_reducible exact .inr ⟨rfl, rfl, rfl, rfl⟩) | exact .inr rfl, by first | exact .inl (hS.mem rfl) | (with_reducible exact .inr rfl) | (with_reducible exact .inr ⟨rfl, rfl⟩) | (with_reducible exact .inr ⟨rfl, rfl, rfl, rfl⟩) | exact .inr rfl, by first | exact .inl (hS.mem rfl) | (with_reducible exact .inr rfl) | (with_reducible exact .inr ⟨rfl, rfl⟩) | (with_reducible exact .inr ⟨rfl, rfl, rfl, rfl⟩) | exact .inr rfl⟩)
theorem loamPut_ronly {a : RidgeSt} {rd : RidgeSt} {o : Nat} {d : List Byte} {tag : W32} (h : RidgeOnly S a rd) (hS : Covers S [.loam]) : RidgeOnly S a (loamPut rd o d tag) := by
  refine h.trans ?_
  unfold loamPut
  try dsimp only
  repeat' (first
    | with_reducible exact RidgeOnly.refl _
    | split
    | exact ⟨by first | exact .inl (hS.mem rfl) | (with_reducible exact .inr rfl) | (with_reducible exact .inr ⟨rfl, rfl⟩) | (with_reducible exact .inr ⟨rfl, rfl, rfl, rfl⟩) | exact .inr rfl, by first | exact .inl (hS.mem rfl) | (with_reducible exact .inr rfl) | (with_reducible exact .inr ⟨rfl, rfl⟩) | (with_reducible exact .inr ⟨rfl, rfl, rfl, rfl⟩) | exact .inr rfl, by first | exact .inl (hS.mem rfl) | (with_reducible exact .inr rfl) | (with_reducible exact .inr ⟨rfl, rfl⟩) | (with_reducible exact .inr ⟨rfl, rfl, rfl, rfl⟩) | exact .inr rfl, by first | exact .inl (hS.mem rfl) | (with_reducible exact .inr rfl) | (with_reducible exact .inr ⟨rfl, rfl⟩) | (with_reducible exact .inr ⟨rfl, rfl, rfl, rfl⟩) | exact .inr rfl⟩)
theorem resetRidge_ronly {a : RidgeSt} {s : State} {rd : RidgeSt} (h : RidgeOnly S a rd) (hS : Covers S [.tiles, .loam, .slots, .ridges]) : RidgeOnly S a (resetRidge s rd) := by
  refine h.trans ?_
  unfold resetRidge
  try dsimp only
  repeat' (first
    | with_reducible exact RidgeOnly.refl _
    | split
    | exact ⟨by first | exact .inl (hS.mem rfl) | (with_reducible exact .inr rfl) | (with_reducible exact .inr ⟨rfl, rfl⟩) | (with_reducible exact .inr ⟨rfl, rfl, rfl, rfl⟩) | exact .inr rfl, by first | exact .inl (hS.mem rfl) | (with_reducible exact .inr rfl) | (with_reducible exact .inr ⟨rfl, rfl⟩) | (with_reducible exact .inr ⟨rfl, rfl, rfl, rfl⟩) | exact .inr rfl, by first | exact .inl (hS.mem rfl) | (with_reducible exact .inr rfl) | (with_reducible exact .inr ⟨rfl, rfl⟩) | (with_reducible exact .inr ⟨rfl, rfl, rfl, rfl⟩) | exact .inr rfl, by first | exact .inl (hS.mem rfl) | (with_reducible exact .inr rfl) | (with_reducible exact .inr ⟨rfl, rfl⟩) | (with_reducible exact .inr ⟨rfl, rfl, rfl, rfl⟩) | exact .inr rfl⟩)
theorem ringConsume_ronly {a : RidgeSt} {rd : RidgeSt} {off : Nat} (h : RidgeOnly S a rd) (hS : Covers S [.ridges]) : RidgeOnly S a (ringConsume rd off) := by
  refine h.trans ?_
  unfold ringConsume
  try dsimp only
  repeat' (first
    | with_reducible exact RidgeOnly.refl _
    | split
    | exact ⟨by first | exact .inl (hS.mem rfl) | (with_reducible exact .inr rfl) | (with_reducible exact .inr ⟨rfl, rfl⟩) | (with_reducible exact .inr ⟨rfl, rfl, rfl, rfl⟩) | exact .inr rfl, by first | exact .inl (hS.mem rfl) | (with_reducible exact .inr rfl) | (with_reducible exact .inr ⟨rfl, rfl⟩) | (with_reducible exact .inr ⟨rfl, rfl, rfl, rfl⟩) | exact .inr rfl, by first | exact .inl (hS.mem rfl) | (with_reducible exact .inr rfl) | (with_reducible exact .inr ⟨rfl, rfl⟩) | (with_reducible exact .inr ⟨rfl, rfl, rfl, rfl⟩) | exact .inr rfl, by first | exact .inl (hS.mem rfl) | (with_reducible exact .inr rfl) | (with_reducible exact .inr ⟨rfl, rfl⟩) | (with_reducible exact .inr ⟨rfl, rfl, rfl, rfl⟩) | exact .inr rfl⟩)
theorem setCtx_ronly {a : RidgeSt} {rd : RidgeSt} {x : Ctx} {c : CtxSt} (h : RidgeOnly S a rd) (hS : Covers S [.ridges]) : RidgeOnly S a (setCtx rd x c) := by
  refine h.trans ?_
  unfold setCtx
  try dsimp only
  repeat' (first
    | with_reducible exact RidgeOnly.refl _
    | split
    | exact ⟨by first | exact .inl (hS.mem rfl) | (with_reducible exact .inr rfl) | (with_reducible exact .inr ⟨rfl, rfl⟩) | (with_reducible exact .inr ⟨rfl, rfl, rfl, rfl⟩) | exact .inr rfl, by first | exact .inl (hS.mem rfl) | (with_reducible exact .inr rfl) | (with_reducible exact .inr ⟨rfl, rfl⟩) | (with_reducible exact .inr ⟨rfl, rfl, rfl, rfl⟩) | exact .inr rfl, by first | exact .inl (hS.mem rfl) | (with_reducible exact .inr rfl) | (with_reducible exact .inr ⟨rfl, rfl⟩) | (with_reducible exact .inr ⟨rfl, rfl, rfl, rfl⟩) | exact .inr rfl, by first | exact .inl (hS.mem rfl) | (with_reducible exact .inr rfl) | (with_reducible exact .inr ⟨rfl, rfl⟩) | (with_reducible exact .inr ⟨rfl, rfl, rfl, rfl⟩) | exact .inr rfl⟩)
theorem writeInactive_ronly {a : RidgeSt} {rd : RidgeSt} {t : Nat} {fs : List FoldEnt} (h : RidgeOnly S a rd) (hS : Covers S [.ridges]) : RidgeOnly S a (writeInactive rd t fs) := by
  refine h.trans ?_
  unfold writeInactive
  try dsimp only
  repeat' (first
    | with_reducible exact RidgeOnly.refl _
    | split
    | exact ⟨by first | exact .inl (hS.mem rfl) | (with_reducible exact .inr rfl) | (with_reducible exact .inr ⟨rfl, rfl⟩) | (with_reducible exact .inr ⟨rfl, rfl, rfl, rfl⟩) | exact .inr rfl, by first | exact .inl (hS.mem rfl) | (with_reducible exact .inr rfl) | (with_reducible exact .inr ⟨rfl, rfl⟩) | (with_reducible exact .inr ⟨rfl, rfl, rfl, rfl⟩) | exact .inr rfl, by first | exact .inl (hS.mem rfl) | (with_reducible exact .inr rfl) | (with_reducible exact .inr ⟨rfl, rfl⟩) | (with_reducible exact .inr ⟨rfl, rfl, rfl, rfl⟩) | exact .inr rfl, by first | exact .inl (hS.mem rfl) | (with_reducible exact .inr rfl) | (with_reducible exact .inr ⟨rfl, rfl⟩) | (with_reducible exact .inr ⟨rfl, rfl, rfl, rfl⟩) | exact .inr rfl⟩)
theorem zeroRidge_ronly {a : RidgeSt} {rd : RidgeSt} (h : RidgeOnly S a rd) (hS : Covers S [.loam, .slots, .ridges]) : RidgeOnly S a (zeroRidge rd) := by
  refine h.trans ?_
  unfold zeroRidge
  try dsimp only
  repeat' (first
    | with_reducible exact RidgeOnly.refl _
    | split
    | exact ⟨by first | exact .inl (hS.mem rfl) | (with_reducible exact .inr rfl) | (with_reducible exact .inr ⟨rfl, rfl⟩) | (with_reducible exact .inr ⟨rfl, rfl, rfl, rfl⟩) | exact .inr rfl, by first | exact .inl (hS.mem rfl) | (with_reducible exact .inr rfl) | (with_reducible exact .inr ⟨rfl, rfl⟩) | (with_reducible exact .inr ⟨rfl, rfl, rfl, rfl⟩) | exact .inr rfl, by first | exact .inl (hS.mem rfl) | (with_reducible exact .inr rfl) | (with_reducible exact .inr ⟨rfl, rfl⟩) | (with_reducible exact .inr ⟨rfl, rfl, rfl, rfl⟩) | exact .inr rfl, by first | exact .inl (hS.mem rfl) | (with_reducible exact .inr rfl) | (with_reducible exact .inr ⟨rfl, rfl⟩) | (with_reducible exact .inr ⟨rfl, rfl, rfl, rfl⟩) | exact .inr rfl⟩)
theorem loamWrite_ronly {a rd : RidgeSt} {o : Nat} {d : List Byte} {tag : W32} (h : RidgeOnly S a rd) (hS : Covers S [.loam]) : RidgeOnly S a (loamWrite rd o d tag).1 := by
  unfold loamWrite
  suffices ∀ (l : List (Nat × Nat)) (acc : RidgeSt × List Nat), RidgeOnly S a acc.1 → RidgeOnly S a (l.foldl _ acc).1 from this _ _ h
  intro l
  induction l with
  | nil => exact fun _ h => h
  | cons c l ih =>
    intro acc h
    refine ih _ ?_
    dsimp only
    split
    · exact loamPut_ronly (RidgeOnly.upd (b := acc.1) h (.inr rfl) (.inl (hS.mem rfl)) (.inr ⟨rfl, rfl⟩) (.inr rfl)) hS
    · split
      · exact h
      · exact loamPut_ronly h hS
theorem updWin_only {s : State} {r id : Nat} {f : Win → Win} (hk : Only S b0 s) (hS : Covers S [.ridges]) : Only S b0 (updWin s r id f) := by
  unfold updWin
  repeat' (first
    | (with_reducible first | assumption | refine updR_only ?_ (fun _ => ?_))
    | exact ⟨by first | exact .inl (hS.mem rfl) | (with_reducible exact .inr rfl) | (with_reducible exact .inr ⟨rfl, rfl⟩) | (with_reducible exact .inr ⟨rfl, rfl, rfl, rfl⟩) | exact .inr rfl, by first | exact .inl (hS.mem rfl) | (with_reducible exact .inr rfl) | (with_reducible exact .inr ⟨rfl, rfl⟩) | (with_reducible exact .inr ⟨rfl, rfl, rfl, rfl⟩) | exact .inr rfl, by first | exact .inl (hS.mem rfl) | (with_reducible exact .inr rfl) | (with_reducible exact .inr ⟨rfl, rfl⟩) | (with_reducible exact .inr ⟨rfl, rfl, rfl, rfl⟩) | exact .inr rfl, by first | exact .inl (hS.mem rfl) | (with_reducible exact .inr rfl) | (with_reducible exact .inr ⟨rfl, rfl⟩) | (with_reducible exact .inr ⟨rfl, rfl, rfl, rfl⟩) | exact .inr rfl⟩)
theorem setRope_only {s : State} {e : Nat} {v : Rope} (hk : Only S b0 s) (hS : Covers S [.ropes]) : Only S b0 (setRope s e v) := by
  unfold setRope
  repeat' (first
    | (with_reducible first | assumption | exact RidgesOnly.refl _)
    | (simp only [Only.fields]; with_reducible refine Only.upd ?_ ?_ ?_ ?_ ?_ ?_ ?_ ?_ ?_ ?_ ?_ ?_ ?_ ?_ ?_ ?_ ?_ ?_ ?_ ?_ ?_ ?_)
    | exact .inl (hS.mem rfl)
    | (with_reducible exact .inr rfl)
    | (with_reducible exact .inr ⟨rfl, rfl⟩))
theorem enq_only {s : State} {k : Nat} {q : Req} (hk : Only S b0 s) (hS : Covers S [.col]) : Only S b0 (enq s k q) := by
  unfold enq
  dsimp only
  repeat' (first
    | (with_reducible first | assumption | exact RidgesOnly.refl _)
    | (simp only [Only.fields]; with_reducible refine Only.upd ?_ ?_ ?_ ?_ ?_ ?_ ?_ ?_ ?_ ?_ ?_ ?_ ?_ ?_ ?_ ?_ ?_ ?_ ?_ ?_ ?_ ?_)
    | exact .inl (hS.mem rfl)
    | (with_reducible exact .inr rfl)
    | (with_reducible exact .inr ⟨rfl, rfl⟩))
theorem updPort_only {s : State} {p : Port} {g : PortSt → PortSt} (hk : Only S b0 s) (hS : Covers S [.host]) : Only S b0 (updPort s p g) := by
  unfold updPort
  dsimp only
  repeat' (first
    | (with_reducible first | assumption | exact RidgesOnly.refl _)
    | (simp only [Only.fields]; with_reducible refine Only.upd ?_ ?_ ?_ ?_ ?_ ?_ ?_ ?_ ?_ ?_ ?_ ?_ ?_ ?_ ?_ ?_ ?_ ?_ ?_ ?_ ?_ ?_)
    | exact .inl (hS.mem rfl)
    | (with_reducible exact .inr rfl)
    | (with_reducible exact .inr ⟨rfl, rfl⟩)
    | split)
theorem hrdySync_only {s : State} {p : Port} (hk : Only S b0 s) (hS : Covers S [.host]) : Only S b0 (hrdySync s p) := by
  unfold hrdySync
  dsimp only
  repeat' (first
    | (with_reducible first | assumption | refine updPort_only ?_ (hS.mono rfl))
    | split)
theorem pinSync_only {s : State} (hk : Only S b0 s) (hS : Covers S [.host]) : Only S b0 (pinSync s) := by
  unfold pinSync
  repeat' (first
    | (with_reducible first | assumption | refine hrdySync_only ?_ (hS.mono rfl)))
theorem useFree_only {s : State} (hk : Only S b0 s) (hS : Covers S []) : Only S b0 (useFree s) := by
  unfold useFree
  repeat' (first
    | (with_reducible first | assumption | exact RidgesOnly.refl _)
    | (simp only [Only.fields]; with_reducible refine Only.upd ?_ ?_ ?_ ?_ ?_ ?_ ?_ ?_ ?_ ?_ ?_ ?_ ?_ ?_ ?_ ?_ ?_ ?_ ?_ ?_ ?_ ?_)
    | (with_reducible exact .inr rfl)
    | (with_reducible exact .inr ⟨rfl, rfl⟩))
theorem enqCore_only {s : State} {q : Req} (hk : Only S b0 s) (hS : Covers S [.col]) : Only S b0 (enqCore s q) := by
  unfold enqCore
  repeat' (first
    | (with_reducible first | assumption | refine useFree_only ?_ (hS.mono rfl) | refine enq_only ?_ (hS.mono rfl)))
theorem postCqe_only {s : State} {c : Cqe} (hk : Only S b0 s) (hS : Covers S [.col]) : Only S b0 (postCqe s c) := by
  unfold postCqe
  repeat' (first
    | (with_reducible first | assumption | refine enqCore_only ?_ (hS.mono rfl)))
theorem dropCmd_only {s : State} {n : Nat} (hk : Only S b0 s) (hS : Covers S [.host]) : Only S b0 (dropCmd s n) := by
  unfold dropCmd
  dsimp only
  repeat' (first
    | (with_reducible first | assumption | exact RidgesOnly.refl _)
    | (simp only [Only.fields]; with_reducible refine Only.upd ?_ ?_ ?_ ?_ ?_ ?_ ?_ ?_ ?_ ?_ ?_ ?_ ?_ ?_ ?_ ?_ ?_ ?_ ?_ ?_ ?_ ?_)
    | exact .inl (hS.mem rfl)
    | (with_reducible exact .inr rfl)
    | (with_reducible exact .inr ⟨rfl, rfl⟩))
theorem complete2_only {s : State} {c : Cmd} {status res res2 : Nat} (hk : Only S b0 s) (hS : Covers S [.host, .col]) : Only S b0 (complete2 s c status res res2) := by
  unfold complete2
  repeat' (first
    | (with_reducible first | assumption | refine pinSync_only ?_ (hS.mono rfl) | refine postCqe_only ?_ (hS.mono rfl) | refine dropCmd_only ?_ (hS.mono rfl)))
theorem complete_only {s : State} {c : Cmd} {status res : Nat} (hk : Only S b0 s) (hS : Covers S [.host, .col]) : Only S b0 (complete s c status res) := by
  unfold complete
  repeat' (first
    | (with_reducible first | assumption | refine complete2_only ?_ (hS.mono rfl)))
theorem completeAt_only {s : State} {q : QId} {cid : W16} {status res : Nat} (hk : Only S b0 s) (hS : Covers S [.host, .col]) : Only S b0 (completeAt s q cid status res) := by
  unfold completeAt
  repeat' (first
    | (with_reducible first | assumption | refine complete_only ?_ (hS.mono rfl))
    | split)
theorem ropeWhyFailed_only {s : State} {w : RopeWhy} (hk : Only S b0 s) (hS : Covers S [.host, .col]) : Only S b0 (ropeWhyFailed s w) := by
  unfold ropeWhyFailed
  repeat' (first
    | (with_reducible first | assumption | refine completeAt_only ?_ (hS.mono rfl))
    | split)
theorem ropeUnwind_only {s : State} {r : Nat} {x : Ctx} {e : Nat} {again count : Bool} (hk : Only S b0 s) (hS : Covers S [.slots, .ridges]) : Only S b0 (ropeUnwind s r x e again count) := by
  unfold ropeUnwind
  refine setR_only hk (setCtx_ronly (RidgeOnly.foldl (fun rd w g => ?_) _ _ ?_) (hS.mono rfl))
  · split
    · exact RidgeOnly.upd (b := rd) g (.inr rfl) (.inr ⟨rfl, rfl, rfl, rfl⟩) (.inl (hS.mem rfl)) (.inl (hS.mem rfl))
    · exact g
  · exact RidgeOnly.upd (b := getR s r) (RidgeOnly.refl _) (.inr rfl) (.inr ⟨rfl, rfl, rfl, rfl⟩) (.inr ⟨rfl, rfl⟩) (.inl (hS.mem rfl))
theorem raise_only {s : State} {src ty cause part : Nat} {payload : List Byte} (hk : Only S b0 s) (hS : Covers S [.col]) : Only S b0 (raise s src ty cause part payload) := by
  unfold raise
  repeat' (first
    | (with_reducible first | assumption | refine enq_only ?_ (hS.mono rfl)))
theorem updCtx_only {s : State} {r : Nat} {x : Ctx} {f : CtxSt → CtxSt} (hk : Only S b0 s) (hS : Covers S [.ridges]) : Only S b0 (updCtx s r x f) := by
  unfold updCtx
  repeat' (first
    | (with_reducible first | assumption | refine updR_only ?_ (fun _ => ?_) | exact setCtx_ronly (RidgeOnly.refl _) (hS.mono rfl)))
theorem updJob_only {s : State} {p : Nat} {id : W32} {f : Job → Job} (hk : Only S b0 s) (hS : Covers S [.jobs]) : Only S b0 (updJob s p id f) := by
  unfold updJob
  repeat' (first
    | (with_reducible first | assumption | exact RidgesOnly.refl _)
    | (simp only [Only.fields]; with_reducible refine Only.upd ?_ ?_ ?_ ?_ ?_ ?_ ?_ ?_ ?_ ?_ ?_ ?_ ?_ ?_ ?_ ?_ ?_ ?_ ?_ ?_ ?_ ?_)
    | exact .inl (hS.mem rfl)
    | (with_reducible exact .inr rfl)
    | (with_reducible exact .inr ⟨rfl, rfl⟩))
theorem streamFault_only {s : State} {r : Nat} {x : Ctx} {code idx : Nat} (hk : Only S b0 s) (hS : Covers S [.jobs, .ridges, .col]) : Only S b0 (streamFault s r x code idx) := by
  unfold streamFault
  dsimp only
  repeat' (first
    | (with_reducible first | assumption | refine updCtx_only ?_ (hS.mono rfl) | refine updJob_only ?_ (hS.mono rfl) | refine raise_only ?_ (hS.mono rfl))
    | split)
theorem ropeAbort_only {s : State} {e cause fault holder : Nat} (hk : Only S b0 s) (hS : Covers S [.host, .jobs, .slots, .ridges, .col, .ropes]) : Only S b0 (ropeAbort s e cause fault holder) := by
  unfold ropeAbort
  dsimp only
  repeat' (first
    | (with_reducible first | assumption | refine setRope_only ?_ (hS.mono rfl) | refine ropeWhyFailed_only ?_ (hS.mono rfl) | refine ropeUnwind_only ?_ (hS.mono rfl) | refine raise_only ?_ (hS.mono rfl) | refine streamFault_only ?_ (hS.mono rfl))
    | (with_reducible refine Only.foldl (fun _ _ _ => ?_) _ _ ?_) <;> try dsimp only
    | split)
theorem tryLock_only {s : State} {e : Nat} (hk : Only S b0 s) (hS : Covers S [.host, .jobs, .slots, .ridges, .col, .ropes]) : Only S b0 (tryLock s e) := by
  unfold tryLock
  dsimp only
  repeat' (first
    | (with_reducible first | assumption | refine setRope_only ?_ (hS.mono rfl) | refine enq_only ?_ (hS.mono rfl) | refine ropeAbort_only ?_ (hS.mono rfl))
    | split)
theorem ropeWake_only {s : State} (hk : Only S b0 s) (hS : Covers S [.host, .jobs, .slots, .ridges, .col, .ropes]) : Only S b0 (ropeWake s) := by
  unfold ropeWake
  repeat' (first
    | (with_reducible first | assumption | refine tryLock_only ?_ (hS.mono rfl))
    | (with_reducible refine Only.foldl (fun _ _ _ => ?_) _ _ ?_) <;> try dsimp only)
theorem setSlot_only {s : State} {r k : Nat} {v : Slot} (hk : Only S b0 s) (hS : Covers S [.slots]) : Only S b0 (setSlot s r k v) := by
  unfold setSlot
  repeat' (first
    | (with_reducible first | assumption | refine updR_only ?_ (fun _ => ?_))
    | exact ⟨by first | exact .inl (hS.mem rfl) | (with_reducible exact .inr rfl) | (with_reducible exact .inr ⟨rfl, rfl⟩) | (with_reducible exact .inr ⟨rfl, rfl, rfl, rfl⟩) | exact .inr rfl, by first | exact .inl (hS.mem rfl) | (with_reducible exact .inr rfl) | (with_reducible exact .inr ⟨rfl, rfl⟩) | (with_reducible exact .inr ⟨rfl, rfl, rfl, rfl⟩) | exact .inr rfl, by first | exact .inl (hS.mem rfl) | (with_reducible exact .inr rfl) | (with_reducible exact .inr ⟨rfl, rfl⟩) | (with_reducible exact .inr ⟨rfl, rfl, rfl, rfl⟩) | exact .inr rfl, by first | exact .inl (hS.mem rfl) | (with_reducible exact .inr rfl) | (with_reducible exact .inr ⟨rfl, rfl⟩) | (with_reducible exact .inr ⟨rfl, rfl, rfl, rfl⟩) | exact .inr rfl⟩)
theorem freeSlot_only {s : State} {r k : Nat} (hk : Only S b0 s) (hS : Covers S [.host, .jobs, .slots, .ridges, .col, .ropes]) : Only S b0 (freeSlot s r k) := by
  unfold freeSlot
  dsimp only
  repeat' (first
    | (with_reducible first | assumption | refine ropeWake_only ?_ (hS.mono rfl) | refine setSlot_only ?_ (hS.mono rfl)))
theorem askWalks_only {s : State} {pages : List Nat} {mk : Nat → Walk} (hk : Only S b0 s) (hS : Covers S [.path]) : Only S b0 (askWalks s pages mk) := by
  unfold askWalks
  dsimp only
  repeat' (first
    | (with_reducible first | assumption | exact RidgesOnly.refl _)
    | (simp only [Only.fields]; with_reducible refine Only.upd ?_ ?_ ?_ ?_ ?_ ?_ ?_ ?_ ?_ ?_ ?_ ?_ ?_ ?_ ?_ ?_ ?_ ?_ ?_ ?_ ?_ ?_)
    | (with_reducible refine Only.foldl (fun _ _ _ => ?_) _ _ ?_) <;> try dsimp only
    | exact .inl (hS.mem rfl)
    | (with_reducible exact .inr rfl)
    | (with_reducible exact .inr ⟨rfl, rfl⟩)
    | split)
theorem mmuFault_only {s : State} {src p : Nat} {id : W32} {source srcRidge cause addr access level desc instr resume : Nat} (hk : Only S b0 s) (hS : Covers S [.jobs, .col]) : Only S b0 (mmuFault s src p id source srcRidge cause addr access level desc instr resume) := by
  unfold mmuFault
  dsimp only
  repeat' (first
    | (with_reducible first | assumption | refine updJob_only ?_ (hS.mono rfl) | refine raise_only ?_ (hS.mono rfl) | exact RidgesOnly.refl _)
    | (simp only [Only.fields]; with_reducible refine Only.upd ?_ ?_ ?_ ?_ ?_ ?_ ?_ ?_ ?_ ?_ ?_ ?_ ?_ ?_ ?_ ?_ ?_ ?_ ?_ ?_ ?_ ?_)
    | exact .inl (hS.mem rfl)
    | (with_reducible exact .inr rfl)
    | (with_reducible exact .inr ⟨rfl, rfl⟩)
    | split)
theorem ridgeMmu_only {s : State} {src p : Nat} {j : Job} {r idx c d acc l : Nat} (hk : Only S b0 s) (hS : Covers S [.jobs, .ridges, .col]) : Only S b0 (ridgeMmu s src p j r idx c d acc l) := by
  unfold ridgeMmu
  dsimp only
  repeat' (first
    | (with_reducible first | assumption | refine mmuFault_only ?_ (hS.mono rfl) | refine streamFault_only ?_ (hS.mono rfl))
    | split)
theorem ridgePlaces_only {s : State} {p : Nat} {j : Job} {r dva len acc idx : Nat} (hk : Only S b0 s) (hS : Covers S [.jobs, .ridges, .path, .col]) : DvaAll (Only S b0) (ridgePlaces s p j r dva len acc idx) := by
  unfold ridgePlaces
  repeat' (first
    | (with_reducible first | assumption | refine useFree_only ?_ (hS.mono rfl) | refine askWalks_only ?_ (hS.mono rfl) | refine ridgeMmu_only ?_ (hS.mono rfl) | refine DvaAll.intro_wait ?_)
    | exact trivial
    | split)
theorem maddrPlaces_only {s : State} {r : Nat} {j : Job} {m len acc idx : Nat} (hk : Only S b0 s) (hS : Covers S [.jobs, .ridges, .path, .col]) : WhereAll (Only S b0) (maddrPlaces s r j m len acc idx) := by
  unfold maddrPlaces
  repeat' (first
    | (with_reducible first | assumption | refine DvaAll.wait (ridgePlaces_only ?_ (hS.mono rfl)) (by assumption) | refine WhereAll.intro_wait ?_)
    | exact trivial
    | split)
theorem setLink_only {s : State} {n : Nat} {l : LinkSt} (hk : Only S b0 s) (hS : Covers S [.links]) : Only S b0 (setLink s n l) := by
  unfold setLink
  dsimp only
  repeat' (first
    | (with_reducible first | assumption | exact RidgesOnly.refl _)
    | (simp only [Only.fields]; with_reducible refine Only.upd ?_ ?_ ?_ ?_ ?_ ?_ ?_ ?_ ?_ ?_ ?_ ?_ ?_ ?_ ?_ ?_ ?_ ?_ ?_ ?_ ?_ ?_)
    | exact .inl (hS.mem rfl)
    | (with_reducible exact .inr rfl)
    | (with_reducible exact .inr ⟨rfl, rfl⟩))
theorem sendFrame_only {s : State} {n : Nat} {f : Frame} (hk : Only S b0 s) (hS : Covers S [.links]) : Only S b0 (sendFrame s n f) := by
  unfold sendFrame
  dsimp only
  repeat' (first
    | (with_reducible first | assumption | refine setLink_only ?_ (hS.mono rfl) | exact RidgesOnly.refl _)
    | (simp only [Only.fields]; with_reducible refine Only.upd ?_ ?_ ?_ ?_ ?_ ?_ ?_ ?_ ?_ ?_ ?_ ?_ ?_ ?_ ?_ ?_ ?_ ?_ ?_ ?_ ?_ ?_)
    | exact .inl (hS.mem rfl)
    | (with_reducible exact .inr rfl)
    | (with_reducible exact .inr ⟨rfl, rfl⟩))
theorem setTag_only {s : State} {t : Nat} {o : Option Outstanding} (hk : Only S b0 s) (hS : Covers S [.links]) : Only S b0 (setTag s t o) := by
  unfold setTag
  dsimp only
  repeat' (first
    | (with_reducible first | assumption | exact RidgesOnly.refl _)
    | (simp only [Only.fields]; with_reducible refine Only.upd ?_ ?_ ?_ ?_ ?_ ?_ ?_ ?_ ?_ ?_ ?_ ?_ ?_ ?_ ?_ ?_ ?_ ?_ ?_ ?_ ?_ ?_)
    | exact .inl (hS.mem rfl)
    | (with_reducible exact .inr rfl)
    | (with_reducible exact .inr ⟨rfl, rfl⟩))
theorem sendReq_only {s : State} {o : Outstanding} (hk : Only S b0 s) (hS : Covers S [.links]) : OptAll (Only S b0) (sendReq s o) := by
  unfold sendReq
  split
  · exact OptAll.intro (sendFrame_only (setTag_only hk (hS.mono rfl)) (hS.mono rfl))
  · trivial
theorem updPos_only {s : State} {r p : Nat} {f : PosSt → PosSt} (hk : Only S b0 s) (hS : Covers S [.slots]) : Only S b0 (updPos s r p f) := by
  unfold updPos
  repeat' (first
    | (with_reducible first | assumption | refine updR_only ?_ (fun _ => ?_))
    | exact ⟨by first | exact .inl (hS.mem rfl) | (with_reducible exact .inr rfl) | (with_reducible exact .inr ⟨rfl, rfl⟩) | (with_reducible exact .inr ⟨rfl, rfl, rfl, rfl⟩) | exact .inr rfl, by first | exact .inl (hS.mem rfl) | (with_reducible exact .inr rfl) | (with_reducible exact .inr ⟨rfl, rfl⟩) | (with_reducible exact .inr ⟨rfl, rfl, rfl, rfl⟩) | exact .inr rfl, by first | exact .inl (hS.mem rfl) | (with_reducible exact .inr rfl) | (with_reducible exact .inr ⟨rfl, rfl⟩) | (with_reducible exact .inr ⟨rfl, rfl, rfl, rfl⟩) | exact .inr rfl, by first | exact .inl (hS.mem rfl) | (with_reducible exact .inr rfl) | (with_reducible exact .inr ⟨rfl, rfl⟩) | (with_reducible exact .inr ⟨rfl, rfl, rfl, rfl⟩) | exact .inr rfl⟩)
theorem askProbes_only {s : State} {l : List (Nat × Nat × Nat)} (hk : Only S b0 s) (hS : Covers S [.slots]) : Only S b0 (askProbes s l) := by
  unfold askProbes
  repeat' (first
    | (with_reducible first | assumption | refine updPos_only ?_ (hS.mono rfl))
    | (with_reducible refine Only.foldl (fun _ _ _ => ?_) _ _ ?_) <;> try dsimp only)
theorem holdWrite_only {s : State} {j : Job} {w : EgressWrite} (hk : Only S b0 s) (hS : Covers S [.jobs, .slots]) : Only S b0 (holdWrite s j w) := by
  unfold holdWrite
  repeat' (first
    | (with_reducible first | assumption | refine updJob_only ?_ (hS.mono rfl) | refine askProbes_only ?_ (hS.mono rfl)))
theorem peerSend_only {s : State} {j : Job} {o : Outstanding} (hk : Only S b0 s) (hS : Covers S [.jobs, .slots, .links]) : OptAll (Only S b0) (peerSend s j o) := by
  unfold peerSend
  repeat' (first
    | (with_reducible first | assumption | refine sendReq_only ?_ (hS.mono rfl) | refine holdWrite_only ?_ (hS.mono rfl) | refine OptAll.intro ?_)
    | split)
theorem addAtomic_only {s : State} {j : Job} {r win : Nat} {op : AtomOp} {pl : Place} {hdr : Option Place} {d : List Byte} {dva : Nat} (hk : Only S b0 s) (hS : Covers S [.jobs, .slots, .path, .links]) :
    Only S b0 (addAtomic s j r win op pl hdr d dva) := by
  have hw : ∀ (m : MemSys), m.dram = s.mem.dram ∧ m.poison = s.mem.poison → Only S b0 { s with mem := m } := fun m e => Only.upd (t := s) hk (.inr ⟨rfl, rfl⟩) (.inr rfl) (.inr rfl) (.inr rfl) (.inr rfl) (RidgesOnly.refl _) (.inr rfl) (.inr e) (.inl (hS.mem rfl)) (.inr ⟨rfl, rfl⟩) (.inr rfl) (.inr rfl) (.inr rfl) (.inr rfl) (.inr rfl) (.inr ⟨rfl, rfl⟩) (.inr rfl) (.inr rfl) (.inr rfl) (.inr rfl) (.inr rfl)
  unfold addAtomic
  dsimp only
  split
  · exact (peerSend_only hk (hS.mono rfl)).getD (hw _ ⟨rfl, rfl⟩)
  · exact hw _ ⟨rfl, rfl⟩
theorem aadImage_only {s : State} {r : Nat} {j : Job} {w : Win} (hk : Only S b0 s) (hS : Covers S [.host, .jobs, .slots, .ridges, .path, .col, .ropes, .links]) : Only S b0 (aadImage s r j w) := by
  unfold aadImage
  dsimp only
  repeat' (first
    | (with_reducible first | assumption | refine updWin_only ?_ (hS.mono rfl) | refine freeSlot_only ?_ (hS.mono rfl) | refine WhereAll.wait (maddrPlaces_only ?_ (hS.mono rfl)) (by assumption) | refine addAtomic_only ?_ (hS.mono rfl))
    | (with_reducible refine Only.foldl (fun _ _ _ => ?_) _ _ ?_) <;> try dsimp only
    | split)
theorem peerSendAll_only {s : State} {j : Job} {l : List Outstanding} (hk : Only S b0 s) (hS : Covers S [.jobs, .slots, .links]) : OptAll (Only S b0) (peerSendAll s j l) := by
  unfold peerSendAll
  suffices ∀ (l : List Outstanding) (o : Option State), OptAll (Only S b0) o → OptAll (Only S b0) (l.foldl _ o) from this l (some s) hk
  intro l
  induction l with
  | nil => exact fun _ h => h
  | cons x l ih =>
    intro o h
    refine ih _ ?_
    cases o with
    | none => trivial
    | some t => exact peerSend_only h (hS.mono rfl)
theorem raiseInteg_only {s : State} {src cause part loc unit pos : Nat} {job : W32} {addr w : Nat} (hk : Only S b0 s) (hS : Covers S [.col]) : Only S b0 (raiseInteg s src cause part loc unit pos job addr w) := by
  unfold raiseInteg
  repeat' (first
    | (with_reducible first | assumption | refine raise_only ?_ (hS.mono rfl)))
theorem dramPut_only {s : State} {pa : Nat} {d : List Byte} (hk : Only S b0 s) (hS : Covers S [.localMemory]) : Only S b0 (dramPut s pa d) := by
  unfold dramPut
  dsimp only
  repeat' (first
    | (with_reducible first | assumption | exact RidgesOnly.refl _)
    | (simp only [Only.fields]; with_reducible refine Only.upd ?_ ?_ ?_ ?_ ?_ ?_ ?_ ?_ ?_ ?_ ?_ ?_ ?_ ?_ ?_ ?_ ?_ ?_ ?_ ?_ ?_ ?_)
    | exact .inl (hS.mem rfl)
    | (with_reducible exact .inr rfl)
    | (with_reducible exact .inr ⟨rfl, rfl⟩))
theorem dramPoison_only {s : State} {pa : Nat} {v : Bool} (hk : Only S b0 s) (hS : Covers S [.localMemory]) : Only S b0 (dramPoison s pa v) := by
  unfold dramPoison
  dsimp only
  repeat' (first
    | (with_reducible first | assumption | exact RidgesOnly.refl _)
    | (simp only [Only.fields]; with_reducible refine Only.upd ?_ ?_ ?_ ?_ ?_ ?_ ?_ ?_ ?_ ?_ ?_ ?_ ?_ ?_ ?_ ?_ ?_ ?_ ?_ ?_ ?_ ?_)
    | exact .inl (hS.mem rfl)
    | (with_reducible exact .inr rfl)
    | (with_reducible exact .inr ⟨rfl, rfl⟩))
theorem dramWrite_only {s : State} {pa : Nat} {d : List Byte} (hk : Only S b0 s) (hS : Covers S [.localMemory]) : Only S b0 (dramWrite s pa d).1 := by
  unfold dramWrite
  dsimp only
  repeat' (first
    | (with_reducible first | assumption | refine dramPut_only ?_ (hS.mono rfl) | refine dramPoison_only ?_ (hS.mono rfl))
    | (with_reducible refine Only.foldl_fst (fun _ _ _ => ?_) _ _ ?_) <;> try dsimp only
    | split)
theorem writePieces_only {s : State} {src p : Nat} {job : W32} {ps : List Piece} {d : List Byte} (hk : Only S b0 s) (hS : Covers S [.localMemory, .col]) : Only S b0 (writePieces s src p job ps d).1 := by
  unfold writePieces
  dsimp only
  repeat' (first
    | (with_reducible first | assumption | refine raiseInteg_only ?_ (hS.mono rfl) | refine dramWrite_only ?_ (hS.mono rfl))
    | (with_reducible refine Only.foldl (fun _ _ _ => ?_) _ _ ?_) <;> try dsimp only
    | (with_reducible refine Only.foldl_fst (fun _ _ _ => ?_) _ _ ?_) <;> try dsimp only
    | split)
theorem faultAt_only {s : State} {r : Nat} {x : Ctx} {code idx : Nat} (hk : Only S b0 s) (hS : Covers S [.host, .jobs, .slots, .ridges, .col, .ropes]) : Only S b0 (faultAt s r x code idx) := by
  unfold faultAt
  dsimp only
  repeat' (first
    | (with_reducible first | assumption | refine streamFault_only ?_ (hS.mono rfl) | refine ropeAbort_only ?_ (hS.mono rfl))
    | split)
theorem execFault_only {s : State} {r : Nat} {e : Win} {code : Nat} (hk : Only S b0 s) (hS : Covers S [.host, .jobs, .slots, .ridges, .col, .ropes]) : Only S b0 (execFault s r e code) := by
  unfold execFault
  repeat' (first
    | (with_reducible first | assumption | refine faultAt_only ?_ (hS.mono rfl))
    | split)
theorem stLoam_only {s : State} {src : Nat} {o : LOp} {d : List Byte} {tag : W32} (hk : Only S b0 s) (hS : Covers S [.loam, .col]) : Only S b0 (stLoam s src o d tag).1 := by
  unfold stLoam
  dsimp only
  repeat' (first
    | (with_reducible first | assumption | refine raiseInteg_only ?_ (hS.mono rfl) | refine setR_only ?_ ?_ | exact loamWrite_ronly (RidgeOnly.refl _) (hS.mono rfl))
    | (with_reducible refine Only.foldl (fun _ _ _ => ?_) _ _ ?_) <;> try dsimp only)
theorem addCounter_only {s : State} {p : Nat} {job : W32} {r cnt : Nat} {v : W32} (hk : Only S b0 s) (hS : Covers S [.jobs, .ridges]) : Only S b0 (addCounter s p job r cnt v) := by
  unfold addCounter
  repeat' (first
    | (with_reducible first | assumption | refine updJob_only ?_ (hS.mono rfl) | refine updR_only ?_ (fun _ => ?_))
    | split
    | exact ⟨by first | exact .inl (hS.mem rfl) | (with_reducible exact .inr rfl) | (with_reducible exact .inr ⟨rfl, rfl⟩) | (with_reducible exact .inr ⟨rfl, rfl, rfl, rfl⟩) | exact .inr rfl, by first | exact .inl (hS.mem rfl) | (with_reducible exact .inr rfl) | (with_reducible exact .inr ⟨rfl, rfl⟩) | (with_reducible exact .inr ⟨rfl, rfl, rfl, rfl⟩) | exact .inr rfl, by first | exact .inl (hS.mem rfl) | (with_reducible exact .inr rfl) | (with_reducible exact .inr ⟨rfl, rfl⟩) | (with_reducible exact .inr ⟨rfl, rfl, rfl, rfl⟩) | exact .inr rfl, by first | exact .inl (hS.mem rfl) | (with_reducible exact .inr rfl) | (with_reducible exact .inr ⟨rfl, rfl⟩) | (with_reducible exact .inr ⟨rfl, rfl, rfl, rfl⟩) | exact .inr rfl⟩)
theorem sendSig_only {s : State} {p : Nat} {id : W32} {r q cnt : Nat} {v : W32} {win : Nat} (hk : Only S b0 s) (hS : Covers S [.jobs, .ridges, .path]) : Only S b0 (sendSig s p id r q cnt v win) := by
  unfold sendSig
  dsimp only
  repeat' (first
    | (with_reducible first | assumption | refine addCounter_only ?_ (hS.mono rfl) | exact RidgesOnly.refl _)
    | (simp only [Only.fields]; with_reducible refine Only.upd ?_ ?_ ?_ ?_ ?_ ?_ ?_ ?_ ?_ ?_ ?_ ?_ ?_ ?_ ?_ ?_ ?_ ?_ ?_ ?_ ?_ ?_)
    | exact .inl (hS.mem rfl)
    | (with_reducible exact .inr rfl)
    | (with_reducible exact .inr ⟨rfl, rfl⟩)
    | split)
theorem dropWin_only {s : State} {r id : Nat} (hk : Only S b0 s) (hS : Covers S [.ridges]) : Only S b0 (dropWin s r id) := by
  unfold dropWin
  repeat' (first
    | (with_reducible first | assumption | refine updR_only ?_ (fun _ => ?_))
    | exact ⟨by first | exact .inl (hS.mem rfl) | (with_reducible exact .inr rfl) | (with_reducible exact .inr ⟨rfl, rfl⟩) | (with_reducible exact .inr ⟨rfl, rfl, rfl, rfl⟩) | exact .inr rfl, by first | exact .inl (hS.mem rfl) | (with_reducible exact .inr rfl) | (with_reducible exact .inr ⟨rfl, rfl⟩) | (with_reducible exact .inr ⟨rfl, rfl, rfl, rfl⟩) | exact .inr rfl, by first | exact .inl (hS.mem rfl) | (with_reducible exact .inr rfl) | (with_reducible exact .inr ⟨rfl, rfl⟩) | (with_reducible exact .inr ⟨rfl, rfl, rfl, rfl⟩) | exact .inr rfl, by first | exact .inl (hS.mem rfl) | (with_reducible exact .inr rfl) | (with_reducible exact .inr ⟨rfl, rfl⟩) | (with_reducible exact .inr ⟨rfl, rfl, rfl, rfl⟩) | exact .inr rfl⟩)
theorem fireSig_only {s : State} {r : Nat} {w : Win} (hk : Only S b0 s) (hS : Covers S [.jobs, .ridges, .path]) : Only S b0 (fireSig s r w) := by
  unfold fireSig
  dsimp only
  repeat' (first
    | (with_reducible first | assumption | refine updWin_only ?_ (hS.mono rfl) | refine sendSig_only ?_ (hS.mono rfl) | refine dropWin_only ?_ (hS.mono rfl) | refine updR_only ?_ (fun _ => ?_))
    | split
    | exact ⟨by first | exact .inl (hS.mem rfl) | (with_reducible exact .inr rfl) | (with_reducible exact .inr ⟨rfl, rfl⟩) | (with_reducible exact .inr ⟨rfl, rfl, rfl, rfl⟩) | exact .inr rfl, by first | exact .inl (hS.mem rfl) | (with_reducible exact .inr rfl) | (with_reducible exact .inr ⟨rfl, rfl⟩) | (with_reducible exact .inr ⟨rfl, rfl, rfl, rfl⟩) | exact .inr rfl, by first | exact .inl (hS.mem rfl) | (with_reducible exact .inr rfl) | (with_reducible exact .inr ⟨rfl, rfl⟩) | (with_reducible exact .inr ⟨rfl, rfl, rfl, rfl⟩) | exact .inr rfl, by first | exact .inl (hS.mem rfl) | (with_reducible exact .inr rfl) | (with_reducible exact .inr ⟨rfl, rfl⟩) | (with_reducible exact .inr ⟨rfl, rfl, rfl, rfl⟩) | exact .inr rfl⟩)
theorem endPart_only {s : State} {r : Nat} {code : W32} (hk : Only S b0 s) (hS : Covers S [.jobs, .ridges]) : Only S b0 (endPart s r code) := by
  unfold endPart
  dsimp only
  repeat' (first
    | (with_reducible first | assumption | refine updJob_only ?_ (hS.mono rfl) | refine updR_only ?_ (fun _ => ?_))
    | split
    | exact ⟨by first | exact .inl (hS.mem rfl) | (with_reducible exact .inr rfl) | (with_reducible exact .inr ⟨rfl, rfl⟩) | (with_reducible exact .inr ⟨rfl, rfl, rfl, rfl⟩) | exact .inr rfl, by first | exact .inl (hS.mem rfl) | (with_reducible exact .inr rfl) | (with_reducible exact .inr ⟨rfl, rfl⟩) | (with_reducible exact .inr ⟨rfl, rfl, rfl, rfl⟩) | exact .inr rfl, by first | exact .inl (hS.mem rfl) | (with_reducible exact .inr rfl) | (with_reducible exact .inr ⟨rfl, rfl⟩) | (with_reducible exact .inr ⟨rfl, rfl, rfl, rfl⟩) | exact .inr rfl, by first | exact .inl (hS.mem rfl) | (with_reducible exact .inr rfl) | (with_reducible exact .inr ⟨rfl, rfl⟩) | (with_reducible exact .inr ⟨rfl, rfl, rfl, rfl⟩) | exact .inr rfl⟩)
theorem settleCtxAux_only {r : Nat} {x : Ctx} (hS : Covers S [.jobs, .ridges, .path]) : ∀ (n : Nat) {s : State}, Only S b0 s → Only S b0 (settleCtxAux n s r x)
  | 0, _, hk => hk
  | n + 1, s, hk => by
    unfold settleCtxAux
    split
    · exact hk
    · split
      · exact settleCtxAux_only hS n (fireSig_only hk (hS.mono rfl))
      · split
        · split
          · exact endPart_only (dropWin_only hk (hS.mono rfl)) (hS.mono rfl)
          · exact updCtx_only (dropWin_only hk (hS.mono rfl)) (hS.mono rfl)
        · exact hk
theorem settleCtx_only {s : State} {r : Nat} {x : Ctx} (hk : Only S b0 s) (hS : Covers S [.jobs, .ridges, .path]) : Only S b0 (settleCtx s r x) := settleCtxAux_only (hS.mono rfl) _ hk
theorem retire_only {s : State} {r id : Nat} (hk : Only S b0 s) (hS : Covers S [.jobs, .ridges, .path]) : Only S b0 (retire s r id) := by
  unfold retire
  repeat' (first
    | (with_reducible first | assumption | refine settleCtx_only ?_ (hS.mono rfl) | refine dropWin_only ?_ (hS.mono rfl))
    | split)
theorem splDone_only {s : State} {r : Nat} {w : Win} (hk : Only S b0 s) (hS : Covers S [.host, .jobs, .loam, .slots, .ridges, .localMemory, .path, .col, .ropes, .links]) : Only S b0 (splDone s r w) := by
  unfold splDone
  dsimp only
  repeat' (first
    | (with_reducible first | assumption | refine OptAll.of_some (peerSendAll_only ?_ (hS.mono rfl)) (by assumption) | refine writePieces_only ?_ (hS.mono rfl) | refine updWin_only ?_ (hS.mono rfl) | refine execFault_only ?_ (hS.mono rfl) | refine stLoam_only ?_ (hS.mono rfl) | refine freeSlot_only ?_ (hS.mono rfl) | refine DvaAll.wait (ridgePlaces_only ?_ (hS.mono rfl)) (by assumption) | refine retire_only ?_ (hS.mono rfl))
    | split)
theorem aadReady_only {s : State} {r : Nat} {w : Win} (hk : Only S b0 s) (hS : Covers S [.host, .jobs, .slots, .ridges, .path, .col, .ropes, .links]) : Only S b0 (aadReady s r w) := by
  unfold aadReady
  dsimp only
  repeat' (first
    | (with_reducible first | assumption | refine updWin_only ?_ (hS.mono rfl) | refine aadImage_only ?_ (hS.mono rfl) | refine freeSlot_only ?_ (hS.mono rfl) | exact RidgesOnly.refl _)
    | (simp only [Only.fields]; with_reducible refine Only.upd ?_ ?_ ?_ ?_ ?_ ?_ ?_ ?_ ?_ ?_ ?_ ?_ ?_ ?_ ?_ ?_ ?_ ?_ ?_ ?_ ?_ ?_)
    | exact .inl (hS.mem rfl)
    | (with_reducible exact .inr rfl)
    | (with_reducible exact .inr ⟨rfl, rfl⟩)
    | split)
theorem settleWin_only {r : Nat} {s : State} {id : Nat} (hk : Only S b0 s) (hS : Covers S [.host, .jobs, .loam, .slots, .ridges, .localMemory, .path, .col, .ropes, .links]) : Only S b0 (settleWin r s id) := by
  unfold settleWin
  repeat' (first
    | (with_reducible first | assumption | refine splDone_only ?_ (hS.mono rfl) | refine aadReady_only ?_ (hS.mono rfl))
    | split)
theorem settleRidge_only {s : State} {r : Nat} (hk : Only S b0 s) (hS : Covers S [.host, .jobs, .loam, .slots, .ridges, .localMemory, .path, .col, .ropes, .links]) : Only S b0 (settleRidge s r) := by
  unfold settleRidge
  repeat' (first
    | (with_reducible first | assumption | refine settleWin_only ?_ (hS.mono rfl))
    | (with_reducible refine Only.foldl (fun _ _ _ => ?_) _ _ ?_) <;> try dsimp only)
theorem markDirty_only {s : State} {r : Nat} (hk : Only S b0 s) (hS : Covers S [.jobs]) : Only S b0 (markDirty s r) := by
  unfold markDirty
  dsimp only
  repeat' (first
    | (with_reducible first | assumption | refine updJob_only ?_ (hS.mono rfl))
    | split)
theorem setClosing_only {s : State} {r k : Nat} {b : Bool} (hk : Only S b0 s) (hS : Covers S [.slots]) : Only S b0 (setClosing s r k b) := by
  unfold setClosing
  dsimp only
  repeat' (first
    | (with_reducible first | assumption | refine setSlot_only ?_ (hS.mono rfl)))
theorem pushWin_only {s : State} {r : Nat} {w : Win} (hk : Only S b0 s) (hS : Covers S [.ridges]) : Only S b0 (pushWin s r w) := by
  unfold pushWin
  repeat' (first
    | (with_reducible first | assumption | refine updR_only ?_ (fun _ => ?_))
    | exact ⟨by first | exact .inl (hS.mem rfl) | (with_reducible exact .inr rfl) | (with_reducible exact .inr ⟨rfl, rfl⟩) | (with_reducible exact .inr ⟨rfl, rfl, rfl, rfl⟩) | exact .inr rfl, by first | exact .inl (hS.mem rfl) | (with_reducible exact .inr rfl) | (with_reducible exact .inr ⟨rfl, rfl⟩) | (with_reducible exact .inr ⟨rfl, rfl, rfl, rfl⟩) | exact .inr rfl, by first | exact .inl (hS.mem rfl) | (with_reducible exact .inr rfl) | (with_reducible exact .inr ⟨rfl, rfl⟩) | (with_reducible exact .inr ⟨rfl, rfl, rfl, rfl⟩) | exact .inr rfl, by first | exact .inl (hS.mem rfl) | (with_reducible exact .inr rfl) | (with_reducible exact .inr ⟨rfl, rfl⟩) | (with_reducible exact .inr ⟨rfl, rfl, rfl, rfl⟩) | exact .inr rfl⟩)
theorem aadImageGo_only {s : State} {r : Nat} {x : Ctx} {w : W128} {ws : List LRange} (hk : Only S b0 s) (hS : Covers S [.host, .jobs, .loam, .slots, .ridges, .localMemory, .path, .col, .ropes, .links]) : IssAll (Only S b0) (aadImageGo s r x w ws) := by
  unfold aadImageGo
  dsimp only
  repeat' (first
    | (with_reducible first | assumption | refine settleRidge_only ?_ (hS.mono rfl) | refine markDirty_only ?_ (hS.mono rfl) | refine setClosing_only ?_ (hS.mono rfl) | refine pushWin_only ?_ (hS.mono rfl) | refine IssAll.intro_next ?_))
theorem aadSlotBody_only {r : Ridge} {x : Ctx} {w : W128} {s : State} (hk : Only S b0 s) (hS : Covers S [.host, .jobs, .loam, .slots, .ridges, .localMemory, .path, .col, .ropes, .links]) : IssAll (Only S b0) (aadSlotBody r x w s) := by
  unfold aadSlotBody
  dsimp only
  repeat' (first
    | (with_reducible first | assumption | refine settleRidge_only ?_ (hS.mono rfl) | refine setClosing_only ?_ (hS.mono rfl) | refine aadImageGo_only ?_ (hS.mono rfl) | refine DvaAll.wait (ridgePlaces_only ?_ (hS.mono rfl)) (by assumption) | refine pushWin_only ?_ (hS.mono rfl) | refine IssAll.intro_next ?_ | refine IssAll.intro_stay ?_)
    | exact trivial
    | split)
theorem vecAtomics_only {s : State} {j : Job} {r : Nat} {w : W128} {id : Nat} {l : List (Place × Nat)} {d : List Byte} (hk : Only S b0 s) (hS : Covers S [.jobs, .slots, .path, .links]) : Only S b0 (vecAtomics s j r w id l d) := by
  unfold vecAtomics
  dsimp only
  repeat' (first
    | (with_reducible first | assumption | refine addAtomic_only ?_ (hS.mono rfl))
    | (with_reducible refine Only.foldl_fst (fun _ _ _ => ?_) _ _ ?_) <;> try dsimp only)
theorem aadVecBody_only {r : Ridge} {x : Ctx} {w : W128} {s : State} (hk : Only S b0 s) (hS : Covers S [.jobs, .slots, .ridges, .path, .col, .links]) : IssAll (Only S b0) (aadVecBody r x w s) := by
  unfold aadVecBody
  dsimp only
  repeat' (first
    | (with_reducible first | assumption | refine markDirty_only ?_ (hS.mono rfl) | refine WhereAll.wait (maddrPlaces_only ?_ (hS.mono rfl)) (by assumption) | refine vecAtomics_only ?_ (hS.mono rfl) | refine pushWin_only ?_ (hS.mono rfl) | refine IssAll.intro_next ?_ | refine IssAll.intro_stay ?_)
    | exact trivial
    | split)
theorem setP_only {s : State} {p : Nat} {v : Part} (hk : Only S b0 s) (hS : Covers S [.parts]) : Only S b0 (setP s p v) := by
  unfold setP
  repeat' (first
    | (with_reducible first | assumption | exact RidgesOnly.refl _)
    | (simp only [Only.fields]; with_reducible refine Only.upd ?_ ?_ ?_ ?_ ?_ ?_ ?_ ?_ ?_ ?_ ?_ ?_ ?_ ?_ ?_ ?_ ?_ ?_ ?_ ?_ ?_ ?_)
    | exact .inl (hS.mem rfl)
    | (with_reducible exact .inr rfl)
    | (with_reducible exact .inr ⟨rfl, rfl⟩))
theorem updP_only {s : State} {p : Nat} {f : Part → Part} (hk : Only S b0 s) (hS : Covers S [.parts]) : Only S b0 (updP s p f) := by
  unfold updP
  repeat' (first
    | (with_reducible first | assumption | refine setP_only ?_ (hS.mono rfl)))
theorem dropJob_only {s : State} {p : Nat} {id : W32} (hk : Only S b0 s) (hS : Covers S [.jobs]) : Only S b0 (dropJob s p id) := by
  unfold dropJob
  repeat' (first
    | (with_reducible first | assumption | exact RidgesOnly.refl _)
    | (simp only [Only.fields]; with_reducible refine Only.upd ?_ ?_ ?_ ?_ ?_ ?_ ?_ ?_ ?_ ?_ ?_ ?_ ?_ ?_ ?_ ?_ ?_ ?_ ?_ ?_ ?_ ?_)
    | exact .inl (hS.mem rfl)
    | (with_reducible exact .inr rfl)
    | (with_reducible exact .inr ⟨rfl, rfl⟩))
theorem finishJob_only {s : State} {j : Job} {extra : List Nat} (hk : Only S b0 s) (hS : Covers S [.host, .parts, .jobs, .col]) : Only S b0 (finishJob s j extra) := by
  unfold finishJob
  dsimp only
  repeat' (first
    | (with_reducible first | assumption | refine pinSync_only ?_ (hS.mono rfl) | refine postCqe_only ?_ (hS.mono rfl) | refine updP_only ?_ (hS.mono rfl) | refine dropJob_only ?_ (hS.mono rfl) | refine dropCmd_only ?_ (hS.mono rfl))
    | split)
theorem dropWork_only {s : State} {p : Nat} {id : W32} (hk : Only S b0 s) (hS : Covers S [.path, .links]) : Only S b0 (dropWork s p id) := by
  unfold dropWork
  dsimp only
  repeat' (first
    | (with_reducible first | assumption | exact RidgesOnly.refl _)
    | (simp only [Only.fields]; with_reducible refine Only.upd ?_ ?_ ?_ ?_ ?_ ?_ ?_ ?_ ?_ ?_ ?_ ?_ ?_ ?_ ?_ ?_ ?_ ?_ ?_ ?_ ?_ ?_)
    | exact .inl (hS.mem rfl)
    | (with_reducible exact .inr rfl)
    | (with_reducible exact .inr ⟨rfl, rfl⟩))
theorem ropeDrop_only {s : State} {e : Nat} (hk : Only S b0 s) (hS : Covers S [.ropes]) : Only S b0 (ropeDrop s e) := by
  unfold ropeDrop
  dsimp only
  repeat' (first
    | (with_reducible first | assumption | refine setRope_only ?_ (hS.mono rfl))
    | split)
theorem ropeKill_only {s : State} {e cause : Nat} (hk : Only S b0 s) (hS : Covers S [.host, .jobs, .slots, .ridges, .col, .ropes]) : Only S b0 (ropeKill s e cause) := by
  unfold ropeKill
  repeat' (first
    | (with_reducible first | assumption | refine ropeDrop_only ?_ (hS.mono rfl) | refine ropeAbort_only ?_ (hS.mono rfl))
    | split)
theorem clearJob_only {s : State} {j : Job} (hk : Only S b0 s) (hS : Covers S [.host, .jobs, .slots, .ridges, .path, .col, .ropes, .links]) : Only S b0 (clearJob s j) := by
  unfold clearJob
  dsimp only
  repeat' (first
    | (with_reducible first | assumption | refine dropWork_only ?_ (hS.mono rfl) | refine ropeWake_only ?_ (hS.mono rfl) | refine ropeKill_only ?_ (hS.mono rfl) | refine updR_only ?_ (fun _ => ?_) | exact RidgesOnly.refl _ | exact leaveRidge_ronly (RidgeOnly.refl _) (hS.mono rfl))
    | (simp only [Only.fields]; with_reducible refine Only.upd ?_ ?_ ?_ ?_ ?_ ?_ ?_ ?_ ?_ ?_ ?_ ?_ ?_ ?_ ?_ ?_ ?_ ?_ ?_ ?_ ?_ ?_)
    | (with_reducible refine Only.foldl (fun _ _ _ => ?_) _ _ ?_) <;> try dsimp only
    | exact .inl (hS.mem rfl)
    | (with_reducible exact .inr rfl)
    | (with_reducible exact .inr ⟨rfl, rfl⟩))
theorem endJob_only {s : State} {j : Job} {extra : List Nat} (hk : Only S b0 s) (hS : Covers S [.host, .parts, .jobs, .slots, .ridges, .path, .col, .ropes, .links]) : Only S b0 (endJob s j extra) := by
  unfold endJob
  dsimp only
  repeat' (first
    | (with_reducible first | assumption | refine finishJob_only ?_ (hS.mono rfl) | refine clearJob_only ?_ (hS.mono rfl))
    | split)
theorem abortDo_only {s : State} {c : Cmd} (hk : Only S b0 s) (hS : Covers S [.host, .parts, .jobs, .slots, .ridges, .path, .col, .ropes, .links]) : Only S b0 (abortDo s c) := by
  unfold abortDo
  dsimp only
  repeat' (first
    | (with_reducible first | assumption | refine endJob_only ?_ (hS.mono rfl) | refine complete_only ?_ (hS.mono rfl))
    | (with_reducible refine Only.foldl (fun _ _ _ => ?_) _ _ ?_) <;> try dsimp only
    | split)
theorem abortEntry_only {s : State} {id : QId} {b : List Byte} (hk : Only S b0 s) (hS : Covers S [.col]) : Only S b0 (abortEntry s id b) := by
  unfold abortEntry
  repeat' (first
    | (with_reducible first | assumption | refine postCqe_only ?_ (hS.mono rfl)))
theorem abortOld_only {s0 s : State} {id : QId} {old : Queue} (hk : Only S b0 s) (hS : Covers S [.col]) : Only S b0 (abortOld s0 s id old) := by
  unfold abortOld
  refine Only.foldl (fun t i h => ?_) _ _ hk
  split
  · exact abortEntry_only h (hS.mono rfl)
  · exact postCqe_only (useFree_only h (hS.mono rfl)) (hS.mono rfl)
theorem writeDone_only {s : State} {r win : Nat} (hk : Only S b0 s) (hS : Covers S [.jobs, .ridges, .path]) : Only S b0 (writeDone s r win) := by
  unfold writeDone
  repeat' (first
    | (with_reducible first | assumption | refine updWin_only ?_ (hS.mono rfl) | refine retire_only ?_ (hS.mono rfl))
    | split)
theorem savedDone_only {s : State} {o : Outstanding} (hk : Only S b0 s) (hS : Covers S [.jobs]) : Only S b0 (savedDone s o) := by
  unfold savedDone
  dsimp only
  repeat' (first
    | (with_reducible first | assumption | refine updJob_only ?_ (hS.mono rfl)))
theorem atomDone_only {s : State} {r win : Nat} (hk : Only S b0 s) (hS : Covers S [.host, .jobs, .loam, .slots, .ridges, .localMemory, .path, .col, .ropes, .links]) : Only S b0 (atomDone s r win) := by
  unfold atomDone
  repeat' (first
    | (with_reducible first | assumption | refine updWin_only ?_ (hS.mono rfl) | refine settleWin_only ?_ (hS.mono rfl) | refine retire_only ?_ (hS.mono rfl))
    | split)
theorem setDma_only {s : State} {c : Nat} {l : List Dma} (hk : Only S b0 s) (hS : Covers S [.path]) : Only S b0 (setDma s c l) := by
  unfold setDma
  dsimp only
  repeat' (first
    | (with_reducible first | assumption | exact RidgesOnly.refl _)
    | (simp only [Only.fields]; with_reducible refine Only.upd ?_ ?_ ?_ ?_ ?_ ?_ ?_ ?_ ?_ ?_ ?_ ?_ ?_ ?_ ?_ ?_ ?_ ?_ ?_ ?_ ?_ ?_)
    | exact .inl (hS.mem rfl)
    | (with_reducible exact .inr rfl)
    | (with_reducible exact .inr ⟨rfl, rfl⟩))
theorem dmaAnswered_only {s : State} {c id : Nat} {bad : Bool} (hk : Only S b0 s) (hS : Covers S [.path]) : Only S b0 (dmaAnswered s c id bad) := by
  unfold dmaAnswered
  repeat' (first
    | (with_reducible first | assumption | refine setDma_only ?_ (hS.mono rfl)))
theorem accessDone_only {s : State} {j : Job} {o : Outstanding} (hk : Only S b0 s) (hS : Covers S [.host, .jobs, .loam, .slots, .ridges, .localMemory, .path, .col, .ropes, .links]) : Only S b0 (accessDone s j o) := by
  unfold accessDone
  repeat' (first
    | (with_reducible first | assumption | refine settleRidge_only ?_ (hS.mono rfl) | refine writeDone_only ?_ (hS.mono rfl) | refine savedDone_only ?_ (hS.mono rfl) | refine atomDone_only ?_ (hS.mono rfl) | refine dmaAnswered_only ?_ (hS.mono rfl))
    | split)
theorem atomFault_only {s : State} {r win code : Nat} (hk : Only S b0 s) (hS : Covers S [.host, .jobs, .slots, .ridges, .col, .ropes]) : Only S b0 (atomFault s r win code) := by
  unfold atomFault
  repeat' (first
    | (with_reducible first | assumption | refine execFault_only ?_ (hS.mono rfl))
    | split)
theorem accessFault_only {s : State} {j : Job} {o : Outstanding} {code : Nat} (hk : Only S b0 s) (hS : Covers S [.host, .jobs, .slots, .ridges, .path, .col, .ropes]) : Only S b0 (accessFault s j o code) := by
  unfold accessFault
  repeat' (first
    | (with_reducible first | assumption | refine atomFault_only ?_ (hS.mono rfl) | refine updJob_only ?_ (hS.mono rfl) | refine dmaAnswered_only ?_ (hS.mono rfl))
    | split)
theorem ringRefused_only {s : State} {j : Job} {c cause : Nat} {o : Outstanding} (hk : Only S b0 s) (hS : Covers S [.ridges]) : Only S b0 (ringRefused s j c cause o) := by
  unfold ringRefused
  dsimp only
  repeat' (first
    | (with_reducible first | assumption | refine updR_only ?_ (fun _ => ?_))
    | (with_reducible refine Only.foldl (fun _ _ _ => ?_) _ _ ?_) <;> try dsimp only
    | exact ⟨by first | exact .inl (hS.mem rfl) | (with_reducible exact .inr rfl) | (with_reducible exact .inr ⟨rfl, rfl⟩) | (with_reducible exact .inr ⟨rfl, rfl, rfl, rfl⟩) | exact .inr rfl, by first | exact .inl (hS.mem rfl) | (with_reducible exact .inr rfl) | (with_reducible exact .inr ⟨rfl, rfl⟩) | (with_reducible exact .inr ⟨rfl, rfl, rfl, rfl⟩) | exact .inr rfl, by first | exact .inl (hS.mem rfl) | (with_reducible exact .inr rfl) | (with_reducible exact .inr ⟨rfl, rfl⟩) | (with_reducible exact .inr ⟨rfl, rfl, rfl, rfl⟩) | exact .inr rfl, by first | exact .inl (hS.mem rfl) | (with_reducible exact .inr rfl) | (with_reducible exact .inr ⟨rfl, rfl⟩) | (with_reducible exact .inr ⟨rfl, rfl, rfl, rfl⟩) | exact .inr rfl⟩)
theorem accessRefused_only {s : State} {j : Job} {o : Outstanding} {cause : Nat} (hk : Only S b0 s) (hS : Covers S [.jobs, .ridges, .path, .col]) : Only S b0 (accessRefused s j o cause) := by
  unfold accessRefused
  dsimp only
  repeat' (first
    | (with_reducible first | assumption | refine mmuFault_only ?_ (hS.mono rfl) | refine ridgeMmu_only ?_ (hS.mono rfl) | refine ringRefused_only ?_ (hS.mono rfl) | refine updJob_only ?_ (hS.mono rfl) | exact RidgesOnly.refl _)
    | (simp only [Only.fields]; with_reducible refine Only.upd ?_ ?_ ?_ ?_ ?_ ?_ ?_ ?_ ?_ ?_ ?_ ?_ ?_ ?_ ?_ ?_ ?_ ?_ ?_ ?_ ?_ ?_)
    | exact .inl (hS.mem rfl)
    | (with_reducible exact .inr rfl)
    | (with_reducible exact .inr ⟨rfl, rfl⟩)
    | split)
theorem addCounts_only {s : State} {r : Nat} {x : Ctx} {g : Staged} (hk : Only S b0 s) (hS : Covers S [.jobs]) : Only S b0 (addCounts s r x g) := by
  unfold addCounts
  repeat' (first
    | (with_reducible first | assumption | refine updJob_only ?_ (hS.mono rfl))
    | split)
theorem addOutsat_only {s : State} {r : Nat} {x : Ctx} {n : Nat} (hk : Only S b0 s) (hS : Covers S [.jobs]) : Only S b0 (addOutsat s r x n) := by
  unfold addOutsat
  repeat' (first
    | (with_reducible first | assumption | refine addCounts_only ?_ (hS.mono rfl)))
theorem setQ_only {s : State} {q : QId} {v : Queue} (hk : Only S b0 s) (hS : Covers S [.host]) : Only S b0 (setQ s q v) := by
  unfold setQ
  dsimp only
  repeat' (first
    | (with_reducible first | assumption | exact RidgesOnly.refl _)
    | (simp only [Only.fields]; with_reducible refine Only.upd ?_ ?_ ?_ ?_ ?_ ?_ ?_ ?_ ?_ ?_ ?_ ?_ ?_ ?_ ?_ ?_ ?_ ?_ ?_ ?_ ?_ ?_)
    | exact .inl (hS.mem rfl)
    | (with_reducible exact .inr rfl)
    | (with_reducible exact .inr ⟨rfl, rfl⟩)
    | split)
theorem adminOff_only {s : State} {p : Port} (hk : Only S b0 s) (hS : Covers S [.host]) : Only S b0 (adminOff s p) := by
  unfold adminOff
  dsimp only
  repeat' (first
    | (with_reducible first | assumption | refine setQ_only ?_ (hS.mono rfl)))
theorem admitMgmt_only {s : State} {n : Nat} (hk : Only S b0 s) (hS : Covers S [.links]) : OptAll (Only S b0) (admitMgmt s n) := by
  unfold admitMgmt
  dsimp only
  repeat' (first
    | (with_reducible first | assumption | refine setLink_only ?_ (hS.mono rfl) | refine OptAll.intro ?_)
    | exact trivial
    | split)
theorem advance_only {s : State} {r : Nat} {x : Ctx} (hk : Only S b0 s) (hS : Covers S [.ridges]) : Only S b0 (advance s r x) := by
  unfold advance
  repeat' (first
    | (with_reducible first | assumption | refine updCtx_only ?_ (hS.mono rfl)))
theorem doubt_only {s : State} {t : Nat} {o : Outstanding} (hk : Only S b0 s) (hS : Covers S [.jobs, .col, .links]) : Only S b0 (doubt s t o) := by
  unfold doubt
  dsimp only
  repeat' (first
    | (with_reducible first | assumption | refine mmuFault_only ?_ (hS.mono rfl) | refine updJob_only ?_ (hS.mono rfl) | refine setTag_only ?_ (hS.mono rfl))
    | split)
theorem unreachable_only {s : State} {t : Nat} {j : Job} {o : Outstanding} (hk : Only S b0 s) (hS : Covers S [.jobs, .ridges, .path, .col, .links]) : Only S b0 (unreachable s t j o) := by
  unfold unreachable
  repeat' (first
    | (with_reducible first | assumption | refine doubt_only ?_ (hS.mono rfl) | refine setTag_only ?_ (hS.mono rfl) | refine accessRefused_only ?_ (hS.mono rfl))
    | split)
theorem again_only {s : State} {t : Nat} {j : Job} {o : Outstanding} (hk : Only S b0 s) (hS : Covers S [.jobs, .ridges, .path, .col, .links]) : Only S b0 (again s t j o) := by
  unfold again
  repeat' (first
    | (with_reducible first | assumption | refine sendFrame_only ?_ (hS.mono rfl) | refine setTag_only ?_ (hS.mono rfl) | refine unreachable_only ?_ (hS.mono rfl))
    | split)
theorem allTestsDue_only {s : State} (hk : Only S b0 s) (hS : Covers S [.ridges]) : Only S b0 (allTestsDue s) := by
  unfold allTestsDue
  dsimp only
  repeat' (first
    | (with_reducible first | assumption | refine updR_only ?_ (fun _ => ?_))
    | (with_reducible refine Only.foldl (fun _ _ _ => ?_) _ _ ?_) <;> try dsimp only
    | exact ⟨by first | exact .inl (hS.mem rfl) | (with_reducible exact .inr rfl) | (with_reducible exact .inr ⟨rfl, rfl⟩) | (with_reducible exact .inr ⟨rfl, rfl, rfl, rfl⟩) | exact .inr rfl, by first | exact .inl (hS.mem rfl) | (with_reducible exact .inr rfl) | (with_reducible exact .inr ⟨rfl, rfl⟩) | (with_reducible exact .inr ⟨rfl, rfl, rfl, rfl⟩) | exact .inr rfl, by first | exact .inl (hS.mem rfl) | (with_reducible exact .inr rfl) | (with_reducible exact .inr ⟨rfl, rfl⟩) | (with_reducible exact .inr ⟨rfl, rfl, rfl, rfl⟩) | exact .inr rfl, by first | exact .inl (hS.mem rfl) | (with_reducible exact .inr rfl) | (with_reducible exact .inr ⟨rfl, rfl⟩) | (with_reducible exact .inr ⟨rfl, rfl, rfl, rfl⟩) | exact .inr rfl⟩)
theorem announce_only {s : State} {d : List Byte} (hk : Only S b0 s) (hS : Covers S [.jobs, .ridges]) : Only S b0 (announce s d) := by
  unfold announce
  dsimp only
  repeat' (first
    | (with_reducible first | assumption | refine addCounter_only ?_ (hS.mono rfl))
    | split)
theorem answer_only {s : State} {b : List Byte} (hk : Only S b0 s) (hS : Covers S [.security]) : Only S b0 (answer s b) := by
  unfold answer
  dsimp only
  repeat' (first
    | (with_reducible first | assumption | exact RidgesOnly.refl _)
    | (simp only [Only.fields]; with_reducible refine Only.upd ?_ ?_ ?_ ?_ ?_ ?_ ?_ ?_ ?_ ?_ ?_ ?_ ?_ ?_ ?_ ?_ ?_ ?_ ?_ ?_ ?_ ?_)
    | exact .inl (hS.mem rfl)
    | (with_reducible exact .inr rfl)
    | (with_reducible exact .inr ⟨rfl, rfl⟩))
theorem updTile_only {s : State} {r t : Nat} {f : Tile → Tile} (hk : Only S b0 s) (hS : Covers S [.tiles]) : Only S b0 (updTile s r t f) := by
  unfold updTile
  repeat' (first
    | (with_reducible first | assumption | refine updR_only ?_ (fun _ => ?_))
    | exact ⟨by first | exact .inl (hS.mem rfl) | (with_reducible exact .inr rfl) | (with_reducible exact .inr ⟨rfl, rfl⟩) | (with_reducible exact .inr ⟨rfl, rfl, rfl, rfl⟩) | exact .inr rfl, by first | exact .inl (hS.mem rfl) | (with_reducible exact .inr rfl) | (with_reducible exact .inr ⟨rfl, rfl⟩) | (with_reducible exact .inr ⟨rfl, rfl, rfl, rfl⟩) | exact .inr rfl, by first | exact .inl (hS.mem rfl) | (with_reducible exact .inr rfl) | (with_reducible exact .inr ⟨rfl, rfl⟩) | (with_reducible exact .inr ⟨rfl, rfl, rfl, rfl⟩) | exact .inr rfl, by first | exact .inl (hS.mem rfl) | (with_reducible exact .inr rfl) | (with_reducible exact .inr ⟨rfl, rfl⟩) | (with_reducible exact .inr ⟨rfl, rfl, rfl, rfl⟩) | exact .inr rfl⟩)
theorem requestSurvey_only {s : State} {r t : Nat} (hk : Only S b0 s) (hS : Covers S [.tiles]) : Only S b0 (requestSurvey s r t) := by
  unfold requestSurvey
  repeat' (first
    | (with_reducible first | assumption | refine updTile_only ?_ (hS.mono rfl)))
theorem startProbe_only {s : State} {r : Nat} {x : Ctx} {w : W128} {p : Nat} {g : Golden} {k : Nat} (hk : Only S b0 s) (hS : Covers S [.ridges]) : Only S b0 (startProbe s r x w p g k) := by
  unfold startProbe
  dsimp only
  repeat' (first
    | (with_reducible first | assumption | refine pushWin_only ?_ (hS.mono rfl)))
theorem probeTile_only {s : State} {r t : Nat} (hk : Only S b0 s) (hS : Covers S [.ridges]) : Only S b0 (probeTile s r t) := by
  unfold probeTile
  repeat' (first
    | (with_reducible first | assumption | refine startProbe_only ?_ (hS.mono rfl))
    | split)
theorem answerClip_only {s : State} {r t : Nat} (hk : Only S b0 s) (hS : Covers S [.tiles, .ridges]) : Only S b0 (answerClip s r t) := by
  unfold answerClip
  dsimp only
  repeat' (first
    | (with_reducible first | assumption | refine requestSurvey_only ?_ (hS.mono rfl) | refine probeTile_only ?_ (hS.mono rfl))
    | split)
theorem queueRec_only {s : State} {cls idx : Nat} {data : List Byte} (hk : Only S b0 s) (hS : Covers S [.clay]) : Only S b0 (queueRec s cls idx data) := by
  unfold queueRec
  dsimp only
  repeat' (first
    | (with_reducible first | assumption | exact RidgesOnly.refl _)
    | (simp only [Only.fields]; with_reducible refine Only.upd ?_ ?_ ?_ ?_ ?_ ?_ ?_ ?_ ?_ ?_ ?_ ?_ ?_ ?_ ?_ ?_ ?_ ?_ ?_ ?_ ?_ ?_)
    | exact .inl (hS.mem rfl)
    | (with_reducible exact .inr rfl)
    | (with_reducible exact .inr ⟨rfl, rfl⟩))
theorem episodeOcc_only {s : State} {subject cause : Nat} (hk : Only S b0 s) (hS : Covers S [.links]) : Only S b0 (episodeOcc s subject cause) := by
  unfold episodeOcc
  dsimp only
  repeat' (first
    | (with_reducible first | assumption | exact RidgesOnly.refl _)
    | (simp only [Only.fields]; with_reducible refine Only.upd ?_ ?_ ?_ ?_ ?_ ?_ ?_ ?_ ?_ ?_ ?_ ?_ ?_ ?_ ?_ ?_ ?_ ?_ ?_ ?_ ?_ ?_)
    | exact .inl (hS.mem rfl)
    | (with_reducible exact .inr rfl)
    | (with_reducible exact .inr ⟨rfl, rfl⟩))
theorem setCoal_only {s : State} {k : Nat} {c : Coal} (hk : Only S b0 s) (hS : Covers S [.col]) : Only S b0 (setCoal s k c) := by
  unfold setCoal
  dsimp only
  repeat' (first
    | (with_reducible first | assumption | exact RidgesOnly.refl _)
    | (simp only [Only.fields]; with_reducible refine Only.upd ?_ ?_ ?_ ?_ ?_ ?_ ?_ ?_ ?_ ?_ ?_ ?_ ?_ ?_ ?_ ?_ ?_ ?_ ?_ ?_ ?_ ?_)
    | exact .inl (hS.mem rfl)
    | (with_reducible exact .inr rfl)
    | (with_reducible exact .inr ⟨rfl, rfl⟩))
theorem raiseCoal_only {s : State} {kind n v : Nat} {e : Ev} (hk : Only S b0 s) (hS : Covers S [.col]) : Only S b0 (raiseCoal s kind n v e) := by
  unfold raiseCoal
  dsimp only
  repeat' (first
    | (with_reducible first | assumption | refine enq_only ?_ (hS.mono rfl) | refine setCoal_only ?_ (hS.mono rfl) | exact RidgesOnly.refl _)
    | (simp only [Only.fields]; with_reducible refine Only.upd ?_ ?_ ?_ ?_ ?_ ?_ ?_ ?_ ?_ ?_ ?_ ?_ ?_ ?_ ?_ ?_ ?_ ?_ ?_ ?_ ?_ ?_)
    | exact .inl (hS.mem rfl)
    | (with_reducible exact .inr rfl)
    | (with_reducible exact .inr ⟨rfl, rfl⟩)
    | split)
theorem linkEvent_only {s : State} {n cause : Nat} (hk : Only S b0 s) (hS : Covers S [.col, .links]) : Only S b0 (linkEvent s n cause) := by
  unfold linkEvent
  dsimp only
  repeat' (first
    | (with_reducible first | assumption | refine raiseCoal_only ?_ (hS.mono rfl) | refine setLink_only ?_ (hS.mono rfl) | refine raise_only ?_ (hS.mono rfl))
    | split)
theorem dropFrame_only {s : State} {n cause : Nat} (hk : Only S b0 s) (hS : Covers S [.col, .links]) : Only S b0 (dropFrame s n cause) := by
  unfold dropFrame
  dsimp only
  repeat' (first
    | (with_reducible first | assumption | refine linkEvent_only ?_ (hS.mono rfl) | refine setLink_only ?_ (hS.mono rfl))
    | split)
theorem mgmtDrop_only {s : State} {n : Nat} (hk : Only S b0 s) (hS : Covers S [.col, .links]) : Only S b0 (mgmtDrop s n) := by
  unfold mgmtDrop
  dsimp only
  repeat' (first
    | (with_reducible first | assumption | refine dropFrame_only ?_ (hS.mono rfl) | exact RidgesOnly.refl _)
    | (simp only [Only.fields]; with_reducible refine Only.upd ?_ ?_ ?_ ?_ ?_ ?_ ?_ ?_ ?_ ?_ ?_ ?_ ?_ ?_ ?_ ?_ ?_ ?_ ?_ ?_ ?_ ?_)
    | exact .inl (hS.mem rfl)
    | (with_reducible exact .inr rfl)
    | (with_reducible exact .inr ⟨rfl, rfl⟩))
theorem sendMgmt_only {s : State} {n : Nat} {f : Frame} (hk : Only S b0 s) (hS : Covers S [.col, .links]) : Only S b0 (sendMgmt s n f) := by
  unfold sendMgmt
  dsimp only
  repeat' (first
    | (with_reducible first | assumption | refine setLink_only ?_ (hS.mono rfl) | refine sendFrame_only ?_ (hS.mono rfl) | refine mgmtDrop_only ?_ (hS.mono rfl))
    | split)
theorem sendReports_only {s : State} {subject cause : Nat} {boot : W32} (hk : Only S b0 s) (hS : Covers S [.col, .links]) : Only S b0 (sendReports s subject cause boot) := by
  unfold sendReports
  repeat' (first
    | (with_reducible first | assumption | refine sendMgmt_only ?_ (hS.mono rfl))
    | (with_reducible refine Only.foldl (fun _ _ _ => ?_) _ _ ?_) <;> try dsimp only
    | split)
theorem peerOcc_only {s : State} {subject cause : Nat} {port : Option Nat} {reporter : Nat} {boot : W32} (hk : Only S b0 s) (hS : Covers S [.col, .links]) : Only S b0 (peerOcc s subject cause port reporter boot) := by
  unfold peerOcc
  dsimp only
  repeat' (first
    | (with_reducible first | assumption | refine episodeOcc_only ?_ (hS.mono rfl) | refine raiseCoal_only ?_ (hS.mono rfl) | exact RidgesOnly.refl _)
    | (simp only [Only.fields]; with_reducible refine Only.upd ?_ ?_ ?_ ?_ ?_ ?_ ?_ ?_ ?_ ?_ ?_ ?_ ?_ ?_ ?_ ?_ ?_ ?_ ?_ ?_ ?_ ?_)
    | exact .inl (hS.mem rfl)
    | (with_reducible exact .inr rfl)
    | (with_reducible exact .inr ⟨rfl, rfl⟩)
    | split)
theorem peerChange_only {s : State} {subject cause : Nat} {boot : W32} (hk : Only S b0 s) (hS : Covers S [.col, .links]) : Only S b0 (peerChange s subject cause boot) := by
  unfold peerChange
  dsimp only
  repeat' (first
    | (with_reducible first | assumption | refine sendReports_only ?_ (hS.mono rfl) | refine peerOcc_only ?_ (hS.mono rfl))
    | split)
theorem setRoute_only {s : State} {d : Nat} {e : W16} (hk : Only S b0 s) (hS : Covers S [.col, .links]) : Only S b0 (setRoute s d e) := by
  unfold setRoute
  dsimp only
  repeat' (first
    | (with_reducible first | assumption | refine peerChange_only ?_ (hS.mono rfl) | exact RidgesOnly.refl _)
    | (simp only [Only.fields]; with_reducible refine Only.upd ?_ ?_ ?_ ?_ ?_ ?_ ?_ ?_ ?_ ?_ ?_ ?_ ?_ ?_ ?_ ?_ ?_ ?_ ?_ ?_ ?_ ?_)
    | exact .inl (hS.mem rfl)
    | (with_reducible exact .inr rfl)
    | (with_reducible exact .inr ⟨rfl, rfl⟩)
    | split)
theorem clearValid_only {s : State} {d : Nat} (hk : Only S b0 s) (hS : Covers S [.col, .links]) : Only S b0 (clearValid s d) := by
  unfold clearValid
  repeat' (first
    | (with_reducible first | assumption | refine setRoute_only ?_ (hS.mono rfl))
    | split)
theorem setPeer_only {s : State} {d : Nat} {q : Peer} (hk : Only S b0 s) (hS : Covers S [.links]) : Only S b0 (setPeer s d q) := by
  unfold setPeer
  dsimp only
  repeat' (first
    | (with_reducible first | assumption | exact RidgesOnly.refl _)
    | (simp only [Only.fields]; with_reducible refine Only.upd ?_ ?_ ?_ ?_ ?_ ?_ ?_ ?_ ?_ ?_ ?_ ?_ ?_ ?_ ?_ ?_ ?_ ?_ ?_ ?_ ?_ ?_)
    | exact .inl (hS.mem rfl)
    | (with_reducible exact .inr rfl)
    | (with_reducible exact .inr ⟨rfl, rfl⟩))
theorem applyOverride_only {s : State} {b : List Byte} (hk : Only S b0 s) (hS : Covers S [.col, .links, .clay]) : Only S b0 (applyOverride s b) := by
  unfold applyOverride
  dsimp only
  repeat' (first
    | (with_reducible first | assumption | refine queueRec_only ?_ (hS.mono rfl) | refine clearValid_only ?_ (hS.mono rfl) | refine setPeer_only ?_ (hS.mono rfl) | exact RidgesOnly.refl _)
    | (simp only [Only.fields]; with_reducible refine Only.upd ?_ ?_ ?_ ?_ ?_ ?_ ?_ ?_ ?_ ?_ ?_ ?_ ?_ ?_ ?_ ?_ ?_ ?_ ?_ ?_ ?_ ?_)
    | exact .inl (hS.mem rfl)
    | (with_reducible exact .inr rfl)
    | (with_reducible exact .inr ⟨rfl, rfl⟩)
    | split)
theorem loseFrames_only {s : State} {n : Nat} (hk : Only S b0 s) (hS : Covers S [.links]) : Only S b0 (loseFrames s n) := by
  unfold loseFrames
  dsimp only
  repeat' (first
    | (with_reducible first | assumption | refine setLink_only ?_ (hS.mono rfl) | refine sendFrame_only ?_ (hS.mono rfl) | refine setTag_only ?_ (hS.mono rfl) | exact RidgesOnly.refl _)
    | (simp only [Only.fields]; with_reducible refine Only.upd ?_ ?_ ?_ ?_ ?_ ?_ ?_ ?_ ?_ ?_ ?_ ?_ ?_ ?_ ?_ ?_ ?_ ?_ ?_ ?_ ?_ ?_)
    | (with_reducible refine Only.foldl (fun _ _ _ => ?_) _ _ ?_) <;> try dsimp only
    | exact .inl (hS.mem rfl)
    | (with_reducible exact .inr rfl)
    | (with_reducible exact .inr ⟨rfl, rfl⟩)
    | split)
theorem peerLost_only {s : State} {d : Nat} (hk : Only S b0 s) (hS : Covers S [.col, .links]) : Only S b0 (peerLost s d) := by
  unfold peerLost
  dsimp only
  repeat' (first
    | (with_reducible first | assumption | refine clearValid_only ?_ (hS.mono rfl) | refine setPeer_only ?_ (hS.mono rfl) | refine peerChange_only ?_ (hS.mono rfl))
    | split)
theorem loseDirect_only {s : State} {n : Nat} (hk : Only S b0 s) (hS : Covers S [.col, .links]) : Only S b0 (loseDirect s n) := by
  unfold loseDirect
  repeat' (first
    | (with_reducible first | assumption | refine peerLost_only ?_ (hS.mono rfl))
    | (with_reducible refine Only.foldl (fun _ _ _ => ?_) _ _ ?_) <;> try dsimp only
    | split)
theorem disablePort_only {s : State} {n : Nat} (hk : Only S b0 s) (hS : Covers S [.col, .links]) : Only S b0 (disablePort s n) := by
  unfold disablePort
  dsimp only
  repeat' (first
    | (with_reducible first | assumption | refine linkEvent_only ?_ (hS.mono rfl) | refine setLink_only ?_ (hS.mono rfl) | refine loseFrames_only ?_ (hS.mono rfl) | refine loseDirect_only ?_ (hS.mono rfl))
    | split)
theorem setDom_only {s : State} {d : Nat} {v : Dom} (hk : Only S b0 s) (hS : Covers S [.pmu]) : Only S b0 (setDom s d v) := by
  unfold setDom
  dsimp only
  repeat' (first
    | (with_reducible first | assumption | exact RidgesOnly.refl _)
    | (simp only [Only.fields]; with_reducible refine Only.upd ?_ ?_ ?_ ?_ ?_ ?_ ?_ ?_ ?_ ?_ ?_ ?_ ?_ ?_ ?_ ?_ ?_ ?_ ?_ ?_ ?_ ?_)
    | exact .inl (hS.mem rfl)
    | (with_reducible exact .inr rfl)
    | (with_reducible exact .inr ⟨rfl, rfl⟩))
theorem domStart_only {s : State} {d : Nat} (hk : Only S b0 s) (hS : Covers S [.pmu]) : Only S b0 (domStart s d) := by
  unfold domStart
  dsimp only
  repeat' (first
    | (with_reducible first | assumption | refine setDom_only ?_ (hS.mono rfl))
    | split)
theorem powerRequest_only {s : State} {d : Nat} {on : Bool} (hk : Only S b0 s) (hS : Covers S [.pmu]) : Only S b0 (powerRequest s d on) := by
  unfold powerRequest
  dsimp only
  repeat' (first
    | (with_reducible first | assumption | refine domStart_only ?_ (hS.mono rfl) | refine setDom_only ?_ (hS.mono rfl)))
theorem startTraining_only {s : State} {n : Nat} (hk : Only S b0 s) (hS : Covers S [.col, .links]) : Only S b0 (startTraining s n) := by
  unfold startTraining
  dsimp only
  repeat' (first
    | (with_reducible first | assumption | refine linkEvent_only ?_ (hS.mono rfl) | refine setLink_only ?_ (hS.mono rfl)))
theorem enablePort_only {s : State} {n : Nat} (hk : Only S b0 s) (hS : Covers S [.col, .links]) : Only S b0 (enablePort s n) := by
  unfold enablePort
  dsimp only
  repeat' (first
    | (with_reducible first | assumption | refine setLink_only ?_ (hS.mono rfl) | refine startTraining_only ?_ (hS.mono rfl))
    | split)
theorem applyPorts_only {s : State} {en valid : Nat} (hk : Only S b0 s) (hS : Covers S [.col, .links, .pmu]) : Only S b0 (applyPorts s en valid) := by
  unfold applyPorts
  dsimp only
  repeat' (first
    | (with_reducible first | assumption | refine disablePort_only ?_ (hS.mono rfl) | refine powerRequest_only ?_ (hS.mono rfl) | refine enablePort_only ?_ (hS.mono rfl))
    | (with_reducible refine Only.foldl (fun _ _ _ => ?_) _ _ ?_) <;> try dsimp only
    | split)
theorem applyRoute_only {s : State} {b : List Byte} (hk : Only S b0 s) (hS : Covers S [.col, .links]) : Only S b0 (applyRoute s b) := by
  unfold applyRoute
  dsimp only
  repeat' (first
    | (with_reducible first | assumption | refine setPeer_only ?_ (hS.mono rfl) | refine setRoute_only ?_ (hS.mono rfl))
    | split)
theorem applyTrims_only {s : State} (hk : Only S b0 s) (hS : Covers S [.thermal]) : Only S b0 (applyTrims s) := by
  unfold applyTrims
  dsimp only
  repeat' (first
    | (with_reducible first | assumption | exact RidgesOnly.refl _)
    | (simp only [Only.fields]; with_reducible refine Only.upd ?_ ?_ ?_ ?_ ?_ ?_ ?_ ?_ ?_ ?_ ?_ ?_ ?_ ?_ ?_ ?_ ?_ ?_ ?_ ?_ ?_ ?_)
    | exact .inl (hS.mem rfl)
    | (with_reducible exact .inr rfl)
    | (with_reducible exact .inr ⟨rfl, rfl⟩))
theorem aqConfigure_only {s : State} {p : Port} {v : W32} (hk : Only S b0 s) (hS : Covers S [.host]) : Only S b0 (aqConfigure s p v) := by
  unfold aqConfigure
  dsimp only
  repeat' (first
    | (with_reducible first | assumption | refine pinSync_only ?_ (hS.mono rfl) | refine updPort_only ?_ (hS.mono rfl) | refine setQ_only ?_ (hS.mono rfl)))
theorem setArb_only {s : State} {cls inst : Nat} {a : Arb} (hk : Only S b0 s) (hS : Covers S [.arbiters]) : Only S b0 (setArb s cls inst a) := by
  unfold setArb
  repeat' (first
    | (with_reducible first | assumption | exact RidgesOnly.refl _)
    | (simp only [Only.fields]; with_reducible refine Only.upd ?_ ?_ ?_ ?_ ?_ ?_ ?_ ?_ ?_ ?_ ?_ ?_ ?_ ?_ ?_ ?_ ?_ ?_ ?_ ?_ ?_ ?_)
    | exact .inl (hS.mem rfl)
    | (with_reducible exact .inr rfl)
    | (with_reducible exact .inr ⟨rfl, rfl⟩))
theorem starve_only {s : State} {cls inst i w : Nat} (hk : Only S b0 s) (hS : Covers S [.arbiters, .col]) : Only S b0 (starve s cls inst i w) := by
  unfold starve
  dsimp only
  repeat' (first
    | (with_reducible first | assumption | refine raiseCoal_only ?_ (hS.mono rfl) | refine setArb_only ?_ (hS.mono rfl))
    | split)
theorem arbWait_only {s : State} {cls inst : Nat} {reqs : List Nat} {won : Option Nat} (hk : Only S b0 s) (hS : Covers S [.arbiters, .col]) : Only S b0 (arbWait s cls inst reqs won) := by
  unfold arbWait
  dsimp only
  repeat' (first
    | (with_reducible first | assumption | refine starve_only ?_ (hS.mono rfl) | refine setArb_only ?_ (hS.mono rfl))
    | (with_reducible refine Only.foldl (fun _ _ _ => ?_) _ _ ?_) <;> try dsimp only)
theorem arrive_only {s : State} {n ty : Nat} {f : Frame} (hk : Only S b0 s) (hS : Covers S [.col, .links]) : OptAllFst (Only S b0) (arrive s n ty f) := by
  unfold arrive
  repeat' (first
    | (with_reducible first | assumption | refine dropFrame_only ?_ (hS.mono rfl) | refine OptAll.of_some (admitMgmt_only ?_ (hS.mono rfl)) (by assumption) | refine mgmtDrop_only ?_ (hS.mono rfl) | refine OptAllFst.intro ?_)
    | exact trivial
    | split)
theorem askPeer_only {s : State} {p : Nat} {job : W32} {agent win dev off : Nat} {rs : Bool} {dva : Nat} (hk : Only S b0 s) (hS : Covers S [.links]) :
    Only S b0 (askPeer s p job agent win dev off rs dva) := by
  unfold askPeer
  split
  · exact hk
  · refine OptAll.getD ?_ hk
    with_reducible exact sendReq_only hk (hS.mono rfl)
theorem askPieces_only {s : State} {p : Nat} {job : W32} {agent win : Nat} {ps : List Piece} (hk : Only S b0 s) (hS : Covers S [.links]) : Only S b0 (askPieces s p job agent win ps) := by
  unfold askPieces
  repeat' (first
    | (with_reducible first | assumption | refine askPeer_only ?_ (hS.mono rfl))
    | (with_reducible refine Only.foldl (fun _ _ _ => ?_) _ _ ?_) <;> try dsimp only
    | split)
theorem cduEvents_only {s : State} {n p : Nat} {l : List Nat} (hk : Only S b0 s) (hS : Covers S [.col]) : Only S b0 (cduEvents s n p l) := by
  unfold cduEvents
  repeat' (first
    | (with_reducible first | assumption | refine raiseInteg_only ?_ (hS.mono rfl))
    | (with_reducible refine Only.foldl (fun _ _ _ => ?_) _ _ ?_) <;> try dsimp only)
theorem keepRecord_only {s : State} {f : Frame} {status : Nat} (hk : Only S b0 s) (hS : Covers S [.links]) : Only S b0 (keepRecord s f status) := by
  unfold keepRecord
  dsimp only
  repeat' (first
    | (with_reducible first | assumption | exact RidgesOnly.refl _)
    | (simp only [Only.fields]; with_reducible refine Only.upd ?_ ?_ ?_ ?_ ?_ ?_ ?_ ?_ ?_ ?_ ?_ ?_ ?_ ?_ ?_ ?_ ?_ ?_ ?_ ?_ ?_ ?_)
    | exact .inl (hS.mem rfl)
    | (with_reducible exact .inr rfl)
    | (with_reducible exact .inr ⟨rfl, rfl⟩))
theorem atomAt_only {s : State} {n p pa : Nat} {f : Frame} (hk : Only S b0 s) (hS : Covers S [.localMemory, .col, .links]) : Only S b0 (atomAt s n p pa f).2 := by
  unfold atomAt
  dsimp only
  repeat' (first
    | (with_reducible first | assumption | refine dramPut_only ?_ (hS.mono rfl) | refine cduEvents_only ?_ (hS.mono rfl) | refine keepRecord_only ?_ (hS.mono rfl))
    | split)
theorem markImage_only {s : State} {h : Option Place} (hk : Only S b0 s) (hS : Covers S [.loam, .localMemory]) : Only S b0 (markImage s h) := by
  unfold markImage
  repeat' (first
    | (with_reducible first | assumption | refine dramPut_only ?_ (hS.mono rfl) | refine updR_only ?_ (fun _ => ?_))
    | split
    | exact ⟨by first | exact .inl (hS.mem rfl) | (with_reducible exact .inr rfl) | (with_reducible exact .inr ⟨rfl, rfl⟩) | (with_reducible exact .inr ⟨rfl, rfl, rfl, rfl⟩) | exact .inr rfl, by first | exact .inl (hS.mem rfl) | (with_reducible exact .inr rfl) | (with_reducible exact .inr ⟨rfl, rfl⟩) | (with_reducible exact .inr ⟨rfl, rfl, rfl, rfl⟩) | exact .inr rfl, by first | exact .inl (hS.mem rfl) | (with_reducible exact .inr rfl) | (with_reducible exact .inr ⟨rfl, rfl⟩) | (with_reducible exact .inr ⟨rfl, rfl, rfl, rfl⟩) | exact .inr rfl, by first | exact .inl (hS.mem rfl) | (with_reducible exact .inr rfl) | (with_reducible exact .inr ⟨rfl, rfl⟩) | (with_reducible exact .inr ⟨rfl, rfl, rfl, rfl⟩) | exact .inr rfl⟩)
theorem atomSat_only {s : State} {m : MemAtomic} {sat : Bool} (hk : Only S b0 s) (hS : Covers S [.jobs, .loam, .localMemory]) : Only S b0 (atomSat s m sat) := by
  unfold atomSat
  dsimp only
  repeat' (first
    | (with_reducible first | assumption | refine markImage_only ?_ (hS.mono rfl) | refine updJob_only ?_ (hS.mono rfl))
    | split)
theorem atomLocal_only {s : State} {m : MemAtomic} {old : List Byte} {bad : Bool} {put : State → List Byte → State} {loc unit addr : Nat}
    (hk : Only S b0 s) (hS : Covers S [.host, .jobs, .loam, .slots, .ridges, .localMemory, .path, .col, .ropes, .links]) (hp : ∀ t d, Only S b0 t → Only S b0 (put t d)) : Only S b0 (atomLocal s m old bad put loc unit addr) := by
  unfold atomLocal
  split
  · exact atomFault_only (raiseInteg_only hk (hS.mono rfl)) (hS.mono rfl)
  · dsimp only
    split
    · exact atomFault_only hk (hS.mono rfl)
    · exact atomDone_only (atomSat_only (hp _ _ hk) (hS.mono rfl)) (hS.mono rfl)
theorem commitJournal_only {s : State} {r t : Nat} (hk : Only S b0 s) (hS : Covers S [.clay]) : Only S b0 (commitJournal s r t) := by
  unfold commitJournal
  repeat' (first
    | (with_reducible first | assumption | refine queueRec_only ?_ (hS.mono rfl)))
theorem setJournal_only {s : State} {r t : Nat} {f : Journal → Journal} (hk : Only S b0 s) (hS : Covers S [.tiles, .clay]) : Only S b0 (setJournal s r t f) := by
  unfold setJournal
  repeat' (first
    | (with_reducible first | assumption | refine updTile_only ?_ (hS.mono rfl) | refine commitJournal_only ?_ (hS.mono rfl)))
theorem attachTile_only {s : State} {id : W32} {g : Golden} (hk : Only S b0 s) (hS : Covers S [.tiles, .clay]) : Only S b0 (attachTile s id g) := by
  unfold attachTile
  dsimp only
  repeat' (first
    | (with_reducible first | assumption | refine updTile_only ?_ (hS.mono rfl) | refine requestSurvey_only ?_ (hS.mono rfl) | refine setJournal_only ?_ (hS.mono rfl)))
theorem setHostMem_only {s : State} {p : Port} {m : Tbl Byte} (hk : Only S b0 s) (hS : Covers S [.hostMemory]) : Only S b0 (setHostMem s p m) := by
  unfold setHostMem
  dsimp only
  repeat' (first
    | (with_reducible first | assumption | exact RidgesOnly.refl _)
    | (simp only [Only.fields]; with_reducible refine Only.upd ?_ ?_ ?_ ?_ ?_ ?_ ?_ ?_ ?_ ?_ ?_ ?_ ?_ ?_ ?_ ?_ ?_ ?_ ?_ ?_ ?_ ?_)
    | exact .inl (hS.mem rfl)
    | (with_reducible exact .inr rfl)
    | (with_reducible exact .inr ⟨rfl, rfl⟩)
    | split)
theorem hostWrite_only {s : State} {p : Port} {a : Nat} {d : List Byte} (hk : Only S b0 s) (hS : Covers S [.hostMemory]) : Only S b0 (hostWrite s p a d) := by
  unfold hostWrite
  repeat' (first
    | (with_reducible first | assumption | refine setHostMem_only ?_ (hS.mono rfl)))
theorem completeOut_only {s : State} {c : Cmd} {d : List Byte} {res : Nat} (hk : Only S b0 s) (hS : Covers S [.hostMemory, .host, .col]) : Only S b0 (completeOut s c d res) := by
  unfold completeOut
  repeat' (first
    | (with_reducible first | assumption | refine complete_only ?_ (hS.mono rfl) | refine hostWrite_only ?_ (hS.mono rfl))
    | split)
theorem busyCmd_only {s : State} {n : Nat} (hk : Only S b0 s) (hS : Covers S [.host]) : Only S b0 (busyCmd s n) := by
  unfold busyCmd
  dsimp only
  repeat' (first
    | (with_reducible first | assumption | exact RidgesOnly.refl _)
    | (simp only [Only.fields]; with_reducible refine Only.upd ?_ ?_ ?_ ?_ ?_ ?_ ?_ ?_ ?_ ?_ ?_ ?_ ?_ ?_ ?_ ?_ ?_ ?_ ?_ ?_ ?_ ?_)
    | exact .inl (hS.mem rfl)
    | (with_reducible exact .inr rfl)
    | (with_reducible exact .inr ⟨rfl, rfl⟩))
theorem startCmd_only {s : State} {c : Cmd} (hk : Only S b0 s) (hS : Covers S [.host]) : Only S b0 (startCmd s c) := by
  unfold startCmd
  repeat' (first
    | (with_reducible first | assumption | refine busyCmd_only ?_ (hS.mono rfl)))
theorem attestDo_only {s : State} {c : Cmd} (hk : Only S b0 s) (hS : Covers S [.hostMemory, .host, .col]) : Only S b0 (attestDo s c) := by
  unfold attestDo
  repeat' (first
    | (with_reducible first | assumption | refine completeOut_only ?_ (hS.mono rfl) | refine complete_only ?_ (hS.mono rfl) | refine startCmd_only ?_ (hS.mono rfl))
    | split)
theorem sendMsix_only {s : State} {p : Port} {f vec : Nat} (hk : Only S b0 s) (hS : Covers S [.host]) : Only S b0 (sendMsix s p f vec) := by
  unfold sendMsix
  dsimp only
  repeat' (first
    | (with_reducible first | assumption | exact RidgesOnly.refl _)
    | (simp only [Only.fields]; with_reducible refine Only.upd ?_ ?_ ?_ ?_ ?_ ?_ ?_ ?_ ?_ ?_ ?_ ?_ ?_ ?_ ?_ ?_ ?_ ?_ ?_ ?_ ?_ ?_)
    | exact .inl (hS.mem rfl)
    | (with_reducible exact .inr rfl)
    | (with_reducible exact .inr ⟨rfl, rfl⟩)
    | split)
theorem setAttn_only {s : State} {p : Port} {i : Nat} (hk : Only S b0 s) (hS : Covers S [.host]) : Only S b0 (setAttn s p i) := by
  unfold setAttn
  dsimp only
  repeat' (first
    | (with_reducible first | assumption | refine sendMsix_only ?_ (hS.mono rfl) | refine hrdySync_only ?_ (hS.mono rfl) | refine updPort_only ?_ (hS.mono rfl))
    | split)
theorem attnBoth_only {s : State} {i : Nat} (hk : Only S b0 s) (hS : Covers S [.host]) : Only S b0 (attnBoth s i) := by
  unfold attnBoth
  repeat' (first
    | (with_reducible first | assumption | refine setAttn_only ?_ (hS.mono rfl)))
theorem badDoorbell_only {s : State} {q : QId} (hk : Only S b0 s) (hS : Covers S [.col]) : Only S b0 (badDoorbell s q) := by
  unfold badDoorbell
  repeat' (first
    | (with_reducible first | assumption | refine postCqe_only ?_ (hS.mono rfl)))
theorem dropExports_only {s : State} {p : Nat} (hk : Only S b0 s) (hS : Covers S [.links]) : Only S b0 (dropExports s p) := by
  unfold dropExports
  dsimp only
  repeat' (first
    | (with_reducible first | assumption | exact RidgesOnly.refl _)
    | (simp only [Only.fields]; with_reducible refine Only.upd ?_ ?_ ?_ ?_ ?_ ?_ ?_ ?_ ?_ ?_ ?_ ?_ ?_ ?_ ?_ ?_ ?_ ?_ ?_ ?_ ?_ ?_)
    | exact .inl (hS.mem rfl)
    | (with_reducible exact .inr rfl)
    | (with_reducible exact .inr ⟨rfl, rfl⟩))
theorem freePool_only {s : State} {n : Nat} (hk : Only S b0 s) (hS : Covers S [.host]) : Only S b0 (freePool s n) := by
  unfold freePool
  dsimp only
  repeat' (first
    | (with_reducible first | assumption | exact RidgesOnly.refl _)
    | (simp only [Only.fields]; with_reducible refine Only.upd ?_ ?_ ?_ ?_ ?_ ?_ ?_ ?_ ?_ ?_ ?_ ?_ ?_ ?_ ?_ ?_ ?_ ?_ ?_ ?_ ?_ ?_)
    | exact .inl (hS.mem rfl)
    | (with_reducible exact .inr rfl)
    | (with_reducible exact .inr ⟨rfl, rfl⟩))
theorem removeQueue_only {s : State} {n : Nat} (hk : Only S b0 s) (hS : Covers S [.host]) : Only S b0 (removeQueue s n) := by
  unfold removeQueue
  repeat' (first
    | (with_reducible first | assumption | refine setQ_only ?_ (hS.mono rfl) | refine freePool_only ?_ (hS.mono rfl)))
theorem removeQueues_only {s : State} {p : Nat} (hk : Only S b0 s) (hS : Covers S [.host]) : Only S b0 (removeQueues s p) := by
  unfold removeQueues
  repeat' (first
    | (with_reducible first | assumption | refine removeQueue_only ?_ (hS.mono rfl))
    | (with_reducible refine Only.foldl (fun _ _ _ => ?_) _ _ ?_) <;> try dsimp only)
theorem dropPart_only {s : State} {p : Nat} (hk : Only S b0 s) (hS : Covers S [.path]) : Only S b0 (dropPart s p) := by
  unfold dropPart
  dsimp only
  repeat' (first
    | (with_reducible first | assumption | exact RidgesOnly.refl _)
    | (simp only [Only.fields]; with_reducible refine Only.upd ?_ ?_ ?_ ?_ ?_ ?_ ?_ ?_ ?_ ?_ ?_ ?_ ?_ ?_ ?_ ?_ ?_ ?_ ?_ ?_ ?_ ?_)
    | exact .inl (hS.mem rfl)
    | (with_reducible exact .inr rfl)
    | (with_reducible exact .inr ⟨rfl, rfl⟩))
theorem basecampReset_only {s : State} (hk : Only S b0 s) (hS : Covers S [.host, .parts, .jobs, .slots, .ridges, .programming, .path, .ropes, .links, .thermal, .cmc]) : Only S b0 (basecampReset s) := by
  unfold basecampReset
  dsimp only
  repeat' (first
    | (with_reducible first | assumption | refine setP_only ?_ (hS.mono rfl) | refine dropExports_only ?_ (hS.mono rfl) | refine updP_only ?_ (hS.mono rfl) | refine removeQueues_only ?_ (hS.mono rfl) | refine dropPart_only ?_ (hS.mono rfl) | refine updR_only ?_ (fun _ => ?_) | exact RidgesOnly.refl _)
    | (simp only [Only.fields]; with_reducible refine Only.upd ?_ ?_ ?_ ?_ ?_ ?_ ?_ ?_ ?_ ?_ ?_ ?_ ?_ ?_ ?_ ?_ ?_ ?_ ?_ ?_ ?_ ?_)
    | (with_reducible refine Only.foldl (fun _ _ _ => ?_) _ _ ?_) <;> try dsimp only
    | exact .inl (hS.mem rfl)
    | (with_reducible exact .inr rfl)
    | (with_reducible exact .inr ⟨rfl, rfl⟩)
    | split
    | exact ⟨by first | exact .inl (hS.mem rfl) | (with_reducible exact .inr rfl) | (with_reducible exact .inr ⟨rfl, rfl⟩) | (with_reducible exact .inr ⟨rfl, rfl, rfl, rfl⟩) | exact .inr rfl, by first | exact .inl (hS.mem rfl) | (with_reducible exact .inr rfl) | (with_reducible exact .inr ⟨rfl, rfl⟩) | (with_reducible exact .inr ⟨rfl, rfl, rfl, rfl⟩) | exact .inr rfl, by first | exact .inl (hS.mem rfl) | (with_reducible exact .inr rfl) | (with_reducible exact .inr ⟨rfl, rfl⟩) | (with_reducible exact .inr ⟨rfl, rfl, rfl, rfl⟩) | exact .inr rfl, by first | exact .inl (hS.mem rfl) | (with_reducible exact .inr rfl) | (with_reducible exact .inr ⟨rfl, rfl⟩) | (with_reducible exact .inr ⟨rfl, rfl, rfl, rfl⟩) | exact .inr rfl⟩)
theorem raiseCore_only {s : State} {ty cause part : Nat} {payload : List Byte} (hk : Only S b0 s) (hS : Covers S [.col]) : Only S b0 (raiseCore s ty cause part payload) := by
  unfold raiseCore
  repeat' (first
    | (with_reducible first | assumption | refine useFree_only ?_ (hS.mono rfl) | refine enq_only ?_ (hS.mono rfl)))
theorem securityEvent_only {s : State} {cause part port fn tile id : Nat} (hk : Only S b0 s) (hS : Covers S [.col]) : Only S b0 (securityEvent s cause part port fn tile id) := by
  unfold securityEvent
  repeat' (first
    | (with_reducible first | assumption | refine raiseCore_only ?_ (hS.mono rfl)))
theorem bedrock_only {s : State} {aOk bOk : Bool} (hk : Only S b0 s) (hS : Covers S [.col, .security, .clay]) : OptAll (Only S b0) (bedrock s aOk bOk) := by
  unfold bedrock
  dsimp only
  repeat' (first
    | (with_reducible first | assumption | refine securityEvent_only ?_ (hS.mono rfl) | refine queueRec_only ?_ (hS.mono rfl) | exact RidgesOnly.refl _ | refine OptAll.intro ?_)
    | (simp only [Only.fields]; with_reducible refine Only.upd ?_ ?_ ?_ ?_ ?_ ?_ ?_ ?_ ?_ ?_ ?_ ?_ ?_ ?_ ?_ ?_ ?_ ?_ ?_ ?_ ?_ ?_)
    | exact .inl (hS.mem rfl)
    | (with_reducible exact .inr rfl)
    | (with_reducible exact .inr ⟨rfl, rfl⟩)
    | exact trivial
    | split)
theorem tileEvent_only {s : State} {r phys cause : Nat} {extra : List (Nat × Nat × Nat)} (hk : Only S b0 s) (hS : Covers S [.col]) : Only S b0 (tileEvent s r phys cause extra) := by
  unfold tileEvent
  repeat' (first
    | (with_reducible first | assumption | refine raiseCore_only ?_ (hS.mono rfl)))
theorem commitMaps_only {s : State} {r : Nat} (hk : Only S b0 s) (hS : Covers S [.clay]) : Only S b0 (commitMaps s r) := by
  unfold commitMaps
  repeat' (first
    | (with_reducible first | assumption | refine queueRec_only ?_ (hS.mono rfl)))
theorem belaysDone_only {s : State} {r t : Nat} {fails belayFail : List Nat} (hk : Only S b0 s) (hS : Covers S [.tiles, .ridges, .col, .clay]) : Only S b0 (belaysDone s r t fails belayFail).1 := by
  unfold belaysDone
  dsimp only
  repeat' (first
    | (with_reducible first | assumption | refine tileEvent_only ?_ (hS.mono rfl) | refine updTile_only ?_ (hS.mono rfl) | refine commitMaps_only ?_ (hS.mono rfl) | refine updR_only ?_ (fun _ => ?_))
    | (with_reducible refine Only.foldl (fun _ _ _ => ?_) _ _ ?_) <;> try dsimp only
    | split
    | exact ⟨by first | exact .inl (hS.mem rfl) | (with_reducible exact .inr rfl) | (with_reducible exact .inr ⟨rfl, rfl⟩) | (with_reducible exact .inr ⟨rfl, rfl, rfl, rfl⟩) | exact .inr rfl, by first | exact .inl (hS.mem rfl) | (with_reducible exact .inr rfl) | (with_reducible exact .inr ⟨rfl, rfl⟩) | (with_reducible exact .inr ⟨rfl, rfl, rfl, rfl⟩) | exact .inr rfl, by first | exact .inl (hS.mem rfl) | (with_reducible exact .inr rfl) | (with_reducible exact .inr ⟨rfl, rfl⟩) | (with_reducible exact .inr ⟨rfl, rfl, rfl, rfl⟩) | exact .inr rfl, by first | exact .inl (hS.mem rfl) | (with_reducible exact .inr rfl) | (with_reducible exact .inr ⟨rfl, rfl⟩) | (with_reducible exact .inr ⟨rfl, rfl, rfl, rfl⟩) | exact .inr rfl⟩)
theorem bootEnd_only {s : State} (hk : Only S b0 s) (hS : Covers S [.host, .cmc]) : Only S b0 (bootEnd s) := by
  unfold bootEnd
  dsimp only
  repeat' (first
    | (with_reducible first | assumption | refine pinSync_only ?_ (hS.mono rfl) | exact RidgesOnly.refl _)
    | (simp only [Only.fields]; with_reducible refine Only.upd ?_ ?_ ?_ ?_ ?_ ?_ ?_ ?_ ?_ ?_ ?_ ?_ ?_ ?_ ?_ ?_ ?_ ?_ ?_ ?_ ?_ ?_)
    | exact .inl (hS.mem rfl)
    | (with_reducible exact .inr rfl)
    | (with_reducible exact .inr ⟨rfl, rfl⟩))
theorem powerEvent_only {s : State} {cause dom rail mv : Nat} (hk : Only S b0 s) (hS : Covers S [.col]) : Only S b0 (powerEvent s cause dom rail mv) := by
  unfold powerEvent
  repeat' (first
    | (with_reducible first | assumption | refine raise_only ?_ (hS.mono rfl)))
theorem bootIds_only {s : State} (hk : Only S b0 s) (hS : Covers S [.links]) : Only S b0 (bootIds s) := by
  unfold bootIds
  dsimp only
  repeat' (first
    | (with_reducible first | assumption | exact RidgesOnly.refl _)
    | (simp only [Only.fields]; with_reducible refine Only.upd ?_ ?_ ?_ ?_ ?_ ?_ ?_ ?_ ?_ ?_ ?_ ?_ ?_ ?_ ?_ ?_ ?_ ?_ ?_ ?_ ?_ ?_)
    | exact .inl (hS.mem rfl)
    | (with_reducible exact .inr rfl)
    | (with_reducible exact .inr ⟨rfl, rfl⟩))
theorem bootLog_only {s : State} (hk : Only S b0 s) (hS : Covers S [.integrity]) : Only S b0 (bootLog s) := by
  unfold bootLog
  dsimp only
  repeat' (first
    | (with_reducible first | assumption | exact RidgesOnly.refl _)
    | (simp only [Only.fields]; with_reducible refine Only.upd ?_ ?_ ?_ ?_ ?_ ?_ ?_ ?_ ?_ ?_ ?_ ?_ ?_ ?_ ?_ ?_ ?_ ?_ ?_ ?_ ?_ ?_)
    | exact .inl (hS.mem rfl)
    | (with_reducible exact .inr rfl)
    | (with_reducible exact .inr ⟨rfl, rfl⟩))
theorem bootGuard_only {s : State} (hk : Only S b0 s) (hS : Covers S [.clay]) : Only S b0 (bootGuard s) := by
  unfold bootGuard
  dsimp only
  repeat' (first
    | (with_reducible first | assumption | exact RidgesOnly.refl _)
    | (simp only [Only.fields]; with_reducible refine Only.upd ?_ ?_ ?_ ?_ ?_ ?_ ?_ ?_ ?_ ?_ ?_ ?_ ?_ ?_ ?_ ?_ ?_ ?_ ?_ ?_ ?_ ?_)
    | exact .inl (hS.mem rfl)
    | (with_reducible exact .inr rfl)
    | (with_reducible exact .inr ⟨rfl, rfl⟩)
    | split)
theorem startModel_only {s : State} (hk : Only S b0 s) (hS : Covers S [.thermal]) : Only S b0 (startModel s) := by
  unfold startModel
  dsimp only
  repeat' (first
    | (with_reducible first | assumption | exact RidgesOnly.refl _)
    | (simp only [Only.fields]; with_reducible refine Only.upd ?_ ?_ ?_ ?_ ?_ ?_ ?_ ?_ ?_ ?_ ?_ ?_ ?_ ?_ ?_ ?_ ?_ ?_ ?_ ?_ ?_ ?_)
    | exact .inl (hS.mem rfl)
    | (with_reducible exact .inr rfl)
    | (with_reducible exact .inr ⟨rfl, rfl⟩))
theorem orphanTiles_only {s : State} (hk : Only S b0 s) (hS : Covers S [.tiles, .clay]) : Only S b0 (orphanTiles s) := by
  unfold orphanTiles
  dsimp only
  repeat' (first
    | (with_reducible first | assumption | refine setJournal_only ?_ (hS.mono rfl))
    | (with_reducible refine Only.foldl (fun _ _ _ => ?_) _ _ ?_) <;> try dsimp only
    | split)
theorem clayCoal_only {s : State} {cause page mask cls idx : Nat} {s0 s1 : W32} (hk : Only S b0 s) (hS : Covers S [.col]) : Only S b0 (clayCoal s cause page mask cls idx s0 s1) := by
  unfold clayCoal
  repeat' (first
    | (with_reducible first | assumption | refine raiseCoal_only ?_ (hS.mono rfl)))
theorem clayEvent_only {s : State} {cause page mask cls idx : Nat} {s0 s1 : W32} (hk : Only S b0 s) (hS : Covers S [.col]) : Only S b0 (clayEvent s cause page mask cls idx s0 s1) := by
  unfold clayEvent
  repeat' (first
    | (with_reducible first | assumption | refine raise_only ?_ (hS.mono rfl)))
theorem replaceRec_only {s : State} {cls idx : Nat} (hk : Only S b0 s) (hS : Covers S [.tiles, .ridges, .links, .security, .clay, .thermal, .cmc]) : Only S b0 (replaceRec s cls idx) := by
  unfold replaceRec
  dsimp only
  repeat' (first
    | (with_reducible first | assumption | refine allTestsDue_only ?_ (hS.mono rfl) | refine queueRec_only ?_ (hS.mono rfl) | refine commitMaps_only ?_ (hS.mono rfl) | refine setJournal_only ?_ (hS.mono rfl) | refine updR_only ?_ (fun _ => ?_) | exact RidgesOnly.refl _)
    | (simp only [Only.fields]; with_reducible refine Only.upd ?_ ?_ ?_ ?_ ?_ ?_ ?_ ?_ ?_ ?_ ?_ ?_ ?_ ?_ ?_ ?_ ?_ ?_ ?_ ?_ ?_ ?_)
    | (with_reducible refine Only.foldl (fun _ _ _ => ?_) _ _ ?_) <;> try dsimp only
    | exact .inl (hS.mem rfl)
    | (with_reducible exact .inr rfl)
    | (with_reducible exact .inr ⟨rfl, rfl⟩)
    | split
    | exact ⟨by first | exact .inl (hS.mem rfl) | (with_reducible exact .inr rfl) | (with_reducible exact .inr ⟨rfl, rfl⟩) | (with_reducible exact .inr ⟨rfl, rfl, rfl, rfl⟩) | exact .inr rfl, by first | exact .inl (hS.mem rfl) | (with_reducible exact .inr rfl) | (with_reducible exact .inr ⟨rfl, rfl⟩) | (with_reducible exact .inr ⟨rfl, rfl, rfl, rfl⟩) | exact .inr rfl, by first | exact .inl (hS.mem rfl) | (with_reducible exact .inr rfl) | (with_reducible exact .inr ⟨rfl, rfl⟩) | (with_reducible exact .inr ⟨rfl, rfl, rfl, rfl⟩) | exact .inr rfl, by first | exact .inl (hS.mem rfl) | (with_reducible exact .inr rfl) | (with_reducible exact .inr ⟨rfl, rfl⟩) | (with_reducible exact .inr ⟨rfl, rfl, rfl, rfl⟩) | exact .inr rfl⟩)
theorem clearUe_only {s : State} {a n : Nat} (hk : Only S b0 s) (hS : Covers S [.clayBytes]) : Only S b0 (clearUe s a n) := by
  unfold clearUe
  dsimp only
  repeat' (first
    | (with_reducible first | assumption | exact RidgesOnly.refl _)
    | (simp only [Only.fields]; with_reducible refine Only.upd ?_ ?_ ?_ ?_ ?_ ?_ ?_ ?_ ?_ ?_ ?_ ?_ ?_ ?_ ?_ ?_ ?_ ?_ ?_ ?_ ?_ ?_)
    | exact .inl (hS.mem rfl)
    | (with_reducible exact .inr rfl)
    | (with_reducible exact .inr ⟨rfl, rfl⟩))
theorem setRec_only {s : State} {cls idx : Nat} {v : Rec} (hk : Only S b0 s) (hS : Covers S [.clay]) : Only S b0 (setRec s cls idx v) := by
  unfold setRec
  dsimp only
  repeat' (first
    | (with_reducible first | assumption | exact RidgesOnly.refl _)
    | (simp only [Only.fields]; with_reducible refine Only.upd ?_ ?_ ?_ ?_ ?_ ?_ ?_ ?_ ?_ ?_ ?_ ?_ ?_ ?_ ?_ ?_ ?_ ?_ ?_ ?_ ?_ ?_)
    | exact .inl (hS.mem rfl)
    | (with_reducible exact .inr rfl)
    | (with_reducible exact .inr ⟨rfl, rfl⟩))
theorem readRec_only {s : State} {cls idx : Nat} (hk : Only S b0 s) (hS : Covers S [.tiles, .ridges, .col, .links, .security, .clayBytes, .clay, .thermal, .cmc]) : Only S b0 (readRec s cls idx) := by
  unfold readRec
  dsimp only
  repeat' (first
    | (with_reducible first | assumption | refine clayCoal_only ?_ (hS.mono rfl) | refine clayEvent_only ?_ (hS.mono rfl) | refine replaceRec_only ?_ (hS.mono rfl) | refine clearUe_only ?_ (hS.mono rfl) | refine setRec_only ?_ (hS.mono rfl))
    | split)
theorem repairRecs_only {s : State} (hk : Only S b0 s) (hS : Covers S [.tiles, .ridges, .col, .links, .security, .clayBytes, .clay, .thermal, .cmc]) : Only S b0 (repairRecs s) := by
  unfold repairRecs
  repeat' (first
    | (with_reducible first | assumption | refine readRec_only ?_ (hS.mono rfl))
    | (with_reducible refine Only.foldl (fun _ _ _ => ?_) _ _ ?_) <;> try dsimp only)
theorem bootPending_only {s : State} (hk : Only S b0 s) (hS : Covers S [.cmc]) : Only S b0 (bootPending s) := by
  unfold bootPending
  dsimp only
  repeat' (first
    | (with_reducible first | assumption | exact RidgesOnly.refl _)
    | (simp only [Only.fields]; with_reducible refine Only.upd ?_ ?_ ?_ ?_ ?_ ?_ ?_ ?_ ?_ ?_ ?_ ?_ ?_ ?_ ?_ ?_ ?_ ?_ ?_ ?_ ?_ ?_)
    | exact .inl (hS.mem rfl)
    | (with_reducible exact .inr rfl)
    | (with_reducible exact .inr ⟨rfl, rfl⟩))
theorem bootCount_only {s : State} (hk : Only S b0 s) (hS : Covers S [.links, .clay]) : Only S b0 (bootCount s) := by
  unfold bootCount
  dsimp only
  repeat' (first
    | (with_reducible first | assumption | refine queueRec_only ?_ (hS.mono rfl) | exact RidgesOnly.refl _)
    | (simp only [Only.fields]; with_reducible refine Only.upd ?_ ?_ ?_ ?_ ?_ ?_ ?_ ?_ ?_ ?_ ?_ ?_ ?_ ?_ ?_ ?_ ?_ ?_ ?_ ?_ ?_ ?_)
    | exact .inl (hS.mem rfl)
    | (with_reducible exact .inr rfl)
    | (with_reducible exact .inr ⟨rfl, rfl⟩)
    | split)
theorem bootLoad_only {s : State} (hk : Only S b0 s) (hS : Covers S [.tiles, .ridges, .col, .links, .integrity, .security, .clayBytes, .clay, .thermal, .pmu, .cmc]) : Only S b0 (bootLoad s) := by
  unfold bootLoad
  dsimp only
  repeat' (first
    | (with_reducible first | assumption | refine bootIds_only ?_ (hS.mono rfl) | refine bootLog_only ?_ (hS.mono rfl) | refine bootGuard_only ?_ (hS.mono rfl) | refine startModel_only ?_ (hS.mono rfl) | refine orphanTiles_only ?_ (hS.mono rfl) | refine repairRecs_only ?_ (hS.mono rfl) | refine bootPending_only ?_ (hS.mono rfl) | refine bootCount_only ?_ (hS.mono rfl) | refine updR_only ?_ (fun _ => ?_) | exact RidgesOnly.refl _ | exact bootRidge_ronly (RidgeOnly.refl _) (hS.mono rfl))
    | (simp only [Only.fields]; with_reducible refine Only.upd ?_ ?_ ?_ ?_ ?_ ?_ ?_ ?_ ?_ ?_ ?_ ?_ ?_ ?_ ?_ ?_ ?_ ?_ ?_ ?_ ?_ ?_)
    | (with_reducible refine Only.foldl (fun _ _ _ => ?_) _ _ ?_) <;> try dsimp only
    | exact .inl (hS.mem rfl)
    | (with_reducible exact .inr rfl)
    | (with_reducible exact .inr ⟨rfl, rfl⟩))
theorem boot_only {s : State} {aOk bOk : Bool} (hk : Only S b0 s) (hS : Covers S [.host, .tiles, .ridges, .col, .links, .integrity, .security, .clayBytes, .clay, .thermal, .pmu, .cmc]) : Only S b0 (boot s aOk bOk) := by
  unfold boot
  dsimp only
  repeat' (first
    | (with_reducible first | assumption | refine OptAll.of_some (bedrock_only ?_ (hS.mono rfl)) (by assumption) | refine bootEnd_only ?_ (hS.mono rfl) | refine powerEvent_only ?_ (hS.mono rfl) | refine bootLoad_only ?_ (hS.mono rfl) | exact RidgesOnly.refl _)
    | (simp only [Only.fields]; with_reducible refine Only.upd ?_ ?_ ?_ ?_ ?_ ?_ ?_ ?_ ?_ ?_ ?_ ?_ ?_ ?_ ?_ ?_ ?_ ?_ ?_ ?_ ?_ ?_)
    | exact .inl (hS.mem rfl)
    | (with_reducible exact .inr rfl)
    | (with_reducible exact .inr ⟨rfl, rfl⟩)
    | split)
theorem bringLine_only {s : State} {o : Outstanding} {d : List Byte} {bad : Bool} (hk : Only S b0 s) (hS : Covers S [.path]) : Only S b0 (bringLine s o d bad) := by
  unfold bringLine
  dsimp only
  repeat' (first
    | (with_reducible first | assumption | exact RidgesOnly.refl _)
    | (simp only [Only.fields]; with_reducible refine Only.upd ?_ ?_ ?_ ?_ ?_ ?_ ?_ ?_ ?_ ?_ ?_ ?_ ?_ ?_ ?_ ?_ ?_ ?_ ?_ ?_ ?_ ?_)
    | exact .inl (hS.mem rfl)
    | (with_reducible exact .inr rfl)
    | (with_reducible exact .inr ⟨rfl, rfl⟩))
theorem setScrub_only {s : State} {who : Option Nat} {f : List (Nat × Nat × Nat) → List (Nat × Nat × Nat)} (hk : Only S b0 s) (hS : Covers S [.parts, .cmc]) : Only S b0 (setScrub s who f) := by
  unfold setScrub
  dsimp only
  repeat' (first
    | (with_reducible first | assumption | refine updP_only ?_ (hS.mono rfl) | exact RidgesOnly.refl _)
    | (simp only [Only.fields]; with_reducible refine Only.upd ?_ ?_ ?_ ?_ ?_ ?_ ?_ ?_ ?_ ?_ ?_ ?_ ?_ ?_ ?_ ?_ ?_ ?_ ?_ ?_ ?_ ?_)
    | exact .inl (hS.mem rfl)
    | (with_reducible exact .inr rfl)
    | (with_reducible exact .inr ⟨rfl, rfl⟩)
    | split)
theorem markDirtyTile_only {s : State} {r t : Nat} {st : TileSt} {f : Journal → Journal} (hk : Only S b0 s) (hS : Covers S [.tiles, .col, .clay]) : Only S b0 (markDirtyTile s r t st f) := by
  unfold markDirtyTile
  dsimp only
  repeat' (first
    | (with_reducible first | assumption | refine tileEvent_only ?_ (hS.mono rfl) | refine setJournal_only ?_ (hS.mono rfl))
    | split)
theorem trainTile_only {s : State} {r t : Nat} (hk : Only S b0 s) (hS : Covers S [.tiles, .col, .clay]) : Only S b0 (trainTile s r t) := by
  unfold trainTile
  dsimp only
  repeat' (first
    | (with_reducible first | assumption | refine markDirtyTile_only ?_ (hS.mono rfl) | refine updTile_only ?_ (hS.mono rfl) | refine setJournal_only ?_ (hS.mono rfl)))
theorem bulkReset_only {s : State} {r t : Nat} {residue : Bool} (hk : Only S b0 s) (hS : Covers S [.parts, .tiles, .col, .clay, .cmc]) : OptAllFst (Only S b0) (bulkReset s r t residue) := by
  unfold bulkReset
  dsimp only
  repeat' (first
    | (with_reducible first | assumption | refine setScrub_only ?_ (hS.mono rfl) | refine securityEvent_only ?_ (hS.mono rfl) | refine setJournal_only ?_ (hS.mono rfl) | refine trainTile_only ?_ (hS.mono rfl) | refine OptAllFst.intro ?_)
    | exact trivial
    | split)
theorem calibrateSettle_only {s : State} {part : Nat} (hk : Only S b0 s) (hS : Covers S [.host, .col]) : Only S b0 (calibrateSettle s part) := by
  unfold calibrateSettle
  dsimp only
  repeat' (first
    | (with_reducible first | assumption | refine complete_only ?_ (hS.mono rfl))
    | split)
theorem holdAll_only {s : State} {p : Nat} (hk : Only S b0 s) (hS : Covers S [.ridges]) : Only S b0 (holdAll s p) := by
  unfold holdAll
  repeat' (first
    | (with_reducible first | assumption | refine updR_only ?_ (fun _ => ?_))
    | (with_reducible refine Only.foldl (fun _ _ _ => ?_) _ _ ?_) <;> try dsimp only
    | exact ⟨by first | exact .inl (hS.mem rfl) | (with_reducible exact .inr rfl) | (with_reducible exact .inr ⟨rfl, rfl⟩) | (with_reducible exact .inr ⟨rfl, rfl, rfl, rfl⟩) | exact .inr rfl, by first | exact .inl (hS.mem rfl) | (with_reducible exact .inr rfl) | (with_reducible exact .inr ⟨rfl, rfl⟩) | (with_reducible exact .inr ⟨rfl, rfl, rfl, rfl⟩) | exact .inr rfl, by first | exact .inl (hS.mem rfl) | (with_reducible exact .inr rfl) | (with_reducible exact .inr ⟨rfl, rfl⟩) | (with_reducible exact .inr ⟨rfl, rfl, rfl, rfl⟩) | exact .inr rfl, by first | exact .inl (hS.mem rfl) | (with_reducible exact .inr rfl) | (with_reducible exact .inr ⟨rfl, rfl⟩) | (with_reducible exact .inr ⟨rfl, rfl, rfl, rfl⟩) | exact .inr rfl⟩)
theorem surveyAll_only {s : State} {p : Nat} (hk : Only S b0 s) (hS : Covers S [.tiles]) : Only S b0 (surveyAll s p) := by
  unfold surveyAll
  dsimp only
  repeat' (first
    | (with_reducible first | assumption | refine requestSurvey_only ?_ (hS.mono rfl))
    | (with_reducible refine Only.foldl (fun _ _ _ => ?_) _ _ ?_) <;> try dsimp only
    | split)
theorem calibrateDo_only {s : State} {c : Cmd} (hk : Only S b0 s) (hS : Covers S [.host, .tiles, .ridges, .col]) : Only S b0 (calibrateDo s c) := by
  unfold calibrateDo
  dsimp only
  repeat' (first
    | (with_reducible first | assumption | refine calibrateSettle_only ?_ (hS.mono rfl) | refine startCmd_only ?_ (hS.mono rfl) | refine holdAll_only ?_ (hS.mono rfl) | refine surveyAll_only ?_ (hS.mono rfl))
    | split)
theorem calibrateRidge_only {s : State} {r : Nat} (hk : Only S b0 s) (hS : Covers S [.host, .col]) : Only S b0 (calibrateRidge s r) := by
  unfold calibrateRidge
  repeat' (first
    | (with_reducible first | assumption | refine calibrateSettle_only ?_ (hS.mono rfl))
    | split)
theorem setUe_only {s : State} {a : Nat} {v : Bool} (hk : Only S b0 s) (hS : Covers S [.clayBytes]) : Only S b0 (setUe s a v) := by
  unfold setUe
  dsimp only
  repeat' (first
    | (with_reducible first | assumption | exact RidgesOnly.refl _)
    | (simp only [Only.fields]; with_reducible refine Only.upd ?_ ?_ ?_ ?_ ?_ ?_ ?_ ?_ ?_ ?_ ?_ ?_ ?_ ?_ ?_ ?_ ?_ ?_ ?_ ?_ ?_ ?_)
    | exact .inl (hS.mem rfl)
    | (with_reducible exact .inr rfl)
    | (with_reducible exact .inr ⟨rfl, rfl⟩))
theorem newKey_only {s : State} (hk : Only S b0 s) (hS : Covers S [.security]) : Only S b0 (newKey s).2 := by
  unfold newKey
  dsimp only
  repeat' (first
    | (with_reducible first | assumption | exact RidgesOnly.refl _)
    | (simp only [Only.fields]; with_reducible refine Only.upd ?_ ?_ ?_ ?_ ?_ ?_ ?_ ?_ ?_ ?_ ?_ ?_ ?_ ?_ ?_ ?_ ?_ ?_ ?_ ?_ ?_ ?_)
    | exact .inl (hS.mem rfl)
    | (with_reducible exact .inr rfl)
    | (with_reducible exact .inr ⟨rfl, rfl⟩))
theorem initRanges_only {s : State} {t : Part} (hk : Only S b0 s) (hS : Covers S [.localMemory]) : Only S b0 (initRanges s t) := by
  unfold initRanges
  dsimp only
  repeat' (first
    | (with_reducible first | assumption | exact RidgesOnly.refl _)
    | (simp only [Only.fields]; with_reducible refine Only.upd ?_ ?_ ?_ ?_ ?_ ?_ ?_ ?_ ?_ ?_ ?_ ?_ ?_ ?_ ?_ ?_ ?_ ?_ ?_ ?_ ?_ ?_)
    | exact .inl (hS.mem rfl)
    | (with_reducible exact .inr rfl)
    | (with_reducible exact .inr ⟨rfl, rfl⟩))
theorem ropeStage_only {s : State} {e : Nat} (hk : Only S b0 s) (hS : Covers S [.host, .jobs, .slots, .ridges, .col, .ropes]) : Only S b0 (ropeStage s e) := by
  unfold ropeStage
  dsimp only
  repeat' (first
    | (with_reducible first | assumption | refine setRope_only ?_ (hS.mono rfl) | refine tryLock_only ?_ (hS.mono rfl))
    | split)
theorem ropeAdd_only {s : State} {e : Nat} {a : Action} (hk : Only S b0 s) (hS : Covers S [.host, .jobs, .slots, .ridges, .col, .ropes]) : Only S b0 (ropeAdd s e a).1 := by
  unfold ropeAdd
  dsimp only
  repeat' (first
    | (with_reducible first | assumption | refine setRope_only ?_ (hS.mono rfl) | refine ropeAbort_only ?_ (hS.mono rfl))
    | split)
theorem serviceRope_only {s : State} {parts : List Nat} {job : W32} {why : RopeWhy} {l : List Action} (hk : Only S b0 s) (hS : Covers S [.host, .jobs, .slots, .ridges, .col, .ropes]) : Only S b0 (serviceRope s parts job why l) := by
  unfold serviceRope
  dsimp only
  repeat' (first
    | (with_reducible first | assumption | refine ropeStage_only ?_ (hS.mono rfl) | refine setRope_only ?_ (hS.mono rfl) | refine ropeAdd_only ?_ (hS.mono rfl))
    | (with_reducible refine Only.foldl (fun _ _ _ => ?_) _ _ ?_) <;> try dsimp only
    | split)
theorem writePending_only {s : State} (hk : Only S b0 s) (hS : Covers S [.clay]) : Only S b0 (writePending s) := by
  unfold writePending
  repeat' (first
    | (with_reducible first | assumption | refine queueRec_only ?_ (hS.mono rfl)))
theorem scrubSettle_only {s : State} {p : Nat} (hk : Only S b0 s) (hS : Covers S [.host, .parts, .jobs, .slots, .ridges, .localMemory, .col, .ropes, .security, .clay]) : Only S b0 (scrubSettle s p) := by
  unfold scrubSettle
  dsimp only
  repeat' (first
    | (with_reducible first | assumption | refine newKey_only ?_ (hS.mono rfl) | refine initRanges_only ?_ (hS.mono rfl) | refine updP_only ?_ (hS.mono rfl) | refine serviceRope_only ?_ (hS.mono rfl) | refine writePending_only ?_ (hS.mono rfl))
    | split)
theorem quarterDone_only {s : State} {q : Nat} (hk : Only S b0 s) (hS : Covers S [.host, .parts, .jobs, .slots, .ridges, .localMemory, .col, .ropes, .security, .clay]) : Only S b0 (quarterDone s q) := by
  unfold quarterDone
  repeat' (first
    | (with_reducible first | assumption | refine scrubSettle_only ?_ (hS.mono rfl) | refine updP_only ?_ (hS.mono rfl))
    | (with_reducible refine Only.foldl (fun _ _ _ => ?_) _ _ ?_) <;> try dsimp only
    | split)
theorem wholeSettle_only {s : State} (hk : Only S b0 s) (hS : Covers S [.host, .col, .cmc]) : Only S b0 (wholeSettle s) := by
  unfold wholeSettle
  dsimp only
  repeat' (first
    | (with_reducible first | assumption | refine completeAt_only ?_ (hS.mono rfl) | refine pinSync_only ?_ (hS.mono rfl) | exact RidgesOnly.refl _)
    | (simp only [Only.fields]; with_reducible refine Only.upd ?_ ?_ ?_ ?_ ?_ ?_ ?_ ?_ ?_ ?_ ?_ ?_ ?_ ?_ ?_ ?_ ?_ ?_ ?_ ?_ ?_ ?_)
    | exact .inl (hS.mem rfl)
    | (with_reducible exact .inr rfl)
    | (with_reducible exact .inr ⟨rfl, rfl⟩)
    | split)
theorem recordStep_only {s : State} {cls idx : Nat} {data : List Byte} {n : Nat} (hk : Only S b0 s) (hS : Covers S [.clayBytes, .clay]) : Only S b0 (recordStep s cls idx data n) := by
  unfold recordStep
  dsimp only
  repeat' (first
    | (with_reducible first | assumption | refine setUe_only ?_ (hS.mono rfl) | refine setRec_only ?_ (hS.mono rfl))
    | split)
theorem replaceWriter_only {s : State} {w : Writer} {v : Option Writer} (hk : Only S b0 s) (hS : Covers S [.clay]) : Only S b0 (replaceWriter s w v) := by
  unfold replaceWriter
  dsimp only
  repeat' (first
    | (with_reducible first | assumption | exact RidgesOnly.refl _)
    | (simp only [Only.fields]; with_reducible refine Only.upd ?_ ?_ ?_ ?_ ?_ ?_ ?_ ?_ ?_ ?_ ?_ ?_ ?_ ?_ ?_ ?_ ?_ ?_ ?_ ?_ ?_ ?_)
    | exact .inl (hS.mem rfl)
    | (with_reducible exact .inr rfl)
    | (with_reducible exact .inr ⟨rfl, rfl⟩))
theorem groupWritten_only {s : State} {w : Writer} (hk : Only S b0 s) (hS : Covers S [.host, .parts, .jobs, .slots, .ridges, .localMemory, .col, .ropes, .security, .clayBytes, .clay, .cmc]) : Only S b0 (groupWritten s w) := by
  have put : ∀ (a : Nat) (d : List Byte), Only S b0 { s with clay := { s.clay with bytes := tsetRun 0 s.clay.bytes a d } } := fun a d =>
    Only.upd (t := s) hk (.inr ⟨rfl, rfl⟩) (.inr rfl) (.inr rfl) (.inr rfl) (.inr rfl) (RidgesOnly.refl _) (.inr rfl) (.inr ⟨rfl, rfl⟩) (.inr rfl) (.inr ⟨rfl, rfl⟩) (.inr rfl) (.inr rfl) (.inr rfl) (.inr rfl) (.inr rfl) (.inl (hS.mem rfl)) (.inr rfl) (.inr rfl) (.inr rfl) (.inr rfl) (.inr rfl)
  unfold groupWritten
  split
  · exact replaceWriter_only (recordStep_only hk (hS.mono rfl)) (hS.mono rfl)
  · dsimp only
    split
    · exact replaceWriter_only (setUe_only (put _ _) (hS.mono rfl)) (hS.mono rfl)
    · split
      · exact replaceWriter_only (setUe_only (put _ _) (hS.mono rfl)) (hS.mono rfl)
      · exact wholeSettle_only (quarterDone_only (replaceWriter_only (setUe_only (put _ _) (hS.mono rfl)) (hS.mono rfl)) (hS.mono rfl)) (hS.mono rfl)
  · dsimp only
    split
    · exact completeAt_only (replaceWriter_only (setUe_only (put _ _) (hS.mono rfl)) (hS.mono rfl)) (hS.mono rfl)
    · exact replaceWriter_only (setUe_only (put _ _) (hS.mono rfl)) (hS.mono rfl)
theorem clayCut_only {s : State} (hk : Only S b0 s) (hS : Covers S [.host, .parts, .jobs, .slots, .ridges, .localMemory, .col, .ropes, .security, .clayBytes, .clay, .cmc]) : Only S b0 (clayCut s) := by
  unfold clayCut
  dsimp only
  repeat' (first
    | (with_reducible first | assumption | refine setUe_only ?_ (hS.mono rfl) | refine groupWritten_only ?_ (hS.mono rfl) | refine setRec_only ?_ (hS.mono rfl) | exact RidgesOnly.refl _)
    | (simp only [Only.fields]; with_reducible refine Only.upd ?_ ?_ ?_ ?_ ?_ ?_ ?_ ?_ ?_ ?_ ?_ ?_ ?_ ?_ ?_ ?_ ?_ ?_ ?_ ?_ ?_ ?_)
    | exact .inl (hS.mem rfl)
    | (with_reducible exact .inr rfl)
    | (with_reducible exact .inr ⟨rfl, rfl⟩)
    | split)
theorem clayFinish_only {s : State} (hk : Only S b0 s) (hS : Covers S [.host, .parts, .jobs, .slots, .ridges, .localMemory, .col, .ropes, .security, .clayBytes, .clay, .cmc]) : Only S b0 (clayFinish s) := by
  unfold clayFinish
  repeat' (first
    | (with_reducible first | assumption | refine groupWritten_only ?_ (hS.mono rfl))
    | split)
theorem saveGuard_only {s : State} (hk : Only S b0 s) (hS : Covers S [.clay]) : Only S b0 (saveGuard s) := by
  unfold saveGuard
  repeat' (first
    | (with_reducible first | assumption | refine queueRec_only ?_ (hS.mono rfl)))
theorem clayProtectDo_only {s : State} {c : Cmd} (hk : Only S b0 s) (hS : Covers S [.host, .col, .clay]) : Only S b0 (clayProtectDo s c) := by
  unfold clayProtectDo
  dsimp only
  repeat' (first
    | (with_reducible first | assumption | refine clayEvent_only ?_ (hS.mono rfl) | refine saveGuard_only ?_ (hS.mono rfl) | refine complete_only ?_ (hS.mono rfl) | exact RidgesOnly.refl _)
    | (simp only [Only.fields]; with_reducible refine Only.upd ?_ ?_ ?_ ?_ ?_ ?_ ?_ ?_ ?_ ?_ ?_ ?_ ?_ ?_ ?_ ?_ ?_ ?_ ?_ ?_ ?_ ?_)
    | exact .inl (hS.mem rfl)
    | (with_reducible exact .inr rfl)
    | (with_reducible exact .inr ⟨rfl, rfl⟩)
    | split)
theorem clayReadDo_only {s : State} {c : Cmd} (hk : Only S b0 s) (hS : Covers S [.hostMemory, .host, .col]) : Only S b0 (clayReadDo s c) := by
  unfold clayReadDo
  dsimp only
  repeat' (first
    | (with_reducible first | assumption | refine clayCoal_only ?_ (hS.mono rfl) | refine completeOut_only ?_ (hS.mono rfl) | refine complete_only ?_ (hS.mono rfl) | refine hostWrite_only ?_ (hS.mono rfl))
    | split)
theorem passwordFail_only {s : State} (hk : Only S b0 s) (hS : Covers S [.col, .clay]) : Only S b0 (passwordFail s) := by
  unfold passwordFail
  dsimp only
  repeat' (first
    | (with_reducible first | assumption | refine clayCoal_only ?_ (hS.mono rfl) | refine clayEvent_only ?_ (hS.mono rfl) | exact RidgesOnly.refl _)
    | (simp only [Only.fields]; with_reducible refine Only.upd ?_ ?_ ?_ ?_ ?_ ?_ ?_ ?_ ?_ ?_ ?_ ?_ ?_ ?_ ?_ ?_ ?_ ?_ ?_ ?_ ?_ ?_)
    | exact .inl (hS.mem rfl)
    | (with_reducible exact .inr rfl)
    | (with_reducible exact .inr ⟨rfl, rfl⟩)
    | split)
theorem unlockDo_only {s : State} {kind : Nat} {new : W64} (hk : Only S b0 s) (hS : Covers S [.col, .clay]) : Only S b0 (unlockDo s kind new) := by
  unfold unlockDo
  dsimp only
  repeat' (first
    | (with_reducible first | assumption | refine clayEvent_only ?_ (hS.mono rfl) | refine saveGuard_only ?_ (hS.mono rfl) | exact RidgesOnly.refl _)
    | (simp only [Only.fields]; with_reducible refine Only.upd ?_ ?_ ?_ ?_ ?_ ?_ ?_ ?_ ?_ ?_ ?_ ?_ ?_ ?_ ?_ ?_ ?_ ?_ ?_ ?_ ?_ ?_)
    | exact .inl (hS.mem rfl)
    | (with_reducible exact .inr rfl)
    | (with_reducible exact .inr ⟨rfl, rfl⟩)
    | split)
theorem clayUnlockDo_only {s : State} {c : Cmd} (hk : Only S b0 s) (hS : Covers S [.host, .col, .clay]) : Only S b0 (clayUnlockDo s c) := by
  unfold clayUnlockDo
  dsimp only
  repeat' (first
    | (with_reducible first | assumption | refine complete_only ?_ (hS.mono rfl) | refine passwordFail_only ?_ (hS.mono rfl) | refine unlockDo_only ?_ (hS.mono rfl) | exact RidgesOnly.refl _)
    | (simp only [Only.fields]; with_reducible refine Only.upd ?_ ?_ ?_ ?_ ?_ ?_ ?_ ?_ ?_ ?_ ?_ ?_ ?_ ?_ ?_ ?_ ?_ ?_ ?_ ?_ ?_ ?_)
    | exact .inl (hS.mem rfl)
    | (with_reducible exact .inr rfl)
    | (with_reducible exact .inr ⟨rfl, rfl⟩)
    | split)
theorem clayWriteDo_only {s : State} {c : Cmd} (hk : Only S b0 s) (hS : Covers S [.host, .col, .clay]) : Only S b0 (clayWriteDo s c) := by
  unfold clayWriteDo
  dsimp only
  repeat' (first
    | (with_reducible first | assumption | refine complete_only ?_ (hS.mono rfl) | refine startCmd_only ?_ (hS.mono rfl) | exact RidgesOnly.refl _)
    | (simp only [Only.fields]; with_reducible refine Only.upd ?_ ?_ ?_ ?_ ?_ ?_ ?_ ?_ ?_ ?_ ?_ ?_ ?_ ?_ ?_ ?_ ?_ ?_ ?_ ?_ ?_ ?_)
    | exact .inl (hS.mem rfl)
    | (with_reducible exact .inr rfl)
    | (with_reducible exact .inr ⟨rfl, rfl⟩)
    | split)
theorem clearFlags_only {s : State} {cls inst vec : Nat} (hk : Only S b0 s) (hS : Covers S [.arbiters]) : Only S b0 (clearFlags s cls inst vec) := by
  unfold clearFlags
  dsimp only
  repeat' (first
    | (with_reducible first | assumption | refine setArb_only ?_ (hS.mono rfl)))
theorem clockRestart_only {s : State} {src : Nat} (hk : Only S b0 s) (hS : Covers S [.col]) : Only S b0 (clockRestart s src) := by
  unfold clockRestart
  dsimp only
  repeat' (first
    | (with_reducible first | assumption | exact RidgesOnly.refl _)
    | (simp only [Only.fields]; with_reducible refine Only.upd ?_ ?_ ?_ ?_ ?_ ?_ ?_ ?_ ?_ ?_ ?_ ?_ ?_ ?_ ?_ ?_ ?_ ?_ ?_ ?_ ?_ ?_)
    | exact .inl (hS.mem rfl)
    | (with_reducible exact .inr rfl)
    | (with_reducible exact .inr ⟨rfl, rfl⟩))
theorem coalMarker_only {kind : Nat} {s : State} {x : Nat × Coal} (hk : Only S b0 s) (hS : Covers S [.col]) : Only S b0 (coalMarker kind s x) := by
  unfold coalMarker
  dsimp only
  repeat' (first
    | (with_reducible first | assumption | refine enq_only ?_ (hS.mono rfl) | refine setCoal_only ?_ (hS.mono rfl) | exact RidgesOnly.refl _)
    | (simp only [Only.fields]; with_reducible refine Only.upd ?_ ?_ ?_ ?_ ?_ ?_ ?_ ?_ ?_ ?_ ?_ ?_ ?_ ?_ ?_ ?_ ?_ ?_ ?_ ?_ ?_ ?_)
    | exact .inl (hS.mem rfl)
    | (with_reducible exact .inr rfl)
    | (with_reducible exact .inr ⟨rfl, rfl⟩)
    | split)
theorem poolWrite_only {s : State} {a : Nat} {d : List Byte} (hk : Only S b0 s) (hS : Covers S [.pool]) : Only S b0 (poolWrite s a d) := by
  unfold poolWrite
  dsimp only
  repeat' (first
    | (with_reducible first | assumption | exact RidgesOnly.refl _)
    | (simp only [Only.fields]; with_reducible refine Only.upd ?_ ?_ ?_ ?_ ?_ ?_ ?_ ?_ ?_ ?_ ?_ ?_ ?_ ?_ ?_ ?_ ?_ ?_ ?_ ?_ ?_ ?_)
    | exact .inl (hS.mem rfl)
    | (with_reducible exact .inr rfl)
    | (with_reducible exact .inr ⟨rfl, rfl⟩))
theorem updQ_only {s : State} {q : QId} {f : Queue → Queue} (hk : Only S b0 s) (hS : Covers S [.host]) : Only S b0 (updQ s q f) := by
  unfold updQ
  repeat' (first
    | (with_reducible first | assumption | refine setQ_only ?_ (hS.mono rfl)))
theorem cqWrite_only {s : State} {c : Cqe} (hk : Only S b0 s) (hS : Covers S [.hostMemory, .pool, .host]) : Only S b0 (cqWrite s c) := by
  unfold cqWrite
  dsimp only
  repeat' (first
    | (with_reducible first | assumption | refine sendMsix_only ?_ (hS.mono rfl) | refine poolWrite_only ?_ (hS.mono rfl) | refine updQ_only ?_ (hS.mono rfl) | refine hostWrite_only ?_ (hS.mono rfl))
    | split)
theorem cqPost_only {s : State} {c : Cqe} (hk : Only S b0 s) (hS : Covers S [.hostMemory, .pool, .host]) : Only S b0 (cqPost s c) := by
  unfold cqPost
  dsimp only
  repeat' (first
    | (with_reducible first | assumption | refine cqWrite_only ?_ (hS.mono rfl) | refine updQ_only ?_ (hS.mono rfl))
    | split)
theorem commitAfter_only {s : State} {q : Rope} (hk : Only S b0 s) (hS : Covers S [.host, .col]) : Only S b0 (commitAfter s q) := by
  unfold commitAfter
  repeat' (first
    | (with_reducible first | assumption | refine completeAt_only ?_ (hS.mono rfl) | refine attnBoth_only ?_ (hS.mono rfl))
    | split)
theorem writeStaged_only {s : State} {r : Nat} {g : Staged} (hk : Only S b0 s) (hS : Covers S [.loam, .localMemory, .col]) : Only S b0 (writeStaged s r g).1 := by
  unfold writeStaged
  dsimp only
  repeat' (first
    | (with_reducible first | assumption | refine raiseInteg_only ?_ (hS.mono rfl) | refine stLoam_only ?_ (hS.mono rfl) | refine dramWrite_only ?_ (hS.mono rfl))
    | (with_reducible refine Only.foldl (fun _ _ _ => ?_) _ _ ?_) <;> try dsimp only
    | (with_reducible refine Only.foldl_fst (fun _ _ _ => ?_) _ _ ?_) <;> try dsimp only)
theorem commitWrite_only {s : State} {r k win : Nat} (hk : Only S b0 s) (hS : Covers S [.host, .jobs, .loam, .slots, .ridges, .localMemory, .path, .col, .ropes]) : Only S b0 (commitWrite s r k win) := by
  unfold commitWrite
  dsimp only
  repeat' (first
    | (with_reducible first | assumption | refine addCounts_only ?_ (hS.mono rfl) | refine execFault_only ?_ (hS.mono rfl) | refine freeSlot_only ?_ (hS.mono rfl) | refine retire_only ?_ (hS.mono rfl) | refine writeStaged_only ?_ (hS.mono rfl))
    | split)
theorem updWset_only {s : State} {p : Nat} {id : W32} {f : Wset → Wset} (hk : Only S b0 s) (hS : Covers S [.parts]) : Only S b0 (updWset s p id f) := by
  unfold updWset
  repeat' (first
    | (with_reducible first | assumption | refine updP_only ?_ (hS.mono rfl)))
theorem wsetSettle_only {s : State} {part : Nat} {id : W32} (hk : Only S b0 s) (hS : Covers S [.host, .parts, .col]) : Only S b0 (wsetSettle s part id) := by
  unfold wsetSettle
  dsimp only
  repeat' (first
    | (with_reducible first | assumption | refine completeAt_only ?_ (hS.mono rfl) | refine updWset_only ?_ (hS.mono rfl))
    | split)
theorem wsetProgrammed_only {s : State} {r p : Nat} (hk : Only S b0 s) (hS : Covers S [.host, .parts, .col]) : Only S b0 (wsetProgrammed s r p) := by
  unfold wsetProgrammed
  repeat' (first
    | (with_reducible first | assumption | refine wsetSettle_only ?_ (hS.mono rfl) | refine updWset_only ?_ (hS.mono rfl))
    | split)
theorem swapDone_only {s : State} {r p t old : Nat} {wasFenced : Bool} (hk : Only S b0 s) (hS : Covers S [.host, .parts, .tiles, .ridges, .col, .clay]) : Only S b0 (swapDone s r p t old wasFenced) := by
  unfold swapDone
  dsimp only
  repeat' (first
    | (with_reducible first | assumption | refine updTile_only ?_ (hS.mono rfl) | refine commitMaps_only ?_ (hS.mono rfl) | refine wsetProgrammed_only ?_ (hS.mono rfl) | refine setJournal_only ?_ (hS.mono rfl) | refine updR_only ?_ (fun _ => ?_))
    | split
    | exact ⟨by first | exact .inl (hS.mem rfl) | (with_reducible exact .inr rfl) | (with_reducible exact .inr ⟨rfl, rfl⟩) | (with_reducible exact .inr ⟨rfl, rfl, rfl, rfl⟩) | exact .inr rfl, by first | exact .inl (hS.mem rfl) | (with_reducible exact .inr rfl) | (with_reducible exact .inr ⟨rfl, rfl⟩) | (with_reducible exact .inr ⟨rfl, rfl, rfl, rfl⟩) | exact .inr rfl, by first | exact .inl (hS.mem rfl) | (with_reducible exact .inr rfl) | (with_reducible exact .inr ⟨rfl, rfl⟩) | (with_reducible exact .inr ⟨rfl, rfl, rfl, rfl⟩) | exact .inr rfl, by first | exact .inl (hS.mem rfl) | (with_reducible exact .inr rfl) | (with_reducible exact .inr ⟨rfl, rfl⟩) | (with_reducible exact .inr ⟨rfl, rfl, rfl, rfl⟩) | exact .inr rfl⟩)
theorem testAtCairn_only {s : State} {p : Nat} {id : W32} (hk : Only S b0 s) (hS : Covers S [.ridges]) : Only S b0 (testAtCairn s p id) := by
  unfold testAtCairn
  dsimp only
  repeat' (first
    | (with_reducible first | assumption | refine updR_only ?_ (fun _ => ?_))
    | (with_reducible refine Only.foldl (fun _ _ _ => ?_) _ _ ?_) <;> try dsimp only
    | split
    | exact ⟨by first | exact .inl (hS.mem rfl) | (with_reducible exact .inr rfl) | (with_reducible exact .inr ⟨rfl, rfl⟩) | (with_reducible exact .inr ⟨rfl, rfl, rfl, rfl⟩) | exact .inr rfl, by first | exact .inl (hS.mem rfl) | (with_reducible exact .inr rfl) | (with_reducible exact .inr ⟨rfl, rfl⟩) | (with_reducible exact .inr ⟨rfl, rfl, rfl, rfl⟩) | exact .inr rfl, by first | exact .inl (hS.mem rfl) | (with_reducible exact .inr rfl) | (with_reducible exact .inr ⟨rfl, rfl⟩) | (with_reducible exact .inr ⟨rfl, rfl, rfl, rfl⟩) | exact .inr rfl, by first | exact .inl (hS.mem rfl) | (with_reducible exact .inr rfl) | (with_reducible exact .inr ⟨rfl, rfl⟩) | (with_reducible exact .inr ⟨rfl, rfl, rfl, rfl⟩) | exact .inr rfl⟩)
theorem detachQueues_only {s : State} {p : Nat} {port : Port} (hk : Only S b0 s) (hS : Covers S [.host]) : Only S b0 (detachQueues s p port) := by
  unfold detachQueues
  repeat' (first
    | (with_reducible first | assumption | refine updQ_only ?_ (hS.mono rfl))
    | (with_reducible refine Only.foldl (fun _ _ _ => ?_) _ _ ?_) <;> try dsimp only)
theorem startRap_only {s : State} {scope id tag : Nat} {port : Option Port} {fn : Nat} {why : RapWhy} (hk : Only S b0 s) (hS : Covers S [.col]) : Only S b0 (startRap s scope id tag port fn why) := by
  unfold startRap
  dsimp only
  repeat' (first
    | (with_reducible first | assumption | refine enq_only ?_ (hS.mono rfl) | exact RidgesOnly.refl _)
    | (simp only [Only.fields]; with_reducible refine Only.upd ?_ ?_ ?_ ?_ ?_ ?_ ?_ ?_ ?_ ?_ ?_ ?_ ?_ ?_ ?_ ?_ ?_ ?_ ?_ ?_ ?_ ?_)
    | exact .inl (hS.mem rfl)
    | (with_reducible exact .inr rfl)
    | (with_reducible exact .inr ⟨rfl, rfl⟩))
theorem tdiFail_only {s : State} {p : Nat} (hk : Only S b0 s) (hS : Covers S [.parts, .col]) : Only S b0 (tdiFail s p) := by
  unfold tdiFail
  dsimp only
  repeat' (first
    | (with_reducible first | assumption | refine securityEvent_only ?_ (hS.mono rfl) | refine updP_only ?_ (hS.mono rfl) | refine startRap_only ?_ (hS.mono rfl))
    | split)
theorem tdiError_only {s : State} {p : Nat} (hk : Only S b0 s) (hS : Covers S [.parts, .col]) : Only S b0 (tdiError s p) := by
  unfold tdiError
  repeat' (first
    | (with_reducible first | assumption | refine tdiFail_only ?_ (hS.mono rfl))
    | split)
theorem movePool_only {s : State} {p : Nat} {port : Port} (hk : Only S b0 s) (hS : Covers S [.host]) : Only S b0 (movePool s p port) := by
  unfold movePool
  repeat' (first
    | (with_reducible first | assumption | refine updQ_only ?_ (hS.mono rfl))
    | (with_reducible refine Only.foldl (fun _ _ _ => ?_) _ _ ?_) <;> try dsimp only)
theorem updFn_only {s : State} {p : Port} {f : Nat} {g : FnRegs → FnRegs} (hk : Only S b0 s) (hS : Covers S [.host]) : Only S b0 (updFn s p f g) := by
  unfold updFn
  dsimp only
  repeat' (first
    | (with_reducible first | assumption | exact RidgesOnly.refl _)
    | (simp only [Only.fields]; with_reducible refine Only.upd ?_ ?_ ?_ ?_ ?_ ?_ ?_ ?_ ?_ ?_ ?_ ?_ ?_ ?_ ?_ ?_ ?_ ?_ ?_ ?_ ?_ ?_)
    | exact .inl (hS.mem rfl)
    | (with_reducible exact .inr rfl)
    | (with_reducible exact .inr ⟨rfl, rfl⟩))
theorem resetFn_only {s : State} {p : Nat} (hk : Only S b0 s) (hS : Covers S [.host]) : Only S b0 (resetFn s p) := by
  unfold resetFn
  repeat' (first
    | (with_reducible first | assumption | refine updFn_only ?_ (hS.mono rfl)))
theorem layoutLive_only {s : State} {p : Nat} {t : Part} {seq : Nat} (hk : Only S b0 s) (hS : Covers S [.host, .parts, .ridges, .localMemory, .path, .col, .links, .security]) : Only S b0 (layoutLive s p t seq) := by
  unfold layoutLive
  dsimp only
  repeat' (first
    | (with_reducible first | assumption | refine setP_only ?_ (hS.mono rfl) | refine dropExports_only ?_ (hS.mono rfl) | refine initRanges_only ?_ (hS.mono rfl) | refine detachQueues_only ?_ (hS.mono rfl) | refine updP_only ?_ (hS.mono rfl) | refine tdiError_only ?_ (hS.mono rfl) | refine dropPart_only ?_ (hS.mono rfl) | refine movePool_only ?_ (hS.mono rfl) | refine resetFn_only ?_ (hS.mono rfl) | refine updR_only ?_ (fun _ => ?_) | exact RidgesOnly.refl _)
    | (simp only [Only.fields]; with_reducible refine Only.upd ?_ ?_ ?_ ?_ ?_ ?_ ?_ ?_ ?_ ?_ ?_ ?_ ?_ ?_ ?_ ?_ ?_ ?_ ?_ ?_ ?_ ?_)
    | (with_reducible refine Only.foldl (fun _ _ _ => ?_) _ _ ?_) <;> try dsimp only
    | exact .inl (hS.mem rfl)
    | (with_reducible exact .inr rfl)
    | (with_reducible exact .inr ⟨rfl, rfl⟩)
    | split
    | exact ⟨by first | exact .inl (hS.mem rfl) | (with_reducible exact .inr rfl) | (with_reducible exact .inr ⟨rfl, rfl⟩) | (with_reducible exact .inr ⟨rfl, rfl, rfl, rfl⟩) | exact .inr rfl, by first | exact .inl (hS.mem rfl) | (with_reducible exact .inr rfl) | (with_reducible exact .inr ⟨rfl, rfl⟩) | (with_reducible exact .inr ⟨rfl, rfl, rfl, rfl⟩) | exact .inr rfl, by first | exact .inl (hS.mem rfl) | (with_reducible exact .inr rfl) | (with_reducible exact .inr ⟨rfl, rfl⟩) | (with_reducible exact .inr ⟨rfl, rfl, rfl, rfl⟩) | exact .inr rfl, by first | exact .inl (hS.mem rfl) | (with_reducible exact .inr rfl) | (with_reducible exact .inr ⟨rfl, rfl⟩) | (with_reducible exact .inr ⟨rfl, rfl, rfl, rfl⟩) | exact .inr rfl⟩)
theorem setMap_only {s : State} {r p phys : Nat} {fenced : Bool} (hk : Only S b0 s) (hS : Covers S [.ridges]) : Only S b0 (setMap s r p phys fenced) := by
  unfold setMap
  repeat' (first
    | (with_reducible first | assumption | refine updR_only ?_ (fun _ => ?_))
    | split
    | exact ⟨by first | exact .inl (hS.mem rfl) | (with_reducible exact .inr rfl) | (with_reducible exact .inr ⟨rfl, rfl⟩) | (with_reducible exact .inr ⟨rfl, rfl, rfl, rfl⟩) | exact .inr rfl, by first | exact .inl (hS.mem rfl) | (with_reducible exact .inr rfl) | (with_reducible exact .inr ⟨rfl, rfl⟩) | (with_reducible exact .inr ⟨rfl, rfl, rfl, rfl⟩) | exact .inr rfl, by first | exact .inl (hS.mem rfl) | (with_reducible exact .inr rfl) | (with_reducible exact .inr ⟨rfl, rfl⟩) | (with_reducible exact .inr ⟨rfl, rfl, rfl, rfl⟩) | exact .inr rfl, by first | exact .inl (hS.mem rfl) | (with_reducible exact .inr rfl) | (with_reducible exact .inr ⟨rfl, rfl⟩) | (with_reducible exact .inr ⟨rfl, rfl, rfl, rfl⟩) | exact .inr rfl⟩)
theorem commitAction_only {seq : Nat} {s : State} {a : Action} (hk : Only S b0 s) (hS : Covers S [.host, .parts, .jobs, .tiles, .loam, .slots, .ridges, .localMemory, .path, .col, .ropes, .links, .security, .clay]) : Only S b0 (commitAction seq s a) := by
  unfold commitAction
  dsimp only
  repeat' (first
    | (with_reducible first | assumption | refine commitWrite_only ?_ (hS.mono rfl) | refine securityEvent_only ?_ (hS.mono rfl) | refine swapDone_only ?_ (hS.mono rfl) | refine updTile_only ?_ (hS.mono rfl) | refine queueRec_only ?_ (hS.mono rfl) | refine testAtCairn_only ?_ (hS.mono rfl) | refine commitMaps_only ?_ (hS.mono rfl) | refine updJob_only ?_ (hS.mono rfl) | refine layoutLive_only ?_ (hS.mono rfl) | refine setMap_only ?_ (hS.mono rfl) | refine updR_only ?_ (fun _ => ?_) | exact RidgesOnly.refl _)
    | (simp only [Only.fields]; with_reducible refine Only.upd ?_ ?_ ?_ ?_ ?_ ?_ ?_ ?_ ?_ ?_ ?_ ?_ ?_ ?_ ?_ ?_ ?_ ?_ ?_ ?_ ?_ ?_)
    | exact .inl (hS.mem rfl)
    | (with_reducible exact .inr rfl)
    | (with_reducible exact .inr ⟨rfl, rfl⟩)
    | split
    | exact ⟨by first | exact .inl (hS.mem rfl) | (with_reducible exact .inr rfl) | (with_reducible exact .inr ⟨rfl, rfl⟩) | (with_reducible exact .inr ⟨rfl, rfl, rfl, rfl⟩) | exact .inr rfl, by first | exact .inl (hS.mem rfl) | (with_reducible exact .inr rfl) | (with_reducible exact .inr ⟨rfl, rfl⟩) | (with_reducible exact .inr ⟨rfl, rfl, rfl, rfl⟩) | exact .inr rfl, by first | exact .inl (hS.mem rfl) | (with_reducible exact .inr rfl) | (with_reducible exact .inr ⟨rfl, rfl⟩) | (with_reducible exact .inr ⟨rfl, rfl, rfl, rfl⟩) | exact .inr rfl, by first | exact .inl (hS.mem rfl) | (with_reducible exact .inr rfl) | (with_reducible exact .inr ⟨rfl, rfl⟩) | (with_reducible exact .inr ⟨rfl, rfl, rfl, rfl⟩) | exact .inr rfl⟩)
theorem leaveRope_only {s : State} {e : Nat} (hk : Only S b0 s) (hS : Covers S [.jobs, .ridges, .path]) : Only S b0 (leaveRope s e) := by
  unfold leaveRope
  dsimp only
  repeat' (first
    | (with_reducible first | assumption | refine updCtx_only ?_ (hS.mono rfl) | refine settleCtx_only ?_ (hS.mono rfl))
    | (with_reducible refine Only.foldl (fun _ _ _ => ?_) _ _ ?_) <;> try dsimp only
    | split)
theorem scrubDone_only {s : State} {p : Nat} {port : Port} {cmd : Option (QId × W16)} (hk : Only S b0 s) (hS : Covers S [.host, .col, .clay, .cmc]) : Only S b0 (scrubDone s p port cmd) := by
  unfold scrubDone
  dsimp only
  repeat' (first
    | (with_reducible first | assumption | refine securityEvent_only ?_ (hS.mono rfl) | refine completeAt_only ?_ (hS.mono rfl) | refine wholeSettle_only ?_ (hS.mono rfl) | refine writePending_only ?_ (hS.mono rfl))
    | split)
theorem commitSignal_only {q : Rope} {s : State} {a : Action} (hk : Only S b0 s) (hS : Covers S [.jobs, .ridges]) : Only S b0 (commitSignal q s a) := by
  unfold commitSignal
  repeat' (first
    | (with_reducible first | assumption | refine addCounter_only ?_ (hS.mono rfl))
    | split)
theorem ropeCommit_only {s : State} {e seq : Nat} (hk : Only S b0 s) (hS : Covers S [.host, .parts, .jobs, .tiles, .loam, .slots, .ridges, .localMemory, .path, .col, .ropes, .links, .security, .clay, .cmc]) : Only S b0 (ropeCommit s e seq) := by
  unfold ropeCommit
  dsimp only
  repeat' (first
    | (with_reducible first | assumption | refine commitAfter_only ?_ (hS.mono rfl) | refine setRope_only ?_ (hS.mono rfl) | refine commitAction_only ?_ (hS.mono rfl) | refine leaveRope_only ?_ (hS.mono rfl) | refine scrubDone_only ?_ (hS.mono rfl) | refine commitSignal_only ?_ (hS.mono rfl))
    | (with_reducible refine Only.foldl (fun _ _ _ => ?_) _ _ ?_) <;> try dsimp only
    | split)
theorem setWin_only {s : State} {k : Nat} {w : Window} (hk : Only S b0 s) (hS : Covers S [.col]) : Only S b0 (setWin s k w) := by
  unfold setWin
  dsimp only
  repeat' (first
    | (with_reducible first | assumption | exact RidgesOnly.refl _)
    | (simp only [Only.fields]; with_reducible refine Only.upd ?_ ?_ ?_ ?_ ?_ ?_ ?_ ?_ ?_ ?_ ?_ ?_ ?_ ?_ ?_ ?_ ?_ ?_ ?_ ?_ ?_ ?_)
    | exact .inl (hS.mem rfl)
    | (with_reducible exact .inr rfl)
    | (with_reducible exact .inr ⟨rfl, rfl⟩)
    | split)
theorem logIntake_only {s : State} {e : Ev} {seq first severity : Nat} (hk : Only S b0 s) (hS : Covers S [.integrity]) : Only S b0 (logIntake s e seq first severity) := by
  unfold logIntake
  dsimp only
  repeat' (first
    | (with_reducible first | assumption | exact RidgesOnly.refl _)
    | (simp only [Only.fields]; with_reducible refine Only.upd ?_ ?_ ?_ ?_ ?_ ?_ ?_ ?_ ?_ ?_ ?_ ?_ ?_ ?_ ?_ ?_ ?_ ?_ ?_ ?_ ?_ ?_)
    | exact .inl (hS.mem rfl)
    | (with_reducible exact .inr rfl)
    | (with_reducible exact .inr ⟨rfl, rfl⟩)
    | split)
theorem logEpisodes_only {s : State} {seq : Nat} (hk : Only S b0 s) (hS : Covers S [.links, .integrity]) : Only S b0 (logEpisodes s seq) := by
  unfold logEpisodes
  dsimp only
  repeat' (first
    | (with_reducible first | assumption | refine logIntake_only ?_ (hS.mono rfl) | exact RidgesOnly.refl _)
    | (simp only [Only.fields]; with_reducible refine Only.upd ?_ ?_ ?_ ?_ ?_ ?_ ?_ ?_ ?_ ?_ ?_ ?_ ?_ ?_ ?_ ?_ ?_ ?_ ?_ ?_ ?_ ?_)
    | (with_reducible refine Only.foldl (fun _ _ _ => ?_) _ _ ?_) <;> try dsimp only
    | exact .inl (hS.mem rfl)
    | (with_reducible exact .inr rfl)
    | (with_reducible exact .inr ⟨rfl, rfl⟩))
theorem windowClosed_only {s : State} {kind seq : Nat} (hk : Only S b0 s) (hS : Covers S [.col, .links, .integrity, .thermal, .pmu]) : Only S b0 (windowClosed s kind seq) := by
  unfold windowClosed
  dsimp only
  repeat' (first
    | (with_reducible first | assumption | refine setWin_only ?_ (hS.mono rfl) | refine logEpisodes_only ?_ (hS.mono rfl) | refine coalMarker_only ?_ (hS.mono rfl) | exact RidgesOnly.refl _)
    | (simp only [Only.fields]; with_reducible refine Only.upd ?_ ?_ ?_ ?_ ?_ ?_ ?_ ?_ ?_ ?_ ?_ ?_ ?_ ?_ ?_ ?_ ?_ ?_ ?_ ?_ ?_ ?_)
    | (with_reducible refine Only.foldl (fun _ _ _ => ?_) _ _ ?_) <;> try dsimp only
    | exact .inl (hS.mem rfl)
    | (with_reducible exact .inr rfl)
    | (with_reducible exact .inr ⟨rfl, rfl⟩)
    | split)
theorem dropRecord_only {s : State} {p : Port} {f : Nat} (hk : Only S b0 s) (hS : Covers S [.host]) : Only S b0 (dropRecord s p f) := by
  unfold dropRecord
  dsimp only
  repeat' (first
    | (with_reducible first | assumption | refine setAttn_only ?_ (hS.mono rfl) | refine updFn_only ?_ (hS.mono rfl))
    | split)
theorem ringWrite_only {s : State} {p : Port} {f ty : Nat} {b : List Byte} (hk : Only S b0 s) (hS : Covers S [.hostMemory, .host]) : Only S b0 (ringWrite s p f ty b) := by
  unfold ringWrite
  dsimp only
  repeat' (first
    | (with_reducible first | assumption | refine sendMsix_only ?_ (hS.mono rfl) | refine updFn_only ?_ (hS.mono rfl) | refine dropRecord_only ?_ (hS.mono rfl) | refine hostWrite_only ?_ (hS.mono rfl))
    | split)
theorem routeEvent_only {s : State} {e : Ev} {b : List Byte} (hk : Only S b0 s) (hS : Covers S [.hostMemory, .host]) : Only S b0 (routeEvent s e b) := by
  unfold routeEvent
  dsimp only
  repeat' (first
    | (with_reducible first | assumption | refine ringWrite_only ?_ (hS.mono rfl))
    | split)
theorem grantEvent_only {s : State} {e : Ev} {seq : Nat} (hk : Only S b0 s) (hS : Covers S [.hostMemory, .host, .col, .integrity]) : Only S b0 (grantEvent s e seq) := by
  unfold grantEvent
  dsimp only
  repeat' (first
    | (with_reducible first | assumption | refine useFree_only ?_ (hS.mono rfl) | refine logIntake_only ?_ (hS.mono rfl) | refine routeEvent_only ?_ (hS.mono rfl) | exact RidgesOnly.refl _)
    | (simp only [Only.fields]; with_reducible refine Only.upd ?_ ?_ ?_ ?_ ?_ ?_ ?_ ?_ ?_ ?_ ?_ ?_ ?_ ?_ ?_ ?_ ?_ ?_ ?_ ?_ ?_ ?_)
    | exact .inl (hS.mem rfl)
    | (with_reducible exact .inr rfl)
    | (with_reducible exact .inr ⟨rfl, rfl⟩)
    | split)
theorem rapStatusDone_only {s : State} {k : Rappel} (hk : Only S b0 s) (hS : Covers S [.host]) : Only S b0 (rapStatusDone s k) := by
  unfold rapStatusDone
  repeat' (first
    | (with_reducible first | assumption | refine updFn_only ?_ (hS.mono rfl))
    | split)
theorem dropIde_only {s : State} {f : Nat} (hk : Only S b0 s) (hS : Covers S [.security]) : Only S b0 (dropIde s f) := by
  unfold dropIde
  dsimp only
  repeat' (first
    | (with_reducible first | assumption | exact RidgesOnly.refl _)
    | (simp only [Only.fields]; with_reducible refine Only.upd ?_ ?_ ?_ ?_ ?_ ?_ ?_ ?_ ?_ ?_ ?_ ?_ ?_ ?_ ?_ ?_ ?_ ?_ ?_ ?_ ?_ ?_)
    | exact .inl (hS.mem rfl)
    | (with_reducible exact .inr rfl)
    | (with_reducible exact .inr ⟨rfl, rfl⟩))
theorem stopEngines_only {s : State} {ridges : RMask} (hk : Only S b0 s) (hS : Covers S [.tiles, .ridges, .programming]) : Only S b0 (stopEngines s ridges) := by
  unfold stopEngines
  dsimp only
  repeat' (first
    | (with_reducible first | assumption | refine updR_only ?_ (fun _ => ?_) | exact RidgesOnly.refl _)
    | (simp only [Only.fields]; with_reducible refine Only.upd ?_ ?_ ?_ ?_ ?_ ?_ ?_ ?_ ?_ ?_ ?_ ?_ ?_ ?_ ?_ ?_ ?_ ?_ ?_ ?_ ?_ ?_)
    | (with_reducible refine Only.foldl (fun _ _ _ => ?_) _ _ ?_) <;> try dsimp only
    | exact .inl (hS.mem rfl)
    | (with_reducible exact .inr rfl)
    | (with_reducible exact .inr ⟨rfl, rfl⟩)
    | exact ⟨by first | exact .inl (hS.mem rfl) | (with_reducible exact .inr rfl) | (with_reducible exact .inr ⟨rfl, rfl⟩) | (with_reducible exact .inr ⟨rfl, rfl, rfl, rfl⟩) | exact .inr rfl, by first | exact .inl (hS.mem rfl) | (with_reducible exact .inr rfl) | (with_reducible exact .inr ⟨rfl, rfl⟩) | (with_reducible exact .inr ⟨rfl, rfl, rfl, rfl⟩) | exact .inr rfl, by first | exact .inl (hS.mem rfl) | (with_reducible exact .inr rfl) | (with_reducible exact .inr ⟨rfl, rfl⟩) | (with_reducible exact .inr ⟨rfl, rfl, rfl, rfl⟩) | exact .inr rfl, by first | exact .inl (hS.mem rfl) | (with_reducible exact .inr rfl) | (with_reducible exact .inr ⟨rfl, rfl⟩) | (with_reducible exact .inr ⟨rfl, rfl, rfl, rfl⟩) | exact .inr rfl⟩)
theorem scrubBegin_only {s : State} {p : Nat} (hk : Only S b0 s) (hS : Covers S [.host, .parts, .tiles, .loam, .slots, .ridges, .programming, .localMemory, .path, .security, .clay]) : Only S b0 (scrubBegin s p) := by
  unfold scrubBegin
  dsimp only
  repeat' (first
    | (with_reducible first | assumption | refine dropIde_only ?_ (hS.mono rfl) | refine initRanges_only ?_ (hS.mono rfl) | refine updP_only ?_ (hS.mono rfl) | refine removeQueues_only ?_ (hS.mono rfl) | refine dropPart_only ?_ (hS.mono rfl) | refine stopEngines_only ?_ (hS.mono rfl) | refine writePending_only ?_ (hS.mono rfl) | refine updR_only ?_ (fun _ => ?_) | exact RidgesOnly.refl _ | exact zeroRidge_ronly (RidgeOnly.refl _) (hS.mono rfl))
    | (simp only [Only.fields]; with_reducible refine Only.upd ?_ ?_ ?_ ?_ ?_ ?_ ?_ ?_ ?_ ?_ ?_ ?_ ?_ ?_ ?_ ?_ ?_ ?_ ?_ ?_ ?_ ?_)
    | (with_reducible refine Only.foldl (fun _ _ _ => ?_) _ _ ?_) <;> try dsimp only
    | exact .inl (hS.mem rfl)
    | (with_reducible exact .inr rfl)
    | (with_reducible exact .inr ⟨rfl, rfl⟩)
    | split)
theorem rapAfter_only {s : State} {w : RapWhy} (hk : Only S b0 s) (hS : Covers S [.host, .parts, .jobs, .tiles, .loam, .slots, .ridges, .programming, .localMemory, .path, .col, .ropes, .links, .security, .clay, .thermal, .cmc]) : Only S b0 (rapAfter s w) := by
  unfold rapAfter
  dsimp only
  repeat' (first
    | (with_reducible first | assumption | refine removeQueue_only ?_ (hS.mono rfl) | refine basecampReset_only ?_ (hS.mono rfl) | refine scrubBegin_only ?_ (hS.mono rfl) | refine complete_only ?_ (hS.mono rfl) | refine removeQueues_only ?_ (hS.mono rfl))
    | split)
theorem resumeQueues_only {s : State} (hk : Only S b0 s) (hS : Covers S [.host]) : Only S b0 (resumeQueues s) := by
  unfold resumeQueues
  repeat' (first
    | (with_reducible first | assumption | refine updQ_only ?_ (hS.mono rfl))
    | (with_reducible refine Only.foldl (fun _ _ _ => ?_) _ _ ?_) <;> try dsimp only
    | split)
theorem quiesceDone_only {s : State} {key : Nat} (hk : Only S b0 s) (hS : Covers S [.host, .parts, .jobs, .tiles, .loam, .slots, .ridges, .programming, .localMemory, .path, .col, .ropes, .links, .security, .clay, .thermal, .cmc]) : Only S b0 (quiesceDone s key) := by
  unfold quiesceDone
  dsimp only
  repeat' (first
    | (with_reducible first | assumption | refine pinSync_only ?_ (hS.mono rfl) | refine rapStatusDone_only ?_ (hS.mono rfl) | refine scrubSettle_only ?_ (hS.mono rfl) | refine rapAfter_only ?_ (hS.mono rfl) | refine resumeQueues_only ?_ (hS.mono rfl) | exact RidgesOnly.refl _)
    | (simp only [Only.fields]; with_reducible refine Only.upd ?_ ?_ ?_ ?_ ?_ ?_ ?_ ?_ ?_ ?_ ?_ ?_ ?_ ?_ ?_ ?_ ?_ ?_ ?_ ?_ ?_ ?_)
    | (with_reducible refine Only.foldl (fun _ _ _ => ?_) _ _ ?_) <;> try dsimp only
    | exact .inl (hS.mem rfl)
    | (with_reducible exact .inr rfl)
    | (with_reducible exact .inr ⟨rfl, rfl⟩)
    | split)
theorem freeGranted_only {s : State} {e : Ev} (hk : Only S b0 s) (hS : Covers S [.ropes]) : Only S b0 (freeGranted s e) := by
  unfold freeGranted
  dsimp only
  repeat' (first
    | (with_reducible first | assumption | refine setRope_only ?_ (hS.mono rfl))
    | split)
theorem ropeHeldAbort_only {s : State} {e : Nat} (hk : Only S b0 s) (hS : Covers S [.host, .slots, .ridges, .col, .ropes]) : Only S b0 (ropeHeldAbort s e) := by
  unfold ropeHeldAbort
  dsimp only
  repeat' (first
    | (with_reducible first | assumption | refine setRope_only ?_ (hS.mono rfl) | refine ropeWhyFailed_only ?_ (hS.mono rfl) | refine ropeUnwind_only ?_ (hS.mono rfl))
    | (with_reducible refine Only.foldl (fun _ _ _ => ?_) _ _ ?_) <;> try dsimp only
    | split)
theorem quiesceEngines_only {s : State} {k : Rappel} (hk : Only S b0 s) (hS : Covers S [.ridges, .programming]) : Only S b0 (quiesceEngines s k) := by
  unfold quiesceEngines
  dsimp only
  repeat' (first
    | (with_reducible first | assumption | refine updR_only ?_ (fun _ => ?_) | exact RidgesOnly.refl _)
    | (simp only [Only.fields]; with_reducible refine Only.upd ?_ ?_ ?_ ?_ ?_ ?_ ?_ ?_ ?_ ?_ ?_ ?_ ?_ ?_ ?_ ?_ ?_ ?_ ?_ ?_ ?_ ?_)
    | (with_reducible refine Only.foldl (fun _ _ _ => ?_) _ _ ?_) <;> try dsimp only
    | exact .inl (hS.mem rfl)
    | (with_reducible exact .inr rfl)
    | (with_reducible exact .inr ⟨rfl, rfl⟩)
    | split
    | exact ⟨by first | exact .inl (hS.mem rfl) | (with_reducible exact .inr rfl) | (with_reducible exact .inr ⟨rfl, rfl⟩) | (with_reducible exact .inr ⟨rfl, rfl, rfl, rfl⟩) | exact .inr rfl, by first | exact .inl (hS.mem rfl) | (with_reducible exact .inr rfl) | (with_reducible exact .inr ⟨rfl, rfl⟩) | (with_reducible exact .inr ⟨rfl, rfl, rfl, rfl⟩) | exact .inr rfl, by first | exact .inl (hS.mem rfl) | (with_reducible exact .inr rfl) | (with_reducible exact .inr ⟨rfl, rfl⟩) | (with_reducible exact .inr ⟨rfl, rfl, rfl, rfl⟩) | exact .inr rfl, by first | exact .inl (hS.mem rfl) | (with_reducible exact .inr rfl) | (with_reducible exact .inr ⟨rfl, rfl⟩) | (with_reducible exact .inr ⟨rfl, rfl, rfl, rfl⟩) | exact .inr rfl⟩)
theorem quiesceLoads_only {s : State} {k : Rappel} (hk : Only S b0 s) (hS : Covers S [.parts]) : Only S b0 (quiesceLoads s k) := by
  unfold quiesceLoads
  repeat' (first
    | (with_reducible first | assumption | refine updP_only ?_ (hS.mono rfl))
    | (with_reducible refine Only.foldl (fun _ _ _ => ?_) _ _ ?_) <;> try dsimp only)
theorem quiesceClay_only {s : State} {k : Rappel} (hk : Only S b0 s) (hS : Covers S [.clay]) : Only S b0 (quiesceClay s k) := by
  unfold quiesceClay
  dsimp only
  repeat' (first
    | (with_reducible first | assumption | exact RidgesOnly.refl _)
    | (simp only [Only.fields]; with_reducible refine Only.upd ?_ ?_ ?_ ?_ ?_ ?_ ?_ ?_ ?_ ?_ ?_ ?_ ?_ ?_ ?_ ?_ ?_ ?_ ?_ ?_ ?_ ?_)
    | exact .inl (hS.mem rfl)
    | (with_reducible exact .inr rfl)
    | (with_reducible exact .inr ⟨rfl, rfl⟩))
theorem quiesceQueue_only {k : Rappel} {a : State × Nat} {id : QId} (hk : Only S b0 a.1) (hS : Covers S [.host, .col]) : Only S b0 (quiesceQueue k a id).1 := by
  unfold quiesceQueue
  dsimp only
  repeat' (first
    | (with_reducible first | assumption | refine abortEntry_only ?_ (hS.mono rfl) | refine updQ_only ?_ (hS.mono rfl))
    | (with_reducible refine Only.foldl (fun _ _ _ => ?_) _ _ ?_) <;> try dsimp only
    | split)
theorem quiesceCal_only {s : State} {k : Rappel} (hk : Only S b0 s) (hS : Covers S [.ridges]) : Only S b0 (quiesceCal s k) := by
  unfold quiesceCal
  repeat' (first
    | (with_reducible first | assumption | refine updR_only ?_ (fun _ => ?_))
    | (with_reducible refine Only.foldl (fun _ _ _ => ?_) _ _ ?_) <;> try dsimp only
    | split
    | exact ⟨by first | exact .inl (hS.mem rfl) | (with_reducible exact .inr rfl) | (with_reducible exact .inr ⟨rfl, rfl⟩) | (with_reducible exact .inr ⟨rfl, rfl, rfl, rfl⟩) | exact .inr rfl, by first | exact .inl (hS.mem rfl) | (with_reducible exact .inr rfl) | (with_reducible exact .inr ⟨rfl, rfl⟩) | (with_reducible exact .inr ⟨rfl, rfl, rfl, rfl⟩) | exact .inr rfl, by first | exact .inl (hS.mem rfl) | (with_reducible exact .inr rfl) | (with_reducible exact .inr ⟨rfl, rfl⟩) | (with_reducible exact .inr ⟨rfl, rfl, rfl, rfl⟩) | exact .inr rfl, by first | exact .inl (hS.mem rfl) | (with_reducible exact .inr rfl) | (with_reducible exact .inr ⟨rfl, rfl⟩) | (with_reducible exact .inr ⟨rfl, rfl, rfl, rfl⟩) | exact .inr rfl⟩)
theorem endSurvey_only {s : State} {r t : Nat} (hk : Only S b0 s) (hS : Covers S [.jobs, .tiles, .ridges, .path]) : Only S b0 (endSurvey s r t) := by
  unfold endSurvey
  dsimp only
  repeat' (first
    | (with_reducible first | assumption | refine updTile_only ?_ (hS.mono rfl) | refine retire_only ?_ (hS.mono rfl))
    | split)
theorem quiesceSurveys_only {s : State} {k : Rappel} (hk : Only S b0 s) (hS : Covers S [.jobs, .tiles, .ridges, .path]) : Only S b0 (quiesceSurveys s k) := by
  unfold quiesceSurveys
  dsimp only
  repeat' (first
    | (with_reducible first | assumption | refine endSurvey_only ?_ (hS.mono rfl) | refine requestSurvey_only ?_ (hS.mono rfl))
    | (with_reducible refine Only.foldl (fun _ _ _ => ?_) _ _ ?_) <;> try dsimp only
    | split)
theorem initSettle_only {s : State} (hk : Only S b0 s) (hS : Covers S [.parts]) : Only S b0 (initSettle s) := by
  unfold initSettle
  repeat' (first
    | (with_reducible first | assumption | refine updP_only ?_ (hS.mono rfl))
    | (with_reducible refine Only.foldl (fun _ _ _ => ?_) _ _ ?_) <;> try dsimp only
    | split)
theorem updRap_only {s : State} {key : Nat} {f : Rappel → Rappel} (hk : Only S b0 s) (hS : Covers S [.col]) : Only S b0 (updRap s key f) := by
  unfold updRap
  dsimp only
  repeat' (first
    | (with_reducible first | assumption | exact RidgesOnly.refl _)
    | (simp only [Only.fields]; with_reducible refine Only.upd ?_ ?_ ?_ ?_ ?_ ?_ ?_ ?_ ?_ ?_ ?_ ?_ ?_ ?_ ?_ ?_ ?_ ?_ ?_ ?_ ?_ ?_)
    | exact .inl (hS.mem rfl)
    | (with_reducible exact .inr rfl)
    | (with_reducible exact .inr ⟨rfl, rfl⟩))
theorem quiesceBegin_only {s : State} {key : Nat} (hk : Only S b0 s) (hS : Covers S [.host, .parts, .jobs, .tiles, .slots, .ridges, .programming, .path, .col, .ropes, .links, .clay]) : Only S b0 (quiesceBegin s key) := by
  unfold quiesceBegin
  dsimp only
  repeat' (first
    | (with_reducible first | assumption | refine quiesceEngines_only ?_ (hS.mono rfl) | refine quiesceLoads_only ?_ (hS.mono rfl) | refine endJob_only ?_ (hS.mono rfl) | refine enq_only ?_ (hS.mono rfl) | refine quiesceClay_only ?_ (hS.mono rfl) | refine quiesceQueue_only ?_ (hS.mono rfl) | refine complete_only ?_ (hS.mono rfl) | refine quiesceCal_only ?_ (hS.mono rfl) | refine quiesceSurveys_only ?_ (hS.mono rfl) | refine initSettle_only ?_ (hS.mono rfl) | refine ropeKill_only ?_ (hS.mono rfl) | refine updRap_only ?_ (hS.mono rfl))
    | (with_reducible refine Only.foldl (fun _ _ _ => ?_) _ _ ?_) <;> try dsimp only
    | (with_reducible refine Only.foldl_fst (fun _ _ _ => ?_) _ _ ?_) <;> try dsimp only
    | split)
theorem grantReq_only {s : State} {q : Req} {seq : Nat} (hk : Only S b0 s) (hS : Covers S [.hostMemory, .pool, .host, .parts, .jobs, .tiles, .loam, .slots, .ridges, .programming, .localMemory, .path, .col, .ropes, .links, .integrity, .security, .clay, .thermal, .pmu, .cmc]) : Only S b0 (grantReq s q seq) := by
  unfold grantReq
  dsimp only
  repeat' (first
    | (with_reducible first | assumption | refine answerClip_only ?_ (hS.mono rfl) | refine setCoal_only ?_ (hS.mono rfl) | refine cqPost_only ?_ (hS.mono rfl) | refine ropeCommit_only ?_ (hS.mono rfl) | refine windowClosed_only ?_ (hS.mono rfl) | refine grantEvent_only ?_ (hS.mono rfl) | refine quiesceDone_only ?_ (hS.mono rfl) | refine freeGranted_only ?_ (hS.mono rfl) | refine ropeHeldAbort_only ?_ (hS.mono rfl) | refine quiesceBegin_only ?_ (hS.mono rfl) | exact RidgesOnly.refl _)
    | (simp only [Only.fields]; with_reducible refine Only.upd ?_ ?_ ?_ ?_ ?_ ?_ ?_ ?_ ?_ ?_ ?_ ?_ ?_ ?_ ?_ ?_ ?_ ?_ ?_ ?_ ?_ ?_)
    | exact .inl (hS.mem rfl)
    | (with_reducible exact .inr rfl)
    | (with_reducible exact .inr ⟨rfl, rfl⟩)
    | split)
theorem granting_only {s : State} {k : Nat} {rest : List Req} (hk : Only S b0 s) (hS : Covers S [.arbiters, .col]) : Only S b0 (granting s k rest) := by
  unfold granting
  dsimp only
  repeat' (first
    | (with_reducible first | assumption | refine arbWait_only ?_ (hS.mono rfl) | exact RidgesOnly.refl _)
    | (simp only [Only.fields]; with_reducible refine Only.upd ?_ ?_ ?_ ?_ ?_ ?_ ?_ ?_ ?_ ?_ ?_ ?_ ?_ ?_ ?_ ?_ ?_ ?_ ?_ ?_ ?_ ?_)
    | exact .inl (hS.mem rfl)
    | (with_reducible exact .inr rfl)
    | (with_reducible exact .inr ⟨rfl, rfl⟩))
theorem colGrant_only {s : State} (hk : Only S b0 s) (hS : Covers S [.hostMemory, .pool, .host, .parts, .jobs, .tiles, .loam, .slots, .ridges, .programming, .localMemory, .path, .arbiters, .col, .ropes, .links, .integrity, .security, .clay, .thermal, .pmu, .cmc]) : Only S b0 (colGrant s) := by
  unfold colGrant
  repeat' (first
    | (with_reducible first | assumption | refine grantReq_only ?_ (hS.mono rfl) | refine granting_only ?_ (hS.mono rfl))
    | split)
theorem guardClips_only {s : State} {r : Nat} {e : Win} {devs : List AdcDev} (hk : Only S b0 s) (hS : Covers S [.col]) : Only S b0 (guardClips s r e devs) := by
  unfold guardClips
  dsimp only
  repeat' (first
    | (with_reducible first | assumption | refine raiseCoal_only ?_ (hS.mono rfl))
    | (with_reducible refine Only.foldl (fun _ _ _ => ?_) _ _ ?_) <;> try dsimp only
    | split)
theorem commitEffect_only {s : State} {r : Nat} {e : Win} {devs : List AdcDev} (hk : Only S b0 s) (hS : Covers S [.jobs, .slots, .col]) : Only S b0 (commitEffect s r e devs) := by
  unfold commitEffect
  dsimp only
  repeat' (first
    | (with_reducible first | assumption | refine guardClips_only ?_ (hS.mono rfl) | refine updJob_only ?_ (hS.mono rfl) | refine setSlot_only ?_ (hS.mono rfl))
    | split)
theorem countCorrected_only {s : State} {unit src thrsh loc no : Nat} (hk : Only S b0 s) (hS : Covers S [.col, .integrity]) : Only S b0 (countCorrected s unit src thrsh loc no) := by
  unfold countCorrected
  dsimp only
  repeat' (first
    | (with_reducible first | assumption | refine raise_only ?_ (hS.mono rfl) | exact RidgesOnly.refl _)
    | (simp only [Only.fields]; with_reducible refine Only.upd ?_ ?_ ?_ ?_ ?_ ?_ ?_ ?_ ?_ ?_ ?_ ?_ ?_ ?_ ?_ ?_ ?_ ?_ ?_ ?_ ?_ ?_)
    | exact .inl (hS.mem rfl)
    | (with_reducible exact .inr rfl)
    | (with_reducible exact .inr ⟨rfl, rfl⟩)
    | split)
theorem countFailed_only {s : State} {r p : Nat} (hk : Only S b0 s) (hS : Covers S [.ridges, .col, .integrity]) : Only S b0 (countFailed s r p) := by
  unfold countFailed
  dsimp only
  repeat' (first
    | (with_reducible first | assumption | refine raise_only ?_ (hS.mono rfl) | refine updR_only ?_ (fun _ => ?_) | exact RidgesOnly.refl _)
    | (simp only [Only.fields]; with_reducible refine Only.upd ?_ ?_ ?_ ?_ ?_ ?_ ?_ ?_ ?_ ?_ ?_ ?_ ?_ ?_ ?_ ?_ ?_ ?_ ?_ ?_ ?_ ?_)
    | exact .inl (hS.mem rfl)
    | (with_reducible exact .inr rfl)
    | (with_reducible exact .inr ⟨rfl, rfl⟩)
    | split
    | exact ⟨by first | exact .inl (hS.mem rfl) | (with_reducible exact .inr rfl) | (with_reducible exact .inr ⟨rfl, rfl⟩) | (with_reducible exact .inr ⟨rfl, rfl, rfl, rfl⟩) | exact .inr rfl, by first | exact .inl (hS.mem rfl) | (with_reducible exact .inr rfl) | (with_reducible exact .inr ⟨rfl, rfl⟩) | (with_reducible exact .inr ⟨rfl, rfl, rfl, rfl⟩) | exact .inr rfl, by first | exact .inl (hS.mem rfl) | (with_reducible exact .inr rfl) | (with_reducible exact .inr ⟨rfl, rfl⟩) | (with_reducible exact .inr ⟨rfl, rfl, rfl, rfl⟩) | exact .inr rfl, by first | exact .inl (hS.mem rfl) | (with_reducible exact .inr rfl) | (with_reducible exact .inr ⟨rfl, rfl⟩) | (with_reducible exact .inr ⟨rfl, rfl, rfl, rfl⟩) | exact .inr rfl⟩)
theorem countFired_only {s : State} {r : Nat} {l : Lane} (hk : Only S b0 s) (hS : Covers S [.tiles, .slots]) : Only S b0 (countFired s r l) := by
  unfold countFired
  repeat' (first
    | (with_reducible first | assumption | refine updTile_only ?_ (hS.mono rfl) | refine updPos_only ?_ (hS.mono rfl))
    | split)
theorem countReplays_only {s : State} {n k : Nat} (hk : Only S b0 s) (hS : Covers S [.col, .links]) : Only S b0 (countReplays s n k) := by
  unfold countReplays
  dsimp only
  repeat' (first
    | (with_reducible first | assumption | refine linkEvent_only ?_ (hS.mono rfl) | refine setLink_only ?_ (hS.mono rfl))
    | split)
theorem cqFlushAux_only {i : QId} (hS : Covers S [.hostMemory, .pool, .host]) : ∀ (n : Nat) {s : State}, Only S b0 s → Only S b0 (cqFlushAux n s i)
  | 0, _, hk => hk
  | n + 1, s, hk => by
    unfold cqFlushAux
    dsimp only
    split
    · exact hk
    · split
      · exact cqFlushAux_only hS n (cqWrite_only (updQ_only hk (hS.mono rfl)) (hS.mono rfl))
      · exact hk
theorem cqFlush_only {s : State} {i : QId} (hk : Only S b0 s) (hS : Covers S [.hostMemory, .pool, .host]) : Only S b0 (cqFlush s i) := cqFlushAux_only (hS.mono rfl) _ hk
theorem createEnd_only {s : State} {c : Cmd} (hk : Only S b0 s) (hS : Covers S [.host, .parts, .col]) : Only S b0 (createEnd s c) := by
  unfold createEnd
  repeat' (first
    | (with_reducible first | assumption | refine updP_only ?_ (hS.mono rfl) | refine complete_only ?_ (hS.mono rfl))
    | split)
theorem thermalCoal_only {s : State} {src cause part v : Nat} {fs : List (Nat × Nat × Nat)} (hk : Only S b0 s) (hS : Covers S [.col]) : Only S b0 (thermalCoal s src cause part v fs) := by
  unfold thermalCoal
  repeat' (first
    | (with_reducible first | assumption | refine raiseCoal_only ?_ (hS.mono rfl)))
theorem critRidge_only {s : State} {r : Nat} (hk : Only S b0 s) (hS : Covers S [.col, .pmu]) : Only S b0 (critRidge s r) := by
  unfold critRidge
  dsimp only
  repeat' (first
    | (with_reducible first | assumption | refine thermalCoal_only ?_ (hS.mono rfl) | exact RidgesOnly.refl _)
    | (simp only [Only.fields]; with_reducible refine Only.upd ?_ ?_ ?_ ?_ ?_ ?_ ?_ ?_ ?_ ?_ ?_ ?_ ?_ ?_ ?_ ?_ ?_ ?_ ?_ ?_ ?_ ?_)
    | exact .inl (hS.mem rfl)
    | (with_reducible exact .inr rfl)
    | (with_reducible exact .inr ⟨rfl, rfl⟩)
    | split)
theorem thermalCore_only {s : State} {cause part : Nat} {fs : List (Nat × Nat × Nat)} (hk : Only S b0 s) (hS : Covers S [.col]) : Only S b0 (thermalCore s cause part fs) := by
  unfold thermalCore
  repeat' (first
    | (with_reducible first | assumption | refine raiseCore_only ?_ (hS.mono rfl)))
theorem crossCheck_only {s : State} {r t : Nat} {g : Q} (hk : Only S b0 s) (hS : Covers S [.col, .thermal]) : Only S b0 (crossCheck s r t g) := by
  unfold crossCheck
  dsimp only
  repeat' (first
    | (with_reducible first | assumption | refine thermalCore_only ?_ (hS.mono rfl) | exact RidgesOnly.refl _)
    | (simp only [Only.fields]; with_reducible refine Only.upd ?_ ?_ ?_ ?_ ?_ ?_ ?_ ?_ ?_ ?_ ?_ ?_ ?_ ?_ ?_ ?_ ?_ ?_ ?_ ?_ ?_ ?_)
    | exact .inl (hS.mem rfl)
    | (with_reducible exact .inr rfl)
    | (with_reducible exact .inr ⟨rfl, rfl⟩)
    | split)
theorem dmaBody_only {op : Nat} {r : Ridge} {x : Ctx} {w : W128} {s : State} (hk : Only S b0 s) (hS : Covers S [.ridges, .path]) : IssAll (Only S b0) (dmaBody op r x w s) := by
  unfold dmaBody
  dsimp only
  repeat' (first
    | (with_reducible first | assumption | refine setDma_only ?_ (hS.mono rfl) | refine pushWin_only ?_ (hS.mono rfl) | exact RidgesOnly.refl _ | refine IssAll.intro_next ?_)
    | (simp only [Only.fields]; with_reducible refine Only.upd ?_ ?_ ?_ ?_ ?_ ?_ ?_ ?_ ?_ ?_ ?_ ?_ ?_ ?_ ?_ ?_ ?_ ?_ ?_ ?_ ?_ ?_)
    | exact .inl (hS.mem rfl)
    | (with_reducible exact .inr rfl)
    | (with_reducible exact .inr ⟨rfl, rfl⟩)
    | exact trivial
    | split)
theorem dmaFault_only {s : State} {j : Job} {d : Dma} {c cause addr acc level : Nat} (hk : Only S b0 s) (hS : Covers S [.jobs, .col]) : Only S b0 (dmaFault s j d c cause addr acc level) := by
  unfold dmaFault
  repeat' (first
    | (with_reducible first | assumption | refine mmuFault_only ?_ (hS.mono rfl) | refine useFree_only ?_ (hS.mono rfl)))
theorem dmaPlaces_only {s : State} {j : Job} {d : Dma} {c a len acc : Nat} (hk : Only S b0 s) (hS : Covers S [.jobs, .path, .col]) : DvaAll (Only S b0) (dmaPlaces s j d c a len acc) := by
  unfold dmaPlaces
  repeat' (first
    | (with_reducible first | assumption | refine useFree_only ?_ (hS.mono rfl) | refine askWalks_only ?_ (hS.mono rfl) | refine dmaFault_only ?_ (hS.mono rfl) | refine DvaAll.intro_wait ?_)
    | exact trivial
    | split)
theorem dmaInvalSeg_only {s : State} {j : Option Job} {d : Dma} {c a len : Nat} (hk : Only S b0 s) (hS : Covers S [.jobs, .path, .col]) : SegAll (Only S b0) (dmaInvalSeg s j d c a len) := by
  unfold dmaInvalSeg
  dsimp only
  repeat' (first
    | (with_reducible first | assumption | refine DvaAll.wait (dmaPlaces_only ?_ (hS.mono rfl)) (by assumption) | exact RidgesOnly.refl _ | refine SegAll.intro_done ?_ | refine SegAll.intro_wait ?_)
    | (simp only [Only.fields]; with_reducible refine Only.upd ?_ ?_ ?_ ?_ ?_ ?_ ?_ ?_ ?_ ?_ ?_ ?_ ?_ ?_ ?_ ?_ ?_ ?_ ?_ ?_ ?_ ?_)
    | (with_reducible refine Only.foldl (fun _ _ _ => ?_) _ _ ?_) <;> try dsimp only
    | exact .inl (hS.mem rfl)
    | (with_reducible exact .inr rfl)
    | (with_reducible exact .inr ⟨rfl, rfl⟩)
    | split)
theorem dmaRead_only {s : State} {j : Option Job} {d : Dma} {c : Nat} {hostOk : Bool} {a len : Nat} (hk : Only S b0 s) (hS : Covers S [.jobs, .path, .col, .links]) : DSrcAll (Only S b0) (dmaRead s j d c hostOk a len) := by
  unfold dmaRead
  repeat' (first
    | (with_reducible first | assumption | refine DvaAll.wait (dmaPlaces_only ?_ (hS.mono rfl)) (by assumption) | refine askPieces_only ?_ (hS.mono rfl) | refine dmaFault_only ?_ (hS.mono rfl) | refine DSrcAll.intro_wait ?_)
    | exact trivial
    | split)
theorem dmaStore_only {s : State} {j : Option Job} {d : Dma} {c : Nat} {hostOk : Bool} {a : Nat} {b : List Byte} {tag : W32} (hk : Only S b0 s) (hS : Covers S [.hostMemory, .jobs, .loam, .slots, .localMemory, .path, .col, .links]) : SegAll (Only S b0) (dmaStore s j d c hostOk a b tag) := by
  unfold dmaStore
  dsimp only
  repeat' (first
    | (with_reducible first | assumption | refine OptAll.of_some (peerSendAll_only ?_ (hS.mono rfl)) (by assumption) | refine DvaAll.wait (dmaPlaces_only ?_ (hS.mono rfl)) (by assumption) | refine writePieces_only ?_ (hS.mono rfl) | refine useFree_only ?_ (hS.mono rfl) | refine holdWrite_only ?_ (hS.mono rfl) | refine stLoam_only ?_ (hS.mono rfl) | refine markDirty_only ?_ (hS.mono rfl) | refine dmaFault_only ?_ (hS.mono rfl) | refine hostWrite_only ?_ (hS.mono rfl) | refine SegAll.intro_done ?_ | refine SegAll.intro_wait ?_)
    | split)
theorem dropOnce_only {s : State} {p agent : Nat} (hk : Only S b0 s) (hS : Covers S [.path]) : Only S b0 (dropOnce s p agent) := by
  unfold dropOnce
  dsimp only
  repeat' (first
    | (with_reducible first | assumption | exact RidgesOnly.refl _)
    | (simp only [Only.fields]; with_reducible refine Only.upd ?_ ?_ ?_ ?_ ?_ ?_ ?_ ?_ ?_ ?_ ?_ ?_ ?_ ?_ ?_ ?_ ?_ ?_ ?_ ?_ ?_ ?_)
    | exact .inl (hS.mem rfl)
    | (with_reducible exact .inr rfl)
    | (with_reducible exact .inr ⟨rfl, rfl⟩))
theorem dmaSeg_only {s : State} {j : Option Job} {d : Dma} {c : Nat} {hostOk : Bool} {row off len : Nat} (hk : Only S b0 s) (hS : Covers S [.hostMemory, .jobs, .loam, .slots, .localMemory, .path, .col, .links]) : SegAll (Only S b0) (dmaSeg s j d c hostOk row off len) := by
  unfold dmaSeg
  dsimp only
  repeat' (first
    | (with_reducible first | assumption | refine DSrcAll.wait (dmaRead_only ?_ (hS.mono rfl)) (by assumption) | refine raiseInteg_only ?_ (hS.mono rfl) | refine dmaStore_only ?_ (hS.mono rfl) | refine dmaInvalSeg_only ?_ (hS.mono rfl) | refine dropOnce_only ?_ (hS.mono rfl) | refine SegAll.intro_done ?_ | refine SegAll.intro_wait ?_)
    | split)
theorem ridgeRead_only {s : State} {p : Nat} {j : Job} {r dva len idx : Nat} (hk : Only S b0 s) (hS : Covers S [.jobs, .ridges, .path, .col, .links]) : DvaAll (Only S b0) (ridgeRead s p j r dva len idx) := by
  unfold ridgeRead
  repeat' (first
    | (with_reducible first | assumption | refine ridgePlaces_only ?_ (hS.mono rfl) | refine askPieces_only ?_ (hS.mono rfl) | refine DvaAll.intro_wait ?_)
    | exact trivial
    | split)
theorem dmmB_only {s : State} {r : Nat} {x : Ctx} {w : W128} {d : DmuDesc} (hk : Only S b0 s) (hS : Covers S [.jobs, .ridges, .path, .col, .links]) : BResAll (Only S b0) (dmmB s r x w d) := by
  unfold dmmB
  dsimp only
  repeat' (first
    | (with_reducible first | assumption | refine DvaAll.wait (ridgeRead_only ?_ (hS.mono rfl)) (by assumption) | refine BResAll.intro_stay ?_)
    | exact trivial
    | split)
theorem dmmBase_only {s : State} {r : Nat} {x : Ctx} (hk : Only S b0 s) (hS : Covers S [.path]) : Only S b0 (dmmBase s r x) := by
  unfold dmmBase
  repeat' (first
    | (with_reducible first | assumption | refine dropOnce_only ?_ (hS.mono rfl))
    | split)
theorem dmuWrite_only {s : State} {r : Nat} {x : Ctx} {l : List (LOp × List Byte)} {tag : W32} {outsat : Nat} (hk : Only S b0 s) (hS : Covers S [.host, .jobs, .loam, .slots, .ridges, .col, .ropes]) : IssAll (Only S b0) (dmuWrite s r x l tag outsat) := by
  unfold dmuWrite
  dsimp only
  repeat' (first
    | (with_reducible first | assumption | refine faultAt_only ?_ (hS.mono rfl) | refine stLoam_only ?_ (hS.mono rfl) | refine addOutsat_only ?_ (hS.mono rfl) | refine IssAll.intro_next ?_ | refine IssAll.intro_stay ?_)
    | (with_reducible refine Only.foldl_fst (fun _ _ _ => ?_) _ _ ?_) <;> try dsimp only
    | split)
theorem domFresh_only {s : State} {d : Nat} (hk : Only S b0 s) (hS : Covers S [.loam, .slots, .ridges, .col, .links]) : Only S b0 (domFresh s d) := by
  unfold domFresh
  dsimp only
  repeat' (first
    | (with_reducible first | assumption | refine setLink_only ?_ (hS.mono rfl) | refine clockRestart_only ?_ (hS.mono rfl) | refine updR_only ?_ (fun _ => ?_) | exact freshLoam_ronly (RidgeOnly.refl _) (hS.mono rfl) | exact freshDigital_ronly (RidgeOnly.refl _) (hS.mono rfl))
    | (with_reducible refine Only.foldl (fun _ _ _ => ?_) _ _ ?_) <;> try dsimp only
    | split)
theorem domDone_only {s : State} {d : Nat} (hk : Only S b0 s) (hS : Covers S [.loam, .slots, .ridges, .col, .links, .pmu]) : Only S b0 (domDone s d) := by
  unfold domDone
  dsimp only
  repeat' (first
    | (with_reducible first | assumption | refine domFresh_only ?_ (hS.mono rfl) | refine domStart_only ?_ (hS.mono rfl) | refine setDom_only ?_ (hS.mono rfl))
    | (with_reducible refine Only.foldl (fun _ _ _ => ?_) _ _ ?_) <;> try dsimp only
    | split)
theorem doubtAll_only {s : State} {d : Nat} (hk : Only S b0 s) (hS : Covers S [.jobs, .col, .links]) : Only S b0 (doubtAll s d) := by
  unfold doubtAll
  repeat' (first
    | (with_reducible first | assumption | refine doubt_only ?_ (hS.mono rfl))
    | (with_reducible refine Only.foldl (fun _ _ _ => ?_) _ _ ?_) <;> try dsimp only
    | split)
theorem drawn_only {s : State} (hk : Only S b0 s) (hS : Covers S [.security]) : Only S b0 (drawn s).2 := by
  unfold drawn
  repeat' (first
    | (with_reducible first | assumption | refine newKey_only ?_ (hS.mono rfl)))
theorem queueRefresh_only {s : State} {r p rank : Nat} (hk : Only S b0 s) (hS : Covers S [.ridges]) : Only S b0 (queueRefresh s r p rank) := by
  unfold queueRefresh
  repeat' (first
    | (with_reducible first | assumption | refine updR_only ?_ (fun _ => ?_))
    | split
    | exact ⟨by first | exact .inl (hS.mem rfl) | (with_reducible exact .inr rfl) | (with_reducible exact .inr ⟨rfl, rfl⟩) | (with_reducible exact .inr ⟨rfl, rfl, rfl, rfl⟩) | exact .inr rfl, by first | exact .inl (hS.mem rfl) | (with_reducible exact .inr rfl) | (with_reducible exact .inr ⟨rfl, rfl⟩) | (with_reducible exact .inr ⟨rfl, rfl, rfl, rfl⟩) | exact .inr rfl, by first | exact .inl (hS.mem rfl) | (with_reducible exact .inr rfl) | (with_reducible exact .inr ⟨rfl, rfl⟩) | (with_reducible exact .inr ⟨rfl, rfl, rfl, rfl⟩) | exact .inr rfl, by first | exact .inl (hS.mem rfl) | (with_reducible exact .inr rfl) | (with_reducible exact .inr ⟨rfl, rfl⟩) | (with_reducible exact .inr ⟨rfl, rfl, rfl, rfl⟩) | exact .inr rfl⟩)
theorem driftCheck_only {s : State} {r t p : Nat} {g : List Q} (hk : Only S b0 s) (hS : Covers S [.ridges, .col]) : Only S b0 (driftCheck s r t p g) := by
  unfold driftCheck
  dsimp only
  repeat' (first
    | (with_reducible first | assumption | refine tileEvent_only ?_ (hS.mono rfl) | refine queueRefresh_only ?_ (hS.mono rfl))
    | split)
theorem dropOp_only {s : State} {o : ProgOp} (hk : Only S b0 s) (hS : Covers S [.programming]) : Only S b0 (dropOp s o) := by
  unfold dropOp
  repeat' (first
    | (with_reducible first | assumption | exact RidgesOnly.refl _)
    | (simp only [Only.fields]; with_reducible refine Only.upd ?_ ?_ ?_ ?_ ?_ ?_ ?_ ?_ ?_ ?_ ?_ ?_ ?_ ?_ ?_ ?_ ?_ ?_ ?_ ?_ ?_ ?_)
    | exact .inl (hS.mem rfl)
    | (with_reducible exact .inr rfl)
    | (with_reducible exact .inr ⟨rfl, rfl⟩))
theorem dropPortIde_only {s : State} {p : Port} (hk : Only S b0 s) (hS : Covers S [.security]) : Only S b0 (dropPortIde s p) := by
  unfold dropPortIde
  dsimp only
  repeat' (first
    | (with_reducible first | assumption | exact RidgesOnly.refl _)
    | (simp only [Only.fields]; with_reducible refine Only.upd ?_ ?_ ?_ ?_ ?_ ?_ ?_ ?_ ?_ ?_ ?_ ?_ ?_ ?_ ?_ ?_ ?_ ?_ ?_ ?_ ?_ ?_)
    | exact .inl (hS.mem rfl)
    | (with_reducible exact .inr rfl)
    | (with_reducible exact .inr ⟨rfl, rfl⟩))
theorem dropSessIde_only {s : State} {p : Port} {sid : Nat} (hk : Only S b0 s) (hS : Covers S [.security]) : Only S b0 (dropSessIde s p sid) := by
  unfold dropSessIde
  dsimp only
  repeat' (first
    | (with_reducible first | assumption | exact RidgesOnly.refl _)
    | (simp only [Only.fields]; with_reducible refine Only.upd ?_ ?_ ?_ ?_ ?_ ?_ ?_ ?_ ?_ ?_ ?_ ?_ ?_ ?_ ?_ ?_ ?_ ?_ ?_ ?_ ?_ ?_)
    | exact .inl (hS.mem rfl)
    | (with_reducible exact .inr rfl)
    | (with_reducible exact .inr ⟨rfl, rfl⟩))
theorem dropTlb_only {s : State} {p : Nat} {id : W32} {base len : Nat} (hk : Only S b0 s) (hS : Covers S [.path]) : Only S b0 (dropTlb s p id base len) := by
  unfold dropTlb
  dsimp only
  repeat' (first
    | (with_reducible first | assumption | exact RidgesOnly.refl _)
    | (simp only [Only.fields]; with_reducible refine Only.upd ?_ ?_ ?_ ?_ ?_ ?_ ?_ ?_ ?_ ?_ ?_ ?_ ?_ ?_ ?_ ?_ ?_ ?_ ?_ ?_ ?_ ?_)
    | exact .inl (hS.mem rfl)
    | (with_reducible exact .inr rfl)
    | (with_reducible exact .inr ⟨rfl, rfl⟩))
theorem setOp_only {s : State} {k : Nat} (hk : Only S b0 s) (hS : Covers S [.col, .thermal, .pmu]) : Only S b0 (setOp s k) := by
  unfold setOp
  dsimp only
  repeat' (first
    | (with_reducible first | assumption | refine thermalCore_only ?_ (hS.mono rfl) | exact RidgesOnly.refl _)
    | (simp only [Only.fields]; with_reducible refine Only.upd ?_ ?_ ?_ ?_ ?_ ?_ ?_ ?_ ?_ ?_ ?_ ?_ ?_ ?_ ?_ ?_ ?_ ?_ ?_ ?_ ?_ ?_)
    | exact .inl (hS.mem rfl)
    | (with_reducible exact .inr rfl)
    | (with_reducible exact .inr ⟨rfl, rfl⟩))
theorem dvfsStep_only {s : State} (hk : Only S b0 s) (hS : Covers S [.col, .thermal, .pmu]) : Only S b0 (dvfsStep s) := by
  unfold dvfsStep
  dsimp only
  repeat' (first
    | (with_reducible first | assumption | refine setOp_only ?_ (hS.mono rfl) | exact RidgesOnly.refl _)
    | (simp only [Only.fields]; with_reducible refine Only.upd ?_ ?_ ?_ ?_ ?_ ?_ ?_ ?_ ?_ ?_ ?_ ?_ ?_ ?_ ?_ ?_ ?_ ?_ ?_ ?_ ?_ ?_)
    | exact .inl (hS.mem rfl)
    | (with_reducible exact .inr rfl)
    | (with_reducible exact .inr ⟨rfl, rfl⟩)
    | split)
theorem enterRope_only {s : State} {r : Nat} {x : Ctx} {e timeout : Nat} (hk : Only S b0 s) (hS : Covers S [.ridges]) : Only S b0 (enterRope s r x e timeout) := by
  unfold enterRope
  dsimp only
  repeat' (first
    | (with_reducible first | assumption | refine updCtx_only ?_ (hS.mono rfl)))
theorem thermalEvent_only {s : State} {src cause part : Nat} {fs : List (Nat × Nat × Nat)} (hk : Only S b0 s) (hS : Covers S [.col]) : Only S b0 (thermalEvent s src cause part fs) := by
  unfold thermalEvent
  repeat' (first
    | (with_reducible first | assumption | refine raise_only ?_ (hS.mono rfl)))
theorem estimated_only {s : State} (hk : Only S b0 s) (hS : Covers S [.col, .thermal]) : Only S b0 (estimated s) := by
  unfold estimated
  dsimp only
  repeat' (first
    | (with_reducible first | assumption | refine thermalEvent_only ?_ (hS.mono rfl) | exact RidgesOnly.refl _)
    | (simp only [Only.fields]; with_reducible refine Only.upd ?_ ?_ ?_ ?_ ?_ ?_ ?_ ?_ ?_ ?_ ?_ ?_ ?_ ?_ ?_ ?_ ?_ ?_ ?_ ?_ ?_ ?_)
    | exact .inl (hS.mem rfl)
    | (with_reducible exact .inr rfl)
    | (with_reducible exact .inr ⟨rfl, rfl⟩)
    | split)
theorem eventConfigDo_only {s : State} {c : Cmd} (hk : Only S b0 s) (hS : Covers S [.host, .col]) : Only S b0 (eventConfigDo s c) := by
  unfold eventConfigDo
  repeat' (first
    | (with_reducible first | assumption | refine updFn_only ?_ (hS.mono rfl) | refine complete_only ?_ (hS.mono rfl)))
theorem exhausted_only {s : State} {r p : Nat} (hk : Only S b0 s) (hS : Covers S [.host, .parts, .ridges, .col]) : Only S b0 (exhausted s r p) := by
  unfold exhausted
  dsimp only
  repeat' (first
    | (with_reducible first | assumption | refine tileEvent_only ?_ (hS.mono rfl) | refine wsetProgrammed_only ?_ (hS.mono rfl) | refine updWset_only ?_ (hS.mono rfl) | refine setMap_only ?_ (hS.mono rfl) | refine updR_only ?_ (fun _ => ?_))
    | split
    | exact ⟨by first | exact .inl (hS.mem rfl) | (with_reducible exact .inr rfl) | (with_reducible exact .inr ⟨rfl, rfl⟩) | (with_reducible exact .inr ⟨rfl, rfl, rfl, rfl⟩) | exact .inr rfl, by first | exact .inl (hS.mem rfl) | (with_reducible exact .inr rfl) | (with_reducible exact .inr ⟨rfl, rfl⟩) | (with_reducible exact .inr ⟨rfl, rfl, rfl, rfl⟩) | exact .inr rfl, by first | exact .inl (hS.mem rfl) | (with_reducible exact .inr rfl) | (with_reducible exact .inr ⟨rfl, rfl⟩) | (with_reducible exact .inr ⟨rfl, rfl, rfl, rfl⟩) | exact .inr rfl, by first | exact .inl (hS.mem rfl) | (with_reducible exact .inr rfl) | (with_reducible exact .inr ⟨rfl, rfl⟩) | (with_reducible exact .inr ⟨rfl, rfl, rfl, rfl⟩) | exact .inr rfl⟩)
theorem suspectEvent_only {s : State} {part r p wp wf : Nat} {job : W32} (hk : Only S b0 s) (hS : Covers S [.col]) : Only S b0 (suspectEvent s part r p wp wf job) := by
  unfold suspectEvent
  repeat' (first
    | (with_reducible first | assumption | refine raiseCore_only ?_ (hS.mono rfl)))
theorem ridgePower_only {s : State} {r : Nat} {on : Bool} (hk : Only S b0 s) (hS : Covers S [.pmu]) : Only S b0 (ridgePower s r on) := by
  unfold ridgePower
  repeat' (first
    | (with_reducible first | assumption | refine powerRequest_only ?_ (hS.mono rfl))
    | (with_reducible refine Only.foldl (fun _ _ _ => ?_) _ _ ?_) <;> try dsimp only)
theorem failRidge_only {s : State} {r : Nat} (hk : Only S b0 s) (hS : Covers S [.host, .parts, .jobs, .slots, .ridges, .path, .col, .ropes, .links, .clay, .pmu]) : Only S b0 (failRidge s r) := by
  unfold failRidge
  dsimp only
  repeat' (first
    | (with_reducible first | assumption | refine endJob_only ?_ (hS.mono rfl) | refine queueRec_only ?_ (hS.mono rfl) | refine suspectEvent_only ?_ (hS.mono rfl) | refine ridgePower_only ?_ (hS.mono rfl) | refine raiseCore_only ?_ (hS.mono rfl) | refine updR_only ?_ (fun _ => ?_))
    | (with_reducible refine Only.foldl (fun _ _ _ => ?_) _ _ ?_) <;> try dsimp only
    | split
    | exact ⟨by first | exact .inl (hS.mem rfl) | (with_reducible exact .inr rfl) | (with_reducible exact .inr ⟨rfl, rfl⟩) | (with_reducible exact .inr ⟨rfl, rfl, rfl, rfl⟩) | exact .inr rfl, by first | exact .inl (hS.mem rfl) | (with_reducible exact .inr rfl) | (with_reducible exact .inr ⟨rfl, rfl⟩) | (with_reducible exact .inr ⟨rfl, rfl, rfl, rfl⟩) | exact .inr rfl, by first | exact .inl (hS.mem rfl) | (with_reducible exact .inr rfl) | (with_reducible exact .inr ⟨rfl, rfl⟩) | (with_reducible exact .inr ⟨rfl, rfl, rfl, rfl⟩) | exact .inr rfl, by first | exact .inl (hS.mem rfl) | (with_reducible exact .inr rfl) | (with_reducible exact .inr ⟨rfl, rfl⟩) | (with_reducible exact .inr ⟨rfl, rfl, rfl, rfl⟩) | exact .inr rfl⟩)
theorem fetchOne_only {s : State} {id : QId} (hk : Only S b0 s) (hS : Covers S [.host]) : Only S b0 (fetchOne s id) := by
  unfold fetchOne
  dsimp only
  repeat' (first
    | (with_reducible first | assumption | refine updQ_only ?_ (hS.mono rfl) | exact RidgesOnly.refl _)
    | (simp only [Only.fields]; with_reducible refine Only.upd ?_ ?_ ?_ ?_ ?_ ?_ ?_ ?_ ?_ ?_ ?_ ?_ ?_ ?_ ?_ ?_ ?_ ?_ ?_ ?_ ?_ ?_)
    | exact .inl (hS.mem rfl)
    | (with_reducible exact .inr rfl)
    | (with_reducible exact .inr ⟨rfl, rfl⟩)
    | split)
theorem filGo_only {s : State} {r : Nat} {w : W128} {b : List Byte} {bad : Bool} (hk : Only S b0 s) (hS : Covers S [.host, .jobs, .loam, .slots, .ridges, .localMemory, .path, .col, .ropes, .links]) : IssAll (Only S b0) (filGo s r w b bad) := by
  unfold filGo
  dsimp only
  repeat' (first
    | (with_reducible first | assumption | refine settleRidge_only ?_ (hS.mono rfl) | refine setSlot_only ?_ (hS.mono rfl) | refine IssAll.intro_next ?_)
    | exact trivial
    | split)
theorem fillLine_only {s : State} {part pa : Nat} (hk : Only S b0 s) (hS : Covers S [.path]) : Only S b0 (fillLine s part pa) := by
  unfold fillLine
  dsimp only
  repeat' (first
    | (with_reducible first | assumption | exact RidgesOnly.refl _)
    | (simp only [Only.fields]; with_reducible refine Only.upd ?_ ?_ ?_ ?_ ?_ ?_ ?_ ?_ ?_ ?_ ?_ ?_ ?_ ?_ ?_ ?_ ?_ ?_ ?_ ?_ ?_ ?_)
    | exact .inl (hS.mem rfl)
    | (with_reducible exact .inr rfl)
    | (with_reducible exact .inr ⟨rfl, rfl⟩))
theorem fillPeer_only {s : State} {h : Hail} {st : PeerSt} (hk : Only S b0 s) (hS : Covers S [.links]) : Only S b0 (fillPeer s h st) := by
  unfold fillPeer
  dsimp only
  repeat' (first
    | (with_reducible first | assumption | refine setPeer_only ?_ (hS.mono rfl)))
theorem fillTlb_only {s : State} {w : Walk} {g : Page} (hk : Only S b0 s) (hS : Covers S [.path]) : Only S b0 (fillTlb s w g) := by
  unfold fillTlb
  dsimp only
  repeat' (first
    | (with_reducible first | assumption | exact RidgesOnly.refl _)
    | (simp only [Only.fields]; with_reducible refine Only.upd ?_ ?_ ?_ ?_ ?_ ?_ ?_ ?_ ?_ ?_ ?_ ?_ ?_ ?_ ?_ ?_ ?_ ?_ ?_ ?_ ?_ ?_)
    | exact .inl (hS.mem rfl)
    | (with_reducible exact .inr rfl)
    | (with_reducible exact .inr ⟨rfl, rfl⟩))
theorem foldReports_only {s : State} {r t : Nat} {fs : List FoldEnt} (hk : Only S b0 s) (hS : Covers S [.ridges, .col]) : Only S b0 (foldReports s r t fs) := by
  unfold foldReports
  dsimp only
  repeat' (first
    | (with_reducible first | assumption | refine tileEvent_only ?_ (hS.mono rfl) | refine queueRefresh_only ?_ (hS.mono rfl))
    | (with_reducible refine Only.foldl (fun _ _ _ => ?_) _ _ ?_) <;> try dsimp only
    | split)
theorem powerLimit_only {s : State} {row r mw : Nat} (hk : Only S b0 s) (hS : Covers S [.col]) : Only S b0 (powerLimit s row r mw) := by
  unfold powerLimit
  repeat' (first
    | (with_reducible first | assumption | refine thermalCoal_only ?_ (hS.mono rfl)))
theorem frameBoard_only {s : State} {mw : Nat} (hk : Only S b0 s) (hS : Covers S [.col, .pmu]) : Only S b0 (frameBoard s mw) := by
  unfold frameBoard
  dsimp only
  repeat' (first
    | (with_reducible first | assumption | refine powerLimit_only ?_ (hS.mono rfl) | exact RidgesOnly.refl _)
    | (simp only [Only.fields]; with_reducible refine Only.upd ?_ ?_ ?_ ?_ ?_ ?_ ?_ ?_ ?_ ?_ ?_ ?_ ?_ ?_ ?_ ?_ ?_ ?_ ?_ ?_ ?_ ?_)
    | exact .inl (hS.mem rfl)
    | (with_reducible exact .inr rfl)
    | (with_reducible exact .inr ⟨rfl, rfl⟩)
    | split)
theorem frameEnd_only {s : State} {mv mw : Nat} (hk : Only S b0 s) (hS : Covers S [.pmu]) : Only S b0 (frameEnd s mv mw) := by
  unfold frameEnd
  dsimp only
  repeat' (first
    | (with_reducible first | assumption | exact RidgesOnly.refl _)
    | (simp only [Only.fields]; with_reducible refine Only.upd ?_ ?_ ?_ ?_ ?_ ?_ ?_ ?_ ?_ ?_ ?_ ?_ ?_ ?_ ?_ ?_ ?_ ?_ ?_ ?_ ?_ ?_)
    | exact .inl (hS.mem rfl)
    | (with_reducible exact .inr rfl)
    | (with_reducible exact .inr ⟨rfl, rfl⟩)
    | split)
theorem frameRidge_only {dom : List Nat} {s : State} {r : Nat} (hk : Only S b0 s) (hS : Covers S [.col, .pmu]) : Only S b0 (frameRidge dom s r) := by
  unfold frameRidge
  dsimp only
  repeat' (first
    | (with_reducible first | assumption | refine powerLimit_only ?_ (hS.mono rfl) | exact RidgesOnly.refl _)
    | (simp only [Only.fields]; with_reducible refine Only.upd ?_ ?_ ?_ ?_ ?_ ?_ ?_ ?_ ?_ ?_ ?_ ?_ ?_ ?_ ?_ ?_ ?_ ?_ ?_ ?_ ?_ ?_)
    | exact .inl (hS.mem rfl)
    | (with_reducible exact .inr rfl)
    | (with_reducible exact .inr ⟨rfl, rfl⟩)
    | split)
theorem frameStore_only {s : State} {mv mw : Nat} {d : List Nat} (hk : Only S b0 s) (hS : Covers S [.pmu]) : Only S b0 (frameStore s mv mw d) := by
  unfold frameStore
  dsimp only
  repeat' (first
    | (with_reducible first | assumption | exact RidgesOnly.refl _)
    | (simp only [Only.fields]; with_reducible refine Only.upd ?_ ?_ ?_ ?_ ?_ ?_ ?_ ?_ ?_ ?_ ?_ ?_ ?_ ?_ ?_ ?_ ?_ ?_ ?_ ?_ ?_ ?_)
    | exact .inl (hS.mem rfl)
    | (with_reducible exact .inr rfl)
    | (with_reducible exact .inr ⟨rfl, rfl⟩))
theorem putSlot_only {s : State} {i : Option FwImage} (hk : Only S b0 s) (hS : Covers S [.security]) : Only S b0 (putSlot s i) := by
  unfold putSlot
  dsimp only
  repeat' (first
    | (with_reducible first | assumption | exact RidgesOnly.refl _)
    | (simp only [Only.fields]; with_reducible refine Only.upd ?_ ?_ ?_ ?_ ?_ ?_ ?_ ?_ ?_ ?_ ?_ ?_ ?_ ?_ ?_ ?_ ?_ ?_ ?_ ?_ ?_ ?_)
    | exact .inl (hS.mem rfl)
    | (with_reducible exact .inr rfl)
    | (with_reducible exact .inr ⟨rfl, rfl⟩))
theorem fwStageDo_only {s : State} {c : Cmd} (hk : Only S b0 s) (hS : Covers S [.host, .col, .security]) : Only S b0 (fwStageDo s c) := by
  unfold fwStageDo
  dsimp only
  repeat' (first
    | (with_reducible first | assumption | refine securityEvent_only ?_ (hS.mono rfl) | refine putSlot_only ?_ (hS.mono rfl) | refine complete_only ?_ (hS.mono rfl))
    | split)
theorem goDown_only {s : State} {n : Nat} (hk : Only S b0 s) (hS : Covers S [.col, .links]) : Only S b0 (goDown s n) := by
  unfold goDown
  dsimp only
  repeat' (first
    | (with_reducible first | assumption | refine linkEvent_only ?_ (hS.mono rfl) | refine setLink_only ?_ (hS.mono rfl) | refine loseFrames_only ?_ (hS.mono rfl) | refine loseDirect_only ?_ (hS.mono rfl)))
theorem goUp_only {s : State} {n : Nat} (hk : Only S b0 s) (hS : Covers S [.col, .links]) : Only S b0 (goUp s n) := by
  unfold goUp
  dsimp only
  repeat' (first
    | (with_reducible first | assumption | refine linkEvent_only ?_ (hS.mono rfl) | refine setLink_only ?_ (hS.mono rfl) | refine countReplays_only ?_ (hS.mono rfl))
    | split)
theorem goldenFails_only {s : State} {p : Nat} {ws : W32} {r pos pa : Nat} (hk : Only S b0 s) (hS : Covers S [.parts, .col]) : Only S b0 (goldenFails s p ws r pos pa) := by
  unfold goldenFails
  dsimp only
  repeat' (first
    | (with_reducible first | assumption | refine raiseInteg_only ?_ (hS.mono rfl) | refine updWset_only ?_ (hS.mono rfl)))
theorem hailPeer_only {s : State} {h : Hail} {before : Peer} (hk : Only S b0 s) (hS : Covers S [.jobs, .col, .links]) : Only S b0 (hailPeer s h before) := by
  unfold hailPeer
  dsimp only
  repeat' (first
    | (with_reducible first | assumption | refine fillPeer_only ?_ (hS.mono rfl) | refine clearValid_only ?_ (hS.mono rfl) | refine setPeer_only ?_ (hS.mono rfl) | refine peerChange_only ?_ (hS.mono rfl) | refine doubtAll_only ?_ (hS.mono rfl))
    | split)
theorem hotAssert_only {s : State} {cond : Nat} (hk : Only S b0 s) (hS : Covers S [.host, .col, .thermal]) : Only S b0 (hotAssert s cond) := by
  unfold hotAssert
  dsimp only
  repeat' (first
    | (with_reducible first | assumption | refine attnBoth_only ?_ (hS.mono rfl) | refine thermalEvent_only ?_ (hS.mono rfl) | exact RidgesOnly.refl _)
    | (simp only [Only.fields]; with_reducible refine Only.upd ?_ ?_ ?_ ?_ ?_ ?_ ?_ ?_ ?_ ?_ ?_ ?_ ?_ ?_ ?_ ?_ ?_ ?_ ?_ ?_ ?_ ?_)
    | exact .inl (hS.mem rfl)
    | (with_reducible exact .inr rfl)
    | (with_reducible exact .inr ⟨rfl, rfl⟩)
    | split)
theorem hotStep_only {s : State} (hk : Only S b0 s) (hS : Covers S [.host, .col, .thermal]) : Only S b0 (hotStep s) := by
  unfold hotStep
  dsimp only
  repeat' (first
    | (with_reducible first | assumption | refine thermalCore_only ?_ (hS.mono rfl) | refine hotAssert_only ?_ (hS.mono rfl) | exact RidgesOnly.refl _)
    | (simp only [Only.fields]; with_reducible refine Only.upd ?_ ?_ ?_ ?_ ?_ ?_ ?_ ?_ ?_ ?_ ?_ ?_ ?_ ?_ ?_ ?_ ?_ ?_ ?_ ?_ ?_ ?_)
    | exact .inl (hS.mem rfl)
    | (with_reducible exact .inr rfl)
    | (with_reducible exact .inr ⟨rfl, rfl⟩)
    | split)
theorem resetLogic_only {s : State} {cause : Nat} {off : Bool} (hk : Only S b0 s) (hS : Covers S [.pool, .host, .parts, .jobs, .tiles, .loam, .slots, .ridges, .programming, .localMemory, .path, .arbiters, .col, .ropes, .links, .integrity, .security, .clay, .thermal, .pmu, .cmc]) : Only S b0 (resetLogic s cause off) :=
  Only.upd (t := s) hk (.inr ⟨rfl, rfl⟩) (.inl (hS.mem rfl)) (.inl (hS.mem rfl)) (.inl (hS.mem rfl)) (.inl (hS.mem rfl)) (RidgesOnly.map (f := resetRidge s) (fun _ => ⟨.inl (hS.mem rfl), .inl (hS.mem rfl), .inl (hS.mem rfl), .inl (hS.mem rfl)⟩))
    (.inl (hS.mem rfl)) (.inl (hS.mem rfl)) (.inl (hS.mem rfl)) (.inl (hS.mem rfl)) (.inl (hS.mem rfl)) (.inl (hS.mem rfl)) (.inl (hS.mem rfl)) (.inl (hS.mem rfl)) (.inl (hS.mem rfl)) (.inr ⟨rfl, rfl⟩) (.inl (hS.mem rfl)) (.inl (hS.mem rfl)) (.inl (hS.mem rfl)) (.inl (hS.mem rfl)) (.inr rfl)
theorem inputReset_only {s : State} (hk : Only S b0 s) (hS : Covers S [.pool, .host, .parts, .jobs, .tiles, .loam, .slots, .ridges, .programming, .localMemory, .path, .arbiters, .col, .ropes, .links, .integrity, .security, .clayBytes, .clay, .thermal, .pmu, .cmc]) : Only S b0 (inputReset s) := by
  unfold inputReset
  repeat' (first
    | (with_reducible first | assumption | refine resetLogic_only ?_ (hS.mono rfl) | refine clayCut_only ?_ (hS.mono rfl)))
theorem issueWin_only {s : State} {r : Nat} {w : Win} (hk : Only S b0 s) (hS : Covers S [.ridges]) : IssAll (Only S b0) (issueWin s r w) := by
  unfold issueWin
  repeat' (first
    | (with_reducible first | assumption | refine pushWin_only ?_ (hS.mono rfl) | refine IssAll.intro_next ?_))
theorem jobCairnExportDo_only {s : State} {c : Cmd} (hk : Only S b0 s) (hS : Covers S [.hostMemory, .host, .col]) : Only S b0 (jobCairnExportDo s c) := by
  unfold jobCairnExportDo
  repeat' (first
    | (with_reducible first | assumption | refine completeOut_only ?_ (hS.mono rfl))
    | split)
theorem rebind_only {s : State} {c : Cmd} {j : Job} {l : List (Nat × Nat)} (hk : Only S b0 s) (hS : Covers S [.host, .jobs]) : Only S b0 (rebind s c j l) := by
  unfold rebind
  dsimp only
  repeat' (first
    | (with_reducible first | assumption | refine updJob_only ?_ (hS.mono rfl) | exact RidgesOnly.refl _)
    | (simp only [Only.fields]; with_reducible refine Only.upd ?_ ?_ ?_ ?_ ?_ ?_ ?_ ?_ ?_ ?_ ?_ ?_ ?_ ?_ ?_ ?_ ?_ ?_ ?_ ?_ ?_ ?_)
    | exact .inl (hS.mem rfl)
    | (with_reducible exact .inr rfl)
    | (with_reducible exact .inr ⟨rfl, rfl⟩))
theorem releaseOne_only {s : State} {j : Job} {w : EgressWrite} (hk : Only S b0 s) (hS : Covers S [.hostMemory, .path, .links]) : OptAll (Only S b0) (releaseOne s j w) := by
  unfold releaseOne
  split
  · split
    · refine OptAll.intro ?_
      split
      · exact dmaAnswered_only (hostWrite_only hk (hS.mono rfl)) (hS.mono rfl)
      · exact hostWrite_only hk (hS.mono rfl)
    · trivial
  · with_reducible exact sendReq_only hk (hS.mono rfl)
theorem releaseHeld_only {s : State} {j : Job} (hk : Only S b0 s) (hS : Covers S [.hostMemory, .jobs, .path, .col, .links]) : Only S b0 (releaseHeld s j) := by
  unfold releaseHeld
  repeat' (first
    | (with_reducible first | assumption | refine mmuFault_only ?_ (hS.mono rfl) | refine OptAll.of_some (releaseOne_only ?_ (hS.mono rfl)) (by assumption) | refine updJob_only ?_ (hS.mono rfl))
    | (with_reducible refine Only.foldl (fun _ _ _ => ?_) _ _ ?_) <;> try dsimp only
    | split)
theorem resumeJob_only {s : State} {j : Job} (hk : Only S b0 s) (hS : Covers S [.hostMemory, .host, .jobs, .loam, .slots, .ridges, .localMemory, .path, .col, .ropes, .links]) : Only S b0 (resumeJob s j) := by
  unfold resumeJob
  dsimp only
  repeat' (first
    | (with_reducible first | assumption | refine settleRidge_only ?_ (hS.mono rfl) | refine updCtx_only ?_ (hS.mono rfl) | refine updJob_only ?_ (hS.mono rfl) | refine releaseHeld_only ?_ (hS.mono rfl))
    | (with_reducible refine Only.foldl (fun _ _ _ => ?_) _ _ ?_) <;> try dsimp only
    | split)
theorem jobResumeDo_only {s : State} {c : Cmd} (hk : Only S b0 s) (hS : Covers S [.hostMemory, .host, .parts, .jobs, .loam, .slots, .ridges, .localMemory, .path, .col, .ropes, .links]) : Only S b0 (jobResumeDo s c) := by
  unfold jobResumeDo
  dsimp only
  repeat' (first
    | (with_reducible first | assumption | refine endJob_only ?_ (hS.mono rfl) | refine rebind_only ?_ (hS.mono rfl) | refine complete_only ?_ (hS.mono rfl) | refine updJob_only ?_ (hS.mono rfl) | refine resumeJob_only ?_ (hS.mono rfl) | refine dropTlb_only ?_ (hS.mono rfl))
    | split)
theorem jobSubmitDo_only {s : State} {c : Cmd} (hk : Only S b0 s) (hS : Covers S [.host, .parts, .jobs]) : Only S b0 (jobSubmitDo s c) := by
  unfold jobSubmitDo
  dsimp only
  repeat' (first
    | (with_reducible first | assumption | refine updP_only ?_ (hS.mono rfl) | refine startCmd_only ?_ (hS.mono rfl) | exact RidgesOnly.refl _)
    | (simp only [Only.fields]; with_reducible refine Only.upd ?_ ?_ ?_ ?_ ?_ ?_ ?_ ?_ ?_ ?_ ?_ ?_ ?_ ?_ ?_ ?_ ?_ ?_ ?_ ?_ ?_ ?_)
    | exact .inl (hS.mem rfl)
    | (with_reducible exact .inr rfl)
    | (with_reducible exact .inr ⟨rfl, rfl⟩)
    | split)
theorem updProg_only {s : State} {p h : Nat} {f : Prog → Prog} (hk : Only S b0 s) (hS : Covers S [.parts]) : Only S b0 (updProg s p h f) := by
  unfold updProg
  repeat' (first
    | (with_reducible first | assumption | refine updP_only ?_ (hS.mono rfl)))
theorem keepStates_only {s : State} {r p h : Nat} {regs : List Region} (hk : Only S b0 s) (hS : Covers S [.parts]) : Only S b0 (keepStates s r p h regs) := by
  unfold keepStates
  dsimp only
  repeat' (first
    | (with_reducible first | assumption | refine updProg_only ?_ (hS.mono rfl))
    | (with_reducible refine Only.foldl (fun _ _ _ => ?_) _ _ ?_) <;> try dsimp only
    | split)
theorem stashTables_only {s : State} {r : Nat} (hk : Only S b0 s) (hS : Covers S [.parts]) : Only S b0 (stashTables s r) := by
  unfold stashTables
  repeat' (first
    | (with_reducible first | assumption | refine updProg_only ?_ (hS.mono rfl))
    | split)
theorem loadTables_only {s : State} {r p h k : Nat} (hk : Only S b0 s) (hS : Covers S [.parts, .ridges]) : Only S b0 (loadTables s r p h k) := by
  unfold loadTables
  dsimp only
  repeat' (first
    | (with_reducible first | assumption | refine stashTables_only ?_ (hS.mono rfl) | refine updR_only ?_ (fun _ => ?_))
    | split
    | exact ⟨by first | exact .inl (hS.mem rfl) | (with_reducible exact .inr rfl) | (with_reducible exact .inr ⟨rfl, rfl⟩) | (with_reducible exact .inr ⟨rfl, rfl, rfl, rfl⟩) | exact .inr rfl, by first | exact .inl (hS.mem rfl) | (with_reducible exact .inr rfl) | (with_reducible exact .inr ⟨rfl, rfl⟩) | (with_reducible exact .inr ⟨rfl, rfl, rfl, rfl⟩) | exact .inr rfl, by first | exact .inl (hS.mem rfl) | (with_reducible exact .inr rfl) | (with_reducible exact .inr ⟨rfl, rfl⟩) | (with_reducible exact .inr ⟨rfl, rfl, rfl, rfl⟩) | exact .inr rfl, by first | exact .inl (hS.mem rfl) | (with_reducible exact .inr rfl) | (with_reducible exact .inr ⟨rfl, rfl⟩) | (with_reducible exact .inr ⟨rfl, rfl, rfl, rfl⟩) | exact .inr rfl⟩)
theorem loadProg_only {s : State} {p : Nat} {g : Prog} (hk : Only S b0 s) (hS : Covers S [.parts, .ridges]) : Only S b0 (loadProg s p g) := by
  unfold loadProg
  dsimp only
  repeat' (first
    | (with_reducible first | assumption | refine loadTables_only ?_ (hS.mono rfl) | refine updP_only ?_ (hS.mono rfl))
    | (with_reducible refine Only.foldl (fun _ _ _ => ?_) _ _ ?_) <;> try dsimp only
    | split)
theorem queueProgram_only {s : State} {part : Nat} {w : Wset} {g : Golden} (hk : Only S b0 s) (hS : Covers S [.ridges, .programming, .clay]) : Only S b0 (queueProgram s part w g) := by
  unfold queueProgram
  dsimp only
  repeat' (first
    | (with_reducible first | assumption | refine commitMaps_only ?_ (hS.mono rfl) | refine queueRefresh_only ?_ (hS.mono rfl) | refine setMap_only ?_ (hS.mono rfl) | exact RidgesOnly.refl _)
    | (simp only [Only.fields]; with_reducible refine Only.upd ?_ ?_ ?_ ?_ ?_ ?_ ?_ ?_ ?_ ?_ ?_ ?_ ?_ ?_ ?_ ?_ ?_ ?_ ?_ ?_ ?_ ?_)
    | exact .inl (hS.mem rfl)
    | (with_reducible exact .inr rfl)
    | (with_reducible exact .inr ⟨rfl, rfl⟩)
    | split)
theorem releasePos_only {s : State} {id : W32} {g : Golden} (hk : Only S b0 s) (hS : Covers S [.jobs, .tiles, .slots, .ridges, .programming, .path, .clay]) : Only S b0 (releasePos s id g) := by
  unfold releasePos
  dsimp only
  repeat' (first
    | (with_reducible first | assumption | refine updTile_only ?_ (hS.mono rfl) | refine endSurvey_only ?_ (hS.mono rfl) | refine setJournal_only ?_ (hS.mono rfl) | refine updR_only ?_ (fun _ => ?_) | exact RidgesOnly.refl _)
    | (simp only [Only.fields]; with_reducible refine Only.upd ?_ ?_ ?_ ?_ ?_ ?_ ?_ ?_ ?_ ?_ ?_ ?_ ?_ ?_ ?_ ?_ ?_ ?_ ?_ ?_ ?_ ?_)
    | (with_reducible refine Only.foldl (fun _ _ _ => ?_) _ _ ?_) <;> try dsimp only
    | exact .inl (hS.mem rfl)
    | (with_reducible exact .inr rfl)
    | (with_reducible exact .inr ⟨rfl, rfl⟩)
    | split
    | exact ⟨by first | exact .inl (hS.mem rfl) | (with_reducible exact .inr rfl) | (with_reducible exact .inr ⟨rfl, rfl⟩) | (with_reducible exact .inr ⟨rfl, rfl, rfl, rfl⟩) | exact .inr rfl, by first | exact .inl (hS.mem rfl) | (with_reducible exact .inr rfl) | (with_reducible exact .inr ⟨rfl, rfl⟩) | (with_reducible exact .inr ⟨rfl, rfl, rfl, rfl⟩) | exact .inr rfl, by first | exact .inl (hS.mem rfl) | (with_reducible exact .inr rfl) | (with_reducible exact .inr ⟨rfl, rfl⟩) | (with_reducible exact .inr ⟨rfl, rfl, rfl, rfl⟩) | exact .inr rfl, by first | exact .inl (hS.mem rfl) | (with_reducible exact .inr rfl) | (with_reducible exact .inr ⟨rfl, rfl⟩) | (with_reducible exact .inr ⟨rfl, rfl, rfl, rfl⟩) | exact .inr rfl⟩)
theorem releaseWset_only {s : State} {p : Nat} {w : Wset} (hk : Only S b0 s) (hS : Covers S [.parts, .jobs, .tiles, .slots, .ridges, .programming, .path, .clay]) : Only S b0 (releaseWset s p w) := by
  unfold releaseWset
  dsimp only
  repeat' (first
    | (with_reducible first | assumption | refine updP_only ?_ (hS.mono rfl) | refine releasePos_only ?_ (hS.mono rfl))
    | (with_reducible refine Only.foldl (fun _ _ _ => ?_) _ _ ?_) <;> try dsimp only)
theorem loadStart_only {s : State} {c : Cmd} (hk : Only S b0 s) (hS : Covers S [.host, .parts, .jobs, .tiles, .slots, .ridges, .programming, .path, .col, .ropes, .clay]) : Only S b0 (loadStart s c) := by
  unfold loadStart
  dsimp only
  repeat' (first
    | (with_reducible first | assumption | refine queueProgram_only ?_ (hS.mono rfl) | refine attachTile_only ?_ (hS.mono rfl) | refine updP_only ?_ (hS.mono rfl) | refine startCmd_only ?_ (hS.mono rfl) | refine serviceRope_only ?_ (hS.mono rfl) | refine releaseWset_only ?_ (hS.mono rfl) | refine updR_only ?_ (fun _ => ?_))
    | (with_reducible refine Only.foldl (fun _ _ _ => ?_) _ _ ?_) <;> try dsimp only
    | split
    | exact ⟨by first | exact .inl (hS.mem rfl) | (with_reducible exact .inr rfl) | (with_reducible exact .inr ⟨rfl, rfl⟩) | (with_reducible exact .inr ⟨rfl, rfl, rfl, rfl⟩) | exact .inr rfl, by first | exact .inl (hS.mem rfl) | (with_reducible exact .inr rfl) | (with_reducible exact .inr ⟨rfl, rfl⟩) | (with_reducible exact .inr ⟨rfl, rfl, rfl, rfl⟩) | exact .inr rfl, by first | exact .inl (hS.mem rfl) | (with_reducible exact .inr rfl) | (with_reducible exact .inr ⟨rfl, rfl⟩) | (with_reducible exact .inr ⟨rfl, rfl, rfl, rfl⟩) | exact .inr rfl, by first | exact .inl (hS.mem rfl) | (with_reducible exact .inr rfl) | (with_reducible exact .inr ⟨rfl, rfl⟩) | (with_reducible exact .inr ⟨rfl, rfl, rfl, rfl⟩) | exact .inr rfl⟩)
theorem logExportDo_only {s : State} {c : Cmd} (hk : Only S b0 s) (hS : Covers S [.hostMemory, .host, .col]) : Only S b0 (logExportDo s c) := by
  unfold logExportDo
  dsimp only
  repeat' (first
    | (with_reducible first | assumption | refine complete2_only ?_ (hS.mono rfl) | refine hostWrite_only ?_ (hS.mono rfl)))
theorem logicReset_only {s : State} {cause : Nat} (hk : Only S b0 s) (hS : Covers S [.pool, .host, .parts, .jobs, .tiles, .loam, .slots, .ridges, .programming, .localMemory, .path, .arbiters, .col, .ropes, .links, .integrity, .security, .clayBytes, .clay, .thermal, .pmu, .cmc]) : Only S b0 (logicReset s cause) := by
  unfold logicReset
  repeat' (first
    | (with_reducible first | assumption | refine clayFinish_only ?_ (hS.mono rfl) | refine resetLogic_only ?_ (hS.mono rfl)))
theorem poolTake_only {s : State} {id n : Nat} (hk : Only S b0 s) (hS : Covers S [.host]) : OptAllFst (Only S b0) (poolTake s id n) := by
  unfold poolTake
  cases poolFind s n with
  | none => trivial
  | some p => exact Only.upd (t := s) hk (.inr ⟨rfl, rfl⟩) (.inr rfl) (.inl (hS.mem rfl)) (.inr rfl) (.inr rfl) (RidgesOnly.refl _) (.inr rfl) (.inr ⟨rfl, rfl⟩) (.inr rfl) (.inr ⟨rfl, rfl⟩) (.inr rfl) (.inr rfl) (.inr rfl) (.inr rfl) (.inr rfl) (.inr ⟨rfl, rfl⟩) (.inr rfl) (.inr rfl) (.inr rfl) (.inr rfl) (.inr rfl)
theorem placeRings_only {s : State} {c : Cmd} (hk : Only S b0 s) (hS : Covers S [.host]) : OptAllFst (Only S b0) (placeRings s c) := by
  have step : ∀ {t : State} {b : Bool} {i n a : Nat}, Only S b0 t → OptAllFst (Only S b0) (if b then poolTake t i n else some (t, a)) := by
    intro t b i n a h
    cases b
    · exact h
    · exact poolTake_only h (hS.mono rfl)
  unfold placeRings
  dsimp only
  cases h1 : (if (cmdFld c 0x1C 1).testBit 0 then poolTake s (cmdFld c 0x18 2) (ringPages (64 * 2 ^ cmdFld c 0x1A 1)) else some (s, cmdFld c 0x20 8)) with
  | none => trivial
  | some a =>
    have ha : Only S b0 a.1 := OptAllFst.of_some (step hk) h1
    rw [Option.bind_some]
    cases h2 : (if (cmdFld c 0x1C 1).testBit 1 then poolTake a.1 (cmdFld c 0x18 2) (ringPages (32 * 2 ^ cmdFld c 0x1B 1)) else some (a.1, cmdFld c 0x28 8)) with
    | none => trivial
    | some b => exact OptAllFst.of_some (t := b.1) (a := b.2) (step ha) h2
theorem makeQueue_only {s : State} {c : Cmd} (hk : Only S b0 s) (hS : Covers S [.hostMemory, .pool, .host, .col]) : Only S b0 (makeQueue s c) := by
  unfold makeQueue
  dsimp only
  repeat' (first
    | (with_reducible first | assumption | refine cqFlush_only ?_ (hS.mono rfl) | refine abortOld_only ?_ (hS.mono rfl) | refine OptAllFst.of_some (placeRings_only ?_ (hS.mono rfl)) (by assumption) | refine complete_only ?_ (hS.mono rfl) | refine setQ_only ?_ (hS.mono rfl) | refine freePool_only ?_ (hS.mono rfl))
    | split)
theorem reply_only {s : State} {f : Frame} {ty status : Nat} {d : List Byte} (hk : Only S b0 s) (hS : Covers S [.links]) : Only S b0 (reply s f ty status d) := by
  unfold reply
  repeat' (first
    | (with_reducible first | assumption | refine sendFrame_only ?_ (hS.mono rfl))
    | split)
theorem malformed_only {s : State} {n : Nat} {f : Frame} {ty : Nat} (hk : Only S b0 s) (hS : Covers S [.col, .links]) : Only S b0 (malformed s n f ty) := by
  unfold malformed
  dsimp only
  repeat' (first
    | (with_reducible first | assumption | refine raiseInteg_only ?_ (hS.mono rfl) | refine reply_only ?_ (hS.mono rfl))
    | split)
theorem markSuspects_only {s : State} {r p wp wf : Nat} {prompt : Option (Nat × W32)} (hk : Only S b0 s) (hS : Covers S [.jobs]) : Only S b0 (markSuspects s r p wp wf prompt) := by
  unfold markSuspects
  repeat' (first
    | (with_reducible first | assumption | exact RidgesOnly.refl _)
    | (simp only [Only.fields]; with_reducible refine Only.upd ?_ ?_ ?_ ?_ ?_ ?_ ?_ ?_ ?_ ?_ ?_ ?_ ?_ ?_ ?_ ?_ ?_ ?_ ?_ ?_ ?_ ?_)
    | exact .inl (hS.mem rfl)
    | (with_reducible exact .inr rfl)
    | (with_reducible exact .inr ⟨rfl, rfl⟩))
theorem mvmIssue_only {s : State} {r : Nat} {x : Ctx} {w : W128} (hk : Only S b0 s) (hS : Covers S [.jobs, .tiles, .slots, .ridges]) : Only S b0 (mvmIssue s r x w) := by
  unfold mvmIssue
  dsimp only
  repeat' (first
    | (with_reducible first | assumption | refine countFired_only ?_ (hS.mono rfl) | refine updJob_only ?_ (hS.mono rfl) | refine pushWin_only ?_ (hS.mono rfl))
    | (with_reducible refine Only.foldl (fun _ _ _ => ?_) _ _ ?_) <;> try dsimp only
    | split)
theorem mvmBody_only {r : Ridge} {x : Ctx} {w : W128} {s : State} (hk : Only S b0 s) (hS : Covers S [.jobs, .tiles, .slots, .ridges]) : IssAll (Only S b0) (mvmBody r x w s) := by
  unfold mvmBody
  dsimp only
  repeat' (first
    | (with_reducible first | assumption | refine mvmIssue_only ?_ (hS.mono rfl) | refine IssAll.intro_next ?_)
    | exact trivial
    | split)
theorem pageWalk_only {id : Nat} {s : State} (hk : Only S b0 s) (hS : Covers S [.jobs, .ridges, .path, .col]) : Only S b0 (pageWalk id s) := by
  unfold pageWalk
  dsimp only
  repeat' (first
    | (with_reducible first | assumption | refine mmuFault_only ?_ (hS.mono rfl) | refine ridgeMmu_only ?_ (hS.mono rfl) | refine fillTlb_only ?_ (hS.mono rfl) | exact RidgesOnly.refl _)
    | (simp only [Only.fields]; with_reducible refine Only.upd ?_ ?_ ?_ ?_ ?_ ?_ ?_ ?_ ?_ ?_ ?_ ?_ ?_ ?_ ?_ ?_ ?_ ?_ ?_ ?_ ?_ ?_)
    | exact .inl (hS.mem rfl)
    | (with_reducible exact .inr rfl)
    | (with_reducible exact .inr ⟨rfl, rfl⟩)
    | split)
theorem setFails_only {s : State} {p n : Nat} (hk : Only S b0 s) (hS : Covers S [.host]) : Only S b0 (setFails s p n) := by
  unfold setFails
  dsimp only
  repeat' (first
    | (with_reducible first | assumption | exact RidgesOnly.refl _)
    | (simp only [Only.fields]; with_reducible refine Only.upd ?_ ?_ ?_ ?_ ?_ ?_ ?_ ?_ ?_ ?_ ?_ ?_ ?_ ?_ ?_ ?_ ?_ ?_ ?_ ?_ ?_ ?_)
    | exact .inl (hS.mem rfl)
    | (with_reducible exact .inr rfl)
    | (with_reducible exact .inr ⟨rfl, rfl⟩))
theorem partBindDo_only {s : State} {q : QId} {cid : W16} {c : Cmd} (hk : Only S b0 s) (hS : Covers S [.host, .jobs, .slots, .ridges, .col, .ropes]) : Only S b0 (partBindDo s q cid c) := by
  unfold partBindDo
  dsimp only
  repeat' (first
    | (with_reducible first | assumption | refine securityEvent_only ?_ (hS.mono rfl) | refine complete_only ?_ (hS.mono rfl) | refine setFails_only ?_ (hS.mono rfl) | refine startCmd_only ?_ (hS.mono rfl) | refine serviceRope_only ?_ (hS.mono rfl))
    | split)
theorem powerRidges_only {s : State} {l : List Nat} (hk : Only S b0 s) (hS : Covers S [.pmu]) : Only S b0 (powerRidges s l) := by
  unfold powerRidges
  repeat' (first
    | (with_reducible first | assumption | refine ridgePower_only ?_ (hS.mono rfl))
    | (with_reducible refine Only.foldl (fun _ _ _ => ?_) _ _ ?_) <;> try dsimp only
    | split)
theorem partCreateDo_only {s : State} {q : QId} {cid : W16} {c : Cmd} (hk : Only S b0 s) (hS : Covers S [.host, .jobs, .slots, .ridges, .col, .ropes, .security, .pmu]) : Only S b0 (partCreateDo s q cid c) := by
  unfold partCreateDo
  dsimp only
  repeat' (first
    | (with_reducible first | assumption | refine powerRidges_only ?_ (hS.mono rfl) | refine newKey_only ?_ (hS.mono rfl) | refine startCmd_only ?_ (hS.mono rfl) | refine serviceRope_only ?_ (hS.mono rfl))
    | split)
theorem scrubStart_only {s : State} {p : Nat} {stop : Bool} {cmd : Option (QId × W16)} (hk : Only S b0 s) (hS : Covers S [.parts, .col]) : Only S b0 (scrubStart s p stop cmd) := by
  unfold scrubStart
  repeat' (first
    | (with_reducible first | assumption | refine updP_only ?_ (hS.mono rfl) | refine startRap_only ?_ (hS.mono rfl)))
theorem wholeStart_only {s : State} {c : Cmd} (hk : Only S b0 s) (hS : Covers S [.host, .parts, .tiles, .loam, .slots, .ridges, .programming, .col, .clay, .pmu, .cmc]) : Only S b0 (wholeStart s c) := by
  unfold wholeStart
  dsimp only
  repeat' (first
    | (with_reducible first | assumption | refine powerRidges_only ?_ (hS.mono rfl) | refine pinSync_only ?_ (hS.mono rfl) | refine saveGuard_only ?_ (hS.mono rfl) | refine scrubStart_only ?_ (hS.mono rfl) | refine stopEngines_only ?_ (hS.mono rfl) | refine writePending_only ?_ (hS.mono rfl) | refine updR_only ?_ (fun _ => ?_) | exact RidgesOnly.refl _ | exact zeroRidge_ronly (RidgeOnly.refl _) (hS.mono rfl))
    | (simp only [Only.fields]; with_reducible refine Only.upd ?_ ?_ ?_ ?_ ?_ ?_ ?_ ?_ ?_ ?_ ?_ ?_ ?_ ?_ ?_ ?_ ?_ ?_ ?_ ?_ ?_ ?_)
    | (with_reducible refine Only.foldl (fun _ _ _ => ?_) _ _ ?_) <;> try dsimp only
    | exact .inl (hS.mem rfl)
    | (with_reducible exact .inr rfl)
    | (with_reducible exact .inr ⟨rfl, rfl⟩)
    | split)
theorem partDestroyDo_only {s : State} {q : QId} {cid : W16} {c : Cmd} (hk : Only S b0 s) (hS : Covers S [.host, .parts, .tiles, .loam, .slots, .ridges, .programming, .col, .clay, .pmu, .cmc]) : Only S b0 (partDestroyDo s q cid c) := by
  unfold partDestroyDo
  repeat' (first
    | (with_reducible first | assumption | refine scrubStart_only ?_ (hS.mono rfl) | refine startCmd_only ?_ (hS.mono rfl) | refine wholeStart_only ?_ (hS.mono rfl))
    | split)
theorem powerCapDo_only {s : State} {c : Cmd} (hk : Only S b0 s) (hS : Covers S [.hostMemory, .host, .col, .pmu]) : Only S b0 (powerCapDo s c) := by
  unfold powerCapDo
  dsimp only
  repeat' (first
    | (with_reducible first | assumption | refine complete_only ?_ (hS.mono rfl) | refine powerEvent_only ?_ (hS.mono rfl) | refine hostWrite_only ?_ (hS.mono rfl) | exact RidgesOnly.refl _)
    | (simp only [Only.fields]; with_reducible refine Only.upd ?_ ?_ ?_ ?_ ?_ ?_ ?_ ?_ ?_ ?_ ?_ ?_ ?_ ?_ ?_ ?_ ?_ ?_ ?_ ?_ ?_ ?_)
    | exact .inl (hS.mem rfl)
    | (with_reducible exact .inr rfl)
    | (with_reducible exact .inr ⟨rfl, rfl⟩)
    | split)
theorem updTest_only {s : State} {r : Nat} {f : TestSt → TestSt} (hk : Only S b0 s) (hS : Covers S [.ridges]) : Only S b0 (updTest s r f) := by
  unfold updTest
  repeat' (first
    | (with_reducible first | assumption | refine updR_only ?_ (fun _ => ?_))
    | exact ⟨by first | exact .inl (hS.mem rfl) | (with_reducible exact .inr rfl) | (with_reducible exact .inr ⟨rfl, rfl⟩) | (with_reducible exact .inr ⟨rfl, rfl, rfl, rfl⟩) | exact .inr rfl, by first | exact .inl (hS.mem rfl) | (with_reducible exact .inr rfl) | (with_reducible exact .inr ⟨rfl, rfl⟩) | (with_reducible exact .inr ⟨rfl, rfl, rfl, rfl⟩) | exact .inr rfl, by first | exact .inl (hS.mem rfl) | (with_reducible exact .inr rfl) | (with_reducible exact .inr ⟨rfl, rfl⟩) | (with_reducible exact .inr ⟨rfl, rfl, rfl, rfl⟩) | exact .inr rfl, by first | exact .inl (hS.mem rfl) | (with_reducible exact .inr rfl) | (with_reducible exact .inr ⟨rfl, rfl⟩) | (with_reducible exact .inr ⟨rfl, rfl, rfl, rfl⟩) | exact .inr rfl⟩)
theorem startTest_only {s : State} {r tests stress : Nat} {job : W32} (hk : Only S b0 s) (hS : Covers S [.jobs, .tiles, .ridges, .path]) : Only S b0 (startTest s r tests stress job) := by
  unfold startTest
  dsimp only
  repeat' (first
    | (with_reducible first | assumption | refine endSurvey_only ?_ (hS.mono rfl) | refine requestSurvey_only ?_ (hS.mono rfl) | refine updTest_only ?_ (hS.mono rfl))
    | (with_reducible refine Only.foldl (fun _ _ _ => ?_) _ _ ?_) <;> try dsimp only)
theorem startDue_only {s : State} {r : Nat} {job : W32} (hk : Only S b0 s) (hS : Covers S [.jobs, .tiles, .ridges, .path, .pmu]) : Only S b0 (startDue s r job) := by
  unfold startDue
  repeat' (first
    | (with_reducible first | assumption | refine startTest_only ?_ (hS.mono rfl) | refine ridgePower_only ?_ (hS.mono rfl))
    | split)
theorem saveJob_only {s : State} {j : Job} {inc : Option Job} (hk : Only S b0 s) (hS : Covers S [.host, .jobs, .slots, .ridges, .col, .ropes]) : Only S b0 (saveJob s j inc) := by
  unfold saveJob
  dsimp only
  repeat' (first
    | (with_reducible first | assumption | refine updJob_only ?_ (hS.mono rfl) | refine ropeAbort_only ?_ (hS.mono rfl) | refine updR_only ?_ (fun _ => ?_) | exact leaveRidge_ronly (RidgeOnly.refl _) (hS.mono rfl))
    | (with_reducible refine Only.foldl (fun _ _ _ => ?_) _ _ ?_) <;> try dsimp only)
theorem preemptForTest_only {s : State} {r : Nat} {j : Job} (hk : Only S b0 s) (hS : Covers S [.host, .jobs, .tiles, .slots, .ridges, .path, .col, .ropes, .pmu]) : Only S b0 (preemptForTest s r j) := by
  unfold preemptForTest
  repeat' (first
    | (with_reducible first | assumption | refine startDue_only ?_ (hS.mono rfl) | refine saveJob_only ?_ (hS.mono rfl)))
theorem probeAll_only {s : State} {r : Nat} (hk : Only S b0 s) (hS : Covers S [.ridges]) : Only S b0 (probeAll s r) := by
  unfold probeAll
  repeat' (first
    | (with_reducible first | assumption | refine startProbe_only ?_ (hS.mono rfl))
    | (with_reducible refine Only.foldl (fun _ _ _ => ?_) _ _ ?_) <;> try dsimp only
    | split)
theorem suspectEvents_only {s : State} {part r p wp wf : Nat} (hk : Only S b0 s) (hS : Covers S [.col]) : Only S b0 (suspectEvents s part r p wp wf) := by
  unfold suspectEvents
  dsimp only
  repeat' (first
    | (with_reducible first | assumption | refine suspectEvent_only ?_ (hS.mono rfl))
    | (with_reducible refine Only.foldl (fun _ _ _ => ?_) _ _ ?_) <;> try dsimp only
    | split)
theorem probeFailed_only {s : State} {r : Nat} {e : Win} {l : Lane} {pay : List Byte} {wp wf : Nat} (hk : Only S b0 s) (hS : Covers S [.jobs, .tiles, .ridges, .col, .integrity]) : Only S b0 (probeFailed s r e l pay wp wf) := by
  unfold probeFailed
  dsimp only
  repeat' (first
    | (with_reducible first | assumption | refine updTile_only ?_ (hS.mono rfl) | refine suspectEvents_only ?_ (hS.mono rfl) | refine updCtx_only ?_ (hS.mono rfl) | refine markSuspects_only ?_ (hS.mono rfl) | refine raise_only ?_ (hS.mono rfl) | refine countFailed_only ?_ (hS.mono rfl) | refine queueRefresh_only ?_ (hS.mono rfl) | refine setMap_only ?_ (hS.mono rfl))
    | split)
theorem probePolicyDo_only {s : State} {c : Cmd} (hk : Only S b0 s) (hS : Covers S [.host, .parts, .col, .integrity]) : Only S b0 (probePolicyDo s c) := by
  unfold probePolicyDo
  dsimp only
  repeat' (first
    | (with_reducible first | assumption | refine updP_only ?_ (hS.mono rfl) | refine complete_only ?_ (hS.mono rfl) | exact RidgesOnly.refl _)
    | (simp only [Only.fields]; with_reducible refine Only.upd ?_ ?_ ?_ ?_ ?_ ?_ ?_ ?_ ?_ ?_ ?_ ?_ ?_ ?_ ?_ ?_ ?_ ?_ ?_ ?_ ?_ ?_)
    | exact .inl (hS.mem rfl)
    | (with_reducible exact .inr rfl)
    | (with_reducible exact .inr ⟨rfl, rfl⟩)
    | split)
theorem progLoadDo_only {s : State} {c : Cmd} (hk : Only S b0 s) (hS : Covers S [.host, .parts, .ridges, .col]) : Only S b0 (progLoadDo s c) := by
  unfold progLoadDo
  dsimp only
  repeat' (first
    | (with_reducible first | assumption | refine loadProg_only ?_ (hS.mono rfl) | refine complete_only ?_ (hS.mono rfl)))
theorem programFailed_only {s : State} {o : ProgOp} {uncovered free : Nat} (hk : Only S b0 s) (hS : Covers S [.tiles, .ridges, .col, .clay]) : Only S b0 (programFailed s o uncovered free) := by
  unfold programFailed
  dsimp only
  repeat' (first
    | (with_reducible first | assumption | refine tileEvent_only ?_ (hS.mono rfl) | refine queueRefresh_only ?_ (hS.mono rfl) | refine setJournal_only ?_ (hS.mono rfl) | refine setMap_only ?_ (hS.mono rfl))
    | split)
theorem putBuffers_only {s : State} {r : Nat} {bufs : List (Nat × InBuf)} (hk : Only S b0 s) (hS : Covers S [.slots]) : Only S b0 (putBuffers s r bufs) := by
  unfold putBuffers
  dsimp only
  repeat' (first
    | (with_reducible first | assumption | refine updPos_only ?_ (hS.mono rfl))
    | (with_reducible refine Only.foldl (fun _ _ _ => ?_) _ _ ?_) <;> try dsimp only)
theorem queueDestroyDo_only {s : State} {c : Cmd} (hk : Only S b0 s) (hS : Covers S [.host, .col]) : Only S b0 (queueDestroyDo s c) := by
  unfold queueDestroyDo
  dsimp only
  repeat' (first
    | (with_reducible first | assumption | refine startCmd_only ?_ (hS.mono rfl) | refine startRap_only ?_ (hS.mono rfl))
    | split)
theorem railReset_only {s : State} (hk : Only S b0 s) (hS : Covers S [.pool, .host, .parts, .jobs, .tiles, .loam, .slots, .ridges, .programming, .localMemory, .path, .arbiters, .col, .ropes, .links, .integrity, .security, .clayBytes, .clay, .thermal, .pmu, .cmc]) : Only S b0 (railReset s) := by
  unfold railReset
  repeat' (first
    | (with_reducible first | assumption | refine boot_only ?_ (hS.mono rfl) | refine logicReset_only ?_ (hS.mono rfl)))
theorem rappelWrite_only {s : State} {p : Port} {f scope : Nat} {v : W32} (hk : Only S b0 s) (hS : Covers S [.host, .col]) : Only S b0 (rappelWrite s p f scope v) := by
  unfold rappelWrite
  dsimp only
  repeat' (first
    | (with_reducible first | assumption | refine pinSync_only ?_ (hS.mono rfl) | refine updFn_only ?_ (hS.mono rfl) | refine startRap_only ?_ (hS.mono rfl))
    | split)
theorem readBack_only {s : State} {v : W32} (hk : Only S b0 s) (hS : Covers S [.host]) : Only S b0 (readBack s v) := by
  unfold readBack
  dsimp only
  repeat' (first
    | (with_reducible first | assumption | exact RidgesOnly.refl _)
    | (simp only [Only.fields]; with_reducible refine Only.upd ?_ ?_ ?_ ?_ ?_ ?_ ?_ ?_ ?_ ?_ ?_ ?_ ?_ ?_ ?_ ?_ ?_ ?_ ?_ ?_ ?_ ?_)
    | exact .inl (hS.mem rfl)
    | (with_reducible exact .inr rfl)
    | (with_reducible exact .inr ⟨rfl, rfl⟩))
theorem recompute_only {s : State} {d : Nat} (hk : Only S b0 s) (hS : Covers S [.col, .links]) : Only S b0 (recompute s d) := by
  unfold recompute
  repeat' (first
    | (with_reducible first | assumption | refine setRoute_only ?_ (hS.mono rfl))
    | split)
theorem refuse_only {s : State} {code : Nat} (hk : Only S b0 s) (hS : Covers S [.security]) : Only S b0 (refuse s code) := by
  unfold refuse
  repeat' (first
    | (with_reducible first | assumption | refine answer_only ?_ (hS.mono rfl)))
theorem regWrite_only {s : State} {p : Port} {f off : Nat} {v : W32} (hk : Only S b0 s) (hS : Covers S [.host]) : Only S b0 (regWrite s p f off v) := by
  unfold regWrite
  dsimp only
  repeat' (first
    | (with_reducible first | assumption | refine pinSync_only ?_ (hS.mono rfl) | refine updFn_only ?_ (hS.mono rfl) | refine updPort_only ?_ (hS.mono rfl))
    | split)
theorem rejectTurn_only {s : State} {q : QId} (hk : Only S b0 s) (hS : Covers S [.host, .col]) : Only S b0 (rejectTurn s q) := by
  unfold rejectTurn
  repeat' (first
    | (with_reducible first | assumption | refine complete_only ?_ (hS.mono rfl))
    | split)
theorem restartEvents_only {s : State} {j : Job} (hk : Only S b0 s) (hS : Covers S [.col]) : Only S b0 (restartEvents s j) := by
  unfold restartEvents
  repeat' (first
    | (with_reducible first | assumption | refine suspectEvents_only ?_ (hS.mono rfl))
    | (with_reducible refine Only.foldl (fun _ _ _ => ?_) _ _ ?_) <;> try dsimp only
    | split)
theorem restartCleared_only {s : State} {part : Nat} {job : W32} {j : Job} (hk : Only S b0 s) (hS : Covers S [.host, .jobs, .slots, .ridges, .path, .col, .ropes, .links]) : Only S b0 (restartCleared s part job j) := by
  unfold restartCleared
  repeat' (first
    | (with_reducible first | assumption | refine clearJob_only ?_ (hS.mono rfl) | refine restartEvents_only ?_ (hS.mono rfl) | refine updJob_only ?_ (hS.mono rfl)))
theorem restartScrubs_only {s : State} (hk : Only S b0 s) (hS : Covers S [.parts, .col]) : Only S b0 (restartScrubs s) := by
  unfold restartScrubs
  repeat' (first
    | (with_reducible first | assumption | refine scrubStart_only ?_ (hS.mono rfl))
    | (with_reducible refine Only.foldl (fun _ _ _ => ?_) _ _ ?_) <;> try dsimp only
    | split)
theorem restoreCopy_only {s : State} {j : Job} {r : Nat} {c : CairnCopy} (hk : Only S b0 s) (hS : Covers S [.loam, .slots, .ridges]) : Only S b0 (restoreCopy s j r c) := by
  unfold restoreCopy
  dsimp only
  repeat' (first
    | (with_reducible first | assumption | refine updR_only ?_ (fun _ => ?_) | exact loamWrite_ronly (RidgeOnly.refl _) (hS.mono rfl))
    | (with_reducible refine Only.foldl (fun _ _ _ => ?_) _ _ ?_) <;> try dsimp only
    | split
    | exact ⟨by first | exact .inl (hS.mem rfl) | (with_reducible exact .inr rfl) | (with_reducible exact .inr ⟨rfl, rfl⟩) | (with_reducible exact .inr ⟨rfl, rfl, rfl, rfl⟩) | exact .inr rfl, by first | exact .inl (hS.mem rfl) | (with_reducible exact .inr rfl) | (with_reducible exact .inr ⟨rfl, rfl⟩) | (with_reducible exact .inr ⟨rfl, rfl, rfl, rfl⟩) | exact .inr rfl, by first | exact .inl (hS.mem rfl) | (with_reducible exact .inr rfl) | (with_reducible exact .inr ⟨rfl, rfl⟩) | (with_reducible exact .inr ⟨rfl, rfl, rfl, rfl⟩) | exact .inr rfl, by first | exact .inl (hS.mem rfl) | (with_reducible exact .inr rfl) | (with_reducible exact .inr ⟨rfl, rfl⟩) | (with_reducible exact .inr ⟨rfl, rfl, rfl, rfl⟩) | exact .inr rfl⟩)
theorem restoreRidge_only {s : State} {j : Job} {k r : Nat} (hk : Only S b0 s) (hS : Covers S [.parts, .loam, .slots, .ridges]) : Only S b0 (restoreRidge s j k r) := by
  unfold restoreRidge
  dsimp only
  repeat' (first
    | (with_reducible first | assumption | refine loadTables_only ?_ (hS.mono rfl) | refine updR_only ?_ (fun _ => ?_) | exact loamWrite_ronly (RidgeOnly.refl _) (hS.mono rfl))
    | (with_reducible refine Only.foldl (fun _ _ _ => ?_) _ _ ?_) <;> try dsimp only
    | split
    | exact ⟨by first | exact .inl (hS.mem rfl) | (with_reducible exact .inr rfl) | (with_reducible exact .inr ⟨rfl, rfl⟩) | (with_reducible exact .inr ⟨rfl, rfl, rfl, rfl⟩) | exact .inr rfl, by first | exact .inl (hS.mem rfl) | (with_reducible exact .inr rfl) | (with_reducible exact .inr ⟨rfl, rfl⟩) | (with_reducible exact .inr ⟨rfl, rfl, rfl, rfl⟩) | exact .inr rfl, by first | exact .inl (hS.mem rfl) | (with_reducible exact .inr rfl) | (with_reducible exact .inr ⟨rfl, rfl⟩) | (with_reducible exact .inr ⟨rfl, rfl, rfl, rfl⟩) | exact .inr rfl, by first | exact .inl (hS.mem rfl) | (with_reducible exact .inr rfl) | (with_reducible exact .inr ⟨rfl, rfl⟩) | (with_reducible exact .inr ⟨rfl, rfl, rfl, rfl⟩) | exact .inr rfl⟩)
theorem restoreJob_only {s : State} {j : Job} (hk : Only S b0 s) (hS : Covers S [.parts, .jobs, .loam, .slots, .ridges]) : Only S b0 (restoreJob s j) := by
  unfold restoreJob
  dsimp only
  repeat' (first
    | (with_reducible first | assumption | refine restoreRidge_only ?_ (hS.mono rfl) | refine updJob_only ?_ (hS.mono rfl))
    | (with_reducible refine Only.foldl (fun _ _ _ => ?_) _ _ ?_) <;> try dsimp only)
theorem ridgesSettle_only {s : State} (hk : Only S b0 s) (hS : Covers S [.clay, .cmc]) : Only S b0 (ridgesSettle s) := by
  unfold ridgesSettle
  dsimp only
  repeat' (first
    | (with_reducible first | assumption | refine writePending_only ?_ (hS.mono rfl) | exact RidgesOnly.refl _)
    | (simp only [Only.fields]; with_reducible refine Only.upd ?_ ?_ ?_ ?_ ?_ ?_ ?_ ?_ ?_ ?_ ?_ ?_ ?_ ?_ ?_ ?_ ?_ ?_ ?_ ?_ ?_ ?_)
    | exact .inl (hS.mem rfl)
    | (with_reducible exact .inr rfl)
    | (with_reducible exact .inr ⟨rfl, rfl⟩)
    | split)
theorem ringHead_only {s : State} {q : QId} {v : Nat} (hk : Only S b0 s) (hS : Covers S [.hostMemory, .pool, .host, .col]) : Only S b0 (ringHead s q v) := by
  unfold ringHead
  repeat' (first
    | (with_reducible first | assumption | refine cqFlush_only ?_ (hS.mono rfl) | refine badDoorbell_only ?_ (hS.mono rfl) | refine updQ_only ?_ (hS.mono rfl))
    | split)
theorem ringOff_only {s : State} {p : Port} {f : Nat} (hk : Only S b0 s) (hS : Covers S [.host]) : Only S b0 (ringOff s p f) := by
  unfold ringOff
  repeat' (first
    | (with_reducible first | assumption | refine updFn_only ?_ (hS.mono rfl)))
theorem ringTail_only {s : State} {q : QId} {v : Nat} (hk : Only S b0 s) (hS : Covers S [.host, .col]) : Only S b0 (ringTail s q v) := by
  unfold ringTail
  repeat' (first
    | (with_reducible first | assumption | refine badDoorbell_only ?_ (hS.mono rfl) | refine updQ_only ?_ (hS.mono rfl))
    | split)
theorem routeSetDo_only {s : State} {c : Cmd} (hk : Only S b0 s) (hS : Covers S [.host, .col, .links, .pmu]) : Only S b0 (routeSetDo s c) := by
  unfold routeSetDo
  dsimp only
  repeat' (first
    | (with_reducible first | assumption | refine applyRoute_only ?_ (hS.mono rfl) | refine applyPorts_only ?_ (hS.mono rfl) | refine complete_only ?_ (hS.mono rfl))
    | (with_reducible refine Only.foldl (fun _ _ _ => ?_) _ _ ?_) <;> try dsimp only)
theorem stall_only {s : State} {st : FwSt} {why : RapWhy} (hk : Only S b0 s) (hS : Covers S [.host, .col, .cmc]) : Only S b0 (stall s st why) := by
  unfold stall
  dsimp only
  repeat' (first
    | (with_reducible first | assumption | refine pinSync_only ?_ (hS.mono rfl) | refine startRap_only ?_ (hS.mono rfl) | refine raise_only ?_ (hS.mono rfl) | exact RidgesOnly.refl _)
    | (simp only [Only.fields]; with_reducible refine Only.upd ?_ ?_ ?_ ?_ ?_ ?_ ?_ ?_ ?_ ?_ ?_ ?_ ?_ ?_ ?_ ?_ ?_ ?_ ?_ ?_ ?_ ?_)
    | exact .inl (hS.mem rfl)
    | (with_reducible exact .inr rfl)
    | (with_reducible exact .inr ⟨rfl, rfl⟩))
theorem secondStall_only {s : State} (hk : Only S b0 s) (hS : Covers S [.host, .col, .cmc]) : Only S b0 (secondStall s) := by
  unfold secondStall
  dsimp only
  repeat' (first
    | (with_reducible first | assumption | refine attnBoth_only ?_ (hS.mono rfl) | refine stall_only ?_ (hS.mono rfl) | exact RidgesOnly.refl _)
    | (simp only [Only.fields]; with_reducible refine Only.upd ?_ ?_ ?_ ?_ ?_ ?_ ?_ ?_ ?_ ?_ ?_ ?_ ?_ ?_ ?_ ?_ ?_ ?_ ?_ ?_ ?_ ?_)
    | exact .inl (hS.mem rfl)
    | (with_reducible exact .inr rfl)
    | (with_reducible exact .inr ⟨rfl, rfl⟩))
theorem sendHail_only {s : State} {n : Nat} (hk : Only S b0 s) (hS : Covers S [.col, .links]) : Only S b0 (sendHail s n) := by
  unfold sendHail
  repeat' (first
    | (with_reducible first | assumption | refine sendMgmt_only ?_ (hS.mono rfl)))
theorem setIde_only {s : State} {k : Nat} {v : IdeSlot} (hk : Only S b0 s) (hS : Covers S [.security]) : Only S b0 (setIde s k v) := by
  unfold setIde
  dsimp only
  repeat' (first
    | (with_reducible first | assumption | exact RidgesOnly.refl _)
    | (simp only [Only.fields]; with_reducible refine Only.upd ?_ ?_ ?_ ?_ ?_ ?_ ?_ ?_ ?_ ?_ ?_ ?_ ?_ ?_ ?_ ?_ ?_ ?_ ?_ ?_ ?_ ?_)
    | exact .inl (hS.mem rfl)
    | (with_reducible exact .inr rfl)
    | (with_reducible exact .inr ⟨rfl, rfl⟩))
theorem setInsecure_only {s : State} {p : Port} {f : Nat} {v : Bool} (hk : Only S b0 s) (hS : Covers S [.security]) : Only S b0 (setInsecure s p f v) := by
  unfold setInsecure
  dsimp only
  repeat' (first
    | (with_reducible first | assumption | exact RidgesOnly.refl _)
    | (simp only [Only.fields]; with_reducible refine Only.upd ?_ ?_ ?_ ?_ ?_ ?_ ?_ ?_ ?_ ?_ ?_ ?_ ?_ ?_ ?_ ?_ ?_ ?_ ?_ ?_ ?_ ?_)
    | exact .inl (hS.mem rfl)
    | (with_reducible exact .inr rfl)
    | (with_reducible exact .inr ⟨rfl, rfl⟩))
theorem updSpdm_only {s : State} {p : Port} {f : Spdm → Spdm} (hk : Only S b0 s) (hS : Covers S [.security]) : Only S b0 (updSpdm s p f) := by
  unfold updSpdm
  dsimp only
  repeat' (first
    | (with_reducible first | assumption | exact RidgesOnly.refl _)
    | (simp only [Only.fields]; with_reducible refine Only.upd ?_ ?_ ?_ ?_ ?_ ?_ ?_ ?_ ?_ ?_ ?_ ?_ ?_ ?_ ?_ ?_ ?_ ?_ ?_ ?_ ?_ ?_)
    | exact .inl (hS.mem rfl)
    | (with_reducible exact .inr rfl)
    | (with_reducible exact .inr ⟨rfl, rfl⟩)
    | split)
theorem setSess_only {s : State} {p : Port} {sid : Nat} {v : Option Sess} (hk : Only S b0 s) (hS : Covers S [.security]) : Only S b0 (setSess s p sid v) := by
  unfold setSess
  repeat' (first
    | (with_reducible first | assumption | refine updSpdm_only ?_ (hS.mono rfl)))
theorem setWeight_only {s : State} {v : W32} (hk : Only S b0 s) (hS : Covers S [.arbiters]) : Only S b0 (setWeight s v) := by
  unfold setWeight
  dsimp only
  repeat' (first
    | (with_reducible first | assumption | refine setArb_only ?_ (hS.mono rfl))
    | (with_reducible refine Only.foldl (fun _ _ _ => ?_) _ _ ?_) <;> try dsimp only)
theorem setWindows_only {s : State} {v : W32} (hk : Only S b0 s) (hS : Covers S [.col]) : Only S b0 (setWindows s v) := by
  unfold setWindows
  dsimp only
  repeat' (first
    | (with_reducible first | assumption | exact RidgesOnly.refl _)
    | (simp only [Only.fields]; with_reducible refine Only.upd ?_ ?_ ?_ ?_ ?_ ?_ ?_ ?_ ?_ ?_ ?_ ?_ ?_ ?_ ?_ ?_ ?_ ?_ ?_ ?_ ?_ ?_)
    | exact .inl (hS.mem rfl)
    | (with_reducible exact .inr rfl)
    | (with_reducible exact .inr ⟨rfl, rfl⟩))
theorem slotUe_only {s : State} {r : Nat} {cd : List (Nat × Nat)} (hk : Only S b0 s) (hS : Covers S [.loam, .col]) : Only S b0 (slotUe s r cd) := by
  unfold slotUe
  dsimp only
  repeat' (first
    | (with_reducible first | assumption | refine raiseInteg_only ?_ (hS.mono rfl) | refine updR_only ?_ (fun _ => ?_))
    | (with_reducible refine Only.foldl (fun _ _ _ => ?_) _ _ ?_) <;> try dsimp only
    | split
    | exact ⟨by first | exact .inl (hS.mem rfl) | (with_reducible exact .inr rfl) | (with_reducible exact .inr ⟨rfl, rfl⟩) | (with_reducible exact .inr ⟨rfl, rfl, rfl, rfl⟩) | exact .inr rfl, by first | exact .inl (hS.mem rfl) | (with_reducible exact .inr rfl) | (with_reducible exact .inr ⟨rfl, rfl⟩) | (with_reducible exact .inr ⟨rfl, rfl, rfl, rfl⟩) | exact .inr rfl, by first | exact .inl (hS.mem rfl) | (with_reducible exact .inr rfl) | (with_reducible exact .inr ⟨rfl, rfl⟩) | (with_reducible exact .inr ⟨rfl, rfl, rfl, rfl⟩) | exact .inr rfl, by first | exact .inl (hS.mem rfl) | (with_reducible exact .inr rfl) | (with_reducible exact .inr ⟨rfl, rfl⟩) | (with_reducible exact .inr ⟨rfl, rfl, rfl, rfl⟩) | exact .inr rfl⟩)
theorem stageAs_only {s : State} {r : Nat} {x : Ctx} {bytes : Nat} {a : Action} (hk : Only S b0 s) (hS : Covers S [.host, .jobs, .slots, .ridges, .col, .ropes]) : StgAll (Only S b0) (stageAs s r x bytes a) := by
  unfold stageAs
  dsimp only
  repeat' (first
    | (with_reducible first | assumption | refine updCtx_only ?_ (hS.mono rfl) | refine ropeAdd_only ?_ (hS.mono rfl) | refine StgAll.intro_gone ?_ | refine StgAll.intro_staged ?_)
    | exact trivial
    | split)
theorem splGo_only {s : State} {r : Nat} {x : Ctx} {w : W128} {ws : List LRange} (hk : Only S b0 s) (hS : Covers S [.host, .jobs, .loam, .slots, .ridges, .localMemory, .path, .col, .ropes, .links]) : IssAll (Only S b0) (splGo s r x w ws) := by
  unfold splGo
  dsimp only
  repeat' (first
    | (with_reducible first | assumption | refine settleRidge_only ?_ (hS.mono rfl) | refine StgAll.gone (stageAs_only ?_ (hS.mono rfl)) (by assumption) | refine StgAll.staged (stageAs_only ?_ (hS.mono rfl)) (by assumption) | refine setClosing_only ?_ (hS.mono rfl) | refine pushWin_only ?_ (hS.mono rfl) | refine IssAll.intro_next ?_ | refine IssAll.intro_stay ?_)
    | exact trivial
    | split)
theorem stageGolden_only {s : State} {r : Nat} {bufs : List (Nat × InBuf)} (hk : Only S b0 s) (hS : Covers S [.loam]) : Only S b0 (stageGolden s r bufs) := by
  unfold stageGolden
  repeat' (first
    | (with_reducible first | assumption | refine useFree_only ?_ (hS.mono rfl) | refine updR_only ?_ (fun _ => ?_) | exact loamJunk_ronly (RidgeOnly.refl _) (hS.mono rfl))
    | split)
theorem stamp_only {s : State} {d n hops : Nat} (hk : Only S b0 s) (hS : Covers S [.links]) : Only S b0 (stamp s d n hops) := by
  unfold stamp
  dsimp only
  repeat' (first
    | (with_reducible first | assumption | refine setPeer_only ?_ (hS.mono rfl)))
theorem startRegions_only {s : State} {r p h k : Nat} {x : ProgRidge} (hk : Only S b0 s) (hS : Covers S [.parts, .loam]) : Only S b0 (startRegions s r p h k x) := by
  unfold startRegions
  dsimp only
  repeat' (first
    | (with_reducible first | assumption | refine updProg_only ?_ (hS.mono rfl) | refine keepStates_only ?_ (hS.mono rfl) | refine useFree_only ?_ (hS.mono rfl) | refine updR_only ?_ (fun _ => ?_) | exact loamJunk_ronly (RidgeOnly.refl _) (hS.mono rfl) | exact loamWrite_ronly (RidgeOnly.refl _) (hS.mono rfl))
    | (with_reducible refine Only.foldl (fun _ _ _ => ?_) _ _ ?_) <;> try dsimp only
    | split)
theorem startRidge_only {s : State} {j : Job} {h : Option CairnHalf} {k r : Nat} (hk : Only S b0 s) (hS : Covers S [.parts, .loam, .slots, .ridges]) : Only S b0 (startRidge s j h k r) := by
  unfold startRidge
  dsimp only
  repeat' (first
    | (with_reducible first | assumption | refine loadTables_only ?_ (hS.mono rfl) | refine restoreCopy_only ?_ (hS.mono rfl) | refine startRegions_only ?_ (hS.mono rfl) | refine updR_only ?_ (fun _ => ?_) | exact freshRidge_ronly (RidgeOnly.refl _) (hS.mono rfl))
    | split)
theorem startJob_only {s : State} {j : Job} (hk : Only S b0 s) (hS : Covers S [.parts, .jobs, .loam, .slots, .ridges]) : Only S b0 (startJob s j) := by
  unfold startJob
  dsimp only
  repeat' (first
    | (with_reducible first | assumption | refine startRidge_only ?_ (hS.mono rfl) | refine updJob_only ?_ (hS.mono rfl))
    | (with_reducible refine Only.foldl (fun _ _ _ => ?_) _ _ ?_) <;> try dsimp only)
theorem startSurvey_only {s : State} {r t : Nat} {w : W128} (hk : Only S b0 s) (hS : Covers S [.tiles, .ridges]) : Only S b0 (startSurvey s r t w) := by
  unfold startSurvey
  dsimp only
  repeat' (first
    | (with_reducible first | assumption | refine updTile_only ?_ (hS.mono rfl) | refine pushWin_only ?_ (hS.mono rfl)))
theorem statusDone_only {s : State} {n : Nat} {j : Job} {o : Outstanding} {c : Nat} (hk : Only S b0 s) (hS : Covers S [.host, .jobs, .loam, .slots, .ridges, .localMemory, .path, .col, .ropes, .links]) : Only S b0 (statusDone s n j o c) := by
  unfold statusDone
  repeat' (first
    | (with_reducible first | assumption | refine accessDone_only ?_ (hS.mono rfl) | refine accessFault_only ?_ (hS.mono rfl) | refine linkEvent_only ?_ (hS.mono rfl) | refine updJob_only ?_ (hS.mono rfl) | refine accessRefused_only ?_ (hS.mono rfl))
    | split)
theorem stopEngine_only {s : State} {r : Nat} (hk : Only S b0 s) (hS : Covers S [.ridges, .programming]) : Only S b0 (stopEngine s r) := by
  unfold stopEngine
  dsimp only
  repeat' (first
    | (with_reducible first | assumption | refine updR_only ?_ (fun _ => ?_) | exact RidgesOnly.refl _)
    | (simp only [Only.fields]; with_reducible refine Only.upd ?_ ?_ ?_ ?_ ?_ ?_ ?_ ?_ ?_ ?_ ?_ ?_ ?_ ?_ ?_ ?_ ?_ ?_ ?_ ?_ ?_ ?_)
    | exact .inl (hS.mem rfl)
    | (with_reducible exact .inr rfl)
    | (with_reducible exact .inr ⟨rfl, rfl⟩)
    | split
    | exact ⟨by first | exact .inl (hS.mem rfl) | (with_reducible exact .inr rfl) | (with_reducible exact .inr ⟨rfl, rfl⟩) | (with_reducible exact .inr ⟨rfl, rfl, rfl, rfl⟩) | exact .inr rfl, by first | exact .inl (hS.mem rfl) | (with_reducible exact .inr rfl) | (with_reducible exact .inr ⟨rfl, rfl⟩) | (with_reducible exact .inr ⟨rfl, rfl, rfl, rfl⟩) | exact .inr rfl, by first | exact .inl (hS.mem rfl) | (with_reducible exact .inr rfl) | (with_reducible exact .inr ⟨rfl, rfl⟩) | (with_reducible exact .inr ⟨rfl, rfl, rfl, rfl⟩) | exact .inr rfl, by first | exact .inl (hS.mem rfl) | (with_reducible exact .inr rfl) | (with_reducible exact .inr ⟨rfl, rfl⟩) | (with_reducible exact .inr ⟨rfl, rfl, rfl, rfl⟩) | exact .inr rfl⟩)
theorem surveyPolicyDo_only {s : State} {c : Cmd} (hk : Only S b0 s) (hS : Covers S [.host, .parts, .col, .integrity]) : Only S b0 (surveyPolicyDo s c) := by
  unfold surveyPolicyDo
  dsimp only
  repeat' (first
    | (with_reducible first | assumption | refine updP_only ?_ (hS.mono rfl) | refine complete_only ?_ (hS.mono rfl) | exact RidgesOnly.refl _)
    | (simp only [Only.fields]; with_reducible refine Only.upd ?_ ?_ ?_ ?_ ?_ ?_ ?_ ?_ ?_ ?_ ?_ ?_ ?_ ?_ ?_ ?_ ?_ ?_ ?_ ?_ ?_ ?_)
    | exact .inl (hS.mem rfl)
    | (with_reducible exact .inr rfl)
    | (with_reducible exact .inr ⟨rfl, rfl⟩)
    | split)
theorem surveyTaken_only {s : State} {r t : Nat} {v : Survey} {g : List Q} (hk : Only S b0 s) (hS : Covers S [.jobs, .tiles, .ridges, .path, .col, .thermal]) : Only S b0 (surveyTaken s r t v g) := by
  unfold surveyTaken
  dsimp only
  repeat' (first
    | (with_reducible first | assumption | refine updTile_only ?_ (hS.mono rfl) | refine crossCheck_only ?_ (hS.mono rfl) | refine endSurvey_only ?_ (hS.mono rfl)))
theorem surveyTemps_only {s : State} (hk : Only S b0 s) (hS : Covers S [.tiles]) : Only S b0 (surveyTemps s) := by
  unfold surveyTemps
  dsimp only
  repeat' (first
    | (with_reducible first | assumption | refine requestSurvey_only ?_ (hS.mono rfl))
    | (with_reducible refine Only.foldl (fun _ _ _ => ?_) _ _ ?_) <;> try dsimp only
    | split)
theorem swapTables_only {s : State} {part r p t : Nat} {tabs : List (Nat × Nat)} (hk : Only S b0 s) (hS : Covers S [.ridges]) : Only S b0 (swapTables s part r p t tabs) := by
  unfold swapTables
  repeat' (first
    | (with_reducible first | assumption | refine updR_only ?_ (fun _ => ?_) | exact writeInactive_ronly (RidgeOnly.refl _) (hS.mono rfl))
    | (with_reducible refine Only.foldl (fun _ _ _ => ?_) _ _ ?_) <;> try dsimp only
    | split)
theorem sweepFails_only {s : State} {r : Nat} {bad : List (Nat × Nat × Nat × Nat × Int)} (hk : Only S b0 s) (hS : Covers S [.jobs, .tiles, .ridges, .col, .integrity]) : Only S b0 (sweepFails s r bad) := by
  unfold sweepFails
  dsimp only
  repeat' (first
    | (with_reducible first | assumption | refine probeFailed_only ?_ (hS.mono rfl))
    | (with_reducible refine Only.foldl (fun _ _ _ => ?_) _ _ ?_) <;> try dsimp only
    | split)
theorem takeAck_only {s : State} {n a : Nat} (hk : Only S b0 s) (hS : Covers S [.links]) : Only S b0 (takeAck s n a) := by
  unfold takeAck
  dsimp only
  repeat' (first
    | (with_reducible first | assumption | refine setLink_only ?_ (hS.mono rfl) | exact RidgesOnly.refl _)
    | (simp only [Only.fields]; with_reducible refine Only.upd ?_ ?_ ?_ ?_ ?_ ?_ ?_ ?_ ?_ ?_ ?_ ?_ ?_ ?_ ?_ ?_ ?_ ?_ ?_ ?_ ?_ ?_)
    | exact .inl (hS.mem rfl)
    | (with_reducible exact .inr rfl)
    | (with_reducible exact .inr ⟨rfl, rfl⟩)
    | split)
theorem testRunSettle_only {s : State} (hk : Only S b0 s) (hS : Covers S [.host, .col]) : Only S b0 (testRunSettle s) := by
  unfold testRunSettle
  dsimp only
  repeat' (first
    | (with_reducible first | assumption | refine complete2_only ?_ (hS.mono rfl))
    | (with_reducible refine Only.foldl (fun _ _ _ => ?_) _ _ ?_) <;> try dsimp only
    | split)
theorem testEvent_only {s : State} {r cause tests failed stress mv : Nat} {job : W32} {dur late : Nat} (hk : Only S b0 s) (hS : Covers S [.col]) : Only S b0 (testEvent s r cause tests failed stress mv job dur late) := by
  unfold testEvent
  repeat' (first
    | (with_reducible first | assumption | refine raiseCore_only ?_ (hS.mono rfl)))
theorem testDone_only {s : State} {r failed : Nat} {trim : List (Nat × Nat × Nat)} {bad : List (Nat × Nat × Nat × Nat × Int)} {mv : Nat} (hk : Only S b0 s) (hS : Covers S [.host, .parts, .jobs, .tiles, .loam, .slots, .ridges, .path, .col, .ropes, .links, .integrity, .clay, .pmu]) :
    Only S b0 (testDone s r failed trim bad mv) := by
  unfold testDone
  have base : Only S b0 (updR (useFree s) r (fun rd => { loamJunk { rd with poison := [], tags := [] } 0 (1536 * 1024) s.free with slots := [] })) :=
    updR_only (useFree_only hk (hS.mono rfl)) (fun rd => ⟨.inr rfl, .inl (hS.mem rfl), .inl (hS.mem rfl), .inr rfl⟩)
  refine testRunSettle_only ?_ (hS.mono rfl)
  repeat' (first
    | with_reducible assumption
    | with_reducible refine failRidge_only ?_ (hS.mono rfl)
    | with_reducible refine sweepFails_only ?_ (hS.mono rfl)
    | with_reducible refine probeAll_only ?_ (hS.mono rfl)
    | with_reducible refine testEvent_only ?_ (hS.mono rfl)
    | with_reducible refine tileEvent_only ?_ (hS.mono rfl)
    | with_reducible refine updTest_only ?_ (hS.mono rfl)
    | with_reducible refine Only.foldl (fun _ _ _ => ?_) _ _ ?_
    | split)
theorem testRunDo_only {s : State} {c : Cmd} (hk : Only S b0 s) (hS : Covers S [.host, .jobs, .tiles, .slots, .ridges, .path, .col, .ropes, .pmu]) : Only S b0 (testRunDo s c) := by
  unfold testRunDo
  dsimp only
  repeat' (first
    | (with_reducible first | assumption | refine startTest_only ?_ (hS.mono rfl) | refine powerRidges_only ?_ (hS.mono rfl) | refine testRunSettle_only ?_ (hS.mono rfl) | refine saveJob_only ?_ (hS.mono rfl) | refine startCmd_only ?_ (hS.mono rfl) | refine updTest_only ?_ (hS.mono rfl))
    | (with_reducible refine Only.foldl (fun _ _ _ => ?_) _ _ ?_) <;> try dsimp only
    | split)
theorem thermalInletDo_only {s : State} {c : Cmd} (hk : Only S b0 s) (hS : Covers S [.host, .col, .thermal]) : Only S b0 (thermalInletDo s c) := by
  unfold thermalInletDo
  dsimp only
  repeat' (first
    | (with_reducible first | assumption | refine complete_only ?_ (hS.mono rfl) | exact RidgesOnly.refl _)
    | (simp only [Only.fields]; with_reducible refine Only.upd ?_ ?_ ?_ ?_ ?_ ?_ ?_ ?_ ?_ ?_ ?_ ?_ ?_ ?_ ?_ ?_ ?_ ?_ ?_ ?_ ?_ ?_)
    | exact .inl (hS.mem rfl)
    | (with_reducible exact .inr rfl)
    | (with_reducible exact .inr ⟨rfl, rfl⟩))
theorem throttleRidge_only {s : State} {r : Nat} (hk : Only S b0 s) (hS : Covers S [.col, .thermal]) : Only S b0 (throttleRidge s r) := by
  unfold throttleRidge
  dsimp only
  repeat' (first
    | (with_reducible first | assumption | refine thermalCoal_only ?_ (hS.mono rfl) | exact RidgesOnly.refl _)
    | (simp only [Only.fields]; with_reducible refine Only.upd ?_ ?_ ?_ ?_ ?_ ?_ ?_ ?_ ?_ ?_ ?_ ?_ ?_ ?_ ?_ ?_ ?_ ?_ ?_ ?_ ?_ ?_)
    | exact .inl (hS.mem rfl)
    | (with_reducible exact .inr rfl)
    | (with_reducible exact .inr ⟨rfl, rfl⟩)
    | split)
theorem tileClean_only {s : State} {r t : Nat} {o : ProgOp} {base : List Int} (hk : Only S b0 s) (hS : Covers S [.tiles, .clay]) : Only S b0 (tileClean s r t o base) := by
  unfold tileClean
  repeat' (first
    | (with_reducible first | assumption | refine updTile_only ?_ (hS.mono rfl) | refine setJournal_only ?_ (hS.mono rfl)))
theorem tunnelDown_only {s : State} {p : Port} (hk : Only S b0 s) (hS : Covers S [.host, .parts, .col, .security]) : Only S b0 (tunnelDown s p) := by
  unfold tunnelDown
  dsimp only
  repeat' (first
    | (with_reducible first | assumption | refine dropPortIde_only ?_ (hS.mono rfl) | refine pinSync_only ?_ (hS.mono rfl) | refine detachQueues_only ?_ (hS.mono rfl) | refine setAttn_only ?_ (hS.mono rfl) | refine tdiFail_only ?_ (hS.mono rfl) | refine updPort_only ?_ (hS.mono rfl) | refine adminOff_only ?_ (hS.mono rfl) | refine ringOff_only ?_ (hS.mono rfl))
    | (with_reducible refine Only.foldl (fun _ _ _ => ?_) _ _ ?_) <;> try dsimp only
    | split)
theorem unloadProg_only {s : State} {p h : Nat} (hk : Only S b0 s) (hS : Covers S [.parts, .ridges]) : Only S b0 (unloadProg s p h) := by
  refine Only.upd (updP_only hk (hS.mono rfl)) (.inr ⟨rfl, rfl⟩) (.inr rfl) (.inr rfl) (.inr rfl) (.inr rfl) (RidgesOnly.map (f := fun rd => if rd.tables = some (p, h) then { rd with tables := none } else rd) (fun rd => ?_)) (.inr rfl) (.inr ⟨rfl, rfl⟩) (.inr rfl) (.inr ⟨rfl, rfl⟩) (.inr rfl) (.inr rfl) (.inr rfl) (.inr rfl) (.inr rfl) (.inr ⟨rfl, rfl⟩) (.inr rfl) (.inr rfl) (.inr rfl) (.inr rfl) (.inr rfl)
  split
  · exact ⟨.inr rfl, .inr ⟨rfl, rfl, rfl, rfl⟩, .inr ⟨rfl, rfl⟩, .inl (hS.mem rfl)⟩
  · exact .refl _
theorem vldEffect_only {s : State} {r : Nat} {o : LOp} {bufs : List (Nat × InBuf)} (hk : Only S b0 s) (hS : Covers S [.loam, .slots, .ridges]) : Only S b0 (vldEffect s r o bufs) := by
  unfold vldEffect
  dsimp only
  repeat' (first
    | (with_reducible first | assumption | refine putBuffers_only ?_ (hS.mono rfl) | refine stageGolden_only ?_ (hS.mono rfl) | refine updR_only ?_ (fun _ => ?_) | exact ringConsume_ronly (RidgeOnly.refl _) (hS.mono rfl))
    | split)
theorem waitTake_only {s : State} {r : Nat} {w : W128} (hk : Only S b0 s) (hS : Covers S [.ridges]) : Only S b0 (waitTake s r w) := by
  unfold waitTake
  repeat' (first
    | (with_reducible first | assumption | refine updR_only ?_ (fun _ => ?_))
    | split
    | exact ⟨by first | exact .inl (hS.mem rfl) | (with_reducible exact .inr rfl) | (with_reducible exact .inr ⟨rfl, rfl⟩) | (with_reducible exact .inr ⟨rfl, rfl, rfl, rfl⟩) | exact .inr rfl, by first | exact .inl (hS.mem rfl) | (with_reducible exact .inr rfl) | (with_reducible exact .inr ⟨rfl, rfl⟩) | (with_reducible exact .inr ⟨rfl, rfl, rfl, rfl⟩) | exact .inr rfl, by first | exact .inl (hS.mem rfl) | (with_reducible exact .inr rfl) | (with_reducible exact .inr ⟨rfl, rfl⟩) | (with_reducible exact .inr ⟨rfl, rfl, rfl, rfl⟩) | exact .inr rfl, by first | exact .inl (hS.mem rfl) | (with_reducible exact .inr rfl) | (with_reducible exact .inr ⟨rfl, rfl⟩) | (with_reducible exact .inr ⟨rfl, rfl, rfl, rfl⟩) | exact .inr rfl⟩)
theorem wsetSurveyed_only {s : State} {r p : Nat} (hk : Only S b0 s) (hS : Covers S [.host, .parts, .col]) : Only S b0 (wsetSurveyed s r p) := by
  unfold wsetSurveyed
  repeat' (first
    | (with_reducible first | assumption | refine wsetSettle_only ?_ (hS.mono rfl) | refine updWset_only ?_ (hS.mono rfl))
    | split)
theorem wsetUnloadDo_only {s : State} {c : Cmd} (hk : Only S b0 s) (hS : Covers S [.host, .parts, .jobs, .tiles, .slots, .ridges, .programming, .path, .col, .clay]) : Only S b0 (wsetUnloadDo s c) := by
  unfold wsetUnloadDo
  repeat' (first
    | (with_reducible first | assumption | refine complete_only ?_ (hS.mono rfl) | refine releaseWset_only ?_ (hS.mono rfl))
    | split)
theorem wsetVerifyDo_only {s : State} {out : List (Nat × Nat × Nat)} {c : Cmd} (hk : Only S b0 s) (hS : Covers S [.hostMemory, .host, .col]) : Only S b0 (wsetVerifyDo s out c) := by
  unfold wsetVerifyDo
  dsimp only
  repeat' (first
    | (with_reducible first | assumption | refine complete_only ?_ (hS.mono rfl) | refine hostWrite_only ?_ (hS.mono rfl))
    | split)

end Sys2Proof.Machine
end

