-- ==== Sys2Proof/Laws/Tiles.lean ====
section
/-!
SUPPORT. What the shared operations on tiles, records and events leave alone: events and record updates touch no ridge, and a journal change touches only its tile's record.
-/

namespace Sys2Proof.Machine

theorem getR_congr {s t : State} (h : t.ridges = s.ridges) (r : Nat) : getR t r = getR s r := by unfold getR; rw [h]

@[simp] theorem getR_raise (s : State) (src ty cause part : Nat) (d : List Byte) (r : Nat) : getR (raise s src ty cause part d) r = getR s r := rfl
@[simp] theorem getR_raiseCore (s : State) (ty cause part : Nat) (d : List Byte) (r : Nat) : getR (raiseCore s ty cause part d) r = getR s r := rfl
@[simp] theorem getR_tileEvent (s : State) (r t cause : Nat) (l : List (Nat × Nat × Nat)) (q : Nat) : getR (tileEvent s r t cause l) q = getR s q := rfl
@[simp] theorem getTile_tileEvent (s : State) (r t cause : Nat) (l : List (Nat × Nat × Nat)) (q u : Nat) : getTile (tileEvent s r t cause l) q u = getTile s q u := rfl
@[simp] theorem getR_queueRec (s : State) (cls idx : Nat) (d : List Byte) (r : Nat) : getR (queueRec s cls idx d) r = getR s r := rfl
@[simp] theorem getTile_queueRec (s : State) (cls idx : Nat) (d : List Byte) (r t : Nat) : getTile (queueRec s cls idx d) r t = getTile s r t := rfl
@[simp] theorem getR_commitMaps (s : State) (r q : Nat) : getR (commitMaps s r) q = getR s q := rfl
@[simp] theorem getTile_commitMaps (s : State) (r q t : Nat) : getTile (commitMaps s r) q t = getTile s q t := rfl
@[simp] theorem getR_commitJournal (s : State) (r t q : Nat) : getR (commitJournal s r t) q = getR s q := rfl
@[simp] theorem getTile_commitJournal (s : State) (r t q u : Nat) : getTile (commitJournal s r t) q u = getTile s q u := rfl

@[simp] theorem getTile_setJournal_self (s : State) (r t : Nat) (f : Journal → Journal) :
    getTile (setJournal s r t f) r t = { getTile s r t with jr := f (getTile s r t).jr } := by simp [setJournal]
@[simp] theorem setJournal_progQueue (s : State) (r t : Nat) (f : Journal → Journal) : (setJournal s r t f).progQueue = s.progQueue := rfl
/-- A journal change leaves the ridge as it was but for its tiles. -/
theorem getR_setJournal (s : State) (r t : Nat) (f : Journal → Journal) :
    getR (setJournal s r t f) r = { getR s r with tiles := (getR (setJournal s r t f) r).tiles } := by
  simp [setJournal, updTile]

/-- Every event and record update apart, beginning an operation on a tile gives its record the state and one operation more. -/
theorem getTile_markDirtyTile (s : State) (r t : Nat) (st : TileSt) (f : Journal → Journal) :
    getTile (markDirtyTile s r t st f) r t = { getTile s r t with jr := { f (getTile s r t).jr with state := st, count := (getTile s r t).jr.count + 1 } } := by
  unfold markDirtyTile
  simp only
  split <;> simp
theorem getR_markDirtyTile (s : State) (r t : Nat) (st : TileSt) (f : Journal → Journal) :
    getR (markDirtyTile s r t st f) r = { getR s r with tiles := (getR (markDirtyTile s r t st f) r).tiles } := by
  unfold markDirtyTile
  simp only
  split
  · simp only [getR_tileEvent]; exact getR_setJournal ..
  · exact getR_setJournal ..
theorem markDirtyTile_progQueue (s : State) (r t : Nat) (st : TileSt) (f : Journal → Journal) : (markDirtyTile s r t st f).progQueue = s.progQueue := by
  unfold markDirtyTile
  simp only
  split <;> rfl

end Sys2Proof.Machine
end

