-- ==== Sys2Proof/Laws/Ridge.lean ====
section
/-!
SUPPORT. Lemmas about issue, slots, vector stores, page walks and the headroom guard, which the statements about ridge instructions rest on.
-/

namespace Sys2Proof.Laws

open Sys2Proof.Machine Sys2Proof.Safety

theorem issuable_iff {s : State} {r : Nat} {x : Ctx} {w : W128} {op : Nat} (h : issuable s r x w op = true) :
    opOf w = op ∧ canIssue s r x w = true ∧ issueFault s r x w = none := by
  simp only [issuable, Bool.and_eq_true, decide_eq_true_eq, Option.isNone_iff_eq_none] at h
  exact ⟨h.1.1, h.1.2, h.2⟩

theorem issued {s : State} {r : Nat} {x : Ctx} {w : W128} {op : Nat} {body : State → Iss} {t : State} (h : issuable s r x w op = true) (hb : body s = .next t) :
    issue s r x w op body = .next (settleCtx (advance t r x) r x) :=
  issue_next s t r x w op body (issuable_iff h).1 (issuable_iff h).2.1 (issuable_iff h).2.2 hb

theorem frame_settle {r : Nat} {s u : State} (x : Ctx) (h : IssueFrame r s u) : IssueFrame r s (settleCtx u r x) := by
  have k := settles_settleCtx u r x
  refine ⟨?_, fun q hq => (k.other q hq).trans (h.other q hq), ?_⟩
  · have h1 := h.state
    have k1 := k.state
    rw [k1]; rw [h1]
  · have h1 := h.ridge
    have k1 := k.ridge
    rw [k1]; rw [h1]

theorem frame_advance (s : State) (r : Nat) (x : Ctx) : IssueFrame r s (advance s r x) := by
  refine ⟨rfl, fun q hq => getR_updCtx_ne s r q x _ (Ne.symm hq), ?_⟩
  simp only [advance, getR_updCtx_self]
  cases x <;> rfl

theorem frame_push (s : State) (r : Nat) (x : Ctx) (e : Win) : IssueFrame r s (advance (pushWin s r e) r x) := by
  refine ⟨rfl, fun q hq => ?_, ?_⟩
  · simp only [advance, getR_updCtx_ne _ _ _ _ _ (Ne.symm hq), pushWin, getR_updR_ne _ _ _ _ (Ne.symm hq)]
  · simp only [advance, getR_updCtx_self, pushWin, getR_updR_self]
    cases x <;> rfl

theorem pc_settle (u : State) (r : Nat) (x : Ctx) : (ctxOf (getR (settleCtx u r x) r) x).pc = (ctxOf (getR u r) x).pc := (settles_settleCtx u r x).pc x

theorem pc_advance (s : State) (r : Nat) (x : Ctx) : (ctxOf (getR (advance s r x) r) x).pc = (ctxOf (getR s r) x).pc + 1 := by
  simp only [advance, getR_updCtx_self, ctxOf_setCtx_self]

theorem pc_push (s : State) (r : Nat) (x : Ctx) (e : Win) : (ctxOf (getR (pushWin s r e) r) x).pc = (ctxOf (getR s r) x).pc := by
  simp only [pushWin, getR_updR_self]; cases x <;> rfl

theorem nextId_settle (u : State) (r : Nat) (x : Ctx) : (getR (settleCtx u r x) r).nextId = (getR u r).nextId := by
  rw [(settles_settleCtx u r x).ridge]

theorem nextId_push (s : State) (r : Nat) (x : Ctx) (e : Win) : (getR (advance (pushWin s r e) r x) r).nextId = (getR s r).nextId + 1 := by
  simp only [advance, getR_updCtx_self, pushWin, getR_updR_self]; cases x <;> rfl

theorem nextId_advance (s : State) (r : Nat) (x : Ctx) : (getR (advance s r x) r).nextId = (getR s r).nextId := by
  simp only [advance, getR_updCtx_self]; cases x <;> rfl

theorem endPart_fields (r : Nat) (s : State) (c : W32) : (getR (endPart s r c) r).jobCtx.run = false ∧ (getR (endPart s r c) r).jobCtx.halted = some c ∧ (getR (endPart s r c) r).prefetch = [] := by
  unfold endPart
  simp only
  split
  · refine ⟨?_, ?_, ?_⟩ <;> (show _ ) <;> simp [getR, updJob, updR, setR]
  · simp

theorem countFired_win (r : Nat) (l : Lane) (s : State) : (getR (countFired s r l) r).win = (getR s r).win ∧ (getR (countFired s r l) r).nextId = (getR s r).nextId := by
  unfold countFired
  split
  · simp [updTile, updPos]
  · simp

theorem foldl_countFired (r : Nat) : ∀ (ls : List Lane) (s : State), (getR (ls.foldl (fun s l => countFired s r l) s) r).win = (getR s r).win ∧ (getR (ls.foldl (fun s l => countFired s r l) s) r).nextId = (getR s r).nextId := by
  intro ls
  induction ls with
  | nil => intro s; simp
  | cons a t ih => intro s; simp only [List.foldl_cons, (ih _).1, (ih _).2]; exact countFired_win r a s

theorem getR_updJob (s : State) (p : Nat) (id : W32) (f : Job → Job) (r : Nat) : getR (updJob s p id f) r = getR s r := rfl

theorem getR_raiseCoal (s : State) (a b c : Nat) (e : Ev) (r : Nat) : getR (raiseCoal s a b c e) r = getR s r := by
  unfold raiseCoal
  simp only
  split
  · split <;> rfl
  · rfl

theorem getR_guardClips (s : State) (r : Nat) (e : Win) (devs : List AdcDev) (q : Nat) : getR (guardClips s r e devs) q = getR s q := by
  unfold guardClips
  split
  · generalize e.lanes = l
    suffices h : ∀ (l : List Lane) (u : State), getR (l.foldl (fun s l =>
      if (if l.fired && !rdMode l.rdcfg then laneClips s r e devs l else 0) = 0 then s
      else raiseCoal s 2 2 (if l.fired && !rdMode l.rdcfg then laneClips s r e devs l else 0) (mkEv 0x06 0x05 r (partByte s r) (layFields 32 [(0, 1, r), (1, 1, l.tile), (2, 1, l.pos)]))) u) q = getR u q from h l s
    intro l
    induction l with
    | nil => intro u; rfl
    | cons a t ih =>
      intro u
      rw [List.foldl_cons, ih]
      by_cases h0 : (if (a.fired && !rdMode a.rdcfg) = true then laneClips u r e devs a else 0) = 0
      · rw [if_pos h0]
      · rw [if_neg h0, getR_raiseCoal]
  · rfl

theorem joins_spl {s : State} {r : Nat} {x : Ctx} {w : W128} {u : State} {o : Option Nat} {ws : List LRange} (h : Joins s r x 6400 (.spill r (slotNo w) (getR s r).nextId) u o) :
    splGo s r x w ws = .next (settleRidge (pushWin (setClosing u r (slotNo w) true) r { mkWin (getR s r) x w .waitSlot with writes := ws, rope := o }) r) := by
  rcases h with ⟨a, rfl, rfl⟩ | ⟨k, a, rfl⟩
  · simp [splGo, stageAs, a, mkWin]
  · have : (mkWin (getR s r) x w .waitSlot).id = (getR s r).nextId := rfl
    simp [splGo, this, a]

theorem rope_markDirty (s : State) (r : Nat) (x : Ctx) : ctxOf (getR (markDirty s r) r) x = ctxOf (getR s r) x := by
  unfold markDirty
  split <;> rfl

theorem imgFold (im : Image) : ∀ (l : List Nat) (sl : Slot),
    let k := l.foldl (fun k i => let e := entryOf (im.entries.getD i 0); commitAt k i ⟨e.val, e.sat, e.clip, e.scree, im.comps.getD i 0⟩) sl
    k.received = sl.received ∧ k.ledger = sl.ledger ∧ k.opened = sl.opened ∧ k.closing = sl.closing ∧
    k.pin = sl.pin ∧ k.gen = sl.gen ∧ k.len = sl.len ∧ k.exp = sl.exp ∧ k.expect = sl.expect := by
  intro l
  induction l with
  | nil => intro sl; simp
  | cons a t ih =>
    intro sl
    simp only [List.foldl_cons]
    have := ih (commitAt sl a ⟨(entryOf (im.entries.getD a 0)).val, (entryOf (im.entries.getD a 0)).sat, (entryOf (im.entries.getD a 0)).clip, (entryOf (im.entries.getD a 0)).scree, im.comps.getD a 0⟩)
    simpa [commitAt, putEntry] using this

theorem loamPut_outside (rd : RidgeSt) (o : Nat) (d : List Byte) (tag : W32) (r a : Nat) (h : a < o ∨ o + d.length ≤ a) :
    loamByte (loamPut rd o d tag) r a = loamByte rd r a := by
  unfold loamByte loamPut
  simp only
  rw [tget_tsetRun]
  have : ¬ (o ≤ a ∧ a < o + (d.map some).length) := by simp; omega
  rw [if_neg this]

theorem cduCuts_in : ∀ (f a len : Nat), ∀ c ∈ cduCutsAux f a len, a ≤ c.1 ∧ c.1 + c.2 ≤ a + len := by
  intro f
  induction f with
  | zero => intro a len c h; simp [cduCutsAux] at h
  | succ n ih =>
    intro a len c h
    unfold cduCutsAux at h
    split at h
    · simp at h
    · rcases List.mem_cons.mp h with rfl | h
      · first | (simp; omega) | simp
      · have := ih _ _ c h
        omega

theorem loamWrite_byte (rd : RidgeSt) (o : Nat) (d : List Byte) (tag : W32) (r a : Nat) (h : a < o ∨ o + d.length ≤ a) :
    loamByte (loamWrite rd o d tag).1 r a = loamByte rd r a := by
  unfold loamWrite
  have hc : ∀ c ∈ cduCuts o d.length, o ≤ c.1 ∧ c.1 + c.2 ≤ o + d.length := cduCuts_in _ _ _
  generalize cduCuts o d.length = l at hc
  suffices H : ∀ (l : List (Nat × Nat)) (acc : RidgeSt × List Nat), (∀ c ∈ l, o ≤ c.1 ∧ c.1 + c.2 ≤ o + d.length) →
    loamByte (l.foldl (fun (acc : RidgeSt × List Nat) (c : Nat × Nat) =>
      let piece := (d.drop (c.1 - o)).take c.2
      if c.2 = 256 then
        (loamPut { acc.1 with poison := tset false acc.1.poison (c.1 / 256) false } c.1 piece tag, acc.2)
      else if tget false acc.1.poison (c.1 / 256) then (acc.1, acc.2 ++ [c.1 / 256 * 256])
      else (loamPut acc.1 c.1 piece tag, acc.2)) acc).1 r a = loamByte acc.1 r a from H l (rd, []) hc
  intro l
  induction l with
  | nil => intro acc _; rfl
  | cons c t ih =>
    intro acc hh
    have h1 := hh c (by simp)
    rw [List.foldl_cons, ih _ (fun c hc => hh c (by simp [hc]))]
    have hl : ((d.drop (c.1 - o)).take c.2).length ≤ c.2 := by first | (simp; omega) | simp
    simp only
    split
    · rw [loamPut_outside _ _ _ _ _ _ (by omega)]; rfl
    · split
      · rfl
      · rw [loamPut_outside _ _ _ _ _ _ (by omega)]

theorem stLoam_good (s : State) (src : Nat) (o : LOp) (d : List Byte) (tag : W32) (h : (stLoam s src o d tag).2 = false) :
    (stLoam s src o d tag).1 = setR s o.ridge (loamWrite (getR s o.ridge) o.off d tag).1 := by
  unfold stLoam at *
  simp only at *
  have : (loamWrite (getR s o.ridge) o.off d tag).2 = [] := by simpa using h
  rw [this]; rfl

theorem stLoam_mono (src : Nat) (tag : W32) : ∀ (l : List (LOp × List Byte)) (acc : State × Bool),
    (l.foldl (fun (acc : State × Bool) w => ((stLoam acc.1 src w.1 w.2 tag).1, acc.2 || (stLoam acc.1 src w.1 w.2 tag).2)) acc).2 = false → acc.2 = false := by
  intro l
  induction l with
  | nil => intro acc h; exact h
  | cons a t ih =>
    intro acc h
    have := ih _ h
    simp only [Bool.or_eq_false_iff] at this
    exact this.1

theorem stLoams (src : Nat) (tag : W32) (q a : Nat) : ∀ (l : List (LOp × List Byte)) (acc : State × Bool),
    (l.foldl (fun (acc : State × Bool) w => ((stLoam acc.1 src w.1 w.2 tag).1, acc.2 || (stLoam acc.1 src w.1 w.2 tag).2)) acc).2 = false →
    Outside l q a →
    let u := l.foldl (fun (acc : State × Bool) w => ((stLoam acc.1 src w.1 w.2 tag).1, acc.2 || (stLoam acc.1 src w.1 w.2 tag).2)) acc
    loamByte (getR u.1 q) q a = loamByte (getR acc.1 q) q a := by
  intro l
  induction l with
  | nil => intro acc _ _; rfl
  | cons w t ih =>
    intro acc h ho
    have h1 := stLoam_mono src tag t _ h
    simp only [Bool.or_eq_false_iff] at h1
    have h2 := ih _ h (fun v hv => ho v (by simp [hv]))
    simp only [List.foldl_cons]
    refine h2.trans ?_
    rw [stLoam_good _ _ _ _ _ h1.2]
    by_cases hq : w.1.ridge = q
    · subst hq
      rw [getR_setR_self, loamWrite_byte _ _ _ _ _ _ (ho w (by simp) rfl)]
    · rw [getR_setR_ne _ _ _ _ hq]

theorem stLoams_state (src : Nat) (tag : W32) : ∀ (l : List (LOp × List Byte)) (acc : State × Bool),
    (l.foldl (fun (acc : State × Bool) w => ((stLoam acc.1 src w.1 w.2 tag).1, acc.2 || (stLoam acc.1 src w.1 w.2 tag).2)) acc).2 = false →
    let u := l.foldl (fun (acc : State × Bool) w => ((stLoam acc.1 src w.1 w.2 tag).1, acc.2 || (stLoam acc.1 src w.1 w.2 tag).2)) acc
    u.1 = { acc.1 with ridges := u.1.ridges } := by
  intro l
  induction l with
  | nil => intro acc _; rfl
  | cons w t ih =>
    intro acc h
    have h1 := stLoam_mono src tag t _ h
    simp only [Bool.or_eq_false_iff] at h1
    have h2 := ih _ h
    simp only [List.foldl_cons]
    simp only at h2
    rw [h2, stLoam_good _ _ _ _ _ h1.2]
    rfl

theorem addOutsat_state (s : State) (r : Nat) (x : Ctx) (n : Nat) : addOutsat s r x n = { s with jobs := (addOutsat s r x n).jobs } := by
  unfold addOutsat addCounts
  split <;> rfl

theorem getR_addOutsat (s : State) (r : Nat) (x : Ctx) (n q : Nat) : getR (addOutsat s r x n) q = getR s q := by
  rw [addOutsat_state]; rfl

theorem frame_loam {r : Nat} {s t : State} (h : IssueFrame r s t) (q a : Nat) : loamByte (getR t q) q a = loamByte (getR s q) q a := by
  by_cases hq : q = r
  · subst hq
    rw [h.ridge]; rfl
  · rw [h.other q hq]

theorem pw_ok {s : State} {id : Nat} {w : Walk} {j : Job} {g : Page} (h1 : s.mem.walks.find? (fun w => w.id = id) = some w) (h2 : findJob s w.part w.job = some j)
    (h3 : walkDva s w.part j w.dva w.access = .ok g) :
    pageWalk id s = fillTlb { s with mem := { s.mem with walks := s.mem.walks.filter (fun v => v.id ≠ id) } } w g := by
  simp only [pageWalk, h1, h2, h3]

theorem pw_fault {s : State} {id : Nat} {w : Walk} {j : Job} {c l : Nat} (h1 : s.mem.walks.find? (fun w => w.id = id) = some w) (h2 : findJob s w.part w.job = some j)
    (h3 : walkDva s w.part j w.dva w.access = .fault c l) :
    pageWalk id s =
     (if w.source = 3 then { s with mem := { s.mem with walks := s.mem.walks.filter (fun v => v.id ≠ id) } }
        else if w.source = 0 && decide (w.agent < 48) then ridgeMmu { s with mem := { s.mem with walks := s.mem.walks.filter (fun v => v.id ≠ id) } } srcWalker w.part j w.agent w.instr c w.dva w.access l
        else mmuFault { s with mem := { s.mem with walks := s.mem.walks.filter (fun v => v.id ≠ id) } } srcWalker w.part w.job w.source w.srcRidge c w.dva w.access l w.desc w.instr w.resume) := by
  simp only [pageWalk, h1, h2, h3]

theorem freeSlot_aads (u : State) (r k : Nat) : (freeSlot u r k).mem.aads = u.mem.aads := by
  have h := ropeWake_only (S := [.host, .jobs, .slots, .ridges, .col, .ropes]) (b0 := setSlot u r k { getSlot u r k with opened := false, closing := false, pin := false })
    (s := setSlot u r k { getSlot u r k with opened := false, closing := false, pin := false }) (Only.refl _) (Covers.self _) .path (by decide)
  have e := congrArg MemSys.aads h
  exact e

theorem range_find (f : Nat → Bool) : (List.range 4).find? f = if f 0 then some 0 else if f 1 then some 1 else if f 2 then some 2 else if f 3 then some 3 else none := by
  have : List.range 4 = [0, 1, 2, 3] := rfl
  rw [this]
  cases h0 : f 0 <;> cases h1 : f 1 <;> cases h2 : f 2 <;> cases h3 : f 3 <;> simp [List.find?, h0, h1, h2, h3]

theorem foldl_max_le {α : Type} (f : α → Nat) : ∀ (l : List α) (m : Nat), m ≤ l.foldl (fun a x => max a (f x)) m ∧ ∀ x, x ∈ l → f x ≤ l.foldl (fun a x => max a (f x)) m
  | [], m => ⟨Nat.le_refl _, fun x h => by cases h⟩
  | y :: l, m => by
    obtain ⟨h1, h2⟩ := foldl_max_le f l (max m (f y))
    refine ⟨Nat.le_trans (Nat.le_max_left ..) h1, fun x hx => ?_⟩
    rcases List.mem_cons.mp hx with rfl | hx
    · exact Nat.le_trans (Nat.le_max_right ..) h1
    · exact h2 x hx

theorem tfind_mem {α : Type} : ∀ (t : Tbl α) (k : Nat) (v : α), tfind t k = some v → (k, v) ∈ t
  | [], k, v, h => by cases h
  | (j, w) :: t, k, v, h => by
    unfold tfind at h
    split at h
    · rename_i e; cases h; subst e; exact List.mem_cons_self ..
    · exact List.mem_cons_of_mem _ (tfind_mem t k v h)

end Sys2Proof.Laws
end

