-- ==== Sys2Proof/Laws/Events.lean ====
section
/-!
SUPPORT. Lemmas about the Col, arbiters, probes, programming, power frames and links.
-/

namespace Sys2Proof.Laws

open Sys2Proof.Machine Sys2Proof.Safety

theorem raiseCoal_ropes (s : State) (a b c : Nat) (e : Ev) : (raiseCoal s a b c e).ropes = s.ropes ∧ (raiseCoal s a b c e).col.seq = s.col.seq ∧ (raiseCoal s a b c e).col.last = s.col.last := by
  unfold raiseCoal
  simp only
  split
  · split <;> exact ⟨rfl, rfl, rfl⟩
  · exact ⟨rfl, rfl, rfl⟩

theorem starve_col (s : State) (cls inst i w : Nat) : (starve s cls inst i w).col.seq = s.col.seq ∧ (starve s cls inst i w).col.last = s.col.last := by
  unfold starve
  simp only
  split
  · exact ⟨rfl, rfl⟩
  · exact (raiseCoal_ropes ..).2

theorem arbWait_col (s : State) (cls inst : Nat) (reqs : List Nat) (won : Option Nat) : (arbWait s cls inst reqs won).col.seq = s.col.seq ∧ (arbWait s cls inst reqs won).col.last = s.col.last := by
  unfold arbWait
  simp only
  generalize reqs.filter _ = l
  suffices H : ∀ (l : List Nat) (f : Nat → Nat) (u : State), (l.foldl (fun s i => starve s cls inst i (f i)) u).col.seq = u.col.seq ∧ (l.foldl (fun s i => starve s cls inst i (f i)) u).col.last = u.col.last from H l _ _
  intro l f
  induction l with
  | nil => intro u; exact ⟨rfl, rfl⟩
  | cons a t ih =>
    intro u
    rw [List.foldl_cons]
    exact ⟨(ih _).1.trans (starve_col ..).1, (ih _).2.trans (starve_col ..).2⟩

theorem mapOf_countFailed (s : State) (r p : Nat) : (getR (countFailed s r p) r).map = (getR s r).map := by
  unfold countFailed
  simp only
  split
  · simp; rfl
  · rfl

theorem suspectEvents_ridges (s : State) (a r p wp wf : Nat) : (suspectEvents s a r p wp wf).ridges = s.ridges := by
  unfold suspectEvents
  have hf : ∀ (l : List Summary) (u : State), (l.foldl (fun s m => suspectEvent s a r p wp wf m.job) u).ridges = u.ridges := by
    intro l
    induction l with
    | nil => intro u; rfl
    | cons b t ih => intro u; rw [List.foldl_cons, ih]; rfl
  simp only
  split
  · split
    · exact (by rw [show ∀ u, (suspectEvent u a r p wp wf 0).ridges = u.ridges from fun _ => rfl, hf])
    · exact hf _ _
  · exact hf _ _

theorem probeFailed_map (s : State) (r : Nat) (e : Win) (l : Lane) (pay : List Byte) (wp wf : Nat) :
    (getR (probeFailed s r e l pay wp wf) r).map = (getR (setMap s r l.pos (physOf (getR s r) l.pos) true) r).map := by
  have hr : ∀ u v : State, u.ridges = v.ridges → getR u r = getR v r := fun u v h => by unfold getR; rw [h]
  unfold probeFailed
  simp only
  have key : ∀ (n : State), (getR n r).map = (getR (setMap s r l.pos (physOf (getR s r) l.pos) true) r).map →
    (getR (queueRefresh n r l.pos 1) r).map = (getR (setMap s r l.pos (physOf (getR s r) l.pos) true) r).map := by
    intro n hn
    rw [← hn]
    unfold queueRefresh
    simp only [getR_updR_self]
    split <;> rfl
  have key2 : (getR (queueRefresh (markSuspects (countFailed (raise (if insertedProbe e = true then updCtx (updTile (setMap s r l.pos (physOf (getR s r) l.pos) true) r l.tile (fun t => { t with survey := none })) r .job (fun c => { c with run := false }) else updTile (setMap s r l.pos (physOf (getR s r) l.pos) true) r l.tile (fun t => { t with survey := none })) r 0x05 0x01 (partByte s r) pay) r l.pos) r l.pos wp wf (if insertedProbe e = true then (getR s r).job else none)) r l.pos 1) r).map = (getR (setMap s r l.pos (physOf (getR s r) l.pos) true) r).map := by
    apply key
    show (getR (countFailed _ r l.pos) r).map = _
    rw [mapOf_countFailed]
    show (getR (if insertedProbe e = true then _ else _) r).map = _
    split
    · simp [updTile, setCtx]
    · simp [updTile]
  split
  · rw [hr _ _ (suspectEvents_ridges ..)]; exact key2
  · exact key2

theorem testBit_inj_entry (e : Nat) (m sh : Nat) (he : e < 2 ^ 64) : (e / 2 ^ 22 * 2 ^ 22 + sh % 64 * 2 ^ 16 + min m 0xFFFF) % 2 ^ 64 = e / 2 ^ 22 * 2 ^ 22 + sh % 64 * 2 ^ 16 + min m 0xFFFF := by
  omega

theorem foldl_tset_other {α : Type} [DecidableEq α] (d : α) (k : Nat) (f : Nat → α) : ∀ (l : List Nat) (t : Tbl α), k ∉ l → tget d (l.foldl (fun h i => tset d h i (f i)) t) k = tget d t k := by
  intro l
  induction l with
  | nil => intro t _; rfl
  | cons a l ih =>
    intro t h
    rw [List.foldl_cons, ih _ (by simp_all), tget_tset_ne _ _ _ _ _ (by simp_all; exact fun e => h.1 e.symm)]

theorem frameBoard_eq (s : State) (mw : Nat) : frameBoard s mw = { s with col := (frameBoard s mw).col, pmu := { s.pmu with sustained := limitNext s.pmu.sustained (s.pmu.frames.foldl (· + ·) 0) ((sustainedLimits s).1 * s.pmu.frames.length) ((sustainedLimits s).2 * s.pmu.frames.length) } } := by
  unfold frameBoard
  simp only
  split
  · rw [powerLimit_eq]
  · rfl

theorem frameRidge_eq (d : List Nat) (s : State) (r : Nat) :
    let past := limitNext (tget false s.pmu.ridgeOver r) (domPower d r) (ridgeLimits s).1 (ridgeLimits s).2
    frameRidge d s r = { s with col := (frameRidge d s r).col, pmu := { s.pmu with ridgeOver := tset false s.pmu.ridgeOver r past, cut := tset 0 s.pmu.cut r (if past || s.pmu.sustained then min 16 (tget 0 s.pmu.cut r + 1) else tget 0 s.pmu.cut r - 1) } } := by
  intro past
  unfold frameRidge
  simp only [past]
  split
  · rw [powerLimit_eq]
  · rfl

theorem frameRidges (d : List Nat) : ∀ (l : List Nat) (s : State), l.Nodup →
    let t := l.foldl (frameRidge d) s
    t = { s with col := t.col, pmu := { s.pmu with ridgeOver := t.pmu.ridgeOver, cut := t.pmu.cut } } ∧
    (∀ r, let past := limitNext (tget false s.pmu.ridgeOver r) (domPower d r) (ridgeLimits s).1 (ridgeLimits s).2
      (r ∈ l → tget false t.pmu.ridgeOver r = past ∧ tget 0 t.pmu.cut r = (if past || s.pmu.sustained then min 16 (tget 0 s.pmu.cut r + 1) else tget 0 s.pmu.cut r - 1)) ∧
      (r ∉ l → tget false t.pmu.ridgeOver r = tget false s.pmu.ridgeOver r ∧ tget 0 t.pmu.cut r = tget 0 s.pmu.cut r)) := by
  intro l
  induction l with
  | nil => intro s _; exact ⟨rfl, fun r => ⟨fun h => absurd h (by simp), fun _ => ⟨rfl, rfl⟩⟩⟩
  | cons a l ih =>
    intro s hn
    simp only [List.foldl_cons]
    have h1 := frameRidge_eq d s a
    obtain ⟨i1, i2⟩ := ih (frameRidge d s a) (List.nodup_cons.mp hn).2
    have hl : ridgeLimits (frameRidge d s a) = ridgeLimits s := by rw [h1]; rfl
    simp only at h1 i1 i2
    refine ⟨by rw [i1, h1], fun r => ?_⟩
    obtain ⟨j1, j2⟩ := i2 r
    rw [hl] at j1
    have hu : (frameRidge d s a).pmu.sustained = s.pmu.sustained := by rw [h1]
    rw [hu] at j1
    refine ⟨fun h => ?_, fun h => ?_⟩
    · by_cases ha : r = a
      · subst ha
        obtain ⟨k1, k2⟩ := j2 (List.nodup_cons.mp hn).1
        rw [k1, k2, h1]
        simp
      · have hr : r ∈ l := by simpa [ha] using h
        obtain ⟨k1, k2⟩ := j1 hr
        have e1 : tget false (frameRidge d s a).pmu.ridgeOver r = tget false s.pmu.ridgeOver r := by
          rw [h1]; simp only; rw [tget_tset_ne _ _ _ _ _ (Ne.symm ha)]
        have e2 : tget 0 (frameRidge d s a).pmu.cut r = tget 0 s.pmu.cut r := by
          rw [h1]; simp only; rw [tget_tset_ne _ _ _ _ _ (Ne.symm ha)]
        rw [k1, k2, e1, e2]
        exact ⟨rfl, rfl⟩
    · have ha : r ≠ a := by intro e; subst e; simp at h
      obtain ⟨k1, k2⟩ := j2 (fun e => h (List.mem_cons_of_mem _ e))
      rw [k1, k2, h1]
      simp only
      rw [tget_tset_ne _ _ _ _ _ (Ne.symm ha), tget_tset_ne _ _ _ _ _ (Ne.symm ha)]
      exact ⟨rfl, rfl⟩

theorem frameEnd_pmu (s : State) (mv mw : Nat) : frameEnd s mv mw = { s with pmu := (frameEnd s mv mw).pmu } ∧ (frameEnd s mv mw).pmu.mv = s.pmu.mv ∧
    (frameEnd s mv mw).pmu.frames = s.pmu.frames ∧ (frameEnd s mv mw).pmu.sustained = s.pmu.sustained ∧ (frameEnd s mv mw).pmu.ridgeOver = s.pmu.ridgeOver ∧
    (frameEnd s mv mw).pmu.cut = s.pmu.cut ∧ (frameEnd s mv mw).pmu.peak = (if mw < 334800 then none else s.pmu.peak) := by
  unfold frameEnd
  cases hp : s.pmu.peak with
  | none =>
    simp only [Option.isSome_none, Bool.false_and, Bool.false_eq_true, if_false]
    split <;> simp [hp]
  | some v =>
    by_cases hm : mw < 334800
    · simp only [Option.isSome_some, hm, decide_true, Bool.and_self, if_true]
      split <;> simp
    · simp only [hm, decide_false, Bool.and_false, Bool.false_eq_true, if_false]
      split <;> simp [hp]

theorem linkOf_setLink (s : State) (n : Nat) (l : LinkSt) : linkOf (setLink s n l) n = l := by simp [linkOf, setLink]

theorem links_coal (s : State) (a b c : Nat) (e : Ev) : (raiseCoal s a b c e).links = s.links := by rw [raiseCoal_eq]

theorem linkOf_congr {s t : State} (h : t.links = s.links) (n : Nat) : linkOf t n = linkOf s n := by unfold linkOf; rw [h]

theorem linkEvent_link (s : State) (n c : Nat) : linkOf (linkEvent s n c) n = (if linkCoalesced c then linkOf s n else { linkOf s n with dropped := 0 }) := by
  unfold linkEvent; simp only
  split
  · exact linkOf_congr (links_coal _ _ _ _ _) n
  · exact linkOf_setLink _ _ _

theorem linkEvent_sent (s : State) (n c : Nat) : (linkEvent s n c).links.sent = s.links.sent := by
  unfold linkEvent; simp only
  split
  · rw [links_coal]
  · rfl

theorem countReplays_link (s : State) (n k : Nat) {β} (g : LinkSt → β) (h1 : ∀ l a b, g { l with replayed := a, replays := b } = g l) (h2 : ∀ l, g { l with dropped := 0 } = g l) :
    g (linkOf (countReplays s n k) n) = g (linkOf s n) := by
  unfold countReplays; simp only
  split
  · rw [linkEvent_link]; split
    · rw [linkOf_setLink, h1]
    · rw [linkOf_setLink, h2, h1]
  · rw [linkOf_setLink, h1]

theorem countReplays_sent (s : State) (n k : Nat) : (countReplays s n k).links.sent = s.links.sent := by
  unfold countReplays; simp only
  split
  · rw [linkEvent_sent]; rfl
  · rfl

theorem takeAck_link (s : State) (n a : Nat) {β} (g : LinkSt → β) (h1 : ∀ l x y z w, g { l with acked := x, txSeq := y, replays := z, lastAck := w } = g l) : g (linkOf (takeAck s n a) n) = g (linkOf s n) := by
  unfold takeAck; simp only
  split
  · rfl
  · rw [linkOf_setLink, h1]

theorem arrives {s : State} {n ty : Nat} {f : Frame} (h : Arrives s n ty f) (hk : knownType ty = true) (hm : mgmtType ty = false) : arrive s n ty f = some (s, true) := by
  obtain ⟨h1, h2, h3, h4⟩ := h
  unfold arrive
  rw [if_neg (by rw [h2]; simp [h1]), if_neg (by rw [h2]; simp [hk]), if_neg (by simp [h2]), if_neg (by simp [h3]), if_neg (by simp [h4]), if_neg (by simp [hm])]

end Sys2Proof.Laws
end

