-- ==== Sys2Proof/Laws/Device.lean ====
section
/-!
SUPPORT. Lemmas about power domains, boot, Prorvafort and jobs.
-/

namespace Sys2Proof.Laws

open Sys2Proof.Machine Sys2Proof.Safety

theorem getDom_setDom_self (s : State) (d : Nat) (v : Dom) : getDom (setDom s d v) d = v := by simp [getDom, setDom]

theorem getDom_setDom_ne (s : State) (d e : Nat) (v : Dom) (h : e ≠ d) : getDom (setDom s d v) e = getDom s e := by
  simp [getDom, setDom, tget_tset_ne _ _ _ _ _ (Ne.symm h)]

theorem domStart_eq (s : State) (d : Nat) : domStart s d = { s with pmu := { s.pmu with dom := (domStart s d).pmu.dom } } := by
  unfold domStart; simp only; split; · rfl
  split <;> rfl

theorem domStart_ne (s : State) (d e : Nat) (h : e ≠ d) : getDom (domStart s d) e = getDom s e := by
  unfold domStart; simp only; split; · exact getDom_setDom_ne _ _ _ _ h
  split; · exact getDom_setDom_ne _ _ _ _ h
  rfl

theorem powerRequest_eq (s : State) (d : Nat) (on : Bool) : powerRequest s d on = { s with pmu := { s.pmu with dom := (powerRequest s d on).pmu.dom } } := by
  unfold powerRequest; rw [domStart_eq]; rfl

theorem earlier_ne (d : Nat) : ∀ e ∈ earlierDoms d, e ≠ d := by
  intro e he; unfold earlierDoms at he; split at he
  · simp at he; rename_i h; simp at h; omega
  · simp at he

theorem later_ne (d : Nat) : ∀ e ∈ laterDoms d, e ≠ d := by
  intro e he; unfold laterDoms at he; split at he
  · simp at he; rename_i h; simp at h; omega
  · simp at he

theorem domOn_setDom_ne (s : State) (d e : Nat) (v : Dom) (h : e ≠ d) : domOn (setDom s d v) e = domOn s e := by
  have := getDom_setDom_ne s d e v h
  unfold getDom at this
  simp [domOn, this]

theorem all_congr' {α} (l : List α) (f g : α → Bool) (h : ∀ a ∈ l, f a = g a) : l.all f = l.all g := by
  induction l with
  | nil => rfl
  | cons a l ih => simp [h a (by simp), ih (fun b hb => h b (by simp [hb]))]

theorem request_st (s : State) (d : Nat) (on : Bool) : getDom (powerRequest s d on) d =
    (let x := getDom s d
     if x.st = .off && on && (earlierDoms d).all (domOn s) then ⟨.poweringUp, on, s.now⟩
     else if x.st = .on && !on && (laterDoms d).all (fun e => (getDom s e).st = .off) then ⟨.poweringDown, on, s.now⟩ else { x with target := on }) := by
  unfold powerRequest domStart
  simp only [getDom_setDom_self]
  rw [all_congr' (earlierDoms d) (domOn (setDom s d _)) (domOn s) (fun e he => domOn_setDom_ne _ _ _ _ (earlier_ne d e he))]
  rw [all_congr' (laterDoms d) (fun e => decide ((getDom (setDom s d _) e).st = .off)) (fun e => decide ((getDom s e).st = .off)) (fun e he => by rw [getDom_setDom_ne _ _ _ _ (later_ne d e he)])]
  split
  · rw [getDom_setDom_self]; rfl
  split
  · rw [getDom_setDom_self]; rfl
  · rw [getDom_setDom_self]

theorem request_ne (s : State) (d e : Nat) (on : Bool) (h : e ≠ d) : getDom (powerRequest s d on) e = getDom s e := by
  unfold powerRequest; rw [domStart_ne _ _ _ h, getDom_setDom_ne _ _ _ _ h]

theorem domStart_fold_keep (d : Nat) (v : Dom) (hv : (v.st = .on ∧ v.target = true) ∨ (v.st = .off ∧ v.target = false)) : ∀ (l : List Nat) (s : State), getDom s d = v → getDom (l.foldl domStart s) d = v := by
  intro l
  induction l with
  | nil => intro s h; exact h
  | cons a l ih =>
    intro s h
    apply ih
    by_cases ha : d = a
    · subst ha
      unfold domStart
      simp only [h]
      rcases hv with ⟨h1, h2⟩ | ⟨h1, h2⟩ <;> simp [h1, h2, h]
    · rw [domStart_ne _ _ _ ha]; exact h

theorem domStart_fold_ridges : ∀ (l : List Nat) (s : State), (l.foldl domStart s).ridges = s.ridges := by
  intro l
  induction l with
  | nil => intro s; rfl
  | cons a l ih => intro s; rw [List.foldl_cons, ih, domStart_eq]

theorem domFresh_pmu (s : State) (d : Nat) : (domFresh s d).pmu = s.pmu := by
  unfold domFresh
  split
  · split
    · rfl
    · split <;> rfl
  · split
    · simp [List.foldl]; rfl
    · rfl

theorem tget_map {α} (d : α) (f : α → α) (l : Tbl α) (k : Nat) : tget d (l.map (fun x => (x.1, f x.2))) k = if (tfind l k).isSome then f (tget d l k) else d := by
  unfold tget
  induction l with
  | nil => rfl
  | cons x l ih =>
    obtain ⟨j, v⟩ := x
    simp only [List.map_cons, tfind]
    split
    · simp
    · exact ih

theorem tget_map' {α β} (d : α) (f : α → α) (g : α → β) (hg : g (f d) = g d) (l : Tbl α) (k : Nat) : g (tget d (l.map (fun x => (x.1, f x.2))) k) = g (f (tget d l k)) := by
  rw [tget_map]; split
  · rfl
  · rename_i h
    have : tget d l k = d := by unfold tget; cases h2 : tfind l k <;> simp_all
    rw [this, hg]

theorem slotImage_sec {s t : State} (h : t.sec.slotA = s.sec.slotA ∧ t.sec.slotB = s.sec.slotB) (b : Bool) : slotImage t b = slotImage s b := by
  unfold slotImage; rw [h.1, h.2]

theorem bedrock_none (s : State) (a b : Bool) : bedrock s a b = none ↔ ((a && (slotImage s false).isSome) || (b && (slotImage s true).isSome)) = false := by
  unfold bedrock
  cases hf : slotImage s false <;> cases ht : slotImage s true <;> cases a <;> cases b <;> cases h : s.sec.selB <;> simp [h, hf, ht]

theorem bedrock_some {s s2 : State} {a b : Bool} (h : bedrock s a b = some s2) : ((a && (slotImage s false).isSome) || (b && (slotImage s true).isSome)) = true := by
  cases hk : ((a && (slotImage s false).isSome) || (b && (slotImage s true).isSome)) with
  | true => rfl
  | false => rw [(bedrock_none s a b).mpr hk] at h; cases h

theorem boot_facts (s : State) (a b : Bool) : (bootable s = false → boot s a b = s) ∧
    (bootable s = true → let ok := (a && (slotImage s false).isSome) || (b && (slotImage s true).isSome)
      (boot s a b).cmc.fw = (if ok then .running else .authFail) ∧ (ok = true → (boot s a b).cmc.watchdog = true ∧ (boot s a b).cmc.resetAt = none ∧ (boot s a b).cmc.lastBeat = (boot s a b).cmc.runningAt)) := by
  refine ⟨fun h => by unfold boot; simp [h], fun h => ?_⟩
  intro ok
  unfold boot
  simp only [h, Bool.not_true, Bool.false_eq_true, if_false]
  split
  · rename_i h2
    rw [bedrock_none] at h2
    have h3 : ok = false := h2
    simp [h3]
  · rename_i s2 h2
    have h3 := bedrock_some h2
    replace h3 : ok = true := h3
    simp only [powerEvent]
    rw [raise_eq]
    simp only [h3]
    unfold bootEnd
    rw [pinSync_eq]
    simp

theorem stopEngine_facts (s : State) (r : Nat) : stopEngine s r = { s with ridges := (stopEngine s r).ridges, progQueue := (stopEngine s r).progQueue } ∧ (getR (stopEngine s r) r).engine = none ∧ (∀ q, (getR s q).engine = none → (getR (stopEngine s r) q).engine = none) := by
  unfold stopEngine
  split
  · refine ⟨rfl, ?_, fun q h => ?_⟩
    · exact congrArg RidgeSt.engine (getR_updR_self s r (fun rd => { rd with engine := none }))
    · by_cases hq : q = r
      · subst hq; exact congrArg RidgeSt.engine (getR_updR_self s q (fun rd => { rd with engine := none }))
      · exact (congrArg RidgeSt.engine (getR_updR_ne s r q (fun rd => { rd with engine := none }) (Ne.symm hq))).trans h
  · rename_i h; exact ⟨rfl, h, fun q h => h⟩

theorem stopEngines : ∀ (l : List Nat) (s : State),
    l.foldl stopEngine s = { s with ridges := (l.foldl stopEngine s).ridges, progQueue := (l.foldl stopEngine s).progQueue } ∧ (∀ r, r ∈ l ∨ (getR s r).engine = none → (getR (l.foldl stopEngine s) r).engine = none) := by
  intro l
  induction l with
  | nil => intro s; exact ⟨rfl, fun r h => by simpa using h⟩
  | cons a l ih =>
    intro s
    simp only [List.foldl_cons]
    obtain ⟨i1, i2⟩ := ih (stopEngine s a)
    obtain ⟨h1, h2, h3⟩ := stopEngine_facts s a
    refine ⟨by rw [i1, h1], fun r hr => i2 r ?_⟩
    rcases hr with hr | hr
    · rcases List.mem_cons.mp hr with rfl | hr
      · exact .inr h2
      · exact .inl hr
    · exact .inr (h3 r hr)

theorem startRap_cmc (s : State) (scope id tag : Nat) (port : Option Port) (fn : Nat) (why : RapWhy) : (startRap s scope id tag port fn why).cmc = s.cmc := rfl

theorem stall_facts (s : State) (st : FwSt) (why : RapWhy) : (stall s st why).cmc = { s.cmc with fw := st, busyReset := true } ∧ (stall s st why).col.rappels.length = s.col.rappels.length + 1 := by
  unfold stall
  rw [pinSync_eq]
  refine ⟨rfl, ?_⟩
  show (s.col.rappels ++ [_]).length = _
  simp

theorem secondStall_facts (s : State) : (secondStall s).cmc = { s.cmc with fw := .fault, busyReset := true, watchdog := false, resetAt := none } ∧ (secondStall s).col.rappels.length = s.col.rappels.length + 1 := by
  unfold secondStall
  rw [attnBoth_eq]
  exact stall_facts _ _ _

theorem bedrock_cmc (s s1 : State) (a b : Bool) (h : bedrock s a b = some s1) : s1.cmc = s.cmc ∧ s1.now = s.now := by
  unfold bedrock at h
  cases hf : slotImage s false <;> cases ht : slotImage s true <;> cases a <;> cases b <;> cases hs : s.sec.selB <;> simp [hs, hf, ht] at h <;> (subst h; exact ⟨rfl, rfl⟩)

theorem foldl_cmc {α} (f : State → α → State) (h : ∀ s a, (f s a).cmc = s.cmc) : ∀ (l : List α) (s : State), (l.foldl f s).cmc = s.cmc := by
  intro l; induction l with
  | nil => intro s; rfl
  | cons a l ih => intro s; rw [List.foldl_cons, ih, h]

theorem orphanTiles_cmc (s : State) : (orphanTiles s).cmc = s.cmc := by
  unfold orphanTiles
  refine foldl_cmc _ (fun s r => foldl_cmc _ (fun s t => ?_) _ _) _ _
  simp only
  split
  · split <;> rfl
  · split <;> rfl

theorem restartScrubs_cmc (s : State) : (restartScrubs s).cmc = s.cmc := by
  unfold restartScrubs
  refine foldl_cmc _ (fun s p => ?_) _ _
  split <;> rfl

theorem getPort_hrdySync (s : State) (p : Port) : (getPort (hrdySync s p) p).hrdy =
   (let x := getPort s p; if x.hrdy && hrdyCause s p && decide (x.hrdySince + 300 ≤ s.now) then false else if !x.hrdy && !hrdyCause s p && decide (x.hrdySince + 600 ≤ s.now) then true else x.hrdy) := by
  unfold hrdySync
  simp only
  split
  · cases p <;> rfl
  split
  · cases p <;> rfl
  · rfl

theorem findJob_part {s : State} {p : Nat} {id : W32} {j : Job} (h : findJob s p id = some j) : j.part = p ∧ j.id = id := by
  have := List.find?_some h
  simpa using this

theorem findJob_dropJob (s : State) (p : Nat) (id : W32) : findJob (dropJob s p id) p id = none := by
  unfold findJob dropJob
  simp only [List.find?_eq_none, List.mem_filter]
  intro x hx
  intro hc
  have h2 := hx.2
  simp only [hc, Bool.not_true] at h2
  cases h2

theorem finishJob_gone (s : State) (j : Job) (extra : List Nat) : findJob (finishJob s j extra) j.part j.id = none := by
  unfold finishJob
  simp only
  rw [pinSync_eq]
  exact findJob_dropJob _ _ _

theorem endJob_gone (s : State) (j : Job) (extra : List Nat) : findJob (endJob s j extra) j.part j.id = none := by
  unfold endJob
  simp only
  split
  · rename_i k hk
    obtain ⟨h1, h2⟩ := findJob_part hk
    rw [← h1, ← h2]
    exact finishJob_gone _ _ _
  · rename_i hk; exact hk

theorem foldl_jobs {α} (f : State → α → State) (h : ∀ s a, (f s a).jobs = s.jobs) : ∀ (l : List α) (s : State), (l.foldl f s).jobs = s.jobs := by
  intro l; induction l with
  | nil => intro s; rfl
  | cons a l ih => intro s; rw [List.foldl_cons, ih, h]

theorem loadTables_jobs (s : State) (r p h k : Nat) : (loadTables s r p h k).jobs = s.jobs := by
  unfold loadTables
  split
  · rfl
  · have hs : (stashTables s r).jobs = s.jobs := by unfold stashTables; split; · split <;> rfl
                                                    rfl
    simp only
    split
    · exact hs
    · exact hs

theorem keepStates_jobs (s : State) (r p h : Nat) (l : List Region) : (keepStates s r p h l).jobs = s.jobs := by
  unfold keepStates
  split
  · rfl
  · refine foldl_jobs _ (fun s g => ?_) _ _
    split
    · rfl
    · split
      · rfl
      · simp only; split <;> rfl

theorem startRegions_jobs (s : State) (r p h k : Nat) (x : ProgRidge) : (startRegions s r p h k x).jobs = s.jobs := by
  unfold startRegions
  show State.jobs (List.foldl _ _ _) = _
  rw [foldl_jobs]
  · exact keepStates_jobs _ _ _ _ _
  · intro s q
    split
    · rfl
    · split
      · split <;> rfl
      · rfl

theorem startRidge_jobs (s : State) (j : Job) (h : Option CairnHalf) (k r : Nat) : (startRidge s j h k r).jobs = s.jobs := by
  unfold startRidge
  split
  · rfl
  · have hs : ∀ x, (startRegions (loadTables s r j.part j.prog k) r j.part j.prog k x).jobs = s.jobs := fun x => by rw [startRegions_jobs, loadTables_jobs]
    simp only
    split
    · unfold restoreCopy
      show State.jobs (List.foldl _ _ _) = _
      rw [foldl_jobs]
      · exact hs _
      · intro s q; split <;> rfl
    · exact hs _

theorem leave_fold : ∀ (l : List Nat) (s : State) (r : Nat), r ∈ l ∨ (getR s r).job = none → (getR (l.foldl (fun s r => updR s r leaveRidge) s) r).job = none := by
  intro l
  induction l with
  | nil => intro s r h; simpa using h
  | cons a l ih =>
    intro s r h
    rw [List.foldl_cons]
    apply ih
    rcases h with h | h
    · rcases List.mem_cons.mp h with rfl | h
      · right; rw [getR_updR_self]; rfl
      · exact .inl h
    · right
      by_cases ha : a = r
      · subst ha; rw [getR_updR_self]; rfl
      · rw [getR_updR_ne _ _ _ _ ha]; exact h

theorem getFn_updFn_ne' (s : State) (p : Port) (f h : Nat) (g : FnRegs → FnRegs) (hh : h ≠ f) : getFn (updFn s p f g) p h = getFn s p h := by
  have : fnKey p f ≠ fnKey p h := by cases p <;> simp [fnKey] <;> omega
  simp [getFn, updFn, tget_tupd_ne _ _ _ _ _ this]

theorem getPort_updPort (s : State) (p : Port) (g : PortSt → PortSt) : getPort (updPort s p g) p = g (getPort s p) := by cases p <;> rfl

theorem hrdySync_attn (s : State) (p : Port) {β} (g : PortSt → β) (hg : ∀ t b n, g { t with hrdy := b, hrdySince := n } = g t) (q : Port) : g (getPort (hrdySync s p) q) = g (getPort s q) := by
  unfold hrdySync; simp only
  split
  · cases p <;> cases q <;> simp [getPort, updPort, hg]
  split
  · cases p <;> cases q <;> simp [getPort, updPort, hg]
  · rfl

theorem pinSync_port (s : State) {β} (g : PortSt → β) (hg : ∀ t b n, g { t with hrdy := b, hrdySince := n } = g t) (q : Port) : g (getPort (pinSync s) q) = g (getPort s q) := by
  unfold pinSync; rw [hrdySync_attn _ _ g hg, hrdySync_attn _ _ g hg]

theorem getQ_hrdySync (s : State) (p : Port) (q : QId) : getQ (hrdySync s p) q = getQ s q := by
  unfold hrdySync; simp only
  split
  · cases p <;> rcases q with (_ | _) | _ <;> rfl
  split
  · cases p <;> rcases q with (_ | _) | _ <;> rfl
  · rfl

theorem getQ_pinSync (s : State) (q : QId) : getQ (pinSync s) q = getQ s q := by unfold pinSync; rw [getQ_hrdySync, getQ_hrdySync]

theorem fns_hrdySync (s : State) (p : Port) : (hrdySync s p).host.fns = s.host.fns := by
  unfold hrdySync; simp only
  split
  · cases p <;> rfl
  split
  · cases p <;> rfl
  · rfl

theorem fns_pinSync (s : State) : (pinSync s).host.fns = s.host.fns := by unfold pinSync; rw [fns_hrdySync, fns_hrdySync]

theorem setQ_eq (s : State) (q : QId) (v : Queue) : setQ s q v = { s with host := (setQ s q v).host } := by
  rcases q with (_ | _) | _ <;> rfl

theorem getQ_updPort (s : State) (p : Port) (g : PortSt → PortSt) (q : QId) : getQ (updPort s p g) q = getQ s q := by
  cases p <;> rcases q with (_ | _) | _ <;> rfl

theorem boolBit_lt (b : Bool) (i : Nat) : boolBit b i ≤ 2 ^ i := by unfold boolBit; split <;> simp

theorem ctrl_bits (a b : Bool) : bitAt (BitVec.ofNat 32 (boolBit a 0 + boolBit b 1)) 0 = a ∧ bitAt (BitVec.ofNat 32 (boolBit a 0 + boolBit b 1)) 1 = b := by
  revert a b; decide

theorem cfg_bit30 (a b : Bool) (x y z : Nat) (hx : x < 64) (hy : y < 16) (hz : z < 16) :
    bitAt (BitVec.ofNat 32 (boolBit a 31 + boolBit b 30 + x * 2 ^ 16 + y * 2 ^ 8 + z)) 30 = b := by
  unfold bitAt boolBit
  rw [Nat.testBit_eq_decide_div_mod_eq]
  simp only [BitVec.toNat_ofNat]
  cases a <;> cases b <;> simp <;> omega

end Sys2Proof.Laws
end

