-- ==== Sys2Proof/Laws/Host.lean ====
section
/-!
SUPPORT. Lemmas about ports, queues, Rappels, the admission of Ewesy commands and sessions.
-/

namespace Sys2Proof.Laws

open Sys2Proof.Machine Sys2Proof.Safety

theorem bit0_off (c : W32) : bitAt (c &&& ~~~ 1) 0 = false := by
  show (c &&& ~~~ 1).getLsbD 0 = false
  simp

theorem getQ_updQ_self (s : State) (q : QId) (f : Queue → Queue) : getQ (updQ s q f) q = f (getQ s q) := getQ_setQ_self _ _ _

theorem getFn_startRap (s : State) (p : Port) (f a b c : Nat) (o : Option Port) (d : Nat) (w : RapWhy) : getFn (startRap s a b c o d w) p f = getFn s p f := rfl

theorem getFn_pinSync (s : State) (p : Port) (f : Nat) : getFn (pinSync s) p f = getFn s p f := by unfold getFn; rw [fns_pinSync]

theorem rap_col (s : State) : (pinSync s).col = s.col := by rw [pinSync_eq]

theorem foldl_host {β} (g : State → β) {α} (f : State → α → State) (h : ∀ s a, g (f s a) = g s) : ∀ (l : List α) (s : State), g (l.foldl f s) = g s := by
  intro l; induction l with
  | nil => intro s; rfl
  | cons a l ih => intro s; rw [List.foldl_cons, ih, h]

theorem getPort_updQ_io (s : State) (n : Nat) (f : Queue → Queue) (q : Port) : getPort (updQ s (.io n) f) q = getPort s q := by cases q <;> rfl

theorem getQ_updQ_io (s : State) (n : Nat) (f : Queue → Queue) (q : Port) : getQ (updQ s (.io n) f) (.admin q) = getQ s (.admin q) := by cases q <;> rfl

theorem tdiFail_host (s : State) (p : Nat) : (tdiFail s p).host = s.host := by
  unfold tdiFail; simp only; split <;> rfl

theorem tdiError_host (s : State) (p : Nat) : (tdiError s p).host = s.host := by
  unfold tdiError; split
  · exact tdiFail_host _ _
  · rfl

theorem tdiFail_raps (s : State) (p : Nat) : ∃ l, (tdiFail s p).col.rappels = s.col.rappels ++ l := by
  unfold tdiFail; simp only; split
  · exact ⟨[], by simp⟩
  · exact ⟨_, rfl⟩

theorem sendMsix_port (s : State) (p : Port) (f v : Nat) (q : Port) : getPort (sendMsix s p f v) q = getPort s q := by
  unfold sendMsix; repeat (first | rfl | (cases q <;> rfl) | split)

theorem setAttn_port (s : State) (p : Port) (i : Nat) {β} (g : PortSt → β) (hg : ∀ t b n, g { t with hrdy := b, hrdySince := n } = g t) (q : Port) :
    g (getPort (setAttn s p i) q) = g (if q = p then { getPort s p with attn := (getPort s p).attn ||| BitVec.ofNat 32 (2 ^ i) } else getPort s q) := by
  unfold setAttn
  simp only
  rw [hrdySync_attn _ _ g hg]
  have h : getPort (updPort s p (fun t => { t with attn := t.attn ||| BitVec.ofNat 32 (2 ^ i) })) q = (if q = p then { getPort s p with attn := (getPort s p).attn ||| BitVec.ofNat 32 (2 ^ i) } else getPort s q) := by
    cases p <;> cases q <;> rfl
  split
  · rw [sendMsix_port, h]
  · rw [h]

theorem getQ_sendMsix (s : State) (p : Port) (f v : Nat) (q : QId) : getQ (sendMsix s p f v) q = getQ s q := by
  rcases q with (_ | _) | _ <;> (unfold sendMsix; repeat (first | rfl | split))

theorem getQ_setAttn (s : State) (p : Port) (i : Nat) (q : QId) : getQ (setAttn s p i) q = getQ s q := by
  unfold setAttn
  simp only
  rw [getQ_hrdySync]
  split
  · rw [getQ_sendMsix, getQ_updPort]
  · rw [getQ_updPort]

theorem attn_bit (w : W32) : bitAt (w ||| BitVec.ofNat 32 (2 ^ 2)) 2 = true := by
  show (w ||| BitVec.ofNat 32 (2 ^ 2)).getLsbD 2 = true
  simp

theorem other_ne (p : Port) : otherPort p ≠ p ∧ p ≠ otherPort p := by cases p <;> decide

theorem resolve_same (v : Rec) (c : Copy) (h : (resolveRec v).1 = some c) : ((resolveRec (resolveRec v).2.1).1) = some c := by
  cases h0 : copyValid v.c0 <;> cases h1 : copyValid v.c1
  · simp [resolveRec, h0, h1] at h
  · simp [resolveRec, h0, h1] at h ⊢; exact h
  · simp [resolveRec, h0, h1] at h ⊢; exact h
  · by_cases e1 : v.c0.seq = v.c1.seq
    · by_cases e2 : v.c0.data = v.c1.data
      · simp [resolveRec, h0, h1, e1, e2] at h ⊢; exact h
      · simp [resolveRec, h0, h1, e1, e2] at h ⊢; exact h
    · cases e2 : seqNewer v.c0.seq v.c1.seq
      · simp [resolveRec, h0, h1, e1, e2] at h ⊢; exact h
      · simp [resolveRec, h0, h1, e1, e2] at h ⊢; exact h

theorem adm {s : State} {q : QId} {cid : W16} {k : CmdKind} {ch : Cmd → List (Bool × Nat)} {c : Cmd} (h : Admitted s q cid k ch c) (body : Cmd → State) :
    withCmd s q cid k ch body = .next (body c) ∧ withOrdered s q cid k ch body = .next (body c) := by
  obtain ⟨h1, h2⟩ := h
  simp only [List.all_append, Bool.and_eq_true, List.all_eq_true, Bool.not_eq_eq_eq_not, Bool.not_true] at h2
  obtain ⟨h2, h3⟩ := h2
  have g1 : (gateChecks s c k).any (fun x => x.1) = false := by
    rw [List.any_eq_false]; intro x hx; simp [h2 x hx]
  have g2 : (gateChecks s c k).any (fun x => x.1 && decide (x.2 = stPermit)) = false := by
    rw [List.any_eq_false]; intro x hx; simp [h2 x hx]
  have c1 : (ch c).any (fun x => x.1) = false := by
    rw [List.any_eq_false]; intro x hx; simp [h3 x hx]
  have f1 : firstFail (ch c) = none := by
    unfold firstFail
    rw [List.find?_eq_none.mpr]; · rfl
    intro x hx; simp [h3 x hx]
  unfold withCmd withOrdered
  simp only [h1, g2, Bool.false_eq_true, if_false, List.any_append, g1, c1, Bool.or_self, f1, and_self]

theorem admC {s : State} {q : QId} {cid : W16} {k : CmdKind} {ch : Cmd → List (Bool × Nat)} {c : Cmd} (h : Admitted s q cid k ch c) {body : Cmd → State} : withCmd s q cid k ch body = .next (body c) := (adm h body).1

theorem admO {s : State} {q : QId} {cid : W16} {k : CmdKind} {ch : Cmd → List (Bool × Nat)} {c : Cmd} (h : Admitted s q cid k ch c) {body : Cmd → State} : withOrdered s q cid k ch body = .next (body c) := (adm h body).2

theorem adm_check {s : State} {q : QId} {cid : W16} {k : CmdKind} {ch : Cmd → List (Bool × Nat)} {c : Cmd} (h : Admitted s q cid k ch c) (x : Bool × Nat) (hx : x ∈ ch c) : x.1 = false := by
  obtain ⟨_, h2⟩ := h
  simp only [List.all_append, Bool.and_eq_true, List.all_eq_true] at h2
  simpa using h2.2 x hx

theorem srcQueue_pinSync (s : State) (k : Nat) : srcQueue (pinSync s) k = srcQueue s k := by unfold srcQueue; rw [pinSync_eq]

theorem cmds_hrdySync (s : State) (p : Port) : (hrdySync s p).host.cmds = s.host.cmds := by
  unfold hrdySync; simp only
  split
  · cases p <;> rfl
  split
  · cases p <;> rfl
  · rfl

theorem cmds_pinSync (s : State) : (pinSync s).host.cmds = s.host.cmds := by unfold pinSync; rw [cmds_hrdySync, cmds_hrdySync]

theorem findProg_unload (s : State) (p h : Nat) : findProg (unloadProg s p h) p h = none := by
  unfold unloadProg findProg
  have e := getP_updP_self s p (fun t => { t with progs := t.progs.filter (fun g => g.handle ≠ h) })
  simp only
  rw [List.find?_eq_none]
  unfold getP updP setP at e ⊢
  dsimp only at e ⊢
  rw [e]
  intro g hg
  simp at hg ⊢
  exact hg.2

theorem startTest_facts (s : State) (r tests stress : Nat) (id : W32) :
    (getR (startTest s r tests stress id) r).test.running = true ∧ (getR (startTest s r tests stress id) r).test.tests = tests := by
  unfold startTest updTest
  simp only
  rw [getR_updR_self]
  exact ⟨rfl, rfl⟩

theorem doe {s : State} {p : Port} {f : State → State} (h : doeUp s p = true) : doeReq s p f = .next (f s) := by simp [doeReq, h]

theorem sess {s : State} {p : Port} {sid : Nat} {v : Sess} {f : Sess → State} (h : doeUp s p = true) (h1 : findSess s p sid = some v) (h2 : v.established = true) : inSession s p sid f = .next (f v) := by
  unfold inSession; rw [doe h]; simp [h1, h2]

theorem findSess_set (s : State) (p : Port) (sid : Nat) (v : Option Sess) : findSess (setSess s p sid v) p sid = v := by
  have h : ∀ (t : Tbl (Option Sess)), (tfind (tset none t sid v) sid).bind id = v := by
    intro t; unfold tset; cases v with
    | none => simp [tfind_terase_self]
    | some w => simp [tfind_tput_self]
  cases p <;> exact h _

theorem getIde_setIde (s : State) (k : Nat) (v : IdeSlot) : getIde (setIde s k v) k = v := by simp [getIde, setIde]

theorem tdi {s : State} {p : Port} {sid : Nat} {v : Sess} {n : Nat} {f : Part → State} (h : doeUp s p = true) (h1 : findSess s p sid = some v) (h2 : v.established = true)
    (h3 : (getP s n).st = .active) (h4 : (getP s n).port = p) (h5 : (getP s n).tdi ≠ .none) : tdiReq s p sid n f = .next (f (getP s n)) := by
  unfold tdiReq; rw [sess h h1 h2]; simp [h3, h4, h5]

end Sys2Proof.Laws
end

