-- ==== Sys2Proof/Laws/KeptOps.lean ====
section
/-!
SUPPORT. For every operation of the block that answers a state, that it keeps the queue, the clocks and the canonical form of the byte memories (Kept of Laws/Kept.lean), each from the lemmas of the operations it calls.
-/

namespace Sys2Proof.Machine

open Sys2Proof.Safety

variable {b0 : State}

theorem bootRidge_loam {s : State} {r : Nat} {rd : RidgeSt} (h : LoamOk rd) : LoamOk (bootRidge s r rd) := h
theorem freshDigital_loam {rd : RidgeSt} (h : LoamOk rd) : LoamOk (freshDigital rd) := by
  unfold freshDigital
  repeat' (first
    | exact h
    | split)
theorem freshLoam_loam {rd : RidgeSt} (_ : LoamOk rd) : LoamOk (freshLoam rd) := rfl
theorem freshRidge_loam {rd : RidgeSt} {p : Nat} {id : W32} {pc : Nat} (h : LoamOk rd) : LoamOk (freshRidge rd p id pc) := by
  unfold freshRidge
  repeat' (first
    | exact h
    | split)
theorem leaveRidge_loam {rd : RidgeSt} (h : LoamOk rd) : LoamOk (leaveRidge rd) := by
  unfold leaveRidge
  repeat' (first
    | exact h
    | split)
theorem loamJunk_loam {rd : RidgeSt} {o n gen : Nat} (h : LoamOk rd) : LoamOk (loamJunk rd o n gen) := twf_filter none _ _ h
theorem loamPut_loam {rd : RidgeSt} {o : Nat} {d : List Byte} {tag : W32} (h : LoamOk rd) : LoamOk (loamPut rd o d tag) := twf_tsetRun none _ _ _ h
theorem resetRidge_loam {s : State} {rd : RidgeSt} (_ : LoamOk rd) : LoamOk (resetRidge s rd) := rfl
theorem ringConsume_loam {rd : RidgeSt} {off : Nat} (h : LoamOk rd) : LoamOk (ringConsume rd off) := by
  unfold ringConsume
  split
  · dsimp only
    split <;> exact h
  · exact h
theorem setCtx_loam {rd : RidgeSt} {x : Ctx} {c : CtxSt} (h : LoamOk rd) : LoamOk (setCtx rd x c) := by
  unfold setCtx
  repeat' (first
    | exact h
    | split)
theorem writeInactive_loam {rd : RidgeSt} {t : Nat} {fs : List FoldEnt} (h : LoamOk rd) : LoamOk (writeInactive rd t fs) := by
  unfold writeInactive
  dsimp only
  split <;> exact h
theorem zeroRidge_loam {rd : RidgeSt} (_ : LoamOk rd) : LoamOk (zeroRidge rd) := rfl
theorem updWin_kept {s : State} {r id : Nat} {f : Win → Win} (hk : Kept b0 s) : Kept b0 (updWin s r id f) := by
  unfold updWin
  repeat' (first
    | (with_reducible first | assumption | refine updR_kept ?_ ?_)
    | intro _ h; exact h)
theorem setRope_kept {s : State} {e : Nat} {v : Rope} (hk : Kept b0 s) : Kept b0 (setRope s e v) := by
  unfold setRope
  repeat' (first
    | (with_reducible first | assumption | exact fun h => h)
    | (simp only [Kept.fields]; with_reducible refine Kept.upd ?_ ?_ ?_ ?_ ?_))
theorem enq_kept {s : State} {k : Nat} {q : Req} (hk : Kept b0 s) : Kept b0 (enq s k q) := by
  unfold enq
  repeat' (first
    | (with_reducible first | assumption | exact fun h => h)
    | (simp only [Kept.fields]; with_reducible refine Kept.upd ?_ ?_ ?_ ?_ ?_))
theorem updPort_kept {s : State} {p : Port} {g : PortSt → PortSt} (hk : Kept b0 s) : Kept b0 (updPort s p g) := by
  unfold updPort
  repeat' (first
    | (with_reducible first | assumption | exact fun h => h)
    | (simp only [Kept.fields]; with_reducible refine Kept.upd ?_ ?_ ?_ ?_ ?_)
    | intro h; exact h
    | split)
theorem hrdySync_kept {s : State} {p : Port} (hk : Kept b0 s) : Kept b0 (hrdySync s p) := by
  unfold hrdySync
  dsimp only
  repeat' (first
    | (with_reducible first | assumption | refine updPort_kept ?_)
    | split)
theorem pinSync_kept {s : State} (hk : Kept b0 s) : Kept b0 (pinSync s) := by
  unfold pinSync
  repeat' (first
    | (with_reducible first | assumption | refine hrdySync_kept ?_))
theorem useFree_kept {s : State} (hk : Kept b0 s) : Kept b0 (useFree s) := by
  unfold useFree
  repeat' (first
    | (with_reducible first | assumption | exact fun h => h)
    | (simp only [Kept.fields]; with_reducible refine Kept.upd ?_ ?_ ?_ ?_ ?_))
theorem enqCore_kept {s : State} {q : Req} (hk : Kept b0 s) : Kept b0 (enqCore s q) := by
  unfold enqCore
  repeat' (first
    | (with_reducible first | assumption | refine useFree_kept ?_ | refine enq_kept ?_))
theorem postCqe_kept {s : State} {c : Cqe} (hk : Kept b0 s) : Kept b0 (postCqe s c) := by
  unfold postCqe
  repeat' (first
    | (with_reducible first | assumption | refine enqCore_kept ?_))
theorem dropCmd_kept {s : State} {n : Nat} (hk : Kept b0 s) : Kept b0 (dropCmd s n) := by
  unfold dropCmd
  repeat' (first
    | (with_reducible first | assumption | exact fun h => h)
    | (simp only [Kept.fields]; with_reducible refine Kept.upd ?_ ?_ ?_ ?_ ?_)
    | intro h; exact h)
theorem complete2_kept {s : State} {c : Cmd} {status res res2 : Nat} (hk : Kept b0 s) : Kept b0 (complete2 s c status res res2) := by
  unfold complete2
  repeat' (first
    | (with_reducible first | assumption | refine pinSync_kept ?_ | refine postCqe_kept ?_ | refine dropCmd_kept ?_))
theorem complete_kept {s : State} {c : Cmd} {status res : Nat} (hk : Kept b0 s) : Kept b0 (complete s c status res) := by
  unfold complete
  repeat' (first
    | (with_reducible first | assumption | refine complete2_kept ?_))
theorem completeAt_kept {s : State} {q : QId} {cid : W16} {status res : Nat} (hk : Kept b0 s) : Kept b0 (completeAt s q cid status res) := by
  unfold completeAt
  repeat' (first
    | (with_reducible first | assumption | refine complete_kept ?_)
    | split)
theorem ropeWhyFailed_kept {s : State} {w : RopeWhy} (hk : Kept b0 s) : Kept b0 (ropeWhyFailed s w) := by
  unfold ropeWhyFailed
  repeat' (first
    | (with_reducible first | assumption | refine completeAt_kept ?_)
    | split)
theorem ropeUnwind_kept {s : State} {r : Nat} {x : Ctx} {e : Nat} {again count : Bool} (hk : Kept b0 s) : Kept b0 (ropeUnwind s r x e again count) := by
  unfold ropeUnwind
  refine setR_kept hk (fun h => LoamOk.setCtx (LoamOk.foldl (fun rd w g => ?_) _ _ ?_))
  · split <;> exact g
  · exact h r
theorem raise_kept {s : State} {src ty cause part : Nat} {payload : List Byte} (hk : Kept b0 s) : Kept b0 (raise s src ty cause part payload) := by
  unfold raise
  repeat' (first
    | (with_reducible first | assumption | refine enq_kept ?_))
theorem updCtx_kept {s : State} {r : Nat} {x : Ctx} {f : CtxSt → CtxSt} (hk : Kept b0 s) : Kept b0 (updCtx s r x f) := by
  unfold updCtx
  repeat' (first
    | (with_reducible first | assumption | refine updR_kept ?_ ?_)
    | exact fun _ h => setCtx_loam h)
theorem updJob_kept {s : State} {p : Nat} {id : W32} {f : Job → Job} (hk : Kept b0 s) : Kept b0 (updJob s p id f) := by
  unfold updJob
  repeat' (first
    | (with_reducible first | assumption | exact fun h => h)
    | (simp only [Kept.fields]; with_reducible refine Kept.upd ?_ ?_ ?_ ?_ ?_))
theorem streamFault_kept {s : State} {r : Nat} {x : Ctx} {code idx : Nat} (hk : Kept b0 s) : Kept b0 (streamFault s r x code idx) := by
  unfold streamFault
  repeat' (first
    | (with_reducible first | assumption | refine updCtx_kept ?_ | refine updJob_kept ?_ | refine raise_kept ?_)
    | split)
theorem ropeAbort_kept {s : State} {e cause fault holder : Nat} (hk : Kept b0 s) : Kept b0 (ropeAbort s e cause fault holder) := by
  unfold ropeAbort
  dsimp only
  repeat' (first
    | (with_reducible first | assumption | refine setRope_kept ?_ | refine ropeWhyFailed_kept ?_ | refine ropeUnwind_kept ?_ | refine raise_kept ?_ | refine streamFault_kept ?_)
    | (with_reducible refine Kept.foldl (fun _ _ _ => ?_) _ _ ?_) <;> try dsimp only
    | split)
theorem tryLock_kept {s : State} {e : Nat} (hk : Kept b0 s) : Kept b0 (tryLock s e) := by
  unfold tryLock
  dsimp only
  repeat' (first
    | (with_reducible first | assumption | refine setRope_kept ?_ | refine enq_kept ?_ | refine ropeAbort_kept ?_)
    | split)
theorem ropeWake_kept {s : State} (hk : Kept b0 s) : Kept b0 (ropeWake s) := by
  unfold ropeWake
  repeat' (first
    | (with_reducible first | assumption | refine tryLock_kept ?_)
    | (with_reducible refine Kept.foldl (fun _ _ _ => ?_) _ _ ?_) <;> try dsimp only)
theorem setSlot_kept {s : State} {r k : Nat} {v : Slot} (hk : Kept b0 s) : Kept b0 (setSlot s r k v) := by
  unfold setSlot
  repeat' (first
    | (with_reducible first | assumption | refine updR_kept ?_ ?_)
    | intro _ h; exact h)
theorem freeSlot_kept {s : State} {r k : Nat} (hk : Kept b0 s) : Kept b0 (freeSlot s r k) := by
  unfold freeSlot
  repeat' (first
    | (with_reducible first | assumption | refine ropeWake_kept ?_ | refine setSlot_kept ?_))
theorem askWalks_kept {s : State} {pages : List Nat} {mk : Nat → Walk} (hk : Kept b0 s) : Kept b0 (askWalks s pages mk) := by
  unfold askWalks
  repeat' (first
    | (with_reducible first | assumption | exact fun h => h)
    | (simp only [Kept.fields]; with_reducible refine Kept.upd ?_ ?_ ?_ ?_ ?_)
    | (with_reducible refine Kept.foldl (fun _ _ _ => ?_) _ _ ?_) <;> try dsimp only
    | split)
theorem mmuFault_kept {s : State} {src p : Nat} {id : W32} {source srcRidge cause addr access level desc instr resume : Nat} (hk : Kept b0 s) : Kept b0 (mmuFault s src p id source srcRidge cause addr access level desc instr resume) := by
  unfold mmuFault
  repeat' (first
    | (with_reducible first | assumption | refine updJob_kept ?_ | refine raise_kept ?_ | exact fun h => h)
    | (simp only [Kept.fields]; with_reducible refine Kept.upd ?_ ?_ ?_ ?_ ?_)
    | split)
theorem ridgeMmu_kept {s : State} {src p : Nat} {j : Job} {r idx c d acc l : Nat} (hk : Kept b0 s) : Kept b0 (ridgeMmu s src p j r idx c d acc l) := by
  unfold ridgeMmu
  dsimp only
  repeat' (first
    | (with_reducible first | assumption | refine mmuFault_kept ?_ | refine streamFault_kept ?_)
    | split)
theorem ridgePlaces_kept {s : State} {p : Nat} {j : Job} {r dva len acc idx : Nat} (hk : Kept b0 s) : DvaAll (Kept b0) (ridgePlaces s p j r dva len acc idx) := by
  unfold ridgePlaces
  repeat' (first
    | (with_reducible first | assumption | refine useFree_kept ?_ | refine askWalks_kept ?_ | refine ridgeMmu_kept ?_ | refine DvaAll.intro_wait ?_)
    | exact trivial
    | split)
theorem maddrPlaces_kept {s : State} {r : Nat} {j : Job} {m len acc idx : Nat} (hk : Kept b0 s) : WhereAll (Kept b0) (maddrPlaces s r j m len acc idx) := by
  unfold maddrPlaces
  repeat' (first
    | (with_reducible first | assumption | refine DvaAll.wait (ridgePlaces_kept ?_) (by assumption) | refine WhereAll.intro_wait ?_)
    | exact trivial
    | split)
theorem setLink_kept {s : State} {n : Nat} {l : LinkSt} (hk : Kept b0 s) : Kept b0 (setLink s n l) := by
  unfold setLink
  repeat' (first
    | (with_reducible first | assumption | exact fun h => h)
    | (simp only [Kept.fields]; with_reducible refine Kept.upd ?_ ?_ ?_ ?_ ?_))
theorem sendFrame_kept {s : State} {n : Nat} {f : Frame} (hk : Kept b0 s) : Kept b0 (sendFrame s n f) := by
  unfold sendFrame
  repeat' (first
    | (with_reducible first | assumption | refine setLink_kept ?_ | exact fun h => h)
    | (simp only [Kept.fields]; with_reducible refine Kept.upd ?_ ?_ ?_ ?_ ?_))
theorem setTag_kept {s : State} {t : Nat} {o : Option Outstanding} (hk : Kept b0 s) : Kept b0 (setTag s t o) := by
  unfold setTag
  repeat' (first
    | (with_reducible first | assumption | exact fun h => h)
    | (simp only [Kept.fields]; with_reducible refine Kept.upd ?_ ?_ ?_ ?_ ?_))
theorem sendReq_kept {s : State} {o : Outstanding} (hk : Kept b0 s) : OptAll (Kept b0) (sendReq s o) := by
  unfold sendReq
  split
  · exact OptAll.intro (sendFrame_kept (setTag_kept hk))
  · trivial
theorem updPos_kept {s : State} {r p : Nat} {f : PosSt → PosSt} (hk : Kept b0 s) : Kept b0 (updPos s r p f) := by
  unfold updPos
  repeat' (first
    | (with_reducible first | assumption | refine updR_kept ?_ ?_)
    | intro _ h; exact h)
theorem askProbes_kept {s : State} {l : List (Nat × Nat × Nat)} (hk : Kept b0 s) : Kept b0 (askProbes s l) := by
  unfold askProbes
  repeat' (first
    | (with_reducible first | assumption | refine updPos_kept ?_)
    | (with_reducible refine Kept.foldl (fun _ _ _ => ?_) _ _ ?_) <;> try dsimp only)
theorem holdWrite_kept {s : State} {j : Job} {w : EgressWrite} (hk : Kept b0 s) : Kept b0 (holdWrite s j w) := by
  unfold holdWrite
  repeat' (first
    | (with_reducible first | assumption | refine updJob_kept ?_ | refine askProbes_kept ?_))
theorem peerSend_kept {s : State} {j : Job} {o : Outstanding} (hk : Kept b0 s) : OptAll (Kept b0) (peerSend s j o) := by
  unfold peerSend
  repeat' (first
    | (with_reducible first | assumption | refine sendReq_kept ?_ | refine holdWrite_kept ?_ | refine OptAll.intro ?_)
    | split)
theorem addAtomic_kept {s : State} {j : Job} {r win : Nat} {op : AtomOp} {pl : Place} {hdr : Option Place} {d : List Byte} {dva : Nat} (hk : Kept b0 s) :
    Kept b0 (addAtomic s j r win op pl hdr d dva) := by
  have hw : ∀ (m : MemSys), m.dram = s.mem.dram → Kept b0 { s with mem := m } := fun m e => Kept.upd (t := s) hk (fun h => h) (fun h => h) (fun h => e ▸ h) (fun h => h)
  unfold addAtomic
  dsimp only
  split
  · exact (peerSend_kept hk).getD (hw _ rfl)
  · exact hw _ rfl
theorem aadImage_kept {s : State} {r : Nat} {j : Job} {w : Win} (hk : Kept b0 s) : Kept b0 (aadImage s r j w) := by
  unfold aadImage
  dsimp only
  repeat' (first
    | (with_reducible first | assumption | refine updWin_kept ?_ | refine freeSlot_kept ?_ | refine WhereAll.wait (maddrPlaces_kept ?_) (by assumption) | refine addAtomic_kept ?_)
    | (with_reducible refine Kept.foldl (fun _ _ _ => ?_) _ _ ?_) <;> try dsimp only
    | split)
theorem peerSendAll_kept {s : State} {j : Job} {l : List Outstanding} (hk : Kept b0 s) : OptAll (Kept b0) (peerSendAll s j l) := by
  unfold peerSendAll
  suffices ∀ (l : List Outstanding) (o : Option State), OptAll (Kept b0) o → OptAll (Kept b0) (l.foldl _ o) from this l (some s) hk
  intro l
  induction l with
  | nil => exact fun _ h => h
  | cons x l ih =>
    intro o h
    refine ih _ ?_
    cases o with
    | none => trivial
    | some t => exact peerSend_kept h
theorem raiseInteg_kept {s : State} {src cause part loc unit pos : Nat} {job : W32} {addr w : Nat} (hk : Kept b0 s) : Kept b0 (raiseInteg s src cause part loc unit pos job addr w) := by
  unfold raiseInteg
  repeat' (first
    | (with_reducible first | assumption | refine raise_kept ?_))
theorem dramPut_kept {s : State} {pa : Nat} {d : List Byte} (hk : Kept b0 s) : Kept b0 (dramPut s pa d) :=
  Kept.upd (t := s) hk id id (twf_tsetRun 0 _ _ _) id
theorem dramPoison_kept {s : State} {pa : Nat} {v : Bool} (hk : Kept b0 s) : Kept b0 (dramPoison s pa v) := by
  unfold dramPoison
  repeat' (first
    | (with_reducible first | assumption | exact fun h => h)
    | (simp only [Kept.fields]; with_reducible refine Kept.upd ?_ ?_ ?_ ?_ ?_))
theorem dramWrite_kept {s : State} {pa : Nat} {d : List Byte} (hk : Kept b0 s) : Kept b0 (dramWrite s pa d).1 := by
  unfold dramWrite
  repeat' (first
    | (with_reducible first | assumption | refine dramPut_kept ?_ | refine dramPoison_kept ?_)
    | (with_reducible refine Kept.foldl_fst (fun _ _ _ => ?_) _ _ ?_) <;> try dsimp only
    | split)
theorem writePieces_kept {s : State} {src p : Nat} {job : W32} {ps : List Piece} {d : List Byte} (hk : Kept b0 s) : Kept b0 (writePieces s src p job ps d).1 := by
  unfold writePieces
  repeat' (first
    | (with_reducible first | assumption | refine raiseInteg_kept ?_ | refine dramWrite_kept ?_)
    | (with_reducible refine Kept.foldl (fun _ _ _ => ?_) _ _ ?_) <;> try dsimp only
    | (with_reducible refine Kept.foldl_fst (fun _ _ _ => ?_) _ _ ?_) <;> try dsimp only
    | split)
theorem faultAt_kept {s : State} {r : Nat} {x : Ctx} {code idx : Nat} (hk : Kept b0 s) : Kept b0 (faultAt s r x code idx) := by
  unfold faultAt
  repeat' (first
    | (with_reducible first | assumption | refine streamFault_kept ?_ | refine ropeAbort_kept ?_)
    | split)
theorem execFault_kept {s : State} {r : Nat} {e : Win} {code : Nat} (hk : Kept b0 s) : Kept b0 (execFault s r e code) := by
  unfold execFault
  repeat' (first
    | (with_reducible first | assumption | refine faultAt_kept ?_)
    | split)
theorem stLoam_kept {s : State} {src : Nat} {o : LOp} {d : List Byte} {tag : W32} (hk : Kept b0 s) : Kept b0 (stLoam s src o d tag).1 :=
  Kept.foldl (fun _ _ h => raiseInteg_kept h) _ _ (setR_kept hk (fun h => (h o.ridge : LoamOk (getR s o.ridge)).loamWrite))
theorem addCounter_kept {s : State} {p : Nat} {job : W32} {r cnt : Nat} {v : W32} (hk : Kept b0 s) : Kept b0 (addCounter s p job r cnt v) := by
  unfold addCounter
  repeat' (first
    | (with_reducible first | assumption | refine updJob_kept ?_ | refine updR_kept ?_ ?_)
    | intro _ h; exact h
    | split)
theorem sendSig_kept {s : State} {p : Nat} {id : W32} {r q cnt : Nat} {v : W32} {win : Nat} (hk : Kept b0 s) : Kept b0 (sendSig s p id r q cnt v win) := by
  unfold sendSig
  repeat' (first
    | (with_reducible first | assumption | refine addCounter_kept ?_ | exact fun h => h)
    | (simp only [Kept.fields]; with_reducible refine Kept.upd ?_ ?_ ?_ ?_ ?_)
    | split)
theorem dropWin_kept {s : State} {r id : Nat} (hk : Kept b0 s) : Kept b0 (dropWin s r id) := by
  unfold dropWin
  repeat' (first
    | (with_reducible first | assumption | refine updR_kept ?_ ?_)
    | intro _ h; exact h)
theorem fireSig_kept {s : State} {r : Nat} {w : Win} (hk : Kept b0 s) : Kept b0 (fireSig s r w) := by
  unfold fireSig
  repeat' (first
    | (with_reducible first | assumption | refine updWin_kept ?_ | refine sendSig_kept ?_ | refine dropWin_kept ?_ | refine updR_kept ?_ ?_)
    | intro _ h; exact h
    | split)
theorem endPart_kept {s : State} {r : Nat} {code : W32} (hk : Kept b0 s) : Kept b0 (endPart s r code) := by
  unfold endPart
  repeat' (first
    | (with_reducible first | assumption | refine updJob_kept ?_ | refine updR_kept ?_ ?_)
    | intro _ h; exact h
    | split)
theorem settleCtxAux_kept {r : Nat} {x : Ctx} : ∀ (n : Nat) {s : State}, Kept b0 s → Kept b0 (settleCtxAux n s r x)
  | 0, _, hk => hk
  | n + 1, s, hk => by
    unfold settleCtxAux
    split
    · exact hk
    · split
      · exact settleCtxAux_kept n (fireSig_kept hk)
      · split
        · split
          · exact endPart_kept (dropWin_kept hk)
          · exact updCtx_kept (dropWin_kept hk)
        · exact hk
theorem settleCtx_kept {s : State} {r : Nat} {x : Ctx} (hk : Kept b0 s) : Kept b0 (settleCtx s r x) := settleCtxAux_kept _ hk
theorem retire_kept {s : State} {r id : Nat} (hk : Kept b0 s) : Kept b0 (retire s r id) := by
  unfold retire
  repeat' (first
    | (with_reducible first | assumption | refine settleCtx_kept ?_ | refine dropWin_kept ?_)
    | split)
theorem splDone_kept {s : State} {r : Nat} {w : Win} (hk : Kept b0 s) : Kept b0 (splDone s r w) := by
  unfold splDone
  dsimp only
  repeat' (first
    | (with_reducible first | assumption | refine OptAll.of_some (peerSendAll_kept ?_) (by assumption) | refine writePieces_kept ?_ | refine updWin_kept ?_ | refine execFault_kept ?_ | refine stLoam_kept ?_ | refine freeSlot_kept ?_ | refine DvaAll.wait (ridgePlaces_kept ?_) (by assumption) | refine retire_kept ?_)
    | split)
theorem aadReady_kept {s : State} {r : Nat} {w : Win} (hk : Kept b0 s) : Kept b0 (aadReady s r w) := by
  unfold aadReady
  repeat' (first
    | (with_reducible first | assumption | refine updWin_kept ?_ | refine aadImage_kept ?_ | refine freeSlot_kept ?_ | exact fun h => h)
    | (simp only [Kept.fields]; with_reducible refine Kept.upd ?_ ?_ ?_ ?_ ?_)
    | split)
theorem settleWin_kept {r : Nat} {s : State} {id : Nat} (hk : Kept b0 s) : Kept b0 (settleWin r s id) := by
  unfold settleWin
  repeat' (first
    | (with_reducible first | assumption | refine splDone_kept ?_ | refine aadReady_kept ?_)
    | split)
theorem settleRidge_kept {s : State} {r : Nat} (hk : Kept b0 s) : Kept b0 (settleRidge s r) := by
  unfold settleRidge
  repeat' (first
    | (with_reducible first | assumption | refine settleWin_kept ?_)
    | (with_reducible refine Kept.foldl (fun _ _ _ => ?_) _ _ ?_) <;> try dsimp only)
theorem markDirty_kept {s : State} {r : Nat} (hk : Kept b0 s) : Kept b0 (markDirty s r) := by
  unfold markDirty
  repeat' (first
    | (with_reducible first | assumption | refine updJob_kept ?_)
    | split)
theorem setClosing_kept {s : State} {r k : Nat} {b : Bool} (hk : Kept b0 s) : Kept b0 (setClosing s r k b) := by
  unfold setClosing
  repeat' (first
    | (with_reducible first | assumption | refine setSlot_kept ?_))
theorem pushWin_kept {s : State} {r : Nat} {w : Win} (hk : Kept b0 s) : Kept b0 (pushWin s r w) := by
  unfold pushWin
  repeat' (first
    | (with_reducible first | assumption | refine updR_kept ?_ ?_)
    | intro _ h; exact h)
theorem aadImageGo_kept {s : State} {r : Nat} {x : Ctx} {w : W128} {ws : List LRange} (hk : Kept b0 s) : IssAll (Kept b0) (aadImageGo s r x w ws) := by
  unfold aadImageGo
  repeat' (first
    | (with_reducible first | assumption | refine settleRidge_kept ?_ | refine markDirty_kept ?_ | refine setClosing_kept ?_ | refine pushWin_kept ?_ | refine IssAll.intro_next ?_))
theorem aadSlotBody_kept {r : Ridge} {x : Ctx} {w : W128} {s : State} (hk : Kept b0 s) : IssAll (Kept b0) (aadSlotBody r x w s) := by
  unfold aadSlotBody
  dsimp only
  repeat' (first
    | (with_reducible first | assumption | refine settleRidge_kept ?_ | refine setClosing_kept ?_ | refine aadImageGo_kept ?_ | refine DvaAll.wait (ridgePlaces_kept ?_) (by assumption) | refine pushWin_kept ?_ | refine IssAll.intro_next ?_ | refine IssAll.intro_stay ?_)
    | exact trivial
    | split)
theorem vecAtomics_kept {s : State} {j : Job} {r : Nat} {w : W128} {id : Nat} {l : List (Place × Nat)} {d : List Byte} (hk : Kept b0 s) : Kept b0 (vecAtomics s j r w id l d) := by
  unfold vecAtomics
  repeat' (first
    | (with_reducible first | assumption | refine addAtomic_kept ?_)
    | (with_reducible refine Kept.foldl_fst (fun _ _ _ => ?_) _ _ ?_) <;> try dsimp only)
theorem aadVecBody_kept {r : Ridge} {x : Ctx} {w : W128} {s : State} (hk : Kept b0 s) : IssAll (Kept b0) (aadVecBody r x w s) := by
  unfold aadVecBody
  dsimp only
  repeat' (first
    | (with_reducible first | assumption | refine markDirty_kept ?_ | refine WhereAll.wait (maddrPlaces_kept ?_) (by assumption) | refine vecAtomics_kept ?_ | refine pushWin_kept ?_ | refine IssAll.intro_next ?_ | refine IssAll.intro_stay ?_)
    | exact trivial
    | split)
theorem setP_kept {s : State} {p : Nat} {v : Part} (hk : Kept b0 s) : Kept b0 (setP s p v) := by
  unfold setP
  repeat' (first
    | (with_reducible first | assumption | exact fun h => h)
    | (simp only [Kept.fields]; with_reducible refine Kept.upd ?_ ?_ ?_ ?_ ?_))
theorem updP_kept {s : State} {p : Nat} {f : Part → Part} (hk : Kept b0 s) : Kept b0 (updP s p f) := by
  unfold updP
  repeat' (first
    | (with_reducible first | assumption | refine setP_kept ?_))
theorem dropJob_kept {s : State} {p : Nat} {id : W32} (hk : Kept b0 s) : Kept b0 (dropJob s p id) := by
  unfold dropJob
  repeat' (first
    | (with_reducible first | assumption | exact fun h => h)
    | (simp only [Kept.fields]; with_reducible refine Kept.upd ?_ ?_ ?_ ?_ ?_))
theorem finishJob_kept {s : State} {j : Job} {extra : List Nat} (hk : Kept b0 s) : Kept b0 (finishJob s j extra) := by
  unfold finishJob
  repeat' (first
    | (with_reducible first | assumption | refine pinSync_kept ?_ | refine postCqe_kept ?_ | refine updP_kept ?_ | refine dropJob_kept ?_ | refine dropCmd_kept ?_)
    | split)
theorem dropWork_kept {s : State} {p : Nat} {id : W32} (hk : Kept b0 s) : Kept b0 (dropWork s p id) := by
  unfold dropWork
  repeat' (first
    | (with_reducible first | assumption | exact fun h => h)
    | (simp only [Kept.fields]; with_reducible refine Kept.upd ?_ ?_ ?_ ?_ ?_))
theorem ropeDrop_kept {s : State} {e : Nat} (hk : Kept b0 s) : Kept b0 (ropeDrop s e) := by
  unfold ropeDrop
  dsimp only
  repeat' (first
    | (with_reducible first | assumption | refine setRope_kept ?_)
    | split)
theorem ropeKill_kept {s : State} {e cause : Nat} (hk : Kept b0 s) : Kept b0 (ropeKill s e cause) := by
  unfold ropeKill
  repeat' (first
    | (with_reducible first | assumption | refine ropeDrop_kept ?_ | refine ropeAbort_kept ?_)
    | split)
theorem clearJob_kept {s : State} {j : Job} (hk : Kept b0 s) : Kept b0 (clearJob s j) := by
  unfold clearJob
  repeat' (first
    | (with_reducible first | assumption | refine dropWork_kept ?_ | refine ropeWake_kept ?_ | refine ropeKill_kept ?_ | refine updR_kept ?_ ?_ | exact fun h => h)
    | (simp only [Kept.fields]; with_reducible refine Kept.upd ?_ ?_ ?_ ?_ ?_)
    | (with_reducible refine Kept.foldl (fun _ _ _ => ?_) _ _ ?_) <;> try dsimp only
    | intro _ h; exact h)
theorem endJob_kept {s : State} {j : Job} {extra : List Nat} (hk : Kept b0 s) : Kept b0 (endJob s j extra) := by
  unfold endJob
  dsimp only
  repeat' (first
    | (with_reducible first | assumption | refine finishJob_kept ?_ | refine clearJob_kept ?_)
    | split)
theorem abortDo_kept {s : State} {c : Cmd} (hk : Kept b0 s) : Kept b0 (abortDo s c) := by
  unfold abortDo
  dsimp only
  repeat' (first
    | (with_reducible first | assumption | refine endJob_kept ?_ | refine complete_kept ?_)
    | (with_reducible refine Kept.foldl (fun _ _ _ => ?_) _ _ ?_) <;> try dsimp only
    | split)
theorem abortEntry_kept {s : State} {id : QId} {b : List Byte} (hk : Kept b0 s) : Kept b0 (abortEntry s id b) := by
  unfold abortEntry
  repeat' (first
    | (with_reducible first | assumption | refine postCqe_kept ?_))
theorem abortOld_kept {s0 s : State} {id : QId} {old : Queue} (hk : Kept b0 s) : Kept b0 (abortOld s0 s id old) := by
  unfold abortOld
  refine Kept.foldl (fun t i h => ?_) _ _ hk
  split
  · exact abortEntry_kept h
  · exact postCqe_kept (useFree_kept h)
theorem writeDone_kept {s : State} {r win : Nat} (hk : Kept b0 s) : Kept b0 (writeDone s r win) := by
  unfold writeDone
  repeat' (first
    | (with_reducible first | assumption | refine updWin_kept ?_ | refine retire_kept ?_)
    | split)
theorem savedDone_kept {s : State} {o : Outstanding} (hk : Kept b0 s) : Kept b0 (savedDone s o) := by
  unfold savedDone
  repeat' (first
    | (with_reducible first | assumption | refine updJob_kept ?_))
theorem atomDone_kept {s : State} {r win : Nat} (hk : Kept b0 s) : Kept b0 (atomDone s r win) := by
  unfold atomDone
  repeat' (first
    | (with_reducible first | assumption | refine updWin_kept ?_ | refine settleWin_kept ?_ | refine retire_kept ?_)
    | split)
theorem setDma_kept {s : State} {c : Nat} {l : List Dma} (hk : Kept b0 s) : Kept b0 (setDma s c l) := by
  unfold setDma
  repeat' (first
    | (with_reducible first | assumption | exact fun h => h)
    | (simp only [Kept.fields]; with_reducible refine Kept.upd ?_ ?_ ?_ ?_ ?_))
theorem dmaAnswered_kept {s : State} {c id : Nat} {bad : Bool} (hk : Kept b0 s) : Kept b0 (dmaAnswered s c id bad) := by
  unfold dmaAnswered
  repeat' (first
    | (with_reducible first | assumption | refine setDma_kept ?_))
theorem accessDone_kept {s : State} {j : Job} {o : Outstanding} (hk : Kept b0 s) : Kept b0 (accessDone s j o) := by
  unfold accessDone
  repeat' (first
    | (with_reducible first | assumption | refine settleRidge_kept ?_ | refine writeDone_kept ?_ | refine savedDone_kept ?_ | refine atomDone_kept ?_ | refine dmaAnswered_kept ?_)
    | split)
theorem atomFault_kept {s : State} {r win code : Nat} (hk : Kept b0 s) : Kept b0 (atomFault s r win code) := by
  unfold atomFault
  repeat' (first
    | (with_reducible first | assumption | refine execFault_kept ?_)
    | split)
theorem accessFault_kept {s : State} {j : Job} {o : Outstanding} {code : Nat} (hk : Kept b0 s) : Kept b0 (accessFault s j o code) := by
  unfold accessFault
  repeat' (first
    | (with_reducible first | assumption | refine atomFault_kept ?_ | refine updJob_kept ?_ | refine dmaAnswered_kept ?_)
    | split)
theorem ringRefused_kept {s : State} {j : Job} {c cause : Nat} {o : Outstanding} (hk : Kept b0 s) : Kept b0 (ringRefused s j c cause o) := by
  unfold ringRefused
  repeat' (first
    | (with_reducible first | assumption | refine updR_kept ?_ ?_)
    | (with_reducible refine Kept.foldl (fun _ _ _ => ?_) _ _ ?_) <;> try dsimp only
    | intro _ h; exact h)
theorem accessRefused_kept {s : State} {j : Job} {o : Outstanding} {cause : Nat} (hk : Kept b0 s) : Kept b0 (accessRefused s j o cause) := by
  unfold accessRefused
  repeat' (first
    | (with_reducible first | assumption | refine mmuFault_kept ?_ | refine ridgeMmu_kept ?_ | refine ringRefused_kept ?_ | refine updJob_kept ?_ | exact fun h => h)
    | (simp only [Kept.fields]; with_reducible refine Kept.upd ?_ ?_ ?_ ?_ ?_)
    | split)
theorem addCounts_kept {s : State} {r : Nat} {x : Ctx} {g : Staged} (hk : Kept b0 s) : Kept b0 (addCounts s r x g) := by
  unfold addCounts
  repeat' (first
    | (with_reducible first | assumption | refine updJob_kept ?_)
    | split)
theorem addOutsat_kept {s : State} {r : Nat} {x : Ctx} {n : Nat} (hk : Kept b0 s) : Kept b0 (addOutsat s r x n) := by
  unfold addOutsat
  repeat' (first
    | (with_reducible first | assumption | refine addCounts_kept ?_))
theorem setQ_kept {s : State} {q : QId} {v : Queue} (hk : Kept b0 s) : Kept b0 (setQ s q v) := by
  unfold setQ
  repeat' (first
    | (with_reducible first | assumption | exact fun h => h)
    | (simp only [Kept.fields]; with_reducible refine Kept.upd ?_ ?_ ?_ ?_ ?_)
    | intro h; exact h
    | split)
theorem adminOff_kept {s : State} {p : Port} (hk : Kept b0 s) : Kept b0 (adminOff s p) := by
  unfold adminOff
  repeat' (first
    | (with_reducible first | assumption | refine setQ_kept ?_))
theorem admitMgmt_kept {s : State} {n : Nat} (hk : Kept b0 s) : OptAll (Kept b0) (admitMgmt s n) := by
  unfold admitMgmt
  dsimp only
  repeat' (first
    | (with_reducible first | assumption | refine setLink_kept ?_ | refine OptAll.intro ?_)
    | exact trivial
    | split)
theorem advance_kept {s : State} {r : Nat} {x : Ctx} (hk : Kept b0 s) : Kept b0 (advance s r x) := by
  unfold advance
  repeat' (first
    | (with_reducible first | assumption | refine updCtx_kept ?_))
theorem doubt_kept {s : State} {t : Nat} {o : Outstanding} (hk : Kept b0 s) : Kept b0 (doubt s t o) := by
  unfold doubt
  repeat' (first
    | (with_reducible first | assumption | refine mmuFault_kept ?_ | refine updJob_kept ?_ | refine setTag_kept ?_)
    | split)
theorem unreachable_kept {s : State} {t : Nat} {j : Job} {o : Outstanding} (hk : Kept b0 s) : Kept b0 (unreachable s t j o) := by
  unfold unreachable
  repeat' (first
    | (with_reducible first | assumption | refine doubt_kept ?_ | refine setTag_kept ?_ | refine accessRefused_kept ?_)
    | split)
theorem again_kept {s : State} {t : Nat} {j : Job} {o : Outstanding} (hk : Kept b0 s) : Kept b0 (again s t j o) := by
  unfold again
  repeat' (first
    | (with_reducible first | assumption | refine sendFrame_kept ?_ | refine setTag_kept ?_ | refine unreachable_kept ?_)
    | split)
theorem allTestsDue_kept {s : State} (hk : Kept b0 s) : Kept b0 (allTestsDue s) := by
  unfold allTestsDue
  repeat' (first
    | (with_reducible first | assumption | refine updR_kept ?_ ?_)
    | (with_reducible refine Kept.foldl (fun _ _ _ => ?_) _ _ ?_) <;> try dsimp only
    | intro _ h; exact h)
theorem announce_kept {s : State} {d : List Byte} (hk : Kept b0 s) : Kept b0 (announce s d) := by
  unfold announce
  dsimp only
  repeat' (first
    | (with_reducible first | assumption | refine addCounter_kept ?_)
    | split)
theorem answer_kept {s : State} {b : List Byte} (hk : Kept b0 s) : Kept b0 (answer s b) := by
  unfold answer
  repeat' (first
    | (with_reducible first | assumption | exact fun h => h)
    | (simp only [Kept.fields]; with_reducible refine Kept.upd ?_ ?_ ?_ ?_ ?_))
theorem updTile_kept {s : State} {r t : Nat} {f : Tile → Tile} (hk : Kept b0 s) : Kept b0 (updTile s r t f) := by
  unfold updTile
  repeat' (first
    | (with_reducible first | assumption | refine updR_kept ?_ ?_)
    | intro _ h; exact h)
theorem requestSurvey_kept {s : State} {r t : Nat} (hk : Kept b0 s) : Kept b0 (requestSurvey s r t) := by
  unfold requestSurvey
  repeat' (first
    | (with_reducible first | assumption | refine updTile_kept ?_))
theorem startProbe_kept {s : State} {r : Nat} {x : Ctx} {w : W128} {p : Nat} {g : Golden} {k : Nat} (hk : Kept b0 s) : Kept b0 (startProbe s r x w p g k) := by
  unfold startProbe
  repeat' (first
    | (with_reducible first | assumption | refine pushWin_kept ?_))
theorem probeTile_kept {s : State} {r t : Nat} (hk : Kept b0 s) : Kept b0 (probeTile s r t) := by
  unfold probeTile
  repeat' (first
    | (with_reducible first | assumption | refine startProbe_kept ?_)
    | split)
theorem answerClip_kept {s : State} {r t : Nat} (hk : Kept b0 s) : Kept b0 (answerClip s r t) := by
  unfold answerClip
  dsimp only
  repeat' (first
    | (with_reducible first | assumption | refine requestSurvey_kept ?_ | refine probeTile_kept ?_)
    | split)
theorem queueRec_kept {s : State} {cls idx : Nat} {data : List Byte} (hk : Kept b0 s) : Kept b0 (queueRec s cls idx data) := by
  unfold queueRec
  repeat' (first
    | (with_reducible first | assumption | exact fun h => h)
    | (simp only [Kept.fields]; with_reducible refine Kept.upd ?_ ?_ ?_ ?_ ?_))
theorem episodeOcc_kept {s : State} {subject cause : Nat} (hk : Kept b0 s) : Kept b0 (episodeOcc s subject cause) := by
  unfold episodeOcc
  repeat' (first
    | (with_reducible first | assumption | exact fun h => h)
    | (simp only [Kept.fields]; with_reducible refine Kept.upd ?_ ?_ ?_ ?_ ?_))
theorem setCoal_kept {s : State} {k : Nat} {c : Coal} (hk : Kept b0 s) : Kept b0 (setCoal s k c) := by
  unfold setCoal
  repeat' (first
    | (with_reducible first | assumption | exact fun h => h)
    | (simp only [Kept.fields]; with_reducible refine Kept.upd ?_ ?_ ?_ ?_ ?_))
theorem raiseCoal_kept {s : State} {kind n v : Nat} {e : Ev} (hk : Kept b0 s) : Kept b0 (raiseCoal s kind n v e) := by
  unfold raiseCoal
  repeat' (first
    | (with_reducible first | assumption | refine enq_kept ?_ | refine setCoal_kept ?_ | exact fun h => h)
    | (simp only [Kept.fields]; with_reducible refine Kept.upd ?_ ?_ ?_ ?_ ?_)
    | split)
theorem linkEvent_kept {s : State} {n cause : Nat} (hk : Kept b0 s) : Kept b0 (linkEvent s n cause) := by
  unfold linkEvent
  repeat' (first
    | (with_reducible first | assumption | refine raiseCoal_kept ?_ | refine setLink_kept ?_ | refine raise_kept ?_)
    | split)
theorem dropFrame_kept {s : State} {n cause : Nat} (hk : Kept b0 s) : Kept b0 (dropFrame s n cause) := by
  unfold dropFrame
  repeat' (first
    | (with_reducible first | assumption | refine linkEvent_kept ?_ | refine setLink_kept ?_)
    | split)
theorem mgmtDrop_kept {s : State} {n : Nat} (hk : Kept b0 s) : Kept b0 (mgmtDrop s n) := by
  unfold mgmtDrop
  repeat' (first
    | (with_reducible first | assumption | refine dropFrame_kept ?_ | exact fun h => h)
    | (simp only [Kept.fields]; with_reducible refine Kept.upd ?_ ?_ ?_ ?_ ?_))
theorem sendMgmt_kept {s : State} {n : Nat} {f : Frame} (hk : Kept b0 s) : Kept b0 (sendMgmt s n f) := by
  unfold sendMgmt
  dsimp only
  repeat' (first
    | (with_reducible first | assumption | refine setLink_kept ?_ | refine sendFrame_kept ?_ | refine mgmtDrop_kept ?_)
    | split)
theorem sendReports_kept {s : State} {subject cause : Nat} {boot : W32} (hk : Kept b0 s) : Kept b0 (sendReports s subject cause boot) := by
  unfold sendReports
  repeat' (first
    | (with_reducible first | assumption | refine sendMgmt_kept ?_)
    | (with_reducible refine Kept.foldl (fun _ _ _ => ?_) _ _ ?_) <;> try dsimp only
    | split)
theorem peerOcc_kept {s : State} {subject cause : Nat} {port : Option Nat} {reporter : Nat} {boot : W32} (hk : Kept b0 s) : Kept b0 (peerOcc s subject cause port reporter boot) := by
  unfold peerOcc
  dsimp only
  repeat' (first
    | (with_reducible first | assumption | refine episodeOcc_kept ?_ | refine raiseCoal_kept ?_ | exact fun h => h)
    | (simp only [Kept.fields]; with_reducible refine Kept.upd ?_ ?_ ?_ ?_ ?_)
    | split)
theorem peerChange_kept {s : State} {subject cause : Nat} {boot : W32} (hk : Kept b0 s) : Kept b0 (peerChange s subject cause boot) := by
  unfold peerChange
  repeat' (first
    | (with_reducible first | assumption | refine sendReports_kept ?_ | refine peerOcc_kept ?_)
    | split)
theorem setRoute_kept {s : State} {d : Nat} {e : W16} (hk : Kept b0 s) : Kept b0 (setRoute s d e) := by
  unfold setRoute
  dsimp only
  repeat' (first
    | (with_reducible first | assumption | refine peerChange_kept ?_ | exact fun h => h)
    | (simp only [Kept.fields]; with_reducible refine Kept.upd ?_ ?_ ?_ ?_ ?_)
    | split)
theorem clearValid_kept {s : State} {d : Nat} (hk : Kept b0 s) : Kept b0 (clearValid s d) := by
  unfold clearValid
  repeat' (first
    | (with_reducible first | assumption | refine setRoute_kept ?_)
    | split)
theorem setPeer_kept {s : State} {d : Nat} {q : Peer} (hk : Kept b0 s) : Kept b0 (setPeer s d q) := by
  unfold setPeer
  repeat' (first
    | (with_reducible first | assumption | exact fun h => h)
    | (simp only [Kept.fields]; with_reducible refine Kept.upd ?_ ?_ ?_ ?_ ?_))
theorem applyOverride_kept {s : State} {b : List Byte} (hk : Kept b0 s) : Kept b0 (applyOverride s b) := by
  unfold applyOverride
  dsimp only
  repeat' (first
    | (with_reducible first | assumption | refine queueRec_kept ?_ | refine clearValid_kept ?_ | refine setPeer_kept ?_ | exact fun h => h)
    | (simp only [Kept.fields]; with_reducible refine Kept.upd ?_ ?_ ?_ ?_ ?_)
    | split)
theorem loseFrames_kept {s : State} {n : Nat} (hk : Kept b0 s) : Kept b0 (loseFrames s n) := by
  unfold loseFrames
  repeat' (first
    | (with_reducible first | assumption | refine setLink_kept ?_ | refine sendFrame_kept ?_ | refine setTag_kept ?_ | exact fun h => h)
    | (simp only [Kept.fields]; with_reducible refine Kept.upd ?_ ?_ ?_ ?_ ?_)
    | (with_reducible refine Kept.foldl (fun _ _ _ => ?_) _ _ ?_) <;> try dsimp only
    | split)
theorem peerLost_kept {s : State} {d : Nat} (hk : Kept b0 s) : Kept b0 (peerLost s d) := by
  unfold peerLost
  dsimp only
  repeat' (first
    | (with_reducible first | assumption | refine clearValid_kept ?_ | refine setPeer_kept ?_ | refine peerChange_kept ?_)
    | split)
theorem loseDirect_kept {s : State} {n : Nat} (hk : Kept b0 s) : Kept b0 (loseDirect s n) := by
  unfold loseDirect
  repeat' (first
    | (with_reducible first | assumption | refine peerLost_kept ?_)
    | (with_reducible refine Kept.foldl (fun _ _ _ => ?_) _ _ ?_) <;> try dsimp only
    | split)
theorem disablePort_kept {s : State} {n : Nat} (hk : Kept b0 s) : Kept b0 (disablePort s n) := by
  unfold disablePort
  dsimp only
  repeat' (first
    | (with_reducible first | assumption | refine linkEvent_kept ?_ | refine setLink_kept ?_ | refine loseFrames_kept ?_ | refine loseDirect_kept ?_)
    | split)
theorem setDom_kept {s : State} {d : Nat} {v : Dom} (hk : Kept b0 s) : Kept b0 (setDom s d v) := by
  unfold setDom
  repeat' (first
    | (with_reducible first | assumption | exact fun h => h)
    | (simp only [Kept.fields]; with_reducible refine Kept.upd ?_ ?_ ?_ ?_ ?_))
theorem domStart_kept {s : State} {d : Nat} (hk : Kept b0 s) : Kept b0 (domStart s d) := by
  unfold domStart
  dsimp only
  repeat' (first
    | (with_reducible first | assumption | refine setDom_kept ?_)
    | split)
theorem powerRequest_kept {s : State} {d : Nat} {on : Bool} (hk : Kept b0 s) : Kept b0 (powerRequest s d on) := by
  unfold powerRequest
  repeat' (first
    | (with_reducible first | assumption | refine domStart_kept ?_ | refine setDom_kept ?_))
theorem startTraining_kept {s : State} {n : Nat} (hk : Kept b0 s) : Kept b0 (startTraining s n) := by
  unfold startTraining
  repeat' (first
    | (with_reducible first | assumption | refine linkEvent_kept ?_ | refine setLink_kept ?_))
theorem enablePort_kept {s : State} {n : Nat} (hk : Kept b0 s) : Kept b0 (enablePort s n) := by
  unfold enablePort
  dsimp only
  repeat' (first
    | (with_reducible first | assumption | refine setLink_kept ?_ | refine startTraining_kept ?_)
    | split)
theorem applyPorts_kept {s : State} {en valid : Nat} (hk : Kept b0 s) : Kept b0 (applyPorts s en valid) := by
  unfold applyPorts
  repeat' (first
    | (with_reducible first | assumption | refine disablePort_kept ?_ | refine powerRequest_kept ?_ | refine enablePort_kept ?_)
    | (with_reducible refine Kept.foldl (fun _ _ _ => ?_) _ _ ?_) <;> try dsimp only
    | split)
theorem applyRoute_kept {s : State} {b : List Byte} (hk : Kept b0 s) : Kept b0 (applyRoute s b) := by
  unfold applyRoute
  dsimp only
  repeat' (first
    | (with_reducible first | assumption | refine setPeer_kept ?_ | refine setRoute_kept ?_)
    | split)
theorem applyTrims_kept {s : State} (hk : Kept b0 s) : Kept b0 (applyTrims s) := by
  unfold applyTrims
  repeat' (first
    | (with_reducible first | assumption | exact fun h => h)
    | (simp only [Kept.fields]; with_reducible refine Kept.upd ?_ ?_ ?_ ?_ ?_))
theorem aqConfigure_kept {s : State} {p : Port} {v : W32} (hk : Kept b0 s) : Kept b0 (aqConfigure s p v) := by
  unfold aqConfigure
  repeat' (first
    | (with_reducible first | assumption | refine pinSync_kept ?_ | refine updPort_kept ?_ | refine setQ_kept ?_))
theorem setArb_kept {s : State} {cls inst : Nat} {a : Arb} (hk : Kept b0 s) : Kept b0 (setArb s cls inst a) := by
  unfold setArb
  repeat' (first
    | (with_reducible first | assumption | exact fun h => h)
    | (simp only [Kept.fields]; with_reducible refine Kept.upd ?_ ?_ ?_ ?_ ?_))
theorem starve_kept {s : State} {cls inst i w : Nat} (hk : Kept b0 s) : Kept b0 (starve s cls inst i w) := by
  unfold starve
  repeat' (first
    | (with_reducible first | assumption | refine raiseCoal_kept ?_ | refine setArb_kept ?_)
    | split)
theorem arbWait_kept {s : State} {cls inst : Nat} {reqs : List Nat} {won : Option Nat} (hk : Kept b0 s) : Kept b0 (arbWait s cls inst reqs won) := by
  unfold arbWait
  repeat' (first
    | (with_reducible first | assumption | refine starve_kept ?_ | refine setArb_kept ?_)
    | (with_reducible refine Kept.foldl (fun _ _ _ => ?_) _ _ ?_) <;> try dsimp only)
theorem arrive_kept {s : State} {n ty : Nat} {f : Frame} (hk : Kept b0 s) : OptAllFst (Kept b0) (arrive s n ty f) := by
  unfold arrive
  repeat' (first
    | (with_reducible first | assumption | refine dropFrame_kept ?_ | refine OptAll.of_some (admitMgmt_kept ?_) (by assumption) | refine mgmtDrop_kept ?_ | refine OptAllFst.intro ?_)
    | exact trivial
    | split)
theorem askPeer_kept {s : State} {p : Nat} {job : W32} {agent win dev off : Nat} {rs : Bool} {dva : Nat} (hk : Kept b0 s) :
    Kept b0 (askPeer s p job agent win dev off rs dva) := by
  unfold askPeer
  split
  · exact hk
  · refine OptAll.getD ?_ hk
    with_reducible exact sendReq_kept hk
theorem askPieces_kept {s : State} {p : Nat} {job : W32} {agent win : Nat} {ps : List Piece} (hk : Kept b0 s) : Kept b0 (askPieces s p job agent win ps) := by
  unfold askPieces
  repeat' (first
    | (with_reducible first | assumption | refine askPeer_kept ?_)
    | (with_reducible refine Kept.foldl (fun _ _ _ => ?_) _ _ ?_) <;> try dsimp only
    | split)
theorem cduEvents_kept {s : State} {n p : Nat} {l : List Nat} (hk : Kept b0 s) : Kept b0 (cduEvents s n p l) := by
  unfold cduEvents
  repeat' (first
    | (with_reducible first | assumption | refine raiseInteg_kept ?_)
    | (with_reducible refine Kept.foldl (fun _ _ _ => ?_) _ _ ?_) <;> try dsimp only)
theorem keepRecord_kept {s : State} {f : Frame} {status : Nat} (hk : Kept b0 s) : Kept b0 (keepRecord s f status) := by
  unfold keepRecord
  repeat' (first
    | (with_reducible first | assumption | exact fun h => h)
    | (simp only [Kept.fields]; with_reducible refine Kept.upd ?_ ?_ ?_ ?_ ?_))
theorem atomAt_kept {s : State} {n p pa : Nat} {f : Frame} (hk : Kept b0 s) : Kept b0 (atomAt s n p pa f).2 := by
  unfold atomAt
  dsimp only
  repeat' (first
    | (with_reducible first | assumption | refine dramPut_kept ?_ | refine cduEvents_kept ?_ | refine keepRecord_kept ?_)
    | split)
theorem markImage_kept {s : State} {h : Option Place} (hk : Kept b0 s) : Kept b0 (markImage s h) := by
  unfold markImage
  split
  · next q o => exact updR_kept hk (fun rd g => twf_tset none rd.loam (o + 8) (some (loamByte rd q (o + 8) ||| 1)) g)
  · exact dramPut_kept hk
  · exact hk
theorem atomSat_kept {s : State} {m : MemAtomic} {sat : Bool} (hk : Kept b0 s) : Kept b0 (atomSat s m sat) := by
  unfold atomSat
  repeat' (first
    | (with_reducible first | assumption | refine markImage_kept ?_ | refine updJob_kept ?_)
    | split)
theorem atomLocal_kept {s : State} {m : MemAtomic} {old : List Byte} {bad : Bool} {put : State → List Byte → State} {loc unit addr : Nat}
    (hk : Kept b0 s) (hp : ∀ t d, Kept b0 t → Kept b0 (put t d)) : Kept b0 (atomLocal s m old bad put loc unit addr) := by
  unfold atomLocal
  split
  · exact atomFault_kept (raiseInteg_kept hk)
  · dsimp only
    split
    · exact atomFault_kept hk
    · exact atomDone_kept (atomSat_kept (hp _ _ hk))
theorem commitJournal_kept {s : State} {r t : Nat} (hk : Kept b0 s) : Kept b0 (commitJournal s r t) := by
  unfold commitJournal
  repeat' (first
    | (with_reducible first | assumption | refine queueRec_kept ?_))
theorem setJournal_kept {s : State} {r t : Nat} {f : Journal → Journal} (hk : Kept b0 s) : Kept b0 (setJournal s r t f) := by
  unfold setJournal
  repeat' (first
    | (with_reducible first | assumption | refine updTile_kept ?_ | refine commitJournal_kept ?_))
theorem attachTile_kept {s : State} {id : W32} {g : Golden} (hk : Kept b0 s) : Kept b0 (attachTile s id g) := by
  unfold attachTile
  repeat' (first
    | (with_reducible first | assumption | refine updTile_kept ?_ | refine requestSurvey_kept ?_ | refine setJournal_kept ?_))

theorem hostWrite_kept {s : State} {p : Port} {a : Nat} {d : List Byte} (hk : Kept b0 s) : Kept b0 (hostWrite s p a d) := by
  cases p
  · exact Kept.upd (t := s) hk (fun h => ⟨twf_tsetRun 0 _ _ _ h.1, h.2⟩) id id id
  · exact Kept.upd (t := s) hk (fun h => ⟨h.1, twf_tsetRun 0 _ _ _ h.2.1, h.2.2⟩) id id id
theorem completeOut_kept {s : State} {c : Cmd} {d : List Byte} {res : Nat} (hk : Kept b0 s) : Kept b0 (completeOut s c d res) := by
  unfold completeOut
  repeat' (first
    | (with_reducible first | assumption | refine complete_kept ?_ | refine hostWrite_kept ?_)
    | split)
theorem busyCmd_kept {s : State} {n : Nat} (hk : Kept b0 s) : Kept b0 (busyCmd s n) := by
  unfold busyCmd
  repeat' (first
    | (with_reducible first | assumption | exact fun h => h)
    | (simp only [Kept.fields]; with_reducible refine Kept.upd ?_ ?_ ?_ ?_ ?_)
    | intro h; exact h)
theorem startCmd_kept {s : State} {c : Cmd} (hk : Kept b0 s) : Kept b0 (startCmd s c) := by
  unfold startCmd
  repeat' (first
    | (with_reducible first | assumption | refine busyCmd_kept ?_))
theorem attestDo_kept {s : State} {c : Cmd} (hk : Kept b0 s) : Kept b0 (attestDo s c) := by
  unfold attestDo
  repeat' (first
    | (with_reducible first | assumption | refine completeOut_kept ?_ | refine complete_kept ?_ | refine startCmd_kept ?_)
    | split)
theorem sendMsix_kept {s : State} {p : Port} {f vec : Nat} (hk : Kept b0 s) : Kept b0 (sendMsix s p f vec) := by
  unfold sendMsix
  repeat' (first
    | (with_reducible first | assumption | exact fun h => h)
    | (simp only [Kept.fields]; with_reducible refine Kept.upd ?_ ?_ ?_ ?_ ?_)
    | intro h; exact h
    | split)
theorem setAttn_kept {s : State} {p : Port} {i : Nat} (hk : Kept b0 s) : Kept b0 (setAttn s p i) := by
  unfold setAttn
  repeat' (first
    | (with_reducible first | assumption | refine sendMsix_kept ?_ | refine hrdySync_kept ?_ | refine updPort_kept ?_)
    | split)
theorem attnBoth_kept {s : State} {i : Nat} (hk : Kept b0 s) : Kept b0 (attnBoth s i) := by
  unfold attnBoth
  repeat' (first
    | (with_reducible first | assumption | refine setAttn_kept ?_))
theorem badDoorbell_kept {s : State} {q : QId} (hk : Kept b0 s) : Kept b0 (badDoorbell s q) := by
  unfold badDoorbell
  repeat' (first
    | (with_reducible first | assumption | refine postCqe_kept ?_))
theorem dropExports_kept {s : State} {p : Nat} (hk : Kept b0 s) : Kept b0 (dropExports s p) := by
  unfold dropExports
  repeat' (first
    | (with_reducible first | assumption | exact fun h => h)
    | (simp only [Kept.fields]; with_reducible refine Kept.upd ?_ ?_ ?_ ?_ ?_))
theorem freePool_kept {s : State} {n : Nat} (hk : Kept b0 s) : Kept b0 (freePool s n) := by
  unfold freePool
  repeat' (first
    | (with_reducible first | assumption | exact fun h => h)
    | (simp only [Kept.fields]; with_reducible refine Kept.upd ?_ ?_ ?_ ?_ ?_)
    | intro h; exact h)
theorem removeQueue_kept {s : State} {n : Nat} (hk : Kept b0 s) : Kept b0 (removeQueue s n) := by
  unfold removeQueue
  repeat' (first
    | (with_reducible first | assumption | refine setQ_kept ?_ | refine freePool_kept ?_))
theorem removeQueues_kept {s : State} {p : Nat} (hk : Kept b0 s) : Kept b0 (removeQueues s p) := by
  unfold removeQueues
  repeat' (first
    | (with_reducible first | assumption | refine removeQueue_kept ?_)
    | (with_reducible refine Kept.foldl (fun _ _ _ => ?_) _ _ ?_) <;> try dsimp only)
theorem dropPart_kept {s : State} {p : Nat} (hk : Kept b0 s) : Kept b0 (dropPart s p) := by
  unfold dropPart
  repeat' (first
    | (with_reducible first | assumption | exact fun h => h)
    | (simp only [Kept.fields]; with_reducible refine Kept.upd ?_ ?_ ?_ ?_ ?_))
theorem basecampReset_kept {s : State} (hk : Kept b0 s) : Kept b0 (basecampReset s) := by
  unfold basecampReset
  repeat' (first
    | (with_reducible first | assumption | refine setP_kept ?_ | refine dropExports_kept ?_ | refine updP_kept ?_ | refine removeQueues_kept ?_ | refine dropPart_kept ?_ | refine updR_kept ?_ ?_ | exact fun h => h)
    | (simp only [Kept.fields]; with_reducible refine Kept.upd ?_ ?_ ?_ ?_ ?_)
    | (with_reducible refine Kept.foldl (fun _ _ _ => ?_) _ _ ?_) <;> try dsimp only
    | intro _ h; exact h
    | split)
theorem raiseCore_kept {s : State} {ty cause part : Nat} {payload : List Byte} (hk : Kept b0 s) : Kept b0 (raiseCore s ty cause part payload) := by
  unfold raiseCore
  repeat' (first
    | (with_reducible first | assumption | refine useFree_kept ?_ | refine enq_kept ?_))
theorem securityEvent_kept {s : State} {cause part port fn tile id : Nat} (hk : Kept b0 s) : Kept b0 (securityEvent s cause part port fn tile id) := by
  unfold securityEvent
  repeat' (first
    | (with_reducible first | assumption | refine raiseCore_kept ?_))
theorem bedrock_kept {s : State} {aOk bOk : Bool} (hk : Kept b0 s) : OptAll (Kept b0) (bedrock s aOk bOk) := by
  unfold bedrock
  dsimp only
  repeat' (first
    | (with_reducible first | assumption | refine securityEvent_kept ?_ | refine queueRec_kept ?_ | exact fun h => h | refine OptAll.intro ?_)
    | (simp only [Kept.fields]; with_reducible refine Kept.upd ?_ ?_ ?_ ?_ ?_)
    | exact trivial
    | split)
theorem tileEvent_kept {s : State} {r phys cause : Nat} {extra : List (Nat × Nat × Nat)} (hk : Kept b0 s) : Kept b0 (tileEvent s r phys cause extra) := by
  unfold tileEvent
  repeat' (first
    | (with_reducible first | assumption | refine raiseCore_kept ?_))
theorem commitMaps_kept {s : State} {r : Nat} (hk : Kept b0 s) : Kept b0 (commitMaps s r) := by
  unfold commitMaps
  repeat' (first
    | (with_reducible first | assumption | refine queueRec_kept ?_))
theorem belaysDone_kept {s : State} {r t : Nat} {fails belayFail : List Nat} (hk : Kept b0 s) : Kept b0 (belaysDone s r t fails belayFail).1 := by
  unfold belaysDone
  dsimp only
  repeat' (first
    | (with_reducible first | assumption | refine tileEvent_kept ?_ | refine updTile_kept ?_ | refine commitMaps_kept ?_ | refine updR_kept ?_ ?_)
    | (with_reducible refine Kept.foldl (fun _ _ _ => ?_) _ _ ?_) <;> try dsimp only
    | intro _ h; exact h
    | split)
theorem bootEnd_kept {s : State} (hk : Kept b0 s) : Kept b0 (bootEnd s) := by
  unfold bootEnd
  repeat' (first
    | (with_reducible first | assumption | refine pinSync_kept ?_ | exact fun h => h)
    | (simp only [Kept.fields]; with_reducible refine Kept.upd ?_ ?_ ?_ ?_ ?_))
theorem powerEvent_kept {s : State} {cause dom rail mv : Nat} (hk : Kept b0 s) : Kept b0 (powerEvent s cause dom rail mv) := by
  unfold powerEvent
  repeat' (first
    | (with_reducible first | assumption | refine raise_kept ?_))
theorem bootIds_kept {s : State} (hk : Kept b0 s) : Kept b0 (bootIds s) := by
  unfold bootIds
  repeat' (first
    | (with_reducible first | assumption | exact fun h => h)
    | (simp only [Kept.fields]; with_reducible refine Kept.upd ?_ ?_ ?_ ?_ ?_))
theorem bootLog_kept {s : State} (hk : Kept b0 s) : Kept b0 (bootLog s) := by
  unfold bootLog
  repeat' (first
    | (with_reducible first | assumption | exact fun h => h)
    | (simp only [Kept.fields]; with_reducible refine Kept.upd ?_ ?_ ?_ ?_ ?_))
theorem bootGuard_kept {s : State} (hk : Kept b0 s) : Kept b0 (bootGuard s) := by
  unfold bootGuard
  repeat' (first
    | (with_reducible first | assumption | exact fun h => h)
    | (simp only [Kept.fields]; with_reducible refine Kept.upd ?_ ?_ ?_ ?_ ?_)
    | split)
theorem startModel_kept {s : State} (hk : Kept b0 s) : Kept b0 (startModel s) := by
  unfold startModel
  repeat' (first
    | (with_reducible first | assumption | exact fun h => h)
    | (simp only [Kept.fields]; with_reducible refine Kept.upd ?_ ?_ ?_ ?_ ?_))
theorem orphanTiles_kept {s : State} (hk : Kept b0 s) : Kept b0 (orphanTiles s) := by
  unfold orphanTiles
  repeat' (first
    | (with_reducible first | assumption | refine setJournal_kept ?_)
    | (with_reducible refine Kept.foldl (fun _ _ _ => ?_) _ _ ?_) <;> try dsimp only
    | split)
theorem clayCoal_kept {s : State} {cause page mask cls idx : Nat} {s0 s1 : W32} (hk : Kept b0 s) : Kept b0 (clayCoal s cause page mask cls idx s0 s1) := by
  unfold clayCoal
  repeat' (first
    | (with_reducible first | assumption | refine raiseCoal_kept ?_))
theorem clayEvent_kept {s : State} {cause page mask cls idx : Nat} {s0 s1 : W32} (hk : Kept b0 s) : Kept b0 (clayEvent s cause page mask cls idx s0 s1) := by
  unfold clayEvent
  repeat' (first
    | (with_reducible first | assumption | refine raise_kept ?_))
theorem replaceRec_kept {s : State} {cls idx : Nat} (hk : Kept b0 s) : Kept b0 (replaceRec s cls idx) := by
  unfold replaceRec
  repeat' (first
    | (with_reducible first | assumption | refine allTestsDue_kept ?_ | refine queueRec_kept ?_ | refine commitMaps_kept ?_ | refine setJournal_kept ?_ | refine updR_kept ?_ ?_ | exact fun h => h)
    | (simp only [Kept.fields]; with_reducible refine Kept.upd ?_ ?_ ?_ ?_ ?_)
    | (with_reducible refine Kept.foldl (fun _ _ _ => ?_) _ _ ?_) <;> try dsimp only
    | intro _ h; exact h
    | split)
theorem clearUe_kept {s : State} {a n : Nat} (hk : Kept b0 s) : Kept b0 (clearUe s a n) := by
  unfold clearUe
  repeat' (first
    | (with_reducible first | assumption | exact fun h => h)
    | (simp only [Kept.fields]; with_reducible refine Kept.upd ?_ ?_ ?_ ?_ ?_))
theorem setRec_kept {s : State} {cls idx : Nat} {v : Rec} (hk : Kept b0 s) : Kept b0 (setRec s cls idx v) := by
  unfold setRec
  repeat' (first
    | (with_reducible first | assumption | exact fun h => h)
    | (simp only [Kept.fields]; with_reducible refine Kept.upd ?_ ?_ ?_ ?_ ?_))
theorem readRec_kept {s : State} {cls idx : Nat} (hk : Kept b0 s) : Kept b0 (readRec s cls idx) := by
  unfold readRec
  dsimp only
  repeat' (first
    | (with_reducible first | assumption | refine clayCoal_kept ?_ | refine clayEvent_kept ?_ | refine replaceRec_kept ?_ | refine clearUe_kept ?_ | refine setRec_kept ?_)
    | split)
theorem repairRecs_kept {s : State} (hk : Kept b0 s) : Kept b0 (repairRecs s) := by
  unfold repairRecs
  repeat' (first
    | (with_reducible first | assumption | refine readRec_kept ?_)
    | (with_reducible refine Kept.foldl (fun _ _ _ => ?_) _ _ ?_) <;> try dsimp only)
theorem bootPending_kept {s : State} (hk : Kept b0 s) : Kept b0 (bootPending s) := by
  unfold bootPending
  repeat' (first
    | (with_reducible first | assumption | exact fun h => h)
    | (simp only [Kept.fields]; with_reducible refine Kept.upd ?_ ?_ ?_ ?_ ?_))
theorem bootCount_kept {s : State} (hk : Kept b0 s) : Kept b0 (bootCount s) := by
  unfold bootCount
  repeat' (first
    | (with_reducible first | assumption | refine queueRec_kept ?_ | exact fun h => h)
    | (simp only [Kept.fields]; with_reducible refine Kept.upd ?_ ?_ ?_ ?_ ?_)
    | split)
theorem bootLoad_kept {s : State} (hk : Kept b0 s) : Kept b0 (bootLoad s) := by
  unfold bootLoad
  repeat' (first
    | (with_reducible first | assumption | refine bootIds_kept ?_ | refine bootLog_kept ?_ | refine bootGuard_kept ?_ | refine startModel_kept ?_ | refine orphanTiles_kept ?_ | refine repairRecs_kept ?_ | refine bootPending_kept ?_ | refine bootCount_kept ?_ | refine updR_kept ?_ ?_ | exact fun h => h)
    | (simp only [Kept.fields]; with_reducible refine Kept.upd ?_ ?_ ?_ ?_ ?_)
    | (with_reducible refine Kept.foldl (fun _ _ _ => ?_) _ _ ?_) <;> try dsimp only
    | intro _ h; exact h)
theorem boot_kept {s : State} {aOk bOk : Bool} (hk : Kept b0 s) : Kept b0 (boot s aOk bOk) := by
  unfold boot
  dsimp only
  repeat' (first
    | (with_reducible first | assumption | refine OptAll.of_some (bedrock_kept ?_) (by assumption) | refine bootEnd_kept ?_ | refine powerEvent_kept ?_ | refine bootLoad_kept ?_ | exact fun h => h)
    | (simp only [Kept.fields]; with_reducible refine Kept.upd ?_ ?_ ?_ ?_ ?_)
    | split)
theorem bringLine_kept {s : State} {o : Outstanding} {d : List Byte} {bad : Bool} (hk : Kept b0 s) : Kept b0 (bringLine s o d bad) := by
  unfold bringLine
  repeat' (first
    | (with_reducible first | assumption | exact fun h => h)
    | (simp only [Kept.fields]; with_reducible refine Kept.upd ?_ ?_ ?_ ?_ ?_))
theorem setScrub_kept {s : State} {who : Option Nat} {f : List (Nat × Nat × Nat) → List (Nat × Nat × Nat)} (hk : Kept b0 s) : Kept b0 (setScrub s who f) := by
  unfold setScrub
  repeat' (first
    | (with_reducible first | assumption | refine updP_kept ?_ | exact fun h => h)
    | (simp only [Kept.fields]; with_reducible refine Kept.upd ?_ ?_ ?_ ?_ ?_)
    | split)
theorem markDirtyTile_kept {s : State} {r t : Nat} {st : TileSt} {f : Journal → Journal} (hk : Kept b0 s) : Kept b0 (markDirtyTile s r t st f) := by
  unfold markDirtyTile
  dsimp only
  repeat' (first
    | (with_reducible first | assumption | refine tileEvent_kept ?_ | refine setJournal_kept ?_)
    | split)
theorem trainTile_kept {s : State} {r t : Nat} (hk : Kept b0 s) : Kept b0 (trainTile s r t) := by
  unfold trainTile
  repeat' (first
    | (with_reducible first | assumption | refine markDirtyTile_kept ?_ | refine updTile_kept ?_ | refine setJournal_kept ?_))
theorem bulkReset_kept {s : State} {r t : Nat} {residue : Bool} (hk : Kept b0 s) : OptAllFst (Kept b0) (bulkReset s r t residue) := by
  unfold bulkReset
  repeat' (first
    | (with_reducible first | assumption | refine setScrub_kept ?_ | refine securityEvent_kept ?_ | refine setJournal_kept ?_ | refine trainTile_kept ?_ | refine OptAllFst.intro ?_)
    | exact trivial
    | split)
theorem calibrateSettle_kept {s : State} {part : Nat} (hk : Kept b0 s) : Kept b0 (calibrateSettle s part) := by
  unfold calibrateSettle
  dsimp only
  repeat' (first
    | (with_reducible first | assumption | refine complete_kept ?_)
    | split)
theorem holdAll_kept {s : State} {p : Nat} (hk : Kept b0 s) : Kept b0 (holdAll s p) := by
  unfold holdAll
  repeat' (first
    | (with_reducible first | assumption | refine updR_kept ?_ ?_)
    | (with_reducible refine Kept.foldl (fun _ _ _ => ?_) _ _ ?_) <;> try dsimp only
    | intro _ h; exact h)
theorem surveyAll_kept {s : State} {p : Nat} (hk : Kept b0 s) : Kept b0 (surveyAll s p) := by
  unfold surveyAll
  repeat' (first
    | (with_reducible first | assumption | refine requestSurvey_kept ?_)
    | (with_reducible refine Kept.foldl (fun _ _ _ => ?_) _ _ ?_) <;> try dsimp only
    | split)
theorem calibrateDo_kept {s : State} {c : Cmd} (hk : Kept b0 s) : Kept b0 (calibrateDo s c) := by
  unfold calibrateDo
  repeat' (first
    | (with_reducible first | assumption | refine calibrateSettle_kept ?_ | refine startCmd_kept ?_ | refine holdAll_kept ?_ | refine surveyAll_kept ?_)
    | split)
theorem calibrateRidge_kept {s : State} {r : Nat} (hk : Kept b0 s) : Kept b0 (calibrateRidge s r) := by
  unfold calibrateRidge
  repeat' (first
    | (with_reducible first | assumption | refine calibrateSettle_kept ?_)
    | split)
theorem setUe_kept {s : State} {a : Nat} {v : Bool} (hk : Kept b0 s) : Kept b0 (setUe s a v) := by
  unfold setUe
  repeat' (first
    | (with_reducible first | assumption | exact fun h => h)
    | (simp only [Kept.fields]; with_reducible refine Kept.upd ?_ ?_ ?_ ?_ ?_))
theorem newKey_kept {s : State} (hk : Kept b0 s) : Kept b0 (newKey s).2 := by
  unfold newKey
  repeat' (first
    | (with_reducible first | assumption | exact fun h => h)
    | (simp only [Kept.fields]; with_reducible refine Kept.upd ?_ ?_ ?_ ?_ ?_))
theorem initRanges_kept {s : State} {t : Part} (hk : Kept b0 s) : Kept b0 (initRanges s t) :=
  Kept.upd (t := s) hk id id (twf_filter 0 _ _) id
theorem ropeStage_kept {s : State} {e : Nat} (hk : Kept b0 s) : Kept b0 (ropeStage s e) := by
  unfold ropeStage
  dsimp only
  repeat' (first
    | (with_reducible first | assumption | refine setRope_kept ?_ | refine tryLock_kept ?_)
    | split)
theorem ropeAdd_kept {s : State} {e : Nat} {a : Action} (hk : Kept b0 s) : Kept b0 (ropeAdd s e a).1 := by
  unfold ropeAdd
  repeat' (first
    | (with_reducible first | assumption | refine setRope_kept ?_ | refine ropeAbort_kept ?_)
    | split)
theorem serviceRope_kept {s : State} {parts : List Nat} {job : W32} {why : RopeWhy} {l : List Action} (hk : Kept b0 s) : Kept b0 (serviceRope s parts job why l) := by
  unfold serviceRope
  repeat' (first
    | (with_reducible first | assumption | refine ropeStage_kept ?_ | refine setRope_kept ?_ | refine ropeAdd_kept ?_)
    | (with_reducible refine Kept.foldl (fun _ _ _ => ?_) _ _ ?_) <;> try dsimp only
    | split)
theorem writePending_kept {s : State} (hk : Kept b0 s) : Kept b0 (writePending s) := by
  unfold writePending
  repeat' (first
    | (with_reducible first | assumption | refine queueRec_kept ?_))
theorem scrubSettle_kept {s : State} {p : Nat} (hk : Kept b0 s) : Kept b0 (scrubSettle s p) := by
  unfold scrubSettle
  dsimp only
  repeat' (first
    | (with_reducible first | assumption | refine newKey_kept ?_ | refine initRanges_kept ?_ | refine updP_kept ?_ | refine serviceRope_kept ?_ | refine writePending_kept ?_)
    | split)
theorem quarterDone_kept {s : State} {q : Nat} (hk : Kept b0 s) : Kept b0 (quarterDone s q) := by
  unfold quarterDone
  repeat' (first
    | (with_reducible first | assumption | refine scrubSettle_kept ?_ | refine updP_kept ?_)
    | (with_reducible refine Kept.foldl (fun _ _ _ => ?_) _ _ ?_) <;> try dsimp only
    | split)
theorem wholeSettle_kept {s : State} (hk : Kept b0 s) : Kept b0 (wholeSettle s) := by
  unfold wholeSettle
  repeat' (first
    | (with_reducible first | assumption | refine completeAt_kept ?_ | refine pinSync_kept ?_ | exact fun h => h)
    | (simp only [Kept.fields]; with_reducible refine Kept.upd ?_ ?_ ?_ ?_ ?_)
    | split)
theorem recordStep_kept {s : State} {cls idx : Nat} {data : List Byte} {n : Nat} (hk : Kept b0 s) : Kept b0 (recordStep s cls idx data n) := by
  unfold recordStep
  dsimp only
  repeat' (first
    | (with_reducible first | assumption | refine setUe_kept ?_ | refine setRec_kept ?_)
    | split)
theorem replaceWriter_kept {s : State} {w : Writer} {v : Option Writer} (hk : Kept b0 s) : Kept b0 (replaceWriter s w v) := by
  unfold replaceWriter
  repeat' (first
    | (with_reducible first | assumption | exact fun h => h)
    | (simp only [Kept.fields]; with_reducible refine Kept.upd ?_ ?_ ?_ ?_ ?_))
theorem groupWritten_kept {s : State} {w : Writer} (hk : Kept b0 s) : Kept b0 (groupWritten s w) := by
  have put : ∀ (a : Nat) (d : List Byte), Kept b0 { s with clay := { s.clay with bytes := tsetRun 0 s.clay.bytes a d } } := fun a d =>
    Kept.upd (t := s) hk (fun h => h) (fun h => h) (fun h => h) (fun h => twf_tsetRun 0 _ _ _ h)
  unfold groupWritten
  split
  · exact replaceWriter_kept (recordStep_kept hk)
  · dsimp only
    split
    · exact replaceWriter_kept (setUe_kept (put _ _))
    · split
      · exact replaceWriter_kept (setUe_kept (put _ _))
      · exact wholeSettle_kept (quarterDone_kept (replaceWriter_kept (setUe_kept (put _ _))))
  · dsimp only
    split
    · exact completeAt_kept (replaceWriter_kept (setUe_kept (put _ _)))
    · exact replaceWriter_kept (setUe_kept (put _ _))
theorem clayCut_kept {s : State} (hk : Kept b0 s) : Kept b0 (clayCut s) := by
  unfold clayCut
  repeat' (first
    | (with_reducible first | assumption | refine setUe_kept ?_ | refine groupWritten_kept ?_ | refine setRec_kept ?_ | exact fun h => h)
    | (simp only [Kept.fields]; with_reducible refine Kept.upd ?_ ?_ ?_ ?_ ?_)
    | split)
theorem clayFinish_kept {s : State} (hk : Kept b0 s) : Kept b0 (clayFinish s) := by
  unfold clayFinish
  repeat' (first
    | (with_reducible first | assumption | refine groupWritten_kept ?_)
    | split)
theorem saveGuard_kept {s : State} (hk : Kept b0 s) : Kept b0 (saveGuard s) := by
  unfold saveGuard
  repeat' (first
    | (with_reducible first | assumption | refine queueRec_kept ?_))
theorem clayProtectDo_kept {s : State} {c : Cmd} (hk : Kept b0 s) : Kept b0 (clayProtectDo s c) := by
  unfold clayProtectDo
  dsimp only
  repeat' (first
    | (with_reducible first | assumption | refine clayEvent_kept ?_ | refine saveGuard_kept ?_ | refine complete_kept ?_ | exact fun h => h)
    | (simp only [Kept.fields]; with_reducible refine Kept.upd ?_ ?_ ?_ ?_ ?_)
    | split)
theorem clayReadDo_kept {s : State} {c : Cmd} (hk : Kept b0 s) : Kept b0 (clayReadDo s c) := by
  unfold clayReadDo
  dsimp only
  repeat' (first
    | (with_reducible first | assumption | refine clayCoal_kept ?_ | refine completeOut_kept ?_ | refine complete_kept ?_ | refine hostWrite_kept ?_)
    | split)
theorem passwordFail_kept {s : State} (hk : Kept b0 s) : Kept b0 (passwordFail s) := by
  unfold passwordFail
  dsimp only
  repeat' (first
    | (with_reducible first | assumption | refine clayCoal_kept ?_ | refine clayEvent_kept ?_ | exact fun h => h)
    | (simp only [Kept.fields]; with_reducible refine Kept.upd ?_ ?_ ?_ ?_ ?_)
    | split)
theorem unlockDo_kept {s : State} {kind : Nat} {new : W64} (hk : Kept b0 s) : Kept b0 (unlockDo s kind new) := by
  unfold unlockDo
  repeat' (first
    | (with_reducible first | assumption | refine clayEvent_kept ?_ | refine saveGuard_kept ?_ | exact fun h => h)
    | (simp only [Kept.fields]; with_reducible refine Kept.upd ?_ ?_ ?_ ?_ ?_)
    | split)
theorem clayUnlockDo_kept {s : State} {c : Cmd} (hk : Kept b0 s) : Kept b0 (clayUnlockDo s c) := by
  unfold clayUnlockDo
  dsimp only
  repeat' (first
    | (with_reducible first | assumption | refine complete_kept ?_ | refine passwordFail_kept ?_ | refine unlockDo_kept ?_ | exact fun h => h)
    | (simp only [Kept.fields]; with_reducible refine Kept.upd ?_ ?_ ?_ ?_ ?_)
    | split)
theorem clayWriteDo_kept {s : State} {c : Cmd} (hk : Kept b0 s) : Kept b0 (clayWriteDo s c) := by
  unfold clayWriteDo
  dsimp only
  repeat' (first
    | (with_reducible first | assumption | refine complete_kept ?_ | refine startCmd_kept ?_ | exact fun h => h)
    | (simp only [Kept.fields]; with_reducible refine Kept.upd ?_ ?_ ?_ ?_ ?_)
    | split)
theorem clearFlags_kept {s : State} {cls inst vec : Nat} (hk : Kept b0 s) : Kept b0 (clearFlags s cls inst vec) := by
  unfold clearFlags
  repeat' (first
    | (with_reducible first | assumption | refine setArb_kept ?_))
theorem clockRestart_kept {s : State} {src : Nat} (hk : Kept b0 s) : Kept b0 (clockRestart s src) := by
  unfold clockRestart
  repeat' (first
    | (with_reducible first | assumption | exact fun h => h)
    | (simp only [Kept.fields]; with_reducible refine Kept.upd ?_ ?_ ?_ ?_ ?_))
theorem coalMarker_kept {kind : Nat} {s : State} {x : Nat × Coal} (hk : Kept b0 s) : Kept b0 (coalMarker kind s x) := by
  unfold coalMarker
  dsimp only
  repeat' (first
    | (with_reducible first | assumption | refine enq_kept ?_ | refine setCoal_kept ?_ | exact fun h => h)
    | (simp only [Kept.fields]; with_reducible refine Kept.upd ?_ ?_ ?_ ?_ ?_)
    | split)
theorem poolWrite_kept {s : State} {a : Nat} {d : List Byte} (hk : Kept b0 s) : Kept b0 (poolWrite s a d) :=
  Kept.upd (t := s) hk (fun h => ⟨h.1, h.2.1, twf_tsetRun 0 _ _ _ h.2.2⟩) id id id
theorem updQ_kept {s : State} {q : QId} {f : Queue → Queue} (hk : Kept b0 s) : Kept b0 (updQ s q f) := by
  unfold updQ
  repeat' (first
    | (with_reducible first | assumption | refine setQ_kept ?_))
theorem cqWrite_kept {s : State} {c : Cqe} (hk : Kept b0 s) : Kept b0 (cqWrite s c) := by
  unfold cqWrite
  dsimp only
  repeat' (first
    | (with_reducible first | assumption | refine sendMsix_kept ?_ | refine poolWrite_kept ?_ | refine updQ_kept ?_ | refine hostWrite_kept ?_)
    | split)
theorem cqPost_kept {s : State} {c : Cqe} (hk : Kept b0 s) : Kept b0 (cqPost s c) := by
  unfold cqPost
  dsimp only
  repeat' (first
    | (with_reducible first | assumption | refine cqWrite_kept ?_ | refine updQ_kept ?_)
    | split)
theorem commitAfter_kept {s : State} {q : Rope} (hk : Kept b0 s) : Kept b0 (commitAfter s q) := by
  unfold commitAfter
  repeat' (first
    | (with_reducible first | assumption | refine completeAt_kept ?_ | refine attnBoth_kept ?_)
    | split)
theorem writeStaged_kept {s : State} {r : Nat} {g : Staged} (hk : Kept b0 s) : Kept b0 (writeStaged s r g).1 := by
  unfold writeStaged
  repeat' (first
    | (with_reducible first | assumption | refine raiseInteg_kept ?_ | refine stLoam_kept ?_ | refine dramWrite_kept ?_)
    | (with_reducible refine Kept.foldl (fun _ _ _ => ?_) _ _ ?_) <;> try dsimp only
    | (with_reducible refine Kept.foldl_fst (fun _ _ _ => ?_) _ _ ?_) <;> try dsimp only)
theorem commitWrite_kept {s : State} {r k win : Nat} (hk : Kept b0 s) : Kept b0 (commitWrite s r k win) := by
  unfold commitWrite
  dsimp only
  repeat' (first
    | (with_reducible first | assumption | refine addCounts_kept ?_ | refine execFault_kept ?_ | refine freeSlot_kept ?_ | refine retire_kept ?_ | refine writeStaged_kept ?_)
    | split)
theorem updWset_kept {s : State} {p : Nat} {id : W32} {f : Wset → Wset} (hk : Kept b0 s) : Kept b0 (updWset s p id f) := by
  unfold updWset
  repeat' (first
    | (with_reducible first | assumption | refine updP_kept ?_))
theorem wsetSettle_kept {s : State} {part : Nat} {id : W32} (hk : Kept b0 s) : Kept b0 (wsetSettle s part id) := by
  unfold wsetSettle
  repeat' (first
    | (with_reducible first | assumption | refine completeAt_kept ?_ | refine updWset_kept ?_)
    | split)
theorem wsetProgrammed_kept {s : State} {r p : Nat} (hk : Kept b0 s) : Kept b0 (wsetProgrammed s r p) := by
  unfold wsetProgrammed
  repeat' (first
    | (with_reducible first | assumption | refine wsetSettle_kept ?_ | refine updWset_kept ?_)
    | split)
theorem swapDone_kept {s : State} {r p t old : Nat} {wasFenced : Bool} (hk : Kept b0 s) : Kept b0 (swapDone s r p t old wasFenced) := by
  unfold swapDone
  repeat' (first
    | (with_reducible first | assumption | refine updTile_kept ?_ | refine commitMaps_kept ?_ | refine wsetProgrammed_kept ?_ | refine setJournal_kept ?_ | refine updR_kept ?_ ?_)
    | intro _ h; exact h
    | split)
theorem testAtCairn_kept {s : State} {p : Nat} {id : W32} (hk : Kept b0 s) : Kept b0 (testAtCairn s p id) := by
  unfold testAtCairn
  repeat' (first
    | (with_reducible first | assumption | refine updR_kept ?_ ?_)
    | (with_reducible refine Kept.foldl (fun _ _ _ => ?_) _ _ ?_) <;> try dsimp only
    | intro _ h; exact h
    | split)
theorem detachQueues_kept {s : State} {p : Nat} {port : Port} (hk : Kept b0 s) : Kept b0 (detachQueues s p port) := by
  unfold detachQueues
  repeat' (first
    | (with_reducible first | assumption | refine updQ_kept ?_)
    | (with_reducible refine Kept.foldl (fun _ _ _ => ?_) _ _ ?_) <;> try dsimp only)
theorem startRap_kept {s : State} {scope id tag : Nat} {port : Option Port} {fn : Nat} {why : RapWhy} (hk : Kept b0 s) : Kept b0 (startRap s scope id tag port fn why) := by
  unfold startRap
  repeat' (first
    | (with_reducible first | assumption | refine enq_kept ?_ | exact fun h => h)
    | (simp only [Kept.fields]; with_reducible refine Kept.upd ?_ ?_ ?_ ?_ ?_))
theorem tdiFail_kept {s : State} {p : Nat} (hk : Kept b0 s) : Kept b0 (tdiFail s p) := by
  unfold tdiFail
  dsimp only
  repeat' (first
    | (with_reducible first | assumption | refine securityEvent_kept ?_ | refine updP_kept ?_ | refine startRap_kept ?_)
    | split)
theorem tdiError_kept {s : State} {p : Nat} (hk : Kept b0 s) : Kept b0 (tdiError s p) := by
  unfold tdiError
  repeat' (first
    | (with_reducible first | assumption | refine tdiFail_kept ?_)
    | split)
theorem movePool_kept {s : State} {p : Nat} {port : Port} (hk : Kept b0 s) : Kept b0 (movePool s p port) := by
  unfold movePool
  repeat' (first
    | (with_reducible first | assumption | refine updQ_kept ?_)
    | (with_reducible refine Kept.foldl (fun _ _ _ => ?_) _ _ ?_) <;> try dsimp only)
theorem updFn_kept {s : State} {p : Port} {f : Nat} {g : FnRegs → FnRegs} (hk : Kept b0 s) : Kept b0 (updFn s p f g) := by
  unfold updFn
  repeat' (first
    | (with_reducible first | assumption | exact fun h => h)
    | (simp only [Kept.fields]; with_reducible refine Kept.upd ?_ ?_ ?_ ?_ ?_)
    | intro h; exact h)
theorem resetFn_kept {s : State} {p : Nat} (hk : Kept b0 s) : Kept b0 (resetFn s p) := by
  unfold resetFn
  repeat' (first
    | (with_reducible first | assumption | refine updFn_kept ?_))
theorem layoutLive_kept {s : State} {p : Nat} {t : Part} {seq : Nat} (hk : Kept b0 s) : Kept b0 (layoutLive s p t seq) := by
  unfold layoutLive
  dsimp only
  repeat' (first
    | (with_reducible first | assumption | refine setP_kept ?_ | refine dropExports_kept ?_ | refine initRanges_kept ?_ | refine detachQueues_kept ?_ | refine updP_kept ?_ | refine tdiError_kept ?_ | refine dropPart_kept ?_ | refine movePool_kept ?_ | refine resetFn_kept ?_ | refine updR_kept ?_ ?_ | exact fun h => h)
    | (simp only [Kept.fields]; with_reducible refine Kept.upd ?_ ?_ ?_ ?_ ?_)
    | (with_reducible refine Kept.foldl (fun _ _ _ => ?_) _ _ ?_) <;> try dsimp only
    | intro _ h; exact h
    | split)
theorem setMap_kept {s : State} {r p phys : Nat} {fenced : Bool} (hk : Kept b0 s) : Kept b0 (setMap s r p phys fenced) := by
  unfold setMap
  repeat' (first
    | (with_reducible first | assumption | refine updR_kept ?_ ?_)
    | intro _ h; exact h)
theorem commitAction_kept {seq : Nat} {s : State} {a : Action} (hk : Kept b0 s) : Kept b0 (commitAction seq s a) := by
  unfold commitAction
  dsimp only
  repeat' (first
    | (with_reducible first | assumption | refine commitWrite_kept ?_ | refine securityEvent_kept ?_ | refine swapDone_kept ?_ | refine updTile_kept ?_ | refine queueRec_kept ?_ | refine testAtCairn_kept ?_ | refine commitMaps_kept ?_ | refine updJob_kept ?_ | refine layoutLive_kept ?_ | refine setMap_kept ?_ | refine updR_kept ?_ ?_ | exact fun h => h)
    | (simp only [Kept.fields]; with_reducible refine Kept.upd ?_ ?_ ?_ ?_ ?_)
    | intro _ h; exact h
    | split)
theorem leaveRope_kept {s : State} {e : Nat} (hk : Kept b0 s) : Kept b0 (leaveRope s e) := by
  unfold leaveRope
  repeat' (first
    | (with_reducible first | assumption | refine updCtx_kept ?_ | refine settleCtx_kept ?_)
    | (with_reducible refine Kept.foldl (fun _ _ _ => ?_) _ _ ?_) <;> try dsimp only
    | split)
theorem scrubDone_kept {s : State} {p : Nat} {port : Port} {cmd : Option (QId × W16)} (hk : Kept b0 s) : Kept b0 (scrubDone s p port cmd) := by
  unfold scrubDone
  repeat' (first
    | (with_reducible first | assumption | refine securityEvent_kept ?_ | refine completeAt_kept ?_ | refine wholeSettle_kept ?_ | refine writePending_kept ?_)
    | split)
theorem commitSignal_kept {q : Rope} {s : State} {a : Action} (hk : Kept b0 s) : Kept b0 (commitSignal q s a) := by
  unfold commitSignal
  repeat' (first
    | (with_reducible first | assumption | refine addCounter_kept ?_)
    | split)
theorem ropeCommit_kept {s : State} {e seq : Nat} (hk : Kept b0 s) : Kept b0 (ropeCommit s e seq) := by
  unfold ropeCommit
  repeat' (first
    | (with_reducible first | assumption | refine commitAfter_kept ?_ | refine setRope_kept ?_ | refine commitAction_kept ?_ | refine leaveRope_kept ?_ | refine scrubDone_kept ?_ | refine commitSignal_kept ?_)
    | (with_reducible refine Kept.foldl (fun _ _ _ => ?_) _ _ ?_) <;> try dsimp only
    | split)
theorem setWin_kept {s : State} {k : Nat} {w : Window} (hk : Kept b0 s) : Kept b0 (setWin s k w) := by
  unfold setWin
  repeat' (first
    | (with_reducible first | assumption | exact fun h => h)
    | (simp only [Kept.fields]; with_reducible refine Kept.upd ?_ ?_ ?_ ?_ ?_)
    | split)
theorem logIntake_kept {s : State} {e : Ev} {seq first severity : Nat} (hk : Kept b0 s) : Kept b0 (logIntake s e seq first severity) := by
  unfold logIntake
  repeat' (first
    | (with_reducible first | assumption | exact fun h => h)
    | (simp only [Kept.fields]; with_reducible refine Kept.upd ?_ ?_ ?_ ?_ ?_)
    | split)
theorem logEpisodes_kept {s : State} {seq : Nat} (hk : Kept b0 s) : Kept b0 (logEpisodes s seq) := by
  unfold logEpisodes
  repeat' (first
    | (with_reducible first | assumption | refine logIntake_kept ?_ | exact fun h => h)
    | (simp only [Kept.fields]; with_reducible refine Kept.upd ?_ ?_ ?_ ?_ ?_)
    | (with_reducible refine Kept.foldl (fun _ _ _ => ?_) _ _ ?_) <;> try dsimp only)
theorem windowClosed_kept {s : State} {kind seq : Nat} (hk : Kept b0 s) : Kept b0 (windowClosed s kind seq) := by
  unfold windowClosed
  repeat' (first
    | (with_reducible first | assumption | refine setWin_kept ?_ | refine logEpisodes_kept ?_ | refine coalMarker_kept ?_ | exact fun h => h)
    | (simp only [Kept.fields]; with_reducible refine Kept.upd ?_ ?_ ?_ ?_ ?_)
    | (with_reducible refine Kept.foldl (fun _ _ _ => ?_) _ _ ?_) <;> try dsimp only
    | split)
theorem dropRecord_kept {s : State} {p : Port} {f : Nat} (hk : Kept b0 s) : Kept b0 (dropRecord s p f) := by
  unfold dropRecord
  repeat' (first
    | (with_reducible first | assumption | refine setAttn_kept ?_ | refine updFn_kept ?_)
    | split)
theorem ringWrite_kept {s : State} {p : Port} {f ty : Nat} {b : List Byte} (hk : Kept b0 s) : Kept b0 (ringWrite s p f ty b) := by
  unfold ringWrite
  dsimp only
  repeat' (first
    | (with_reducible first | assumption | refine sendMsix_kept ?_ | refine updFn_kept ?_ | refine dropRecord_kept ?_ | refine hostWrite_kept ?_)
    | split)
theorem routeEvent_kept {s : State} {e : Ev} {b : List Byte} (hk : Kept b0 s) : Kept b0 (routeEvent s e b) := by
  unfold routeEvent
  dsimp only
  repeat' (first
    | (with_reducible first | assumption | refine ringWrite_kept ?_)
    | split)
theorem grantEvent_kept {s : State} {e : Ev} {seq : Nat} (hk : Kept b0 s) : Kept b0 (grantEvent s e seq) := by
  unfold grantEvent
  repeat' (first
    | (with_reducible first | assumption | refine useFree_kept ?_ | refine logIntake_kept ?_ | refine routeEvent_kept ?_ | exact fun h => h)
    | (simp only [Kept.fields]; with_reducible refine Kept.upd ?_ ?_ ?_ ?_ ?_)
    | split)
theorem rapStatusDone_kept {s : State} {k : Rappel} (hk : Kept b0 s) : Kept b0 (rapStatusDone s k) := by
  unfold rapStatusDone
  repeat' (first
    | (with_reducible first | assumption | refine updFn_kept ?_)
    | split)
theorem dropIde_kept {s : State} {f : Nat} (hk : Kept b0 s) : Kept b0 (dropIde s f) := by
  unfold dropIde
  repeat' (first
    | (with_reducible first | assumption | exact fun h => h)
    | (simp only [Kept.fields]; with_reducible refine Kept.upd ?_ ?_ ?_ ?_ ?_))
theorem stopEngines_kept {s : State} {ridges : RMask} (hk : Kept b0 s) : Kept b0 (stopEngines s ridges) := by
  unfold stopEngines
  repeat' (first
    | (with_reducible first | assumption | refine updR_kept ?_ ?_ | exact fun h => h)
    | (simp only [Kept.fields]; with_reducible refine Kept.upd ?_ ?_ ?_ ?_ ?_)
    | (with_reducible refine Kept.foldl (fun _ _ _ => ?_) _ _ ?_) <;> try dsimp only
    | intro _ h; exact h)
theorem scrubBegin_kept {s : State} {p : Nat} (hk : Kept b0 s) : Kept b0 (scrubBegin s p) := by
  unfold scrubBegin
  dsimp only
  repeat' (first
    | (with_reducible first | assumption | refine dropIde_kept ?_ | refine initRanges_kept ?_ | refine updP_kept ?_ | refine removeQueues_kept ?_ | refine dropPart_kept ?_ | refine stopEngines_kept ?_ | refine writePending_kept ?_ | refine updR_kept ?_ ?_ | exact fun h => h)
    | (simp only [Kept.fields]; with_reducible refine Kept.upd ?_ ?_ ?_ ?_ ?_)
    | (with_reducible refine Kept.foldl (fun _ _ _ => ?_) _ _ ?_) <;> try dsimp only
    | exact fun _ h => zeroRidge_loam h
    | split)
theorem rapAfter_kept {s : State} {w : RapWhy} (hk : Kept b0 s) : Kept b0 (rapAfter s w) := by
  unfold rapAfter
  dsimp only
  repeat' (first
    | (with_reducible first | assumption | refine removeQueue_kept ?_ | refine basecampReset_kept ?_ | refine scrubBegin_kept ?_ | refine complete_kept ?_ | refine removeQueues_kept ?_)
    | split)
theorem resumeQueues_kept {s : State} (hk : Kept b0 s) : Kept b0 (resumeQueues s) := by
  unfold resumeQueues
  repeat' (first
    | (with_reducible first | assumption | refine updQ_kept ?_)
    | (with_reducible refine Kept.foldl (fun _ _ _ => ?_) _ _ ?_) <;> try dsimp only
    | split)
theorem quiesceDone_kept {s : State} {key : Nat} (hk : Kept b0 s) : Kept b0 (quiesceDone s key) := by
  unfold quiesceDone
  repeat' (first
    | (with_reducible first | assumption | refine pinSync_kept ?_ | refine rapStatusDone_kept ?_ | refine scrubSettle_kept ?_ | refine rapAfter_kept ?_ | refine resumeQueues_kept ?_ | exact fun h => h)
    | (simp only [Kept.fields]; with_reducible refine Kept.upd ?_ ?_ ?_ ?_ ?_)
    | (with_reducible refine Kept.foldl (fun _ _ _ => ?_) _ _ ?_) <;> try dsimp only
    | split)
theorem freeGranted_kept {s : State} {e : Ev} (hk : Kept b0 s) : Kept b0 (freeGranted s e) := by
  unfold freeGranted
  dsimp only
  repeat' (first
    | (with_reducible first | assumption | refine setRope_kept ?_)
    | split)
theorem ropeHeldAbort_kept {s : State} {e : Nat} (hk : Kept b0 s) : Kept b0 (ropeHeldAbort s e) := by
  unfold ropeHeldAbort
  repeat' (first
    | (with_reducible first | assumption | refine setRope_kept ?_ | refine ropeWhyFailed_kept ?_ | refine ropeUnwind_kept ?_)
    | (with_reducible refine Kept.foldl (fun _ _ _ => ?_) _ _ ?_) <;> try dsimp only
    | split)
theorem quiesceEngines_kept {s : State} {k : Rappel} (hk : Kept b0 s) : Kept b0 (quiesceEngines s k) := by
  unfold quiesceEngines
  repeat' (first
    | (with_reducible first | assumption | refine updR_kept ?_ ?_ | exact fun h => h)
    | (simp only [Kept.fields]; with_reducible refine Kept.upd ?_ ?_ ?_ ?_ ?_)
    | (with_reducible refine Kept.foldl (fun _ _ _ => ?_) _ _ ?_) <;> try dsimp only
    | intro _ h; exact h
    | split)
theorem quiesceLoads_kept {s : State} {k : Rappel} (hk : Kept b0 s) : Kept b0 (quiesceLoads s k) := by
  unfold quiesceLoads
  repeat' (first
    | (with_reducible first | assumption | refine updP_kept ?_)
    | (with_reducible refine Kept.foldl (fun _ _ _ => ?_) _ _ ?_) <;> try dsimp only)
theorem quiesceClay_kept {s : State} {k : Rappel} (hk : Kept b0 s) : Kept b0 (quiesceClay s k) := by
  unfold quiesceClay
  repeat' (first
    | (with_reducible first | assumption | exact fun h => h)
    | (simp only [Kept.fields]; with_reducible refine Kept.upd ?_ ?_ ?_ ?_ ?_))
theorem quiesceQueue_kept {k : Rappel} {a : State × Nat} {id : QId} (hk : Kept b0 a.1) : Kept b0 (quiesceQueue k a id).1 := by
  unfold quiesceQueue
  repeat' (first
    | (with_reducible first | assumption | refine abortEntry_kept ?_ | refine updQ_kept ?_)
    | (with_reducible refine Kept.foldl (fun _ _ _ => ?_) _ _ ?_) <;> try dsimp only
    | split)
theorem quiesceCal_kept {s : State} {k : Rappel} (hk : Kept b0 s) : Kept b0 (quiesceCal s k) := by
  unfold quiesceCal
  repeat' (first
    | (with_reducible first | assumption | refine updR_kept ?_ ?_)
    | (with_reducible refine Kept.foldl (fun _ _ _ => ?_) _ _ ?_) <;> try dsimp only
    | intro _ h; exact h
    | split)
theorem endSurvey_kept {s : State} {r t : Nat} (hk : Kept b0 s) : Kept b0 (endSurvey s r t) := by
  unfold endSurvey
  dsimp only
  repeat' (first
    | (with_reducible first | assumption | refine updTile_kept ?_ | refine retire_kept ?_)
    | split)
theorem quiesceSurveys_kept {s : State} {k : Rappel} (hk : Kept b0 s) : Kept b0 (quiesceSurveys s k) := by
  unfold quiesceSurveys
  repeat' (first
    | (with_reducible first | assumption | refine endSurvey_kept ?_ | refine requestSurvey_kept ?_)
    | (with_reducible refine Kept.foldl (fun _ _ _ => ?_) _ _ ?_) <;> try dsimp only
    | split)
theorem initSettle_kept {s : State} (hk : Kept b0 s) : Kept b0 (initSettle s) := by
  unfold initSettle
  repeat' (first
    | (with_reducible first | assumption | refine updP_kept ?_)
    | (with_reducible refine Kept.foldl (fun _ _ _ => ?_) _ _ ?_) <;> try dsimp only
    | split)
theorem updRap_kept {s : State} {key : Nat} {f : Rappel → Rappel} (hk : Kept b0 s) : Kept b0 (updRap s key f) := by
  unfold updRap
  repeat' (first
    | (with_reducible first | assumption | exact fun h => h)
    | (simp only [Kept.fields]; with_reducible refine Kept.upd ?_ ?_ ?_ ?_ ?_))
theorem quiesceBegin_kept {s : State} {key : Nat} (hk : Kept b0 s) : Kept b0 (quiesceBegin s key) := by
  unfold quiesceBegin
  repeat' (first
    | (with_reducible first | assumption | refine quiesceEngines_kept ?_ | refine quiesceLoads_kept ?_ | refine endJob_kept ?_ | refine enq_kept ?_ | refine quiesceClay_kept ?_ | refine quiesceQueue_kept ?_ | refine complete_kept ?_ | refine quiesceCal_kept ?_ | refine quiesceSurveys_kept ?_ | refine initSettle_kept ?_ | refine ropeKill_kept ?_ | refine updRap_kept ?_)
    | (with_reducible refine Kept.foldl (fun _ _ _ => ?_) _ _ ?_) <;> try dsimp only
    | (with_reducible refine Kept.foldl_fst (fun _ _ _ => ?_) _ _ ?_) <;> try dsimp only
    | split)
theorem grantReq_kept {s : State} {q : Req} {seq : Nat} (hk : Kept b0 s) : Kept b0 (grantReq s q seq) := by
  unfold grantReq
  dsimp only
  repeat' (first
    | (with_reducible first | assumption | refine answerClip_kept ?_ | refine setCoal_kept ?_ | refine cqPost_kept ?_ | refine ropeCommit_kept ?_ | refine windowClosed_kept ?_ | refine grantEvent_kept ?_ | refine quiesceDone_kept ?_ | refine freeGranted_kept ?_ | refine ropeHeldAbort_kept ?_ | refine quiesceBegin_kept ?_ | exact fun h => h)
    | (simp only [Kept.fields]; with_reducible refine Kept.upd ?_ ?_ ?_ ?_ ?_)
    | split)
theorem granting_kept {s : State} {k : Nat} {rest : List Req} (hk : Kept b0 s) : Kept b0 (granting s k rest) := by
  unfold granting
  repeat' (first
    | (with_reducible first | assumption | refine arbWait_kept ?_ | exact fun h => h)
    | (simp only [Kept.fields]; with_reducible refine Kept.upd ?_ ?_ ?_ ?_ ?_))
theorem colGrant_kept {s : State} (hk : Kept b0 s) : Kept b0 (colGrant s) := by
  unfold colGrant
  repeat' (first
    | (with_reducible first | assumption | refine grantReq_kept ?_ | refine granting_kept ?_)
    | split)
theorem guardClips_kept {s : State} {r : Nat} {e : Win} {devs : List AdcDev} (hk : Kept b0 s) : Kept b0 (guardClips s r e devs) := by
  unfold guardClips
  repeat' (first
    | (with_reducible first | assumption | refine raiseCoal_kept ?_)
    | (with_reducible refine Kept.foldl (fun _ _ _ => ?_) _ _ ?_) <;> try dsimp only
    | split)
theorem commitEffect_kept {s : State} {r : Nat} {e : Win} {devs : List AdcDev} (hk : Kept b0 s) : Kept b0 (commitEffect s r e devs) := by
  unfold commitEffect
  repeat' (first
    | (with_reducible first | assumption | refine guardClips_kept ?_ | refine updJob_kept ?_ | refine setSlot_kept ?_)
    | split)
theorem countCorrected_kept {s : State} {unit src thrsh loc no : Nat} (hk : Kept b0 s) : Kept b0 (countCorrected s unit src thrsh loc no) := by
  unfold countCorrected
  dsimp only
  repeat' (first
    | (with_reducible first | assumption | refine raise_kept ?_ | exact fun h => h)
    | (simp only [Kept.fields]; with_reducible refine Kept.upd ?_ ?_ ?_ ?_ ?_)
    | split)
theorem countFailed_kept {s : State} {r p : Nat} (hk : Kept b0 s) : Kept b0 (countFailed s r p) := by
  unfold countFailed
  dsimp only
  repeat' (first
    | (with_reducible first | assumption | refine raise_kept ?_ | refine updR_kept ?_ ?_ | exact fun h => h)
    | (simp only [Kept.fields]; with_reducible refine Kept.upd ?_ ?_ ?_ ?_ ?_)
    | intro _ h; exact h
    | split)
theorem countFired_kept {s : State} {r : Nat} {l : Lane} (hk : Kept b0 s) : Kept b0 (countFired s r l) := by
  unfold countFired
  repeat' (first
    | (with_reducible first | assumption | refine updTile_kept ?_ | refine updPos_kept ?_)
    | split)
theorem countReplays_kept {s : State} {n k : Nat} (hk : Kept b0 s) : Kept b0 (countReplays s n k) := by
  unfold countReplays
  dsimp only
  repeat' (first
    | (with_reducible first | assumption | refine linkEvent_kept ?_ | refine setLink_kept ?_)
    | split)
theorem cqFlushAux_kept {i : QId} : ∀ (n : Nat) {s : State}, Kept b0 s → Kept b0 (cqFlushAux n s i)
  | 0, _, hk => hk
  | n + 1, s, hk => by
    unfold cqFlushAux
    dsimp only
    split
    · exact hk
    · split
      · exact cqFlushAux_kept n (cqWrite_kept (updQ_kept hk))
      · exact hk
theorem cqFlush_kept {s : State} {i : QId} (hk : Kept b0 s) : Kept b0 (cqFlush s i) := cqFlushAux_kept _ hk
theorem createEnd_kept {s : State} {c : Cmd} (hk : Kept b0 s) : Kept b0 (createEnd s c) := by
  unfold createEnd
  repeat' (first
    | (with_reducible first | assumption | refine updP_kept ?_ | refine complete_kept ?_)
    | split)
theorem thermalCoal_kept {s : State} {src cause part v : Nat} {fs : List (Nat × Nat × Nat)} (hk : Kept b0 s) : Kept b0 (thermalCoal s src cause part v fs) := by
  unfold thermalCoal
  repeat' (first
    | (with_reducible first | assumption | refine raiseCoal_kept ?_))
theorem critRidge_kept {s : State} {r : Nat} (hk : Kept b0 s) : Kept b0 (critRidge s r) := by
  unfold critRidge
  dsimp only
  repeat' (first
    | (with_reducible first | assumption | refine thermalCoal_kept ?_ | exact fun h => h)
    | (simp only [Kept.fields]; with_reducible refine Kept.upd ?_ ?_ ?_ ?_ ?_)
    | split)
theorem thermalCore_kept {s : State} {cause part : Nat} {fs : List (Nat × Nat × Nat)} (hk : Kept b0 s) : Kept b0 (thermalCore s cause part fs) := by
  unfold thermalCore
  repeat' (first
    | (with_reducible first | assumption | refine raiseCore_kept ?_))
theorem crossCheck_kept {s : State} {r t : Nat} {g : Q} (hk : Kept b0 s) : Kept b0 (crossCheck s r t g) := by
  unfold crossCheck
  dsimp only
  repeat' (first
    | (with_reducible first | assumption | refine thermalCore_kept ?_ | exact fun h => h)
    | (simp only [Kept.fields]; with_reducible refine Kept.upd ?_ ?_ ?_ ?_ ?_)
    | split)
theorem dmaBody_kept {op : Nat} {r : Ridge} {x : Ctx} {w : W128} {s : State} (hk : Kept b0 s) : IssAll (Kept b0) (dmaBody op r x w s) := by
  unfold dmaBody
  dsimp only
  repeat' (first
    | (with_reducible first | assumption | refine setDma_kept ?_ | refine pushWin_kept ?_ | exact fun h => h | refine IssAll.intro_next ?_)
    | (simp only [Kept.fields]; with_reducible refine Kept.upd ?_ ?_ ?_ ?_ ?_)
    | exact trivial
    | split)
theorem dmaFault_kept {s : State} {j : Job} {d : Dma} {c cause addr acc level : Nat} (hk : Kept b0 s) : Kept b0 (dmaFault s j d c cause addr acc level) := by
  unfold dmaFault
  repeat' (first
    | (with_reducible first | assumption | refine mmuFault_kept ?_ | refine useFree_kept ?_))
theorem dmaPlaces_kept {s : State} {j : Job} {d : Dma} {c a len acc : Nat} (hk : Kept b0 s) : DvaAll (Kept b0) (dmaPlaces s j d c a len acc) := by
  unfold dmaPlaces
  repeat' (first
    | (with_reducible first | assumption | refine useFree_kept ?_ | refine askWalks_kept ?_ | refine dmaFault_kept ?_ | refine DvaAll.intro_wait ?_)
    | exact trivial
    | split)
theorem dmaInvalSeg_kept {s : State} {j : Option Job} {d : Dma} {c a len : Nat} (hk : Kept b0 s) : SegAll (Kept b0) (dmaInvalSeg s j d c a len) := by
  unfold dmaInvalSeg
  repeat' (first
    | (with_reducible first | assumption | refine DvaAll.wait (dmaPlaces_kept ?_) (by assumption) | exact fun h => h | refine SegAll.intro_done ?_ | refine SegAll.intro_wait ?_)
    | (simp only [Kept.fields]; with_reducible refine Kept.upd ?_ ?_ ?_ ?_ ?_)
    | (with_reducible refine Kept.foldl (fun _ _ _ => ?_) _ _ ?_) <;> try dsimp only
    | split)
theorem dmaRead_kept {s : State} {j : Option Job} {d : Dma} {c : Nat} {hostOk : Bool} {a len : Nat} (hk : Kept b0 s) : DSrcAll (Kept b0) (dmaRead s j d c hostOk a len) := by
  unfold dmaRead
  repeat' (first
    | (with_reducible first | assumption | refine DvaAll.wait (dmaPlaces_kept ?_) (by assumption) | refine askPieces_kept ?_ | refine dmaFault_kept ?_ | refine DSrcAll.intro_wait ?_)
    | exact trivial
    | split)
theorem dmaStore_kept {s : State} {j : Option Job} {d : Dma} {c : Nat} {hostOk : Bool} {a : Nat} {b : List Byte} {tag : W32} (hk : Kept b0 s) : SegAll (Kept b0) (dmaStore s j d c hostOk a b tag) := by
  unfold dmaStore
  dsimp only
  repeat' (first
    | (with_reducible first | assumption | refine OptAll.of_some (peerSendAll_kept ?_) (by assumption) | refine DvaAll.wait (dmaPlaces_kept ?_) (by assumption) | refine writePieces_kept ?_ | refine useFree_kept ?_ | refine holdWrite_kept ?_ | refine stLoam_kept ?_ | refine markDirty_kept ?_ | refine dmaFault_kept ?_ | refine hostWrite_kept ?_ | refine SegAll.intro_done ?_ | refine SegAll.intro_wait ?_)
    | split)
theorem dropOnce_kept {s : State} {p agent : Nat} (hk : Kept b0 s) : Kept b0 (dropOnce s p agent) := by
  unfold dropOnce
  repeat' (first
    | (with_reducible first | assumption | exact fun h => h)
    | (simp only [Kept.fields]; with_reducible refine Kept.upd ?_ ?_ ?_ ?_ ?_))
theorem dmaSeg_kept {s : State} {j : Option Job} {d : Dma} {c : Nat} {hostOk : Bool} {row off len : Nat} (hk : Kept b0 s) : SegAll (Kept b0) (dmaSeg s j d c hostOk row off len) := by
  unfold dmaSeg
  dsimp only
  repeat' (first
    | (with_reducible first | assumption | refine DSrcAll.wait (dmaRead_kept ?_) (by assumption) | refine raiseInteg_kept ?_ | refine dmaStore_kept ?_ | refine dmaInvalSeg_kept ?_ | refine dropOnce_kept ?_ | refine SegAll.intro_done ?_ | refine SegAll.intro_wait ?_)
    | split)
theorem ridgeRead_kept {s : State} {p : Nat} {j : Job} {r dva len idx : Nat} (hk : Kept b0 s) : DvaAll (Kept b0) (ridgeRead s p j r dva len idx) := by
  unfold ridgeRead
  repeat' (first
    | (with_reducible first | assumption | refine ridgePlaces_kept ?_ | refine askPieces_kept ?_ | refine DvaAll.intro_wait ?_)
    | exact trivial
    | split)
theorem dmmB_kept {s : State} {r : Nat} {x : Ctx} {w : W128} {d : DmuDesc} (hk : Kept b0 s) : BResAll (Kept b0) (dmmB s r x w d) := by
  unfold dmmB
  dsimp only
  repeat' (first
    | (with_reducible first | assumption | refine DvaAll.wait (ridgeRead_kept ?_) (by assumption) | refine BResAll.intro_stay ?_)
    | exact trivial
    | split)
theorem dmmBase_kept {s : State} {r : Nat} {x : Ctx} (hk : Kept b0 s) : Kept b0 (dmmBase s r x) := by
  unfold dmmBase
  repeat' (first
    | (with_reducible first | assumption | refine dropOnce_kept ?_)
    | split)
theorem dmuWrite_kept {s : State} {r : Nat} {x : Ctx} {l : List (LOp × List Byte)} {tag : W32} {outsat : Nat} (hk : Kept b0 s) : IssAll (Kept b0) (dmuWrite s r x l tag outsat) := by
  unfold dmuWrite
  dsimp only
  repeat' (first
    | (with_reducible first | assumption | refine faultAt_kept ?_ | refine stLoam_kept ?_ | refine addOutsat_kept ?_ | refine IssAll.intro_next ?_ | refine IssAll.intro_stay ?_)
    | (with_reducible refine Kept.foldl_fst (fun _ _ _ => ?_) _ _ ?_) <;> try dsimp only
    | split)
theorem domFresh_kept {s : State} {d : Nat} (hk : Kept b0 s) : Kept b0 (domFresh s d) := by
  unfold domFresh
  repeat' (first
    | (with_reducible first | assumption | refine setLink_kept ?_ | refine clockRestart_kept ?_ | refine updR_kept ?_ ?_)
    | (with_reducible refine Kept.foldl (fun _ _ _ => ?_) _ _ ?_) <;> try dsimp only
    | intro _ h; exact h
    | exact fun _ h => freshLoam_loam h
    | split)
theorem domDone_kept {s : State} {d : Nat} (hk : Kept b0 s) : Kept b0 (domDone s d) := by
  unfold domDone
  repeat' (first
    | (with_reducible first | assumption | refine domFresh_kept ?_ | refine domStart_kept ?_ | refine setDom_kept ?_)
    | (with_reducible refine Kept.foldl (fun _ _ _ => ?_) _ _ ?_) <;> try dsimp only
    | split)
theorem doubtAll_kept {s : State} {d : Nat} (hk : Kept b0 s) : Kept b0 (doubtAll s d) := by
  unfold doubtAll
  repeat' (first
    | (with_reducible first | assumption | refine doubt_kept ?_)
    | (with_reducible refine Kept.foldl (fun _ _ _ => ?_) _ _ ?_) <;> try dsimp only
    | split)
theorem drawn_kept {s : State} (hk : Kept b0 s) : Kept b0 (drawn s).2 := by
  unfold drawn
  repeat' (first
    | (with_reducible first | assumption | refine newKey_kept ?_))
theorem queueRefresh_kept {s : State} {r p rank : Nat} (hk : Kept b0 s) : Kept b0 (queueRefresh s r p rank) := by
  refine updR_kept hk (fun rd h => ?_)
  split <;> exact h
theorem driftCheck_kept {s : State} {r t p : Nat} {g : List Q} (hk : Kept b0 s) : Kept b0 (driftCheck s r t p g) := by
  unfold driftCheck
  dsimp only
  repeat' (first
    | (with_reducible first | assumption | refine tileEvent_kept ?_ | refine queueRefresh_kept ?_)
    | split)
theorem dropOp_kept {s : State} {o : ProgOp} (hk : Kept b0 s) : Kept b0 (dropOp s o) := by
  unfold dropOp
  repeat' (first
    | (with_reducible first | assumption | exact fun h => h)
    | (simp only [Kept.fields]; with_reducible refine Kept.upd ?_ ?_ ?_ ?_ ?_))
theorem dropPortIde_kept {s : State} {p : Port} (hk : Kept b0 s) : Kept b0 (dropPortIde s p) := by
  unfold dropPortIde
  repeat' (first
    | (with_reducible first | assumption | exact fun h => h)
    | (simp only [Kept.fields]; with_reducible refine Kept.upd ?_ ?_ ?_ ?_ ?_))
theorem dropSessIde_kept {s : State} {p : Port} {sid : Nat} (hk : Kept b0 s) : Kept b0 (dropSessIde s p sid) := by
  unfold dropSessIde
  repeat' (first
    | (with_reducible first | assumption | exact fun h => h)
    | (simp only [Kept.fields]; with_reducible refine Kept.upd ?_ ?_ ?_ ?_ ?_))
theorem dropTlb_kept {s : State} {p : Nat} {id : W32} {base len : Nat} (hk : Kept b0 s) : Kept b0 (dropTlb s p id base len) := by
  unfold dropTlb
  repeat' (first
    | (with_reducible first | assumption | exact fun h => h)
    | (simp only [Kept.fields]; with_reducible refine Kept.upd ?_ ?_ ?_ ?_ ?_))
theorem setOp_kept {s : State} {k : Nat} (hk : Kept b0 s) : Kept b0 (setOp s k) := by
  unfold setOp
  repeat' (first
    | (with_reducible first | assumption | refine thermalCore_kept ?_ | exact fun h => h)
    | (simp only [Kept.fields]; with_reducible refine Kept.upd ?_ ?_ ?_ ?_ ?_))
theorem dvfsStep_kept {s : State} (hk : Kept b0 s) : Kept b0 (dvfsStep s) := by
  unfold dvfsStep
  dsimp only
  repeat' (first
    | (with_reducible first | assumption | refine setOp_kept ?_ | exact fun h => h)
    | (simp only [Kept.fields]; with_reducible refine Kept.upd ?_ ?_ ?_ ?_ ?_)
    | split)
theorem enterRope_kept {s : State} {r : Nat} {x : Ctx} {e timeout : Nat} (hk : Kept b0 s) : Kept b0 (enterRope s r x e timeout) := by
  unfold enterRope
  repeat' (first
    | (with_reducible first | assumption | refine updCtx_kept ?_))
theorem thermalEvent_kept {s : State} {src cause part : Nat} {fs : List (Nat × Nat × Nat)} (hk : Kept b0 s) : Kept b0 (thermalEvent s src cause part fs) := by
  unfold thermalEvent
  repeat' (first
    | (with_reducible first | assumption | refine raise_kept ?_))
theorem estimated_kept {s : State} (hk : Kept b0 s) : Kept b0 (estimated s) := by
  unfold estimated
  repeat' (first
    | (with_reducible first | assumption | refine thermalEvent_kept ?_ | exact fun h => h)
    | (simp only [Kept.fields]; with_reducible refine Kept.upd ?_ ?_ ?_ ?_ ?_)
    | split)
theorem eventConfigDo_kept {s : State} {c : Cmd} (hk : Kept b0 s) : Kept b0 (eventConfigDo s c) := by
  unfold eventConfigDo
  repeat' (first
    | (with_reducible first | assumption | refine updFn_kept ?_ | refine complete_kept ?_))
theorem exhausted_kept {s : State} {r p : Nat} (hk : Kept b0 s) : Kept b0 (exhausted s r p) := by
  unfold exhausted
  dsimp only
  repeat' (first
    | (with_reducible first | assumption | refine tileEvent_kept ?_ | refine wsetProgrammed_kept ?_ | refine updWset_kept ?_ | refine setMap_kept ?_ | refine updR_kept ?_ ?_)
    | intro _ h; exact h
    | split)
theorem suspectEvent_kept {s : State} {part r p wp wf : Nat} {job : W32} (hk : Kept b0 s) : Kept b0 (suspectEvent s part r p wp wf job) := by
  unfold suspectEvent
  repeat' (first
    | (with_reducible first | assumption | refine raiseCore_kept ?_))
theorem ridgePower_kept {s : State} {r : Nat} {on : Bool} (hk : Kept b0 s) : Kept b0 (ridgePower s r on) := by
  unfold ridgePower
  repeat' (first
    | (with_reducible first | assumption | refine powerRequest_kept ?_)
    | (with_reducible refine Kept.foldl (fun _ _ _ => ?_) _ _ ?_) <;> try dsimp only)
theorem failRidge_kept {s : State} {r : Nat} (hk : Kept b0 s) : Kept b0 (failRidge s r) := by
  unfold failRidge
  repeat' (first
    | (with_reducible first | assumption | refine endJob_kept ?_ | refine queueRec_kept ?_ | refine suspectEvent_kept ?_ | refine ridgePower_kept ?_ | refine raiseCore_kept ?_ | refine updR_kept ?_ ?_)
    | (with_reducible refine Kept.foldl (fun _ _ _ => ?_) _ _ ?_) <;> try dsimp only
    | intro _ h; exact h
    | split)
theorem fetchOne_kept {s : State} {id : QId} (hk : Kept b0 s) : Kept b0 (fetchOne s id) := by
  unfold fetchOne
  dsimp only
  repeat' (first
    | (with_reducible first | assumption | refine updQ_kept ?_ | exact fun h => h)
    | (simp only [Kept.fields]; with_reducible refine Kept.upd ?_ ?_ ?_ ?_ ?_)
    | intro h; exact h
    | split)
theorem filGo_kept {s : State} {r : Nat} {w : W128} {b : List Byte} {bad : Bool} (hk : Kept b0 s) : IssAll (Kept b0) (filGo s r w b bad) := by
  unfold filGo
  dsimp only
  repeat' (first
    | (with_reducible first | assumption | refine settleRidge_kept ?_ | refine setSlot_kept ?_ | refine IssAll.intro_next ?_)
    | exact trivial
    | split)
theorem fillLine_kept {s : State} {part pa : Nat} (hk : Kept b0 s) : Kept b0 (fillLine s part pa) := by
  unfold fillLine
  repeat' (first
    | (with_reducible first | assumption | exact fun h => h)
    | (simp only [Kept.fields]; with_reducible refine Kept.upd ?_ ?_ ?_ ?_ ?_))
theorem fillPeer_kept {s : State} {h : Hail} {st : PeerSt} (hk : Kept b0 s) : Kept b0 (fillPeer s h st) := by
  unfold fillPeer
  repeat' (first
    | (with_reducible first | assumption | refine setPeer_kept ?_))
theorem fillTlb_kept {s : State} {w : Walk} {g : Page} (hk : Kept b0 s) : Kept b0 (fillTlb s w g) := by
  unfold fillTlb
  repeat' (first
    | (with_reducible first | assumption | exact fun h => h)
    | (simp only [Kept.fields]; with_reducible refine Kept.upd ?_ ?_ ?_ ?_ ?_))
theorem foldReports_kept {s : State} {r t : Nat} {fs : List FoldEnt} (hk : Kept b0 s) : Kept b0 (foldReports s r t fs) := by
  unfold foldReports
  repeat' (first
    | (with_reducible first | assumption | refine tileEvent_kept ?_ | refine queueRefresh_kept ?_)
    | (with_reducible refine Kept.foldl (fun _ _ _ => ?_) _ _ ?_) <;> try dsimp only
    | split)
theorem powerLimit_kept {s : State} {row r mw : Nat} (hk : Kept b0 s) : Kept b0 (powerLimit s row r mw) := by
  unfold powerLimit
  repeat' (first
    | (with_reducible first | assumption | refine thermalCoal_kept ?_))
theorem frameBoard_kept {s : State} {mw : Nat} (hk : Kept b0 s) : Kept b0 (frameBoard s mw) := by
  unfold frameBoard
  dsimp only
  repeat' (first
    | (with_reducible first | assumption | refine powerLimit_kept ?_ | exact fun h => h)
    | (simp only [Kept.fields]; with_reducible refine Kept.upd ?_ ?_ ?_ ?_ ?_)
    | split)
theorem frameEnd_kept {s : State} {mv mw : Nat} (hk : Kept b0 s) : Kept b0 (frameEnd s mv mw) := by
  unfold frameEnd
  dsimp only
  repeat' (first
    | (with_reducible first | assumption | exact fun h => h)
    | (simp only [Kept.fields]; with_reducible refine Kept.upd ?_ ?_ ?_ ?_ ?_)
    | split)
theorem frameRidge_kept {dom : List Nat} {s : State} {r : Nat} (hk : Kept b0 s) : Kept b0 (frameRidge dom s r) := by
  unfold frameRidge
  dsimp only
  repeat' (first
    | (with_reducible first | assumption | refine powerLimit_kept ?_ | exact fun h => h)
    | (simp only [Kept.fields]; with_reducible refine Kept.upd ?_ ?_ ?_ ?_ ?_)
    | split)
theorem frameStore_kept {s : State} {mv mw : Nat} {d : List Nat} (hk : Kept b0 s) : Kept b0 (frameStore s mv mw d) := by
  unfold frameStore
  repeat' (first
    | (with_reducible first | assumption | exact fun h => h)
    | (simp only [Kept.fields]; with_reducible refine Kept.upd ?_ ?_ ?_ ?_ ?_))
theorem putSlot_kept {s : State} {i : Option FwImage} (hk : Kept b0 s) : Kept b0 (putSlot s i) := by
  unfold putSlot
  repeat' (first
    | (with_reducible first | assumption | exact fun h => h)
    | (simp only [Kept.fields]; with_reducible refine Kept.upd ?_ ?_ ?_ ?_ ?_))
theorem fwStageDo_kept {s : State} {c : Cmd} (hk : Kept b0 s) : Kept b0 (fwStageDo s c) := by
  unfold fwStageDo
  dsimp only
  repeat' (first
    | (with_reducible first | assumption | refine securityEvent_kept ?_ | refine putSlot_kept ?_ | refine complete_kept ?_)
    | split)
theorem goDown_kept {s : State} {n : Nat} (hk : Kept b0 s) : Kept b0 (goDown s n) := by
  unfold goDown
  repeat' (first
    | (with_reducible first | assumption | refine linkEvent_kept ?_ | refine setLink_kept ?_ | refine loseFrames_kept ?_ | refine loseDirect_kept ?_))
theorem goUp_kept {s : State} {n : Nat} (hk : Kept b0 s) : Kept b0 (goUp s n) := by
  unfold goUp
  dsimp only
  repeat' (first
    | (with_reducible first | assumption | refine linkEvent_kept ?_ | refine setLink_kept ?_ | refine countReplays_kept ?_)
    | split)
theorem goldenFails_kept {s : State} {p : Nat} {ws : W32} {r pos pa : Nat} (hk : Kept b0 s) : Kept b0 (goldenFails s p ws r pos pa) := by
  unfold goldenFails
  repeat' (first
    | (with_reducible first | assumption | refine raiseInteg_kept ?_ | refine updWset_kept ?_))
theorem hailPeer_kept {s : State} {h : Hail} {before : Peer} (hk : Kept b0 s) : Kept b0 (hailPeer s h before) := by
  unfold hailPeer
  dsimp only
  repeat' (first
    | (with_reducible first | assumption | refine fillPeer_kept ?_ | refine clearValid_kept ?_ | refine setPeer_kept ?_ | refine peerChange_kept ?_ | refine doubtAll_kept ?_)
    | split)
theorem hotAssert_kept {s : State} {cond : Nat} (hk : Kept b0 s) : Kept b0 (hotAssert s cond) := by
  unfold hotAssert
  repeat' (first
    | (with_reducible first | assumption | refine attnBoth_kept ?_ | refine thermalEvent_kept ?_ | exact fun h => h)
    | (simp only [Kept.fields]; with_reducible refine Kept.upd ?_ ?_ ?_ ?_ ?_)
    | split)
theorem hotStep_kept {s : State} (hk : Kept b0 s) : Kept b0 (hotStep s) := by
  unfold hotStep
  dsimp only
  repeat' (first
    | (with_reducible first | assumption | refine thermalCore_kept ?_ | refine hotAssert_kept ?_ | exact fun h => h)
    | (simp only [Kept.fields]; with_reducible refine Kept.upd ?_ ?_ ?_ ?_ ?_)
    | split)
theorem resetLogic_kept {s : State} {cause : Nat} {off : Bool} (hk : Kept b0 s) : Kept b0 (resetLogic s cause off) :=
  Kept.upd (t := s) hk (fun h => ⟨h.1, h.2.1, rfl⟩) (fun h => h.map (f := resetRidge s) (fun _ _ => rfl)) (fun _ => rfl) (fun h => h)
theorem inputReset_kept {s : State} (hk : Kept b0 s) : Kept b0 (inputReset s) := by
  unfold inputReset
  repeat' (first
    | (with_reducible first | assumption | refine resetLogic_kept ?_ | refine clayCut_kept ?_))
theorem issueWin_kept {s : State} {r : Nat} {w : Win} (hk : Kept b0 s) : IssAll (Kept b0) (issueWin s r w) := by
  unfold issueWin
  repeat' (first
    | (with_reducible first | assumption | refine pushWin_kept ?_ | refine IssAll.intro_next ?_))
theorem jobCairnExportDo_kept {s : State} {c : Cmd} (hk : Kept b0 s) : Kept b0 (jobCairnExportDo s c) := by
  unfold jobCairnExportDo
  repeat' (first
    | (with_reducible first | assumption | refine completeOut_kept ?_)
    | split)
theorem rebind_kept {s : State} {c : Cmd} {j : Job} {l : List (Nat × Nat)} (hk : Kept b0 s) : Kept b0 (rebind s c j l) := by
  unfold rebind
  repeat' (first
    | (with_reducible first | assumption | refine updJob_kept ?_ | exact fun h => h)
    | (simp only [Kept.fields]; with_reducible refine Kept.upd ?_ ?_ ?_ ?_ ?_)
    | intro h; exact h)
theorem releaseOne_kept {s : State} {j : Job} {w : EgressWrite} (hk : Kept b0 s) : OptAll (Kept b0) (releaseOne s j w) := by
  unfold releaseOne
  split
  · split
    · refine OptAll.intro ?_
      split
      · exact dmaAnswered_kept (hostWrite_kept hk)
      · exact hostWrite_kept hk
    · trivial
  · with_reducible exact sendReq_kept hk
theorem releaseHeld_kept {s : State} {j : Job} (hk : Kept b0 s) : Kept b0 (releaseHeld s j) := by
  unfold releaseHeld
  repeat' (first
    | (with_reducible first | assumption | refine mmuFault_kept ?_ | refine OptAll.of_some (releaseOne_kept ?_) (by assumption) | refine updJob_kept ?_)
    | (with_reducible refine Kept.foldl (fun _ _ _ => ?_) _ _ ?_) <;> try dsimp only
    | split)
theorem resumeJob_kept {s : State} {j : Job} (hk : Kept b0 s) : Kept b0 (resumeJob s j) := by
  unfold resumeJob
  dsimp only
  repeat' (first
    | (with_reducible first | assumption | refine settleRidge_kept ?_ | refine updCtx_kept ?_ | refine updJob_kept ?_ | refine releaseHeld_kept ?_)
    | (with_reducible refine Kept.foldl (fun _ _ _ => ?_) _ _ ?_) <;> try dsimp only
    | split)
theorem jobResumeDo_kept {s : State} {c : Cmd} (hk : Kept b0 s) : Kept b0 (jobResumeDo s c) := by
  unfold jobResumeDo
  repeat' (first
    | (with_reducible first | assumption | refine endJob_kept ?_ | refine rebind_kept ?_ | refine complete_kept ?_ | refine updJob_kept ?_ | refine resumeJob_kept ?_ | refine dropTlb_kept ?_)
    | split)
theorem jobSubmitDo_kept {s : State} {c : Cmd} (hk : Kept b0 s) : Kept b0 (jobSubmitDo s c) := by
  unfold jobSubmitDo
  repeat' (first
    | (with_reducible first | assumption | refine updP_kept ?_ | refine startCmd_kept ?_ | exact fun h => h)
    | (simp only [Kept.fields]; with_reducible refine Kept.upd ?_ ?_ ?_ ?_ ?_)
    | split)
theorem updProg_kept {s : State} {p h : Nat} {f : Prog → Prog} (hk : Kept b0 s) : Kept b0 (updProg s p h f) := by
  unfold updProg
  repeat' (first
    | (with_reducible first | assumption | refine updP_kept ?_))
theorem keepStates_kept {s : State} {r p h : Nat} {regs : List Region} (hk : Kept b0 s) : Kept b0 (keepStates s r p h regs) := by
  unfold keepStates
  repeat' (first
    | (with_reducible first | assumption | refine updProg_kept ?_)
    | (with_reducible refine Kept.foldl (fun _ _ _ => ?_) _ _ ?_) <;> try dsimp only
    | split)
theorem stashTables_kept {s : State} {r : Nat} (hk : Kept b0 s) : Kept b0 (stashTables s r) := by
  unfold stashTables
  repeat' (first
    | (with_reducible first | assumption | refine updProg_kept ?_)
    | split)
theorem loadTables_kept {s : State} {r p h k : Nat} (hk : Kept b0 s) : Kept b0 (loadTables s r p h k) := by
  unfold loadTables
  dsimp only
  repeat' (first
    | (with_reducible first | assumption | refine stashTables_kept ?_ | refine updR_kept ?_ ?_)
    | intro _ h; exact h
    | split)
theorem loadProg_kept {s : State} {p : Nat} {g : Prog} (hk : Kept b0 s) : Kept b0 (loadProg s p g) := by
  unfold loadProg
  repeat' (first
    | (with_reducible first | assumption | refine loadTables_kept ?_ | refine updP_kept ?_)
    | (with_reducible refine Kept.foldl (fun _ _ _ => ?_) _ _ ?_) <;> try dsimp only
    | split)
theorem queueProgram_kept {s : State} {part : Nat} {w : Wset} {g : Golden} (hk : Kept b0 s) : Kept b0 (queueProgram s part w g) := by
  unfold queueProgram
  dsimp only
  repeat' (first
    | (with_reducible first | assumption | refine commitMaps_kept ?_ | refine queueRefresh_kept ?_ | refine setMap_kept ?_ | exact fun h => h)
    | (simp only [Kept.fields]; with_reducible refine Kept.upd ?_ ?_ ?_ ?_ ?_)
    | split)
theorem releasePos_kept {s : State} {id : W32} {g : Golden} (hk : Kept b0 s) : Kept b0 (releasePos s id g) := by
  unfold releasePos
  repeat' (first
    | (with_reducible first | assumption | refine updTile_kept ?_ | refine endSurvey_kept ?_ | refine setJournal_kept ?_ | refine updR_kept ?_ ?_ | exact fun h => h)
    | (simp only [Kept.fields]; with_reducible refine Kept.upd ?_ ?_ ?_ ?_ ?_)
    | (with_reducible refine Kept.foldl (fun _ _ _ => ?_) _ _ ?_) <;> try dsimp only
    | intro _ h; exact h)
theorem releaseWset_kept {s : State} {p : Nat} {w : Wset} (hk : Kept b0 s) : Kept b0 (releaseWset s p w) := by
  unfold releaseWset
  repeat' (first
    | (with_reducible first | assumption | refine updP_kept ?_ | refine releasePos_kept ?_)
    | (with_reducible refine Kept.foldl (fun _ _ _ => ?_) _ _ ?_) <;> try dsimp only)
theorem loadStart_kept {s : State} {c : Cmd} (hk : Kept b0 s) : Kept b0 (loadStart s c) := by
  unfold loadStart
  dsimp only
  repeat' (first
    | (with_reducible first | assumption | refine queueProgram_kept ?_ | refine attachTile_kept ?_ | refine updP_kept ?_ | refine startCmd_kept ?_ | refine serviceRope_kept ?_ | refine releaseWset_kept ?_ | refine updR_kept ?_ ?_)
    | (with_reducible refine Kept.foldl (fun _ _ _ => ?_) _ _ ?_) <;> try dsimp only
    | intro _ h; exact h
    | split)
theorem logExportDo_kept {s : State} {c : Cmd} (hk : Kept b0 s) : Kept b0 (logExportDo s c) := by
  unfold logExportDo
  repeat' (first
    | (with_reducible first | assumption | refine complete2_kept ?_ | refine hostWrite_kept ?_))
theorem logicReset_kept {s : State} {cause : Nat} (hk : Kept b0 s) : Kept b0 (logicReset s cause) := by
  unfold logicReset
  repeat' (first
    | (with_reducible first | assumption | refine clayFinish_kept ?_ | refine resetLogic_kept ?_))
theorem poolTake_kept {s : State} {id n : Nat} (hk : Kept b0 s) : OptAllFst (Kept b0) (poolTake s id n) := by
  unfold poolTake
  cases poolFind s n with
  | none => trivial
  | some p => exact Kept.upd (t := s) hk (fun h => h) (fun h => h) (fun h => h) (fun h => h)
theorem placeRings_kept {s : State} {c : Cmd} (hk : Kept b0 s) : OptAllFst (Kept b0) (placeRings s c) := by
  have step : ∀ {t : State} {b : Bool} {i n a : Nat}, Kept b0 t → OptAllFst (Kept b0) (if b then poolTake t i n else some (t, a)) := by
    intro t b i n a h
    cases b
    · exact h
    · exact poolTake_kept h
  unfold placeRings
  dsimp only
  cases h1 : (if (cmdFld c 0x1C 1).testBit 0 then poolTake s (cmdFld c 0x18 2) (ringPages (64 * 2 ^ cmdFld c 0x1A 1)) else some (s, cmdFld c 0x20 8)) with
  | none => trivial
  | some a =>
    have ha : Kept b0 a.1 := OptAllFst.of_some (step hk) h1
    rw [Option.bind_some]
    cases h2 : (if (cmdFld c 0x1C 1).testBit 1 then poolTake a.1 (cmdFld c 0x18 2) (ringPages (32 * 2 ^ cmdFld c 0x1B 1)) else some (a.1, cmdFld c 0x28 8)) with
    | none => trivial
    | some b => exact OptAllFst.of_some (t := b.1) (a := b.2) (step ha) h2
theorem makeQueue_kept {s : State} {c : Cmd} (hk : Kept b0 s) : Kept b0 (makeQueue s c) := by
  unfold makeQueue
  dsimp only
  repeat' (first
    | (with_reducible first | assumption | refine cqFlush_kept ?_ | refine abortOld_kept ?_ | refine OptAllFst.of_some (placeRings_kept ?_) (by assumption) | refine complete_kept ?_ | refine setQ_kept ?_ | refine freePool_kept ?_)
    | split)
theorem reply_kept {s : State} {f : Frame} {ty status : Nat} {d : List Byte} (hk : Kept b0 s) : Kept b0 (reply s f ty status d) := by
  unfold reply
  repeat' (first
    | (with_reducible first | assumption | refine sendFrame_kept ?_)
    | split)
theorem malformed_kept {s : State} {n : Nat} {f : Frame} {ty : Nat} (hk : Kept b0 s) : Kept b0 (malformed s n f ty) := by
  unfold malformed
  repeat' (first
    | (with_reducible first | assumption | refine raiseInteg_kept ?_ | refine reply_kept ?_)
    | split)
theorem markSuspects_kept {s : State} {r p wp wf : Nat} {prompt : Option (Nat × W32)} (hk : Kept b0 s) : Kept b0 (markSuspects s r p wp wf prompt) := by
  unfold markSuspects
  repeat' (first
    | (with_reducible first | assumption | exact fun h => h)
    | (simp only [Kept.fields]; with_reducible refine Kept.upd ?_ ?_ ?_ ?_ ?_))
theorem mvmIssue_kept {s : State} {r : Nat} {x : Ctx} {w : W128} (hk : Kept b0 s) : Kept b0 (mvmIssue s r x w) := by
  unfold mvmIssue
  dsimp only
  repeat' (first
    | (with_reducible first | assumption | refine countFired_kept ?_ | refine updJob_kept ?_ | refine pushWin_kept ?_)
    | (with_reducible refine Kept.foldl (fun _ _ _ => ?_) _ _ ?_) <;> try dsimp only
    | split)
theorem mvmBody_kept {r : Ridge} {x : Ctx} {w : W128} {s : State} (hk : Kept b0 s) : IssAll (Kept b0) (mvmBody r x w s) := by
  unfold mvmBody
  dsimp only
  repeat' (first
    | (with_reducible first | assumption | refine mvmIssue_kept ?_ | refine IssAll.intro_next ?_)
    | exact trivial
    | split)
theorem pageWalk_kept {id : Nat} {s : State} (hk : Kept b0 s) : Kept b0 (pageWalk id s) := by
  unfold pageWalk
  repeat' (first
    | (with_reducible first | assumption | refine mmuFault_kept ?_ | refine ridgeMmu_kept ?_ | refine fillTlb_kept ?_ | exact fun h => h)
    | (simp only [Kept.fields]; with_reducible refine Kept.upd ?_ ?_ ?_ ?_ ?_)
    | split)
theorem setFails_kept {s : State} {p n : Nat} (hk : Kept b0 s) : Kept b0 (setFails s p n) := by
  unfold setFails
  repeat' (first
    | (with_reducible first | assumption | exact fun h => h)
    | (simp only [Kept.fields]; with_reducible refine Kept.upd ?_ ?_ ?_ ?_ ?_)
    | intro h; exact h)
theorem partBindDo_kept {s : State} {q : QId} {cid : W16} {c : Cmd} (hk : Kept b0 s) : Kept b0 (partBindDo s q cid c) := by
  unfold partBindDo
  dsimp only
  repeat' (first
    | (with_reducible first | assumption | refine securityEvent_kept ?_ | refine complete_kept ?_ | refine setFails_kept ?_ | refine startCmd_kept ?_ | refine serviceRope_kept ?_)
    | split)
theorem powerRidges_kept {s : State} {l : List Nat} (hk : Kept b0 s) : Kept b0 (powerRidges s l) := by
  unfold powerRidges
  repeat' (first
    | (with_reducible first | assumption | refine ridgePower_kept ?_)
    | (with_reducible refine Kept.foldl (fun _ _ _ => ?_) _ _ ?_) <;> try dsimp only
    | split)
theorem partCreateDo_kept {s : State} {q : QId} {cid : W16} {c : Cmd} (hk : Kept b0 s) : Kept b0 (partCreateDo s q cid c) := by
  unfold partCreateDo
  repeat' (first
    | (with_reducible first | assumption | refine powerRidges_kept ?_ | refine newKey_kept ?_ | refine startCmd_kept ?_ | refine serviceRope_kept ?_)
    | split)
theorem scrubStart_kept {s : State} {p : Nat} {stop : Bool} {cmd : Option (QId × W16)} (hk : Kept b0 s) : Kept b0 (scrubStart s p stop cmd) := by
  unfold scrubStart
  repeat' (first
    | (with_reducible first | assumption | refine updP_kept ?_ | refine startRap_kept ?_))
theorem wholeStart_kept {s : State} {c : Cmd} (hk : Kept b0 s) : Kept b0 (wholeStart s c) := by
  unfold wholeStart
  repeat' (first
    | (with_reducible first | assumption | refine powerRidges_kept ?_ | refine pinSync_kept ?_ | refine saveGuard_kept ?_ | refine scrubStart_kept ?_ | refine stopEngines_kept ?_ | refine writePending_kept ?_ | refine updR_kept ?_ ?_ | exact fun h => h)
    | (simp only [Kept.fields]; with_reducible refine Kept.upd ?_ ?_ ?_ ?_ ?_)
    | (with_reducible refine Kept.foldl (fun _ _ _ => ?_) _ _ ?_) <;> try dsimp only
    | exact fun _ h => zeroRidge_loam h
    | split)
theorem partDestroyDo_kept {s : State} {q : QId} {cid : W16} {c : Cmd} (hk : Kept b0 s) : Kept b0 (partDestroyDo s q cid c) := by
  unfold partDestroyDo
  repeat' (first
    | (with_reducible first | assumption | refine scrubStart_kept ?_ | refine startCmd_kept ?_ | refine wholeStart_kept ?_)
    | split)
theorem powerCapDo_kept {s : State} {c : Cmd} (hk : Kept b0 s) : Kept b0 (powerCapDo s c) := by
  unfold powerCapDo
  repeat' (first
    | (with_reducible first | assumption | refine complete_kept ?_ | refine powerEvent_kept ?_ | refine hostWrite_kept ?_ | exact fun h => h)
    | (simp only [Kept.fields]; with_reducible refine Kept.upd ?_ ?_ ?_ ?_ ?_)
    | split)
theorem updTest_kept {s : State} {r : Nat} {f : TestSt → TestSt} (hk : Kept b0 s) : Kept b0 (updTest s r f) := by
  unfold updTest
  repeat' (first
    | (with_reducible first | assumption | refine updR_kept ?_ ?_)
    | intro _ h; exact h)
theorem startTest_kept {s : State} {r tests stress : Nat} {job : W32} (hk : Kept b0 s) : Kept b0 (startTest s r tests stress job) := by
  unfold startTest
  repeat' (first
    | (with_reducible first | assumption | refine endSurvey_kept ?_ | refine requestSurvey_kept ?_ | refine updTest_kept ?_)
    | (with_reducible refine Kept.foldl (fun _ _ _ => ?_) _ _ ?_) <;> try dsimp only)
theorem startDue_kept {s : State} {r : Nat} {job : W32} (hk : Kept b0 s) : Kept b0 (startDue s r job) := by
  unfold startDue
  repeat' (first
    | (with_reducible first | assumption | refine startTest_kept ?_ | refine ridgePower_kept ?_)
    | split)
theorem saveJob_kept {s : State} {j : Job} {inc : Option Job} (hk : Kept b0 s) : Kept b0 (saveJob s j inc) := by
  unfold saveJob
  repeat' (first
    | (with_reducible first | assumption | refine updJob_kept ?_ | refine ropeAbort_kept ?_ | refine updR_kept ?_ ?_)
    | (with_reducible refine Kept.foldl (fun _ _ _ => ?_) _ _ ?_) <;> try dsimp only
    | intro _ h; exact h)
theorem preemptForTest_kept {s : State} {r : Nat} {j : Job} (hk : Kept b0 s) : Kept b0 (preemptForTest s r j) := by
  unfold preemptForTest
  repeat' (first
    | (with_reducible first | assumption | refine startDue_kept ?_ | refine saveJob_kept ?_))
theorem probeAll_kept {s : State} {r : Nat} (hk : Kept b0 s) : Kept b0 (probeAll s r) := by
  unfold probeAll
  repeat' (first
    | (with_reducible first | assumption | refine startProbe_kept ?_)
    | (with_reducible refine Kept.foldl (fun _ _ _ => ?_) _ _ ?_) <;> try dsimp only
    | split)
theorem suspectEvents_kept {s : State} {part r p wp wf : Nat} (hk : Kept b0 s) : Kept b0 (suspectEvents s part r p wp wf) := by
  unfold suspectEvents
  dsimp only
  repeat' (first
    | (with_reducible first | assumption | refine suspectEvent_kept ?_)
    | (with_reducible refine Kept.foldl (fun _ _ _ => ?_) _ _ ?_) <;> try dsimp only
    | split)
theorem probeFailed_kept {s : State} {r : Nat} {e : Win} {l : Lane} {pay : List Byte} {wp wf : Nat} (hk : Kept b0 s) : Kept b0 (probeFailed s r e l pay wp wf) := by
  unfold probeFailed
  dsimp only
  repeat' (first
    | (with_reducible first | assumption | refine updTile_kept ?_ | refine suspectEvents_kept ?_ | refine updCtx_kept ?_ | refine markSuspects_kept ?_ | refine raise_kept ?_ | refine countFailed_kept ?_ | refine queueRefresh_kept ?_ | refine setMap_kept ?_)
    | split)
theorem probePolicyDo_kept {s : State} {c : Cmd} (hk : Kept b0 s) : Kept b0 (probePolicyDo s c) := by
  unfold probePolicyDo
  repeat' (first
    | (with_reducible first | assumption | refine updP_kept ?_ | refine complete_kept ?_ | exact fun h => h)
    | (simp only [Kept.fields]; with_reducible refine Kept.upd ?_ ?_ ?_ ?_ ?_)
    | split)
theorem progLoadDo_kept {s : State} {c : Cmd} (hk : Kept b0 s) : Kept b0 (progLoadDo s c) := by
  unfold progLoadDo
  repeat' (first
    | (with_reducible first | assumption | refine loadProg_kept ?_ | refine complete_kept ?_))
theorem programFailed_kept {s : State} {o : ProgOp} {uncovered free : Nat} (hk : Kept b0 s) : Kept b0 (programFailed s o uncovered free) := by
  unfold programFailed
  repeat' (first
    | (with_reducible first | assumption | refine tileEvent_kept ?_ | refine queueRefresh_kept ?_ | refine setJournal_kept ?_ | refine setMap_kept ?_)
    | split)
theorem putBuffers_kept {s : State} {r : Nat} {bufs : List (Nat × InBuf)} (hk : Kept b0 s) : Kept b0 (putBuffers s r bufs) := by
  unfold putBuffers
  repeat' (first
    | (with_reducible first | assumption | refine updPos_kept ?_)
    | (with_reducible refine Kept.foldl (fun _ _ _ => ?_) _ _ ?_) <;> try dsimp only)
theorem queueDestroyDo_kept {s : State} {c : Cmd} (hk : Kept b0 s) : Kept b0 (queueDestroyDo s c) := by
  unfold queueDestroyDo
  dsimp only
  repeat' (first
    | (with_reducible first | assumption | refine startCmd_kept ?_ | refine startRap_kept ?_)
    | split)
theorem railReset_kept {s : State} (hk : Kept b0 s) : Kept b0 (railReset s) := by
  unfold railReset
  repeat' (first
    | (with_reducible first | assumption | refine boot_kept ?_ | refine logicReset_kept ?_))
theorem rappelWrite_kept {s : State} {p : Port} {f scope : Nat} {v : W32} (hk : Kept b0 s) : Kept b0 (rappelWrite s p f scope v) := by
  unfold rappelWrite
  repeat' (first
    | (with_reducible first | assumption | refine pinSync_kept ?_ | refine updFn_kept ?_ | refine startRap_kept ?_)
    | split)
theorem readBack_kept {s : State} {v : W32} (hk : Kept b0 s) : Kept b0 (readBack s v) := by
  unfold readBack
  repeat' (first
    | (with_reducible first | assumption | exact fun h => h)
    | (simp only [Kept.fields]; with_reducible refine Kept.upd ?_ ?_ ?_ ?_ ?_)
    | intro h; exact h)
theorem recompute_kept {s : State} {d : Nat} (hk : Kept b0 s) : Kept b0 (recompute s d) := by
  unfold recompute
  repeat' (first
    | (with_reducible first | assumption | refine setRoute_kept ?_)
    | split)
theorem refuse_kept {s : State} {code : Nat} (hk : Kept b0 s) : Kept b0 (refuse s code) := by
  unfold refuse
  repeat' (first
    | (with_reducible first | assumption | refine answer_kept ?_))
theorem regWrite_kept {s : State} {p : Port} {f off : Nat} {v : W32} (hk : Kept b0 s) : Kept b0 (regWrite s p f off v) := by
  unfold regWrite
  repeat' (first
    | (with_reducible first | assumption | refine pinSync_kept ?_ | refine updFn_kept ?_ | refine updPort_kept ?_)
    | split)
theorem rejectTurn_kept {s : State} {q : QId} (hk : Kept b0 s) : Kept b0 (rejectTurn s q) := by
  unfold rejectTurn
  repeat' (first
    | (with_reducible first | assumption | refine complete_kept ?_)
    | split)
theorem restartEvents_kept {s : State} {j : Job} (hk : Kept b0 s) : Kept b0 (restartEvents s j) := by
  unfold restartEvents
  repeat' (first
    | (with_reducible first | assumption | refine suspectEvents_kept ?_)
    | (with_reducible refine Kept.foldl (fun _ _ _ => ?_) _ _ ?_) <;> try dsimp only
    | split)
theorem restartCleared_kept {s : State} {part : Nat} {job : W32} {j : Job} (hk : Kept b0 s) : Kept b0 (restartCleared s part job j) := by
  unfold restartCleared
  repeat' (first
    | (with_reducible first | assumption | refine clearJob_kept ?_ | refine restartEvents_kept ?_ | refine updJob_kept ?_))
theorem restartScrubs_kept {s : State} (hk : Kept b0 s) : Kept b0 (restartScrubs s) := by
  unfold restartScrubs
  repeat' (first
    | (with_reducible first | assumption | refine scrubStart_kept ?_)
    | (with_reducible refine Kept.foldl (fun _ _ _ => ?_) _ _ ?_) <;> try dsimp only
    | split)
theorem restoreCopy_kept {s : State} {j : Job} {r : Nat} {c : CairnCopy} (hk : Kept b0 s) : Kept b0 (restoreCopy s j r c) := by
  unfold restoreCopy
  dsimp only
  refine updR_kept (Kept.foldl (fun t x h => ?_) _ _ hk) (fun rd h => freshRidge_loam (p := j.part) (id := j.id) (pc := c.resume) h)
  split
  · exact updR_kept h (fun _ g => g.loamWrite)
  · exact h
theorem restoreRidge_kept {s : State} {j : Job} {k r : Nat} (hk : Kept b0 s) : Kept b0 (restoreRidge s j k r) := by
  unfold restoreRidge
  split
  · exact hk
  · exact updR_kept (Kept.foldl (fun t x h => updR_kept h (fun _ g => g.loamWrite)) _ _ (loadTables_kept hk)) (fun _ g => g)
theorem restoreJob_kept {s : State} {j : Job} (hk : Kept b0 s) : Kept b0 (restoreJob s j) := by
  unfold restoreJob
  repeat' (first
    | (with_reducible first | assumption | refine restoreRidge_kept ?_ | refine updJob_kept ?_)
    | (with_reducible refine Kept.foldl (fun _ _ _ => ?_) _ _ ?_) <;> try dsimp only)
theorem ridgesSettle_kept {s : State} (hk : Kept b0 s) : Kept b0 (ridgesSettle s) := by
  unfold ridgesSettle
  repeat' (first
    | (with_reducible first | assumption | refine writePending_kept ?_ | exact fun h => h)
    | (simp only [Kept.fields]; with_reducible refine Kept.upd ?_ ?_ ?_ ?_ ?_)
    | split)
theorem ringHead_kept {s : State} {q : QId} {v : Nat} (hk : Kept b0 s) : Kept b0 (ringHead s q v) := by
  unfold ringHead
  repeat' (first
    | (with_reducible first | assumption | refine cqFlush_kept ?_ | refine badDoorbell_kept ?_ | refine updQ_kept ?_)
    | split)
theorem ringOff_kept {s : State} {p : Port} {f : Nat} (hk : Kept b0 s) : Kept b0 (ringOff s p f) := by
  unfold ringOff
  repeat' (first
    | (with_reducible first | assumption | refine updFn_kept ?_))
theorem ringTail_kept {s : State} {q : QId} {v : Nat} (hk : Kept b0 s) : Kept b0 (ringTail s q v) := by
  unfold ringTail
  repeat' (first
    | (with_reducible first | assumption | refine badDoorbell_kept ?_ | refine updQ_kept ?_)
    | split)
theorem routeSetDo_kept {s : State} {c : Cmd} (hk : Kept b0 s) : Kept b0 (routeSetDo s c) := by
  unfold routeSetDo
  repeat' (first
    | (with_reducible first | assumption | refine applyRoute_kept ?_ | refine applyPorts_kept ?_ | refine complete_kept ?_)
    | (with_reducible refine Kept.foldl (fun _ _ _ => ?_) _ _ ?_) <;> try dsimp only)
theorem stall_kept {s : State} {st : FwSt} {why : RapWhy} (hk : Kept b0 s) : Kept b0 (stall s st why) := by
  unfold stall
  repeat' (first
    | (with_reducible first | assumption | refine pinSync_kept ?_ | refine startRap_kept ?_ | refine raise_kept ?_ | exact fun h => h)
    | (simp only [Kept.fields]; with_reducible refine Kept.upd ?_ ?_ ?_ ?_ ?_))
theorem secondStall_kept {s : State} (hk : Kept b0 s) : Kept b0 (secondStall s) := by
  unfold secondStall
  repeat' (first
    | (with_reducible first | assumption | refine attnBoth_kept ?_ | refine stall_kept ?_ | exact fun h => h)
    | (simp only [Kept.fields]; with_reducible refine Kept.upd ?_ ?_ ?_ ?_ ?_))
theorem sendHail_kept {s : State} {n : Nat} (hk : Kept b0 s) : Kept b0 (sendHail s n) := by
  unfold sendHail
  repeat' (first
    | (with_reducible first | assumption | refine sendMgmt_kept ?_))
theorem setIde_kept {s : State} {k : Nat} {v : IdeSlot} (hk : Kept b0 s) : Kept b0 (setIde s k v) := by
  unfold setIde
  repeat' (first
    | (with_reducible first | assumption | exact fun h => h)
    | (simp only [Kept.fields]; with_reducible refine Kept.upd ?_ ?_ ?_ ?_ ?_))
theorem setInsecure_kept {s : State} {p : Port} {f : Nat} {v : Bool} (hk : Kept b0 s) : Kept b0 (setInsecure s p f v) := by
  unfold setInsecure
  repeat' (first
    | (with_reducible first | assumption | exact fun h => h)
    | (simp only [Kept.fields]; with_reducible refine Kept.upd ?_ ?_ ?_ ?_ ?_))
theorem updSpdm_kept {s : State} {p : Port} {f : Spdm → Spdm} (hk : Kept b0 s) : Kept b0 (updSpdm s p f) := by
  unfold updSpdm
  repeat' (first
    | (with_reducible first | assumption | exact fun h => h)
    | (simp only [Kept.fields]; with_reducible refine Kept.upd ?_ ?_ ?_ ?_ ?_)
    | split)
theorem setSess_kept {s : State} {p : Port} {sid : Nat} {v : Option Sess} (hk : Kept b0 s) : Kept b0 (setSess s p sid v) := by
  unfold setSess
  repeat' (first
    | (with_reducible first | assumption | refine updSpdm_kept ?_))
theorem setWeight_kept {s : State} {v : W32} (hk : Kept b0 s) : Kept b0 (setWeight s v) := by
  unfold setWeight
  repeat' (first
    | (with_reducible first | assumption | refine setArb_kept ?_)
    | (with_reducible refine Kept.foldl (fun _ _ _ => ?_) _ _ ?_) <;> try dsimp only)
theorem setWindows_kept {s : State} {v : W32} (hk : Kept b0 s) : Kept b0 (setWindows s v) := by
  unfold setWindows
  repeat' (first
    | (with_reducible first | assumption | exact fun h => h)
    | (simp only [Kept.fields]; with_reducible refine Kept.upd ?_ ?_ ?_ ?_ ?_))
theorem slotUe_kept {s : State} {r : Nat} {cd : List (Nat × Nat)} (hk : Kept b0 s) : Kept b0 (slotUe s r cd) := by
  unfold slotUe
  repeat' (first
    | (with_reducible first | assumption | refine raiseInteg_kept ?_ | refine updR_kept ?_ ?_)
    | (with_reducible refine Kept.foldl (fun _ _ _ => ?_) _ _ ?_) <;> try dsimp only
    | intro _ h; exact h
    | split)
theorem stageAs_kept {s : State} {r : Nat} {x : Ctx} {bytes : Nat} {a : Action} (hk : Kept b0 s) : StgAll (Kept b0) (stageAs s r x bytes a) := by
  unfold stageAs
  dsimp only
  repeat' (first
    | (with_reducible first | assumption | refine updCtx_kept ?_ | refine ropeAdd_kept ?_ | refine StgAll.intro_gone ?_ | refine StgAll.intro_staged ?_)
    | exact trivial
    | split)
theorem splGo_kept {s : State} {r : Nat} {x : Ctx} {w : W128} {ws : List LRange} (hk : Kept b0 s) : IssAll (Kept b0) (splGo s r x w ws) := by
  unfold splGo
  dsimp only
  repeat' (first
    | (with_reducible first | assumption | refine settleRidge_kept ?_ | refine StgAll.gone (stageAs_kept ?_) (by assumption) | refine StgAll.staged (stageAs_kept ?_) (by assumption) | refine setClosing_kept ?_ | refine pushWin_kept ?_ | refine IssAll.intro_next ?_ | refine IssAll.intro_stay ?_)
    | exact trivial
    | split)
theorem stageGolden_kept {s : State} {r : Nat} {bufs : List (Nat × InBuf)} (hk : Kept b0 s) : Kept b0 (stageGolden s r bufs) := by
  unfold stageGolden
  repeat' (first
    | (with_reducible first | assumption | refine useFree_kept ?_ | refine updR_kept ?_ ?_)
    | exact fun _ h => loamJunk_loam h
    | split)
theorem stamp_kept {s : State} {d n hops : Nat} (hk : Kept b0 s) : Kept b0 (stamp s d n hops) := by
  unfold stamp
  repeat' (first
    | (with_reducible first | assumption | refine setPeer_kept ?_))
theorem startRegions_kept {s : State} {r p h k : Nat} {x : ProgRidge} (hk : Kept b0 s) : Kept b0 (startRegions s r p h k x) := by
  unfold startRegions
  dsimp only
  refine updProg_kept (Kept.foldl (fun t q g => ?_) _ _ (keepStates_kept hk))
  split
  · exact updR_kept g (fun _ g => g.loamWrite)
  · split
    · split
      · exact updR_kept g (fun _ g => g.loamWrite)
      · exact g
    · exact updR_kept (useFree_kept g) (fun _ g => g.loamJunk)
theorem startRidge_kept {s : State} {j : Job} {h : Option CairnHalf} {k r : Nat} (hk : Kept b0 s) : Kept b0 (startRidge s j h k r) := by
  unfold startRidge
  repeat' (first
    | (with_reducible first | assumption | refine loadTables_kept ?_ | refine restoreCopy_kept ?_ | refine startRegions_kept ?_ | refine updR_kept ?_ ?_)
    | intro _ h; exact h
    | split)
theorem startJob_kept {s : State} {j : Job} (hk : Kept b0 s) : Kept b0 (startJob s j) := by
  unfold startJob
  repeat' (first
    | (with_reducible first | assumption | refine startRidge_kept ?_ | refine updJob_kept ?_)
    | (with_reducible refine Kept.foldl (fun _ _ _ => ?_) _ _ ?_) <;> try dsimp only)
theorem startSurvey_kept {s : State} {r t : Nat} {w : W128} (hk : Kept b0 s) : Kept b0 (startSurvey s r t w) := by
  unfold startSurvey
  repeat' (first
    | (with_reducible first | assumption | refine updTile_kept ?_ | refine pushWin_kept ?_))
theorem statusDone_kept {s : State} {n : Nat} {j : Job} {o : Outstanding} {c : Nat} (hk : Kept b0 s) : Kept b0 (statusDone s n j o c) := by
  unfold statusDone
  repeat' (first
    | (with_reducible first | assumption | refine accessDone_kept ?_ | refine accessFault_kept ?_ | refine linkEvent_kept ?_ | refine updJob_kept ?_ | refine accessRefused_kept ?_)
    | split)
theorem stopEngine_kept {s : State} {r : Nat} (hk : Kept b0 s) : Kept b0 (stopEngine s r) := by
  unfold stopEngine
  repeat' (first
    | (with_reducible first | assumption | refine updR_kept ?_ ?_ | exact fun h => h)
    | (simp only [Kept.fields]; with_reducible refine Kept.upd ?_ ?_ ?_ ?_ ?_)
    | intro _ h; exact h
    | split)
theorem surveyPolicyDo_kept {s : State} {c : Cmd} (hk : Kept b0 s) : Kept b0 (surveyPolicyDo s c) := by
  unfold surveyPolicyDo
  repeat' (first
    | (with_reducible first | assumption | refine updP_kept ?_ | refine complete_kept ?_ | exact fun h => h)
    | (simp only [Kept.fields]; with_reducible refine Kept.upd ?_ ?_ ?_ ?_ ?_)
    | split)
theorem surveyTaken_kept {s : State} {r t : Nat} {v : Survey} {g : List Q} (hk : Kept b0 s) : Kept b0 (surveyTaken s r t v g) := by
  unfold surveyTaken
  repeat' (first
    | (with_reducible first | assumption | refine updTile_kept ?_ | refine crossCheck_kept ?_ | refine endSurvey_kept ?_))
theorem surveyTemps_kept {s : State} (hk : Kept b0 s) : Kept b0 (surveyTemps s) := by
  unfold surveyTemps
  repeat' (first
    | (with_reducible first | assumption | refine requestSurvey_kept ?_)
    | (with_reducible refine Kept.foldl (fun _ _ _ => ?_) _ _ ?_) <;> try dsimp only
    | split)
theorem swapTables_kept {s : State} {part r p t : Nat} {tabs : List (Nat × Nat)} (hk : Kept b0 s) : Kept b0 (swapTables s part r p t tabs) := by
  unfold swapTables
  repeat' (first
    | (with_reducible first | assumption | refine updR_kept ?_ ?_)
    | (with_reducible refine Kept.foldl (fun _ _ _ => ?_) _ _ ?_) <;> try dsimp only
    | exact fun _ h => writeInactive_loam h
    | split)
theorem sweepFails_kept {s : State} {r : Nat} {bad : List (Nat × Nat × Nat × Nat × Int)} (hk : Kept b0 s) : Kept b0 (sweepFails s r bad) := by
  unfold sweepFails
  repeat' (first
    | (with_reducible first | assumption | refine probeFailed_kept ?_)
    | (with_reducible refine Kept.foldl (fun _ _ _ => ?_) _ _ ?_) <;> try dsimp only
    | split)
theorem takeAck_kept {s : State} {n a : Nat} (hk : Kept b0 s) : Kept b0 (takeAck s n a) := by
  unfold takeAck
  dsimp only
  repeat' (first
    | (with_reducible first | assumption | refine setLink_kept ?_ | exact fun h => h)
    | (simp only [Kept.fields]; with_reducible refine Kept.upd ?_ ?_ ?_ ?_ ?_)
    | split)
theorem testRunSettle_kept {s : State} (hk : Kept b0 s) : Kept b0 (testRunSettle s) := by
  unfold testRunSettle
  repeat' (first
    | (with_reducible first | assumption | refine complete2_kept ?_)
    | (with_reducible refine Kept.foldl (fun _ _ _ => ?_) _ _ ?_) <;> try dsimp only
    | split)
theorem testEvent_kept {s : State} {r cause tests failed stress mv : Nat} {job : W32} {dur late : Nat} (hk : Kept b0 s) : Kept b0 (testEvent s r cause tests failed stress mv job dur late) := by
  unfold testEvent
  repeat' (first
    | (with_reducible first | assumption | refine raiseCore_kept ?_))
theorem testDone_kept {s : State} {r failed : Nat} {trim : List (Nat × Nat × Nat)} {bad : List (Nat × Nat × Nat × Nat × Int)} {mv : Nat} (hk : Kept b0 s) :
    Kept b0 (testDone s r failed trim bad mv) := by
  unfold testDone
  have base : Kept b0 (updR (useFree s) r (fun rd => { loamJunk { rd with poison := [], tags := [] } 0 (1536 * 1024) s.free with slots := [] })) :=
    updR_kept (useFree_kept hk) (fun rd h => twf_filter none _ rd.loam h)
  refine testRunSettle_kept ?_
  repeat' (first
    | with_reducible assumption
    | with_reducible refine failRidge_kept ?_
    | with_reducible refine sweepFails_kept ?_
    | with_reducible refine probeAll_kept ?_
    | with_reducible refine testEvent_kept ?_
    | with_reducible refine tileEvent_kept ?_
    | with_reducible refine updTest_kept ?_
    | with_reducible refine Kept.foldl (fun _ _ _ => ?_) _ _ ?_
    | split)
theorem testRunDo_kept {s : State} {c : Cmd} (hk : Kept b0 s) : Kept b0 (testRunDo s c) := by
  unfold testRunDo
  dsimp only
  repeat' (first
    | (with_reducible first | assumption | refine startTest_kept ?_ | refine powerRidges_kept ?_ | refine testRunSettle_kept ?_ | refine saveJob_kept ?_ | refine startCmd_kept ?_ | refine updTest_kept ?_)
    | (with_reducible refine Kept.foldl (fun _ _ _ => ?_) _ _ ?_) <;> try dsimp only
    | split)
theorem thermalInletDo_kept {s : State} {c : Cmd} (hk : Kept b0 s) : Kept b0 (thermalInletDo s c) := by
  unfold thermalInletDo
  repeat' (first
    | (with_reducible first | assumption | refine complete_kept ?_ | exact fun h => h)
    | (simp only [Kept.fields]; with_reducible refine Kept.upd ?_ ?_ ?_ ?_ ?_))
theorem throttleRidge_kept {s : State} {r : Nat} (hk : Kept b0 s) : Kept b0 (throttleRidge s r) := by
  unfold throttleRidge
  dsimp only
  repeat' (first
    | (with_reducible first | assumption | refine thermalCoal_kept ?_ | exact fun h => h)
    | (simp only [Kept.fields]; with_reducible refine Kept.upd ?_ ?_ ?_ ?_ ?_)
    | split)
theorem tileClean_kept {s : State} {r t : Nat} {o : ProgOp} {base : List Int} (hk : Kept b0 s) : Kept b0 (tileClean s r t o base) := by
  unfold tileClean
  repeat' (first
    | (with_reducible first | assumption | refine updTile_kept ?_ | refine setJournal_kept ?_))
theorem tunnelDown_kept {s : State} {p : Port} (hk : Kept b0 s) : Kept b0 (tunnelDown s p) := by
  unfold tunnelDown
  repeat' (first
    | (with_reducible first | assumption | refine dropPortIde_kept ?_ | refine pinSync_kept ?_ | refine detachQueues_kept ?_ | refine setAttn_kept ?_ | refine tdiFail_kept ?_ | refine updPort_kept ?_ | refine adminOff_kept ?_ | refine ringOff_kept ?_)
    | (with_reducible refine Kept.foldl (fun _ _ _ => ?_) _ _ ?_) <;> try dsimp only
    | split)
theorem unloadProg_kept {s : State} {p h : Nat} (hk : Kept b0 s) : Kept b0 (unloadProg s p h) := by
  refine Kept.upd (updP_kept hk) (fun g => g) (fun g => RidgesOk.map (f := fun rd => if rd.tables = some (p, h) then { rd with tables := none } else rd) (fun rd k => ?_) g) (fun g => g) (fun g => g)
  split <;> exact k
theorem vldEffect_kept {s : State} {r : Nat} {o : LOp} {bufs : List (Nat × InBuf)} (hk : Kept b0 s) : Kept b0 (vldEffect s r o bufs) := by
  unfold vldEffect
  repeat' (first
    | (with_reducible first | assumption | refine putBuffers_kept ?_ | refine stageGolden_kept ?_ | refine updR_kept ?_ ?_)
    | exact fun _ h => ringConsume_loam h
    | split)
theorem waitTake_kept {s : State} {r : Nat} {w : W128} (hk : Kept b0 s) : Kept b0 (waitTake s r w) := by
  unfold waitTake
  repeat' (first
    | (with_reducible first | assumption | refine updR_kept ?_ ?_)
    | intro _ h; exact h
    | split)
theorem wsetSurveyed_kept {s : State} {r p : Nat} (hk : Kept b0 s) : Kept b0 (wsetSurveyed s r p) := by
  unfold wsetSurveyed
  repeat' (first
    | (with_reducible first | assumption | refine wsetSettle_kept ?_ | refine updWset_kept ?_)
    | split)
theorem wsetUnloadDo_kept {s : State} {c : Cmd} (hk : Kept b0 s) : Kept b0 (wsetUnloadDo s c) := by
  unfold wsetUnloadDo
  repeat' (first
    | (with_reducible first | assumption | refine complete_kept ?_ | refine releaseWset_kept ?_)
    | split)
theorem wsetVerifyDo_kept {s : State} {out : List (Nat × Nat × Nat)} {c : Cmd} (hk : Kept b0 s) : Kept b0 (wsetVerifyDo s out c) := by
  unfold wsetVerifyDo
  dsimp only
  repeat' (first
    | (with_reducible first | assumption | refine complete_kept ?_ | refine hostWrite_kept ?_)
    | split)

end Sys2Proof.Machine
end

