-- ==== Sys2Proof/Laws/KeptCommands.lean ====
section
/-!
SUPPORT. For every command, that its meaning keeps the queue, the clocks and the canonical form of the byte memories wherever it answers a next state (KeptOut of Laws/Kept.lean).
-/

namespace Sys2Proof.Machine

open Sys2Proof.Safety

variable {b0 : State}

theorem doeReq_kept {s : State} {p : Port} {f : State → State} (hk : Kept b0 s) (hf : Kept b0 (f s)) : KeptOut b0 (doeReq s p f) := by
  unfold doeReq
  split
  · exact KeptOut.next hf
  · exact KeptOut.next hk
theorem issue_kept {s : State} {r : Nat} {x : Ctx} {w : W128} {op : Nat} {body : State → Iss} (hk : Kept b0 s) (hb : IssAll (Kept b0) (body s)) : KeptOut b0 (issue s r x w op body) := by
  unfold issue
  split
  · split
    · exact KeptOut.next (faultAt_kept hk)
    · cases h : body s with
      | wait => exact KeptOut.next hk
      | fault c => exact KeptOut.next (faultAt_kept hk)
      | next t => exact KeptOut.next (settleCtx_kept (advance_kept (hb.next h)))
      | stay t => exact KeptOut.next (hb.stay h)
  · exact KeptOut.next hk
theorem execAad_kept {r : Ridge} {x : Ctx} {w : W128} {s : State} (hk : Kept b0 s) : KeptOut b0 (execAad r x w s) := by
  unfold execAad
  repeat' (first
    | (with_reducible first | assumption | refine aadSlotBody_kept ?_ | refine aadVecBody_kept ?_ | refine issue_kept ?_ ?_)
    | split)
theorem execAadArrival_kept {id : Nat} {s : State} (hk : Kept b0 s) : KeptOut b0 (execAadArrival id s) := by
  unfold execAadArrival
  dsimp only
  repeat' (first
    | (with_reducible first | assumption | refine settleRidge_kept ?_ | refine execFault_kept ?_ | refine retire_kept ?_ | refine setSlot_kept ?_ | exact fun h => h | refine KeptOut.next ?_)
    | (simp only [Kept.fields]; with_reducible refine Kept.upd ?_ ?_ ?_ ?_ ?_)
    | split)
theorem withCmd_kept {s : State} {q : QId} {cid : W16} {k : CmdKind} {checks : Cmd → List (Bool × Nat)} {body : Cmd → State}
    (hk : Kept b0 s) (hb : ∀ c, Kept b0 (body c)) : KeptOut b0 (withCmd s q cid k checks body) := by
  unfold withCmd
  split
  · exact KeptOut.next hk
  · exact KeptOut.next (Kept.ite (complete_kept hk) (hb _))
theorem execAbort_kept {q : QId} {cid : W16} {s : State} (hk : Kept b0 s) : KeptOut b0 (execAbort q cid s) := by
  unfold execAbort
  repeat' (first
    | (with_reducible first | assumption | refine abortDo_kept ?_ | refine withCmd_kept ?_ ?_)
    | refine fun _ => ?_)
theorem execAckTimeout_kept {n : Alv} {s : State} (hk : Kept b0 s) : KeptOut b0 (execAckTimeout n s) := by
  unfold execAckTimeout
  dsimp only
  repeat' (first
    | (with_reducible first | assumption | refine startTraining_kept ?_ | refine KeptOut.next ?_)
    | split)
theorem execArbLimit_kept {q : QId} {cid : W16} {s : State} (hk : Kept b0 s) : KeptOut b0 (execArbLimit q cid s) := by
  unfold execArbLimit
  repeat' (first
    | (with_reducible first | assumption | refine complete_kept ?_ | refine withCmd_kept ?_ ?_ | exact fun h => h)
    | (simp only [Kept.fields]; with_reducible refine Kept.upd ?_ ?_ ?_ ?_ ?_)
    | refine fun _ => ?_)
theorem execArbStatus_kept {q : QId} {cid : W16} {s : State} (hk : Kept b0 s) : KeptOut b0 (execArbStatus q cid s) := by
  unfold execArbStatus
  repeat' (first
    | (with_reducible first | assumption | refine complete_kept ?_ | refine clearFlags_kept ?_ | refine withCmd_kept ?_ ?_)
    | refine fun _ => ?_)
theorem execArbWeight_kept {q : QId} {cid : W16} {s : State} (hk : Kept b0 s) : KeptOut b0 (execArbWeight q cid s) := by
  unfold execArbWeight
  repeat' (first
    | (with_reducible first | assumption | refine complete_kept ?_ | refine setWeight_kept ?_ | refine withCmd_kept ?_ ?_)
    | refine fun _ => ?_)
theorem execColGrant_kept {s : State} (hk : Kept b0 s) : KeptOut b0 (execColGrant s) := by
  unfold execColGrant
  repeat' (first
    | (with_reducible first | assumption | refine colGrant_kept ?_ | refine KeptOut.next ?_)
    | split)
theorem execArbiterGrant_kept {cls : Fin 5} {inst : Nat} {reqs : List Nat} {save : Bool} {s : State} (hk : Kept b0 s) : KeptOut b0 (execArbiterGrant cls inst reqs save s) := by
  unfold execArbiterGrant
  dsimp only
  repeat' (first
    | (with_reducible first | assumption | refine arbWait_kept ?_ | refine execColGrant_kept ?_ | refine setArb_kept ?_ | refine KeptOut.next ?_)
    | split)
theorem execAtom_kept {n : Alv} {f : Frame} {s : State} (hk : Kept b0 s) : KeptOut b0 (execAtom n f s) := by
  unfold execAtom
  repeat' (first
    | (with_reducible first | assumption | refine OptAllFst.of_some (arrive_kept ?_) (by assumption) | refine atomAt_kept ?_ | refine malformed_kept ?_ | refine reply_kept ?_ | refine KeptOut.next ?_)
    | split)
theorem execAtomRecordExpiry_kept {k : Nat} {s : State} (hk : Kept b0 s) : KeptOut b0 (execAtomRecordExpiry k s) := by
  unfold execAtomRecordExpiry
  repeat' (first
    | (with_reducible first | assumption | exact fun h => h | refine KeptOut.next ?_)
    | (simp only [Kept.fields]; with_reducible refine Kept.upd ?_ ?_ ?_ ?_ ?_)
    | split)
theorem execAttest_kept {q : QId} {cid : W16} {s : State} (hk : Kept b0 s) : KeptOut b0 (execAttest q cid s) := by
  unfold execAttest
  repeat' (first
    | (with_reducible first | assumption | refine attestDo_kept ?_ | refine withCmd_kept ?_ ?_ | refine KeptOut.next ?_)
    | split
    | refine fun _ => ?_)
theorem execBulkResetTrain_kept {r : Ridge} {t : TileNo} {residue : Bool} {s : State} (hk : Kept b0 s) : KeptOut b0 (execBulkResetTrain r t residue s) := by
  unfold execBulkResetTrain
  repeat' (first
    | (with_reducible first | assumption | refine scrubSettle_kept ?_ | refine wholeSettle_kept ?_ | refine ridgesSettle_kept ?_ | refine OptAllFst.of_some (bulkReset_kept ?_) (by assumption) | refine KeptOut.next ?_)
    | split)
theorem execBusyRetry_kept {tag : Fin 4096} {s : State} (hk : Kept b0 s) : KeptOut b0 (execBusyRetry tag s) := by
  unfold execBusyRetry
  repeat' (first
    | (with_reducible first | assumption | refine again_kept ?_ | refine setTag_kept ?_ | refine KeptOut.next ?_)
    | split)
theorem execCairnCommit_kept {part : PartNo} {job : W32} {s : State} (hk : Kept b0 s) : KeptOut b0 (execCairnCommit part job s) := by
  unfold execCairnCommit
  repeat' (first
    | (with_reducible first | assumption | refine serviceRope_kept ?_ | refine KeptOut.next ?_)
    | split)
theorem execCalibrate_kept {q : QId} {cid : W16} {s : State} (hk : Kept b0 s) : KeptOut b0 (execCalibrate q cid s) := by
  unfold execCalibrate
  repeat' (first
    | (with_reducible first | assumption | refine calibrateDo_kept ?_ | refine withCmd_kept ?_ ?_)
    | refine fun _ => ?_)
theorem negotiated_kept {s : State} {p : Port} {f : State → State} (hk : Kept b0 s) (hf : Kept b0 (f s)) : KeptOut b0 (negotiated s p f) := by
  refine doeReq_kept hk ?_
  split
  · exact hf
  · exact refuse_kept hk
theorem execChallenge_kept {p : Port} {slot : Nat} {nonce : W256} {s : State} (hk : Kept b0 s) : KeptOut b0 (execChallenge p slot nonce s) := by
  unfold execChallenge
  repeat' (first
    | (with_reducible first | assumption | refine drawn_kept ?_ | refine answer_kept ?_ | refine refuse_kept ?_ | refine negotiated_kept ?_ ?_)
    | split)
theorem execClayGroupWriteDone_kept {s : State} (hk : Kept b0 s) : KeptOut b0 (execClayGroupWriteDone s) := by
  unfold execClayGroupWriteDone
  repeat' (first
    | (with_reducible first | assumption | refine groupWritten_kept ?_ | refine KeptOut.next ?_)
    | split)
theorem execClayProtect_kept {q : QId} {cid : W16} {s : State} (hk : Kept b0 s) : KeptOut b0 (execClayProtect q cid s) := by
  unfold execClayProtect
  repeat' (first
    | (with_reducible first | assumption | refine clayProtectDo_kept ?_ | refine withCmd_kept ?_ ?_)
    | refine fun _ => ?_)
theorem withOrdered_kept {s : State} {q : QId} {cid : W16} {k : CmdKind} {checks : Cmd → List (Bool × Nat)} {body : Cmd → State}
    (hk : Kept b0 s) (hb : ∀ c, Kept b0 (body c)) : KeptOut b0 (withOrdered s q cid k checks body) := by
  unfold withOrdered
  split
  · exact KeptOut.next hk
  · refine KeptOut.next ?_
    split
    · exact complete_kept hk
    · split
      · exact complete_kept hk
      · exact hb _
theorem execClayRead_kept {q : QId} {cid : W16} {s : State} (hk : Kept b0 s) : KeptOut b0 (execClayRead q cid s) := by
  unfold execClayRead
  repeat' (first
    | (with_reducible first | assumption | refine clayReadDo_kept ?_ | refine withOrdered_kept ?_ ?_)
    | refine fun _ => ?_)
theorem execClayRecordRead_kept {cls idx : Nat} {s : State} (hk : Kept b0 s) : KeptOut b0 (execClayRecordRead cls idx s) := by
  unfold execClayRecordRead
  repeat' (first
    | (with_reducible first | assumption | refine readRec_kept ?_ | refine KeptOut.next ?_)
    | split)
theorem execClayRecordUpdate_kept {cls idx : Nat} {data : List Byte} {s : State} (hk : Kept b0 s) : KeptOut b0 (execClayRecordUpdate cls idx data s) := by
  unfold execClayRecordUpdate
  repeat' (first
    | (with_reducible first | assumption | refine queueRec_kept ?_ | refine KeptOut.next ?_)
    | split)
theorem execClayUnlock_kept {q : QId} {cid : W16} {s : State} (hk : Kept b0 s) : KeptOut b0 (execClayUnlock q cid s) := by
  unfold execClayUnlock
  repeat' (first
    | (with_reducible first | assumption | refine clayUnlockDo_kept ?_ | refine withCmd_kept ?_ ?_)
    | refine fun _ => ?_)
theorem execClayWrite_kept {q : QId} {cid : W16} {s : State} (hk : Kept b0 s) : KeptOut b0 (execClayWrite q cid s) := by
  unfold execClayWrite
  repeat' (first
    | (with_reducible first | assumption | refine withOrdered_kept ?_ ?_ | refine clayWriteDo_kept ?_)
    | refine fun _ => ?_)
theorem execCodewordReceive_kept {n : Alv} {cw : Codeword} {s : State} (hk : Kept b0 s) : KeptOut b0 (execCodewordReceive n cw s) := by
  unfold execCodewordReceive
  dsimp only
  repeat' (first
    | (with_reducible first | assumption | refine setLink_kept ?_ | refine countReplays_kept ?_ | refine takeAck_kept ?_ | refine KeptOut.next ?_)
    | split)
theorem execCommandFetch_kept {q : QId} {s : State} (hk : Kept b0 s) : KeptOut b0 (execCommandFetch q s) := by
  unfold execCommandFetch
  dsimp only
  repeat' (first
    | (with_reducible first | assumption | refine fetchOne_kept ?_ | refine pinSync_kept ?_ | refine rejectTurn_kept ?_ | refine KeptOut.next ?_)
    | split)
theorem execContributionCommit_kept {r : Ridge} {id : Nat} {devs : List AdcDev} {s : State} (hk : Kept b0 s) : KeptOut b0 (execContributionCommit r id devs s) := by
  unfold execContributionCommit
  dsimp only
  repeat' (first
    | (with_reducible first | assumption | refine settleRidge_kept ?_ | refine execFault_kept ?_ | refine retire_kept ?_ | refine commitEffect_kept ?_ | refine KeptOut.next ?_)
    | split)
theorem execConverterCalibration_kept {r : Ridge} {bad : List (Nat × Nat × Nat)} {s : State} (hk : Kept b0 s) : KeptOut b0 (execConverterCalibration r bad s) := by
  unfold execConverterCalibration
  repeat' (first
    | (with_reducible first | assumption | refine tileEvent_kept ?_ | refine calibrateSettle_kept ?_ | refine probeAll_kept ?_ | refine updR_kept ?_ ?_ | refine KeptOut.next ?_)
    | (with_reducible refine Kept.foldl (fun _ _ _ => ?_) _ _ ?_) <;> try dsimp only
    | intro _ h; exact h
    | split)
theorem execCountTimeout_kept {r : Ridge} {id : Nat} {s : State} (hk : Kept b0 s) : KeptOut b0 (execCountTimeout r id s) := by
  unfold execCountTimeout
  repeat' (first
    | (with_reducible first | assumption | refine execFault_kept ?_ | refine setClosing_kept ?_ | refine KeptOut.next ?_)
    | split)
theorem execCqDoorbell_kept {p : Port} {f : Fn} {q : Fin 1024} {v : W32} {s : State} (hk : Kept b0 s) : KeptOut b0 (execCqDoorbell p f q v s) := by
  unfold execCqDoorbell
  repeat' (first
    | (with_reducible first | assumption | refine ringHead_kept ?_ | refine KeptOut.next ?_)
    | split)
theorem execCrn_kept {r : Ridge} {x : Ctx} {w : W128} {s : State} (hk : Kept b0 s) : KeptOut b0 (execCrn r x w s) := by
  unfold execCrn
  dsimp only
  repeat' (first
    | (with_reducible first | assumption | refine issue_kept ?_ ?_ | refine updJob_kept ?_ | refine IssAll.intro_next ?_)
    | exact trivial
    | split)
theorem execDebugAttach_kept {s : State} (hk : Kept b0 s) : KeptOut b0 (execDebugAttach s) := by
  unfold execDebugAttach
  repeat' (first
    | (with_reducible first | assumption | refine securityEvent_kept ?_ | exact fun h => h | refine KeptOut.next ?_)
    | (simp only [Kept.fields]; with_reducible refine Kept.upd ?_ ?_ ?_ ?_ ?_)
    | split)
theorem execDmaCompletion_kept {cluster : Fin 4} {id : Nat} {s : State} (hk : Kept b0 s) : KeptOut b0 (execDmaCompletion cluster id s) := by
  unfold execDmaCompletion
  dsimp only
  repeat' (first
    | (with_reducible first | assumption | refine setDma_kept ?_ | refine execFault_kept ?_ | refine addCounter_kept ?_ | refine retire_kept ?_ | refine updR_kept ?_ ?_ | refine KeptOut.next ?_)
    | intro _ h; exact h
    | split)
theorem execDmaCopy_kept {r : Ridge} {x : Ctx} {w : W128} {s : State} (hk : Kept b0 s) : KeptOut b0 (execDmaCopy r x w s) := by
  unfold execDmaCopy
  repeat' (first
    | (with_reducible first | assumption | refine issue_kept ?_ ?_ | refine dmaBody_kept ?_))
theorem execDmaFill_kept {r : Ridge} {x : Ctx} {w : W128} {s : State} (hk : Kept b0 s) : KeptOut b0 (execDmaFill r x w s) := by
  unfold execDmaFill
  repeat' (first
    | (with_reducible first | assumption | refine issue_kept ?_ ?_ | refine dmaBody_kept ?_))
theorem execDmaInval_kept {r : Ridge} {x : Ctx} {w : W128} {s : State} (hk : Kept b0 s) : KeptOut b0 (execDmaInval r x w s) := by
  unfold execDmaInval
  repeat' (first
    | (with_reducible first | assumption | refine issue_kept ?_ ?_ | refine dmaBody_kept ?_))
theorem execDmaPrefetch_kept {r : Ridge} {x : Ctx} {w : W128} {s : State} (hk : Kept b0 s) : KeptOut b0 (execDmaPrefetch r x w s) := by
  unfold execDmaPrefetch
  dsimp only
  repeat' (first
    | (with_reducible first | assumption | refine addCounter_kept ?_ | refine issue_kept ?_ ?_ | refine updR_kept ?_ ?_ | refine IssAll.intro_next ?_)
    | intro _ h; exact h
    | exact trivial
    | split)
theorem execDmaSegment_kept {cluster : Fin 4} {hostOk : Bool} {s : State} (hk : Kept b0 s) : KeptOut b0 (execDmaSegment cluster hostOk s) := by
  unfold execDmaSegment
  dsimp only
  repeat' (first
    | (with_reducible first | assumption | refine setDma_kept ?_ | refine SegAll.done (dmaSeg_kept ?_) (by assumption) | refine SegAll.wait (dmaSeg_kept ?_) (by assumption) | refine KeptOut.next ?_)
    | split)
theorem execDmm_kept {r : Ridge} {x : Ctx} {w : W128} {s : State} (hk : Kept b0 s) : KeptOut b0 (execDmm r x w s) := by
  unfold execDmm
  dsimp only
  repeat' (first
    | (with_reducible first | assumption | refine dmmBase_kept ?_ | refine BResAll.stay (dmmB_kept ?_) (by assumption) | refine issue_kept ?_ ?_ | refine dmuWrite_kept ?_ | refine IssAll.intro_stay ?_)
    | exact trivial
    | split)
theorem execDomainFault_kept {d : Fin 212} {s : State} (hk : Kept b0 s) : KeptOut b0 (execDomainFault d s) := by
  unfold execDomainFault
  dsimp only
  repeat' (first
    | (with_reducible first | assumption | refine railReset_kept ?_ | refine failRidge_kept ?_ | refine powerEvent_kept ?_ | refine setDom_kept ?_ | refine KeptOut.next ?_)
    | split)
theorem execDomainPowerRequest_kept {d : Fin 212} {on : Bool} {s : State} (hk : Kept b0 s) : KeptOut b0 (execDomainPowerRequest d on s) := by
  unfold execDomainPowerRequest
  repeat' (first
    | (with_reducible first | assumption | refine powerRequest_kept ?_ | refine KeptOut.next ?_)
    | split)
theorem execDomainSequenceDone_kept {d : Fin 212} {s : State} (hk : Kept b0 s) : KeptOut b0 (execDomainSequenceDone d s) := by
  unfold execDomainSequenceDone
  repeat' (first
    | (with_reducible first | assumption | refine domDone_kept ?_ | refine KeptOut.next ?_)
    | split)
theorem execDownRetry_kept {n : Alv} {s : State} (hk : Kept b0 s) : KeptOut b0 (execDownRetry n s) := by
  unfold execDownRetry
  dsimp only
  repeat' (first
    | (with_reducible first | assumption | refine startTraining_kept ?_ | refine KeptOut.next ?_)
    | split)
theorem execDrainComplete_kept {r : Ridge} {id : Nat} {ue : List Nat} {s : State} (hk : Kept b0 s) : KeptOut b0 (execDrainComplete r id ue s) := by
  unfold execDrainComplete
  repeat' (first
    | (with_reducible first | assumption | refine addCounts_kept ?_ | refine updWin_kept ?_ | refine execFault_kept ?_ | refine freeSlot_kept ?_ | refine retire_kept ?_ | refine slotUe_kept ?_ | refine writeStaged_kept ?_ | refine KeptOut.next ?_)
    | split)
theorem execDriftFold_kept {r : Ridge} {table : Fin 256} {s : State} (hk : Kept b0 s) : KeptOut b0 (execDriftFold r table s) := by
  unfold execDriftFold
  dsimp only
  repeat' (first
    | (with_reducible first | assumption | refine foldReports_kept ?_ | refine serviceRope_kept ?_ | refine updR_kept ?_ ?_ | refine KeptOut.next ?_)
    | exact fun _ h => writeInactive_loam h
    | split)
theorem execDrn_kept {r : Ridge} {x : Ctx} {w : W128} {s : State} (hk : Kept b0 s) : KeptOut b0 (execDrn r x w s) := by
  unfold execDrn
  dsimp only
  repeat' (first
    | (with_reducible first | assumption | refine issue_kept ?_ ?_ | refine issueWin_kept ?_ | refine StgAll.gone (stageAs_kept ?_) (by assumption) | refine StgAll.staged (stageAs_kept ?_) (by assumption) | refine setClosing_kept ?_ | refine IssAll.intro_stay ?_)
    | exact trivial
    | split)
theorem execDuplicateIdClear_kept {s : State} (hk : Kept b0 s) : KeptOut b0 (execDuplicateIdClear s) := by
  unfold execDuplicateIdClear
  repeat' (first
    | (with_reducible first | assumption | exact fun h => h | refine KeptOut.next ?_)
    | (simp only [Kept.fields]; with_reducible refine Kept.upd ?_ ?_ ?_ ?_ ?_)
    | split)
theorem execEgressFenceRelease_kept {part : PartNo} {job : W32} {s : State} (hk : Kept b0 s) : KeptOut b0 (execEgressFenceRelease part job s) := by
  unfold execEgressFenceRelease
  repeat' (first
    | (with_reducible first | assumption | refine releaseHeld_kept ?_ | refine KeptOut.next ?_)
    | split)
theorem inSession_kept {s : State} {p : Port} {sid : Nat} {f : Sess → State} (hk : Kept b0 s) (hf : ∀ v, Kept b0 (f v)) : KeptOut b0 (inSession s p sid f) := by
  refine doeReq_kept hk ?_
  split
  · split
    · exact hf _
    · exact refuse_kept hk
  · exact refuse_kept hk
theorem execEndSession_kept {p : Port} {sid : Nat} {s : State} (hk : Kept b0 s) : KeptOut b0 (execEndSession p sid s) := by
  unfold execEndSession
  repeat' (first
    | (with_reducible first | assumption | refine dropSessIde_kept ?_ | refine answer_kept ?_ | refine inSession_kept ?_ ?_ | refine setSess_kept ?_)
    | refine fun _ => ?_)
theorem execEstimateStale_kept {s : State} (hk : Kept b0 s) : KeptOut b0 (execEstimateStale s) := by
  unfold execEstimateStale
  repeat' (first
    | (with_reducible first | assumption | refine thermalEvent_kept ?_ | refine hotAssert_kept ?_ | exact fun h => h | refine KeptOut.next ?_)
    | (simp only [Kept.fields]; with_reducible refine Kept.upd ?_ ?_ ?_ ?_ ?_)
    | split)
theorem execEventConfig_kept {q : QId} {cid : W16} {s : State} (hk : Kept b0 s) : KeptOut b0 (execEventConfig q cid s) := by
  unfold execEventConfig
  repeat' (first
    | (with_reducible first | assumption | refine eventConfigDo_kept ?_ | refine withCmd_kept ?_ ?_)
    | refine fun _ => ?_)
theorem execFailureLogWrite_kept {s : State} (hk : Kept b0 s) : KeptOut b0 (execFailureLogWrite s) := by
  unfold execFailureLogWrite
  repeat' (first
    | (with_reducible first | assumption | refine clearUe_kept ?_ | exact fun h => h | refine KeptOut.next ?_)
    | (simp only [Kept.fields]; with_reducible refine Kept.upd ?_ ?_ ?_ ?_ ?_)
    | split)
theorem execFieldTestComplete_kept {r : Ridge} {failed : BitVec 4} {trim : List (Nat × Nat × Nat)} {bad : List (Nat × Nat × Nat × Nat × Int)} {mv : Nat} {s : State} (hk : Kept b0 s) : KeptOut b0 (execFieldTestComplete r failed trim bad mv s) := by
  unfold execFieldTestComplete
  repeat' (first
    | (with_reducible first | assumption | refine testDone_kept ?_ | refine KeptOut.next ?_)
    | split)
theorem execFieldTestDue_kept {r : Ridge} {s : State} (hk : Kept b0 s) : KeptOut b0 (execFieldTestDue r s) := by
  unfold execFieldTestDue
  dsimp only
  repeat' (first
    | (with_reducible first | assumption | refine preemptForTest_kept ?_ | refine startDue_kept ?_ | refine testEvent_kept ?_ | refine updTest_kept ?_ | refine KeptOut.next ?_)
    | split)
theorem execFil_kept {r : Ridge} {x : Ctx} {w : W128} {s : State} (hk : Kept b0 s) : KeptOut b0 (execFil r x w s) := by
  refine issue_kept hk ?_
  dsimp only
  repeat' (first
    | exact trivial
    | with_reducible assumption
    | with_reducible refine filGo_kept ?_
    | with_reducible refine dropOnce_kept ?_
    | split)
  next j _ _ _ _ d t hf =>
    obtain ⟨q, -, hq⟩ := List.mem_map.mp (List.mem_of_find?_eq_some hf)
    exact DvaAll.wait (ridgeRead_kept hk) hq
theorem execFinish_kept {p : Port} {sid : Nat} {hmacOk : Bool} {s : State} (hk : Kept b0 s) : KeptOut b0 (execFinish p sid hmacOk s) := by
  unfold execFinish
  repeat' (first
    | (with_reducible first | assumption | refine doeReq_kept ?_ ?_ | refine answer_kept ?_ | refine setSess_kept ?_ | refine refuse_kept ?_)
    | split)
theorem execFwCommit_kept {q : QId} {cid : W16} {s : State} (hk : Kept b0 s) : KeptOut b0 (execFwCommit q cid s) := by
  unfold execFwCommit
  repeat' (first
    | (with_reducible first | assumption | refine startCmd_kept ?_ | refine withCmd_kept ?_ ?_ | refine serviceRope_kept ?_)
    | split
    | refine fun _ => ?_)
theorem execFwHeartbeat_kept {s : State} (hk : Kept b0 s) : KeptOut b0 (execFwHeartbeat s) := by
  unfold execFwHeartbeat
  repeat' (first
    | (with_reducible first | assumption | exact fun h => h | refine KeptOut.next ?_)
    | (simp only [Kept.fields]; with_reducible refine Kept.upd ?_ ?_ ?_ ?_ ?_)
    | split)
theorem execFwRunning_kept {s : State} (hk : Kept b0 s) : KeptOut b0 (execFwRunning s) := by
  unfold execFwRunning
  repeat' (first
    | (with_reducible first | assumption | refine OptAll.of_some (bedrock_kept ?_) (by assumption) | refine restartScrubs_kept ?_ | refine attnBoth_kept ?_ | refine startModel_kept ?_ | refine orphanTiles_kept ?_ | refine bootEnd_kept ?_ | exact fun h => h | refine KeptOut.next ?_)
    | (simp only [Kept.fields]; with_reducible refine Kept.upd ?_ ?_ ?_ ?_ ?_)
    | split)
theorem execFwStage_kept {q : QId} {cid : W16} {s : State} (hk : Kept b0 s) : KeptOut b0 (execFwStage q cid s) := by
  unfold execFwStage
  repeat' (first
    | (with_reducible first | assumption | refine fwStageDo_kept ?_ | refine withCmd_kept ?_ ?_)
    | refine fun _ => ?_)
theorem execFwStartTimeout_kept {s : State} (hk : Kept b0 s) : KeptOut b0 (execFwStartTimeout s) := by
  unfold execFwStartTimeout
  repeat' (first
    | (with_reducible first | assumption | refine secondStall_kept ?_ | refine KeptOut.next ?_)
    | split)
theorem execGetCapabilities_kept {p : Port} {s : State} (hk : Kept b0 s) : KeptOut b0 (execGetCapabilities p s) := by
  unfold execGetCapabilities
  repeat' (first
    | (with_reducible first | assumption | refine doeReq_kept ?_ ?_ | refine answer_kept ?_ | refine updSpdm_kept ?_ | refine refuse_kept ?_)
    | split)
theorem execGetCaps_kept {q : QId} {cid : W16} {s : State} (hk : Kept b0 s) : KeptOut b0 (execGetCaps q cid s) := by
  unfold execGetCaps
  repeat' (first
    | (with_reducible first | assumption | refine completeOut_kept ?_ | refine withCmd_kept ?_ ?_)
    | refine fun _ => ?_)
theorem execGetCertificate_kept {p : Port} {slot off len : Nat} {s : State} (hk : Kept b0 s) : KeptOut b0 (execGetCertificate p slot off len s) := by
  unfold execGetCertificate
  repeat' (first
    | (with_reducible first | assumption | refine answer_kept ?_ | refine refuse_kept ?_ | refine negotiated_kept ?_ ?_)
    | split)
theorem tdiReq_kept {s : State} {p : Port} {sid n : Nat} {f : Part → State} (hk : Kept b0 s) (hf : ∀ t, Kept b0 (f t)) : KeptOut b0 (tdiReq s p sid n f) := by
  refine inSession_kept hk (fun _ => ?_)
  dsimp only
  split
  · exact refuse_kept hk
  · exact hf _
theorem execGetDeviceInterfaceReport_kept {p : Port} {sid : Nat} {n : Fin 16} {s : State} (hk : Kept b0 s) : KeptOut b0 (execGetDeviceInterfaceReport p sid n s) := by
  unfold execGetDeviceInterfaceReport
  repeat' (first
    | (with_reducible first | assumption | refine answer_kept ?_ | refine refuse_kept ?_ | refine tdiReq_kept ?_ ?_)
    | split
    | refine fun _ => ?_)
theorem execGetDigests_kept {p : Port} {s : State} (hk : Kept b0 s) : KeptOut b0 (execGetDigests p s) := by
  unfold execGetDigests
  repeat' (first
    | (with_reducible first | assumption | refine answer_kept ?_ | refine negotiated_kept ?_ ?_))
theorem execGetFeature_kept {q : QId} {cid : W16} {s : State} (hk : Kept b0 s) : KeptOut b0 (execGetFeature q cid s) := by
  unfold execGetFeature
  repeat' (first
    | (with_reducible first | assumption | refine completeOut_kept ?_ | refine withCmd_kept ?_ ?_)
    | refine fun _ => ?_)
theorem mctpReply_kept {s : State} {b : List Byte} (hk : Kept b0 s) : KeptOut b0 (mctpReply s b) := by
  unfold mctpReply
  repeat' (first
    | (with_reducible first | assumption | exact fun h => h | refine KeptOut.next ?_)
    | (simp only [Kept.fields]; with_reducible refine Kept.upd ?_ ?_ ?_ ?_ ?_)
    | split)
theorem execGetIdentity_kept {s : State} (hk : Kept b0 s) : KeptOut b0 (execGetIdentity s) := by
  unfold execGetIdentity
  repeat' (first
    | (with_reducible first | assumption | refine mctpReply_kept ?_))
theorem execGetLog_kept {first : Nat} {s : State} (hk : Kept b0 s) : KeptOut b0 (execGetLog first s) := by
  unfold execGetLog
  repeat' (first
    | (with_reducible first | assumption | refine mctpReply_kept ?_))
theorem execGetMeasurements_kept {p : Port} {idx : Nat} {sign : Bool} {nonce : W256} {s : State} (hk : Kept b0 s) : KeptOut b0 (execGetMeasurements p idx sign nonce s) := by
  unfold execGetMeasurements
  repeat' (first
    | (with_reducible first | assumption | refine drawn_kept ?_ | refine answer_kept ?_ | refine refuse_kept ?_ | refine negotiated_kept ?_ ?_)
    | split)
theorem execGetPower_kept {s : State} (hk : Kept b0 s) : KeptOut b0 (execGetPower s) := by
  unfold execGetPower
  repeat' (first
    | (with_reducible first | assumption | refine mctpReply_kept ?_))
theorem execGetStatus_kept {s : State} (hk : Kept b0 s) : KeptOut b0 (execGetStatus s) := by
  unfold execGetStatus
  repeat' (first
    | (with_reducible first | assumption | refine mctpReply_kept ?_))
theorem execGetThermal_kept {s : State} (hk : Kept b0 s) : KeptOut b0 (execGetThermal s) := by
  unfold execGetThermal
  repeat' (first
    | (with_reducible first | assumption | refine mctpReply_kept ?_))
theorem execGetVersion_kept {p : Port} {s : State} (hk : Kept b0 s) : KeptOut b0 (execGetVersion p s) := by
  unfold execGetVersion
  repeat' (first
    | (with_reducible first | assumption | refine doeReq_kept ?_ ?_ | refine answer_kept ?_ | refine updSpdm_kept ?_))
theorem execHail_kept {n : Alv} {f : Frame} {s : State} (hk : Kept b0 s) : KeptOut b0 (execHail n f s) := by
  unfold execHail
  repeat' (first
    | (with_reducible first | assumption | refine OptAllFst.of_some (arrive_kept ?_) (by assumption) | refine stamp_kept ?_ | refine setLink_kept ?_ | refine hailPeer_kept ?_ | refine dropFrame_kept ?_ | refine peerChange_kept ?_ | refine goUp_kept ?_ | exact fun h => h | refine KeptOut.next ?_)
    | (simp only [Kept.fields]; with_reducible refine Kept.upd ?_ ?_ ?_ ?_ ?_)
    | split)
theorem execHailSend_kept {s : State} (hk : Kept b0 s) : KeptOut b0 (execHailSend s) := by
  unfold execHailSend
  repeat' (first
    | (with_reducible first | assumption | refine sendHail_kept ?_ | exact fun h => h | refine KeptOut.next ?_)
    | (simp only [Kept.fields]; with_reducible refine Kept.upd ?_ ?_ ?_ ?_ ?_)
    | (with_reducible refine Kept.foldl (fun _ _ _ => ?_) _ _ ?_) <;> try dsimp only
    | split)
theorem execHalt_kept {r : Ridge} {x : Ctx} {w : W128} {s : State} (hk : Kept b0 s) : KeptOut b0 (execHalt r x w s) := by
  unfold execHalt
  repeat' (first
    | (with_reducible first | assumption | refine issue_kept ?_ ?_ | refine issueWin_kept ?_))
theorem execHbAqCfg_kept {p : Port} {v : W32} {s : State} (hk : Kept b0 s) : KeptOut b0 (execHbAqCfg p v s) := by
  unfold execHbAqCfg
  repeat' (first
    | (with_reducible first | assumption | refine aqConfigure_kept ?_ | refine KeptOut.next ?_)
    | split)
theorem execHbAttnAck_kept {p : Port} {v : W32} {s : State} (hk : Kept b0 s) : KeptOut b0 (execHbAttnAck p v s) := by
  unfold execHbAttnAck
  repeat' (first
    | (with_reducible first | assumption | refine hrdySync_kept ?_ | refine updPort_kept ?_ | refine KeptOut.next ?_)
    | split)
theorem execHbColSeqHi_kept {p : Port} {f : Fn} {s : State} (hk : Kept b0 s) : KeptOut b0 (execHbColSeqHi p f s) := by
  unfold execHbColSeqHi
  repeat' (first
    | (with_reducible first | assumption | refine updFn_kept ?_ | refine readBack_kept ?_ | refine KeptOut.next ?_)
    | split)
theorem execHbColSeqLo_kept {p : Port} {f : Fn} {s : State} (hk : Kept b0 s) : KeptOut b0 (execHbColSeqLo p f s) := by
  unfold execHbColSeqLo
  repeat' (first
    | (with_reducible first | assumption | refine updFn_kept ?_ | refine readBack_kept ?_ | refine KeptOut.next ?_)
    | split)
theorem execHbCtrl_kept {p : Port} {f : Fn} {v : W32} {s : State} (hk : Kept b0 s) : KeptOut b0 (execHbCtrl p f v s) := by
  unfold execHbCtrl
  repeat' (first
    | (with_reducible first | assumption | refine updFn_kept ?_ | refine KeptOut.next ?_)
    | split)
theorem execHbDbAdmin_kept {p : Port} {v : W32} {s : State} (hk : Kept b0 s) : KeptOut b0 (execHbDbAdmin p v s) := by
  unfold execHbDbAdmin
  repeat' (first
    | (with_reducible first | assumption | refine pinSync_kept ?_ | refine ringHead_kept ?_ | refine ringTail_kept ?_ | refine KeptOut.next ?_)
    | split)
theorem execHbEvtDrop_kept {p : Port} {f : Fn} {s : State} (hk : Kept b0 s) : KeptOut b0 (execHbEvtDrop p f s) := by
  unfold execHbEvtDrop
  repeat' (first
    | (with_reducible first | assumption | refine updFn_kept ?_ | refine readBack_kept ?_ | refine KeptOut.next ?_)
    | split)
theorem execHeartbeat_kept {p : Port} {sid : Nat} {s : State} (hk : Kept b0 s) : KeptOut b0 (execHeartbeat p sid s) := by
  unfold execHeartbeat
  repeat' (first
    | (with_reducible first | assumption | refine answer_kept ?_ | refine inSession_kept ?_ ?_)
    | refine fun _ => ?_)
theorem execHeartbeatTimeout_kept {s : State} (hk : Kept b0 s) : KeptOut b0 (execHeartbeatTimeout s) := by
  unfold execHeartbeatTimeout
  repeat' (first
    | (with_reducible first | assumption | refine secondStall_kept ?_ | refine stall_kept ?_ | refine KeptOut.next ?_)
    | split)
theorem execHrdyMinimumTime_kept {p : Port} {s : State} (hk : Kept b0 s) : KeptOut b0 (execHrdyMinimumTime p s) := by
  unfold execHrdyMinimumTime
  repeat' (first
    | (with_reducible first | assumption | refine hrdySync_kept ?_ | refine KeptOut.next ?_)
    | split)
theorem execIdeFail_kept {p : Port} {f : Fn} {s : State} (hk : Kept b0 s) : KeptOut b0 (execIdeFail p f s) := by
  unfold execIdeFail
  repeat' (first
    | (with_reducible first | assumption | refine securityEvent_kept ?_ | refine tdiFail_kept ?_ | refine setInsecure_kept ?_ | refine KeptOut.next ?_)
    | split)
theorem execIdeKmQuery_kept {p : Port} {sid : Nat} {f : Fn} {s : State} (hk : Kept b0 s) : KeptOut b0 (execIdeKmQuery p sid f s) := by
  unfold execIdeKmQuery
  repeat' (first
    | (with_reducible first | assumption | refine answer_kept ?_ | refine inSession_kept ?_ ?_)
    | refine fun _ => ?_)
theorem execIdentify_kept {q : QId} {cid : W16} {s : State} (hk : Kept b0 s) : KeptOut b0 (execIdentify q cid s) := by
  unfold execIdentify
  repeat' (first
    | (with_reducible first | assumption | refine completeOut_kept ?_ | refine withCmd_kept ?_ ?_)
    | refine fun _ => ?_)
theorem execInletStale_kept {s : State} (hk : Kept b0 s) : KeptOut b0 (execInletStale s) := by
  unfold execInletStale
  repeat' (first
    | (with_reducible first | assumption | refine thermalCore_kept ?_ | exact fun h => h | refine KeptOut.next ?_)
    | (simp only [Kept.fields]; with_reducible refine Kept.upd ?_ ?_ ?_ ?_ ?_)
    | split)
theorem execInputLoss_kept {s : State} (hk : Kept b0 s) : KeptOut b0 (execInputLoss s) := by
  unfold execInputLoss
  repeat' (first
    | (with_reducible first | assumption | refine stopEngine_kept ?_ | exact fun h => h | refine KeptOut.next ?_)
    | (simp only [Kept.fields]; with_reducible refine Kept.upd ?_ ?_ ?_ ?_ ?_)
    | (with_reducible refine Kept.foldl (fun _ _ _ => ?_) _ _ ?_) <;> try dsimp only
    | split)
theorem execInputLossTimeout_kept {s : State} (hk : Kept b0 s) : KeptOut b0 (execInputLossTimeout s) := by
  unfold execInputLossTimeout
  repeat' (first
    | (with_reducible first | assumption | refine inputReset_kept ?_ | refine KeptOut.next ?_)
    | split)
theorem execInputLow_kept {mv : Nat} {s : State} (hk : Kept b0 s) : KeptOut b0 (execInputLow mv s) := by
  unfold execInputLow
  repeat' (first
    | (with_reducible first | assumption | refine raiseCoal_kept ?_ | exact fun h => h | refine KeptOut.next ?_)
    | (simp only [Kept.fields]; with_reducible refine Kept.upd ?_ ?_ ?_ ?_ ?_)
    | split)
theorem execInputRestored_kept {s : State} (hk : Kept b0 s) : KeptOut b0 (execInputRestored s) := by
  unfold execInputRestored
  repeat' (first
    | (with_reducible first | assumption | refine boot_kept ?_ | refine powerEvent_kept ?_ | exact fun h => h | refine KeptOut.next ?_)
    | (simp only [Kept.fields]; with_reducible refine Kept.upd ?_ ?_ ?_ ?_ ?_)
    | split)
theorem execJobCairnExport_kept {q : QId} {cid : W16} {s : State} (hk : Kept b0 s) : KeptOut b0 (execJobCairnExport q cid s) := by
  unfold execJobCairnExport
  repeat' (first
    | (with_reducible first | assumption | refine jobCairnExportDo_kept ?_ | refine withCmd_kept ?_ ?_)
    | refine fun _ => ?_)
theorem execJobCompletion_kept {part : PartNo} {job : W32} {s : State} (hk : Kept b0 s) : KeptOut b0 (execJobCompletion part job s) := by
  unfold execJobCompletion
  repeat' (first
    | (with_reducible first | assumption | refine endJob_kept ?_ | refine updJob_kept ?_ | refine askProbes_kept ?_ | refine KeptOut.next ?_)
    | split)
theorem execJobEndOnFault_kept {part : PartNo} {job : W32} {s : State} (hk : Kept b0 s) : KeptOut b0 (execJobEndOnFault part job s) := by
  unfold execJobEndOnFault
  dsimp only
  repeat' (first
    | (with_reducible first | assumption | refine endJob_kept ?_ | refine KeptOut.next ?_)
    | split)
theorem execJobRestart_kept {part : PartNo} {job : W32} {s : State} (hk : Kept b0 s) : KeptOut b0 (execJobRestart part job s) := by
  unfold execJobRestart
  dsimp only
  repeat' (first
    | (with_reducible first | assumption | refine finishJob_kept ?_ | refine updP_kept ?_ | refine startJob_kept ?_ | refine updJob_kept ?_ | refine restartCleared_kept ?_ | refine KeptOut.next ?_)
    | split)
theorem execJobResume_kept {q : QId} {cid : W16} {s : State} (hk : Kept b0 s) : KeptOut b0 (execJobResume q cid s) := by
  unfold execJobResume
  repeat' (first
    | (with_reducible first | assumption | refine jobResumeDo_kept ?_ | refine withCmd_kept ?_ ?_)
    | refine fun _ => ?_)
theorem execJobStart_kept {part : PartNo} {job : W32} {s : State} (hk : Kept b0 s) : KeptOut b0 (execJobStart part job s) := by
  unfold execJobStart
  repeat' (first
    | (with_reducible first | assumption | refine startJob_kept ?_ | refine KeptOut.next ?_)
    | split)
theorem execJobSubmit_kept {q : QId} {cid : W16} {s : State} (hk : Kept b0 s) : KeptOut b0 (execJobSubmit q cid s) := by
  unfold execJobSubmit
  repeat' (first
    | (with_reducible first | assumption | refine jobSubmitDo_kept ?_ | refine withOrdered_kept ?_ ?_)
    | refine fun _ => ?_)
theorem execJobTimeLimit_kept {part : PartNo} {job : W32} {s : State} (hk : Kept b0 s) : KeptOut b0 (execJobTimeLimit part job s) := by
  unfold execJobTimeLimit
  repeat' (first
    | (with_reducible first | assumption | refine endJob_kept ?_ | refine KeptOut.next ?_)
    | split)
theorem execKSetGo_kept {p : Port} {sid : Nat} {f : Fn} {dir set : Bool} {s : State} (hk : Kept b0 s) : KeptOut b0 (execKSetGo p sid f dir set s) := by
  unfold execKSetGo
  dsimp only
  repeat' (first
    | (with_reducible first | assumption | refine setIde_kept ?_ | refine answer_kept ?_ | refine inSession_kept ?_ ?_ | refine setInsecure_kept ?_ | refine refuse_kept ?_)
    | split
    | refine fun _ => ?_)
theorem execKSetStop_kept {p : Port} {sid : Nat} {f : Fn} {dir set : Bool} {s : State} (hk : Kept b0 s) : KeptOut b0 (execKSetStop p sid f dir set s) := by
  unfold execKSetStop
  repeat' (first
    | (with_reducible first | assumption | refine setIde_kept ?_ | refine answer_kept ?_ | refine inSession_kept ?_ ?_)
    | refine fun _ => ?_)
theorem execKeyExchange_kept {p : Port} {sid : Nat} {pub : List Byte} {s : State} (hk : Kept b0 s) : KeptOut b0 (execKeyExchange p sid pub s) := by
  unfold execKeyExchange
  repeat' (first
    | (with_reducible first | assumption | refine answer_kept ?_ | refine setSess_kept ?_ | refine refuse_kept ?_ | refine negotiated_kept ?_ ?_ | exact fun h => h)
    | (simp only [Kept.fields]; with_reducible refine Kept.upd ?_ ?_ ?_ ?_ ?_)
    | split)
theorem execKeyProg_kept {p : Port} {sid : Nat} {f : Fn} {dir set : Bool} {sub : Nat} {key : List Byte} {s : State} (hk : Kept b0 s) : KeptOut b0 (execKeyProg p sid f dir set sub key s) := by
  unfold execKeyProg
  repeat' (first
    | (with_reducible first | assumption | refine setIde_kept ?_ | refine answer_kept ?_ | refine inSession_kept ?_ ?_ | refine refuse_kept ?_)
    | split
    | refine fun _ => ?_)
theorem execKeyUpdate_kept {p : Port} {sid : Nat} {both : Bool} {s : State} (hk : Kept b0 s) : KeptOut b0 (execKeyUpdate p sid both s) := by
  unfold execKeyUpdate
  repeat' (first
    | (with_reducible first | assumption | refine answer_kept ?_ | refine inSession_kept ?_ ?_ | refine setSess_kept ?_)
    | split
    | refine fun _ => ?_)
theorem execLinkLockLost_kept {n : Alv} {s : State} (hk : Kept b0 s) : KeptOut b0 (execLinkLockLost n s) := by
  unfold execLinkLockLost
  repeat' (first
    | (with_reducible first | assumption | refine startTraining_kept ?_ | refine KeptOut.next ?_)
    | split)
theorem execLinkTrainingComplete_kept {n : Alv} {x2 : Bool} {s : State} (hk : Kept b0 s) : KeptOut b0 (execLinkTrainingComplete n x2 s) := by
  unfold execLinkTrainingComplete
  dsimp only
  repeat' (first
    | (with_reducible first | assumption | refine setLink_kept ?_ | refine sendHail_kept ?_ | refine goUp_kept ?_ | refine KeptOut.next ?_)
    | split)
theorem execLoadCalibrationEnd_kept {part : PartNo} {wset : W32} {s : State} (hk : Kept b0 s) : KeptOut b0 (execLoadCalibrationEnd part wset s) := by
  unfold execLoadCalibrationEnd
  dsimp only
  repeat' (first
    | (with_reducible first | assumption | refine updWset_kept ?_ | refine KeptOut.next ?_)
    | split)
theorem execLockInterface_kept {p : Port} {sid : Nat} {n : Fin 16} {s : State} (hk : Kept b0 s) : KeptOut b0 (execLockInterface p sid n s) := by
  unfold execLockInterface
  dsimp only
  repeat' (first
    | (with_reducible first | assumption | refine drawn_kept ?_ | refine answer_kept ?_ | refine updP_kept ?_ | refine refuse_kept ?_ | refine tdiReq_kept ?_ ?_)
    | split
    | refine fun _ => ?_)
theorem execLogExport_kept {q : QId} {cid : W16} {s : State} (hk : Kept b0 s) : KeptOut b0 (execLogExport q cid s) := by
  unfold execLogExport
  repeat' (first
    | (with_reducible first | assumption | refine withCmd_kept ?_ ?_ | refine logExportDo_kept ?_)
    | refine fun _ => ?_)
theorem execMctpControlMessage_kept {code : Nat} {data : List Byte} {s : State} (hk : Kept b0 s) : KeptOut b0 (execMctpControlMessage code data s) := by
  unfold execMctpControlMessage
  repeat' (first
    | (with_reducible first | assumption | refine mctpReply_kept ?_ | exact fun h => h)
    | (simp only [Kept.fields]; with_reducible refine Kept.upd ?_ ?_ ?_ ?_ ?_)
    | split)
theorem execMemoryAtomicApply_kept {id : Nat} {s : State} (hk : Kept b0 s) : KeptOut b0 (execMemoryAtomicApply id s) := by
  have h1 : Kept b0 { s with mem := { s.mem with atomics := s.mem.atomics.filter (fun v => v.id ≠ id) } } :=
    Kept.upd (t := s) hk (fun h => h) (fun h => h) (fun h => h) (fun h => h)
  unfold execMemoryAtomicApply
  split
  · exact KeptOut.next hk
  · dsimp only
    split
    · exact KeptOut.next (atomLocal_kept h1 (fun _ _ g => updR_kept g (fun _ h => h.loamPut)))
    · exact KeptOut.next (atomLocal_kept h1 (fun _ _ g => dramPut_kept g))
    · split
      · exact KeptOut.next h1
      · split
        · exact KeptOut.next hk
        · split
          · exact KeptOut.next (mmuFault_kept hk)
          · exact KeptOut.next (OptAll.getD (peerSend_kept h1) hk)
theorem execMoraineFill_kept {part : PartNo} {pa bad : Nat} {s : State} (hk : Kept b0 s) : KeptOut b0 (execMoraineFill part pa bad s) := by
  unfold execMoraineFill
  dsimp only
  repeat' (first
    | (with_reducible first | assumption | refine goldenFails_kept ?_ | refine raiseInteg_kept ?_ | refine dramPoison_kept ?_ | refine fillLine_kept ?_ | refine countCorrected_kept ?_ | refine KeptOut.next ?_)
    | split)
theorem execMsg_kept {n : Alv} {f : Frame} {s : State} (hk : Kept b0 s) : KeptOut b0 (execMsg n f s) := by
  unfold execMsg
  repeat' (first
    | (with_reducible first | assumption | refine announce_kept ?_ | refine OptAllFst.of_some (arrive_kept ?_) (by assumption) | refine keepRecord_kept ?_ | refine malformed_kept ?_ | refine reply_kept ?_ | refine KeptOut.next ?_)
    | split)
theorem execMvm_kept {r : Ridge} {x : Ctx} {w : W128} {s : State} (hk : Kept b0 s) : KeptOut b0 (execMvm r x w s) := by
  unfold execMvm
  repeat' (first
    | (with_reducible first | assumption | refine mvmBody_kept ?_ | refine issue_kept ?_ ?_))
theorem execMvms_kept {r : Ridge} {x : Ctx} {w : W128} {s : State} (hk : Kept b0 s) : KeptOut b0 (execMvms r x w s) := by
  unfold execMvms
  repeat' (first
    | (with_reducible first | assumption | refine mvmBody_kept ?_ | refine issue_kept ?_ ?_))
theorem execNegotiateAlgorithms_kept {p : Port} {ecdsa sha ecdhe gcm : Bool} {s : State} (hk : Kept b0 s) : KeptOut b0 (execNegotiateAlgorithms p ecdsa sha ecdhe gcm s) := by
  unfold execNegotiateAlgorithms
  repeat' (first
    | (with_reducible first | assumption | refine doeReq_kept ?_ ?_ | refine answer_kept ?_ | refine updSpdm_kept ?_ | refine refuse_kept ?_)
    | split)
theorem execNoEstimateWindowEnd_kept {s : State} (hk : Kept b0 s) : KeptOut b0 (execNoEstimateWindowEnd s) := by
  unfold execNoEstimateWindowEnd
  repeat' (first
    | (with_reducible first | assumption | refine hotAssert_kept ?_ | exact fun h => h | refine KeptOut.next ?_)
    | (simp only [Kept.fields]; with_reducible refine Kept.upd ?_ ?_ ?_ ?_ ?_)
    | split)
theorem execNop_kept {r : Ridge} {x : Ctx} {w : W128} {s : State} (hk : Kept b0 s) : KeptOut b0 (execNop r x w s) := by
  unfold execNop
  repeat' (first
    | (with_reducible first | assumption | refine issue_kept ?_ ?_ | refine IssAll.intro_next ?_))
theorem execPageWalk_kept {id : Nat} {s : State} (hk : Kept b0 s) : KeptOut b0 (execPageWalk id s) := by
  unfold execPageWalk
  dsimp only
  repeat' (first
    | (with_reducible first | assumption | refine settleRidge_kept ?_ | refine pageWalk_kept ?_ | refine ropeAbort_kept ?_ | refine KeptOut.next ?_)
    | split)
theorem execPartBind_kept {q : QId} {cid : W16} {s : State} (hk : Kept b0 s) : KeptOut b0 (execPartBind q cid s) := by
  unfold execPartBind
  repeat' (first
    | (with_reducible first | assumption | refine withCmd_kept ?_ ?_ | refine partBindDo_kept ?_)
    | refine fun _ => ?_)
theorem execPartCreate_kept {q : QId} {cid : W16} {s : State} (hk : Kept b0 s) : KeptOut b0 (execPartCreate q cid s) := by
  unfold execPartCreate
  repeat' (first
    | (with_reducible first | assumption | refine partCreateDo_kept ?_ | refine withCmd_kept ?_ ?_ | refine createEnd_kept ?_ | refine KeptOut.next ?_)
    | split
    | refine fun _ => ?_)
theorem execPartDestroy_kept {q : QId} {cid : W16} {s : State} (hk : Kept b0 s) : KeptOut b0 (execPartDestroy q cid s) := by
  unfold execPartDestroy
  repeat' (first
    | (with_reducible first | assumption | refine withCmd_kept ?_ ?_ | refine partDestroyDo_kept ?_)
    | refine fun _ => ?_)
theorem execPartQuery_kept {q : QId} {cid : W16} {s : State} (hk : Kept b0 s) : KeptOut b0 (execPartQuery q cid s) := by
  unfold execPartQuery
  repeat' (first
    | (with_reducible first | assumption | refine completeOut_kept ?_ | refine withCmd_kept ?_ ?_)
    | refine fun _ => ?_)
theorem execPeakHoldHotTimer_kept {s : State} (hk : Kept b0 s) : KeptOut b0 (execPeakHoldHotTimer s) := by
  unfold execPeakHoldHotTimer
  repeat' (first
    | (with_reducible first | assumption | refine hotAssert_kept ?_ | exact fun h => h | refine KeptOut.next ?_)
    | (simp only [Kept.fields]; with_reducible refine Kept.upd ?_ ?_ ?_ ?_ ?_)
    | split)
theorem execPeakPowerHold_kept {ma : Nat} {s : State} (hk : Kept b0 s) : KeptOut b0 (execPeakPowerHold ma s) := by
  unfold execPeakPowerHold
  repeat' (first
    | (with_reducible first | assumption | refine powerLimit_kept ?_ | exact fun h => h | refine KeptOut.next ?_)
    | (simp only [Kept.fields]; with_reducible refine Kept.upd ?_ ?_ ?_ ?_ ?_)
    | split)
theorem execPeerSweep_kept {s : State} (hk : Kept b0 s) : KeptOut b0 (execPeerSweep s) := by
  unfold execPeerSweep
  repeat' (first
    | (with_reducible first | assumption | refine peerLost_kept ?_ | exact fun h => h | refine KeptOut.next ?_)
    | (simp only [Kept.fields]; with_reducible refine Kept.upd ?_ ?_ ?_ ?_ ?_)
    | (with_reducible refine Kept.foldl (fun _ _ _ => ?_) _ _ ?_) <;> try dsimp only
    | split)
theorem execPeerTable_kept {q : QId} {cid : W16} {s : State} (hk : Kept b0 s) : KeptOut b0 (execPeerTable q cid s) := by
  unfold execPeerTable
  repeat' (first
    | (with_reducible first | assumption | refine applyOverride_kept ?_ | refine completeOut_kept ?_ | refine complete_kept ?_ | refine withCmd_kept ?_ ?_)
    | (with_reducible refine Kept.foldl (fun _ _ _ => ?_) _ _ ?_) <;> try dsimp only
    | split
    | refine fun _ => ?_)
theorem execPf0Flr_kept {p : Port} {s : State} (hk : Kept b0 s) : KeptOut b0 (execPf0Flr p s) := by
  unfold execPf0Flr
  repeat' (first
    | (with_reducible first | assumption | refine pinSync_kept ?_ | refine updPort_kept ?_ | refine adminOff_kept ?_ | refine ringOff_kept ?_ | exact fun h => h | refine KeptOut.next ?_)
    | (simp only [Kept.fields]; with_reducible refine Kept.upd ?_ ?_ ?_ ?_ ?_)
    | split)
theorem execPinHoldTimeout_kept {e : RopeNo} {s : State} (hk : Kept b0 s) : KeptOut b0 (execPinHoldTimeout e s) := by
  unfold execPinHoldTimeout
  dsimp only
  repeat' (first
    | (with_reducible first | assumption | refine ropeAbort_kept ?_ | refine KeptOut.next ?_)
    | split)
theorem execPllUnlock_kept {s : State} (hk : Kept b0 s) : KeptOut b0 (execPllUnlock s) := by
  unfold execPllUnlock
  repeat' (first
    | (with_reducible first | assumption | refine boot_kept ?_ | refine logicReset_kept ?_ | refine KeptOut.next ?_)
    | split)
theorem execPowerCap_kept {q : QId} {cid : W16} {s : State} (hk : Kept b0 s) : KeptOut b0 (execPowerCap q cid s) := by
  unfold execPowerCap
  repeat' (first
    | (with_reducible first | assumption | refine powerCapDo_kept ?_ | refine withCmd_kept ?_ ?_)
    | refine fun _ => ?_)
theorem execPowerFrame_kept {mv mw : Nat} {dom : List Nat} {s : State} (hk : Kept b0 s) : KeptOut b0 (execPowerFrame mv mw dom s) := by
  unfold execPowerFrame
  repeat' (first
    | (with_reducible first | assumption | refine frameEnd_kept ?_ | refine frameStore_kept ?_ | refine frameRidge_kept ?_ | refine frameBoard_kept ?_ | refine KeptOut.next ?_)
    | (with_reducible refine Kept.foldl (fun _ _ _ => ?_) _ _ ?_) <;> try dsimp only
    | split)
theorem execPrb_kept {r : Ridge} {x : Ctx} {w : W128} {s : State} (hk : Kept b0 s) : KeptOut b0 (execPrb r x w s) := by
  unfold execPrb
  dsimp only
  repeat' (first
    | (with_reducible first | assumption | refine issue_kept ?_ ?_ | refine startProbe_kept ?_ | refine IssAll.intro_next ?_)
    | exact trivial
    | split)
theorem execPre_kept {r : Ridge} {x : Ctx} {w : W128} {s : State} (hk : Kept b0 s) : KeptOut b0 (execPre r x w s) := by
  unfold execPre
  dsimp only
  repeat' (first
    | (with_reducible first | assumption | refine issue_kept ?_ ?_ | refine setSlot_kept ?_ | refine IssAll.intro_next ?_)
    | exact trivial
    | split)
theorem execPreemption_kept {part : PartNo} {victim incoming : W32} {s : State} (hk : Kept b0 s) : KeptOut b0 (execPreemption part victim incoming s) := by
  unfold execPreemption
  repeat' (first
    | (with_reducible first | assumption | refine saveJob_kept ?_ | refine startJob_kept ?_ | refine KeptOut.next ?_)
    | split)
theorem execPreemptionRestore_kept {part : PartNo} {job : W32} {saveOk : Bool} {s : State} (hk : Kept b0 s) : KeptOut b0 (execPreemptionRestore part job saveOk s) := by
  unfold execPreemptionRestore
  repeat' (first
    | (with_reducible first | assumption | refine settleRidge_kept ?_ | refine endJob_kept ?_ | refine raiseCore_kept ?_ | refine restoreJob_kept ?_ | refine KeptOut.next ?_)
    | (with_reducible refine Kept.foldl (fun _ _ _ => ?_) _ _ ?_) <;> try dsimp only
    | split)
theorem execProbeCompare_kept {r : Ridge} {id : Nat} {devs : List AdcDev} {s : State} (hk : Kept b0 s) : KeptOut b0 (execProbeCompare r id devs s) := by
  unfold execProbeCompare
  dsimp only
  repeat' (first
    | (with_reducible first | assumption | refine probeFailed_kept ?_ | refine raise_kept ?_ | refine retire_kept ?_ | refine updPos_kept ?_ | refine KeptOut.next ?_)
    | split)
theorem execProbeInsert_kept {r : Ridge} {p : Pos} {s : State} (hk : Kept b0 s) : KeptOut b0 (execProbeInsert r p s) := by
  unfold execProbeInsert
  dsimp only
  repeat' (first
    | (with_reducible first | assumption | refine startProbe_kept ?_ | refine updPos_kept ?_ | refine KeptOut.next ?_)
    | split)
theorem execProbePolicy_kept {q : QId} {cid : W16} {s : State} (hk : Kept b0 s) : KeptOut b0 (execProbePolicy q cid s) := by
  unfold execProbePolicy
  repeat' (first
    | (with_reducible first | assumption | refine probePolicyDo_kept ?_ | refine withCmd_kept ?_ ?_)
    | refine fun _ => ?_)
theorem execProgLoad_kept {q : QId} {cid : W16} {s : State} (hk : Kept b0 s) : KeptOut b0 (execProgLoad q cid s) := by
  unfold execProgLoad
  repeat' (first
    | (with_reducible first | assumption | refine progLoadDo_kept ?_ | refine withOrdered_kept ?_ ?_)
    | refine fun _ => ?_)
theorem execProgPower_kept {q : QId} {cid : W16} {s : State} (hk : Kept b0 s) : KeptOut b0 (execProgPower q cid s) := by
  unfold execProgPower
  repeat' (first
    | (with_reducible first | assumption | refine complete_kept ?_ | refine withCmd_kept ?_ ?_ | exact fun h => h)
    | (simp only [Kept.fields]; with_reducible refine Kept.upd ?_ ?_ ?_ ?_ ?_)
    | refine fun _ => ?_)
theorem execProgUnload_kept {q : QId} {cid : W16} {s : State} (hk : Kept b0 s) : KeptOut b0 (execProgUnload q cid s) := by
  unfold execProgUnload
  repeat' (first
    | (with_reducible first | assumption | refine complete_kept ?_ | refine unloadProg_kept ?_ | refine withCmd_kept ?_ ?_)
    | refine fun _ => ?_)
theorem execProgrammingComplete_kept {r : Ridge} {t : TileNo} {fails belayFail : List Nat} {step5 : Bool} {base : List Int} {s : State} (hk : Kept b0 s) : KeptOut b0 (execProgrammingComplete r t fails belayFail step5 base s) := by
  unfold execProgrammingComplete
  dsimp only
  repeat' (first
    | (with_reducible first | assumption | refine tileClean_kept ?_ | refine belaysDone_kept ?_ | refine programFailed_kept ?_ | refine wsetProgrammed_kept ?_ | refine serviceRope_kept ?_ | refine updWset_kept ?_ | refine KeptOut.next ?_)
    | split)
theorem execProgrammingStart_kept {s : State} (hk : Kept b0 s) : KeptOut b0 (execProgrammingStart s) := by
  unfold execProgrammingStart
  repeat' (first
    | (with_reducible first | assumption | refine markDirtyTile_kept ?_ | refine dropOp_kept ?_ | refine updR_kept ?_ ?_ | refine KeptOut.next ?_)
    | intro _ h; exact h
    | split)
theorem execPwrEnFall_kept {s : State} (hk : Kept b0 s) : KeptOut b0 (execPwrEnFall s) := by
  unfold execPwrEnFall
  repeat' (first
    | (with_reducible first | assumption | refine clayFinish_kept ?_ | refine resetLogic_kept ?_ | exact fun h => h | refine KeptOut.next ?_)
    | (simp only [Kept.fields]; with_reducible refine Kept.upd ?_ ?_ ?_ ?_ ?_)
    | split)
theorem execPwrEnRise_kept {s : State} (hk : Kept b0 s) : KeptOut b0 (execPwrEnRise s) := by
  unfold execPwrEnRise
  repeat' (first
    | (with_reducible first | assumption | refine boot_kept ?_ | refine resetLogic_kept ?_ | exact fun h => h | refine KeptOut.next ?_)
    | (simp only [Kept.fields]; with_reducible refine Kept.upd ?_ ?_ ?_ ?_ ?_)
    | split)
theorem execQueueCreate_kept {q : QId} {cid : W16} {s : State} (hk : Kept b0 s) : KeptOut b0 (execQueueCreate q cid s) := by
  unfold execQueueCreate
  repeat' (first
    | (with_reducible first | assumption | refine makeQueue_kept ?_ | refine withCmd_kept ?_ ?_)
    | split
    | refine fun _ => ?_)
theorem execQueueDestroy_kept {q : QId} {cid : W16} {s : State} (hk : Kept b0 s) : KeptOut b0 (execQueueDestroy q cid s) := by
  unfold execQueueDestroy
  repeat' (first
    | (with_reducible first | assumption | refine queueDestroyDo_kept ?_ | refine withCmd_kept ?_ ?_)
    | refine fun _ => ?_)
theorem execRailFault_kept {rail : Fin 12} {mv : Nat} {s : State} (hk : Kept b0 s) : KeptOut b0 (execRailFault rail mv s) := by
  unfold execRailFault
  repeat' (first
    | (with_reducible first | assumption | refine railReset_kept ?_ | refine inputReset_kept ?_ | refine KeptOut.next ?_)
    | split)
theorem execRappelDevice_kept {p : Port} {f : Fn} {v : W32} {s : State} (hk : Kept b0 s) : KeptOut b0 (execRappelDevice p f v s) := by
  unfold execRappelDevice
  repeat' (first
    | (with_reducible first | assumption | refine rappelWrite_kept ?_ | refine KeptOut.next ?_))
theorem execRappelPartition_kept {p : Port} {f : Fn} {v : W32} {s : State} (hk : Kept b0 s) : KeptOut b0 (execRappelPartition p f v s) := by
  unfold execRappelPartition
  repeat' (first
    | (with_reducible first | assumption | refine rappelWrite_kept ?_ | refine KeptOut.next ?_))
theorem execRappelQueue_kept {p : Port} {f : Fn} {v : W32} {s : State} (hk : Kept b0 s) : KeptOut b0 (execRappelQueue p f v s) := by
  unfold execRappelQueue
  repeat' (first
    | (with_reducible first | assumption | refine rappelWrite_kept ?_ | refine KeptOut.next ?_))
theorem execRbg_kept {r : Ridge} {x : Ctx} {w : W128} {s : State} (hk : Kept b0 s) : KeptOut b0 (execRbg r x w s) := by
  unfold execRbg
  dsimp only
  repeat' (first
    | (with_reducible first | assumption | refine setRope_kept ?_ | refine issue_kept ?_ ?_ | refine enterRope_kept ?_ | refine IssAll.intro_next ?_)
    | exact trivial
    | split)
theorem execRd_kept {n : Alv} {f : Frame} {s : State} (hk : Kept b0 s) : KeptOut b0 (execRd n f s) := by
  unfold execRd
  repeat' (first
    | (with_reducible first | assumption | refine OptAllFst.of_some (arrive_kept ?_) (by assumption) | refine malformed_kept ?_ | refine reply_kept ?_ | refine KeptOut.next ?_)
    | split)
theorem execRdata_kept {n : Alv} {f : Frame} {s : State} (hk : Kept b0 s) : KeptOut b0 (execRdata n f s) := by
  unfold execRdata
  repeat' (first
    | (with_reducible first | assumption | refine settleRidge_kept ?_ | refine bringLine_kept ?_ | refine OptAllFst.of_some (arrive_kept ?_) (by assumption) | refine raiseInteg_kept ?_ | refine dropFrame_kept ?_ | refine statusDone_kept ?_ | refine setTag_kept ?_ | refine KeptOut.next ?_)
    | split)
theorem execRed_kept {r : Ridge} {x : Ctx} {w : W128} {s : State} (hk : Kept b0 s) : KeptOut b0 (execRed r x w s) := by
  unfold execRed
  repeat' (first
    | (with_reducible first | assumption | refine issue_kept ?_ ?_ | refine dmuWrite_kept ?_)
    | exact trivial
    | split)
theorem execRefclkLoss_kept {s : State} (hk : Kept b0 s) : KeptOut b0 (execRefclkLoss s) := by
  unfold execRefclkLoss
  repeat' (first
    | (with_reducible first | assumption | refine logicReset_kept ?_ | exact fun h => h | refine KeptOut.next ?_)
    | (simp only [Kept.fields]; with_reducible refine Kept.upd ?_ ?_ ?_ ?_ ?_)
    | split)
theorem execRefclkRestored_kept {s : State} (hk : Kept b0 s) : KeptOut b0 (execRefclkRestored s) := by
  unfold execRefclkRestored
  repeat' (first
    | (with_reducible first | assumption | refine boot_kept ?_ | exact fun h => h | refine KeptOut.next ?_)
    | (simp only [Kept.fields]; with_reducible refine Kept.upd ?_ ?_ ?_ ?_ ?_)
    | split)
theorem execRefresh_kept {r : Ridge} {p : Pos} {s : State} (hk : Kept b0 s) : KeptOut b0 (execRefresh r p s) := by
  unfold execRefresh
  dsimp only
  repeat' (first
    | (with_reducible first | assumption | refine exhausted_kept ?_ | refine updR_kept ?_ ?_ | exact fun h => h | refine KeptOut.next ?_)
    | (simp only [Kept.fields]; with_reducible refine Kept.upd ?_ ?_ ?_ ?_ ?_)
    | intro _ h; exact h
    | split)
theorem execRegisterWrite_kept {p : Port} {f : Fn} {off : Nat} {v : W32} {s : State} (hk : Kept b0 s) : KeptOut b0 (execRegisterWrite p f off v s) := by
  unfold execRegisterWrite
  repeat' (first
    | (with_reducible first | assumption | refine regWrite_kept ?_ | refine KeptOut.next ?_)
    | split)
theorem execRemoteSigArrival_kept {id : Nat} {s : State} (hk : Kept b0 s) : KeptOut b0 (execRemoteSigArrival id s) := by
  unfold execRemoteSigArrival
  dsimp only
  repeat' (first
    | (with_reducible first | assumption | refine addCounter_kept ?_ | refine retire_kept ?_ | exact fun h => h | refine KeptOut.next ?_)
    | (simp only [Kept.fields]; with_reducible refine Kept.upd ?_ ?_ ?_ ?_ ?_)
    | split)
theorem execRen_kept {r : Ridge} {x : Ctx} {w : W128} {s : State} (hk : Kept b0 s) : KeptOut b0 (execRen r x w s) := by
  unfold execRen
  dsimp only
  repeat' (first
    | (with_reducible first | assumption | refine ropeStage_kept ?_ | refine updCtx_kept ?_ | refine issue_kept ?_ ?_ | refine IssAll.intro_next ?_ | refine IssAll.intro_stay ?_)
    | exact trivial
    | split)
theorem execReport_kept {n : Alv} {f : Frame} {s : State} (hk : Kept b0 s) : KeptOut b0 (execReport n f s) := by
  unfold execReport
  dsimp only
  repeat' (first
    | (with_reducible first | assumption | refine OptAllFst.of_some (arrive_kept ?_) (by assumption) | refine dropFrame_kept ?_ | refine peerOcc_kept ?_ | refine KeptOut.next ?_)
    | split)
theorem execRequestTimeout_kept {tag : Fin 4096} {s : State} (hk : Kept b0 s) : KeptOut b0 (execRequestTimeout tag s) := by
  unfold execRequestTimeout
  repeat' (first
    | (with_reducible first | assumption | refine again_kept ?_ | refine setTag_kept ?_ | refine unreachable_kept ?_ | refine KeptOut.next ?_)
    | split)
theorem execRetrain_kept {n : Alv} {s : State} (hk : Kept b0 s) : KeptOut b0 (execRetrain n s) := by
  unfold execRetrain
  repeat' (first
    | (with_reducible first | assumption | refine startTraining_kept ?_ | refine KeptOut.next ?_)
    | split)
theorem execRidgeIdlePowerOff_kept {r : Ridge} {s : State} (hk : Kept b0 s) : KeptOut b0 (execRidgeIdlePowerOff r s) := by
  unfold execRidgeIdlePowerOff
  repeat' (first
    | (with_reducible first | assumption | refine ridgePower_kept ?_ | refine KeptOut.next ?_)
    | split)
theorem execRidgeMap_kept {q : QId} {cid : W16} {s : State} (hk : Kept b0 s) : KeptOut b0 (execRidgeMap q cid s) := by
  unfold execRidgeMap
  repeat' (first
    | (with_reducible first | assumption | refine updP_kept ?_ | refine complete_kept ?_ | refine withCmd_kept ?_ ?_)
    | refine fun _ => ?_)
theorem execRingPrefetchFill_kept {r : Ridge} {k : Fin 4} {s : State} (hk : Kept b0 s) : KeptOut b0 (execRingPrefetchFill r k s) := by
  unfold execRingPrefetchFill
  dsimp only
  repeat' (first
    | (with_reducible first | assumption | refine useFree_kept ?_ | refine askWalks_kept ?_ | refine stLoam_kept ?_ | refine dropOnce_kept ?_ | refine askPieces_kept ?_ | refine updR_kept ?_ ?_ | refine KeptOut.next ?_)
    | intro _ h; exact h
    | split)
theorem execRopeCommitGrant_kept {e : RopeNo} {s : State} (hk : Kept b0 s) : KeptOut b0 (execRopeCommitGrant e s) := by
  unfold execRopeCommitGrant
  repeat' (first
    | (with_reducible first | assumption | refine colGrant_kept ?_ | refine KeptOut.next ?_)
    | split)
theorem execRopeTimeout_kept {e : RopeNo} {s : State} (hk : Kept b0 s) : KeptOut b0 (execRopeTimeout e s) := by
  unfold execRopeTimeout
  dsimp only
  repeat' (first
    | (with_reducible first | assumption | refine ropeAbort_kept ?_ | refine KeptOut.next ?_)
    | split)
theorem execRouteRecompute_kept {s : State} (hk : Kept b0 s) : KeptOut b0 (execRouteRecompute s) := by
  unfold execRouteRecompute
  repeat' (first
    | (with_reducible first | assumption | refine recompute_kept ?_ | refine KeptOut.next ?_)
    | (with_reducible refine Kept.foldl (fun _ _ _ => ?_) _ _ ?_) <;> try dsimp only
    | split)
theorem execRouteSet_kept {q : QId} {cid : W16} {s : State} (hk : Kept b0 s) : KeptOut b0 (execRouteSet q cid s) := by
  unfold execRouteSet
  repeat' (first
    | (with_reducible first | assumption | refine routeSetDo_kept ?_ | refine withCmd_kept ?_ ?_)
    | refine fun _ => ?_)
theorem execRsp_kept {n : Alv} {f : Frame} {s : State} (hk : Kept b0 s) : KeptOut b0 (execRsp n f s) := by
  unfold execRsp
  repeat' (first
    | (with_reducible first | assumption | refine OptAllFst.of_some (arrive_kept ?_) (by assumption) | refine dropFrame_kept ?_ | refine statusDone_kept ?_ | refine setTag_kept ?_ | refine KeptOut.next ?_)
    | split)
theorem execSig_kept {r : Ridge} {x : Ctx} {w : W128} {s : State} (hk : Kept b0 s) : KeptOut b0 (execSig r x w s) := by
  unfold execSig
  dsimp only
  repeat' (first
    | (with_reducible first | assumption | refine issue_kept ?_ ?_ | refine issueWin_kept ?_ | refine StgAll.gone (stageAs_kept ?_) (by assumption) | refine StgAll.staged (stageAs_kept ?_) (by assumption) | refine sendSig_kept ?_ | refine updR_kept ?_ ?_ | refine IssAll.intro_next ?_ | refine IssAll.intro_stay ?_)
    | intro _ h; exact h
    | exact trivial
    | split)
theorem execSpl_kept {r : Ridge} {x : Ctx} {w : W128} {s : State} (hk : Kept b0 s) : KeptOut b0 (execSpl r x w s) := by
  unfold execSpl
  dsimp only
  repeat' (first
    | (with_reducible first | assumption | refine issue_kept ?_ ?_ | refine markDirty_kept ?_ | refine splGo_kept ?_ | refine DvaAll.wait (ridgePlaces_kept ?_) (by assumption) | refine IssAll.intro_stay ?_)
    | exact trivial
    | split)
theorem execSqDoorbell_kept {p : Port} {f : Fn} {q : Fin 1024} {v : W32} {s : State} (hk : Kept b0 s) : KeptOut b0 (execSqDoorbell p f q v s) := by
  unfold execSqDoorbell
  repeat' (first
    | (with_reducible first | assumption | refine ringTail_kept ?_ | refine KeptOut.next ?_)
    | split)
theorem execSrv_kept {r : Ridge} {x : Ctx} {w : W128} {s : State} (hk : Kept b0 s) : KeptOut b0 (execSrv r x w s) := by
  unfold execSrv
  dsimp only
  repeat' (first
    | (with_reducible first | assumption | refine startSurvey_kept ?_ | refine issue_kept ?_ ?_ | refine IssAll.intro_next ?_)
    | exact trivial
    | split)
theorem execStartInterface_kept {p : Port} {sid : Nat} {n : Fin 16} {nonce : W256} {s : State} (hk : Kept b0 s) : KeptOut b0 (execStartInterface p sid n nonce s) := by
  unfold execStartInterface
  repeat' (first
    | (with_reducible first | assumption | refine answer_kept ?_ | refine updP_kept ?_ | refine refuse_kept ?_ | refine tdiReq_kept ?_ ?_)
    | split
    | refine fun _ => ?_)
theorem execStopInterface_kept {p : Port} {sid : Nat} {n : Fin 16} {s : State} (hk : Kept b0 s) : KeptOut b0 (execStopInterface p sid n s) := by
  unfold execStopInterface
  repeat' (first
    | (with_reducible first | assumption | refine answer_kept ?_ | refine scrubStart_kept ?_ | refine refuse_kept ?_ | refine tdiReq_kept ?_ ?_)
    | split
    | refine fun _ => ?_)
theorem execSurveyAgeTimer_kept {r : Ridge} {t : TileNo} {s : State} (hk : Kept b0 s) : KeptOut b0 (execSurveyAgeTimer r t s) := by
  unfold execSurveyAgeTimer
  dsimp only
  repeat' (first
    | (with_reducible first | assumption | refine updTile_kept ?_ | refine requestSurvey_kept ?_ | refine KeptOut.next ?_)
    | split)
theorem execSurveyComplete_kept {r : Ridge} {t : TileNo} {m : List Int} {s : State} (hk : Kept b0 s) : KeptOut b0 (execSurveyComplete r t m s) := by
  unfold execSurveyComplete
  dsimp only
  repeat' (first
    | (with_reducible first | assumption | refine wsetSurveyed_kept ?_ | refine tileEvent_kept ?_ | refine endSurvey_kept ?_ | refine probeTile_kept ?_ | refine surveyTaken_kept ?_ | refine driftCheck_kept ?_ | refine calibrateRidge_kept ?_ | refine KeptOut.next ?_)
    | split)
theorem execSurveyIssue_kept {r : Ridge} {t : TileNo} {s : State} (hk : Kept b0 s) : KeptOut b0 (execSurveyIssue r t s) := by
  unfold execSurveyIssue
  dsimp only
  repeat' (first
    | (with_reducible first | assumption | refine startSurvey_kept ?_ | refine KeptOut.next ?_)
    | split)
theorem execSurveyMvmCount_kept {r : Ridge} {t : TileNo} {s : State} (hk : Kept b0 s) : KeptOut b0 (execSurveyMvmCount r t s) := by
  unfold execSurveyMvmCount
  repeat' (first
    | (with_reducible first | assumption | refine requestSurvey_kept ?_ | refine KeptOut.next ?_)
    | split)
theorem execSurveyPolicy_kept {q : QId} {cid : W16} {s : State} (hk : Kept b0 s) : KeptOut b0 (execSurveyPolicy q cid s) := by
  unfold execSurveyPolicy
  repeat' (first
    | (with_reducible first | assumption | refine surveyPolicyDo_kept ?_ | refine withCmd_kept ?_ ?_)
    | refine fun _ => ?_)
theorem execSurveySpanTimeout_kept {r : Ridge} {t : TileNo} {s : State} (hk : Kept b0 s) : KeptOut b0 (execSurveySpanTimeout r t s) := by
  unfold execSurveySpanTimeout
  repeat' (first
    | (with_reducible first | assumption | refine endSurvey_kept ?_ | refine requestSurvey_kept ?_ | refine KeptOut.next ?_)
    | split)
theorem execSvnRaise_kept {s : State} (hk : Kept b0 s) : KeptOut b0 (execSvnRaise s) := by
  unfold execSvnRaise
  repeat' (first
    | (with_reducible first | assumption | refine securityEvent_kept ?_ | exact fun h => h | refine KeptOut.next ?_)
    | (simp only [Kept.fields]; with_reducible refine Kept.upd ?_ ?_ ?_ ?_ ?_)
    | split)
theorem execSysRstNAssert_kept {s : State} (hk : Kept b0 s) : KeptOut b0 (execSysRstNAssert s) := by
  unfold execSysRstNAssert
  repeat' (first
    | (with_reducible first | assumption | refine logicReset_kept ?_ | exact fun h => h | refine KeptOut.next ?_)
    | (simp only [Kept.fields]; with_reducible refine Kept.upd ?_ ?_ ?_ ?_ ?_)
    | split)
theorem execSysRstNRelease_kept {ids : BitVec 12} {dbg test slotAOk slotBOk : Bool} {s : State} (hk : Kept b0 s) : KeptOut b0 (execSysRstNRelease ids dbg test slotAOk slotBOk s) := by
  unfold execSysRstNRelease
  repeat' (first
    | (with_reducible first | assumption | refine boot_kept ?_ | exact fun h => h | refine KeptOut.next ?_)
    | (simp only [Kept.fields]; with_reducible refine Kept.upd ?_ ?_ ?_ ?_ ?_)
    | split)
theorem execTestGraceExpiry_kept {r : Ridge} {s : State} (hk : Kept b0 s) : KeptOut b0 (execTestGraceExpiry r s) := by
  unfold execTestGraceExpiry
  dsimp only
  repeat' (first
    | (with_reducible first | assumption | refine preemptForTest_kept ?_ | refine startDue_kept ?_ | refine testEvent_kept ?_ | refine KeptOut.next ?_)
    | split)
theorem execTestRun_kept {q : QId} {cid : W16} {s : State} (hk : Kept b0 s) : KeptOut b0 (execTestRun q cid s) := by
  unfold execTestRun
  repeat' (first
    | (with_reducible first | assumption | refine testRunDo_kept ?_ | refine withCmd_kept ?_ ?_)
    | refine fun _ => ?_)
theorem execThermalInlet_kept {q : QId} {cid : W16} {s : State} (hk : Kept b0 s) : KeptOut b0 (execThermalInlet q cid s) := by
  unfold execThermalInlet
  repeat' (first
    | (with_reducible first | assumption | refine thermalInletDo_kept ?_ | refine withCmd_kept ?_ ?_)
    | refine fun _ => ?_)
theorem execThermalModelStep_kept {s : State} (hk : Kept b0 s) : KeptOut b0 (execThermalModelStep s) := by
  unfold execThermalModelStep
  repeat' (first
    | (with_reducible first | assumption | refine throttleRidge_kept ?_ | refine surveyTemps_kept ?_ | refine estimated_kept ?_ | refine hotStep_kept ?_ | refine applyTrims_kept ?_ | refine dvfsStep_kept ?_ | refine critRidge_kept ?_ | refine KeptOut.next ?_)
    | (with_reducible refine Kept.foldl (fun _ _ _ => ?_) _ _ ?_) <;> try dsimp only
    | split)
theorem execThermalPolicy_kept {q : QId} {cid : W16} {s : State} (hk : Kept b0 s) : KeptOut b0 (execThermalPolicy q cid s) := by
  unfold execThermalPolicy
  repeat' (first
    | (with_reducible first | assumption | refine complete_kept ?_ | refine withCmd_kept ?_ ?_ | exact fun h => h)
    | (simp only [Kept.fields]; with_reducible refine Kept.upd ?_ ?_ ?_ ?_ ?_)
    | refine fun _ => ?_)
theorem execTileSwap_kept {r : Ridge} {p : Pos} {t : TileNo} {s : State} (hk : Kept b0 s) : KeptOut b0 (execTileSwap r p t s) := by
  unfold execTileSwap
  dsimp only
  repeat' (first
    | (with_reducible first | assumption | refine swapTables_kept ?_ | refine serviceRope_kept ?_ | refine KeptOut.next ?_)
    | split)
theorem execTmap_kept {r : Ridge} {x : Ctx} {w : W128} {s : State} (hk : Kept b0 s) : KeptOut b0 (execTmap r x w s) := by
  unfold execTmap
  repeat' (first
    | (with_reducible first | assumption | refine issue_kept ?_ ?_ | refine StgAll.gone (stageAs_kept ?_) (by assumption) | refine StgAll.staged (stageAs_kept ?_) (by assumption) | refine IssAll.intro_next ?_ | refine IssAll.intro_stay ?_)
    | exact trivial
    | split)
theorem execTrainingFail_kept {n : Alv} {s : State} (hk : Kept b0 s) : KeptOut b0 (execTrainingFail n s) := by
  unfold execTrainingFail
  dsimp only
  repeat' (first
    | (with_reducible first | assumption | refine setLink_kept ?_ | refine goDown_kept ?_ | refine KeptOut.next ?_)
    | split)
theorem execTunnelDown_kept {p : Port} {s : State} (hk : Kept b0 s) : KeptOut b0 (execTunnelDown p s) := by
  unfold execTunnelDown
  repeat' (first
    | (with_reducible first | assumption | refine tunnelDown_kept ?_ | refine KeptOut.next ?_)
    | split)
theorem execTunnelUp_kept {p : Port} {s : State} (hk : Kept b0 s) : KeptOut b0 (execTunnelUp p s) := by
  unfold execTunnelUp
  repeat' (first
    | (with_reducible first | assumption | refine setAttn_kept ?_ | refine updPort_kept ?_ | refine KeptOut.next ?_)
    | split)
theorem execVfFlr_kept {p : Port} {n : Fin 16} {s : State} (hk : Kept b0 s) : KeptOut b0 (execVfFlr p n s) := by
  unfold execVfFlr
  repeat' (first
    | (with_reducible first | assumption | refine dropIde_kept ?_ | refine pinSync_kept ?_ | refine tdiError_kept ?_ | refine startRap_kept ?_ | refine ringOff_kept ?_ | refine KeptOut.next ?_)
    | split)
theorem execVld_kept {r : Ridge} {x : Ctx} {w : W128} {s : State} (hk : Kept b0 s) : KeptOut b0 (execVld r x w s) := by
  unfold execVld
  dsimp only
  repeat' (first
    | (with_reducible first | assumption | refine mmuFault_kept ?_ | refine issue_kept ?_ ?_ | refine issueWin_kept ?_ | refine updR_kept ?_ ?_ | refine IssAll.intro_stay ?_)
    | intro _ h; exact h
    | exact trivial
    | split)
theorem execVldComplete_kept {r : Ridge} {id : Nat} {s : State} (hk : Kept b0 s) : KeptOut b0 (execVldComplete r id s) := by
  unfold execVldComplete
  repeat' (first
    | (with_reducible first | assumption | refine execFault_kept ?_ | refine vldEffect_kept ?_ | refine retire_kept ?_ | refine KeptOut.next ?_)
    | split)
theorem execVop_kept {r : Ridge} {x : Ctx} {w : W128} {s : State} (hk : Kept b0 s) : KeptOut b0 (execVop r x w s) := by
  unfold execVop
  dsimp only
  repeat' (first
    | (with_reducible first | assumption | refine issue_kept ?_ ?_ | refine dmuWrite_kept ?_)
    | exact trivial
    | split)
theorem execVprogFault_kept {r : Ridge} {mv : Nat} {s : State} (hk : Kept b0 s) : KeptOut b0 (execVprogFault r mv s) := by
  unfold execVprogFault
  repeat' (first
    | (with_reducible first | assumption | refine stopEngine_kept ?_ | refine powerEvent_kept ?_ | refine KeptOut.next ?_)
    | split)
theorem execWait_kept {r : Ridge} {x : Ctx} {w : W128} {s : State} (hk : Kept b0 s) : KeptOut b0 (execWait r x w s) := by
  unfold execWait
  repeat' (first
    | (with_reducible first | assumption | refine waitTake_kept ?_ | refine updCtx_kept ?_ | refine issue_kept ?_ ?_ | refine IssAll.intro_next ?_)
    | split)
theorem execWaitSatisfied_kept {r : Ridge} {x : Ctx} {s : State} (hk : Kept b0 s) : KeptOut b0 (execWaitSatisfied r x s) := by
  unfold execWaitSatisfied
  repeat' (first
    | (with_reducible first | assumption | refine waitTake_kept ?_ | refine updCtx_kept ?_ | refine KeptOut.next ?_)
    | split)
theorem execWindowMarker_kept {kind : Fin 4} {s : State} (hk : Kept b0 s) : KeptOut b0 (execWindowMarker kind s) := by
  unfold execWindowMarker
  dsimp only
  repeat' (first
    | (with_reducible first | assumption | refine setWin_kept ?_ | refine enq_kept ?_ | refine KeptOut.next ?_)
    | split)
theorem execWindowPolicy_kept {q : QId} {cid : W16} {s : State} (hk : Kept b0 s) : KeptOut b0 (execWindowPolicy q cid s) := by
  unfold execWindowPolicy
  repeat' (first
    | (with_reducible first | assumption | refine complete_kept ?_ | refine withCmd_kept ?_ ?_ | refine setWindows_kept ?_)
    | refine fun _ => ?_)
theorem execWr_kept {n : Alv} {f : Frame} {s : State} (hk : Kept b0 s) : KeptOut b0 (execWr n f s) := by
  unfold execWr
  repeat' (first
    | (with_reducible first | assumption | refine cduEvents_kept ?_ | refine OptAllFst.of_some (arrive_kept ?_) (by assumption) | refine dramWrite_kept ?_ | refine malformed_kept ?_ | refine reply_kept ?_ | refine KeptOut.next ?_)
    | split)
theorem execWsetLoad_kept {q : QId} {cid : W16} {s : State} (hk : Kept b0 s) : KeptOut b0 (execWsetLoad q cid s) := by
  unfold execWsetLoad
  repeat' (first
    | (with_reducible first | assumption | refine loadStart_kept ?_ | refine wsetSettle_kept ?_ | refine withOrdered_kept ?_ ?_)
    | split
    | refine fun _ => ?_)
theorem execWsetUnload_kept {q : QId} {cid : W16} {s : State} (hk : Kept b0 s) : KeptOut b0 (execWsetUnload q cid s) := by
  unfold execWsetUnload
  repeat' (first
    | (with_reducible first | assumption | refine wsetUnloadDo_kept ?_ | refine withCmd_kept ?_ ?_)
    | refine fun _ => ?_)
theorem execWsetVerify_kept {q : QId} {cid : W16} {out : List (Nat × Nat × Nat)} {s : State} (hk : Kept b0 s) : KeptOut b0 (execWsetVerify q cid out s) := by
  unfold execWsetVerify
  repeat' (first
    | (with_reducible first | assumption | refine withCmd_kept ?_ ?_ | refine wsetVerifyDo_kept ?_)
    | refine fun _ => ?_)

end Sys2Proof.Machine
end

