-- ==== Sys2Proof/Laws/OnlyCommands.lean ====
section
/-!
SUPPORT. For every command, the areas of the state that its meaning may change where it answers a next state (OnlyOut of Laws/Only.lean): those that mayChange of Safety.lean lists.
-/

namespace Sys2Proof.Machine

open Sys2Proof.Safety

variable {S : List Area} {b0 : State}

theorem doeReq_only {s : State} {p : Port} {f : State → State} (hk : Only S b0 s) (hS : Covers S []) (hf : Only S b0 (f s)) : OnlyOut S b0 (doeReq s p f) := by
  unfold doeReq
  split
  · exact OnlyOut.next hf
  · exact OnlyOut.next hk
theorem issue_only {s : State} {r : Nat} {x : Ctx} {w : W128} {op : Nat} {body : State → Iss} (hk : Only S b0 s) (hS : Covers S [.host, .jobs, .slots, .ridges, .path, .col, .ropes]) (hb : IssAll (Only S b0) (body s)) : OnlyOut S b0 (issue s r x w op body) := by
  unfold issue
  split
  · split
    · exact OnlyOut.next (faultAt_only hk (hS.mono rfl))
    · cases h : body s with
      | wait => exact OnlyOut.next hk
      | fault c => exact OnlyOut.next (faultAt_only hk (hS.mono rfl))
      | next t => exact OnlyOut.next (settleCtx_only (advance_only (hb.next h) (hS.mono rfl)) (hS.mono rfl))
      | stay t => exact OnlyOut.next (hb.stay h)
  · exact OnlyOut.next hk
theorem execAad_only {r : Ridge} {x : Ctx} {w : W128} {s : State} (hk : Only S b0 s) (hS : Covers S [.host, .jobs, .loam, .slots, .ridges, .localMemory, .path, .col, .ropes, .links]) : OnlyOut S b0 (execAad r x w s) := by
  unfold execAad
  repeat' (first
    | (with_reducible first | assumption | refine aadSlotBody_only ?_ (hS.mono rfl) | refine aadVecBody_only ?_ (hS.mono rfl) | refine issue_only ?_ (hS.mono rfl) ?_)
    | split)
theorem execAadArrival_only {id : Nat} {s : State} (hk : Only S b0 s) (hS : Covers S [.host, .jobs, .loam, .slots, .ridges, .localMemory, .path, .col, .ropes, .links]) : OnlyOut S b0 (execAadArrival id s) := by
  unfold execAadArrival
  dsimp only
  repeat' (first
    | (with_reducible first | assumption | refine settleRidge_only ?_ (hS.mono rfl) | refine execFault_only ?_ (hS.mono rfl) | refine retire_only ?_ (hS.mono rfl) | refine setSlot_only ?_ (hS.mono rfl) | exact RidgesOnly.refl _ | refine OnlyOut.next ?_)
    | (simp only [Only.fields]; with_reducible refine Only.upd ?_ ?_ ?_ ?_ ?_ ?_ ?_ ?_ ?_ ?_ ?_ ?_ ?_ ?_ ?_ ?_ ?_ ?_ ?_ ?_ ?_ ?_)
    | exact .inl (hS.mem rfl)
    | (with_reducible exact .inr rfl)
    | (with_reducible exact .inr ⟨rfl, rfl⟩)
    | split)
theorem withCmd_only {s : State} {q : QId} {cid : W16} {k : CmdKind} {checks : Cmd → List (Bool × Nat)} {body : Cmd → State}
    (hk : Only S b0 s) (hS : Covers S [.host, .col]) (hb : ∀ c, Only S b0 (body c)) : OnlyOut S b0 (withCmd s q cid k checks body) := by
  unfold withCmd
  split
  · exact OnlyOut.next hk
  · exact OnlyOut.next (Only.ite (complete_only hk (hS.mono rfl)) (hb _))
theorem execAbort_only {q : QId} {cid : W16} {s : State} (hk : Only S b0 s) (hS : Covers S [.host, .parts, .jobs, .slots, .ridges, .path, .col, .ropes, .links]) : OnlyOut S b0 (execAbort q cid s) := by
  unfold execAbort
  repeat' (first
    | (with_reducible first | assumption | refine abortDo_only ?_ (hS.mono rfl) | refine withCmd_only ?_ (hS.mono rfl) ?_)
    | refine fun _ => ?_)
theorem execAckTimeout_only {n : Alv} {s : State} (hk : Only S b0 s) (hS : Covers S [.col, .links]) : OnlyOut S b0 (execAckTimeout n s) := by
  unfold execAckTimeout
  dsimp only
  repeat' (first
    | (with_reducible first | assumption | refine startTraining_only ?_ (hS.mono rfl) | refine OnlyOut.next ?_)
    | split)
theorem execArbLimit_only {q : QId} {cid : W16} {s : State} (hk : Only S b0 s) (hS : Covers S [.host, .arbiters, .col]) : OnlyOut S b0 (execArbLimit q cid s) := by
  unfold execArbLimit
  repeat' (first
    | (with_reducible first | assumption | refine complete_only ?_ (hS.mono rfl) | refine withCmd_only ?_ (hS.mono rfl) ?_ | exact RidgesOnly.refl _)
    | (simp only [Only.fields]; with_reducible refine Only.upd ?_ ?_ ?_ ?_ ?_ ?_ ?_ ?_ ?_ ?_ ?_ ?_ ?_ ?_ ?_ ?_ ?_ ?_ ?_ ?_ ?_ ?_)
    | exact .inl (hS.mem rfl)
    | (with_reducible exact .inr rfl)
    | (with_reducible exact .inr ⟨rfl, rfl⟩)
    | refine fun _ => ?_)
theorem execArbStatus_only {q : QId} {cid : W16} {s : State} (hk : Only S b0 s) (hS : Covers S [.host, .arbiters, .col]) : OnlyOut S b0 (execArbStatus q cid s) := by
  unfold execArbStatus
  repeat' (first
    | (with_reducible first | assumption | refine complete_only ?_ (hS.mono rfl) | refine clearFlags_only ?_ (hS.mono rfl) | refine withCmd_only ?_ (hS.mono rfl) ?_)
    | refine fun _ => ?_)
theorem execArbWeight_only {q : QId} {cid : W16} {s : State} (hk : Only S b0 s) (hS : Covers S [.host, .arbiters, .col]) : OnlyOut S b0 (execArbWeight q cid s) := by
  unfold execArbWeight
  repeat' (first
    | (with_reducible first | assumption | refine complete_only ?_ (hS.mono rfl) | refine setWeight_only ?_ (hS.mono rfl) | refine withCmd_only ?_ (hS.mono rfl) ?_)
    | refine fun _ => ?_)
theorem execColGrant_only {s : State} (hk : Only S b0 s) (hS : Covers S [.hostMemory, .pool, .host, .parts, .jobs, .tiles, .loam, .slots, .ridges, .programming, .localMemory, .path, .arbiters, .col, .ropes, .links, .integrity, .security, .clay, .thermal, .pmu, .cmc]) : OnlyOut S b0 (execColGrant s) := by
  unfold execColGrant
  repeat' (first
    | (with_reducible first | assumption | refine colGrant_only ?_ (hS.mono rfl) | refine OnlyOut.next ?_)
    | split)
theorem execArbiterGrant_only {cls : Fin 5} {inst : Nat} {reqs : List Nat} {save : Bool} {s : State} (hk : Only S b0 s) (hS : Covers S [.hostMemory, .pool, .host, .parts, .jobs, .tiles, .loam, .slots, .ridges, .programming, .localMemory, .path, .arbiters, .col, .ropes, .links, .integrity, .security, .clay, .thermal, .pmu, .cmc]) : OnlyOut S b0 (execArbiterGrant cls inst reqs save s) := by
  unfold execArbiterGrant
  dsimp only
  repeat' (first
    | (with_reducible first | assumption | refine arbWait_only ?_ (hS.mono rfl) | refine execColGrant_only ?_ (hS.mono rfl) | refine setArb_only ?_ (hS.mono rfl) | refine OnlyOut.next ?_)
    | split)
theorem execAtom_only {n : Alv} {f : Frame} {s : State} (hk : Only S b0 s) (hS : Covers S [.localMemory, .col, .links]) : OnlyOut S b0 (execAtom n f s) := by
  unfold execAtom
  dsimp only
  repeat' (first
    | (with_reducible first | assumption | refine OptAllFst.of_some (arrive_only ?_ (hS.mono rfl)) (by assumption) | refine atomAt_only ?_ (hS.mono rfl) | refine malformed_only ?_ (hS.mono rfl) | refine reply_only ?_ (hS.mono rfl) | refine OnlyOut.next ?_)
    | split)
theorem execAtomRecordExpiry_only {k : Nat} {s : State} (hk : Only S b0 s) (hS : Covers S [.links]) : OnlyOut S b0 (execAtomRecordExpiry k s) := by
  unfold execAtomRecordExpiry
  dsimp only
  repeat' (first
    | (with_reducible first | assumption | exact RidgesOnly.refl _ | refine OnlyOut.next ?_)
    | (simp only [Only.fields]; with_reducible refine Only.upd ?_ ?_ ?_ ?_ ?_ ?_ ?_ ?_ ?_ ?_ ?_ ?_ ?_ ?_ ?_ ?_ ?_ ?_ ?_ ?_ ?_ ?_)
    | exact .inl (hS.mem rfl)
    | (with_reducible exact .inr rfl)
    | (with_reducible exact .inr ⟨rfl, rfl⟩)
    | split)
theorem execAttest_only {q : QId} {cid : W16} {s : State} (hk : Only S b0 s) (hS : Covers S [.hostMemory, .host, .col]) : OnlyOut S b0 (execAttest q cid s) := by
  unfold execAttest
  repeat' (first
    | (with_reducible first | assumption | refine attestDo_only ?_ (hS.mono rfl) | refine withCmd_only ?_ (hS.mono rfl) ?_ | refine OnlyOut.next ?_)
    | split
    | refine fun _ => ?_)
theorem execBulkResetTrain_only {r : Ridge} {t : TileNo} {residue : Bool} {s : State} (hk : Only S b0 s) (hS : Covers S [.host, .parts, .jobs, .tiles, .slots, .ridges, .localMemory, .col, .ropes, .security, .clay, .cmc]) : OnlyOut S b0 (execBulkResetTrain r t residue s) := by
  unfold execBulkResetTrain
  repeat' (first
    | (with_reducible first | assumption | refine scrubSettle_only ?_ (hS.mono rfl) | refine wholeSettle_only ?_ (hS.mono rfl) | refine ridgesSettle_only ?_ (hS.mono rfl) | refine OptAllFst.of_some (bulkReset_only ?_ (hS.mono rfl)) (by assumption) | refine OnlyOut.next ?_)
    | split)
theorem execBusyRetry_only {tag : Fin 4096} {s : State} (hk : Only S b0 s) (hS : Covers S [.jobs, .ridges, .path, .col, .links]) : OnlyOut S b0 (execBusyRetry tag s) := by
  unfold execBusyRetry
  repeat' (first
    | (with_reducible first | assumption | refine again_only ?_ (hS.mono rfl) | refine setTag_only ?_ (hS.mono rfl) | refine OnlyOut.next ?_)
    | split)
theorem execCairnCommit_only {part : PartNo} {job : W32} {s : State} (hk : Only S b0 s) (hS : Covers S [.host, .jobs, .slots, .ridges, .col, .ropes]) : OnlyOut S b0 (execCairnCommit part job s) := by
  unfold execCairnCommit
  repeat' (first
    | (with_reducible first | assumption | refine serviceRope_only ?_ (hS.mono rfl) | refine OnlyOut.next ?_)
    | split)
theorem execCalibrate_only {q : QId} {cid : W16} {s : State} (hk : Only S b0 s) (hS : Covers S [.host, .tiles, .ridges, .col]) : OnlyOut S b0 (execCalibrate q cid s) := by
  unfold execCalibrate
  repeat' (first
    | (with_reducible first | assumption | refine calibrateDo_only ?_ (hS.mono rfl) | refine withCmd_only ?_ (hS.mono rfl) ?_)
    | refine fun _ => ?_)
theorem negotiated_only {s : State} {p : Port} {f : State → State} (hk : Only S b0 s) (hS : Covers S [.security]) (hf : Only S b0 (f s)) : OnlyOut S b0 (negotiated s p f) := by
  refine doeReq_only hk (hS.mono rfl) ?_
  split
  · exact hf
  · exact refuse_only hk (hS.mono rfl)
theorem execChallenge_only {p : Port} {slot : Nat} {nonce : W256} {s : State} (hk : Only S b0 s) (hS : Covers S [.security]) : OnlyOut S b0 (execChallenge p slot nonce s) := by
  unfold execChallenge
  dsimp only
  repeat' (first
    | (with_reducible first | assumption | refine drawn_only ?_ (hS.mono rfl) | refine answer_only ?_ (hS.mono rfl) | refine refuse_only ?_ (hS.mono rfl) | refine negotiated_only ?_ (hS.mono rfl) ?_)
    | split)
theorem execClayGroupWriteDone_only {s : State} (hk : Only S b0 s) (hS : Covers S [.host, .parts, .jobs, .slots, .ridges, .localMemory, .col, .ropes, .security, .clayBytes, .clay, .cmc]) : OnlyOut S b0 (execClayGroupWriteDone s) := by
  unfold execClayGroupWriteDone
  repeat' (first
    | (with_reducible first | assumption | refine groupWritten_only ?_ (hS.mono rfl) | refine OnlyOut.next ?_)
    | split)
theorem execClayProtect_only {q : QId} {cid : W16} {s : State} (hk : Only S b0 s) (hS : Covers S [.host, .col, .clay]) : OnlyOut S b0 (execClayProtect q cid s) := by
  unfold execClayProtect
  repeat' (first
    | (with_reducible first | assumption | refine clayProtectDo_only ?_ (hS.mono rfl) | refine withCmd_only ?_ (hS.mono rfl) ?_)
    | refine fun _ => ?_)
theorem withOrdered_only {s : State} {q : QId} {cid : W16} {k : CmdKind} {checks : Cmd → List (Bool × Nat)} {body : Cmd → State}
    (hk : Only S b0 s) (hS : Covers S [.host, .col]) (hb : ∀ c, Only S b0 (body c)) : OnlyOut S b0 (withOrdered s q cid k checks body) := by
  unfold withOrdered
  split
  · exact OnlyOut.next hk
  · refine OnlyOut.next ?_
    split
    · exact complete_only hk (hS.mono rfl)
    · split
      · exact complete_only hk (hS.mono rfl)
      · exact hb _
theorem execClayRead_only {q : QId} {cid : W16} {s : State} (hk : Only S b0 s) (hS : Covers S [.hostMemory, .host, .col]) : OnlyOut S b0 (execClayRead q cid s) := by
  unfold execClayRead
  repeat' (first
    | (with_reducible first | assumption | refine clayReadDo_only ?_ (hS.mono rfl) | refine withOrdered_only ?_ (hS.mono rfl) ?_)
    | refine fun _ => ?_)
theorem execClayRecordRead_only {cls idx : Nat} {s : State} (hk : Only S b0 s) (hS : Covers S [.tiles, .ridges, .col, .links, .security, .clayBytes, .clay, .thermal, .cmc]) : OnlyOut S b0 (execClayRecordRead cls idx s) := by
  unfold execClayRecordRead
  repeat' (first
    | (with_reducible first | assumption | refine readRec_only ?_ (hS.mono rfl) | refine OnlyOut.next ?_)
    | split)
theorem execClayRecordUpdate_only {cls idx : Nat} {data : List Byte} {s : State} (hk : Only S b0 s) (hS : Covers S [.clay]) : OnlyOut S b0 (execClayRecordUpdate cls idx data s) := by
  unfold execClayRecordUpdate
  repeat' (first
    | (with_reducible first | assumption | refine queueRec_only ?_ (hS.mono rfl) | refine OnlyOut.next ?_)
    | split)
theorem execClayUnlock_only {q : QId} {cid : W16} {s : State} (hk : Only S b0 s) (hS : Covers S [.host, .col, .clay]) : OnlyOut S b0 (execClayUnlock q cid s) := by
  unfold execClayUnlock
  repeat' (first
    | (with_reducible first | assumption | refine clayUnlockDo_only ?_ (hS.mono rfl) | refine withCmd_only ?_ (hS.mono rfl) ?_)
    | refine fun _ => ?_)
theorem execClayWrite_only {q : QId} {cid : W16} {s : State} (hk : Only S b0 s) (hS : Covers S [.host, .col, .clay]) : OnlyOut S b0 (execClayWrite q cid s) := by
  unfold execClayWrite
  repeat' (first
    | (with_reducible first | assumption | refine withOrdered_only ?_ (hS.mono rfl) ?_ | refine clayWriteDo_only ?_ (hS.mono rfl))
    | refine fun _ => ?_)
theorem execCodewordReceive_only {n : Alv} {cw : Codeword} {s : State} (hk : Only S b0 s) (hS : Covers S [.col, .links]) : OnlyOut S b0 (execCodewordReceive n cw s) := by
  unfold execCodewordReceive
  dsimp only
  repeat' (first
    | (with_reducible first | assumption | refine setLink_only ?_ (hS.mono rfl) | refine countReplays_only ?_ (hS.mono rfl) | refine takeAck_only ?_ (hS.mono rfl) | refine OnlyOut.next ?_)
    | split)
theorem execCommandFetch_only {q : QId} {s : State} (hk : Only S b0 s) (hS : Covers S [.host, .col]) : OnlyOut S b0 (execCommandFetch q s) := by
  unfold execCommandFetch
  dsimp only
  repeat' (first
    | (with_reducible first | assumption | refine fetchOne_only ?_ (hS.mono rfl) | refine pinSync_only ?_ (hS.mono rfl) | refine rejectTurn_only ?_ (hS.mono rfl) | refine OnlyOut.next ?_)
    | split)
theorem execContributionCommit_only {r : Ridge} {id : Nat} {devs : List AdcDev} {s : State} (hk : Only S b0 s) (hS : Covers S [.host, .jobs, .loam, .slots, .ridges, .localMemory, .path, .col, .ropes, .links]) : OnlyOut S b0 (execContributionCommit r id devs s) := by
  unfold execContributionCommit
  dsimp only
  repeat' (first
    | (with_reducible first | assumption | refine settleRidge_only ?_ (hS.mono rfl) | refine execFault_only ?_ (hS.mono rfl) | refine retire_only ?_ (hS.mono rfl) | refine commitEffect_only ?_ (hS.mono rfl) | refine OnlyOut.next ?_)
    | split)
theorem execConverterCalibration_only {r : Ridge} {bad : List (Nat × Nat × Nat)} {s : State} (hk : Only S b0 s) (hS : Covers S [.host, .ridges, .col]) : OnlyOut S b0 (execConverterCalibration r bad s) := by
  unfold execConverterCalibration
  dsimp only
  repeat' (first
    | (with_reducible first | assumption | refine tileEvent_only ?_ (hS.mono rfl) | refine calibrateSettle_only ?_ (hS.mono rfl) | refine probeAll_only ?_ (hS.mono rfl) | refine updR_only ?_ (fun _ => ?_) | refine OnlyOut.next ?_)
    | (with_reducible refine Only.foldl (fun _ _ _ => ?_) _ _ ?_) <;> try dsimp only
    | split
    | exact ⟨by first | exact .inl (hS.mem rfl) | (with_reducible exact .inr rfl) | (with_reducible exact .inr ⟨rfl, rfl⟩) | (with_reducible exact .inr ⟨rfl, rfl, rfl, rfl⟩) | exact .inr rfl, by first | exact .inl (hS.mem rfl) | (with_reducible exact .inr rfl) | (with_reducible exact .inr ⟨rfl, rfl⟩) | (with_reducible exact .inr ⟨rfl, rfl, rfl, rfl⟩) | exact .inr rfl, by first | exact .inl (hS.mem rfl) | (with_reducible exact .inr rfl) | (with_reducible exact .inr ⟨rfl, rfl⟩) | (with_reducible exact .inr ⟨rfl, rfl, rfl, rfl⟩) | exact .inr rfl, by first | exact .inl (hS.mem rfl) | (with_reducible exact .inr rfl) | (with_reducible exact .inr ⟨rfl, rfl⟩) | (with_reducible exact .inr ⟨rfl, rfl, rfl, rfl⟩) | exact .inr rfl⟩)
theorem execCountTimeout_only {r : Ridge} {id : Nat} {s : State} (hk : Only S b0 s) (hS : Covers S [.host, .jobs, .slots, .ridges, .col, .ropes]) : OnlyOut S b0 (execCountTimeout r id s) := by
  unfold execCountTimeout
  repeat' (first
    | (with_reducible first | assumption | refine execFault_only ?_ (hS.mono rfl) | refine setClosing_only ?_ (hS.mono rfl) | refine OnlyOut.next ?_)
    | split)
theorem execCqDoorbell_only {p : Port} {f : Fn} {q : Fin 1024} {v : W32} {s : State} (hk : Only S b0 s) (hS : Covers S [.hostMemory, .pool, .host, .col]) : OnlyOut S b0 (execCqDoorbell p f q v s) := by
  unfold execCqDoorbell
  repeat' (first
    | (with_reducible first | assumption | refine ringHead_only ?_ (hS.mono rfl) | refine OnlyOut.next ?_)
    | split)
theorem execCrn_only {r : Ridge} {x : Ctx} {w : W128} {s : State} (hk : Only S b0 s) (hS : Covers S [.host, .jobs, .slots, .ridges, .path, .col, .ropes]) : OnlyOut S b0 (execCrn r x w s) := by
  unfold execCrn
  dsimp only
  repeat' (first
    | (with_reducible first | assumption | refine issue_only ?_ (hS.mono rfl) ?_ | refine updJob_only ?_ (hS.mono rfl) | refine IssAll.intro_next ?_)
    | exact trivial
    | split)
theorem execDebugAttach_only {s : State} (hk : Only S b0 s) (hS : Covers S [.col, .security]) : OnlyOut S b0 (execDebugAttach s) := by
  unfold execDebugAttach
  dsimp only
  repeat' (first
    | (with_reducible first | assumption | refine securityEvent_only ?_ (hS.mono rfl) | exact RidgesOnly.refl _ | refine OnlyOut.next ?_)
    | (simp only [Only.fields]; with_reducible refine Only.upd ?_ ?_ ?_ ?_ ?_ ?_ ?_ ?_ ?_ ?_ ?_ ?_ ?_ ?_ ?_ ?_ ?_ ?_ ?_ ?_ ?_ ?_)
    | exact .inl (hS.mem rfl)
    | (with_reducible exact .inr rfl)
    | (with_reducible exact .inr ⟨rfl, rfl⟩)
    | split)
theorem execDmaCompletion_only {cluster : Fin 4} {id : Nat} {s : State} (hk : Only S b0 s) (hS : Covers S [.host, .jobs, .slots, .ridges, .path, .col, .ropes]) : OnlyOut S b0 (execDmaCompletion cluster id s) := by
  unfold execDmaCompletion
  dsimp only
  repeat' (first
    | (with_reducible first | assumption | refine setDma_only ?_ (hS.mono rfl) | refine execFault_only ?_ (hS.mono rfl) | refine addCounter_only ?_ (hS.mono rfl) | refine retire_only ?_ (hS.mono rfl) | refine updR_only ?_ (fun _ => ?_) | refine OnlyOut.next ?_)
    | split
    | exact ⟨by first | exact .inl (hS.mem rfl) | (with_reducible exact .inr rfl) | (with_reducible exact .inr ⟨rfl, rfl⟩) | (with_reducible exact .inr ⟨rfl, rfl, rfl, rfl⟩) | exact .inr rfl, by first | exact .inl (hS.mem rfl) | (with_reducible exact .inr rfl) | (with_reducible exact .inr ⟨rfl, rfl⟩) | (with_reducible exact .inr ⟨rfl, rfl, rfl, rfl⟩) | exact .inr rfl, by first | exact .inl (hS.mem rfl) | (with_reducible exact .inr rfl) | (with_reducible exact .inr ⟨rfl, rfl⟩) | (with_reducible exact .inr ⟨rfl, rfl, rfl, rfl⟩) | exact .inr rfl, by first | exact .inl (hS.mem rfl) | (with_reducible exact .inr rfl) | (with_reducible exact .inr ⟨rfl, rfl⟩) | (with_reducible exact .inr ⟨rfl, rfl, rfl, rfl⟩) | exact .inr rfl⟩)
theorem execDmaCopy_only {r : Ridge} {x : Ctx} {w : W128} {s : State} (hk : Only S b0 s) (hS : Covers S [.host, .jobs, .slots, .ridges, .path, .col, .ropes]) : OnlyOut S b0 (execDmaCopy r x w s) := by
  unfold execDmaCopy
  repeat' (first
    | (with_reducible first | assumption | refine issue_only ?_ (hS.mono rfl) ?_ | refine dmaBody_only ?_ (hS.mono rfl)))
theorem execDmaFill_only {r : Ridge} {x : Ctx} {w : W128} {s : State} (hk : Only S b0 s) (hS : Covers S [.host, .jobs, .slots, .ridges, .path, .col, .ropes]) : OnlyOut S b0 (execDmaFill r x w s) := by
  unfold execDmaFill
  repeat' (first
    | (with_reducible first | assumption | refine issue_only ?_ (hS.mono rfl) ?_ | refine dmaBody_only ?_ (hS.mono rfl)))
theorem execDmaInval_only {r : Ridge} {x : Ctx} {w : W128} {s : State} (hk : Only S b0 s) (hS : Covers S [.host, .jobs, .slots, .ridges, .path, .col, .ropes]) : OnlyOut S b0 (execDmaInval r x w s) := by
  unfold execDmaInval
  repeat' (first
    | (with_reducible first | assumption | refine issue_only ?_ (hS.mono rfl) ?_ | refine dmaBody_only ?_ (hS.mono rfl)))
theorem execDmaPrefetch_only {r : Ridge} {x : Ctx} {w : W128} {s : State} (hk : Only S b0 s) (hS : Covers S [.host, .jobs, .slots, .ridges, .path, .col, .ropes]) : OnlyOut S b0 (execDmaPrefetch r x w s) := by
  unfold execDmaPrefetch
  dsimp only
  repeat' (first
    | (with_reducible first | assumption | refine addCounter_only ?_ (hS.mono rfl) | refine issue_only ?_ (hS.mono rfl) ?_ | refine updR_only ?_ (fun _ => ?_) | refine IssAll.intro_next ?_)
    | exact trivial
    | split
    | exact ⟨by first | exact .inl (hS.mem rfl) | (with_reducible exact .inr rfl) | (with_reducible exact .inr ⟨rfl, rfl⟩) | (with_reducible exact .inr ⟨rfl, rfl, rfl, rfl⟩) | exact .inr rfl, by first | exact .inl (hS.mem rfl) | (with_reducible exact .inr rfl) | (with_reducible exact .inr ⟨rfl, rfl⟩) | (with_reducible exact .inr ⟨rfl, rfl, rfl, rfl⟩) | exact .inr rfl, by first | exact .inl (hS.mem rfl) | (with_reducible exact .inr rfl) | (with_reducible exact .inr ⟨rfl, rfl⟩) | (with_reducible exact .inr ⟨rfl, rfl, rfl, rfl⟩) | exact .inr rfl, by first | exact .inl (hS.mem rfl) | (with_reducible exact .inr rfl) | (with_reducible exact .inr ⟨rfl, rfl⟩) | (with_reducible exact .inr ⟨rfl, rfl, rfl, rfl⟩) | exact .inr rfl⟩)
theorem execDmaSegment_only {cluster : Fin 4} {hostOk : Bool} {s : State} (hk : Only S b0 s) (hS : Covers S [.hostMemory, .jobs, .loam, .slots, .localMemory, .path, .col, .links]) : OnlyOut S b0 (execDmaSegment cluster hostOk s) := by
  unfold execDmaSegment
  dsimp only
  repeat' (first
    | (with_reducible first | assumption | refine setDma_only ?_ (hS.mono rfl) | refine SegAll.done (dmaSeg_only ?_ (hS.mono rfl)) (by assumption) | refine SegAll.wait (dmaSeg_only ?_ (hS.mono rfl)) (by assumption) | refine OnlyOut.next ?_)
    | split)
theorem execDmm_only {r : Ridge} {x : Ctx} {w : W128} {s : State} (hk : Only S b0 s) (hS : Covers S [.host, .jobs, .loam, .slots, .ridges, .path, .col, .ropes, .links]) : OnlyOut S b0 (execDmm r x w s) := by
  unfold execDmm
  dsimp only
  repeat' (first
    | (with_reducible first | assumption | refine dmmBase_only ?_ (hS.mono rfl) | refine BResAll.stay (dmmB_only ?_ (hS.mono rfl)) (by assumption) | refine issue_only ?_ (hS.mono rfl) ?_ | refine dmuWrite_only ?_ (hS.mono rfl) | refine IssAll.intro_stay ?_)
    | exact trivial
    | split)
theorem execDomainFault_only {d : Fin 212} {s : State} (hk : Only S b0 s) (hS : Covers S [.pool, .host, .parts, .jobs, .tiles, .loam, .slots, .ridges, .programming, .localMemory, .path, .arbiters, .col, .ropes, .links, .integrity, .security, .clayBytes, .clay, .thermal, .pmu, .cmc]) : OnlyOut S b0 (execDomainFault d s) := by
  unfold execDomainFault
  dsimp only
  repeat' (first
    | (with_reducible first | assumption | refine railReset_only ?_ (hS.mono rfl) | refine failRidge_only ?_ (hS.mono rfl) | refine powerEvent_only ?_ (hS.mono rfl) | refine setDom_only ?_ (hS.mono rfl) | refine OnlyOut.next ?_)
    | split)
theorem execDomainPowerRequest_only {d : Fin 212} {on : Bool} {s : State} (hk : Only S b0 s) (hS : Covers S [.pmu]) : OnlyOut S b0 (execDomainPowerRequest d on s) := by
  unfold execDomainPowerRequest
  repeat' (first
    | (with_reducible first | assumption | refine powerRequest_only ?_ (hS.mono rfl) | refine OnlyOut.next ?_)
    | split)
theorem execDomainSequenceDone_only {d : Fin 212} {s : State} (hk : Only S b0 s) (hS : Covers S [.loam, .slots, .ridges, .col, .links, .pmu]) : OnlyOut S b0 (execDomainSequenceDone d s) := by
  unfold execDomainSequenceDone
  repeat' (first
    | (with_reducible first | assumption | refine domDone_only ?_ (hS.mono rfl) | refine OnlyOut.next ?_)
    | split)
theorem execDownRetry_only {n : Alv} {s : State} (hk : Only S b0 s) (hS : Covers S [.col, .links]) : OnlyOut S b0 (execDownRetry n s) := by
  unfold execDownRetry
  dsimp only
  repeat' (first
    | (with_reducible first | assumption | refine startTraining_only ?_ (hS.mono rfl) | refine OnlyOut.next ?_)
    | split)
theorem execDrainComplete_only {r : Ridge} {id : Nat} {ue : List Nat} {s : State} (hk : Only S b0 s) (hS : Covers S [.host, .jobs, .loam, .slots, .ridges, .localMemory, .path, .col, .ropes]) : OnlyOut S b0 (execDrainComplete r id ue s) := by
  unfold execDrainComplete
  dsimp only
  repeat' (first
    | (with_reducible first | assumption | refine addCounts_only ?_ (hS.mono rfl) | refine updWin_only ?_ (hS.mono rfl) | refine execFault_only ?_ (hS.mono rfl) | refine freeSlot_only ?_ (hS.mono rfl) | refine retire_only ?_ (hS.mono rfl) | refine slotUe_only ?_ (hS.mono rfl) | refine writeStaged_only ?_ (hS.mono rfl) | refine OnlyOut.next ?_)
    | split)
theorem execDriftFold_only {r : Ridge} {table : Fin 256} {s : State} (hk : Only S b0 s) (hS : Covers S [.host, .jobs, .slots, .ridges, .col, .ropes]) : OnlyOut S b0 (execDriftFold r table s) := by
  unfold execDriftFold
  dsimp only
  repeat' (first
    | (with_reducible first | assumption | refine foldReports_only ?_ (hS.mono rfl) | refine serviceRope_only ?_ (hS.mono rfl) | refine updR_only ?_ (fun _ => ?_) | exact writeInactive_ronly (RidgeOnly.refl _) (hS.mono rfl) | refine OnlyOut.next ?_)
    | split)
theorem execDrn_only {r : Ridge} {x : Ctx} {w : W128} {s : State} (hk : Only S b0 s) (hS : Covers S [.host, .jobs, .slots, .ridges, .path, .col, .ropes]) : OnlyOut S b0 (execDrn r x w s) := by
  unfold execDrn
  dsimp only
  repeat' (first
    | (with_reducible first | assumption | refine issue_only ?_ (hS.mono rfl) ?_ | refine issueWin_only ?_ (hS.mono rfl) | refine StgAll.gone (stageAs_only ?_ (hS.mono rfl)) (by assumption) | refine StgAll.staged (stageAs_only ?_ (hS.mono rfl)) (by assumption) | refine setClosing_only ?_ (hS.mono rfl) | refine IssAll.intro_stay ?_)
    | exact trivial
    | split)
theorem execDuplicateIdClear_only {s : State} (hk : Only S b0 s) (hS : Covers S [.links]) : OnlyOut S b0 (execDuplicateIdClear s) := by
  unfold execDuplicateIdClear
  dsimp only
  repeat' (first
    | (with_reducible first | assumption | exact RidgesOnly.refl _ | refine OnlyOut.next ?_)
    | (simp only [Only.fields]; with_reducible refine Only.upd ?_ ?_ ?_ ?_ ?_ ?_ ?_ ?_ ?_ ?_ ?_ ?_ ?_ ?_ ?_ ?_ ?_ ?_ ?_ ?_ ?_ ?_)
    | exact .inl (hS.mem rfl)
    | (with_reducible exact .inr rfl)
    | (with_reducible exact .inr ⟨rfl, rfl⟩)
    | split)
theorem execEgressFenceRelease_only {part : PartNo} {job : W32} {s : State} (hk : Only S b0 s) (hS : Covers S [.hostMemory, .jobs, .path, .col, .links]) : OnlyOut S b0 (execEgressFenceRelease part job s) := by
  unfold execEgressFenceRelease
  repeat' (first
    | (with_reducible first | assumption | refine releaseHeld_only ?_ (hS.mono rfl) | refine OnlyOut.next ?_)
    | split)
theorem inSession_only {s : State} {p : Port} {sid : Nat} {f : Sess → State} (hk : Only S b0 s) (hS : Covers S [.security]) (hf : ∀ v, Only S b0 (f v)) : OnlyOut S b0 (inSession s p sid f) := by
  refine doeReq_only hk (hS.mono rfl) ?_
  split
  · split
    · exact hf _
    · exact refuse_only hk (hS.mono rfl)
  · exact refuse_only hk (hS.mono rfl)
theorem execEndSession_only {p : Port} {sid : Nat} {s : State} (hk : Only S b0 s) (hS : Covers S [.security]) : OnlyOut S b0 (execEndSession p sid s) := by
  unfold execEndSession
  repeat' (first
    | (with_reducible first | assumption | refine dropSessIde_only ?_ (hS.mono rfl) | refine answer_only ?_ (hS.mono rfl) | refine inSession_only ?_ (hS.mono rfl) ?_ | refine setSess_only ?_ (hS.mono rfl))
    | refine fun _ => ?_)
theorem execEstimateStale_only {s : State} (hk : Only S b0 s) (hS : Covers S [.host, .col, .thermal]) : OnlyOut S b0 (execEstimateStale s) := by
  unfold execEstimateStale
  dsimp only
  repeat' (first
    | (with_reducible first | assumption | refine thermalEvent_only ?_ (hS.mono rfl) | refine hotAssert_only ?_ (hS.mono rfl) | exact RidgesOnly.refl _ | refine OnlyOut.next ?_)
    | (simp only [Only.fields]; with_reducible refine Only.upd ?_ ?_ ?_ ?_ ?_ ?_ ?_ ?_ ?_ ?_ ?_ ?_ ?_ ?_ ?_ ?_ ?_ ?_ ?_ ?_ ?_ ?_)
    | exact .inl (hS.mem rfl)
    | (with_reducible exact .inr rfl)
    | (with_reducible exact .inr ⟨rfl, rfl⟩)
    | split)
theorem execEventConfig_only {q : QId} {cid : W16} {s : State} (hk : Only S b0 s) (hS : Covers S [.host, .col]) : OnlyOut S b0 (execEventConfig q cid s) := by
  unfold execEventConfig
  repeat' (first
    | (with_reducible first | assumption | refine eventConfigDo_only ?_ (hS.mono rfl) | refine withCmd_only ?_ (hS.mono rfl) ?_)
    | refine fun _ => ?_)
theorem execFailureLogWrite_only {s : State} (hk : Only S b0 s) (hS : Covers S [.integrity, .clayBytes]) : OnlyOut S b0 (execFailureLogWrite s) := by
  unfold execFailureLogWrite
  dsimp only
  repeat' (first
    | (with_reducible first | assumption | refine clearUe_only ?_ (hS.mono rfl) | exact RidgesOnly.refl _ | refine OnlyOut.next ?_)
    | (simp only [Only.fields]; with_reducible refine Only.upd ?_ ?_ ?_ ?_ ?_ ?_ ?_ ?_ ?_ ?_ ?_ ?_ ?_ ?_ ?_ ?_ ?_ ?_ ?_ ?_ ?_ ?_)
    | exact .inl (hS.mem rfl)
    | (with_reducible exact .inr rfl)
    | (with_reducible exact .inr ⟨rfl, rfl⟩)
    | split)
theorem execFieldTestComplete_only {r : Ridge} {failed : BitVec 4} {trim : List (Nat × Nat × Nat)} {bad : List (Nat × Nat × Nat × Nat × Int)} {mv : Nat} {s : State} (hk : Only S b0 s) (hS : Covers S [.host, .parts, .jobs, .tiles, .loam, .slots, .ridges, .path, .col, .ropes, .links, .integrity, .clay, .pmu]) : OnlyOut S b0 (execFieldTestComplete r failed trim bad mv s) := by
  unfold execFieldTestComplete
  repeat' (first
    | (with_reducible first | assumption | refine testDone_only ?_ (hS.mono rfl) | refine OnlyOut.next ?_)
    | split)
theorem execFieldTestDue_only {r : Ridge} {s : State} (hk : Only S b0 s) (hS : Covers S [.host, .jobs, .tiles, .slots, .ridges, .path, .col, .ropes, .pmu]) : OnlyOut S b0 (execFieldTestDue r s) := by
  unfold execFieldTestDue
  dsimp only
  repeat' (first
    | (with_reducible first | assumption | refine preemptForTest_only ?_ (hS.mono rfl) | refine startDue_only ?_ (hS.mono rfl) | refine testEvent_only ?_ (hS.mono rfl) | refine updTest_only ?_ (hS.mono rfl) | refine OnlyOut.next ?_)
    | split)
theorem execFil_only {r : Ridge} {x : Ctx} {w : W128} {s : State} (hk : Only S b0 s) (hS : Covers S [.host, .jobs, .loam, .slots, .ridges, .localMemory, .path, .col, .ropes, .links]) : OnlyOut S b0 (execFil r x w s) := by
  refine issue_only hk (hS.mono rfl) ?_
  dsimp only
  repeat' (first
    | exact trivial
    | with_reducible assumption
    | with_reducible refine filGo_only ?_ (hS.mono rfl)
    | with_reducible refine dropOnce_only ?_ (hS.mono rfl)
    | split)
  next j _ _ _ _ d t hf =>
    obtain ⟨q, -, hq⟩ := List.mem_map.mp (List.mem_of_find?_eq_some hf)
    exact DvaAll.wait (ridgeRead_only hk (hS.mono rfl)) hq
theorem execFinish_only {p : Port} {sid : Nat} {hmacOk : Bool} {s : State} (hk : Only S b0 s) (hS : Covers S [.security]) : OnlyOut S b0 (execFinish p sid hmacOk s) := by
  unfold execFinish
  repeat' (first
    | (with_reducible first | assumption | refine doeReq_only ?_ (hS.mono rfl) ?_ | refine answer_only ?_ (hS.mono rfl) | refine setSess_only ?_ (hS.mono rfl) | refine refuse_only ?_ (hS.mono rfl))
    | split)
theorem execFwCommit_only {q : QId} {cid : W16} {s : State} (hk : Only S b0 s) (hS : Covers S [.host, .jobs, .slots, .ridges, .col, .ropes]) : OnlyOut S b0 (execFwCommit q cid s) := by
  unfold execFwCommit
  repeat' (first
    | (with_reducible first | assumption | refine startCmd_only ?_ (hS.mono rfl) | refine withCmd_only ?_ (hS.mono rfl) ?_ | refine serviceRope_only ?_ (hS.mono rfl))
    | split
    | refine fun _ => ?_)
theorem execFwHeartbeat_only {s : State} (hk : Only S b0 s) (hS : Covers S [.cmc]) : OnlyOut S b0 (execFwHeartbeat s) := by
  unfold execFwHeartbeat
  dsimp only
  repeat' (first
    | (with_reducible first | assumption | exact RidgesOnly.refl _ | refine OnlyOut.next ?_)
    | (simp only [Only.fields]; with_reducible refine Only.upd ?_ ?_ ?_ ?_ ?_ ?_ ?_ ?_ ?_ ?_ ?_ ?_ ?_ ?_ ?_ ?_ ?_ ?_ ?_ ?_ ?_ ?_)
    | exact .inl (hS.mem rfl)
    | (with_reducible exact .inr rfl)
    | (with_reducible exact .inr ⟨rfl, rfl⟩)
    | split)
theorem execFwRunning_only {s : State} (hk : Only S b0 s) (hS : Covers S [.host, .parts, .tiles, .col, .security, .clay, .thermal, .cmc]) : OnlyOut S b0 (execFwRunning s) := by
  unfold execFwRunning
  dsimp only
  repeat' (first
    | (with_reducible first | assumption | refine OptAll.of_some (bedrock_only ?_ (hS.mono rfl)) (by assumption) | refine restartScrubs_only ?_ (hS.mono rfl) | refine attnBoth_only ?_ (hS.mono rfl) | refine startModel_only ?_ (hS.mono rfl) | refine orphanTiles_only ?_ (hS.mono rfl) | refine bootEnd_only ?_ (hS.mono rfl) | exact RidgesOnly.refl _ | refine OnlyOut.next ?_)
    | (simp only [Only.fields]; with_reducible refine Only.upd ?_ ?_ ?_ ?_ ?_ ?_ ?_ ?_ ?_ ?_ ?_ ?_ ?_ ?_ ?_ ?_ ?_ ?_ ?_ ?_ ?_ ?_)
    | exact .inl (hS.mem rfl)
    | (with_reducible exact .inr rfl)
    | (with_reducible exact .inr ⟨rfl, rfl⟩)
    | split)
theorem execFwStage_only {q : QId} {cid : W16} {s : State} (hk : Only S b0 s) (hS : Covers S [.host, .col, .security]) : OnlyOut S b0 (execFwStage q cid s) := by
  unfold execFwStage
  repeat' (first
    | (with_reducible first | assumption | refine fwStageDo_only ?_ (hS.mono rfl) | refine withCmd_only ?_ (hS.mono rfl) ?_)
    | refine fun _ => ?_)
theorem execFwStartTimeout_only {s : State} (hk : Only S b0 s) (hS : Covers S [.host, .col, .cmc]) : OnlyOut S b0 (execFwStartTimeout s) := by
  unfold execFwStartTimeout
  repeat' (first
    | (with_reducible first | assumption | refine secondStall_only ?_ (hS.mono rfl) | refine OnlyOut.next ?_)
    | split)
theorem execGetCapabilities_only {p : Port} {s : State} (hk : Only S b0 s) (hS : Covers S [.security]) : OnlyOut S b0 (execGetCapabilities p s) := by
  unfold execGetCapabilities
  repeat' (first
    | (with_reducible first | assumption | refine doeReq_only ?_ (hS.mono rfl) ?_ | refine answer_only ?_ (hS.mono rfl) | refine updSpdm_only ?_ (hS.mono rfl) | refine refuse_only ?_ (hS.mono rfl))
    | split)
theorem execGetCaps_only {q : QId} {cid : W16} {s : State} (hk : Only S b0 s) (hS : Covers S [.hostMemory, .host, .col]) : OnlyOut S b0 (execGetCaps q cid s) := by
  unfold execGetCaps
  repeat' (first
    | (with_reducible first | assumption | refine completeOut_only ?_ (hS.mono rfl) | refine withCmd_only ?_ (hS.mono rfl) ?_)
    | refine fun _ => ?_)
theorem execGetCertificate_only {p : Port} {slot off len : Nat} {s : State} (hk : Only S b0 s) (hS : Covers S [.security]) : OnlyOut S b0 (execGetCertificate p slot off len s) := by
  unfold execGetCertificate
  dsimp only
  repeat' (first
    | (with_reducible first | assumption | refine answer_only ?_ (hS.mono rfl) | refine refuse_only ?_ (hS.mono rfl) | refine negotiated_only ?_ (hS.mono rfl) ?_)
    | split)
theorem tdiReq_only {s : State} {p : Port} {sid n : Nat} {f : Part → State} (hk : Only S b0 s) (hS : Covers S [.security]) (hf : ∀ t, Only S b0 (f t)) : OnlyOut S b0 (tdiReq s p sid n f) := by
  refine inSession_only hk (hS.mono rfl) (fun _ => ?_)
  dsimp only
  split
  · exact refuse_only hk (hS.mono rfl)
  · exact hf _
theorem execGetDeviceInterfaceReport_only {p : Port} {sid : Nat} {n : Fin 16} {s : State} (hk : Only S b0 s) (hS : Covers S [.security]) : OnlyOut S b0 (execGetDeviceInterfaceReport p sid n s) := by
  unfold execGetDeviceInterfaceReport
  repeat' (first
    | (with_reducible first | assumption | refine answer_only ?_ (hS.mono rfl) | refine refuse_only ?_ (hS.mono rfl) | refine tdiReq_only ?_ (hS.mono rfl) ?_)
    | split
    | refine fun _ => ?_)
theorem execGetDigests_only {p : Port} {s : State} (hk : Only S b0 s) (hS : Covers S [.security]) : OnlyOut S b0 (execGetDigests p s) := by
  unfold execGetDigests
  repeat' (first
    | (with_reducible first | assumption | refine answer_only ?_ (hS.mono rfl) | refine negotiated_only ?_ (hS.mono rfl) ?_))
theorem execGetFeature_only {q : QId} {cid : W16} {s : State} (hk : Only S b0 s) (hS : Covers S [.hostMemory, .host, .col]) : OnlyOut S b0 (execGetFeature q cid s) := by
  unfold execGetFeature
  repeat' (first
    | (with_reducible first | assumption | refine completeOut_only ?_ (hS.mono rfl) | refine withCmd_only ?_ (hS.mono rfl) ?_)
    | refine fun _ => ?_)
theorem mctpReply_only {s : State} {b : List Byte} (hk : Only S b0 s) (hS : Covers S [.cmc]) : OnlyOut S b0 (mctpReply s b) := by
  unfold mctpReply
  dsimp only
  repeat' (first
    | (with_reducible first | assumption | exact RidgesOnly.refl _ | refine OnlyOut.next ?_)
    | (simp only [Only.fields]; with_reducible refine Only.upd ?_ ?_ ?_ ?_ ?_ ?_ ?_ ?_ ?_ ?_ ?_ ?_ ?_ ?_ ?_ ?_ ?_ ?_ ?_ ?_ ?_ ?_)
    | exact .inl (hS.mem rfl)
    | (with_reducible exact .inr rfl)
    | (with_reducible exact .inr ⟨rfl, rfl⟩)
    | split)
theorem execGetIdentity_only {s : State} (hk : Only S b0 s) (hS : Covers S [.cmc]) : OnlyOut S b0 (execGetIdentity s) := by
  unfold execGetIdentity
  repeat' (first
    | (with_reducible first | assumption | refine mctpReply_only ?_ (hS.mono rfl)))
theorem execGetLog_only {first : Nat} {s : State} (hk : Only S b0 s) (hS : Covers S [.cmc]) : OnlyOut S b0 (execGetLog first s) := by
  unfold execGetLog
  repeat' (first
    | (with_reducible first | assumption | refine mctpReply_only ?_ (hS.mono rfl)))
theorem execGetMeasurements_only {p : Port} {idx : Nat} {sign : Bool} {nonce : W256} {s : State} (hk : Only S b0 s) (hS : Covers S [.security]) : OnlyOut S b0 (execGetMeasurements p idx sign nonce s) := by
  unfold execGetMeasurements
  dsimp only
  repeat' (first
    | (with_reducible first | assumption | refine drawn_only ?_ (hS.mono rfl) | refine answer_only ?_ (hS.mono rfl) | refine refuse_only ?_ (hS.mono rfl) | refine negotiated_only ?_ (hS.mono rfl) ?_)
    | split)
theorem execGetPower_only {s : State} (hk : Only S b0 s) (hS : Covers S [.cmc]) : OnlyOut S b0 (execGetPower s) := by
  unfold execGetPower
  repeat' (first
    | (with_reducible first | assumption | refine mctpReply_only ?_ (hS.mono rfl)))
theorem execGetStatus_only {s : State} (hk : Only S b0 s) (hS : Covers S [.cmc]) : OnlyOut S b0 (execGetStatus s) := by
  unfold execGetStatus
  repeat' (first
    | (with_reducible first | assumption | refine mctpReply_only ?_ (hS.mono rfl)))
theorem execGetThermal_only {s : State} (hk : Only S b0 s) (hS : Covers S [.cmc]) : OnlyOut S b0 (execGetThermal s) := by
  unfold execGetThermal
  repeat' (first
    | (with_reducible first | assumption | refine mctpReply_only ?_ (hS.mono rfl)))
theorem execGetVersion_only {p : Port} {s : State} (hk : Only S b0 s) (hS : Covers S [.security]) : OnlyOut S b0 (execGetVersion p s) := by
  unfold execGetVersion
  repeat' (first
    | (with_reducible first | assumption | refine doeReq_only ?_ (hS.mono rfl) ?_ | refine answer_only ?_ (hS.mono rfl) | refine updSpdm_only ?_ (hS.mono rfl)))
theorem execHail_only {n : Alv} {f : Frame} {s : State} (hk : Only S b0 s) (hS : Covers S [.jobs, .col, .links]) : OnlyOut S b0 (execHail n f s) := by
  unfold execHail
  dsimp only
  repeat' (first
    | (with_reducible first | assumption | refine OptAllFst.of_some (arrive_only ?_ (hS.mono rfl)) (by assumption) | refine stamp_only ?_ (hS.mono rfl) | refine setLink_only ?_ (hS.mono rfl) | refine hailPeer_only ?_ (hS.mono rfl) | refine dropFrame_only ?_ (hS.mono rfl) | refine peerChange_only ?_ (hS.mono rfl) | refine goUp_only ?_ (hS.mono rfl) | exact RidgesOnly.refl _ | refine OnlyOut.next ?_)
    | (simp only [Only.fields]; with_reducible refine Only.upd ?_ ?_ ?_ ?_ ?_ ?_ ?_ ?_ ?_ ?_ ?_ ?_ ?_ ?_ ?_ ?_ ?_ ?_ ?_ ?_ ?_ ?_)
    | exact .inl (hS.mem rfl)
    | (with_reducible exact .inr rfl)
    | (with_reducible exact .inr ⟨rfl, rfl⟩)
    | split)
theorem execHailSend_only {s : State} (hk : Only S b0 s) (hS : Covers S [.col, .links]) : OnlyOut S b0 (execHailSend s) := by
  unfold execHailSend
  dsimp only
  repeat' (first
    | (with_reducible first | assumption | refine sendHail_only ?_ (hS.mono rfl) | exact RidgesOnly.refl _ | refine OnlyOut.next ?_)
    | (simp only [Only.fields]; with_reducible refine Only.upd ?_ ?_ ?_ ?_ ?_ ?_ ?_ ?_ ?_ ?_ ?_ ?_ ?_ ?_ ?_ ?_ ?_ ?_ ?_ ?_ ?_ ?_)
    | (with_reducible refine Only.foldl (fun _ _ _ => ?_) _ _ ?_) <;> try dsimp only
    | exact .inl (hS.mem rfl)
    | (with_reducible exact .inr rfl)
    | (with_reducible exact .inr ⟨rfl, rfl⟩)
    | split)
theorem execHalt_only {r : Ridge} {x : Ctx} {w : W128} {s : State} (hk : Only S b0 s) (hS : Covers S [.host, .jobs, .slots, .ridges, .path, .col, .ropes]) : OnlyOut S b0 (execHalt r x w s) := by
  unfold execHalt
  repeat' (first
    | (with_reducible first | assumption | refine issue_only ?_ (hS.mono rfl) ?_ | refine issueWin_only ?_ (hS.mono rfl)))
theorem execHbAqCfg_only {p : Port} {v : W32} {s : State} (hk : Only S b0 s) (hS : Covers S [.host]) : OnlyOut S b0 (execHbAqCfg p v s) := by
  unfold execHbAqCfg
  repeat' (first
    | (with_reducible first | assumption | refine aqConfigure_only ?_ (hS.mono rfl) | refine OnlyOut.next ?_)
    | split)
theorem execHbAttnAck_only {p : Port} {v : W32} {s : State} (hk : Only S b0 s) (hS : Covers S [.host]) : OnlyOut S b0 (execHbAttnAck p v s) := by
  unfold execHbAttnAck
  repeat' (first
    | (with_reducible first | assumption | refine hrdySync_only ?_ (hS.mono rfl) | refine updPort_only ?_ (hS.mono rfl) | refine OnlyOut.next ?_)
    | split)
theorem execHbColSeqHi_only {p : Port} {f : Fn} {s : State} (hk : Only S b0 s) (hS : Covers S [.host]) : OnlyOut S b0 (execHbColSeqHi p f s) := by
  unfold execHbColSeqHi
  repeat' (first
    | (with_reducible first | assumption | refine updFn_only ?_ (hS.mono rfl) | refine readBack_only ?_ (hS.mono rfl) | refine OnlyOut.next ?_)
    | split)
theorem execHbColSeqLo_only {p : Port} {f : Fn} {s : State} (hk : Only S b0 s) (hS : Covers S [.host]) : OnlyOut S b0 (execHbColSeqLo p f s) := by
  unfold execHbColSeqLo
  repeat' (first
    | (with_reducible first | assumption | refine updFn_only ?_ (hS.mono rfl) | refine readBack_only ?_ (hS.mono rfl) | refine OnlyOut.next ?_)
    | split)
theorem execHbCtrl_only {p : Port} {f : Fn} {v : W32} {s : State} (hk : Only S b0 s) (hS : Covers S [.host]) : OnlyOut S b0 (execHbCtrl p f v s) := by
  unfold execHbCtrl
  dsimp only
  repeat' (first
    | (with_reducible first | assumption | refine updFn_only ?_ (hS.mono rfl) | refine OnlyOut.next ?_)
    | split)
theorem execHbDbAdmin_only {p : Port} {v : W32} {s : State} (hk : Only S b0 s) (hS : Covers S [.hostMemory, .pool, .host, .col]) : OnlyOut S b0 (execHbDbAdmin p v s) := by
  unfold execHbDbAdmin
  repeat' (first
    | (with_reducible first | assumption | refine pinSync_only ?_ (hS.mono rfl) | refine ringHead_only ?_ (hS.mono rfl) | refine ringTail_only ?_ (hS.mono rfl) | refine OnlyOut.next ?_)
    | split)
theorem execHbEvtDrop_only {p : Port} {f : Fn} {s : State} (hk : Only S b0 s) (hS : Covers S [.host]) : OnlyOut S b0 (execHbEvtDrop p f s) := by
  unfold execHbEvtDrop
  repeat' (first
    | (with_reducible first | assumption | refine updFn_only ?_ (hS.mono rfl) | refine readBack_only ?_ (hS.mono rfl) | refine OnlyOut.next ?_)
    | split)
theorem execHeartbeat_only {p : Port} {sid : Nat} {s : State} (hk : Only S b0 s) (hS : Covers S [.security]) : OnlyOut S b0 (execHeartbeat p sid s) := by
  unfold execHeartbeat
  repeat' (first
    | (with_reducible first | assumption | refine answer_only ?_ (hS.mono rfl) | refine inSession_only ?_ (hS.mono rfl) ?_)
    | refine fun _ => ?_)
theorem execHeartbeatTimeout_only {s : State} (hk : Only S b0 s) (hS : Covers S [.host, .col, .cmc]) : OnlyOut S b0 (execHeartbeatTimeout s) := by
  unfold execHeartbeatTimeout
  repeat' (first
    | (with_reducible first | assumption | refine secondStall_only ?_ (hS.mono rfl) | refine stall_only ?_ (hS.mono rfl) | refine OnlyOut.next ?_)
    | split)
theorem execHrdyMinimumTime_only {p : Port} {s : State} (hk : Only S b0 s) (hS : Covers S [.host]) : OnlyOut S b0 (execHrdyMinimumTime p s) := by
  unfold execHrdyMinimumTime
  repeat' (first
    | (with_reducible first | assumption | refine hrdySync_only ?_ (hS.mono rfl) | refine OnlyOut.next ?_)
    | split)
theorem execIdeFail_only {p : Port} {f : Fn} {s : State} (hk : Only S b0 s) (hS : Covers S [.parts, .col, .security]) : OnlyOut S b0 (execIdeFail p f s) := by
  unfold execIdeFail
  dsimp only
  repeat' (first
    | (with_reducible first | assumption | refine securityEvent_only ?_ (hS.mono rfl) | refine tdiFail_only ?_ (hS.mono rfl) | refine setInsecure_only ?_ (hS.mono rfl) | refine OnlyOut.next ?_)
    | split)
theorem execIdeKmQuery_only {p : Port} {sid : Nat} {f : Fn} {s : State} (hk : Only S b0 s) (hS : Covers S [.security]) : OnlyOut S b0 (execIdeKmQuery p sid f s) := by
  unfold execIdeKmQuery
  dsimp only
  repeat' (first
    | (with_reducible first | assumption | refine answer_only ?_ (hS.mono rfl) | refine inSession_only ?_ (hS.mono rfl) ?_)
    | refine fun _ => ?_)
theorem execIdentify_only {q : QId} {cid : W16} {s : State} (hk : Only S b0 s) (hS : Covers S [.hostMemory, .host, .col]) : OnlyOut S b0 (execIdentify q cid s) := by
  unfold execIdentify
  repeat' (first
    | (with_reducible first | assumption | refine completeOut_only ?_ (hS.mono rfl) | refine withCmd_only ?_ (hS.mono rfl) ?_)
    | refine fun _ => ?_)
theorem execInletStale_only {s : State} (hk : Only S b0 s) (hS : Covers S [.col, .thermal]) : OnlyOut S b0 (execInletStale s) := by
  unfold execInletStale
  dsimp only
  repeat' (first
    | (with_reducible first | assumption | refine thermalCore_only ?_ (hS.mono rfl) | exact RidgesOnly.refl _ | refine OnlyOut.next ?_)
    | (simp only [Only.fields]; with_reducible refine Only.upd ?_ ?_ ?_ ?_ ?_ ?_ ?_ ?_ ?_ ?_ ?_ ?_ ?_ ?_ ?_ ?_ ?_ ?_ ?_ ?_ ?_ ?_)
    | exact .inl (hS.mem rfl)
    | (with_reducible exact .inr rfl)
    | (with_reducible exact .inr ⟨rfl, rfl⟩)
    | split)
theorem execInputLoss_only {s : State} (hk : Only S b0 s) (hS : Covers S [.ridges, .programming, .clay, .pmu]) : OnlyOut S b0 (execInputLoss s) := by
  unfold execInputLoss
  dsimp only
  repeat' (first
    | (with_reducible first | assumption | refine stopEngine_only ?_ (hS.mono rfl) | exact RidgesOnly.refl _ | refine OnlyOut.next ?_)
    | (simp only [Only.fields]; with_reducible refine Only.upd ?_ ?_ ?_ ?_ ?_ ?_ ?_ ?_ ?_ ?_ ?_ ?_ ?_ ?_ ?_ ?_ ?_ ?_ ?_ ?_ ?_ ?_)
    | (with_reducible refine Only.foldl (fun _ _ _ => ?_) _ _ ?_) <;> try dsimp only
    | exact .inl (hS.mem rfl)
    | (with_reducible exact .inr rfl)
    | (with_reducible exact .inr ⟨rfl, rfl⟩)
    | split)
theorem execInputLossTimeout_only {s : State} (hk : Only S b0 s) (hS : Covers S [.pool, .host, .parts, .jobs, .tiles, .loam, .slots, .ridges, .programming, .localMemory, .path, .arbiters, .col, .ropes, .links, .integrity, .security, .clayBytes, .clay, .thermal, .pmu, .cmc]) : OnlyOut S b0 (execInputLossTimeout s) := by
  unfold execInputLossTimeout
  repeat' (first
    | (with_reducible first | assumption | refine inputReset_only ?_ (hS.mono rfl) | refine OnlyOut.next ?_)
    | split)
theorem execInputLow_only {mv : Nat} {s : State} (hk : Only S b0 s) (hS : Covers S [.col, .pmu]) : OnlyOut S b0 (execInputLow mv s) := by
  unfold execInputLow
  dsimp only
  repeat' (first
    | (with_reducible first | assumption | refine raiseCoal_only ?_ (hS.mono rfl) | exact RidgesOnly.refl _ | refine OnlyOut.next ?_)
    | (simp only [Only.fields]; with_reducible refine Only.upd ?_ ?_ ?_ ?_ ?_ ?_ ?_ ?_ ?_ ?_ ?_ ?_ ?_ ?_ ?_ ?_ ?_ ?_ ?_ ?_ ?_ ?_)
    | exact .inl (hS.mem rfl)
    | (with_reducible exact .inr rfl)
    | (with_reducible exact .inr ⟨rfl, rfl⟩)
    | split)
theorem execInputRestored_only {s : State} (hk : Only S b0 s) (hS : Covers S [.host, .tiles, .ridges, .col, .links, .integrity, .security, .clayBytes, .clay, .thermal, .pmu, .cmc]) : OnlyOut S b0 (execInputRestored s) := by
  unfold execInputRestored
  dsimp only
  repeat' (first
    | (with_reducible first | assumption | refine boot_only ?_ (hS.mono rfl) | refine powerEvent_only ?_ (hS.mono rfl) | exact RidgesOnly.refl _ | refine OnlyOut.next ?_)
    | (simp only [Only.fields]; with_reducible refine Only.upd ?_ ?_ ?_ ?_ ?_ ?_ ?_ ?_ ?_ ?_ ?_ ?_ ?_ ?_ ?_ ?_ ?_ ?_ ?_ ?_ ?_ ?_)
    | exact .inl (hS.mem rfl)
    | (with_reducible exact .inr rfl)
    | (with_reducible exact .inr ⟨rfl, rfl⟩)
    | split)
theorem execJobCairnExport_only {q : QId} {cid : W16} {s : State} (hk : Only S b0 s) (hS : Covers S [.hostMemory, .host, .col]) : OnlyOut S b0 (execJobCairnExport q cid s) := by
  unfold execJobCairnExport
  repeat' (first
    | (with_reducible first | assumption | refine jobCairnExportDo_only ?_ (hS.mono rfl) | refine withCmd_only ?_ (hS.mono rfl) ?_)
    | refine fun _ => ?_)
theorem execJobCompletion_only {part : PartNo} {job : W32} {s : State} (hk : Only S b0 s) (hS : Covers S [.host, .parts, .jobs, .slots, .ridges, .path, .col, .ropes, .links]) : OnlyOut S b0 (execJobCompletion part job s) := by
  unfold execJobCompletion
  dsimp only
  repeat' (first
    | (with_reducible first | assumption | refine endJob_only ?_ (hS.mono rfl) | refine updJob_only ?_ (hS.mono rfl) | refine askProbes_only ?_ (hS.mono rfl) | refine OnlyOut.next ?_)
    | split)
theorem execJobEndOnFault_only {part : PartNo} {job : W32} {s : State} (hk : Only S b0 s) (hS : Covers S [.host, .parts, .jobs, .slots, .ridges, .path, .col, .ropes, .links]) : OnlyOut S b0 (execJobEndOnFault part job s) := by
  unfold execJobEndOnFault
  dsimp only
  repeat' (first
    | (with_reducible first | assumption | refine endJob_only ?_ (hS.mono rfl) | refine OnlyOut.next ?_)
    | split)
theorem execJobRestart_only {part : PartNo} {job : W32} {s : State} (hk : Only S b0 s) (hS : Covers S [.host, .parts, .jobs, .loam, .slots, .ridges, .path, .col, .ropes, .links]) : OnlyOut S b0 (execJobRestart part job s) := by
  unfold execJobRestart
  dsimp only
  repeat' (first
    | (with_reducible first | assumption | refine finishJob_only ?_ (hS.mono rfl) | refine updP_only ?_ (hS.mono rfl) | refine startJob_only ?_ (hS.mono rfl) | refine updJob_only ?_ (hS.mono rfl) | refine restartCleared_only ?_ (hS.mono rfl) | refine OnlyOut.next ?_)
    | split)
theorem execJobResume_only {q : QId} {cid : W16} {s : State} (hk : Only S b0 s) (hS : Covers S [.hostMemory, .host, .parts, .jobs, .loam, .slots, .ridges, .localMemory, .path, .col, .ropes, .links]) : OnlyOut S b0 (execJobResume q cid s) := by
  unfold execJobResume
  repeat' (first
    | (with_reducible first | assumption | refine jobResumeDo_only ?_ (hS.mono rfl) | refine withCmd_only ?_ (hS.mono rfl) ?_)
    | refine fun _ => ?_)
theorem execJobStart_only {part : PartNo} {job : W32} {s : State} (hk : Only S b0 s) (hS : Covers S [.parts, .jobs, .loam, .slots, .ridges]) : OnlyOut S b0 (execJobStart part job s) := by
  unfold execJobStart
  repeat' (first
    | (with_reducible first | assumption | refine startJob_only ?_ (hS.mono rfl) | refine OnlyOut.next ?_)
    | split)
theorem execJobSubmit_only {q : QId} {cid : W16} {s : State} (hk : Only S b0 s) (hS : Covers S [.host, .parts, .jobs, .col]) : OnlyOut S b0 (execJobSubmit q cid s) := by
  unfold execJobSubmit
  repeat' (first
    | (with_reducible first | assumption | refine jobSubmitDo_only ?_ (hS.mono rfl) | refine withOrdered_only ?_ (hS.mono rfl) ?_)
    | refine fun _ => ?_)
theorem execJobTimeLimit_only {part : PartNo} {job : W32} {s : State} (hk : Only S b0 s) (hS : Covers S [.host, .parts, .jobs, .slots, .ridges, .path, .col, .ropes, .links]) : OnlyOut S b0 (execJobTimeLimit part job s) := by
  unfold execJobTimeLimit
  repeat' (first
    | (with_reducible first | assumption | refine endJob_only ?_ (hS.mono rfl) | refine OnlyOut.next ?_)
    | split)
theorem execKSetGo_only {p : Port} {sid : Nat} {f : Fn} {dir set : Bool} {s : State} (hk : Only S b0 s) (hS : Covers S [.security]) : OnlyOut S b0 (execKSetGo p sid f dir set s) := by
  unfold execKSetGo
  dsimp only
  repeat' (first
    | (with_reducible first | assumption | refine setIde_only ?_ (hS.mono rfl) | refine answer_only ?_ (hS.mono rfl) | refine inSession_only ?_ (hS.mono rfl) ?_ | refine setInsecure_only ?_ (hS.mono rfl) | refine refuse_only ?_ (hS.mono rfl))
    | split
    | refine fun _ => ?_)
theorem execKSetStop_only {p : Port} {sid : Nat} {f : Fn} {dir set : Bool} {s : State} (hk : Only S b0 s) (hS : Covers S [.security]) : OnlyOut S b0 (execKSetStop p sid f dir set s) := by
  unfold execKSetStop
  repeat' (first
    | (with_reducible first | assumption | refine setIde_only ?_ (hS.mono rfl) | refine answer_only ?_ (hS.mono rfl) | refine inSession_only ?_ (hS.mono rfl) ?_)
    | refine fun _ => ?_)
theorem execKeyExchange_only {p : Port} {sid : Nat} {pub : List Byte} {s : State} (hk : Only S b0 s) (hS : Covers S [.security]) : OnlyOut S b0 (execKeyExchange p sid pub s) := by
  unfold execKeyExchange
  dsimp only
  repeat' (first
    | (with_reducible first | assumption | refine answer_only ?_ (hS.mono rfl) | refine setSess_only ?_ (hS.mono rfl) | refine refuse_only ?_ (hS.mono rfl) | refine negotiated_only ?_ (hS.mono rfl) ?_ | exact RidgesOnly.refl _)
    | (simp only [Only.fields]; with_reducible refine Only.upd ?_ ?_ ?_ ?_ ?_ ?_ ?_ ?_ ?_ ?_ ?_ ?_ ?_ ?_ ?_ ?_ ?_ ?_ ?_ ?_ ?_ ?_)
    | exact .inl (hS.mem rfl)
    | (with_reducible exact .inr rfl)
    | (with_reducible exact .inr ⟨rfl, rfl⟩)
    | split)
theorem execKeyProg_only {p : Port} {sid : Nat} {f : Fn} {dir set : Bool} {sub : Nat} {key : List Byte} {s : State} (hk : Only S b0 s) (hS : Covers S [.security]) : OnlyOut S b0 (execKeyProg p sid f dir set sub key s) := by
  unfold execKeyProg
  dsimp only
  repeat' (first
    | (with_reducible first | assumption | refine setIde_only ?_ (hS.mono rfl) | refine answer_only ?_ (hS.mono rfl) | refine inSession_only ?_ (hS.mono rfl) ?_ | refine refuse_only ?_ (hS.mono rfl))
    | split
    | refine fun _ => ?_)
theorem execKeyUpdate_only {p : Port} {sid : Nat} {both : Bool} {s : State} (hk : Only S b0 s) (hS : Covers S [.security]) : OnlyOut S b0 (execKeyUpdate p sid both s) := by
  unfold execKeyUpdate
  repeat' (first
    | (with_reducible first | assumption | refine answer_only ?_ (hS.mono rfl) | refine inSession_only ?_ (hS.mono rfl) ?_ | refine setSess_only ?_ (hS.mono rfl))
    | split
    | refine fun _ => ?_)
theorem execLinkLockLost_only {n : Alv} {s : State} (hk : Only S b0 s) (hS : Covers S [.col, .links]) : OnlyOut S b0 (execLinkLockLost n s) := by
  unfold execLinkLockLost
  repeat' (first
    | (with_reducible first | assumption | refine startTraining_only ?_ (hS.mono rfl) | refine OnlyOut.next ?_)
    | split)
theorem execLinkTrainingComplete_only {n : Alv} {x2 : Bool} {s : State} (hk : Only S b0 s) (hS : Covers S [.col, .links]) : OnlyOut S b0 (execLinkTrainingComplete n x2 s) := by
  unfold execLinkTrainingComplete
  dsimp only
  repeat' (first
    | (with_reducible first | assumption | refine setLink_only ?_ (hS.mono rfl) | refine sendHail_only ?_ (hS.mono rfl) | refine goUp_only ?_ (hS.mono rfl) | refine OnlyOut.next ?_)
    | split)
theorem execLoadCalibrationEnd_only {part : PartNo} {wset : W32} {s : State} (hk : Only S b0 s) (hS : Covers S [.parts]) : OnlyOut S b0 (execLoadCalibrationEnd part wset s) := by
  unfold execLoadCalibrationEnd
  dsimp only
  repeat' (first
    | (with_reducible first | assumption | refine updWset_only ?_ (hS.mono rfl) | refine OnlyOut.next ?_)
    | split)
theorem execLockInterface_only {p : Port} {sid : Nat} {n : Fin 16} {s : State} (hk : Only S b0 s) (hS : Covers S [.parts, .security]) : OnlyOut S b0 (execLockInterface p sid n s) := by
  unfold execLockInterface
  dsimp only
  repeat' (first
    | (with_reducible first | assumption | refine drawn_only ?_ (hS.mono rfl) | refine answer_only ?_ (hS.mono rfl) | refine updP_only ?_ (hS.mono rfl) | refine refuse_only ?_ (hS.mono rfl) | refine tdiReq_only ?_ (hS.mono rfl) ?_)
    | split
    | refine fun _ => ?_)
theorem execLogExport_only {q : QId} {cid : W16} {s : State} (hk : Only S b0 s) (hS : Covers S [.hostMemory, .host, .col]) : OnlyOut S b0 (execLogExport q cid s) := by
  unfold execLogExport
  repeat' (first
    | (with_reducible first | assumption | refine withCmd_only ?_ (hS.mono rfl) ?_ | refine logExportDo_only ?_ (hS.mono rfl))
    | refine fun _ => ?_)
theorem execMctpControlMessage_only {code : Nat} {data : List Byte} {s : State} (hk : Only S b0 s) (hS : Covers S [.cmc]) : OnlyOut S b0 (execMctpControlMessage code data s) := by
  unfold execMctpControlMessage
  dsimp only
  repeat' (first
    | (with_reducible first | assumption | refine mctpReply_only ?_ (hS.mono rfl) | exact RidgesOnly.refl _)
    | (simp only [Only.fields]; with_reducible refine Only.upd ?_ ?_ ?_ ?_ ?_ ?_ ?_ ?_ ?_ ?_ ?_ ?_ ?_ ?_ ?_ ?_ ?_ ?_ ?_ ?_ ?_ ?_)
    | exact .inl (hS.mem rfl)
    | (with_reducible exact .inr rfl)
    | (with_reducible exact .inr ⟨rfl, rfl⟩)
    | split)
theorem execMemoryAtomicApply_only {id : Nat} {s : State} (hk : Only S b0 s) (hS : Covers S [.host, .jobs, .loam, .slots, .ridges, .localMemory, .path, .col, .ropes, .links]) : OnlyOut S b0 (execMemoryAtomicApply id s) := by
  have h1 : Only S b0 { s with mem := { s.mem with atomics := s.mem.atomics.filter (fun v => v.id ≠ id) } } :=
    Only.upd (t := s) hk (.inr ⟨rfl, rfl⟩) (.inr rfl) (.inr rfl) (.inr rfl) (.inr rfl) (RidgesOnly.refl _) (.inr rfl) (.inr ⟨rfl, rfl⟩) (.inl (hS.mem rfl)) (.inr ⟨rfl, rfl⟩) (.inr rfl) (.inr rfl) (.inr rfl) (.inr rfl) (.inr rfl) (.inr ⟨rfl, rfl⟩) (.inr rfl) (.inr rfl) (.inr rfl) (.inr rfl) (.inr rfl)
  unfold execMemoryAtomicApply
  split
  · exact OnlyOut.next hk
  · dsimp only
    split
    · exact OnlyOut.next (atomLocal_only h1 (hS.mono rfl) (fun _ _ g => updR_only g (fun rd => loamPut_ronly (RidgeOnly.refl rd) (hS.mono rfl))))
    · exact OnlyOut.next (atomLocal_only h1 (hS.mono rfl) (fun _ _ g => dramPut_only g (hS.mono rfl)))
    · split
      · exact OnlyOut.next h1
      · split
        · exact OnlyOut.next hk
        · split
          · exact OnlyOut.next (mmuFault_only hk (hS.mono rfl))
          · exact OnlyOut.next (OptAll.getD (peerSend_only h1 (hS.mono rfl)) hk)
theorem execMoraineFill_only {part : PartNo} {pa bad : Nat} {s : State} (hk : Only S b0 s) (hS : Covers S [.parts, .localMemory, .path, .col, .integrity]) : OnlyOut S b0 (execMoraineFill part pa bad s) := by
  unfold execMoraineFill
  dsimp only
  repeat' (first
    | (with_reducible first | assumption | refine goldenFails_only ?_ (hS.mono rfl) | refine raiseInteg_only ?_ (hS.mono rfl) | refine dramPoison_only ?_ (hS.mono rfl) | refine fillLine_only ?_ (hS.mono rfl) | refine countCorrected_only ?_ (hS.mono rfl) | refine OnlyOut.next ?_)
    | split)
theorem execMsg_only {n : Alv} {f : Frame} {s : State} (hk : Only S b0 s) (hS : Covers S [.jobs, .ridges, .col, .links]) : OnlyOut S b0 (execMsg n f s) := by
  unfold execMsg
  repeat' (first
    | (with_reducible first | assumption | refine announce_only ?_ (hS.mono rfl) | refine OptAllFst.of_some (arrive_only ?_ (hS.mono rfl)) (by assumption) | refine keepRecord_only ?_ (hS.mono rfl) | refine malformed_only ?_ (hS.mono rfl) | refine reply_only ?_ (hS.mono rfl) | refine OnlyOut.next ?_)
    | split)
theorem execMvm_only {r : Ridge} {x : Ctx} {w : W128} {s : State} (hk : Only S b0 s) (hS : Covers S [.host, .jobs, .tiles, .slots, .ridges, .path, .col, .ropes]) : OnlyOut S b0 (execMvm r x w s) := by
  unfold execMvm
  repeat' (first
    | (with_reducible first | assumption | refine mvmBody_only ?_ (hS.mono rfl) | refine issue_only ?_ (hS.mono rfl) ?_))
theorem execMvms_only {r : Ridge} {x : Ctx} {w : W128} {s : State} (hk : Only S b0 s) (hS : Covers S [.host, .jobs, .tiles, .slots, .ridges, .path, .col, .ropes]) : OnlyOut S b0 (execMvms r x w s) := by
  unfold execMvms
  repeat' (first
    | (with_reducible first | assumption | refine mvmBody_only ?_ (hS.mono rfl) | refine issue_only ?_ (hS.mono rfl) ?_))
theorem execNegotiateAlgorithms_only {p : Port} {ecdsa sha ecdhe gcm : Bool} {s : State} (hk : Only S b0 s) (hS : Covers S [.security]) : OnlyOut S b0 (execNegotiateAlgorithms p ecdsa sha ecdhe gcm s) := by
  unfold execNegotiateAlgorithms
  repeat' (first
    | (with_reducible first | assumption | refine doeReq_only ?_ (hS.mono rfl) ?_ | refine answer_only ?_ (hS.mono rfl) | refine updSpdm_only ?_ (hS.mono rfl) | refine refuse_only ?_ (hS.mono rfl))
    | split)
theorem execNoEstimateWindowEnd_only {s : State} (hk : Only S b0 s) (hS : Covers S [.host, .col, .thermal]) : OnlyOut S b0 (execNoEstimateWindowEnd s) := by
  unfold execNoEstimateWindowEnd
  dsimp only
  repeat' (first
    | (with_reducible first | assumption | refine hotAssert_only ?_ (hS.mono rfl) | exact RidgesOnly.refl _ | refine OnlyOut.next ?_)
    | (simp only [Only.fields]; with_reducible refine Only.upd ?_ ?_ ?_ ?_ ?_ ?_ ?_ ?_ ?_ ?_ ?_ ?_ ?_ ?_ ?_ ?_ ?_ ?_ ?_ ?_ ?_ ?_)
    | exact .inl (hS.mem rfl)
    | (with_reducible exact .inr rfl)
    | (with_reducible exact .inr ⟨rfl, rfl⟩)
    | split)
theorem execNop_only {r : Ridge} {x : Ctx} {w : W128} {s : State} (hk : Only S b0 s) (hS : Covers S [.host, .jobs, .slots, .ridges, .path, .col, .ropes]) : OnlyOut S b0 (execNop r x w s) := by
  unfold execNop
  repeat' (first
    | (with_reducible first | assumption | refine issue_only ?_ (hS.mono rfl) ?_ | refine IssAll.intro_next ?_))
theorem execPageWalk_only {id : Nat} {s : State} (hk : Only S b0 s) (hS : Covers S [.host, .jobs, .loam, .slots, .ridges, .localMemory, .path, .col, .ropes, .links]) : OnlyOut S b0 (execPageWalk id s) := by
  unfold execPageWalk
  dsimp only
  repeat' (first
    | (with_reducible first | assumption | refine settleRidge_only ?_ (hS.mono rfl) | refine pageWalk_only ?_ (hS.mono rfl) | refine ropeAbort_only ?_ (hS.mono rfl) | refine OnlyOut.next ?_)
    | split)
theorem execPartBind_only {q : QId} {cid : W16} {s : State} (hk : Only S b0 s) (hS : Covers S [.host, .jobs, .slots, .ridges, .col, .ropes]) : OnlyOut S b0 (execPartBind q cid s) := by
  unfold execPartBind
  repeat' (first
    | (with_reducible first | assumption | refine withCmd_only ?_ (hS.mono rfl) ?_ | refine partBindDo_only ?_ (hS.mono rfl))
    | refine fun _ => ?_)
theorem execPartCreate_only {q : QId} {cid : W16} {s : State} (hk : Only S b0 s) (hS : Covers S [.host, .parts, .jobs, .slots, .ridges, .col, .ropes, .security, .pmu]) : OnlyOut S b0 (execPartCreate q cid s) := by
  unfold execPartCreate
  repeat' (first
    | (with_reducible first | assumption | refine partCreateDo_only ?_ (hS.mono rfl) | refine withCmd_only ?_ (hS.mono rfl) ?_ | refine createEnd_only ?_ (hS.mono rfl) | refine OnlyOut.next ?_)
    | split
    | refine fun _ => ?_)
theorem execPartDestroy_only {q : QId} {cid : W16} {s : State} (hk : Only S b0 s) (hS : Covers S [.host, .parts, .tiles, .loam, .slots, .ridges, .programming, .col, .clay, .pmu, .cmc]) : OnlyOut S b0 (execPartDestroy q cid s) := by
  unfold execPartDestroy
  repeat' (first
    | (with_reducible first | assumption | refine withCmd_only ?_ (hS.mono rfl) ?_ | refine partDestroyDo_only ?_ (hS.mono rfl))
    | refine fun _ => ?_)
theorem execPartQuery_only {q : QId} {cid : W16} {s : State} (hk : Only S b0 s) (hS : Covers S [.hostMemory, .host, .col]) : OnlyOut S b0 (execPartQuery q cid s) := by
  unfold execPartQuery
  repeat' (first
    | (with_reducible first | assumption | refine completeOut_only ?_ (hS.mono rfl) | refine withCmd_only ?_ (hS.mono rfl) ?_)
    | refine fun _ => ?_)
theorem execPeakHoldHotTimer_only {s : State} (hk : Only S b0 s) (hS : Covers S [.host, .col, .thermal, .pmu]) : OnlyOut S b0 (execPeakHoldHotTimer s) := by
  unfold execPeakHoldHotTimer
  dsimp only
  repeat' (first
    | (with_reducible first | assumption | refine hotAssert_only ?_ (hS.mono rfl) | exact RidgesOnly.refl _ | refine OnlyOut.next ?_)
    | (simp only [Only.fields]; with_reducible refine Only.upd ?_ ?_ ?_ ?_ ?_ ?_ ?_ ?_ ?_ ?_ ?_ ?_ ?_ ?_ ?_ ?_ ?_ ?_ ?_ ?_ ?_ ?_)
    | exact .inl (hS.mem rfl)
    | (with_reducible exact .inr rfl)
    | (with_reducible exact .inr ⟨rfl, rfl⟩)
    | split)
theorem execPeakPowerHold_only {ma : Nat} {s : State} (hk : Only S b0 s) (hS : Covers S [.col, .pmu]) : OnlyOut S b0 (execPeakPowerHold ma s) := by
  unfold execPeakPowerHold
  dsimp only
  repeat' (first
    | (with_reducible first | assumption | refine powerLimit_only ?_ (hS.mono rfl) | exact RidgesOnly.refl _ | refine OnlyOut.next ?_)
    | (simp only [Only.fields]; with_reducible refine Only.upd ?_ ?_ ?_ ?_ ?_ ?_ ?_ ?_ ?_ ?_ ?_ ?_ ?_ ?_ ?_ ?_ ?_ ?_ ?_ ?_ ?_ ?_)
    | exact .inl (hS.mem rfl)
    | (with_reducible exact .inr rfl)
    | (with_reducible exact .inr ⟨rfl, rfl⟩)
    | split)
theorem execPeerSweep_only {s : State} (hk : Only S b0 s) (hS : Covers S [.col, .links]) : OnlyOut S b0 (execPeerSweep s) := by
  unfold execPeerSweep
  dsimp only
  repeat' (first
    | (with_reducible first | assumption | refine peerLost_only ?_ (hS.mono rfl) | exact RidgesOnly.refl _ | refine OnlyOut.next ?_)
    | (simp only [Only.fields]; with_reducible refine Only.upd ?_ ?_ ?_ ?_ ?_ ?_ ?_ ?_ ?_ ?_ ?_ ?_ ?_ ?_ ?_ ?_ ?_ ?_ ?_ ?_ ?_ ?_)
    | (with_reducible refine Only.foldl (fun _ _ _ => ?_) _ _ ?_) <;> try dsimp only
    | exact .inl (hS.mem rfl)
    | (with_reducible exact .inr rfl)
    | (with_reducible exact .inr ⟨rfl, rfl⟩)
    | split)
theorem execPeerTable_only {q : QId} {cid : W16} {s : State} (hk : Only S b0 s) (hS : Covers S [.hostMemory, .host, .col, .links, .clay]) : OnlyOut S b0 (execPeerTable q cid s) := by
  unfold execPeerTable
  repeat' (first
    | (with_reducible first | assumption | refine applyOverride_only ?_ (hS.mono rfl) | refine completeOut_only ?_ (hS.mono rfl) | refine complete_only ?_ (hS.mono rfl) | refine withCmd_only ?_ (hS.mono rfl) ?_)
    | (with_reducible refine Only.foldl (fun _ _ _ => ?_) _ _ ?_) <;> try dsimp only
    | split
    | refine fun _ => ?_)
theorem execPf0Flr_only {p : Port} {s : State} (hk : Only S b0 s) (hS : Covers S [.host, .security]) : OnlyOut S b0 (execPf0Flr p s) := by
  unfold execPf0Flr
  dsimp only
  repeat' (first
    | (with_reducible first | assumption | refine pinSync_only ?_ (hS.mono rfl) | refine updPort_only ?_ (hS.mono rfl) | refine adminOff_only ?_ (hS.mono rfl) | refine ringOff_only ?_ (hS.mono rfl) | exact RidgesOnly.refl _ | refine OnlyOut.next ?_)
    | (simp only [Only.fields]; with_reducible refine Only.upd ?_ ?_ ?_ ?_ ?_ ?_ ?_ ?_ ?_ ?_ ?_ ?_ ?_ ?_ ?_ ?_ ?_ ?_ ?_ ?_ ?_ ?_)
    | exact .inl (hS.mem rfl)
    | (with_reducible exact .inr rfl)
    | (with_reducible exact .inr ⟨rfl, rfl⟩)
    | split)
theorem execPinHoldTimeout_only {e : RopeNo} {s : State} (hk : Only S b0 s) (hS : Covers S [.host, .jobs, .slots, .ridges, .col, .ropes]) : OnlyOut S b0 (execPinHoldTimeout e s) := by
  unfold execPinHoldTimeout
  dsimp only
  repeat' (first
    | (with_reducible first | assumption | refine ropeAbort_only ?_ (hS.mono rfl) | refine OnlyOut.next ?_)
    | split)
theorem execPllUnlock_only {s : State} (hk : Only S b0 s) (hS : Covers S [.pool, .host, .parts, .jobs, .tiles, .loam, .slots, .ridges, .programming, .localMemory, .path, .arbiters, .col, .ropes, .links, .integrity, .security, .clayBytes, .clay, .thermal, .pmu, .cmc]) : OnlyOut S b0 (execPllUnlock s) := by
  unfold execPllUnlock
  repeat' (first
    | (with_reducible first | assumption | refine boot_only ?_ (hS.mono rfl) | refine logicReset_only ?_ (hS.mono rfl) | refine OnlyOut.next ?_)
    | split)
theorem execPowerCap_only {q : QId} {cid : W16} {s : State} (hk : Only S b0 s) (hS : Covers S [.hostMemory, .host, .col, .pmu]) : OnlyOut S b0 (execPowerCap q cid s) := by
  unfold execPowerCap
  repeat' (first
    | (with_reducible first | assumption | refine powerCapDo_only ?_ (hS.mono rfl) | refine withCmd_only ?_ (hS.mono rfl) ?_)
    | refine fun _ => ?_)
theorem execPowerFrame_only {mv mw : Nat} {dom : List Nat} {s : State} (hk : Only S b0 s) (hS : Covers S [.col, .pmu]) : OnlyOut S b0 (execPowerFrame mv mw dom s) := by
  unfold execPowerFrame
  dsimp only
  repeat' (first
    | (with_reducible first | assumption | refine frameEnd_only ?_ (hS.mono rfl) | refine frameStore_only ?_ (hS.mono rfl) | refine frameRidge_only ?_ (hS.mono rfl) | refine frameBoard_only ?_ (hS.mono rfl) | refine OnlyOut.next ?_)
    | (with_reducible refine Only.foldl (fun _ _ _ => ?_) _ _ ?_) <;> try dsimp only
    | split)
theorem execPrb_only {r : Ridge} {x : Ctx} {w : W128} {s : State} (hk : Only S b0 s) (hS : Covers S [.host, .jobs, .slots, .ridges, .path, .col, .ropes]) : OnlyOut S b0 (execPrb r x w s) := by
  unfold execPrb
  dsimp only
  repeat' (first
    | (with_reducible first | assumption | refine issue_only ?_ (hS.mono rfl) ?_ | refine startProbe_only ?_ (hS.mono rfl) | refine IssAll.intro_next ?_)
    | exact trivial
    | split)
theorem execPre_only {r : Ridge} {x : Ctx} {w : W128} {s : State} (hk : Only S b0 s) (hS : Covers S [.host, .jobs, .slots, .ridges, .path, .col, .ropes]) : OnlyOut S b0 (execPre r x w s) := by
  unfold execPre
  dsimp only
  repeat' (first
    | (with_reducible first | assumption | refine issue_only ?_ (hS.mono rfl) ?_ | refine setSlot_only ?_ (hS.mono rfl) | refine IssAll.intro_next ?_)
    | exact trivial
    | split)
theorem execPreemption_only {part : PartNo} {victim incoming : W32} {s : State} (hk : Only S b0 s) (hS : Covers S [.host, .parts, .jobs, .loam, .slots, .ridges, .col, .ropes]) : OnlyOut S b0 (execPreemption part victim incoming s) := by
  unfold execPreemption
  dsimp only
  repeat' (first
    | (with_reducible first | assumption | refine saveJob_only ?_ (hS.mono rfl) | refine startJob_only ?_ (hS.mono rfl) | refine OnlyOut.next ?_)
    | split)
theorem execPreemptionRestore_only {part : PartNo} {job : W32} {saveOk : Bool} {s : State} (hk : Only S b0 s) (hS : Covers S [.host, .parts, .jobs, .loam, .slots, .ridges, .localMemory, .path, .col, .ropes, .links]) : OnlyOut S b0 (execPreemptionRestore part job saveOk s) := by
  unfold execPreemptionRestore
  dsimp only
  repeat' (first
    | (with_reducible first | assumption | refine settleRidge_only ?_ (hS.mono rfl) | refine endJob_only ?_ (hS.mono rfl) | refine raiseCore_only ?_ (hS.mono rfl) | refine restoreJob_only ?_ (hS.mono rfl) | refine OnlyOut.next ?_)
    | (with_reducible refine Only.foldl (fun _ _ _ => ?_) _ _ ?_) <;> try dsimp only
    | split)
theorem execProbeCompare_only {r : Ridge} {id : Nat} {devs : List AdcDev} {s : State} (hk : Only S b0 s) (hS : Covers S [.jobs, .tiles, .slots, .ridges, .path, .col, .integrity]) : OnlyOut S b0 (execProbeCompare r id devs s) := by
  unfold execProbeCompare
  dsimp only
  repeat' (first
    | (with_reducible first | assumption | refine probeFailed_only ?_ (hS.mono rfl) | refine raise_only ?_ (hS.mono rfl) | refine retire_only ?_ (hS.mono rfl) | refine updPos_only ?_ (hS.mono rfl) | refine OnlyOut.next ?_)
    | split)
theorem execProbeInsert_only {r : Ridge} {p : Pos} {s : State} (hk : Only S b0 s) (hS : Covers S [.slots, .ridges]) : OnlyOut S b0 (execProbeInsert r p s) := by
  unfold execProbeInsert
  dsimp only
  repeat' (first
    | (with_reducible first | assumption | refine startProbe_only ?_ (hS.mono rfl) | refine updPos_only ?_ (hS.mono rfl) | refine OnlyOut.next ?_)
    | split)
theorem execProbePolicy_only {q : QId} {cid : W16} {s : State} (hk : Only S b0 s) (hS : Covers S [.host, .parts, .col, .integrity]) : OnlyOut S b0 (execProbePolicy q cid s) := by
  unfold execProbePolicy
  repeat' (first
    | (with_reducible first | assumption | refine probePolicyDo_only ?_ (hS.mono rfl) | refine withCmd_only ?_ (hS.mono rfl) ?_)
    | refine fun _ => ?_)
theorem execProgLoad_only {q : QId} {cid : W16} {s : State} (hk : Only S b0 s) (hS : Covers S [.host, .parts, .ridges, .col]) : OnlyOut S b0 (execProgLoad q cid s) := by
  unfold execProgLoad
  repeat' (first
    | (with_reducible first | assumption | refine progLoadDo_only ?_ (hS.mono rfl) | refine withOrdered_only ?_ (hS.mono rfl) ?_)
    | refine fun _ => ?_)
theorem execProgPower_only {q : QId} {cid : W16} {s : State} (hk : Only S b0 s) (hS : Covers S [.host, .col, .pmu]) : OnlyOut S b0 (execProgPower q cid s) := by
  unfold execProgPower
  dsimp only
  repeat' (first
    | (with_reducible first | assumption | refine complete_only ?_ (hS.mono rfl) | refine withCmd_only ?_ (hS.mono rfl) ?_ | exact RidgesOnly.refl _)
    | (simp only [Only.fields]; with_reducible refine Only.upd ?_ ?_ ?_ ?_ ?_ ?_ ?_ ?_ ?_ ?_ ?_ ?_ ?_ ?_ ?_ ?_ ?_ ?_ ?_ ?_ ?_ ?_)
    | exact .inl (hS.mem rfl)
    | (with_reducible exact .inr rfl)
    | (with_reducible exact .inr ⟨rfl, rfl⟩)
    | refine fun _ => ?_)
theorem execProgUnload_only {q : QId} {cid : W16} {s : State} (hk : Only S b0 s) (hS : Covers S [.host, .parts, .ridges, .col]) : OnlyOut S b0 (execProgUnload q cid s) := by
  unfold execProgUnload
  repeat' (first
    | (with_reducible first | assumption | refine complete_only ?_ (hS.mono rfl) | refine unloadProg_only ?_ (hS.mono rfl) | refine withCmd_only ?_ (hS.mono rfl) ?_)
    | refine fun _ => ?_)
theorem execProgrammingComplete_only {r : Ridge} {t : TileNo} {fails belayFail : List Nat} {step5 : Bool} {base : List Int} {s : State} (hk : Only S b0 s) (hS : Covers S [.host, .parts, .jobs, .tiles, .slots, .ridges, .col, .ropes, .clay]) : OnlyOut S b0 (execProgrammingComplete r t fails belayFail step5 base s) := by
  unfold execProgrammingComplete
  dsimp only
  repeat' (first
    | (with_reducible first | assumption | refine tileClean_only ?_ (hS.mono rfl) | refine belaysDone_only ?_ (hS.mono rfl) | refine programFailed_only ?_ (hS.mono rfl) | refine wsetProgrammed_only ?_ (hS.mono rfl) | refine serviceRope_only ?_ (hS.mono rfl) | refine updWset_only ?_ (hS.mono rfl) | refine OnlyOut.next ?_)
    | split)
theorem execProgrammingStart_only {s : State} (hk : Only S b0 s) (hS : Covers S [.tiles, .ridges, .programming, .col, .clay]) : OnlyOut S b0 (execProgrammingStart s) := by
  unfold execProgrammingStart
  dsimp only
  repeat' (first
    | (with_reducible first | assumption | refine markDirtyTile_only ?_ (hS.mono rfl) | refine dropOp_only ?_ (hS.mono rfl) | refine updR_only ?_ (fun _ => ?_) | refine OnlyOut.next ?_)
    | split
    | exact ⟨by first | exact .inl (hS.mem rfl) | (with_reducible exact .inr rfl) | (with_reducible exact .inr ⟨rfl, rfl⟩) | (with_reducible exact .inr ⟨rfl, rfl, rfl, rfl⟩) | exact .inr rfl, by first | exact .inl (hS.mem rfl) | (with_reducible exact .inr rfl) | (with_reducible exact .inr ⟨rfl, rfl⟩) | (with_reducible exact .inr ⟨rfl, rfl, rfl, rfl⟩) | exact .inr rfl, by first | exact .inl (hS.mem rfl) | (with_reducible exact .inr rfl) | (with_reducible exact .inr ⟨rfl, rfl⟩) | (with_reducible exact .inr ⟨rfl, rfl, rfl, rfl⟩) | exact .inr rfl, by first | exact .inl (hS.mem rfl) | (with_reducible exact .inr rfl) | (with_reducible exact .inr ⟨rfl, rfl⟩) | (with_reducible exact .inr ⟨rfl, rfl, rfl, rfl⟩) | exact .inr rfl⟩)
theorem execPwrEnFall_only {s : State} (hk : Only S b0 s) (hS : Covers S [.pool, .host, .parts, .jobs, .tiles, .loam, .slots, .ridges, .programming, .localMemory, .path, .arbiters, .col, .ropes, .links, .integrity, .security, .clayBytes, .clay, .thermal, .pmu, .cmc, .pins]) : OnlyOut S b0 (execPwrEnFall s) := by
  unfold execPwrEnFall
  dsimp only
  repeat' (first
    | (with_reducible first | assumption | refine clayFinish_only ?_ (hS.mono rfl) | refine resetLogic_only ?_ (hS.mono rfl) | exact RidgesOnly.refl _ | refine OnlyOut.next ?_)
    | (simp only [Only.fields]; with_reducible refine Only.upd ?_ ?_ ?_ ?_ ?_ ?_ ?_ ?_ ?_ ?_ ?_ ?_ ?_ ?_ ?_ ?_ ?_ ?_ ?_ ?_ ?_ ?_)
    | exact .inl (hS.mem rfl)
    | (with_reducible exact .inr ⟨rfl, rfl⟩)
    | split)
theorem execPwrEnRise_only {s : State} (hk : Only S b0 s) (hS : Covers S [.pool, .host, .parts, .jobs, .tiles, .loam, .slots, .ridges, .programming, .localMemory, .path, .arbiters, .col, .ropes, .links, .integrity, .security, .clayBytes, .clay, .thermal, .pmu, .cmc, .pins]) : OnlyOut S b0 (execPwrEnRise s) := by
  unfold execPwrEnRise
  dsimp only
  repeat' (first
    | (with_reducible first | assumption | refine boot_only ?_ (hS.mono rfl) | refine resetLogic_only ?_ (hS.mono rfl) | exact RidgesOnly.refl _ | refine OnlyOut.next ?_)
    | (simp only [Only.fields]; with_reducible refine Only.upd ?_ ?_ ?_ ?_ ?_ ?_ ?_ ?_ ?_ ?_ ?_ ?_ ?_ ?_ ?_ ?_ ?_ ?_ ?_ ?_ ?_ ?_)
    | exact .inl (hS.mem rfl)
    | (with_reducible exact .inr ⟨rfl, rfl⟩)
    | split)
theorem execQueueCreate_only {q : QId} {cid : W16} {s : State} (hk : Only S b0 s) (hS : Covers S [.hostMemory, .pool, .host, .col]) : OnlyOut S b0 (execQueueCreate q cid s) := by
  unfold execQueueCreate
  repeat' (first
    | (with_reducible first | assumption | refine makeQueue_only ?_ (hS.mono rfl) | refine withCmd_only ?_ (hS.mono rfl) ?_)
    | split
    | refine fun _ => ?_)
theorem execQueueDestroy_only {q : QId} {cid : W16} {s : State} (hk : Only S b0 s) (hS : Covers S [.host, .col]) : OnlyOut S b0 (execQueueDestroy q cid s) := by
  unfold execQueueDestroy
  repeat' (first
    | (with_reducible first | assumption | refine queueDestroyDo_only ?_ (hS.mono rfl) | refine withCmd_only ?_ (hS.mono rfl) ?_)
    | refine fun _ => ?_)
theorem execRailFault_only {rail : Fin 12} {mv : Nat} {s : State} (hk : Only S b0 s) (hS : Covers S [.pool, .host, .parts, .jobs, .tiles, .loam, .slots, .ridges, .programming, .localMemory, .path, .arbiters, .col, .ropes, .links, .integrity, .security, .clayBytes, .clay, .thermal, .pmu, .cmc]) : OnlyOut S b0 (execRailFault rail mv s) := by
  unfold execRailFault
  dsimp only
  repeat' (first
    | (with_reducible first | assumption | refine railReset_only ?_ (hS.mono rfl) | refine inputReset_only ?_ (hS.mono rfl) | refine OnlyOut.next ?_)
    | split)
theorem execRappelDevice_only {p : Port} {f : Fn} {v : W32} {s : State} (hk : Only S b0 s) (hS : Covers S [.host, .col]) : OnlyOut S b0 (execRappelDevice p f v s) := by
  unfold execRappelDevice
  repeat' (first
    | (with_reducible first | assumption | refine rappelWrite_only ?_ (hS.mono rfl) | refine OnlyOut.next ?_))
theorem execRappelPartition_only {p : Port} {f : Fn} {v : W32} {s : State} (hk : Only S b0 s) (hS : Covers S [.host, .col]) : OnlyOut S b0 (execRappelPartition p f v s) := by
  unfold execRappelPartition
  repeat' (first
    | (with_reducible first | assumption | refine rappelWrite_only ?_ (hS.mono rfl) | refine OnlyOut.next ?_))
theorem execRappelQueue_only {p : Port} {f : Fn} {v : W32} {s : State} (hk : Only S b0 s) (hS : Covers S [.host, .col]) : OnlyOut S b0 (execRappelQueue p f v s) := by
  unfold execRappelQueue
  repeat' (first
    | (with_reducible first | assumption | refine rappelWrite_only ?_ (hS.mono rfl) | refine OnlyOut.next ?_))
theorem execRbg_only {r : Ridge} {x : Ctx} {w : W128} {s : State} (hk : Only S b0 s) (hS : Covers S [.host, .jobs, .slots, .ridges, .path, .col, .ropes]) : OnlyOut S b0 (execRbg r x w s) := by
  unfold execRbg
  dsimp only
  repeat' (first
    | (with_reducible first | assumption | refine setRope_only ?_ (hS.mono rfl) | refine issue_only ?_ (hS.mono rfl) ?_ | refine enterRope_only ?_ (hS.mono rfl) | refine IssAll.intro_next ?_)
    | exact trivial
    | split)
theorem execRd_only {n : Alv} {f : Frame} {s : State} (hk : Only S b0 s) (hS : Covers S [.col, .links]) : OnlyOut S b0 (execRd n f s) := by
  unfold execRd
  repeat' (first
    | (with_reducible first | assumption | refine OptAllFst.of_some (arrive_only ?_ (hS.mono rfl)) (by assumption) | refine malformed_only ?_ (hS.mono rfl) | refine reply_only ?_ (hS.mono rfl) | refine OnlyOut.next ?_)
    | split)
theorem execRdata_only {n : Alv} {f : Frame} {s : State} (hk : Only S b0 s) (hS : Covers S [.host, .jobs, .loam, .slots, .ridges, .localMemory, .path, .col, .ropes, .links]) : OnlyOut S b0 (execRdata n f s) := by
  unfold execRdata
  dsimp only
  repeat' (first
    | (with_reducible first | assumption | refine settleRidge_only ?_ (hS.mono rfl) | refine bringLine_only ?_ (hS.mono rfl) | refine OptAllFst.of_some (arrive_only ?_ (hS.mono rfl)) (by assumption) | refine raiseInteg_only ?_ (hS.mono rfl) | refine dropFrame_only ?_ (hS.mono rfl) | refine statusDone_only ?_ (hS.mono rfl) | refine setTag_only ?_ (hS.mono rfl) | refine OnlyOut.next ?_)
    | split)
theorem execRed_only {r : Ridge} {x : Ctx} {w : W128} {s : State} (hk : Only S b0 s) (hS : Covers S [.host, .jobs, .loam, .slots, .ridges, .path, .col, .ropes]) : OnlyOut S b0 (execRed r x w s) := by
  unfold execRed
  repeat' (first
    | (with_reducible first | assumption | refine issue_only ?_ (hS.mono rfl) ?_ | refine dmuWrite_only ?_ (hS.mono rfl))
    | exact trivial
    | split)
theorem execRefclkLoss_only {s : State} (hk : Only S b0 s) (hS : Covers S [.pool, .host, .parts, .jobs, .tiles, .loam, .slots, .ridges, .programming, .localMemory, .path, .arbiters, .col, .ropes, .links, .integrity, .security, .clayBytes, .clay, .thermal, .pmu, .cmc]) : OnlyOut S b0 (execRefclkLoss s) := by
  unfold execRefclkLoss
  dsimp only
  repeat' (first
    | (with_reducible first | assumption | refine logicReset_only ?_ (hS.mono rfl) | exact RidgesOnly.refl _ | refine OnlyOut.next ?_)
    | (simp only [Only.fields]; with_reducible refine Only.upd ?_ ?_ ?_ ?_ ?_ ?_ ?_ ?_ ?_ ?_ ?_ ?_ ?_ ?_ ?_ ?_ ?_ ?_ ?_ ?_ ?_ ?_)
    | exact .inl (hS.mem rfl)
    | (with_reducible exact .inr rfl)
    | (with_reducible exact .inr ⟨rfl, rfl⟩)
    | split)
theorem execRefclkRestored_only {s : State} (hk : Only S b0 s) (hS : Covers S [.host, .tiles, .ridges, .col, .links, .integrity, .security, .clayBytes, .clay, .thermal, .pmu, .cmc]) : OnlyOut S b0 (execRefclkRestored s) := by
  unfold execRefclkRestored
  dsimp only
  repeat' (first
    | (with_reducible first | assumption | refine boot_only ?_ (hS.mono rfl) | exact RidgesOnly.refl _ | refine OnlyOut.next ?_)
    | (simp only [Only.fields]; with_reducible refine Only.upd ?_ ?_ ?_ ?_ ?_ ?_ ?_ ?_ ?_ ?_ ?_ ?_ ?_ ?_ ?_ ?_ ?_ ?_ ?_ ?_ ?_ ?_)
    | exact .inl (hS.mem rfl)
    | (with_reducible exact .inr rfl)
    | (with_reducible exact .inr ⟨rfl, rfl⟩)
    | split)
theorem execRefresh_only {r : Ridge} {p : Pos} {s : State} (hk : Only S b0 s) (hS : Covers S [.host, .parts, .ridges, .programming, .col]) : OnlyOut S b0 (execRefresh r p s) := by
  unfold execRefresh
  dsimp only
  repeat' (first
    | (with_reducible first | assumption | refine exhausted_only ?_ (hS.mono rfl) | refine updR_only ?_ (fun _ => ?_) | exact RidgesOnly.refl _ | refine OnlyOut.next ?_)
    | (simp only [Only.fields]; with_reducible refine Only.upd ?_ ?_ ?_ ?_ ?_ ?_ ?_ ?_ ?_ ?_ ?_ ?_ ?_ ?_ ?_ ?_ ?_ ?_ ?_ ?_ ?_ ?_)
    | exact .inl (hS.mem rfl)
    | (with_reducible exact .inr rfl)
    | (with_reducible exact .inr ⟨rfl, rfl⟩)
    | split
    | exact ⟨by first | exact .inl (hS.mem rfl) | (with_reducible exact .inr rfl) | (with_reducible exact .inr ⟨rfl, rfl⟩) | (with_reducible exact .inr ⟨rfl, rfl, rfl, rfl⟩) | exact .inr rfl, by first | exact .inl (hS.mem rfl) | (with_reducible exact .inr rfl) | (with_reducible exact .inr ⟨rfl, rfl⟩) | (with_reducible exact .inr ⟨rfl, rfl, rfl, rfl⟩) | exact .inr rfl, by first | exact .inl (hS.mem rfl) | (with_reducible exact .inr rfl) | (with_reducible exact .inr ⟨rfl, rfl⟩) | (with_reducible exact .inr ⟨rfl, rfl, rfl, rfl⟩) | exact .inr rfl, by first | exact .inl (hS.mem rfl) | (with_reducible exact .inr rfl) | (with_reducible exact .inr ⟨rfl, rfl⟩) | (with_reducible exact .inr ⟨rfl, rfl, rfl, rfl⟩) | exact .inr rfl⟩)
theorem execRegisterWrite_only {p : Port} {f : Fn} {off : Nat} {v : W32} {s : State} (hk : Only S b0 s) (hS : Covers S [.host]) : OnlyOut S b0 (execRegisterWrite p f off v s) := by
  unfold execRegisterWrite
  repeat' (first
    | (with_reducible first | assumption | refine regWrite_only ?_ (hS.mono rfl) | refine OnlyOut.next ?_)
    | split)
theorem execRemoteSigArrival_only {id : Nat} {s : State} (hk : Only S b0 s) (hS : Covers S [.jobs, .ridges, .path]) : OnlyOut S b0 (execRemoteSigArrival id s) := by
  unfold execRemoteSigArrival
  dsimp only
  repeat' (first
    | (with_reducible first | assumption | refine addCounter_only ?_ (hS.mono rfl) | refine retire_only ?_ (hS.mono rfl) | exact RidgesOnly.refl _ | refine OnlyOut.next ?_)
    | (simp only [Only.fields]; with_reducible refine Only.upd ?_ ?_ ?_ ?_ ?_ ?_ ?_ ?_ ?_ ?_ ?_ ?_ ?_ ?_ ?_ ?_ ?_ ?_ ?_ ?_ ?_ ?_)
    | exact .inl (hS.mem rfl)
    | (with_reducible exact .inr rfl)
    | (with_reducible exact .inr ⟨rfl, rfl⟩)
    | split)
theorem execRen_only {r : Ridge} {x : Ctx} {w : W128} {s : State} (hk : Only S b0 s) (hS : Covers S [.host, .jobs, .slots, .ridges, .path, .col, .ropes]) : OnlyOut S b0 (execRen r x w s) := by
  unfold execRen
  dsimp only
  repeat' (first
    | (with_reducible first | assumption | refine ropeStage_only ?_ (hS.mono rfl) | refine updCtx_only ?_ (hS.mono rfl) | refine issue_only ?_ (hS.mono rfl) ?_ | refine IssAll.intro_next ?_ | refine IssAll.intro_stay ?_)
    | exact trivial
    | split)
theorem execReport_only {n : Alv} {f : Frame} {s : State} (hk : Only S b0 s) (hS : Covers S [.col, .links]) : OnlyOut S b0 (execReport n f s) := by
  unfold execReport
  dsimp only
  repeat' (first
    | (with_reducible first | assumption | refine OptAllFst.of_some (arrive_only ?_ (hS.mono rfl)) (by assumption) | refine dropFrame_only ?_ (hS.mono rfl) | refine peerOcc_only ?_ (hS.mono rfl) | refine OnlyOut.next ?_)
    | split)
theorem execRequestTimeout_only {tag : Fin 4096} {s : State} (hk : Only S b0 s) (hS : Covers S [.jobs, .ridges, .path, .col, .links]) : OnlyOut S b0 (execRequestTimeout tag s) := by
  unfold execRequestTimeout
  repeat' (first
    | (with_reducible first | assumption | refine again_only ?_ (hS.mono rfl) | refine setTag_only ?_ (hS.mono rfl) | refine unreachable_only ?_ (hS.mono rfl) | refine OnlyOut.next ?_)
    | split)
theorem execRetrain_only {n : Alv} {s : State} (hk : Only S b0 s) (hS : Covers S [.col, .links]) : OnlyOut S b0 (execRetrain n s) := by
  unfold execRetrain
  repeat' (first
    | (with_reducible first | assumption | refine startTraining_only ?_ (hS.mono rfl) | refine OnlyOut.next ?_)
    | split)
theorem execRidgeIdlePowerOff_only {r : Ridge} {s : State} (hk : Only S b0 s) (hS : Covers S [.pmu]) : OnlyOut S b0 (execRidgeIdlePowerOff r s) := by
  unfold execRidgeIdlePowerOff
  repeat' (first
    | (with_reducible first | assumption | refine ridgePower_only ?_ (hS.mono rfl) | refine OnlyOut.next ?_)
    | split)
theorem execRidgeMap_only {q : QId} {cid : W16} {s : State} (hk : Only S b0 s) (hS : Covers S [.host, .parts, .col]) : OnlyOut S b0 (execRidgeMap q cid s) := by
  unfold execRidgeMap
  repeat' (first
    | (with_reducible first | assumption | refine updP_only ?_ (hS.mono rfl) | refine complete_only ?_ (hS.mono rfl) | refine withCmd_only ?_ (hS.mono rfl) ?_)
    | refine fun _ => ?_)
theorem execRingPrefetchFill_only {r : Ridge} {k : Fin 4} {s : State} (hk : Only S b0 s) (hS : Covers S [.loam, .ridges, .path, .col, .links]) : OnlyOut S b0 (execRingPrefetchFill r k s) := by
  unfold execRingPrefetchFill
  dsimp only
  repeat' (first
    | (with_reducible first | assumption | refine useFree_only ?_ (hS.mono rfl) | refine askWalks_only ?_ (hS.mono rfl) | refine stLoam_only ?_ (hS.mono rfl) | refine dropOnce_only ?_ (hS.mono rfl) | refine askPieces_only ?_ (hS.mono rfl) | refine updR_only ?_ (fun _ => ?_) | refine OnlyOut.next ?_)
    | split
    | exact ⟨by first | exact .inl (hS.mem rfl) | (with_reducible exact .inr rfl) | (with_reducible exact .inr ⟨rfl, rfl⟩) | (with_reducible exact .inr ⟨rfl, rfl, rfl, rfl⟩) | exact .inr rfl, by first | exact .inl (hS.mem rfl) | (with_reducible exact .inr rfl) | (with_reducible exact .inr ⟨rfl, rfl⟩) | (with_reducible exact .inr ⟨rfl, rfl, rfl, rfl⟩) | exact .inr rfl, by first | exact .inl (hS.mem rfl) | (with_reducible exact .inr rfl) | (with_reducible exact .inr ⟨rfl, rfl⟩) | (with_reducible exact .inr ⟨rfl, rfl, rfl, rfl⟩) | exact .inr rfl, by first | exact .inl (hS.mem rfl) | (with_reducible exact .inr rfl) | (with_reducible exact .inr ⟨rfl, rfl⟩) | (with_reducible exact .inr ⟨rfl, rfl, rfl, rfl⟩) | exact .inr rfl⟩)
theorem execRopeCommitGrant_only {e : RopeNo} {s : State} (hk : Only S b0 s) (hS : Covers S [.hostMemory, .pool, .host, .parts, .jobs, .tiles, .loam, .slots, .ridges, .programming, .localMemory, .path, .arbiters, .col, .ropes, .links, .integrity, .security, .clay, .thermal, .pmu, .cmc]) : OnlyOut S b0 (execRopeCommitGrant e s) := by
  unfold execRopeCommitGrant
  repeat' (first
    | (with_reducible first | assumption | refine colGrant_only ?_ (hS.mono rfl) | refine OnlyOut.next ?_)
    | split)
theorem execRopeTimeout_only {e : RopeNo} {s : State} (hk : Only S b0 s) (hS : Covers S [.host, .jobs, .slots, .ridges, .col, .ropes]) : OnlyOut S b0 (execRopeTimeout e s) := by
  unfold execRopeTimeout
  dsimp only
  repeat' (first
    | (with_reducible first | assumption | refine ropeAbort_only ?_ (hS.mono rfl) | refine OnlyOut.next ?_)
    | split)
theorem execRouteRecompute_only {s : State} (hk : Only S b0 s) (hS : Covers S [.col, .links]) : OnlyOut S b0 (execRouteRecompute s) := by
  unfold execRouteRecompute
  repeat' (first
    | (with_reducible first | assumption | refine recompute_only ?_ (hS.mono rfl) | refine OnlyOut.next ?_)
    | (with_reducible refine Only.foldl (fun _ _ _ => ?_) _ _ ?_) <;> try dsimp only
    | split)
theorem execRouteSet_only {q : QId} {cid : W16} {s : State} (hk : Only S b0 s) (hS : Covers S [.host, .col, .links, .pmu]) : OnlyOut S b0 (execRouteSet q cid s) := by
  unfold execRouteSet
  repeat' (first
    | (with_reducible first | assumption | refine routeSetDo_only ?_ (hS.mono rfl) | refine withCmd_only ?_ (hS.mono rfl) ?_)
    | refine fun _ => ?_)
theorem execRsp_only {n : Alv} {f : Frame} {s : State} (hk : Only S b0 s) (hS : Covers S [.host, .jobs, .loam, .slots, .ridges, .localMemory, .path, .col, .ropes, .links]) : OnlyOut S b0 (execRsp n f s) := by
  unfold execRsp
  repeat' (first
    | (with_reducible first | assumption | refine OptAllFst.of_some (arrive_only ?_ (hS.mono rfl)) (by assumption) | refine dropFrame_only ?_ (hS.mono rfl) | refine statusDone_only ?_ (hS.mono rfl) | refine setTag_only ?_ (hS.mono rfl) | refine OnlyOut.next ?_)
    | split)
theorem execSig_only {r : Ridge} {x : Ctx} {w : W128} {s : State} (hk : Only S b0 s) (hS : Covers S [.host, .jobs, .slots, .ridges, .path, .col, .ropes]) : OnlyOut S b0 (execSig r x w s) := by
  unfold execSig
  dsimp only
  repeat' (first
    | (with_reducible first | assumption | refine issue_only ?_ (hS.mono rfl) ?_ | refine issueWin_only ?_ (hS.mono rfl) | refine StgAll.gone (stageAs_only ?_ (hS.mono rfl)) (by assumption) | refine StgAll.staged (stageAs_only ?_ (hS.mono rfl)) (by assumption) | refine sendSig_only ?_ (hS.mono rfl) | refine updR_only ?_ (fun _ => ?_) | refine IssAll.intro_next ?_ | refine IssAll.intro_stay ?_)
    | exact trivial
    | split
    | exact ⟨by first | exact .inl (hS.mem rfl) | (with_reducible exact .inr rfl) | (with_reducible exact .inr ⟨rfl, rfl⟩) | (with_reducible exact .inr ⟨rfl, rfl, rfl, rfl⟩) | exact .inr rfl, by first | exact .inl (hS.mem rfl) | (with_reducible exact .inr rfl) | (with_reducible exact .inr ⟨rfl, rfl⟩) | (with_reducible exact .inr ⟨rfl, rfl, rfl, rfl⟩) | exact .inr rfl, by first | exact .inl (hS.mem rfl) | (with_reducible exact .inr rfl) | (with_reducible exact .inr ⟨rfl, rfl⟩) | (with_reducible exact .inr ⟨rfl, rfl, rfl, rfl⟩) | exact .inr rfl, by first | exact .inl (hS.mem rfl) | (with_reducible exact .inr rfl) | (with_reducible exact .inr ⟨rfl, rfl⟩) | (with_reducible exact .inr ⟨rfl, rfl, rfl, rfl⟩) | exact .inr rfl⟩)
theorem execSpl_only {r : Ridge} {x : Ctx} {w : W128} {s : State} (hk : Only S b0 s) (hS : Covers S [.host, .jobs, .loam, .slots, .ridges, .localMemory, .path, .col, .ropes, .links]) : OnlyOut S b0 (execSpl r x w s) := by
  unfold execSpl
  dsimp only
  repeat' (first
    | (with_reducible first | assumption | refine issue_only ?_ (hS.mono rfl) ?_ | refine markDirty_only ?_ (hS.mono rfl) | refine splGo_only ?_ (hS.mono rfl) | refine DvaAll.wait (ridgePlaces_only ?_ (hS.mono rfl)) (by assumption) | refine IssAll.intro_stay ?_)
    | exact trivial
    | split)
theorem execSqDoorbell_only {p : Port} {f : Fn} {q : Fin 1024} {v : W32} {s : State} (hk : Only S b0 s) (hS : Covers S [.host, .col]) : OnlyOut S b0 (execSqDoorbell p f q v s) := by
  unfold execSqDoorbell
  repeat' (first
    | (with_reducible first | assumption | refine ringTail_only ?_ (hS.mono rfl) | refine OnlyOut.next ?_)
    | split)
theorem execSrv_only {r : Ridge} {x : Ctx} {w : W128} {s : State} (hk : Only S b0 s) (hS : Covers S [.host, .jobs, .tiles, .slots, .ridges, .path, .col, .ropes]) : OnlyOut S b0 (execSrv r x w s) := by
  unfold execSrv
  dsimp only
  repeat' (first
    | (with_reducible first | assumption | refine startSurvey_only ?_ (hS.mono rfl) | refine issue_only ?_ (hS.mono rfl) ?_ | refine IssAll.intro_next ?_)
    | exact trivial
    | split)
theorem execStartInterface_only {p : Port} {sid : Nat} {n : Fin 16} {nonce : W256} {s : State} (hk : Only S b0 s) (hS : Covers S [.parts, .security]) : OnlyOut S b0 (execStartInterface p sid n nonce s) := by
  unfold execStartInterface
  repeat' (first
    | (with_reducible first | assumption | refine answer_only ?_ (hS.mono rfl) | refine updP_only ?_ (hS.mono rfl) | refine refuse_only ?_ (hS.mono rfl) | refine tdiReq_only ?_ (hS.mono rfl) ?_)
    | split
    | refine fun _ => ?_)
theorem execStopInterface_only {p : Port} {sid : Nat} {n : Fin 16} {s : State} (hk : Only S b0 s) (hS : Covers S [.parts, .col, .security]) : OnlyOut S b0 (execStopInterface p sid n s) := by
  unfold execStopInterface
  repeat' (first
    | (with_reducible first | assumption | refine answer_only ?_ (hS.mono rfl) | refine scrubStart_only ?_ (hS.mono rfl) | refine refuse_only ?_ (hS.mono rfl) | refine tdiReq_only ?_ (hS.mono rfl) ?_)
    | split
    | refine fun _ => ?_)
theorem execSurveyAgeTimer_only {r : Ridge} {t : TileNo} {s : State} (hk : Only S b0 s) (hS : Covers S [.tiles]) : OnlyOut S b0 (execSurveyAgeTimer r t s) := by
  unfold execSurveyAgeTimer
  dsimp only
  repeat' (first
    | (with_reducible first | assumption | refine updTile_only ?_ (hS.mono rfl) | refine requestSurvey_only ?_ (hS.mono rfl) | refine OnlyOut.next ?_)
    | split)
theorem execSurveyComplete_only {r : Ridge} {t : TileNo} {m : List Int} {s : State} (hk : Only S b0 s) (hS : Covers S [.host, .parts, .jobs, .tiles, .ridges, .path, .col, .thermal]) : OnlyOut S b0 (execSurveyComplete r t m s) := by
  unfold execSurveyComplete
  dsimp only
  repeat' (first
    | (with_reducible first | assumption | refine wsetSurveyed_only ?_ (hS.mono rfl) | refine tileEvent_only ?_ (hS.mono rfl) | refine endSurvey_only ?_ (hS.mono rfl) | refine probeTile_only ?_ (hS.mono rfl) | refine surveyTaken_only ?_ (hS.mono rfl) | refine driftCheck_only ?_ (hS.mono rfl) | refine calibrateRidge_only ?_ (hS.mono rfl) | refine OnlyOut.next ?_)
    | split)
theorem execSurveyIssue_only {r : Ridge} {t : TileNo} {s : State} (hk : Only S b0 s) (hS : Covers S [.tiles, .ridges]) : OnlyOut S b0 (execSurveyIssue r t s) := by
  unfold execSurveyIssue
  dsimp only
  repeat' (first
    | (with_reducible first | assumption | refine startSurvey_only ?_ (hS.mono rfl) | refine OnlyOut.next ?_)
    | split)
theorem execSurveyMvmCount_only {r : Ridge} {t : TileNo} {s : State} (hk : Only S b0 s) (hS : Covers S [.tiles]) : OnlyOut S b0 (execSurveyMvmCount r t s) := by
  unfold execSurveyMvmCount
  repeat' (first
    | (with_reducible first | assumption | refine requestSurvey_only ?_ (hS.mono rfl) | refine OnlyOut.next ?_)
    | split)
theorem execSurveyPolicy_only {q : QId} {cid : W16} {s : State} (hk : Only S b0 s) (hS : Covers S [.host, .parts, .col, .integrity]) : OnlyOut S b0 (execSurveyPolicy q cid s) := by
  unfold execSurveyPolicy
  repeat' (first
    | (with_reducible first | assumption | refine surveyPolicyDo_only ?_ (hS.mono rfl) | refine withCmd_only ?_ (hS.mono rfl) ?_)
    | refine fun _ => ?_)
theorem execSurveySpanTimeout_only {r : Ridge} {t : TileNo} {s : State} (hk : Only S b0 s) (hS : Covers S [.jobs, .tiles, .ridges, .path]) : OnlyOut S b0 (execSurveySpanTimeout r t s) := by
  unfold execSurveySpanTimeout
  repeat' (first
    | (with_reducible first | assumption | refine endSurvey_only ?_ (hS.mono rfl) | refine requestSurvey_only ?_ (hS.mono rfl) | refine OnlyOut.next ?_)
    | split)
theorem execSvnRaise_only {s : State} (hk : Only S b0 s) (hS : Covers S [.col, .security]) : OnlyOut S b0 (execSvnRaise s) := by
  unfold execSvnRaise
  dsimp only
  repeat' (first
    | (with_reducible first | assumption | refine securityEvent_only ?_ (hS.mono rfl) | exact RidgesOnly.refl _ | refine OnlyOut.next ?_)
    | (simp only [Only.fields]; with_reducible refine Only.upd ?_ ?_ ?_ ?_ ?_ ?_ ?_ ?_ ?_ ?_ ?_ ?_ ?_ ?_ ?_ ?_ ?_ ?_ ?_ ?_ ?_ ?_)
    | exact .inl (hS.mem rfl)
    | (with_reducible exact .inr rfl)
    | (with_reducible exact .inr ⟨rfl, rfl⟩)
    | split)
theorem execSysRstNAssert_only {s : State} (hk : Only S b0 s) (hS : Covers S [.pool, .host, .parts, .jobs, .tiles, .loam, .slots, .ridges, .programming, .localMemory, .path, .arbiters, .col, .ropes, .links, .integrity, .security, .clayBytes, .clay, .thermal, .pmu, .cmc, .pins]) : OnlyOut S b0 (execSysRstNAssert s) := by
  unfold execSysRstNAssert
  dsimp only
  repeat' (first
    | (with_reducible first | assumption | refine logicReset_only ?_ (hS.mono rfl) | exact RidgesOnly.refl _ | refine OnlyOut.next ?_)
    | (simp only [Only.fields]; with_reducible refine Only.upd ?_ ?_ ?_ ?_ ?_ ?_ ?_ ?_ ?_ ?_ ?_ ?_ ?_ ?_ ?_ ?_ ?_ ?_ ?_ ?_ ?_ ?_)
    | exact .inl (hS.mem rfl)
    | (with_reducible exact .inr ⟨rfl, rfl⟩)
    | split)
theorem execSysRstNRelease_only {ids : BitVec 12} {dbg test slotAOk slotBOk : Bool} {s : State} (hk : Only S b0 s) (hS : Covers S [.host, .tiles, .ridges, .col, .links, .integrity, .security, .clayBytes, .clay, .thermal, .pmu, .cmc, .pins]) : OnlyOut S b0 (execSysRstNRelease ids dbg test slotAOk slotBOk s) := by
  unfold execSysRstNRelease
  dsimp only
  repeat' (first
    | (with_reducible first | assumption | refine boot_only ?_ (hS.mono rfl) | exact RidgesOnly.refl _ | refine OnlyOut.next ?_)
    | (simp only [Only.fields]; with_reducible refine Only.upd ?_ ?_ ?_ ?_ ?_ ?_ ?_ ?_ ?_ ?_ ?_ ?_ ?_ ?_ ?_ ?_ ?_ ?_ ?_ ?_ ?_ ?_)
    | exact .inl (hS.mem rfl)
    | (with_reducible exact .inr rfl)
    | (with_reducible exact .inr ⟨rfl, rfl⟩)
    | split)
theorem execTestGraceExpiry_only {r : Ridge} {s : State} (hk : Only S b0 s) (hS : Covers S [.host, .jobs, .tiles, .slots, .ridges, .path, .col, .ropes, .pmu]) : OnlyOut S b0 (execTestGraceExpiry r s) := by
  unfold execTestGraceExpiry
  dsimp only
  repeat' (first
    | (with_reducible first | assumption | refine preemptForTest_only ?_ (hS.mono rfl) | refine startDue_only ?_ (hS.mono rfl) | refine testEvent_only ?_ (hS.mono rfl) | refine OnlyOut.next ?_)
    | split)
theorem execTestRun_only {q : QId} {cid : W16} {s : State} (hk : Only S b0 s) (hS : Covers S [.host, .jobs, .tiles, .slots, .ridges, .path, .col, .ropes, .pmu]) : OnlyOut S b0 (execTestRun q cid s) := by
  unfold execTestRun
  repeat' (first
    | (with_reducible first | assumption | refine testRunDo_only ?_ (hS.mono rfl) | refine withCmd_only ?_ (hS.mono rfl) ?_)
    | refine fun _ => ?_)
theorem execThermalInlet_only {q : QId} {cid : W16} {s : State} (hk : Only S b0 s) (hS : Covers S [.host, .col, .thermal]) : OnlyOut S b0 (execThermalInlet q cid s) := by
  unfold execThermalInlet
  repeat' (first
    | (with_reducible first | assumption | refine thermalInletDo_only ?_ (hS.mono rfl) | refine withCmd_only ?_ (hS.mono rfl) ?_)
    | refine fun _ => ?_)
theorem execThermalModelStep_only {s : State} (hk : Only S b0 s) (hS : Covers S [.host, .tiles, .col, .thermal, .pmu]) : OnlyOut S b0 (execThermalModelStep s) := by
  unfold execThermalModelStep
  dsimp only
  repeat' (first
    | (with_reducible first | assumption | refine throttleRidge_only ?_ (hS.mono rfl) | refine surveyTemps_only ?_ (hS.mono rfl) | refine estimated_only ?_ (hS.mono rfl) | refine hotStep_only ?_ (hS.mono rfl) | refine applyTrims_only ?_ (hS.mono rfl) | refine dvfsStep_only ?_ (hS.mono rfl) | refine critRidge_only ?_ (hS.mono rfl) | refine OnlyOut.next ?_)
    | (with_reducible refine Only.foldl (fun _ _ _ => ?_) _ _ ?_) <;> try dsimp only
    | split)
theorem execThermalPolicy_only {q : QId} {cid : W16} {s : State} (hk : Only S b0 s) (hS : Covers S [.host, .col, .thermal]) : OnlyOut S b0 (execThermalPolicy q cid s) := by
  unfold execThermalPolicy
  dsimp only
  repeat' (first
    | (with_reducible first | assumption | refine complete_only ?_ (hS.mono rfl) | refine withCmd_only ?_ (hS.mono rfl) ?_ | exact RidgesOnly.refl _)
    | (simp only [Only.fields]; with_reducible refine Only.upd ?_ ?_ ?_ ?_ ?_ ?_ ?_ ?_ ?_ ?_ ?_ ?_ ?_ ?_ ?_ ?_ ?_ ?_ ?_ ?_ ?_ ?_)
    | exact .inl (hS.mem rfl)
    | (with_reducible exact .inr rfl)
    | (with_reducible exact .inr ⟨rfl, rfl⟩)
    | refine fun _ => ?_)
theorem execTileSwap_only {r : Ridge} {p : Pos} {t : TileNo} {s : State} (hk : Only S b0 s) (hS : Covers S [.host, .jobs, .slots, .ridges, .col, .ropes]) : OnlyOut S b0 (execTileSwap r p t s) := by
  unfold execTileSwap
  dsimp only
  repeat' (first
    | (with_reducible first | assumption | refine swapTables_only ?_ (hS.mono rfl) | refine serviceRope_only ?_ (hS.mono rfl) | refine OnlyOut.next ?_)
    | split)
theorem execTmap_only {r : Ridge} {x : Ctx} {w : W128} {s : State} (hk : Only S b0 s) (hS : Covers S [.host, .jobs, .slots, .ridges, .path, .col, .ropes]) : OnlyOut S b0 (execTmap r x w s) := by
  unfold execTmap
  repeat' (first
    | (with_reducible first | assumption | refine issue_only ?_ (hS.mono rfl) ?_ | refine StgAll.gone (stageAs_only ?_ (hS.mono rfl)) (by assumption) | refine StgAll.staged (stageAs_only ?_ (hS.mono rfl)) (by assumption) | refine IssAll.intro_next ?_ | refine IssAll.intro_stay ?_)
    | exact trivial
    | split)
theorem execTrainingFail_only {n : Alv} {s : State} (hk : Only S b0 s) (hS : Covers S [.col, .links]) : OnlyOut S b0 (execTrainingFail n s) := by
  unfold execTrainingFail
  dsimp only
  repeat' (first
    | (with_reducible first | assumption | refine setLink_only ?_ (hS.mono rfl) | refine goDown_only ?_ (hS.mono rfl) | refine OnlyOut.next ?_)
    | split)
theorem execTunnelDown_only {p : Port} {s : State} (hk : Only S b0 s) (hS : Covers S [.host, .parts, .col, .security]) : OnlyOut S b0 (execTunnelDown p s) := by
  unfold execTunnelDown
  repeat' (first
    | (with_reducible first | assumption | refine tunnelDown_only ?_ (hS.mono rfl) | refine OnlyOut.next ?_)
    | split)
theorem execTunnelUp_only {p : Port} {s : State} (hk : Only S b0 s) (hS : Covers S [.host]) : OnlyOut S b0 (execTunnelUp p s) := by
  unfold execTunnelUp
  repeat' (first
    | (with_reducible first | assumption | refine setAttn_only ?_ (hS.mono rfl) | refine updPort_only ?_ (hS.mono rfl) | refine OnlyOut.next ?_)
    | split)
theorem execVfFlr_only {p : Port} {n : Fin 16} {s : State} (hk : Only S b0 s) (hS : Covers S [.host, .parts, .col, .security]) : OnlyOut S b0 (execVfFlr p n s) := by
  unfold execVfFlr
  repeat' (first
    | (with_reducible first | assumption | refine dropIde_only ?_ (hS.mono rfl) | refine pinSync_only ?_ (hS.mono rfl) | refine tdiError_only ?_ (hS.mono rfl) | refine startRap_only ?_ (hS.mono rfl) | refine ringOff_only ?_ (hS.mono rfl) | refine OnlyOut.next ?_)
    | split)
theorem execVld_only {r : Ridge} {x : Ctx} {w : W128} {s : State} (hk : Only S b0 s) (hS : Covers S [.host, .jobs, .slots, .ridges, .path, .col, .ropes]) : OnlyOut S b0 (execVld r x w s) := by
  unfold execVld
  dsimp only
  repeat' (first
    | (with_reducible first | assumption | refine mmuFault_only ?_ (hS.mono rfl) | refine issue_only ?_ (hS.mono rfl) ?_ | refine issueWin_only ?_ (hS.mono rfl) | refine updR_only ?_ (fun _ => ?_) | refine IssAll.intro_stay ?_)
    | exact trivial
    | split
    | exact ⟨by first | exact .inl (hS.mem rfl) | (with_reducible exact .inr rfl) | (with_reducible exact .inr ⟨rfl, rfl⟩) | (with_reducible exact .inr ⟨rfl, rfl, rfl, rfl⟩) | exact .inr rfl, by first | exact .inl (hS.mem rfl) | (with_reducible exact .inr rfl) | (with_reducible exact .inr ⟨rfl, rfl⟩) | (with_reducible exact .inr ⟨rfl, rfl, rfl, rfl⟩) | exact .inr rfl, by first | exact .inl (hS.mem rfl) | (with_reducible exact .inr rfl) | (with_reducible exact .inr ⟨rfl, rfl⟩) | (with_reducible exact .inr ⟨rfl, rfl, rfl, rfl⟩) | exact .inr rfl, by first | exact .inl (hS.mem rfl) | (with_reducible exact .inr rfl) | (with_reducible exact .inr ⟨rfl, rfl⟩) | (with_reducible exact .inr ⟨rfl, rfl, rfl, rfl⟩) | exact .inr rfl⟩)
theorem execVldComplete_only {r : Ridge} {id : Nat} {s : State} (hk : Only S b0 s) (hS : Covers S [.host, .jobs, .loam, .slots, .ridges, .path, .col, .ropes]) : OnlyOut S b0 (execVldComplete r id s) := by
  unfold execVldComplete
  repeat' (first
    | (with_reducible first | assumption | refine execFault_only ?_ (hS.mono rfl) | refine vldEffect_only ?_ (hS.mono rfl) | refine retire_only ?_ (hS.mono rfl) | refine OnlyOut.next ?_)
    | split)
theorem execVop_only {r : Ridge} {x : Ctx} {w : W128} {s : State} (hk : Only S b0 s) (hS : Covers S [.host, .jobs, .loam, .slots, .ridges, .path, .col, .ropes]) : OnlyOut S b0 (execVop r x w s) := by
  unfold execVop
  dsimp only
  repeat' (first
    | (with_reducible first | assumption | refine issue_only ?_ (hS.mono rfl) ?_ | refine dmuWrite_only ?_ (hS.mono rfl))
    | exact trivial
    | split)
theorem execVprogFault_only {r : Ridge} {mv : Nat} {s : State} (hk : Only S b0 s) (hS : Covers S [.ridges, .programming, .col]) : OnlyOut S b0 (execVprogFault r mv s) := by
  unfold execVprogFault
  repeat' (first
    | (with_reducible first | assumption | refine stopEngine_only ?_ (hS.mono rfl) | refine powerEvent_only ?_ (hS.mono rfl) | refine OnlyOut.next ?_)
    | split)
theorem execWait_only {r : Ridge} {x : Ctx} {w : W128} {s : State} (hk : Only S b0 s) (hS : Covers S [.host, .jobs, .slots, .ridges, .path, .col, .ropes]) : OnlyOut S b0 (execWait r x w s) := by
  unfold execWait
  repeat' (first
    | (with_reducible first | assumption | refine waitTake_only ?_ (hS.mono rfl) | refine updCtx_only ?_ (hS.mono rfl) | refine issue_only ?_ (hS.mono rfl) ?_ | refine IssAll.intro_next ?_)
    | split)
theorem execWaitSatisfied_only {r : Ridge} {x : Ctx} {s : State} (hk : Only S b0 s) (hS : Covers S [.ridges]) : OnlyOut S b0 (execWaitSatisfied r x s) := by
  unfold execWaitSatisfied
  repeat' (first
    | (with_reducible first | assumption | refine waitTake_only ?_ (hS.mono rfl) | refine updCtx_only ?_ (hS.mono rfl) | refine OnlyOut.next ?_)
    | split)
theorem execWindowMarker_only {kind : Fin 4} {s : State} (hk : Only S b0 s) (hS : Covers S [.col]) : OnlyOut S b0 (execWindowMarker kind s) := by
  unfold execWindowMarker
  dsimp only
  repeat' (first
    | (with_reducible first | assumption | refine setWin_only ?_ (hS.mono rfl) | refine enq_only ?_ (hS.mono rfl) | refine OnlyOut.next ?_)
    | split)
theorem execWindowPolicy_only {q : QId} {cid : W16} {s : State} (hk : Only S b0 s) (hS : Covers S [.host, .col]) : OnlyOut S b0 (execWindowPolicy q cid s) := by
  unfold execWindowPolicy
  repeat' (first
    | (with_reducible first | assumption | refine complete_only ?_ (hS.mono rfl) | refine withCmd_only ?_ (hS.mono rfl) ?_ | refine setWindows_only ?_ (hS.mono rfl))
    | refine fun _ => ?_)
theorem execWr_only {n : Alv} {f : Frame} {s : State} (hk : Only S b0 s) (hS : Covers S [.localMemory, .col, .links]) : OnlyOut S b0 (execWr n f s) := by
  unfold execWr
  dsimp only
  repeat' (first
    | (with_reducible first | assumption | refine cduEvents_only ?_ (hS.mono rfl) | refine OptAllFst.of_some (arrive_only ?_ (hS.mono rfl)) (by assumption) | refine dramWrite_only ?_ (hS.mono rfl) | refine malformed_only ?_ (hS.mono rfl) | refine reply_only ?_ (hS.mono rfl) | refine OnlyOut.next ?_)
    | split)
theorem execWsetLoad_only {q : QId} {cid : W16} {s : State} (hk : Only S b0 s) (hS : Covers S [.host, .parts, .jobs, .tiles, .slots, .ridges, .programming, .path, .col, .ropes, .clay]) : OnlyOut S b0 (execWsetLoad q cid s) := by
  unfold execWsetLoad
  repeat' (first
    | (with_reducible first | assumption | refine loadStart_only ?_ (hS.mono rfl) | refine wsetSettle_only ?_ (hS.mono rfl) | refine withOrdered_only ?_ (hS.mono rfl) ?_)
    | split
    | refine fun _ => ?_)
theorem execWsetUnload_only {q : QId} {cid : W16} {s : State} (hk : Only S b0 s) (hS : Covers S [.host, .parts, .jobs, .tiles, .slots, .ridges, .programming, .path, .col, .clay]) : OnlyOut S b0 (execWsetUnload q cid s) := by
  unfold execWsetUnload
  repeat' (first
    | (with_reducible first | assumption | refine wsetUnloadDo_only ?_ (hS.mono rfl) | refine withCmd_only ?_ (hS.mono rfl) ?_)
    | refine fun _ => ?_)
theorem execWsetVerify_only {q : QId} {cid : W16} {out : List (Nat × Nat × Nat)} {s : State} (hk : Only S b0 s) (hS : Covers S [.hostMemory, .host, .col]) : OnlyOut S b0 (execWsetVerify q cid out s) := by
  unfold execWsetVerify
  repeat' (first
    | (with_reducible first | assumption | refine withCmd_only ?_ (hS.mono rfl) ?_ | refine wsetVerifyDo_only ?_ (hS.mono rfl))
    | refine fun _ => ?_)

end Sys2Proof.Machine
end

