-- ==== Sys2Proof/WellFormed.lean ====
section
/-!
DEFINITION. Which commands are well formed: every operand lies in the range its rule gives it, a ridge instruction carries its row's OPCODE (R186, R189), and a frame its row's TYPE (R336, R337). exec is total on ill-formed commands too.
-/

namespace Sys2Proof

/-- A submission ring's number is below 1,024 (R305). -/
def ringOk (q : QId) : Bool := match q with
  | .admin _ => true
  | .io n => decide (n < 1024)

/-- A deviation names a position, a phase, a sub-group, a row group and a data pair that exist (R62, R73, R76). -/
def devOk (d : AdcDev) : Bool := decide (d.pos < 32) && decide (d.phase < 2) && decide (d.sub < 4) && decide (d.group < 4) && decide (d.pair < 512)

/-- The header fields of a frame fit their widths, its payload is LEN grains (none for an RD), and its TYPE is the row's (R336). -/
def frameOk (ty : Nat) (f : Frame) : Bool :=
  f.ty = ty && decide (f.dst < 4096) && decide (f.src < 4096) && decide (f.spart < 16) && decide (f.tag < 4096) && decide (f.hops < 16) && decide (f.len < 32) &&
    decide (f.op < 16) && decide (f.off64 < 2 ^ 29) && decide (f.payload.length = (if ty = 2 then 0 else 16 * f.len))

/-- The fields of a codeword fit their widths (R333); the FEC corrects at most 15 symbols (R332). -/
def codewordOk (c : Codeword) : Bool := decide (c.corrected ≤ 15) && decide (c.seq < 256) && decide (c.ack < 256) && decide (c.ctl < 16)

/-- The OPCODE of a ridge instruction's row (R189); none for the other commands. -/
def rowOpcode (i : Instr) : Option Nat :=
  match i with
  | .nop _ _ _ => some 0x00
  | .halt _ _ _ => some 0x01
  | .vld _ _ _ => some 0x08
  | .mvm _ _ _ => some 0x10
  | .mvms _ _ _ => some 0x11
  | .pre _ _ _ => some 0x18
  | .drn _ _ _ => some 0x19
  | .spl _ _ _ => some 0x1A
  | .fil _ _ _ => some 0x1B
  | .aad _ _ _ => some 0x1C
  | .dmm _ _ _ => some 0x20
  | .vop _ _ _ => some 0x21
  | .red _ _ _ => some 0x22
  | .dmaCopy _ _ _ | .dmaPrefetch _ _ _ | .dmaInval _ _ _ | .dmaFill _ _ _ => some 0x28
  | .wait _ _ _ => some 0x30
  | .sig _ _ _ => some 0x31
  | .crn _ _ _ => some 0x32
  | .rbg _ _ _ => some 0x34
  | .ren _ _ _ => some 0x35
  | .prb _ _ _ => some 0x38
  | .srv _ _ _ => some 0x39
  | .tmap _ _ _ => some 0x3A
  | _ => none
/-- The instruction word that a command carries. -/
def rowWord (i : Instr) : Option W128 :=
  match i with
  | .nop _ _ w | .halt _ _ w | .vld _ _ w | .mvm _ _ w | .mvms _ _ w | .pre _ _ w | .drn _ _ w | .spl _ _ w | .fil _ _ w | .aad _ _ w
  | .dmm _ _ w | .vop _ _ w | .red _ _ w | .dmaCopy _ _ w | .dmaPrefetch _ _ w | .dmaInval _ _ w | .dmaFill _ _ w | .wait _ _ w
  | .sig _ _ w | .crn _ _ w | .rbg _ _ w | .ren _ _ w | .prb _ _ w | .srv _ _ w | .tmap _ _ w => some w
  | _ => none
/-- A ridge instruction's word has its row's OPCODE in [127:120]. -/
def opcodeOk (i : Instr) : Bool := match rowWord i with
  | some w => rowOpcode i = some (bits w 127 120)
  | none => true

/-- The ring of an Ewesy command. -/
def cmdRing (i : Instr) : Option QId :=
  match i with
  | .identify q _ | .getCaps q _ | .progPower q _ | .surveyPolicy q _ | .thermalPolicy q _ | .arbWeight q _ | .arbLimit q _ | .arbStatus q _
  | .windowPolicy q _ | .probePolicy q _ | .partBind q _ | .ridgeMap q _ | .getFeature q _ | .partCreate q _ | .partDestroy q _ | .partQuery q _
  | .queueCreate q _ | .queueDestroy q _ | .wsetLoad q _ | .wsetUnload q _ | .wsetVerify q _ _ | .progLoad q _ | .progUnload q _ | .jobSubmit q _
  | .jobResume q _ | .jobCairnExport q _ | .calibrate q _ | .testRun q _ | .abort q _ | .attest q _ | .clayRead q _ | .clayWrite q _
  | .clayUnlock q _ | .clayProtect q _ | .fwStage q _ | .fwCommit q _ | .eventConfig q _ | .logExport q _ | .peerTable q _ | .routeSet q _
  | .powerCap q _ | .thermalInlet q _ | .commandFetch q => some q
  | _ => none
def cmdRingOk (i : Instr) : Bool := match cmdRing i with
  | some q => ringOk q
  | none => true

/-- A converter: row group, ADC, range (R75). -/
def converterOk (c : Nat × Nat × Nat) : Bool := decide (c.1 < 4) && decide (c.2.1 < 64) && decide (c.2.2 < 4)

/-- The operands that the types of Instr do not already bound. -/
def operandsOk (i : Instr) : Bool :=
  match i with
  | .contributionCommit _ _ d | .probeCompare _ _ d => d.all devOk
  | .drainComplete _ _ ue => ue.all (fun k => decide (k < 512))
  | .moraineFill _ pa bad => decide (pa < 94 * 2 ^ 30) && decide (bad ≤ 2)
  | .surveyComplete _ _ m => m.length = 8
  | .programmingComplete _ _ fails belay _ base => fails.all (fun k => decide (k < 1024)) && belay.all (fun k => decide (k < 1024)) && base.length = 8
  | .converterCalibration _ bad => bad.all converterOk
  | .powerFrame _ _ dom => dom.length = 212
  | .fieldTestComplete _ _ trim bad _ => trim.all converterOk && bad.all (fun b => decide (b.1 < 32) && decide (b.2.2.1 ≤ 512) && decide (b.2.2.2.1 < 512))
  | .wsetVerify _ _ out => out.all (fun o => decide (o.1 < 48) && decide (o.2.1 < 32))
  | .registerWrite _ _ off _ => off % 4 = 0
  | .getCertificate _ slot off len => decide (slot < 16) && decide (off < 65536) && decide (len < 65536)
  | .challenge _ slot _ => decide (slot < 16)
  | .getMeasurements _ idx _ _ => decide (idx < 256)
  | .keyExchange _ sid pub => decide (sid < 65536) && pub.length = 64
  | .finish _ sid _ | .heartbeat _ sid | .keyUpdate _ sid _ | .endSession _ sid | .kSetGo _ sid _ _ _ | .kSetStop _ sid _ _ _ | .ideKmQuery _ sid _
  | .lockInterface _ sid _ | .startInterface _ sid _ _ | .stopInterface _ sid _ | .getDeviceInterfaceReport _ sid _ => decide (sid < 2 ^ 32)
  | .keyProg _ sid _ _ _ sub key => decide (sid < 2 ^ 32) && decide (sub < 16) && key.length = 32
  | .mctpControlMessage code data => decide (code < 256) && decide (data.length ≤ 64)
  | .codewordReceive _ c => codewordOk c
  | .wr _ f => frameOk 0x1 f
  | .rd _ f => frameOk 0x2 f
  | .atom _ f => frameOk 0x3 f
  | .msg _ f => frameOk 0x4 f
  | .rsp _ f => frameOk 0x8 f
  | .rdata _ f => frameOk 0x9 f
  | .hail _ f => frameOk 0xC f
  | .report _ f => frameOk 0xD f
  | .clayRecordUpdate cls _ data => decide (cls < 256) && decide (data.length ≤ 24560)
  | .clayRecordRead cls _ => decide (cls < 256)
  | _ => true

/-- A well-formed command. -/
def wellFormed (i : Instr) : Bool := opcodeOk i && cmdRingOk i && operandsOk i

end Sys2Proof
end

