-- ==== Sys2Proof/Laws/PerInstr.lean ====
section
/-!
SUPPORT. Laws over every command as syntax: a well-formed command that carries an instruction word carries its row's OPCODE (R189), and one that names a submission ring names one that exists (R305).
-/

namespace Sys2Proof.Laws.WellFormed

/-- A well-formed command's word has its row's OPCODE, and its ring exists. -/
def Statement (i : Instr) : Prop :=
  wellFormed i = true → (∀ w, rowWord i = some w → rowOpcode i = some (bits w 127 120)) ∧ (∀ q, cmdRing i = some q → ringOk q = true)

theorem of_wellFormed (i : Instr) : Statement i := by
  intro h
  simp only [wellFormed, Bool.and_eq_true] at h
  obtain ⟨⟨ho, hr⟩, -⟩ := h
  constructor
  · intro w hw
    simpa only [opcodeOk, hw, decide_eq_true_eq] using ho
  · intro q hq
    simpa only [cmdRingOk, hq] using hr

theorem nop (r : Ridge) (x : Ctx) (w : W128) : Statement (.nop r x w) := of_wellFormed _
theorem halt (r : Ridge) (x : Ctx) (w : W128) : Statement (.halt r x w) := of_wellFormed _
theorem vld (r : Ridge) (x : Ctx) (w : W128) : Statement (.vld r x w) := of_wellFormed _
theorem vldComplete (r : Ridge) (id : Nat) : Statement (.vldComplete r id) := of_wellFormed _
theorem mvm (r : Ridge) (x : Ctx) (w : W128) : Statement (.mvm r x w) := of_wellFormed _
theorem mvms (r : Ridge) (x : Ctx) (w : W128) : Statement (.mvms r x w) := of_wellFormed _
theorem contributionCommit (r : Ridge) (id : Nat) (devs : List AdcDev) : Statement (.contributionCommit r id devs) := of_wellFormed _
theorem pre (r : Ridge) (x : Ctx) (w : W128) : Statement (.pre r x w) := of_wellFormed _
theorem drn (r : Ridge) (x : Ctx) (w : W128) : Statement (.drn r x w) := of_wellFormed _
theorem drainComplete (r : Ridge) (id : Nat) (ue : List Nat) : Statement (.drainComplete r id ue) := of_wellFormed _
theorem spl (r : Ridge) (x : Ctx) (w : W128) : Statement (.spl r x w) := of_wellFormed _
theorem fil (r : Ridge) (x : Ctx) (w : W128) : Statement (.fil r x w) := of_wellFormed _
theorem aad (r : Ridge) (x : Ctx) (w : W128) : Statement (.aad r x w) := of_wellFormed _
theorem aadArrival (id : Nat) : Statement (.aadArrival id) := of_wellFormed _
theorem memoryAtomicApply (id : Nat) : Statement (.memoryAtomicApply id) := of_wellFormed _
theorem dmm (r : Ridge) (x : Ctx) (w : W128) : Statement (.dmm r x w) := of_wellFormed _
theorem vop (r : Ridge) (x : Ctx) (w : W128) : Statement (.vop r x w) := of_wellFormed _
theorem red (r : Ridge) (x : Ctx) (w : W128) : Statement (.red r x w) := of_wellFormed _
theorem dmaCopy (r : Ridge) (x : Ctx) (w : W128) : Statement (.dmaCopy r x w) := of_wellFormed _
theorem dmaPrefetch (r : Ridge) (x : Ctx) (w : W128) : Statement (.dmaPrefetch r x w) := of_wellFormed _
theorem dmaInval (r : Ridge) (x : Ctx) (w : W128) : Statement (.dmaInval r x w) := of_wellFormed _
theorem dmaFill (r : Ridge) (x : Ctx) (w : W128) : Statement (.dmaFill r x w) := of_wellFormed _
theorem dmaSegment (cluster : Fin 4) (hostOk : Bool) : Statement (.dmaSegment cluster hostOk) := of_wellFormed _
theorem dmaCompletion (cluster : Fin 4) (id : Nat) : Statement (.dmaCompletion cluster id) := of_wellFormed _
theorem pageWalk (id : Nat) : Statement (.pageWalk id) := of_wellFormed _
theorem moraineFill (part : PartNo) (pa : Nat) (bad : Nat) : Statement (.moraineFill part pa bad) := of_wellFormed _
theorem ringPrefetchFill (r : Ridge) (k : Fin 4) : Statement (.ringPrefetchFill r k) := of_wellFormed _
theorem wait (r : Ridge) (x : Ctx) (w : W128) : Statement (.wait r x w) := of_wellFormed _
theorem waitSatisfied (r : Ridge) (x : Ctx) : Statement (.waitSatisfied r x) := of_wellFormed _
theorem sig (r : Ridge) (x : Ctx) (w : W128) : Statement (.sig r x w) := of_wellFormed _
theorem remoteSigArrival (id : Nat) : Statement (.remoteSigArrival id) := of_wellFormed _
theorem crn (r : Ridge) (x : Ctx) (w : W128) : Statement (.crn r x w) := of_wellFormed _
theorem cairnCommit (part : PartNo) (job : W32) : Statement (.cairnCommit part job) := of_wellFormed _
theorem rbg (r : Ridge) (x : Ctx) (w : W128) : Statement (.rbg r x w) := of_wellFormed _
theorem ren (r : Ridge) (x : Ctx) (w : W128) : Statement (.ren r x w) := of_wellFormed _
theorem ropeCommitGrant (e : RopeNo) : Statement (.ropeCommitGrant e) := of_wellFormed _
theorem ropeTimeout (e : RopeNo) : Statement (.ropeTimeout e) := of_wellFormed _
theorem pinHoldTimeout (e : RopeNo) : Statement (.pinHoldTimeout e) := of_wellFormed _
theorem prb (r : Ridge) (x : Ctx) (w : W128) : Statement (.prb r x w) := of_wellFormed _
theorem srv (r : Ridge) (x : Ctx) (w : W128) : Statement (.srv r x w) := of_wellFormed _
theorem tmap (r : Ridge) (x : Ctx) (w : W128) : Statement (.tmap r x w) := of_wellFormed _
theorem probeInsert (r : Ridge) (p : Pos) : Statement (.probeInsert r p) := of_wellFormed _
theorem probeCompare (r : Ridge) (id : Nat) (devs : List AdcDev) : Statement (.probeCompare r id devs) := of_wellFormed _
theorem surveyComplete (r : Ridge) (t : TileNo) (m : List Int) : Statement (.surveyComplete r t m) := of_wellFormed _
theorem surveySpanTimeout (r : Ridge) (t : TileNo) : Statement (.surveySpanTimeout r t) := of_wellFormed _
theorem surveyAgeTimer (r : Ridge) (t : TileNo) : Statement (.surveyAgeTimer r t) := of_wellFormed _
theorem surveyMvmCount (r : Ridge) (t : TileNo) : Statement (.surveyMvmCount r t) := of_wellFormed _
theorem surveyIssue (r : Ridge) (t : TileNo) : Statement (.surveyIssue r t) := of_wellFormed _
theorem driftFold (r : Ridge) (table : Fin 256) : Statement (.driftFold r table) := of_wellFormed _
theorem refresh (r : Ridge) (p : Pos) : Statement (.refresh r p) := of_wellFormed _
theorem tileSwap (r : Ridge) (p : Pos) (t : TileNo) : Statement (.tileSwap r p t) := of_wellFormed _
theorem programmingStart : Statement (.programmingStart) := of_wellFormed _
theorem programmingComplete (r : Ridge) (t : TileNo) (fails : List Nat) (belayFail : List Nat) (step5 : Bool) (base : List Int) : Statement (.programmingComplete r t fails belayFail step5 base) := of_wellFormed _
theorem bulkResetTrain (r : Ridge) (t : TileNo) (residue : Bool) : Statement (.bulkResetTrain r t residue) := of_wellFormed _
theorem loadCalibrationEnd (part : PartNo) (wset : W32) : Statement (.loadCalibrationEnd part wset) := of_wellFormed _
theorem converterCalibration (r : Ridge) (bad : List (Nat × Nat × Nat)) : Statement (.converterCalibration r bad) := of_wellFormed _
theorem powerFrame (mv : Nat) (mw : Nat) (dom : List Nat) : Statement (.powerFrame mv mw dom) := of_wellFormed _
theorem thermalModelStep : Statement (.thermalModelStep) := of_wellFormed _
theorem peakPowerHold (ma : Nat) : Statement (.peakPowerHold ma) := of_wellFormed _
theorem peakHoldHotTimer : Statement (.peakHoldHotTimer) := of_wellFormed _
theorem estimateStale : Statement (.estimateStale) := of_wellFormed _
theorem noEstimateWindowEnd : Statement (.noEstimateWindowEnd) := of_wellFormed _
theorem inletStale : Statement (.inletStale) := of_wellFormed _
theorem fwHeartbeat : Statement (.fwHeartbeat) := of_wellFormed _
theorem heartbeatTimeout : Statement (.heartbeatTimeout) := of_wellFormed _
theorem fwStartTimeout : Statement (.fwStartTimeout) := of_wellFormed _
theorem fwRunning : Statement (.fwRunning) := of_wellFormed _
theorem svnRaise : Statement (.svnRaise) := of_wellFormed _
theorem colGrant : Statement (.colGrant) := of_wellFormed _
theorem windowMarker (kind : Fin 4) : Statement (.windowMarker kind) := of_wellFormed _
theorem arbiterGrant (cls : Fin 5) (inst : Nat) (reqs : List Nat) (save : Bool) : Statement (.arbiterGrant cls inst reqs save) := of_wellFormed _
theorem countTimeout (r : Ridge) (id : Nat) : Statement (.countTimeout r id) := of_wellFormed _
theorem jobEndOnFault (part : PartNo) (job : W32) : Statement (.jobEndOnFault part job) := of_wellFormed _
theorem jobStart (part : PartNo) (job : W32) : Statement (.jobStart part job) := of_wellFormed _
theorem jobCompletion (part : PartNo) (job : W32) : Statement (.jobCompletion part job) := of_wellFormed _
theorem egressFenceRelease (part : PartNo) (job : W32) : Statement (.egressFenceRelease part job) := of_wellFormed _
theorem jobTimeLimit (part : PartNo) (job : W32) : Statement (.jobTimeLimit part job) := of_wellFormed _
theorem preemption (part : PartNo) (victim : W32) (incoming : W32) : Statement (.preemption part victim incoming) := of_wellFormed _
theorem preemptionRestore (part : PartNo) (job : W32) (saveOk : Bool) : Statement (.preemptionRestore part job saveOk) := of_wellFormed _
theorem jobRestart (part : PartNo) (job : W32) : Statement (.jobRestart part job) := of_wellFormed _
theorem fieldTestDue (r : Ridge) : Statement (.fieldTestDue r) := of_wellFormed _
theorem testGraceExpiry (r : Ridge) : Statement (.testGraceExpiry r) := of_wellFormed _
theorem fieldTestComplete (r : Ridge) (failed : BitVec 4) (trim : List (Nat × Nat × Nat)) (bad : List (Nat × Nat × Nat × Nat × Int)) (mv : Nat) : Statement (.fieldTestComplete r failed trim bad mv) := of_wellFormed _
theorem hbAttnAck (p : Port) (v : W32) : Statement (.hbAttnAck p v) := of_wellFormed _
theorem hbDbAdmin (p : Port) (v : W32) : Statement (.hbDbAdmin p v) := of_wellFormed _
theorem sqDoorbell (p : Port) (f : Fn) (q : Fin 1024) (v : W32) : Statement (.sqDoorbell p f q v) := of_wellFormed _
theorem cqDoorbell (p : Port) (f : Fn) (q : Fin 1024) (v : W32) : Statement (.cqDoorbell p f q v) := of_wellFormed _
theorem commandFetch (q : QId) : Statement (.commandFetch q) := of_wellFormed _
theorem hbCtrl (p : Port) (f : Fn) (v : W32) : Statement (.hbCtrl p f v) := of_wellFormed _
theorem hbAqCfg (p : Port) (v : W32) : Statement (.hbAqCfg p v) := of_wellFormed _
theorem hbEvtDrop (p : Port) (f : Fn) : Statement (.hbEvtDrop p f) := of_wellFormed _
theorem hbColSeqLo (p : Port) (f : Fn) : Statement (.hbColSeqLo p f) := of_wellFormed _
theorem hbColSeqHi (p : Port) (f : Fn) : Statement (.hbColSeqHi p f) := of_wellFormed _
theorem registerWrite (p : Port) (f : Fn) (off : Nat) (v : W32) : Statement (.registerWrite p f off v) := of_wellFormed _
theorem rappelQueue (p : Port) (f : Fn) (v : W32) : Statement (.rappelQueue p f v) := of_wellFormed _
theorem rappelPartition (p : Port) (f : Fn) (v : W32) : Statement (.rappelPartition p f v) := of_wellFormed _
theorem rappelDevice (p : Port) (f : Fn) (v : W32) : Statement (.rappelDevice p f v) := of_wellFormed _
theorem identify (q : QId) (cid : W16) : Statement (.identify q cid) := of_wellFormed _
theorem getCaps (q : QId) (cid : W16) : Statement (.getCaps q cid) := of_wellFormed _
theorem progPower (q : QId) (cid : W16) : Statement (.progPower q cid) := of_wellFormed _
theorem surveyPolicy (q : QId) (cid : W16) : Statement (.surveyPolicy q cid) := of_wellFormed _
theorem thermalPolicy (q : QId) (cid : W16) : Statement (.thermalPolicy q cid) := of_wellFormed _
theorem arbWeight (q : QId) (cid : W16) : Statement (.arbWeight q cid) := of_wellFormed _
theorem arbLimit (q : QId) (cid : W16) : Statement (.arbLimit q cid) := of_wellFormed _
theorem arbStatus (q : QId) (cid : W16) : Statement (.arbStatus q cid) := of_wellFormed _
theorem windowPolicy (q : QId) (cid : W16) : Statement (.windowPolicy q cid) := of_wellFormed _
theorem probePolicy (q : QId) (cid : W16) : Statement (.probePolicy q cid) := of_wellFormed _
theorem partBind (q : QId) (cid : W16) : Statement (.partBind q cid) := of_wellFormed _
theorem ridgeMap (q : QId) (cid : W16) : Statement (.ridgeMap q cid) := of_wellFormed _
theorem getFeature (q : QId) (cid : W16) : Statement (.getFeature q cid) := of_wellFormed _
theorem partCreate (q : QId) (cid : W16) : Statement (.partCreate q cid) := of_wellFormed _
theorem partDestroy (q : QId) (cid : W16) : Statement (.partDestroy q cid) := of_wellFormed _
theorem partQuery (q : QId) (cid : W16) : Statement (.partQuery q cid) := of_wellFormed _
theorem queueCreate (q : QId) (cid : W16) : Statement (.queueCreate q cid) := of_wellFormed _
theorem queueDestroy (q : QId) (cid : W16) : Statement (.queueDestroy q cid) := of_wellFormed _
theorem wsetLoad (q : QId) (cid : W16) : Statement (.wsetLoad q cid) := of_wellFormed _
theorem wsetUnload (q : QId) (cid : W16) : Statement (.wsetUnload q cid) := of_wellFormed _
theorem wsetVerify (q : QId) (cid : W16) (out : List (Nat × Nat × Nat)) : Statement (.wsetVerify q cid out) := of_wellFormed _
theorem progLoad (q : QId) (cid : W16) : Statement (.progLoad q cid) := of_wellFormed _
theorem progUnload (q : QId) (cid : W16) : Statement (.progUnload q cid) := of_wellFormed _
theorem jobSubmit (q : QId) (cid : W16) : Statement (.jobSubmit q cid) := of_wellFormed _
theorem jobResume (q : QId) (cid : W16) : Statement (.jobResume q cid) := of_wellFormed _
theorem jobCairnExport (q : QId) (cid : W16) : Statement (.jobCairnExport q cid) := of_wellFormed _
theorem calibrate (q : QId) (cid : W16) : Statement (.calibrate q cid) := of_wellFormed _
theorem testRun (q : QId) (cid : W16) : Statement (.testRun q cid) := of_wellFormed _
theorem abort (q : QId) (cid : W16) : Statement (.abort q cid) := of_wellFormed _
theorem attest (q : QId) (cid : W16) : Statement (.attest q cid) := of_wellFormed _
theorem clayRead (q : QId) (cid : W16) : Statement (.clayRead q cid) := of_wellFormed _
theorem clayWrite (q : QId) (cid : W16) : Statement (.clayWrite q cid) := of_wellFormed _
theorem clayUnlock (q : QId) (cid : W16) : Statement (.clayUnlock q cid) := of_wellFormed _
theorem clayProtect (q : QId) (cid : W16) : Statement (.clayProtect q cid) := of_wellFormed _
theorem fwStage (q : QId) (cid : W16) : Statement (.fwStage q cid) := of_wellFormed _
theorem fwCommit (q : QId) (cid : W16) : Statement (.fwCommit q cid) := of_wellFormed _
theorem eventConfig (q : QId) (cid : W16) : Statement (.eventConfig q cid) := of_wellFormed _
theorem logExport (q : QId) (cid : W16) : Statement (.logExport q cid) := of_wellFormed _
theorem peerTable (q : QId) (cid : W16) : Statement (.peerTable q cid) := of_wellFormed _
theorem routeSet (q : QId) (cid : W16) : Statement (.routeSet q cid) := of_wellFormed _
theorem powerCap (q : QId) (cid : W16) : Statement (.powerCap q cid) := of_wellFormed _
theorem thermalInlet (q : QId) (cid : W16) : Statement (.thermalInlet q cid) := of_wellFormed _
theorem tunnelDown (p : Port) : Statement (.tunnelDown p) := of_wellFormed _
theorem tunnelUp (p : Port) : Statement (.tunnelUp p) := of_wellFormed _
theorem vfFlr (p : Port) (n : Fin 16) : Statement (.vfFlr p n) := of_wellFormed _
theorem pf0Flr (p : Port) : Statement (.pf0Flr p) := of_wellFormed _
theorem getVersion (p : Port) : Statement (.getVersion p) := of_wellFormed _
theorem getCapabilities (p : Port) : Statement (.getCapabilities p) := of_wellFormed _
theorem negotiateAlgorithms (p : Port) (ecdsaP256 sha256 ecdhe aesGcm : Bool) : Statement (.negotiateAlgorithms p ecdsaP256 sha256 ecdhe aesGcm) := of_wellFormed _
theorem getDigests (p : Port) : Statement (.getDigests p) := of_wellFormed _
theorem getCertificate (p : Port) (slot off len : Nat) : Statement (.getCertificate p slot off len) := of_wellFormed _
theorem challenge (p : Port) (slot : Nat) (nonce : W256) : Statement (.challenge p slot nonce) := of_wellFormed _
theorem getMeasurements (p : Port) (idx : Nat) (signed : Bool) (nonce : W256) : Statement (.getMeasurements p idx signed nonce) := of_wellFormed _
theorem keyExchange (p : Port) (sid : Nat) (pub : List Byte) : Statement (.keyExchange p sid pub) := of_wellFormed _
theorem finish (p : Port) (sid : Nat) (hmacOk : Bool) : Statement (.finish p sid hmacOk) := of_wellFormed _
theorem heartbeat (p : Port) (sid : Nat) : Statement (.heartbeat p sid) := of_wellFormed _
theorem keyUpdate (p : Port) (sid : Nat) (both : Bool) : Statement (.keyUpdate p sid both) := of_wellFormed _
theorem endSession (p : Port) (sid : Nat) : Statement (.endSession p sid) := of_wellFormed _
theorem keyProg (p : Port) (sid : Nat) (f : Fn) (dir set : Bool) (sub : Nat) (key : List Byte) : Statement (.keyProg p sid f dir set sub key) := of_wellFormed _
theorem kSetGo (p : Port) (sid : Nat) (f : Fn) (dir set : Bool) : Statement (.kSetGo p sid f dir set) := of_wellFormed _
theorem kSetStop (p : Port) (sid : Nat) (f : Fn) (dir set : Bool) : Statement (.kSetStop p sid f dir set) := of_wellFormed _
theorem ideKmQuery (p : Port) (sid : Nat) (f : Fn) : Statement (.ideKmQuery p sid f) := of_wellFormed _
theorem ideFail (p : Port) (f : Fn) : Statement (.ideFail p f) := of_wellFormed _
theorem lockInterface (p : Port) (sid : Nat) (n : Fin 16) : Statement (.lockInterface p sid n) := of_wellFormed _
theorem startInterface (p : Port) (sid : Nat) (n : Fin 16) (nonce : W256) : Statement (.startInterface p sid n nonce) := of_wellFormed _
theorem stopInterface (p : Port) (sid : Nat) (n : Fin 16) : Statement (.stopInterface p sid n) := of_wellFormed _
theorem getDeviceInterfaceReport (p : Port) (sid : Nat) (n : Fin 16) : Statement (.getDeviceInterfaceReport p sid n) := of_wellFormed _
theorem debugAttach : Statement (.debugAttach) := of_wellFormed _
theorem getStatus : Statement (.getStatus) := of_wellFormed _
theorem getPower : Statement (.getPower) := of_wellFormed _
theorem getThermal : Statement (.getThermal) := of_wellFormed _
theorem getIdentity : Statement (.getIdentity) := of_wellFormed _
theorem getLog (first : Nat) : Statement (.getLog first) := of_wellFormed _
theorem mctpControlMessage (code : Nat) (data : List Byte) : Statement (.mctpControlMessage code data) := of_wellFormed _
theorem codewordReceive (n : Alv) (cw : Codeword) : Statement (.codewordReceive n cw) := of_wellFormed _
theorem ackTimeout (n : Alv) : Statement (.ackTimeout n) := of_wellFormed _
theorem retrain (n : Alv) : Statement (.retrain n) := of_wellFormed _
theorem linkTrainingComplete (n : Alv) (x2 : Bool) : Statement (.linkTrainingComplete n x2) := of_wellFormed _
theorem trainingFail (n : Alv) : Statement (.trainingFail n) := of_wellFormed _
theorem downRetry (n : Alv) : Statement (.downRetry n) := of_wellFormed _
theorem routeRecompute : Statement (.routeRecompute) := of_wellFormed _
theorem hailSend : Statement (.hailSend) := of_wellFormed _
theorem wr (n : Alv) (f : Frame) : Statement (.wr n f) := of_wellFormed _
theorem rd (n : Alv) (f : Frame) : Statement (.rd n f) := of_wellFormed _
theorem atom (n : Alv) (f : Frame) : Statement (.atom n f) := of_wellFormed _
theorem msg (n : Alv) (f : Frame) : Statement (.msg n f) := of_wellFormed _
theorem rsp (n : Alv) (f : Frame) : Statement (.rsp n f) := of_wellFormed _
theorem rdata (n : Alv) (f : Frame) : Statement (.rdata n f) := of_wellFormed _
theorem hail (n : Alv) (f : Frame) : Statement (.hail n f) := of_wellFormed _
theorem report (n : Alv) (f : Frame) : Statement (.report n f) := of_wellFormed _
theorem requestTimeout (tag : Fin 4096) : Statement (.requestTimeout tag) := of_wellFormed _
theorem busyRetry (tag : Fin 4096) : Statement (.busyRetry tag) := of_wellFormed _
theorem atomRecordExpiry (k : Nat) : Statement (.atomRecordExpiry k) := of_wellFormed _
theorem peerSweep : Statement (.peerSweep) := of_wellFormed _
theorem duplicateIdClear : Statement (.duplicateIdClear) := of_wellFormed _
theorem pwrEnRise : Statement (.pwrEnRise) := of_wellFormed _
theorem pwrEnFall : Statement (.pwrEnFall) := of_wellFormed _
theorem sysRstNAssert : Statement (.sysRstNAssert) := of_wellFormed _
theorem sysRstNRelease (ids : BitVec 12) (dbg test : Bool) (slotAOk slotBOk : Bool) : Statement (.sysRstNRelease ids dbg test slotAOk slotBOk) := of_wellFormed _
theorem refclkLoss : Statement (.refclkLoss) := of_wellFormed _
theorem pllUnlock : Statement (.pllUnlock) := of_wellFormed _
theorem inputLow (mv : Nat) : Statement (.inputLow mv) := of_wellFormed _
theorem inputLoss : Statement (.inputLoss) := of_wellFormed _
theorem inputRestored : Statement (.inputRestored) := of_wellFormed _
theorem inputLossTimeout : Statement (.inputLossTimeout) := of_wellFormed _
theorem railFault (rail : Fin 12) (mv : Nat) : Statement (.railFault rail mv) := of_wellFormed _
theorem vprogFault (r : Ridge) (mv : Nat) : Statement (.vprogFault r mv) := of_wellFormed _
theorem domainPowerRequest (d : Fin 212) (on : Bool) : Statement (.domainPowerRequest d on) := of_wellFormed _
theorem domainSequenceDone (d : Fin 212) : Statement (.domainSequenceDone d) := of_wellFormed _
theorem domainFault (d : Fin 212) : Statement (.domainFault d) := of_wellFormed _
theorem ridgeIdlePowerOff (r : Ridge) : Statement (.ridgeIdlePowerOff r) := of_wellFormed _
theorem clayGroupWriteDone : Statement (.clayGroupWriteDone) := of_wellFormed _
theorem clayRecordUpdate (cls : Nat) (idx : Nat) (data : List Byte) : Statement (.clayRecordUpdate cls idx data) := of_wellFormed _
theorem clayRecordRead (cls : Nat) (idx : Nat) : Statement (.clayRecordRead cls idx) := of_wellFormed _
theorem failureLogWrite : Statement (.failureLogWrite) := of_wellFormed _
theorem linkLockLost (n : Alv) : Statement (.linkLockLost n) := of_wellFormed _
theorem refclkRestored : Statement (.refclkRestored) := of_wellFormed _
theorem hrdyMinimumTime (p : Port) : Statement (.hrdyMinimumTime p) := of_wellFormed _

end Sys2Proof.Laws.WellFormed
end

