-- ==== Sys2Proof/Laws/Runs.lean ====
section
/-!
SUPPORT. Every command answers a next state: one lemma for each meaning.
-/

namespace Sys2Proof.Laws

open Sys2Proof.Machine Sys2Proof.Safety

theorem tick_ridges (s : State) (r : Nat) : getR (tick s) r = { getR s r with win := (getR s r).win.map (tickWin s r (pulses s.pmu.op)) } := by
  unfold tick
  rw [pinSync_eq]
  show tget _ (s.ridges.map _) r = _
  unfold getR tget
  have e : tfind (s.ridges.map (fun x => (x.1, { x.2 with win := x.2.win.map (tickWin s x.1 (pulses s.pmu.op)) }))) r = (tfind s.ridges r).map (fun rd => { rd with win := rd.win.map (tickWin s r (pulses s.pmu.op)) }) := by
    induction s.ridges with
    | nil => rfl
    | cons x t ih =>
      obtain ⟨j, v⟩ := x
      simp only [List.map_cons, tfind]
      split
      · next h => subst h; rfl
      · exact ih
  rw [e]
  cases tfind s.ridges r <;> rfl

theorem tickIte (c : Prop) [Decidable c] (w : Win) (n : Nat) : ∃ k, (if c then { w with waited := w.waited + n } else w) = { w with waited := k } := by
  split
  · exact ⟨_, rfl⟩
  · exact ⟨w.waited, rfl⟩

theorem tickWin_eq (s : State) (r n : Nat) (w : Win) : ∃ k, tickWin s r n w = { w with waited := k } := by
  unfold tickWin
  dsimp only
  exact tickIte _ w n

theorem ports_updPort (s : State) (p : Port) (f : PortSt → PortSt) : (updPort s p f).host = { s.host with portA := (updPort s p f).host.portA, portB := (updPort s p f).host.portB } := by
  cases p <;> rfl

theorem ports_hrdySync (s : State) (p : Port) : (hrdySync s p).host = { s.host with portA := (hrdySync s p).host.portA, portB := (hrdySync s p).host.portB } := by
  unfold hrdySync
  dsimp only
  split
  · exact ports_updPort ..
  · split
    · exact ports_updPort ..
    · rfl

theorem ports_pinSync (s : State) : (pinSync s).host = { s.host with portA := (pinSync s).host.portA, portB := (pinSync s).host.portB } := by
  unfold pinSync
  rw [ports_hrdySync, ports_hrdySync s]

theorem runs_next {t : State} : Runs (.next t) := ⟨t, rfl⟩

theorem issue_any {s : State} {r : Nat} {x : Ctx} {w : W128} {op : Nat} {body : State → Iss} : Runs (issue s r x w op body) := by
  unfold issue
  split
  · split
    · exact runs_next
    · split <;> exact runs_next
  · exact runs_next

theorem withCmd_runs {s : State} {q : QId} {cid : W16} {k : CmdKind} {checks : Cmd → List (Bool × Nat)} {body : Cmd → State} : Runs (withCmd s q cid k checks body) := by
  unfold withCmd
  split <;> exact runs_next

theorem withOrdered_runs {s : State} {q : QId} {cid : W16} {k : CmdKind} {checks : Cmd → List (Bool × Nat)} {body : Cmd → State} : Runs (withOrdered s q cid k checks body) := by
  unfold withOrdered
  split <;> exact runs_next

theorem doeReq_runs {s : State} {p : Port} {f : State → State} : Runs (doeReq s p f) := by
  unfold doeReq
  split <;> exact runs_next

theorem mctpReply_runs {s : State} {b : List Byte} : Runs (mctpReply s b) := by
  unfold mctpReply
  split <;> exact runs_next

theorem negotiated_runs {s : State} {p : Port} {f : State → State} : Runs (negotiated s p f) := doeReq_runs

theorem inSession_runs {s : State} {p : Port} {sid : Nat} {f : Sess → State} : Runs (inSession s p sid f) := doeReq_runs

theorem tdiReq_runs {s : State} {p : Port} {sid n : Nat} {f : Part → State} : Runs (tdiReq s p sid n f) := inSession_runs

theorem execColGrant_runs {s : State} : Runs (execColGrant s) := by
  unfold execColGrant
  repeat' (with_reducible first | exact runs_next | exact issue_any | exact withCmd_runs | exact withOrdered_runs | exact doeReq_runs | exact mctpReply_runs | exact negotiated_runs | exact inSession_runs | exact tdiReq_runs | split | dsimp only)

theorem execAad_runs {r : Ridge} {x : Ctx} {w : W128} {s : State} : Runs (execAad r x w s) := by
  unfold execAad
  repeat' (with_reducible first | exact runs_next | exact issue_any | exact withCmd_runs | exact withOrdered_runs | exact doeReq_runs | exact mctpReply_runs | exact negotiated_runs | exact inSession_runs | exact tdiReq_runs | exact execColGrant_runs | split | dsimp only)

theorem execAadArrival_runs {id : Nat} {s : State} : Runs (execAadArrival id s) := by
  unfold execAadArrival
  repeat' (with_reducible first | exact runs_next | exact issue_any | exact withCmd_runs | exact withOrdered_runs | exact doeReq_runs | exact mctpReply_runs | exact negotiated_runs | exact inSession_runs | exact tdiReq_runs | exact execColGrant_runs | split | dsimp only)

theorem execAbort_runs {q : QId} {cid : W16} {s : State} : Runs (execAbort q cid s) := by
  unfold execAbort
  repeat' (with_reducible first | exact runs_next | exact issue_any | exact withCmd_runs | exact withOrdered_runs | exact doeReq_runs | exact mctpReply_runs | exact negotiated_runs | exact inSession_runs | exact tdiReq_runs | exact execColGrant_runs | split | dsimp only)

theorem execAckTimeout_runs {n : Alv} {s : State} : Runs (execAckTimeout n s) := by
  unfold execAckTimeout
  repeat' (with_reducible first | exact runs_next | exact issue_any | exact withCmd_runs | exact withOrdered_runs | exact doeReq_runs | exact mctpReply_runs | exact negotiated_runs | exact inSession_runs | exact tdiReq_runs | exact execColGrant_runs | split | dsimp only)

theorem execArbLimit_runs {q : QId} {cid : W16} {s : State} : Runs (execArbLimit q cid s) := by
  unfold execArbLimit
  repeat' (with_reducible first | exact runs_next | exact issue_any | exact withCmd_runs | exact withOrdered_runs | exact doeReq_runs | exact mctpReply_runs | exact negotiated_runs | exact inSession_runs | exact tdiReq_runs | exact execColGrant_runs | split | dsimp only)

theorem execArbStatus_runs {q : QId} {cid : W16} {s : State} : Runs (execArbStatus q cid s) := by
  unfold execArbStatus
  repeat' (with_reducible first | exact runs_next | exact issue_any | exact withCmd_runs | exact withOrdered_runs | exact doeReq_runs | exact mctpReply_runs | exact negotiated_runs | exact inSession_runs | exact tdiReq_runs | exact execColGrant_runs | split | dsimp only)

theorem execArbWeight_runs {q : QId} {cid : W16} {s : State} : Runs (execArbWeight q cid s) := by
  unfold execArbWeight
  repeat' (with_reducible first | exact runs_next | exact issue_any | exact withCmd_runs | exact withOrdered_runs | exact doeReq_runs | exact mctpReply_runs | exact negotiated_runs | exact inSession_runs | exact tdiReq_runs | exact execColGrant_runs | split | dsimp only)

theorem execArbiterGrant_runs {cls : Fin 5} {inst : Nat} {reqs : List Nat} {save : Bool} {s : State} : Runs (execArbiterGrant cls inst reqs save s) := by
  unfold execArbiterGrant
  repeat' (with_reducible first | exact runs_next | exact issue_any | exact withCmd_runs | exact withOrdered_runs | exact doeReq_runs | exact mctpReply_runs | exact negotiated_runs | exact inSession_runs | exact tdiReq_runs | exact execColGrant_runs | split | dsimp only)

theorem execAtom_runs {n : Alv} {f : Frame} {s : State} : Runs (execAtom n f s) := by
  unfold execAtom
  repeat' (with_reducible first | exact runs_next | exact issue_any | exact withCmd_runs | exact withOrdered_runs | exact doeReq_runs | exact mctpReply_runs | exact negotiated_runs | exact inSession_runs | exact tdiReq_runs | exact execColGrant_runs | split | dsimp only)

theorem execAtomRecordExpiry_runs {k : Nat} {s : State} : Runs (execAtomRecordExpiry k s) := by
  unfold execAtomRecordExpiry
  repeat' (with_reducible first | exact runs_next | exact issue_any | exact withCmd_runs | exact withOrdered_runs | exact doeReq_runs | exact mctpReply_runs | exact negotiated_runs | exact inSession_runs | exact tdiReq_runs | exact execColGrant_runs | split | dsimp only)

theorem execAttest_runs {q : QId} {cid : W16} {s : State} : Runs (execAttest q cid s) := by
  unfold execAttest
  repeat' (with_reducible first | exact runs_next | exact issue_any | exact withCmd_runs | exact withOrdered_runs | exact doeReq_runs | exact mctpReply_runs | exact negotiated_runs | exact inSession_runs | exact tdiReq_runs | exact execColGrant_runs | split | dsimp only)

theorem execBulkResetTrain_runs {r : Ridge} {t : TileNo} {residue : Bool} {s : State} : Runs (execBulkResetTrain r t residue s) := by
  unfold execBulkResetTrain
  repeat' (with_reducible first | exact runs_next | exact issue_any | exact withCmd_runs | exact withOrdered_runs | exact doeReq_runs | exact mctpReply_runs | exact negotiated_runs | exact inSession_runs | exact tdiReq_runs | exact execColGrant_runs | split | dsimp only)

theorem execBusyRetry_runs {tag : Fin 4096} {s : State} : Runs (execBusyRetry tag s) := by
  unfold execBusyRetry
  repeat' (with_reducible first | exact runs_next | exact issue_any | exact withCmd_runs | exact withOrdered_runs | exact doeReq_runs | exact mctpReply_runs | exact negotiated_runs | exact inSession_runs | exact tdiReq_runs | exact execColGrant_runs | split | dsimp only)

theorem execCairnCommit_runs {part : PartNo} {job : W32} {s : State} : Runs (execCairnCommit part job s) := by
  unfold execCairnCommit
  repeat' (with_reducible first | exact runs_next | exact issue_any | exact withCmd_runs | exact withOrdered_runs | exact doeReq_runs | exact mctpReply_runs | exact negotiated_runs | exact inSession_runs | exact tdiReq_runs | exact execColGrant_runs | split | dsimp only)

theorem execCalibrate_runs {q : QId} {cid : W16} {s : State} : Runs (execCalibrate q cid s) := by
  unfold execCalibrate
  repeat' (with_reducible first | exact runs_next | exact issue_any | exact withCmd_runs | exact withOrdered_runs | exact doeReq_runs | exact mctpReply_runs | exact negotiated_runs | exact inSession_runs | exact tdiReq_runs | exact execColGrant_runs | split | dsimp only)

theorem execChallenge_runs {p : Port} {slot : Nat} {nonce : W256} {s : State} : Runs (execChallenge p slot nonce s) := by
  unfold execChallenge
  repeat' (with_reducible first | exact runs_next | exact issue_any | exact withCmd_runs | exact withOrdered_runs | exact doeReq_runs | exact mctpReply_runs | exact negotiated_runs | exact inSession_runs | exact tdiReq_runs | exact execColGrant_runs | split | dsimp only)

theorem execClayGroupWriteDone_runs {s : State} : Runs (execClayGroupWriteDone s) := by
  unfold execClayGroupWriteDone
  repeat' (with_reducible first | exact runs_next | exact issue_any | exact withCmd_runs | exact withOrdered_runs | exact doeReq_runs | exact mctpReply_runs | exact negotiated_runs | exact inSession_runs | exact tdiReq_runs | exact execColGrant_runs | split | dsimp only)

theorem execClayProtect_runs {q : QId} {cid : W16} {s : State} : Runs (execClayProtect q cid s) := by
  unfold execClayProtect
  repeat' (with_reducible first | exact runs_next | exact issue_any | exact withCmd_runs | exact withOrdered_runs | exact doeReq_runs | exact mctpReply_runs | exact negotiated_runs | exact inSession_runs | exact tdiReq_runs | exact execColGrant_runs | split | dsimp only)

theorem execClayRead_runs {q : QId} {cid : W16} {s : State} : Runs (execClayRead q cid s) := by
  unfold execClayRead
  repeat' (with_reducible first | exact runs_next | exact issue_any | exact withCmd_runs | exact withOrdered_runs | exact doeReq_runs | exact mctpReply_runs | exact negotiated_runs | exact inSession_runs | exact tdiReq_runs | exact execColGrant_runs | split | dsimp only)

theorem execClayRecordRead_runs {cls idx : Nat} {s : State} : Runs (execClayRecordRead cls idx s) := by
  unfold execClayRecordRead
  repeat' (with_reducible first | exact runs_next | exact issue_any | exact withCmd_runs | exact withOrdered_runs | exact doeReq_runs | exact mctpReply_runs | exact negotiated_runs | exact inSession_runs | exact tdiReq_runs | exact execColGrant_runs | split | dsimp only)

theorem execClayRecordUpdate_runs {cls idx : Nat} {data : List Byte} {s : State} : Runs (execClayRecordUpdate cls idx data s) := by
  unfold execClayRecordUpdate
  repeat' (with_reducible first | exact runs_next | exact issue_any | exact withCmd_runs | exact withOrdered_runs | exact doeReq_runs | exact mctpReply_runs | exact negotiated_runs | exact inSession_runs | exact tdiReq_runs | exact execColGrant_runs | split | dsimp only)

theorem execClayUnlock_runs {q : QId} {cid : W16} {s : State} : Runs (execClayUnlock q cid s) := by
  unfold execClayUnlock
  repeat' (with_reducible first | exact runs_next | exact issue_any | exact withCmd_runs | exact withOrdered_runs | exact doeReq_runs | exact mctpReply_runs | exact negotiated_runs | exact inSession_runs | exact tdiReq_runs | exact execColGrant_runs | split | dsimp only)

theorem execClayWrite_runs {q : QId} {cid : W16} {s : State} : Runs (execClayWrite q cid s) := by
  unfold execClayWrite
  repeat' (with_reducible first | exact runs_next | exact issue_any | exact withCmd_runs | exact withOrdered_runs | exact doeReq_runs | exact mctpReply_runs | exact negotiated_runs | exact inSession_runs | exact tdiReq_runs | exact execColGrant_runs | split | dsimp only)

theorem execCodewordReceive_runs {n : Alv} {cw : Codeword} {s : State} : Runs (execCodewordReceive n cw s) := by
  unfold execCodewordReceive
  repeat' (with_reducible first | exact runs_next | exact issue_any | exact withCmd_runs | exact withOrdered_runs | exact doeReq_runs | exact mctpReply_runs | exact negotiated_runs | exact inSession_runs | exact tdiReq_runs | exact execColGrant_runs | split | dsimp only)

theorem execCommandFetch_runs {q : QId} {s : State} : Runs (execCommandFetch q s) := by
  unfold execCommandFetch
  repeat' (with_reducible first | exact runs_next | exact issue_any | exact withCmd_runs | exact withOrdered_runs | exact doeReq_runs | exact mctpReply_runs | exact negotiated_runs | exact inSession_runs | exact tdiReq_runs | exact execColGrant_runs | split | dsimp only)

theorem execContributionCommit_runs {r : Ridge} {id : Nat} {devs : List AdcDev} {s : State} : Runs (execContributionCommit r id devs s) := by
  unfold execContributionCommit
  repeat' (with_reducible first | exact runs_next | exact issue_any | exact withCmd_runs | exact withOrdered_runs | exact doeReq_runs | exact mctpReply_runs | exact negotiated_runs | exact inSession_runs | exact tdiReq_runs | exact execColGrant_runs | split | dsimp only)

theorem execConverterCalibration_runs {r : Ridge} {bad : List (Nat × Nat × Nat)} {s : State} : Runs (execConverterCalibration r bad s) := by
  unfold execConverterCalibration
  repeat' (with_reducible first | exact runs_next | exact issue_any | exact withCmd_runs | exact withOrdered_runs | exact doeReq_runs | exact mctpReply_runs | exact negotiated_runs | exact inSession_runs | exact tdiReq_runs | exact execColGrant_runs | split | dsimp only)

theorem execCountTimeout_runs {r : Ridge} {id : Nat} {s : State} : Runs (execCountTimeout r id s) := by
  unfold execCountTimeout
  repeat' (with_reducible first | exact runs_next | exact issue_any | exact withCmd_runs | exact withOrdered_runs | exact doeReq_runs | exact mctpReply_runs | exact negotiated_runs | exact inSession_runs | exact tdiReq_runs | exact execColGrant_runs | split | dsimp only)

theorem execCqDoorbell_runs {p : Port} {f : Fn} {q : Fin 1024} {v : W32} {s : State} : Runs (execCqDoorbell p f q v s) := by
  unfold execCqDoorbell
  repeat' (with_reducible first | exact runs_next | exact issue_any | exact withCmd_runs | exact withOrdered_runs | exact doeReq_runs | exact mctpReply_runs | exact negotiated_runs | exact inSession_runs | exact tdiReq_runs | exact execColGrant_runs | split | dsimp only)

theorem execCrn_runs {r : Ridge} {x : Ctx} {w : W128} {s : State} : Runs (execCrn r x w s) := by
  unfold execCrn
  repeat' (with_reducible first | exact runs_next | exact issue_any | exact withCmd_runs | exact withOrdered_runs | exact doeReq_runs | exact mctpReply_runs | exact negotiated_runs | exact inSession_runs | exact tdiReq_runs | exact execColGrant_runs | split | dsimp only)

theorem execDebugAttach_runs {s : State} : Runs (execDebugAttach s) := by
  unfold execDebugAttach
  repeat' (with_reducible first | exact runs_next | exact issue_any | exact withCmd_runs | exact withOrdered_runs | exact doeReq_runs | exact mctpReply_runs | exact negotiated_runs | exact inSession_runs | exact tdiReq_runs | exact execColGrant_runs | split | dsimp only)

theorem execDmaCompletion_runs {cluster : Fin 4} {id : Nat} {s : State} : Runs (execDmaCompletion cluster id s) := by
  unfold execDmaCompletion
  repeat' (with_reducible first | exact runs_next | exact issue_any | exact withCmd_runs | exact withOrdered_runs | exact doeReq_runs | exact mctpReply_runs | exact negotiated_runs | exact inSession_runs | exact tdiReq_runs | exact execColGrant_runs | split | dsimp only)

theorem execDmaCopy_runs {r : Ridge} {x : Ctx} {w : W128} {s : State} : Runs (execDmaCopy r x w s) := by
  unfold execDmaCopy
  repeat' (with_reducible first | exact runs_next | exact issue_any | exact withCmd_runs | exact withOrdered_runs | exact doeReq_runs | exact mctpReply_runs | exact negotiated_runs | exact inSession_runs | exact tdiReq_runs | exact execColGrant_runs | split | dsimp only)

theorem execDmaFill_runs {r : Ridge} {x : Ctx} {w : W128} {s : State} : Runs (execDmaFill r x w s) := by
  unfold execDmaFill
  repeat' (with_reducible first | exact runs_next | exact issue_any | exact withCmd_runs | exact withOrdered_runs | exact doeReq_runs | exact mctpReply_runs | exact negotiated_runs | exact inSession_runs | exact tdiReq_runs | exact execColGrant_runs | split | dsimp only)

theorem execDmaInval_runs {r : Ridge} {x : Ctx} {w : W128} {s : State} : Runs (execDmaInval r x w s) := by
  unfold execDmaInval
  repeat' (with_reducible first | exact runs_next | exact issue_any | exact withCmd_runs | exact withOrdered_runs | exact doeReq_runs | exact mctpReply_runs | exact negotiated_runs | exact inSession_runs | exact tdiReq_runs | exact execColGrant_runs | split | dsimp only)

theorem execDmaPrefetch_runs {r : Ridge} {x : Ctx} {w : W128} {s : State} : Runs (execDmaPrefetch r x w s) := by
  unfold execDmaPrefetch
  repeat' (with_reducible first | exact runs_next | exact issue_any | exact withCmd_runs | exact withOrdered_runs | exact doeReq_runs | exact mctpReply_runs | exact negotiated_runs | exact inSession_runs | exact tdiReq_runs | exact execColGrant_runs | split | dsimp only)

theorem execDmaSegment_runs {cluster : Fin 4} {hostOk : Bool} {s : State} : Runs (execDmaSegment cluster hostOk s) := by
  unfold execDmaSegment
  repeat' (with_reducible first | exact runs_next | exact issue_any | exact withCmd_runs | exact withOrdered_runs | exact doeReq_runs | exact mctpReply_runs | exact negotiated_runs | exact inSession_runs | exact tdiReq_runs | exact execColGrant_runs | split | dsimp only)

theorem execDmm_runs {r : Ridge} {x : Ctx} {w : W128} {s : State} : Runs (execDmm r x w s) := by
  unfold execDmm
  repeat' (with_reducible first | exact runs_next | exact issue_any | exact withCmd_runs | exact withOrdered_runs | exact doeReq_runs | exact mctpReply_runs | exact negotiated_runs | exact inSession_runs | exact tdiReq_runs | exact execColGrant_runs | split | dsimp only)

theorem execDomainFault_runs {d : Fin 212} {s : State} : Runs (execDomainFault d s) := by
  unfold execDomainFault
  repeat' (with_reducible first | exact runs_next | exact issue_any | exact withCmd_runs | exact withOrdered_runs | exact doeReq_runs | exact mctpReply_runs | exact negotiated_runs | exact inSession_runs | exact tdiReq_runs | exact execColGrant_runs | split | dsimp only)

theorem execDomainPowerRequest_runs {d : Fin 212} {on : Bool} {s : State} : Runs (execDomainPowerRequest d on s) := by
  unfold execDomainPowerRequest
  repeat' (with_reducible first | exact runs_next | exact issue_any | exact withCmd_runs | exact withOrdered_runs | exact doeReq_runs | exact mctpReply_runs | exact negotiated_runs | exact inSession_runs | exact tdiReq_runs | exact execColGrant_runs | split | dsimp only)

theorem execDomainSequenceDone_runs {d : Fin 212} {s : State} : Runs (execDomainSequenceDone d s) := by
  unfold execDomainSequenceDone
  repeat' (with_reducible first | exact runs_next | exact issue_any | exact withCmd_runs | exact withOrdered_runs | exact doeReq_runs | exact mctpReply_runs | exact negotiated_runs | exact inSession_runs | exact tdiReq_runs | exact execColGrant_runs | split | dsimp only)

theorem execDownRetry_runs {n : Alv} {s : State} : Runs (execDownRetry n s) := by
  unfold execDownRetry
  repeat' (with_reducible first | exact runs_next | exact issue_any | exact withCmd_runs | exact withOrdered_runs | exact doeReq_runs | exact mctpReply_runs | exact negotiated_runs | exact inSession_runs | exact tdiReq_runs | exact execColGrant_runs | split | dsimp only)

theorem execDrainComplete_runs {r : Ridge} {id : Nat} {ue : List Nat} {s : State} : Runs (execDrainComplete r id ue s) := by
  unfold execDrainComplete
  repeat' (with_reducible first | exact runs_next | exact issue_any | exact withCmd_runs | exact withOrdered_runs | exact doeReq_runs | exact mctpReply_runs | exact negotiated_runs | exact inSession_runs | exact tdiReq_runs | exact execColGrant_runs | split | dsimp only)

theorem execDriftFold_runs {r : Ridge} {table : Fin 256} {s : State} : Runs (execDriftFold r table s) := by
  unfold execDriftFold
  repeat' (with_reducible first | exact runs_next | exact issue_any | exact withCmd_runs | exact withOrdered_runs | exact doeReq_runs | exact mctpReply_runs | exact negotiated_runs | exact inSession_runs | exact tdiReq_runs | exact execColGrant_runs | split | dsimp only)

theorem execDrn_runs {r : Ridge} {x : Ctx} {w : W128} {s : State} : Runs (execDrn r x w s) := by
  unfold execDrn
  repeat' (with_reducible first | exact runs_next | exact issue_any | exact withCmd_runs | exact withOrdered_runs | exact doeReq_runs | exact mctpReply_runs | exact negotiated_runs | exact inSession_runs | exact tdiReq_runs | exact execColGrant_runs | split | dsimp only)

theorem execDuplicateIdClear_runs {s : State} : Runs (execDuplicateIdClear s) := by
  unfold execDuplicateIdClear
  repeat' (with_reducible first | exact runs_next | exact issue_any | exact withCmd_runs | exact withOrdered_runs | exact doeReq_runs | exact mctpReply_runs | exact negotiated_runs | exact inSession_runs | exact tdiReq_runs | exact execColGrant_runs | split | dsimp only)

theorem execEgressFenceRelease_runs {part : PartNo} {job : W32} {s : State} : Runs (execEgressFenceRelease part job s) := by
  unfold execEgressFenceRelease
  repeat' (with_reducible first | exact runs_next | exact issue_any | exact withCmd_runs | exact withOrdered_runs | exact doeReq_runs | exact mctpReply_runs | exact negotiated_runs | exact inSession_runs | exact tdiReq_runs | exact execColGrant_runs | split | dsimp only)

theorem execEndSession_runs {p : Port} {sid : Nat} {s : State} : Runs (execEndSession p sid s) := by
  unfold execEndSession
  repeat' (with_reducible first | exact runs_next | exact issue_any | exact withCmd_runs | exact withOrdered_runs | exact doeReq_runs | exact mctpReply_runs | exact negotiated_runs | exact inSession_runs | exact tdiReq_runs | exact execColGrant_runs | split | dsimp only)

theorem execEstimateStale_runs {s : State} : Runs (execEstimateStale s) := by
  unfold execEstimateStale
  repeat' (with_reducible first | exact runs_next | exact issue_any | exact withCmd_runs | exact withOrdered_runs | exact doeReq_runs | exact mctpReply_runs | exact negotiated_runs | exact inSession_runs | exact tdiReq_runs | exact execColGrant_runs | split | dsimp only)

theorem execEventConfig_runs {q : QId} {cid : W16} {s : State} : Runs (execEventConfig q cid s) := by
  unfold execEventConfig
  repeat' (with_reducible first | exact runs_next | exact issue_any | exact withCmd_runs | exact withOrdered_runs | exact doeReq_runs | exact mctpReply_runs | exact negotiated_runs | exact inSession_runs | exact tdiReq_runs | exact execColGrant_runs | split | dsimp only)

theorem execFailureLogWrite_runs {s : State} : Runs (execFailureLogWrite s) := by
  unfold execFailureLogWrite
  repeat' (with_reducible first | exact runs_next | exact issue_any | exact withCmd_runs | exact withOrdered_runs | exact doeReq_runs | exact mctpReply_runs | exact negotiated_runs | exact inSession_runs | exact tdiReq_runs | exact execColGrant_runs | split | dsimp only)

theorem execFieldTestComplete_runs {r : Ridge} {failed : BitVec 4} {trim : List (Nat × Nat × Nat)} {bad : List (Nat × Nat × Nat × Nat × Int)} {mv : Nat} {s : State} : Runs (execFieldTestComplete r failed trim bad mv s) := by
  unfold execFieldTestComplete
  repeat' (with_reducible first | exact runs_next | exact issue_any | exact withCmd_runs | exact withOrdered_runs | exact doeReq_runs | exact mctpReply_runs | exact negotiated_runs | exact inSession_runs | exact tdiReq_runs | exact execColGrant_runs | split | dsimp only)

theorem execFieldTestDue_runs {r : Ridge} {s : State} : Runs (execFieldTestDue r s) := by
  unfold execFieldTestDue
  repeat' (with_reducible first | exact runs_next | exact issue_any | exact withCmd_runs | exact withOrdered_runs | exact doeReq_runs | exact mctpReply_runs | exact negotiated_runs | exact inSession_runs | exact tdiReq_runs | exact execColGrant_runs | split | dsimp only)

theorem execFil_runs {r : Ridge} {x : Ctx} {w : W128} {s : State} : Runs (execFil r x w s) := by
  unfold execFil
  repeat' (with_reducible first | exact runs_next | exact issue_any | exact withCmd_runs | exact withOrdered_runs | exact doeReq_runs | exact mctpReply_runs | exact negotiated_runs | exact inSession_runs | exact tdiReq_runs | exact execColGrant_runs | split | dsimp only)

theorem execFinish_runs {p : Port} {sid : Nat} {hmacOk : Bool} {s : State} : Runs (execFinish p sid hmacOk s) := by
  unfold execFinish
  repeat' (with_reducible first | exact runs_next | exact issue_any | exact withCmd_runs | exact withOrdered_runs | exact doeReq_runs | exact mctpReply_runs | exact negotiated_runs | exact inSession_runs | exact tdiReq_runs | exact execColGrant_runs | split | dsimp only)

theorem execFwCommit_runs {q : QId} {cid : W16} {s : State} : Runs (execFwCommit q cid s) := by
  unfold execFwCommit
  repeat' (with_reducible first | exact runs_next | exact issue_any | exact withCmd_runs | exact withOrdered_runs | exact doeReq_runs | exact mctpReply_runs | exact negotiated_runs | exact inSession_runs | exact tdiReq_runs | exact execColGrant_runs | split | dsimp only)

theorem execFwHeartbeat_runs {s : State} : Runs (execFwHeartbeat s) := by
  unfold execFwHeartbeat
  repeat' (with_reducible first | exact runs_next | exact issue_any | exact withCmd_runs | exact withOrdered_runs | exact doeReq_runs | exact mctpReply_runs | exact negotiated_runs | exact inSession_runs | exact tdiReq_runs | exact execColGrant_runs | split | dsimp only)

theorem execFwRunning_runs {s : State} : Runs (execFwRunning s) := by
  unfold execFwRunning
  repeat' (with_reducible first | exact runs_next | exact issue_any | exact withCmd_runs | exact withOrdered_runs | exact doeReq_runs | exact mctpReply_runs | exact negotiated_runs | exact inSession_runs | exact tdiReq_runs | exact execColGrant_runs | split | dsimp only)

theorem execFwStage_runs {q : QId} {cid : W16} {s : State} : Runs (execFwStage q cid s) := by
  unfold execFwStage
  repeat' (with_reducible first | exact runs_next | exact issue_any | exact withCmd_runs | exact withOrdered_runs | exact doeReq_runs | exact mctpReply_runs | exact negotiated_runs | exact inSession_runs | exact tdiReq_runs | exact execColGrant_runs | split | dsimp only)

theorem execFwStartTimeout_runs {s : State} : Runs (execFwStartTimeout s) := by
  unfold execFwStartTimeout
  repeat' (with_reducible first | exact runs_next | exact issue_any | exact withCmd_runs | exact withOrdered_runs | exact doeReq_runs | exact mctpReply_runs | exact negotiated_runs | exact inSession_runs | exact tdiReq_runs | exact execColGrant_runs | split | dsimp only)

theorem execGetCapabilities_runs {p : Port} {s : State} : Runs (execGetCapabilities p s) := by
  unfold execGetCapabilities
  repeat' (with_reducible first | exact runs_next | exact issue_any | exact withCmd_runs | exact withOrdered_runs | exact doeReq_runs | exact mctpReply_runs | exact negotiated_runs | exact inSession_runs | exact tdiReq_runs | exact execColGrant_runs | split | dsimp only)

theorem execGetCaps_runs {q : QId} {cid : W16} {s : State} : Runs (execGetCaps q cid s) := by
  unfold execGetCaps
  repeat' (with_reducible first | exact runs_next | exact issue_any | exact withCmd_runs | exact withOrdered_runs | exact doeReq_runs | exact mctpReply_runs | exact negotiated_runs | exact inSession_runs | exact tdiReq_runs | exact execColGrant_runs | split | dsimp only)

theorem execGetCertificate_runs {p : Port} {slot off len : Nat} {s : State} : Runs (execGetCertificate p slot off len s) := by
  unfold execGetCertificate
  repeat' (with_reducible first | exact runs_next | exact issue_any | exact withCmd_runs | exact withOrdered_runs | exact doeReq_runs | exact mctpReply_runs | exact negotiated_runs | exact inSession_runs | exact tdiReq_runs | exact execColGrant_runs | split | dsimp only)

theorem execGetDeviceInterfaceReport_runs {p : Port} {sid : Nat} {n : Fin 16} {s : State} : Runs (execGetDeviceInterfaceReport p sid n s) := by
  unfold execGetDeviceInterfaceReport
  repeat' (with_reducible first | exact runs_next | exact issue_any | exact withCmd_runs | exact withOrdered_runs | exact doeReq_runs | exact mctpReply_runs | exact negotiated_runs | exact inSession_runs | exact tdiReq_runs | exact execColGrant_runs | split | dsimp only)

theorem execGetDigests_runs {p : Port} {s : State} : Runs (execGetDigests p s) := by
  unfold execGetDigests
  repeat' (with_reducible first | exact runs_next | exact issue_any | exact withCmd_runs | exact withOrdered_runs | exact doeReq_runs | exact mctpReply_runs | exact negotiated_runs | exact inSession_runs | exact tdiReq_runs | exact execColGrant_runs | split | dsimp only)

theorem execGetFeature_runs {q : QId} {cid : W16} {s : State} : Runs (execGetFeature q cid s) := by
  unfold execGetFeature
  repeat' (with_reducible first | exact runs_next | exact issue_any | exact withCmd_runs | exact withOrdered_runs | exact doeReq_runs | exact mctpReply_runs | exact negotiated_runs | exact inSession_runs | exact tdiReq_runs | exact execColGrant_runs | split | dsimp only)

theorem execGetIdentity_runs {s : State} : Runs (execGetIdentity s) := by
  unfold execGetIdentity
  repeat' (with_reducible first | exact runs_next | exact issue_any | exact withCmd_runs | exact withOrdered_runs | exact doeReq_runs | exact mctpReply_runs | exact negotiated_runs | exact inSession_runs | exact tdiReq_runs | exact execColGrant_runs | split | dsimp only)

theorem execGetLog_runs {first : Nat} {s : State} : Runs (execGetLog first s) := by
  unfold execGetLog
  repeat' (with_reducible first | exact runs_next | exact issue_any | exact withCmd_runs | exact withOrdered_runs | exact doeReq_runs | exact mctpReply_runs | exact negotiated_runs | exact inSession_runs | exact tdiReq_runs | exact execColGrant_runs | split | dsimp only)

theorem execGetMeasurements_runs {p : Port} {idx : Nat} {sign : Bool} {nonce : W256} {s : State} : Runs (execGetMeasurements p idx sign nonce s) := by
  unfold execGetMeasurements
  repeat' (with_reducible first | exact runs_next | exact issue_any | exact withCmd_runs | exact withOrdered_runs | exact doeReq_runs | exact mctpReply_runs | exact negotiated_runs | exact inSession_runs | exact tdiReq_runs | exact execColGrant_runs | split | dsimp only)

theorem execGetPower_runs {s : State} : Runs (execGetPower s) := by
  unfold execGetPower
  repeat' (with_reducible first | exact runs_next | exact issue_any | exact withCmd_runs | exact withOrdered_runs | exact doeReq_runs | exact mctpReply_runs | exact negotiated_runs | exact inSession_runs | exact tdiReq_runs | exact execColGrant_runs | split | dsimp only)

theorem execGetStatus_runs {s : State} : Runs (execGetStatus s) := by
  unfold execGetStatus
  repeat' (with_reducible first | exact runs_next | exact issue_any | exact withCmd_runs | exact withOrdered_runs | exact doeReq_runs | exact mctpReply_runs | exact negotiated_runs | exact inSession_runs | exact tdiReq_runs | exact execColGrant_runs | split | dsimp only)

theorem execGetThermal_runs {s : State} : Runs (execGetThermal s) := by
  unfold execGetThermal
  repeat' (with_reducible first | exact runs_next | exact issue_any | exact withCmd_runs | exact withOrdered_runs | exact doeReq_runs | exact mctpReply_runs | exact negotiated_runs | exact inSession_runs | exact tdiReq_runs | exact execColGrant_runs | split | dsimp only)

theorem execGetVersion_runs {p : Port} {s : State} : Runs (execGetVersion p s) := by
  unfold execGetVersion
  repeat' (with_reducible first | exact runs_next | exact issue_any | exact withCmd_runs | exact withOrdered_runs | exact doeReq_runs | exact mctpReply_runs | exact negotiated_runs | exact inSession_runs | exact tdiReq_runs | exact execColGrant_runs | split | dsimp only)

theorem execHail_runs {n : Alv} {f : Frame} {s : State} : Runs (execHail n f s) := by
  unfold execHail
  repeat' (with_reducible first | exact runs_next | exact issue_any | exact withCmd_runs | exact withOrdered_runs | exact doeReq_runs | exact mctpReply_runs | exact negotiated_runs | exact inSession_runs | exact tdiReq_runs | exact execColGrant_runs | split | dsimp only)

theorem execHailSend_runs {s : State} : Runs (execHailSend s) := by
  unfold execHailSend
  repeat' (with_reducible first | exact runs_next | exact issue_any | exact withCmd_runs | exact withOrdered_runs | exact doeReq_runs | exact mctpReply_runs | exact negotiated_runs | exact inSession_runs | exact tdiReq_runs | exact execColGrant_runs | split | dsimp only)

theorem execHalt_runs {r : Ridge} {x : Ctx} {w : W128} {s : State} : Runs (execHalt r x w s) := by
  unfold execHalt
  repeat' (with_reducible first | exact runs_next | exact issue_any | exact withCmd_runs | exact withOrdered_runs | exact doeReq_runs | exact mctpReply_runs | exact negotiated_runs | exact inSession_runs | exact tdiReq_runs | exact execColGrant_runs | split | dsimp only)

theorem execHbAqCfg_runs {p : Port} {v : W32} {s : State} : Runs (execHbAqCfg p v s) := by
  unfold execHbAqCfg
  repeat' (with_reducible first | exact runs_next | exact issue_any | exact withCmd_runs | exact withOrdered_runs | exact doeReq_runs | exact mctpReply_runs | exact negotiated_runs | exact inSession_runs | exact tdiReq_runs | exact execColGrant_runs | split | dsimp only)

theorem execHbAttnAck_runs {p : Port} {v : W32} {s : State} : Runs (execHbAttnAck p v s) := by
  unfold execHbAttnAck
  repeat' (with_reducible first | exact runs_next | exact issue_any | exact withCmd_runs | exact withOrdered_runs | exact doeReq_runs | exact mctpReply_runs | exact negotiated_runs | exact inSession_runs | exact tdiReq_runs | exact execColGrant_runs | split | dsimp only)

theorem execHbColSeqHi_runs {p : Port} {f : Fn} {s : State} : Runs (execHbColSeqHi p f s) := by
  unfold execHbColSeqHi
  repeat' (with_reducible first | exact runs_next | exact issue_any | exact withCmd_runs | exact withOrdered_runs | exact doeReq_runs | exact mctpReply_runs | exact negotiated_runs | exact inSession_runs | exact tdiReq_runs | exact execColGrant_runs | split | dsimp only)

theorem execHbColSeqLo_runs {p : Port} {f : Fn} {s : State} : Runs (execHbColSeqLo p f s) := by
  unfold execHbColSeqLo
  repeat' (with_reducible first | exact runs_next | exact issue_any | exact withCmd_runs | exact withOrdered_runs | exact doeReq_runs | exact mctpReply_runs | exact negotiated_runs | exact inSession_runs | exact tdiReq_runs | exact execColGrant_runs | split | dsimp only)

theorem execHbCtrl_runs {p : Port} {f : Fn} {v : W32} {s : State} : Runs (execHbCtrl p f v s) := by
  unfold execHbCtrl
  repeat' (with_reducible first | exact runs_next | exact issue_any | exact withCmd_runs | exact withOrdered_runs | exact doeReq_runs | exact mctpReply_runs | exact negotiated_runs | exact inSession_runs | exact tdiReq_runs | exact execColGrant_runs | split | dsimp only)

theorem execHbDbAdmin_runs {p : Port} {v : W32} {s : State} : Runs (execHbDbAdmin p v s) := by
  unfold execHbDbAdmin
  repeat' (with_reducible first | exact runs_next | exact issue_any | exact withCmd_runs | exact withOrdered_runs | exact doeReq_runs | exact mctpReply_runs | exact negotiated_runs | exact inSession_runs | exact tdiReq_runs | exact execColGrant_runs | split | dsimp only)

theorem execHbEvtDrop_runs {p : Port} {f : Fn} {s : State} : Runs (execHbEvtDrop p f s) := by
  unfold execHbEvtDrop
  repeat' (with_reducible first | exact runs_next | exact issue_any | exact withCmd_runs | exact withOrdered_runs | exact doeReq_runs | exact mctpReply_runs | exact negotiated_runs | exact inSession_runs | exact tdiReq_runs | exact execColGrant_runs | split | dsimp only)

theorem execHeartbeat_runs {p : Port} {sid : Nat} {s : State} : Runs (execHeartbeat p sid s) := by
  unfold execHeartbeat
  repeat' (with_reducible first | exact runs_next | exact issue_any | exact withCmd_runs | exact withOrdered_runs | exact doeReq_runs | exact mctpReply_runs | exact negotiated_runs | exact inSession_runs | exact tdiReq_runs | exact execColGrant_runs | split | dsimp only)

theorem execHeartbeatTimeout_runs {s : State} : Runs (execHeartbeatTimeout s) := by
  unfold execHeartbeatTimeout
  repeat' (with_reducible first | exact runs_next | exact issue_any | exact withCmd_runs | exact withOrdered_runs | exact doeReq_runs | exact mctpReply_runs | exact negotiated_runs | exact inSession_runs | exact tdiReq_runs | exact execColGrant_runs | split | dsimp only)

theorem execHrdyMinimumTime_runs {p : Port} {s : State} : Runs (execHrdyMinimumTime p s) := by
  unfold execHrdyMinimumTime
  repeat' (with_reducible first | exact runs_next | exact issue_any | exact withCmd_runs | exact withOrdered_runs | exact doeReq_runs | exact mctpReply_runs | exact negotiated_runs | exact inSession_runs | exact tdiReq_runs | exact execColGrant_runs | split | dsimp only)

theorem execIdeFail_runs {p : Port} {f : Fn} {s : State} : Runs (execIdeFail p f s) := by
  unfold execIdeFail
  repeat' (with_reducible first | exact runs_next | exact issue_any | exact withCmd_runs | exact withOrdered_runs | exact doeReq_runs | exact mctpReply_runs | exact negotiated_runs | exact inSession_runs | exact tdiReq_runs | exact execColGrant_runs | split | dsimp only)

theorem execIdeKmQuery_runs {p : Port} {sid : Nat} {f : Fn} {s : State} : Runs (execIdeKmQuery p sid f s) := by
  unfold execIdeKmQuery
  repeat' (with_reducible first | exact runs_next | exact issue_any | exact withCmd_runs | exact withOrdered_runs | exact doeReq_runs | exact mctpReply_runs | exact negotiated_runs | exact inSession_runs | exact tdiReq_runs | exact execColGrant_runs | split | dsimp only)

theorem execIdentify_runs {q : QId} {cid : W16} {s : State} : Runs (execIdentify q cid s) := by
  unfold execIdentify
  repeat' (with_reducible first | exact runs_next | exact issue_any | exact withCmd_runs | exact withOrdered_runs | exact doeReq_runs | exact mctpReply_runs | exact negotiated_runs | exact inSession_runs | exact tdiReq_runs | exact execColGrant_runs | split | dsimp only)

theorem execInletStale_runs {s : State} : Runs (execInletStale s) := by
  unfold execInletStale
  repeat' (with_reducible first | exact runs_next | exact issue_any | exact withCmd_runs | exact withOrdered_runs | exact doeReq_runs | exact mctpReply_runs | exact negotiated_runs | exact inSession_runs | exact tdiReq_runs | exact execColGrant_runs | split | dsimp only)

theorem execInputLoss_runs {s : State} : Runs (execInputLoss s) := by
  unfold execInputLoss
  repeat' (with_reducible first | exact runs_next | exact issue_any | exact withCmd_runs | exact withOrdered_runs | exact doeReq_runs | exact mctpReply_runs | exact negotiated_runs | exact inSession_runs | exact tdiReq_runs | exact execColGrant_runs | split | dsimp only)

theorem execInputLossTimeout_runs {s : State} : Runs (execInputLossTimeout s) := by
  unfold execInputLossTimeout
  repeat' (with_reducible first | exact runs_next | exact issue_any | exact withCmd_runs | exact withOrdered_runs | exact doeReq_runs | exact mctpReply_runs | exact negotiated_runs | exact inSession_runs | exact tdiReq_runs | exact execColGrant_runs | split | dsimp only)

theorem execInputLow_runs {mv : Nat} {s : State} : Runs (execInputLow mv s) := by
  unfold execInputLow
  repeat' (with_reducible first | exact runs_next | exact issue_any | exact withCmd_runs | exact withOrdered_runs | exact doeReq_runs | exact mctpReply_runs | exact negotiated_runs | exact inSession_runs | exact tdiReq_runs | exact execColGrant_runs | split | dsimp only)

theorem execInputRestored_runs {s : State} : Runs (execInputRestored s) := by
  unfold execInputRestored
  repeat' (with_reducible first | exact runs_next | exact issue_any | exact withCmd_runs | exact withOrdered_runs | exact doeReq_runs | exact mctpReply_runs | exact negotiated_runs | exact inSession_runs | exact tdiReq_runs | exact execColGrant_runs | split | dsimp only)

theorem execJobCairnExport_runs {q : QId} {cid : W16} {s : State} : Runs (execJobCairnExport q cid s) := by
  unfold execJobCairnExport
  repeat' (with_reducible first | exact runs_next | exact issue_any | exact withCmd_runs | exact withOrdered_runs | exact doeReq_runs | exact mctpReply_runs | exact negotiated_runs | exact inSession_runs | exact tdiReq_runs | exact execColGrant_runs | split | dsimp only)

theorem execJobCompletion_runs {part : PartNo} {job : W32} {s : State} : Runs (execJobCompletion part job s) := by
  unfold execJobCompletion
  repeat' (with_reducible first | exact runs_next | exact issue_any | exact withCmd_runs | exact withOrdered_runs | exact doeReq_runs | exact mctpReply_runs | exact negotiated_runs | exact inSession_runs | exact tdiReq_runs | exact execColGrant_runs | split | dsimp only)

theorem execJobEndOnFault_runs {part : PartNo} {job : W32} {s : State} : Runs (execJobEndOnFault part job s) := by
  unfold execJobEndOnFault
  repeat' (with_reducible first | exact runs_next | exact issue_any | exact withCmd_runs | exact withOrdered_runs | exact doeReq_runs | exact mctpReply_runs | exact negotiated_runs | exact inSession_runs | exact tdiReq_runs | exact execColGrant_runs | split | dsimp only)

theorem execJobRestart_runs {part : PartNo} {job : W32} {s : State} : Runs (execJobRestart part job s) := by
  unfold execJobRestart
  repeat' (with_reducible first | exact runs_next | exact issue_any | exact withCmd_runs | exact withOrdered_runs | exact doeReq_runs | exact mctpReply_runs | exact negotiated_runs | exact inSession_runs | exact tdiReq_runs | exact execColGrant_runs | split | dsimp only)

theorem execJobResume_runs {q : QId} {cid : W16} {s : State} : Runs (execJobResume q cid s) := by
  unfold execJobResume
  repeat' (with_reducible first | exact runs_next | exact issue_any | exact withCmd_runs | exact withOrdered_runs | exact doeReq_runs | exact mctpReply_runs | exact negotiated_runs | exact inSession_runs | exact tdiReq_runs | exact execColGrant_runs | split | dsimp only)

theorem execJobStart_runs {part : PartNo} {job : W32} {s : State} : Runs (execJobStart part job s) := by
  unfold execJobStart
  repeat' (with_reducible first | exact runs_next | exact issue_any | exact withCmd_runs | exact withOrdered_runs | exact doeReq_runs | exact mctpReply_runs | exact negotiated_runs | exact inSession_runs | exact tdiReq_runs | exact execColGrant_runs | split | dsimp only)

theorem execJobSubmit_runs {q : QId} {cid : W16} {s : State} : Runs (execJobSubmit q cid s) := by
  unfold execJobSubmit
  repeat' (with_reducible first | exact runs_next | exact issue_any | exact withCmd_runs | exact withOrdered_runs | exact doeReq_runs | exact mctpReply_runs | exact negotiated_runs | exact inSession_runs | exact tdiReq_runs | exact execColGrant_runs | split | dsimp only)

theorem execJobTimeLimit_runs {part : PartNo} {job : W32} {s : State} : Runs (execJobTimeLimit part job s) := by
  unfold execJobTimeLimit
  repeat' (with_reducible first | exact runs_next | exact issue_any | exact withCmd_runs | exact withOrdered_runs | exact doeReq_runs | exact mctpReply_runs | exact negotiated_runs | exact inSession_runs | exact tdiReq_runs | exact execColGrant_runs | split | dsimp only)

theorem execKSetGo_runs {p : Port} {sid : Nat} {f : Fn} {dir set : Bool} {s : State} : Runs (execKSetGo p sid f dir set s) := by
  unfold execKSetGo
  repeat' (with_reducible first | exact runs_next | exact issue_any | exact withCmd_runs | exact withOrdered_runs | exact doeReq_runs | exact mctpReply_runs | exact negotiated_runs | exact inSession_runs | exact tdiReq_runs | exact execColGrant_runs | split | dsimp only)

theorem execKSetStop_runs {p : Port} {sid : Nat} {f : Fn} {dir set : Bool} {s : State} : Runs (execKSetStop p sid f dir set s) := by
  unfold execKSetStop
  repeat' (with_reducible first | exact runs_next | exact issue_any | exact withCmd_runs | exact withOrdered_runs | exact doeReq_runs | exact mctpReply_runs | exact negotiated_runs | exact inSession_runs | exact tdiReq_runs | exact execColGrant_runs | split | dsimp only)

theorem execKeyExchange_runs {p : Port} {sid : Nat} {pub : List Byte} {s : State} : Runs (execKeyExchange p sid pub s) := by
  unfold execKeyExchange
  repeat' (with_reducible first | exact runs_next | exact issue_any | exact withCmd_runs | exact withOrdered_runs | exact doeReq_runs | exact mctpReply_runs | exact negotiated_runs | exact inSession_runs | exact tdiReq_runs | exact execColGrant_runs | split | dsimp only)

theorem execKeyProg_runs {p : Port} {sid : Nat} {f : Fn} {dir set : Bool} {sub : Nat} {key : List Byte} {s : State} : Runs (execKeyProg p sid f dir set sub key s) := by
  unfold execKeyProg
  repeat' (with_reducible first | exact runs_next | exact issue_any | exact withCmd_runs | exact withOrdered_runs | exact doeReq_runs | exact mctpReply_runs | exact negotiated_runs | exact inSession_runs | exact tdiReq_runs | exact execColGrant_runs | split | dsimp only)

theorem execKeyUpdate_runs {p : Port} {sid : Nat} {both : Bool} {s : State} : Runs (execKeyUpdate p sid both s) := by
  unfold execKeyUpdate
  repeat' (with_reducible first | exact runs_next | exact issue_any | exact withCmd_runs | exact withOrdered_runs | exact doeReq_runs | exact mctpReply_runs | exact negotiated_runs | exact inSession_runs | exact tdiReq_runs | exact execColGrant_runs | split | dsimp only)

theorem execLinkLockLost_runs {n : Alv} {s : State} : Runs (execLinkLockLost n s) := by
  unfold execLinkLockLost
  repeat' (with_reducible first | exact runs_next | exact issue_any | exact withCmd_runs | exact withOrdered_runs | exact doeReq_runs | exact mctpReply_runs | exact negotiated_runs | exact inSession_runs | exact tdiReq_runs | exact execColGrant_runs | split | dsimp only)

theorem execLinkTrainingComplete_runs {n : Alv} {x2 : Bool} {s : State} : Runs (execLinkTrainingComplete n x2 s) := by
  unfold execLinkTrainingComplete
  repeat' (with_reducible first | exact runs_next | exact issue_any | exact withCmd_runs | exact withOrdered_runs | exact doeReq_runs | exact mctpReply_runs | exact negotiated_runs | exact inSession_runs | exact tdiReq_runs | exact execColGrant_runs | split | dsimp only)

theorem execLoadCalibrationEnd_runs {part : PartNo} {wset : W32} {s : State} : Runs (execLoadCalibrationEnd part wset s) := by
  unfold execLoadCalibrationEnd
  repeat' (with_reducible first | exact runs_next | exact issue_any | exact withCmd_runs | exact withOrdered_runs | exact doeReq_runs | exact mctpReply_runs | exact negotiated_runs | exact inSession_runs | exact tdiReq_runs | exact execColGrant_runs | split | dsimp only)

theorem execLockInterface_runs {p : Port} {sid : Nat} {n : Fin 16} {s : State} : Runs (execLockInterface p sid n s) := by
  unfold execLockInterface
  repeat' (with_reducible first | exact runs_next | exact issue_any | exact withCmd_runs | exact withOrdered_runs | exact doeReq_runs | exact mctpReply_runs | exact negotiated_runs | exact inSession_runs | exact tdiReq_runs | exact execColGrant_runs | split | dsimp only)

theorem execLogExport_runs {q : QId} {cid : W16} {s : State} : Runs (execLogExport q cid s) := by
  unfold execLogExport
  repeat' (with_reducible first | exact runs_next | exact issue_any | exact withCmd_runs | exact withOrdered_runs | exact doeReq_runs | exact mctpReply_runs | exact negotiated_runs | exact inSession_runs | exact tdiReq_runs | exact execColGrant_runs | split | dsimp only)

theorem execMctpControlMessage_runs {code : Nat} {data : List Byte} {s : State} : Runs (execMctpControlMessage code data s) := by
  unfold execMctpControlMessage
  repeat' (with_reducible first | exact runs_next | exact issue_any | exact withCmd_runs | exact withOrdered_runs | exact doeReq_runs | exact mctpReply_runs | exact negotiated_runs | exact inSession_runs | exact tdiReq_runs | exact execColGrant_runs | split | dsimp only)

theorem execMemoryAtomicApply_runs {id : Nat} {s : State} : Runs (execMemoryAtomicApply id s) := by
  unfold execMemoryAtomicApply
  repeat' (with_reducible first | exact runs_next | exact issue_any | exact withCmd_runs | exact withOrdered_runs | exact doeReq_runs | exact mctpReply_runs | exact negotiated_runs | exact inSession_runs | exact tdiReq_runs | exact execColGrant_runs | split | dsimp only)

theorem execMoraineFill_runs {part : PartNo} {pa bad : Nat} {s : State} : Runs (execMoraineFill part pa bad s) := by
  unfold execMoraineFill
  repeat' (with_reducible first | exact runs_next | exact issue_any | exact withCmd_runs | exact withOrdered_runs | exact doeReq_runs | exact mctpReply_runs | exact negotiated_runs | exact inSession_runs | exact tdiReq_runs | exact execColGrant_runs | split | dsimp only)

theorem execMsg_runs {n : Alv} {f : Frame} {s : State} : Runs (execMsg n f s) := by
  unfold execMsg
  repeat' (with_reducible first | exact runs_next | exact issue_any | exact withCmd_runs | exact withOrdered_runs | exact doeReq_runs | exact mctpReply_runs | exact negotiated_runs | exact inSession_runs | exact tdiReq_runs | exact execColGrant_runs | split | dsimp only)

theorem execMvm_runs {r : Ridge} {x : Ctx} {w : W128} {s : State} : Runs (execMvm r x w s) := by
  unfold execMvm
  repeat' (with_reducible first | exact runs_next | exact issue_any | exact withCmd_runs | exact withOrdered_runs | exact doeReq_runs | exact mctpReply_runs | exact negotiated_runs | exact inSession_runs | exact tdiReq_runs | exact execColGrant_runs | split | dsimp only)

theorem execMvms_runs {r : Ridge} {x : Ctx} {w : W128} {s : State} : Runs (execMvms r x w s) := by
  unfold execMvms
  repeat' (with_reducible first | exact runs_next | exact issue_any | exact withCmd_runs | exact withOrdered_runs | exact doeReq_runs | exact mctpReply_runs | exact negotiated_runs | exact inSession_runs | exact tdiReq_runs | exact execColGrant_runs | split | dsimp only)

theorem execNegotiateAlgorithms_runs {p : Port} {ecdsa sha ecdhe gcm : Bool} {s : State} : Runs (execNegotiateAlgorithms p ecdsa sha ecdhe gcm s) := by
  unfold execNegotiateAlgorithms
  repeat' (with_reducible first | exact runs_next | exact issue_any | exact withCmd_runs | exact withOrdered_runs | exact doeReq_runs | exact mctpReply_runs | exact negotiated_runs | exact inSession_runs | exact tdiReq_runs | exact execColGrant_runs | split | dsimp only)

theorem execNoEstimateWindowEnd_runs {s : State} : Runs (execNoEstimateWindowEnd s) := by
  unfold execNoEstimateWindowEnd
  repeat' (with_reducible first | exact runs_next | exact issue_any | exact withCmd_runs | exact withOrdered_runs | exact doeReq_runs | exact mctpReply_runs | exact negotiated_runs | exact inSession_runs | exact tdiReq_runs | exact execColGrant_runs | split | dsimp only)

theorem execNop_runs {r : Ridge} {x : Ctx} {w : W128} {s : State} : Runs (execNop r x w s) := by
  unfold execNop
  repeat' (with_reducible first | exact runs_next | exact issue_any | exact withCmd_runs | exact withOrdered_runs | exact doeReq_runs | exact mctpReply_runs | exact negotiated_runs | exact inSession_runs | exact tdiReq_runs | exact execColGrant_runs | split | dsimp only)

theorem execPageWalk_runs {id : Nat} {s : State} : Runs (execPageWalk id s) := by
  unfold execPageWalk
  repeat' (with_reducible first | exact runs_next | exact issue_any | exact withCmd_runs | exact withOrdered_runs | exact doeReq_runs | exact mctpReply_runs | exact negotiated_runs | exact inSession_runs | exact tdiReq_runs | exact execColGrant_runs | split | dsimp only)

theorem execPartBind_runs {q : QId} {cid : W16} {s : State} : Runs (execPartBind q cid s) := by
  unfold execPartBind
  repeat' (with_reducible first | exact runs_next | exact issue_any | exact withCmd_runs | exact withOrdered_runs | exact doeReq_runs | exact mctpReply_runs | exact negotiated_runs | exact inSession_runs | exact tdiReq_runs | exact execColGrant_runs | split | dsimp only)

theorem execPartCreate_runs {q : QId} {cid : W16} {s : State} : Runs (execPartCreate q cid s) := by
  unfold execPartCreate
  repeat' (with_reducible first | exact runs_next | exact issue_any | exact withCmd_runs | exact withOrdered_runs | exact doeReq_runs | exact mctpReply_runs | exact negotiated_runs | exact inSession_runs | exact tdiReq_runs | exact execColGrant_runs | split | dsimp only)

theorem execPartDestroy_runs {q : QId} {cid : W16} {s : State} : Runs (execPartDestroy q cid s) := by
  unfold execPartDestroy
  repeat' (with_reducible first | exact runs_next | exact issue_any | exact withCmd_runs | exact withOrdered_runs | exact doeReq_runs | exact mctpReply_runs | exact negotiated_runs | exact inSession_runs | exact tdiReq_runs | exact execColGrant_runs | split | dsimp only)

theorem execPartQuery_runs {q : QId} {cid : W16} {s : State} : Runs (execPartQuery q cid s) := by
  unfold execPartQuery
  repeat' (with_reducible first | exact runs_next | exact issue_any | exact withCmd_runs | exact withOrdered_runs | exact doeReq_runs | exact mctpReply_runs | exact negotiated_runs | exact inSession_runs | exact tdiReq_runs | exact execColGrant_runs | split | dsimp only)

theorem execPeakHoldHotTimer_runs {s : State} : Runs (execPeakHoldHotTimer s) := by
  unfold execPeakHoldHotTimer
  repeat' (with_reducible first | exact runs_next | exact issue_any | exact withCmd_runs | exact withOrdered_runs | exact doeReq_runs | exact mctpReply_runs | exact negotiated_runs | exact inSession_runs | exact tdiReq_runs | exact execColGrant_runs | split | dsimp only)

theorem execPeakPowerHold_runs {ma : Nat} {s : State} : Runs (execPeakPowerHold ma s) := by
  unfold execPeakPowerHold
  repeat' (with_reducible first | exact runs_next | exact issue_any | exact withCmd_runs | exact withOrdered_runs | exact doeReq_runs | exact mctpReply_runs | exact negotiated_runs | exact inSession_runs | exact tdiReq_runs | exact execColGrant_runs | split | dsimp only)

theorem execPeerSweep_runs {s : State} : Runs (execPeerSweep s) := by
  unfold execPeerSweep
  repeat' (with_reducible first | exact runs_next | exact issue_any | exact withCmd_runs | exact withOrdered_runs | exact doeReq_runs | exact mctpReply_runs | exact negotiated_runs | exact inSession_runs | exact tdiReq_runs | exact execColGrant_runs | split | dsimp only)

theorem execPeerTable_runs {q : QId} {cid : W16} {s : State} : Runs (execPeerTable q cid s) := by
  unfold execPeerTable
  repeat' (with_reducible first | exact runs_next | exact issue_any | exact withCmd_runs | exact withOrdered_runs | exact doeReq_runs | exact mctpReply_runs | exact negotiated_runs | exact inSession_runs | exact tdiReq_runs | exact execColGrant_runs | split | dsimp only)

theorem execPf0Flr_runs {p : Port} {s : State} : Runs (execPf0Flr p s) := by
  unfold execPf0Flr
  repeat' (with_reducible first | exact runs_next | exact issue_any | exact withCmd_runs | exact withOrdered_runs | exact doeReq_runs | exact mctpReply_runs | exact negotiated_runs | exact inSession_runs | exact tdiReq_runs | exact execColGrant_runs | split | dsimp only)

theorem execPinHoldTimeout_runs {e : RopeNo} {s : State} : Runs (execPinHoldTimeout e s) := by
  unfold execPinHoldTimeout
  repeat' (with_reducible first | exact runs_next | exact issue_any | exact withCmd_runs | exact withOrdered_runs | exact doeReq_runs | exact mctpReply_runs | exact negotiated_runs | exact inSession_runs | exact tdiReq_runs | exact execColGrant_runs | split | dsimp only)

theorem execPllUnlock_runs {s : State} : Runs (execPllUnlock s) := by
  unfold execPllUnlock
  repeat' (with_reducible first | exact runs_next | exact issue_any | exact withCmd_runs | exact withOrdered_runs | exact doeReq_runs | exact mctpReply_runs | exact negotiated_runs | exact inSession_runs | exact tdiReq_runs | exact execColGrant_runs | split | dsimp only)

theorem execPowerCap_runs {q : QId} {cid : W16} {s : State} : Runs (execPowerCap q cid s) := by
  unfold execPowerCap
  repeat' (with_reducible first | exact runs_next | exact issue_any | exact withCmd_runs | exact withOrdered_runs | exact doeReq_runs | exact mctpReply_runs | exact negotiated_runs | exact inSession_runs | exact tdiReq_runs | exact execColGrant_runs | split | dsimp only)

theorem execPowerFrame_runs {mv mw : Nat} {dom : List Nat} {s : State} : Runs (execPowerFrame mv mw dom s) := by
  unfold execPowerFrame
  repeat' (with_reducible first | exact runs_next | exact issue_any | exact withCmd_runs | exact withOrdered_runs | exact doeReq_runs | exact mctpReply_runs | exact negotiated_runs | exact inSession_runs | exact tdiReq_runs | exact execColGrant_runs | split | dsimp only)

theorem execPrb_runs {r : Ridge} {x : Ctx} {w : W128} {s : State} : Runs (execPrb r x w s) := by
  unfold execPrb
  repeat' (with_reducible first | exact runs_next | exact issue_any | exact withCmd_runs | exact withOrdered_runs | exact doeReq_runs | exact mctpReply_runs | exact negotiated_runs | exact inSession_runs | exact tdiReq_runs | exact execColGrant_runs | split | dsimp only)

theorem execPre_runs {r : Ridge} {x : Ctx} {w : W128} {s : State} : Runs (execPre r x w s) := by
  unfold execPre
  repeat' (with_reducible first | exact runs_next | exact issue_any | exact withCmd_runs | exact withOrdered_runs | exact doeReq_runs | exact mctpReply_runs | exact negotiated_runs | exact inSession_runs | exact tdiReq_runs | exact execColGrant_runs | split | dsimp only)

theorem execPreemption_runs {part : PartNo} {victim incoming : W32} {s : State} : Runs (execPreemption part victim incoming s) := by
  unfold execPreemption
  repeat' (with_reducible first | exact runs_next | exact issue_any | exact withCmd_runs | exact withOrdered_runs | exact doeReq_runs | exact mctpReply_runs | exact negotiated_runs | exact inSession_runs | exact tdiReq_runs | exact execColGrant_runs | split | dsimp only)

theorem execPreemptionRestore_runs {part : PartNo} {job : W32} {saveOk : Bool} {s : State} : Runs (execPreemptionRestore part job saveOk s) := by
  unfold execPreemptionRestore
  repeat' (with_reducible first | exact runs_next | exact issue_any | exact withCmd_runs | exact withOrdered_runs | exact doeReq_runs | exact mctpReply_runs | exact negotiated_runs | exact inSession_runs | exact tdiReq_runs | exact execColGrant_runs | split | dsimp only)

theorem execProbeCompare_runs {r : Ridge} {id : Nat} {devs : List AdcDev} {s : State} : Runs (execProbeCompare r id devs s) := by
  unfold execProbeCompare
  repeat' (with_reducible first | exact runs_next | exact issue_any | exact withCmd_runs | exact withOrdered_runs | exact doeReq_runs | exact mctpReply_runs | exact negotiated_runs | exact inSession_runs | exact tdiReq_runs | exact execColGrant_runs | split | dsimp only)

theorem execProbeInsert_runs {r : Ridge} {p : Pos} {s : State} : Runs (execProbeInsert r p s) := by
  unfold execProbeInsert
  repeat' (with_reducible first | exact runs_next | exact issue_any | exact withCmd_runs | exact withOrdered_runs | exact doeReq_runs | exact mctpReply_runs | exact negotiated_runs | exact inSession_runs | exact tdiReq_runs | exact execColGrant_runs | split | dsimp only)

theorem execProbePolicy_runs {q : QId} {cid : W16} {s : State} : Runs (execProbePolicy q cid s) := by
  unfold execProbePolicy
  repeat' (with_reducible first | exact runs_next | exact issue_any | exact withCmd_runs | exact withOrdered_runs | exact doeReq_runs | exact mctpReply_runs | exact negotiated_runs | exact inSession_runs | exact tdiReq_runs | exact execColGrant_runs | split | dsimp only)

theorem execProgLoad_runs {q : QId} {cid : W16} {s : State} : Runs (execProgLoad q cid s) := by
  unfold execProgLoad
  repeat' (with_reducible first | exact runs_next | exact issue_any | exact withCmd_runs | exact withOrdered_runs | exact doeReq_runs | exact mctpReply_runs | exact negotiated_runs | exact inSession_runs | exact tdiReq_runs | exact execColGrant_runs | split | dsimp only)

theorem execProgPower_runs {q : QId} {cid : W16} {s : State} : Runs (execProgPower q cid s) := by
  unfold execProgPower
  repeat' (with_reducible first | exact runs_next | exact issue_any | exact withCmd_runs | exact withOrdered_runs | exact doeReq_runs | exact mctpReply_runs | exact negotiated_runs | exact inSession_runs | exact tdiReq_runs | exact execColGrant_runs | split | dsimp only)

theorem execProgUnload_runs {q : QId} {cid : W16} {s : State} : Runs (execProgUnload q cid s) := by
  unfold execProgUnload
  repeat' (with_reducible first | exact runs_next | exact issue_any | exact withCmd_runs | exact withOrdered_runs | exact doeReq_runs | exact mctpReply_runs | exact negotiated_runs | exact inSession_runs | exact tdiReq_runs | exact execColGrant_runs | split | dsimp only)

theorem execProgrammingComplete_runs {r : Ridge} {t : TileNo} {fails belayFail : List Nat} {step5 : Bool} {base : List Int} {s : State} : Runs (execProgrammingComplete r t fails belayFail step5 base s) := by
  unfold execProgrammingComplete
  repeat' (with_reducible first | exact runs_next | exact issue_any | exact withCmd_runs | exact withOrdered_runs | exact doeReq_runs | exact mctpReply_runs | exact negotiated_runs | exact inSession_runs | exact tdiReq_runs | exact execColGrant_runs | split | dsimp only)

theorem execProgrammingStart_runs {s : State} : Runs (execProgrammingStart s) := by
  unfold execProgrammingStart
  repeat' (with_reducible first | exact runs_next | exact issue_any | exact withCmd_runs | exact withOrdered_runs | exact doeReq_runs | exact mctpReply_runs | exact negotiated_runs | exact inSession_runs | exact tdiReq_runs | exact execColGrant_runs | split | dsimp only)

theorem execPwrEnFall_runs {s : State} : Runs (execPwrEnFall s) := by
  unfold execPwrEnFall
  repeat' (with_reducible first | exact runs_next | exact issue_any | exact withCmd_runs | exact withOrdered_runs | exact doeReq_runs | exact mctpReply_runs | exact negotiated_runs | exact inSession_runs | exact tdiReq_runs | exact execColGrant_runs | split | dsimp only)

theorem execPwrEnRise_runs {s : State} : Runs (execPwrEnRise s) := by
  unfold execPwrEnRise
  repeat' (with_reducible first | exact runs_next | exact issue_any | exact withCmd_runs | exact withOrdered_runs | exact doeReq_runs | exact mctpReply_runs | exact negotiated_runs | exact inSession_runs | exact tdiReq_runs | exact execColGrant_runs | split | dsimp only)

theorem execQueueCreate_runs {q : QId} {cid : W16} {s : State} : Runs (execQueueCreate q cid s) := by
  unfold execQueueCreate
  repeat' (with_reducible first | exact runs_next | exact issue_any | exact withCmd_runs | exact withOrdered_runs | exact doeReq_runs | exact mctpReply_runs | exact negotiated_runs | exact inSession_runs | exact tdiReq_runs | exact execColGrant_runs | split | dsimp only)

theorem execQueueDestroy_runs {q : QId} {cid : W16} {s : State} : Runs (execQueueDestroy q cid s) := by
  unfold execQueueDestroy
  repeat' (with_reducible first | exact runs_next | exact issue_any | exact withCmd_runs | exact withOrdered_runs | exact doeReq_runs | exact mctpReply_runs | exact negotiated_runs | exact inSession_runs | exact tdiReq_runs | exact execColGrant_runs | split | dsimp only)

theorem execRailFault_runs {rail : Fin 12} {mv : Nat} {s : State} : Runs (execRailFault rail mv s) := by
  unfold execRailFault
  repeat' (with_reducible first | exact runs_next | exact issue_any | exact withCmd_runs | exact withOrdered_runs | exact doeReq_runs | exact mctpReply_runs | exact negotiated_runs | exact inSession_runs | exact tdiReq_runs | exact execColGrant_runs | split | dsimp only)

theorem execRappelDevice_runs {p : Port} {f : Fn} {v : W32} {s : State} : Runs (execRappelDevice p f v s) := by
  unfold execRappelDevice
  repeat' (with_reducible first | exact runs_next | exact issue_any | exact withCmd_runs | exact withOrdered_runs | exact doeReq_runs | exact mctpReply_runs | exact negotiated_runs | exact inSession_runs | exact tdiReq_runs | exact execColGrant_runs | split | dsimp only)

theorem execRappelPartition_runs {p : Port} {f : Fn} {v : W32} {s : State} : Runs (execRappelPartition p f v s) := by
  unfold execRappelPartition
  repeat' (with_reducible first | exact runs_next | exact issue_any | exact withCmd_runs | exact withOrdered_runs | exact doeReq_runs | exact mctpReply_runs | exact negotiated_runs | exact inSession_runs | exact tdiReq_runs | exact execColGrant_runs | split | dsimp only)

theorem execRappelQueue_runs {p : Port} {f : Fn} {v : W32} {s : State} : Runs (execRappelQueue p f v s) := by
  unfold execRappelQueue
  repeat' (with_reducible first | exact runs_next | exact issue_any | exact withCmd_runs | exact withOrdered_runs | exact doeReq_runs | exact mctpReply_runs | exact negotiated_runs | exact inSession_runs | exact tdiReq_runs | exact execColGrant_runs | split | dsimp only)

theorem execRbg_runs {r : Ridge} {x : Ctx} {w : W128} {s : State} : Runs (execRbg r x w s) := by
  unfold execRbg
  repeat' (with_reducible first | exact runs_next | exact issue_any | exact withCmd_runs | exact withOrdered_runs | exact doeReq_runs | exact mctpReply_runs | exact negotiated_runs | exact inSession_runs | exact tdiReq_runs | exact execColGrant_runs | split | dsimp only)

theorem execRd_runs {n : Alv} {f : Frame} {s : State} : Runs (execRd n f s) := by
  unfold execRd
  repeat' (with_reducible first | exact runs_next | exact issue_any | exact withCmd_runs | exact withOrdered_runs | exact doeReq_runs | exact mctpReply_runs | exact negotiated_runs | exact inSession_runs | exact tdiReq_runs | exact execColGrant_runs | split | dsimp only)

theorem execRdata_runs {n : Alv} {f : Frame} {s : State} : Runs (execRdata n f s) := by
  unfold execRdata
  repeat' (with_reducible first | exact runs_next | exact issue_any | exact withCmd_runs | exact withOrdered_runs | exact doeReq_runs | exact mctpReply_runs | exact negotiated_runs | exact inSession_runs | exact tdiReq_runs | exact execColGrant_runs | split | dsimp only)

theorem execRed_runs {r : Ridge} {x : Ctx} {w : W128} {s : State} : Runs (execRed r x w s) := by
  unfold execRed
  repeat' (with_reducible first | exact runs_next | exact issue_any | exact withCmd_runs | exact withOrdered_runs | exact doeReq_runs | exact mctpReply_runs | exact negotiated_runs | exact inSession_runs | exact tdiReq_runs | exact execColGrant_runs | split | dsimp only)

theorem execRefclkLoss_runs {s : State} : Runs (execRefclkLoss s) := by
  unfold execRefclkLoss
  repeat' (with_reducible first | exact runs_next | exact issue_any | exact withCmd_runs | exact withOrdered_runs | exact doeReq_runs | exact mctpReply_runs | exact negotiated_runs | exact inSession_runs | exact tdiReq_runs | exact execColGrant_runs | split | dsimp only)

theorem execRefclkRestored_runs {s : State} : Runs (execRefclkRestored s) := by
  unfold execRefclkRestored
  repeat' (with_reducible first | exact runs_next | exact issue_any | exact withCmd_runs | exact withOrdered_runs | exact doeReq_runs | exact mctpReply_runs | exact negotiated_runs | exact inSession_runs | exact tdiReq_runs | exact execColGrant_runs | split | dsimp only)

theorem execRefresh_runs {r : Ridge} {p : Pos} {s : State} : Runs (execRefresh r p s) := by
  unfold execRefresh
  repeat' (with_reducible first | exact runs_next | exact issue_any | exact withCmd_runs | exact withOrdered_runs | exact doeReq_runs | exact mctpReply_runs | exact negotiated_runs | exact inSession_runs | exact tdiReq_runs | exact execColGrant_runs | split | dsimp only)

theorem execRegisterWrite_runs {p : Port} {f : Fn} {off : Nat} {v : W32} {s : State} : Runs (execRegisterWrite p f off v s) := by
  unfold execRegisterWrite
  repeat' (with_reducible first | exact runs_next | exact issue_any | exact withCmd_runs | exact withOrdered_runs | exact doeReq_runs | exact mctpReply_runs | exact negotiated_runs | exact inSession_runs | exact tdiReq_runs | exact execColGrant_runs | split | dsimp only)

theorem execRemoteSigArrival_runs {id : Nat} {s : State} : Runs (execRemoteSigArrival id s) := by
  unfold execRemoteSigArrival
  repeat' (with_reducible first | exact runs_next | exact issue_any | exact withCmd_runs | exact withOrdered_runs | exact doeReq_runs | exact mctpReply_runs | exact negotiated_runs | exact inSession_runs | exact tdiReq_runs | exact execColGrant_runs | split | dsimp only)

theorem execRen_runs {r : Ridge} {x : Ctx} {w : W128} {s : State} : Runs (execRen r x w s) := by
  unfold execRen
  repeat' (with_reducible first | exact runs_next | exact issue_any | exact withCmd_runs | exact withOrdered_runs | exact doeReq_runs | exact mctpReply_runs | exact negotiated_runs | exact inSession_runs | exact tdiReq_runs | exact execColGrant_runs | split | dsimp only)

theorem execReport_runs {n : Alv} {f : Frame} {s : State} : Runs (execReport n f s) := by
  unfold execReport
  repeat' (with_reducible first | exact runs_next | exact issue_any | exact withCmd_runs | exact withOrdered_runs | exact doeReq_runs | exact mctpReply_runs | exact negotiated_runs | exact inSession_runs | exact tdiReq_runs | exact execColGrant_runs | split | dsimp only)

theorem execRequestTimeout_runs {tag : Fin 4096} {s : State} : Runs (execRequestTimeout tag s) := by
  unfold execRequestTimeout
  repeat' (with_reducible first | exact runs_next | exact issue_any | exact withCmd_runs | exact withOrdered_runs | exact doeReq_runs | exact mctpReply_runs | exact negotiated_runs | exact inSession_runs | exact tdiReq_runs | exact execColGrant_runs | split | dsimp only)

theorem execRetrain_runs {n : Alv} {s : State} : Runs (execRetrain n s) := by
  unfold execRetrain
  repeat' (with_reducible first | exact runs_next | exact issue_any | exact withCmd_runs | exact withOrdered_runs | exact doeReq_runs | exact mctpReply_runs | exact negotiated_runs | exact inSession_runs | exact tdiReq_runs | exact execColGrant_runs | split | dsimp only)

theorem execRidgeIdlePowerOff_runs {r : Ridge} {s : State} : Runs (execRidgeIdlePowerOff r s) := by
  unfold execRidgeIdlePowerOff
  repeat' (with_reducible first | exact runs_next | exact issue_any | exact withCmd_runs | exact withOrdered_runs | exact doeReq_runs | exact mctpReply_runs | exact negotiated_runs | exact inSession_runs | exact tdiReq_runs | exact execColGrant_runs | split | dsimp only)

theorem execRidgeMap_runs {q : QId} {cid : W16} {s : State} : Runs (execRidgeMap q cid s) := by
  unfold execRidgeMap
  repeat' (with_reducible first | exact runs_next | exact issue_any | exact withCmd_runs | exact withOrdered_runs | exact doeReq_runs | exact mctpReply_runs | exact negotiated_runs | exact inSession_runs | exact tdiReq_runs | exact execColGrant_runs | split | dsimp only)

theorem execRingPrefetchFill_runs {r : Ridge} {k : Fin 4} {s : State} : Runs (execRingPrefetchFill r k s) := by
  unfold execRingPrefetchFill
  repeat' (with_reducible first | exact runs_next | exact issue_any | exact withCmd_runs | exact withOrdered_runs | exact doeReq_runs | exact mctpReply_runs | exact negotiated_runs | exact inSession_runs | exact tdiReq_runs | exact execColGrant_runs | split | dsimp only)

theorem execRopeCommitGrant_runs {e : RopeNo} {s : State} : Runs (execRopeCommitGrant e s) := by
  unfold execRopeCommitGrant
  repeat' (with_reducible first | exact runs_next | exact issue_any | exact withCmd_runs | exact withOrdered_runs | exact doeReq_runs | exact mctpReply_runs | exact negotiated_runs | exact inSession_runs | exact tdiReq_runs | exact execColGrant_runs | split | dsimp only)

theorem execRopeTimeout_runs {e : RopeNo} {s : State} : Runs (execRopeTimeout e s) := by
  unfold execRopeTimeout
  repeat' (with_reducible first | exact runs_next | exact issue_any | exact withCmd_runs | exact withOrdered_runs | exact doeReq_runs | exact mctpReply_runs | exact negotiated_runs | exact inSession_runs | exact tdiReq_runs | exact execColGrant_runs | split | dsimp only)

theorem execRouteRecompute_runs {s : State} : Runs (execRouteRecompute s) := by
  unfold execRouteRecompute
  repeat' (with_reducible first | exact runs_next | exact issue_any | exact withCmd_runs | exact withOrdered_runs | exact doeReq_runs | exact mctpReply_runs | exact negotiated_runs | exact inSession_runs | exact tdiReq_runs | exact execColGrant_runs | split | dsimp only)

theorem execRouteSet_runs {q : QId} {cid : W16} {s : State} : Runs (execRouteSet q cid s) := by
  unfold execRouteSet
  repeat' (with_reducible first | exact runs_next | exact issue_any | exact withCmd_runs | exact withOrdered_runs | exact doeReq_runs | exact mctpReply_runs | exact negotiated_runs | exact inSession_runs | exact tdiReq_runs | exact execColGrant_runs | split | dsimp only)

theorem execRsp_runs {n : Alv} {f : Frame} {s : State} : Runs (execRsp n f s) := by
  unfold execRsp
  repeat' (with_reducible first | exact runs_next | exact issue_any | exact withCmd_runs | exact withOrdered_runs | exact doeReq_runs | exact mctpReply_runs | exact negotiated_runs | exact inSession_runs | exact tdiReq_runs | exact execColGrant_runs | split | dsimp only)

theorem execSig_runs {r : Ridge} {x : Ctx} {w : W128} {s : State} : Runs (execSig r x w s) := by
  unfold execSig
  repeat' (with_reducible first | exact runs_next | exact issue_any | exact withCmd_runs | exact withOrdered_runs | exact doeReq_runs | exact mctpReply_runs | exact negotiated_runs | exact inSession_runs | exact tdiReq_runs | exact execColGrant_runs | split | dsimp only)

theorem execSpl_runs {r : Ridge} {x : Ctx} {w : W128} {s : State} : Runs (execSpl r x w s) := by
  unfold execSpl
  repeat' (with_reducible first | exact runs_next | exact issue_any | exact withCmd_runs | exact withOrdered_runs | exact doeReq_runs | exact mctpReply_runs | exact negotiated_runs | exact inSession_runs | exact tdiReq_runs | exact execColGrant_runs | split | dsimp only)

theorem execSqDoorbell_runs {p : Port} {f : Fn} {q : Fin 1024} {v : W32} {s : State} : Runs (execSqDoorbell p f q v s) := by
  unfold execSqDoorbell
  repeat' (with_reducible first | exact runs_next | exact issue_any | exact withCmd_runs | exact withOrdered_runs | exact doeReq_runs | exact mctpReply_runs | exact negotiated_runs | exact inSession_runs | exact tdiReq_runs | exact execColGrant_runs | split | dsimp only)

theorem execSrv_runs {r : Ridge} {x : Ctx} {w : W128} {s : State} : Runs (execSrv r x w s) := by
  unfold execSrv
  repeat' (with_reducible first | exact runs_next | exact issue_any | exact withCmd_runs | exact withOrdered_runs | exact doeReq_runs | exact mctpReply_runs | exact negotiated_runs | exact inSession_runs | exact tdiReq_runs | exact execColGrant_runs | split | dsimp only)

theorem execStartInterface_runs {p : Port} {sid : Nat} {n : Fin 16} {nonce : W256} {s : State} : Runs (execStartInterface p sid n nonce s) := by
  unfold execStartInterface
  repeat' (with_reducible first | exact runs_next | exact issue_any | exact withCmd_runs | exact withOrdered_runs | exact doeReq_runs | exact mctpReply_runs | exact negotiated_runs | exact inSession_runs | exact tdiReq_runs | exact execColGrant_runs | split | dsimp only)

theorem execStopInterface_runs {p : Port} {sid : Nat} {n : Fin 16} {s : State} : Runs (execStopInterface p sid n s) := by
  unfold execStopInterface
  repeat' (with_reducible first | exact runs_next | exact issue_any | exact withCmd_runs | exact withOrdered_runs | exact doeReq_runs | exact mctpReply_runs | exact negotiated_runs | exact inSession_runs | exact tdiReq_runs | exact execColGrant_runs | split | dsimp only)

theorem execSurveyAgeTimer_runs {r : Ridge} {t : TileNo} {s : State} : Runs (execSurveyAgeTimer r t s) := by
  unfold execSurveyAgeTimer
  repeat' (with_reducible first | exact runs_next | exact issue_any | exact withCmd_runs | exact withOrdered_runs | exact doeReq_runs | exact mctpReply_runs | exact negotiated_runs | exact inSession_runs | exact tdiReq_runs | exact execColGrant_runs | split | dsimp only)

theorem execSurveyComplete_runs {r : Ridge} {t : TileNo} {m : List Int} {s : State} : Runs (execSurveyComplete r t m s) := by
  unfold execSurveyComplete
  repeat' (with_reducible first | exact runs_next | exact issue_any | exact withCmd_runs | exact withOrdered_runs | exact doeReq_runs | exact mctpReply_runs | exact negotiated_runs | exact inSession_runs | exact tdiReq_runs | exact execColGrant_runs | split | dsimp only)

theorem execSurveyIssue_runs {r : Ridge} {t : TileNo} {s : State} : Runs (execSurveyIssue r t s) := by
  unfold execSurveyIssue
  repeat' (with_reducible first | exact runs_next | exact issue_any | exact withCmd_runs | exact withOrdered_runs | exact doeReq_runs | exact mctpReply_runs | exact negotiated_runs | exact inSession_runs | exact tdiReq_runs | exact execColGrant_runs | split | dsimp only)

theorem execSurveyMvmCount_runs {r : Ridge} {t : TileNo} {s : State} : Runs (execSurveyMvmCount r t s) := by
  unfold execSurveyMvmCount
  repeat' (with_reducible first | exact runs_next | exact issue_any | exact withCmd_runs | exact withOrdered_runs | exact doeReq_runs | exact mctpReply_runs | exact negotiated_runs | exact inSession_runs | exact tdiReq_runs | exact execColGrant_runs | split | dsimp only)

theorem execSurveyPolicy_runs {q : QId} {cid : W16} {s : State} : Runs (execSurveyPolicy q cid s) := by
  unfold execSurveyPolicy
  repeat' (with_reducible first | exact runs_next | exact issue_any | exact withCmd_runs | exact withOrdered_runs | exact doeReq_runs | exact mctpReply_runs | exact negotiated_runs | exact inSession_runs | exact tdiReq_runs | exact execColGrant_runs | split | dsimp only)

theorem execSurveySpanTimeout_runs {r : Ridge} {t : TileNo} {s : State} : Runs (execSurveySpanTimeout r t s) := by
  unfold execSurveySpanTimeout
  repeat' (with_reducible first | exact runs_next | exact issue_any | exact withCmd_runs | exact withOrdered_runs | exact doeReq_runs | exact mctpReply_runs | exact negotiated_runs | exact inSession_runs | exact tdiReq_runs | exact execColGrant_runs | split | dsimp only)

theorem execSvnRaise_runs {s : State} : Runs (execSvnRaise s) := by
  unfold execSvnRaise
  repeat' (with_reducible first | exact runs_next | exact issue_any | exact withCmd_runs | exact withOrdered_runs | exact doeReq_runs | exact mctpReply_runs | exact negotiated_runs | exact inSession_runs | exact tdiReq_runs | exact execColGrant_runs | split | dsimp only)

theorem execSysRstNAssert_runs {s : State} : Runs (execSysRstNAssert s) := by
  unfold execSysRstNAssert
  repeat' (with_reducible first | exact runs_next | exact issue_any | exact withCmd_runs | exact withOrdered_runs | exact doeReq_runs | exact mctpReply_runs | exact negotiated_runs | exact inSession_runs | exact tdiReq_runs | exact execColGrant_runs | split | dsimp only)

theorem execSysRstNRelease_runs {ids : BitVec 12} {dbg test slotAOk slotBOk : Bool} {s : State} : Runs (execSysRstNRelease ids dbg test slotAOk slotBOk s) := by
  unfold execSysRstNRelease
  repeat' (with_reducible first | exact runs_next | exact issue_any | exact withCmd_runs | exact withOrdered_runs | exact doeReq_runs | exact mctpReply_runs | exact negotiated_runs | exact inSession_runs | exact tdiReq_runs | exact execColGrant_runs | split | dsimp only)

theorem execTestGraceExpiry_runs {r : Ridge} {s : State} : Runs (execTestGraceExpiry r s) := by
  unfold execTestGraceExpiry
  repeat' (with_reducible first | exact runs_next | exact issue_any | exact withCmd_runs | exact withOrdered_runs | exact doeReq_runs | exact mctpReply_runs | exact negotiated_runs | exact inSession_runs | exact tdiReq_runs | exact execColGrant_runs | split | dsimp only)

theorem execTestRun_runs {q : QId} {cid : W16} {s : State} : Runs (execTestRun q cid s) := by
  unfold execTestRun
  repeat' (with_reducible first | exact runs_next | exact issue_any | exact withCmd_runs | exact withOrdered_runs | exact doeReq_runs | exact mctpReply_runs | exact negotiated_runs | exact inSession_runs | exact tdiReq_runs | exact execColGrant_runs | split | dsimp only)

theorem execThermalInlet_runs {q : QId} {cid : W16} {s : State} : Runs (execThermalInlet q cid s) := by
  unfold execThermalInlet
  repeat' (with_reducible first | exact runs_next | exact issue_any | exact withCmd_runs | exact withOrdered_runs | exact doeReq_runs | exact mctpReply_runs | exact negotiated_runs | exact inSession_runs | exact tdiReq_runs | exact execColGrant_runs | split | dsimp only)

theorem execThermalModelStep_runs {s : State} : Runs (execThermalModelStep s) := by
  unfold execThermalModelStep
  repeat' (with_reducible first | exact runs_next | exact issue_any | exact withCmd_runs | exact withOrdered_runs | exact doeReq_runs | exact mctpReply_runs | exact negotiated_runs | exact inSession_runs | exact tdiReq_runs | exact execColGrant_runs | split | dsimp only)

theorem execThermalPolicy_runs {q : QId} {cid : W16} {s : State} : Runs (execThermalPolicy q cid s) := by
  unfold execThermalPolicy
  repeat' (with_reducible first | exact runs_next | exact issue_any | exact withCmd_runs | exact withOrdered_runs | exact doeReq_runs | exact mctpReply_runs | exact negotiated_runs | exact inSession_runs | exact tdiReq_runs | exact execColGrant_runs | split | dsimp only)

theorem execTileSwap_runs {r : Ridge} {p : Pos} {t : TileNo} {s : State} : Runs (execTileSwap r p t s) := by
  unfold execTileSwap
  repeat' (with_reducible first | exact runs_next | exact issue_any | exact withCmd_runs | exact withOrdered_runs | exact doeReq_runs | exact mctpReply_runs | exact negotiated_runs | exact inSession_runs | exact tdiReq_runs | exact execColGrant_runs | split | dsimp only)

theorem execTmap_runs {r : Ridge} {x : Ctx} {w : W128} {s : State} : Runs (execTmap r x w s) := by
  unfold execTmap
  repeat' (with_reducible first | exact runs_next | exact issue_any | exact withCmd_runs | exact withOrdered_runs | exact doeReq_runs | exact mctpReply_runs | exact negotiated_runs | exact inSession_runs | exact tdiReq_runs | exact execColGrant_runs | split | dsimp only)

theorem execTrainingFail_runs {n : Alv} {s : State} : Runs (execTrainingFail n s) := by
  unfold execTrainingFail
  repeat' (with_reducible first | exact runs_next | exact issue_any | exact withCmd_runs | exact withOrdered_runs | exact doeReq_runs | exact mctpReply_runs | exact negotiated_runs | exact inSession_runs | exact tdiReq_runs | exact execColGrant_runs | split | dsimp only)

theorem execTunnelDown_runs {p : Port} {s : State} : Runs (execTunnelDown p s) := by
  unfold execTunnelDown
  repeat' (with_reducible first | exact runs_next | exact issue_any | exact withCmd_runs | exact withOrdered_runs | exact doeReq_runs | exact mctpReply_runs | exact negotiated_runs | exact inSession_runs | exact tdiReq_runs | exact execColGrant_runs | split | dsimp only)

theorem execTunnelUp_runs {p : Port} {s : State} : Runs (execTunnelUp p s) := by
  unfold execTunnelUp
  repeat' (with_reducible first | exact runs_next | exact issue_any | exact withCmd_runs | exact withOrdered_runs | exact doeReq_runs | exact mctpReply_runs | exact negotiated_runs | exact inSession_runs | exact tdiReq_runs | exact execColGrant_runs | split | dsimp only)

theorem execVfFlr_runs {p : Port} {n : Fin 16} {s : State} : Runs (execVfFlr p n s) := by
  unfold execVfFlr
  repeat' (with_reducible first | exact runs_next | exact issue_any | exact withCmd_runs | exact withOrdered_runs | exact doeReq_runs | exact mctpReply_runs | exact negotiated_runs | exact inSession_runs | exact tdiReq_runs | exact execColGrant_runs | split | dsimp only)

theorem execVld_runs {r : Ridge} {x : Ctx} {w : W128} {s : State} : Runs (execVld r x w s) := by
  unfold execVld
  repeat' (with_reducible first | exact runs_next | exact issue_any | exact withCmd_runs | exact withOrdered_runs | exact doeReq_runs | exact mctpReply_runs | exact negotiated_runs | exact inSession_runs | exact tdiReq_runs | exact execColGrant_runs | split | dsimp only)

theorem execVldComplete_runs {r : Ridge} {id : Nat} {s : State} : Runs (execVldComplete r id s) := by
  unfold execVldComplete
  repeat' (with_reducible first | exact runs_next | exact issue_any | exact withCmd_runs | exact withOrdered_runs | exact doeReq_runs | exact mctpReply_runs | exact negotiated_runs | exact inSession_runs | exact tdiReq_runs | exact execColGrant_runs | split | dsimp only)

theorem execVop_runs {r : Ridge} {x : Ctx} {w : W128} {s : State} : Runs (execVop r x w s) := by
  unfold execVop
  repeat' (with_reducible first | exact runs_next | exact issue_any | exact withCmd_runs | exact withOrdered_runs | exact doeReq_runs | exact mctpReply_runs | exact negotiated_runs | exact inSession_runs | exact tdiReq_runs | exact execColGrant_runs | split | dsimp only)

theorem execVprogFault_runs {r : Ridge} {mv : Nat} {s : State} : Runs (execVprogFault r mv s) := by
  unfold execVprogFault
  repeat' (with_reducible first | exact runs_next | exact issue_any | exact withCmd_runs | exact withOrdered_runs | exact doeReq_runs | exact mctpReply_runs | exact negotiated_runs | exact inSession_runs | exact tdiReq_runs | exact execColGrant_runs | split | dsimp only)

theorem execWait_runs {r : Ridge} {x : Ctx} {w : W128} {s : State} : Runs (execWait r x w s) := by
  unfold execWait
  repeat' (with_reducible first | exact runs_next | exact issue_any | exact withCmd_runs | exact withOrdered_runs | exact doeReq_runs | exact mctpReply_runs | exact negotiated_runs | exact inSession_runs | exact tdiReq_runs | exact execColGrant_runs | split | dsimp only)

theorem execWaitSatisfied_runs {r : Ridge} {x : Ctx} {s : State} : Runs (execWaitSatisfied r x s) := by
  unfold execWaitSatisfied
  repeat' (with_reducible first | exact runs_next | exact issue_any | exact withCmd_runs | exact withOrdered_runs | exact doeReq_runs | exact mctpReply_runs | exact negotiated_runs | exact inSession_runs | exact tdiReq_runs | exact execColGrant_runs | split | dsimp only)

theorem execWindowMarker_runs {kind : Fin 4} {s : State} : Runs (execWindowMarker kind s) := by
  unfold execWindowMarker
  repeat' (with_reducible first | exact runs_next | exact issue_any | exact withCmd_runs | exact withOrdered_runs | exact doeReq_runs | exact mctpReply_runs | exact negotiated_runs | exact inSession_runs | exact tdiReq_runs | exact execColGrant_runs | split | dsimp only)

theorem execWindowPolicy_runs {q : QId} {cid : W16} {s : State} : Runs (execWindowPolicy q cid s) := by
  unfold execWindowPolicy
  repeat' (with_reducible first | exact runs_next | exact issue_any | exact withCmd_runs | exact withOrdered_runs | exact doeReq_runs | exact mctpReply_runs | exact negotiated_runs | exact inSession_runs | exact tdiReq_runs | exact execColGrant_runs | split | dsimp only)

theorem execWr_runs {n : Alv} {f : Frame} {s : State} : Runs (execWr n f s) := by
  unfold execWr
  repeat' (with_reducible first | exact runs_next | exact issue_any | exact withCmd_runs | exact withOrdered_runs | exact doeReq_runs | exact mctpReply_runs | exact negotiated_runs | exact inSession_runs | exact tdiReq_runs | exact execColGrant_runs | split | dsimp only)

theorem execWsetLoad_runs {q : QId} {cid : W16} {s : State} : Runs (execWsetLoad q cid s) := by
  unfold execWsetLoad
  repeat' (with_reducible first | exact runs_next | exact issue_any | exact withCmd_runs | exact withOrdered_runs | exact doeReq_runs | exact mctpReply_runs | exact negotiated_runs | exact inSession_runs | exact tdiReq_runs | exact execColGrant_runs | split | dsimp only)

theorem execWsetUnload_runs {q : QId} {cid : W16} {s : State} : Runs (execWsetUnload q cid s) := by
  unfold execWsetUnload
  repeat' (with_reducible first | exact runs_next | exact issue_any | exact withCmd_runs | exact withOrdered_runs | exact doeReq_runs | exact mctpReply_runs | exact negotiated_runs | exact inSession_runs | exact tdiReq_runs | exact execColGrant_runs | split | dsimp only)

theorem execWsetVerify_runs {q : QId} {cid : W16} {out : List (Nat × Nat × Nat)} {s : State} : Runs (execWsetVerify q cid out s) := by
  unfold execWsetVerify
  repeat' (with_reducible first | exact runs_next | exact issue_any | exact withCmd_runs | exact withOrdered_runs | exact doeReq_runs | exact mctpReply_runs | exact negotiated_runs | exact inSession_runs | exact tdiReq_runs | exact execColGrant_runs | split | dsimp only)

end Sys2Proof.Laws
end

