-- ==== Sys2Proof/Laws/Stores.lean ====
section
/-!
SUPPORT. What a store to Loam, local memory, host memory or the ring pool leaves in each byte.
-/

namespace Sys2Proof.Laws

open Sys2Proof.Machine Sys2Proof.Safety

theorem cuts_in : ∀ (f a len : Nat), ∀ c ∈ cduCutsAux f a len, a ≤ c.1 ∧ c.1 + c.2 ≤ a + len
  | 0, _, _ => by intro c h; simp [cduCutsAux] at h
  | f + 1, a, len => by
    intro c h
    unfold cduCutsAux at h
    split at h
    · simp at h
    · dsimp only at h
      rcases List.mem_cons.mp h with h | h
      · subst h; exact ⟨Nat.le_refl _, by dsimp only; omega⟩
      · have := cuts_in f _ _ c h
        omega

theorem cuts_cover : ∀ (f a len : Nat), a % 256 + len ≤ 256 * f → ∀ x, a ≤ x → x < a + len → ∃ c ∈ cduCutsAux f a len, c.1 ≤ x ∧ x < c.1 + c.2
  | 0, a, len, h => by intro x h1 h2; omega
  | f + 1, a, len, h => by
    intro x h1 h2
    unfold cduCutsAux
    rw [if_neg (by omega)]
    dsimp only
    by_cases hx : x < a + min len (256 - a % 256)
    · exact ⟨(a, min len (256 - a % 256)), List.mem_cons_self .., h1, hx⟩
    · obtain ⟨c, hc, h3⟩ := cuts_cover f (a + min len (256 - a % 256)) (len - min len (256 - a % 256)) (by omega) x (by omega) (by omega)
      exact ⟨c, List.mem_cons_of_mem _ hc, h3⟩

theorem cuts_cdu : ∀ (f a len : Nat), ∀ c ∈ cduCutsAux f a len, c.1 / 256 ∈ (cduCutsAux f a len).map (fun c => c.1 / 256) := fun f a len c h => List.mem_map_of_mem h

def setRun (t : Tbl (Option Byte)) (o : Nat) (d : List Byte) : Tbl (Option Byte) := tsetRun none t o (d.map some)

theorem loamPut_byte (rd : RidgeSt) (q o : Nat) (d : List Byte) (tag : W32) (x : Nat) :
    loamByte (loamPut rd o d tag) q x = if o ≤ x ∧ x < o + d.length then d.getD (x - o) 0 else loamByte rd q x := by
  unfold loamByte loamPut
  dsimp only
  rw [tget_tsetRun, List.length_map]
  by_cases h : o ≤ x ∧ x < o + d.length
  · rw [if_pos h, if_pos h]
    have e : (d.map some).getD (x - o) none = some (d.getD (x - o) 0) := by
      simp only [List.getD_eq_getElem?_getD, List.getElem?_map]
      rw [List.getElem?_eq_getElem (show x - o < d.length by omega)]
      rfl
    rw [e]
  · rw [if_neg h, if_neg h]

theorem piece_at (d : List Byte) (o a n x : Nat) (h1 : o ≤ a) (h2 : a + n ≤ o + d.length) (h3 : a ≤ x) (h4 : x < a + n) :
    ((d.drop (a - o)).take n).getD (x - a) 0 = d.getD (x - o) 0 := by
  simp only [List.getD_eq_getElem?_getD, List.getElem?_take, List.getElem?_drop]
  rw [if_pos (by omega), show a - o + (x - a) = x - o by omega]

theorem piece_len (d : List Byte) (o a n : Nat) (h1 : o ≤ a) (h2 : a + n ≤ o + d.length) : ((d.drop (a - o)).take n).length = n := by
  simp; omega

def wstep (o : Nat) (d : List Byte) (tag : W32) (acc : RidgeSt × List Nat) (c : Nat × Nat) : RidgeSt × List Nat :=
    let piece := (d.drop (c.1 - o)).take c.2
    if c.2 = 256 then
      (loamPut { acc.1 with poison := tset false acc.1.poison (c.1 / 256) false } c.1 piece tag, acc.2)
    else if tget false acc.1.poison (c.1 / 256) then (acc.1, acc.2 ++ [c.1 / 256 * 256])
    else (loamPut acc.1 c.1 piece tag, acc.2)

theorem wfold_out (q o : Nat) (d : List Byte) (tag : W32) (x : Nat) : ∀ (l : List (Nat × Nat)) (acc : RidgeSt × List Nat),
    (∀ c ∈ l, o ≤ c.1 ∧ c.1 + c.2 ≤ o + d.length) → (x < o ∨ o + d.length ≤ x) → loamByte (l.foldl (wstep o d tag) acc).1 q x = loamByte acc.1 q x
  | [], _, _, _ => rfl
  | c :: l, acc, hl, hx => by
    have hc := hl c (List.mem_cons_self ..)
    have e : loamByte (wstep o d tag acc c).1 q x = loamByte acc.1 q x := by
      unfold wstep
      dsimp only
      split
      · rw [loamPut_byte, if_neg (by rw [piece_len d o c.1 c.2 hc.1 hc.2]; omega)]; rfl
      · split
        · rfl
        · rw [loamPut_byte, if_neg (by rw [piece_len d o c.1 c.2 hc.1 hc.2]; omega)]
    rw [List.foldl_cons, wfold_out q o d tag x l _ (fun c h => hl c (List.mem_cons_of_mem _ h)) hx, e]

theorem wfold_in (q o : Nat) (d : List Byte) (tag : W32) (x : Nat) : ∀ (l : List (Nat × Nat)) (acc : RidgeSt × List Nat),
    (∀ c ∈ l, o ≤ c.1 ∧ c.1 + c.2 ≤ o + d.length) → (∀ c ∈ l, tget false acc.1.poison (c.1 / 256) = false) →
    ((∃ c ∈ l, c.1 ≤ x ∧ x < c.1 + c.2) ∨ loamByte acc.1 q x = d.getD (x - o) 0) → loamByte (l.foldl (wstep o d tag) acc).1 q x = d.getD (x - o) 0
  | [], _, _, _, h => by simpa using h
  | c :: l, acc, hl, hp, hx => by
    have hc := hl c (List.mem_cons_self ..)
    have pc := hp c (List.mem_cons_self ..)
    have e : loamByte (wstep o d tag acc c).1 q x = if c.1 ≤ x ∧ x < c.1 + c.2 then d.getD (x - o) 0 else loamByte acc.1 q x := by
      unfold wstep
      dsimp only
      rw [pc]
      split
      · rw [loamPut_byte, piece_len d o c.1 c.2 hc.1 hc.2]
        split
        · next h => exact piece_at d o c.1 c.2 x hc.1 hc.2 h.1 h.2
        · rfl
      · rw [if_neg (by decide), loamPut_byte, piece_len d o c.1 c.2 hc.1 hc.2]
        split
        · next h => exact piece_at d o c.1 c.2 x hc.1 hc.2 h.1 h.2
        · rfl
    have pz : ∀ k, tget false acc.1.poison k = false → tget false (wstep o d tag acc c).1.poison k = false := by
      intro k hk
      unfold wstep
      dsimp only
      rw [pc]
      split
      · show tget false (tset false acc.1.poison (c.1 / 256) false) k = false
        rw [tget_tset]; split
        · rfl
        · exact hk
      · exact hk
    rw [List.foldl_cons]
    refine wfold_in q o d tag x l _ (fun c h => hl c (List.mem_cons_of_mem _ h)) (fun c h => pz _ (hp c (List.mem_cons_of_mem _ h))) ?_
    rw [e]
    rcases hx with ⟨k, hk, hkx⟩ | hx
    · rcases List.mem_cons.mp hk with hk | hk
      · subst hk; right; rw [if_pos hkx]
      · left; exact ⟨k, hk, hkx⟩
    · right; split
      · rfl
      · exact hx

theorem loamWrite_out (rd : RidgeSt) (q o : Nat) (d : List Byte) (tag : W32) (x : Nat) (hx : x < o ∨ o + d.length ≤ x) : loamByte (loamWrite rd o d tag).1 q x = loamByte rd q x :=
  wfold_out q o d tag x _ _ (fun c h => cuts_in _ _ _ c h) hx

theorem loamWrite_in (rd : RidgeSt) (q o : Nat) (d : List Byte) (tag : W32) (hp : loamBad rd o d.length = false) (x : Nat) (h1 : o ≤ x) (h2 : x < o + d.length) :
    loamByte (loamWrite rd o d tag).1 q x = d.getD (x - o) 0 := by
  refine wfold_in q o d tag x _ _ (fun c h => cuts_in _ _ _ c h) (fun c h => ?_) (.inl (cuts_cover _ _ _ (by omega) x h1 h2))
  unfold loamBad cdusOf at hp
  rw [List.any_eq_false] at hp
  have := hp (c.1 / 256) (List.mem_map_of_mem h)
  simpa using this

theorem raiseInteg_ridges (s : State) (src c p l u k : Nat) (j : W32) (a n : Nat) : (raiseInteg s src c p l u k j a n).ridges = s.ridges := by
  rfl

theorem stLoam_ridge (s : State) (src : Nat) (o : LOp) (d : List Byte) (tag : W32) (q : Nat) :
    getR (stLoam s src o d tag).1 q = if q = o.ridge then (loamWrite (getR s o.ridge) o.off d tag).1 else getR s q := by
  have e : ∀ (l : List Nat) (t : State), (l.foldl (fun s a => raiseInteg s src 0x01 (partByte s o.ridge) 0 o.ridge 0xFF
      (match jobOn s o.ridge with | some j => j.id | none => 0) a 0) t).ridges = t.ridges := by
    intro l
    induction l with
    | nil => intro t; rfl
    | cons a l ih => intro t; rw [List.foldl_cons, ih]; rfl
  unfold getR
  rw [show (stLoam s src o d tag).1.ridges = tset .reset s.ridges o.ridge (loamWrite (getR s o.ridge) o.off d tag).1 from e _ _]
  rw [tget_tset]
  split
  · next h => rw [if_pos h.symm]; rfl
  · next h => rw [if_neg (fun g => h g.symm)]

theorem list_eq_of_getD (a b : List Byte) (h : a.length = b.length) (g : ∀ i, i < a.length → a.getD i 0 = b.getD i 0) : a = b := by
  apply List.ext_getElem h
  intro i h1 h2
  have := g i h1
  simpa [List.getD_eq_getElem?_getD, List.getElem?_eq_getElem h1, List.getElem?_eq_getElem h2] using this

theorem run_get (f : Nat → Byte) (n i : Nat) (h : i < n) : ((List.range n).map f).getD i 0 = f i := by
  simp [List.getD_eq_getElem?_getD, List.getElem?_map, List.getElem?_range h]

def dstep (o : Nat) (d : List Byte) (acc : State × List Nat) (c : Nat × Nat) : State × List Nat :=
    let piece := (d.drop (c.1 - o)).take c.2
    if c.2 = 256 then (dramPut (dramPoison acc.1 c.1 false) c.1 piece, acc.2)
    else if tget false acc.1.mem.poison (c.1 / 256) then (acc.1, acc.2 ++ [c.1 / 256 * 256])
    else (dramPut acc.1 c.1 piece, acc.2)

theorem dramPut_byte (s : State) (o : Nat) (d : List Byte) (x : Nat) : tget 0 (dramPut s o d).mem.dram x = if o ≤ x ∧ x < o + d.length then d.getD (x - o) 0 else tget 0 s.mem.dram x := by
  show tget 0 (tsetRun 0 s.mem.dram o d) x = _
  rw [tget_tsetRun]

theorem dfold_out (o : Nat) (d : List Byte) (x : Nat) : ∀ (l : List (Nat × Nat)) (acc : State × List Nat),
    (∀ c ∈ l, o ≤ c.1 ∧ c.1 + c.2 ≤ o + d.length) → (x < o ∨ o + d.length ≤ x) → tget 0 (l.foldl (dstep o d) acc).1.mem.dram x = tget 0 acc.1.mem.dram x
  | [], _, _, _ => rfl
  | c :: l, acc, hl, hx => by
    have hc := hl c (List.mem_cons_self ..)
    have e : tget 0 (dstep o d acc c).1.mem.dram x = tget 0 acc.1.mem.dram x := by
      unfold dstep
      dsimp only
      split
      · rw [dramPut_byte, if_neg (by rw [piece_len d o c.1 c.2 hc.1 hc.2]; omega)]; rfl
      · split
        · rfl
        · rw [dramPut_byte, if_neg (by rw [piece_len d o c.1 c.2 hc.1 hc.2]; omega)]
    rw [List.foldl_cons, dfold_out o d x l _ (fun c h => hl c (List.mem_cons_of_mem _ h)) hx, e]

theorem dfold_in (o : Nat) (d : List Byte) (x : Nat) : ∀ (l : List (Nat × Nat)) (acc : State × List Nat),
    (∀ c ∈ l, o ≤ c.1 ∧ c.1 + c.2 ≤ o + d.length) → (∀ c ∈ l, tget false acc.1.mem.poison (c.1 / 256) = false) →
    ((∃ c ∈ l, c.1 ≤ x ∧ x < c.1 + c.2) ∨ tget 0 acc.1.mem.dram x = d.getD (x - o) 0) → tget 0 (l.foldl (dstep o d) acc).1.mem.dram x = d.getD (x - o) 0
  | [], _, _, _, h => by simpa using h
  | c :: l, acc, hl, hp, hx => by
    have hc := hl c (List.mem_cons_self ..)
    have pc := hp c (List.mem_cons_self ..)
    have e : tget 0 (dstep o d acc c).1.mem.dram x = if c.1 ≤ x ∧ x < c.1 + c.2 then d.getD (x - o) 0 else tget 0 acc.1.mem.dram x := by
      unfold dstep
      dsimp only
      rw [pc]
      split
      · rw [dramPut_byte, piece_len d o c.1 c.2 hc.1 hc.2]
        split
        · next h => exact piece_at d o c.1 c.2 x hc.1 hc.2 h.1 h.2
        · rfl
      · rw [if_neg (by decide), dramPut_byte, piece_len d o c.1 c.2 hc.1 hc.2]
        split
        · next h => exact piece_at d o c.1 c.2 x hc.1 hc.2 h.1 h.2
        · rfl
    have pz : ∀ k, tget false acc.1.mem.poison k = false → tget false (dstep o d acc c).1.mem.poison k = false := by
      intro k hk
      unfold dstep
      dsimp only
      rw [pc]
      split
      · show tget false (tset false acc.1.mem.poison (c.1 / 256) false) k = false
        rw [tget_tset]; split
        · rfl
        · exact hk
      · exact hk
    rw [List.foldl_cons]
    refine dfold_in o d x l _ (fun c h => hl c (List.mem_cons_of_mem _ h)) (fun c h => pz _ (hp c (List.mem_cons_of_mem _ h))) ?_
    rw [e]
    rcases hx with ⟨k, hk, hkx⟩ | hx
    · rcases List.mem_cons.mp hk with hk | hk
      · subst hk; right; rw [if_pos hkx]
      · left; exact ⟨k, hk, hkx⟩
    · right; split
      · rfl
      · exact hx

theorem one_run (t : Tbl Byte) (a : Nat) : tgetRun 0 t a 1 = [tget 0 t a] := by simp [tgetRun]

end Sys2Proof.Laws
end

