-- ==== Sys2Proof/Tests/Slice0.lean ====
section
/-!
SUPPORT. The model's own tests: well-formedness refuses an ill-formed command for each of its checks; small results read off the spec; and, for every statement that has hypotheses, a theorem witness_<statement> that shows states and operands which meet the hypotheses of each of its clauses.
-/

namespace Sys2Proof.Tests

/- One declaration after another: waiting evaluations each hold a thread of 256 MB. -/
set_option Elab.async false

open Sys2Proof.Machine Sys2Proof.Safety

/-! ### Small states -/

/-- An instruction word: its OPCODE, and values at bit positions. -/
def ins (op : Nat) (fs : List (Nat × Nat)) : W128 := BitVec.ofNat 128 (fs.foldl (fun a f => a + f.1 * 2 ^ f.2) (op * 2 ^ 120))

/-- The device out of reset with Prorvafort running, and nothing else in it. -/
def up : State :=
  { State.reset with
    pins := { State.reset.pins with sysRstN := true }
    cmc := { State.reset.cmc with fw := .running, busyReset := false, watchdog := true } }

/-- A ridge of up changed. -/
def onR (r : Nat) (f : RidgeSt → RidgeSt) : State := updR up r f

/-- A region of Loam that a program declares on its ridge (R224). -/
def scratch : Region := ⟨0, 65536, 1, false, 0⟩


/-- The one program ridge of a program with this stream. -/
def part1 (ws : List W128) : ProgRidge :=
  { stream := ws, posUsed := 0, cancelShift := 8, rsc := [], rescale := [], groups := [], feed := [], segs := [], dmu := [], dma := [], regions := [scratch], init := [] }

/-- A program of one ridge with this stream. -/
def prog (ws : List W128) : Prog :=
  { handle := 1, progId := 1, wset := 5, digest := 0, ridges := 1, parts := [(0, part1 ws)],
    cairns := [⟨3, 0, 1⟩], bindings := [], bytes := 4096, kept := [], tabs := [] }

/-- Job 7 of partition 0, placed on ridge 0. -/
def job7 : Job :=
  { part := 0, id := 7, q := .io 2, cid := 9, prog := 1, st1 := 0, report := 0, timeLimit := 0, prio := 1, fence := false, bindings := [], st := .running,
    placement := 0 :: List.replicate 47 0xFF, accepted := 0, applied := [], fault := 0, faultRidge := 0, faultInstr := 0, mmuCause := 0, mmuPosted := 0, sat := 0, clip := 0,
    screeOvf := 0, cancel := 0, outsat := 0, esc := 0, fallback := 0, preempts := 0, resumes := 0, ended := [], fired := 0, epLo := 2 ^ 64 - 1, epHi := 0, firedPos := [],
    endWaits := none, halfA := .empty, halfB := .empty, liveIsB := false, dirtySince := false, held := [], saved := [], savedSt := .running, inDoubt := false, suspects := [],
    pendingFault := [] }

/-- Partition 0, active on port A with ridges 0 and 1 and one range. -/
def part0 : Part := { Part.free with st := .active, ridges := 3, ranges := 1, ways := 3, progs := [prog []], key := some 0 }

/-- Job 7 runs this stream on ridge 0; its next instruction is the stream's first. -/
def running (ws : List W128) (f : RidgeSt → RidgeSt) : State :=
  updR { up with parts := [(0, { part0 with progs := [prog ws] })], jobs := [job7] } 0
    (fun rd => f { rd with regions := [scratch], job := some (0, 7), jobCtx := { CtxSt.reset with run := true } })

/-- Ridge 0 with a declared region of Loam, for instructions of the service context. -/
def ridge0 (f : RidgeSt → RidgeSt) : State := onR 0 (fun rd => f { rd with regions := [scratch] })

/-- An address in a ridge's own Loam (R187). -/
def own (off : Nat) : Nat := 63 * 2 ^ 21 + off

/-- A window entry of the service context. -/
def entry (id : Nat) (w : W128) (k : WinKind) : Win := { mkWin .reset .service w k with id := id }

/-- An open slot that expects n contributions of 32 entries. -/
def opened (n : Nat) : Slot := { Slot.reset with opened := true, len := 32, expect := n }

/-- Whether an action was staged. -/
def isStaged : Stg → Bool
  | .staged _ _ => true
  | _ => false

theorem staged_of_isStaged (g : Stg) (h : isStaged g = true) : ∃ t n, g = .staged t n := by
  cases g with
  | staged t n => exact ⟨t, n, rfl⟩
  | plain => cases h
  | fault => cases h
  | gone s => cases h

/-- Whether there is a value. -/
theorem some_of_isSome {α : Type} {o : Option α} (h : o.isSome = true) : ∃ a, o = some a := by
  cases o with
  | some a => exact ⟨a, rfl⟩
  | none => cases h

/-- Tables that map the first 2 MiB of device virtual addresses to local memory at 2 MiB, writable (R252), with the page in the TLB of agent a. -/
def paged (a : Nat) (s : State) : State :=
  { s with mem := { s.mem with dram := [(0, 0x01), (1, 0x10), (0x1000, 0x01), (0x1001, 0x20), (0x2000, 0x07), (0x2002, 0x20)],
                               tlb := [⟨0, 7, a, 0, 2 ^ 21, 2 ^ 21, true, false, false⟩] } }

/-- The pieces of n CDUs from the start of that page. -/
def pieces (n : Nat) : List Piece := (List.range n).map (fun i => ⟨256 * i, 256, .mem (2 ^ 21 + 256 * i)⟩)

/-- Bytes at addresses, as a memory. -/
def bytesFrom (a : Nat) (l : List Byte) : Tbl Byte := tsetRun 0 [] a l

/-- Bytes written in Loam. -/
def loamFrom (a : Nat) (l : List Byte) : Tbl (Option Byte) := tsetRun none [] a (l.map some)

/-- The word's MADDR names a device virtual address (R187). -/
def dva (m : Nat) : Nat := 2 ^ 48 + m

/-- Whether an instruction at issue goes on in a next state. -/
def isNextI : Iss → Bool
  | .next _ => true
  | _ => false

theorem next_of_isNextI (g : Iss) (h : isNextI g = true) : ∃ t, g = .next t := by
  cases g with
  | next t => exact ⟨t, rfl⟩
  | wait => cases h
  | fault c => cases h
  | stay s => cases h

/-- A result that is there, and with which an instruction goes on. -/
def isOkNext {α : Type} (g : Except Nat α) (f : α → Iss) : Bool :=
  match g with
  | .ok a => isNextI (f a)
  | .error _ => false

theorem ok_of_isOkNext {α : Type} (g : Except Nat α) (f : α → Iss) (h : isOkNext g f = true) : ∃ a, g = .ok a ∧ ∃ t, f a = .next t := by
  cases g with
  | ok a => exact ⟨a, rfl, next_of_isNextI _ h⟩
  | error c => cases h

/-- Whether a DMA segment is served, and with what poison mark. -/
def isDone (p : Bool) : SegRes → Bool
  | .done _ bad _ => bad == p
  | _ => false

theorem done_of_isDone (g : SegRes) (p : Bool) (h : isDone p g = true) : ∃ t n, g = .done t p n := by
  cases g with
  | done t bad n => exact ⟨t, n, by simp only [isDone, beq_iff_eq] at h; rw [h]⟩
  | wait s => cases h

/-- Weight set 5 with position p of ridge 0, resident. -/
def wset5 (p : Nat) : Wset :=
  { id := 5, st := .resident, golden := [⟨0, p, 0x10, [], [], 0, 0, [⟨[], [], []⟩], 0, false, 0⟩], digest := 0, toProgram := [], toSurvey := [], loadEnd := 0, calibrating := false,
    degraded := false, cmd := none, residentWin := 0 }

/-- A CLEAN tile. -/
def clean : Tile := { Tile.reset with jr := { Journal.fresh with state := .clean } }

/-- Ridge 0 serves position p from its own tile, with slot 0 open. -/
def serving (p : Nat) (f : RidgeSt → RidgeSt) : State :=
  { ridge0 (fun rd => f { rd with tiles := [(p, clean)], slots := [(0, opened 2)] }) with parts := [(0, { part0 with wsets := [wset5 p] })] }

/-- A rescale table of 32 channels, output INT8 (R136, R137). -/
def tabled (f : RidgeSt → RidgeSt) (rd : RidgeSt) : RidgeSt :=
  f { rd with rsc := [(0, BitVec.ofNat 64 (32 * 2 ^ 16))], half0 := (List.range 32).map (fun i => (i, BitVec.ofNat 64 (2 * 2 ^ 23 + 1))) }

/-! ### Witnesses: ridge instructions -/

theorem witness_NopAndHaltIssue :
    (∃ (s : State) (r : Ridge) (x : Ctx) (w : W128), issuable s r x w 0x00 = true) ∧
    (∃ (s : State) (r : Ridge) (w : W128), issuable s r .job w 0x00 = true) ∧
    (∃ (s : State) (r : Ridge) (x : Ctx) (w : W128), issuable s r x w 0x01 = true) ∧
    (∃ (s : State) (r : Ridge) (w : W128), issuable s r .job w 0x01 = true ∧ ctxWin (getR s r) .job = []) :=
  ⟨⟨up, 47, .service, ins 0x00 [], by decide⟩, ⟨running [ins 0x00 []] id, 0, ins 0x00 [], by decide⟩, ⟨up, 0, .service, ins 0x01 [(5, 80)], by decide⟩,
    ⟨running [ins 0x01 [(5, 80)]] id, 0, ins 0x01 [(5, 80)], by decide⟩⟩

def vldWord : W128 := ins 0x08 [(own 0, 85), (2, 80), (31, 65)]
def vldState : State :=
  ridge0 (fun rd => { rd with feed := [(0, 0x80000000)], segs := [(0, BitVec.ofNat 64 (2 ^ 32 + 31 * 2 ^ 12))], win := [entry 3 vldWord .vld] })

theorem witness_VectorLoadIssuesAndCompletes :
    (∃ (s : State) (r : Ridge) (x : Ctx) (w : W128) (fs : List Seg) (o : LOp) (l : Option LOp),
      issuable s r x w 0x08 = true ∧ feedSegs (getR s r).feed (getR s r).segs (vldFeed w) = some fs ∧ feedFits fs (vldLen w) = true ∧
      (fmtMX (vldFmt w) = true → vldLen w % 32 = 0) ∧ vldReads s r w = some (o, l) ∧
      loamFree s r (vldRanges s w o l) [] = true ∧ (o.ridge = r.val → ringFault (getR s r) o.off = none ∧ ringWait (getR s r) o.off = false)) ∧
    (∃ (s : State) (r : Ridge) (id : Nat) (e : Win) (o : LOp) (bufs : List (Nat × InBuf)),
      findWin s r id = some e ∧ vldEnd s r e = some (.buffers o bufs)) :=
  ⟨⟨vldState, 0, .service, vldWord, [⟨1, 0, 32, 0⟩], ⟨0, 0⟩, none, by decide⟩,
    ⟨vldState, 0, 3, entry 3 vldWord .vld, ⟨0, 0⟩, [(0, convInt 2 false (eltsOf 2 32 (zeros 32)) [] (rawAt 2 (zeros 32)) false ((List.range 32).map (fun i => (i, i))))], by decide⟩⟩

def mvmWord (op : Nat) : W128 := ins op [(2 ^ 31, 80), (0, 74)]

theorem witness_MatrixProductsIssue :
    (∃ (s : State) (r : Ridge) (x : Ctx) (w : W128),
      (mvmPositions w).all (fun p => serviceable s r x p) = true ∧ (getSlot s r (mvmSlot w)).opened = true ∧ (getSlot s r (mvmSlot w)).closing = false ∧
      mvmFree s r x w = true ∧ issuable s r x w 0x10 = true) ∧
    (∃ (s : State) (r : Ridge) (x : Ctx) (w : W128),
      (mvmPositions w).all (fun p => serviceable s r x p) = true ∧ (getSlot s r (mvmSlot w)).opened = true ∧ (getSlot s r (mvmSlot w)).closing = false ∧
      mvmFree s r x w = true ∧ issuable s r x w 0x11 = true) :=
  ⟨⟨serving 31 id, 0, .service, mvmWord 0x10, by decide⟩, ⟨serving 31 id, 0, .service, mvmWord 0x11, by decide⟩⟩

theorem witness_GuardChoosesRanges :
    (∃ (cfg : W32) (k b q : Nat), rdMode cfg = false ∧ q < 4 ∧ b ≤ thr q * 4 ^ k) ∧
    (∃ (cfg : W32) (k b : Nat), rdMode cfg = false ∧ ∀ q, q < 4 → thr q * 4 ^ k < b) ∧ (∃ cfg : W32, rdMode cfg = true) ∧
    (∃ (k : Nat) (cfg : W32) (t : Tile) (b : InBuf) (g ph : Nat), splits false k cfg t b g ph = false) ∧
    (∃ (k : Nat) (cfg : W32) (t : Tile) (b : InBuf) (g ph : Nat), splits false k cfg t b g ph = true) :=
  ⟨⟨0, 0, 952, 0, by decide⟩, ⟨0, 0, 60929, by decide⟩, ⟨0x4000, by decide⟩, ⟨0, 0, .reset, .empty, 0, 0, by decide⟩,
    ⟨0, 0, { Tile.reset with colMax := [(0, 63)] }, { InBuf.empty with fed := true, codes := (List.range 70).map (fun i => (i, 127)) ++ [] }, 0, 1, by decide⟩⟩

theorem witness_ContributionsCommitOnce :
    (∃ (s : State) (r : Ridge) (id : Nat) (e : Win),
      findWin s r id = some e ∧ e.kind = .mvm ∧ earlierInto r (getR s r) id (mvmSlot e.w) = false ∧ faultedWin (getR s r) e = false ∧
      (getSlot s r (mvmSlot e.w)).received ≠ (getSlot s r (mvmSlot e.w)).expect) ∧
    (∃ (s : State) (r : Ridge) (id : Nat) (e : Win),
      findWin s r id = some e ∧ e.kind = .mvm ∧ earlierInto r (getR s r) id (mvmSlot e.w) = false ∧ faultedWin (getR s r) e = false ∧
      (getSlot s r (mvmSlot e.w)).received = (getSlot s r (mvmSlot e.w)).expect) :=
  ⟨⟨ridge0 (fun rd => { rd with slots := [(0, opened 2)], win := [entry 3 (mvmWord 0x10) .mvm] }), 0, 3, entry 3 (mvmWord 0x10) .mvm, by decide⟩,
    ⟨ridge0 (fun rd => { rd with slots := [(0, opened 0)], win := [entry 3 (mvmWord 0x10) .mvm] }), 0, 3, entry 3 (mvmWord 0x10) .mvm, by decide⟩⟩

def preWord (mode fmt : Nat) : W128 := ins 0x18 [(mode, 117), (31, 97), (2, 68), (if mode = 0 then 0 else own 0, 41), (fmt, 36)]

theorem witness_PreOpensItsSlot :
    (∃ (s : State) (r : Ridge) (x : Ctx) (w : W128),
      issuable s r x w 0x18 = true ∧ (getSlot s r (slotNo w)).opened = false ∧ (getSlot s r (slotNo w)).closing = false ∧ lockedClaim s (4, r, slotNo w) = false ∧
      (preMode w = 2 → claimed s (2, r, preTable w) = false ∧ preChan w + preLen w ≤ descCount (rscDesc (getR s r) (preTable w))) ∧ preMode w = 0) ∧
    (∃ (s : State) (r : Ridge) (x : Ctx) (w : W128) (o : LOp) (b : List Byte),
      issuable s r x w 0x18 = true ∧ (getSlot s r (slotNo w)).opened = false ∧ (getSlot s r (slotNo w)).closing = false ∧ lockedClaim s (4, r, slotNo w) = false ∧
      (preMode w = 2 → claimed s (2, r, preTable w) = false ∧ preChan w + preLen w ≤ descCount (rscDesc (getR s r) (preTable w))) ∧ preMode w ≠ 0 ∧
      laOp s r (preSrc w) (vecBytes (preFmtOf w) (preLen w)) (fmtAlign (preFmtOf w)) false = some o ∧
      loamFree s r [rangeOf o (vecBytes (preFmtOf w) (preLen w))] [] = true ∧ ldLoam s o (vecBytes (preFmtOf w) (preLen w)) = (b, false)) ∧
    (∃ (s : State) (r : Ridge) (x : Ctx) (w : W128),
      issuable s r x w 0x18 = true ∧ preMode w = 2 ∧ claimed s (2, r, preTable w) = false ∧ preChan w + preLen w ≤ descCount (rscDesc (getR s r) (preTable w))) :=
  ⟨⟨ridge0 id, 0, .service, preWord 0 0, by decide⟩, ⟨ridge0 id, 0, .service, preWord 1 5, ⟨0, 0⟩, zeros 128, by decide⟩,
    ⟨ridge0 (tabled id), 0, .service, preWord 2 5, by decide⟩⟩

def drnWord : W128 := ins 0x19 [(own 0, 57)]
/-- Job 7 of ridge 0 inside an open rope. -/
def roped (w : W128) (f : RidgeSt → RidgeSt) : State :=
  setRope (running [w] (fun rd => f { rd with regions := [scratch, ⟨65536, 32768, 5, false, 0⟩], jobCtx := { rd.jobCtx with run := true, rope := some ⟨0, 0, 0, 1, false, 0⟩ } })) 0
    { Rope.free with st := .opened, parts := [0], job := 7, ridge := 0, timeout := 1 }

theorem witness_DrainsIssueAndComplete :
    (∃ (s : State) (r : Ridge) (x : Ctx) (w : W128) (f : Nat) (ws : List LRange),
      issuable s r x w 0x19 = true ∧ lockedClaim s (4, r, slotNo w) = false ∧ lockedClaim s (2, r, drnTable w) = false ∧
      drnSlotFault (getSlot s r (slotNo w)) w = none ∧ drnFmt (getR s r) w (getSlot s r (slotNo w)).len = some f ∧
      drnWrites s r w f (getSlot s r (slotNo w)).len = some ws ∧ loamFree s r [] ws = true ∧ (ctxOf (getR s r) x).rope = none) ∧
    (∃ (s : State) (r : Ridge) (x : Ctx) (w : W128) (f : Nat) (ws : List LRange),
      issuable s r x w 0x19 = true ∧ lockedClaim s (4, r, slotNo w) = false ∧ lockedClaim s (2, r, drnTable w) = false ∧
      drnSlotFault (getSlot s r (slotNo w)) w = none ∧ drnFmt (getR s r) w (getSlot s r (slotNo w)).len = some f ∧
      drnWrites s r w f (getSlot s r (slotNo w)).len = some ws ∧ loamFree s r [] ws = true ∧
      ∃ t n, stageAs s r x (drnSize w f (getSlot s r (slotNo w)).len) (.drain r (slotNo w) (getR s r).nextId) = .staged t n) ∧
    (∃ (s : State) (r : Ridge) (id : Nat) (e : Win),
      findWin s r id = some e ∧ e.kind = .drain ∧ e.staged = none ∧ faultedWin (getR s r) e = false ∧ slotReady s r e = true ∧
      e.rope = none ∧ (writeStaged s r (drainStaged s r e)).2 = false) ∧
    (∃ (s : State) (r : Ridge) (id : Nat) (e : Win),
      findWin s r id = some e ∧ e.kind = .drain ∧ e.staged = none ∧ faultedWin (getR s r) e = false ∧ slotReady s r e = true ∧ e.rope ≠ none) :=
  ⟨⟨ridge0 (tabled (fun rd => { rd with slots := [(0, opened 1)] })), 0, .service, drnWord, 2, [⟨0, 0, 32⟩], by decide⟩,
    ⟨roped drnWord (tabled (fun rd => { rd with slots := [(0, opened 1)] })), 0, .job, drnWord, 2, [⟨0, 0, 32⟩], by decide, by decide, by decide, by decide, by decide, by decide, by decide, staged_of_isStaged _ (by decide)⟩,
    ⟨ridge0 (tabled (fun rd => { rd with slots := [(0, opened 0)], win := [entry 3 drnWord .drain] })), 0, 3, entry 3 drnWord .drain, by decide⟩,
    ⟨ridge0 (tabled (fun rd => { rd with slots := [(0, opened 0)], win := [{ entry 3 drnWord .drain with rope := some 0 }] })), 0, 3, { entry 3 drnWord .drain with rope := some 0 }, by decide⟩⟩

/-! ### Witnesses: drained entries, images and atomics -/

theorem witness_CancelIsDecidedAtTheDrain :
    (∃ (shift : Nat) (e : Entry), shift ≠ 0 ∧ e.sat = false ∧ e.val = 0) ∧ (∃ (e : Entry) (c : W32), e.val = 0 ∧ c = 0) ∧
    (∃ (s : State) (r : Nat) (w : Win) (q : Nat), drnMap w.w = true ∧ laPhys s r (bits w.w 56 30) = some q) ∧
    (∃ (sl : Slot) (i : Nat), i < sl.len ∧ sl.len ≤ 512) ∧
    (∃ (s : State) (r p : Nat) (id : W32) (w : Win), (getR s r).job = some (p, id) ∧ aadForm w.w = 0) :=
  ⟨⟨15, Entry.zero, by decide⟩, ⟨Entry.zero, 0, by decide⟩, ⟨up, 47, entry 0 (ins 0x19 [(1, 117), (own 64, 30)]) .drain, 47, by decide⟩,
    ⟨{ Slot.reset with len := 512 }, 511, by decide⟩, ⟨running [] id, 0, 0, 7, entry 0 (ins 0x1C []) .aad, by decide⟩⟩

theorem witness_SpillImagesReadBack :
    (∃ e : Entry, e.val = 2 ^ 39 - 1 ∧ -(2 ^ 39) ≤ e.val ∧ e.val < 2 ^ 39) ∧ (∃ e : Entry, e.val = -(2 ^ 39) ∧ -(2 ^ 39) ≤ e.val ∧ e.val < 2 ^ 39) ∧
    (∃ l : Ledger, l.lo = 2 ^ 64 - 1 ∧ l.lo < 2 ^ 64 ∧ l.hi < 2 ^ 64) ∧
    (∃ (len : Nat) (exp : Int) (fl : Nat) (led : Ledger) (es : Nat → Entry),
      len = 512 ∧ exp = -(2 ^ 15) ∧ len ≤ 512 ∧ -(2 ^ 15) ≤ exp ∧ exp < 2 ^ 15 ∧ fl < 2 ^ 32 ∧ led.lo < 2 ^ 64 ∧ led.hi < 2 ^ 64 ∧
        (∀ i, i < len → -(2 ^ 39) ≤ (es i).val ∧ (es i).val < 2 ^ 39)) :=
  ⟨⟨⟨2 ^ 39 - 1, true, true, true, true⟩, by decide⟩, ⟨⟨-(2 ^ 39), false, false, false, false⟩, by decide⟩, ⟨Ledger.empty, by decide⟩,
    ⟨512, -(2 ^ 15), 2 ^ 32 - 1, Ledger.empty, fun _ => Entry.zero, by decide, by decide, by decide, by decide, by decide, by decide, by decide, by decide,
      fun _ _ => ⟨by simp [Entry.zero], by simp [Entry.zero]⟩⟩⟩

def splWord (op m : Nat) : W128 := ins op [(m, 57)]
def open1 (f : RidgeSt → RidgeSt) : RidgeSt → RidgeSt := fun rd => f { rd with slots := [(0, opened 1)] }
/-- The start of a spill image of one zero entry. -/
def image1 : List Byte := leBytes 4 0x50535648 ++ leBytes 2 1
def openLen1 (f : RidgeSt → RidgeSt) : RidgeSt → RidgeSt := fun rd => f { rd with slots := [(0, { opened 1 with len := 1 })] }

theorem witness_SpillsAndFillsIssue :
    (∃ (s : State) (r : Ridge) (x : Ctx) (w : W128) (o : LOp) (u : State) (e : Option Nat),
      issuable s r x w 0x1A = true ∧ lockedClaim s (4, r, slotNo w) = false ∧ (getSlot s r (slotNo w)).opened = true ∧
      (getSlot s r (slotNo w)).closing = false ∧ (getSlot s r (slotNo w)).pin = false ∧ maddrSpace (imageMaddr w) = false ∧
      laOp s r (maddrLaddr (imageMaddr w)) 6400 256 true = some o ∧ loamFree s r [] [rangeOf o 6400] = true ∧
      Joins s r x 6400 (.spill r (slotNo w) (getR s r).nextId) u e) ∧
    (∃ (s : State) (r : Ridge) (x : Ctx) (w : W128) (o : LOp) (u : State) (e : Nat),
      issuable s r x w 0x1A = true ∧ lockedClaim s (4, r, slotNo w) = false ∧ (getSlot s r (slotNo w)).opened = true ∧
      (getSlot s r (slotNo w)).closing = false ∧ (getSlot s r (slotNo w)).pin = false ∧ maddrSpace (imageMaddr w) = false ∧
      laOp s r (maddrLaddr (imageMaddr w)) 6400 256 true = some o ∧ loamFree s r [] [rangeOf o 6400] = true ∧
      Joins s r x 6400 (.spill r (slotNo w) (getR s r).nextId) u (some e)) ∧
    (∃ (s : State) (r : Ridge) (x : Ctx) (w : W128) (j : Job) (ps : List Piece) (u : State) (e : Option Nat),
      issuable s r x w 0x1A = true ∧ lockedClaim s (4, r, slotNo w) = false ∧ (getSlot s r (slotNo w)).opened = true ∧
      (getSlot s r (slotNo w)).closing = false ∧ (getSlot s r (slotNo w)).pin = false ∧ maddrSpace (imageMaddr w) = true ∧ dvaJob s r x = some j ∧
      maddrDva (imageMaddr w) % 256 = 0 ∧ ridgePlaces s j.part j r (maddrDva (imageMaddr w)) 6400 1 (ctxOf (getR s r) x).pc = .places ps ∧
      (anyPeer ps = true → (ctxOf (getR s r) x).rope = none) ∧
      Joins (if anyPeer ps then markDirty s r else s) r x 6400
        (.spill r (slotNo w) (getR (if anyPeer ps then markDirty s r else s) r).nextId) u e) ∧
    (∃ (s : State) (r : Ridge) (x : Ctx) (w : W128) (b : List Byte) (o : LOp),
      issuable s r x w 0x1B = true ∧ lockedClaim s (4, r, slotNo w) = false ∧ (getSlot s r (slotNo w)).opened = true ∧
      (getSlot s r (slotNo w)).closing = false ∧ earlierInto r (getR s r) (getR s r).nextId (slotNo w) = false ∧
      (getSlot s r (slotNo w)).received ≠ (getSlot s r (slotNo w)).expect ∧ maddrSpace (imageMaddr w) = false ∧
      laOp s r (maddrLaddr (imageMaddr w)) 6400 256 false = some o ∧ loamFree s r [rangeOf o 6400] [] = true ∧
      (imageParts (getSlot s r (slotNo w)).len).any (fun q => (ldLoam s ⟨o.ridge, o.off + q.1⟩ q.2).2) = false ∧
      (ldLoam s o 6400).1 = b ∧ imageOk (getSlot s r (slotNo w)) b = true) ∧
    (∃ (s : State) (r : Ridge) (x : Ctx) (w : W128) (b : List Byte) (j : Job) (h e c : List Byte),
      issuable s r x w 0x1B = true ∧ lockedClaim s (4, r, slotNo w) = false ∧ (getSlot s r (slotNo w)).opened = true ∧
      (getSlot s r (slotNo w)).closing = false ∧ earlierInto r (getR s r) (getR s r).nextId (slotNo w) = false ∧
      (getSlot s r (slotNo w)).received ≠ (getSlot s r (slotNo w)).expect ∧ maddrSpace (imageMaddr w) = true ∧ dvaJob s r x = some j ∧
      maddrDva (imageMaddr w) % 256 = 0 ∧
      (imageParts (getSlot s r (slotNo w)).len).map (fun q => ridgeRead s j.part j r (maddrDva (imageMaddr w) + q.1) q.2 (ctxOf (getR s r) x).pc) =
        [.bytes h false, .bytes e false, .bytes c false] ∧
      b = bytesAt h 0 256 ++ bytesAt e 0 4096 ++ bytesAt c 0 2048 ∧ imageOk (getSlot s r (slotNo w)) b = true) :=
  ⟨⟨ridge0 (open1 id), 0, .service, splWord 0x1A (own 0), ⟨0, 0⟩, _, none, by decide, by decide, by decide, by decide, by decide, by decide, by decide, by decide,
      .inl ⟨by decide, rfl, rfl⟩⟩,
    ⟨roped (splWord 0x1A (own 0)) (open1 id), 0, .job, splWord 0x1A (own 0), ⟨0, 0⟩, _, 0, by decide, by decide, by decide, by decide, by decide, by decide,
      by decide, by decide, .inr ⟨0, rfl, rfl⟩⟩,
    ⟨paged 0 (running [splWord 0x1A (dva 0)] (open1 id)), 0, .job, splWord 0x1A (dva 0), job7, pieces 25, _, none, by decide, by decide, by decide, by decide,
      by decide, by decide, by decide, by decide, by decide, fun _ => by decide, .inl ⟨by decide, rfl, rfl⟩⟩,
    ⟨ridge0 (openLen1 (fun rd => { rd with loam := loamFrom 0 image1 })), 0, .service, splWord 0x1B (own 0), _, ⟨0, 0⟩, by decide, by decide, by decide, by decide,
      by decide, by decide, by decide, by decide, by decide, by decide, rfl, by decide +kernel⟩,
    ⟨(fun s => { s with mem := { s.mem with dram := s.mem.dram ++ bytesFrom (2 ^ 21) image1 } }) (paged 0 (running [splWord 0x1B (dva 0)] (openLen1 id))), 0, .job,
      splWord 0x1B (dva 0), _, job7, image1 ++ zeros 58, zeros 8, zeros 4, by decide, by decide, by decide, by decide,
      by decide, by decide, by decide, by decide, by decide, by decide +kernel, rfl, by decide +kernel⟩⟩

def aadWord (form m : Nat) : W128 := ins 0x1C [(form, 117), (m, 57), (1, 94)]
def vecWord (form m : Nat) : W128 := ins 0x1C [(form, 117), (own 0, 85), (m, 36), (31, 20)]

theorem witness_AtomicAddsIssue :
    (∃ (s : State) (r : Ridge) (x : Ctx) (w : W128) (j : Job) (q : Nat),
      issuable s r x w 0x1C = true ∧ aadForm w ≤ 1 ∧ lockedClaim s (4, r, slotNo w) = false ∧ (getSlot s r (slotNo w)).opened = true ∧
      (getSlot s r (slotNo w)).closing = false ∧ (getSlot s r (slotNo w)).pin = false ∧ aadForm w = 0 ∧ x = .job ∧ jobOn s r = some j ∧
      physRidge j (bits w 105 100) = some q ∧
      (q = r.val → (getSlot s r (bits w 99 94)).opened = true ∧ (getSlot s r (bits w 99 94)).closing = false ∧ bits w 99 94 ≠ slotNo w)) ∧
    (∃ (s : State) (r : Ridge) (x : Ctx) (w : W128) (j : Job) (ps : List Piece),
      issuable s r x w 0x1C = true ∧ aadForm w ≤ 1 ∧ lockedClaim s (4, r, slotNo w) = false ∧ (getSlot s r (slotNo w)).opened = true ∧
      (getSlot s r (slotNo w)).closing = false ∧ (getSlot s r (slotNo w)).pin = false ∧ aadForm w = 1 ∧ dvaJob s r x = some j ∧
      maddrSpace (imageMaddr w) = true ∧ maddrDva (imageMaddr w) % 256 = 0 ∧
      ridgePlaces s j.part j r (maddrDva (imageMaddr w)) 6400 2 (ctxOf (getR s r) x).pc = .places ps) ∧
    (∃ (s : State) (r : Ridge) (x : Ctx) (w : W128) (j : Job) (o : LOp),
      issuable s r x w 0x1C = true ∧ aadForm w ≤ 1 ∧ lockedClaim s (4, r, slotNo w) = false ∧ (getSlot s r (slotNo w)).opened = true ∧
      (getSlot s r (slotNo w)).closing = false ∧ (getSlot s r (slotNo w)).pin = false ∧ aadForm w = 1 ∧ dvaJob s r x = some j ∧
      maddrSpace (imageMaddr w) = false ∧ laOp s r (maddrLaddr (imageMaddr w)) 6400 256 true = some o ∧ loamFree s r [] [rangeOf o 6400] = true) ∧
    (∃ (s : State) (r : Ridge) (x : Ctx) (w : W128) (j : Job) (o : LOp) (ws : List LRange) (l : List (Place × Nat)) (d : List Byte),
      issuable s r x w 0x1C = true ∧ aadForm w = 2 ∧ 2 ≤ aadForm w ∧ dvaJob s r x = some j ∧ laOp s r (bits w 111 85) (4 * (bits w 35 20 + 1)) 4 false = some o ∧
      vecTarget s r (vecMaddr w) (4 * (bits w 35 20 + 1)) = some ws ∧ loamFree s r [rangeOf o (4 * (bits w 35 20 + 1))] ws = true ∧
      ldLoam s o (4 * (bits w 35 20 + 1)) = (d, false) ∧ maddrPlaces s r j (vecMaddr w) (4 * (bits w 35 20 + 1)) 2 (ctxOf (getR s r) x).pc = .found l) ∧
    (∃ (s : State) (r : Ridge) (x : Ctx) (w : W128) (j : Job) (o : LOp) (ws : List LRange) (l : List (Place × Nat)) (d : List Byte),
      issuable s r x w 0x1C = true ∧ aadForm w = 3 ∧ 2 ≤ aadForm w ∧ dvaJob s r x = some j ∧ laOp s r (bits w 111 85) (4 * (bits w 35 20 + 1)) 4 false = some o ∧
      vecTarget s r (vecMaddr w) (4 * (bits w 35 20 + 1)) = some ws ∧ loamFree s r [rangeOf o (4 * (bits w 35 20 + 1))] ws = true ∧
      ldLoam s o (4 * (bits w 35 20 + 1)) = (d, false) ∧ maddrPlaces s r j (vecMaddr w) (4 * (bits w 35 20 + 1)) 2 (ctxOf (getR s r) x).pc = .found l) :=
  ⟨⟨running [aadWord 0 0] (fun rd => { rd with slots := [(0, opened 1), (1, opened 1)] }), 0, .job, aadWord 0 0, job7, 0, by decide⟩,
    ⟨paged 0 (running [ins 0x1C [(1, 117), (dva 0, 57)]] (open1 id)), 0, .job, ins 0x1C [(1, 117), (dva 0, 57)], job7, pieces 25, by decide⟩,
    ⟨running [ins 0x1C [(1, 117), (own 0, 57)]] (open1 id), 0, .job, ins 0x1C [(1, 117), (own 0, 57)], job7, ⟨0, 0⟩, by decide⟩,
    ⟨paged 0 (running [vecWord 2 (dva 0)] id), 0, .job, vecWord 2 (dva 0), job7, ⟨0, 0⟩, [], [(.local (2 ^ 21), 128)], zeros 128, by decide⟩,
    ⟨running [vecWord 3 (own 256)] id, 0, .job, vecWord 3 (own 256), job7, ⟨0, 0⟩, [⟨0, 256, 128⟩], [(.loam 0 256, 128)], zeros 128, by decide⟩⟩

/-! ### Witnesses: arrivals, memory atomics and vector units -/

/-- A message of 32 entries from ridge 0 to slot 1 of ridge 1. -/
def msg : AadMsg := ⟨5, 0, 3, 0, 7, 1, 1, 0, 0, 32, 0, [], [], .empty, 0⟩
def arriving (m : AadMsg) (f : RidgeSt → RidgeSt) : State :=
  let s := updR (running [] (fun rd => { rd with win := [{ entry 3 (aadWord 0 0) .aad with ctx := .job }] })) 1 f
  { s with mem := { s.mem with aads := [m] } }

theorem witness_ArrivingAadsCommitOrFault :
    (∃ (s : State) (id : Nat) (m : AadMsg), s.mem.aads.find? (fun m => m.id = id) = some m ∧
      (m.srcRidge = m.tgtRidge → earlierInto m.srcRidge (getR s m.srcRidge) m.win m.tgtSlot = false) ∧ aadCheck s m = none) ∧
    (∀ code ∈ [0x0A, 0x08, 0x09, 0x0B], ∃ (s : State) (id : Nat) (m : AadMsg) (w : Win), s.mem.aads.find? (fun m => m.id = id) = some m ∧
      (m.srcRidge = m.tgtRidge → earlierInto m.srcRidge (getR s m.srcRidge) m.win m.tgtSlot = false) ∧ aadCheck s m = some code ∧
      findWin { s with mem := { s.mem with aads := s.mem.aads.filter (fun v => v.id ≠ id) } } m.srcRidge m.win = some w) := by
  refine ⟨⟨arriving msg (fun rd => { rd with slots := [(1, opened 1)] }), 5, msg, by decide⟩, fun code h => ?_⟩
  simp only [List.mem_cons, List.not_mem_nil, or_false] at h
  rcases h with rfl | rfl | rfl | rfl
  · exact ⟨arriving { msg with tgtRidge := 2 } id, 5, { msg with tgtRidge := 2 }, { entry 3 (aadWord 0 0) .aad with ctx := .job }, by decide⟩
  · exact ⟨arriving msg id, 5, msg, { entry 3 (aadWord 0 0) .aad with ctx := .job }, by decide⟩
  · exact ⟨arriving msg (fun rd => { rd with slots := [(1, opened 0)] }), 5, msg, { entry 3 (aadWord 0 0) .aad with ctx := .job }, by decide⟩
  · exact ⟨arriving { msg with off := 1 } (fun rd => { rd with slots := [(1, opened 1)] }), 5, { msg with off := 1 },
      { entry 3 (aadWord 0 0) .aad with ctx := .job }, by decide⟩

def atom (op : AtomOp) (pl : Place) : MemAtomic := ⟨5, op, pl, none, zeros 8, 0, 0, 7, 0, 3⟩
def atomic (m : MemAtomic) (f : RidgeSt → RidgeSt) : State :=
  let s := running [] f
  { s with mem := { s.mem with atomics := [m] } }
/-- Device 9 is reached by port 0 and up, and this device may export to it (R343, R346). -/
def linked (s : State) : State :=
  { s with links := { s.links with idValid := true, devId := 1, ports := [(0, { LinkSt.reset with st := .up })], routes := [(9, 0x8000)],
                                   peers := [(9, { Peer.absent with st := .up, importMask := 0xFFFF })] } }

theorem witness_MemoryAtomicsApply :
    (∃ (s : State) (id : Nat) (m : MemAtomic) (q o : Nat), s.mem.atomics.find? (fun m => m.id = id) = some m ∧ m.place = .loam q o ∧
      loamBad (getR s q) o m.data.length = false ∧ (atomApply m.op (loamBytes (getR s q) q o m.data.length) m.data).range = false) ∧
    (∃ (s : State) (id : Nat) (m : MemAtomic) (pa : Nat), s.mem.atomics.find? (fun m => m.id = id) = some m ∧ m.place = .local pa ∧
      dramBad s pa m.data.length = false ∧ (atomApply m.op (dramBytes s pa m.data.length) m.data).range = false) ∧
    (∃ (s : State) (id : Nat) (m : MemAtomic) (q o : Nat), s.mem.atomics.find? (fun m => m.id = id) = some m ∧ m.place = .loam q o ∧
      loamBad (getR s q) o m.data.length = false ∧ (atomApply m.op (loamBytes (getR s q) q o m.data.length) m.data).range = true) ∧
    (∃ (s : State) (id : Nat) (m : MemAtomic) (pa : Nat), s.mem.atomics.find? (fun m => m.id = id) = some m ∧ m.place = .local pa ∧
      dramBad s pa m.data.length = false ∧ (atomApply m.op (dramBytes s pa m.data.length) m.data).range = true) ∧
    (∃ (s : State) (id : Nat) (m : MemAtomic) (q o : Nat), s.mem.atomics.find? (fun m => m.id = id) = some m ∧ m.place = .loam q o ∧
      loamBad (getR s q) o m.data.length = true) ∧
    (∃ (s : State) (id : Nat) (m : MemAtomic) (pa : Nat), s.mem.atomics.find? (fun m => m.id = id) = some m ∧ m.place = .local pa ∧
      dramBad s pa m.data.length = true) ∧
    (∃ (s : State) (id : Nat) (m : MemAtomic) (dev off : Nat) (j : Job), s.mem.atomics.find? (fun m => m.id = id) = some m ∧
      m.place = .remote dev off ∧ findJob s m.part m.job = some j ∧ j.st ≠ .suspended ∧ j.st ≠ .saved ∧ remoteBar s m.part dev = none ∧
      ∃ t, peerSend { s with mem := { s.mem with atomics := s.mem.atomics.filter (fun v => v.id ≠ id) } } j
        (mkReq 3 dev m.part m.job m.ridge m.win off (atomCode m.op) m.data m.dva) = some t) :=
  ⟨⟨atomic (atom .int32 (.loam 0 0)) id, 5, _, 0, 0, rfl, rfl, by decide⟩, ⟨atomic (atom .int32 (.local 0)) id, 5, _, 0, rfl, rfl, by decide⟩,
    ⟨atomic (atom .header (.loam 0 0)) id, 5, _, 0, 0, rfl, rfl, by decide⟩, ⟨atomic (atom .header (.local 0)) id, 5, _, 0, rfl, rfl, by decide⟩,
    ⟨atomic (atom .fp32 (.loam 0 0)) (fun rd => { rd with poison := [(0, true)] }), 5, _, 0, 0, rfl, rfl, by decide⟩,
    ⟨dramPoison (atomic (atom .entry40 (.local 0)) id) 0 true, 5, _, 0, rfl, rfl, by decide⟩,
    ⟨linked (atomic (atom .int32 (.remote 9 0)) id), 5, _, 9, 0, job7, rfl, rfl, by decide, by decide, by decide, by decide, some_of_isSome (by decide +kernel)⟩⟩

/-- A DMM descriptor: INT8 operands of one element, INT32 result, scale 1 (R197). -/
def dmu1 : W256 := BitVec.ofNat 256 (leNat ([0, 2, 2, 5, 1, 0, 1, 0, 1, 0, 0, 0] ++ zeros 12 ++ leBytes 4 0x3F800000))
def dmmWord (acc b : Nat) : W128 := ins 0x20 [(acc, 118), (own 0, 76), (own 256, 49), (b, 0)]
def withDmu (rd : RidgeSt) : RidgeSt := { rd with dmu := [(0, dmu1)] }
def vopWord (op f n : Nat) : W128 := ins 0x21 [(op, 108), (own 0, 81), (if op = 7 then 0 else own 512, 54), (own 1024, 27), (f, 22), (f, 17), (n - 1, 0)]
def redWord (op f o : Nat) : W128 := ins 0x22 [(op, 112), (own 0, 85), (own 256, 58), (f, 53), (o, 48)]

theorem witness_VectorUnitsIssueAndComplete :
    (∃ (s : State) (r : Ridge) (x : Ctx) (w : W128) (a c : LOp) (b : List Byte) (bt : List W32) (br : List LRange) (ab cb : List Byte),
      issuable s r x w 0x20 = true ∧ bitAt w 118 = true ∧ dmuOk (dmuAt (getR s r) w) (bitAt w 118) = true ∧
      laOp s r (bits w 102 76) (spanA (dmuAt (getR s r) w)) (fmtAlign (dmuAt (getR s r) w).fa) false = some a ∧
      laOp s r (bits w 75 49) (spanC (dmuAt (getR s r) w)) (fmtAlign (dmuAt (getR s r) w).fc) true = some c ∧
      dmmB s r x w (dmuAt (getR s r) w) = .ok b false bt br ∧
      loamFree s r ([rangeOf a (spanA (dmuAt (getR s r) w))] ++ br) [rangeOf c (spanC (dmuAt (getR s r) w))] = true ∧
      ldLoam s a (spanA (dmuAt (getR s r) w)) = (ab, false) ∧
      (if bitAt w 118 then ldLoam s c (spanC (dmuAt (getR s r) w)) else ([], false)) = (cb, false) ∧
      ∃ t, dmuWrite (dmmBase s r x) r x (dmmResult s (dmuAt (getR s r) w) (bitAt w 118) a c ab b cb bt).1
        (dmmResult s (dmuAt (getR s r) w) (bitAt w 118) a c ab b cb bt).2.1 (dmmResult s (dmuAt (getR s r) w) (bitAt w 118) a c ab b cb bt).2.2 = .next t) ∧
    (∀ op ∈ [0, 7], ∃ (s : State) (r : Ridge) (x : Ctx) (w : W128) (a c : LOp) (b : Option LOp),
      issuable s r x w 0x21 = true ∧ vopOp w = op ∧ laOp s r (bits w 107 81) (vecBytes (vopF w) (vopLen w)) (fmtAlign (vopF w)) false = some a ∧
      vopB s r w = some b ∧ laOp s r (bits w 53 27) (vecBytes (vopOut w) (vopLen w)) (fmtAlign (vopOut w)) true = some c ∧
      (vopOp w = 7 → vopLen w % (bits w 69 54 + 1) = 0) ∧ loamFree s r (vopReads w a b) [rangeOf c (vecBytes (vopOut w) (vopLen w))] = true ∧
      (ldLoam s a (vecBytes (vopF w) (vopLen w))).2 = false ∧ (vopBytesB s w b).2 = false ∧
      ∃ v : List (Nat × Bool) × List W32, vopCodes s r w (ldLoam s a (vecBytes (vopF w) (vopLen w))).1 (vopBytesB s w b).1 = .ok v ∧
        ∃ t, dmuWrite s r x [(c, packCodes (vopOut w) (v.1.map (fun e => e.1)))] (vopTag s w a b v.2) (v.1.filter (fun e => e.2)).length = .next t) ∧
    (∀ op ∈ [0, 1, 2, 3], ∃ (s : State) (r : Ridge) (x : Ctx) (w : W128) (a c : LOp) (rows : List (List Byte × Nat)),
      issuable s r x w 0x22 = true ∧ redOp w = op ∧ redSrc s r w = some a ∧ redDst s r w = some c ∧
      loamFree s r [rangeOf a (redSrcLen w)] [rangeOf c (redDstLen w)] = true ∧ (ldLoam s a (redSrcLen w)).2 = false ∧
      redOut w (ldLoam s a (redSrcLen w)).1 = some rows ∧
      ∃ t, dmuWrite s r x [(c, rows.flatMap (fun y => y.1))] (mergeTags s (opTags s a (redSrcLen w))) ((rows.map (fun y => y.2)).foldl (· + ·) 0) = .next t) := by
  refine ⟨⟨ridge0 withDmu, 0, .service, dmmWord 1 (own 512), ⟨0, 0⟩, ⟨0, 256⟩, [0], [0], [⟨0, 512, 1⟩], [0], zeros 4, by decide, by decide, by decide, by decide,
    by decide, by decide, by decide, by decide, by decide, next_of_isNextI _ (by decide)⟩, fun op h => ?_, fun op h => ?_⟩
  · simp only [List.mem_cons, List.not_mem_nil, or_false] at h
    rcases h with rfl | rfl
    · exact ⟨ridge0 id, 0, .service, vopWord 0 2 3, ⟨0, 0⟩, ⟨0, 1024⟩, some ⟨0, 512⟩, by decide, by decide, by decide, by decide, by decide, by decide, by decide,
        by decide, by decide, ok_of_isOkNext _ _ (by decide)⟩
    · exact ⟨ridge0 id, 0, .service, vopWord 7 11 1, ⟨0, 0⟩, ⟨0, 1024⟩, none, by decide, by decide, by decide, by decide, by decide, by decide, by decide,
        by decide, by decide, ok_of_isOkNext _ _ (by decide)⟩
  · simp only [List.mem_cons, List.not_mem_nil, or_false] at h
    rcases h with rfl | rfl | rfl | rfl
    · exact ⟨ridge0 id, 0, .service, redWord 0 2 5, ⟨0, 0⟩, ⟨0, 256⟩, _, by decide, by decide, by decide, by decide, by decide, by decide, rfl, next_of_isNextI _ (by decide)⟩
    · exact ⟨ridge0 id, 0, .service, redWord 1 2 5, ⟨0, 0⟩, ⟨0, 256⟩, _, by decide, by decide, by decide, by decide, by decide, by decide, rfl, next_of_isNextI _ (by decide)⟩
    · exact ⟨ridge0 id, 0, .service, redWord 2 2 0, ⟨0, 0⟩, ⟨0, 256⟩, _, by decide, by decide, by decide, by decide, by decide, by decide, rfl, next_of_isNextI _ (by decide)⟩
    · exact ⟨ridge0 (fun rd => { rd with loam := loamFrom 0 [1] }), 0, .service, redWord 3 0 0, ⟨0, 0⟩, ⟨0, 256⟩, _, by decide, by decide, by decide, by decide, by decide, by decide, rfl, next_of_isNextI _ (by decide)⟩

/-! ### Witnesses: DMA, translation, signals and cairns -/

/-- A DMA descriptor of one row of 64 bytes (R256). -/
def dmaD (op sk dk flags look slots src dst : Nat) : BitVec 512 :=
  BitVec.ofNat 512 (leNat ([BitVec.ofNat 8 op, BitVec.ofNat 8 sk, BitVec.ofNat 8 dk, BitVec.ofNat 8 flags, BitVec.ofNat 8 look, BitVec.ofNat 8 slots, 0, 0] ++
    leBytes 8 src ++ leBytes 8 dst ++ leBytes 4 64 ++ leBytes 4 1))
def dmaWord (sig : Nat) : W128 := ins 0x28 [(sig, 118), (if sig = 1 then 63 else 0, 94)]
def withDma (d : BitVec 512) (rd : RidgeSt) : RidgeSt := { rd with dma := [(0, d)] }

theorem witness_DmaDescriptorsIssue :
    ∀ op ∈ [0, 2, 3], ∃ (s : State) (r : Ridge) (x : Ctx) (w : W128) (rs ws : List LRange), issuable s r x w 0x28 = true ∧
      (let d := dmaAt (getR s r) w
       let src := endpoint w d.sk d.src
       let dst := endpoint w d.dk d.dst
       dmaBad d = false ∧ endpointOk s r (ctxJob s r x) d.sk src d.ss d.rows d.rowBytes false = some rs ∧
       endpointOk s r (ctxJob s r x) d.dk dst d.ds d.rows d.rowBytes true = some ws ∧
       ((getDma s (clusterOf r)).filter (fun e => e.ridge = r.val)).length < 128 ∧ loamFree s r rs ws = true ∧ d.op = op) := by
  intro op h
  simp only [List.mem_cons, List.not_mem_nil, or_false] at h
  rcases h with rfl | rfl | rfl
  · exact ⟨ridge0 (withDma (dmaD 0 0 0 0 0 0 (own 0) (own 4096))), 0, .service, dmaWord 0, [⟨0, 0, 64⟩], [⟨0, 4096, 64⟩], by decide +kernel⟩
  · exact ⟨running [dmaWord 0] (withDma (dmaD 2 3 1 0 0 0 0 (2 ^ 48 - 64))), 0, .job, dmaWord 0, [], [], by decide +kernel⟩
  · exact ⟨ridge0 (withDma (dmaD 3 3 0 0 0 0 0 (own 65472))), 0, .service, dmaWord 0, [], [⟨0, 65472, 64⟩], by decide +kernel⟩

/-- A descriptor in flight on ridge 0: a COPY of 64 bytes in Loam. -/
def flight (x : Ctx) : Dma := ⟨5, 0, x, 3, 0, 7, 0, 0, 0, 0, 0, own 0, own 4096, 64, 1, 0, 0, 0, 0, 0, 0, false, none⟩
def flying (d : Dma) (f : RidgeSt → RidgeSt) : State :=
  setDma (running [] (fun rd => f { rd with win := [{ entry 3 (dmaWord 0) .dma with ctx := d.ctx }] })) 0 [d]

theorem witness_DmaRunsAndCompletes :
    (∀ bad ∈ [false, true], ∃ (s : State) (c : Fin 4) (hostOk : Bool) (d : Dma) (rest : List Dma) (row off len : Nat),
      getDma s c = d :: rest ∧ (d.ctx = .service ∨ ∃ j, findJob s d.part d.job = some j ∧ j.st = .running) ∧ srcRoom s (srcCluster c) = true ∧
      segAt d d.next = some (row, off, len) ∧ ∃ t n, dmaSeg s (findJob s d.part d.job) d c hostOk row off len = .done t bad n) ∧
    (∃ (s : State) (c : Fin 4) (hostOk : Bool) (d : Dma) (rest : List Dma) (row off len : Nat) (b : List Byte) (tag : W32),
      getDma s c = d :: rest ∧ (d.ctx = .service ∨ ∃ j, findJob s d.part d.job = some j ∧ j.st = .running) ∧ srcRoom s (srcCluster c) = true ∧
      segAt d d.next = some (row, off, len) ∧ d.op ≠ 2 ∧ d.dstKind ≠ 2 ∧
      dmaRead s (findJob s d.part d.job) d c hostOk (rowAddr d.srcAddr d.srcStride row + off) len = .ok b true tag) ∧
    (∀ d ∈ [{ flight .job with next := 1, bad := true }, { flight .job with next := 1 }, { flight .job with next := 1, signal := some 63 },
        { flight .service with next := 1, signal := some 0 }],
      ∃ (s : State) (c : Fin 4) (id : Nat) (e : Win), (getDma s c).find? (fun d => d.id = id) = some d ∧ segAt d d.next = none ∧ d.posted = 0 ∧
        (∀ j, findJob s d.part d.job = some j → j.st ≠ .saved) ∧
        findWin (setDma s c ((getDma s c).filter (fun e => e.id ≠ id))) d.ridge d.win = some e) := by
  refine ⟨fun bad h => ?_, ⟨flying (flight .job) (fun rd => { rd with poison := [(0, true)] }), 0, true, flight .job, [], 0, 0, 64, zeros 64, _, rfl,
    .inr ⟨job7, by decide⟩, by decide, by decide, by decide, by decide, rfl⟩, fun d h => ?_⟩
  · cases bad
    · exact ⟨flying (flight .service) id, 0, true, flight .service, [], 0, 0, 64, rfl, .inl rfl, by decide, by decide, done_of_isDone _ _ (by decide)⟩
    · exact ⟨flying (flight .job) (fun rd => { rd with poison := [(0, true)] }), 0, true, flight .job, [], 0, 0, 64, rfl, .inr ⟨job7, by decide⟩, by decide, by decide,
        done_of_isDone _ _ (by decide)⟩
  · have hj : ∀ j, findJob (flying d id) 0 7 = some j → j.st ≠ .saved := by
      intro j hj
      have : j = job7 := by
        have h1 : findJob (flying d id) 0 7 = some job7 := rfl
        rw [h1] at hj
        exact (Option.some.inj hj).symm
      rw [this]
      decide
    simp only [List.mem_cons, List.not_mem_nil, or_false] at h
    rcases h with rfl | rfl | rfl | rfl <;>
      exact ⟨flying _ id, 0, 5, _, rfl, by decide, rfl, hj, rfl⟩

def ringD : BitVec 512 := dmaD 1 1 0 2 0 1 0 (own 0)
def cacheD : BitVec 512 := dmaD 1 1 3 0 1 0 0 0

theorem witness_PrefetchersSetUpAndFill :
    (∀ sig ∈ [0, 1], ∀ d1 ∈ [ringD, cacheD], ∃ (s : State) (r : Ridge) (x : Ctx) (w : W128) (ss ws : List LRange) (k : Nat), issuable s r x w 0x28 = true ∧
      (let d := dmaAt (getR s r) w
       let slotBytes := (d.rowBytes + 255) / 256 * 256
       d = dmaOf d1 ∧ d.op = 1 ∧ dmaBad d = false ∧ endpointOk s r (ctxJob s r x) 1 (endpoint w d.sk d.src) d.ss d.rows d.rowBytes false = some ss ∧
       endpointOk s r (ctxJob s r x) d.dk (endpoint w d.dk d.dst) slotBytes d.slots slotBytes true = some ws ∧ ws.all (fun q => q.ridge = r.val) = true ∧
       prefetchPick (getR s r) (d.flags.testBit 1) = some k) ∧
      (sig = 1 → dmaSignal w = some 63 ∧ ctxJob s r x = some job7) ∧ (sig = 0 → dmaSignal w = none)) ∧
    (∃ (s : State) (r : Ridge) (k : Fin 4) (j : Job) (ps : List Piece) (b : List Byte),
      let f := tget Prefetch.free (getR s r).prefetch k
      let agent := agentCluster (clusterOf r)
      jobOn s r = some j ∧ j.st = .running ∧ f.active = true ∧ f.ring = true ∧ f.faulted = none ∧ f.filled < f.rows ∧
      f.busy.any (fun b => b % f.slots = f.filled % f.slots) = false ∧ translate s j.part j agent (rowAddr f.src f.stride f.filled) f.rowBytes 0 = .ok ps ∧
      readPieces s j.part agent ps = some (b, false)) := by
  refine ⟨fun sig h d1 h1 => ?_, ⟨paged 48 (running [] (fun rd => { rd with prefetch := [(3, { Prefetch.free with active := true, ring := true, rowBytes := 256, rows := 1, slots := 1 })] })),
    0, 3, job7, pieces 1, zeros 256, by decide +kernel⟩⟩
  simp only [List.mem_cons, List.not_mem_nil, or_false] at h h1
  rcases h with rfl | rfl <;> rcases h1 with rfl | rfl
  · exact ⟨running [dmaWord 0] (withDma ringD), 0, .job, dmaWord 0, [], [⟨0, 0, 256⟩], 0, by decide +kernel⟩
  · exact ⟨running [dmaWord 0] (withDma cacheD), 0, .job, dmaWord 0, [], [], 0, by decide +kernel⟩
  · exact ⟨running [dmaWord 1] (withDma ringD), 0, .job, dmaWord 1, [], [⟨0, 0, 256⟩], 0, by decide +kernel⟩
  · exact ⟨running [dmaWord 1] (withDma cacheD), 0, .job, dmaWord 1, [], [], 0, by decide +kernel⟩

/-- A walk of job 7 for an agent, asked by a source (R259). -/
def walk (source agent dva : Nat) : Walk := ⟨5, 0, 7, agent, dva, 1, source, 0, 0xFFFF, 0, 0⟩
def walking (w : Walk) (s : State) : State := { s with mem := { s.mem with walks := [w] } }
/-- The page of that map (R252). -/
def page0 : Page := ⟨0, 2 ^ 21, 2 ^ 21, true, false, false⟩

theorem witness_PageWalksEnd :
    (∀ c ∈ [(0, 47), (0, 48), (1, 48)], ∃ (s : State) (id : Nat) (w : Walk) (j : Job) (g : Page), s.mem.walks.find? (fun w => w.id = id) = some w ∧
      findJob s w.part w.job = some j ∧ w.source = c.1 ∧ w.agent = c.2 ∧ walkDva s w.part j w.dva w.access = .ok g) ∧
    (∀ c ∈ [(3, 48), (0, 0), (0, 48), (1, 48)], ∃ (s : State) (id : Nat) (w : Walk) (j : Job) (k l : Nat), s.mem.walks.find? (fun w => w.id = id) = some w ∧
      findJob s w.part w.job = some j ∧ w.source = c.1 ∧ w.agent = c.2 ∧ walkDva s w.part j w.dva w.access = .fault k l) ∧
    (∃ (s : State) (id : Nat) (w : Walk) (j : Job) (c l : Nat) (o : OpenRope), s.mem.walks.find? (fun w => w.id = id) = some w ∧
      findJob s w.part w.job = some j ∧ walkDva s w.part j w.dva w.access = .fault c l ∧ w.source = 0 ∧ w.agent < 48 ∧
      (getR (ridgeMmu { s with mem := { s.mem with walks := s.mem.walks.filter (fun v => v.id ≠ id) } } srcWalker w.part j w.agent w.instr c w.dva w.access l)
        w.agent).jobCtx.rope = some o) := by
  refine ⟨fun c h => ?_, fun c h => ?_, ⟨walking (walk 0 0 (2 ^ 21)) (paged 0 (roped drnWord id)), 5, _, job7, 1, 0x12, _, rfl, by decide, by decide, by decide, by decide, rfl⟩⟩
  · simp only [List.mem_cons, List.not_mem_nil, or_false] at h
    rcases h with rfl | rfl | rfl
    · exact ⟨walking (walk 0 47 0) (paged 0 (running [] id)), 5, walk 0 47 0, job7, page0, by decide⟩
    · exact ⟨walking (walk 0 48 0) (paged 0 (running [] id)), 5, walk 0 48 0, job7, page0, by decide⟩
    · exact ⟨walking (walk 1 48 0) (paged 0 (running [] id)), 5, walk 1 48 0, job7, page0, by decide⟩
  · simp only [List.mem_cons, List.not_mem_nil, or_false] at h
    rcases h with rfl | rfl | rfl | rfl
    · exact ⟨walking (walk 3 48 (2 ^ 21)) (paged 0 (running [] id)), 5, walk 3 48 (2 ^ 21), job7, 1, 0x12, by decide⟩
    · exact ⟨walking (walk 0 0 (2 ^ 21)) (paged 0 (running [] id)), 5, walk 0 0 (2 ^ 21), job7, 1, 0x12, by decide⟩
    · exact ⟨walking (walk 0 48 (2 ^ 21)) (paged 0 (running [] id)), 5, walk 0 48 (2 ^ 21), job7, 1, 0x12, by decide⟩
    · exact ⟨walking (walk 1 48 (2 ^ 21)) (paged 0 (running [] id)), 5, walk 1 48 (2 ^ 21), job7, 1, 0x12, by decide⟩

/-- Partition 0 holding weight set 5. -/
def holding (p : Nat) : State := { up with parts := [(0, { part0 with wsets := [wset5 p] })] }

theorem witness_MoraineFillsCdus :
    (∃ (s : State) (p : PartNo) (pa off : Nat), (getP s p).st ≠ .free ∧ pa % 256 = 0 ∧ paOffset (getP s p) pa = some off ∧ off < userSize (getP s p)) ∧
    (∃ (s : State) (p : PartNo) (pa off : Nat) (ws : W32) (r pos : Nat), (getP s p).st ≠ .free ∧ pa % 256 = 0 ∧ paOffset (getP s p) pa = some off ∧
      userSize (getP s p) ≤ off ∧ goldenAt (getP s p) (off - userSize (getP s p)) = some (ws, r, pos)) ∧
    (∃ (s : State) (p : PartNo) (pa off : Nat), (getP s p).st ≠ .free ∧ pa % 256 = 0 ∧ paOffset (getP s p) pa = some off ∧
      userSize (getP s p) ≤ off ∧ goldenAt (getP s p) (off - userSize (getP s p)) = none) :=
  ⟨⟨holding 0, 0, 0, 0, by decide⟩, ⟨holding 0, 0, userSize (getP (holding 0) 0), userSize (getP (holding 0) 0), 5, 0, 0, by decide⟩,
    ⟨holding 0, 0, 2 ^ 30 - 256, 2 ^ 30 - 256, by decide⟩⟩

def waitWord (mode cnt thresh : Nat) : W128 := ins 0x30 [(mode, 112), (cnt, 106), (thresh, 74)]

theorem witness_WaitsHoldAndRelease :
    (∀ mode ∈ [0, 1, 2], ∃ (s : State) (r : Ridge) (x : Ctx) (w : W128), issuable s r x w 0x30 = true ∧ waitMode w = mode ∧ waitMet (getR s r) w = true) ∧
    (∀ mode ∈ [0, 1, 2], ∃ (s : State) (r : Ridge) (x : Ctx) (w : W128), issuable s r x w 0x30 = true ∧ waitMode w = mode ∧ waitMet (getR s r) w = false) ∧
    (∃ (s : State) (r : Ridge) (x : Ctx) (w : W128), opOf w = 0x30 ∧ canIssue s r x w = true ∧ waitMode w = 3) ∧
    (∀ x ∈ [Ctx.job, Ctx.service], ∃ (s : State) (r : Ridge) (w : W128), (ctxOf (getR s r) x).waiting = some w ∧ waitMet (getR s r) w = true ∧ ctxLive s r x = true) := by
  refine ⟨fun m h => ?_, fun m h => ?_, ⟨up, 0, .service, waitWord 3 0 0, by decide⟩, fun x h => ?_⟩
  · simp only [List.mem_cons, List.not_mem_nil, or_false] at h
    rcases h with rfl | rfl | rfl
    · exact ⟨ridge0 (fun rd => { rd with cnt := [(63, 0x7FFFFFFF)] }), 0, .service, waitWord 0 63 0, by decide⟩
    · exact ⟨up, 0, .service, waitWord 1 0 0, by decide⟩
    · exact ⟨up, 0, .service, waitWord 2 0 0, by decide⟩
  · simp only [List.mem_cons, List.not_mem_nil, or_false] at h
    rcases h with rfl | rfl | rfl
    · exact ⟨up, 0, .service, waitWord 0 0 1, by decide⟩
    · exact ⟨up, 0, .service, waitWord 1 0 1, by decide⟩
    · exact ⟨ridge0 (fun rd => { rd with cnt := [(0, 0x80000000)] }), 0, .service, waitWord 2 0 0, by decide⟩
  · simp only [List.mem_cons, List.not_mem_nil, or_false] at h
    rcases h with rfl | rfl
    · exact ⟨running [] (fun rd => { rd with jobCtx := { rd.jobCtx with waiting := some (waitWord 0 0 0) } }), 0, waitWord 0 0 0, by decide⟩
    · exact ⟨ridge0 (fun rd => { rd with svcCtx := { rd.svcCtx with waiting := some (waitWord 0 0 0) } }), 0, waitWord 0 0 0, by decide⟩

def sigWord (early cnt tgt v : Nat) : W128 := ins 0x31 [(early, 112), (cnt, 106), (tgt, 100), (v, 68)]
def landed : SigMsg := ⟨5, 1, 55, 1, 0, 7, 0, 3⟩
def landing (l : List Win) : State :=
  let s := running [] (fun rd => { rd with win := l })
  { s with mem := { s.mem with sigs := [landed] } }

theorem witness_SignalsAddToCounters :
    (∃ (s : State) (r : Ridge) (x : Ctx) (w : W128) (q : Nat), issuable s r x w 0x31 = true ∧
      (if bits w 105 100 = 63 then some r.val else (jobOn s r).bind (fun j => physRidge j (bits w 105 100))) = some q ∧
      (ctxOf (getR s r) x).rope = none ∧ bitAt w 112 = false) ∧
    (∃ (s : State) (r : Ridge) (x : Ctx) (w : W128) (q p : Nat) (id : W32), issuable s r x w 0x31 = true ∧
      (if bits w 105 100 = 63 then some r.val else (jobOn s r).bind (fun j => physRidge j (bits w 105 100))) = some q ∧
      (ctxOf (getR s r) x).rope = none ∧ bitAt w 112 = true ∧ (getR s r).job = some (p, id)) ∧
    (∃ (s : State) (r : Ridge) (x : Ctx) (w : W128) (q : Nat), issuable s r x w 0x31 = true ∧
      (if bits w 105 100 = 63 then some r.val else (jobOn s r).bind (fun j => physRidge j (bits w 105 100))) = some q ∧
      (ctxOf (getR s r) x).rope = none ∧ bitAt w 112 = true ∧ (getR s r).job = none) ∧
    (∃ (s : State) (r : Ridge) (x : Ctx) (w : W128) (q : Nat), issuable s r x w 0x31 = true ∧
      (if bits w 105 100 = 63 then some r.val else (jobOn s r).bind (fun j => physRidge j (bits w 105 100))) = some q ∧
      ∃ t n, stageAs s r x 0 (.signal q (bits w 111 106) (sigValue w)) = .staged t n) ∧
    (∃ (s : State) (id : Nat) (m : SigMsg) (w : Win), s.mem.sigs.find? (fun m => m.id = id) = some m ∧
      findWin (addCounter { s with mem := { s.mem with sigs := s.mem.sigs.filter (fun v => v.id ≠ id) } } m.part m.job m.tgt m.cnt m.v) m.src m.win = some w ∧
      w.kind = .remote ∧ opOf w.w = 0x31) ∧
    (∃ (s : State) (id : Nat) (m : SigMsg), s.mem.sigs.find? (fun m => m.id = id) = some m ∧
      findWin (addCounter { s with mem := { s.mem with sigs := s.mem.sigs.filter (fun v => v.id ≠ id) } } m.part m.job m.tgt m.cnt m.v) m.src m.win = none) :=
  ⟨⟨up, 0, .service, sigWord 0 55 63 1, 0, by decide⟩, ⟨running [sigWord 1 0 0 1] id, 0, .job, sigWord 1 0 0 1, 0, 0, 7, by decide⟩,
    ⟨up, 47, .service, sigWord 1 55 63 1, 47, by decide⟩,
    ⟨roped (sigWord 0 0 0 1) id, 0, .job, sigWord 0 0 0 1, 0, by decide, by decide, staged_of_isStaged _ (by decide)⟩,
    ⟨landing [entry 3 (sigWord 0 55 1 1) .remote], 5, landed, entry 3 (sigWord 0 55 1 1) .remote, by decide⟩, ⟨landing [], 5, landed, by decide⟩⟩

def crnWord : W128 := ins 0x32 [(3, 96)]
/-- Program ridge 0's copy of cairn 3. -/
def copy3 : CairnCopy := ⟨0, [], [], 1, 0, 0⟩

theorem witness_CairnsAreWrittenThenCommitted :
    (∃ (s : State) (r : Ridge) (x : Ctx) (w : W128) (j : Job) (g : ProgRidge) (k : Nat) (pg : Prog) (c : CairnDef), issuable s r x w 0x32 = true ∧
      ctxWin (getR s r) .job = [] ∧ ctxWin (getR s r) x = [] ∧ (getR s r).slots.any (fun k => k.2.opened) = false ∧ jobOn s r = some j ∧ progPart s j r = some g ∧
      progRidge j r = some k ∧ findProg s j.part j.prog = some pg ∧ pg.cairns.find? (fun c => c.id = bits w 111 96 && c.ridge = k) = some c ∧
      (cairnRegions g c.live).any (fun v => loamBad (getR s r) v.2.off v.2.size) = false) ∧
    (∃ (s : State) (p : PartNo) (id : W32) (j : Job), findJob s p id = some j ∧ cairnReady s j = true ∧ s.cmc.fw = .running ∧
      claimed s (7, p.val, id.toNat) = false ∧ j.st = .running) :=
  ⟨⟨running [crnWord] id, 0, .job, crnWord, job7, part1 [crnWord], 0, prog [crnWord], ⟨3, 0, 1⟩, by decide +kernel⟩,
    ⟨{ running [] id with jobs := [{ job7 with halfB := { CairnHalf.empty with id := 3, copies := [copy3] } }] }, 0, 7,
      { job7 with halfB := { CairnHalf.empty with id := 3, copies := [copy3] } }, by decide⟩⟩

/-! ### Witnesses: ropes, the Col and the arbiters -/

/-- Ridge 0's service context inside service rope 48 with these actions. -/
def served (l : List Action) (f : RidgeSt → RidgeSt) : State :=
  setRope (ridge0 (fun rd => f { rd with svcCtx := { rd.svcCtx with rope := some ⟨48, 0, 0, 1, false, 0⟩ } })) 48
    { Rope.free with st := .opened, actions := l, timeout := 1 }
/-- A locked rope 48 whose COMMIT is the Col's only request. -/
def committing (l : List Action) : State :=
  let s := setRope up 48 { Rope.free with st := .locked, actions := l }
  { s with pins := { s.pins with sysRstN := true }, col := { s.col with queues := [(srcRope, [.commit 48])] } }
def rbgWord (e : Nat) : W128 := ins 0x34 [(1, 100), (e, 94)]
def tmapWord : W128 := ins 0x3A [(31, 107), (31, 101)]

theorem witness_RopesOpenStageAndCommit :
    (∃ (s : State) (r : Ridge) (w : W128) (j : Job), issuable s r .job w 0x34 = true ∧ (getRope s r).st = .free ∧ jobOn s r = some j) ∧
    (∃ (s : State) (r : Ridge) (w : W128), issuable s r .service w 0x34 = true ∧ (getRope s (48 + bits w 99 94)).st = .opened) ∧
    (∃ (s : State) (r : Ridge) (w : W128), issuable s r .service w 0x34 = true ∧ (getRope s (48 + bits w 99 94)).st = .free) ∧
    (∃ (s : State) (r : Ridge) (x : Ctx) (w : W128) (o : OpenRope), issuable s r x w 0x35 = true ∧ (ctxOf (getR s r) x).rope = some o ∧
      (getR s r).win.any (fun v => v.rope = some o.entry && v.staged.isNone) = false ∧
      (ctxOf (getR (ropeStage (updCtx s r x (fun c => { c with rope := some { o with ended := true } })) o.entry) r) x).rope.isSome = true) ∧
    (∃ (s : State) (r : Ridge) (x : Ctx) (w : W128) (o : OpenRope), issuable s r x w 0x35 = true ∧ (ctxOf (getR s r) x).rope = some o ∧
      (getR s r).win.any (fun v => v.rope = some o.entry && v.staged.isNone) = false ∧
      (ctxOf (getR (ropeStage (updCtx s r x (fun c => { c with rope := some { o with ended := true } })) o.entry) r) x).rope = none) ∧
    (∃ (s : State) (r : Ridge) (x : Ctx) (w : W128), issuable s r x w 0x3A = true ∧
      ∃ t n, stageAs s r x 0 (.tileMap r (bits w 111 107) (bits w 106 101) (bitAt w 100)) = .staged t n) ∧
    (∃ (s : State) (e : RopeNo) (k : Nat) (rest : List Req), s.pmu.on = true ∧ s.pins.sysRstN = true ∧ nextSource s = some k ∧
      presented s k = .commit e :: rest ∧ (getRope (granting s k rest) e).st = .locked ∧ commitHeld (granting s k rest) e = false) ∧
    (∃ (s : State) (r p phys : Nat), p < (getR s r).map.length ∧ phys < 64) :=
  ⟨⟨running [rbgWord 0] id, 0, rbgWord 0, job7, by decide⟩, ⟨setRope up 111 { Rope.free with st := .opened }, 0, rbgWord 63, by decide⟩,
    ⟨up, 0, rbgWord 0, by decide⟩, ⟨roped (ins 0x35 []) id, 0, .job, ins 0x35 [], ⟨0, 0, 0, 1, false, 0⟩, by decide⟩,
    ⟨served [.tileMap 0 0 1 false] id, 0, .service, ins 0x35 [], ⟨48, 0, 0, 1, false, 0⟩, by decide +kernel⟩,
    ⟨served [] id, 0, .service, tmapWord, by decide, staged_of_isStaged _ (by decide)⟩,
    ⟨committing [.rescaleHalf 0 0], 48, srcRope, [], by decide⟩, ⟨up, 47, 31, 63, by decide⟩⟩

theorem witness_TimersEndWaits :
    (∀ st ∈ [RopeSt.opened, RopeSt.staged], ∃ (s : State) (e : RopeNo), (getRope s e).st = st ∧ (getRope s e).opened + (getRope s e).timeout * 8192 ≤ s.rclk) ∧
    (∃ (s : State) (e : RopeNo), (getRope s e).st = .staged ∧ ropeHeld s (getRope s e).actions = true ∧ (getRope s e).stagedAt + pinHoldCycles ≤ s.now) ∧
    (∃ (s : State) (e : RopeNo), (getRope s e).st = .locked) ∧
    (∀ k ∈ [WinKind.drain, WinKind.waitSlot], ∃ (s : State) (r : Ridge) (id : Nat) (e : Win), findWin s r id = some e ∧ e.kind = k ∧ countWaits s r e = true ∧
      2 ^ 23 ≤ e.waited) := by
  refine ⟨fun st h => ?_, ⟨setRope { ridge0 (fun rd => { rd with slots := [(63, { opened 1 with pin := true, pinTable := 255 })] }) with now := 240000 } 48
    { Rope.free with st := .staged, actions := [.rescaleHalf 0 255] }, 48, by decide⟩, ⟨committing [], 48, by decide⟩, fun k h => ?_⟩
  · simp only [List.mem_cons, List.not_mem_nil, or_false] at h
    rcases h with rfl | rfl
    · exact ⟨setRope { up with rclk := 8192 } 111 { Rope.free with st := .opened, timeout := 1 }, 111, by decide⟩
    · exact ⟨setRope { up with rclk := 8192 } 0 { Rope.free with st := .staged, timeout := 1 }, 0, by decide⟩
  · simp only [List.mem_cons, List.not_mem_nil, or_false] at h
    rcases h with rfl | rfl
    · exact ⟨ridge0 (fun rd => { rd with slots := [(0, opened 1)], win := [{ entry 3 drnWord .drain with waited := 2 ^ 23 }] }), 0, 3, { entry 3 drnWord .drain with waited := 2 ^ 23 },
        by decide⟩
    · exact ⟨ridge0 (fun rd => { rd with slots := [(0, opened 1)], win := [{ entry 3 drnWord .waitSlot with waited := 2 ^ 23 }] }), 0, 3,
        { entry 3 drnWord .waitSlot with waited := 2 ^ 23 }, by decide⟩

theorem witness_GrantsRotateAndArbitrate :
    (∃ (s : State) (k : Nat) (q : Req) (rest : List Req), s.pmu.on = true ∧ s.pins.sysRstN = true ∧ nextSource s = some k ∧ presented s k = q :: rest) ∧
    (∃ (s : State) (k i j : Nat), nextSource s = some k ∧ i < 88 ∧ (s.col.last + 1 + i) % 88 = k ∧ j < i) ∧
    (∃ (s : State) (kind : Fin 4), (winOf s kind).due ≤ s.now ∧
      ∀ k, k < 4 → (winOf s kind).due < (winOf s k).due ∨ ((winOf s k).due = (winOf s kind).due ∧ kind.val ≤ k)) ∧
    (∃ (s : State) (cls : Fin 5) (inst : Nat) (reqs : List Nat) (save : Bool), cls.val ≠ 4 ∧ inst < arbInsts cls ∧
      (arbDecide (arbOf s cls inst) cls (arbReqs cls) ((List.range (arbReqs cls)).filter (fun i => reqs.contains i && !(cls.val = 3 && i = inst))) save).2 = none) ∧
    (∃ (s : State) (cls : Fin 5) (inst : Nat) (reqs : List Nat) (save : Bool) (won : Option Nat), cls.val ≠ 4 ∧ inst < arbInsts cls ∧
      (arbDecide (arbOf s cls inst) cls (arbReqs cls) ((List.range (arbReqs cls)).filter (fun i => reqs.contains i && !(cls.val = 3 && i = inst))) save).2 = some won) ∧
    (∃ (n : Nat) (reqs : List Nat), reqs ≠ [] ∧ ∀ i ∈ reqs, i < n) :=
  ⟨⟨committing [], srcRope, .commit 48, [], by decide⟩, ⟨committing [], srcRope, srcRope, 0, by decide⟩,
    ⟨{ up with now := 2 ^ 18 }, 2, by decide⟩, ⟨up, 3, 47, [47], false, by decide⟩, ⟨up, 3, 47, [53], false, some 53, by decide⟩, ⟨88, [87], by decide⟩⟩

/-! ### Witnesses: probes, surveys, programming -/

/-- Ridge 0 of partition 0 serves position p with a golden record that has one probe; the tile is CLEAN. -/
def probed (p cols : Nat) (f : RidgeSt → RidgeSt) : State :=
  { ridge0 (fun rd => f { rd with tiles := [(p, clean)] }) with
    parts := [(0, { part0 with probeInterval := 1, wsets := [{ wset5 p with golden := [⟨0, p, 0x10, [], [], 0, BitVec.ofNat 512 cols, [⟨[], [(0, 100)], []⟩], 0, false, 0⟩] }] })] }
def golden1 (p cols : Nat) : Golden := ⟨0, p, 0x10, [], [], 0, BitVec.ofNat 512 cols, [⟨[], [(0, 100)], []⟩], 0, false, 0⟩
def prbWord : W128 := ins 0x38 [(31, 107)]
def srvWord (t : Nat) : W128 := ins 0x39 [(t, 106)]

theorem witness_ProbesAndSurveysIssue :
    (∃ (s : State) (r : Ridge) (x : Ctx) (w : W128) (g : Golden), issuable s r x w 0x38 = true ∧ goldenOf s r (bits w 111 107) = some g ∧
      bits w 106 104 < g.probes.length ∧ engineOn (getR s r) (physOf (getR s r) (bits w 111 107)) = false ∧
      lockedClaim s (1, r.val, bits w 111 107) = false ∧ lockedClaim s (3, r.val, physOf (getR s r) (bits w 111 107)) = false) ∧
    (∃ (s : State) (r : Ridge) (x : Ctx) (w : W128), issuable s r x w 0x39 = true ∧ engineOn (getR s r) (bits w 111 106) = false ∧
      (getTile s r (bits w 111 106)).survey = none ∧ lockedClaim s (3, r.val, bits w 111 106) = false) ∧
    (∃ (s : State) (r : Ridge) (p : Pos) (g : Golden), goldenOf s r p = some g ∧ g.probes ≠ [] ∧ probeNeeded s r p = true ∧
      (nextNames s r p = true ∨ (posOf (getR s r) p).probeDue = true) ∧ held s r = false ∧ ridgeUp s r = true ∧ (getR s r).test.running = false ∧
      ((getR s r).jobCtx.run = true ∨ (posOf (getR s r) p).probeDue = true) ∧ engineOn (getR s r) (physOf (getR s r) p) = false ∧
      (getR s r).win.length < 1024 ∧ (tileOf (getR s r) (physOf (getR s r) p)).jr.state = .clean ∧ lockedClaim s (1, r.val, p.val) = false) :=
  ⟨⟨probed 31 0 id, 0, .service, prbWord, golden1 31 0, by decide +kernel⟩, ⟨up, 47, .service, srvWord 33, by decide⟩,
    ⟨probed 31 0 (fun rd => { rd with pos := [(31, { PosSt.reset with fired := 1, probeDue := true })] }), 0, 31, golden1 31 0, by decide +kernel⟩⟩

def lane31 : Lane := ⟨31, 31, false, false, .empty, 0x2100, []⟩
def probing (w : W128) : Win := { entry 3 w .probe with lanes := [lane31] }

theorem witness_ProbesPassOrFence :
    (∀ w ∈ [prbWord, 0], ∃ (s : State) (r : Ridge) (id : Nat) (devs : List AdcDev) (e : Win) (l : Lane) (g : Golden),
      findWin s r id = some e ∧ e.kind = .probe ∧ e.lanes = [l] ∧ goldenOf s r l.pos = some g ∧ e.w = w ∧ probeFails s r g e.aux l devs = [] ∧
        probeClips s r g l devs = false) ∧
    (∃ (s : State) (r : Ridge) (id : Nat) (devs : List AdcDev) (e : Win) (l : Lane) (g : Golden),
      findWin s r id = some e ∧ e.kind = .probe ∧ e.lanes = [l] ∧ goldenOf s r l.pos = some g ∧ probeFails s r g e.aux l devs ≠ []) ∧
    (∃ (s : State) (r : Nat) (g : Golden) (k : Nat) (l : Lane) (devs : List AdcDev) (c : Nat), c ∈ probeFails s r g k l devs) ∧
    (∃ (s : State) (r : Nat) (l : Lane), l.pos < (getR s r).map.length) := by
  refine ⟨fun w h => ?_, ⟨probed 31 1 (fun rd => { rd with win := [probing prbWord] }), 0, 3, [], probing prbWord, lane31, golden1 31 1, by decide +kernel⟩,
    ⟨probed 31 1 id, 0, golden1 31 1, 0, lane31, [], 0, by decide +kernel⟩, ⟨up, 47, lane31, by decide⟩⟩
  simp only [List.mem_cons, List.not_mem_nil, or_false] at h
  rcases h with rfl | rfl
  · exact ⟨probed 31 0 (fun rd => { rd with win := [probing prbWord] }), 0, 3, [], probing prbWord, lane31, golden1 31 0, by decide +kernel⟩
  · exact ⟨probed 31 0 (fun rd => { rd with win := [probing 0] }), 0, 3, [], probing 0, lane31, golden1 31 0, by decide +kernel⟩

/-! ### Witnesses: surveys, folds, programming -/

/-- Tile t of ridge 0 changed. -/
def tiled (t : Nat) (f : Tile → Tile) (s : State) : State := updTile s 0 t f

theorem qMk_zero (d : Nat) : qMk 0 d = ⟨0, 1⟩ := by
  unfold qMk
  rcases Nat.eq_zero_or_pos d with h | h
  · subst h; rfl
  · simp [Nat.div_self h, Nat.ne_of_gt h]

theorem qMul_zero (a : Q) : qMul a ⟨0, 1⟩ = ⟨0, 1⟩ := by
  unfold qMul
  rw [Int.mul_zero]
  exact qMk_zero _

/-- At 60 degrees the temperature term of a gain is 1, whatever the ridge's coefficient (R93). -/
theorem benchGains_60 (r : Nat) (t : Tile) (m : List Int) (h : t.baseTemp = 480) :
    benchGains r t m = (List.range 8).map (fun b => qMul (qDiv (qOf (m.getD b 0)) (qOf (t.base.getD b 0))) ⟨1, 1⟩) := by
  have e : qAdd ⟨1, 1⟩ (qMul (Config.alphaRidge r) (qSub (qMk t.baseTemp 8) (qOf 60))) = ⟨1, 1⟩ := by
    rw [h, show qSub (qMk 480 8) (qOf 60) = ⟨0, 1⟩ by decide, qMul_zero]
    decide
  simp only [benchGains, e]

/-- A tile with a baseline of 48 in every block at 60 degrees, and a survey under way. -/
def based : Tile := { clean with base := List.replicate 8 48, baseTemp := 480, survey := some ⟨0, 0, false⟩ }
/-- A survey's readings: every block at 48 + d. -/
def readings (d : Int) : List Int := List.replicate 8 (48 + d)

theorem witness_SurveysRunAndGiveGains :
    (∃ (s : State) (r : Ridge) (t : TileNo) (e a : Nat),
      ((mappedResident s r t).isSome = true ∨ (isRelief (getR s r) t = true ∧ (getTile s r t).jr.state = .clean)) ∧ surveyable s r t = true ∧
      (getTile s r t).progEnd = some e ∧ surveyAges[(getTile s r t).agesDone]? = some a ∧ e + seconds a ≤ s.now) ∧
    (∃ (s : State) (r : Ridge) (t : TileNo) (l : Nat),
      ((mappedResident s r t).isSome = true ∨ (isRelief (getR s r) t = true ∧ (getTile s r t).jr.state = .clean)) ∧ surveyable s r t = true ∧
      (getTile s r t).lastSurvey = some l ∧ l + srvAge (surveyPolicy s r) ≤ s.now ∧ (getTile s r t).progEnd = none) ∧
    (∃ (s : State) (r : Ridge) (t : TileNo), (mappedResident s r t).isSome = true ∧ srvInt (surveyPolicy s r) ≤ (getTile s r t).fired ∧ surveyable s r t = true) ∧
    (∃ (s : State) (r : Ridge) (t : TileNo), (getTile s r t).surveyReq = true ∧ (getTile s r t).survey = none ∧ surveyable s r t = true ∧
      ((getR s r).tiles.filter (fun x => x.2.survey.isSome)).length < srvConc (surveyPolicy s r) ∧ held s r = false ∧ ridgeUp s r = true ∧
      (getR s r).test.running = false ∧ s.cmc.fw = .running ∧ lockedClaim s (3, r.val, t.val) = false) ∧
    (∃ (s : State) (r : Ridge) (t : TileNo) (v : Survey), (getTile s r t).survey = some v ∧ v.start + 2 ^ 20 < s.rclk) ∧
    (∃ (s : State) (r : Ridge) (t : TileNo) (m : List Int) (v : Survey) (p : Nat), (getTile s r t).survey = some v ∧ s.rclk ≤ v.start + 2 ^ 20 ∧ held s r = false ∧
      (benchGains r (getTile s r t) m).findIdx? implausible = none ∧ posOfTile (getR s r) t = some p) ∧
    (∃ (s : State) (r : Ridge) (t : TileNo) (m : List Int) (v : Survey), (getTile s r t).survey = some v ∧ s.rclk ≤ v.start + 2 ^ 20 ∧ held s r = false ∧
      (benchGains r (getTile s r t) m).findIdx? implausible = none ∧ posOfTile (getR s r) t = none) ∧
    (∃ (s : State) (r : Ridge) (t : TileNo) (m : List Int) (v : Survey) (b : Nat), (getTile s r t).survey = some v ∧ s.rclk ≤ v.start + 2 ^ 20 ∧ held s r = false ∧
      (benchGains r (getTile s r t) m).findIdx? implausible = some b) := by
  refine ⟨⟨{ tiled 33 (fun _ => { clean with progEnd := some 0, agesDone := 5 }) up with now := seconds 180 }, 0, 33, 0, 180, by decide⟩,
    ⟨{ tiled 33 (fun _ => { clean with lastSurvey := some 0 }) up with now := 2 ^ 63 }, 0, 33, 0, by decide⟩,
    ⟨tiled 31 (fun x => { x with fired := 2 ^ 31 }) (serving 31 id), 0, 31, by decide⟩,
    ⟨tiled 33 (fun _ => { clean with surveyReq := true }) up, 0, 33, by decide⟩,
    ⟨{ tiled 33 (fun _ => based) up with rclk := 2 ^ 20 + 1 }, 0, 33, ⟨0, 0, false⟩, by decide⟩, ?_, ?_, ?_⟩
  · refine ⟨{ tiled 31 (fun _ => based) up with rclk := 2 ^ 20 }, 0, 31, readings 7, ⟨0, 0, false⟩, 31, by decide, by decide, by decide, ?_, by decide⟩
    rw [benchGains_60 _ _ _ (by decide)]
    decide
  · refine ⟨tiled 33 (fun _ => based) up, 0, 33, readings 0, ⟨0, 0, false⟩, by decide, by decide, by decide, ?_, by decide⟩
    rw [benchGains_60 _ _ _ (by decide)]
    decide
  · refine ⟨tiled 33 (fun _ => based) up, 0, 33, readings 8, ⟨0, 0, false⟩, 0, by decide, by decide, by decide, ?_⟩
    rw [benchGains_60 _ _ _ (by decide)]
    decide

/-- Ridge 0's tables are those of the program prog, whose table 255 has 16 entries. -/
def folding : State :=
  { ridge0 (fun rd => { rd with tables := some (0, 1), rsc := [(255, BitVec.ofNat 64 (16 * 2 ^ 16))] }) with
    parts := [(0, { part0 with ridgeMap := 0 :: List.replicate 47 0xFF })] }
/-- Position 31 is to be refreshed with cause q; relief tile 33 holds what its golden record says. -/
def refreshing (q : Nat) (f : RidgeSt → RidgeSt) (x : Tile) : State :=
  tiled 33 (fun _ => x) (serving 31 (fun rd => f { rd with refreshQ := [(31, q)] }))
def copy31 : Tile := { clean with jr := { clean.jr with position := 31 } }
/-- A RETIRED tile. -/
def retired : Tile := { Tile.reset with jr := { Journal.fresh with state := .retired } }
def copyOp : ProgOp :=
  { ridge := 0, tile := 33, rank := 4, cause := 1, belayOnly := false, part := 0, pos := 31, wset := 5, format := 0x10, level := [], digest := 0 }

theorem witness_FoldsAndSwapsAreStaged :
    (∃ (s : State) (r : Ridge) (table : Fin 256) (part : Nat) (g : ProgRidge), tablesPart s r = some (part, g) ∧
      descCount (rscDesc (getR s r) table) ≠ 0 ∧ claimed s (2, r.val, table.val) = false ∧ s.cmc.fw = .running) ∧
    (∃ (s : State) (r : Ridge) (p : Pos) (t : TileNo) (q : Nat × Nat) (part : Nat), (getR s r).refreshQ.find? (fun q => q.1 = p.val) = some q ∧
      ownerOf s r = some part ∧ isRelief (getR s r) t = true ∧ holdsPos s r t p = true ∧ (q.2 = 1 ∨ readyCopy s r t p = true) ∧
      claimed s (1, r.val, p.val) = false ∧ (tablesFed s part r p).all (fun a => !claimed s (2, a.1, a.2)) = true ∧ (tablesFed s part r p).length < 16 ∧
      s.cmc.fw = .running) :=
  ⟨⟨folding, 0, 255, 0, part1 [], by decide⟩, ⟨refreshing 1 id copy31, 0, 31, 33, (31, 1), 0, by decide⟩⟩

theorem witness_RefreshesQueueAndStart :
    (∃ (s : State) (r : Ridge) (p : Pos) (q : Nat × Nat) (part : Nat) (ws : Wset) (g : Golden) (t : Nat) (l : List Nat),
      (getR s r).refreshQ.find? (fun q => q.1 = p.val) = some q ∧ ownerOf s r = some part ∧ wsetOf s r p = some ws ∧ goldenOf s r p = some g ∧ opFor s r p = false ∧
      (List.range 34).any (fun t => isRelief (getR s r) t && holdsPos s r t p) = false ∧ s.cmc.fw = .running ∧ reliefTiles (getR s r) = t :: l) ∧
    (∀ fenced ∈ [true, false], ∃ (s : State) (r : Ridge) (p : Pos) (q : Nat × Nat) (part : Nat) (ws : Wset) (g : Golden),
      (getR s r).refreshQ.find? (fun q => q.1 = p.val) = some q ∧ ownerOf s r = some part ∧ wsetOf s r p = some ws ∧ goldenOf s r p = some g ∧ opFor s r p = false ∧
      (List.range 34).any (fun t => isRelief (getR s r) t && holdsPos s r t p) = false ∧ s.cmc.fw = .running ∧ reliefTiles (getR s r) = [] ∧
      fencedAt (getR s r) p = fenced) ∧
    (∃ (s : State) (o : ProgOp), nextOp s = some o ∧ enginesBusy s < engineCap s ∧ journalFree s = true ∧ s.clay.inhibit = false ∧ s.cmc.fw = .running) := by
  refine ⟨⟨refreshing 1 id clean, 0, 31, (31, 1), 0, wset5 31, ⟨0, 31, 0x10, [], [], 0, 0, [⟨[], [], []⟩], 0, false, 0⟩, 32, [33], by decide +kernel⟩, fun fenced h => ?_,
    ⟨{ up with progQueue := [copyOp] }, copyOp, by decide⟩⟩
  simp only [List.mem_cons, List.not_mem_nil, or_false] at h
  rcases h with rfl | rfl
  · exact ⟨refreshing 1 (fun rd => { rd with map := rd.map.set 31 0xDF, tiles := (List.range 32).map (fun t => (t, retired)) ++ [(32, retired)] }) retired, 0, 31, (31, 1), 0,
      wset5 31, ⟨0, 31, 0x10, [], [], 0, 0, [⟨[], [], []⟩], 0, false, 0⟩, by decide +kernel⟩
  · exact ⟨refreshing 1 (fun rd => { rd with tiles := [(32, retired)] }) retired, 0, 31, (31, 1), 0,
      wset5 31, ⟨0, 31, 0x10, [], [], 0, 0, [⟨[], [], []⟩], 0, false, 0⟩, by decide +kernel⟩

/-- Ridge 0's engine programs relief tile 33. -/
def engaged (o : ProgOp) (s : State) : State := updR s 0 (fun rd => { rd with engine := some o })

theorem witness_ProgrammingCompletes :
    (∃ (s : State) (r : Ridge) (t : TileNo) (fails bf : List Nat) (ok : Bool) (o : ProgOp), (getR s r).engine = some o ∧ o.tile = t.val ∧ engineHeld s r = false ∧
      (getR s r).test.running = false ∧ ((belaysDone s r t fails bf).2 ≠ [] ∨ ok = false)) ∧
    (∃ (s : State) (r : Ridge) (t : TileNo) (fails bf : List Nat) (ok : Bool) (o : ProgOp), (getR s r).engine = some o ∧ o.tile = t.val ∧ engineHeld s r = false ∧
      (getR s r).test.running = false ∧ (belaysDone s r t fails bf).2 = [] ∧ ok = true ∧ o.rank ≠ 4) ∧
    (∃ (s : State) (r : Ridge) (t : TileNo) (fails bf : List Nat) (ok : Bool) (o : ProgOp) (part : Nat) (ws : Wset), (getR s r).engine = some o ∧ o.tile = t.val ∧
      engineHeld s r = false ∧ (getR s r).test.running = false ∧ (belaysDone s r t fails bf).2 = [] ∧ ok = true ∧ o.rank = 4 ∧ ownerOf s r = some part ∧
      wsetOf s r o.pos = some ws) :=
  ⟨⟨engaged copyOp up, 0, 33, [], [], false, copyOp, by decide⟩, ⟨engaged { copyOp with rank := 3 } up, 0, 33, [], [], true, { copyOp with rank := 3 }, by decide⟩,
    ⟨engaged copyOp (serving 31 id), 0, 33, [], [], true, copyOp, 0, wset5 31, by decide +kernel⟩⟩

/-- Partition 0 is being scrubbed; tile 33 of ridge 0 is still to be trained, n trains having left residue. -/
def scrubbing (n : Nat) : State := { up with parts := [(0, { part0 with st := .scrubbing, scrubTiles := [(0, 33, n)] })] }
/-- Weight set 5, loaded, with its surveys under way. -/
def settling (w : Wset) : State := { serving 31 id with parts := [(0, { part0 with wsets := [w] })], now := seconds 180 }

theorem witness_TrainsAndCalibrationsEnd :
    (∃ (s : State) (r : Ridge) (t : TileNo) (residue : Bool) (u : State) (p : Nat), bulkReset s r t residue = some (u, some p)) ∧
    (∃ (s : State) (r : Ridge) (t : TileNo) (residue : Bool) (u : State), bulkReset s r t residue = some (u, none)) ∧
    (∃ (s : State) (r : Ridge) (t : TileNo), scrubList s r t ≠ none ∧ (getR s r).engine = none ∧ ridgeUp s r = true ∧ engineHeld s r = false ∧ enginesBusy s < engineCap s) ∧
    (∃ (s : State) (part : PartNo) (id : W32) (ws : Wset), findWset s part id = some ws ∧ ws.calibrating = true ∧ ws.loadEnd + seconds 180 ≤ s.now ∧ ws.golden ≠ [] ∧
      (∀ g ∈ ws.golden, let x := tileOf (getR s g.ridge) (physOf (getR s g.ridge) g.pos)
        fencedAt (getR s g.ridge) g.pos = true ∨ x.progEnd = none ∨ (6 ≤ x.agesDone ∧ x.surveyReq = false ∧ x.survey = none))) ∧
    (∃ (s : State) (r : Ridge) (h p : Nat), (getR s r).calHold = some h ∧ h ≤ s.now ∧ ownerOf s r = some p) ∧
    (∃ (s : State) (r : Ridge) (h : Nat), (getR s r).calHold = some h ∧ h ≤ s.now ∧ ownerOf s r = none) := by
  refine ⟨⟨scrubbing 1, 0, 33, true, _, 0, rfl⟩, ⟨{ up with cmc := { up.cmc with scrubTiles := [(47, 33, 0)] } }, 47, 33, false, _, rfl⟩, ⟨scrubbing 0, 0, 33, by decide⟩,
    ⟨settling { wset5 31 with calibrating := true }, 0, 5, { wset5 31 with calibrating := true }, by decide +kernel, by decide, by decide, by decide, by decide⟩,
    ⟨updR (settling (wset5 31)) 0 (fun rd => { rd with calHold := some 0 }), 0, 0, 0, by decide⟩, ⟨updR up 47 (fun rd => { rd with calHold := some 0 }), 47, 0, by decide⟩⟩

/-! ### Witnesses: power, heat, reset -/

/-- The clocks of a state. -/
def at_ (now rclk : Nat) (s : State) : State := { s with now := now, rclk := rclk }

theorem witness_PowerFramesApplyLimits : ∃ s : State, s.pmu.on = true := ⟨up, by decide⟩

theorem witness_HoldsAndReportsOfHeat :
    (∃ (s : State) (ma : Nat), s.pmu.on = true ∧ s.pmu.peak = none ∧ 360000000 < ma * s.pmu.mv) ∧
    (∃ (s : State) (a : Nat), s.pmu.peak = some a ∧ a + 600000 < s.now ∧ s.pmu.peakHot = false) ∧
    (∀ w ∈ [true, false], ∃ (s : State) (a : Nat), s.thermal.lastEst = some a ∧ s.pmu.on = true ∧ a + 2 ^ 19 < s.now ∧ s.thermal.stale = false ∧ s.thermal.windowOpen = w) ∧
    (∃ s : State, s.thermal.modelOn = true ∧ s.thermal.windowOpen = true ∧ s.thermal.modelStart + 2 ^ 32 ≤ s.now) ∧
    (∃ s : State, s.cmc.fw = .running ∧ inletStale s = true ∧ s.thermal.staleSaid = false) :=
  ⟨⟨up, 30001, by decide⟩, ⟨{ at_ 600001 0 up with pmu := { up.pmu with peak := some 0 } }, 0, by decide⟩,
    fun w _ => ⟨{ at_ (2 ^ 19 + 1) 0 up with thermal := { up.thermal with lastEst := some 0, windowOpen := w } }, 0, rfl, rfl, show 0 + 2 ^ 19 < 2 ^ 19 + 1 by decide, rfl, rfl⟩,
    ⟨{ at_ (2 ^ 32) 0 up with thermal := { up.thermal with modelOn := true } }, by decide⟩,
    ⟨{ at_ (2 ^ 33 + 1) 0 up with thermal := { up.thermal with inlets := [(0, 400)] } }, by decide⟩⟩

theorem witness_ThermalStepsThrottle :
    ∀ f ∈ [FwSt.running, FwSt.starting], ∃ s : State, s.thermal.modelOn = true ∧ s.thermal.lastStep + 61440 ≤ s.now ∧ s.cmc.fw = f :=
  fun f _ => ⟨{ at_ 61440 0 up with thermal := { up.thermal with modelOn := true }, cmc := { up.cmc with fw := f } }, rfl, show 0 + 61440 ≤ 61440 by decide, rfl⟩

/-- The PMU of up changed. -/
def pmuOf (f : Pmu → Pmu) : State := { up with pmu := f up.pmu }

theorem witness_PowerAndClockEventsReset :
    (∃ s : State, s.pmu.on = false) ∧ (∃ s : State, s.pmu.on = true ∧ s.pmu.refLost = false) ∧ (∃ s : State, s.pins.sysRstN = true ∧ s.pmu.on = true) ∧
    (∃ s : State, s.pins.sysRstN = false) ∧ (∃ s : State, s.pmu.on = true ∧ s.pmu.refLost = true) ∧ (∃ (s : State) (mv : Nat), s.pmu.on = true ∧ mv < 10800) ∧
    (∃ s : State, s.pmu.on = true ∧ s.pmu.lossAt = none) ∧ (∃ (s : State) (a : Nat), s.pmu.lossAt = some a ∧ s.cmc.fw = .bedrock) ∧
    (∃ (s : State) (a : Nat), s.pmu.lossAt = some a ∧ s.cmc.fw ≠ .bedrock ∧ s.now ≤ a + 600000) ∧
    (∃ (s : State) (a : Nat), s.pmu.lossAt = some a ∧ s.cmc.fw ≠ .bedrock ∧ a + 600000 < s.now) ∧
    (∃ (s : State) (rail : Fin 12), s.pmu.on = true ∧ rail.val ≠ 5) ∧ (∃ s : State, bootable s = false) ∧
    (∃ (s : State) (a b : Bool), bootable s = true ∧ ((a && (slotImage s false).isSome) || (b && (slotImage s true).isSome)) = true) :=
  ⟨⟨pmuOf (fun p => { p with on := false }), rfl⟩, ⟨up, rfl, rfl⟩, ⟨up, rfl, rfl⟩, ⟨State.reset, rfl⟩, ⟨pmuOf (fun p => { p with refLost := true }), rfl, rfl⟩,
    ⟨up, 10799, by decide⟩, ⟨up, rfl, rfl⟩, ⟨{ State.reset with pmu := { Pmu.reset with lossAt := some 0 } }, 0, rfl, rfl⟩,
    ⟨{ pmuOf (fun p => { p with lossAt := some 0 }) with now := 600000 }, 0, by decide⟩, ⟨{ pmuOf (fun p => { p with lossAt := some 0 }) with now := 600001 }, 0, by decide⟩,
    ⟨up, 11, by decide⟩, ⟨State.reset, rfl⟩, ⟨up, true, false, rfl, rfl⟩⟩

theorem witness_ResetsKeepCellsAndRecords : ∃ s : State, s.clay.locked = true := ⟨{ up with clay := { up.clay with locked := true } }, rfl⟩

/-- Power domain d of up in a state with a target. -/
def domained (d : Nat) (x : Dom) : State := setDom up d x

theorem witness_DomainsFollowTheirTargets :
    (∀ st ∈ [DomSt.off, .on, .poweringUp], ∃ (s : State) (d : Fin 212) (on : Bool), awake s = true ∧ domAllowed s d on = true ∧ (on = false → s.cmc.fw = .running) ∧
      (getDom s d).st = st) ∧
    (∃ (s : State) (d : Fin 212), s.pmu.on = true ∧ (getDom s d).st = .poweringUp ∧ (getDom s d).target = true) ∧
    (∃ (s : State) (d : Fin 212), s.pmu.on = true ∧ (getDom s d).st = .poweringDown ∧ (getDom s d).target = false) ∧
    (∀ k ∈ [2, 3], ∃ (s : State) (d : Fin 212), s.pmu.on = true ∧ (getDom s d).st = .poweringUp ∧ d.val < 192 ∧ d.val % 4 = k) ∧
    (∃ (s : State) (d : Fin 212), s.pmu.on = true ∧ ((getDom s d).st = .poweringUp ∨ (getDom s d).st = .poweringDown)) ∧
    (∃ (s : State) (r : Ridge) (o : ProgOp), awake s = true ∧ (getR s r).engine = some o) ∧
    (∃ (s : State) (r : Ridge), awake s = true ∧ s.cmc.fw = .running ∧ ridgeIdle s r = true ∧ (getR s r).idleSince + 2 ^ 20 ≤ s.now ∧ ridgeUp s r = true) := by
  refine ⟨fun st h => ?_, ⟨domained 211 ⟨.poweringUp, true, 0⟩, 211, by decide⟩, ⟨domained 191 ⟨.poweringDown, false, 0⟩, 191, by decide⟩, fun k h => ?_,
    ⟨domained 0 ⟨.poweringDown, false, 0⟩, 0, by decide⟩, ⟨engaged copyOp up, 0, copyOp, by decide⟩, ⟨at_ (2 ^ 20) 0 up, 47, by decide⟩⟩
  · simp only [List.mem_cons, List.not_mem_nil, or_false] at h
    rcases h with rfl | rfl | rfl
    · exact ⟨domained 191 ⟨.off, false, 0⟩, 191, true, by decide⟩
    · exact ⟨up, 0, false, by decide⟩
    · exact ⟨domained 211 ⟨.poweringUp, true, 0⟩, 211, true, by decide⟩
  · simp only [List.mem_cons, List.not_mem_nil, or_false] at h
    rcases h with rfl | rfl
    · exact ⟨domained 190 ⟨.poweringUp, true, 0⟩, 190, by decide⟩
    · exact ⟨domained 191 ⟨.poweringUp, true, 0⟩, 191, by decide⟩

/-- Prorvafort's state in up. -/
def cmcOf (f : Cmc → Cmc) : State := { up with cmc := f up.cmc }

theorem witness_FirmwareLivesByHeartbeats :
    (∃ s : State, awake s = true ∧ s.cmc.fw = .running) ∧
    (∀ again ∈ [true, false], ∃ s : State, awake s = true ∧ s.cmc.fw = .running ∧ s.cmc.watchdog = true ∧ s.cmc.lastBeat + 2 ^ 20 ≤ s.now ∧
      (match s.cmc.restartedAt with | some a => decide (s.now < a + 2 ^ 30) | none => false) = again) ∧
    (∃ (s : State) (a : Nat), s.cmc.resetAt = some a ∧ awake s = true ∧ s.cmc.fw = .stalled ∧ a + 2 ^ 32 ≤ s.now) ∧
    (∃ s : State, awake s = true ∧ s.cmc.fw = .stalled ∧ s.cmc.resetAt.isSome = true ∧ (slotImage s s.sec.selB).isSome = true) ∧
    (∃ s : State, awake s = true ∧ s.cmc.fw = .running ∧ s.cmc.runningAt + 2 ^ 32 ≤ s.now ∧ s.sec.svnMin < s.sec.running.svn) ∧ (∃ s : State, awake s = true) := by
  refine ⟨⟨up, by decide⟩, fun again h => ?_, ⟨at_ (2 ^ 32) 0 (cmcOf (fun c => { c with fw := .stalled, resetAt := some 0 })), 0, by decide⟩,
    ⟨cmcOf (fun c => { c with fw := .stalled, resetAt := some 0 }), by decide⟩, ⟨{ at_ (2 ^ 32) 0 up with sec := { up.sec with svnMin := 0 } }, by decide⟩, ⟨up, by decide⟩⟩
  simp only [List.mem_cons, List.not_mem_nil, or_false] at h
  rcases h with rfl | rfl
  · exact ⟨at_ (2 ^ 30 - 1) 0 (cmcOf (fun c => { c with restartedAt := some 0 })), by decide⟩
  · exact ⟨at_ (2 ^ 30) 0 (cmcOf (fun c => { c with restartedAt := some 0 })), by decide⟩

/-! ### Witnesses: jobs -/

/-- Job 7 as changed, not on a ridge, with its program. -/
def jobs1 (f : Job → Job) : State := { up with parts := [(0, { part0 with progs := [{ prog [] with wset := 0 }] })], jobs := [f job7] }
/-- A cairn half that is valid. -/
def half (touched : Bool) : CairnHalf := ⟨1, true, [], touched⟩

theorem witness_JobsStartEndAndMove :
    (∃ (s : State) (part : PartNo) (job : W32) (j : Job), findJob s part job = some j ∧ startable s j = true) ∧
    (∃ (s : State) (part : PartNo) (job : W32) (j : Job), findJob s part job = some j ∧ s.cmc.fw = .running ∧ j.pendingFault.filter (fun c => c ≠ 0x12) ≠ [] ∧ jobLocked s j = false) ∧
    (∃ (s : State) (part : PartNo) (job : W32) (j : Job), findJob s part job = some j ∧ s.cmc.fw = .running ∧ j.timeLimit ≠ 0 ∧ j.accepted + j.timeLimit * 2 ^ 16 ≤ s.now ∧
      jobLocked s j = false) ∧
    (∃ (s : State) (part : PartNo) (job : W32) (j : Job), findJob s part job = some j ∧ s.cmc.fw = .running ∧ jobDone s j = true ∧ j.fence = false) ∧
    (∃ (s : State) (part : PartNo) (job : W32) (j : Job), findJob s part job = some j ∧ s.cmc.fw = .running ∧ jobDone s j = true ∧ j.fence = true ∧ j.endWaits = none) ∧
    (∃ (s : State) (part : PartNo) (job : W32) (j : Job) (l : List (Nat × Nat × Nat)), findJob s part job = some j ∧ s.cmc.fw = .running ∧ jobDone s j = true ∧ j.fence = true ∧
      j.endWaits = some l ∧ waitsOver s l = true ∧ l ≠ []) ∧
    (∃ (s : State) (part : PartNo) (job inc : W32) (j i : Job), findJob s part job = some j ∧ s.cmc.fw = .running ∧ findJob s part inc = some i ∧ savable s j = true ∧
      i.st = .waiting ∧ j.prio < i.prio ∧ shareRidge s j i = true ∧ wsetOk s i = true) ∧
    (∃ (s : State) (part : PartNo) (job : W32) (j : Job), findJob s part job = some j ∧ s.cmc.fw = .running ∧ j.st = .saved ∧ ridgesFree s j = true ∧
      s.jobs.any (goesBefore s j) = false) ∧
    (∀ pt ∈ [RestartPoint.none, .live, .cold, .zero], ∃ (s : State) (part : PartNo) (job : W32) (j : Job), findJob s part job = some j ∧ s.cmc.fw = .running ∧ j.suspects ≠ [] ∧
      j.st ≠ .saved ∧ j.st ≠ .waiting ∧ jobLocked s j = false ∧ restartPoint s j = pt ∧ ∃ k, findJob (restartCleared s part job j) part job = some k) ∧
    (∀ st ∈ [JobSt.running, .egress], ∃ (s : State) (part : PartNo) (job : W32) (j : Job), findJob s part job = some j ∧ j.suspects = [] ∧ j.st = st) ∧
    (∃ (s : State) (part : PartNo) (job : W32) (j : Job), findJob s part job = some j ∧ j.held ≠ [] ∧ ∀ w, w ∈ j.held → waitsOver s w.waits = false) := by
  refine ⟨⟨jobs1 (fun j => { j with st := .waiting }), 0, 7, _, rfl, by decide⟩, ⟨jobs1 (fun j => { j with pendingFault := [0x12, 1] }), 0, 7, _, rfl, by decide⟩,
    ⟨at_ (2 ^ 16) 0 (jobs1 (fun j => { j with timeLimit := 1 })), 0, 7, _, rfl, by decide⟩, ⟨jobs1 (fun j => { j with ended := [0] }), 0, 7, _, rfl, by decide⟩,
    ⟨jobs1 (fun j => { j with ended := [0], fence := true }), 0, 7, _, rfl, by decide⟩,
    ⟨updR (jobs1 (fun j => { j with st := .egress, ended := [0], fence := true, endWaits := some [(0, 31, 4)] })) 0 (fun rd => { rd with pos := [(31, { PosSt.reset with passSeq := 5 })] }),
      0, 7, _, [(0, 31, 4)], rfl, by decide⟩,
    ⟨{ jobs1 id with jobs := [job7, { job7 with id := 8, prio := 2, st := .waiting }] }, 0, 7, 8, _, _, rfl, rfl, rfl, by decide⟩,
    ⟨jobs1 (fun j => { j with st := .saved }), 0, 7, _, rfl, by decide⟩, fun pt h => ?_, fun st _ => ⟨jobs1 (fun j => { j with st := st }), 0, 7, { job7 with st := st }, rfl, rfl, rfl⟩,
    ⟨jobs1 (fun j => { j with held := [⟨some .A, 0, 0, [], [(0, 31, 4)], 0, 0, 0, 0, 0, none, 0⟩] }), 0, 7, _, rfl, by decide, fun w h => ?_⟩⟩
  · simp only [List.mem_cons, List.not_mem_nil, or_false] at h
    rcases h with rfl | rfl | rfl | rfl
    · exact ⟨jobs1 (fun j => { j with suspects := [(0, 31, 1, 2)], dirtySince := true }), 0, 7, _, rfl, by decide, by decide, by decide, by decide, by decide, by decide, some_of_isSome (by decide)⟩
    · exact ⟨jobs1 (fun j => { j with suspects := [(0, 31, 1, 2)], halfA := half false }), 0, 7, _, rfl, by decide, by decide, by decide, by decide, by decide, by decide, some_of_isSome (by decide)⟩
    · exact ⟨jobs1 (fun j => { j with suspects := [(0, 31, 1, 2)], halfA := half true, halfB := half false }), 0, 7, _, rfl, by decide, by decide, by decide, by decide, by decide, by decide, some_of_isSome (by decide)⟩
    · exact ⟨jobs1 (fun j => { j with suspects := [(0, 31, 1, 2)] }), 0, 7, _, rfl, by decide, by decide, by decide, by decide, by decide, by decide, some_of_isSome (by decide)⟩
  · obtain rfl := List.mem_singleton.mp h
    decide

/-! ### Witnesses: registers, queues, Rappels, tests, Clay -/

/-- up with partition 0 active on port A, and I/O queue n of it live. -/
def queued (n : Nat) : State :=
  { up with parts := [(0, part0)], host := { up.host with queues := [(n, { Queue.absent with st := .live, part := 0, sqExp := 6, cqExp := 6, sqPool := true })] } }

theorem witness_RegistersAnswerTheHost :
    (∀ p ∈ [Port.A, .B], ∃ s : State, barLive s p 0 = true) ∧ (∃ (s : State) (f : Fn), barLive s .A f = true ∧ f.val ≠ 0 ∧ (getFn s .A f).seqLatch = none) ∧
    (∃ (s : State) (f : Fn) (v : W32), barLive s .A f = true ∧ evtEnable (getFn s .A f) v = true ∧ bitAt (getFn s .A f).ctrl 0 = false) ∧
    (∃ (s k : State) (f : Fn), barLive s .A f = true ∧ (∃ t, exec (.hbColSeqLo .A f) s = .next t ∧ getFn k .A f = getFn t .A f) ∧ barLive k .A f = true) ∧
    (∃ (s : State) (f : Fn), barLive s .B f = false ∧ awake s = true ∧ (getPort s .B).tunnel = true) ∧
    (∃ (s : State) (f : Fn), barLive s .A f = true ∧ bitAt (getFn s .A f).ctrl 0 = true) ∧ (∃ (s : State) (f : Fn), barLive s .A f = true ∧ bitAt (getFn s .A f).ctrl 0 = false) := by
  refine ⟨fun p h => ?_, ⟨queued 0, 1, by decide⟩, ⟨updFn (queued 0) .A 1 (fun r => { r with evtCfg := 16 }), 1, 1, by decide⟩,
    ⟨up, _, 0, by decide, ⟨_, rfl, rfl⟩, by decide⟩, ⟨queued 0, 1, by decide⟩, ⟨updFn (queued 0) .A 1 (fun r => { r with ctrl := 1 }), 1, by decide⟩, ⟨queued 0, 1, by decide⟩⟩
  simp only [List.mem_cons, List.not_mem_nil, or_false] at h
  rcases h with rfl | rfl
  · exact ⟨up, by decide⟩
  · exact ⟨up, by decide⟩

theorem witness_DoorbellsMoveIndexes :
    (∃ (s : State) (p : Port) (f : Fn) (q : Fin 1024) (v : W32), doorbellLive s p f q = true ∧ tailOk (getQ s (.io q)) (bits v 15 0) = true ∧ bits v 15 0 < 2 ^ (getQ s (.io q)).cqExp) ∧
    (∃ (s : State) (p : Port) (f : Fn) (q : Fin 1024) (v : W32), doorbellLive s p f q = true ∧ tailOk (getQ s (.io q)) (bits v 15 0) = false ∧ 2 ^ (getQ s (.io q)).cqExp ≤ bits v 15 0) ∧
    (∃ (s : State) (p : Port), barLive s p 0 = true ∧ (getQ s (.admin p)).st = .live) ∧
    (∀ l ∈ [[], [0]], ∃ (s : State) (q : QId), awake s = true ∧ s.cmc.fw = .running ∧ (∀ c, c ∈ s.host.cmds → (rejected c).isSome = false) ∧ (getQ s q).st = .live ∧ (getQ s q).stopped = false ∧
      (getQ s q).fetch ≠ (getQ s q).tail ∧ s.host.cmds.length < 4096 ∧ ((getQ s q).sqPool = true ∨ (getPort s (getQ s q).port).tunnel = true) ∧ (getQ s q).skip = l) := by
  refine ⟨⟨queued 1023, .A, 1, 1023, 63, by decide⟩, ⟨queued 1023, .A, 0, 1023, 64, by decide⟩,
    ⟨{ up with host := { up.host with adminA := { Queue.absent with st := .live } } }, .A, by decide⟩, fun l h => ?_⟩
  simp only [List.mem_cons, List.not_mem_nil, or_false] at h
  rcases h with rfl | rfl
  · exact ⟨updQ (queued 2) (.io 2) (fun k => { k with tail := 63 }), .io 2, rfl, rfl, fun c h => absurd h List.not_mem_nil, rfl, rfl, by decide, by decide, .inl rfl, rfl⟩
  · exact ⟨updQ (queued 2) (.io 2) (fun k => { k with tail := 1, skip := [0] }), .io 2, rfl, rfl, fun c h => absurd h List.not_mem_nil, rfl, rfl, by decide, by decide, .inl rfl, rfl⟩

theorem witness_RappelsTunnelsAndResetsBegin :
    (∀ n ∈ [0, 1, 2], ∃ (s : State) (p : Port) (f : Fn) (v : W32), bits v 31 30 = n ∧ barLive s p f = true ∧ rappelOk s f v = true) ∧
    (∀ n ∈ [0, 1, 2, 3], ∃ (s : State) (p : Port) (f : Fn) (v : W32), bits v 31 30 = n ∧ barLive s p f = true ∧ rappelOk s f v = false) ∧
    (∃ (n : Nat) (v : W32), n ≤ 2 ∧ bits v 31 30 ≠ n ∧ bits v 31 30 ≠ 3) ∧
    (∀ b ∈ [true, false], ∃ (s : State) (p : Port), awake s = true ∧ (getPort s p).tunnel = b) ∧
    (∃ (s : State) (p : Port) (n : Fin 16), barLive s p (n.val + 1) = true) ∧ (∃ (s : State) (p : Port), barLive s p 0 = true) := by
  refine ⟨fun n h => ?_, fun n h => ?_, ⟨0, 0x80000000, by decide⟩, fun b h => ?_, ⟨queued 0, .A, 0, by decide⟩, ⟨up, .B, by decide⟩⟩
  · simp only [List.mem_cons, List.not_mem_nil, or_false] at h
    rcases h with rfl | rfl | rfl
    · exact ⟨queued 1023, .A, 1, 1023, by decide⟩
    · exact ⟨queued 0, .A, 0, 0x4000000F, by decide⟩
    · exact ⟨up, .A, 0, 0x80000000, by decide⟩
  · simp only [List.mem_cons, List.not_mem_nil, or_false] at h
    rcases h with rfl | rfl | rfl | rfl
    · exact ⟨queued 1023, .A, 1, 1022, by decide⟩
    · exact ⟨up, .A, 0, 0x40000010, by decide⟩
    · exact ⟨up, .A, 0, 0x80000001, by decide⟩
    · exact ⟨up, .A, 0, 0xC0000000, by decide⟩
  · simp only [List.mem_cons, List.not_mem_nil, or_false] at h
    rcases h with rfl | rfl
    · exact ⟨up, .A, by decide⟩
    · exact ⟨updPort up .A (fun t => { t with tunnel := false }), .A, by decide⟩

/-- Job 7 on ridge 0, whose test is due. -/
def testing (f : TestSt → TestSt) : State :=
  updR (jobs1 id) 0 (fun rd => { rd with job := some (0, 7), test := f { TestSt.reset with due := true } })

theorem witness_FieldTestsRunAndEnd :
    (∀ d ∈ [true, false], ∃ (s : State) (r : Ridge), awake s = true ∧ s.cmc.fw = .running ∧ (getR s r).failed = false ∧ (getR s r).test.running = false ∧ (getR s r).test.due = d ∧
      ((getR s r).test.due = true ∨ (getR s r).test.nextDue ≤ s.now) ∧
      testJob (if (getR s r).test.due then s else updTest s r (fun t => { t with due := true, dueAt := s.now, nextDue := s.now + testPeriod s, deferred := false, atCairn := false })) r = none) ∧
    (∃ (s : State) (r : Ridge) (j : Job), awake s = true ∧ s.cmc.fw = .running ∧ (getR s r).failed = false ∧ (getR s r).test.running = false ∧ (getR s r).test.due = true ∧
      testJob s r = some j ∧ (getR s r).test.atCairn = true ∧ savable s j = true) ∧
    (∃ (s : State) (r : Ridge), awake s = true ∧ s.cmc.fw = .running ∧ (getR s r).failed = false ∧ (getR s r).test.running = false ∧ (getR s r).test.due = true ∧
      (getR s r).test.dueAt + testGrace s ≤ s.now ∧ testJob s r = none) ∧
    (∃ (s : State) (r : Ridge) (j : Job), awake s = true ∧ s.cmc.fw = .running ∧ (getR s r).failed = false ∧ (getR s r).test.running = false ∧ (getR s r).test.due = true ∧
      (getR s r).test.dueAt + testGrace s ≤ s.now ∧ testJob s r = some j ∧ savable s j = true) ∧
    (∃ (s : State) (r : Nat), ridgeUp s r = true) ∧ (∃ (s : State) (r : Nat), ridgeUp s r = false) ∧
    (∃ (s : State) (r : Ridge) (f : BitVec 4), awake s = true ∧ s.cmc.fw = .running ∧ (getR s r).test.running = true ∧ (getR s r).test.tests &&& f.toNat = 0) := by
  refine ⟨fun d h => ?_, ⟨testing (fun t => { t with atCairn := true }), 0, job7, by decide⟩, ⟨at_ (2 ^ 63) 0 (updTest up 47 (fun t => { t with due := true })), 47, by decide⟩,
    ⟨at_ (2 ^ 63) 0 (testing id), 0, job7, by decide⟩, ⟨up, 47, by decide⟩, ⟨domained 191 ⟨.off, false, 0⟩, 47, by decide⟩,
    ⟨updTest up 47 (fun t => { t with running := true, tests := 7 }), 47, 8, by decide⟩⟩
  simp only [List.mem_cons, List.not_mem_nil, or_false] at h
  rcases h with rfl | rfl
  · exact ⟨updTest up 47 (fun t => { t with due := true }), 47, by decide⟩
  · exact ⟨at_ (2 ^ 45) 0 up, 47, by decide⟩

def logged : LogRec := default
/-- A host write of one page under way. -/
def writer1 : Writer := .host (.io 2) 9 0 1 [] 0

theorem witness_ClayRecordsAreKept :
    (∃ (s : State) (w : Writer), nextWriter s = some w ∧ clayLive s = true) ∧
    (∃ (s : State) (cls idx : Nat) (data : List Byte), fwUp s = true ∧ ((1 ≤ cls ∧ cls ≤ 0x0B) ∨ cls = 0x10 ∨ cls = 0x11) ∧ idx < recCount cls ∧ data.length ≤ recLen cls) ∧
    (∃ (s : State) (cls idx : Nat) (c : Copy), fwUp s = true ∧ ((1 ≤ cls ∧ cls ≤ 0x0B) ∨ cls = 0x10 ∨ cls = 0x11 ∨ cls = clsGuard) ∧ idx < recCount cls ∧ recBusy s cls idx = false ∧
      (resolveRec (getRec s cls idx)).1 = some c) ∧
    (∃ (s : State) (e : LogRec) (l : List LogRec), s.integ.waitingLog = e :: l ∧ clayLive s = true ∧ s.clay.writers.any writerMid = false ∧
      s.clay.writers.any (fun w => writerRank w = 1) = false) :=
  ⟨⟨{ up with clay := { up.clay with writers := [writer1] } }, writer1, by decide⟩, ⟨up, 0x10, 1631, zeros 32, by decide⟩, ⟨up, 0x10, 1631, Copy.prod, by decide⟩,
    ⟨{ up with integ := { up.integ with waitingLog := [logged] } }, logged, [], by decide⟩⟩

/-- A command fetched from ring q, with these fields. -/
def cmd (q : QId) (part : Nat) (fs : List (Nat × Nat × Nat)) : Cmd :=
  { q := q, cid := 9, entry := layFields 64 ((2, 2, 9) :: fs), port := .A, fn := 0, part := part, seqNo := 0, busy := false, began := 0 }
/-- s with these commands in flight. -/
def withCmds (l : List Cmd) (s : State) : State := { s with host := { s.host with cmds := l } }
/-- up with PF0's command of these fields. -/
def pf0 (fs : List (Nat × Nat × Nat)) : Cmd := cmd (.admin .A) 0xFF ((4, 1, 0xFF) :: fs)

theorem witness_CommandsAreAnswered :
    (∃ (s : State) (q : QId) (cid : W16) (k : CmdKind), readyCmd s q cid k = none) ∧
    (∃ (s : State) (q : QId) (cid : W16) (k : CmdKind) (checks : Cmd → List (Bool × Nat)) (c : Cmd), Admitted s q cid k checks c) ∧
    (∃ (s : State) (q : QId) (cid : W16) (k : CmdKind) (checks : Cmd → List (Bool × Nat)) (c : Cmd), Refused s q cid k checks c) ∧
    (∃ (s : State) (q : QId) (cid : W16) (k : CmdKind) (c : Cmd), readyCmd s q cid k = some c) :=
  ⟨⟨up, .admin .A, 9, identifyKind, by decide⟩, ⟨withCmds [pf0 [(0, 1, 1)]] up, .admin .A, 9, identifyKind, fun _ => [], pf0 [(0, 1, 1)], by decide, by decide⟩,
    ⟨withCmds [pf0 [(0, 1, 1), (63, 1, 1)]] up, .admin .A, 9, identifyKind, fun _ => [], pf0 [(0, 1, 1), (63, 1, 1)], by decide, by decide⟩,
    ⟨withCmds [pf0 [(0, 1, 1)]] up, .admin .A, 9, identifyKind, pf0 [(0, 1, 1)], by decide⟩⟩

/-! ### Witnesses: commands that tell and set -/

/-- Whether the command that readyCmd finds is admitted. -/
def isAdmitted (s : State) (q : QId) (cid : W16) (k : CmdKind) (checks : Cmd → List (Bool × Nat)) : Bool :=
  match readyCmd s q cid k with
  | some c => (gateChecks s c k ++ checks c).all (fun x => !x.1)
  | none => false

theorem admitted_of (s : State) (q : QId) (cid : W16) (k : CmdKind) (checks : Cmd → List (Bool × Nat)) (h : isAdmitted s q cid k checks = true) :
    ∃ c, Admitted s q cid k checks c := by
  unfold isAdmitted at h
  cases e : readyCmd s q cid k with
  | some c => rw [e] at h; exact ⟨c, e, h⟩
  | none => rw [e] at h; cases h

/-- PF0's SET_FEATURE of a value. -/
def setF (fid v : Nat) : Cmd := pf0 [(0, 1, 3), (0x18, 2, fid), (0x1C, 4, v)]
/-- A host buffer of n bytes at 4096. -/
def buf (n : Nat) : List (Nat × Nat × Nat) := [(8, 8, 4096), (0x10, 8, n)]
/-- The state in which PF0's command c has been fetched alone. -/
def asked (c : Cmd) : State := withCmds [c] up
/-- SET_FEATURE ARB_STATUS of the Col's arbiter, with a vector of 16 bytes. -/
def statusCmd : Cmd := pf0 ([(0, 1, 3), (0x18, 2, 7), (0x1C, 4, 4 * 2 ^ 29)] ++ buf 16)
/-- SET_FEATURE RIDGE_MAP of partition 0 by PF0. -/
def mapCmd : Cmd := cmd (.admin .A) 0 ([(4, 1, 0), (0, 1, 3), (0x18, 2, 0x0B)] ++ buf 48)
def mapping : State :=
  { asked mapCmd with
    parts := [(0, { part0 with progs := [] })]
    host := { (asked mapCmd).host with memA := bytesFrom 4096 (1 :: 0 :: List.replicate 46 0xFF) } }
/-- CLAY_READ or CLAY_WRITE of the store's last page. -/
def pageCmd (op : Nat) : Cmd := pf0 ([(0, 1, op), (0x18, 2, 16383), (0x1A, 2, 1)] ++ buf 64)
def unlockCmd (k pw new : Nat) : Cmd := pf0 [(0, 1, 0x4A), (0x18, 1, k), (0x20, 8, pw), (0x28, 8, new)]
/-- ATTEST of the layout report, which has begun. -/
def attestCmd (busy : Bool) : Cmd := { pf0 [(0, 1, 0x40), (0x18, 1, 1)] with busy := busy }
/-- Partition 15 is being scrubbed. -/
def scrubbed (s : State) : State := { s with parts := [(15, { part0 with st := .scrubbing })] }

theorem witness_EwesySettingsApply :
    (∃ (s : State) (q : QId) (cid : W16) (c : Cmd), Admitted s q cid identifyKind (fun _ => []) c) ∧
    (∃ (s : State) (q : QId) (cid : W16) (c : Cmd), Admitted s q cid getCapsKind (fun _ => []) c) ∧
    (∃ (s : State) (q : QId) (cid : W16) (c : Cmd), Admitted s q cid partQueryKind (partQueryChecks s) c) ∧
    (∃ (s : State) (q : QId) (cid : W16) (c : Cmd), Admitted s q cid progPowerKind (progPowerChecks s) c) ∧
    (∃ (s : State) (q : QId) (cid : W16) (c : Cmd), Admitted s q cid surveyPolicyKind (surveyPolicyChecks s) c) ∧
    (∃ (s : State) (q : QId) (cid : W16) (c : Cmd), Admitted s q cid thermalPolicyKind (thermalPolicyChecks s) c) ∧
    (∃ (s : State) (q : QId) (cid : W16) (c : Cmd), Admitted s q cid arbWeightKind (arbWeightChecks s) c) ∧
    (∃ (s : State) (q : QId) (cid : W16) (c : Cmd), Admitted s q cid arbLimitKind (arbLimitChecks s) c) ∧
    (∃ (s : State) (q : QId) (cid : W16) (c : Cmd), Admitted s q cid arbStatusKind (arbStatusChecks s) c) ∧
    (∃ (s : State) (q : QId) (cid : W16) (c : Cmd), Admitted s q cid windowPolicyKind (windowPolicyChecks s) c) ∧
    (∃ (s : State) (q : QId) (cid : W16) (c : Cmd), Admitted s q cid probePolicyKind (probePolicyChecks s) c) ∧
    (∃ (s : State) (q : QId) (cid : W16) (c : Cmd), Admitted s q cid ridgeMapKind (ridgeMapChecks s) c) ∧
    (∃ (s : State) (q : QId) (cid : W16) (c : Cmd), Admitted s q cid getFeatureKind (getChecks s) c) :=
  ⟨⟨asked (pf0 [(0, 1, 1)]), .admin .A, 9, admitted_of _ _ _ _ _ (by decide)⟩, ⟨asked (pf0 [(0, 1, 2)]), .admin .A, 9, admitted_of _ _ _ _ _ (by decide)⟩,
    ⟨asked (cmd (.admin .A) 15 [(4, 1, 15), (0, 1, 0x12)]), .admin .A, 9, admitted_of _ _ _ _ _ (by decide)⟩, ⟨asked (setF 1 40), .admin .A, 9, admitted_of _ _ _ _ _ (by decide)⟩,
    ⟨asked (setF 2 (4 * 2 ^ 16 + 36 * 2 ^ 8 + 24)), .admin .A, 9, admitted_of _ _ _ _ _ (by decide)⟩, ⟨asked (setF 3 (98 * 2 ^ 8 + 96)), .admin .A, 9, admitted_of _ _ _ _ _ (by decide)⟩,
    ⟨asked (setF 5 (3 * 2 ^ 29 + 0xFF * 2 ^ 21)), .admin .A, 9, admitted_of _ _ _ _ _ (by decide)⟩, ⟨asked (setF 6 65535), .admin .A, 9, admitted_of _ _ _ _ _ (by decide)⟩,
    ⟨asked statusCmd, .admin .A, 9, admitted_of _ _ _ _ _ (by decide)⟩, ⟨asked (setF 8 (36 * 2 ^ 24 + 30 * 2 ^ 16 + 24 * 2 ^ 8)), .admin .A, 9, admitted_of _ _ _ _ _ (by decide)⟩,
    ⟨asked (setF 9 (48 * 2 ^ 24 + 34 * 2 ^ 18 + 65536)), .admin .A, 9, admitted_of _ _ _ _ _ (by decide)⟩, ⟨mapping, .admin .A, 9, mapCmd, by decide, by decide⟩,
    ⟨asked (pf0 [(0, 1, 4), (0x18, 2, 9)]), .admin .A, 9, admitted_of _ _ _ _ _ (by decide)⟩⟩

theorem witness_EwesySettingsApply_2 :
    (∃ (s : State) (q : QId) (cid : W16) (c : Cmd), Admitted s q cid eventConfigKind (eventConfigChecks s) c) ∧
    (∃ (s : State) (q : QId) (cid : W16) (c : Cmd), Admitted s q cid thermalInletKind (thermalInletChecks s) c) ∧
    (∃ (s : State) (q : QId) (cid : W16) (c : Cmd), Admitted s q cid powerCapKind (powerCapChecks s) c ∧ cmdFld c 0x18 2 = 0) ∧
    (∃ (s : State) (q : QId) (cid : W16) (c : Cmd), Admitted s q cid powerCapKind (powerCapChecks s) c ∧ cmdFld c 0x18 2 ≠ 0) ∧
    (∃ (s : State) (q : QId) (cid : W16) (c : Cmd), Admitted s q cid logExportKind (fun _ => []) c) ∧
    (∃ (s : State) (q : QId) (cid : W16) (c : Cmd), Admitted s q cid (clayKind 0x48) (clayReadChecks s) c ∧ dataShort c (64 * cmdFld c 0x1A 2) = false ∧
      uePage s (cmdFld c 0x18 2) (cmdFld c 0x1A 2) = none) ∧
    (∃ (s : State) (q : QId) (cid : W16) (c : Cmd), Admitted s q cid (clayKind 0x49) (clayWriteChecks s) c ∧ dataShort c (64 * cmdFld c 0x1A 2) = false) ∧
    (∃ (s : State) (q : QId) (cid : W16) (c : Cmd), Admitted s q cid clayUnlockKind (clayUnlockChecks s) c ∧ cmdFld c 0x18 1 = 4) ∧
    (∃ (s : State) (q : QId) (cid : W16) (c : Cmd), Admitted s q cid clayUnlockKind (clayUnlockChecks s) c ∧ cmdFld c 0x18 1 ≠ 4 ∧
      cmdFld c 0x20 8 = (unlockPw s (cmdFld c 0x18 1)).toNat) ∧
    (∃ (s : State) (q : QId) (cid : W16) (c : Cmd), Admitted s q cid clayUnlockKind (clayUnlockChecks s) c ∧ cmdFld c 0x18 1 ≠ 4 ∧
      cmdFld c 0x20 8 ≠ (unlockPw s (cmdFld c 0x18 1)).toNat ∧ s.clay.mismatches = 7) ∧
    (∀ v ∈ [7, 255], ∃ (s : State) (q : QId) (cid : W16) (c : Cmd), Admitted s q cid clayProtectKind (clayProtectChecks s) c ∧ cmdFld c 0x18 1 = v) := by
  refine ⟨⟨asked (pf0 [(0, 1, 0x58), (0x1C, 2, 0xFFFF)]), .admin .A, 9, admitted_of _ _ _ _ _ (by decide)⟩, ⟨asked (pf0 [(0, 1, 0x71), (0x18, 2, 960)]), .admin .A, 9, admitted_of _ _ _ _ _ (by decide)⟩,
    ⟨asked (pf0 [(0, 1, 0x70)]), .admin .A, 9, pf0 [(0, 1, 0x70)], ⟨by decide, by decide⟩, by decide⟩,
    ⟨asked (pf0 [(0, 1, 0x70), (0x18, 2, 60)]), .admin .A, 9, pf0 [(0, 1, 0x70), (0x18, 2, 60)], ⟨by decide, by decide⟩, by decide⟩,
    ⟨asked (pf0 ([(0, 1, 0x59)] ++ buf 296)), .admin .A, 9, admitted_of _ _ _ _ _ (by decide)⟩, ⟨asked (pageCmd 0x48), .admin .A, 9, pageCmd 0x48, ⟨by decide, by decide⟩, by decide, by decide⟩,
    ⟨asked (pageCmd 0x49), .admin .A, 9, pageCmd 0x49, ⟨by decide, by decide⟩, by decide⟩, ⟨asked (unlockCmd 4 0 0), .admin .A, 9, unlockCmd 4 0 0, ⟨by decide, by decide⟩, by decide⟩,
    ⟨asked (unlockCmd 3 0 1), .admin .A, 9, unlockCmd 3 0 1, ⟨by decide, by decide⟩, by decide, by decide⟩,
    ⟨{ asked (unlockCmd 0 1 0) with clay := { up.clay with mismatches := 7 } }, .admin .A, 9, unlockCmd 0 1 0, ⟨by decide, by decide⟩, by decide, by decide, by decide⟩, fun v h => ?_⟩
  simp only [List.mem_cons, List.not_mem_nil, or_false] at h
  rcases h with rfl | rfl
  · exact ⟨asked (pf0 [(0, 1, 0x4B), (0x18, 1, 7)]), .admin .A, 9, pf0 [(0, 1, 0x4B), (0x18, 1, 7)], ⟨by decide, by decide⟩, by decide⟩
  · exact ⟨asked (pf0 [(0, 1, 0x4B), (0x18, 1, 255)]), .admin .A, 9, pf0 [(0, 1, 0x4B), (0x18, 1, 255)], ⟨by decide, by decide⟩, by decide⟩

theorem witness_EwesySettingsApply_3 :
    (∃ (s : State) (q : QId) (cid : W16) (c : Cmd), s.host.cmds.find? (fun c => c.q = q && c.cid = cid && c.busy && cmdOp c = 0x40) = some c ∧ awake s = true ∧ s.cmc.fw = .running ∧
      attestWaits s c = false) ∧
    (∃ (s : State) (q : QId) (cid : W16) (c : Cmd), s.host.cmds.find? (fun c => c.q = q && c.cid = cid && c.busy && cmdOp c = 0x40) = some c ∧ awake s = true ∧ s.cmc.fw = .running ∧
      attestWaits s c = true ∧ c.began + 3000000 < s.now) ∧
    (∀ w ∈ [true, false], ∃ (s : State) (q : QId) (cid : W16) (c : Cmd), s.host.cmds.find? (fun c => c.q = q && c.cid = cid && c.busy && cmdOp c = 0x40) = none ∧
      Admitted s q cid attestKind (attestChecks s) c ∧ attestWaits s c = w ∧ c.busy = false) ∧
    (∃ (s : State) (q : QId) (cid : W16) (c : Cmd), Admitted s q cid fwStageKind (fun _ => []) c ∧ (fwMalformed (fwBytes s c) = true ∨ fwRejected s (fwBytes s c) = true)) ∧
    (∃ (s : State) (q : QId) (cid : W16) (c : Cmd), Admitted s q cid fwCommitKind (fwCommitChecks s) c ∧ freeService s ≠ none ∧ claimed s (8, 0, 0) = false) := by
  refine ⟨⟨asked (attestCmd true), .admin .A, 9, attestCmd true, by decide, by decide, by decide, by decide⟩,
    ⟨at_ 3000001 0 (scrubbed (asked (attestCmd true))), .admin .A, 9, attestCmd true, by decide, by decide, by decide, by decide, by decide⟩, fun w h => ?_,
    ⟨asked (pf0 [(0, 1, 0x50)]), .admin .A, 9, pf0 [(0, 1, 0x50)], ⟨by decide, by decide⟩, .inl (by decide)⟩,
    ⟨{ asked (pf0 [(0, 1, 0x51)]) with sec := { up.sec with staged := some .shipped } }, .admin .A, 9, pf0 [(0, 1, 0x51)], ⟨by decide, by decide⟩, by decide, by decide⟩⟩
  simp only [List.mem_cons, List.not_mem_nil, or_false] at h
  rcases h with rfl | rfl
  · exact ⟨scrubbed (asked (attestCmd false)), .admin .A, 9, attestCmd false, by decide, ⟨by decide, by decide⟩, by decide, by decide⟩
  · exact ⟨asked (attestCmd false), .admin .A, 9, attestCmd false, by decide, ⟨by decide, by decide⟩, by decide, by decide⟩

/-! ### Witnesses: commands that manage -/

/-- Partition 0's command on its queue 2. -/
def vf (fs : List (Nat × Nat × Nat)) : Cmd := cmd (.io 2) 0 fs
/-- up with partition 0 as p and its command c fetched alone. -/
def inPart (p : Part) (c : Cmd) : State := withCmds [c] { queued 2 with parts := [(0, p)] }
def createCmd : Cmd := cmd (.admin .A) 15 ([(4, 1, 15), (0, 1, 0x10), (0x18, 8, 2 ^ 47), (0x20, 16, 2 ^ 93), (0x30, 2, 0x8000), (0x34, 1, 12)] ++ buf 32)
/-- PART_BIND of partition 0, on port A. -/
def bindCmd : Cmd := pf0 ([(0, 1, 3), (0x18, 2, 0x0A)] ++ buf 32)
def binding (p : Port) (digest : W256) : State := inPart { part0 with port := p, bindDigest := digest } bindCmd
def queueCmd : Cmd := vf [(0, 1, 0x18), (0x18, 2, 1023), (0x1A, 1, 12), (0x1B, 1, 4), (0x1C, 1, 3), (0x1D, 1, 63)]
/-- Partition 0 with weight set 5 and no program. -/
def weighted : Part := { part0 with progs := [], wsets := [wset5 31] }
def verifyCmd : Cmd := vf ([(0, 1, 0x22), (0x18, 4, 5)] ++ buf 4)
def submitCmd : Cmd := vf ([(0, 1, 0x30), (0x18, 4, 1), (0x1C, 4, 8), (0x34, 1, 3), (0x36, 1, 1)] ++ buf 16)
/-- Partition 0 with a program that has one binding and no weight set. -/
def bound : Part := { part0 with progs := [{ prog [] with wset := 0, bindings := [(0, 0)] }], ridgeMap := 0 :: List.replicate 47 0xFF }
def resumeCmd : Cmd := vf [(0, 1, 0x31), (0x18, 4, 7)]
/-- Job 7 as changed, and its partition's command c. -/
def jobCmd (f : Job → Job) (c : Cmd) : State := { inPart bound c with jobs := [f job7] }

theorem witness_EwesyResourcesAreManaged :
    (∃ (s : State) (q : QId) (cid : W16) (c : Cmd), s.host.cmds.find? (fun c => c.q = q && c.cid = cid && c.busy && cmdOp c = 0x10) = none ∧
      Admitted s q cid partCreateKind (createChecks s) c ∧ freeService s ≠ none ∧ claimed s (9, c.part, 0) = false) ∧
    (∃ (s : State) (q : QId) (cid : W16) (c : Cmd), s.host.cmds.find? (fun c => c.q = q && c.cid = cid && c.busy && cmdOp c = 0x10) = some c ∧ awake s = true ∧
      s.cmc.fw = .running ∧ (getP s c.part).st = .initialising ∧ (bitList (getP s c.part).ridges).all (ridgeUp s) = true) ∧
    (∃ (s : State) (q : QId) (cid : W16) (c : Cmd), Admitted s q cid partDestroyKind (partDestroyChecks s) c ∧ c.part ≠ 0xFF) ∧
    (∃ (s : State) (q : QId) (cid : W16) (c : Cmd), Admitted s q cid partDestroyKind (partDestroyChecks s) c ∧ c.part = 0xFF ∧ creating s = [] ∧
      (∀ p, p < 16 → (getP s p).st ≠ .initialising)) ∧
    (∃ (s : State) (q : QId) (cid : W16) (c : Cmd), Admitted s q cid partBindKind (partBindChecks s) c ∧ bindOk s c = false) ∧
    (∃ (s : State) (q : QId) (cid : W16) (c : Cmd), Admitted s q cid partBindKind (partBindChecks s) c ∧ bindOk s c = true ∧ (getP s (bindPart c)).port = bindPort c) ∧
    (∃ (s : State) (q : QId) (cid : W16) (c : Cmd), Admitted s q cid partBindKind (partBindChecks s) c ∧ bindOk s c = true ∧ (getP s (bindPart c)).port ≠ bindPort c ∧
      freeService s ≠ none ∧ claimed s (9, bindPart c, 0) = false) ∧
    (∃ (s : State) (q : QId) (cid : W16) (c : Cmd), Admitted s q cid queueCreateKind (queueCreateChecks s) c ∧ queueGoing s (cmdFld c 0x18 2) = false) ∧
    (∃ (s : State) (q : QId) (cid : W16) (c : Cmd), Admitted s q cid queueDestroyKind (queueDestroyChecks s) c ∧ queueGoing s (cmdFld c 0x18 2) = false) :=
  ⟨⟨asked createCmd, .admin .A, 9, createCmd, by decide, ⟨by decide, by decide⟩, by decide, by decide⟩,
    ⟨inPart { part0 with st := .initialising } { cmd (.admin .A) 0 [(0, 1, 0x10)] with busy := true }, .admin .A, 9, { cmd (.admin .A) 0 [(0, 1, 0x10)] with busy := true }, by decide,
      by decide, by decide, by decide, by decide⟩,
    ⟨inPart part0 (cmd (.admin .A) 0 [(0, 1, 0x11)]), .admin .A, 9, cmd (.admin .A) 0 [(0, 1, 0x11)], ⟨by decide, by decide⟩, by decide⟩,
    ⟨inPart part0 (pf0 [(0, 1, 0x11)]), .admin .A, 9, pf0 [(0, 1, 0x11)], ⟨by decide, by decide⟩, by decide, by decide, by decide⟩,
    ⟨binding .A 0, .admin .A, 9, bindCmd, ⟨by decide, by decide⟩, by decide⟩,
    ⟨binding .A (sha256 (zeros 32)), .admin .A, 9, bindCmd, ⟨by decide, by decide⟩, by decide, by decide⟩,
    ⟨binding .B (sha256 (zeros 32)), .admin .A, 9, bindCmd, ⟨by decide, by decide⟩, by decide, by decide, by decide, by decide⟩,
    ⟨inPart part0 queueCmd, .io 2, 9, queueCmd, ⟨by decide, by decide⟩, by decide⟩,
    ⟨inPart part0 (vf [(0, 1, 0x19), (0x18, 2, 2)]), .io 2, 9, vf [(0, 1, 0x19), (0x18, 2, 2)], ⟨by decide, by decide⟩, by decide⟩⟩

theorem witness_EwesyResourcesAreManaged_2 :
    (∃ (s : State) (q : QId) (cid : W16) (c : Cmd) (w : Wset), Admitted s q cid wsetUnloadKind (wsetUnloadChecks s) c ∧ findWset s c.part (cmdWset c) = some w) ∧
    (∃ (s : State) (q : QId) (cid : W16) (c : Cmd) (w : Wset) (out : List (Nat × Nat × Nat)), Admitted s q cid wsetVerifyKind (wsetVerifyChecks s) c ∧
      findWset s c.part (cmdWset c) = some w ∧ dataShort c (((sortBy (fun a b => decide (a.order ≤ b.order)) w.golden).map (outAt out)).flatMap (leBytes 4)).length = false) ∧
    (∀ m ∈ [0, 1, 2], ∃ (s : State) (q : QId) (cid : W16) (c : Cmd), Admitted s q cid calibrateKind (calibrateChecks s) c ∧ calibrating s c.part = none ∧ cmdFld c 0x18 1 = m) ∧
    (∃ (s : State) (q : QId) (cid : W16) (c : Cmd), Admitted s q cid progUnloadKind (progUnloadChecks s) c) ∧
    (∃ (s : State) (q : QId) (cid : W16) (c : Cmd), Admitted s q cid jobCairnExportKind (jobCairnExportChecks s) c ∧
      ∃ b, exportOf s c.part (BitVec.ofNat 32 (cmdFld c 0x18 4)) = some b) ∧
    (∃ (s : State) (q : QId) (cid : W16) (c : Cmd) (g : Prog), Admitted s q cid jobSubmitKind (submitChecks s) c ∧ jobProg s c = some g) ∧
    (∀ st ∈ [JobSt.running, .suspended], ∃ (s : State) (q : QId) (cid : W16) (c : Cmd) (j : Job), Admitted s q cid jobResumeKind (jobResumeChecks s) c ∧
      findJob s c.part (BitVec.ofNat 32 (cmdFld c 0x18 4)) = some j ∧ (cmdFld c 0x1C 1).testBit 0 = false ∧ isSuspended j = decide (st = .suspended)) ∧
    (∃ (s : State) (q : QId) (cid : W16) (c : Cmd), Admitted s q cid abortKind (abortChecks s) c ∧ (abortJobs s c).any (jobLocked s) = false ∧ (abortJobs s c).length = 1) ∧
    (∃ (s : State) (q : QId) (cid : W16) (c : Cmd), Admitted s q cid testRunKind (testRunChecks s) c ∧
      (∀ r ∈ bitList (BitVec.ofNat 48 (cmdFld c 0x18 8)), (getR s r).failed = false ∧ (getR s r).test.running = false ∧ testJob s r = none ∧ ridgeUp s r = true) ∧
      bitList (BitVec.ofNat 48 (cmdFld c 0x18 8)) ≠ []) ∧
    (∀ m ∈ [0, 1], ∃ (s : State) (q : QId) (cid : W16) (c : Cmd), Admitted s q cid peerTableKind (peerTableChecks s) c ∧ cmdFld c 0x18 1 = m) ∧
    (∃ (s : State) (q : QId) (cid : W16) (c : Cmd), Admitted s q cid routeSetKind (routeSetChecks s) c) := by
  refine ⟨⟨inPart weighted (vf [(0, 1, 0x21), (0x18, 4, 5)]), .io 2, 9, vf [(0, 1, 0x21), (0x18, 4, 5)], wset5 31, ⟨by decide, by decide⟩, by decide +kernel⟩,
    ⟨inPart weighted verifyCmd, .io 2, 9, verifyCmd, wset5 31, [(0, 31, 1)], ⟨by decide, by decide⟩, by decide +kernel, by decide⟩, fun m h => ?_,
    ⟨inPart part0 (vf [(0, 1, 0x29), (0x18, 4, 1)]), .io 2, 9, vf [(0, 1, 0x29), (0x18, 4, 1)], by decide, by decide⟩,
    ⟨jobCmd (fun j => { j with halfA := half false }) (vf [(0, 1, 0x32), (0x18, 4, 7)]), .io 2, 9, vf [(0, 1, 0x32), (0x18, 4, 7)], ⟨by decide, by decide⟩, some_of_isSome (by decide)⟩,
    ⟨inPart bound submitCmd, .io 2, 9, submitCmd, { prog [] with wset := 0, bindings := [(0, 0)] }, ⟨by decide, by decide⟩, by decide⟩, fun st h => ?_,
    ⟨jobCmd id (vf [(0, 1, 0x3F), (0x1C, 4, 7)]), .io 2, 9, vf [(0, 1, 0x3F), (0x1C, 4, 7)], ⟨by decide, by decide⟩, by decide, by decide⟩,
    ⟨asked (pf0 [(0, 1, 0x39), (0x18, 8, 2 ^ 47), (0x20, 4, 31)]), .admin .A, 9, pf0 [(0, 1, 0x39), (0x18, 8, 2 ^ 47), (0x20, 4, 31)], ⟨by decide, by decide⟩, by decide, by decide⟩,
    fun m h => ?_, ⟨asked (pf0 ([(0, 1, 0x61)] ++ buf 8)), .admin .A, 9, pf0 ([(0, 1, 0x61)] ++ buf 8), by decide, by decide⟩⟩
  · simp only [List.mem_cons, List.not_mem_nil, or_false] at h
    rcases h with rfl | rfl | rfl
    · exact ⟨inPart part0 (vf [(0, 1, 0x38)]), .io 2, 9, vf [(0, 1, 0x38)], ⟨by decide, by decide⟩, by decide, by decide⟩
    · exact ⟨inPart part0 (vf [(0, 1, 0x38), (0x18, 1, 1)]), .io 2, 9, vf [(0, 1, 0x38), (0x18, 1, 1)], ⟨by decide, by decide⟩, by decide, by decide⟩
    · exact ⟨inPart part0 (vf [(0, 1, 0x38), (0x18, 1, 2)]), .io 2, 9, vf [(0, 1, 0x38), (0x18, 1, 2)], ⟨by decide, by decide⟩, by decide, by decide⟩
  · simp only [List.mem_cons, List.not_mem_nil, or_false] at h
    rcases h with rfl | rfl
    · exact ⟨jobCmd id resumeCmd, .io 2, 9, resumeCmd, job7, ⟨by decide, by decide⟩, by decide, by decide, by decide⟩
    · exact ⟨jobCmd (fun j => { j with st := .suspended, inDoubt := true }) resumeCmd, .io 2, 9, resumeCmd, { job7 with st := .suspended, inDoubt := true }, ⟨by decide, by decide⟩,
        by decide, by decide, by decide⟩
  · simp only [List.mem_cons, List.not_mem_nil, or_false] at h
    rcases h with rfl | rfl
    · exact ⟨asked (pf0 [(0, 1, 0x60)]), .admin .A, 9, pf0 [(0, 1, 0x60)], ⟨by decide, by decide⟩, by decide⟩
    · exact ⟨asked (pf0 ([(0, 1, 0x60), (0x18, 1, 1)] ++ buf 8)), .admin .A, 9, pf0 ([(0, 1, 0x60), (0x18, 1, 1)] ++ buf 8), ⟨by decide, by decide⟩, by decide⟩

/-! ### Witnesses: confidential hosts, management bus -/

/-- up with port A's SPDM connection as c and IDE slots l. -/
def spdm (c : Spdm) (l : Tbl IdeSlot) (s : State) : State := { s with sec := { s.sec with spdmA := c, ide := l } }
def sess (e : Bool) : Sess := ⟨e, 0, 0, 0⟩
/-- A connection with one session 1. -/
def talking (e : Bool) : Spdm := ⟨true, true, true, [(1, some (sess e))]⟩
/-- Function f's stream on port A goes in both directions. -/
def secured (f : Nat) : Tbl IdeSlot := [(ideKey .A f false false, ⟨some 0, true, 1⟩), (ideKey .A f true false, ⟨some 0, true, 1⟩)]
/-- Partition 0 with a TDISP interface in a state, in a session over a secure stream. -/
def tdisp (t : Tdi) (n : Option W256) : State := spdm (talking true) (secured 1) { up with parts := [(0, { part0 with tdi := t, tdiNonce := n })] }

theorem chain_not_empty : 0 < chainBytes.length := by
  have h : chainBytes.length = certSize 0 + certSize 1 := by simp [chainBytes]
  rw [h]
  simp only [certSize]
  omega

theorem witness_HostsAreAttestedAndAnswered :
    (∃ (s : State) (p : Port), doeUp s p = true ∧ (getSpdm s p).algs = true) ∧ (∃ off : Nat, off < chainBytes.length) ∧
    (∃ (s : State) (idx : Nat) (b : List Byte), measureBytes s idx = some b) ∧
    (∃ (s : State) (p : Port) (sid : Nat), doeUp s p = true ∧ (getSpdm s p).algs = true ∧ findSess s p sid = none ∧ (getSpdm s p).sessions.length < 4) ∧
    (∀ e ∈ [true, false], ∃ (s : State) (p : Port) (sid : Nat) (v : Sess), doeUp s p = true ∧ findSess s p sid = some v ∧ v.established = e) ∧
    (∀ z ∈ [true, false], ∃ key : List Byte, key.all (fun b => decide (b = 0)) = z) ∧
    (∃ (s : State) (p : Port) (sid : Nat) (v : Sess) (f : Fn) (dir set : Bool), doeUp s p = true ∧ findSess s p sid = some v ∧ v.established = true ∧
      (getIde s (ideKey p f dir set)).key.isSome = true) ∧
    (∃ (s : State) (p : Port) (sid : Nat) (v : Sess) (n : Fin 16), doeUp s p = true ∧ findSess s p sid = some v ∧ v.established = true ∧ (getP s n).st = .active ∧ (getP s n).port = p ∧
      (getP s n).tdi = .unlocked ∧ streamSecure s p (n.val + 1) = true) ∧
    (∃ (s : State) (p : Port) (sid : Nat) (v : Sess) (n : Fin 16) (nonce : W256), doeUp s p = true ∧ findSess s p sid = some v ∧ v.established = true ∧ (getP s n).st = .active ∧
      (getP s n).port = p ∧ (getP s n).tdi = .locked ∧ (getP s n).tdiNonce = some nonce) ∧
    (∃ (s : State) (p : Port) (sid : Nat) (v : Sess) (n : Fin 16) (nonce : W256), doeUp s p = true ∧ findSess s p sid = some v ∧ v.established = true ∧ (getP s n).st = .active ∧
      (getP s n).port = p ∧ (getP s n).tdi = .locked ∧ (getP s n).tdiNonce ≠ some nonce) ∧
    (∃ (s : State) (p : Port) (sid : Nat) (v : Sess) (n : Fin 16), doeUp s p = true ∧ findSess s p sid = some v ∧ v.established = true ∧ (getP s n).st = .active ∧ (getP s n).port = p ∧
      (getP s n).tdi = .run) ∧
    (∃ (s : State) (p : Port) (f : Fn), doeUp s p = true ∧ streamSecure s p f = true ∧ f.val ≠ 0 ∧ liveFn s p f = true ∧ (getP s (f.val - 1)).tdi ≠ .none) ∧
    (∃ s : State, awake s = true ∧ jtagOn s = true) ∧ (∃ (s : State) (first : Nat) (r : LogRec) (l : List LogRec), mctpUp s = true ∧ s.cmc.fw = .running ∧ logFrom s first = r :: l) ∧
    (∃ (s : State) (first : Nat), mctpUp s = true ∧ s.cmc.fw = .running ∧ logFrom s first = []) := by
  refine ⟨⟨spdm (talking true) [] up, .A, by decide⟩, ⟨0, chain_not_empty⟩, ⟨up, 0xFF, _, rfl⟩, ⟨spdm (talking true) [] up, .A, 2, by decide⟩,
    fun e _ => ⟨spdm (talking e) [] up, .A, 1, sess e, rfl, rfl, rfl⟩, fun z h => ?_, ⟨spdm (talking true) (secured 16) up, .A, 1, sess true, 16, true, false, by decide⟩,
    ⟨tdisp .unlocked none, .A, 1, sess true, 0, by decide⟩, ⟨tdisp .locked (some 1), .A, 1, sess true, 0, 1, by decide⟩, ⟨tdisp .locked (some 1), .A, 1, sess true, 0, 2, by decide⟩,
    ⟨tdisp .run none, .A, 1, sess true, 0, by decide⟩, ⟨tdisp .run none, .A, 1, by decide⟩, ⟨{ up with parts := [(15, { part0 with pflags := 2 })] }, by decide⟩,
    ⟨{ up with integ := { up.integ with log := [logged] } }, 0, logged, [], by decide⟩, ⟨up, 0, by decide⟩⟩
  simp only [List.mem_cons, List.not_mem_nil, or_false] at h
  rcases h with rfl | rfl
  · exact ⟨zeros 32, by decide⟩
  · exact ⟨[0, 1], by decide⟩

/-! ### Witnesses: links -/

/-- up with port 7 as l. -/
def ported (l : LinkSt) : State := { up with links := { up.links with ports := [(7, l)] } }
def upLink : LinkSt := { LinkSt.reset with st := .up }
/-- A frame of a TYPE from device 5 to this one. -/
def frame (ty len : Nat) (payload : List Byte) : Frame :=
  { ty := ty, dst := 0, src := 5, spart := 0, tag := 0, bcast := false, hops := 15, len := len, op := 0, off64 := 0, reservedZero := true, crcOk := true, payload := payload }
/-- A HAIL of this device id word and serial number. -/
def hailing (dev : Nat) (serial : List Byte) : Frame :=
  { frame 0xC 4 (leBytes 4 0x44494C41 ++ leBytes 2 dev ++ zeros 10 ++ serial ++ zeros 32) with bcast := true }
/-- Another device's serial number. -/
def otherSerial : List Byte := (List.range 16).map (fun i => Config.serial i + 1)

theorem other_serial : otherSerial ≠ serialBytes := by
  intro h
  have e : Config.serial 0 + 1 = Config.serial 0 := by
    have := congrArg (fun l => l.headD 0) h
    exact this
  have n : ∀ x : BitVec 8, x + 1 ≠ x := by decide
  exact n _ e

theorem witness_LinksTrainAndHeal :
    (∃ (s : State) (n : Alv), awake s = true ∧ linkUp s n = true ∧ 0 < unacked s n ∧ (8 ≤ (linkOf s n).replays ∨ (linkOf s n).lastAck + 2 ^ 12 ≤ s.now)) ∧
    (∃ (s : State) (n : Alv), awake s = true ∧ (linkOf s n).st = .down ∧ (linkOf s n).downAt + 2 ^ 24 ≤ s.now) ∧
    (∃ (s : State) (n : Alv), awake s = true ∧ (linkOf s n).st = .training ∧ (linkOf s n).trained = none ∧ portOn s n = true ∧ (linkOf s n).fails < 2) ∧
    (∃ (s : State) (n : Alv), awake s = true ∧ (linkOf s n).st = .training ∧ (linkOf s n).trained = none ∧ 2 ≤ (linkOf s n).fails) ∧
    (∃ (s : State) (n : Nat) (x2 : Bool), (linkOf s n).st = .training ∧ (linkOf s n).trained = some x2 ∧ (linkOf s n).hailSent = true ∧ (linkOf s n).hailHeard = true) ∧
    (∀ cw ∈ [(⟨false, 0, 0, 0, 0⟩ : Codeword), ⟨true, 0, 0, 0, 4⟩, ⟨true, 0, 0, 0, 3⟩, ⟨true, 0, 255, 0, 0⟩, ⟨true, 0, 0, 0, 2⟩], ∃ (s : State) (n : Alv), awake s = true ∧ linkUp s n = true ∧
      (linkOf s n).rxSeq = 0 ∧ ((cw.correctable = false ∨ 4 ≤ cw.ctl) ∨ (cw.correctable = true ∧ cw.ctl < 4))) ∧
    (∃ s : State, awake s = true ∧ s.links.lastHail + 2 ^ 20 ≤ s.now) ∧ (∃ s : State, awake s = true ∧ s.cmc.fw = .running ∧ s.links.lastSweep + 2 ^ 16 ≤ s.now) ∧
    (∃ (s : State) (a : Nat), s.links.conflictAt = some a ∧ a + hearCycles ≤ s.now) ∧
    (∀ ty ∈ [1, 2, 3, 4, 8, 9, 0xC, 0xD], ∃ (s : State) (n : Alv) (f : Frame), carries s n f.ty = true ∧ f.ty = ty ∧ f.bcast = false ∧ f.dst ≠ s.links.devId) ∧
    (∃ (s : State) (n : Alv) (f : Frame), carries s n f.ty = true ∧ knownType f.ty = false) := by
  refine ⟨⟨{ ported { upLink with replays := 8 } with links := { up.links with ports := [(7, { upLink with replays := 8 })], sent := [(7, frame 1 4 [])] } }, 7, by decide⟩,
    ⟨at_ (2 ^ 24) 0 (ported { upLink with st := .down }), 7, by decide⟩, ⟨ported { LinkSt.reset with fails := 1 }, 7, by decide⟩, ⟨ported { LinkSt.reset with fails := 2 }, 7, by decide⟩,
    ⟨ported { LinkSt.reset with trained := some true, hailSent := true, hailHeard := true }, 7, true, by decide⟩, fun cw h => ⟨ported upLink, 7, by decide, by decide, by decide, ?_⟩,
    ⟨at_ (2 ^ 20) 0 up, by decide⟩, ⟨at_ (2 ^ 16) 0 up, by decide⟩, ⟨{ at_ hearCycles 0 up with links := { up.links with conflictAt := some 0 } }, 0, by decide⟩,
    fun ty _ => ⟨ported upLink, 7, { frame ty 4 [] with dst := 4095 }, rfl, rfl, rfl, show (4095 : Nat) ≠ 0 by decide⟩, ⟨ported upLink, 7, frame 5 4 [], by decide⟩⟩
  revert cw
  decide

theorem witness_LinksTrainAndHeal_2 :
    (∃ (s u : State) (n : Alv) (f : Frame), arrive s n 0xC f = some (u, true) ∧ hailOf f = none) ∧
    (∃ (s u : State) (n : Alv) (f : Frame) (h : Hail), arrive s n 0xC f = some (u, true) ∧ hailOf f = some h ∧ h.valid = false) ∧
    (∃ (s u : State) (n : Alv) (f : Frame) (h : Hail), arrive s n 0xC f = some (u, true) ∧ hailOf f = some h ∧ h.valid = true ∧ h.dev = s.links.devId ∧ h.serial = serialBytes) ∧
    (∃ (s u : State) (n : Alv) (f : Frame) (h : Hail), arrive s n 0xC f = some (u, true) ∧ hailOf f = some h ∧ h.valid = true ∧ h.dev = s.links.devId ∧ h.serial ≠ serialBytes ∧
      idConflict s = true) ∧
    (∀ fw ∈ [FwSt.running, .stalled], ∃ (s u : State) (n : Alv) (f : Frame) (h : Hail), arrive s n 0xC f = some (u, true) ∧ hailOf f = some h ∧ h.valid = true ∧
      h.dev ≠ s.links.devId ∧ s.cmc.fw = fw) ∧
    (∃ (s u : State) (n : Alv) (f : Frame), arrive s n 0xD f = some (u, true)) := by
  refine ⟨⟨ported upLink, _, 7, { frame 0xC 4 [] with bcast := true }, rfl, by decide⟩, ⟨ported upLink, _, 7, hailing 0 serialBytes, _, rfl, rfl, rfl⟩,
    ⟨ported upLink, _, 7, hailing 0x8000 serialBytes, _, rfl, rfl, rfl, rfl, rfl⟩,
    ⟨{ ported upLink with links := { (ported upLink).links with conflictAt := some 0 } }, _, 7, hailing 0x8000 otherSerial, _, rfl, rfl, rfl, rfl, other_serial, rfl⟩,
    fun fw h => ?_, ⟨ported upLink, _, 7, { frame 0xD 1 (zeros 16) with bcast := true }, rfl⟩⟩
  simp only [List.mem_cons, List.not_mem_nil, or_false] at h
  rcases h with rfl | rfl
  · exact ⟨ported upLink, _, 7, hailing 0x8FFF serialBytes, _, rfl, rfl, rfl, show (4095 : Nat) ≠ 0 by decide, rfl⟩
  · exact ⟨{ ported upLink with cmc := { up.cmc with fw := .stalled } }, _, 7, hailing 0x8FFF serialBytes, _, rfl, rfl, rfl, show (4095 : Nat) ≠ 0 by decide, rfl⟩

/-! ### Witnesses: accesses between devices -/

/-- Port 7 is up; device 5 may do everything in the first 2 MiB of partition 0's memory. -/
def exporting : State :=
  { ported upLink with
    parts := [(0, part0)]
    links := { (ported upLink).links with exports := [(63, ⟨0x0F, 0, 5, 0, 0, 2 ^ 21⟩)] } }
/-- A request for the last 64 bytes of a CDU there. -/
def request (ty : Nat) : Frame := { frame ty 4 (if ty = 2 then [] else zeros 64) with off64 := 3 }
/-- The record of an atomic of device 5 with tag 0. -/
def record5 : AtomRec := ⟨5, 0, 0, 0, 0⟩
def recorded (l : List AtomRec) (s : State) : State := { s with links := { s.links with records := l } }

theorem witness_RemoteAccessesAreAnswered :
    (∀ ty ∈ [1, 2, 3], ∃ (s : State) (n : Alv) (f : Frame), Arrives s n ty f ∧ (requestOk f && f.crcOk) = false) ∧
    (∀ ty ∈ [1, 2, 3], ∃ (s : State) (n : Alv) (f : Frame) (c : Nat), Arrives s n ty f ∧ requestOk f = true ∧ f.crcOk = true ∧ recordOf s f = none ∧ exportCheck s f = .error c) ∧
    (∀ ty ∈ [1, 2, 3], ∃ (s : State) (n : Alv) (f : Frame) (p pa : Nat), Arrives s n ty f ∧ requestOk f = true ∧ f.crcOk = true ∧ recordOf s f = none ∧ exportCheck s f = .ok (p, pa) ∧
      recordsFull s = false ∧ (atomAt s n p pa f).1 ≤ 1) ∧
    (∃ (s : State) (n : Alv) (f : Frame) (r : AtomRec), Arrives s n 3 f ∧ requestOk f = true ∧ f.crcOk = true ∧ recordOf s f = some r) ∧
    (∃ (s : State) (n : Alv) (f : Frame) (p pa : Nat), Arrives s n 3 f ∧ requestOk f = true ∧ f.crcOk = true ∧ recordOf s f = none ∧ exportCheck s f = .ok (p, pa) ∧
      recordsFull s = true) ∧
    (∃ (s : State) (n : Alv) (f : Frame), Arrives s n 4 f ∧ (messageOk f && f.crcOk) = false) ∧
    (∃ (s : State) (n : Alv) (f : Frame) (r : AtomRec), Arrives s n 4 f ∧ messageOk f = true ∧ f.crcOk = true ∧ recordOf s f = some r) ∧
    (∃ (s : State) (n : Alv) (f : Frame), Arrives s n 4 f ∧ messageOk f = true ∧ f.crcOk = true ∧ recordOf s f = none ∧ s.cmc.fw ≠ .running) ∧
    (∃ (s : State) (n : Alv) (f : Frame), Arrives s n 4 f ∧ messageOk f = true ∧ f.crcOk = true ∧ recordOf s f = none ∧ s.cmc.fw = .running) := by
  refine ⟨fun ty h => ?_, fun ty h => ?_, fun ty h => ?_, ⟨recorded [record5] exporting, 7, request 3, record5, ⟨by decide, by decide, by decide, by decide⟩, by decide, by decide, by decide⟩,
    ⟨recorded (List.replicate 8192 { record5 with src := 6 }) exporting, 7, request 3, 0, 192, ⟨by decide, by decide, by decide, by decide⟩, by decide, by decide, by decide +kernel,
      by rfl, by decide +kernel⟩,
    ⟨exporting, 7, frame 4 0 [], ⟨by decide, by decide, by decide, by decide⟩, by decide⟩,
    ⟨recorded [record5] exporting, 7, frame 4 1 (zeros 16), record5, ⟨by decide, by decide, by decide, by decide⟩, by decide, by decide, by decide⟩,
    ⟨{ exporting with cmc := { up.cmc with fw := .stalled } }, 7, frame 4 1 (zeros 16), ⟨by decide, by decide, by decide, by decide⟩, by decide, by decide, by decide, by decide⟩,
    ⟨exporting, 7, frame 4 16 (zeros 256), ⟨by decide, by decide, by decide, by decide⟩, by decide +kernel, by decide, by decide, by decide⟩⟩
  · simp only [List.mem_cons, List.not_mem_nil, or_false] at h
    rcases h with rfl | rfl | rfl
    · exact ⟨exporting, 7, { request 1 with crcOk := false }, ⟨by decide, by decide, by decide, by decide⟩, by decide⟩
    · exact ⟨exporting, 7, { request 2 with off64 := 4, len := 20 }, ⟨by decide, by decide, by decide, by decide⟩, by decide⟩
    · exact ⟨exporting, 7, { request 3 with op := 4 }, ⟨by decide, by decide, by decide, by decide⟩, by decide⟩
  · simp only [List.mem_cons, List.not_mem_nil, or_false] at h
    rcases h with rfl | rfl | rfl
    · exact ⟨exporting, 7, { request 1 with src := 6 }, 2, ⟨by decide, by decide, by decide, by decide⟩, by decide, by decide, by decide, by rfl⟩
    · exact ⟨exporting, 7, { request 2 with off64 := 2 ^ 15 }, 2, ⟨by decide, by decide, by decide, by decide⟩, by decide, by decide, by decide, by rfl⟩
    · exact ⟨{ exporting with parts := [] }, 7, request 3, 3, ⟨by decide, by decide, by decide, by decide⟩, by decide, by decide, by decide, by rfl⟩
  · simp only [List.mem_cons, List.not_mem_nil, or_false] at h
    rcases h with rfl | rfl | rfl
    · exact ⟨exporting, 7, request 1, 0, 192, ⟨by decide, by decide, by decide, by decide⟩, by decide, by decide, by decide, by rfl, by decide, by decide⟩
    · exact ⟨exporting, 7, { request 2 with off64 := 2 ^ 15 - 1 }, 0, 2 ^ 21 - 64, ⟨by decide, by decide, by decide, by decide⟩, by decide, by decide, by decide, by rfl, by decide,
        by decide⟩
    · exact ⟨exporting, 7, request 3, 0, 192, ⟨by decide, by decide, by decide, by decide⟩, by decide, by decide, by decide, by rfl, by decide, by decide⟩

/-- Job 7's request of a kind with tag 0 is outstanding at device 5. -/
def asking (f : Outstanding → Outstanding) : State :=
  { jobs1 id with links := { (ported upLink).links with outstanding := [(0, some (f (⟨1, 5, 0, 7, 0, 0, none, 0, 0, 0, [], 0, 0, false, none, false⟩ : Outstanding)))] } }
def request5 (k : Nat) : Outstanding := ⟨k, 5, 0, 7, 0, 0, none, 0, 0, 0, [], 0, 0, false, none, false⟩

theorem witness_RemoteAccessesAreAnswered_2 :
    (∀ op ∈ [0, 1, 2, 3, 4, 5, 6, 7], ∃ (s : State) (n : Alv) (f : Frame) (o : Outstanding) (j : Job), tget none s.links.outstanding f.tag = some o ∧ o.dst = f.src ∧ askedJob s o = some j ∧
      f.reservedZero = true ∧ Arrives s n 8 f ∧ f.op < 8 ∧ f.len = 0 ∧ f.payload = [] ∧ o.kind ≠ 2 ∧ f.op = op) ∧
    (∃ (s : State) (n : Alv) (f : Frame) (o : Outstanding) (j : Job), tget none s.links.outstanding f.tag = some o ∧ o.dst = f.src ∧ askedJob s o = some j ∧
      f.reservedZero = true ∧ Arrives s n 9 f ∧ f.crcOk = true ∧ o.kind = 2 ∧ f.op = 0 ∧ f.payload.length = 256 ∧ f.len = 16) ∧
    (∀ op ∈ [2, 3, 4, 5], ∃ (s : State) (n : Alv) (f : Frame) (o : Outstanding) (j : Job), tget none s.links.outstanding f.tag = some o ∧ o.dst = f.src ∧ askedJob s o = some j ∧
      f.reservedZero = true ∧ Arrives s n 9 f ∧ f.crcOk = true ∧ o.kind = 2 ∧ f.op = op ∧ f.payload = [] ∧ f.len = 0) ∧
    (∀ b ∈ [true, false], ∃ (s : State) (tag : Fin 4096) (o : Outstanding) (j : Job), tget none s.links.outstanding tag = some o ∧ awake s = true ∧ askedJob s o = some j ∧ o.busyAt = none ∧
      o.sentAt + 2 ^ 16 ≤ s.now ∧ o.resent = b) ∧
    (∃ (s : State) (tag : Fin 4096) (o : Outstanding) (j : Job) (a : Nat), tget none s.links.outstanding tag = some o ∧ awake s = true ∧ askedJob s o = some j ∧ o.busyAt = some a ∧
      a + 2 ^ 10 ≤ s.now) ∧
    (∃ (s : State) (k : Nat) (r : AtomRec), s.links.records[k]? = some r ∧ r.time + 2 ^ 18 ≤ s.now) := by
  refine ⟨fun op h => ?_, ⟨asking (fun _ => request5 2), 7, frame 9 16 (zeros 256), request5 2, { job7 with }, by rfl, by rfl, by rfl, by rfl, ⟨by decide, by decide, by decide, by decide⟩,
      by decide, by decide, by decide, by decide +kernel, by decide⟩, fun op h => ?_, fun b _ => ⟨at_ (2 ^ 16) 0 (asking (fun o => { o with resent := b })), 0, { request5 1 with resent := b }, job7, rfl, rfl, rfl, rfl, show 0 + 2 ^ 16 ≤ 2 ^ 16 by decide, rfl⟩,
    ⟨at_ (2 ^ 10) 0 (asking (fun o => { o with busyAt := some 0 })), 0, { request5 1 with busyAt := some 0 }, job7, 0, rfl, rfl, rfl, rfl, by decide⟩,
    ⟨at_ (2 ^ 18) 0 (recorded [record5, record5] up), 1, record5, by decide⟩⟩
  · have e : op < 8 := by
      revert op
      decide
    exact ⟨asking (fun _ => request5 1), 7, { frame 8 0 [] with op := op }, request5 1, job7, rfl, rfl, rfl, rfl, ⟨rfl, rfl, rfl, rfl⟩, e, rfl, rfl, show (1 : Nat) ≠ 2 by decide, rfl⟩
  · exact ⟨asking (fun _ => request5 2), 7, { frame 9 0 [] with op := op }, request5 2, job7, rfl, rfl, rfl, rfl, ⟨rfl, rfl, rfl, rfl⟩, rfl, rfl, rfl, rfl, rfl⟩

/-! ### Witnesses: the machine as a whole -/

theorem witness_StepsRunTheFrontCommand :
    (∃ (c : Instr) (s : State) (rest : List Instr), s.pending = c :: rest ∧ rest ≠ []) ∧ (∃ s : State, s.pending = []) :=
  ⟨⟨.fwHeartbeat, { up with pending := [.fwHeartbeat, .hailSend] }, [.hailSend], by decide⟩, ⟨up, by decide⟩⟩

theorem witness_CommandsChangeOnlyTheirAreas : ∃ (c : Instr) (s t : State) (a : Area), exec c s = .next t ∧ a ∉ mayChange c :=
  ⟨.fwHeartbeat, up, _, .clay, rfl, by decide⟩

theorem witness_StoresReachTheirBytesAlone :
    (∃ (s : State) (o : LOp) (q a : Nat), q = o.ridge ∧ o.off + 64 ≤ a ∧ loamBad (getR s o.ridge) o.off 64 = false) ∧ (∃ (s : State) (pa : Nat), dramBad s pa 64 = false) :=
  ⟨⟨up, ⟨47, 192⟩, 47, 256, by decide⟩, ⟨up, 192, by decide⟩⟩

/-- up with a byte in the memory of the host at port A and one in the ring pool. -/
def filled : State := { up with host := { up.host with memA := [(4096, 1)], pool := [(0, 255)] } }

theorem witness_EveryStepKeepsMemoriesCanonical : ∃ s t : State, MemoriesOk s ∧ step s = .next t :=
  ⟨filled, _, ⟨fun _ => rfl, rfl, rfl, rfl, rfl, rfl⟩, rfl⟩

/-! ### Witnesses: firmware, program and weight containers -/

/-- s with bytes in the memory of the host at port A from 4096. -/
def given (b : List Byte) (s : State) : State := hostWrite s .A 4096 b

theorem given_read (b : List Byte) (s : State) (n : Nat) (h : b.length = n) : hostRead (given b s) .A 4096 n = b := by
  subst h
  exact tgetRun_tsetRun 0 _ _ _

/-- The signed part of a firmware image without components (R410). -/
def fwHeader : List Byte :=
  layFields 192 [(0, 4, 0x57465648), (4, 2, 0x100), (8, 8, 256), (0x10, 4, 32), (0x20, 32, (sha256 []).toNat), (0x40, 32, (sha256 []).toNat), (0x60, 32, (sha256 []).toNat)]
/-- That image, signed. -/
def fwFile : List Byte := fwHeader ++ leBytes 64 (Config.fwKeySign (sha256 fwHeader)).toNat
def fwCmd : Cmd := pf0 ([(0, 1, 0x50)] ++ buf 256)

theorem fwHeader_length : fwHeader.length = 192 := by decide +kernel
theorem fwFile_length : fwFile.length = 256 := by
  rw [fwFile, List.length_append, fwHeader_length, Laws.leBytes_length]

theorem fwFile_read : fwBytes (given fwFile (asked fwCmd)) fwCmd = fwFile := by
  have e : dataIn (given fwFile (asked fwCmd)) fwCmd (min (cmdLen fwCmd) (2 ^ 24)) = fwFile := given_read fwFile (asked fwCmd) 256 fwFile_length
  have p : cmdPtr fwCmd ≠ 0 := by decide
  have l : fwLength fwFile = 256 := by decide +kernel
  unfold fwBytes
  rw [if_neg p, e]
  show (if fwLength fwFile ≤ fwFile.length then fwFile.take (fwLength fwFile) else fwFile) = fwFile
  rw [l, fwFile_length, if_pos (Nat.le_refl _), List.take_of_length_le (Nat.le_of_eq fwFile_length)]

theorem fwFile_signed : fwSigned (sha256 (bytesAt fwFile 0 0xC0)) (bytesAt fwFile 0xC0 64) = true := by
  have a : bytesAt fwFile 0 0xC0 = fwHeader := by
    rw [fwFile, Laws.bytesAt_app_left _ _ _ _ (Nat.le_of_eq fwHeader_length.symm), Laws.bytesAt_full _ _ fwHeader_length]
  have b : bytesAt fwFile 0xC0 64 = leBytes 64 (Config.fwKeySign (sha256 fwHeader)).toNat := by
    rw [fwFile, Laws.bytesAt_app_right _ _ _ _ (Nat.le_of_eq fwHeader_length), fwHeader_length, Laws.bytesAt_full _ _ (Laws.leBytes_length _ _)]
  rw [a, b]
  simp [fwSigned]

theorem fwFile_rest : fwMalformed fwFile = false ∧ (decide (fieldAt fwFile 0x10 4 < up.sec.svnMin) ||
    (List.range 3).any (fun k =>
      let x := fwComponent fwFile k
      decide (x.1 + x.2 ≤ fwFile.length) && sha256 (bytesAt fwFile x.1 x.2) ≠ BitVec.ofNat 256 (fieldAt fwFile (0x20 + 32 * k) 32))) = false := by
  decide +kernel

theorem witness_EwesySettingsApply_4 :
    ∃ (s : State) (q : QId) (cid : W16) (c : Cmd), Admitted s q cid fwStageKind (fun _ => []) c ∧ fwMalformed (fwBytes s c) = false ∧ fwRejected s (fwBytes s c) = false := by
  refine ⟨given fwFile (asked fwCmd), .admin .A, 9, fwCmd, ⟨by decide, by decide⟩, ?_, ?_⟩
  · rw [fwFile_read]
    exact fwFile_rest.1
  · rw [fwFile_read]
    unfold fwRejected
    rw [fwFile_signed]
    have e : (given fwFile (asked fwCmd)).sec.svnMin = up.sec.svnMin := rfl
    rw [e]
    simpa only [Bool.not_true, Bool.false_or] using fwFile_rest.2

/-- The stream of the smallest program: HALT. -/
def haltBytes : List Byte := leBytes 16 (2 ^ 120)
/-- A section-table entry at an offset (R218). -/
def sectAt (o ty k off : Nat) (b : List Byte) : List (Nat × Nat × Nat) :=
  [(o, 2, ty), (o + 2, 2, k), (o + 8, 8, off), (o + 16, 8, b.length), (o + 24, 4, (crc32c b).toNat)]
def bindBytes : List Byte := leBytes 4 1 ++ zeros 16
/-- A program image of one ridge with that stream, one binding and no weight set (R217 to R226); its digest field is zero. -/
def image0 : List Byte :=
  layFields 596 ([(0, 4, 0x49505648), (4, 2, 1), (8, 8, 596), (0x10, 4, 1), (0x18, 2, 1), (0x1A, 2, 4), (0x20, 8, 0x100), (0x88, 4, 0x100), (0x8C, 4, 1), (0xA0, 4, 0x100)] ++
    sectAt 0x100 1 0 0x180 haltBytes ++ sectAt 0x120 2 0 0x1C0 (zeros 16) ++ sectAt 0x140 9 0 0x200 (zeros 16) ++ sectAt 0x160 12 0xFFFF 0x240 bindBytes ++
    [(0x180, 16, 2 ^ 120), (0x240, 4, 1)])
def progImage : List Byte := overlay image0 0x40 (bytes256 (sha256 image0))
def progCmd : Cmd := vf ([(0, 1, 0x28)] ++ buf 596)
/-- Partition 0 with ridge 0 in its map and nothing loaded. -/
def emptyPart : Part := { part0 with progs := [], ridgeMap := 0 :: List.replicate 47 0xFF }

theorem image1_length : progImage.length = 596 := by decide +kernel
theorem image1_read : loadBytes (given progImage (inPart emptyPart progCmd)) progCmd = progImage := by
  have e : dataIn (given progImage (inPart emptyPart progCmd)) progCmd (cmdLen progCmd) = progImage := given_read progImage _ 596 image1_length
  have p : cmdPtr progCmd ≠ 0 := by decide
  have l : wsLength progImage = 596 := by decide +kernel
  unfold loadBytes
  rw [if_neg p, e]
  show (if wsLength progImage ≤ progImage.length then progImage.take (wsLength progImage) else progImage) = progImage
  rw [l, image1_length, if_pos (Nat.le_refl _), List.take_of_length_le (Nat.le_of_eq image1_length)]

theorem image1_frame : piFrame progImage = true ∧ (piSects progImage).any (fun e => (crc32c (sectBytes progImage e)).toNat ≠ e.crc) = false := by decide +kernel
theorem image1_digest : digestOk progImage = true := by decide +kernel
theorem image1_rules (s : State) (p : Nat) : piRules s p progImage = true := by
  have w : piWset progImage = 0 := by decide +kernel
  have h : (headerOk progImage && cairnsOk progImage && bindingsOk progImage) = true := by decide +kernel
  have k : (List.range (piRidges progImage)).all (fun k => cfgOk progImage k && rescaleOk progImage k && groupsOk progImage k && feedOk progImage k && descsOk progImage k && layoutOk progImage k && streamOk progImage k &&
      cfgPos progImage k = 0) = true := by decide +kernel
  simp only [piRules, posUsedOk, w, h, if_pos, Bool.true_and]
  exact k
theorem progImage_needs : reqFieldOk progImage = true ∧ reqSizeOk (inPart emptyPart progCmd) 0 progImage = true ∧ streamBytes progImage = 16 ∧ piRidges progImage = 1 := by decide +kernel

theorem reqSize_given (b x : List Byte) (s : State) (p : Nat) : reqSizeOk (given b s) p x = reqSizeOk s p x := rfl

theorem witness_EwesyResourcesAreManaged_3 :
    ∃ (s : State) (q : QId) (cid : W16) (c : Cmd), Admitted s q cid progLoadKind (progChecks s) c := by
  refine ⟨given progImage (inPart emptyPart progCmd), .io 2, 9, progCmd, by decide, ?_⟩
  have g : (gateChecks (given progImage (inPart emptyPart progCmd)) progCmd progLoadKind).all (fun x => !x.1) = true := by decide
  have w : piWset progImage = 0 := by decide +kernel
  have z : reqSizeOk (given progImage (inPart emptyPart progCmd)) 0 progImage = true := (reqSize_given _ _ _ _).trans progImage_needs.2.1
  rw [List.all_append, g, Bool.true_and]
  unfold progChecks
  rw [image1_read]
  simp only [image1_frame.1, image1_frame.2, image1_digest, image1_rules, progImage_needs.1, show progCmd.part = 0 from rfl, z, progImage_needs.2.2.1, progImage_needs.2.2.2, w, List.all_cons,
    List.all_nil, Bool.not_true, Bool.not_false, Bool.true_and, Bool.and_true, ne_eq, not_true_eq_false, decide_false, Bool.false_and]
  decide

/-- A section of ternary weights, all 0, with one probe of zeros (R230 to R232). -/
def zeroSec : List Byte := [0x12, 1] ++ zeros 136446
/-- The container's header up to its digest (R228). -/
def wsetHead : List Byte := layFields 64 [(0, 4, 0x53575648), (4, 2, 1), (8, 8, 136960), (0x10, 4, 9), (0x14, 2, 1), (0x16, 2, 1), (0x18, 8, 0x100)]
/-- Its tile table (R229): position 31 of program ridge 0. -/
def wsetTable : List Byte := [0, 0, 31, 0x12] ++ leBytes 4 (crc32c zeroSec).toNat ++ leBytes 8 512 ++ leBytes 8 136448 ++ zeros 8
def wsetTail : List Byte := zeros 160 ++ wsetTable ++ zeros 224
/-- The container with this digest. -/
def wsetWith (d : List Byte) : List Byte := wsetHead ++ d ++ wsetTail ++ zeroSec
def wsetDigest : W256 := sha256 (wsetWith (zeros 32))
def wsetFile : List Byte := wsetWith (bytes256 wsetDigest)
def loadCmd : Cmd := vf ([(0, 1, 0x20)] ++ buf 136960)
def wsetEnt : TileEnt := ⟨0, 31, 0x12, (crc32c zeroSec).toNat, 512, 136448, false⟩

theorem bytes256_length (d : W256) : (bytes256 d).length = 32 := Laws.leBytes_length _ _
theorem zeroSec_length : zeroSec.length = 136448 := by
  rw [zeroSec, List.length_append, Laws.zeros_length]
  rfl
theorem wsetHead_length : wsetHead.length = 64 := by decide +kernel
theorem wsetTable_length : wsetTable.length = 32 := by
  simp only [wsetTable, List.length_append, Laws.leBytes_length, Laws.zeros_length, List.length_cons, List.length_nil]
theorem wsetTail_length : wsetTail.length = 416 := by
  simp only [wsetTail, List.length_append, Laws.zeros_length, wsetTable_length]
theorem wsetWith_length (d : List Byte) (h : d.length = 32) : (wsetWith d).length = 136960 := by
  simp only [wsetWith, List.length_append, wsetHead_length, h, wsetTail_length, zeroSec_length]
theorem wsetFile_length : wsetFile.length = 136960 := wsetWith_length _ (bytes256_length _)

theorem zeros_at (m k n : Nat) : bytesAt (zeros m) k n = zeros n := by
  simp only [bytesAt, zeros, List.drop_replicate, List.take_replicate, List.length_replicate, List.replicate_append_replicate]
  congr 1
  omega

theorem leNat_zeros : ∀ n, leNat (zeros n) = 0
  | 0 => rfl
  | n + 1 => by
    have h := leNat_zeros n
    simp only [zeros] at h ⊢
    rw [List.replicate_succ, leNat, h]
    rfl

/-- Past its first two bytes the section is zero. -/
theorem zeroSec_at (o n : Nat) (h : 2 ≤ o) : fieldAt zeroSec o n = 0 := by
  rw [fieldAt, zeroSec, Laws.bytesAt_app_right _ _ _ _ h, zeros_at, leNat_zeros]

theorem tOfList_zeros (n : Nat) : tOfList (0 : Int) (List.replicate n 0) = [] := by
  have h : ∀ n k, tsetRun (0 : Int) [] k (List.replicate n 0) = [] := by
    intro n
    induction n with
    | zero => intro k; rfl
    | succ n ih =>
      intro k
      rw [List.replicate_succ]
      exact ih (k + 1)
  exact h n 0

theorem sum_zeros : ∀ (l : List Nat), (l.map (fun _ => (0 : Int))).foldl (· + ·) 0 = 0
  | [] => rfl
  | _ :: l => sum_zeros l

theorem map_zeros (n : Nat) (f : Nat → Int) (h : ∀ i, f i = 0) : (List.range n).map f = List.replicate n 0 := by
  rw [funext h, List.map_const', List.length_range]

/-- Past its first two bytes a section is zero. -/
def ZeroPast2 (b : List Byte) : Prop := ∀ o n, 2 ≤ o → fieldAt b o n = 0

theorem wRaw_zero (b : List Byte) (z : ZeroPast2 b) (r c : Nat) : wRaw 0x12 b r c = 0 := by
  show fieldAt b (0x100 + r * 128 + c / 4) 1 / 4 ^ (c % 4) % 4 = 0
  rw [z _ _ (by omega), Nat.zero_div]

theorem zero_codes (b : List Byte) (z : ZeroPast2 b) : codesOk 0x12 b = true := by
  simp only [codesOk, wRaw_zero b z, List.all_eq_true]
  intro r _ c _
  rfl

theorem zero_count (b : List Byte) (z : ZeroPast2 b) : secScreeCount b = 0 ∧ secScree 0x12 b = [] := by
  have n : secScreeCount b = 0 := z 2 2 (by omega)
  refine ⟨n, ?_⟩
  rw [secScree, n]
  rfl

theorem zero_scree (b : List Byte) (z : ZeroPast2 b) : screeOk 0x12 b = true := by
  simp only [screeOk, (zero_count b z).1, (zero_count b z).2, wRaw_zero b z, Bool.and_eq_true, List.all_eq_true]
  refine ⟨⟨rfl, fun i h => ?_⟩, fun r _ c _ => rfl⟩
  simp at h

theorem zero_table (b : List Byte) (z : ZeroPast2 b) (n o k w m : Nat) (h : 2 ≤ o) :
    tOfList 0 ((List.range n).map (fun r => asSigned w (fieldAt b (o + k * r) m))) = [] := by
  rw [map_zeros, tOfList_zeros]
  intro i
  rw [z _ _ (by omega)]
  simp [asSigned]

theorem zero_probe (b : List Byte) (z : ZeroPast2 b) (k : Nat) : (secProbe 0x12 b k).input = [] ∧ (secProbe 0x12 b k).expect = [] := by
  have o : 2 ≤ secProbeOff 0x12 b := by
    have w : wBytes 0x12 = 131072 := rfl
    unfold secProbeOff
    rw [w]
    omega
  constructor
  · have h := zero_table b z 1024 (secProbeOff 0x12 b + 5120 * k) 1 8 1 (by omega)
    simp only [Nat.one_mul] at h
    simp only [secProbe]
    exact h
  · have h := zero_table b z 512 (secProbeOff 0x12 b + 5120 * k + 0x400) 4 32 4 (by omega)
    simp only [secProbe]
    exact h

theorem zero_probes (b : List Byte) (z : ZeroPast2 b) : probesOk 0x12 b = true := by
  simp only [probesOk, List.all_eq_true, Bool.and_eq_true, (zero_count b z).2]
  intro k _
  refine ⟨fun r _ => ?_, fun c _ => ?_⟩
  · rw [(zero_probe b z k).1]
    exact ⟨rfl, rfl⟩
  · have p : probeSum (secLevels 0x12 b) [] (secProbe 0x12 b k) c = 0 := by
      unfold probeSum
      rw [(zero_probe b z k).1]
      have y : (fun r => tget (0 : Int) [] r * tget 0 (secLevels 0x12 b) (r * 512 + c)) = fun _ => 0 := by
        funext r
        exact Int.zero_mul _
      rw [y, sum_zeros]
      rfl
    rw [p, (zero_probe b z k).2]
    simp [tget, tfind]

theorem wsetFile_split : wsetFile = (wsetHead ++ bytes256 wsetDigest ++ wsetTail) ++ zeroSec := rfl

theorem zeroSec_zero : ZeroPast2 zeroSec := zeroSec_at

/-- Fields of the header and of the table are read from the first 512 bytes. -/
theorem wset_low (d : List Byte) (h : d.length = 32) (o n : Nat) (e : o + n ≤ 64) : bytesAt (wsetWith d) o n = bytesAt wsetHead o n := by
  unfold wsetWith
  rw [List.append_assoc, List.append_assoc, Laws.bytesAt_app_left]
  rw [wsetHead_length]
  exact e

theorem wset_high (o n : Nat) (h : 96 ≤ o) (e : o + n ≤ 512) : bytesAt wsetFile o n = bytesAt wsetTail (o - 96) n := by
  unfold wsetFile wsetWith
  rw [Laws.bytesAt_app_left _ _ _ _ (by simp only [List.length_append, wsetHead_length, bytes256_length, wsetTail_length]; omega),
    Laws.bytesAt_app_right _ _ _ _ (by simp only [List.length_append, wsetHead_length, bytes256_length]; omega)]
  simp only [List.length_append, wsetHead_length, bytes256_length]

theorem wset_section : bytesAt wsetFile 512 136448 = zeroSec := by
  rw [wsetFile_split, Laws.bytesAt_app_right _ _ _ _ (by simp only [List.length_append, wsetHead_length, bytes256_length, wsetTail_length]; omega)]
  simp only [List.length_append, wsetHead_length, bytes256_length, wsetTail_length]
  exact Laws.bytesAt_full _ _ zeroSec_length

theorem wset_field (o n : Nat) (e : o + n ≤ 64) : fieldAt wsetFile o n = fieldAt wsetHead o n := by
  unfold fieldAt
  rw [wsetFile, wset_low _ (bytes256_length _) _ _ e]

theorem wset_crc : fieldAt wsetFile 0x104 4 = (crc32c zeroSec).toNat := by
  unfold fieldAt
  rw [wset_high _ _ (by omega) (by omega)]
  have s : wsetTail = (zeros 160 ++ [0, 0, 31, 0x12]) ++ (leBytes 4 (crc32c zeroSec).toNat ++ (leBytes 8 512 ++ leBytes 8 136448 ++ zeros 8 ++ zeros 224)) := by
    simp only [wsetTail, wsetTable, List.append_assoc]
  rw [s, Laws.bytesAt_app_right _ _ _ _ (by simp [Laws.zeros_length])]
  have l : (zeros 160 ++ [0, 0, 31, 0x12] : List Byte).length = 164 := by simp [Laws.zeros_length]
  rw [l, Laws.bytesAt_le_head]
  exact Laws.le4 _ (crc32c zeroSec).isLt

theorem wset_tail_fields : leNat (bytesAt wsetTail 160 2) = 0 ∧ leNat (bytesAt wsetTail 162 1) = 31 ∧ leNat (bytesAt wsetTail 163 1) = 0x12 ∧
    leNat (bytesAt wsetTail 168 8) = 512 ∧ leNat (bytesAt wsetTail 176 8) = 136448 ∧ (bytesAt wsetTail 184 8).all (fun b => decide (b = 0)) = true ∧
    (bytesAt wsetTail 0 160).all (fun b => decide (b = 0)) = true := by
  decide +kernel

theorem wset_head_fields : fieldAt wsetHead 0 4 = 0x53575648 ∧ fieldAt wsetHead 4 2 = 1 ∧ fieldAt wsetHead 8 8 = 136960 ∧ fieldAt wsetHead 0x10 4 = 9 ∧
    fieldAt wsetHead 0x14 2 = 1 ∧ fieldAt wsetHead 0x16 2 = 1 ∧ fieldAt wsetHead 0x18 8 = 0x100 ∧ (bytesAt wsetHead 0x20 32).all (fun b => decide (b = 0)) = true := by
  decide +kernel

theorem wset_entry : wsEntry wsetFile 0 = wsetEnt := by
  have t : wsTable wsetFile = 0x100 := (wset_field 0x18 8 (by omega)).trans wset_head_fields.2.2.2.2.2.2.1
  obtain ⟨a, b, c, d, e, f, _⟩ := wset_tail_fields
  unfold wsEntry wsetEnt
  simp only [t, Nat.mul_zero, Nat.add_zero, Nat.reduceAdd, wset_crc]
  simp only [fieldAt, zeroAt, wset_high 256 2 (by omega) (by omega), wset_high 258 1 (by omega) (by omega), wset_high 259 1 (by omega) (by omega),
    wset_high 264 8 (by omega) (by omega), wset_high 272 8 (by omega) (by omega), wset_high 280 8 (by omega) (by omega), Nat.reduceSub, a, b, c, d, e, f, Bool.not_true]

theorem wset_entries : wsEntries wsetFile = [wsetEnt] := by
  have n : wsTiles wsetFile = 1 := (wset_field 0x16 2 (by omega)).trans wset_head_fields.2.2.2.2.2.1
  rw [wsEntries, n, show List.range 1 = [0] from rfl, List.map_cons, List.map_nil, wset_entry]

theorem wset_sec : wsSection wsetFile wsetEnt = zeroSec := wset_section

theorem overlay_mid (a d r z : List Byte) (h : d.length = z.length) : overlay (a ++ d ++ r) a.length z = a ++ z ++ r := by
  unfold overlay
  have l : z.length ≤ (a ++ d ++ r).length - a.length := by
    simp only [List.length_append]
    omega
  rw [List.take_of_length_le l, List.append_assoc a d r, List.take_left, ← h, ← List.length_append, ← List.append_assoc a d r, List.drop_left]

theorem wset_digest : digestOk wsetFile = true := by
  have o : overlay wsetFile 0x40 (zeros 32) = wsetWith (zeros 32) := by
    unfold wsetFile wsetWith
    rw [List.append_assoc (wsetHead ++ _), List.append_assoc (wsetHead ++ _)]
    have h := overlay_mid wsetHead (bytes256 wsetDigest) (wsetTail ++ zeroSec) (zeros 32) (by rw [bytes256_length, Laws.zeros_length])
    rw [wsetHead_length] at h
    exact h
  have f : fieldAt wsetFile 0x40 32 = wsetDigest.toNat := by
    unfold fieldAt wsetFile wsetWith
    rw [List.append_assoc, List.append_assoc, Laws.bytesAt_app_right _ _ _ _ (Nat.le_of_eq wsetHead_length), wsetHead_length, Nat.sub_self,
      Laws.bytesAt_app_left _ _ _ _ (Nat.le_of_eq (by rw [bytes256_length])), Laws.bytesAt_full _ _ (bytes256_length _)]
    rw [bytes256, Laws.leNat_leBytes]
    exact Nat.mod_eq_of_lt wsetDigest.isLt
  unfold digestOk
  rw [o, f, BitVec.ofNat_toNat, BitVec.setWidth_eq]
  exact decide_eq_true rfl

theorem wset_frame : wsFrame wsetFile = true := by
  obtain ⟨a, b, c, _, _, d, e, _⟩ := wset_head_fields
  simp only [wsFrame, wsLength, wsTable, wsTiles, wset_entries, wsetFile_length, wset_field 0 4 (by omega), wset_field 4 2 (by omega), wset_field 8 8 (by omega), wset_field 0x16 2 (by omega),
    wset_field 0x18 8 (by omega), a, b, c, d, e]
  decide

theorem wset_section_ok : sectionOk wsetEnt zeroSec = true := by
  have f : fieldAt zeroSec 0 1 = 0x12 := rfl
  have p : secProbes zeroSec = 1 := rfl
  have c := (zero_count _ zeroSec_zero).1
  have z : zeroAt zeroSec 4 60 = true := by
    rw [zeroAt, zeroSec, Laws.bytesAt_app_right _ _ _ _ (by decide), zeros_at]
    decide
  have w : wsetEnt.format = 0x12 := rfl
  have g : wBytes 0x12 = 131072 := rfl
  simp only [sectionOk, w, f, p, z, secProbeOff, c, g, zero_codes _ zeroSec_zero, zero_scree _ zeroSec_zero, zero_probes _ zeroSec_zero]
  rfl

theorem wset_rules : wsRules wsetFile = true := by
  obtain ⟨_, _, _, a, b, c, d, e⟩ := wset_head_fields
  have z : zeroAt wsetFile 0x60 160 = true := by
    rw [zeroAt, wset_high 96 160 (by omega) (by omega)]
    exact wset_tail_fields.2.2.2.2.2.2
  have y : zeroAt wsetFile 0x20 32 = true := by
    rw [zeroAt, wsetFile, wset_low _ (bytes256_length _) _ _ (by omega)]
    exact e
  simp only [wsRules, wsTable, wsTiles, wset_entries, wset_field 0x10 4 (by omega), wset_field 0x14 2 (by omega), wset_field 0x16 2 (by omega), wset_field 0x18 8 (by omega), a, b, c, d, y, z,
    List.all_cons, List.all_nil, wset_sec, wset_section_ok]
  rfl

theorem wsetFile_read : loadBytes (given wsetFile (inPart emptyPart loadCmd)) loadCmd = wsetFile := by
  have e : dataIn (given wsetFile (inPart emptyPart loadCmd)) loadCmd (cmdLen loadCmd) = wsetFile := by
    have n : cmdLen loadCmd = 136960 := by decide
    have q : cmdPtr loadCmd = 4096 := by decide
    unfold dataIn
    rw [n, q]
    exact given_read wsetFile _ 136960 wsetFile_length
  have p : cmdPtr loadCmd ≠ 0 := by decide
  have l : wsLength wsetFile = 136960 := (wset_field 8 8 (by omega)).trans wset_head_fields.2.2.1
  unfold loadBytes
  rw [if_neg p, e]
  show (if wsLength wsetFile ≤ wsetFile.length then wsetFile.take (wsLength wsetFile) else wsetFile) = wsetFile
  rw [l, wsetFile_length, if_pos (Nat.le_refl _), List.take_of_length_le (Nat.le_of_eq wsetFile_length)]

theorem golden_given (b : List Byte) (s : State) (p : Nat) (i : W32) : otherGolden (given b s) p i = otherGolden s p i := Eq.trans rfl rfl
theorem find_given (b : List Byte) (s : State) (p : Nat) (i : W32) : findWset (given b s) p i = findWset s p i := Eq.trans rfl rfl
theorem taken_given (b : List Byte) (s : State) (p : Nat) (i : W32) : takenOver (given b s) p i = takenOver s p i := Eq.trans rfl rfl
theorem free_given (b : List Byte) (s : State) (p : Nat) : fwFree (given b s) p = fwFree s p := Eq.trans rfl rfl
theorem getP_given (b : List Byte) (s : State) (p : Nat) : getP (given b s) p = getP s p := Eq.trans rfl rfl
theorem gate_given (b : List Byte) (s : State) (c : Cmd) (k : CmdKind) : gateChecks (given b s) c k = gateChecks s c k := Eq.trans rfl rfl
theorem ready_given (b : List Byte) (s : State) (q : QId) (i : W16) (k : CmdKind) : readyCmd (given b s) q i k = readyCmd s q i k := Eq.trans rfl rfl
theorem freeService_given (b : List Byte) (s : State) : freeService (given b s) = freeService s := Eq.trans rfl rfl
theorem load_ready : readyCmd (inPart emptyPart loadCmd) (.io 2) 9 wsetLoadKind = some loadCmd ∧ freeService (inPart emptyPart loadCmd) ≠ none := by decide +kernel
theorem load_empty : (gateChecks (inPart emptyPart loadCmd) loadCmd wsetLoadKind).all (fun x => !x.1) = true ∧ otherGolden (inPart emptyPart loadCmd) loadCmd.part 9 = [] ∧
    findWset (inPart emptyPart loadCmd) loadCmd.part 9 = none ∧ takenOver (inPart emptyPart loadCmd) loadCmd.part 9 = none ∧
    ¬ fwFree (inPart emptyPart loadCmd) loadCmd.part < 532480 ∧ mapPhys (getP (inPart emptyPart loadCmd) loadCmd.part) 0 = some 0 := by decide +kernel

theorem load_crc : (crc32c (wsSection wsetFile wsetEnt)).toNat = wsetEnt.crc := by rw [wset_sec]; rfl
theorem load_id : wsId wsetFile = 9 := by
    rw [wsId, wset_field 0x10 4 (by omega), wset_head_fields.2.2.2.1]
    rfl
theorem witness_EwesyResourcesAreManaged_4 :
    ∃ (s : State) (q : QId) (cid : W16) (c : Cmd), Admitted s q cid wsetLoadKind (loadChecks s) c ∧ freeService s ≠ none := by
  refine ⟨given wsetFile (inPart emptyPart loadCmd), .io 2, 9, loadCmd, ⟨(ready_given _ _ _ _ _).trans load_ready.1, ?_⟩, fun e => load_ready.2 ((freeService_given _ _).symm.trans e)⟩
  obtain ⟨g, og, fs, tk, fr, mp⟩ := load_empty
  have n : secScreeCount (wsSection wsetFile wsetEnt) = 0 := by
    rw [wset_sec]
    exact (zero_count _ zeroSec_zero).1
  have z : wsetEnt.ridge = 0 := rfl
  rw [List.all_append, gate_given, g, Bool.true_and]
  unfold loadChecks
  rw [wsetFile_read]
  simp only [wset_entries, wset_frame, wset_digest, wset_rules, load_id, golden_given, find_given, taken_given, free_given, getP_given, og, fs, tk, z, mp, load_crc,
    List.any_cons, List.any_nil, List.all_cons, List.all_nil, List.filter_cons, List.filter_nil, decide_true, if_true, n, List.map_cons, List.map_nil,
    Bool.not_true, Bool.not_false, Bool.true_and, Bool.or_false]
  simp only [Option.map_none, Option.getD_none, Nat.add_zero, Option.isNone_some, Option.isSome_none, Bool.false_and, List.length_cons, List.length_nil, Nat.zero_add, Nat.mul_one,
    List.foldl_nil, List.foldl_cons, decide_eq_false fr, ne_eq, not_true_eq_false, decide_false, Bool.not_false, Bool.and_true, Bool.true_and]
  rfl

/-! ### Ill-formed commands, one for each check of WellFormed -/

/-- A frame of this TYPE for device 1 with no payload. -/
def small (ty : Nat) : Frame := ⟨ty, 1, 0, 0, 0, false, 0, 0, 0, 0, true, true, []⟩
/-- A codeword that the FEC need not correct. -/
def codeword : Codeword := ⟨true, 0, 1, 0, 0⟩

theorem test_refuses_wrong_opcode :
    wellFormed (.nop 0 .job (ins 0x01 [])) = false ∧ wellFormed (.wait 0 .job (ins 0x31 [])) = false ∧ wellFormed (.dmaFill 0 .service (ins 0x29 [])) = false ∧
    wellFormed (.nop 0 .job (ins 0 [])) = true ∧ wellFormed (.wait 0 .job (ins 0x30 [])) = true := by decide
theorem test_refuses_ring_that_does_not_exist :
    wellFormed (.identify (.io 1024) 1) = false ∧ wellFormed (.commandFetch (.io 1024)) = false ∧ wellFormed (.identify (.io 1023) 1) = true := by decide
theorem test_refuses_deviation_of_no_converter :
    wellFormed (.contributionCommit 0 0 [⟨32, 0, 0, 0, 0, 1⟩]) = false ∧ wellFormed (.contributionCommit 0 0 [⟨0, 2, 0, 0, 0, 1⟩]) = false ∧
    wellFormed (.probeCompare 0 0 [⟨0, 0, 4, 0, 0, 1⟩]) = false ∧ wellFormed (.probeCompare 0 0 [⟨0, 0, 0, 4, 0, 1⟩]) = false ∧
    wellFormed (.probeCompare 0 0 [⟨0, 0, 0, 0, 512, 1⟩]) = false ∧ wellFormed (.probeCompare 0 0 [⟨31, 1, 3, 3, 511, 1⟩]) = true := by decide
theorem test_refuses_ridge_operands_out_of_range :
    wellFormed (.drainComplete 0 0 [512]) = false ∧ wellFormed (.moraineFill 0 (94 * 2 ^ 30) 0) = false ∧ wellFormed (.moraineFill 0 0 3) = false ∧
    wellFormed (.surveyComplete 0 0 [0, 0, 0, 0, 0, 0, 0]) = false ∧ wellFormed (.programmingComplete 0 0 [1024] [] true (List.replicate 8 0)) = false ∧
    wellFormed (.programmingComplete 0 0 [] [1024] true (List.replicate 8 0)) = false ∧ wellFormed (.programmingComplete 0 0 [] [] true []) = false := by decide
theorem test_refuses_converter_that_does_not_exist :
    wellFormed (.converterCalibration 0 [(4, 0, 0)]) = false ∧ wellFormed (.converterCalibration 0 [(0, 64, 0)]) = false ∧
    wellFormed (.converterCalibration 0 [(0, 0, 4)]) = false ∧ wellFormed (.fieldTestComplete 0 0 [(4, 0, 0)] [] 900) = false ∧
    wellFormed (.fieldTestComplete 0 0 [] [(32, 0, 0, 0, 0)] 900) = false ∧ wellFormed (.fieldTestComplete 0 0 [] [(0, 0, 513, 0, 0)] 900) = false ∧
    wellFormed (.fieldTestComplete 0 0 [] [(0, 0, 0, 512, 0)] 900) = false := by decide
theorem test_refuses_power_frame_of_other_length : wellFormed (.powerFrame 48000 0 []) = false ∧ wellFormed (.powerFrame 48000 0 (List.replicate 212 0)) = true := by
  decide +kernel
theorem test_refuses_host_operands_out_of_range :
    wellFormed (.wsetVerify (.io 0) 1 [(48, 0, 1)]) = false ∧ wellFormed (.wsetVerify (.io 0) 1 [(0, 32, 1)]) = false ∧ wellFormed (.registerWrite .A 0 2 0) = false ∧
    wellFormed (.registerWrite .A 0 4 0) = true := by decide
theorem test_refuses_spdm_operands_out_of_range :
    wellFormed (.getCertificate .A 16 0 0) = false ∧ wellFormed (.getCertificate .A 0 65536 0) = false ∧ wellFormed (.getCertificate .A 0 0 65536) = false ∧
    wellFormed (.challenge .A 16 0) = false ∧ wellFormed (.getMeasurements .A 256 true 0) = false ∧ wellFormed (.keyExchange .A 65536 (List.replicate 64 0)) = false ∧
    wellFormed (.keyExchange .A 1 []) = false ∧ wellFormed (.finish .A (2 ^ 32) true) = false ∧ wellFormed (.keyUpdate .A (2 ^ 32) true) = false ∧
    wellFormed (.lockInterface .A (2 ^ 32) 0) = false ∧ wellFormed (.keyProg .A 1 0 true true 16 (List.replicate 32 0)) = false ∧
    wellFormed (.keyProg .A 1 0 true true 0 []) = false := by decide
theorem test_refuses_mctp_and_clay_operands_out_of_range :
    wellFormed (.mctpControlMessage 256 []) = false ∧ wellFormed (.mctpControlMessage 0 (List.replicate 65 0)) = false ∧ wellFormed (.clayRecordRead 256 0) = false ∧
    wellFormed (.clayRecordUpdate 256 0 []) = false := by decide
theorem test_refuses_codeword_out_of_range :
    wellFormed (.codewordReceive 0 { codeword with corrected := 16 }) = false ∧ wellFormed (.codewordReceive 0 { codeword with seq := 256 }) = false ∧
    wellFormed (.codewordReceive 0 { codeword with ack := 256 }) = false ∧ wellFormed (.codewordReceive 0 { codeword with ctl := 16 }) = false ∧
    wellFormed (.codewordReceive 0 codeword) = true := by decide
theorem test_refuses_frame_of_other_type :
    wellFormed (.wr 0 (small 2)) = false ∧ wellFormed (.rd 0 (small 1)) = false ∧ wellFormed (.atom 0 (small 1)) = false ∧ wellFormed (.msg 0 (small 1)) = false ∧
    wellFormed (.rsp 0 (small 1)) = false ∧ wellFormed (.rdata 0 (small 8)) = false ∧ wellFormed (.hail 0 (small 0xD)) = false ∧ wellFormed (.report 0 (small 0xC)) = false := by
  decide
theorem test_refuses_frame_fields_out_of_range :
    wellFormed (.rd 0 { small 2 with dst := 4096 }) = false ∧ wellFormed (.rd 0 { small 2 with src := 4096 }) = false ∧ wellFormed (.rd 0 { small 2 with spart := 16 }) = false ∧
    wellFormed (.rd 0 { small 2 with tag := 4096 }) = false ∧ wellFormed (.rd 0 { small 2 with hops := 16 }) = false ∧ wellFormed (.rd 0 { small 2 with len := 32 }) = false ∧
    wellFormed (.rd 0 { small 2 with op := 16 }) = false ∧ wellFormed (.rd 0 { small 2 with off64 := 2 ^ 29 }) = false ∧ wellFormed (.rd 0 { small 2 with payload := [0] }) = false ∧
    wellFormed (.wr 0 { small 1 with len := 1 }) = false ∧ wellFormed (.wr 0 { small 1 with len := 1, payload := List.replicate 16 0 }) = true := by decide

/-! ### Small results, read off the spec's worked examples -/

/-- Section 2's example in W11D: the high pair of -1,000 stores -62, the low pair -8. -/
theorem test_w11d_pairs : pairsOf 0x11 20 (-1000) = [(40, -8), (41, -62)] := by decide
/-- Section 3's conversion, strict (k = 0): phase H in range 3; the sub-group bounds of phase L in range 3. -/
theorem test_strict_ranges : rangeFor 0 0 16120 = 3 ∧ [24440, 25064, 24492, 25064].map (rangeFor 0 0) = [3, 3, 3, 3] ∧ rangeFor 0 0 60480 = 3 := by decide
/-- The same, relaxed (k = 2): phase H in range 1, phase L in range 2; at k = 3 phase H in range 0. -/
theorem test_relaxed_ranges : rangeFor 0 2 16120 = 1 ∧ rangeFor 0 2 99060 = 2 ∧ rangeFor 0 3 16120 = 0 := by decide
/-- Section 5's frame: 23.5 in MAX mode gives E = -2. -/
theorem test_max_exponent : blockExp 0 0 [.fin false ⟨47, 2⟩, .fin false ⟨1, 2⟩] = -2 := by decide
/-- Section 6's alignment: E_g = -7 into E_s = -7 is unshifted, E_g = -2 is shifted left by 5. -/
theorem test_alignment : alignLeaf (-7) (-7) 3 = (3, false) ∧ alignLeaf (-2) (-7) 3 = (96, false) := by decide
/-- Section 6's channels 300 and 301 at cancel shift 8: only the second is cancelled. -/
theorem test_cancel : cancels 8 { Entry.zero with val := 109712 } (f32OfInt 4615000) = false ∧ cancels 8 { Entry.zero with val := 2650 } (f32OfInt 2190000) = true := by decide
/-- Section 5's channel entry: MANT = 0xA91F, SHIFT = 9, BIAS = -12, INT8, identity. -/
def channel40 : W64 := BitVec.ofNat 64 ((2 ^ 32 - 12) * 2 ^ 32 + 9 * 2 ^ 16 + 0xA91F)
theorem test_drain_channel_40 :
    drainB { RidgeSt.reset with rsc := [(0, BitVec.ofNat 64 (2 ^ 16))], half0 := [(0, channel40)] } false 0 0 31742 = 4581810 ∧
    drainB { RidgeSt.reset with rsc := [(0, BitVec.ofNat 64 (2 ^ 16))], half0 := [(0, channel40)] } false 0 0 60000 = 9360834 := by decide
/-- The two channels as INT8 with escapes: 0x46, and the escape code 0x80 with one entry on the side list. -/
theorem test_drain_escape : (drainOut 2 true [4581810, 9360834]).data = [0x46, 0x80] ∧ ((drainOut 2 true [4581810, 9360834]).escapes.map (fun e => e.1)) = [1] ∧
    f32Val (f32OfQ (qScale (qOf 9360834) (-16))) = qScale (qOf 9360834) (-16) := by decide

/-- R238 and R403: BAR4 shows ridge 0's Loam when its owner is a debug partition, and zero when it is not. -/
theorem test_debug_aperture :
    (let s (f : Byte) : State := { ridge0 (fun rd => { rd with loam := [(5, some 0xAB)] }) with parts := [(0, { part0 with pflags := f })] }
     (apertureByte (s 2) 5, apertureByte (s 0) 5, apertureByte (s 2) 0x200005)) = (0xAB, 0, 0) := by decide

end Sys2Proof.Tests
end

section
/-!
SUPPORT. Prorvafort's life (R7, R18, R299, R304, R411): the answer of each of its rows once the row's condition holds, and what a restart, a stall and a version rise leave in the state.
-/

namespace Sys2Proof.Laws

open Sys2Proof.Machine

/-! ### Heartbeats and stalls (R18) -/

theorem fwHeartbeat_next (s : State) (hw : awake s = true) (hr : s.cmc.fw = .running) :
    exec .fwHeartbeat s = .next { s with cmc := { s.cmc with lastBeat := s.now } } := by
  show execFwHeartbeat s = _
  simp [execFwHeartbeat, hw, hr]

/-- The watchdog has run out under a running Prorvafort (R18). -/
structure BeatMissed (s : State) : Prop where
  awake : awake s = true
  running : s.cmc.fw = .running
  watchdog : s.cmc.watchdog = true
  late : s.cmc.lastBeat + 2 ^ 20 ≤ s.now

theorem heartbeatTimeout_again (s : State) (h : BeatMissed s) (a : Nat) (ha : s.cmc.restartedAt = some a) (hn : s.now < a + 2 ^ 30) :
    exec .heartbeatTimeout s = .next (secondStall s) := by
  show execHeartbeatTimeout s = _
  have hl := h.late
  simp [-Nat.reducePow, execHeartbeatTimeout, h.awake, h.running, h.watchdog, hl, ha, hn]

theorem heartbeatTimeout_first (s : State) (h : BeatMissed s) (ha : ∀ a, s.cmc.restartedAt = some a → a + 2 ^ 30 ≤ s.now) :
    exec .heartbeatTimeout s = .next (stall s .stalled .stall) := by
  show execHeartbeatTimeout s = _
  have hl := h.late
  cases hr : s.cmc.restartedAt with
  | none => simp [-Nat.reducePow, execHeartbeatTimeout, h.awake, h.running, h.watchdog, hl, hr]
  | some a =>
    have hn : ¬ s.now < a + 2 ^ 30 := Nat.not_lt.mpr (ha a hr)
    simp [-Nat.reducePow, execHeartbeatTimeout, h.awake, h.running, h.watchdog, hl, hr, hn]

theorem fwStartTimeout_next (s : State) (a : Nat) (ha : s.cmc.resetAt = some a) (hw : awake s = true) (hf : s.cmc.fw = .stalled) (hn : a + 2 ^ 32 ≤ s.now) :
    exec .fwStartTimeout s = .next (secondStall s) := by
  show execFwStartTimeout s = _
  simp [-Nat.reducePow, execFwStartTimeout, ha, hw, hf, hn]

/-! ### The restart (R18, R411) -/

theorem bootEnd_cmc (s : State) : (bootEnd s).cmc =
    { s.cmc with fw := .running, busyReset := s.cmc.wholeScrub.isSome, lastBeat := s.now, watchdog := true, resetAt := none, runningAt := s.now } := by
  unfold bootEnd
  rw [pinSync_eq]

theorem bootEnd_now (s : State) : (bootEnd s).now = s.now := by
  unfold bootEnd
  rw [pinSync_eq]

/-- A restart in which no slot authenticates. -/
theorem fwRunning_none (s : State) (hw : awake s = true) (hf : s.cmc.fw = .stalled) (ha : s.cmc.resetAt.isSome = true) (hb : bedrock s true true = none) :
    exec .fwRunning s = .next { s with cmc := { s.cmc with fw := .authFail, resetAt := none } } := by
  show execFwRunning s = _
  simp [execFwRunning, hw, hf, ha, hb]

/-- The end of a restart (R18): RUNNING again, the time of the restart kept, attention on both ports. -/
def restarted (s : State) : State := attnBoth { bootEnd s with cmc := { (bootEnd s).cmc with restartedAt := some (bootEnd s).now } } 0

theorem restarted_cmc (s : State) : (restarted s).cmc =
    { s.cmc with
      fw := .running, busyReset := s.cmc.wholeScrub.isSome, lastBeat := s.now, watchdog := true, resetAt := none, restartedAt := some s.now, runningAt := s.now } := by
  unfold restarted
  rw [attnBoth_eq]
  dsimp only
  rw [bootEnd_cmc, bootEnd_now]

/-- A restart in which a slot authenticates. -/
theorem fwRunning_some (s s1 : State) (hw : awake s = true) (hf : s.cmc.fw = .stalled) (ha : s.cmc.resetAt.isSome = true) (hb : bedrock s true true = some s1) :
    exec .fwRunning s = .next (restarted (restartScrubs (orphanTiles (startModel s1)))) := by
  show execFwRunning s = _
  simp [execFwRunning, hw, hf, ha, hb, restarted]

theorem bedrock_both_none (s : State) : bedrock s true true = none ↔ ((slotImage s false).isSome || (slotImage s true).isSome) = false := by
  simpa using bedrock_none s true true

theorem bedrock_both_some {s s1 : State} (h : bedrock s true true = some s1) : ((slotImage s false).isSome || (slotImage s true).isSome) = true := by
  simpa using bedrock_some h

theorem slotImage_of_neither {s : State} (h : ((slotImage s false).isSome || (slotImage s true).isSome) = false) (b : Bool) : (slotImage s b).isSome = false := by
  obtain ⟨ha, hb⟩ := Bool.or_eq_false_iff.mp h
  cases b
  · exact ha
  · exact hb

/-! ### The version floor (R411) and the host-ready pins (R304) -/

theorem securityEvent_eq (s : State) (cause part port fn tile id : Nat) :
    securityEvent s cause part port fn tile id = { s with col := (securityEvent s cause part port fn tile id).col, free := s.free + 1 } := raiseCore_eq ..

theorem svnRaise_next (s : State) (hw : awake s = true) (hf : s.cmc.fw = .running) (hn : s.cmc.runningAt + 2 ^ 32 ≤ s.now) (hv : s.sec.svnMin < s.sec.running.svn) :
    exec .svnRaise s = .next (securityEvent { s with sec := { s.sec with svnMin := s.sec.running.svn } } 0x08 0xFF 0 0 0 (imageId (some s.sec.running))) := by
  show execSvnRaise s = _
  simp [-Nat.reducePow, execSvnRaise, hw, hf, hn, hv]

theorem hrdyMinimumTime_next (s : State) (p : Port) (hw : awake s = true) : exec (.hrdyMinimumTime p) s = .next (hrdySync s p) := by
  show execHrdyMinimumTime p s = _
  simp [execHrdyMinimumTime, hw]

/-- Settles O40. A missed heartbeat stalls Prorvafort, a second time when the last restart is less than 2^30 cycles ago; a restart turns on whether Bedrock finds a valid image. -/
theorem firmwareLivesByHeartbeats : Obligations.FirmwareLivesByHeartbeats := by
  unfold Obligations.FirmwareLivesByHeartbeats
  refine ⟨fwHeartbeat_next, fun s hw hr hd hl => ?_, fun s a ha hw hf hn => ?_, fun s hw hf ha => ?_, fun s hw hf hn hv => ?_, fun s p hw => ?_⟩
  · have hm : BeatMissed s := ⟨hw, hr, hd, hl⟩
    obtain ⟨hc, hk⟩ := stall_facts s .stalled .stall
    obtain ⟨hc2, hk2⟩ := secondStall_facts s
    cases hra : s.cmc.restartedAt with
    | none =>
      refine ⟨_, heartbeatTimeout_first s hm (by simp [hra]), ?_⟩
      simp [hc, hk, hd]
    | some a =>
      by_cases hn : s.now < a + 2 ^ 30
      · refine ⟨_, heartbeatTimeout_again s hm a hra hn, ?_⟩
        simp [-Nat.reducePow, hc2, hk2, hn]
      · refine ⟨_, heartbeatTimeout_first s hm (by simp [hra]; omega), ?_⟩
        simp [-Nat.reducePow, hc, hk, hd, hn]
  · refine ⟨_, fwStartTimeout_next s a ha hw hf hn, ?_⟩
    rw [(secondStall_facts s).1]
    exact ⟨rfl, rfl, rfl, rfl⟩
  · cases hb : bedrock s true true with
    | none =>
      have hi := (bedrock_both_none s).mp hb
      refine ⟨_, fwRunning_none s hw hf ha hb, by rw [hi]; rfl, rfl, fun hs => ?_⟩
      rw [slotImage_of_neither hi] at hs
      cases hs
    | some s1 =>
      refine ⟨_, fwRunning_some s s1 hw hf ha hb, ?_⟩
      simp [restarted_cmc, bedrock_both_some hb]
  · exact ⟨_, svnRaise_next s hw hf hn hv, by rw [securityEvent_eq], by rw [securityEvent_eq]⟩
  · exact ⟨_, hrdyMinimumTime_next s p hw, hrdySync_eq s p, getPort_hrdySync s p⟩

end Sys2Proof.Laws
end

section
/-!
SUPPORT. The registers of BAR0 (R7, R294, R295, R298 to R302, R322): what each write and each read with an effect answers through a live function, and what the named updates of Regs.lean leave readable.
-/

namespace Sys2Proof.Laws

open Sys2Proof.Machine

/-! ### Fields of registers -/

theorem bits_lt {n : Nat} (w : BitVec n) (hi lo : Nat) : bits w hi lo < 2 ^ (hi + 1 - lo) := Nat.mod_lt _ (Nat.two_pow_pos _)

theorem aqWord_active (live : Bool) (v : W32) : bitAt (aqWord live v) 30 = live :=
  cfg_bit30 _ _ _ _ _ (bits_lt v 21 16) (bits_lt v 11 8) (bits_lt v 3 0)

/-! ### Attention and control (R298, R299) -/

theorem hbAttnAck_next (s : State) (p : Port) (v : W32) (h : barLive s p 0 = true) :
    exec (.hbAttnAck p v) s = .next (hrdySync (updPort s p (fun t => { t with attn := t.attn &&& ~~~ v })) p) := by
  show execHbAttnAck p v s = _
  simp [execHbAttnAck, h]

/-- HB_CTRL of a function after a write of v (R298). -/
def ctrlWritten (f : Nat) (v : W32) (r : FnRegs) : FnRegs :=
  { r with
    ctrl := BitVec.ofNat 32 (boolBit (evtEnable r v) 0 + boolBit (bitAt v 1 && f = 0) 1)
    evtHead := if evtEnable r v && !bitAt r.ctrl 0 then 0 else r.evtHead
    evtTail := if evtEnable r v && !bitAt r.ctrl 0 then 0 else r.evtTail }

theorem hbCtrl_next (s : State) (p : Port) (f : Fn) (v : W32) (h : barLive s p f = true) :
    exec (.hbCtrl p f v) s = .next (updFn s p f (ctrlWritten f v)) := by
  show execHbCtrl p f v s = _
  rw [execHbCtrl, if_pos h]
  rfl

theorem ctrlWritten_evtEn (f : Nat) (v : W32) (r : FnRegs) : bitAt (ctrlWritten f v r).ctrl 0 = evtEnable r v := (ctrl_bits _ _).1

theorem ctrlWritten_attnMsix (f : Nat) (v : W32) (r : FnRegs) : bitAt (ctrlWritten f v r).ctrl 1 = (bitAt v 1 && decide (f = 0)) := (ctrl_bits _ _).2

/-- EVT_EN going on starts the ring at index 0. -/
theorem ctrlWritten_start (f : Nat) (v : W32) (r : FnRegs) (hv : evtEnable r v = true) (hr : bitAt r.ctrl 0 = false) :
    (ctrlWritten f v r).evtHead = 0 ∧ (ctrlWritten f v r).evtTail = 0 := by
  simp [ctrlWritten, hv, hr]

/-! ### The admin queue (R298) -/

theorem hbAqCfg_next (s : State) (p : Port) (v : W32) (h : barLive s p 0 = true) : exec (.hbAqCfg p v) s = .next (aqConfigure s p v) := by
  show execHbAqCfg p v s = _
  simp [execHbAqCfg, h]

theorem aqQueue_st (s : State) (p : Port) (v : W32) :
    (aqQueue s p v).st = (if bitAt v 31 && (decide ((getQ s (.admin p)).st = .live) || aqExpsOk v) then .live else .absent) := by
  unfold aqQueue
  by_cases hv : bitAt v 31 = true
  · by_cases hl : (getQ s (.admin p)).st = .live
    · simp [hv, hl]
    · by_cases he : aqExpsOk v = true <;> simp [hv, hl, he, adminQueue, Queue.absent]
  · simp [hv, Queue.absent]

theorem aqConfigure_eq (s : State) (p : Port) (v : W32) : aqConfigure s p v = { s with host := (aqConfigure s p v).host } := by
  unfold aqConfigure
  rw [pinSync_eq, updPort_eq, setQ_eq]

theorem getQ_aqConfigure (s : State) (p : Port) (v : W32) : getQ (aqConfigure s p v) (.admin p) = { aqQueue s p v with port := p } := by
  unfold aqConfigure
  rw [getQ_pinSync, getQ_updPort, getQ_setQ_self]

theorem aqCfg_aqConfigure (s : State) (p : Port) (v : W32) : (getPort (aqConfigure s p v) p).aqCfg = aqWord (decide ((aqQueue s p v).st = .live)) v := by
  unfold aqConfigure
  rw [pinSync_port _ PortSt.aqCfg (fun _ _ _ => rfl), getPort_updPort_self]

/-! ### Reads with an effect (R7, R294, R302, R322) -/

theorem getFn_readBack (s : State) (v : W32) (p : Port) (f : Nat) : getFn (readBack s v) p f = getFn s p f := rfl

theorem updFn_readData (s : State) (p : Port) (f : Nat) (g : FnRegs → FnRegs) : (updFn s p f g).host.readData = s.host.readData := rfl

theorem hbEvtDrop_next (s : State) (p : Port) (f : Fn) (h : barLive s p f = true) :
    exec (.hbEvtDrop p f) s = .next (updFn (readBack s (getFn s p f).evtDrop) p f (fun r => { r with evtDrop := 0 })) := by
  show execHbEvtDrop p f s = _
  simp [execHbEvtDrop, h]

theorem hbColSeqLo_next (s : State) (p : Port) (f : Fn) (h : barLive s p f = true) :
    exec (.hbColSeqLo p f) s =
      .next (updFn (readBack s (BitVec.ofNat 32 (lastSeq s))) p f (fun r => { r with seqLatch := some (BitVec.ofNat 32 (lastSeq s / 2 ^ 32)) })) := by
  show execHbColSeqLo p f s = _
  simp [execHbColSeqLo, h]

theorem hbColSeqHi_next (s : State) (p : Port) (f : Fn) (h : barLive s p f = true) :
    exec (.hbColSeqHi p f) s =
      .next (updFn (readBack s ((getFn s p f).seqLatch.getD (BitVec.ofNat 32 (lastSeq s / 2 ^ 32)))) p f (fun r => { r with seqLatch := none })) := by
  show execHbColSeqHi p f s = _
  simp [execHbColSeqHi, h]

/-- A read with an effect through an inert VF returns zero and has none. -/
theorem inertRead_next (s : State) (p : Port) (f : Fn) (c : Instr) (hc : c = .hbEvtDrop p f ∨ c = .hbColSeqLo p f ∨ c = .hbColSeqHi p f)
    (hl : barLive s p f = false) (hw : awake s = true) (ht : (getPort s p).tunnel = true) : exec c s = .next (readBack s 0) := by
  rcases hc with rfl | rfl | rfl
  · show execHbEvtDrop p f s = _
    simp [execHbEvtDrop, hl, hw, ht]
  · show execHbColSeqLo p f s = _
    simp [execHbColSeqLo, hl, hw, ht]
  · show execHbColSeqHi p f s = _
    simp [execHbColSeqHi, hl, hw, ht]

/-! ### Registers without behaviour of their own (R7, R295, R298, R301) -/

theorem registerWrite_next (s : State) (p : Port) (f : Fn) (off : Nat) (v : W32) (h : barLive s p f = true) :
    exec (.registerWrite p f off v) s = .next (regWrite s p f off v) := by
  show execRegisterWrite p f off v s = _
  simp [execRegisterWrite, h]

theorem ite_updPort_eq (c : Prop) [Decidable c] (s : State) (p : Port) (g : PortSt → PortSt) :
    (if c then updPort s p g else s) = { s with host := (if c then updPort s p g else s).host } := by
  split
  · exact updPort_eq ..
  · rfl

theorem regWrite_eq (s : State) (p : Port) (f off : Nat) (v : W32) : regWrite s p f off v = { s with host := (regWrite s p f off v).host } := by
  unfold regWrite
  dsimp only
  split
  case h_1 =>
    split
    · rw [pinSync_eq, updPort_eq]
    · rfl
  case h_6 | h_7 | h_8 | h_9 => exact ite_updPort_eq ..
  all_goals rfl

theorem regWrite_evtHead (s : State) (p : Port) (f : Nat) (v : W32) : (getFn (regWrite s p f 0x40 v) p f).evtHead = v := by
  show (getFn (updFn s p f (fun r => { r with evtHead := v })) p f).evtHead = v
  rw [getFn_updFn_self]

/-- A function's registers after a write of the event ring's configuration that EVT_EN = 0 lets through (R298). -/
def ringField (off : Nat) (v : W32) (r : FnRegs) : FnRegs :=
  match off with
  | 0x30 => { r with evtBase := putBase r.evtBase false v }
  | 0x34 => { r with evtBase := putBase r.evtBase true v }
  | 0x38 => { r with evtCfg := v &&& 0x003F001F }
  | _ => r

theorem regWrite_ring (s : State) (p : Port) (f off : Nat) (v : W32) (ho : off = 0x30 ∨ off = 0x34 ∨ off = 0x38) :
    getFn (regWrite s p f off v) p f = (if bitAt (getFn s p f).ctrl 0 then getFn s p f else ringField off v (getFn s p f)) := by
  rcases ho with rfl | rfl | rfl
  all_goals exact getFn_updFn_self ..

/-- The PF0-only registers (R295). -/
def pf0Offset (off : Nat) : Prop := off = 0x18 ∨ off = 0x48 ∨ off = 0x4C ∨ off = 0x50 ∨ off = 0x54

theorem regWrite_vf (s : State) (p : Port) (f off : Nat) (v : W32) (hf : f ≠ 0) (ho : pf0Offset off) : regWrite s p f off v = s := by
  rcases ho with rfl | rfl | rfl | rfl | rfl
  all_goals exact if_neg hf

theorem regWrite_rdyMask (s : State) (p : Port) (v : W32) : (getPort (regWrite s p 0 0x18 v) p).rdyMask = v &&& 7 := by
  show (getPort (pinSync (updPort s p (fun t => { t with rdyMask := v &&& 7 }))) p).rdyMask = _
  rw [pinSync_port _ PortSt.rdyMask (fun _ _ _ => rfl), getPort_updPort_self]

/-- The bases of the admin queue after a write of PF0. -/
theorem regWrite_aqBases (s : State) (p : Port) (v : W32) :
    (getPort (regWrite s p 0 0x48 v) p).aqSqBase = putBase (getPort s p).aqSqBase false v ∧
    (getPort (regWrite s p 0 0x4C v) p).aqSqBase = putBase (getPort s p).aqSqBase true v ∧
    (getPort (regWrite s p 0 0x50 v) p).aqCqBase = putBase (getPort s p).aqCqBase false v ∧
    (getPort (regWrite s p 0 0x54 v) p).aqCqBase = putBase (getPort s p).aqCqBase true v := by
  refine ⟨?_, ?_, ?_, ?_⟩
  · exact congrArg PortSt.aqSqBase (getPort_updPort_self s p _)
  · exact congrArg PortSt.aqSqBase (getPort_updPort_self s p _)
  · exact congrArg PortSt.aqCqBase (getPort_updPort_self s p _)
  · exact congrArg PortSt.aqCqBase (getPort_updPort_self s p _)

/-- Settles O42, one case for each access: the attention and control writes, the reads with an effect, and the plain registers. -/
theorem registersAnswerTheHost : Obligations.RegistersAnswerTheHost := by
  unfold Obligations.RegistersAnswerTheHost
  intro s p
  refine ⟨fun v h => ?_, fun v h => ?_, fun f v h => ?_, fun f h => ?_, fun f h => ?_, fun f h hn => ?_, inertRead_next s p, fun f off v h => ?_⟩
  · refine ⟨_, hbAttnAck_next s p v h, by rw [hrdySync_eq, updPort_eq], ?_⟩
    rw [hrdySync_attn _ _ PortSt.attn (fun _ _ _ => rfl), getPort_updPort_self]
  · refine ⟨_, hbAqCfg_next s p v h, aqConfigure_eq s p v, ?_, ?_⟩
    · rw [getQ_aqConfigure]; exact aqQueue_st s p v
    · rw [aqCfg_aqConfigure, aqWord_active, getQ_aqConfigure]
  · refine ⟨_, hbCtrl_next s p f v h, rfl, ?_⟩
    rw [getFn_updFn_self]
    exact ⟨ctrlWritten_evtEn f v _, ctrlWritten_attnMsix f v _, ctrlWritten_start f v _⟩
  · refine ⟨_, hbEvtDrop_next s p f h, rfl, by rw [getFn_updFn_self], fun g hg _ => ?_⟩
    rw [getFn_updFn_ne' _ _ _ _ _ hg, getFn_readBack]
  · refine ⟨_, hbColSeqLo_next s p f h, rfl, fun k hk hl => ⟨_, hbColSeqHi_next k p f hl, ?_, by rw [getFn_updFn_self]⟩⟩
    have hlatch : (getFn k p f).seqLatch = some (BitVec.ofNat 32 (lastSeq s / 2 ^ 32)) := by rw [hk, getFn_updFn_self]
    rw [updFn_readData, hlatch]
    rfl
  · refine ⟨_, hbColSeqHi_next s p f h, ?_⟩
    rw [updFn_readData, hn]
    rfl
  · refine ⟨_, registerWrite_next s p f off v h, regWrite_eq s p f off v, ?_, fun hd => ?_, fun hd ho => ?_, fun hf => ?_, fun hf ho => regWrite_vf s p f off v hf ho⟩
    · rintro rfl
      exact regWrite_evtHead s p f v
    · have hring := regWrite_ring s p f off v
      simp only [hd, Bool.false_eq_true, if_false] at hring
      refine ⟨?_, ?_, ?_⟩ <;> rintro rfl <;> rw [hring (by decide)] <;> rfl
    · rw [regWrite_ring s p f off v ho, if_pos hd]
    · obtain ⟨hsl, hsh, hcl, hch⟩ := regWrite_aqBases s p v
      rw [hf]
      exact ⟨fun ho => ho ▸ regWrite_rdyMask s p v, fun ho => ho ▸ hsl, fun ho => ho ▸ hsh, fun ho => ho ▸ hcl, fun ho => ho ▸ hch⟩

end Sys2Proof.Laws
end

section
/-!
SUPPORT. What the readers give on the reset state (R41, R46, R271, R273, R447, R451): every sparse table is empty, so each reads as its entry's reset value.
-/

namespace Sys2Proof.Laws

open Sys2Proof.Machine

theorem getR_reset (r : Nat) : getR State.reset r = RidgeSt.reset := rfl
theorem getP_reset (p : Nat) : getP State.reset p = Part.free := rfl
theorem getRope_reset (e : Nat) : getRope State.reset e = Rope.free := rfl
theorem getTile_reset (r t : Nat) : getTile State.reset r t = Tile.reset := rfl
theorem getSlot_reset (r k : Nat) : getSlot State.reset r k = Slot.reset := rfl
theorem arbOf_reset (cls inst : Nat) : arbOf State.reset cls inst = Arb.reset := rfl

theorem getQ_reset_st (q : QId) : (getQ State.reset q).st = .absent := by
  match q with
  | .admin .A | .admin .B | .io _ => rfl

theorem mapEntry_reset {p : Nat} (h : p < 32) : mapEntry RidgeSt.reset p = BitVec.ofNat 8 p := by
  simp [mapEntry, RidgeSt.reset, mapIdentity, List.getD, h]

/-- The identity (R46): a position's tile has its own number. -/
theorem physOf_reset {p : Nat} (h : p < 32) : physOf RidgeSt.reset p = p := by
  rw [physOf, mapEntry_reset h, BitVec.toNat_ofNat]
  omega

theorem loamByte_reset (r a : Nat) : loamByte RidgeSt.reset r a = 0 := rfl

/-- Weights that no ARB_WEIGHT has changed (R271). -/
theorem weightOf_nil (cls i : Nat) : weightOf [] cls i = if cls = 0 ∧ i = 52 then 4 else 1 := by
  simp [weightOf]

/-- Settles O60: the scalar registers are fields of the reset state, and every indexed one reads its table's reset entry. -/
theorem resetHoldsTheSpecsValues : Obligations.ResetHoldsTheSpecsValues := by
  unfold Obligations.ResetHoldsTheSpecsValues
  refine ⟨rfl, rfl, rfl, rfl, rfl, fun cls inst i => ?_, fun r p hp => ?_, fun r a => ?_, fun r k => ?_, fun p => ?_, fun q => ?_, fun e => ?_, fun r t => ?_⟩
  · rw [arbOf_reset]
    exact weightOf_nil cls i
  · rw [getR_reset, physOf_reset hp]
  · rw [getR_reset, loamByte_reset]
  · rw [getSlot_reset]
    rfl
  · rw [getP_reset]
    rfl
  · rw [getQ_reset_st]
    decide
  · rw [getRope_reset]
    rfl
  · rw [getTile_reset]
    rfl

end Sys2Proof.Laws
end

section
/-!
SUPPORT. Refresh and the start of programming (R37, R41, R48, R50, R59, R103, R364): which tiles can serve as relief, what REFRESH answers in each of its branches, and the state that PROGRAMMING_START leaves.
-/

namespace Sys2Proof.Laws

open Sys2Proof.Machine

/-! ### Relief tiles (R48, R103) -/

/-- The relief tiles of a ridge in one state that can still be programmed. -/
def reliefIn (rd : RidgeSt) (st : TileSt) : List Nat :=
  (List.range 34).filter (fun t => isRelief rd t && (tileOf rd t).jr.state = st && (tileOf rd t).jr.count < 100000 && !engineOn rd t)

theorem reliefTiles_eq (rd : RidgeSt) : reliefTiles rd = reliefIn rd .blank ++ reliefIn rd .clean ++ reliefIn rd .orphan ++ reliefIn rd .dirty := rfl

theorem mem_reliefIn {rd : RidgeSt} {st : TileSt} {t : Nat} : t ∈ reliefIn rd st ↔
    t < 34 ∧ isRelief rd t = true ∧ (tileOf rd t).jr.state = st ∧ (tileOf rd t).jr.count < 100000 ∧ engineOn rd t = false := by
  simp only [reliefIn, List.mem_filter, List.mem_range, Bool.and_eq_true, decide_eq_true_eq, Bool.not_eq_true', and_assoc]

/-- A relief tile is in one of the four states from which a tile can be programmed. -/
theorem mem_reliefTiles {rd : RidgeSt} {t : Nat} (h : t ∈ reliefTiles rd) : ∃ st, st ≠ .retired ∧ t ∈ reliefIn rd st := by
  simp only [reliefTiles_eq, List.mem_append] at h
  obtain ((hblank | hclean) | horphan) | hdirty := h
  · exact ⟨.blank, by decide, hblank⟩
  · exact ⟨.clean, by decide, hclean⟩
  · exact ⟨.orphan, by decide, horphan⟩
  · exact ⟨.dirty, by decide, hdirty⟩

/-! ### REFRESH (R50, R103, R364) -/

/-- Position p of ridge r is queued for a refresh that can be answered: its partition, weight set and golden record are known, nothing is being programmed for it and no relief tile holds its weights yet. -/
structure RefreshAsked (s : State) (r : Ridge) (p : Pos) (q : Nat × Nat) (part : Nat) (ws : Wset) (g : Golden) : Prop where
  queued : (getR s r).refreshQ.find? (fun q => q.1 = p.val) = some q
  owned : ownerOf s r = some part
  wset : wsetOf s r p = some ws
  golden : goldenOf s r p = some g
  noOp : opFor s r p = false
  noCopy : (List.range 34).any (fun t => isRelief (getR s r) t && holdsPos s r t p) = false
  running : s.cmc.fw = .running

section
variable {s : State} {r : Ridge} {p : Pos} {q : Nat × Nat} {part : Nat} {ws : Wset} {g : Golden}

theorem refresh_relief (h : RefreshAsked s r p q part ws g) {t : Nat} {l : List Nat} (hl : reliefTiles (getR s r) = t :: l) :
    exec (.refresh r p) s = .next { s with progQueue := s.progQueue ++ [reliefOp r t p q.2 (if q.2 = 1 then 0x02 else 0x03) part ws g] } := by
  show execRefresh r p s = _
  simp only [execRefresh, h.queued, h.owned, h.wset, h.golden, h.noOp, h.noCopy, h.running, hl, ne_eq, not_true_eq_false, decide_false, Bool.or_self, Bool.false_eq_true, if_false]

theorem refresh_exhausted (h : RefreshAsked s r p q part ws g) (hl : reliefTiles (getR s r) = []) (hf : fencedAt (getR s r) p = true) :
    exec (.refresh r p) s = .next (exhausted s r p) := by
  show execRefresh r p s = _
  simp only [execRefresh, h.queued, h.owned, h.wset, h.golden, h.noOp, h.noCopy, h.running, hl, hf, ne_eq, not_true_eq_false, decide_false, Bool.or_self, Bool.false_eq_true, if_false, if_true]

theorem refresh_leaves (h : RefreshAsked s r p q part ws g) (hl : reliefTiles (getR s r) = []) (hf : fencedAt (getR s r) p = false) :
    exec (.refresh r p) s = .next (updR s r (fun rd => { rd with refreshQ := rd.refreshQ.filter (fun v => v.1 ≠ p.val) })) := by
  show execRefresh r p s = _
  simp only [execRefresh, h.queued, h.owned, h.wset, h.golden, h.noOp, h.noCopy, h.running, hl, hf, ne_eq, not_true_eq_false, decide_false, Bool.or_self, Bool.false_eq_true, if_false]

end

/-! ### PROGRAMMING_START (R37, R41, R59) -/

/-- What an operation writes into its tile's record as it starts: its cause, and its identity unless it programs belay pairs alone. -/
def startRecord (o : ProgOp) (j : Journal) : Journal :=
  if o.belayOnly then { j with cause := o.cause }
  else { j with format := o.format, position := o.pos, cause := o.cause, wset := o.wset, digest := o.digest }

/-- The operation has left the queue for its ridge's engine. -/
def engineTaken (s : State) (o : ProgOp) : State := updR (dropOp s o) o.ridge (fun rd => { rd with engine := some o })

/-- The state in which an operation's first pulse may come. -/
def programmingStarted (s : State) (o : ProgOp) : State := markDirtyTile (engineTaken s o) o.ridge o.tile .dirty (startRecord o)

theorem programmingStart_next {s : State} {o : ProgOp} (ho : nextOp s = some o) (hb : enginesBusy s < engineCap s) (hj : journalFree s = true)
    (hi : s.clay.inhibit = false) (hf : s.cmc.fw = .running) : exec .programmingStart s = .next (programmingStarted s o) := by
  have hcap : ¬ engineCap s ≤ enginesBusy s := Nat.not_le.mpr hb
  show execProgrammingStart s = _
  simp only [execProgrammingStart, ho, hcap, hj, hi, hf, decide_false, Bool.not_true, ne_eq, not_true_eq_false, Bool.or_self, Bool.false_eq_true, if_false]
  rfl

theorem getTile_engineTaken (s : State) (o : ProgOp) (r t : Nat) : getTile (engineTaken s o) r t = getTile s r t :=
  getTile_updR (dropOp s o) o.ridge t (fun rd => { rd with engine := some o }) (fun _ => rfl) r

theorem engine_programmingStarted (s : State) (o : ProgOp) : (getR (programmingStarted s o) o.ridge).engine = some o := by
  rw [programmingStarted, getR_markDirtyTile, engineTaken, getR_updR_self]

theorem jr_programmingStarted (s : State) (o : ProgOp) : (getTile (programmingStarted s o) o.ridge o.tile).jr =
    { startRecord o (getTile s o.ridge o.tile).jr with state := .dirty, count := (getTile s o.ridge o.tile).jr.count + 1 } := by
  rw [programmingStarted, getTile_markDirtyTile, getTile_engineTaken]

theorem progQueue_programmingStarted (s : State) (o : ProgOp) : (programmingStarted s o).progQueue = s.progQueue.erase o := by
  rw [programmingStarted, markDirtyTile_progQueue]
  rfl

/-- Settles O31: REFRESH branch by branch, and PROGRAMMING_START through the record and the engine of the state it leaves. -/
theorem refreshesQueueAndStart : Obligations.RefreshesQueueAndStart := by
  unfold Obligations.RefreshesQueueAndStart
  refine ⟨fun s r p q part ws g hq ho hw hg hop hcopy hrun => ?_, fun s o ho hb hj hi hf => ?_⟩
  · have h : RefreshAsked s r p q part ws g := ⟨hq, ho, hw, hg, hop, hcopy, hrun⟩
    refine ⟨fun t l => refresh_relief h, refresh_exhausted h, refresh_leaves h, fun t ht => ?_⟩
    obtain ⟨st, hst, hin⟩ := mem_reliefTiles ht
    obtain ⟨_, hrelief, hstate, _, hengine⟩ := mem_reliefIn.mp hin
    exact ⟨hrelief, by rwa [hstate], hengine⟩
  · refine ⟨_, programmingStart_next ho hb hj hi hf, engine_programmingStarted s o, ?_, ?_, progQueue_programmingStarted s o⟩
    · rw [jr_programmingStarted]
    · rw [jr_programmingStarted]

end Sys2Proof.Laws
end

section
/-!
SUPPORT. The end of programming (R37, R38, R44, R45, R50, R59): what PROGRAMMING_COMPLETE answers in each of its branches, and the tile that a success or a failure leaves.
-/

namespace Sys2Proof.Laws

open Sys2Proof.Machine

/-! ### Tiles that changes of maps and queues leave alone -/

theorem getTile_queueRefresh (s : State) (r p rank q t : Nat) : getTile (queueRefresh s r p rank) q t = getTile s q t := by
  unfold queueRefresh
  refine getTile_updR s r t _ (fun d => ?_) q
  split <;> rfl

theorem getTile_setMap (s : State) (r p phys : Nat) (fenced : Bool) (q t : Nat) : getTile (setMap s r p phys fenced) q t = getTile s q t :=
  getTile_updR s r t (fun rd => { rd with map := rd.map.set p (BitVec.ofNat 8 (phys + (if fenced then 128 else 0))) }) (fun _ => rfl) q

/-! ### PROGRAMMING_COMPLETE (R37, R38, R45) -/

/-- The final check of operation o on tile t of ridge r can end now. -/
structure ProgEnds (s : State) (r : Ridge) (t : TileNo) (o : ProgOp) : Prop where
  engine : (getR s r).engine = some o
  tile : o.tile = t.val
  free : engineHeld s r = false
  noTest : (getR s r).test.running = false

/-- A loaded position whose map fences the tile just programmed loses the fence by a rope (R54). -/
def unfenced (u : State) (r pos t part : Nat) : State :=
  if fencedAt (getR u r) pos && physOf (getR u r) pos = t then serviceRope u [part] 0 .none [.tileMap r pos t false] else u

section
variable {s : State} {r : Ridge} {t : TileNo} {fails bf : List Nat} {ok : Bool} {base : List Int} {o : ProgOp}

theorem programmingComplete_fails (h : ProgEnds s r t o) (hb : (belaysDone s r t fails bf).2 ≠ [] ∨ ok = false) :
    exec (.programmingComplete r t fails bf ok base) s =
      .next (programFailed (belaysDone s r t fails bf).1 o (belaysDone s r t fails bf).2.length (belaysFree (getTile (belaysDone s r t fails bf).1 r t))) := by
  have hbad : (!(belaysDone s r t fails bf).2.isEmpty || !ok) = true := by simpa using hb
  show execProgrammingComplete r t fails bf ok base s = _
  simp only [execProgrammingComplete, h.engine, h.tile, h.free, h.noTest, hbad, ne_eq, not_true_eq_false, decide_false, Bool.or_self, Bool.false_eq_true, if_false, if_true]

theorem programmingComplete_clean (h : ProgEnds s r t o) (hb : (belaysDone s r t fails bf).2 = []) (hok : ok = true) (hrank : o.rank ≠ 4) :
    exec (.programmingComplete r t fails bf ok base) s = .next (tileClean (belaysDone s r t fails bf).1 r t o base) := by
  show execProgrammingComplete r t fails bf ok base s = _
  simp only [execProgrammingComplete, h.engine, h.tile, h.free, h.noTest, hb, hok, hrank, ne_eq, not_true_eq_false, decide_false, List.isEmpty_nil, Bool.not_true, Bool.or_self,
    Bool.false_eq_true, if_false]

/-- A load's operation: its position counts as programmed. -/
theorem programmingComplete_load (h : ProgEnds s r t o) {part : Nat} {ws : Wset} (hb : (belaysDone s r t fails bf).2 = []) (hok : ok = true) (hrank : o.rank = 4)
    (ho : ownerOf s r = some part) (hw : wsetOf s r o.pos = some ws) :
    exec (.programmingComplete r t fails bf ok base) s =
      .next (wsetProgrammed (updWset (unfenced (tileClean (belaysDone s r t fails bf).1 r t o base) r o.pos t part) part ws.id (fun w => { w with loadEnd := s.now })) r o.pos) := by
  show execProgrammingComplete r t fails bf ok base s = _
  simp only [execProgrammingComplete, h.engine, h.tile, h.free, h.noTest, hb, hok, hrank, ho, hw, ne_eq, not_true_eq_false, decide_false, List.isEmpty_nil, Bool.not_true, Bool.or_self,
    Bool.false_eq_true, if_false, if_true]
  rfl

end

/-! ### The tile afterwards -/

/-- The tile that a success leaves, its record apart (R42, R44, R52). -/
def programmedTile (s : State) (r : Nat) (o : ProgOp) (base : List Int) (y : Tile) : Tile :=
  if o.belayOnly then { y with base := base, baseTemp := estOf s r }
  else { y with cells := cellsOf o.format o.level, colMax := colMaxOf o.format o.level, base := base, baseTemp := estOf s r, progEnd := some s.now,
                agesDone := 0, gains := List.replicate 8 ⟨1, 1⟩, lastSurvey := some s.now, lastTemp := estOf s r, fired := 0, refs := [] }

theorem getTile_tileClean (s : State) (r t : Nat) (o : ProgOp) (base : List Int) : getTile (tileClean s r t o base) r t =
    { programmedTile s r o base (getTile s r t) with jr := { (programmedTile s r o base (getTile s r t)).jr with state := .clean } } := by
  rw [tileClean, getTile_setJournal_self, getTile_updTile_self]
  rfl

theorem programmedTile_base (s : State) (r : Nat) (o : ProgOp) (base : List Int) (y : Tile) :
    (programmedTile s r o base y).base = base ∧ (programmedTile s r o base y).baseTemp = estOf s r := by
  unfold programmedTile
  split
  · exact ⟨rfl, rfl⟩
  · exact ⟨rfl, rfl⟩

theorem programmedTile_levels (s : State) (r : Nat) (o : ProgOp) (base : List Int) (y : Tile) (h : o.belayOnly = false) :
    (programmedTile s r o base y).cells = cellsOf o.format o.level ∧ (programmedTile s r o base y).colMax = colMaxOf o.format o.level ∧
      (programmedTile s r o base y).progEnd = some s.now ∧ (programmedTile s r o base y).agesDone = 0 := by
  simp only [programmedTile, h, Bool.false_eq_true, if_false, and_self]

/-- Whatever the operation was for, its failed tile is RETIRED (R38). -/
theorem programFailed_retires (s : State) (o : ProgOp) (uncovered free : Nat) : (getTile (programFailed s o uncovered free) o.ridge o.tile).jr.state = .retired := by
  unfold programFailed
  simp only
  split
  · rw [getTile_setJournal_self]
  · split
    · rw [getTile_queueRefresh, getTile_setMap, getTile_setJournal_self]
    · rw [getTile_setJournal_self]

/-- Settles O32: PROGRAMMING_COMPLETE branch by branch, and the tile of each of its two outcomes. -/
theorem programmingCompletes : Obligations.ProgrammingCompletes := by
  unfold Obligations.ProgrammingCompletes
  refine ⟨fun s r t fails bf ok base o he ht hh hn => ?_, fun s r t o base => ?_, programFailed_retires⟩
  · have h : ProgEnds s r t o := ⟨he, ht, hh, hn⟩
    exact ⟨programmingComplete_fails h, programmingComplete_clean h, fun part ws => programmingComplete_load h⟩
  · obtain ⟨hbase, htemp⟩ := programmedTile_base s r o base (getTile s r t)
    rw [getTile_tileClean]
    exact ⟨rfl, hbase, htemp, programmedTile_levels s r o base (getTile s r t)⟩

end Sys2Proof.Laws
end

section
/-!
SUPPORT. Ewesy commands that manage partitions, queues, weight sets, programs, jobs, tests and peers (R54, R237, R247, R254, R261, R311, R314, R317, R321, R327, R330, R331, R350, R383, R412, R416): what each answers once it is admitted.
-/

namespace Sys2Proof.Laws

open Sys2Proof.Machine Sys2Proof.Safety

section
variable {s : State} {q : QId} {cid : W16} {c : Cmd}

/-! ### Partitions (R314, R330, R412, R416) -/

theorem partCreate_begins (hf : s.host.cmds.find? (fun c => c.q = q && c.cid = cid && c.busy && cmdOp c = 0x10) = none)
    (ha : Admitted s q cid partCreateKind (createChecks s) c) (hs : freeService s ≠ none) (hc : claimed s (9, c.part, 0) = false) :
    exec (.partCreate q cid) s = .next (serviceRope (powerRidges (startCmd (newKey s).2 c) (bitList (createRidges c))) [c.part] 0 (.create q cid c.part)
      [.layout c.part (createdPart s c (newKey s).1)]) := by
  have hdo : partCreateDo s q cid c = serviceRope (powerRidges (startCmd (newKey s).2 c) (bitList (createRidges c))) [c.part] 0 (.create q cid c.part)
      [.layout c.part (createdPart s c (newKey s).1)] := by simp [partCreateDo, hs, hc]
  show execPartCreate q cid s = _
  rw [execPartCreate, hf, ← hdo]
  exact admC ha

theorem partCreate_ends (hf : s.host.cmds.find? (fun c => c.q = q && c.cid = cid && c.busy && cmdOp c = 0x10) = some c) (hw : awake s = true) (hr : s.cmc.fw = .running)
    (hi : (getP s c.part).st = .initialising) (hu : (bitList (getP s c.part).ridges).all (ridgeUp s) = true) :
    exec (.partCreate q cid) s = .next (complete (updP s c.part (fun t => { t with st := .active })) c stSuccess (userSize (getP s c.part))) := by
  have hend : createEnd s c = complete (updP s c.part (fun t => { t with st := .active })) c stSuccess (userSize (getP s c.part)) := by
    rw [createEnd, hi, hu]
    rfl
  show execPartCreate q cid s = _
  rw [execPartCreate, hf, ← hend]
  simp [hw, hr]

theorem partDestroy_part (ha : Admitted s q cid partDestroyKind (partDestroyChecks s) c) (hp : c.part ≠ 0xFF) :
    exec (.partDestroy q cid) s = .next (scrubStart (startCmd s c) c.part false (some (q, cid))) := by
  show withCmd s q cid partDestroyKind (partDestroyChecks s) (partDestroyDo s q cid) = _
  rw [admC ha, partDestroyDo, if_neg hp]

theorem partDestroy_device (ha : Admitted s q cid partDestroyKind (partDestroyChecks s) c) (hp : c.part = 0xFF) (hc : creating s = [])
    (hi : ∀ p, p < 16 → (getP s p).st ≠ .initialising) : exec (.partDestroy q cid) s = .next (wholeStart (startCmd s c) c) := by
  have hany : (List.range 16).any (fun p => (getP s p).st = .initialising) = false := by
    rw [List.any_eq_false]
    intro p hmem
    simpa using hi p (List.mem_range.mp hmem)
  show withCmd s q cid partDestroyKind (partDestroyChecks s) (partDestroyDo s q cid) = _
  rw [admC ha, partDestroyDo, if_pos hp, hc, hany]
  rfl

theorem bindFails_setFails (s : State) (p n : Nat) : tget 0 (setFails s p n).host.bindFails p = n := tget_tset_self ..

/-- A wrong credential is counted and reported (R330). -/
def bindRefused (s : State) (c : Cmd) : State :=
  securityEvent (setFails s (bindPart c) (tget 0 s.host.bindFails (bindPart c) + 1)) 0x03 (bindPart c) (portCode c.port) 0 0 0

theorem bindFails_bindRefused (s : State) (c : Cmd) : tget 0 (bindRefused s c).host.bindFails (bindPart c) = tget 0 s.host.bindFails (bindPart c) + 1 := by
  rw [bindRefused, securityEvent_eq]
  exact bindFails_setFails ..

theorem partBind_wrong (ha : Admitted s q cid partBindKind (partBindChecks s) c) (hk : bindOk s c = false) :
    exec (.partBind q cid) s = .next (complete (bindRefused s c) c stAuth 0) := by
  show withCmd s q cid partBindKind (partBindChecks s) (partBindDo s q cid) = _
  rw [admC ha]
  simp [partBindDo, hk, bindRefused]

theorem partBind_same (ha : Admitted s q cid partBindKind (partBindChecks s) c) (hk : bindOk s c = true) (hp : (getP s (bindPart c)).port = bindPort c) :
    exec (.partBind q cid) s = .next (complete (setFails s (bindPart c) 0) c stSuccess 0) := by
  show withCmd s q cid partBindKind (partBindChecks s) (partBindDo s q cid) = _
  rw [admC ha]
  simp [partBindDo, hk, hp]

theorem partBind_moves (ha : Admitted s q cid partBindKind (partBindChecks s) c) (hk : bindOk s c = true) (hp : (getP s (bindPart c)).port ≠ bindPort c)
    (hs : freeService s ≠ none) (hc : claimed s (9, bindPart c, 0) = false) :
    exec (.partBind q cid) s = .next (serviceRope (startCmd (setFails s (bindPart c) 0) c) [bindPart c] 0 (.bind q cid (bindPart c))
      [.layout (bindPart c) { getP s (bindPart c) with port := bindPort c }]) := by
  show withCmd s q cid partBindKind (partBindChecks s) (partBindDo s q cid) = _
  rw [admC ha]
  simp [partBindDo, hk, hp, hs, hc]

/-! ### Queues (R312, R316, R331) -/

theorem queueCreate_next (ha : Admitted s q cid queueCreateKind (queueCreateChecks s) c) (hg : queueGoing s (cmdFld c 0x18 2) = false) :
    exec (.queueCreate q cid) s = .next (makeQueue s c) := by
  show execQueueCreate q cid s = _
  rw [execQueueCreate, admC ha]
  simp only [hg, Bool.false_eq_true, if_false]

theorem queueDestroy_next (ha : Admitted s q cid queueDestroyKind (queueDestroyChecks s) c) (hg : queueGoing s (cmdFld c 0x18 2) = false) :
    exec (.queueDestroy q cid) s = .next (startRap (startCmd s c) 0 (cmdFld c 0x18 2) 0 none 0 (.queueGone (cmdFld c 0x18 2))) := by
  show withCmd s q cid queueDestroyKind (queueDestroyChecks s) (queueDestroyDo s) = _
  rw [admC ha]
  simp only [queueDestroyDo, hg, Bool.false_eq_true, if_false]

/-! ### Weight sets and calibration (R54, R56, R57, R105, R106) -/

theorem wsetLoad_next (ha : Admitted s q cid wsetLoadKind (loadChecks s) c) (hs : freeService s ≠ none) :
    exec (.wsetLoad q cid) s = .next (wsetSettle (loadStart s c) c.part (wsId (loadBytes s c))) := by
  show execWsetLoad q cid s = _
  rw [execWsetLoad, admO ha, if_neg (by simpa using hs)]

theorem wsetUnload_next {w : Wset} (ha : Admitted s q cid wsetUnloadKind (wsetUnloadChecks s) c) (hw : findWset s c.part (cmdWset c) = some w) :
    exec (.wsetUnload q cid) s = .next (complete (releaseWset s c.part w) c stSuccess 0) := by
  show withCmd s q cid wsetUnloadKind (wsetUnloadChecks s) (wsetUnloadDo s) = _
  rw [admC ha, wsetUnloadDo, hw]

/-- The counts that WSET_VERIFY answers, in container order (R56). -/
def verifyCounts (out : List (Nat × Nat × Nat)) (w : Wset) : List Nat := (sortBy (fun a b => decide (a.order ≤ b.order)) w.golden).map (outAt out)

theorem wsetVerify_next {w : Wset} (out : List (Nat × Nat × Nat)) (ha : Admitted s q cid wsetVerifyKind (wsetVerifyChecks s) c)
    (hw : findWset s c.part (cmdWset c) = some w) (hd : dataShort c ((verifyCounts out w).flatMap (leBytes 4)).length = false) :
    exec (.wsetVerify q cid out) s = .next (complete (hostWrite s c.port (cmdPtr c) ((verifyCounts out w).flatMap (leBytes 4))) c
      (if (verifyCounts out w).all (fun n => n = 0) then stSuccess else stProbe) 0) := by
  have hdo : wsetVerifyDo s out c =
      if dataShort c ((verifyCounts out w).flatMap (leBytes 4)).length then complete s c stResource ((verifyCounts out w).flatMap (leBytes 4)).length
      else complete (hostWrite s c.port (cmdPtr c) ((verifyCounts out w).flatMap (leBytes 4))) c (if (verifyCounts out w).all (fun n => n = 0) then stSuccess else stProbe) 0 := by
    rw [wsetVerifyDo, hw]
    rfl
  show withCmd s q cid wsetVerifyKind (wsetVerifyChecks s) (wsetVerifyDo s out) = _
  rw [admC ha, hdo, hd]
  rfl

/-- The state that CALIBRATE settles in, for its three kinds (R105, R106). -/
def calibrateBegun (s : State) (c : Cmd) : State :=
  let held := if cmdFld c 0x18 1 = 1 then startCmd s c else holdAll (startCmd s c) c.part
  if cmdFld c 0x18 1 = 0 then held else surveyAll held c.part

theorem calibrate_next (ha : Admitted s q cid calibrateKind (calibrateChecks s) c) (hn : calibrating s c.part = none) :
    exec (.calibrate q cid) s = .next (calibrateSettle (calibrateBegun s c) c.part) := by
  show withCmd s q cid calibrateKind (calibrateChecks s) (calibrateDo s) = _
  rw [admC ha, calibrateDo, hn]
  rfl

theorem calibrateBegun_survey (h : cmdFld c 0x18 1 = 1) : calibrateBegun s c = surveyAll (startCmd s c) c.part := by simp [calibrateBegun, h]
theorem calibrateBegun_converter (h : cmdFld c 0x18 1 = 0) : calibrateBegun s c = holdAll (startCmd s c) c.part := by simp [calibrateBegun, h]
theorem calibrateBegun_full (h : cmdFld c 0x18 1 = 2) : calibrateBegun s c = surveyAll (holdAll (startCmd s c) c.part) c.part := by simp [calibrateBegun, h]

/-! ### Programs (R247, R312) -/

theorem progLoad_next (ha : Admitted s q cid progLoadKind (progChecks s) c) :
    exec (.progLoad q cid) s =
      .next (complete (loadProg s c.part (imgProg (loadBytes s c) (getP s c.part).nextHandle)) c stSuccess (getP s c.part).nextHandle) := admO ha

theorem progUnload_next (ha : Admitted s q cid progUnloadKind (progUnloadChecks s) c) :
    exec (.progUnload q cid) s = .next (complete (unloadProg s c.part (cmdFld c 0x18 4)) c stSuccess 0) := admC ha

theorem progUnload_found (ha : Admitted s q cid progUnloadKind (progUnloadChecks s) c) : (findProg s c.part (cmdFld c 0x18 4)).isSome = true := by
  have hnone : (findProg s c.part (cmdFld c 0x18 4)).isNone = false := adm_check ha ((findProg s c.part (cmdFld c 0x18 4)).isNone, stField) (List.mem_cons_self ..)
  simpa using hnone

/-! ### Jobs (R254, R261, R317, R321, R327) -/

theorem jobCairnExport_next {b : List Byte} (ha : Admitted s q cid jobCairnExportKind (jobCairnExportChecks s) c)
    (hb : exportOf s c.part (BitVec.ofNat 32 (cmdFld c 0x18 4)) = some b) : exec (.jobCairnExport q cid) s = .next (completeOut s c b b.length) := by
  show withCmd s q cid jobCairnExportKind (jobCairnExportChecks s) (jobCairnExportDo s) = _
  rw [admC ha, jobCairnExportDo, hb]

theorem jobSubmit_next {g : Prog} (ha : Admitted s q cid jobSubmitKind (submitChecks s) c) (hg : jobProg s c = some g) :
    ∃ u, exec (.jobSubmit q cid) s = .next u ∧ u.jobs = s.jobs ++ [newJob s c g] ∧ u.ridges = s.ridges := by
  refine ⟨jobSubmitDo s c, admO ha, ?_, ?_⟩
  · rw [jobSubmitDo, hg]
    rfl
  · rw [jobSubmitDo, hg]
    rfl

/-- The state after JOB_RESUME has dropped the job's translations, taken its report address and counted the resumption (R254, R261). -/
def resumed (s : State) (c : Cmd) (j : Job) : State :=
  updJob (dropTlb s j.part j.id (cmdFld c 0x20 8) (cmdFld c 0x28 8)) j.part j.id
    (fun k => { k with report := (if cmdFld c 0x30 8 = 0 then k.report else cmdFld c 0x30 8), resumes := k.resumes + 1 })

/-- JOB_RESUME without REBIND: a suspended job goes on, or ends with INTEGRITY where its outcome is in doubt. -/
theorem jobResume_next {j : Job} (ha : Admitted s q cid jobResumeKind (jobResumeChecks s) c) (hj : findJob s c.part (BitVec.ofNat 32 (cmdFld c 0x18 4)) = some j)
    (hb : (cmdFld c 0x1C 1).testBit 0 = false) :
    exec (.jobResume q cid) s = .next (complete (if isSuspended j then
        (if j.inDoubt then endJob (updJob (resumed s c j) j.part j.id (fun k => { k with mmuCause := 0x06 })) j [stIntegrity] else resumeJob (resumed s c j) j)
      else resumed s c j) c stSuccess 0) := by
  show withCmd s q cid jobResumeKind (jobResumeChecks s) (jobResumeDo s) = _
  rw [admC ha, jobResumeDo, hj]
  cases hs : isSuspended j with
  | false => simp [hb, hs, resumed]
  | true => simp [hb, hs, resumed]

theorem abort_next (ha : Admitted s q cid abortKind (abortChecks s) c) (hl : (abortJobs s c).any (jobLocked s) = false) :
    exec (.abort q cid) s = .next (complete ((abortJobs s c).foldl (fun s j => endJob s j [if isSuspended j then stPageFault else stAborted]) s) c stSuccess
      (abortJobs s c).length) := by
  show withCmd s q cid abortKind (abortChecks s) (abortDo s) = _
  rw [admC ha, abortDo, hl]
  rfl

/-! ### Tests (R383) -/

/-- The ridge can start a test at once: it serves, no test runs on it and no job is placed on it. -/
structure TestReady (s : State) (r : Nat) : Prop where
  serves : (getR s r).failed = false
  idle : (getR s r).test.running = false
  empty : testJob s r = none
  up : ridgeUp s r = true

/-- The ridges that TEST_RUN names. -/
def testNamed (c : Cmd) : List Nat := bitList (BitVec.ofNat 48 (cmdFld c 0x18 8))

/-- A test on a ridge without a job, as TEST_RUN starts it. -/
def testBegun (s : State) (c : Cmd) (t : State) (r : Nat) : State :=
  startTest t r (cmdFld c 0x20 4 % 16) (if (cmdFld c 0x20 4).testBit 4 then 0 else testStress s r) 0

theorem testRunDo_ready (h : ∀ r ∈ testNamed c, TestReady s r) (hne : testNamed c ≠ []) : testRunDo s c = startCmd ((testNamed c).foldl (testBegun s c) s) c := by
  have hlive : (testNamed c).filter (fun r => !(getR s r).failed) = testNamed c := List.filter_eq_self.mpr (fun r hr => by simp [(h r hr).serves])
  have hfailed : (testNamed c).filter (fun r => (getR s r).failed) = [] := List.filter_eq_nil_iff.mpr (fun r hr => by simp [(h r hr).serves])
  have hjobs : (testNamed c).filterMap (testJob s) = [] := List.filterMap_eq_nil_iff.mpr (fun r hr => (h r hr).empty)
  have hidle : (testNamed c).any (fun r => (getR s r).test.running) = false := List.any_eq_false.mpr (fun r hr => by simp [(h r hr).idle])
  have hup : (testNamed c).any (fun r => !ridgeUp s r) = false := List.any_eq_false.mpr (fun r hr => by simp [(h r hr).up])
  have hsome : (testNamed c).isEmpty = false := by simpa using hne
  have hnamed : bitList (BitVec.ofNat 48 (cmdFld c 0x18 8)) = testNamed c := rfl
  unfold testRunDo
  simp only [hnamed, hlive, hjobs, hidle, hup, hfailed, hsome, List.eraseDups_nil, List.all_nil, List.foldl_nil, Bool.not_true, Bool.or_self, Bool.false_eq_true, if_false]
  refine congrArg (startCmd · c) (List.foldl_rel rfl fun r hr t u htu => ?_)
  rw [htu, (h r hr).empty]
  rfl

theorem testRun_next (ha : Admitted s q cid testRunKind (testRunChecks s) c) (h : ∀ r ∈ testNamed c, TestReady s r) (hne : testNamed c ≠ []) :
    exec (.testRun q cid) s = .next (startCmd ((testNamed c).foldl (testBegun s c) s) c) := by
  show withCmd s q cid testRunKind (testRunChecks s) (testRunDo s) = _
  rw [admC ha, testRunDo_ready h hne]

/-! ### Peers and routes (R350) -/

theorem peerTable_next (ha : Admitted s q cid peerTableKind (peerTableChecks s) c) :
    exec (.peerTable q cid) s =
      .next (if cmdFld c 0x18 1 = 0 then completeOut s c (peerTableBytes s) 0 else complete ((overrides s c).foldl applyOverride s) c stSuccess 0) := admC ha

theorem routeSet_next (ha : Admitted s q cid routeSetKind (routeSetChecks s) c) :
    exec (.routeSet q cid) s =
      .next (complete ((routeSets s c).foldl applyRoute (applyPorts s (fieldAt (dataIn s c 8) 0 1) (fieldAt (dataIn s c 8) 1 1))) c stSuccess 0) := admC ha

end

/-- Settles O49, command by command; each follows from its admission and the branch of its body that the clause's condition selects. -/
theorem ewesyResourcesAreManaged : Obligations.EwesyResourcesAreManaged := by
  unfold Obligations.EwesyResourcesAreManaged
  intro s q cid c
  refine ⟨partCreate_begins, partCreate_ends, fun ha => ⟨partDestroy_part ha, partDestroy_device ha⟩,
    fun ha => ⟨fun hk => ⟨_, partBind_wrong ha hk, bindFails_bindRefused s c⟩, partBind_same ha, partBind_moves ha⟩, queueCreate_next, queueDestroy_next, wsetLoad_next, fun w => wsetUnload_next,
    fun w out ha hw => wsetVerify_next out ha hw, fun ha hn => ?_, fun ha => ⟨_, progLoad_next ha, rfl⟩,
    fun ha => ⟨progUnload_next ha, progUnload_found ha, findProg_unload s c.part _⟩, fun b => jobCairnExport_next, fun g => jobSubmit_next, fun j => jobResume_next,
    abort_next, fun ha h hne => ?_, peerTable_next, routeSet_next⟩
  · exact ⟨_, calibrate_next ha hn, calibrateBegun_survey, calibrateBegun_converter, calibrateBegun_full⟩
  · have hready : ∀ r ∈ testNamed c, TestReady s r := fun r hr =>
      have ⟨hserves, hidle, hempty, hup⟩ := h r hr
      ⟨hserves, hidle, hempty, hup⟩
    exact testRun_next ha hready hne

end Sys2Proof.Laws
end

section
/-!
SUPPORT. The headroom guard (R75 to R79): the range it gives a conversion, the code that the conversion makes of it, the split of a row group, and the bound of a pair's levels by its group's.
-/

namespace Sys2Proof.Laws

open Sys2Proof.Machine

/-! ### The range of a conversion (R75, R79) -/

theorem rangeFor_fixed {cfg : W32} (k b : Nat) (hm : rdMode cfg = true) : rangeFor cfg k b = rdFix cfg := by
  simp [rangeFor, hm]

/-- The ranges 0 to 3 are tried in rising order, so the first that admits the bound is the smallest that does. -/
theorem rangeFor_admits {cfg : W32} {k b : Nat} (hm : rdMode cfg = false) (h : ∃ q, q < 4 ∧ b ≤ thr q * 4 ^ k) :
    rangeFor cfg k b < 4 ∧ b ≤ thr (rangeFor cfg k b) * 4 ^ k ∧ ∀ q, q < rangeFor cfg k b → thr q * 4 ^ k < b := by
  obtain ⟨q, hq, hb⟩ := h
  cases hf : (List.range 4).find? (fun r => decide (b ≤ thr r * 4 ^ k)) with
  | none => exact absurd hb (by simpa using List.find?_range_eq_none.mp hf q hq)
  | some r =>
    have hr : rangeFor cfg k b = r := by simp [rangeFor, hm, hf]
    obtain ⟨hadmits, hmem, hbelow⟩ := List.find?_range_eq_some.mp hf
    rw [hr]
    exact ⟨List.mem_range.mp hmem, by simpa using hadmits, fun p hp => by simpa using hbelow p hp⟩

theorem rangeFor_exceeded {cfg : W32} {k b : Nat} (hm : rdMode cfg = false) (h : ∀ q, q < 4 → thr q * 4 ^ k < b) : rangeFor cfg k b = 3 := by
  have hnone : (List.range 4).find? (fun r => decide (b ≤ thr r * 4 ^ k)) = none :=
    List.find?_range_eq_none.mpr (fun q hq => by simpa using h q hq)
  simp [rangeFor, hm, hnone]

/-! ### The conversion (R75) -/

theorem clampI_bounds {lo hi : Int} (h : lo ≤ hi) (x : Int) : lo ≤ clampI lo hi x ∧ clampI lo hi x ≤ hi := by
  unfold clampI
  split
  · omega
  · split <;> omega

theorem adcCode_bounds (sgn : Int) (r : Nat) (dev : Int) : -128 ≤ adcCode sgn r dev ∧ adcCode sgn r dev ≤ 127 :=
  clampI_bounds (by decide) _

theorem convert_code (t : Tile) (cfg : W32) (belay : Tbl W16) (k j b : Nat) {ds : List (Nat × Int)} (dev : Int) (h : ds ≠ []) :
    ∃ n : Int, -128 ≤ n ∧ n ≤ 127 ∧ (convert t cfg belay k j b ds dev).v = n * (lsb (rangeFor cfg k b) : Int) := by
  obtain ⟨hlo, hhi⟩ := adcCode_bounds (ds.foldl (fun a x => a + x.2 * tget 0 t.cells (x.1 * 1024 + servedPair belay j)) 0) (rangeFor cfg k b) dev
  exact ⟨_, hlo, hhi, by simp [convert, h]⟩

/-! ### The split of a row group (R77, R78) -/

theorem splits_iff (mvms : Bool) (k : Nat) (cfg : W32) (t : Tile) (b : InBuf) (g ph : Nat) :
    splits mvms k cfg t b g ph = true ↔
      mvms = true ∨ l1 (digitsIn b ph (256 * g) 256) = 3840 ∨
        (rdMode cfg = false ∧ thr 3 * 4 ^ k < maxOfGroup t g * l1 (digitsIn b ph (256 * g) 256)) := by
  simp [splits, or_assoc]

theorem maxLevel_le_maxOfGroup (t : Tile) (g : Nat) {j : Nat} (hj : j < 512) : maxLevel t g j ≤ maxOfGroup t g := by
  unfold maxLevel tget
  cases hf : tfind t.colMax (g * 512 + j) with
  | none => exact Nat.zero_le _
  | some v =>
    have hgroup : (g * 512 + j) / 512 = g := by omega
    have hmem : (g * 512 + j, v) ∈ t.colMax.filter (fun x => x.1 / 512 = g) :=
      List.mem_filter.mpr ⟨tfind_mem _ _ _ hf, by simpa using hgroup⟩
    exact (foldl_max_le (fun x : Nat × Nat => x.2) _ 0).2 _ hmem

/-- Settles O5: the guard's range, the thresholds and the code of a conversion, then level 1 of the tile tree in its two branches, the split's condition and the bound that the condition rests on. -/
theorem guardChoosesRanges : Obligations.GuardChoosesRanges := by
  unfold Obligations.GuardChoosesRanges
  refine ⟨fun cfg k b => ⟨rangeFor_admits, rangeFor_exceeded, rangeFor_fixed k b⟩, by decide,
    fun t cfg belay k j b ds dev => convert_code t cfg belay k j b dev, ?_⟩
  intro mvms k cfg t belay b devs pos g j ph w
  refine ⟨fun hwhole => ?_, fun hsplit => ?_, splits_iff mvms k cfg t b g ph, maxLevel_le_maxOfGroup t g⟩
  · simp only [phaseSum, hwhole, Bool.false_eq_true, if_false]
  · simp only [phaseSum, hsplit, if_true]

end Sys2Proof.Laws
end

section
/-!
SUPPORT. Surveys (R92, R93, R96, R98, R99, R102): what each survey row answers once its condition holds, and the tile that an issue, a request and a completion leave.
-/

namespace Sys2Proof.Laws

open Sys2Proof.Machine

/-! ### Triggers (R96) -/

/-- A tile whose age may ask for a survey: it serves a resident weight set, or is a CLEAN relief tile, and nothing bars it from surveys. -/
structure AgesCount (s : State) (r : Ridge) (t : TileNo) : Prop where
  serves : (mappedResident s r t).isSome = true ∨ (isRelief (getR s r) t = true ∧ (getTile s r t).jr.state = .clean)
  allowed : surveyable s r t = true

section
variable {s : State} {r : Ridge} {t : TileNo}

theorem AgesCount.not_barred (h : AgesCount s r t) :
    (!((mappedResident s r t).isSome || (isRelief (getR s r) t && decide ((getTile s r t).jr.state = .clean))) || !surveyable s r t) = false := by
  obtain ⟨hmapped | ⟨hrelief, hclean⟩, hs⟩ := h
  · simp [hmapped, hs]
  · simp [hrelief, hclean, hs]

theorem surveyAgeTimer_point (h : AgesCount s r t) {e a : Nat} (he : (getTile s r t).progEnd = some e)
    (ha : surveyAges[(getTile s r t).agesDone]? = some a) (hn : e + seconds a ≤ s.now) :
    exec (.surveyAgeTimer r t) s = .next (requestSurvey (updTile s r t (fun y => { y with agesDone := y.agesDone + 1 })) r t) := by
  show execSurveyAgeTimer r t s = _
  simp only [execSurveyAgeTimer, h.not_barred, he, ha, hn, decide_true, Bool.false_eq_true, if_false, if_true]

/-- Without an end of programming there is no age point, and the survey's age alone counts. -/
theorem surveyAgeTimer_age (h : AgesCount s r t) {l : Nat} (hl : (getTile s r t).lastSurvey = some l)
    (hn : l + srvAge (surveyPolicy s r) ≤ s.now) (he : (getTile s r t).progEnd = none) :
    exec (.surveyAgeTimer r t) s = .next (requestSurvey s r t) := by
  show execSurveyAgeTimer r t s = _
  simp only [execSurveyAgeTimer, h.not_barred, he, hl, hn, decide_true, Bool.false_eq_true, if_false, if_true]

theorem surveyMvmCount_next (hm : (mappedResident s r t).isSome = true) (hc : srvInt (surveyPolicy s r) ≤ (getTile s r t).fired)
    (hs : surveyable s r t = true) : exec (.surveyMvmCount r t) s = .next (requestSurvey s r t) := by
  show execSurveyMvmCount r t s = _
  simp only [execSurveyMvmCount, hm, hc, hs, decide_true, Bool.and_self, if_true]

end

theorem getTile_requestSurvey (s : State) (r t : Nat) : getTile (requestSurvey s r t) r t = { getTile s r t with surveyReq := true } :=
  getTile_updTile_self s r t _

/-! ### Issue and time limit (R92, R96) -/

/-- A survey of the tile is requested, and neither the ridge nor the survey policy stands in its way. -/
structure SurveyStarts (s : State) (r : Ridge) (t : TileNo) : Prop where
  requested : (getTile s r t).surveyReq = true
  idle : (getTile s r t).survey = none
  allowed : surveyable s r t = true
  concurrency : ((getR s r).tiles.filter (fun x => x.2.survey.isSome)).length < srvConc (surveyPolicy s r)
  unheld : held s r = false
  up : ridgeUp s r = true
  noTest : (getR s r).test.running = false
  running : s.cmc.fw = .running
  unlocked : lockedClaim s (3, r.val, t.val) = false

theorem surveyIssue_next {s : State} {r : Ridge} {t : TileNo} (h : SurveyStarts s r t) :
    exec (.surveyIssue r t) s = .next (startSurvey s r t (BitVec.ofNat 128 (0x39 * 2 ^ 120 + t.val * 2 ^ 106))) := by
  show execSurveyIssue r t s = _
  simp only [execSurveyIssue, h.requested, h.idle, h.allowed, h.concurrency, h.unheld, h.up, h.noTest, h.running, h.unlocked, Option.isNone_none,
    decide_true, Bool.not_false, Bool.and_self, if_true]

theorem getTile_startSurvey (s : State) (r t : Nat) (w : W128) : (getTile (startSurvey s r t w) r t).survey = some ⟨s.rclk, estOf s r, false⟩ ∧
    (getTile (startSurvey s r t w) r t).surveyReq = false := by
  unfold startSurvey
  rw [getTile_updTile_self]
  exact ⟨rfl, rfl⟩

theorem surveySpanTimeout_next {s : State} {r : Ridge} {t : TileNo} {v : Survey} (hv : (getTile s r t).survey = some v) (hn : v.start + 2 ^ 20 < s.rclk) :
    exec (.surveySpanTimeout r t) s = .next (requestSurvey (endSurvey s r t) r t) := by
  show execSurveySpanTimeout r t s = _
  simp only [execSurveySpanTimeout, hv, if_pos hn]

/-! ### Completion (R93, R98, R99, R102) -/

/-- A survey of the tile ends in time, on a ridge that is not held. -/
structure SurveyEnds (s : State) (r : Ridge) (t : TileNo) (v : Survey) : Prop where
  survey : (getTile s r t).survey = some v
  inTime : s.rclk ≤ v.start + 2 ^ 20
  unheld : held s r = false

section
variable {s : State} {r : Ridge} {t : TileNo} {v : Survey} {m : List Int}

theorem SurveyEnds.not_barred (h : SurveyEnds s r t v) : (decide (v.start + 2 ^ 20 < s.rclk) || held s r) = false := by
  have hn := Nat.not_lt.mpr h.inTime
  rw [h.unheld, decide_eq_false hn, Bool.or_false]

theorem surveyComplete_mapped (h : SurveyEnds s r t v) {p : Nat} (hg : (benchGains r (getTile s r t) m).findIdx? implausible = none)
    (hp : posOfTile (getR s r) t = some p) : exec (.surveyComplete r t m) s =
      .next (calibrateRidge (wsetSurveyed (driftCheck (surveyTaken s r t v (benchGains r (getTile s r t) m)) r t p (benchGains r (getTile s r t) m)) r p) r) := by
  show execSurveyComplete r t m s = _
  simp only [execSurveyComplete, h.survey, h.not_barred, hg, hp, Bool.false_eq_true, if_false]

theorem surveyComplete_relief (h : SurveyEnds s r t v) (hg : (benchGains r (getTile s r t) m).findIdx? implausible = none)
    (hp : posOfTile (getR s r) t = none) : exec (.surveyComplete r t m) s = .next (surveyTaken s r t v (benchGains r (getTile s r t) m)) := by
  show execSurveyComplete r t m s = _
  simp only [execSurveyComplete, h.survey, h.not_barred, hg, hp, Bool.false_eq_true, if_false]

theorem surveyComplete_implausible (h : SurveyEnds s r t v) {b : Nat} (hg : (benchGains r (getTile s r t) m).findIdx? implausible = some b) :
    exec (.surveyComplete r t m) s = .next (calibrateRidge (probeTile (tileEvent (endSurvey s r t) r t 0x06
      [(4, 1, b), (8, 4, (f32OfQ ((benchGains r (getTile s r t) m).getD b ⟨1, 1⟩)).toNat)]) r t) r) := by
  show execSurveyComplete r t m s = _
  simp only [execSurveyComplete, h.survey, h.not_barred, hg, Bool.false_eq_true, if_false]

end

theorem getTile_surveyTaken (s : State) (r t : Nat) (v : Survey) (g : List Q) : let x := getTile (surveyTaken s r t v g) r t
    x.gains = g ∧ x.lastSurvey = some s.now ∧ x.lastTemp = v.temp ∧ x.fired = 0 := by
  unfold surveyTaken
  simp only [getTile_updTile_self, and_self]

/-- Settles O29, one lemma for each row and branch: the triggers, the issue, the time limit and the three endings of a survey. -/
theorem surveysRunAndGiveGains : Obligations.SurveysRunAndGiveGains := by
  unfold Obligations.SurveysRunAndGiveGains
  refine ⟨fun s r t => ⟨fun e a hw hs => ?_, fun l hw hs => ?_, surveyMvmCount_next, fun hq hv hs hc hh hu ht hf hl => ?_,
    fun v => surveySpanTimeout_next, ?_⟩, fun s r t m v hv hn hh => ?_, fun s r t v g => getTile_surveyTaken s r t v g⟩
  · exact surveyAgeTimer_point ⟨hw, hs⟩
  · exact surveyAgeTimer_age ⟨hw, hs⟩
  · obtain ⟨hsurvey, hreq⟩ := getTile_startSurvey s r t (BitVec.ofNat 128 (0x39 * 2 ^ 120 + t.val * 2 ^ 106))
    exact ⟨_, surveyIssue_next ⟨hq, hv, hs, hc, hh, hu, ht, hf, hl⟩, hsurvey, hreq⟩
  · rw [getTile_requestSurvey]
  · have h : SurveyEnds s r t v := ⟨hv, hn, hh⟩
    exact ⟨fun p => surveyComplete_mapped h, surveyComplete_relief h, fun b => surveyComplete_implausible h⟩

end Sys2Proof.Laws
end

section
/-!
SUPPORT. Drift folds and tile swaps (R49, R100, R101, R103, R138): the ropes that DRIFT_FOLD and TILE_SWAP stage, the fields that a folded entry keeps, and the half of a table that a fold leaves alone.
-/

namespace Sys2Proof.Laws

open Sys2Proof.Machine

/-! ### The rows (R49, R100, R103, R138) -/

theorem driftFold_next {s : State} {r : Ridge} {table : Fin 256} {part : Nat} {g : ProgRidge} (ht : tablesPart s r = some (part, g))
    (hd : descCount (rscDesc (getR s r) table) ≠ 0) (hc : claimed s (2, r.val, table.val) = false) (hf : s.cmc.fw = .running) :
    exec (.driftFold r table) s =
      .next (serviceRope (foldReports (updR s r (fun rd => writeInactive rd table (foldEntries s part g (rscDesc (getR s r) table) none))) r table
        (foldEntries s part g (rscDesc (getR s r) table) none)) [part] 0 (.fold r table) [.rescaleHalf r table]) := by
  show execDriftFold r table s = _
  simp only [execDriftFold, ht, hd, hc, hf, ne_eq, not_true_eq_false, decide_false, Bool.or_self, Bool.false_eq_true, if_false]

/-- Tile t stands ready to take position p's place, and nothing claims the position or the tables that it feeds. -/
structure SwapReady (s : State) (r : Ridge) (p : Pos) (t : TileNo) (q : Nat × Nat) (part : Nat) : Prop where
  queued : (getR s r).refreshQ.find? (fun q => q.1 = p.val) = some q
  owned : ownerOf s r = some part
  relief : isRelief (getR s r) t = true
  holds : holdsPos s r t p = true
  ready : q.2 = 1 ∨ readyCopy s r t p = true
  posFree : claimed s (1, r.val, p.val) = false
  tablesFree : (tablesFed s part r p).all (fun a => !claimed s (2, a.1, a.2)) = true
  fits : (tablesFed s part r p).length < 16
  running : s.cmc.fw = .running

theorem tileSwap_next {s : State} {r : Ridge} {p : Pos} {t : TileNo} {q : Nat × Nat} {part : Nat} (h : SwapReady s r p t q part) :
    exec (.tileSwap r p t) s = .next (serviceRope (swapTables s part r p t (tablesFed s part r p)) [part] 0 (.swap r p t)
      ([.tileMap r p t false] ++ (tablesFed s part r p).map (fun a => .rescaleHalf a.1 a.2))) := by
  have hready : (decide (q.2 = 1) || readyCopy s r t p) = true := by simpa using h.ready
  show execTileSwap r p t s = _
  simp only [execTileSwap, h.queued, h.owned, h.relief, h.holds, hready, h.posFree, h.tablesFree, h.fits, h.running, ne_eq, not_true_eq_false, decide_true, decide_false,
    Bool.not_true, Bool.not_false, Bool.and_self, Bool.or_self, Bool.false_eq_true, if_false]

/-! ### Entries and halves (R101, R138) -/

/-- The word of a folded entry: MANT and SHIFT are new, and everything above them stands as it was. -/
theorem toNat_entryWith (e : W64) (m sh : Nat) : (entryWith e m sh).toNat = e.toNat / 2 ^ 22 * 2 ^ 22 + sh % 64 * 2 ^ 16 + min m 0xFFFF := by
  rw [entryWith, BitVec.toNat_ofNat]
  exact testBit_inj_entry e.toNat m sh e.isLt

theorem entryWith_fields (e : W64) (m sh : Nat) : (entryWith e m sh).toNat / 2 ^ 22 = e.toNat / 2 ^ 22 ∧
    entMant (entryWith e m sh) = min m 0xFFFF ∧ entShift (entryWith e m sh) = sh % 64 := by
  have hm : min m 0xFFFF < 2 ^ 16 := by omega
  simp only [entMant, entShift, bits, toNat_entryWith, Nat.shiftRight_eq_div_pow]
  generalize min m 0xFFFF = k at hm
  refine ⟨?_, ?_, ?_⟩ <;> omega

theorem halfEntry_writeInactive (rd : RidgeSt) (t : Nat) (fs : List FoldEnt) (i : Nat) :
    halfEntry (writeInactive rd t fs) (descHalf (rscDesc rd t)) i = halfEntry rd (descHalf (rscDesc rd t)) i := by
  cases hd : descHalf (rscDesc rd t) with
  | false =>
    simp only [writeInactive, hd, Bool.false_eq_true, if_false]
    rfl
  | true =>
    simp only [writeInactive, hd, if_true]
    rfl

/-- Settles O30: the two rows by the ropes they stage, a folded entry by its word, and the active half by the side that a fold writes. -/
theorem foldsAndSwapsAreStaged : Obligations.FoldsAndSwapsAreStaged := by
  unfold Obligations.FoldsAndSwapsAreStaged
  refine ⟨fun s r table part g => driftFold_next, fun s r p t q part hq ho hr hh hready hpos htabs hfits hf => ?_, entryWith_fields, halfEntry_writeInactive⟩
  exact tileSwap_next ⟨hq, ho, hr, hh, hready, hpos, htabs, hfits, hf⟩

end Sys2Proof.Laws
end

section
/-!
SUPPORT. Power frames (R108, R117, R451): what one leaves of the stored frames, of the limits and of each ridge's duty.
-/

namespace Sys2Proof.Laws

open Sys2Proof.Machine

/-! ### Power frames (R108, R117, R451) -/

/-- The frame's board part: its sums are stored and the sustained limit is decided anew. -/
def frameOnBoard (s : State) (mv mw : Nat) (d : List Nat) : State := frameBoard (frameStore s mv mw d) mw

theorem powerFrame_next {s : State} (mv mw : Nat) (dom : List Nat) (hp : s.pmu.on = true) :
    exec (.powerFrame mv mw dom) s = .next (frameEnd ((List.range 48).foldl (frameRidge ((List.range 212).map (fun k => dom.getD k 0)))
      (frameOnBoard s mv mw ((List.range 212).map (fun k => dom.getD k 0)))) mv mw) := by
  show execPowerFrame mv mw dom s = _
  simp only [execPowerFrame, hp, Bool.not_true, Bool.false_eq_true, if_false, frameOnBoard]

/-- A stored frame moves the board's own limit and nothing that a ridge's limit is decided from. -/
theorem frameOnBoard_eq (s : State) (mv mw : Nat) (d : List Nat) : frameOnBoard s mv mw d =
    { frameStore s mv mw d with
      col := (frameOnBoard s mv mw d).col
      pmu := { (frameStore s mv mw d).pmu with
        sustained := limitNext s.pmu.sustained (((mw :: s.pmu.frames).take 1000).foldl (· + ·) 0)
          ((sustainedLimits s).1 * ((mw :: s.pmu.frames).take 1000).length) ((sustainedLimits s).2 * ((mw :: s.pmu.frames).take 1000).length) } } :=
  frameBoard_eq (frameStore s mv mw d) mw

theorem ridgeLimits_frameOnBoard (s : State) (mv mw : Nat) (d : List Nat) : ridgeLimits (frameOnBoard s mv mw d) = ridgeLimits s := by
  rw [frameOnBoard_eq]
  rfl

/-- Settles O34: the board's part, then each of the 48 ridges once, then the end of the frame, each of which leaves the others' fields alone. -/
theorem powerFramesApplyLimits : Obligations.PowerFramesApplyLimits := by
  unfold Obligations.PowerFramesApplyLimits
  intro s mv mw dom hp d fr l sus
  have hboard := frameOnBoard_eq s mv mw d
  obtain ⟨hridges, hduty⟩ := frameRidges d (List.range 48) (frameOnBoard s mv mw d) List.nodup_range
  generalize hu : (List.range 48).foldl (frameRidge d) (frameOnBoard s mv mw d) = u at hridges hduty
  obtain ⟨hend, hmv, hframes, hsus, hover, hcut, hpeak⟩ := frameEnd_pmu u mv mw
  refine ⟨frameEnd u mv mw, by rw [← hu]; exact powerFrame_next mv mw dom hp, ?_, ?_, ?_, fun r hr => ?_, ?_, ?_, ?_, ?_⟩
  · rw [hmv, hridges, hboard]; rfl
  · rw [hframes, hridges, hboard]; rfl
  · rw [hsus, hridges, hboard]
  · obtain ⟨hcutOver, _⟩ := hduty r
    obtain ⟨hpast, hstep⟩ := hcutOver (List.mem_range.mpr hr)
    rw [hover, hcut, hpast, hstep, ridgeLimits_frameOnBoard, hboard]
    exact ⟨rfl, rfl⟩
  · rw [hpeak, hridges, hboard]; rfl
  · rw [hend, hridges, hboard]; rfl
  · rw [hend, hridges, hboard]; rfl
  · rw [hend, hridges, hboard]; rfl

end Sys2Proof.Laws
end

section
/-!
SUPPORT. Holds and reports of heat (R110, R111, R117, R119, R120): what each row answers once its time or its power has come.
-/

namespace Sys2Proof.Laws

open Sys2Proof.Machine

/-! ### Peak holds (R117 to R119) -/

/-- A peak hold that begins now. -/
def peakHeld (s : State) : State := { s with pmu := { s.pmu with peak := some s.now } }

theorem peakPowerHold_next {s : State} {ma : Nat} (hp : s.pmu.on = true) (hn : s.pmu.peak = none) (hw : 360000000 < ma * s.pmu.mv) :
    exec (.peakPowerHold ma) s = .next (powerLimit (peakHeld s) 1 0xFF (ma * s.pmu.mv / 1000)) := by
  have hpass : (s.pmu.on && s.pmu.peak.isNone && decide (360000000 < ma * s.pmu.mv)) = true := by simp [hp, hn, hw]
  show execPeakPowerHold ma s = _
  rw [execPeakPowerHold, if_pos hpass, peakHeld]

/-- A peak hold is a hold of every ridge. -/
theorem held_of_peak {s : State} (r : Nat) (h : s.pmu.peak.isSome = true) : held s r = true := by
  simp only [held, h, Bool.true_or]

theorem held_powerLimit_peakHeld (s : State) (row u mw r : Nat) : held (powerLimit (peakHeld s) row u mw) r = true := by
  refine held_of_peak r ?_
  rw [powerLimit_eq]
  rfl

theorem peakHoldHotTimer_next {s : State} {a : Nat} (ha : s.pmu.peak = some a) (hn : a + 600000 < s.now) (hh : s.pmu.peakHot = false) :
    exec .peakHoldHotTimer s = .next (hotAssert { s with pmu := { s.pmu with peakHot := true } } 2) := by
  have hpass : (decide (a + 600000 < s.now) && !s.pmu.peakHot) = true := by rw [hh, decide_eq_true hn]; rfl
  show execPeakHoldHotTimer s = _
  rw [execPeakHoldHotTimer, ha]
  exact if_pos hpass

/-! ### Stale estimates and inlets (R110, R111, R117, R119, R120) -/

/-- The estimates turn stale, and the PMU says so. -/
def estimateTurnsStale (s : State) (a : Nat) : State :=
  thermalEvent { s with thermal := { s.thermal with stale := true } } srcPmu 0x09 0xFF [(0, 8, s.now - a)]

theorem estimateStale_next {s : State} {a : Nat} (ha : s.thermal.lastEst = some a) (hp : s.pmu.on = true) (hn : a + 2 ^ 19 < s.now) (hf : s.thermal.stale = false) :
    exec .estimateStale s = .next (if s.thermal.windowOpen then estimateTurnsStale s a else hotAssert (estimateTurnsStale s a) 3) := by
  have hpass : (s.pmu.on && decide (a + 2 ^ 19 < s.now) && !s.thermal.stale) = true := by rw [hp, hf, decide_eq_true hn]; rfl
  show execEstimateStale s = _
  rw [execEstimateStale, ha]
  exact if_pos hpass

theorem noEstimateWindowEnd_next {s : State} (hm : s.thermal.modelOn = true) (hw : s.thermal.windowOpen = true) (hn : s.thermal.modelStart + 2 ^ 32 ≤ s.now) :
    exec .noEstimateWindowEnd s = .next (if s.thermal.stale then hotAssert { s with thermal := { s.thermal with windowOpen := false } } 3
      else { s with thermal := { s.thermal with windowOpen := false } }) := by
  have hpass : (s.thermal.modelOn && s.thermal.windowOpen && decide (s.thermal.modelStart + 2 ^ 32 ≤ s.now)) = true := by rw [hm, hw, decide_eq_true hn]; rfl
  show execNoEstimateWindowEnd s = _
  rw [execNoEstimateWindowEnd, if_pos hpass]

theorem inletStale_next {s : State} (hf : s.cmc.fw = .running) (hs : inletStale s = true) (hn : s.thermal.staleSaid = false) :
    exec .inletStale s = .next (thermalCore { s with thermal := { s.thermal with staleSaid := true } } 0x02 0xFF [(0, 2, ofSigned 16 (anchorOf s))]) := by
  have hpass : (decide (s.cmc.fw = .running) && inletStale s && !s.thermal.staleSaid) = true := by rw [hs, hn, decide_eq_true hf]; rfl
  show execInletStale s = _
  rw [execInletStale, if_pos hpass]

/-- Settles O35, one lemma for each row; HOT_N stands after every assertion, whether or not it stood before. -/
theorem holdsAndReportsOfHeat : Obligations.HoldsAndReportsOfHeat := by
  unfold Obligations.HoldsAndReportsOfHeat
  refine ⟨fun s ma r hp hn hw => ⟨peakPowerHold_next hp hn hw, held_powerLimit_peakHeld ..⟩, fun s a ha hn hh => ⟨peakHoldHotTimer_next ha hn hh, hotAssert_hot ..⟩,
    fun s a ha hp hn hf => ⟨fun hw => ?_, fun hw => ⟨?_, hotAssert_hot ..⟩⟩, fun s => noEstimateWindowEnd_next, fun s => inletStale_next⟩
  · rw [estimateStale_next ha hp hn hf, if_pos hw]
    rfl
  · rw [estimateStale_next ha hp hn hf, if_neg (by simp [hw])]
    rfl

end Sys2Proof.Laws
end

section
/-!
SUPPORT. One step of the thermal model (R109, R113 to R119): its order, the estimates that reach the PMU, and how far each ridge's hold and throttle and the operating point can move.
-/

namespace Sys2Proof.Laws

open Sys2Proof.Machine

theorem thermalModelStep_next {s : State} (hm : s.thermal.modelOn = true) (hn : s.thermal.lastStep + 61440 ≤ s.now) (hf : s.cmc.fw = .running ∨ s.cmc.fw = .starting) :
    exec .thermalModelStep s = .next (surveyTemps (applyTrims (hotStep (dvfsStep
      ((List.range 48).foldl throttleRidge ((List.range 48).foldl critRidge (estimated s))))))) := by
  have hfw : (decide (s.cmc.fw = .running) || decide (s.cmc.fw = .starting)) = true := by simpa using hf
  show execThermalModelStep s = _
  simp only [execThermalModelStep, hm, decide_eq_false (Nat.not_lt.mpr hn), hfw, Bool.not_true, Bool.or_self, Bool.false_eq_true, if_false]

/-- The step's estimates are fresh, whether or not the last ones were stale (R109, R117). -/
theorem estimated_thermal (s : State) :
    (estimated s).thermal.temps = modelNext s ∧ (estimated s).thermal.lastEst = some s.now ∧ (estimated s).thermal.stale = false := by
  unfold estimated
  cases hs : s.thermal.stale with
  | false => exact ⟨rfl, rfl, hs⟩
  | true => exact ⟨rfl, rfl, rfl⟩

/-! ### What a report of the step leaves alone -/

theorem thermalCoal_pmu (s : State) (src cause part v : Nat) (fs : List (Nat × Nat × Nat)) : (thermalCoal s src cause part v fs).pmu = s.pmu := by
  rw [thermalCoal_eq]

theorem thermalCoal_thermal (s : State) (src cause part v : Nat) (fs : List (Nat × Nat × Nat)) : (thermalCoal s src cause part v fs).thermal = s.thermal := by
  rw [thermalCoal_eq]

/-! ### Holds, throttles and the operating point (R116, R117) -/

/-- The hysteresis of a critical hold, 101 and 99 degrees in eighths of a degree (R117). -/
theorem critRidge_crit (s : State) (r : Nat) :
    tget false (critRidge s r).pmu.crit r = (if tget false s.pmu.crit r then decide (792 ≤ estUsed s r) else decide (808 ≤ estUsed s r)) := by
  simp only [critRidge, apply_ite State.pmu, thermalCoal_pmu, ite_self]
  exact tget_tset_self ..

/-- The sixteenths taken off ridge r's duty after a step: one more above the throttle's temperature, at most twelve, one fewer a degree below it (R116). -/
def dutyNext (s : State) (r : Nat) : Nat :=
  if tThrottle s * 8 < estUsed s r then min 12 (tget 0 s.thermal.duty r + 1)
  else if estUsed s r < (tThrottle s - 1) * 8 then tget 0 s.thermal.duty r - 1 else tget 0 s.thermal.duty r

theorem throttleRidge_duty (s : State) (r : Nat) : tget 0 (throttleRidge s r).thermal.duty r = dutyNext s r := by
  simp only [throttleRidge, apply_ite State.thermal, thermalCoal_thermal, ite_self]
  exact tget_tset_self ..

theorem setOp_op (s : State) (k : Nat) : (setOp s k).pmu.op = k := rfl

/-- The operating point rises by one below 5, falls by one above 0, or stays (R116). -/
theorem dvfsStep_op (s : State) :
    (dvfsStep s).pmu.op = s.pmu.op ∨ ((dvfsStep s).pmu.op = s.pmu.op + 1 ∧ (dvfsStep s).pmu.op ≤ 5) ∨ (dvfsStep s).pmu.op + 1 = s.pmu.op := by
  unfold dvfsStep
  extract_lets allCalm thermal s1
  by_cases hrise : (List.range 48).any (fun r => decide (10 ≤ tget 0 s.thermal.at4 r) && decide ((tThrottle s + 3) * 8 < estUsed s r)) = true
  · rw [if_pos hrise]
    by_cases hlow : s.pmu.op < 5
    · rw [if_pos hlow, setOp_op]
      exact .inr (.inl ⟨rfl, hlow⟩)
    · rw [if_neg hlow]
      exact .inl rfl
  · rw [if_neg hrise]
    by_cases hcalm : (decide (100 ≤ s1.thermal.calm) && decide (0 < s.pmu.op)) = true
    · have hpos : 0 < s.pmu.op := of_decide_eq_true (Bool.and_eq_true_iff.mp hcalm).2
      rw [if_pos hcalm, setOp_op]
      exact .inr (.inr (Nat.sub_add_cancel hpos))
    · rw [if_neg hcalm]
      exact .inl rfl

/-- Settles O36: the row's order, then each part of the step on its own. -/
theorem thermalStepsThrottle : Obligations.ThermalStepsThrottle := by
  unfold Obligations.ThermalStepsThrottle
  exact ⟨fun s hm hn hf => ⟨thermalModelStep_next hm hn hf, estimated_thermal s⟩, critRidge_crit, throttleRidge_duty, dvfsStep_op⟩

end Sys2Proof.Laws
end

section
/-!
SUPPORT. Jobs (R106, R188, R213, R216, R261, R263 to R266, R317, R372 to R377): what each row of a job's life answers once its condition holds, and the job that a restart, a save or an end leaves.
-/

namespace Sys2Proof.Laws

open Sys2Proof.Machine

section
variable {s : State} {part : PartNo} {job : W32} {j : Job}

/-! ### Start (R188, R213) -/

theorem jobStart_next (hj : findJob s part job = some j) (hs : startable s j = true) : exec (.jobStart part job) s = .next (startJob s j) := by
  show execJobStart part job s = _
  simp only [execJobStart, hj, hs, if_true]

theorem startJob_jobs (s : State) (j : Job) : (startJob s j).jobs = (updJob s j.part j.id (fun k => { k with st := .running })).jobs := by
  unfold startJob
  exact foldl_jobs _ (fun _ _ => startRidge_jobs ..) _ _

/-! ### Ends (R216, R317, R373) -/

/-- An ended job is gone from its partition. -/
theorem findJob_endJob (hj : findJob s part job = some j) (extra : List Nat) : findJob (endJob s j extra) part job = none := by
  obtain ⟨hpart, hid⟩ := findJob_part hj
  rw [← hpart, ← hid]
  exact endJob_gone s j extra

theorem jobEndOnFault_next (hj : findJob s part job = some j) (hf : s.cmc.fw = .running) (hc : j.pendingFault.filter (fun c => c ≠ 0x12) ≠ [])
    (hl : jobLocked s j = false) : exec (.jobEndOnFault part job) s = .next (endJob s j ((j.pendingFault.filter (fun c => c ≠ 0x12)).map faultStatus)) := by
  have hpass : ¬ ((j.pendingFault.filter (fun c => c ≠ 0x12)).isEmpty || jobLocked s j || decide (s.cmc.fw ≠ .running)) = true := by
    simp only [hl, hf, List.isEmpty_eq_false_iff.mpr hc, ne_eq, not_true_eq_false, decide_false, Bool.or_self, Bool.false_eq_true, not_false_eq_true]
  show execJobEndOnFault part job s = _
  rw [execJobEndOnFault, hj]
  exact if_neg hpass

theorem jobTimeLimit_next (hj : findJob s part job = some j) (hf : s.cmc.fw = .running) (ht : j.timeLimit ≠ 0) (hn : j.accepted + j.timeLimit * 2 ^ 16 ≤ s.now)
    (hl : jobLocked s j = false) : exec (.jobTimeLimit part job) s = .next (endJob s j [stTimeout]) := by
  show execJobTimeLimit part job s = _
  simp only [execJobTimeLimit, hj, ht, Nat.not_lt.mpr hn, hl, hf, ne_eq, not_true_eq_false, decide_false, Bool.or_self, Bool.false_eq_true, if_false]

theorem jobCompletion_unfenced (hj : findJob s part job = some j) (hf : s.cmc.fw = .running) (hd : jobDone s j = true) (hfence : j.fence = false) :
    exec (.jobCompletion part job) s = .next (endJob s j []) := by
  show execJobCompletion part job s = _
  simp only [execJobCompletion, hj, hf, hd, hfence, ne_eq, not_true_eq_false, decide_false, Bool.not_true, Bool.not_false, Bool.or_self, Bool.false_eq_true, if_false, if_true]

/-- Under the fence a complete job first asks for the probes of the positions it fired (R373). -/
theorem jobCompletion_asks (hj : findJob s part job = some j) (hf : s.cmc.fw = .running) (hd : jobDone s j = true) (hfence : j.fence = true) (hw : j.endWaits = none) :
    exec (.jobCompletion part job) s =
      .next (askProbes (updJob s part job (fun k => { k with st := .egress, endWaits := some (fenceWaits s j) })) (fenceWaits s j)) := by
  show execJobCompletion part job s = _
  simp only [execJobCompletion, hj, hf, hd, hfence, hw, ne_eq, not_true_eq_false, decide_false, Bool.not_true, Bool.or_self, Bool.false_eq_true, if_false]

theorem jobCompletion_passed (hj : findJob s part job = some j) (hf : s.cmc.fw = .running) (hd : jobDone s j = true) (hfence : j.fence = true)
    {l : List (Nat × Nat × Nat)} (hw : j.endWaits = some l) (ho : waitsOver s l = true) : exec (.jobCompletion part job) s = .next (endJob s j []) := by
  show execJobCompletion part job s = _
  simp only [execJobCompletion, hj, hf, hd, hfence, hw, ho, ne_eq, not_true_eq_false, decide_false, Bool.not_true, Bool.or_self, Bool.false_eq_true, if_false, if_true]

/-! ### Preemption (R263, R264) -/

theorem preemption_next (hj : findJob s part job = some j) (hf : s.cmc.fw = .running) {inc : W32} {i : Job} (hi : findJob s part inc = some i) (hs : savable s j = true)
    (hw : i.st = .waiting) (hp : j.prio < i.prio) (hr : shareRidge s j i = true) (ho : wsetOk s i = true) :
    exec (.preemption part job inc) s = .next (if startable (saveJob s j (some i)) i then startJob (saveJob s j (some i)) i else saveJob s j (some i)) := by
  show execPreemption part job inc s = _
  simp only [execPreemption, hj, hi, hs, hw, hp, hr, ho, hf, decide_true, Bool.and_self, if_true]

/-- A saved job leaves every ridge that it was on. -/
theorem saveJob_leaves (s : State) (j : Job) (inc : Option Job) {r : Nat} (hr : r ∈ (jobRidges j).filter (fun r => (getR s r).job = some (j.part, j.id))) :
    (getR (saveJob s j inc) r).job = none :=
  leave_fold _ _ r (.inl hr)

/-- A saved job may come back: its ridges are free, and no job of its partition goes before it. -/
structure Returns (s : State) (j : Job) : Prop where
  saved : j.st = .saved
  free : ridgesFree s j = true
  first : s.jobs.any (goesBefore s j) = false
  running : s.cmc.fw = .running

theorem preemptionRestore_ok (hj : findJob s part job = some j) (h : Returns s j) :
    exec (.preemptionRestore part job true) s = .next ((needs (restoreJob s j) j).foldl settleRidge (restoreJob s j)) := by
  show execPreemptionRestore part job true s = _
  simp only [execPreemptionRestore, hj, h.saved, h.free, h.first, h.running, ne_eq, not_true_eq_false, decide_false, Bool.not_true, Bool.or_self, Bool.false_eq_true, if_false, if_true]

theorem preemptionRestore_fails (hj : findJob s part job = some j) (h : Returns s j) :
    exec (.preemptionRestore part job false) s = .next (endJob (raiseCore s 0x04 0x06 part (integPayload 6 0 0xFF job 0 0 0)) j [stIntegrity]) := by
  show execPreemptionRestore part job false s = _
  simp only [execPreemptionRestore, hj, h.saved, h.free, h.first, h.running, ne_eq, not_true_eq_false, decide_false, Bool.not_true, Bool.or_self, Bool.false_eq_true, if_false]

/-! ### Restart (R376) -/

/-- Job j, touched by a failed probe, can restart now, and k is what clearing it leaves of it. -/
structure Restarts (s : State) (part : PartNo) (job : W32) (j k : Job) : Prop where
  found : findJob s part job = some j
  running : s.cmc.fw = .running
  suspected : j.suspects ≠ []
  unsaved : j.st ≠ .saved
  started : j.st ≠ .waiting
  unlocked : jobLocked s j = false
  cleared : findJob (restartCleared s part job j) part job = some k

/-- The exchange of a restart from the cold half: it becomes the live one, and the half that was live is no longer valid (R376). -/
def coldTaken (k : Job) : Job :=
  let k1 := { setCold k (coldHalf k) with liveIsB := !k.liveIsB }
  setCold k1 { coldHalf k1 with valid := false }

theorem liveHalf_coldTaken (k : Job) : liveHalf (coldTaken k) = coldHalf k := by
  cases hb : k.liveIsB <;> simp [coldTaken, setCold, liveHalf, coldHalf, hb]

theorem coldHalf_coldTaken (k : Job) : (coldHalf (coldTaken k)).valid = false := by
  cases hb : k.liveIsB <;> simp [coldTaken, setCold, coldHalf, hb]

variable {k : Job}

theorem Restarts.not_barred (h : Restarts s part job j k) :
    ¬ (j.suspects.isEmpty || decide (j.st = .saved) || decide (j.st = .waiting) || jobLocked s j || decide (s.cmc.fw ≠ .running)) = true := by
  simp only [List.isEmpty_eq_false_iff.mpr h.suspected, h.unsaved, h.started, h.unlocked, h.running, ne_eq, not_true_eq_false, decide_false, Bool.or_self,
    Bool.false_eq_true, not_false_eq_true]

theorem jobRestart_live (h : Restarts s part job j k) (hp : restartPoint s j = .live) :
    exec (.jobRestart part job) s = .next (startJob (updJob (restartCleared s part job j) part job (fun _ => k)) k) := by
  show execJobRestart part job s = _
  simp only [execJobRestart, h.found, if_neg h.not_barred, h.cleared, hp]

theorem jobRestart_cold (h : Restarts s part job j k) (hp : restartPoint s j = .cold) :
    exec (.jobRestart part job) s = .next (startJob (updJob (restartCleared s part job j) part job (fun _ => coldTaken k)) (coldTaken k)) := by
  show execJobRestart part job s = _
  simp only [execJobRestart, h.found, if_neg h.not_barred, h.cleared, hp]
  rfl

theorem jobRestart_zero (h : Restarts s part job j k) (hp : restartPoint s j = .zero) :
    exec (.jobRestart part job) s = .next (startJob (updJob (restartCleared s part job j) part job (fun _ => { k with halfA := .empty, halfB := .empty }))
      { k with halfA := .empty, halfB := .empty }) := by
  show execJobRestart part job s = _
  simp only [execJobRestart, h.found, if_neg h.not_barred, h.cleared, hp]

/-- The state in which a job that cannot restart ends: its live cairn, if it has one, stays with the partition (R376). -/
def cairnLeft (u : State) (part : Nat) (job : W32) (k : Job) : State :=
  if (liveHalf k).valid then
    match findProg u part k.prog with
    | some g => updP u part (fun t => { t with leftCairns := t.leftCairns ++ [(job, k.prog, g.digest, cairnOrder g (liveHalf k))] })
    | none => u
  else u

theorem jobRestart_none (h : Restarts s part job j k) (hp : restartPoint s j = .none) :
    exec (.jobRestart part job) s = .next (finishJob (cairnLeft (restartCleared s part job j) part job k) k [stProbe]) := by
  show execJobRestart part job s = _
  simp only [execJobRestart, h.found, if_neg h.not_barred, h.cleared, hp]
  rfl

theorem findJob_finishJob (h : Restarts s part job j k) (u : State) (extra : List Nat) : findJob (finishJob u k extra) part job = none := by
  obtain ⟨hpart, hid⟩ := findJob_part h.cleared
  rw [← hpart, ← hid]
  exact finishJob_gone u k extra

/-! ### Held writes (R373) -/

theorem egressFenceRelease_next (hj : findJob s part job = some j) (hs : j.suspects = []) (hst : j.st = .running ∨ j.st = .egress) :
    exec (.egressFenceRelease part job) s = .next (releaseHeld s j) := by
  have hpass : (j.suspects.isEmpty && (decide (j.st = .running) || decide (j.st = .egress))) = true := by simpa [hs] using hst
  show execEgressFenceRelease part job s = _
  rw [execEgressFenceRelease, hj]
  exact if_pos hpass

/-- While every held write waits for its probes none goes. -/
theorem releaseHeld_waiting (s : State) (j : Job) (h : ∀ w, w ∈ j.held → waitsOver s w.waits = false) : releaseHeld s j = s := by
  unfold releaseHeld
  refine List.foldlRecOn (motive := fun t => t = s) j.held _ rfl (fun t ht w hw => ?_)
  subst ht
  rw [h w hw]
  rfl

end

/-- Settles O41, one lemma for each row and branch of a job's life. -/
theorem jobsStartEndAndMove : Obligations.JobsStartEndAndMove := by
  unfold Obligations.JobsStartEndAndMove
  intro s part job j hj
  refine ⟨fun hs => ⟨jobStart_next hj hs, startJob_jobs s j⟩, findJob_endJob hj, fun hf => ⟨jobEndOnFault_next hj hf, jobTimeLimit_next hj hf,
    jobCompletion_unfenced hj hf, jobCompletion_asks hj hf, fun l hd hfence => jobCompletion_passed hj hf hd hfence, fun inc i hi hs hw hp hr ho => ?_, fun hs hr hg => ?_,
    fun k hs hsaved hwait hl hk => ?_⟩, egressFenceRelease_next hj, releaseHeld_waiting s j⟩
  · exact ⟨preemption_next hj hf hi hs hw hp hr ho, fun r hr => saveJob_leaves s j (some i) hr⟩
  · have h : Returns s j := ⟨hs, hr, hg, hf⟩
    exact ⟨preemptionRestore_ok hj h, preemptionRestore_fails hj h⟩
  · have h : Restarts s part job j k := ⟨hj, hf, hs, hsaved, hwait, hl, hk⟩
    exact ⟨fun hp => ⟨_, jobRestart_none h hp, findJob_finishJob h ..⟩, jobRestart_live h, fun hp => ⟨_, jobRestart_cold h hp, liveHalf_coldTaken k, coldHalf_coldTaken k⟩, jobRestart_zero h⟩

end Sys2Proof.Laws
end

section
/-!
SUPPORT. Spill images (R150, R167, R369): the length of an image, and an image taken apart.
-/

namespace Sys2Proof.Laws

open Sys2Proof.Machine

theorem imageBytes_length (len : Nat) (exp : Int) (fl : Nat) (led : Ledger) (es : Nat → Entry) (cs : Nat → W32) :
    (imageBytes len exp fl led es cs).length = 6400 := by
  obtain ⟨h, hb, -, hlen⟩ := image_parts len exp fl led es cs
  rw [hb, List.length_append, List.length_append, range_len (fun _ => leBytes_length ..), range_len (fun _ => leBytes_length ..), hlen]

/-- Taking an image apart gives back what it was made of. -/
theorem imageOf_imageBytes {len : Nat} {exp : Int} {fl : Nat} {led : Ledger} {es : Nat → Entry} {cs : Nat → W32} (hlen : len ≤ 512)
    (hexp : -(2 ^ 15) ≤ exp) (hexp' : exp < 2 ^ 15) (hfl : fl < 2 ^ 32) (hlo : led.lo < 2 ^ 64) (hhi : led.hi < 2 ^ 64) :
    imageOf (imageBytes len exp fl led es cs) =
      { len := len, exp := exp, ledger := led, entries := (List.range len).map (fun i => entryWord (es i)), comps := (List.range len).map cs, flags := fl } := by
  obtain ⟨-, hl, he, hf, -, hled, -⟩ := image_header len exp fl led es cs hlen hexp hexp' hfl
  have hentries : (List.range len).map (fun i => fieldAt (imageBytes len exp fl led es cs) (0x100 + 8 * i) 8) = (List.range len).map (fun i => entryWord (es i)) :=
    List.map_congr_left (fun i hi => by
      have hi := List.mem_range.mp hi
      rw [(image_at len exp fl led es cs i (by omega)).1, if_pos hi])
  have hcomps : (List.range len).map (fun i => BitVec.ofNat 32 (fieldAt (imageBytes len exp fl led es cs) (0x1100 + 4 * i) 4)) = (List.range len).map cs :=
    List.map_congr_left (fun i hi => by
      have hi := List.mem_range.mp hi
      rw [(image_at len exp fl led es cs i (by omega)).2, if_pos hi, BitVec.ofNat_toNat, BitVec.setWidth_eq])
  simp only [imageOf, hl, he, hf, hled, ledger_ok led hlo hhi, Nat.min_eq_left hlen, hentries, hcomps]

/-- Settles O11: the entry word, the ledger's fields and the image's header, entries and companions, each read back where it was laid. -/
theorem spillImagesReadBack : Obligations.SpillImagesReadBack := by
  unfold Obligations.SpillImagesReadBack
  refine ⟨entry_ok, fun l hlo hhi => ⟨ledger_length l, ledger_ok l hlo hhi, ledger_fields l hlo hhi⟩, ?_⟩
  intro len exp fl led es cs hlen hexp hexp' hfl hlo hhi _
  obtain ⟨hsig, hl, he, hf, hzero, hled, hzero'⟩ := image_header len exp fl led es cs hlen hexp hexp' hfl
  exact ⟨imageBytes_length .., hsig, hl, he, hf, hzero, hled, hzero', image_at len exp fl led es cs, imageOf_imageBytes hlen hexp hexp' hfl hlo hhi⟩

end Sys2Proof.Laws
end

section
/-!
SUPPORT. Accumulator slots (R155 to R159, R193, R370): what reading and writing a slot gives, the commit of a contribution, and PRE.
-/

namespace Sys2Proof.Laws

open Sys2Proof.Machine Sys2Proof.Safety

/-! ### Reading and writing a slot -/

@[simp] theorem getSlot_setSlot_self (s : State) (r k : Nat) (v : Slot) : getSlot (setSlot s r k v) r k = v := by
  simp [getSlot, setSlot, slotOf]

theorem getSlot_congr {s t : State} {r : Nat} (h : getR t r = getR s r) (k : Nat) : getSlot t r k = getSlot s r k := by
  unfold getSlot; rw [h]

/-! ### The commit of a contribution (R157 to R159) -/

/-- The slot after a commit: what follows it, the clip events and the fallback count, touches no slot. -/
theorem getSlot_commitEffect (s : State) (r : Nat) (e : Win) (devs : List AdcDev) : let sl := getSlot s r (mvmSlot e.w)
    getSlot (commitEffect s r e devs) r (mvmSlot e.w) =
      { commitMvm sl ((List.range sl.len).map (fun c => (mvmEntry s r e sl.exp devs c, e.lanes.any (fun l => laneScree s r l c)))) with
        received := sl.received + 1, ledger := mergeLedger sl.ledger (mvmLedger r e) } := by
  intro sl
  have hclips : ∀ t, getSlot (guardClips t r e devs) r (mvmSlot e.w) = getSlot t r (mvmSlot e.w) := fun t =>
    getSlot_congr (getR_guardClips t r e devs r) _
  unfold commitEffect
  simp only
  split
  · split
    · exact (getSlot_congr (getR_updJob ..) _).trans ((hclips _).trans (getSlot_setSlot_self ..))
    · exact (hclips _).trans (getSlot_setSlot_self ..)
  · exact (hclips _).trans (getSlot_setSlot_self ..)

/-- The oldest uncommitted contribution of its ridge into its slot, on a stream that goes on. -/
structure CommitsNext (s : State) (r : Ridge) (id : Nat) (e : Win) : Prop where
  found : findWin s r id = some e
  mvm : e.kind = .mvm
  oldest : earlierInto r (getR s r) id (mvmSlot e.w) = false
  goes : faultedWin (getR s r) e = false

theorem contributionCommit_adds {s : State} {r : Ridge} {id : Nat} {devs : List AdcDev} {e : Win} (h : CommitsNext s r id e)
    (hroom : (getSlot s r (mvmSlot e.w)).received ≠ (getSlot s r (mvmSlot e.w)).expect) :
    exec (.contributionCommit r id devs) s = .next (settleRidge (retire (commitEffect s r e devs) r id) r) := by
  show execContributionCommit r id devs s = _
  simp [execContributionCommit, h.found, h.mvm, h.oldest, h.goes, hroom]

theorem contributionCommit_excess {s : State} {r : Ridge} {id : Nat} {devs : List AdcDev} {e : Win} (h : CommitsNext s r id e)
    (hfull : (getSlot s r (mvmSlot e.w)).received = (getSlot s r (mvmSlot e.w)).expect) :
    exec (.contributionCommit r id devs) s = .next (execFault s r e 0x09) := by
  show execContributionCommit r id devs s = _
  simp [execContributionCommit, h.found, h.mvm, h.oldest, h.goes, hfull]

/-- Settles O6: the two answers of the row by the slot's count, and the count after a commit read off the slot that the commit writes. -/
theorem contributionsCommitOnce : Obligations.ContributionsCommitOnce := by
  unfold Obligations.ContributionsCommitOnce
  intro s r id devs e hfound hmvm holdest hgoes
  have h : CommitsNext s r id e := ⟨hfound, hmvm, holdest, hgoes⟩
  refine ⟨fun hroom => ⟨contributionCommit_adds h hroom, ?_⟩, contributionCommit_excess h⟩
  rw [getSlot_commitEffect]

/-! ### PRE (R155, R156, R193, R370) -/

/-- What the slot and the table of a PRE must be for it to go on. -/
structure PreFree (s : State) (r : Ridge) (w : W128) : Prop where
  closed : (getSlot s r (slotNo w)).opened = false
  settled : (getSlot s r (slotNo w)).closing = false
  unlocked : lockedClaim s (4, r, slotNo w) = false
  table : preMode w = 2 → claimed s (2, r, preTable w) = false ∧ preChan w + preLen w ≤ descCount (rscDesc (getR s r) (preTable w))

section
variable {s : State} {r : Ridge} {x : Ctx} {w : W128}

theorem PreFree.unheld (h : PreFree s r w) :
    (lockedClaim s (4, r, slotNo w) || (slotOf (getR s r) (slotNo w)).closing || (decide (preMode w = 2) && claimed s (2, r, preTable w))) = false := by
  have hclosing : (slotOf (getR s r) (slotNo w)).closing = false := h.settled
  by_cases hmode : preMode w = 2
  · simp [h.unlocked, hclosing, (h.table hmode).1]
  · simp [h.unlocked, hclosing, hmode]

theorem PreFree.inTable (h : PreFree s r w) :
    (decide (preMode w = 2) && decide (descCount (rscDesc (getR s r) (preTable w)) < preChan w + preLen w)) = false := by
  by_cases hmode : preMode w = 2
  · simp [Nat.not_lt.mpr (h.table hmode).2]
  · simp [hmode]

theorem pre_zero (hi : issuable s r x w 0x18 = true) (h : PreFree s r w) (hmode : preMode w = 0) :
    exec (.pre r x w) s = .next (settleCtx (advance (setSlot s r (slotNo w) (preSlot (getR s r) w [])) r x) r x) := by
  have hopened : (slotOf (getR s r) (slotNo w)).opened = false := h.closed
  show execPre r x w s = _
  refine issued hi ?_
  simp only [h.unheld, h.inTable, hopened, Bool.false_eq_true, if_false]
  exact if_pos hmode

theorem pre_loads (hi : issuable s r x w 0x18 = true) (h : PreFree s r w) (hmode : preMode w ≠ 0) {o : LOp} {b : List Byte}
    (ho : laOp s r (preSrc w) (vecBytes (preFmtOf w) (preLen w)) (fmtAlign (preFmtOf w)) false = some o)
    (hfree : loamFree s r [rangeOf o (vecBytes (preFmtOf w) (preLen w))] [] = true) (hb : ldLoam s o (vecBytes (preFmtOf w) (preLen w)) = (b, false)) :
    exec (.pre r x w) s = .next (settleCtx (advance (setSlot s r (slotNo w) (preSlot (getR s r) w b)) r x) r x) := by
  have hopened : (slotOf (getR s r) (slotNo w)).opened = false := h.closed
  show execPre r x w s = _
  refine issued hi ?_
  simp only [h.unheld, h.inTable, hopened, hmode, ho, hfree, hb, Bool.not_true, Bool.false_eq_true, if_false]

end

/-- Settles O7: the zero form and the loading forms of PRE, and the fields of the slot that PRE writes, which its definition lists. -/
theorem preOpensItsSlot : Obligations.PreOpensItsSlot := by
  unfold Obligations.PreOpensItsSlot
  intro s r x w hi hopened hclosing hlocked htable
  have h : PreFree s r w := ⟨hopened, hclosing, hlocked, htable⟩
  exact ⟨pre_zero hi h, fun o b hmode ho hfree hb => pre_loads hi h hmode ho hfree hb, fun b => ⟨rfl, rfl, rfl, rfl, rfl, rfl, rfl, rfl⟩⟩

end Sys2Proof.Laws
end

section
/-!
SUPPORT. DRN and its completion (R159, R162 to R166, R194, R212), and CANCEL (R162): the flag's condition, the drain's count and flag map, and what carries entries and companions onward unchanged.
-/

namespace Sys2Proof.Laws

open Sys2Proof.Machine Sys2Proof.Safety

/-! ### DRN at issue (R159, R194, R212) -/

theorem stageAs_plain {s : State} {r : Nat} {x : Ctx} (h : (ctxOf (getR s r) x).rope = none) (n : Nat) (a : Action) : stageAs s r x n a = .plain := by
  simp only [stageAs, h]

/-- A drain whose slot, table and output ranges let it go on: OUT_FMT f, writing the ranges ws. -/
structure DrainFree (s : State) (r : Ridge) (w : W128) (f : Nat) (ws : List LRange) : Prop where
  slotUnlocked : lockedClaim s (4, r, slotNo w) = false
  tableUnlocked : lockedClaim s (2, r, drnTable w) = false
  slot : drnSlotFault (getSlot s r (slotNo w)) w = none
  fmt : drnFmt (getR s r) w (getSlot s r (slotNo w)).len = some f
  writes : drnWrites s r w f (getSlot s r (slotNo w)).len = some ws
  free : loamFree s r [] ws = true

section
variable {s : State} {r : Ridge} {x : Ctx} {w : W128} {f : Nat} {ws : List LRange}

/-- A free drain closes its slot and takes its window entry, in the state and with the rope entry that its action meets. -/
theorem drn_joins (hi : issuable s r x w 0x19 = true) (h : DrainFree s r w f ws) {u : State} {o : Option Nat}
    (hj : Joins s r x (drnSize w f (getSlot s r (slotNo w)).len) (.drain r (slotNo w) (getR s r).nextId) u o) :
    exec (.drn r x w) s = .next (settleCtx (advance (pushWin (setClosing u r (slotNo w) true) r { drnWin (getR s r) x w ws with rope := o }) r x) r x) := by
  show execDrn r x w s = _
  refine issued hi ?_
  obtain ⟨hslot, htable, hfault, hfmt, hwrites, hfree⟩ := h
  unfold getSlot at *
  have hid : (drnWin (getR s r) x w ws).id = (getR s r).nextId := rfl
  rcases hj with ⟨hrope, rfl, rfl⟩ | ⟨n, hstage, rfl⟩
  · simp only [hslot, htable, hfault, hfmt, hwrites, hfree, stageAs_plain hrope, Bool.or_self, Bool.not_true, Bool.false_eq_true, if_false]
    rfl
  · simp only [hslot, htable, hfault, hfmt, hwrites, hfree, hid, hstage, Bool.or_self, Bool.not_true, Bool.false_eq_true, if_false]
    rfl

end

/-! ### DRAIN_COMPLETE (R162 to R166) -/

/-- A drain not yet staged, on a stream that goes on, whose slot has every contribution. -/
structure DrainEnds (s : State) (r : Ridge) (id : Nat) (e : Win) : Prop where
  found : findWin s r id = some e
  drain : e.kind = .drain
  unstaged : e.staged = none
  goes : faultedWin (getR s r) e = false
  ready : slotReady s r e = true

section
variable {s : State} {r : Ridge} {id : Nat} {ue : List Nat} {e : Win}

theorem drainComplete_writes (h : DrainEnds s r id e) (hrope : e.rope = none) (hok : (writeStaged s r (drainStaged s r e)).2 = false) :
    exec (.drainComplete r id ue) s = .next (retire (freeSlot (addCounts (slotUe (writeStaged s r (drainStaged s r e)).1 r
      (ueCdus (entFmt (chanEntry (getR s r) e.half (drnTable e.w) (drnChan e.w))) (drainStaged s r e) ue)) r e.ctx (drainStaged s r e)) r (slotNo e.w)) r id) := by
  show execDrainComplete r id ue s = _
  simp [execDrainComplete, h.found, h.drain, h.unstaged, h.goes, h.ready, hrope, hok]

theorem drainComplete_stages (h : DrainEnds s r id e) (hrope : e.rope ≠ none) :
    exec (.drainComplete r id ue) s = .next (updWin s r id (fun w => { w with staged := some (drainStaged s r e) })) := by
  show execDrainComplete r id ue s = _
  simp [execDrainComplete, h.found, h.drain, h.unstaged, h.goes, h.ready, Option.isSome_iff_ne_none.mpr hrope]

end

/-- Settles O8: the drain joins its context's rope or acts directly, and its completion writes or stages accordingly. -/
theorem drainsIssueAndComplete : Obligations.DrainsIssueAndComplete := by
  unfold Obligations.DrainsIssueAndComplete
  refine ⟨fun s r x w f ws hi hslot htable hfault hfmt hwrites hfree => ?_, fun s r id ue e hfound hkind hstaged hgoes hready => ?_⟩
  · have h : DrainFree s r w f ws := ⟨hslot, htable, hfault, hfmt, hwrites, hfree⟩
    exact ⟨fun hrope => drn_joins hi h (.inl ⟨hrope, rfl, rfl⟩), fun t n hstage => drn_joins hi h (.inr ⟨n, hstage, rfl⟩)⟩
  · have h : DrainEnds s r id e := ⟨hfound, hkind, hstaged, hgoes, hready⟩
    exact ⟨drainComplete_writes h, drainComplete_stages h⟩

/-! ### CANCEL at the drain (R162, R164) -/

/-- The comparison is of integers: |VALUE| × 2^shift times the companion's denominator against its numerator. -/
theorem cancels_iff (shift : Nat) (e : Entry) (c : W32) : cancels shift e c = true ↔
    shift ≠ 0 ∧ e.sat = false ∧ ((e.val.natAbs * 2 ^ shift : Nat) : Int) * ((f32Val c).den : Int) < (f32Val c).num := by
  simp [cancels, qLt, qOf, and_assoc]

theorem cancels_zero {shift : Nat} {e : Entry} (c : W32) (hshift : shift ≠ 0) (hsat : e.sat = false) (hval : e.val = 0) :
    cancels shift e c = true ↔ 0 < (f32Val c).num := by
  simp [cancels_iff, hshift, hsat, hval]

theorem cancels_zero_of_companion_zero (shift : Nat) {e : Entry} {c : W32} (hval : e.val = 0) (hc : c = 0) : cancels shift e c = false := by
  have hnum : (f32Val c).num = 0 := by rw [hc]; decide
  refine Bool.eq_false_iff.mpr fun h => ?_
  obtain ⟨-, -, hlt⟩ := (cancels_iff shift e c).mp h
  rw [hval, hnum, Int.natAbs_zero, Nat.zero_mul, Int.natCast_zero, Int.zero_mul] at hlt
  exact Int.lt_irrefl 0 hlt

/-- CANCEL in the entries a drain reads is the drain's own decision, so that its count is of the entries it flags. -/
theorem drainStaged_cancel (s : State) (r : Nat) (w : Win) : let sl := getSlot s r (slotNo w.w)
    (drainStaged s r w).cancel =
      ((List.range sl.len).filter (fun i => cancels ((getR s r).accCfg.toNat % 16) (slotEntry sl i) (slotComp sl i))).length := by
  intro sl
  show (((List.range sl.len).map _).filter _).length = _
  rw [List.filter_map, List.length_map]
  rfl

theorem drainStaged_map (s : State) (r : Nat) (w : Win) {q : Nat} (hmap : drnMap w.w = true) (hq : laPhys s r (bits w.w 56 30) = some q) :
    let sl := getSlot s r (slotNo w.w)
    (q, laOff (bits w.w 56 30), packCodes 0 ((List.range sl.len).map (fun i =>
      flagNibble { slotEntry sl i with cancel := cancels ((getR s r).accCfg.toNat % 16) (slotEntry sl i) (slotComp sl i) })), ledgerTag sl.ledger) ∈
        (drainStaged s r w).loam := by
  intro sl
  simp [drainStaged, hmap, hq, sl, getSlot, Function.comp_def]

/-! ### What carries entries and companions onward (R168, R170) -/

theorem aadReady_sends {s : State} {r p : Nat} {id : W32} {w : Win} (hjob : (getR s r).job = some (p, id)) (hform : aadForm w.w = 0) :
    ∃ m, (aadReady s r w).mem.aads = s.mem.aads ++ [m] ∧ m.entries = (getSlot s r (slotNo w.w)).entries ∧ m.comps = (getSlot s r (slotNo w.w)).comps := by
  simp only [aadReady, hjob, hform, if_true]
  exact ⟨_, freeSlot_aads _ _ _, rfl, rfl⟩

/-- Settles O9: the flag as a comparison of integers, the drain's count and flag map of it, and the image and the message that leave the slot's entries as they stand. -/
theorem cancelIsDecidedAtTheDrain : Obligations.CancelIsDecidedAtTheDrain := by
  unfold Obligations.CancelIsDecidedAtTheDrain
  refine ⟨fun shift e c => ⟨cancels_iff shift e c, cancels_zero c, cancels_zero_of_companion_zero shift⟩,
    fun s r w => ⟨drainStaged_cancel s r w, fun q => drainStaged_map s r w⟩, fun sl i hi hlen => ?_, fun s r p id w => aadReady_sends⟩
  obtain ⟨hentry, hcomp⟩ := image_at sl.len sl.exp (flagsAny sl) sl.ledger (slotEntry sl) (slotComp sl) i (by omega)
  exact ⟨hentry.trans (if_pos hi), hcomp.trans (if_pos hi)⟩

end Sys2Proof.Laws
end

section
/-!
SUPPORT. SPL and FIL (R168, R169, R195, R212, R370) and AAD at issue (R170, R196, R376): what each form answers once its slot and its operand let it go on.
-/

namespace Sys2Proof.Laws

open Sys2Proof.Machine Sys2Proof.Safety

/-- A slot of the ridge that is open, not closing, and locked by no rope. -/
structure SlotOpen (s : State) (r : Ridge) (k : Nat) : Prop where
  unlocked : lockedClaim s (4, r, k) = false
  opened : (getSlot s r k).opened = true
  accepts : (getSlot s r k).closing = false

/-- A slot that an SPL or an AAD may take for its source. -/
structure SourceFree (s : State) (r : Ridge) (k : Nat) : Prop extends SlotOpen s r k where
  unpinned : (getSlot s r k).pin = false

/-- A slot into which a FIL may commit the image b: it expects more, and nothing earlier is on its way into it. -/
structure FillFree (s : State) (r : Ridge) (k : Nat) (b : List Byte) : Prop extends SlotOpen s r k where
  inOrder : earlierInto r (getR s r) (getR s r).nextId k = false
  expects : (getSlot s r k).received ≠ (getSlot s r k).expect
  sound : imageOk (getSlot s r k) b = true

section
variable {s : State} {r : Ridge} {x : Ctx} {w : W128}

/-- An open slot meets none of the faults that come first, of a slot not open or closing. -/
theorem SlotOpen.usable {k : Nat} (h : SlotOpen s r k) : (!(slotOf (getR s r) k).opened || (slotOf (getR s r) k).closing) = false := by
  have hopened : (slotOf (getR s r) k).opened = true := h.opened
  have haccepts : (slotOf (getR s r) k).closing = false := h.accepts
  rw [hopened, haccepts]
  rfl

/-! ### SPL (R168, R195, R212) -/

/-- What an SPL that goes on in a state v leaves: its slot closed, its window entry waiting for it. -/
def spilled (v u : State) (r : Ridge) (x : Ctx) (w : W128) (ws : List LRange) (o : Option Nat) : State :=
  settleRidge (pushWin (setClosing u r (slotNo w) true) r { mkWin (getR v r) x w .waitSlot with writes := ws, rope := o }) r

theorem spl_loam (hi : issuable s r x w 0x1A = true) (h : SourceFree s r (slotNo w)) {o : LOp} (hspace : maddrSpace (imageMaddr w) = false)
    (ho : laOp s r (maddrLaddr (imageMaddr w)) 6400 256 true = some o) (hfree : loamFree s r [] [rangeOf o 6400] = true) {u : State} {e : Option Nat}
    (hj : Joins s r x 6400 (.spill r (slotNo w) (getR s r).nextId) u e) :
    exec (.spl r x w) s = .next (settleCtx (advance (spilled s u r x w [rangeOf o 6400] e) r x) r x) := by
  have hpin : (slotOf (getR s r) (slotNo w)).pin = false := h.unpinned
  show execSpl r x w s = _
  refine issued hi ?_
  simp only [h.unlocked, h.usable, hpin, hspace, ho, hfree, Bool.not_true, Bool.false_eq_true, if_false]
  exact joins_spl hj

theorem spl_memory (hi : issuable s r x w 0x1A = true) (h : SourceFree s r (slotNo w)) {j : Job} {ps : List Piece} (hspace : maddrSpace (imageMaddr w) = true)
    (hjob : dvaJob s r x = some j) (halign : maddrDva (imageMaddr w) % 256 = 0)
    (hps : ridgePlaces s j.part j r (maddrDva (imageMaddr w)) 6400 1 (ctxOf (getR s r) x).pc = .places ps)
    (hpeer : anyPeer ps = true → (ctxOf (getR s r) x).rope = none) {v u : State} {e : Option Nat} (hv : (if anyPeer ps then markDirty s r else s) = v)
    (hj : Joins v r x 6400 (.spill r (slotNo w) (getR v r).nextId) u e) :
    exec (.spl r x w) s = .next (settleCtx (advance (spilled v u r x w [] e) r x) r x) := by
  have hpin : (slotOf (getR s r) (slotNo w)).pin = false := h.unpinned
  have hrope : (anyPeer ps && (ctxOf (getR s r) x).rope.isSome) = false := by
    cases hany : anyPeer ps with
    | false => rfl
    | true => rw [hpeer hany]; rfl
  show execSpl r x w s = _
  refine issued hi ?_
  simp only [h.unlocked, h.usable, hpin, hspace, hjob, halign, hps, hrope, hv, ne_eq, not_true_eq_false, Bool.false_eq_true, if_false, if_true]
  exact joins_spl hj

/-! ### FIL (R169, R195, R370) -/

/-- A sound image commits in every state whose ridge holds the slot that it was checked against. -/
theorem filGo_commits {b : List Byte} (h : FillFree s r (slotNo w) b) {v : State} (hv : getR v r = getR s r) :
    filGo v r w b false = .next (settleRidge (setSlot v r (slotNo w) (filSlot (getSlot s r (slotNo w)) b)) r) := by
  simp only [filGo, getSlot_congr hv, h.expects, h.sound, Bool.not_true, Bool.false_eq_true, if_false]

theorem fil_loam (hi : issuable s r x w 0x1B = true) {b : List Byte} (h : FillFree s r (slotNo w) b) {o : LOp} (hspace : maddrSpace (imageMaddr w) = false)
    (ho : laOp s r (maddrLaddr (imageMaddr w)) 6400 256 false = some o) (hfree : loamFree s r [rangeOf o 6400] [] = true) (hb : (ldLoam s o 6400).1 = b)
    (hgood : (imageParts (getSlot s r (slotNo w)).len).any (fun q => (ldLoam s ⟨o.ridge, o.off + q.1⟩ q.2).2) = false) :
    exec (.fil r x w) s = .next (settleCtx (advance (settleRidge (setSlot s r (slotNo w) (filSlot (getSlot s r (slotNo w)) b)) r) r x) r x) := by
  show execFil r x w s = _
  refine issued hi ?_
  unfold getSlot at hgood
  simp only [h.unlocked, h.usable, h.inOrder, hspace, ho, hfree, hb, hgood, Bool.not_true, Bool.false_eq_true, if_false]
  exact filGo_commits h rfl

theorem fil_memory (hi : issuable s r x w 0x1B = true) {b : List Byte} (h : FillFree s r (slotNo w) b) {j : Job} {hd es cs : List Byte}
    (hspace : maddrSpace (imageMaddr w) = true) (hjob : dvaJob s r x = some j) (halign : maddrDva (imageMaddr w) % 256 = 0)
    (hrd : (imageParts (getSlot s r (slotNo w)).len).map (fun q => ridgeRead s j.part j r (maddrDva (imageMaddr w) + q.1) q.2 (ctxOf (getR s r) x).pc) =
      [.bytes hd false, .bytes es false, .bytes cs false]) (hb : b = bytesAt hd 0 256 ++ bytesAt es 0 4096 ++ bytesAt cs 0 2048) :
    exec (.fil r x w) s =
      .next (settleCtx (advance (settleRidge (setSlot (dropOnce s j.part r) r (slotNo w) (filSlot (getSlot s r (slotNo w)) b)) r) r x) r x) := by
  show execFil r x w s = _
  refine issued hi ?_
  unfold getSlot at hrd
  simp only [h.unlocked, h.usable, h.inOrder, hspace, hjob, halign, hrd, ← hb, Bool.or_self, ne_eq, not_true_eq_false, Bool.false_eq_true, if_false, if_true]
  exact filGo_commits h rfl

end

theorem filSlot_fields (sl : Slot) (b : List Byte) : let k := filSlot sl b
    k.received = sl.received + 1 ∧ k.ledger = mergeLedger sl.ledger (imageOf b).ledger ∧ k.opened = sl.opened ∧ k.closing = sl.closing ∧
    k.pin = sl.pin ∧ k.gen = sl.gen ∧ k.len = sl.len ∧ k.exp = sl.exp ∧ k.expect = sl.expect := by
  obtain ⟨-, -, hopened, hclosing, hpin, hgen, hlen, hexp, hexpect⟩ := imgFold (imageOf b) (List.range sl.len) sl
  exact ⟨rfl, rfl, hopened, hclosing, hpin, hgen, hlen, hexp, hexpect⟩

/-- Settles O10: SPL from Loam and from memory, FIL likewise, and the fields that a fill keeps because committing entries touches entries and companions alone. -/
theorem spillsAndFillsIssue : Obligations.SpillsAndFillsIssue := by
  unfold Obligations.SpillsAndFillsIssue
  refine ⟨fun s r x w hi hlocked hopened hclosing hpin => ?_, fun s r x w b hi hlocked hopened hclosing horder hexpects hok => ?_, filSlot_fields⟩
  · have h : SourceFree s r (slotNo w) := ⟨⟨hlocked, hopened, hclosing⟩, hpin⟩
    exact ⟨fun o hspace ho hfree u e => spl_loam hi h hspace ho hfree, fun j ps hspace hjob halign hps hpeer u e => spl_memory hi h hspace hjob halign hps hpeer rfl⟩
  · have h : FillFree s r (slotNo w) b := ⟨⟨hlocked, hopened, hclosing⟩, horder, hexpects, hok⟩
    exact ⟨fun o hspace ho hfree hb hgood => fil_loam hi h hspace ho hfree hb hgood,
      fun j hd es cs hspace hjob halign hrd hb => fil_memory hi h hspace hjob halign hrd hb⟩

/-! ### AAD (R170, R196, R376) -/

section
variable {s : State} {r : Ridge} {x : Ctx} {w : W128}

/-- FORM 0 and 1 issue as the slot forms' body goes on. -/
theorem aad_slot (hi : issuable s r x w 0x1C = true) (hform : aadForm w ≤ 1) {t : State} (ht : aadSlotBody r x w s = .next t) :
    exec (.aad r x w) s = .next (settleCtx (advance t r x) r x) := by
  show execAad r x w s = _
  refine issued hi ?_
  rw [decide_eq_true hform]
  exact ht

/-- FORM 2 and 3 issue as the vector forms' body goes on. -/
theorem aad_vector (hi : issuable s r x w 0x1C = true) (hform : 2 ≤ aadForm w) {t : State} (ht : aadVecBody r x w s = .next t) :
    exec (.aad r x w) s = .next (settleCtx (advance t r x) r x) := by
  show execAad r x w s = _
  refine issued hi ?_
  rw [decide_eq_false (by omega : ¬ aadForm w ≤ 1)]
  exact ht

/-- FORM 0 adds into a slot of another ridge of its job, or into another open slot of its own. -/
theorem aadSlotBody_message (h : SourceFree s r (slotNo w)) (hform : aadForm w = 0) {j : Job} {q : Nat} (hjob : jobOn s r = some j)
    (hq : physRidge j (bits w 105 100) = some q)
    (htarget : q = r.val → (getSlot s r (bits w 99 94)).opened = true ∧ (getSlot s r (bits w 99 94)).closing = false ∧ bits w 99 94 ≠ slotNo w) :
    aadSlotBody r .job w s = .next (settleRidge (pushWin (setClosing s r (slotNo w) true) r { mkWin (getR s r) .job w .waitSlot with aux := q }) r) := by
  have hpin : (slotOf (getR s r) (slotNo w)).pin = false := h.unpinned
  have hown : (decide (q = r.val) && (!(slotOf (getR s r) (bits w 99 94)).opened || (slotOf (getR s r) (bits w 99 94)).closing ||
      decide (bits w 99 94 = slotNo w))) = false := by
    by_cases hqr : q = r.val
    · obtain ⟨hopened, hclosing, hne⟩ := htarget hqr
      unfold getSlot at hopened hclosing
      simp [hopened, hclosing, hne]
    · simp [hqr]
  simp only [aadSlotBody, h.unlocked, h.usable, hpin, hform, hjob, hq, hown, Bool.false_eq_true, if_false, if_true]

theorem aadSlotBody_memory (h : SourceFree s r (slotNo w)) (hform : aadForm w = 1) {j : Job} {ps : List Piece} (hjob : dvaJob s r x = some j)
    (hspace : maddrSpace (imageMaddr w) = true) (halign : maddrDva (imageMaddr w) % 256 = 0)
    (hps : ridgePlaces s j.part j r (maddrDva (imageMaddr w)) 6400 2 (ctxOf (getR s r) x).pc = .places ps) :
    aadSlotBody r x w s = aadImageGo s r x w [] := by
  have hpin : (slotOf (getR s r) (slotNo w)).pin = false := h.unpinned
  simp only [aadSlotBody, h.unlocked, h.usable, hpin, hform, hjob, hspace, halign, hps, ne_eq, not_true_eq_false, Nat.one_ne_zero, Bool.false_eq_true, if_false, if_true]

theorem aadSlotBody_loam (h : SourceFree s r (slotNo w)) (hform : aadForm w = 1) {j : Job} {o : LOp} (hjob : dvaJob s r x = some j)
    (hspace : maddrSpace (imageMaddr w) = false) (ho : laOp s r (maddrLaddr (imageMaddr w)) 6400 256 true = some o)
    (hfree : loamFree s r [] [rangeOf o 6400] = true) : aadSlotBody r x w s = aadImageGo s r x w [rangeOf o 6400] := by
  have hpin : (slotOf (getR s r) (slotNo w)).pin = false := h.unpinned
  simp only [aadSlotBody, h.unlocked, h.usable, hpin, hform, hjob, hspace, ho, hfree, Bool.not_true, Nat.one_ne_zero, Bool.false_eq_true, if_false]

/-- FORM 2 and 3 read their vector, and one atomic goes to each piece of a target that is accessible. -/
theorem aadVecBody_sends {j : Job} {o : LOp} {ws : List LRange} {l : List (Place × Nat)} {d : List Byte} (hjob : dvaJob s r x = some j)
    (ho : laOp s r (bits w 111 85) (4 * (bits w 35 20 + 1)) 4 false = some o) (hws : vecTarget s r (vecMaddr w) (4 * (bits w 35 20 + 1)) = some ws)
    (hfree : loamFree s r [rangeOf o (4 * (bits w 35 20 + 1))] ws = true) (hd : ldLoam s o (4 * (bits w 35 20 + 1)) = (d, false))
    (hl : maddrPlaces s r j (vecMaddr w) (4 * (bits w 35 20 + 1)) 2 (ctxOf (getR s r) x).pc = .found l) :
    aadVecBody r x w s = .next (vecAtomics (pushWin (markDirty s r) r
      { mkWin (getR s r) x w .memAtomic with writes := ws, parts := l.length, aux := 1 }) j r w (getR s r).nextId l d) := by
  simp only [aadVecBody, hjob, ho, hws, hfree, hd, hl, Bool.not_true, Bool.false_eq_true, if_false]
  rfl

end

/-- Settles O12, one lemma for each form's body: FORM 0, FORM 1 to memory and to Loam, and the vector forms. -/
theorem atomicAddsIssue : Obligations.AtomicAddsIssue := by
  unfold Obligations.AtomicAddsIssue
  intro s r x w hi
  refine ⟨fun hform hlocked hopened hclosing hpin => ?_, fun j o ws l d hform hjob ho hws hfree hd hl => aad_vector hi hform (aadVecBody_sends hjob ho hws hfree hd hl)⟩
  have h : SourceFree s r (slotNo w) := ⟨⟨hlocked, hopened, hclosing⟩, hpin⟩
  refine ⟨fun j q hzero hx hjob hq htarget => ?_, fun j ws hone hjob hplace => ?_⟩
  · subst hx
    exact aad_slot hi hform (aadSlotBody_message h hzero hjob hq htarget)
  · obtain ⟨hspace, halign, rfl, ps, hps⟩ | ⟨hspace, o, ho, hfree, rfl⟩ := hplace
    · exact aad_slot hi hform (aadSlotBody_memory h hone hjob hspace halign hps)
    · exact aad_slot hi hform (aadSlotBody_loam h hone hjob hspace ho hfree)

end Sys2Proof.Laws
end

section
/-!
SUPPORT. MEMORY_ATOMIC_APPLY (R171, R340): the row's answer by the place of its atomic, and the three ends of an atomic on this device's own memory.
-/

namespace Sys2Proof.Laws

open Sys2Proof.Machine

/-- The state with an atomic taken from the queue. -/
def atomTaken (s : State) (id : Nat) : State := { s with mem := { s.mem with atomics := s.mem.atomics.filter (fun v => v.id ≠ id) } }

section
variable {s : State} {m : MemAtomic} {old : List Byte} {put : State → List Byte → State} {loc unit addr : Nat}

/-! ### The ends of an atomic on the device's own memory -/

theorem atomLocal_adds (hr : (atomApply m.op old m.data).range = false) : atomLocal s m old false put loc unit addr =
    atomDone (atomSat (put s (atomApply m.op old m.data).data) m (atomApply m.op old m.data).sat) m.ridge m.win := by
  simp only [atomLocal, hr, Bool.false_eq_true, if_false]

theorem atomLocal_outOfRange (hr : (atomApply m.op old m.data).range = true) : atomLocal s m old false put loc unit addr = atomFault s m.ridge m.win 0x0B := by
  simp only [atomLocal, hr, Bool.false_eq_true, if_false, if_true]

theorem atomLocal_poisoned : atomLocal s m old true put loc unit addr =
    atomFault (raiseInteg s m.ridge 0x01 m.part loc unit 0xFF m.job addr 0) m.ridge m.win 0x11 := rfl

end

/-! ### The row by the atomic's place -/

section
variable {s : State} {id : Nat} {m : MemAtomic}

theorem memoryAtomicApply_loam (hm : s.mem.atomics.find? (fun m => m.id = id) = some m) {q o : Nat} (hp : m.place = .loam q o) :
    exec (.memoryAtomicApply id) s = .next (atomLocal (atomTaken s id) m (loamBytes (getR s q) q o m.data.length) (loamBad (getR s q) o m.data.length)
      (fun s d => updR s q (fun rd => loamPut rd o d (atomTag s m))) 0 q o) := by
  show execMemoryAtomicApply id s = _
  simp only [execMemoryAtomicApply, hm, hp]
  rfl

theorem memoryAtomicApply_local (hm : s.mem.atomics.find? (fun m => m.id = id) = some m) {a : Nat} (hp : m.place = .local a) :
    exec (.memoryAtomicApply id) s = .next (atomLocal (atomTaken s id) m (dramBytes s a m.data.length) (dramBad s a m.data.length)
      (fun s d => dramPut s a d) 2 (a / 4096 % 12) a) := by
  show execMemoryAtomicApply id s = _
  simp only [execMemoryAtomicApply, hm, hp]
  rfl

/-- An atomic on a peer's memory goes out as a request of a job that runs, where the peer may be reached. -/
theorem memoryAtomicApply_remote (hm : s.mem.atomics.find? (fun m => m.id = id) = some m) {dev off : Nat} (hp : m.place = .remote dev off) {j : Job} {t : State}
    (hj : findJob s m.part m.job = some j) (hlive : j.st ≠ .suspended) (hhere : j.st ≠ .saved) (hbar : remoteBar s m.part dev = none)
    (hsend : peerSend (atomTaken s id) j (mkReq 3 dev m.part m.job m.ridge m.win off (atomCode m.op) m.data m.dva) = some t) :
    exec (.memoryAtomicApply id) s = .next t := by
  have hstill : (decide (j.st = .suspended) || decide (j.st = .saved)) = false := by simp [hlive, hhere]
  unfold atomTaken at hsend
  show execMemoryAtomicApply id s = _
  simp only [execMemoryAtomicApply, hm, hp, hj, hstill, hbar, hsend, Option.getD_some, Bool.false_eq_true, if_false]

end

/-- Settles O14: each place of an atomic with each of its ends. -/
theorem memoryAtomicsApply : Obligations.MemoryAtomicsApply := by
  unfold Obligations.MemoryAtomicsApply
  intro s id m hm
  refine ⟨fun q o hp hgood hr => ?_, fun a hp hgood hr => ?_, fun hrange => ?_, fun q o hp hbad => ?_, fun a hp hbad => ?_,
    fun dev off j t hp hj hlive hhere hbar hsend => memoryAtomicApply_remote hm hp hj hlive hhere hbar hsend⟩
  · rw [memoryAtomicApply_loam hm hp, hgood, atomLocal_adds hr]
    rfl
  · rw [memoryAtomicApply_local hm hp, hgood, atomLocal_adds hr]
    rfl
  · obtain ⟨q, o, hp, hgood, hr⟩ | ⟨a, hp, hgood, hr⟩ := hrange
    · rw [memoryAtomicApply_loam hm hp, hgood, atomLocal_outOfRange hr]
      rfl
    · rw [memoryAtomicApply_local hm hp, hgood, atomLocal_outOfRange hr]
      rfl
  · rw [memoryAtomicApply_loam hm hp, hbad, atomLocal_poisoned]
    rfl
  · rw [memoryAtomicApply_local hm hp, hbad, atomLocal_poisoned]
    rfl

end Sys2Proof.Laws
end

section
/-!
SUPPORT. What issuing does to the window (R180), and NOP and HALT (R189, R206): the entries of a context after an issue, and the end of the ridge's part of a job.
-/

namespace Sys2Proof.Laws

open Sys2Proof.Machine Sys2Proof.Safety

/-- Settles O1: the frame, the index and the window number of an advance, with an entry pushed before it or none, each kept by the settling that follows. -/
theorem issuingMovesTheContextOn : Obligations.IssuingMovesTheContextOn := by
  unfold Obligations.IssuingMovesTheContextOn
  intro s r x e
  refine ⟨⟨frame_settle x (frame_advance s r x), ?_, ?_⟩, ⟨frame_settle x (frame_push s r x e), ?_, ?_⟩⟩
  · rw [pc_settle, pc_advance]
  · rw [nextId_settle, nextId_advance]
  · rw [pc_settle, pc_advance, pc_push]
  · rw [nextId_settle, nextId_push]

/-! ### The window of a context after an issue (R180) -/

@[simp] theorem win_pushWin (s : State) (r : Nat) (e : Win) : (getR (pushWin s r e) r).win = (getR s r).win ++ [e] := by
  simp [pushWin]

@[simp] theorem win_advance (s : State) (r : Nat) (x : Ctx) : (getR (advance s r x) r).win = (getR s r).win := by
  cases x <;> simp [advance, setCtx]

theorem ctxWin_advance (s : State) (r : Nat) (x y : Ctx) : ctxWin (getR (advance s r x) r) y = ctxWin (getR s r) y := by
  unfold ctxWin
  rw [win_advance]

theorem ctxWin_pushWin (s : State) (r : Nat) (e : Win) {x : Ctx} (hctx : e.ctx = x) (hstream : insertedProbe e = false) :
    ctxWin (getR (pushWin s r e) r) x = ctxWin (getR s r) x ++ [e] := by
  simp [ctxWin, hctx, hstream]

/-! ### NOP and HALT (R189, R206, R243) -/

section
variable {s : State} {r : Ridge} {w : W128}

theorem nop_next {x : Ctx} (hi : issuable s r x w 0x00 = true) : exec (.nop r x w) s = .next (settleCtx (advance s r x) r x) := by
  show execNop r x w s = _
  exact issued hi rfl

theorem halt_next {x : Ctx} (hi : issuable s r x w 0x01 = true) :
    exec (.halt r x w) s = .next (settleCtx (advance (pushWin s r (mkWin (getR s r) x w .halt)) r x) r x) := by
  show execHalt r x w s = _
  exact issued hi rfl

end

/-- A HALT with nothing before it ends the ridge's part of the job with its CODE. -/
theorem settleCtx_halt {s : State} {r : Nat} {e : Win} {l : List Win} (hwin : ctxWin (getR s r) .job = e :: l) (hkind : e.kind = .halt) :
    settleCtx s r .job = endPart (dropWin s r e.id) r (BitVec.ofNat 32 (bits e.w 111 80)) := by
  unfold settleCtx settleCtxAux
  simp [hwin, hkind]

/-- Settles O2: NOP, HALT, and the HALT that is first in its context and therefore settles at once. -/
theorem nopAndHaltIssue : Obligations.NopAndHaltIssue := by
  unfold Obligations.NopAndHaltIssue
  refine ⟨fun s r x w => ⟨nop_next, halt_next⟩, fun s r w hi hempty => ⟨_, halt_next hi, ?_⟩⟩
  have hwin : ctxWin (getR (advance (pushWin s r (mkWin (getR s r) .job w .halt)) r .job) r) .job = [mkWin (getR s r) .job w .halt] := by
    rw [ctxWin_advance, ctxWin_pushWin s r _ (x := .job) rfl rfl, hempty]
    rfl
  rw [settleCtx_halt hwin rfl]
  exact endPart_fields ..

end Sys2Proof.Laws
end

section
/-!
SUPPORT. VLD and its completion (R181, R189 to R191, R245), and the matrix products at issue (R180, R192, R368).
-/

namespace Sys2Proof.Laws

open Sys2Proof.Machine Sys2Proof.Safety

section
variable {s : State} {r : Ridge} {x : Ctx} {w : W128}

/-! ### VLD (R181, R190, R191) -/

/-- A VLD whose feed takes its vector, whose operands are accessible and free, and which no RING prefetcher holds back. -/
structure VldFree (s : State) (r : Ridge) (w : W128) (fs : List Seg) (o : LOp) (l : Option LOp) : Prop where
  feed : feedSegs (getR s r).feed (getR s r).segs (vldFeed w) = some fs
  fits : feedFits fs (vldLen w) = true
  blocks : fmtMX (vldFmt w) = true → vldLen w % 32 = 0
  reads : vldReads s r w = some (o, l)
  free : loamFree s r (vldRanges s w o l) [] = true
  ring : o.ridge = r.val → ringFault (getR s r) o.off = none ∧ ringWait (getR s r) o.off = false

/-- Its vector has a shape that the feed and the format admit. -/
theorem VldFree.shaped {fs : List Seg} {o : LOp} {l : Option LOp} (h : VldFree s r w fs o l) :
    (!feedFits fs (vldLen w) || (fmtMX (vldFmt w) && decide (vldLen w % 32 ≠ 0))) = false := by
  cases hmx : fmtMX (vldFmt w) with
  | false => simp [h.fits]
  | true => simp [h.fits, h.blocks hmx]

theorem VldFree.unfaulted {fs : List Seg} {o : LOp} {l : Option LOp} (h : VldFree s r w fs o l) :
    (decide (o.ridge = r.val) && (ringFault (getR s r) o.off).isSome) = false := by
  by_cases hown : o.ridge = r.val
  · simp [(h.ring hown).1]
  · simp [hown]

theorem VldFree.unwaited {fs : List Seg} {o : LOp} {l : Option LOp} (h : VldFree s r w fs o l) :
    (decide (o.ridge = r.val) && ringWait (getR s r) o.off) = false := by
  by_cases hown : o.ridge = r.val
  · simp [(h.ring hown).2]
  · simp [hown]

theorem vld_next (hi : issuable s r x w 0x08 = true) {fs : List Seg} {o : LOp} {l : Option LOp} (h : VldFree s r w fs o l) :
    exec (.vld r x w) s =
      .next (settleCtx (advance (pushWin s r { mkWin (getR s r) x w .vld with reads := vldRanges s w o l, aux := vldFeed w }) r x) r x) := by
  show execVld r x w s = _
  refine issued hi ?_
  simp only [h.feed, h.shaped, h.reads, h.free, h.unfaulted, h.unwaited, Bool.not_true, Bool.false_eq_true, if_false]
  rfl

theorem vldComplete_buffers {id : Nat} {e : Win} {o : LOp} {bufs : List (Nat × InBuf)} (hfound : findWin s r id = some e)
    (hend : vldEnd s r e = some (.buffers o bufs)) : exec (.vldComplete r id) s = .next (retire (vldEffect s r o bufs) r id) := by
  show execVldComplete r id s = _
  simp only [execVldComplete, hfound, hend]

/-! ### MVM and MVMS (R180, R192, R368) -/

theorem mvmBody_issues (hserve : (mvmPositions w).all (fun p => serviceable s r x p) = true) (hopened : (getSlot s r (mvmSlot w)).opened = true)
    (haccepts : (getSlot s r (mvmSlot w)).closing = false) (hfree : mvmFree s r x w = true) : mvmBody r x w s = .next (mvmIssue s r x w) := by
  have hunlocked : ((mvmPositions w).any (fun p => lockedClaim s (1, r, p)) || lockedClaim s (4, r, mvmSlot w)) = false := by
    simp only [mvmFree, Bool.and_eq_true, Bool.not_eq_true'] at hfree
    exact hfree.1.1
  have hserved : (mvmPositions w).any (fun p => !serviceable s r x p) = false := by
    rw [← Bool.not_eq_true', ← List.all_eq_not_any_not]
    exact hserve
  unfold getSlot at hopened haccepts
  simp only [mvmBody, hunlocked, hserved, hopened, haccepts, hfree, Bool.not_true, Bool.or_self, Bool.false_eq_true, if_false]

end

/-- The window entry of a product (R180, R368): the lanes of the positions it names, under the epoch of its issue. -/
def mvmWin (s : State) (r : Nat) (x : Ctx) (w : W128) : Win :=
  { mkWin (getR s r) x w .mvm with lanes := (mvmPositions w).map (laneOf (getR s r)), stamp := epochNow s }

/-- After its entry, a product counts its lanes and enters the job's summary, neither of which touches the window. -/
theorem mvmIssue_window (s : State) (r : Nat) (x : Ctx) (w : W128) :
    (getR (mvmIssue s r x w) r).win = (getR s r).win ++ [mvmWin s r x w] ∧ (getR (mvmIssue s r x w) r).nextId = (getR s r).nextId + 1 := by
  obtain ⟨hwin, hid⟩ := foldl_countFired r ((mvmPositions w).map (laneOf (getR s r))) (pushWin s r (mvmWin s r x w))
  have hridge : getR (mvmIssue s r x w) r =
      getR (((mvmPositions w).map (laneOf (getR s r))).foldl (fun s l => countFired s r l) (pushWin s r (mvmWin s r x w))) r := by
    unfold mvmIssue
    cases x with
    | service => rfl
    | job =>
      dsimp only
      split
      · split <;> rfl
      · rfl
  rw [hridge, hwin, hid, win_pushWin]
  exact ⟨rfl, by simp [pushWin]⟩

theorem lanes_mvmWin (s : State) (r : Nat) (x : Ctx) (w : W128) : (mvmWin s r x w).lanes.map (fun l => l.pos) = mvmPositions w := by
  simp [mvmWin, laneOf, Function.comp_def]

/-- Settles O3: VLD at issue and at its completion. -/
theorem vectorLoadIssuesAndCompletes : Obligations.VectorLoadIssuesAndCompletes := by
  unfold Obligations.VectorLoadIssuesAndCompletes
  exact ⟨fun s r x w fs o l hi hfeed hfits hblocks hreads hfree hring => vld_next hi ⟨hfeed, hfits, hblocks, hreads, hfree, hring⟩,
    fun s r id e o bufs => vldComplete_buffers⟩

/-- Settles O4: the body that both products share, and the entry that it leaves in the window. -/
theorem matrixProductsIssue : Obligations.MatrixProductsIssue := by
  unfold Obligations.MatrixProductsIssue
  refine ⟨fun s r x w hserve hopened haccepts hfree => ?_, fun s r x w => ?_⟩
  · have hbody := mvmBody_issues hserve hopened haccepts hfree
    exact ⟨fun hi => issued hi hbody, fun hi => issued hi hbody⟩
  · obtain ⟨hwin, hid⟩ := mvmIssue_window s r x w
    exact ⟨_, hwin, rfl, rfl, rfl, rfl, lanes_mvmWin s r x w, hid⟩

end Sys2Proof.Laws
end

section
/-!
SUPPORT. DMM, VOP and RED (R174, R197, R201, R204): each writes its result at issue, and a result that is written without a failing CDU changes no byte outside its ranges.
-/

namespace Sys2Proof.Laws

open Sys2Proof.Machine Sys2Proof.Safety

/-! ### At issue (R174, R197, R201, R204) -/

section
variable {s : State} {r : Ridge} {x : Ctx} {w : W128} {t : State}

/-- A DMM on a legal descriptor, whose operands a, b and c are accessible, free and not poisoned: their bytes ab, b and cb, with B's tags bt and the ranges br that B covers. -/
structure DmmReads (s : State) (r : Ridge) (x : Ctx) (w : W128) (d : DmuDesc) (a c : LOp) (ab b cb : List Byte) (bt : List W32) (br : List LRange) : Prop where
  legal : dmuOk d (bitAt w 118) = true
  opA : laOp s r (bits w 102 76) (spanA d) (fmtAlign d.fa) false = some a
  opC : laOp s r (bits w 75 49) (spanC d) (fmtAlign d.fc) true = some c
  opB : dmmB s r x w d = .ok b false bt br
  free : loamFree s r ([rangeOf a (spanA d)] ++ br) [rangeOf c (spanC d)] = true
  bytesA : ldLoam s a (spanA d) = (ab, false)
  bytesC : (if bitAt w 118 then ldLoam s c (spanC d) else ([], false)) = (cb, false)

theorem dmm_next (hi : issuable s r x w 0x20 = true) {a c : LOp} {ab b cb : List Byte} {bt : List W32} {br : List LRange}
    (h : DmmReads s r x w (dmuAt (getR s r) w) a c ab b cb bt br) {y : List (LOp × List Byte) × W32 × Nat}
    (hy : dmmResult s (dmuAt (getR s r) w) (bitAt w 118) a c ab b cb bt = y) (ht : dmuWrite (dmmBase s r x) r x y.1 y.2.1 y.2.2 = .next t) :
    exec (.dmm r x w) s = .next (settleCtx (advance t r x) r x) := by
  show execDmm r x w s = _
  refine issued hi ?_
  simp only [h.legal, h.opA, h.opC, h.opB, h.free, h.bytesA, h.bytesC, hy, Bool.not_true, Bool.or_self, Bool.false_eq_true, if_false]
  exact ht

/-- A VOP whose operands are accessible, free and not poisoned, and whose SOFTMAX rows divide its length. -/
structure VopReads (s : State) (r : Ridge) (w : W128) (a : LOp) (b : Option LOp) (c : LOp) : Prop where
  opA : laOp s r (bits w 107 81) (vecBytes (vopF w) (vopLen w)) (fmtAlign (vopF w)) false = some a
  opB : vopB s r w = some b
  opC : laOp s r (bits w 53 27) (vecBytes (vopOut w) (vopLen w)) (fmtAlign (vopOut w)) true = some c
  rows : vopOp w = 7 → vopLen w % (bits w 69 54 + 1) = 0
  free : loamFree s r (vopReads w a b) [rangeOf c (vecBytes (vopOut w) (vopLen w))] = true
  goodA : (ldLoam s a (vecBytes (vopF w) (vopLen w))).2 = false
  goodB : (vopBytesB s w b).2 = false

theorem VopReads.shaped {a c : LOp} {b : Option LOp} (h : VopReads s r w a b c) :
    (decide (vopOp w = 7) && decide (vopLen w % (bits w 69 54 + 1) ≠ 0)) = false := by
  by_cases hsoft : vopOp w = 7
  · simp [h.rows hsoft]
  · simp [hsoft]

theorem vop_next (hi : issuable s r x w 0x21 = true) {a c : LOp} {b : Option LOp} (h : VopReads s r w a b c) {cs : List (Nat × Bool)} {tags : List W32}
    (hcodes : vopCodes s r w (ldLoam s a (vecBytes (vopF w) (vopLen w))).1 (vopBytesB s w b).1 = .ok (cs, tags))
    (ht : dmuWrite s r x [(c, packCodes (vopOut w) (cs.map (fun e => e.1)))] (vopTag s w a b tags) (cs.filter (fun e => e.2)).length = .next t) :
    exec (.vop r x w) s = .next (settleCtx (advance t r x) r x) := by
  show execVop r x w s = _
  refine issued hi ?_
  simp only [h.opA, h.opB, h.opC, h.shaped, h.free, h.goodA, h.goodB, hcodes, Bool.not_true, Bool.or_self, Bool.false_eq_true, if_false]
  exact ht

theorem red_next (hi : issuable s r x w 0x22 = true) {a c : LOp} {rows : List (List Byte × Nat)} (ha : redSrc s r w = some a) (hc : redDst s r w = some c)
    (hfree : loamFree s r [rangeOf a (redSrcLen w)] [rangeOf c (redDstLen w)] = true) (hgood : (ldLoam s a (redSrcLen w)).2 = false)
    (hrows : redOut w (ldLoam s a (redSrcLen w)).1 = some rows)
    (ht : dmuWrite s r x [(c, rows.flatMap (fun y => y.1))] (mergeTags s (opTags s a (redSrcLen w))) ((rows.map (fun y => y.2)).foldl (· + ·) 0) = .next t) :
    exec (.red r x w) s = .next (settleCtx (advance t r x) r x) := by
  show execRed r x w s = _
  refine issued hi ?_
  simp only [ha, hc, hfree, hgood, hrows, Bool.not_true, Bool.false_eq_true, if_false]
  exact ht

end

/-! ### The frame of a result (R235) -/

/-- Writes a list of results in turn, and notes whether a CDU failed. -/
def storeAll (r : Nat) (tag : W32) (acc : State × Bool) (l : List (LOp × List Byte)) : State × Bool :=
  l.foldl (fun (acc : State × Bool) w => ((stLoam acc.1 r w.1 w.2 tag).1, acc.2 || (stLoam acc.1 r w.1 w.2 tag).2)) acc

/-- A result is written when none of its CDUs fails, on the state that has counted its saturations. -/
theorem dmuWrite_next {s : State} {r : Nat} {x : Ctx} {l : List (LOp × List Byte)} {tag : W32} {n : Nat} {t : State} (h : dmuWrite s r x l tag n = .next t) :
    (storeAll r tag (addOutsat s r x n, false) l).2 = false ∧ t = (storeAll r tag (addOutsat s r x n, false) l).1 := by
  have hw : dmuWrite s r x l tag n = if (storeAll r tag (addOutsat s r x n, false) l).2
      then .stay (faultAt (storeAll r tag (addOutsat s r x n, false) l).1 r x 0x11 (ctxOf (getR s r) x).pc)
      else .next (storeAll r tag (addOutsat s r x n, false) l).1 := rfl
  rw [hw] at h
  split at h
  · cases h
  · next hgood => exact ⟨Bool.eq_false_iff.mpr hgood, (Iss.next.inj h).symm⟩

theorem loamByte_dmuWrite {s : State} {r : Nat} {x : Ctx} {l : List (LOp × List Byte)} {tag : W32} {n : Nat} {t : State} (h : dmuWrite s r x l tag n = .next t)
    {q a : Nat} (ho : Outside l q a) : loamByte (getR t q) q a = loamByte (getR s q) q a := by
  obtain ⟨hgood, rfl⟩ := dmuWrite_next h
  rw [← getR_addOutsat s r x n q]
  exact stLoams r tag q a l _ hgood ho

theorem dmuWrite_state {s : State} {r : Nat} {x : Ctx} {l : List (LOp × List Byte)} {tag : W32} {n : Nat} {t : State} (h : dmuWrite s r x l tag n = .next t) :
    t = { s with ridges := t.ridges, jobs := t.jobs } := by
  obtain ⟨hgood, ht⟩ := dmuWrite_next h
  have hstores : t = { addOutsat s r x n with ridges := t.ridges } := by
    rw [ht]
    exact stLoams_state r tag l _ hgood
  rw [hstores, addOutsat_state]

/-- Settles O15: the three units at issue, and the frame of their writes, which issuing and settling keep. -/
theorem vectorUnitsIssueAndComplete : Obligations.VectorUnitsIssueAndComplete := by
  unfold Obligations.VectorUnitsIssueAndComplete
  refine ⟨fun s r x w => ⟨fun hi => ?_, fun hi => ?_, fun hi a c rows t ha hc hfree hgood hrows ht => red_next hi ha hc hfree hgood hrows ht⟩,
    fun s r x l tag n t ht => ?_⟩
  · intro d acc a c b bt br ab cb t hlegal ha hc hb hfree hab hcb ht
    exact dmm_next hi ⟨hlegal, ha, hc, hb, hfree, hab, hcb⟩ rfl ht
  · intro a b c cs tags t ha hb hc hrows hfree hgoodA hgoodB hcodes ht
    exact vop_next hi ⟨ha, hb, hc, hrows, hfree, hgoodA, hgoodB⟩ hcodes ht
  · have hframe : IssueFrame r t (settleCtx (advance t r x) r x) := frame_settle x (frame_advance t r x)
    refine ⟨fun q a ho => (frame_loam hframe q a).trans (loamByte_dmuWrite ht ho), ?_⟩
    have hissue := hframe.state
    rw [dmuWrite_state ht] at hissue
    rw [dmuWrite_state ht]
    exact hissue

end Sys2Proof.Laws
end

section
/-!
SUPPORT. DMA at issue (R205, R255 to R257): the body that COPY, INVAL and FILL share.
-/

namespace Sys2Proof.Laws

open Sys2Proof.Machine Sys2Proof.Safety

/-- A legal descriptor whose endpoints are accessible over the ranges rs and ws, with room at the cluster's engine and both ranges free. -/
structure DmaFree (s : State) (r : Ridge) (x : Ctx) (w : W128) (d : DmaDesc) (rs ws : List LRange) : Prop where
  legal : dmaBad d = false
  source : endpointOk s r (ctxJob s r x) d.sk (endpoint w d.sk d.src) d.ss d.rows d.rowBytes false = some rs
  target : endpointOk s r (ctxJob s r x) d.dk (endpoint w d.dk d.dst) d.ds d.rows d.rowBytes true = some ws
  room : ((getDma s (clusterOf r)).filter (fun e => e.ridge = r.val)).length < 128
  free : loamFree s r rs ws = true

/-- The state with the descriptor in flight at its cluster, and its window entry. -/
def dmaIssued (s : State) (r : Ridge) (x : Ctx) (w : W128) (d : DmaDesc) (rs ws : List LRange) : State :=
  pushWin (setDma { s with mem := { s.mem with next := s.mem.next + 1 } } (clusterOf r)
    (getDma s (clusterOf r) ++ [dmaNew s r x w d.op d (endpoint w d.sk d.src).toNat (endpoint w d.dk d.dst).toNat]))
    r { mkWin (getR s r) x w .dma with reads := rs, writes := ws }

theorem dmaBody_issues {s : State} {r : Ridge} {x : Ctx} {w : W128} {rs ws : List LRange} {op : Nat} (h : DmaFree s r x w (dmaAt (getR s r) w) rs ws)
    (hop : (dmaAt (getR s r) w).op = op) : dmaBody op r x w s = .next (dmaIssued s r x w (dmaAt (getR s r) w) rs ws) := by
  have hroom : (decide (128 ≤ ((getDma s (clusterOf r)).filter (fun e => e.ridge = r.val)).length) || !loamFree s r rs ws) = false := by
    rw [decide_eq_false (Nat.not_le.mpr h.room), h.free]
    rfl
  subst hop
  simp only [dmaBody, h.legal, h.source, h.target, hroom, ne_eq, not_true_eq_false, decide_false, Bool.false_and, Bool.false_eq_true, if_false]
  rfl

/-- Settles O16, by the one body of the three operations. -/
theorem dmaDescriptorsIssue : Obligations.DmaDescriptorsIssue := by
  unfold Obligations.DmaDescriptorsIssue
  intro s r x w rs ws hi d src dst hlegal hsource htarget hroom hfree
  have h : DmaFree s r x w d rs ws := ⟨hlegal, hsource, htarget, hroom, hfree⟩
  exact ⟨fun hop => issued hi (dmaBody_issues h hop), fun hop => issued hi (dmaBody_issues h hop), fun hop => issued hi (dmaBody_issues h hop)⟩

end Sys2Proof.Laws
end

section
/-!
SUPPORT. WAIT and its release (R185).
-/

namespace Sys2Proof.Laws

open Sys2Proof.Machine Sys2Proof.Safety

/-! ### The condition (R185) -/

/-- Bit 31 of a 32-bit word is clear exactly when the word is below 2^31. -/
theorem bitAt_31_eq_false_iff (v : W32) : bitAt v 31 = false ↔ v.toNat < 2 ^ 31 := by
  have hmsb : bitAt v 31 = v.msb := (BitVec.msb_eq_getLsbD_last v).symm
  rw [hmsb, BitVec.msb_eq_decide, decide_eq_false_iff_not, Nat.not_le]

theorem waitMet_iff (rd : RidgeSt) (w : W128) : waitMet rd w = true ↔
    if waitMode w = 1 then tget 0 rd.cnt (waitCnt w) = waitThresh w else (tget 0 rd.cnt (waitCnt w) - waitThresh w).toNat < 2 ^ 31 := by
  unfold waitMet
  by_cases hmode : waitMode w = 1
  · simp only [hmode, if_true, decide_eq_true_eq]
  · simp only [hmode, if_false, Bool.not_eq_true', bitAt_31_eq_false_iff]

/-! ### At issue (R11, R185) -/

section
variable {s : State} {r : Ridge} {x : Ctx} {w : W128}

theorem wait_met (hi : issuable s r x w 0x30 = true) (hmet : waitMet (getR s r) w = true) :
    exec (.wait r x w) s = .next (settleCtx (advance (waitTake s r w) r x) r x) := by
  show execWait r x w s = _
  exact issued hi (if_pos hmet)

theorem wait_holds (hi : issuable s r x w 0x30 = true) (hmet : waitMet (getR s r) w = false) :
    exec (.wait r x w) s = .next (settleCtx (advance (updCtx s r x (fun c => { c with waiting := some w })) r x) r x) := by
  show execWait r x w s = _
  exact issued hi (if_neg (Bool.eq_false_iff.mp hmet))

/-- Mode 3 is a reserved code, found before anything that the open rope could object to. -/
theorem issueFault_wait_reserved (s : State) (r : Nat) (x : Ctx) (hop : opOf w = 0x30) (hmode : waitMode w = 3) : issueFault s r x w = some 0x01 := by
  have hreserved : reservedBad (x = .job) w = true := by
    unfold waitMode at hmode
    simp [reservedBad, hop, hmode]
  simp [issueFault, hop, hreserved]

theorem wait_reserved (hop : opOf w = 0x30) (hcan : canIssue s r x w = true) (hmode : waitMode w = 3) :
    exec (.wait r x w) s = .next (faultAt s r x 0x01 (ctxOf (getR s r) x).pc) := by
  show execWait r x w s = _
  exact issue_fault s r x w 0x30 0x01 _ hop hcan (issueFault_wait_reserved s r x hop hmode)

end

/-! ### The hold and its release (R185) -/

theorem canIssue_waiting {s : State} {r : Nat} {x : Ctx} {w : W128} (v : W128) (h : (ctxOf (getR s r) x).waiting = some w) : canIssue s r x v = false := by
  simp [canIssue, h]

theorem waitSatisfied_next {s : State} {r : Ridge} {x : Ctx} {w : W128} (hw : (ctxOf (getR s r) x).waiting = some w) (hmet : waitMet (getR s r) w = true)
    (hlive : ctxLive s r x = true) : exec (.waitSatisfied r x) s = .next (updCtx (waitTake s r w) r x (fun c => { c with waiting := none })) := by
  show execWaitSatisfied r x s = _
  simp only [execWaitSatisfied, hw, hmet, hlive, Bool.and_self, if_true]

theorem cnt_updCtx (s : State) (r : Nat) (x : Ctx) (f : CtxSt → CtxSt) : (getR (updCtx s r x f) r).cnt = (getR s r).cnt := by
  cases x <;> simp [setCtx]

theorem cnt_waitTake (s : State) (r : Nat) (w : W128) : tget 0 (getR (waitTake s r w) r).cnt (waitCnt w) =
    if waitMode w = 2 then tget 0 (getR s r).cnt (waitCnt w) - waitThresh w else tget 0 (getR s r).cnt (waitCnt w) := by
  unfold waitTake
  split <;> simp

/-- Settles O21: a WAIT at issue by its condition and its mode, the hold of its context, the release, and the condition itself. -/
theorem waitsHoldAndRelease : Obligations.WaitsHoldAndRelease := by
  unfold Obligations.WaitsHoldAndRelease
  refine ⟨fun s r x w hi => ⟨wait_met hi, wait_holds hi⟩, fun s r x w => wait_reserved, fun s r x w v => canIssue_waiting v,
    fun s r x w hw hmet hlive => ⟨_, waitSatisfied_next hw hmet hlive, ?_, ?_⟩, waitMet_iff⟩
  · rw [getR_updCtx_self, ctxOf_setCtx_self]
  · rw [cnt_updCtx, cnt_waitTake]

end Sys2Proof.Laws
end

section
/-!
SUPPORT. Cairns (R209, R210, R285, R374): the copy that CRN writes, the rope that CAIRN_COMMIT stages, and the exchange of the halves.
-/

namespace Sys2Proof.Laws

open Sys2Proof.Machine Sys2Proof.Safety

/-! ### CRN (R209, R374) -/

/-- A CRN with nothing before it and no slot open, of an entry c of the cairn table of its job's program, whose live regions hold no poison. -/
structure CrnFree (s : State) (r : Ridge) (x : Ctx) (w : W128) (j : Job) (g : ProgRidge) (k : Nat) (pg : Prog) (c : CairnDef) : Prop where
  jobIdle : ctxWin (getR s r) .job = []
  idle : ctxWin (getR s r) x = []
  closed : (getR s r).slots.any (fun k => k.2.opened) = false
  job : jobOn s r = some j
  image : progPart s j r = some g
  ridge : progRidge j r = some k
  prog : findProg s j.part j.prog = some pg
  entry : pg.cairns.find? (fun c => c.id = bits w 111 96 && c.ridge = k) = some c
  good : (cairnRegions g c.live).any (fun v => loamBad (getR s r) v.2.off v.2.size) = false

theorem crn_next {s : State} {r : Ridge} {x : Ctx} {w : W128} {j : Job} {g : ProgRidge} {k : Nat} {pg : Prog} {c : CairnDef} (hi : issuable s r x w 0x32 = true)
    (h : CrnFree s r x w j g k pg c) : exec (.crn r x w) s = .next (settleCtx (advance (updJob s j.part j.id (fun v =>
      setCold v (addCopy (coldHalf v) c.id (cairnCopy s j k r g c.live ((ctxOf (getR s r) x).pc + 1))))) r x) r x) := by
  show execCrn r x w s = _
  refine issued hi ?_
  simp only [h.jobIdle, h.idle, h.closed, h.job, h.image, h.ridge, h.prog, h.entry, h.good, List.isEmpty_nil, Bool.not_true, Bool.or_self, Bool.false_eq_true, if_false]

/-! ### CAIRN_COMMIT (R210, R285) -/

theorem cairnCommit_next {s : State} {p : PartNo} {id : W32} {j : Job} (hj : findJob s p id = some j) (hready : cairnReady s j = true)
    (hfw : s.cmc.fw = .running) (hclaim : claimed s (7, p.val, id.toNat) = false) (hrun : j.st = .running) :
    exec (.cairnCommit p id) s = .next (serviceRope s [p.val] id (.cairn p id) [.cairnCommit p id]) := by
  show execCairnCommit p id s = _
  simp only [execCairnCommit, hj, hready, hfw, hclaim, hrun, decide_true, Bool.not_false, Bool.and_self, if_true]

/-! ### The two halves -/

@[simp] theorem liveHalf_setCold (j : Job) (h : CairnHalf) : liveHalf (setCold j h) = liveHalf j := by
  cases hb : j.liveIsB <;> simp [setCold, liveHalf, hb]

/-- The exchange makes the half that was written the live one, valid, and the half that was live the next to be written. -/
theorem liveHalf_cairnValid (j : Job) : liveHalf (cairnValid j) = { coldHalf j with valid := true, dirtySince := false } := by
  cases hb : j.liveIsB <;> simp [cairnValid, setCold, liveHalf, coldHalf, hb]

theorem coldHalf_cairnValid (j : Job) : coldHalf (cairnValid j) = liveHalf j := by
  cases hb : j.liveIsB <;> simp [cairnValid, setCold, liveHalf, coldHalf, hb]

/-- Settles O23: the copy, the rope and the exchange. -/
theorem cairnsAreWrittenThenCommitted : Obligations.CairnsAreWrittenThenCommitted := by
  unfold Obligations.CairnsAreWrittenThenCommitted
  refine ⟨fun s r x w j g k pg c hi hjobIdle hidle hclosed hjob himage hridge hprog hentry hgood => ?_, fun s p id j => cairnCommit_next, fun j h => ?_⟩
  · exact crn_next hi ⟨hjobIdle, hidle, hclosed, hjob, himage, hridge, hprog, hentry, hgood⟩
  · rw [liveHalf_cairnValid]
    exact ⟨liveHalf_setCold j h, rfl, rfl, rfl, coldHalf_cairnValid j⟩

end Sys2Proof.Laws
end

section
/-!
SUPPORT. PRB, SRV and PROBE_INSERT (R207, R208, R368): a probe enters the window, a survey starts.
-/

namespace Sys2Proof.Laws

open Sys2Proof.Machine Sys2Proof.Safety

section
variable {s : State} {r : Ridge} {x : Ctx} {w : W128}

/-! ### PRB and SRV (R208) -/

theorem prb_next (hi : issuable s r x w 0x38 = true) {g : Golden} (hg : goldenOf s r (bits w 111 107) = some g) (hrecord : bits w 106 104 < g.probes.length)
    (hengine : engineOn (getR s r) (physOf (getR s r) (bits w 111 107)) = false) (hpos : lockedClaim s (1, r.val, bits w 111 107) = false)
    (htile : lockedClaim s (3, r.val, physOf (getR s r) (bits w 111 107)) = false) :
    exec (.prb r x w) s = .next (settleCtx (advance (startProbe s r x w (bits w 111 107) g (bits w 106 104)) r x) r x) := by
  show execPrb r x w s = _
  refine issued hi ?_
  have hnamed : decide (g.probes.length ≤ bits w 106 104) = false := decide_eq_false (Nat.not_le.mpr hrecord)
  simp only [hg, hnamed, hengine, hpos, htile, Bool.or_self, Bool.false_eq_true, if_false]

theorem srv_next (hi : issuable s r x w 0x39 = true) (hengine : engineOn (getR s r) (bits w 111 106) = false)
    (hidle : (getTile s r (bits w 111 106)).survey = none) (htile : lockedClaim s (3, r.val, bits w 111 106) = false) :
    exec (.srv r x w) s = .next (settleCtx (advance (startSurvey s r (bits w 111 106) w) r x) r x) := by
  show execSrv r x w s = _
  refine issued hi ?_
  simp [hengine, hidle, htile]

end

/-! ### PROBE_INSERT (R207) -/

/-- A position with records whose probe is due and whose use comes next, on a ridge that is free to run it. -/
structure InsertsProbe (s : State) (r : Ridge) (p : Pos) (g : Golden) : Prop where
  golden : goldenOf s r p = some g
  records : g.probes ≠ []
  needed : probeNeeded s r p = true
  next : nextNames s r p = true ∨ (posOf (getR s r) p).probeDue = true
  unheld : held s r = false
  up : ridgeUp s r = true
  noTest : (getR s r).test.running = false
  runs : (getR s r).jobCtx.run = true ∨ (posOf (getR s r) p).probeDue = true
  noEngine : engineOn (getR s r) (physOf (getR s r) p) = false
  room : (getR s r).win.length < 1024
  clean : (tileOf (getR s r) (physOf (getR s r) p)).jr.state = .clean
  unlocked : lockedClaim s (1, r.val, p.val) = false

/-- The record that an inserted probe of the position takes. -/
def insertedRecord (s : State) (r p : Nat) (g : Golden) : Nat := (posOf (getR s r) p).nextRec % g.probes.length

/-- The position after its probe is inserted: its count begins again, and the next record is next. -/
def probeTaken (s : State) (r p : Nat) (g : Golden) : State :=
  updPos s r p (fun q => { q with fired := 0, nextRec := (insertedRecord s r p g + 1) % g.probes.length, probeDue := false })

theorem probeInsert_next {s : State} {r : Ridge} {p : Pos} {g : Golden} (h : InsertsProbe s r p g) :
    exec (.probeInsert r p) s = .next (startProbe (probeTaken s r p g) r .job 0 p g (insertedRecord s r p g)) := by
  have hnext : (nextNames s r p || (posOf (getR s r) p).probeDue) = true := Bool.or_eq_true_iff.mpr h.next
  have hruns : ((getR s r).jobCtx.run || (posOf (getR s r) p).probeDue) = true := Bool.or_eq_true_iff.mpr h.runs
  have hrecords : g.probes.isEmpty = false := List.isEmpty_eq_false_iff.mpr h.records
  show execProbeInsert r p s = _
  simp only [execProbeInsert, h.golden, h.needed, hnext, h.unheld, h.up, h.noTest, hruns, h.noEngine, h.room, hrecords, h.clean, h.unlocked, decide_true,
    Bool.not_false, Bool.not_true, Bool.and_self, Bool.or_self, ne_eq, not_true_eq_false, decide_false, Bool.false_eq_true, if_false]
  rfl

/-- A probe's window entry: the lane of its record, under the epoch of its issue. -/
def probeWin (s : State) (r : Nat) (x : Ctx) (w : W128) (p : Nat) (g : Golden) (k : Nat) : Win :=
  { mkWin (getR s r) x w .probe with lanes := [probeLane (getR s r) p g k], stamp := epochNow s, aux := k }

theorem win_startProbe (s : State) (r : Nat) (x : Ctx) (w : W128) (p : Nat) (g : Golden) (k : Nat) :
    (getR (startProbe s r x w p g k) r).win = (getR s r).win ++ [probeWin s r x w p g k] := win_pushWin ..

theorem pos_startProbe (s : State) (r : Nat) (x : Ctx) (w : W128) (p : Nat) (g : Golden) (k q : Nat) :
    posOf (getR (startProbe s r x w p g k) r) q = posOf (getR s r) q := by
  unfold startProbe pushWin
  rw [getR_updR_self]
  rfl

theorem pos_probeTaken (s : State) (r p : Nat) (g : Golden) : posOf (getR (probeTaken s r p g) r) p =
    { posOf (getR s r) p with fired := 0, nextRec := (insertedRecord s r p g + 1) % g.probes.length, probeDue := false } := by
  simp [probeTaken, updPos, posOf]

theorem win_probeTaken (s : State) (r p : Nat) (g : Golden) : (getR (probeTaken s r p g) r).win = (getR s r).win := by
  simp [probeTaken, updPos]

/-- Settles O27: PRB, SRV, and the inserted probe with its window entry and the position that it leaves. -/
theorem probesAndSurveysIssue : Obligations.ProbesAndSurveysIssue := by
  unfold Obligations.ProbesAndSurveysIssue
  refine ⟨fun s r x w g hi => ?_, fun s r x w hi => ?_, fun s r p g hg hrecords hneeded hnext hheld hup htest hruns hengine hroom hclean hlocked => ?_⟩
  · intro p hg hrecord hengine hpos htile
    exact prb_next hi hg hrecord hengine hpos htile
  · intro t hengine hidle htile
    exact srv_next hi hengine hidle htile
  · have h : InsertsProbe s r p g := ⟨hg, hrecords, hneeded, hnext, hheld, hup, htest, hruns, hengine, hroom, hclean, hlocked⟩
    refine ⟨_, probeWin (probeTaken s r p g) r .job 0 p g (insertedRecord s r p g), probeInsert_next h, ?_, rfl, rfl, rfl, ?_⟩
    · rw [win_startProbe, win_probeTaken]
    · rw [pos_startProbe, pos_probeTaken]
      exact ⟨rfl, rfl, rfl⟩

end Sys2Proof.Laws
end

section
/-!
SUPPORT. DMA_SEGMENT and DMA_COMPLETION (R205, R235, R258, R479): what serving the front of the rotation leaves, and how a descriptor with nothing outstanding ends.
-/

namespace Sys2Proof.Laws

open Sys2Proof.Machine Sys2Proof.Safety

/-! ### DMA_SEGMENT (R235, R258, R479) -/

/-- A descriptor d at the front of its cluster's rotation, of the service context or a running job, whose next segment is len bytes at off of a row, with room at the cluster's source. -/
structure DmaServed (s : State) (c : Fin 4) (d : Dma) (rest : List Dma) (row off len : Nat) : Prop where
  front : getDma s c = d :: rest
  runs : d.ctx = .service ∨ ∃ j, findJob s d.part d.job = some j ∧ j.st = .running
  room : srcRoom s (srcCluster c) = true
  segment : segAt d d.next = some (row, off, len)

theorem dmaSegment_done {s : State} {c : Fin 4} {hostOk : Bool} {d : Dma} {rest : List Dma} {row off len : Nat} (h : DmaServed s c d rest row off len)
    {t : State} {bad : Bool} {n : Nat} (hseg : dmaSeg s (findJob s d.part d.job) d c hostOk row off len = .done t bad n) :
    exec (.dmaSegment c hostOk) s = .next (setDma t c ((getDma t c).filter (fun e => e.id ≠ d.id) ++
      [{ d with next := d.next + 1, bad := d.bad || bad, posted := d.posted + n }])) := by
  show execDmaSegment c hostOk s = _
  simp only [execDmaSegment, h.front, h.room, h.segment, hseg]
  rw [if_neg]
  obtain hservice | ⟨j, hj, hrun⟩ := h.runs
  · simp [hservice]
  · simp [hj, hrun]

/-- A poisoned source that does not leave the device changes nothing but the descriptor. -/
theorem dmaSeg_poisoned {s : State} {j : Option Job} {d : Dma} {c : Nat} {hostOk : Bool} {row off len : Nat} {b : List Byte} {tag : W32}
    (hop : d.op ≠ 2) (hdst : d.dstKind ≠ 2) (hread : dmaRead s j d c hostOk (rowAddr d.srcAddr d.srcStride row + off) len = .ok b true tag) :
    dmaSeg s j d c hostOk row off len = .done s true 0 := by
  simp only [dmaSeg, hop, hdst, hread, if_true, if_false]

/-! ### DMA_COMPLETION (R205, R235, R250) -/

/-- The state with a descriptor taken out of its cluster's rotation. -/
def dmaTaken (s : State) (c : Fin 4) (id : Nat) : State := setDma s c ((getDma s c).filter (fun e => e.id ≠ id))

/-- A descriptor d of a job that is not saved, every segment of which is applied and acknowledged, with its window entry e. -/
structure DmaEnded (s : State) (c : Fin 4) (id : Nat) (d : Dma) (e : Win) : Prop where
  found : (getDma s c).find? (fun d => d.id = id) = some d
  applied : segAt d d.next = none
  acknowledged : d.posted = 0
  here : ∀ j, findJob s d.part d.job = some j → j.st ≠ .saved
  entry : findWin (dmaTaken s c id) d.ridge d.win = some e

/-- The counter that a descriptor signals: its job's, or the ridge's own in the service context. -/
def dmaSignalled (s : State) (d : Dma) (k : Nat) : State :=
  if d.ctx = .job then addCounter s d.part d.job d.ridge k 1
  else updR s d.ridge (fun rd => { rd with cnt := tset 0 rd.cnt k (tget 0 rd.cnt k + 1) })

/-- The end of a descriptor by its poison and its signal. -/
def dmaEnd (s : State) (d : Dma) (e : Win) : State :=
  if d.bad then execFault s d.ridge e 0x11
  else retire (d.signal.elim s (dmaSignalled s d)) d.ridge d.win

theorem dmaCompletion_next {s : State} {c : Fin 4} {id : Nat} {d : Dma} {e : Win} (h : DmaEnded s c id d e) :
    exec (.dmaCompletion c id) s = .next (dmaEnd (dmaTaken s c id) d e) := by
  show execDmaCompletion c id s = _
  have hentry := h.entry
  unfold dmaTaken at hentry
  simp only [execDmaCompletion, h.found, h.applied, h.acknowledged, hentry, Option.isSome_none, Nat.lt_irrefl, decide_false, Bool.or_self, Bool.false_or]
  rw [if_neg]
  · unfold dmaEnd
    cases d.bad
    · cases d.signal <;> rfl
    · rfl
  · split
    · next j hj => simpa using h.here j hj
    · exact Bool.false_ne_true

/-- Settles O17: the segment served, the poisoned one, and the ends of a descriptor. -/
theorem dmaRunsAndCompletes : Obligations.DmaRunsAndCompletes := by
  unfold Obligations.DmaRunsAndCompletes
  refine ⟨fun s c hostOk d rest row off len hfront hruns hroom hsegment => ⟨fun t bad n => dmaSegment_done ⟨hfront, hruns, hroom, hsegment⟩,
    fun b tag => dmaSeg_poisoned⟩, ?_⟩
  intro s c id d e hfound happlied hack hhere s1 hentry
  rw [dmaCompletion_next ⟨hfound, happlied, hack, hhere, hentry⟩]
  refine ⟨fun hbad => ?_, fun hgood hsilent => ?_, fun k hgood hsignal hjob => ?_, fun k hgood hsignal hservice => ?_⟩
  · simp only [dmaEnd, hbad, if_true]
    rfl
  · simp only [dmaEnd, hgood, hsilent, Option.elim_none, Bool.false_eq_true, if_false]
    rfl
  · simp only [dmaEnd, dmaSignalled, hgood, hsignal, hjob, Option.elim_some, Bool.false_eq_true, if_true, if_false]
    rfl
  · simp only [dmaEnd, dmaSignalled, hgood, hsignal, hservice, Option.elim_some, Bool.false_eq_true, reduceCtorEq, if_false]
    rfl

end Sys2Proof.Laws
end

section
/-!
SUPPORT. PREFETCH and RING_PREFETCH_FILL (R244): the prefetcher that is set up, and the row that a ring brings in.
-/

namespace Sys2Proof.Laws

open Sys2Proof.Machine Sys2Proof.Safety

/-! ### PREFETCH at issue -/

/-- Bytes of a prefetcher's slot: a row up to the next CDU boundary. -/
def slotBytes (rowBytes : Nat) : Nat := (rowBytes + 255) / 256 * 256

/-- A legal PREFETCH descriptor over accessible ranges, its slots in the ridge's own Loam, that takes prefetcher k. -/
structure PrefetchFree (s : State) (r : Ridge) (x : Ctx) (w : W128) (d : DmaDesc) (ss ws : List LRange) (k : Nat) : Prop where
  op : d.op = 1
  legal : dmaBad d = false
  source : endpointOk s r (ctxJob s r x) 1 (endpoint w d.sk d.src) d.ss d.rows d.rowBytes false = some ss
  target : endpointOk s r (ctxJob s r x) d.dk (endpoint w d.dk d.dst) (slotBytes d.rowBytes) d.slots (slotBytes d.rowBytes) true = some ws
  own : ws.all (fun q => q.ridge = r.val) = true
  pick : prefetchPick (getR s r) (d.flags.testBit 1) = some k

/-- The state with prefetcher k of the ridge replaced. -/
def setPrefetch (s : State) (r : Ridge) (k : Nat) (f : Prefetch) : State := updR s r (fun rd => { rd with prefetch := tset .free rd.prefetch k f })

/-- The state with prefetcher k set up by the descriptor. -/
def prefetchSet (s : State) (r : Ridge) (w : W128) (d : DmaDesc) (ws : List LRange) (k : Nat) : State :=
  setPrefetch s r k (prefetchNew w (d.flags.testBit 1) d (endpoint w d.sk d.src).toNat ((ws.head?.map (fun q => q.off)).getD 0) s.now)

section
variable {s : State} {r : Ridge} {x : Ctx} {w : W128} {ss ws : List LRange} {k : Nat}

theorem dmaPrefetch_signals (hi : issuable s r x w 0x28 = true) (h : PrefetchFree s r x w (dmaAt (getR s r) w) ss ws k) {c : Nat} {j : Job}
    (hsignal : dmaSignal w = some c) (hjob : ctxJob s r x = some j) : exec (.dmaPrefetch r x w) s =
      .next (settleCtx (advance (addCounter (prefetchSet s r w (dmaAt (getR s r) w) ws k) j.part j.id r c 1) r x) r x) := by
  obtain ⟨hop, hlegal, hsource, htarget, hown, hpick⟩ := h
  rw [hjob] at hsource htarget
  unfold slotBytes at htarget
  show execDmaPrefetch r x w s = _
  refine issued hi ?_
  simp only [hop, hlegal, hjob, hsource, htarget, hown, hpick, hsignal, ne_eq, not_true_eq_false, Bool.not_true, Bool.false_eq_true, if_false]
  rfl

theorem dmaPrefetch_silent (hi : issuable s r x w 0x28 = true) (h : PrefetchFree s r x w (dmaAt (getR s r) w) ss ws k)
    (hsilent : dmaSignal w = none ∨ ctxJob s r x = none) :
    exec (.dmaPrefetch r x w) s = .next (settleCtx (advance (prefetchSet s r w (dmaAt (getR s r) w) ws k) r x) r x) := by
  obtain ⟨hop, hlegal, hsource, htarget, hown, hpick⟩ := h
  unfold slotBytes at htarget
  show execDmaPrefetch r x w s = _
  refine issued hi ?_
  simp only [hop, hlegal, hsource, htarget, hown, hpick, ne_eq, not_true_eq_false, Bool.not_true, Bool.false_eq_true, if_false]
  obtain hnone | hnone := hsilent
  · simp only [hnone]
    rfl
  · cases hsignal : dmaSignal w <;> simp only [hnone] <;> rfl

end

/-! ### RING_PREFETCH_FILL -/

/-- A ring f of a running job j with a row left and the row's slot free, whose row translates to the pieces ps, which read as the bytes b without poison. -/
structure RingFills (s : State) (r : Ridge) (f : Prefetch) (j : Job) (ps : List Piece) (b : List Byte) : Prop where
  job : jobOn s r = some j
  runs : j.st = .running
  active : f.active = true
  ring : f.ring = true
  sound : f.faulted = none
  left : f.filled < f.rows
  vacant : f.busy.any (fun b => b % f.slots = f.filled % f.slots) = false
  row : translate s j.part j (agentCluster (clusterOf r)) (rowAddr f.src f.stride f.filled) f.rowBytes 0 = .ok ps
  bytes : readPieces s j.part (agentCluster (clusterOf r)) ps = some (b, false)

/-- The state with a row's bytes in the slot that comes next. -/
def rowStored (s : State) (r : Ridge) (f : Prefetch) (j : Job) (b : List Byte) : State :=
  (stLoam (dropOnce s j.part (agentCluster (clusterOf r))) r ⟨r, f.dst + (f.filled % f.slots) * slotBytes f.rowBytes⟩ b (tagFromMemory s j r)).1

theorem ringPrefetchFill_next {s : State} {r : Ridge} {k : Fin 4} {f : Prefetch} {j : Job} {ps : List Piece} {b : List Byte}
    (hf : tget Prefetch.free (getR s r).prefetch k = f) (h : RingFills s r f j ps b) :
    exec (.ringPrefetchFill r k) s = .next (setPrefetch (rowStored s r f j b) r k { f with filled := f.filled + 1, busy := f.busy ++ [f.filled] }) := by
  show execRingPrefetchFill r k s = _
  have hleft : decide (f.rows ≤ f.filled) = false := decide_eq_false (Nat.not_le.mpr h.left)
  simp only [execRingPrefetchFill, hf, h.job, h.runs, h.active, h.ring, h.sound, hleft, h.vacant, h.row, h.bytes, Option.isSome_none, Bool.and_self,
    Bool.not_true, Bool.or_self, ne_eq, not_true_eq_false, decide_false, Bool.false_eq_true, if_false]
  rfl

/-- Settles O18: the set-up with and without a signal, and the fill of a ring's next row. -/
theorem prefetchersSetUpAndFill : Obligations.PrefetchersSetUpAndFill := by
  unfold Obligations.PrefetchersSetUpAndFill
  refine ⟨?_, ?_⟩
  · intro s r x w ss ws k hi d ring slotBytes s1 hop hlegal hsource htarget hown hpick
    have h : PrefetchFree s r x w d ss ws k := ⟨hop, hlegal, hsource, htarget, hown, hpick⟩
    exact ⟨fun c j hsignal hj => dmaPrefetch_signals hi h hsignal hj, fun hsilent => dmaPrefetch_silent hi h hsilent⟩
  · intro s r k j ps b f agent hjob hruns hactive hring hsound hleft hvacant hrow hbytes
    exact ringPrefetchFill_next rfl ⟨hjob, hruns, hactive, hring, hsound, hleft, hvacant, hrow, hbytes⟩

end Sys2Proof.Laws
end

section
/-!
SUPPORT. PAGE_WALK (R245, R253, R259, R261, R262): the end of a job's pending walk by its outcome and its asker.
-/

namespace Sys2Proof.Laws

open Sys2Proof.Machine Sys2Proof.Safety

/-- The state with a pending walk taken from the list. -/
def walkTaken (s : State) (id : Nat) : State := { s with mem := { s.mem with walks := s.mem.walks.filter (fun v => v.id ≠ id) } }

/-- The state with a ridge's job suspended and its stream stopped for a failed walk. -/
def walkStopped (s : State) (id : Nat) (w : Walk) (j : Job) (c l : Nat) : State :=
  ridgeMmu (walkTaken s id) srcWalker w.part j w.agent w.instr c w.dva w.access l

/-- The state with a ridge's open rope, if there is one, aborted with FAULT. -/
def ropeFaulted (s : State) (r : Nat) : State := (getR s r).jobCtx.rope.elim s (fun o => ropeAbort s o.entry 0x01 0x12 0)

theorem ropeFaulted_closed {s : State} {r : Nat} (h : (getR s r).jobCtx.rope = none) : ropeFaulted s r = s := by
  rw [ropeFaulted, h, Option.elim_none]

theorem ropeFaulted_open {s : State} {r : Nat} {o : OpenRope} (h : (getR s r).jobCtx.rope = some o) : ropeFaulted s r = ropeAbort s o.entry 0x01 0x12 0 := by
  rw [ropeFaulted, h, Option.elim_some]

section
variable {s : State} {id : Nat} {w : Walk} {j : Job}

theorem asker_notRidge (hasker : w.source ≠ 0 ∨ 48 ≤ w.agent) : (decide (w.source = 0) && decide (w.agent < 48)) = false := by
  rw [Bool.and_eq_false_iff, decide_eq_false_iff_not, decide_eq_false_iff_not, Nat.not_lt]
  exact hasker

/-! ### A walk that succeeds (R253) -/

section
variable {g : Page} (hw : s.mem.walks.find? (fun w => w.id = id) = some w) (hj : findJob s w.part w.job = some j) (hok : walkDva s w.part j w.dva w.access = .ok g)
include hw hj hok

theorem pageWalk_fillsRidge (hsource : w.source = 0) (hagent : w.agent < 48) :
    exec (.pageWalk id) s = .next (settleRidge (fillTlb (walkTaken s id) w g) w.agent) := by
  show execPageWalk id s = _
  simp only [execPageWalk, hw, hj, hok, pw_ok hw hj hok, hsource, hagent, decide_true, Bool.and_self, Bool.false_eq_true, if_true, if_false]
  rfl

theorem pageWalk_fillsOther (hasker : w.source ≠ 0 ∨ 48 ≤ w.agent) : exec (.pageWalk id) s = .next (fillTlb (walkTaken s id) w g) := by
  show execPageWalk id s = _
  simp only [execPageWalk, hw, pw_ok hw hj hok, asker_notRidge hasker, Bool.false_eq_true, if_false]
  rfl

end

/-! ### A walk that fails (R245, R259, R261, R262) -/

section
variable {c l : Nat} (hw : s.mem.walks.find? (fun w => w.id = id) = some w) (hj : findJob s w.part w.job = some j) (hfault : walkDva s w.part j w.dva w.access = .fault c l)
include hw hj hfault

theorem pageWalk_keptByRing (hsource : w.source = 3) : exec (.pageWalk id) s = .next (walkTaken s id) := by
  show execPageWalk id s = _
  simp only [execPageWalk, hw, pw_fault hw hj hfault, hsource, Nat.reduceEqDiff, decide_false, Bool.false_and, Bool.false_eq_true, if_true, if_false]
  rfl

theorem pageWalk_stopsRidge (hsource : w.source = 0) (hagent : w.agent < 48) :
    exec (.pageWalk id) s = .next (ropeFaulted (walkStopped s id w j c l) w.agent) := by
  unfold ropeFaulted walkStopped walkTaken
  show execPageWalk id s = _
  simp only [execPageWalk, hw, hj, hfault, pw_fault hw hj hfault, hsource, hagent, Nat.reduceEqDiff, decide_true, Bool.and_self, if_true, if_false]
  split
  · next o hrope => rw [hrope, Option.elim_some]
  · next hrope => rw [hrope, Option.elim_none]

theorem pageWalk_suspends (hring : w.source ≠ 3) (hasker : w.source ≠ 0 ∨ 48 ≤ w.agent) : exec (.pageWalk id) s =
    .next (mmuFault (walkTaken s id) srcWalker w.part w.job w.source w.srcRidge c w.dva w.access l w.desc w.instr w.resume) := by
  show execPageWalk id s = _
  simp only [execPageWalk, hw, pw_fault hw hj hfault, hring, asker_notRidge hasker, Bool.false_eq_true, if_false]
  rfl

end

end

/-- The page of a walk stands first in the TLB, as an entry of the asking agent. -/
theorem mem_fillTlb (s : State) (w : Walk) (g : Page) :
    ∃ e ∈ (fillTlb s w g).mem.tlb, e.part = w.part ∧ e.job = w.job ∧ e.agent = w.agent ∧ e.base = g.base ∧ e.size = g.size ∧ e.ia = g.ia ∧ e.w = g.w :=
  ⟨_, List.mem_cons_self .., rfl, rfl, rfl, rfl, rfl, rfl, rfl⟩

/-- Settles O19: the walk's success and its failure, each by the asker. -/
theorem pageWalksEnd : Obligations.PageWalksEnd := by
  unfold Obligations.PageWalksEnd
  intro s id w j hw hj s1
  refine ⟨fun g hok => ⟨pageWalk_fillsRidge hw hj hok, pageWalk_fillsOther hw hj hok, mem_fillTlb s1 w g⟩, fun c l hfault => ⟨pageWalk_keptByRing hw hj hfault, ?_,
    pageWalk_suspends hw hj hfault⟩⟩
  intro hsource hagent t
  rw [pageWalk_stopsRidge hw hj hfault hsource hagent]
  refine ⟨fun hrope => ?_, fun o hrope => ?_⟩
  · exact congrArg _ (ropeFaulted_closed hrope)
  · exact congrArg _ (ropeFaulted_open hrope)

end Sys2Proof.Laws
end

section
/-!
SUPPORT. Stores to Loam, local memory, host memory and the ring pool (R235), byte by byte: the bytes they name and the bytes they leave.
-/

namespace Sys2Proof.Laws

open Sys2Proof.Machine Sys2Proof.Safety

/-! ### Loam -/

theorem loamByte_stLoam_outside (s : State) (src : Nat) (o : LOp) (d : List Byte) (tag : W32) {q a : Nat} (ho : q = o.ridge → a < o.off ∨ o.off + d.length ≤ a) :
    loamByte (getR (stLoam s src o d tag).1 q) q a = loamByte (getR s q) q a := by
  rw [stLoam_ridge]
  split
  · next hq =>
    subst hq
    exact loamWrite_out _ _ _ _ _ _ (ho rfl)
  · rfl

theorem loamBytes_stLoam (s : State) (src : Nat) (o : LOp) (d : List Byte) (tag : W32) (hgood : loamBad (getR s o.ridge) o.off d.length = false) :
    loamBytes (getR (stLoam s src o d tag).1 o.ridge) o.ridge o.off d.length = d := by
  have hlen : (loamBytes (getR (stLoam s src o d tag).1 o.ridge) o.ridge o.off d.length).length = d.length := by simp [loamBytes]
  refine list_eq_of_getD _ _ hlen (fun i hi => ?_)
  rw [hlen] at hi
  have hin := loamWrite_in (getR s o.ridge) o.ridge o.off d tag hgood (o.off + i) (Nat.le_add_right ..) (Nat.add_lt_add_left hi _)
  rw [Nat.add_sub_cancel_left] at hin
  rw [loamBytes, run_get _ _ _ hi, stLoam_ridge, if_pos rfl, hin]

/-! ### Local memory -/

theorem dramByte_dramWrite_outside (s : State) (pa : Nat) (d : List Byte) {a : Nat} (ha : a < pa ∨ pa + d.length ≤ a) :
    tget 0 (dramWrite s pa d).1.mem.dram a = tget 0 s.mem.dram a :=
  dfold_out pa d a _ _ (fun c h => cuts_in _ _ _ c h) ha

theorem dramByte_dramWrite (s : State) (pa : Nat) (d : List Byte) (hgood : dramBad s pa d.length = false) {i : Nat} (hi : i < d.length) :
    tget 0 (dramWrite s pa d).1.mem.dram (pa + i) = d.getD i 0 := by
  have hclean : ∀ c ∈ cduCuts pa d.length, tget false s.mem.poison (c.1 / 256) = false := by
    intro c hc
    unfold dramBad cdusOf at hgood
    exact Bool.eq_false_iff.mpr (List.any_eq_false.mp hgood _ (List.mem_map_of_mem hc))
  have hcover := cuts_cover (d.length / 256 + 2) pa d.length (by omega) (pa + i) (Nat.le_add_right ..) (Nat.add_lt_add_left hi _)
  have hin := dfold_in pa d (pa + i) _ (s, []) (fun c h => cuts_in _ _ _ c h) hclean (.inl hcover)
  rw [Nat.add_sub_cancel_left] at hin
  exact hin

theorem dramBytes_dramWrite (s : State) (pa : Nat) (d : List Byte) (hgood : dramBad s pa d.length = false) :
    dramBytes (dramWrite s pa d).1 pa d.length = d := by
  have hlen : (dramBytes (dramWrite s pa d).1 pa d.length).length = d.length := by simp [dramBytes, tgetRun]
  refine list_eq_of_getD _ _ hlen (fun i hi => ?_)
  rw [hlen] at hi
  rw [dramBytes, tgetRun, run_get _ _ _ hi, dramByte_dramWrite s pa d hgood hi]

/-! ### Host memory and the ring pool -/

theorem hostMem_hostWrite (s : State) (p q : Port) (a : Nat) (d : List Byte) :
    hostMem (hostWrite s p a d) q = if q = p then tsetRun 0 (hostMem s p) a d else hostMem s q := by
  cases p <;> cases q <;> rfl

theorem hostRead_hostWrite_outside (s : State) (p : Port) (pa : Nat) (d : List Byte) {q : Port} {a : Nat} (ho : q = p → a < pa ∨ pa + d.length ≤ a) :
    hostRead (hostWrite s p pa d) q a 1 = hostRead s q a 1 := by
  rw [hostRead, hostRead, one_run, one_run, hostMem_hostWrite]
  split
  · next hq =>
    subst hq
    rw [tget_tsetRun_outside _ _ _ _ _ (ho rfl)]
  · rfl

theorem poolRead_poolWrite_outside (s : State) (pa : Nat) (d : List Byte) {a : Nat} (ha : a < pa ∨ pa + d.length ≤ a) :
    poolRead (poolWrite s pa d) a 1 = poolRead s a 1 := by
  rw [poolRead, poolRead, one_run, one_run]
  exact congrArg (fun v => [v]) (tget_tsetRun_outside 0 s.host.pool pa a d ha)

theorem poolRead_poolWrite (s : State) (pa : Nat) (d : List Byte) : poolRead (poolWrite s pa d) pa d.length = d := tgetRun_tsetRun 0 s.host.pool pa d

/-- Settles O57: for each memory, the bytes outside a store and the bytes it writes. -/
theorem storesReachTheirBytesAlone : Obligations.StoresReachTheirBytesAlone := by
  unfold Obligations.StoresReachTheirBytesAlone
  refine ⟨fun s src o d tag => ⟨fun q a => loamByte_stLoam_outside s src o d tag, loamBytes_stLoam s src o d tag⟩, fun s pa d => ⟨fun a ha => ?_, dramBytes_dramWrite s pa d⟩,
    fun s p pa d => ⟨fun q a => hostRead_hostWrite_outside s p pa d, hostRead_hostWrite s p pa d⟩,
    fun s pa d => ⟨fun a => poolRead_poolWrite_outside s pa d, poolRead_poolWrite s pa d⟩⟩
  rw [dramBytes, dramBytes, one_run, one_run, dramByte_dramWrite_outside s pa d ha]

end Sys2Proof.Laws
end

section
/-!
SUPPORT. ROPE_TIMEOUT (R289), PIN_HOLD_TIMEOUT (R156, R289) and COUNT_TIMEOUT (R161).
-/

namespace Sys2Proof.Laws

open Sys2Proof.Machine Sys2Proof.Safety

/-! ### The timers of a rope (R156, R212, R289) -/

section
variable {s : State} {e : RopeNo}

theorem ropeTimeout_due (hst : (getRope s e).st = .opened ∨ (getRope s e).st = .staged) (hdue : (getRope s e).opened + (getRope s e).timeout * 8192 ≤ s.rclk) :
    exec (.ropeTimeout e) s = .next (ropeAbort s e 0x04 0 0) := by
  show execRopeTimeout e s = _
  have hundecided : (decide ((getRope s e).st = .opened) || decide ((getRope s e).st = .staged)) = true := by
    rcases hst with h | h <;> simp [h]
  simp only [execRopeTimeout, hundecided, hdue, decide_true, Bool.and_self, if_true]

theorem ropeTimeout_locked (hst : (getRope s e).st = .locked) : exec (.ropeTimeout e) s = .next s := by
  show execRopeTimeout e s = _
  simp [execRopeTimeout, hst]

theorem pinHoldTimeout_due (hst : (getRope s e).st = .staged) (hheld : ropeHeld s (getRope s e).actions = true)
    (hdue : (getRope s e).stagedAt + pinHoldCycles ≤ s.now) : exec (.pinHoldTimeout e) s = .next (ropeAbort s e 0x06 0 0) := by
  show execPinHoldTimeout e s = _
  simp only [execPinHoldTimeout, hst, hheld, hdue, decide_true, Bool.and_self, if_true]

theorem pinHoldTimeout_locked (hst : (getRope s e).st = .locked) : exec (.pinHoldTimeout e) s = .next s := by
  show execPinHoldTimeout e s = _
  simp [execPinHoldTimeout, hst]

end

/-! ### The timer of a slot's count (R161) -/

/-- What a change of CLOSING makes of its slot: every other field, OPENED among them, keeps its value. -/
theorem getSlot_setClosing_self (s : State) (r k : Nat) (b : Bool) : getSlot (setClosing s r k b) r k = { getSlot s r k with closing := b } := by
  rw [setClosing, getSlot_setSlot_self]

theorem countTimeout_due {s : State} {r : Ridge} {id : Nat} {e : Win} (hfound : findWin s r id = some e) (hwaits : countWaits s r e = true)
    (hdue : 2 ^ 23 ≤ e.waited) : exec (.countTimeout r id) s = .next (execFault (setClosing s r (slotNo e.w) false) r e 0x0D) := by
  show execCountTimeout r id s = _
  simp only [execCountTimeout, hfound, hwaits, hdue, decide_true, Bool.and_self, if_true]

/-- Settles O25, one lemma for each timer and for each row on a locked rope, and the slot that COUNT_TIMEOUT leaves. -/
theorem timersEndWaits : Obligations.TimersEndWaits := by
  unfold Obligations.TimersEndWaits
  refine ⟨fun s e => ⟨ropeTimeout_due, pinHoldTimeout_due, fun hst => ⟨ropeTimeout_locked hst, pinHoldTimeout_locked hst⟩⟩,
    fun s r id e hfound hwaits hdue => ⟨countTimeout_due hfound hwaits hdue, ?_, ?_⟩⟩
  · rw [getSlot_setClosing_self]
  · rw [getSlot_setClosing_self]

end Sys2Proof.Laws
end

section
/-!
SUPPORT. Doorbells and the fetching of submission entries (R305 to R309): what each doorbell and a fetch answer, and the fetch position, commands and number that the entry taken leaves.
-/

namespace Sys2Proof.Laws

open Sys2Proof.Machine

/-! ### Doorbells (R305, R306) -/

section
variable {s : State} {q : QId} {n : Nat}

theorem ringTail_ok (h : tailOk (getQ s q) n = true) : ringTail s q n = updQ s q (fun k => { k with tail := n }) := if_pos h

theorem ringTail_bad (h : tailOk (getQ s q) n = false) : ringTail s q n = badDoorbell s q := if_neg (by simp [h])

theorem ringHead_ok (h : n < 2 ^ (getQ s q).cqExp) : ringHead s q n = cqFlush (updQ s q (fun k => { k with cqHead := n })) q := if_pos h

theorem ringHead_bad (h : 2 ^ (getQ s q).cqExp ≤ n) : ringHead s q n = badDoorbell s q := if_neg (Nat.not_lt.mpr h)

end

section
variable {s : State} {p : Port} {v : W32}

theorem sqDoorbell_next {f : Fn} {q : Fin 1024} (h : doorbellLive s p f q = true) : exec (.sqDoorbell p f q v) s = .next (ringTail s (.io q) (bits v 15 0)) := if_pos h

theorem cqDoorbell_next {f : Fn} {q : Fin 1024} (h : doorbellLive s p f q = true) : exec (.cqDoorbell p f q v) s = .next (ringHead s (.io q) (bits v 15 0)) := if_pos h

theorem hbDbAdmin_next (h : barLive s p 0 = true) (hlive : (getQ s (.admin p)).st = .live) :
    exec (.hbDbAdmin p v) s = .next (pinSync (ringHead (ringTail s (.admin p) (bits v 15 0)) (.admin p) (bits v 31 16))) :=
  if_pos (by simp [h, hlive])

end

/-! ### Fetching (R307, R309) -/

/-- What COMMAND_FETCH asks of ring q: a running device, a live ring with an entry to take from where it can be read, room for a command, and no command in flight that waits to be rejected. -/
structure Fetches (s : State) (q : QId) : Prop where
  awake : awake s = true
  running : s.cmc.fw = .running
  served : ∀ c, c ∈ s.host.cmds → (rejected c).isSome = false
  live : (getQ s q).st = .live
  going : (getQ s q).stopped = false
  entry : (getQ s q).fetch ≠ (getQ s q).tail
  room : s.host.cmds.length < 4096
  reached : (getQ s q).sqPool = true ∨ (getPort s (getQ s q).port).tunnel = true

theorem rejectTurn_served {s : State} (q : QId) (h : ∀ c, c ∈ s.host.cmds → (rejected c).isSome = false) : rejectTurn s q = s := by
  have hnone : s.host.cmds.find? (fun c => c.q = q && cmdTurn s c && (rejected c).isSome) = none :=
    List.find?_eq_none.mpr fun c hc => by simp [h c hc]
  simp only [rejectTurn, hnone]

theorem commandFetch_next {s : State} {q : QId} (h : Fetches s q) : exec (.commandFetch q) s = .next (pinSync (rejectTurn (fetchOne s q) q)) := by
  show execCommandFetch q s = _
  have hreach : ((getQ s q).sqPool || (getPort s (getQ s q).port).tunnel) = true := by simpa using h.reached
  simp [execCommandFetch, rejectTurn_served q h.served, h.awake, h.running, h.live, h.going, h.entry, h.room, hreach]

theorem cmds_updQ (s : State) (q : QId) (f : Queue → Queue) : (updQ s q f).host.cmds = s.host.cmds := by rcases q with (_ | _) | _ <;> rfl

theorem getQ_withFlight (s : State) (q : QId) (l : List Cmd) (n : Nat) : getQ { s with host := { s.host with cmds := l, nextCmd := n } } q = getQ s q := by
  rcases q with (_ | _) | _ <;> rfl

section
variable (s : State) (q : QId)

/-- The fetch position moves by one round the ring, whether the entry was aborted or taken. -/
theorem getQ_fetchOne : let k := getQ s q
    getQ (fetchOne s q) q = { k with fetch := (k.fetch + 1) % 2 ^ k.sqExp, skip := k.skip.erase k.fetch } := by
  simp only [fetchOne]
  split
  · exact getQ_updQ_self ..
  · rw [getQ_withFlight, getQ_updQ_self]

theorem cmds_fetchOne_aborted (h : (getQ s q).skip.contains (getQ s q).fetch = true) : (fetchOne s q).host.cmds = s.host.cmds := by
  simp only [fetchOne, h, if_true, cmds_updQ]

theorem cmds_fetchOne_taken (h : (getQ s q).skip.contains (getQ s q).fetch = false) :
    ∃ c, (fetchOne s q).host.cmds = s.host.cmds ++ [c] ∧ c.q = q ∧ c.entry = sqEntry s (getQ s q) (getQ s q).fetch ∧ c.busy = false ∧ c.seqNo = s.host.nextCmd ∧
      (fetchOne s q).host.nextCmd = s.host.nextCmd + 1 := by
  simp only [fetchOne, h, Bool.false_eq_true, if_false, cmds_updQ]
  exact ⟨_, rfl, rfl, rfl, rfl, rfl, trivial⟩

end

/-- Settles O43, from one lemma for each doorbell and each answer of a ring, and from what a fetch leaves of its ring and of the commands in flight. -/
theorem doorbellsMoveIndexes : Obligations.DoorbellsMoveIndexes := by
  unfold Obligations.DoorbellsMoveIndexes
  refine ⟨fun s p f q v h => ⟨fun ht => ?_, fun ht => ?_, fun hh => ?_, fun hh => ?_⟩, fun s p v => hbDbAdmin_next,
    fun s q hawake hfw hserved hlive hgoing hentry hroom hreach => ⟨commandFetch_next ⟨hawake, hfw, hserved, hlive, hgoing, hentry, hroom, hreach⟩, ?_,
      cmds_fetchOne_aborted s q, cmds_fetchOne_taken s q⟩⟩
  · rw [sqDoorbell_next h, ringTail_ok ht]
  · rw [sqDoorbell_next h, ringTail_bad ht]; rfl
  · rw [cqDoorbell_next h, ringHead_ok hh]
  · rw [cqDoorbell_next h, ringHead_bad hh]; rfl
  · rw [getQ_fetchOne]

end Sys2Proof.Laws
end

section
/-!
SUPPORT. The answers of Ewesy commands (R308 to R312): when a command's turn has come, what its gate makes of it when it is not ready or a check finds it wanting, and what a completion leaves.
-/

namespace Sys2Proof.Laws

open Sys2Proof.Machine Sys2Proof.Safety

/-! ### A command's turn (R309) -/

theorem cmdTurn_iff (s : State) (c : Cmd) : cmdTurn s c = true ↔
    c.busy = false ∧ ∀ d, d ∈ s.host.cmds → d.q = c.q → d.seqNo < c.seqNo → d.busy = true ∧ fieldAt c.entry 1 1 % 2 = 0 := by
  have hbit : ¬fieldAt c.entry 1 1 % 2 = 1 ↔ fieldAt c.entry 1 1 % 2 = 0 := by omega
  have hearlier (d : Cmd) : (!(d.q = c.q && decide (d.seqNo < c.seqNo) && (fieldAt c.entry 1 1 % 2 = 1 || !d.busy))) = true ↔
      (d.q = c.q → d.seqNo < c.seqNo → d.busy = true ∧ fieldAt c.entry 1 1 % 2 = 0) := by
    rw [← hbit]
    simp only [Bool.not_eq_true', Bool.and_eq_false_iff, Bool.or_eq_false_iff, decide_eq_false_iff_not, Bool.not_eq_false']
    constructor
    · rintro (hother | ⟨hfree, hbusy⟩) hq hseq
      · exact (hother.elim (· hq) (· hseq)).elim
      · exact ⟨hbusy, hfree⟩
    · intro h
      by_cases hq : d.q = c.q
      · by_cases hseq : d.seqNo < c.seqNo
        · exact .inr (h hq hseq).symm
        · exact .inl (.inr hseq)
      · exact .inl (.inl hq)
  simp only [cmdTurn, Bool.and_eq_true, Bool.not_eq_true', List.all_eq_true, ← hearlier]

theorem readyCmd_some {s : State} {q : QId} {cid : W16} {k : CmdKind} {c : Cmd} (h : readyCmd s q cid k = some c) :
    awake s = true ∧ s.cmc.fw = .running ∧ c ∈ s.host.cmds ∧ c.q = q ∧ c.cid = cid ∧ cmdTurn s c = true ∧ cmdOp c = k.op := by
  unfold readyCmd at h
  split at h
  · cases h
  next hup =>
    have hfound := List.find?_some h
    simp only [Bool.and_eq_true, decide_eq_true_eq] at hfound
    obtain ⟨⟨⟨⟨hq, hcid⟩, hturn⟩, hop⟩, -⟩ := hfound
    simp only [Bool.or_eq_true, Bool.not_eq_true', decide_eq_true_eq, not_or, Bool.not_eq_false, Decidable.not_not] at hup
    exact ⟨hup.1, hup.2, List.mem_of_find?_eq_some h, hq, hcid, hturn, hop⟩

/-! ### Not ready, and refused (R309 to R311) -/

theorem firstFail_none_iff (l : List (Bool × Nat)) : firstFail l = none ↔ l.any (fun x => x.1) = false := by
  simp [firstFail]

section
variable {s : State} {q : QId} {cid : W16} {k : CmdKind} {checks : Cmd → List (Bool × Nat)} (body : Cmd → State)

theorem withCmd_unready (h : readyCmd s q cid k = none) : withCmd s q cid k checks body = .next s := by simp only [withCmd, h]

theorem withOrdered_unready (h : readyCmd s q cid k = none) : withOrdered s q cid k checks body = .next s := by simp only [withOrdered, h]

/-- NOT_PERMITTED leaves the kind's own checks unread; in the list that is left some check still fails, so the body never runs. -/
theorem refused_any {c : Cmd} (h : Refused s q cid k checks c) :
    (if (gateChecks s c k).any (fun x => x.1 && x.2 = stPermit) then gateChecks s c k else gateChecks s c k ++ checks c).any (fun x => x.1) = true := by
  split
  next hpermit =>
    obtain ⟨x, hx, hfail⟩ := List.any_eq_true.mp hpermit
    exact List.any_eq_true.mpr ⟨x, hx, (Bool.and_eq_true_iff.mp hfail).1⟩
  · exact h.2

theorem withCmd_refused {c : Cmd} (h : Refused s q cid k checks c) : let g := gateChecks s c k
    withCmd s q cid k checks body = .next (complete s c (failStatus (if g.any (fun x => x.1 && x.2 = stPermit) then g else g ++ checks c)) 0) := by
  have hready : readyCmd s q cid k = some c := h.1
  simp only [withCmd, hready, refused_any h, if_true]

theorem withOrdered_refused {c : Cmd} (h : Refused s q cid k checks c) : let g := gateChecks s c k
    withOrdered s q cid k checks body = .next (complete s c (if g.any (fun x => x.1) then failStatus g else (firstFail (checks c)).getD stSuccess) 0) := by
  obtain ⟨hready, hany⟩ := h
  rw [List.any_append] at hany
  simp only [withOrdered, hready]
  cases hgate : (gateChecks s c k).any (fun x => x.1) with
  | true => rfl
  | false =>
    rw [hgate, Bool.false_or] at hany
    cases hfirst : firstFail (checks c) with
    | some st => rfl
    | none => rw [(firstFail_none_iff _).mp hfirst] at hany; cases hany

end

/-! ### Completions (R308) -/

section
variable (s : State) (c : Cmd) (st res : Nat)

theorem cmds_complete : (complete s c st res).host.cmds = s.host.cmds.filter (fun d => d.seqNo ≠ c.seqNo) := cmds_pinSync _

theorem srcQueue_complete : srcQueue (complete s c st res) (srcCore s) = srcQueue s (srcCore s) ++ [.completion (mkCqe c.q c.cid st c.part res 0 none)] := by
  show srcQueue (pinSync _) _ = _
  rw [srcQueue_pinSync]
  exact srcQueue_enq_self (useFree s) ..

end

/-- Settles O47: the gate's answer to a command that is not ready, admitted or refused, the turn that a ready one has waited for, and the completion's parts. -/
theorem commandsAreAnswered : Obligations.CommandsAreAnswered := by
  unfold Obligations.CommandsAreAnswered
  refine ⟨fun s q cid k checks body => ⟨fun h => ⟨withCmd_unready body h, withOrdered_unready body h⟩, fun c h => adm h body,
      fun c h => ⟨withCmd_refused body h, withOrdered_refused body h⟩⟩, fun s q cid k c h => ?_,
    fun s c st res => ⟨cmds_complete s c st res, srcQueue_complete s c st res, complete_eq s c st res⟩⟩
  obtain ⟨hawake, hfw, hmem, rfl, hcid, hturn, hop⟩ := readyCmd_some h
  obtain ⟨hidle, hearlier⟩ := (cmdTurn_iff s c).mp hturn
  exact ⟨hawake, hfw, hmem, rfl, hcid, hidle, hop, hearlier⟩

end Sys2Proof.Laws
end

section
/-!
SUPPORT. Transactions between devices (R336 to R343, R356): what the target makes of each request after its header and PCRC, its record and its export have been looked at; what a requester makes of each answer; and a request's two timers and a record's age.
-/

namespace Sys2Proof.Laws

open Sys2Proof.Machine Sys2Proof.Safety

/-! ### Records of applied atomics and messages (R341) -/

section
variable {s : State} {n : Alv} {f : Frame} {p pa : Nat}

/-- No earlier record answers for the frame, so the one appended does. -/
theorem recordOf_keepRecord (h : recordOf s f = none) (status : Nat) :
    recordOf (keepRecord s f status) f = some ⟨f.src, f.tag, (peerOf s f.src).boot, status, s.now⟩ := by
  have hpeer : peerOf (keepRecord s f status) f.src = peerOf s f.src := rfl
  have hrecords : (keepRecord s f status).links.records = s.links.records ++ [⟨f.src, f.tag, (peerOf s f.src).boot, status, s.now⟩] := rfl
  unfold recordOf at h ⊢
  rw [hpeer, hrecords, List.find?_append, h]
  simp

/-- Of an atomic's outcomes only the applied one, saturated or not, has a status below 2. -/
theorem atomAt_applied (h : (atomAt s n p pa f).1 ≤ 1) : ∃ d, (atomAt s n p pa f).2 = keepRecord (dramPut s pa d) f (atomAt s n p pa f).1 := by
  revert h
  simp only [atomAt]
  split
  case h_1 => exact fun hunknown => absurd hunknown (show ¬6 ≤ 1 by decide)
  case h_2 =>
    split
    · exact fun hpoisoned => absurd hpoisoned (show ¬4 ≤ 1 by decide)
    · split
      · exact fun hrange => absurd hrange (show ¬7 ≤ 1 by decide)
      · exact fun _ => ⟨_, rfl⟩

theorem recordOf_atomAt (hnew : recordOf s f = none) (h : (atomAt s n p pa f).1 ≤ 1) :
    recordOf (atomAt s n p pa f).2 f = some ⟨f.src, f.tag, (peerOf s f.src).boot, (atomAt s n p pa f).1, s.now⟩ := by
  obtain ⟨d, happlied⟩ := atomAt_applied h
  have hput : recordOf (dramPut s pa d) f = none := hnew
  rw [happlied, recordOf_keepRecord hput]
  rfl

theorem atomRecordExpiry_next {k : Nat} {r : AtomRec} (hr : s.links.records[k]? = some r) (hage : r.time + 2 ^ 18 ≤ s.now) :
    exec (.atomRecordExpiry k) s = .next { s with links := { s.links with records := s.links.records.eraseIdx k } } := by
  show execAtomRecordExpiry k s = _
  simp only [execAtomRecordExpiry, hr, if_pos hage]

end

/-! ### The target (R343): header, extent and PCRC first, then for an atomic or message its record, then the export -/

theorem broken_of {ok crc : Bool} (h : (ok && crc) = false) : (!ok || !crc) = true := by rw [← Bool.not_and, h]; rfl

theorem not_broken_of {ok crc : Bool} (hok : ok = true) (hcrc : crc = true) : ¬(!ok || !crc) = true := by rw [hok, hcrc]; decide

section
variable {s : State} {n : Alv} {f : Frame} {c p pa : Nat} {r : AtomRec}

theorem wr_malformed (ha : Arrives s n 1 f) (hbad : (requestOk f && f.crcOk) = false) : exec (.wr n f) s = .next (malformed s n f 8) := by
  show execWr n f s = _
  simp only [execWr, arrives ha rfl rfl, if_pos (broken_of hbad)]

theorem rd_malformed (ha : Arrives s n 2 f) (hbad : (requestOk f && f.crcOk) = false) : exec (.rd n f) s = .next (malformed s n f 9) := by
  show execRd n f s = _
  simp only [execRd, arrives ha rfl rfl, if_pos (broken_of hbad)]

theorem atom_malformed (ha : Arrives s n 3 f) (hbad : (requestOk f && f.crcOk) = false) : exec (.atom n f) s = .next (malformed s n f 8) := by
  show execAtom n f s = _
  simp only [execAtom, arrives ha rfl rfl, if_pos (broken_of hbad)]

theorem msg_malformed (ha : Arrives s n 4 f) (hbad : (messageOk f && f.crcOk) = false) : exec (.msg n f) s = .next (malformed s n f 8) := by
  show execMsg n f s = _
  simp only [execMsg, arrives ha rfl rfl, if_pos (broken_of hbad)]

section
variable (hok : requestOk f = true) (hcrc : f.crcOk = true)
include hok hcrc

theorem wr_refused (ha : Arrives s n 1 f) (hc : exportCheck s f = .error c) : exec (.wr n f) s = .next (reply s f 8 c []) := by
  show execWr n f s = _
  simp only [execWr, arrives ha rfl rfl, if_neg (not_broken_of hok hcrc), hc]

theorem wr_applied (ha : Arrives s n 1 f) (hc : exportCheck s f = .ok (p, pa)) : let w := dramWrite s pa f.payload
    exec (.wr n f) s = .next (reply (cduEvents w.1 n p w.2) f 8 (if w.2.isEmpty then 0 else 4) []) := by
  show execWr n f s = _
  simp only [execWr, arrives ha rfl rfl, if_neg (not_broken_of hok hcrc), hc]

theorem rd_refused (ha : Arrives s n 2 f) (hc : exportCheck s f = .error c) : exec (.rd n f) s = .next (reply s f 9 c []) := by
  show execRd n f s = _
  simp only [execRd, arrives ha rfl rfl, if_neg (not_broken_of hok hcrc), hc]

theorem rd_applied (ha : Arrives s n 2 f) (hc : exportCheck s f = .ok (p, pa)) :
    exec (.rd n f) s = .next (if dramBad s pa (extent f) then reply s f 9 4 [] else reply s f 9 0 (dramBytes s pa (extent f))) := by
  show execRd n f s = _
  simp only [execRd, arrives ha rfl rfl, if_neg (not_broken_of hok hcrc), hc]
  exact (apply_ite Host.Outcome.next ..).symm

theorem atom_recorded (ha : Arrives s n 3 f) (hr : recordOf s f = some r) : exec (.atom n f) s = .next (reply s f 8 r.answer []) := by
  show execAtom n f s = _
  simp only [execAtom, arrives ha rfl rfl, if_neg (not_broken_of hok hcrc), hr]

variable (hnew : recordOf s f = none)
include hnew

theorem atom_refused (ha : Arrives s n 3 f) (hc : exportCheck s f = .error c) : exec (.atom n f) s = .next (reply s f 8 c []) := by
  show execAtom n f s = _
  simp only [execAtom, arrives ha rfl rfl, if_neg (not_broken_of hok hcrc), hnew, hc]

theorem atom_busy (ha : Arrives s n 3 f) (hc : exportCheck s f = .ok (p, pa)) (hfull : recordsFull s = true) : exec (.atom n f) s = .next (reply s f 8 5 []) := by
  show execAtom n f s = _
  simp only [execAtom, arrives ha rfl rfl, if_neg (not_broken_of hok hcrc), hnew, hc, if_pos hfull]

theorem atom_applied (ha : Arrives s n 3 f) (hc : exportCheck s f = .ok (p, pa)) (hroom : recordsFull s = false) : let a := atomAt s n p pa f
    exec (.atom n f) s = .next (reply a.2 f 8 a.1 []) := by
  show execAtom n f s = _
  simp only [execAtom, arrives ha rfl rfl, if_neg (not_broken_of hok hcrc), hnew, hc, hroom, Bool.false_eq_true, if_false]

end

section
variable (ha : Arrives s n 4 f) (hok : messageOk f = true) (hcrc : f.crcOk = true)
include ha hok hcrc

theorem msg_recorded (hr : recordOf s f = some r) : exec (.msg n f) s = .next (reply s f 8 r.answer []) := by
  show execMsg n f s = _
  simp only [execMsg, arrives ha rfl rfl, if_neg (not_broken_of hok hcrc), hr]

theorem msg_unserved (hnew : recordOf s f = none) (hfw : s.cmc.fw ≠ .running) : exec (.msg n f) s = .next (reply s f 8 3 []) := by
  show execMsg n f s = _
  simp only [execMsg, arrives ha rfl rfl, if_neg (not_broken_of hok hcrc), hnew, if_pos hfw]

theorem msg_served (hnew : recordOf s f = none) (hfw : s.cmc.fw = .running) :
    exec (.msg n f) s = .next (if recordsFull s then reply s f 8 5 [] else reply (keepRecord (announce s f.payload) f 0) f 8 0 []) := by
  show execMsg n f s = _
  simp only [execMsg, arrives ha rfl rfl, if_neg (not_broken_of hok hcrc), hnew, if_neg (fun hdown : s.cmc.fw ≠ .running => hdown hfw)]
  exact (apply_ite Host.Outcome.next ..).symm

end
end

/-! ### The requester (R338, R341) -/

section
variable {s : State} {n : Alv} {f : Frame} {o : Outstanding} {j : Job}

theorem asked_some (ho : tget none s.links.outstanding f.tag = some o) (hsrc : o.dst = f.src) : asked s f = some o := by simp only [asked, ho, if_pos hsrc]

/-- An answer to the request o of the job j: the request stands under the frame's tag, was sent to the frame's source, and its job lives. -/
structure AnswersRequest (s : State) (f : Frame) (o : Outstanding) (j : Job) : Prop where
  asked : asked s f = some o
  job : askedJob s o = some j
  zero : f.reservedZero = true

section
variable (ha : Arrives s n 8 f) (hq : AnswersRequest s f o j) (hkind : o.kind ≠ 2) (hlen : f.len = 0) (hpay : f.payload = [])
include ha hq hkind hlen hpay

theorem rsp_busy (hbusy : f.op = 5) : exec (.rsp n f) s = .next (setTag s f.tag (some { o with busyAt := some s.now })) := by
  show execRsp n f s = _
  simp [execRsp, arrives ha rfl rfl, hq.asked, hq.job, hq.zero, hkind, hlen, hpay, hbusy]

theorem rsp_answered (hop : f.op < 8) (hdone : f.op ≠ 5) : exec (.rsp n f) s = .next (statusDone (setTag s f.tag none) n j o f.op) := by
  show execRsp n f s = _
  simp [execRsp, arrives ha rfl rfl, hq.asked, hq.job, hq.zero, hkind, hlen, hpay, hdone, Nat.not_le.mpr hop]

end

section
variable (ha : Arrives s n 9 f) (hq : AnswersRequest s f o j) (hkind : o.kind = 2) (hcrc : f.crcOk = true)
include ha hq hkind hcrc

theorem rdata_bytes (hop : f.op = 0) (hpay : f.payload.length = 256) (hlen : f.len = 16) :
    exec (.rdata n f) s = .next (settleRidge (bringLine (setTag s f.tag none) o f.payload false) o.ridge) := by
  show execRdata n f s = _
  simp [execRdata, arrives ha rfl rfl, hq.asked, hq.job, hq.zero, hkind, hcrc, hop, hpay, hlen]

variable (hpay : f.payload = []) (hlen : f.len = 0)
include hpay hlen

theorem rdata_poisoned (hop : f.op = 4) : exec (.rdata n f) s = .next (bringLine (setTag s f.tag none) o (zeros 256) true) := by
  show execRdata n f s = _
  simp [execRdata, arrives ha rfl rfl, hq.asked, hq.job, hq.zero, hkind, hcrc, hop, hpay, hlen]

theorem rdata_busy (hop : f.op = 5) : exec (.rdata n f) s = .next (setTag s f.tag (some { o with busyAt := some s.now })) := by
  show execRdata n f s = _
  simp [execRdata, arrives ha rfl rfl, hq.asked, hq.job, hq.zero, hkind, hcrc, hop, hpay, hlen]

/-- DENIED (0x2) ends in REMOTE_DENIED (0x05) and UNAVAILABLE (0x3) in REMOTE_UNREACHABLE (0x06) (R338, R260). -/
theorem rdata_refused (hop : f.op = 2 ∨ f.op = 3) : exec (.rdata n f) s = .next (accessRefused (setTag s f.tag none) j o (f.op + 3)) := by
  show execRdata n f s = _
  rcases hop with hop | hop <;>
    simp [execRdata, arrives ha rfl rfl, hq.asked, hq.job, hq.zero, hkind, hcrc, hop, hpay, hlen, statusDone]

end

/-! ### A request's timers (R341, R356) -/

section
variable {tag : Fin 4096} (ho : tget none s.links.outstanding tag = some o) (hawake : awake s = true) (hjob : askedJob s o = some j)
include ho hawake hjob

theorem requestTimeout_next (hidle : o.busyAt = none) (hage : o.sentAt + 2 ^ 16 ≤ s.now) :
    exec (.requestTimeout tag) s = .next (if o.resent then unreachable s tag j o else again s tag j { o with resent := true, sentAt := s.now }) := by
  show execRequestTimeout tag s = _
  have hdue : ¬(!awake s || o.busyAt.isSome || decide (s.now < o.sentAt + 2 ^ 16)) = true := by
    simpa only [hawake, hidle, Bool.not_true, Option.isSome_none, Bool.false_or, decide_eq_true_eq, Nat.not_lt] using hage
  simp only [execRequestTimeout, ho, if_neg hdue, hjob]

theorem busyRetry_next {a : Nat} (hbusy : o.busyAt = some a) (hage : a + 2 ^ 10 ≤ s.now) :
    exec (.busyRetry tag) s = .next (again s tag j { o with busyAt := none, sentAt := s.now }) := by
  show execBusyRetry tag s = _
  have hdue : ¬(!awake s || decide (s.now < a + 2 ^ 10)) = true := by
    simpa only [hawake, Bool.not_true, Bool.false_or, decide_eq_true_eq, Nat.not_lt] using hage
  simp only [execBusyRetry, ho, hbusy, if_neg hdue, hjob]

end
end

/-! ### The statement -/

/-- An expired record: the one erased was there, so the list is shorter by one, and nothing else moves. -/
theorem atomRecordExpiry_shortens (s : State) (k : Nat) (r : AtomRec) (hr : s.links.records[k]? = some r) (hage : r.time + 2 ^ 18 ≤ s.now) :
    ∃ t, exec (.atomRecordExpiry k) s = .next t ∧ t.links.records.length + 1 = s.links.records.length ∧
      t = { s with links := { s.links with records := t.links.records } } := by
  obtain ⟨hk, -⟩ := List.getElem?_eq_some_iff.mp hr
  have herased : (s.links.records.eraseIdx k).length + 1 = s.links.records.length := by
    rw [List.length_eraseIdx_of_lt hk]
    exact Nat.sub_add_cancel (Nat.zero_lt_of_lt hk)
  exact ⟨_, atomRecordExpiry_next hr hage, herased, rfl⟩

/-- Settles O52: each request by the first check that decides it, each answer by its status, each timer and the record's age. -/
theorem remoteAccessesAreAnswered : Obligations.RemoteAccessesAreAnswered := by
  unfold Obligations.RemoteAccessesAreAnswered
  refine ⟨fun s n f => ⟨fun ha => ?wr, fun ha => ?rd, fun ha => ?atom, fun ha => ?msg⟩, fun s n f o j ho hsrc hjob hzero => ?answers,
    fun s tag o j ho hawake hjob => ⟨requestTimeout_next ho hawake hjob, fun _ => busyRetry_next ho hawake hjob⟩, atomRecordExpiry_shortens⟩
  case wr => exact ⟨wr_malformed ha, fun hok hcrc => ⟨fun _ => wr_refused hok hcrc ha, fun _ _ => wr_applied hok hcrc ha⟩⟩
  case rd => exact ⟨rd_malformed ha, fun hok hcrc => ⟨fun _ => rd_refused hok hcrc ha, fun _ _ => rd_applied hok hcrc ha⟩⟩
  case atom =>
    exact ⟨atom_malformed ha, fun hok hcrc => ⟨fun _ => atom_recorded hok hcrc ha, fun hnew => ⟨fun _ => atom_refused hok hcrc hnew ha,
      fun _ _ hc => ⟨atom_busy hok hcrc hnew ha hc, fun hroom => ⟨atom_applied hok hcrc hnew ha hc hroom, recordOf_atomAt hnew⟩⟩⟩⟩⟩
  case msg =>
    exact ⟨msg_malformed ha, fun hok hcrc => ⟨fun _ => msg_recorded ha hok hcrc, msg_unserved ha hok hcrc, msg_served ha hok hcrc⟩⟩
  case answers =>
    have hq : AnswersRequest s f o j := ⟨asked_some ho hsrc, hjob, hzero⟩
    refine ⟨fun ha hop hlen hpay hkind => ?rsp, fun ha hcrc hkind => ⟨rdata_bytes ha hq hkind hcrc, fun h4 hpay hlen => rdata_poisoned ha hq hkind hcrc hpay hlen h4,
      fun h5 hpay hlen => rdata_busy ha hq hkind hcrc hpay hlen h5, fun h23 hpay hlen => rdata_refused ha hq hkind hcrc hpay hlen h23⟩⟩
    have hdone (c : Nat) (hc : f.op = c) (h5 : c ≠ 5) : exec (.rsp n f) s = .next (statusDone (setTag s f.tag none) n j o c) :=
      hc ▸ rsp_answered ha hq hkind hlen hpay hop (hc ▸ h5)
    exact ⟨(hdone 0 · (by decide)), (hdone 1 · (by decide)), (hdone 2 · (by decide)), (hdone 3 · (by decide)), (hdone 4 · (by decide)),
      rsp_busy ha hq hkind hlen hpay, (hdone 6 · (by decide)), (hdone 7 · (by decide))⟩

end Sys2Proof.Laws
end

section
/-!
SUPPORT. Power, reset, clock and input events (R430, R441, R442, R454 to R458, R464): the answer of each row once its condition holds, and what a reset and a hold leave in the state that the row answers.
-/

namespace Sys2Proof.Laws

open Sys2Proof.Machine Sys2Proof.Safety

/-! ### What a reset leaves (R455) -/

/-- A reset keeps the Clay store's records and bytes, also when the supply goes with it. -/
theorem resetLogic_clay (s : State) (cause : Nat) (off : Bool) :
    (resetLogic s cause off).clay.recs = s.clay.recs ∧ (resetLogic s cause off).clay.bytes = s.clay.bytes ∧ (resetLogic s cause off).clay.writers = [] := ⟨rfl, rfl, rfl⟩

theorem resetLogic_work (s : State) (cause : Nat) (off : Bool) :
    (resetLogic s cause off).mem = MemSys.reset ∧ (resetLogic s cause off).jobs = [] ∧ (resetLogic s cause off).ropes = [] := ⟨rfl, rfl, rfl⟩

/-- A reset that the PMU survives and one that it does not both leave their cause. -/
theorem resetLogic_cause (s : State) (cause : Nat) (off : Bool) : (resetLogic s cause off).pmu.resetCause = cause := by
  cases off <;> rfl

theorem logicReset_cause (s : State) (cause : Nat) : (logicReset s cause).pmu.resetCause = cause := resetLogic_cause ..

section
variable {s : State}

/-! ### The pins (R456 to R458) -/

theorem pwrEnRise_next (hoff : s.pmu.on = false) :
    exec .pwrEnRise s = .next (boot (resetLogic { s with pins := { s.pins with pwrEn := true } } 0 true) true true) := by
  show execPwrEnRise s = _
  rw [execPwrEnRise, hoff, if_neg Bool.false_ne_true]

/-- The device switched off (R458): its logic reset after the Clay group in flight, the PMU dark. -/
def switchedOff (s : State) : State :=
  let u := resetLogic (clayFinish s) 0 true
  { u with pmu := { u.pmu with on := false }, pins := { u.pins with pwrEn := false } }

theorem pwrEnFall_next (hon : s.pmu.on = true) : exec .pwrEnFall s = .next (switchedOff s) := by
  show execPwrEnFall s = _
  rw [execPwrEnFall, if_pos hon, switchedOff]

theorem switchedOff_keeps (s : State) :
    (switchedOff s).mem = MemSys.reset ∧ (switchedOff s).jobs = [] ∧ (switchedOff s).ropes = [] ∧
      (switchedOff s).clay.recs = (clayFinish s).clay.recs ∧ (switchedOff s).clay.bytes = (clayFinish s).clay.bytes :=
  have ⟨hmem, hjobs, hropes⟩ := resetLogic_work (clayFinish s) 0 true
  have ⟨hrecs, hbytes, _⟩ := resetLogic_clay (clayFinish s) 0 true
  ⟨hmem, hjobs, hropes, hrecs, hbytes⟩

/-- SYS_RST_N low. -/
def resetHeld (s : State) : State := { s with pins := { s.pins with sysRstN := false } }

theorem sysRstNAssert_next (hhigh : s.pins.sysRstN = true) :
    exec .sysRstNAssert s = .next (resetHeld (if s.pmu.on then logicReset s 0x01 else s)) := by
  show execSysRstNAssert s = _
  have hdone : ¬(!s.pins.sysRstN) = true := by simp [hhigh]
  rw [execSysRstNAssert, if_neg hdone, apply_ite resetHeld]
  rfl

theorem resetHeld_on (hon : s.pmu.on = true) :
    let t := resetHeld (if s.pmu.on then logicReset s 0x01 else s)
    t.pmu.resetCause = 0x01 ∧ t.jobs = [] ∧ t.cmc.fw = Cmc.reset.fw := by
  rw [if_pos hon]
  exact ⟨logicReset_cause s 0x01, rfl, rfl⟩

theorem sysRstNRelease_next (ids : BitVec 12) (dbg test a b : Bool) (hlow : s.pins.sysRstN = false) :
    exec (.sysRstNRelease ids dbg test a b) s = .next (boot { s with pins := { s.pins with sysRstN := true, ids := ids, strapDbg := dbg, strapTest := test } } a b) := by
  show execSysRstNRelease ids dbg test a b s = _
  rw [execSysRstNRelease, hlow, if_neg Bool.false_ne_true]

/-! ### The clocks (R454) -/

/-- The device after the loss of REFCLK: reset with cause 0x02, on the RC clock. -/
def clockLost (s : State) : State :=
  let u := logicReset s 0x02
  { u with pmu := { u.pmu with refLost := true, rcClock := true } }

theorem refclkLoss_next (hon : s.pmu.on = true) (href : s.pmu.refLost = false) : exec .refclkLoss s = .next (clockLost s) := by
  show execRefclkLoss s = _
  have hpass : (s.pmu.on && !s.pmu.refLost) = true := by simp [hon, href]
  rw [execRefclkLoss, if_pos hpass, clockLost]

theorem pllUnlock_next (hon : s.pmu.on = true) (href : s.pmu.refLost = false) : exec .pllUnlock s = .next (boot (logicReset s 0x03) true true) := by
  show execPllUnlock s = _
  have hpass : (s.pmu.on && !s.pmu.refLost) = true := by simp [hon, href]
  rw [execPllUnlock, if_pos hpass]

theorem refclkRestored_next (hon : s.pmu.on = true) (href : s.pmu.refLost = true) :
    exec .refclkRestored s = .next (boot { s with pmu := { s.pmu with refLost := false } } true true) := by
  show execRefclkRestored s = _
  have hpass : (s.pmu.on && s.pmu.refLost) = true := by simp [hon, href]
  rw [execRefclkRestored, if_pos hpass]

/-! ### The 12 V input (R430, R442) -/

/-- A low input is a hold of every ridge. -/
theorem held_of_inputLow (r : Nat) (hlow : s.pmu.inputLow = true) : held s r = true := by
  simp only [held, hlow, Bool.or_true, Bool.true_or]

/-- INPUT_LOW sets the input's fields of the PMU, and its report changes the Col alone. -/
theorem inputLow_next {mv : Nat} (hon : s.pmu.on = true) (hmv : mv < 10800) :
    ∃ t, exec (.inputLow mv) s = .next t ∧ t = { s with pmu := { s.pmu with mv := mv, inputLow := true }, col := t.col } := by
  have hpass : (s.pmu.on && decide (mv < 10800)) = true := by simp [hon, hmv]
  exact ⟨_, if_pos hpass, raiseCoal_eq ..⟩

/-- Every engine stopped. -/
def enginesStopped (s : State) : State := (List.range 48).foldl stopEngine s

theorem enginesStopped_eq (s : State) : enginesStopped s = { s with ridges := (enginesStopped s).ridges, progQueue := (enginesStopped s).progQueue } :=
  (stopEngines (List.range 48) s).1

theorem enginesStopped_engine (s : State) {r : Nat} (hr : r < 48) : (getR (enginesStopped s) r).engine = none :=
  (stopEngines (List.range 48) s).2 r (.inl (List.mem_range.mpr hr))

/-- The device during a loss of its input: engines stopped, ridges held, Clay writes inhibited. -/
def inputLost (s : State) : State :=
  let u := enginesStopped s
  { u with pmu := { u.pmu with inputLow := true, lossAt := some s.now }, clay := { u.clay with inhibit := true } }

theorem inputLoss_next (hon : s.pmu.on = true) (hloss : s.pmu.lossAt = none) : exec .inputLoss s = .next (inputLost s) := by
  show execInputLoss s = _
  have hpass : (s.pmu.on && s.pmu.lossAt.isNone) = true := by simp [hon, hloss]
  rw [execInputLoss, if_pos hpass, inputLost, enginesStopped]

theorem inputLost_clay (s : State) : (inputLost s).clay = { s.clay with inhibit := true } := by
  rw [inputLost, enginesStopped_eq]

theorem inputLost_engine (s : State) {r : Nat} (hr : r < 48) : (getR (inputLost s) r).engine = none := by
  simpa only [getR, inputLost] using enginesStopped_engine s hr

/-- The input is back. -/
def inputBack (s : State) : State := { s with pmu := { s.pmu with inputLow := false, lossAt := none }, clay := { s.clay with inhibit := false } }

section
variable {a : Nat} (hloss : s.pmu.lossAt = some a)
include hloss

theorem inputRestored_boots (hfw : s.cmc.fw = .bedrock) : exec .inputRestored s = .next (boot (inputBack s) true true) := by
  show execInputRestored s = _
  simp only [execInputRestored, hloss, if_pos hfw]
  rfl

theorem inputRestored_resumes (hfw : s.cmc.fw ≠ .bedrock) (hin : s.now ≤ a + 600000) :
    exec .inputRestored s = .next (powerEvent (inputBack s) 0x04 0xFF 0xFF (inputBack s).pmu.mv) := by
  show execInputRestored s = _
  simp only [execInputRestored, hloss, if_neg hfw, if_pos hin]
  rfl

theorem inputLossTimeout_next (hfw : s.cmc.fw ≠ .bedrock) (hlate : a + 600000 < s.now) : exec .inputLossTimeout s = .next (inputReset s) := by
  show execInputLossTimeout s = _
  have hpass : (decide (a + 600000 < s.now) && decide (s.cmc.fw ≠ .bedrock)) = true := by simp [hlate, hfw]
  simp only [execInputLossTimeout, hloss, if_pos hpass]

end

theorem inputReset_leaves (s : State) : (inputReset s).pmu.resetCause = 0x05 ∧ (inputReset s).clay.writers = [] :=
  have ⟨_, _, hwriters⟩ := resetLogic_clay (clayCut s) 0x05 false
  ⟨resetLogic_cause (clayCut s) 0x05 false, hwriters⟩

/-! ### The rails (R441) -/

theorem railFault_next (rail : Fin 12) (mv : Nat) (hon : s.pmu.on = true) (hrail : rail.val ≠ 5) :
    exec (.railFault rail mv) s = .next (if s.pmu.lossAt.isSome then inputReset s else boot (logicReset s 0x04) true true) := by
  show execRailFault rail mv s = _
  have hpass : ¬(!s.pmu.on || decide (rail.val = 5)) = true := by simp [hon, hrail]
  rw [execRailFault, if_neg hpass]
  split <;> rfl

end

/-- Settles O37, one lemma for each event, and what the reset or the hold that it begins leaves; the boot by Bedrock's choice of an image. -/
theorem powerAndClockEventsReset : Obligations.PowerAndClockEventsReset := by
  unfold Obligations.PowerAndClockEventsReset
  refine ⟨fun s => pwrEnRise_next, fun s hon => ⟨_, pwrEnFall_next hon, rfl, rfl, switchedOff_keeps s⟩, fun s hhigh => ⟨_, sysRstNAssert_next hhigh, rfl, resetHeld_on⟩,
    fun s => sysRstNRelease_next, fun s hon href => ⟨_, refclkLoss_next hon href, logicReset_cause s 0x02, rfl, rfl, rfl⟩,
    fun s hon href => ⟨pllUnlock_next hon href, logicReset_cause s 0x03⟩, fun s => refclkRestored_next, fun s mv hon hmv => ?low, fun s hon hloss => ?loss,
    fun s a hloss => ⟨inputRestored_boots hloss, inputRestored_resumes hloss, fun hfw hlate => ⟨inputLossTimeout_next hloss hfw hlate, inputReset_leaves s⟩⟩,
    fun s => railFault_next, boot_facts⟩
  case low =>
    obtain ⟨t, hnext, ht⟩ := inputLow_next hon hmv
    have hpmu : t.pmu = { s.pmu with mv := mv, inputLow := true } := by rw [ht]
    exact ⟨t, hnext, hpmu, by rw [hpmu]; exact ht, fun r => held_of_inputLow r (by rw [hpmu])⟩
  case loss =>
    exact ⟨_, inputLoss_next hon hloss, rfl, rfl, inputLost_clay s, fun r => inputLost_engine s, fun r => held_of_inputLow r rfl⟩

end Sys2Proof.Laws
end

section
/-!
SUPPORT. The Clay store (R418 to R421, R430 to R438): the controller's next group, updates and reads of the record layer, and the failure log's slots.
-/

namespace Sys2Proof.Laws

open Sys2Proof.Machine Sys2Proof.Safety

section
variable {s : State}

/-! ### Groups and updates (R421, R433) -/

theorem clayGroupWriteDone_next {w : Writer} (hw : nextWriter s = some w) (hlive : clayLive s = true) :
    exec .clayGroupWriteDone s = .next (groupWritten s w) := by
  show execClayGroupWriteDone s = _
  simp only [execClayGroupWriteDone, hw, if_pos hlive]

theorem clayRecordUpdate_next {cls idx : Nat} {data : List Byte} (hup : fwUp s = true) (hcls : (1 ≤ cls ∧ cls ≤ 0x0B) ∨ cls = 0x10 ∨ cls = 0x11)
    (hidx : idx < recCount cls) (hlen : data.length ≤ recLen cls) : exec (.clayRecordUpdate cls idx data) s = .next (queueRec s cls idx data) := by
  show execClayRecordUpdate cls idx data s = _
  have hclass : (decide (1 ≤ cls) && decide (cls ≤ 0x0B) || cls = 0x10 || cls = 0x11) = true := by
    simpa only [Bool.or_eq_true, Bool.and_eq_true, decide_eq_true_eq, or_assoc] using hcls
  rw [execClayRecordUpdate, if_pos]
  simp only [hup, hclass, hidx, hlen, decide_true, Bool.and_true]

/-! ### Reads (R434, R438) -/

theorem clayRecordRead_next {cls idx : Nat} (hup : fwUp s = true) (hcls : (1 ≤ cls ∧ cls ≤ 0x0B) ∨ cls = 0x10 ∨ cls = 0x11 ∨ cls = clsGuard)
    (hidx : idx < recCount cls) (hbusy : recBusy s cls idx = false) : exec (.clayRecordRead cls idx) s = .next (readRec s cls idx) := by
  show execClayRecordRead cls idx s = _
  have hclass : (decide (1 ≤ cls) && decide (cls ≤ 0x0B) || cls = 0x10 || cls = 0x11 || cls = clsGuard) = true := by
    simpa only [Bool.or_eq_true, Bool.and_eq_true, decide_eq_true_eq, or_assoc] using hcls
  rw [execClayRecordRead, if_pos]
  simp only [hup, hclass, hidx, hbusy, decide_true, Bool.and_true, Bool.not_false]

@[simp] theorem getRec_setRec_self (s : State) (cls idx : Nat) (v : Rec) : getRec (setRec s cls idx v) cls idx = v := tget_tset_self ..
@[simp] theorem getRec_clearUe (s : State) (a n cls idx : Nat) : getRec (clearUe s a n) cls idx = getRec s cls idx := rfl
@[simp] theorem getRec_clayEvent (s : State) (cause page mask c i : Nat) (s0 s1 : W32) (cls idx : Nat) :
    getRec (clayEvent s cause page mask c i s0 s1) cls idx = getRec s cls idx := rfl
@[simp] theorem getRec_clayCoal (s : State) (cause page mask c i : Nat) (s0 s1 : W32) (cls idx : Nat) :
    getRec (clayCoal s cause page mask c i s0 s1) cls idx = getRec s cls idx := by
  rw [clayCoal, raiseCoal_eq]
  rfl

/-- A record of two equal valid copies resolves to that copy. -/
theorem resolveRec_twin {c : Copy} (hc : copyValid c = true) : (resolveRec ⟨c, c⟩).1 = some c := by
  simp only [resolveRec, hc, if_true]

/-- A read puts a valid copy in both places, or leaves the record as it stands. -/
theorem resolveRec_cases (v : Rec) : (∃ c ev, copyValid c = true ∧ resolveRec v = (some c, ⟨c, c⟩, ev)) ∨ ∃ o ev, resolveRec v = (o, v, ev) := by
  unfold resolveRec
  split
  case h_1 h0 h1 =>
    split
    · split
      · exact .inr ⟨_, _, rfl⟩
      · exact .inl ⟨_, _, h0, rfl⟩
    · split
      · exact .inl ⟨_, _, h1, rfl⟩
      · exact .inl ⟨_, _, h0, rfl⟩
  case h_2 h0 _ => exact .inl ⟨_, _, h0, rfl⟩
  case h_3 _ h1 => exact .inl ⟨_, _, h1, rfl⟩
  case h_4 => exact .inr ⟨_, _, rfl⟩

/-- The repaired record resolves as the record did. -/
theorem resolveRec_repaired (v : Rec) : (resolveRec (resolveRec v).2.1).1 = (resolveRec v).1 := by
  obtain ⟨c, ev, hvalid, htwin⟩ | ⟨o, ev, hsame⟩ := resolveRec_cases v
  · rw [htwin, resolveRec_twin hvalid]
  · have hkept : (resolveRec v).2.1 = v := by rw [hsame]
    rw [hkept]

/-- A read of a record that resolves leaves it repaired. -/
theorem getRec_readRec {cls idx : Nat} {c : Copy} (hc : (resolveRec (getRec s cls idx)).1 = some c) :
    getRec (readRec s cls idx) cls idx = (resolveRec (getRec s cls idx)).2.1 := by
  rcases hr : resolveRec (getRec s cls idx) with ⟨taken, v, ev⟩
  obtain rfl : taken = some c := by rw [← hc, hr]
  have hrepaired : getRec (if v = getRec s cls idx then s else
      clearUe (clearUe (setRec s cls idx v) (copyAddr cls idx 0) (copySize cls)) (copyAddr cls idx 1) (copySize cls)) cls idx = v := by
    split
    case isTrue hsame => exact hsame.symm
    case isFalse => simp
  simp only [readRec, hr]
  split
  · rw [getRec_clayEvent, hrepaired]
  · rw [getRec_clayCoal, hrepaired]
  · exact hrepaired

theorem recPayload_readRec {cls idx : Nat} {c : Copy} (hc : (resolveRec (getRec s cls idx)).1 = some c) : recPayload (readRec s cls idx) cls idx = c.data := by
  rw [recPayload, getRec_readRec hc, resolveRec_repaired, hc, Option.bind_some]

/-! ### The failure log (R437) -/

/-- The log with an entry in its slot of 816, in place of the one that stood there. -/
def logWith (e : LogRec) (log : List LogRec) : List LogRec := log.filter (fun x => x.seq % 816 ≠ e.seq % 816) ++ [e]

theorem mem_logWith_self (e : LogRec) (log : List LogRec) : e ∈ logWith e log := List.mem_append_right _ (List.mem_singleton_self e)

/-- Every other entry of the log stood in it before, in another slot. -/
theorem mem_logWith_other {e x : LogRec} {log : List LogRec} (hx : x ∈ logWith e log) (hne : x ≠ e) : x ∈ log ∧ x.seq % 816 ≠ e.seq % 816 := by
  obtain hold | hnew := List.mem_append.mp hx
  · simpa only [List.mem_filter, decide_eq_true_eq] using hold
  · exact absurd (List.mem_singleton.mp hnew) hne

theorem failureLogWrite_next {e : LogRec} {l : List LogRec} (hwait : s.integ.waitingLog = e :: l) (hlive : clayLive s = true)
    (hmid : s.clay.writers.any writerMid = false) (hjournal : s.clay.writers.any (fun w => writerRank w = 1) = false) :
    ∃ t, exec .failureLogWrite s = .next t ∧ t.integ.waitingLog = l ∧ t.integ.log = logWith e s.integ.log := by
  have hpass : (clayLive s && !s.clay.writers.any writerMid && !s.clay.writers.any (fun w => writerRank w = 1)) = true := by
    rw [hlive, hmid, hjournal]
    rfl
  refine ⟨{ clearUe s ((6560 + 2 * (e.seq % 816)) * 64) 128 with integ := { s.integ with waitingLog := l, log := logWith e s.integ.log } }, ?_, rfl, rfl⟩
  show execFailureLogWrite s = _
  simp only [execFailureLogWrite, hwait, if_pos hpass]
  rfl

end

/-- Settles O46: one lemma for each row, the payload of a read record because a repair leaves the copy taken, and the log by the slot that its new entry takes. -/
theorem clayRecordsAreKept : Obligations.ClayRecordsAreKept := by
  unfold Obligations.ClayRecordsAreKept
  refine ⟨fun s w => clayGroupWriteDone_next, fun s cls idx data => clayRecordUpdate_next,
    fun s cls idx hup hcls hidx hbusy => ⟨clayRecordRead_next hup hcls hidx hbusy, fun c => recPayload_readRec⟩, fun s e l hwait hlive hmid hjournal => ?log⟩
  case log =>
    obtain ⟨t, hnext, hrest, hlog⟩ := failureLogWrite_next hwait hlive hmid hjournal
    exact ⟨t, hnext, hrest, hlog ▸ mem_logWith_self e _, fun x hx => mem_logWith_other (hlog ▸ hx)⟩

end Sys2Proof.Laws
end

section
/-!
SUPPORT. The machine as a whole: what a step runs, what every command keeps, the passing of a cycle, and the reset state. Laws/Runs.lean, Laws/KeptCommands.lean and Laws/OnlyCommands.lean treat one meaning each; exec_confined gathers them by the constructors of Instr.
-/

namespace Sys2Proof.Laws

open Sys2Proof.Machine Sys2Proof.Safety

/-! ### The step -/

theorem step_of_front {s : State} {c : Instr} {rest : List Instr} (h : s.pending = c :: rest) : step s = exec c { s with pending := rest } := by
  rw [step, h]

theorem step_of_idle {s : State} (h : s.pending = []) : step s = .next (tick s) := by
  rw [step, h]

/-- Settles O53, by the two forms of the queue. -/
theorem stepsRunTheFrontCommand : Obligations.StepsRunTheFrontCommand := by
  unfold Obligations.StepsRunTheFrontCommand
  exact ⟨fun c s => step_of_front (s := { s with pending := c :: s.pending }) rfl, fun _ _ _ => step_of_front, fun _ => step_of_idle⟩

/-! ### Every command -/

/-- A command in a state: it answers a next state, which has the queue and the clocks of s, canonical memories where s has them, and every part as s has it that mayChange does not list. -/
structure Confined (c : Instr) (s : State) : Prop where
  runs : Runs (exec c s)
  kept : KeptOut s (exec c s)
  only : OnlyOut (mayChange c) s (exec c s)

/-- Every command is confined, each by the three laws of its meaning. -/
theorem exec_confined (c : Instr) (s : State) : Confined c s := match c with
  | .nop .. => ⟨execNop_runs, execNop_kept (.refl s), execNop_only (.refl s) (.self _)⟩
  | .halt .. => ⟨execHalt_runs, execHalt_kept (.refl s), execHalt_only (.refl s) (.self _)⟩
  | .vld .. => ⟨execVld_runs, execVld_kept (.refl s), execVld_only (.refl s) (.self _)⟩
  | .vldComplete .. => ⟨execVldComplete_runs, execVldComplete_kept (.refl s), execVldComplete_only (.refl s) (.self _)⟩
  | .mvm .. => ⟨execMvm_runs, execMvm_kept (.refl s), execMvm_only (.refl s) (.self _)⟩
  | .mvms .. => ⟨execMvms_runs, execMvms_kept (.refl s), execMvms_only (.refl s) (.self _)⟩
  | .contributionCommit .. => ⟨execContributionCommit_runs, execContributionCommit_kept (.refl s), execContributionCommit_only (.refl s) (.self _)⟩
  | .pre .. => ⟨execPre_runs, execPre_kept (.refl s), execPre_only (.refl s) (.self _)⟩
  | .drn .. => ⟨execDrn_runs, execDrn_kept (.refl s), execDrn_only (.refl s) (.self _)⟩
  | .drainComplete .. => ⟨execDrainComplete_runs, execDrainComplete_kept (.refl s), execDrainComplete_only (.refl s) (.self _)⟩
  | .spl .. => ⟨execSpl_runs, execSpl_kept (.refl s), execSpl_only (.refl s) (.self _)⟩
  | .fil .. => ⟨execFil_runs, execFil_kept (.refl s), execFil_only (.refl s) (.self _)⟩
  | .aad .. => ⟨execAad_runs, execAad_kept (.refl s), execAad_only (.refl s) (.self _)⟩
  | .aadArrival .. => ⟨execAadArrival_runs, execAadArrival_kept (.refl s), execAadArrival_only (.refl s) (.self _)⟩
  | .memoryAtomicApply .. => ⟨execMemoryAtomicApply_runs, execMemoryAtomicApply_kept (.refl s), execMemoryAtomicApply_only (.refl s) (.self _)⟩
  | .dmm .. => ⟨execDmm_runs, execDmm_kept (.refl s), execDmm_only (.refl s) (.self _)⟩
  | .vop .. => ⟨execVop_runs, execVop_kept (.refl s), execVop_only (.refl s) (.self _)⟩
  | .red .. => ⟨execRed_runs, execRed_kept (.refl s), execRed_only (.refl s) (.self _)⟩
  | .dmaCopy .. => ⟨execDmaCopy_runs, execDmaCopy_kept (.refl s), execDmaCopy_only (.refl s) (.self _)⟩
  | .dmaPrefetch .. => ⟨execDmaPrefetch_runs, execDmaPrefetch_kept (.refl s), execDmaPrefetch_only (.refl s) (.self _)⟩
  | .dmaInval .. => ⟨execDmaInval_runs, execDmaInval_kept (.refl s), execDmaInval_only (.refl s) (.self _)⟩
  | .dmaFill .. => ⟨execDmaFill_runs, execDmaFill_kept (.refl s), execDmaFill_only (.refl s) (.self _)⟩
  | .dmaSegment .. => ⟨execDmaSegment_runs, execDmaSegment_kept (.refl s), execDmaSegment_only (.refl s) (.self _)⟩
  | .dmaCompletion .. => ⟨execDmaCompletion_runs, execDmaCompletion_kept (.refl s), execDmaCompletion_only (.refl s) (.self _)⟩
  | .pageWalk .. => ⟨execPageWalk_runs, execPageWalk_kept (.refl s), execPageWalk_only (.refl s) (.self _)⟩
  | .moraineFill .. => ⟨execMoraineFill_runs, execMoraineFill_kept (.refl s), execMoraineFill_only (.refl s) (.self _)⟩
  | .ringPrefetchFill .. => ⟨execRingPrefetchFill_runs, execRingPrefetchFill_kept (.refl s), execRingPrefetchFill_only (.refl s) (.self _)⟩
  | .wait .. => ⟨execWait_runs, execWait_kept (.refl s), execWait_only (.refl s) (.self _)⟩
  | .waitSatisfied .. => ⟨execWaitSatisfied_runs, execWaitSatisfied_kept (.refl s), execWaitSatisfied_only (.refl s) (.self _)⟩
  | .sig .. => ⟨execSig_runs, execSig_kept (.refl s), execSig_only (.refl s) (.self _)⟩
  | .remoteSigArrival .. => ⟨execRemoteSigArrival_runs, execRemoteSigArrival_kept (.refl s), execRemoteSigArrival_only (.refl s) (.self _)⟩
  | .crn .. => ⟨execCrn_runs, execCrn_kept (.refl s), execCrn_only (.refl s) (.self _)⟩
  | .cairnCommit .. => ⟨execCairnCommit_runs, execCairnCommit_kept (.refl s), execCairnCommit_only (.refl s) (.self _)⟩
  | .rbg .. => ⟨execRbg_runs, execRbg_kept (.refl s), execRbg_only (.refl s) (.self _)⟩
  | .ren .. => ⟨execRen_runs, execRen_kept (.refl s), execRen_only (.refl s) (.self _)⟩
  | .ropeCommitGrant .. => ⟨execRopeCommitGrant_runs, execRopeCommitGrant_kept (.refl s), execRopeCommitGrant_only (.refl s) (.self _)⟩
  | .ropeTimeout .. => ⟨execRopeTimeout_runs, execRopeTimeout_kept (.refl s), execRopeTimeout_only (.refl s) (.self _)⟩
  | .pinHoldTimeout .. => ⟨execPinHoldTimeout_runs, execPinHoldTimeout_kept (.refl s), execPinHoldTimeout_only (.refl s) (.self _)⟩
  | .prb .. => ⟨execPrb_runs, execPrb_kept (.refl s), execPrb_only (.refl s) (.self _)⟩
  | .srv .. => ⟨execSrv_runs, execSrv_kept (.refl s), execSrv_only (.refl s) (.self _)⟩
  | .tmap .. => ⟨execTmap_runs, execTmap_kept (.refl s), execTmap_only (.refl s) (.self _)⟩
  | .probeInsert .. => ⟨execProbeInsert_runs, execProbeInsert_kept (.refl s), execProbeInsert_only (.refl s) (.self _)⟩
  | .probeCompare .. => ⟨execProbeCompare_runs, execProbeCompare_kept (.refl s), execProbeCompare_only (.refl s) (.self _)⟩
  | .surveyComplete .. => ⟨execSurveyComplete_runs, execSurveyComplete_kept (.refl s), execSurveyComplete_only (.refl s) (.self _)⟩
  | .surveySpanTimeout .. => ⟨execSurveySpanTimeout_runs, execSurveySpanTimeout_kept (.refl s), execSurveySpanTimeout_only (.refl s) (.self _)⟩
  | .surveyAgeTimer .. => ⟨execSurveyAgeTimer_runs, execSurveyAgeTimer_kept (.refl s), execSurveyAgeTimer_only (.refl s) (.self _)⟩
  | .surveyMvmCount .. => ⟨execSurveyMvmCount_runs, execSurveyMvmCount_kept (.refl s), execSurveyMvmCount_only (.refl s) (.self _)⟩
  | .surveyIssue .. => ⟨execSurveyIssue_runs, execSurveyIssue_kept (.refl s), execSurveyIssue_only (.refl s) (.self _)⟩
  | .driftFold .. => ⟨execDriftFold_runs, execDriftFold_kept (.refl s), execDriftFold_only (.refl s) (.self _)⟩
  | .refresh .. => ⟨execRefresh_runs, execRefresh_kept (.refl s), execRefresh_only (.refl s) (.self _)⟩
  | .tileSwap .. => ⟨execTileSwap_runs, execTileSwap_kept (.refl s), execTileSwap_only (.refl s) (.self _)⟩
  | .programmingStart => ⟨execProgrammingStart_runs, execProgrammingStart_kept (.refl s), execProgrammingStart_only (.refl s) (.self _)⟩
  | .programmingComplete .. => ⟨execProgrammingComplete_runs, execProgrammingComplete_kept (.refl s), execProgrammingComplete_only (.refl s) (.self _)⟩
  | .bulkResetTrain .. => ⟨execBulkResetTrain_runs, execBulkResetTrain_kept (.refl s), execBulkResetTrain_only (.refl s) (.self _)⟩
  | .loadCalibrationEnd .. => ⟨execLoadCalibrationEnd_runs, execLoadCalibrationEnd_kept (.refl s), execLoadCalibrationEnd_only (.refl s) (.self _)⟩
  | .converterCalibration .. => ⟨execConverterCalibration_runs, execConverterCalibration_kept (.refl s), execConverterCalibration_only (.refl s) (.self _)⟩
  | .powerFrame .. => ⟨execPowerFrame_runs, execPowerFrame_kept (.refl s), execPowerFrame_only (.refl s) (.self _)⟩
  | .thermalModelStep => ⟨execThermalModelStep_runs, execThermalModelStep_kept (.refl s), execThermalModelStep_only (.refl s) (.self _)⟩
  | .peakPowerHold .. => ⟨execPeakPowerHold_runs, execPeakPowerHold_kept (.refl s), execPeakPowerHold_only (.refl s) (.self _)⟩
  | .peakHoldHotTimer => ⟨execPeakHoldHotTimer_runs, execPeakHoldHotTimer_kept (.refl s), execPeakHoldHotTimer_only (.refl s) (.self _)⟩
  | .estimateStale => ⟨execEstimateStale_runs, execEstimateStale_kept (.refl s), execEstimateStale_only (.refl s) (.self _)⟩
  | .noEstimateWindowEnd => ⟨execNoEstimateWindowEnd_runs, execNoEstimateWindowEnd_kept (.refl s), execNoEstimateWindowEnd_only (.refl s) (.self _)⟩
  | .inletStale => ⟨execInletStale_runs, execInletStale_kept (.refl s), execInletStale_only (.refl s) (.self _)⟩
  | .fwHeartbeat => ⟨execFwHeartbeat_runs, execFwHeartbeat_kept (.refl s), execFwHeartbeat_only (.refl s) (.self _)⟩
  | .heartbeatTimeout => ⟨execHeartbeatTimeout_runs, execHeartbeatTimeout_kept (.refl s), execHeartbeatTimeout_only (.refl s) (.self _)⟩
  | .fwStartTimeout => ⟨execFwStartTimeout_runs, execFwStartTimeout_kept (.refl s), execFwStartTimeout_only (.refl s) (.self _)⟩
  | .fwRunning => ⟨execFwRunning_runs, execFwRunning_kept (.refl s), execFwRunning_only (.refl s) (.self _)⟩
  | .svnRaise => ⟨execSvnRaise_runs, execSvnRaise_kept (.refl s), execSvnRaise_only (.refl s) (.self _)⟩
  | .colGrant => ⟨execColGrant_runs, execColGrant_kept (.refl s), execColGrant_only (.refl s) (.self _)⟩
  | .windowMarker .. => ⟨execWindowMarker_runs, execWindowMarker_kept (.refl s), execWindowMarker_only (.refl s) (.self _)⟩
  | .arbiterGrant .. => ⟨execArbiterGrant_runs, execArbiterGrant_kept (.refl s), execArbiterGrant_only (.refl s) (.self _)⟩
  | .countTimeout .. => ⟨execCountTimeout_runs, execCountTimeout_kept (.refl s), execCountTimeout_only (.refl s) (.self _)⟩
  | .jobEndOnFault .. => ⟨execJobEndOnFault_runs, execJobEndOnFault_kept (.refl s), execJobEndOnFault_only (.refl s) (.self _)⟩
  | .jobStart .. => ⟨execJobStart_runs, execJobStart_kept (.refl s), execJobStart_only (.refl s) (.self _)⟩
  | .jobCompletion .. => ⟨execJobCompletion_runs, execJobCompletion_kept (.refl s), execJobCompletion_only (.refl s) (.self _)⟩
  | .egressFenceRelease .. => ⟨execEgressFenceRelease_runs, execEgressFenceRelease_kept (.refl s), execEgressFenceRelease_only (.refl s) (.self _)⟩
  | .jobTimeLimit .. => ⟨execJobTimeLimit_runs, execJobTimeLimit_kept (.refl s), execJobTimeLimit_only (.refl s) (.self _)⟩
  | .preemption .. => ⟨execPreemption_runs, execPreemption_kept (.refl s), execPreemption_only (.refl s) (.self _)⟩
  | .preemptionRestore .. => ⟨execPreemptionRestore_runs, execPreemptionRestore_kept (.refl s), execPreemptionRestore_only (.refl s) (.self _)⟩
  | .jobRestart .. => ⟨execJobRestart_runs, execJobRestart_kept (.refl s), execJobRestart_only (.refl s) (.self _)⟩
  | .fieldTestDue .. => ⟨execFieldTestDue_runs, execFieldTestDue_kept (.refl s), execFieldTestDue_only (.refl s) (.self _)⟩
  | .testGraceExpiry .. => ⟨execTestGraceExpiry_runs, execTestGraceExpiry_kept (.refl s), execTestGraceExpiry_only (.refl s) (.self _)⟩
  | .fieldTestComplete .. => ⟨execFieldTestComplete_runs, execFieldTestComplete_kept (.refl s), execFieldTestComplete_only (.refl s) (.self _)⟩
  | .hbAttnAck .. => ⟨execHbAttnAck_runs, execHbAttnAck_kept (.refl s), execHbAttnAck_only (.refl s) (.self _)⟩
  | .hbDbAdmin .. => ⟨execHbDbAdmin_runs, execHbDbAdmin_kept (.refl s), execHbDbAdmin_only (.refl s) (.self _)⟩
  | .sqDoorbell .. => ⟨execSqDoorbell_runs, execSqDoorbell_kept (.refl s), execSqDoorbell_only (.refl s) (.self _)⟩
  | .cqDoorbell .. => ⟨execCqDoorbell_runs, execCqDoorbell_kept (.refl s), execCqDoorbell_only (.refl s) (.self _)⟩
  | .commandFetch .. => ⟨execCommandFetch_runs, execCommandFetch_kept (.refl s), execCommandFetch_only (.refl s) (.self _)⟩
  | .hbCtrl .. => ⟨execHbCtrl_runs, execHbCtrl_kept (.refl s), execHbCtrl_only (.refl s) (.self _)⟩
  | .hbAqCfg .. => ⟨execHbAqCfg_runs, execHbAqCfg_kept (.refl s), execHbAqCfg_only (.refl s) (.self _)⟩
  | .hbEvtDrop .. => ⟨execHbEvtDrop_runs, execHbEvtDrop_kept (.refl s), execHbEvtDrop_only (.refl s) (.self _)⟩
  | .hbColSeqLo .. => ⟨execHbColSeqLo_runs, execHbColSeqLo_kept (.refl s), execHbColSeqLo_only (.refl s) (.self _)⟩
  | .hbColSeqHi .. => ⟨execHbColSeqHi_runs, execHbColSeqHi_kept (.refl s), execHbColSeqHi_only (.refl s) (.self _)⟩
  | .registerWrite .. => ⟨execRegisterWrite_runs, execRegisterWrite_kept (.refl s), execRegisterWrite_only (.refl s) (.self _)⟩
  | .rappelQueue .. => ⟨execRappelQueue_runs, execRappelQueue_kept (.refl s), execRappelQueue_only (.refl s) (.self _)⟩
  | .rappelPartition .. => ⟨execRappelPartition_runs, execRappelPartition_kept (.refl s), execRappelPartition_only (.refl s) (.self _)⟩
  | .rappelDevice .. => ⟨execRappelDevice_runs, execRappelDevice_kept (.refl s), execRappelDevice_only (.refl s) (.self _)⟩
  | .identify .. => ⟨execIdentify_runs, execIdentify_kept (.refl s), execIdentify_only (.refl s) (.self _)⟩
  | .getCaps .. => ⟨execGetCaps_runs, execGetCaps_kept (.refl s), execGetCaps_only (.refl s) (.self _)⟩
  | .progPower .. => ⟨execProgPower_runs, execProgPower_kept (.refl s), execProgPower_only (.refl s) (.self _)⟩
  | .surveyPolicy .. => ⟨execSurveyPolicy_runs, execSurveyPolicy_kept (.refl s), execSurveyPolicy_only (.refl s) (.self _)⟩
  | .thermalPolicy .. => ⟨execThermalPolicy_runs, execThermalPolicy_kept (.refl s), execThermalPolicy_only (.refl s) (.self _)⟩
  | .arbWeight .. => ⟨execArbWeight_runs, execArbWeight_kept (.refl s), execArbWeight_only (.refl s) (.self _)⟩
  | .arbLimit .. => ⟨execArbLimit_runs, execArbLimit_kept (.refl s), execArbLimit_only (.refl s) (.self _)⟩
  | .arbStatus .. => ⟨execArbStatus_runs, execArbStatus_kept (.refl s), execArbStatus_only (.refl s) (.self _)⟩
  | .windowPolicy .. => ⟨execWindowPolicy_runs, execWindowPolicy_kept (.refl s), execWindowPolicy_only (.refl s) (.self _)⟩
  | .probePolicy .. => ⟨execProbePolicy_runs, execProbePolicy_kept (.refl s), execProbePolicy_only (.refl s) (.self _)⟩
  | .partBind .. => ⟨execPartBind_runs, execPartBind_kept (.refl s), execPartBind_only (.refl s) (.self _)⟩
  | .ridgeMap .. => ⟨execRidgeMap_runs, execRidgeMap_kept (.refl s), execRidgeMap_only (.refl s) (.self _)⟩
  | .getFeature .. => ⟨execGetFeature_runs, execGetFeature_kept (.refl s), execGetFeature_only (.refl s) (.self _)⟩
  | .partCreate .. => ⟨execPartCreate_runs, execPartCreate_kept (.refl s), execPartCreate_only (.refl s) (.self _)⟩
  | .partDestroy .. => ⟨execPartDestroy_runs, execPartDestroy_kept (.refl s), execPartDestroy_only (.refl s) (.self _)⟩
  | .partQuery .. => ⟨execPartQuery_runs, execPartQuery_kept (.refl s), execPartQuery_only (.refl s) (.self _)⟩
  | .queueCreate .. => ⟨execQueueCreate_runs, execQueueCreate_kept (.refl s), execQueueCreate_only (.refl s) (.self _)⟩
  | .queueDestroy .. => ⟨execQueueDestroy_runs, execQueueDestroy_kept (.refl s), execQueueDestroy_only (.refl s) (.self _)⟩
  | .wsetLoad .. => ⟨execWsetLoad_runs, execWsetLoad_kept (.refl s), execWsetLoad_only (.refl s) (.self _)⟩
  | .wsetUnload .. => ⟨execWsetUnload_runs, execWsetUnload_kept (.refl s), execWsetUnload_only (.refl s) (.self _)⟩
  | .wsetVerify .. => ⟨execWsetVerify_runs, execWsetVerify_kept (.refl s), execWsetVerify_only (.refl s) (.self _)⟩
  | .progLoad .. => ⟨execProgLoad_runs, execProgLoad_kept (.refl s), execProgLoad_only (.refl s) (.self _)⟩
  | .progUnload .. => ⟨execProgUnload_runs, execProgUnload_kept (.refl s), execProgUnload_only (.refl s) (.self _)⟩
  | .jobSubmit .. => ⟨execJobSubmit_runs, execJobSubmit_kept (.refl s), execJobSubmit_only (.refl s) (.self _)⟩
  | .jobResume .. => ⟨execJobResume_runs, execJobResume_kept (.refl s), execJobResume_only (.refl s) (.self _)⟩
  | .jobCairnExport .. => ⟨execJobCairnExport_runs, execJobCairnExport_kept (.refl s), execJobCairnExport_only (.refl s) (.self _)⟩
  | .calibrate .. => ⟨execCalibrate_runs, execCalibrate_kept (.refl s), execCalibrate_only (.refl s) (.self _)⟩
  | .testRun .. => ⟨execTestRun_runs, execTestRun_kept (.refl s), execTestRun_only (.refl s) (.self _)⟩
  | .abort .. => ⟨execAbort_runs, execAbort_kept (.refl s), execAbort_only (.refl s) (.self _)⟩
  | .attest .. => ⟨execAttest_runs, execAttest_kept (.refl s), execAttest_only (.refl s) (.self _)⟩
  | .clayRead .. => ⟨execClayRead_runs, execClayRead_kept (.refl s), execClayRead_only (.refl s) (.self _)⟩
  | .clayWrite .. => ⟨execClayWrite_runs, execClayWrite_kept (.refl s), execClayWrite_only (.refl s) (.self _)⟩
  | .clayUnlock .. => ⟨execClayUnlock_runs, execClayUnlock_kept (.refl s), execClayUnlock_only (.refl s) (.self _)⟩
  | .clayProtect .. => ⟨execClayProtect_runs, execClayProtect_kept (.refl s), execClayProtect_only (.refl s) (.self _)⟩
  | .fwStage .. => ⟨execFwStage_runs, execFwStage_kept (.refl s), execFwStage_only (.refl s) (.self _)⟩
  | .fwCommit .. => ⟨execFwCommit_runs, execFwCommit_kept (.refl s), execFwCommit_only (.refl s) (.self _)⟩
  | .eventConfig .. => ⟨execEventConfig_runs, execEventConfig_kept (.refl s), execEventConfig_only (.refl s) (.self _)⟩
  | .logExport .. => ⟨execLogExport_runs, execLogExport_kept (.refl s), execLogExport_only (.refl s) (.self _)⟩
  | .peerTable .. => ⟨execPeerTable_runs, execPeerTable_kept (.refl s), execPeerTable_only (.refl s) (.self _)⟩
  | .routeSet .. => ⟨execRouteSet_runs, execRouteSet_kept (.refl s), execRouteSet_only (.refl s) (.self _)⟩
  | .powerCap .. => ⟨execPowerCap_runs, execPowerCap_kept (.refl s), execPowerCap_only (.refl s) (.self _)⟩
  | .thermalInlet .. => ⟨execThermalInlet_runs, execThermalInlet_kept (.refl s), execThermalInlet_only (.refl s) (.self _)⟩
  | .tunnelDown .. => ⟨execTunnelDown_runs, execTunnelDown_kept (.refl s), execTunnelDown_only (.refl s) (.self _)⟩
  | .tunnelUp .. => ⟨execTunnelUp_runs, execTunnelUp_kept (.refl s), execTunnelUp_only (.refl s) (.self _)⟩
  | .vfFlr .. => ⟨execVfFlr_runs, execVfFlr_kept (.refl s), execVfFlr_only (.refl s) (.self _)⟩
  | .pf0Flr .. => ⟨execPf0Flr_runs, execPf0Flr_kept (.refl s), execPf0Flr_only (.refl s) (.self _)⟩
  | .getVersion .. => ⟨execGetVersion_runs, execGetVersion_kept (.refl s), execGetVersion_only (.refl s) (.self _)⟩
  | .getCapabilities .. => ⟨execGetCapabilities_runs, execGetCapabilities_kept (.refl s), execGetCapabilities_only (.refl s) (.self _)⟩
  | .negotiateAlgorithms .. => ⟨execNegotiateAlgorithms_runs, execNegotiateAlgorithms_kept (.refl s), execNegotiateAlgorithms_only (.refl s) (.self _)⟩
  | .getDigests .. => ⟨execGetDigests_runs, execGetDigests_kept (.refl s), execGetDigests_only (.refl s) (.self _)⟩
  | .getCertificate .. => ⟨execGetCertificate_runs, execGetCertificate_kept (.refl s), execGetCertificate_only (.refl s) (.self _)⟩
  | .challenge .. => ⟨execChallenge_runs, execChallenge_kept (.refl s), execChallenge_only (.refl s) (.self _)⟩
  | .getMeasurements .. => ⟨execGetMeasurements_runs, execGetMeasurements_kept (.refl s), execGetMeasurements_only (.refl s) (.self _)⟩
  | .keyExchange .. => ⟨execKeyExchange_runs, execKeyExchange_kept (.refl s), execKeyExchange_only (.refl s) (.self _)⟩
  | .finish .. => ⟨execFinish_runs, execFinish_kept (.refl s), execFinish_only (.refl s) (.self _)⟩
  | .heartbeat .. => ⟨execHeartbeat_runs, execHeartbeat_kept (.refl s), execHeartbeat_only (.refl s) (.self _)⟩
  | .keyUpdate .. => ⟨execKeyUpdate_runs, execKeyUpdate_kept (.refl s), execKeyUpdate_only (.refl s) (.self _)⟩
  | .endSession .. => ⟨execEndSession_runs, execEndSession_kept (.refl s), execEndSession_only (.refl s) (.self _)⟩
  | .keyProg .. => ⟨execKeyProg_runs, execKeyProg_kept (.refl s), execKeyProg_only (.refl s) (.self _)⟩
  | .kSetGo .. => ⟨execKSetGo_runs, execKSetGo_kept (.refl s), execKSetGo_only (.refl s) (.self _)⟩
  | .kSetStop .. => ⟨execKSetStop_runs, execKSetStop_kept (.refl s), execKSetStop_only (.refl s) (.self _)⟩
  | .ideKmQuery .. => ⟨execIdeKmQuery_runs, execIdeKmQuery_kept (.refl s), execIdeKmQuery_only (.refl s) (.self _)⟩
  | .ideFail .. => ⟨execIdeFail_runs, execIdeFail_kept (.refl s), execIdeFail_only (.refl s) (.self _)⟩
  | .lockInterface .. => ⟨execLockInterface_runs, execLockInterface_kept (.refl s), execLockInterface_only (.refl s) (.self _)⟩
  | .startInterface .. => ⟨execStartInterface_runs, execStartInterface_kept (.refl s), execStartInterface_only (.refl s) (.self _)⟩
  | .stopInterface .. => ⟨execStopInterface_runs, execStopInterface_kept (.refl s), execStopInterface_only (.refl s) (.self _)⟩
  | .getDeviceInterfaceReport .. => ⟨execGetDeviceInterfaceReport_runs, execGetDeviceInterfaceReport_kept (.refl s), execGetDeviceInterfaceReport_only (.refl s) (.self _)⟩
  | .debugAttach => ⟨execDebugAttach_runs, execDebugAttach_kept (.refl s), execDebugAttach_only (.refl s) (.self _)⟩
  | .getStatus => ⟨execGetStatus_runs, execGetStatus_kept (.refl s), execGetStatus_only (.refl s) (.self _)⟩
  | .getPower => ⟨execGetPower_runs, execGetPower_kept (.refl s), execGetPower_only (.refl s) (.self _)⟩
  | .getThermal => ⟨execGetThermal_runs, execGetThermal_kept (.refl s), execGetThermal_only (.refl s) (.self _)⟩
  | .getIdentity => ⟨execGetIdentity_runs, execGetIdentity_kept (.refl s), execGetIdentity_only (.refl s) (.self _)⟩
  | .getLog .. => ⟨execGetLog_runs, execGetLog_kept (.refl s), execGetLog_only (.refl s) (.self _)⟩
  | .mctpControlMessage .. => ⟨execMctpControlMessage_runs, execMctpControlMessage_kept (.refl s), execMctpControlMessage_only (.refl s) (.self _)⟩
  | .codewordReceive .. => ⟨execCodewordReceive_runs, execCodewordReceive_kept (.refl s), execCodewordReceive_only (.refl s) (.self _)⟩
  | .ackTimeout .. => ⟨execAckTimeout_runs, execAckTimeout_kept (.refl s), execAckTimeout_only (.refl s) (.self _)⟩
  | .retrain .. => ⟨execRetrain_runs, execRetrain_kept (.refl s), execRetrain_only (.refl s) (.self _)⟩
  | .linkTrainingComplete .. => ⟨execLinkTrainingComplete_runs, execLinkTrainingComplete_kept (.refl s), execLinkTrainingComplete_only (.refl s) (.self _)⟩
  | .trainingFail .. => ⟨execTrainingFail_runs, execTrainingFail_kept (.refl s), execTrainingFail_only (.refl s) (.self _)⟩
  | .downRetry .. => ⟨execDownRetry_runs, execDownRetry_kept (.refl s), execDownRetry_only (.refl s) (.self _)⟩
  | .routeRecompute => ⟨execRouteRecompute_runs, execRouteRecompute_kept (.refl s), execRouteRecompute_only (.refl s) (.self _)⟩
  | .hailSend => ⟨execHailSend_runs, execHailSend_kept (.refl s), execHailSend_only (.refl s) (.self _)⟩
  | .wr .. => ⟨execWr_runs, execWr_kept (.refl s), execWr_only (.refl s) (.self _)⟩
  | .rd .. => ⟨execRd_runs, execRd_kept (.refl s), execRd_only (.refl s) (.self _)⟩
  | .atom .. => ⟨execAtom_runs, execAtom_kept (.refl s), execAtom_only (.refl s) (.self _)⟩
  | .msg .. => ⟨execMsg_runs, execMsg_kept (.refl s), execMsg_only (.refl s) (.self _)⟩
  | .rsp .. => ⟨execRsp_runs, execRsp_kept (.refl s), execRsp_only (.refl s) (.self _)⟩
  | .rdata .. => ⟨execRdata_runs, execRdata_kept (.refl s), execRdata_only (.refl s) (.self _)⟩
  | .hail .. => ⟨execHail_runs, execHail_kept (.refl s), execHail_only (.refl s) (.self _)⟩
  | .report .. => ⟨execReport_runs, execReport_kept (.refl s), execReport_only (.refl s) (.self _)⟩
  | .requestTimeout .. => ⟨execRequestTimeout_runs, execRequestTimeout_kept (.refl s), execRequestTimeout_only (.refl s) (.self _)⟩
  | .busyRetry .. => ⟨execBusyRetry_runs, execBusyRetry_kept (.refl s), execBusyRetry_only (.refl s) (.self _)⟩
  | .atomRecordExpiry .. => ⟨execAtomRecordExpiry_runs, execAtomRecordExpiry_kept (.refl s), execAtomRecordExpiry_only (.refl s) (.self _)⟩
  | .peerSweep => ⟨execPeerSweep_runs, execPeerSweep_kept (.refl s), execPeerSweep_only (.refl s) (.self _)⟩
  | .duplicateIdClear => ⟨execDuplicateIdClear_runs, execDuplicateIdClear_kept (.refl s), execDuplicateIdClear_only (.refl s) (.self _)⟩
  | .pwrEnRise => ⟨execPwrEnRise_runs, execPwrEnRise_kept (.refl s), execPwrEnRise_only (.refl s) (.self _)⟩
  | .pwrEnFall => ⟨execPwrEnFall_runs, execPwrEnFall_kept (.refl s), execPwrEnFall_only (.refl s) (.self _)⟩
  | .sysRstNAssert => ⟨execSysRstNAssert_runs, execSysRstNAssert_kept (.refl s), execSysRstNAssert_only (.refl s) (.self _)⟩
  | .sysRstNRelease .. => ⟨execSysRstNRelease_runs, execSysRstNRelease_kept (.refl s), execSysRstNRelease_only (.refl s) (.self _)⟩
  | .refclkLoss => ⟨execRefclkLoss_runs, execRefclkLoss_kept (.refl s), execRefclkLoss_only (.refl s) (.self _)⟩
  | .pllUnlock => ⟨execPllUnlock_runs, execPllUnlock_kept (.refl s), execPllUnlock_only (.refl s) (.self _)⟩
  | .inputLow .. => ⟨execInputLow_runs, execInputLow_kept (.refl s), execInputLow_only (.refl s) (.self _)⟩
  | .inputLoss => ⟨execInputLoss_runs, execInputLoss_kept (.refl s), execInputLoss_only (.refl s) (.self _)⟩
  | .inputRestored => ⟨execInputRestored_runs, execInputRestored_kept (.refl s), execInputRestored_only (.refl s) (.self _)⟩
  | .inputLossTimeout => ⟨execInputLossTimeout_runs, execInputLossTimeout_kept (.refl s), execInputLossTimeout_only (.refl s) (.self _)⟩
  | .railFault _ mv => ⟨execRailFault_runs (mv := mv), execRailFault_kept (mv := mv) (.refl s), execRailFault_only (mv := mv) (.refl s) (.self _)⟩
  | .vprogFault .. => ⟨execVprogFault_runs, execVprogFault_kept (.refl s), execVprogFault_only (.refl s) (.self _)⟩
  | .domainPowerRequest .. => ⟨execDomainPowerRequest_runs, execDomainPowerRequest_kept (.refl s), execDomainPowerRequest_only (.refl s) (.self _)⟩
  | .domainSequenceDone .. => ⟨execDomainSequenceDone_runs, execDomainSequenceDone_kept (.refl s), execDomainSequenceDone_only (.refl s) (.self _)⟩
  | .domainFault .. => ⟨execDomainFault_runs, execDomainFault_kept (.refl s), execDomainFault_only (.refl s) (.self _)⟩
  | .ridgeIdlePowerOff .. => ⟨execRidgeIdlePowerOff_runs, execRidgeIdlePowerOff_kept (.refl s), execRidgeIdlePowerOff_only (.refl s) (.self _)⟩
  | .clayGroupWriteDone => ⟨execClayGroupWriteDone_runs, execClayGroupWriteDone_kept (.refl s), execClayGroupWriteDone_only (.refl s) (.self _)⟩
  | .clayRecordUpdate .. => ⟨execClayRecordUpdate_runs, execClayRecordUpdate_kept (.refl s), execClayRecordUpdate_only (.refl s) (.self _)⟩
  | .clayRecordRead .. => ⟨execClayRecordRead_runs, execClayRecordRead_kept (.refl s), execClayRecordRead_only (.refl s) (.self _)⟩
  | .failureLogWrite => ⟨execFailureLogWrite_runs, execFailureLogWrite_kept (.refl s), execFailureLogWrite_only (.refl s) (.self _)⟩
  | .linkLockLost .. => ⟨execLinkLockLost_runs, execLinkLockLost_kept (.refl s), execLinkLockLost_only (.refl s) (.self _)⟩
  | .refclkRestored => ⟨execRefclkRestored_runs, execRefclkRestored_kept (.refl s), execRefclkRestored_only (.refl s) (.self _)⟩
  | .hrdyMinimumTime .. => ⟨execHrdyMinimumTime_runs, execHrdyMinimumTime_kept (.refl s), execHrdyMinimumTime_only (.refl s) (.self _)⟩

/-- Settles O55: an answer from the command's run, the queue and the clocks from what its meaning keeps. -/
theorem commandsRunAndLeaveTheClocks : Obligations.CommandsRunAndLeaveTheClocks := by
  unfold Obligations.CommandsRunAndLeaveTheClocks
  intro c s
  obtain ⟨t, ht⟩ := (exec_confined c s).runs
  exact ⟨t, ht, ((exec_confined c s).kept t ht).clock⟩

/-- Settles O56: the areas that a command's meaning may reach are those that mayChange lists. -/
theorem commandsChangeOnlyTheirAreas : Obligations.CommandsChangeOnlyTheirAreas := by
  unfold Obligations.CommandsChangeOnlyTheirAreas
  exact fun c s t a ht ha => (exec_confined c s).only t ht a ha

/-! ### The canonical form of the byte memories -/

theorem tick_host (s : State) : (tick s).host = { s.host with portA := (tick s).host.portA, portB := (tick s).host.portB } := ports_pinSync _

theorem tick_mem (s : State) : (tick s).mem = s.mem := by
  rw [tick, pinSync_eq]

theorem tick_clay (s : State) : (tick s).clay = s.clay := by
  rw [tick, pinSync_eq]

/-- A cycle moves the waits and the pins, and no byte of any memory. -/
theorem tick_memoriesOk {s : State} (h : MemoriesOk s) : MemoriesOk (tick s) where
  loam r := by rw [tick_ridges]; exact h.loam r
  memA := by rw [tick_host]; exact h.memA
  memB := by rw [tick_host]; exact h.memB
  pool := by rw [tick_host]; exact h.pool
  dram := by rw [tick_mem]; exact h.dram
  clay := by rw [tick_clay]; exact h.clay

theorem dequeue_memoriesOk {s : State} (h : MemoriesOk s) (rest : List Instr) : MemoriesOk { s with pending := rest } :=
  ⟨h.loam, h.memA, h.memB, h.pool, h.dram, h.clay⟩

theorem exec_memoriesOk {c : Instr} {s t : State} (h : MemoriesOk s) (ht : exec c s = .next t) : MemoriesOk t :=
  ((exec_confined c s).kept t ht).mems h

/-- Settles O58: with the queue empty a cycle passes, else the command in front acts on the state with the queue's rest. -/
theorem everyStepKeepsMemoriesCanonical : Obligations.EveryStepKeepsMemoriesCanonical := by
  unfold Obligations.EveryStepKeepsMemoriesCanonical
  intro s t h ht
  cases hq : s.pending with
  | nil =>
    rw [step_of_idle hq] at ht
    cases ht
    exact tick_memoriesOk h
  | cons c rest =>
    rw [step_of_front hq] at ht
    exact exec_memoriesOk (dequeue_memoriesOk h rest) ht

/-- Settles O59: every byte memory of the reset state is the empty table. -/
theorem resetMemoriesAreCanonical : Obligations.ResetMemoriesAreCanonical := by
  unfold Obligations.ResetMemoriesAreCanonical
  exact ⟨fun _ => rfl, rfl, rfl, rfl, rfl, rfl⟩

end Sys2Proof.Laws
end

section
/-!
SUPPORT. What a reset leaves of each ridge (R447, R455, R456): its cells, its map and what is recorded of it.
-/

namespace Sys2Proof.Laws

open Sys2Proof.Machine Sys2Proof.Safety

/-- A part of a ridge through a reset, listed or not: a ridge that the table does not list is at reset, where resetRidge leaves that part. -/
theorem getR_resetLogic {β : Type} (g : RidgeSt → β) (s : State) (cause : Nat) (off : Bool) (r : Nat) (hg : g (resetRidge s .reset) = g .reset) :
    g (getR (resetLogic s cause off) r) = g (resetRidge s (getR s r)) := tget_map' _ _ g hg _ _

theorem resetRidge_cells (s : State) (rd : RidgeSt) (k : Nat) : (tileOf (resetRidge s rd) k).cells = (tileOf rd k).cells := tget_map' _ resetTile Tile.cells rfl _ _

theorem resetLogic_cells (s : State) (cause : Nat) (off : Bool) (r k : Nat) : (getTile (resetLogic s cause off) r k).cells = (getTile s r k).cells :=
  (getR_resetLogic (fun rd => (tileOf rd k).cells) s cause off r rfl).trans (resetRidge_cells s _ k)

/-- What a reset keeps of a ridge: its map, its failure and its window numbers. -/
theorem resetLogic_ridgeKept (s : State) (cause : Nat) (off : Bool) (r : Nat) : let t := resetLogic s cause off
    (getR t r).map = (getR s r).map ∧ (getR t r).failed = (getR s r).failed ∧ (getR t r).nextId = (getR s r).nextId :=
  ⟨getR_resetLogic RidgeSt.map s cause off r rfl, getR_resetLogic RidgeSt.failed s cause off r rfl, getR_resetLogic RidgeSt.nextId s cause off r rfl⟩

/-- What a reset drops of a ridge: its window, its Loam, its slots and its job. -/
theorem resetLogic_ridgeDropped (s : State) (cause : Nat) (off : Bool) (r : Nat) : let t := resetLogic s cause off
    (getR t r).win = [] ∧ (getR t r).loam = [] ∧ (getR t r).slots = [] ∧ (getR t r).job = none :=
  ⟨getR_resetLogic RidgeSt.win s cause off r rfl, getR_resetLogic RidgeSt.loam s cause off r rfl, getR_resetLogic RidgeSt.slots s cause off r rfl,
    getR_resetLogic RidgeSt.job s cause off r rfl⟩

/-- The lockout goes with the supply alone (R427). -/
theorem resetLogic_locked {s : State} (cause : Nat) (off : Bool) (h : s.clay.locked = true) : (resetLogic s cause off).clay.locked = !off := by
  show (s.clay.locked && !off) = !off
  rw [h, Bool.true_and]

/-- Settles O38: a ridge's part of a reset by the lemmas above; every other field is the one that the reset writes out. -/
theorem resetsKeepCellsAndRecords : Obligations.ResetsKeepCellsAndRecords := by
  unfold Obligations.ResetsKeepCellsAndRecords
  intro s cause off
  obtain ⟨hmem, hjobs, hropes⟩ := resetLogic_work s cause off
  obtain ⟨hrecs, hbytes, -⟩ := resetLogic_clay s cause off
  exact ⟨resetLogic_cells s cause off, resetLogic_ridgeKept s cause off, resetLogic_ridgeDropped s cause off,
    hjobs, hropes, hmem, rfl, rfl, rfl, rfl, rfl, rfl,
    hrecs, hbytes, rfl, rfl, rfl, resetLogic_locked cause off, rfl, rfl, rfl, rfl, rfl, rfl, rfl, rfl⟩

end Sys2Proof.Laws
end

section
/-!
SUPPORT. Power domains (R441, R443 to R448): a request and what it starts, the end of a sequence, the faults, and an idle ridge's power-off, each as the state that the row answers and the domains and ridges in it.
-/

namespace Sys2Proof.Laws

open Sys2Proof.Machine Sys2Proof.Safety

section
variable {s : State}

/-! ### A request (R445, R446) -/

theorem domainPowerRequest_next {d : Fin 212} {on : Bool} (hawake : awake s = true) (hallowed : domAllowed s d on = true) (hfw : on = false → s.cmc.fw = .running) :
    exec (.domainPowerRequest d on) s = .next (powerRequest s d on) := by
  show execDomainPowerRequest d on s = _
  have hpass : (awake s && domAllowed s d on && (on || decide (s.cmc.fw = .running))) = true := by
    cases on
    · simp [hawake, hallowed, hfw rfl]
    · simp [hawake, hallowed]
  rw [execDomainPowerRequest, if_pos hpass]

theorem powerRequest_target (s : State) (d : Nat) (on : Bool) : (getDom (powerRequest s d on) d).target = on := by
  rw [request_st]
  dsimp only
  split
  · rfl
  · split <;> rfl

theorem powerRequest_st_of_off {d : Nat} (on : Bool) (h : (getDom s d).st = .off) :
    (getDom (powerRequest s d on) d).st = if on && (earlierDoms d).all (domOn s) then .poweringUp else .off := by
  rw [request_st]
  simp only [h, decide_true, Bool.true_and, reduceCtorEq, decide_false, Bool.false_and, Bool.false_eq_true, if_false]
  split
  · rfl
  · rfl

theorem powerRequest_st_of_on {d : Nat} (on : Bool) (h : (getDom s d).st = .on) :
    (getDom (powerRequest s d on) d).st = if !on && (laterDoms d).all (fun e => (getDom s e).st = .off) then .poweringDown else .on := by
  rw [request_st]
  simp only [h, decide_true, Bool.true_and, reduceCtorEq, decide_false, Bool.false_and, Bool.false_eq_true, if_false]
  split
  · rfl
  · rfl

theorem powerRequest_st_of_busy {d : Nat} (on : Bool) (hoff : (getDom s d).st ≠ .off) (hon : (getDom s d).st ≠ .on) :
    (getDom (powerRequest s d on) d).st = (getDom s d).st := by
  rw [request_st]
  simp only [hoff, hon, decide_false, Bool.false_and, Bool.false_eq_true, if_false]

/-! ### The end of a sequence (R444 to R447) -/

theorem domainSequenceDone_next (d : Fin 212) (hon : s.pmu.on = true) : exec (.domainSequenceDone d) s = .next (domDone s d) := by
  show execDomainSequenceDone d s = _
  rw [execDomainSequenceDone, if_pos hon]

section
variable {d : Nat}

theorem domDone_up (hst : (getDom s d).st = .poweringUp) :
    domDone s d = (if d < 192 then ridgeDoms (d / 4) else [d]).foldl domStart (domFresh (setDom s d ⟨.on, (getDom s d).target, s.now⟩) d) := by
  simp only [domDone, hst]

theorem domDone_down (hst : (getDom s d).st = .poweringDown) :
    domDone s d = (if d < 192 then ridgeDoms (d / 4) else [d]).foldl domStart (setDom s d ⟨.off, (getDom s d).target, s.now⟩) := by
  simp only [domDone, hst]

/-- A domain that has reached its target stays there while what waited for it starts. -/
theorem getDom_domDone_up (hst : (getDom s d).st = .poweringUp) (htarget : (getDom s d).target = true) : getDom (domDone s d) d = ⟨.on, true, s.now⟩ := by
  rw [domDone_up hst, htarget]
  refine domStart_fold_keep d _ (.inl ⟨rfl, rfl⟩) _ _ ?_
  rw [getDom, domFresh_pmu]
  exact getDom_setDom_self s d _

theorem getDom_domDone_down (hst : (getDom s d).st = .poweringDown) (htarget : (getDom s d).target = false) : getDom (domDone s d) d = ⟨.off, false, s.now⟩ := by
  rw [domDone_down hst, htarget]
  exact domStart_fold_keep d _ (.inr ⟨rfl, rfl⟩) _ _ (getDom_setDom_self s d _)

/-- What waits for a domain starts without touching a ridge. -/
theorem getR_domDone_up (hst : (getDom s d).st = .poweringUp) (r : Nat) :
    getR (domDone s d) r = getR (domFresh (setDom s d ⟨.on, (getDom s d).target, s.now⟩) d) r := by
  rw [domDone_up hst]
  exact getR_congr (domStart_fold_ridges _ _) r

theorem domFresh_loam (s : State) (hd : d < 192) (hk : d % 4 = 3) : domFresh s d = updR s (d / 4) freshLoam := by
  rw [domFresh, if_pos hd, if_pos hk]

theorem domFresh_digital (s : State) (hd : d < 192) (hk : d % 4 = 2) : domFresh s d = clockRestart (updR s (d / 4) freshDigital) (d / 4) := by
  rw [domFresh, if_pos hd, if_neg (by omega), if_pos hk]

theorem domDone_loam (hst : (getDom s d).st = .poweringUp) (hd : d < 192) (hk : d % 4 = 3) : getR (domDone s d) (d / 4) = freshLoam (getR s (d / 4)) := by
  rw [getR_domDone_up hst, domFresh_loam _ hd hk, getR_updR_self]
  rfl

theorem domDone_digital (hst : (getDom s d).st = .poweringUp) (hd : d < 192) (hk : d % 4 = 2) : getR (domDone s d) (d / 4) = freshDigital (getR s (d / 4)) := by
  rw [getR_domDone_up hst, domFresh_digital _ hd hk]
  exact getR_updR_self _ _ _

end

/-! ### Faults (R441, R448) -/

theorem domainFault_next (d : Fin 212) (hon : s.pmu.on = true) (hst : (getDom s d).st = .poweringUp ∨ (getDom s d).st = .poweringDown) :
    let s1 := setDom s d { getDom s d with st := .fault, since := s.now }
    exec (.domainFault d) s = .next (if d.val < 192 then powerEvent (failRidge s1 (d.val / 4)) 0x02 d 0xFF 0 else boot (logicReset s1 0x04) true true) := by
  have hpass : (s.pmu.on && (decide ((getDom s d).st = .poweringUp) || decide ((getDom s d).st = .poweringDown))) = true := by
    simpa [hon] using hst
  show execDomainFault d s = _
  simp only [execDomainFault, if_pos hpass, railReset]

theorem vprogFault_next (r : Ridge) (mv : Nat) (hawake : awake s = true) :
    exec (.vprogFault r mv) s = .next (powerEvent (stopEngine s r) 0x02 (4 * r.val) 5 mv) := by
  show execVprogFault r mv s = _
  rw [execVprogFault, if_pos hawake]

/-- A stopped engine's operation goes back into the queue. -/
theorem stopEngine_of_engine {r : Nat} {o : ProgOp} (h : (getR s r).engine = some o) :
    stopEngine s r = { updR s r (fun rd => { rd with engine := none }) with progQueue := s.progQueue ++ [o] } := by
  simp only [stopEngine, h]

theorem getR_stopEngine_ne {r q : Nat} (hq : q ≠ r) : getR (stopEngine s r) q = getR s q := by
  unfold stopEngine
  split
  · exact getR_updR_ne s r q (fun rd => { rd with engine := none }) hq.symm
  · rfl

theorem getR_powerEvent (s : State) (cause dom rail mv r : Nat) : getR (powerEvent s cause dom rail mv) r = getR s r := getR_raise ..

theorem progQueue_vprogFault {r : Nat} {o : ProgOp} (mv : Nat) (h : (getR s r).engine = some o) :
    (powerEvent (stopEngine s r) 0x02 (4 * r) 5 mv).progQueue = s.progQueue ++ [o] := by
  rw [stopEngine_of_engine h]
  rfl

/-! ### An idle ridge (R443, R445) -/

theorem ridgeIdlePowerOff_next {r : Ridge} (hawake : awake s = true) (hfw : s.cmc.fw = .running) (hidle : ridgeIdle s r = true)
    (hlong : (getR s r).idleSince + 2 ^ 20 ≤ s.now) (hup : ridgeUp s r = true) : exec (.ridgeIdlePowerOff r) s = .next (ridgePower s r false) := by
  show execRidgeIdlePowerOff r s = _
  have hpass : (awake s && decide (s.cmc.fw = .running) && ridgeIdle s r && decide ((getR s r).idleSince + 2 ^ 20 ≤ s.now) && ridgeUp s r) = true := by
    simp only [hawake, hfw, hidle, hlong, hup, decide_true, Bool.and_self]
  rw [execRidgeIdlePowerOff, if_pos hpass]

theorem powerRequests_eq (on : Bool) (l : List Nat) (s : State) :
    l.foldl (fun s d => powerRequest s d on) s = { s with pmu := { s.pmu with dom := (l.foldl (fun s d => powerRequest s d on) s).pmu.dom } } := by
  induction l generalizing s with
  | nil => rfl
  | cons d l ih => rw [List.foldl_cons, ih, powerRequest_eq]

theorem ridgePower_eq (s : State) (r : Nat) (on : Bool) : ridgePower s r on = { s with pmu := { s.pmu with dom := (ridgePower s r on).pmu.dom } } := by
  unfold ridgePower
  exact powerRequests_eq on (ridgeDoms r) s

/-- The four requests in their order: digital, Loam, and the two domains that need them. -/
theorem ridgePower_requests (s : State) (r : Nat) (on : Bool) :
    ridgePower s r on = powerRequest (powerRequest (powerRequest (powerRequest s (4 * r + 2) on) (4 * r + 3) on) (4 * r + 1) on) (4 * r) on := by
  simp only [ridgePower, ridgeDoms, List.foldl_cons, List.foldl_nil]

theorem ridgeUp_st {r k : Nat} (hup : ridgeUp s r = true) (hk : k < 4) : (getDom s (4 * r + k)).st = .on := by
  have h := List.all_eq_true.mp hup k (List.mem_range.mpr hk)
  exact of_decide_eq_true h

/-- No domain needs the two that go up last. -/
theorem laterDoms_upper (r : Nat) {k : Nat} (hk : k < 2) : laterDoms (4 * r + k) = [] := by
  have hout : ¬(decide (4 * r + k < 192) && decide (2 ≤ (4 * r + k) % 4)) = true := by
    simp only [Bool.and_eq_true, decide_eq_true_eq]
    omega
  rw [laterDoms, if_neg hout]

/-- Those two need the ridge's other two. -/
theorem laterDoms_lower {r k : Nat} (hr : r < 48) (hk : k = 2 ∨ k = 3) : laterDoms (4 * r + k) = [4 * r, 4 * r + 1] := by
  have hin : (decide (4 * r + k < 192) && decide (2 ≤ (4 * r + k) % 4)) = true := by
    simp only [Bool.and_eq_true, decide_eq_true_eq]
    omega
  have hbase : (4 * r + k) / 4 * 4 = 4 * r := by omega
  rw [laterDoms, if_pos hin, hbase]

/-- A domain that no other needs goes down at once. -/
theorem powerOff_unneeded {d : Nat} (hon : (getDom s d).st = .on) (hlater : laterDoms d = []) :
    (getDom (powerRequest s d false) d).target = false ∧ (getDom (powerRequest s d false) d).st = .poweringDown :=
  ⟨powerRequest_target s d false, by rw [powerRequest_st_of_on false hon, hlater]; rfl⟩

/-- A domain that one that is not OFF needs waits for it. -/
theorem powerOff_needed {d e : Nat} (hon : (getDom s d).st = .on) (he : e ∈ laterDoms d) (hst : (getDom s e).st ≠ .off) :
    (getDom (powerRequest s d false) d).target = false ∧ (getDom (powerRequest s d false) d).st = .on := by
  refine ⟨powerRequest_target s d false, ?_⟩
  rw [powerRequest_st_of_on false hon, if_neg]
  intro hall
  rw [Bool.not_false, Bool.true_and, List.all_eq_true] at hall
  exact hst (of_decide_eq_true (hall e he))

theorem ridgePower_off {r k : Nat} (hr : r < 48) (hup : ridgeUp s r = true) (hk : k < 4) :
    (getDom (ridgePower s r false) (4 * r + k)).target = false ∧ (getDom (ridgePower s r false) (4 * r + k)).st = if k < 2 then .poweringDown else .on := by
  have hon (j : Nat) (hj : j < 4) : (getDom s (4 * r + j)).st = .on := ridgeUp_st hup hj
  have hbase : (getDom s (4 * r)).st = .on := hon 0 (by decide)
  have hneeds (j : Nat) (hj : j = 2 ∨ j = 3) : 4 * r ∈ laterDoms (4 * r + j) := laterDoms_lower hr hj ▸ List.mem_cons_self
  rw [ridgePower_requests]
  match k with
  | 0 =>
    refine powerOff_unneeded ?_ (laterDoms_upper r (k := 0) (by decide))
    rw [request_ne _ _ _ _ (by omega), request_ne _ _ _ _ (by omega), request_ne _ _ _ _ (by omega), hbase]
  | 1 =>
    rw [request_ne _ _ _ _ (by omega)]
    refine powerOff_unneeded ?_ (laterDoms_upper r (k := 1) (by decide))
    rw [request_ne _ _ _ _ (by omega), request_ne _ _ _ _ (by omega), hon 1 hk]
  | 2 =>
    rw [request_ne _ _ _ _ (by omega), request_ne _ _ _ _ (by omega), request_ne _ _ _ _ (by omega)]
    refine powerOff_needed (hon 2 hk) (hneeds 2 (.inl rfl)) ?_
    rw [hbase]
    decide
  | 3 =>
    rw [request_ne _ _ _ _ (by omega), request_ne _ _ _ _ (by omega)]
    refine powerOff_needed ?_ (hneeds 3 (.inr rfl)) ?_
    · rw [request_ne _ _ _ _ (by omega), hon 3 hk]
    · rw [request_ne _ _ _ _ (by omega), hbase]
      decide

end

/-- Settles O39, one lemma for each row and each domain or ridge that its clause reads. -/
theorem domainsFollowTheirTargets : Obligations.DomainsFollowTheirTargets := by
  unfold Obligations.DomainsFollowTheirTargets
  refine ⟨fun s d on hawake hallowed hfw => ?request, fun s d hon => ?done, fun s d => domainFault_next d, fun s r mv o hawake hengine => ?vprog,
    fun s r hawake hfw hidle hlong hup => ?idle⟩
  case request =>
    exact ⟨_, domainPowerRequest_next hawake hallowed hfw, powerRequest_eq s d on, powerRequest_target s d on, fun e he => request_ne s d e on he,
      powerRequest_st_of_off on, powerRequest_st_of_on on, powerRequest_st_of_busy on⟩
  case done =>
    refine ⟨_, domainSequenceDone_next d hon, getDom_domDone_up, getDom_domDone_down, fun hst hd hk => ?_, domDone_digital⟩
    rw [domDone_loam hst hd hk]
    exact ⟨rfl, rfl⟩
  case vprog =>
    obtain ⟨-, hstopped, -⟩ := stopEngine_facts s r
    exact ⟨_, vprogFault_next r mv hawake, hstopped, progQueue_vprogFault mv hengine, fun q hq => getR_stopEngine_ne hq⟩
  case idle =>
    exact ⟨_, ridgeIdlePowerOff_next hawake hfw hidle hlong hup, ridgePower_eq s r false, fun k hk => ridgePower_off r.isLt hup hk⟩

end Sys2Proof.Laws
end
